-- ==== Sys2Proof/Word.lean ====
section
/-! DEFINITION. The word types of the CX1T and the type of its sparse tables. -/

namespace Sys2Proof

/-- A byte, the smallest addressable unit of every tier (R205, R230). -/
abbrev Byte := BitVec 8

/-- A V register, an FP32 value, a mark (R168, R86). -/
abbrev Word := BitVec 32

/-- A U register, a time stamp word (R168). -/
abbrev DWord := BitVec 64

/-- A sparse table: the keys that do not hold the table's own default, strictly rising.
What an unlisted key reads as is said by the operation that reads it. -/
abbrev Tbl (α : Type) := List (Nat × α)

end Sys2Proof
end

