-- ==== Sys2Proof/Syntax.lean ====
section
/-! DEFINITION. The commands of the CX1T: one constructor of `Instr` for each row of the opcode table,
with the operands that the outside world (or the unit that acts) gives it. -/

namespace Sys2Proof

/-- The transport a Catalogue request arrives on (R442, R455). -/
inductive Transport where
  /-- mailbox `m` of PCI Express port `port` (R453) -/
  | mbox (port m : Nat)
  /-- Maelgo MGMT packets of connection `conn` (R459) -/
  | mgmt (conn : Nat)
  /-- the rack management bus (R460) -/
  | bus
  /-- the service port (R460) -/
  | service
deriving DecidableEq, Repr, Inhabited

/-- The protected part of a Catalogue request (R414, R444): channel handle, message counter, the header's BULK bit, and the
AES-256-GCM tag that came with the ciphertext. The value that a command carries is what the ciphertext decrypts to. -/
structure Prot where
  chan : Nat
  ctr : Nat
  bulk : Bool
  tag : List Byte
deriving DecidableEq, Repr, Inhabited

/-- The envelope of one Catalogue request (R444): when it is accepted, from which session and transport,
its TYPE code, its reserved header bits, its protection, its REQ_ID. -/
structure Req where
  at_ : Nat
  sess : Nat
  transport : Transport
  typ : Nat
  rsv : Nat
  prot : Option Prot
  reqId : Nat
deriving DecidableEq, Repr, Inhabited

/-- The data set of a PTP Announce (R31, R33). -/
structure Announce where
  domain : Nat
  prio1 : Nat
  clockClass : Nat
  accuracy : Nat
  variance : Nat
  prio2 : Nat
  gm : DWord
  src : DWord
  /-- the master withdraws: it has not been heard for the announce receipt limit -/
  lost : Bool
deriving DecidableEq, Repr, Inhabited

/-- A received Maelgo packet: the frame that carries it (R323). -/
structure Pkt where
  /-- data port -/
  port : Nat
  /-- receive stamp (R29) -/
  at_ : Nat
  /-- the frame from its destination address to its FCS -/
  data : List Byte
  /-- the read that would serve it, or the NACK busy that would answer it, gets no credits (R23) -/
  full : Bool
deriving DecidableEq, Repr, Inhabited

/-- A received Ethernet frame (R315 to R319). -/
structure Frame where
  port : Nat
  at_ : Nat
  /-- the frame from its destination address to its FCS -/
  data : List Byte
  /-- network receive gets no class 1 or class 2 credits for it (R23) -/
  full : Bool
  /-- corrected codewords, uncorrectable codewords, corrected symbols of the PCS (R315) -/
  fecCorrected : Nat
  fecUncorrected : Nat
  fecSymbols : Nat
  symbolErr : Bool
deriving DecidableEq, Repr, Inhabited

/-- One sample of the Cap (R384, R386). The activity model is the device's own: the estimate of the
module power and of each rail current, and the forecast for every duty cap 8 down to 2, are inputs.
Powers in milliwatts, currents in milliamperes. -/
structure PowerSample where
  at_ : Nat
  power : Nat
  rails : List Nat
  /-- forecast module power at duty caps 8, 7, …, 2 of the die acted on -/
  forecast : List Nat
  /-- forecast of each rail at duty caps 8, 7, …, 2 -/
  railForecast : List (List Nat)
deriving DecidableEq, Repr, Inhabited

/-- A host access through a job aperture (R438). -/
inductive ApertureOp where
  | read (n : Nat)
  | write (data : List Byte)
deriving DecidableEq, Repr, Inhabited

/-- One line that a controller finds in error as it reads: its number, whether the check code corrects it (R219), or whether
instead the tag of its granule fails (R226). -/
structure ScrubHit where
  line : Nat
  corrected : Bool
  tag : Bool
deriving DecidableEq, Repr, Inhabited

/-- A firmware image (R403): its 128-byte header, its body, its signature block, and whether the signature verifies under the
vendor key that the header names. -/
structure FwImage where
  header : List Byte
  body : List Byte
  sig : List Byte
  sigOk : Bool
deriving DecidableEq, Repr, Inhabited

/-- A management header with the fragment it precedes (R458, R462). -/
structure MgmtFrag where
  at_ : Nat
  /-- source address of the datagram -/
  src : Nat
  onBus : Bool
  kind : Nat
  more : Bool
  rsv : Nat
  fragOffset : Nat
  totalLen : Nat
  xid : Nat
  /-- session named by the message header -/
  sess : Nat
  data : List Byte
  /-- the frame is neither ARP nor a Catalogue datagram -/
  otherKind : Bool
deriving DecidableEq, Repr, Inhabited

/-- What a memory access that completes belongs to (R22, R191, R241). -/
inductive AccessId where
  /-- the oldest outstanding load or atomic of a bundle returns -/
  | bundleLoad (u b : Nat)
  /-- the oldest outstanding store of a bundle is accepted by its sink -/
  | bundleStore (u b : Nat)
  /-- line `n` among those outstanding of the `i`-th outstanding FETCH, PUT or FMT of a slip context lands or is accepted:
  lines land in any order (R242) -/
  | slip (u x i n : Nat)
  /-- the memories that a waiting COPY goes to take requests again (R22, R24) -/
  | copy (k : Nat)
deriving DecidableEq, Repr, Inhabited

/-- A PTP delay message (R31). -/
inductive DelayMsg where
  /-- a Delay_Req, or a Pdelay_Req when `peer`, is received: its domain and source -/
  | request (peer : Bool) (domain : Nat) (src : DWord)
  /-- a Delay_Resp, or a Pdelay_Resp when `peer`, is received: its domain and source, and the path delay that the
  measurement it closes gives, in units -/
  | response (peer : Bool) (domain : Nat) (src : DWord) (pathDelay : Int)
deriving DecidableEq, Repr, Inhabited

/-- The low 56 bits of a thread instruction word: everything below OPC, which the constructor names (R175). -/
abbrev TWord := BitVec 56

/-- The low 58 bits of a slip instruction word: everything below OP, which the constructor names (R240). -/
abbrev SWord := BitVec 58

/-- The commands: one constructor per row of the opcode table, in the table's order.
`at_` is the timebase reading at which a command from outside is accepted; a command of a clocked unit
that the spec places at an instant of its own has none, and finds its instant in the state. -/
inductive Instr where
  -- timebase
  | sync (at_ port sec frac domain : Nat) (src : DWord)
  | announce (at_ port : Nat) (a : Announce)
  | syncTimeout
  | holdoverLimit
  | tbSet (r : Req) (v : Nat)
  | ptpSlaveOnly (r : Req) (v : Nat)
  -- timetable
  | ttTable (r : Req) (img : List Byte)
  | ttStage (r : Req) (v : Nat)
  | ttEpoch (r : Req) (v : Nat)
  | ttFirstStep (r : Req) (v : Nat)
  | ttAnchorJob (r : Req) (v : Nat)
  | ttLastStep (r : Req) (v : Nat)
  | ttStop (r : Req)
  | ttResume (r : Req)
  | ttUnload (r : Req)
  | ttRunStart
  | ttRejoin
  | slotStart
  | firmEnd
  | slotPlannedEnd
  | phaseChange (at_ : Nat)
  | phaseLead (at_ : Nat)
  -- jobs and rings
  | jobStart (r : Req) (j : Nat)
  | jobStop (r : Req) (j : Nat)
  | jobTeardown (r : Req) (j : Nat)
  | teardownComplete (at_ j : Nat)
  | secJobCreate (r : Req) (slot job : Nat)
  | ringConfig (r : Req) (j q : Nat) (rec : List Byte)
  | ringRestart (r : Req) (j q : Nat)
  | ringResume (r : Req) (j q : Nat)
  | ringReset (r : Req) (j q : Nat)
  | ringDoorbell (at_ port j q : Nat) (v : Word)
  | ringPush (at_ port j q off tlps : Nat) (data : List Byte)
  | descriptorFetch (at_ j q : Nat)
  | phaseRefetch (j q : Nat)
  | waitTimeout (c : Nat)
  | commandStartOnUnit (at_ c u : Nat)
  | parkedResume (at_ c u : Nat)
  | commandRetire (at_ c : Nat)
  -- commands: dispatch of the fetched command `c`
  | launch (at_ c : Nat)
  | waitPosition (at_ c : Nat)
  | stamp (at_ c : Nat)
  | join (at_ c : Nat)
  | markWrite (at_ c : Nat)
  | jobDrain (at_ c : Nat)
  | interrupt (at_ c : Nat)
  | traceMarker (at_ c : Nat)
  | sampleNow (at_ c : Nat)
  | copy (at_ c : Nat)
  | slip (at_ c : Nat)
  | send (at_ c : Nat)
  | contribute (at_ c : Nat)
  | reduce (at_ c : Nat)
  | reduceClose (c : Nat)
  | sweep (at_ c : Nat)
  | gather (at_ c : Nat)
  | exportRec (at_ c : Nat)
  | importRec (at_ c : Nat) (sigOk : Bool)
  -- thread instructions: bundle `b` of unit `u` issues the word with these low 56 bits
  | fadd (u b : Nat) (w : TWord)
  | fmul (u b : Nat) (w : TWord)
  | ffma (u b : Nat) (w : TWord)
  | fmin (u b : Nat) (w : TWord)
  | fmax (u b : Nat) (w : TWord)
  | sel (u b : Nat) (w : TWord)
  | frcp (u b : Nat) (w : TWord)
  | frsq (u b : Nat) (w : TWord)
  | fsqrt (u b : Nat) (w : TWord)
  | fexp2 (u b : Nat) (w : TWord)
  | flog2 (u b : Nat) (w : TWord)
  | ftanh (u b : Nat) (w : TWord)
  | faddi (u b : Nat) (w : TWord)
  | fmuli (u b : Nat) (w : TWord)
  | iadd (u b : Nat) (w : TWord)
  | isub (u b : Nat) (w : TWord)
  | imul (u b : Nat) (w : TWord)
  | imad (u b : Nat) (w : TWord)
  | imin (u b : Nat) (w : TWord)
  | imax (u b : Nat) (w : TWord)
  | umin (u b : Nat) (w : TWord)
  | umax (u b : Nat) (w : TWord)
  | and (u b : Nat) (w : TWord)
  | or (u b : Nat) (w : TWord)
  | xor (u b : Nat) (w : TWord)
  | shl (u b : Nat) (w : TWord)
  | shr (u b : Nat) (w : TWord)
  | sar (u b : Nat) (w : TWord)
  | popc (u b : Nat) (w : TWord)
  | clz (u b : Nat) (w : TWord)
  | iaddi (u b : Nat) (w : TWord)
  | andi (u b : Nat) (w : TWord)
  | ori (u b : Nat) (w : TWord)
  | shli (u b : Nat) (w : TWord)
  | shri (u b : Nat) (w : TWord)
  | movi (u b : Nat) (w : TWord)
  | mov (u b : Nat) (w : TWord)
  | movu (u b : Nat) (w : TWord)
  | movuh (u b : Nat) (w : TWord)
  | fsetp (u b : Nat) (w : TWord)
  | isetp (u b : Nat) (w : TWord)
  | usetp (u b : Nat) (w : TWord)
  | plop (u b : Nat) (w : TWord)
  | cvt (u b : Nat) (w : TWord)
  | offs (u b : Nat) (w : TWord)
  | shfl (u b : Nat) (w : TWord)
  | shflx (u b : Nat) (w : TWord)
  | red (u b : Nat) (w : TWord)
  | scan (u b : Nat) (w : TWord)
  | vote (u b : Nat) (w : TWord)
  | rdlane (u b : Nat) (w : TWord)
  | uadd (u b : Nat) (w : TWord)
  | usub (u b : Nat) (w : TWord)
  | umul (u b : Nat) (w : TWord)
  | uand (u b : Nat) (w : TWord)
  | uor (u b : Nat) (w : TWord)
  | ushl (u b : Nat) (w : TWord)
  | ushr (u b : Nat) (w : TWord)
  | umovi (u b : Nat) (w : TWord)
  | umovhi (u b : Nat) (w : TWord)
  | uaddi (u b : Nat) (w : TWord)
  | ucmp (u b : Nat) (w : TWord)
  | ld (u b : Nat) (w : TWord)
  | st (u b : Nat) (w : TWord)
  | atom (u b : Nat) (w : TWord)
  | pref (u b : Nat) (w : TWord)
  | fence (u b : Nat) (w : TWord)
  | fenceComplete (u b : Nat)
  | bar (u b : Nat) (w : TWord)
  | barrierComplete (u c n : Nat)
  | nap (u b : Nat) (w : TWord)
  | napEnd (u b : Nat)
  | tens (u b : Nat) (w : TWord)
  | twait (u b : Nat) (w : TWord)
  | strmRun (u b : Nat) (w : TWord)
  | strmFree (u b : Nat) (w : TWord)
  | swait (u b : Nat) (w : TWord)
  | statmx (u b : Nat) (w : TWord)
  | seal (u b : Nat) (w : TWord)
  | sreg (u b : Nat) (w : TWord)
  | bra (u b : Nat) (w : TWord)
  | call (u b : Nat) (w : TWord)
  | ret (u b : Nat) (w : TWord)
  | exit (u b : Nat) (w : TWord)
  -- tensor instructions: engine `e` of unit `u` executes the word at the front of its queue
  | mma (at_ u e : Nat)
  | load (at_ u e : Nat)
  | store (at_ u e : Nat)
  | release (at_ u e : Nat)
  | debugRead (at_ u e : Nat)
  | tensorComplete (at_ u e : Nat)
  -- call slips: context `x` of unit `u`'s mover issues the word with these low 58 bits
  | slipContextStart (u : Nat)
  | fetch (at_ u x : Nat) (w : SWord)
  | put (at_ u x : Nat) (w : SWord)
  | mova (at_ u x : Nat) (w : SWord)
  | addaa (at_ u x : Nat) (w : SWord)
  | setc (at_ u x : Nat) (w : SWord)
  | addc (at_ u x : Nat) (w : SWord)
  | loop (at_ u x : Nat) (w : SWord)
  | open_ (at_ u x : Nat) (w : SWord)
  | close (at_ u x : Nat) (w : SWord)
  | waitmk (at_ u x : Nat) (w : SWord)
  | waitmkTimeout (u x : Nat)
  | sig (at_ u x : Nat) (w : SWord)
  | fmt (at_ u x : Nat) (w : SWord)
  | end_ (at_ u x : Nat) (w : SWord)
  -- statistics, expert tables, seals of record sets
  | roll (j : Nat)
  | numStatRoll (r : Req) (j v : Nat)
  | nmuTableReload (r : Req) (j v : Nat)
  | nmuPlaceThresh (r : Req) (j v : Nat)
  | expSeal (r : Req) (j : Nat) (v : List Byte)
  -- reduction, vote, pace
  | voteClose (j step : Nat)
  | ballot (p : Pkt)
  | voteResult (p : Pkt)
  | voteNoResult (j step : Nat)
  | pace (p : Pkt)
  | contrib (p : Pkt)
  -- Ethernet and Maelgo
  | frameReceive (f : Frame)
  | arpRequest (at_ : Nat) (port : Option Nat) (ip : Nat)
  | txUnderrun (at_ port n : Nat)
  | portLinkChange (at_ port link : Nat)
  | write (p : Pkt)
  | sealWrite (p : Pkt)
  | sealLand (at_ conn : Nat)
  | taintHoldExpiry (conn : Nat)
  | readReq (p : Pkt)
  | versionHoldRetry (k : Nat)
  | readResp (p : Pkt)
  | readTimeout (k : Nat)
  | ack (p : Pkt)
  | nack (p : Pkt)
  | mgmt (p : Pkt)
  | ttsync (p : Pkt)
  | ttsyncSend
  | packetTransmit (at_ conn : Nat)
  | ackDelay (conn : Nat)
  | rtoExpiry (conn : Nat) (seq : Word)
  | contextFetchComplete (at_ conn : Nat)
  | holdTimeout (k : Nat)
  | connectionDrainEnd (at_ conn : Nat)
  | netConnOpen (r : Req) (j : Nat) (rec : List Byte)
  | netConnClose (r : Req) (j v : Nat)
  | netConnQuery (r : Req) (j : Nat) (v : List Byte)
  | netRegionReg (r : Req) (j : Nat) (rec : List Byte)
  | netRegionRevoke (r : Req) (j v : Nat)
  | netRegionQuery (r : Req) (j : Nat) (v : List Byte)
  | revokeSettle (k : Nat)
  | revokeComplete (at_ k : Nat)
  | netPortMode (r : Req) (v : Nat)
  | hostfrRxTail (at_ q : Nat) (v : Word)
  | hostfrTxTail (at_ q : Nat) (v : Word)
  -- memory
  | memAlloc (r : Req) (j : Nat) (rec : List Byte)
  | memFree (r : Req) (j v : Nat)
  | memBringIn (r : Req) (j v : Nat)
  | memRetire (r : Req) (v : Nat)
  | memScrubFull (r : Req) (v : Nat)
  | memRetrain (r : Req) (v : Nat)
  | memIntegrityEn (r : Req) (v : Nat)
  | quotaWrite (r : Req) (j kind : Nat) (v : List Byte)
  | patrolScrub (at_ d : Nat) (hits : List ScrubHit)
  | longOperationEnd (hits : List ScrubHit)
  -- power, heat, clocks
  | capSample (p : PowerSample)
  | capRelax (p : PowerSample)
  | calibration (at_ : Nat) (ratios : List (Nat × Nat))
  | entryChange (die : Nat)
  | thermalSample (at_ : Nat) (temps : List Int)
  | inletSample (at_ : Nat) (temp : Int)
  | droop (at_ det mv : Nat)
  | droopEnd (at_ det : Nat)
  | cuffWave
  | cuffRampStep (u e : Nat)
  | cuffDisengage
  -- security
  | secQuoteReq (r : Req) (v : List Byte)
  | secSessionOpen (r : Req) (v : List Byte)
  | secKeyDeliver (r : Req) (v : List Byte)
  | secKeyProve (r : Req) (tenant : Nat) (mac : List Byte)
  | secSlotErase (r : Req) (v : Nat)
  | secOwnerTransfer (r : Req) (v : List Byte) (sigOk : Bool)
  | secFwInstall (r : Req) (images : List FwImage)
  | secFwActivate (r : Req) (v : Nat)
  | secFwCommit (r : Req) (v : Nat)
  | secIdeKeys (r : Req) (port : Nat) (v : List Byte)
  | secIdeFail (at_ port stream : Nat)
  | secEntropyFail (at_ : Nat)
  -- the Catalogue and its sessions
  | catOpen (r : Req)
  | catClose (r : Req)
  | catNop (r : Req)
  | catRead (r : Req) (index field : Nat)
  | catWrite (r : Req) (index field : Nat) (v : List Byte)
  | rwIdleBarWrite (at_ port j q : Nat)
  | sessLevel (r : Req) (v : Nat)
  | sessChallenge (r : Req)
  | sessOwnerProof (r : Req) (v : List Byte) (sigOk : Bool)
  | sessIdleTimeout (r : Req) (v : Nat)
  | sessionIdleExpiry (sess : Nat)
  | mboxCtrl (at_ port m : Nat) (v : Word) (bulkFails : Bool)
  | apertureAccess (at_ port j off : Nat) (op : ApertureOp)
  | mgmtDatagram (f : MgmtFrag)
  | mgmtCollision (at_ : Nat) (late : Bool)
  | backoffExpiry
  -- telemetry
  | sample (j : Nat)
  | alertCause (r : Req) (v : Nat)
  -- start-up and reset
  | powerOn (pos : BitVec 7)
  | inputLoss (at_ : Nat)
  | modRstNAssert (at_ : Nat)
  | modRstNRelease (at_ : Nat)
  | devReset (r : Req) (v : Nat)
  | railInRegulation (at_ : Nat)
  | gauntletStage1 (at_ : Nat) (bank0 bank1 : List FwImage)
  | gauntletStage2 (at_ : Nat) (entropyOk : Bool) (keys : Nat)
  | dieReady (at_ : Nat)
  | dieReadyTimeout (channel : Option Nat)
  | recoveryReset
  | perstAssert (at_ port : Nat)
  | perstRelease (at_ port : Nat)
  | hostLinkDown (at_ port : Nat)
  | hostReadTimeout (port : Nat)
  -- releases, completions and the remaining events
  | commandRelease (c : Nat)
  | memoryAccessComplete (at_ : Nat) (a : AccessId)
  | poweredHours (h : Nat)
  | entropyRecovery (at_ : Nat)
  | tripCooldown (at_ : Nat)
  | catalogueReset
  | syncInterval (at_ : Nat)
  | delayRequestResponse (at_ : Nat) (m : DelayMsg)
  | hostLinkUp (at_ port rate width : Nat)
  | configurationRequest (at_ port : Nat)
  | hostErrCause (at_ port off : Nat) (data : List Byte)
  | mboxStatus (at_ port m off : Nat) (data : List Byte)
deriving DecidableEq, Repr

end Sys2Proof
end

