-- ==== Sys2Proof/Machine/Tables.lean ====
section
/-! DEFINITION. Sparse tables, bit fields of records held as numbers, and little-endian bytes: the plain
tools that every part of the machine uses. -/

namespace Sys2Proof.Machine

/-- What a table lists for a key. -/
def Tbl.find? {α : Type} : Tbl α → Nat → Option α
  | [], _ => none
  | (k, v) :: t, key => if k = key then some v else Tbl.find? t key

/-- What a table lists for a key, or the value that an unlisted key stands for. -/
def Tbl.getD {α : Type} (t : Tbl α) (key : Nat) (dflt : α) : α := (Tbl.find? t key).getD dflt

/-- The table with `key` listed as `v`, its keys still rising. -/
def Tbl.set {α : Type} : Tbl α → Nat → α → Tbl α
  | [], key, v => [(key, v)]
  | (k, w) :: t, key, v =>
    if key < k then (key, v) :: (k, w) :: t
    else if key = k then (key, v) :: t
    else (k, w) :: Tbl.set t key v

/-- The table without `key`. -/
def Tbl.erase {α : Type} : Tbl α → Nat → Tbl α
  | [], _ => []
  | (k, w) :: t, key => if k = key then Tbl.erase t key else (k, w) :: Tbl.erase t key

/-- The table with every entry that fails `p` taken out. -/
def Tbl.keep {α : Type} (p : Nat → α → Bool) (t : Tbl α) : Tbl α := t.filter fun kv => p kv.1 kv.2

/-- The table with each value put through `f`. -/
def Tbl.mapVals {α : Type} (f : Nat → α → α) (t : Tbl α) : Tbl α := t.map fun kv => (kv.1, f kv.1 kv.2)

/-- Keys strictly rising: the one form in which equal tables are equal data. -/
def Tbl.sorted {α : Type} : Tbl α → Bool
  | [] => true
  | [_] => true
  | (k, _) :: (k', v') :: t => k < k' && Tbl.sorted ((k', v') :: t)

/-- Bits [lo + len - 1 : lo] of a record held as a number (R9). -/
def fld (n lo len : Nat) : Nat := n / 2 ^ lo % 2 ^ len

/-- The record with bits [lo + len - 1 : lo] set to `v`. -/
def setFld (n lo len v : Nat) : Nat := n - fld n lo len * 2 ^ lo + v % 2 ^ len * 2 ^ lo

/-- Bit `i` of a number. -/
def bit (n i : Nat) : Bool := n / 2 ^ i % 2 = 1

/-- 1 for true. -/
def b2n (b : Bool) : Nat := if b then 1 else 0

/-- The number that bytes spell, least significant first (every record in memory is little endian). -/
def leNat : List Byte → Nat
  | [] => 0
  | b :: t => b.toNat + 256 * leNat t

/-- The `n` low bytes of a number, least significant first. -/
def leBytes : Nat → Nat → List Byte
  | 0, _ => []
  | n + 1, v => BitVec.ofNat 8 v :: leBytes n (v / 256)

/-- The number that bytes spell, most significant first (wire order, R324). -/
def beNat (l : List Byte) : Nat := l.foldl (fun a b => a * 256 + b.toNat) 0

/-- The `n` low bytes of a number, most significant first. -/
def beBytes (n v : Nat) : List Byte := (leBytes n v).reverse

/-- Round down to a multiple. -/
def alignDown (x a : Nat) : Nat := x / a * a

/-- ceil (x / a) -/
def ceilDiv (x a : Nat) : Nat := (x + a - 1) / a

/-- The lowest set bit of `n` from bit `i` on, looking at `fuel` bits. -/
def lowestBitFrom : Nat → Nat → Nat → Option Nat
  | 0, _, _ => none
  | fuel + 1, i, n => if n % 2 = 1 then some i else lowestBitFrom fuel (i + 1) (n / 2)

/-- The lowest set bit of `n` below bit `w`. -/
def lowestBit (w n : Nat) : Option Nat := lowestBitFrom w 0 n

/-- The indices of the set bits of `n` below `w`, rising. -/
def setBits (w n : Nat) : List Nat := (List.range w).filter fun i => bit n i

/-- The number of set bits of `n` below bit `w`. -/
def popCount (w n : Nat) : Nat := (setBits w n).length

/-- Replace element `i` of a list, if it has one. -/
def listSet {α : Type} : List α → Nat → α → List α
  | [], _, _ => []
  | _ :: t, 0, v => v :: t
  | h :: t, i + 1, v => h :: listSet t i v

/-- Take away the first element that satisfies `p`. -/
def eraseFirst {α : Type} (p : α → Bool) : List α → List α
  | [] => []
  | h :: t => if p h then t else h :: eraseFirst p t

end Sys2Proof.Machine
end

