-- ==== Sys2Proof/Machine/Num.lean ====
section
/-! DEFINITION. Number formats, rounding, block scales (R134 to R147), FP32 arithmetic (R139, R178) and the special
functions' candidates (R179): values as exact rationals, rounded once. -/

namespace Sys2Proof.Machine

/-! ### Formats (R134)

Code 8 is FP64, which no format field names: the norm accumulators and the vote use it (R364, R371). -/

def fmtWidth : Nat → Nat
  | 0 => 32 | 1 => 16 | 2 => 16 | 3 => 8 | 4 => 8 | 5 => 4 | 6 => 8 | 8 => 64 | _ => 4

/-- fraction bits -/
def fmtFrac : Nat → Nat
  | 0 => 23 | 1 => 7 | 2 => 10 | 3 => 3 | 4 => 2 | 8 => 52 | _ => 1

def fmtBias : Nat → Nat
  | 0 => 127 | 1 => 127 | 2 => 15 | 3 => 7 | 4 => 15 | 8 => 1023 | _ => 1

/-- largest finite magnitude, as an encoding -/
def fmtMax : Nat → Nat
  | 0 => 0x7F7FFFFF | 1 => 0x7F7F | 2 => 0x7BFF | 3 => 0x7E | 4 => 0x7B
  | 8 => 0x7FEFFFFFFFFFFFFF | _ => 0x7

def fmtHasInf : Nat → Bool
  | 0 => true | 1 => true | 2 => true | 4 => true | 8 => true | _ => false

/-- canonical NaN (R136) -/
def fmtNaN : Nat → Nat
  | 0 => 0x7FC00000 | 1 => 0x7FC0 | 2 => 0x7E00 | 3 => 0x7F | 8 => 0x7FF8000000000000 | _ => 0x7E

def isInt (code : Nat) : Bool := code = 6 || code = 7
/-- the block-scaled formats -/
def isBlock (code : Nat) : Bool := code = 3 || code = 4 || code = 5

/-! ### Exact values -/

/-- A value: NaN, an infinity, or ± num ÷ den × 2^exp with a signed zero. -/
inductive FVal where
  | nan
  | inf (neg : Bool)
  | fin (neg : Bool) (num den : Nat) (exp : Int)
deriving DecidableEq, Repr

def FVal.isZero : FVal → Bool
  | .fin _ n _ _ => n = 0
  | _ => false

def FVal.isFinite : FVal → Bool
  | .fin .. => true
  | _ => false

def FVal.isNaN : FVal → Bool
  | .nan => true
  | _ => false

def FVal.neg : FVal → FVal
  | .nan => .nan
  | .inf s => .inf !s
  | .fin s n q e => .fin (!s) n q e

def FVal.abs : FVal → FVal
  | .nan => .nan
  | .inf _ => .inf false
  | .fin _ n q e => .fin false n q e

def FVal.ofInt (i : Int) : FVal := .fin (i < 0) i.natAbs 1 0

/-- 2^e as a fraction. -/
def pow2Frac (e : Int) : Nat × Nat := if 0 ≤ e then (2 ^ e.toNat, 1) else (1, 2 ^ (-e).toNat)

/-- The magnitude as numerator and denominator. -/
def FVal.frac : FVal → Nat × Nat
  | .fin _ n q e => let (a, b) := pow2Frac e; (n * a, q * b)
  | _ => (0, 1)

/-- floor(log2(num / den)) of a positive fraction. -/
def ilog2 (num den : Nat) : Int :=
  let t : Int := (Nat.log2 num : Int) - Nat.log2 den
  let (a, b) := pow2Frac t
  if den * a ≤ num * b then t else t - 1

/-- The value that an encoding of a floating-point format spells. -/
def decodeF (code n : Nat) : FVal :=
  let f := fmtFrac code
  let w := fmtWidth code
  let neg := bit n (w - 1)
  let mag := n % 2 ^ (w - 1)
  let ex := mag / 2 ^ f
  let fr := mag % 2 ^ f
  if fmtHasInf code && ex = 2 ^ (w - 1 - f) - 1 then (if fr = 0 then .inf neg else .nan)
  else if code = 3 && mag = 0x7F then .nan
  else if ex = 0 then .fin neg fr 1 (1 - (fmtBias code : Int) - f)
  else .fin neg (fr + 2 ^ f) 1 ((ex : Int) - fmtBias code - f)

/-- Two's complement integers (R134). -/
def decodeI (code n : Nat) : Int :=
  let w := fmtWidth code
  let m := n % 2 ^ w
  if m < 2 ^ (w - 1) then (m : Int) else (m : Int) - 2 ^ w

/-! ### Rounding (R138 to R140) -/

/-- To nearest, ties to even; or stochastic with a 16-bit draw. -/
inductive Rnd where
  | nearest
  | stochastic (g : Nat)
deriving DecidableEq, Repr

/-- num ÷ den rounded to an integer. -/
def roundNat (r : Rnd) (num den : Nat) : Nat :=
  let n := num / den
  let rem := num % den
  match r with
  | .nearest => if den < 2 * rem || (2 * rem = den && n % 2 = 1) then n + 1 else n
  | .stochastic g => if 2 ^ 16 ≤ rem * 2 ^ 16 / den + g % 2 ^ 16 then n + 1 else n

/-- Exponent of the unit in the last place of a format at a magnitude. -/
def ulpExp (code : Nat) (num den : Nat) : Int :=
  let emin : Int := 1 - (fmtBias code : Int) - fmtFrac code
  if num = 0 then emin else max (ilog2 num den - fmtFrac code) emin

/-- A magnitude rounded to a format: its encoding, unlimited above. -/
def roundMag (code : Nat) (r : Rnd) (num den : Nat) : Nat :=
  let q := ulpExp code num den
  let (a, b) := pow2Frac q
  let emin : Int := 1 - (fmtBias code : Int) - fmtFrac code
  (q - emin).toNat * 2 ^ fmtFrac code + roundNat r (num * b) (den * a)

def withSign (code : Nat) (neg : Bool) (mag : Nat) : Nat := b2n neg * 2 ^ (fmtWidth code - 1) + mag

/-- A rounded value: its encoding, and whether a finite value saturated or a non-finite one changed (R137, R138). -/
structure Enc where
  bits : Nat
  sat : Bool := false
  changed : Bool := false
deriving DecidableEq, Repr

/-- Conversion to a floating-point format, with no scale (R137, R138). -/
def encodeF (code : Nat) (r : Rnd) (v : FVal) : Enc :=
  match v with
  | .nan => if code = 5 then { bits := 0, changed := true } else { bits := fmtNaN code }
  | .inf s =>
    if code = 3 then { bits := fmtNaN 3, changed := true }
    else if code = 5 then { bits := withSign 5 s 7, changed := true }
    else { bits := withSign code s (fmtMax code + 1) }
  | .fin s n q e =>
    let (num, den) := (FVal.fin s n q e).frac
    let m := roundMag code r num den
    if fmtMax code < m then { bits := withSign code s (fmtMax code), sat := true } else { bits := withSign code s m }

/-! ### Exact operations -/

/-- v × 2^k -/
def FVal.scale (v : FVal) (k : Int) : FVal :=
  match v with
  | .fin s n q e => .fin s n q (e + k)
  | v => v

/-- Product; true when it is the invalid 0 × ∞. -/
def FVal.mul : FVal → FVal → FVal × Bool
  | .nan, _ => (.nan, false)
  | _, .nan => (.nan, false)
  | .inf s, .inf t => (.inf (s != t), false)
  | .inf s, .fin t n _ _ => if n = 0 then (.nan, true) else (.inf (s != t), false)
  | .fin t n _ _, .inf s => if n = 0 then (.nan, true) else (.inf (s != t), false)
  | .fin s n q e, .fin t m p f => (.fin (s != t) (n * m) (q * p) (e + f), false)

/-- Quotient (the scales of a conversion, R144): 0 ÷ 0 and ∞ ÷ ∞ are NaN, x ÷ 0 an infinity. -/
def FVal.div : FVal → FVal → FVal
  | .nan, _ => .nan
  | _, .nan => .nan
  | .inf _, .inf _ => .nan
  | .inf s, .fin t _ _ _ => .inf (s != t)
  | .fin s _ _ _, .inf t => .fin (s != t) 0 1 0
  | .fin s n q e, .fin t m p f =>
    if m = 0 then (if n = 0 then .nan else .inf (s != t)) else .fin (s != t) (n * p) (q * m) (e - f)

/-- Signed numerator over a common denominator. -/
def FVal.signed : FVal → Int × Nat
  | .fin s n q e => let (a, b) := (FVal.fin s n q e).frac; (if s then -(a : Int) else (a : Int), b)
  | _ => (0, 1)

/-- Sum; true when it is the invalid ∞ − ∞. A sum that is exactly zero is +0 unless both terms are −0. -/
def FVal.add : FVal → FVal → FVal × Bool
  | .nan, _ => (.nan, false)
  | _, .nan => (.nan, false)
  | .inf s, .inf t => if s = t then (.inf s, false) else (.nan, true)
  | .inf s, .fin .. => (.inf s, false)
  | .fin .., .inf s => (.inf s, false)
  | .fin s n q e, .fin t m p f =>
    if n = 0 && m = 0 then (.fin (s && t) 0 1 0, false)
    else
      let k := min e f
      let a : Int := (n * p * 2 ^ (e - k).toNat : Nat)
      let b : Int := (m * q * 2 ^ (f - k).toNat : Nat)
      let sum := (if s then -a else a) + (if t then -b else b)
      (.fin (sum < 0) sum.natAbs (q * p) k, false)

/-- a < b for numbers. -/
def FVal.lt : FVal → FVal → Bool
  | .nan, _ => false
  | _, .nan => false
  | .inf s, .inf t => s && !t
  | .inf s, .fin .. => s
  | .fin .., .inf t => !t
  | .fin s n q e, .fin t m p f =>
    let (a, b) := (FVal.fin s n q e).signed
    let (c, g) := (FVal.fin t m p f).signed
    a * g < c * b

def FVal.eq (a b : FVal) : Bool := !a.isNaN && !b.isNaN && !a.lt b && !b.lt a

/-! ### FP32 (R178) -/

/-- A lane result, with what it counts. -/
structure F32 where
  bits : Word
  sat : Bool := false
  invalid : Bool := false
deriving DecidableEq, Repr

def f32 (w : Word) : FVal := decodeF 0 w.toNat

def F32.round (r : Rnd) (v : FVal × Bool) : F32 :=
  let e := encodeF 0 r v.1
  { bits := BitVec.ofNat 32 e.bits, sat := e.sat, invalid := v.2 }

def f32Add (a b : Word) : F32 := .round .nearest ((f32 a).add (f32 b))
def f32Mul (a b : Word) : F32 := .round .nearest ((f32 a).mul (f32 b))

def f32Sub (a b : Word) : F32 := .round .nearest ((f32 a).add (f32 b).neg)

/-- Quotient, rounded once. -/
def f32Div (a b : Word) : F32 := .round .nearest ((f32 a).div (f32 b), false)

/-- Fused multiply-add: one rounding. -/
def f32Fma (a b c : Word) : F32 :=
  let (p, i) := (f32 a).mul (f32 b)
  let (s, j) := p.add (f32 c)
  .round .nearest (s, i || j)

/-- −0 orders below +0; the other operand is returned when one is NaN. -/
def f32Min (a b : Word) : F32 :=
  if (f32 a).isNaN && (f32 b).isNaN then { bits := 0x7FC00000 }
  else if (f32 a).isNaN then { bits := b }
  else if (f32 b).isNaN then { bits := a }
  else if (f32 a).isZero && (f32 b).isZero then { bits := if a.msb then a else b }
  else { bits := if (f32 b).lt (f32 a) then b else a }

def f32Max (a b : Word) : F32 :=
  if (f32 a).isNaN && (f32 b).isNaN then { bits := 0x7FC00000 }
  else if (f32 a).isNaN then { bits := b }
  else if (f32 b).isNaN then { bits := a }
  else if (f32 a).isZero && (f32 b).isZero then { bits := if a.msb then b else a }
  else { bits := if (f32 a).lt (f32 b) then b else a }

/-- Comparisons of FSETP (R177). -/
def f32Cmp (cond : Nat) (a b : Word) : Bool :=
  let x := f32 a
  let y := f32 b
  let un := x.isNaN || y.isNaN
  match cond with
  | 0 => x.eq y
  | 1 => un || !x.eq y
  | 2 => x.lt y
  | 3 => x.lt y || x.eq y
  | 4 => y.lt x
  | 5 => y.lt x || x.eq y
  | 6 => !un
  | _ => un

/-! ### Special functions (R179)

A function whose rule states a bound may have as its result any FP32 value of its sign within it: `pick` chooses. -/

/-- A magnitude within the format's finite ones, signed; saturated above. -/
def finite32 (neg : Bool) (m : Nat) : F32 :=
  if 0x7F7FFFFF < m then { bits := BitVec.ofNat 32 (withSign 0 neg 0x7F7FFFFF), sat := true }
  else { bits := BitVec.ofNat 32 (withSign 0 neg m) }

/-- The FP32 magnitude `m`, an encoding, lies within `k` units in the last place of num ÷ den. -/
def withinUlps (k num den m : Nat) : Bool :=
  let (a, b) := (decodeF 0 m).frac
  let (u, v) := pow2Frac (ulpExp 0 num den)
  (((a * den : Nat) : Int) - ((num * b : Nat) : Int)).natAbs * v ≤ k * u * b * den

/-- Truncation of a magnitude to FP32, and whether it is exact. -/
def truncF32 (num den : Nat) : Nat × Bool :=
  let q := ulpExp 0 num den
  let (a, b) := pow2Frac q
  ((q + 149).toNat * 2 ^ 23 + num * b / (den * a), num * b % (den * a) = 0)

/-- A value of the result's sign within `k` ulp of num ÷ den, as `pick` chooses: of the encodings around the truncated
value, one that lies within the bound, else that value itself. -/
def withinK (k : Nat) (neg : Bool) (num den pick : Nat) : F32 :=
  let lo := (truncF32 num den).1
  let m := lo + pick % (3 * k + 1) - min (2 * k) lo
  finite32 neg (if 0x7F7FFFFF < m || withinUlps k num den m then m else lo)

/-- Values within 1 ulp, and within 2 ulp, of num ÷ den. -/
def within1 : Bool → Nat → Nat → Nat → F32 := withinK 1
def within2 : Bool → Nat → Nat → Nat → F32 := withinK 2

/-- A value within 2 ulp of a positive one below 2^-149: ulp is the subnormal spacing. -/
def nearZero (neg : Bool) (pick : Nat) : F32 := finite32 neg (pick % 3)

def canonNaN32 : Word := 0x7FC00000

/-- A result that no rule states: any FP32 value, a NaN in its canonical form (R136). -/
def freeF32 (pick : Nat) : F32 :=
  let w := BitVec.ofNat 32 pick
  { bits := if (f32 w).isNaN then canonNaN32 else w }

def isSubnormal (w : Word) : Bool := w.toNat % 2 ^ 31 < 2 ^ 23 && w.toNat % 2 ^ 31 ≠ 0

def f32Rcp (w : Word) (pick : Nat) : F32 :=
  if isSubnormal w then { bits := BitVec.ofNat 32 (withSign 0 w.msb 0x7F7FFFFF), sat := true }
  else
    match f32 w with
    | .nan => { bits := canonNaN32 }
    | .inf s => { bits := BitVec.ofNat 32 (withSign 0 s 0) }
    | .fin s n q e =>
      if n = 0 then { bits := BitVec.ofNat 32 (withSign 0 s 0x7F800000) }
      else let (a, b) := (FVal.fin s n q e).frac; within1 s b a pick

/-- Integer square root by bits: the largest r below 2^k with r² ≤ n. -/
def isqrtBits (n : Nat) : Nat → Nat → Nat
  | 0, r => r
  | k + 1, r => isqrtBits n k (if (r + 2 ^ k) ^ 2 ≤ n then r + 2 ^ k else r)

def isqrt (n : Nat) : Nat := isqrtBits n (Nat.log2 n / 2 + 1) 0

/-- floor(sqrt(num ÷ den) × 2^64), and whether it is exact. -/
def sqrtFix (num den : Nat) : Nat × Bool :=
  let n := num * 2 ^ 512 / den
  let r := isqrt n
  (r, r ^ 2 = n && num * 2 ^ 512 % den = 0)

/-- Correctly rounded square root: the fixed-point root with a sticky half bit below. -/
def f32Sqrt (w : Word) : F32 :=
  match f32 w with
  | .nan => { bits := canonNaN32 }
  | .inf s => if s then { bits := canonNaN32, invalid := true } else { bits := 0x7F800000 }
  | .fin s n q e =>
    if n = 0 then { bits := w }
    else if s then { bits := canonNaN32, invalid := true }
    else
      let (a, b) := (FVal.fin s n q e).frac
      let (r, exact) := sqrtFix a b
      { bits := BitVec.ofNat 32 (roundMag 0 .nearest (2 * r + b2n !exact) (2 ^ 257)) }

def f32Rsq (w : Word) (pick : Nat) : F32 :=
  if isSubnormal w && !w.msb then freeF32 pick
  else
    match f32 w with
    | .nan => { bits := canonNaN32 }
    | .inf s => if s then { bits := canonNaN32, invalid := true } else { bits := 0 }
    | .fin s n q e =>
      if n = 0 then { bits := BitVec.ofNat 32 (withSign 0 s 0x7F800000) }
      else if s then { bits := canonNaN32, invalid := true }
      else
        let (a, b) := (FVal.fin s n q e).frac
        let (r, exact) := sqrtFix b a
        within1 false (2 * r + b2n !exact) (2 ^ 257) pick

/-- ln 2 × 2^128, rounded down. -/
def ln2Fix : Nat := 0xB17217F7D1CF79ABC9E3B39803F2F6AF

/-- e^y × 2^128 for y = t ÷ 2^128 below 1, by `k` terms of its series. -/
def expSeries (t : Nat) : Nat → Nat → Nat → Nat → Nat
  | 0, _, _, acc => acc
  | k + 1, i, term, acc =>
    let term := term * t / (2 ^ 128 * i)
    expSeries t k (i + 1) term (acc + term)

def expFix (t : Nat) : Nat := expSeries t 40 1 (2 ^ 128) (2 ^ 128)

/-- 2^x for a rational x = ± a ÷ b with |x| below 256: numerator and denominator. -/
def exp2Frac (neg : Bool) (a b : Nat) : Nat × Nat :=
  let i := a / b
  let fr := a % b * 2 ^ 128 / b
  let y := expFix (fr * ln2Fix / 2 ^ 128)
  if neg then (2 ^ 128, y * 2 ^ i) else (y * 2 ^ i, 2 ^ 128)

def f32Exp2 (w : Word) (pick : Nat) : F32 :=
  if isSubnormal w then freeF32 pick
  else
    match f32 w with
    | .nan => { bits := canonNaN32 }
    | .inf s => if s then { bits := 0 } else { bits := 0x7F800000 }
    | .fin s n q e =>
      let (a, b) := (FVal.fin s n q e).frac
      if n = 0 then within2 false 1 1 pick
      else if 256 ≤ a / b then
        if s then nearZero false pick else { bits := 0x7F7FFFFF, sat := true }
      else let (x, y) := exp2Frac s a b; within2 false x y pick

/-- The fraction bits of log2 of m ÷ 2^128 in [1, 2), by repeated squaring. -/
def log2Bits : Nat → Nat → Nat → Nat
  | 0, _, acc => acc
  | k + 1, m, acc =>
    let s := m * m / 2 ^ 128
    if 2 ^ 129 ≤ s then log2Bits k (s / 2) (2 * acc + 1) else log2Bits k s (2 * acc)

def f32Log2 (w : Word) (pick : Nat) : F32 :=
  if isSubnormal w && !w.msb then freeF32 pick
  else
    match f32 w with
    | .nan => { bits := canonNaN32 }
    | .inf s => if s then { bits := canonNaN32, invalid := true } else { bits := 0x7F800000 }
    | .fin s n q e =>
      if n = 0 then { bits := 0xFF800000 }
      else if s then { bits := canonNaN32, invalid := true }
      else
        let (a, b) := (FVal.fin s n q e).frac
        let k := ilog2 a b
        let (x, y) := pow2Frac k
        let frac := log2Bits 80 (a * y * 2 ^ 128 / (b * x)) 0
        let total : Int := k * 2 ^ 80 + frac
        if total = 0 then nearZero (pick / 4 % 2 = 1) pick else within2 (total < 0) total.natAbs (2 ^ 80) pick

def f32Tanh (w : Word) (pick : Nat) : F32 :=
  if isSubnormal w then freeF32 pick
  else
    match f32 w with
    | .nan => { bits := canonNaN32 }
    | .inf s => { bits := BitVec.ofNat 32 (withSign 0 s 0x3F800000) }
    | .fin s n q e =>
      let (a, b) := (FVal.fin s n q e).frac
      if n = 0 then nearZero s pick
      else if 16 ≤ a / b then finite32 s (0x3F7FFFFE + pick % 3)
      else if a * 2 ^ 13 < b then
        -- x − x³ ÷ 3, whose error is below 2^-50 of x
        within2 s (a * (3 * b * b - a * a)) (3 * b * b * b) pick
      else
        -- (z − 1) ÷ (z + 1) with z = e^2x, as 2^k × e^f
        let t := 2 * a * 2 ^ 128 / b
        let z := expFix (t % ln2Fix) * 2 ^ (t / ln2Fix)
        within2 s (z - 2 ^ 128) (z + 2 ^ 128) pick

/-! ### Block scales and conversions (R137, R143 to R147) -/

/-- The second-level scale and zero point of a conversion. -/
structure Scale where
  s2 : FVal
  zp : Int
deriving DecidableEq, Repr

def Scale.one : Scale := { s2 := .fin false 1 1 0, zp := 0 }

/-- Zero point in the form of R113: 8 bits for INT8; for INT4 the low 4 bits. -/
def zeroPoint (code n : Nat) : Int := if isInt code then decodeI code n else 0

/-- The value of a stored element with offset `o`: S2 × 2^−o × q, or S2 × (q − z) (R143, R181). -/
def decodeScaled (code : Nat) (sc : Scale) (o n : Nat) : FVal :=
  if isInt code then (sc.s2.mul (FVal.ofInt (decodeI code n - sc.zp))).1
  else if isBlock code then ((sc.s2.mul (decodeF code n)).1).scale (-(o : Int))
  else decodeF code n

/-- largest of finite magnitudes, as a fraction -/
def maxFrac (l : List FVal) : Nat × Nat :=
  l.foldl (fun (a : Nat × Nat) v =>
    match v with
    | .fin .. => let f := v.frac; if a.1 * f.2 < f.1 * a.2 then f else a
    | _ => a) (0, 1)

/-- The offset of a block of values u (R144), and whether the block is underrange (R146). -/
def blockOffset (code : Nat) (us : List FVal) : Nat × Bool :=
  let (n, q) := maxFrac us
  if n = 0 then (15, false)
  else
    let (m, p) := (decodeF code (fmtMax code)).frac
    let o := ilog2 (m * q) (p * n)
    if o < 0 then (0, false) else if 15 < o then (15, true) else (o.toNat, false)

/-- u × 2^o in a block-scaled format; clipped beyond the largest finite magnitude (R145). -/
def encodeBlock (code : Nat) (r : Rnd) (o : Nat) (u : FVal) : Enc :=
  let v := u.scale o
  let mf := decodeF code (fmtMax code)
  match v with
  | .fin s n q e =>
    if mf.lt (FVal.fin s n q e).abs then { bits := withSign code s (fmtMax code), sat := true } else encodeF code r v
  | _ => encodeF code r v

/-- Conversion to INT8 or INT4 (R137, R147): `early` adds the zero point before the rounding, as step 4 of a STORE does
(R119); every other conversion rounds first (R137). -/
def encodeI (code : Nat) (r : Rnd) (sat early : Bool) (sc : Scale) (v : FVal) : Enc :=
  let w := fmtWidth code
  let hi : Int := 2 ^ (w - 1) - 1
  let lo : Int := -(2 ^ (w - 1))
  let bitsOf (i : Int) : Nat := (i % 2 ^ w).toNat
  match v.div sc.s2 with
  | .nan => { bits := 0, changed := true }
  | .inf s => { bits := bitsOf (if s then lo else hi), changed := true }
  | .fin s n q e =>
    let (a, b) := (FVal.fin s n q e).frac
    let signed (neg : Bool) (m : Nat) : Int := if neg then -m else m
    let i : Int :=
      if early then
        let x : Int := (if s then -(a : Int) else a) + sc.zp * b
        signed (x < 0) (roundNat r x.natAbs b)
      else signed s (roundNat r a b) + sc.zp
    if hi < i || i < lo then
      if sat then { bits := bitsOf (if hi < i then hi else lo), sat := true } else { bits := bitsOf i }
    else { bits := bitsOf i }

/-- Conversion of one value to a format with a given offset (R137). -/
def encodeScaled (code : Nat) (r : Rnd) (sat early : Bool) (sc : Scale) (o : Nat) (v : FVal) : Enc :=
  if isInt code then encodeI code r sat early sc v
  else if isBlock code then encodeBlock code r o (v.div sc.s2)
  else encodeF code r v

/-- |v| as the FP32 encoding that a statistics slot compares: NaN above the infinity above every finite value. -/
def magBits (v : FVal) : Nat :=
  match v with
  | .nan => 0x7FC00000
  | .inf _ => 0x7F800000
  | v => (encodeF 0 .nearest v.abs).bits

/-- The least power of two not below num ÷ den, from 2^−126 to 2^127, as its exponent (R153). -/
def pow2ceil (num den : Nat) : Int :=
  if num = 0 then -126
  else
    let k := ilog2 num den
    let (a, b) := pow2Frac k
    let c := if num * b = den * a then k else k + 1
    max (-126) (min 127 c)

/-- 2^k as an FP32 encoding, from 2^−126 to 2^127. -/
def f32Pow2 (k : Int) : Nat := (max 1 (min 254 (k + 127))).toNat * 2 ^ 23

/-- The exponent of an FP32 encoding of a positive power of two. -/
def pow2Exp? (n : Nat) : Option Int :=
  let f : Nat := n % 2 ^ 23
  let e : Nat := n / 2 ^ 23
  if e = 0 then if f ≠ 0 && 2 ^ Nat.log2 f = f then some ((Nat.log2 f : Int) - 149) else none
  else if f = 0 && e ≤ 254 then some ((e : Int) - 127)
  else none

/-- An FP32 encoding of a positive finite power of two from 2^−126 to 2^127 (R158). -/
def isPow2Scale (n : Nat) : Bool := n % 2 ^ 23 = 0 && 1 ≤ n / 2 ^ 23 && n / 2 ^ 23 ≤ 254

end Sys2Proof.Machine
end

