-- ==== Sys2Proof/Machine/ArgBlocks.lean ====
section
/-! DEFINITION. Argument blocks and records that commands of classes 3 and 6 read, as numbers: SWEEP and its entries (R278,
R279), GATHER and version directories (R297, R299), EXPORT, IMPORT and export records (R304, R305). -/

namespace Sys2Proof.Machine

/-- Bytes of a contributed element. -/
def fmtBytes (fmt : Nat) : Nat := if fmt = 0 then 4 else 2

/-- The entries of a block of `size`-byte records that follow its header. -/
def blockEntries (n header size count : Nat) : List Nat :=
  (List.range count).map fun i => fld n (8 * (header + size * i)) (8 * size)

/-! ### Header and entries (R278, R279) -/

def swWord (n lo : Nat) : Word := BitVec.ofNat 32 (fld n lo 32)
def swStep (n : Nat) : Nat := fld n 256 32
def swTemplate (n : Nat) : Nat := fld n 200 4
def swClipMode (n : Nat) : Nat := fld n 198 2
def swBias (n : Nat) : Bool := bit n 197
def swSplit (n : Nat) : Bool := bit n 196
def swAvgEn (n : Nat) : Bool := bit n 193
def swDerive (n : Nat) : Bool := bit n 192
def swStat (n : Nat) : Nat := fld n 184 8
def swEntries (n : Nat) : Nat := fld n 64 16

def enGrad (e : Nat) : Nat := fld e 460 52
def enWork (e : Nat) : Nat := fld e 408 52
def enAvg (e : Nat) : Nat := fld e 356 52
def enM2 (e : Nat) : Nat := fld e 304 52
def enM1 (e : Nat) : Nat := fld e 252 52
def enRem (e : Nat) : Nat := fld e 200 52
def enMaster (e : Nat) : Nat := fld e 148 52
def enDir (e : Nat) : Nat := fld e 96 52
def enCols (e : Nat) : Nat := fld e 64 32
def enCount (e : Nat) : Nat := fld e 32 32
def enNorm (e : Nat) : Nat := fld e 20 12
def enGradFmt (e : Nat) : Nat := fld e 16 4
def enWorkFmt (e : Nat) : Nat := fld e 12 4
def enRows (e : Nat) : Nat := enCount e / max 1 (enCols e)

/-- Bytes of the elements of the working copy, before its E8M0 bytes (R274). -/
def enWorkBody (e : Nat) : Nat := enCount e * fmtWidth (enWorkFmt e) / 8
def enWorkBytes (e : Nat) : Nat := enWorkBody e + (if enWorkFmt e = 1 then 0 else enCount e / 32)

/-- Stretches that an entry reads and writes: address, length, whether it is state (R279). -/
def enRanges (n e : Nat) : List (Nat × Nat × Bool) :=
  let c := enCount e
  let master := (enMaster e, if swSplit n then 2 * c else 4 * c, true)
  let rem := if swSplit n then [(enRem e, 2 * c, true)] else []
  let work := (enWork e, enWorkBytes e, true)
  if swDerive n then master :: rem ++ [work]
  else
    let m2 := if swTemplate n = 0 then [(enM2 e, c + c / 32, true)]
      else if swTemplate n = 1 then [(enM2 e, 4 * (enRows e + enCols e), true)] else []
    [master, work, (enM1 e, 2 * c, true), (enGrad e, fmtBytes (enGradFmt e) * c, false)] ++ rem ++ m2
      ++ if swAvgEn n then [(enAvg e, 2 * c, true)] else []

/-! ### GATHER and version directories (R297, R299) -/

def gaDst (n : Nat) : Nat := fld n 460 52
def gaDir (n : Nat) : Nat := fld n 408 52
def gaLocal (n : Nat) : Bool := bit n 356
def gaRegion (n : Nat) : Nat := fld n 376 32
def gaConn (n : Nat) : Nat := fld n 357 19
def gaWant (n : Nat) : Nat := fld n 324 32
def gaStampVa (n : Nat) : Nat := fld n 272 52
def gaBytes (n : Nat) : Nat := fld n 224 48

def dirCurStep (n : Nat) : Nat := fld n 480 32
def dirCurStamp (n : Nat) : Nat := fld n 416 64
def dirCurVa (n : Nat) : Nat := fld n 364 52
def dirPrevStep (n : Nat) : Nat := fld n 320 32
def dirPrevStamp (n : Nat) : Nat := fld n 256 64
def dirPrevVa (n : Nat) : Nat := fld n 204 52
def dirPrevValid (n : Nat) : Bool := bit n 203
def dirUpdating (n : Nat) : Bool := bit n 202
def dirBytes (n : Nat) : Nat := fld n 64 48

/-- A directory that the device may use: no reserved field is set (R13). -/
def dirOk (n : Nat) : Bool := fld n 352 12 = 0 && fld n 192 10 = 0 && fld n 0 64 = 0

/-! ### EXPORT and IMPORT (R304, R305) -/

def xpTensor (n : Nat) : Nat := fld n 972 52
def xpRecord (n : Nat) : Nat := fld n 908 52
def xpPitch (n : Nat) : Nat := fld n 856 40
def xpRowBytes (n : Nat) : Nat := fld n 832 24
def xpRowCount (n : Nat) : Nat := fld n 800 32
def xpFormat (n : Nat) : Nat := fld n 756 4
def xpSign (n : Nat) : Bool := bit n 755
def xpMatch (n : Nat) : Bool := bit n 754
def xpDims (n : Nat) : Nat := fld n 751 3
def xpSkip (n : Nat) : Nat := fld n 256 32
def xpExtent (n i : Nat) : Nat := fld n (416 + 64 * i) 32
def xpOffset (n i : Nat) : Nat := fld n (448 + 64 * i) 32
def xpFull (n i : Nat) : Nat := fld n (288 + 32 * i) 32

/-- The rows of a shard: address and length. -/
def xpRows (n : Nat) : List (Nat × Nat) :=
  (List.range (xpRowCount n)).map fun r => (xpTensor n + r * xpPitch n, xpRowBytes n)

def rcTenant (h : Nat) : Nat := fld h 992 16
def rcSigned (h : Nat) : Bool := bit h 947
def rcLen (h : Nat) : Nat := fld h 752 64
def rcKeyGen (h : Nat) : Nat := fld h 720 32

/-- Offset of the digest, and the record's bytes in all. -/
def rcDigestAt (len : Nat) : Nat := 128 + ceilDiv len 64 * 64 + 64
def rcBytes (len : Nat) (signed : Bool) : Nat := rcDigestAt len + 64 + if signed then 1536 else 0

end Sys2Proof.Machine
end

