-- ==== Sys2Proof/Config.lean ====
section
/-! DEFINITION. What the spec leaves open or what an implementation fixes: constants with no body, of which
nothing in Lean can find a value. -/

namespace Sys2Proof.Config

/-- The source of every FREE VALUE: the k-th value that the device supplies where the spec fixes none
(stochastic draws, addresses it chooses, estimates, corners the spec leaves unstated). `Dev.fresh` counts
the values taken. A statement about a free value holds for every value of it. -/
opaque freeNat : Nat → Nat

/-- What the entropy source seeds a rounding generator with: boot and generator (R141). -/
opaque genSeed : Nat → Nat → Nat

/-- What the module's manufacture fixes in a read-only BLOB or STRING entry (certificates, serial number, MAC
addresses, fused voltages), by Catalogue key. -/
opaque fusedBytes : Nat → List Byte

/-- The same for numeric entries. -/
opaque fusedNat : Nat → Nat

/-- The clock data set of this module, which enters the best master clock algorithm (R31):
clock class, accuracy, variance and clock identity. -/
opaque ownClock : Nat × Nat × Nat × Nat

/-- Falcon-1024 signature block of the attestation key over a digest (R411): the algorithm is outside the spec. The key pair is
that of the security firmware's SVN (R408). -/
opaque attestSign : Nat → List Byte → List Byte

/-- The attestation public key of an SVN, signed by the identity key (R408). -/
opaque attestCert : Nat → List Byte

end Sys2Proof.Config
end

