-- ==== Sys2Proof/Machine/CatTable.lean ====
section
/-! DEFINITION. The Catalogue's entries (R442, R443, R446): where each lies, its type, its access right, its
level, its default, its stated range; and a name for the key of each. Written from the tables of R62, R99,
R133, R167, R204, R234, R255, R272, R312, R356, R378, R400, R429, R463, R478 and of 17. -/

namespace Sys2Proof.Machine

/-- The types of R443. -/
inductive CatTy where
  | bool | u8 | u16 | u32 | u64 | s8 | s16 | s32 | s64 | f32 | time64 | string | blob
deriving DecidableEq, Repr

/-- The access rights of R446. -/
inductive CatAcc where
  | read | readWrite | writeOnce | whenIdle | ownerOnly
deriving DecidableEq, Repr

/-- Whose entry it is (R449): the device's, a job's (one index per job slot), a ring's (64 indices per job
slot), or the session's own. -/
inductive CatScope where
  | device | job | ring | session
deriving DecidableEq, Repr

/-- One row of a chapter's table of Catalogue entries: `count` indices from `base`, `fcount` fields from
`fld`. A value is in range between `lo` and `hi` at a multiple of `align`, or equal to `alt`. The default of a BLOB is
`dflt` zero bytes. -/
structure CatEntry where
  base : Nat
  count : Nat
  fld : Nat
  fcount : Nat
  ty : CatTy
  acc : CatAcc
  expert : Bool
  dflt : Nat
  lo : Nat
  hi : Nat
  align : Nat
  alt : Option Nat
  scope : CatScope
deriving DecidableEq, Repr

namespace Cat

def TB_NOW : Nat := 0x500000
def TB_STATE : Nat := 0x500001
def TB_OFFSET : Nat := 0x500002
def TB_ERROR_BOUND : Nat := 0x500003
def TB_GRANDMASTER : Nat := 0x500004
def PTP_DOMAIN : Nat := 0x500100
def PTP_PRIORITY1 : Nat := 0x500101
def PTP_PRIORITY2 : Nat := 0x500102
def PTP_TIMING_PORT : Nat := 0x500103
def PTP_TRANSPORT : Nat := 0x500104
def PTP_DELAY_MECH : Nat := 0x500105
def PTP_SYNC_LOG_INTERVAL : Nat := 0x500106
def PTP_SLAVE_ONLY : Nat := 0x500107
def TT_STATE : Nat := 0x501000
def TT_STEP : Nat := 0x501001
def TT_SLOT : Nat := 0x501002
def TT_LAG : Nat := 0x501003
def TT_CURRENT_EPOCH : Nat := 0x501004
def TT_TABLE : Nat := 0x501100
def TT_STAGE : Nat := 0x501101
def TT_DIGEST : Nat := 0x501102
def TT_EPOCH : Nat := 0x501103
def TT_FIRST_STEP : Nat := 0x501104
def TT_ANCHOR_JOB : Nat := 0x501105
def TT_LAST_STEP : Nat := 0x501106
def TT_CONTROL : Nat := 0x501107
def TT_CATCHUP_FRAC : Nat := 0x501200
def TT_LOST_STEP_THRESH : Nat := 0x501201
def TT_AUTO_REJOIN : Nat := 0x501202
def TT_FIRM_OVERRUN : Nat := 0x502000
def TT_LATE_SLOT : Nat := 0x502001
def TT_LAG_MAX : Nat := 0x502002
def TT_LOST_STEPS : Nat := 0x502003
def TT_RESYNC : Nat := 0x502004
def TIE_LATE_STAMP : Nat := 0x502005
def TT_FILLER_OVERHANG : Nat := 0x502006
def TT_DIGEST_MISMATCH : Nat := 0x502007
def TT_LOAD_REJECT : Nat := 0x502008
def TB_STEP_EVENT : Nat := 0x502009
def TB_HOLDOVER_EXIT : Nat := 0x50200A
def TT_REJOIN : Nat := 0x50200B
def TT_SELF_REJOIN : Nat := 0x50200C
def TB_BAD_SYNC : Nat := 0x50200D
def TB_HOLDOVER_LIMIT : Nat := 0x580000
def TB_LOCK_WINDOW : Nat := 0x580001
def TB_LOCK_COUNT : Nat := 0x580002
def TB_STEP_THRESH : Nat := 0x580003
def TB_SLEW_MAX : Nat := 0x580004
def TB_SET : Nat := 0x580100
def TT_SETTLE : Nat := 0x581000
def TT_RESYNC_NOTICE : Nat := 0x581001
def TT_RESYNC_GUARD : Nat := 0x581002
def JOB_SLOTS_USED : Nat := 0x200000
def CP_INFLIGHT : Nat := 0x200001
def CP_PENDING : Nat := 0x200002
def CP_WAIT_TIMEOUT : Nat := 0x200100
def CP_INFLIGHT_FULL : Nat := 0x200101
def CP_FILLER_PARKED : Nat := 0x200102
def JOB_STATE (j : Nat) : Nat := 0x210000 + 256 * j
def JOB_TENANT (j : Nat) : Nat := 0x210001 + 256 * j
def JOB_CONTROL (j : Nat) : Nat := 0x210002 + 256 * j
def JOB_INFLIGHT (j : Nat) : Nat := 0x210003 + 256 * j
def JOB_INFLIGHT_MAX (j : Nat) : Nat := 0x210004 + 256 * j
def JOB_RETIRED (j : Nat) : Nat := 0x210005 + 256 * j
def JOB_NOT_CLEAN (j : Nat) : Nat := 0x210006 + 256 * j
def JOB_FAILED (j : Nat) : Nat := 0x210007 + 256 * j
def JOB_SWITCH_IN (j : Nat) : Nat := 0x210008 + 256 * j
def RING_CONFIG (j r : Nat) : Nat := 0x220000 + 256 * (64 * j + r)
def RING_STATE (j r : Nat) : Nat := 0x220001 + 256 * (64 * j + r)
def RING_CONTROL (j r : Nat) : Nat := 0x220002 + 256 * (64 * j + r)
def RING_FETCHED (j r : Nat) : Nat := 0x220003 + 256 * (64 * j + r)
def RING_PHASE_ERR (j r : Nat) : Nat := 0x220004 + 256 * (64 * j + r)
def RING_STOP_SEQ (j r : Nat) : Nat := 0x220005 + 256 * (64 * j + r)
def RING_CREC_LOST (j r : Nat) : Nat := 0x220006 + 256 * (64 * j + r)
def CP_FIRM_RESERVE : Nat := 0x280000
def CP_PHASE_RETRY : Nat := 0x280001
def CP_RING_LOOKAHEAD : Nat := 0x280002
def ENG_INVALID_TOTAL : Nat := 0x200200
def ENG_NAN_IN_TOTAL : Nat := 0x200201
def ENG_OVERFLOW_SAT_TOTAL : Nat := 0x200202
def ENG_INT_LIMIT_TOTAL : Nat := 0x200203
def ENG_POISON_ZERO_TOTAL : Nat := 0x200204
def ENG_REJECT_TOTAL : Nat := 0x200205
def ENG_TILE_DISCARD_TOTAL : Nat := 0x200206
def ENG_INVALID (g : Nat) (e : Nat) : Nat := 0x260000 + 256 * g + e
def ENG_NAN_IN (g : Nat) (e : Nat) : Nat := 0x260008 + 256 * g + e
def ENG_OVERFLOW_SAT (g : Nat) (e : Nat) : Nat := 0x260010 + 256 * g + e
def ENG_INT_LIMIT (g : Nat) (e : Nat) : Nat := 0x260018 + 256 * g + e
def ENG_POISON_ZERO (g : Nat) (e : Nat) : Nat := 0x260020 + 256 * g + e
def ENG_REJECT (g : Nat) (e : Nat) : Nat := 0x260028 + 256 * g + e
def ENG_TILE_DISCARD (g : Nat) (e : Nat) : Nat := 0x260030 + 256 * g + e
def ENG_ACC_DEBUG (j : Nat) : Nat := 0x290000 + 256 * j
def NUM_CVT_OVERFLOW_SAT : Nat := 0x900000
def NUM_CVT_NONFINITE : Nat := 0x900001
def NUM_STAT_LATE : Nat := 0x900002
def NUM_CLIP_ADAPT : Nat := 0x900003
def NUM_HIST_HOLD : Nat := 0x900004
def NUM_PROBE_STEP : Nat := 0x900005
def NUM_PROBE_UNSEALED : Nat := 0x900006
def NUM_UNDERRANGE_BLOCK : Nat := 0x900007
def NUM_STAT_UNUSED : Nat := 0x900008
def NUM_ROLL_FAULT : Nat := 0x900009
def NUM_STAT_TABLE_VA (j : Nat) : Nat := 0x910000 + 256 * j
def NUM_CLIP_THRESH (j : Nat) : Nat := 0x910001 + 256 * j
def NUM_ROLL_MARK (j : Nat) : Nat := 0x910002 + 256 * j
def NUM_STAT_ROLL (j : Nat) : Nat := 0x910003 + 256 * j
def NUM_HIST_DEFAULT (j : Nat) : Nat := 0x910004 + 256 * j
def NUM_ROLL_AUTO (j : Nat) : Nat := 0x910005 + 256 * j
def NUM_LAST_ROLL_STEP (j : Nat) : Nat := 0x910006 + 256 * j
def NUM_PROBE_STEPS (j : Nat) : Nat := 0x990000 + 256 * j
def THR_FAULT_TOTAL : Nat := 0x200300
def THR_POISON_ZERO_TOTAL : Nat := 0x200301
def THR_OVERFLOW_SAT_TOTAL : Nat := 0x200302
def THR_INVALID_TOTAL : Nat := 0x200303
def THR_MISALIGN_TOTAL : Nat := 0x200304
def THR_ISSUED (g : Nat) : Nat := 0x270000 + 256 * g
def THR_FAULT (g : Nat) : Nat := 0x270001 + 256 * g
def THR_MISALIGN (g : Nat) : Nat := 0x270002 + 256 * g
def THR_POISON_ZERO (g : Nat) : Nat := 0x270003 + 256 * g
def THR_OVERFLOW_SAT (g : Nat) : Nat := 0x270004 + 256 * g
def THR_INVALID (g : Nat) : Nat := 0x270005 + 256 * g
def THR_TENS_WAIT (g : Nat) : Nat := 0x270006 + 256 * g
def THR_FENCE_WAIT (g : Nat) : Nat := 0x270007 + 256 * g
def THR_BANK_CONFLICT (g : Nat) : Nat := 0x270008 + 256 * g
def THR_MISALIGN_STOP (j : Nat) : Nat := 0x2A0000 + 256 * j
def MEM_T2_FREE : Nat := 0x300000
def MEM_T3_FREE : Nat := 0x300001
def MEM_INTEGRITY_EN : Nat := 0x300002
def MEM_RETIRE : Nat := 0x300003
def MEM_RETIRED_PAGES : Nat := 0x300004
def MEM_RETIRED_LIST : Nat := 0x300005
def MEM_SCRUB_FULL : Nat := 0x300006
def MEM_RETRAIN : Nat := 0x300007
def MEM_RETIRE_FULL : Nat := 0x300008
def MEM_ECC_CORR (d : Nat) : Nat := 0x301000 + 256 * d
def MEM_ECC_UNCORR (d : Nat) : Nat := 0x301001 + 256 * d
def MEM_POISON_READ (d : Nat) : Nat := 0x301002 + 256 * d
def MEM_POISON_WRITE_DROP (d : Nat) : Nat := 0x301003 + 256 * d
def MEM_INTEGRITY_FAIL (d : Nat) : Nat := 0x301004 + 256 * d
def MEM_SCRUB_PASSES (d : Nat) : Nat := 0x301005 + 256 * d
def MEM_RETRAIN_COUNT (d : Nat) : Nat := 0x301006 + 256 * d
def MEM_RETRAIN_DUE (d : Nat) : Nat := 0x301007 + 256 * d
def MEM_QUOTA_T1 (j : Nat) : Nat := 0x310000 + 256 * j
def MEM_QUOTA_T2 (j : Nat) : Nat := 0x310001 + 256 * j
def MEM_QUOTA_T3 (j : Nat) : Nat := 0x310002 + 256 * j
def MEM_QUOTA_HOST (j : Nat) : Nat := 0x310003 + 256 * j
def MEM_QUOTA_CONN (j : Nat) : Nat := 0x310004 + 256 * j
def MEM_QUOTA_REGION (j : Nat) : Nat := 0x310005 + 256 * j
def MEM_QUOTA_TRACE (j : Nat) : Nat := 0x310006 + 256 * j
/-- use against quota kind `k`, 1 to 6 (R234) -/
def MEM_USED (j k : Nat) : Nat := 0x310010 + 256 * j + k
def MEM_ALLOC (j : Nat) : Nat := 0x310020 + 256 * j
def MEM_FREE (j : Nat) : Nat := 0x310021 + 256 * j
def MEM_BRING_IN (j : Nat) : Nat := 0x310022 + 256 * j
def MEM_LAST_STATUS (j : Nat) : Nat := 0x310023 + 256 * j
def MEM_XLATE_FAULT (j : Nat) : Nat := 0x310024 + 256 * j
def MEM_FAULT_VA (j : Nat) : Nat := 0x310025 + 256 * j
def MEM_T1_BASE (j : Nat) : Nat := 0x310026 + 256 * j
def MEM_T1_SRAM_BASE (j : Nat) : Nat := 0x310027 + 256 * j
def MEM_T1_VA (j : Nat) : Nat := 0x310028 + 256 * j
def MEM_BRING_INS (j : Nat) : Nat := 0x310029 + 256 * j
def MEM_SCRUB_PERIOD : Nat := 0x380000
def MEM_ECC_CORR_ALERT : Nat := 0x380001
def STRM_HALTS : Nat := 0x302000
def STRM_MARK_TIMEOUT : Nat := 0x302001
def STRM_FREE_EXTRA : Nat := 0x302002
def STRM_ORPHAN : Nat := 0x302003
def STRM_FAULT : Nat := 0x302004
def STRM_BYTES_IN (g : Nat) : Nat := 0x320000 + 256 * g
def STRM_BYTES_OUT (g : Nat) : Nat := 0x320001 + 256 * g
def STRM_SLIPS (g : Nat) : Nat := 0x320002 + 256 * g
def STRM_BUSY_CYCLES (g : Nat) : Nat := 0x320003 + 256 * g
def STRM_OPEN_WAIT (g : Nat) : Nat := 0x320004 + 256 * g
def STRM_MARK_WAIT (g : Nat) : Nat := 0x320005 + 256 * g
def FMT_BYTES_OUT (d : Nat) : Nat := 0x324006 + 256 * d
def FMT_REENCODE (d : Nat) : Nat := 0x324007 + 256 * d
def STRM_HALT_INFO (j : Nat) : Nat := 0x330000 + 256 * j
def STRM_INFLIGHT_LINES : Nat := 0x381000
def NMU_TABLE_REJECT : Nat := 0x200400
def NMU_TABLE_VA (j : Nat) : Nat := 0x278000 + 256 * j
def NMU_TABLE_LEN (j : Nat) : Nat := 0x278001 + 256 * j
def NMU_PLACE_THRESH (j : Nat) : Nat := 0x278002 + 256 * j
def NMU_TABLE_RELOAD (j : Nat) : Nat := 0x278003 + 256 * j
def NMU_PLACE_FLIP (j : Nat) : Nat := 0x278004 + 256 * j
def NMU_BUSY_CYCLES (d : Nat) : Nat := 0x279000 + 256 * d
def NMU_BLOCKS (d : Nat) : Nat := 0x279001 + 256 * d
def NMU_JOB_SWITCH (d : Nat) : Nat := 0x279002 + 256 * d
def NMU_PLACE_EN (j : Nat) : Nat := 0x2B0000 + 256 * j
def UPD_APPLIED (j : Nat) : Nat := 0x920000 + 256 * j
def UPD_VOTE_VA (j : Nat) : Nat := 0x920001 + 256 * j
def UPD_VOTE_MARK (j : Nat) : Nat := 0x920002 + 256 * j
def UPD_NORM_VA (j : Nat) : Nat := 0x920003 + 256 * j
def UPD_NORM_COUNT (j : Nat) : Nat := 0x920004 + 256 * j
def UPD_RETURNS_VA (j : Nat) : Nat := 0x920005 + 256 * j
def UPD_RETURNS_BYTES (j : Nat) : Nat := 0x920006 + 256 * j
def UPD_RETAIN_VA (j : Nat) : Nat := 0x920007 + 256 * j
def UPD_RETAIN_BYTES (j : Nat) : Nat := 0x920008 + 256 * j
def UPD_STEP_SKIPPED (j : Nat) : Nat := 0x920009 + 256 * j
def UPD_SWEPT_ELEMENTS (j : Nat) : Nat := 0x92000A + 256 * j
def UPD_CLIPPED_STEPS (j : Nat) : Nat := 0x92000B + 256 * j
def UPD_VERSION_SKEW (j : Nat) : Nat := 0x92000C + 256 * j
def UPD_RETAIN_MISS (j : Nat) : Nat := 0x92000D + 256 * j
def UPD_RETURNS_SHARDS (j : Nat) : Nat := 0x92000E + 256 * j
def UPD_RETURNS_FULL (j : Nat) : Nat := 0x92000F + 256 * j
def UPD_GRAD_NONFINITE (j : Nat) : Nat := 0x920010 + 256 * j
def UPD_POISON_BLOCK (j : Nat) : Nat := 0x920011 + 256 * j
def UPD_VOTE_MISMATCH (j : Nat) : Nat := 0x920012 + 256 * j
def EXP_RECORDS (j : Nat) : Nat := 0x920013 + 256 * j
def EXP_IMPORT_REJECT (j : Nat) : Nat := 0x920014 + 256 * j
def EXP_LAST_REJECT (j : Nat) : Nat := 0x920015 + 256 * j
def EXP_SEAL (j : Nat) : Nat := 0x920016 + 256 * j
def UPD_LAST_STEP (j : Nat) : Nat := 0x920017 + 256 * j
def UPD_ABSENT_NONFINITE (j : Nat) : Nat := 0x920018 + 256 * j
def UPD_PROGRAM_EN (j : Nat) : Nat := 0x9A0000 + 256 * j
def NET_PORT_MODE : Nat := 0x400000
def NET_MAELGO_UDP_PORT : Nat := 0x400001
def NET_CNT_VECTOR : Nat := 0x400002
def NET_CNT_HALF : Nat := 0x400003
def NET_MAELGO_UDPCSUM : Nat := 0x400004
def NET_HOST_FRAMES : Nat := 0x400005
def NET_MAELGO_MAX_PAYLOAD : Nat := 0x400006
def NET_TTSYNC_CONNS : Nat := 0x400007
def NET_RX_MALFORMED : Nat := 0x401000
def NET_RX_NO_CONN : Nat := 0x401001
def NET_RX_TENANT_MISMATCH : Nat := 0x401002
def NET_RX_REPLAY : Nat := 0x401003
def NET_RX_DUP : Nat := 0x401004
def NET_RX_NO_REGION : Nat := 0x401005
def NET_RX_REVOKED : Nat := 0x401006
def NET_TAG_FAIL : Nat := 0x401007
def NET_TAINT : Nat := 0x401008
def NET_CONN_ERROR : Nat := 0x401009
def NET_HOLD_FULL : Nat := 0x40100A
def NET_HOLD_TIMEOUT_DROP : Nat := 0x40100B
def NET_CTX_EVICT_T3 : Nat := 0x40100C
def NET_CTX_EVICT_HOST : Nat := 0x40100D
def NET_CTX_AUTH_FAIL : Nat := 0x40100E
def NET_RETX : Nat := 0x40100F
def NET_TX_UNDERRUN_RETX : Nat := 0x401010
def NET_NACK_BUSY : Nat := 0x401011
def NET_NACK_REVOKED : Nat := 0x401012
def NET_NACK_REFUSED : Nat := 0x401013
def NET_NACK_INTEGRITY : Nat := 0x401014
def NET_NACK_UNMATCHED : Nat := 0x401015
def NET_NACK_WINDOW : Nat := 0x401016
def NET_SEND_FAIL : Nat := 0x401017
def NET_SEAL_WAIT_FULL : Nat := 0x401018
def NET_SEAL_REVOKED : Nat := 0x401019
def NET_REVOKE_DONE : Nat := 0x40101A
def NET_RX_STALE_RESP : Nat := 0x40101B
def NET_READ_RETRY : Nat := 0x40101C
def NET_READ_ABANDON : Nat := 0x40101D
def NET_CE_MARKS : Nat := 0x40101E
def NET_TTSYNC_RX : Nat := 0x40101F
def NET_PORT_PMD (p : Nat) : Nat := 0x410000 + 256 * p
def NET_PORT_LINK (p : Nat) : Nat := 0x410001 + 256 * p
def NET_PORT_MAC (p : Nat) : Nat := 0x410002 + 256 * p
def NET_PORT_IPV4 (p : Nat) : Nat := 0x410003 + 256 * p
def NET_PORT_VLAN (p : Nat) : Nat := 0x410004 + 256 * p
def NET_TX_START (p : Nat) : Nat := 0x410005 + 256 * p
/-- MAC counter `n` of data port `p` (R322). -/
def macCtr (p n : Nat) : Nat := 0x420000 + 256 * p + n
def RX_FRAMES_OK : Nat := 0x00
def RX_BYTES_OK : Nat := 0x01
def TX_FRAMES_OK : Nat := 0x02
def TX_BYTES_OK : Nat := 0x03
def RX_SIZE0 : Nat := 0x04
def RX_SIZE1 : Nat := 0x05
def RX_SIZE2 : Nat := 0x06
def RX_SIZE3 : Nat := 0x07
def RX_SIZE4 : Nat := 0x08
def RX_SIZE5 : Nat := 0x09
def RX_SIZE6 : Nat := 0x0A
def RX_SIZE7 : Nat := 0x0B
def RX_SIZE8 : Nat := 0x0C
def RX_SIZE9 : Nat := 0x0D
def TX_SIZE0 : Nat := 0x0E
def TX_SIZE1 : Nat := 0x0F
def TX_SIZE2 : Nat := 0x10
def TX_SIZE3 : Nat := 0x11
def TX_SIZE4 : Nat := 0x12
def TX_SIZE5 : Nat := 0x13
def TX_SIZE6 : Nat := 0x14
def TX_SIZE7 : Nat := 0x15
def TX_SIZE8 : Nat := 0x16
def TX_SIZE9 : Nat := 0x17
def RX_UNICAST : Nat := 0x18
def RX_MULTICAST : Nat := 0x19
def RX_BROADCAST : Nat := 0x1A
def RX_VLAN : Nat := 0x1B
def RX_PAUSE : Nat := 0x1C
def RX_PFC : Nat := 0x1D
def RX_PTP : Nat := 0x1E
def RX_MAELGO : Nat := 0x1F
def TX_UNICAST : Nat := 0x20
def TX_MULTICAST : Nat := 0x21
def TX_BROADCAST : Nat := 0x22
def TX_VLAN : Nat := 0x23
def TX_PTP : Nat := 0x24
def TX_MAELGO : Nat := 0x25
def RX_FCS_ERR : Nat := 0x26
def RX_RUNT : Nat := 0x27
def RX_OVERSIZE : Nat := 0x28
def RX_SYMBOL_ERR : Nat := 0x29
def RX_IPV4_CSUM_ERR : Nat := 0x2A
def RX_UDP_CSUM_ERR : Nat := 0x2B
def RX_TCP_CSUM_ERR : Nat := 0x2C
def RX_IP_DROP : Nat := 0x2D
def RX_OTHER_DROP : Nat := 0x2E
def RX_FULL_DROP : Nat := 0x2F
def FEC_CW_CORRECTED : Nat := 0x30
def FEC_CW_UNCORRECTED : Nat := 0x31
def FEC_SYMBOLS_CORRECTED : Nat := 0x32
def TX_UNDERRUN : Nat := 0x33
def RX_VLAN_MISMATCH : Nat := 0x34
def NET_CONN_OPEN (j : Nat) : Nat := 0x430000 + 256 * j
def NET_CONN_CLOSE (j : Nat) : Nat := 0x430001 + 256 * j
def NET_CONN_QUERY (j : Nat) : Nat := 0x430002 + 256 * j
def NET_REGION_REG (j : Nat) : Nat := 0x430003 + 256 * j
def NET_REGION_REVOKE (j : Nat) : Nat := 0x430004 + 256 * j
def NET_REGION_QUERY (j : Nat) : Nat := 0x430005 + 256 * j
def NET_JOB_TX_BYTES (j : Nat) : Nat := 0x430006 + 256 * j
def NET_JOB_RX_BYTES (j : Nat) : Nat := 0x430007 + 256 * j
def NET_RTO_INIT : Nat := 0x480000
def NET_RTO_MAX : Nat := 0x480001
def NET_RETRY_MAX : Nat := 0x480002
def NET_WIN_INIT : Nat := 0x480003
def NET_WIN_MIN : Nat := 0x480004
def NET_WIN_MAX : Nat := 0x480005
def NET_ACK_EVERY : Nat := 0x480006
def NET_ACK_DELAY : Nat := 0x480007
def NET_HOLD_TIMEOUT : Nat := 0x480008
def NET_BUSY_RETRY : Nat := 0x480009
def NET_READ_TIMEOUT : Nat := 0x48000A
def NET_READ_RETRIES : Nat := 0x48000B
def NET_TAINT_HOLD : Nat := 0x48000C
def NET_CTX_T3_ENTRIES : Nat := 0x48000D
def NET_CTX_HOST_BASE : Nat := 0x480100
def NET_CTX_HOST_PORT : Nat := 0x480101
def RED_TABLE_REJECT : Nat := 0x402000
def RED_SHARD_TABLE_VA (j : Nat) : Nat := 0x440000 + 256 * j
def RED_SHARD_COUNT (j : Nat) : Nat := 0x440001 + 256 * j
def RED_MEMBER (j : Nat) : Nat := 0x440002 + 256 * j
def RED_MEMBERS (j : Nat) : Nat := 0x440003 + 256 * j
def RED_VOTE_ROOT (j : Nat) : Nat := 0x440004 + 256 * j
def RED_VOTE_DEPUTY (j : Nat) : Nat := 0x440005 + 256 * j
def RED_MEMBER_CONNS (j : Nat) : Nat := 0x440006 + 256 * j
def RED_VOTE_BUF_VA (j : Nat) : Nat := 0x440007 + 256 * j
def RED_GRACE (j : Nat) : Nat := 0x440008 + 256 * j
def RED_VOTE_WINDOW (j : Nat) : Nat := 0x440009 + 256 * j
def RED_VOTE_TIMEOUT (j : Nat) : Nat := 0x44000A + 256 * j
def PACE_CONNS (j : Nat) : Nat := 0x44000B + 256 * j
def PACE_THRESH (j : Nat) : Nat := 0x44000C + 256 * j
def RED_ADDS (j : Nat) : Nat := 0x440010 + 256 * j
def RED_LATE_ADD (j : Nat) : Nat := 0x440011 + 256 * j
def RED_LATE_NONFINITE (j : Nat) : Nat := 0x440012 + 256 * j
def RED_LATE_DROP (j : Nat) : Nat := 0x440013 + 256 * j
def RED_NOT_ARMED (j : Nat) : Nat := 0x440014 + 256 * j
def RED_NONFINITE_IN (j : Nat) : Nat := 0x440015 + 256 * j
def RED_ADD_SAT (j : Nat) : Nat := 0x440016 + 256 * j
def RED_MEMBER_MISMATCH (j : Nat) : Nat := 0x440017 + 256 * j
def RED_VOTE_LATE (j : Nat) : Nat := 0x440018 + 256 * j
def RED_VOTE_DUP (j : Nat) : Nat := 0x440019 + 256 * j
def RED_VOTE_NO_RESULT (j : Nat) : Nat := 0x44001A + 256 * j
def RED_RESYNC_LATE (j : Nat) : Nat := 0x44001B + 256 * j
def PACE_SENT (j : Nat) : Nat := 0x44001C + 256 * j
def PACE_APPLIED (j : Nat) : Nat := 0x44001D + 256 * j
def PACE_IGNORED (j : Nat) : Nat := 0x44001E + 256 * j
def RED_BF16_SR (j : Nat) : Nat := 0x490000 + 256 * j
def PWR_NOW : Nat := 0x600000
def PWR_AVG_10MS : Nat := 0x600001
def PWR_BRIM : Nat := 0x600002
def PWR_LIMIT : Nat := 0x600003
def PWR_PHASE : Nat := 0x600004
def PWR_PHASE_MANUAL : Nat := 0x600005
def PWR_TABLE : Nat := 0x600006
def PWR_POWERED_HOURS : Nat := 0x600007
def PWR_GUARD_MV : Nat := 0x600008
def PWR_THROTTLE_EVENT : Nat := 0x600100
def PWR_THROTTLE_US : Nat := 0x600101
def PWR_RAIL_LIMIT_HIT : Nat := 0x600102
def PWR_CAL_FAULT : Nat := 0x600103
def PWR_ENTRY_DISABLED : Nat := 0x600104
def PWR_ENTRY_CHANGE : Nat := 0x600105
def CUFF_ENGAGE : Nat := 0x600106
def DROOP_EVENTS : Nat := 0x600107
def PWR_PREF (p : Nat) : Nat := 0x601000 + 256 * p
def RAIL_CURRENT (r : Nat) : Nat := 0x602000 + 256 * r
def RAIL_LIMIT (r : Nat) : Nat := 0x602001 + 256 * r
def RAIL_GAIN (r : Nat) : Nat := 0x602002 + 256 * r
def THERM_MAX : Nat := 0x604000
def THERM_READINGS : Nat := 0x604001
def THERM_THROTTLE_EVENT : Nat := 0x604002
def THERM_INLET_OVER : Nat := 0x604003
def THERM_TRIP_LAST : Nat := 0x604004
def CUFF_TRIGGER : Nat := 0x680000
def CUFF_IDLE_WINDOW : Nat := 0x680001
def DROOP_THRESH : Nat := 0x680002
def PWR_PHASE_LEAD : Nat := 0x680003
def PWR_EXCURSION_GUARD : Nat := 0x680004
def PWR_RAISE_MARGIN : Nat := 0x680005
def THERM_THROTTLE_C : Nat := 0x680006
def CLK_SSC_EN : Nat := 0x680100
def SEC_IDENTITY_DIGEST : Nat := 0x700000
def SEC_IDENTITY_CERT : Nat := 0x700001
def SEC_ATTEST_CERT : Nat := 0x700002
def SEC_KEM_PUBLIC : Nat := 0x700003
def SEC_FW_MEASURE : Nat := 0x700004
def SEC_SVN_FUSED : Nat := 0x700005
def SEC_BOOT_BANK : Nat := 0x700006
def SEC_BOOT_FALLBACK : Nat := 0x700007
def SEC_BOOT_COUNT : Nat := 0x700008
def SEC_OWNER_KEY : Nat := 0x700009
def SEC_SLOTS_USED : Nat := 0x70000A
def SEC_QUOTES : Nat := 0x700100
def SEC_SESSION_FAIL : Nat := 0x700101
def SEC_KEY_REJECT : Nat := 0x700102
def SEC_KEY_ROTATE : Nat := 0x700103
def SEC_FW_REJECT : Nat := 0x700104
def SEC_ENTROPY_FAIL : Nat := 0x700105
def SEC_HOST_ACCESS_DROP : Nat := 0x700106
def SEC_RING_REFUSED : Nat := 0x700107
def SEC_IDE_FAIL : Nat := 0x700108
def SEC_QUOTE_REQ : Nat := 0x701000
def SEC_SESSION_OPEN : Nat := 0x701001
def SEC_KEY_DELIVER : Nat := 0x701002
def SEC_KEY_PROVE : Nat := 0x701003
def SEC_JOB_CREATE : Nat := 0x701004
def SEC_SLOT_ERASE : Nat := 0x701005
def SEC_OWNER_TRANSFER : Nat := 0x701006
def SEC_FW_INSTALL : Nat := 0x702000
def SEC_FW_ACTIVATE : Nat := 0x702001
def SEC_FW_COMMIT : Nat := 0x702002
def SEC_IDE_KEYS (p : Nat) : Nat := 0x703000 + 256 * p
def SEC_IDE_STATE (p : Nat) : Nat := 0x703001 + 256 * p
def SEC_JOB_KEYSLOT (j : Nat) : Nat := 0x710000 + 256 * j
def SEC_HOST_ACCESS (j : Nat) : Nat := 0x710001 + 256 * j
def SEC_RING_SEALED (j : Nat) : Nat := 0x710002 + 256 * j
def SEC_SLOT_INFO (k : Nat) : Nat := 0x720000 + 256 * k
def SEC_ENTROPY_RCT_CUTOFF : Nat := 0x780000
def SEC_ENTROPY_APT_CUTOFF : Nat := 0x780001
def DEV_PRODUCT : Nat := 0x100000
def DEV_SERIAL : Nat := 0x100001
def DEV_POSITION : Nat := 0x100002
def DEV_PCI_IDS : Nat := 0x100003
def HOST_LINK (p : Nat) : Nat := 0x101000 + 256 * p
def HOST_DB_DROP (p : Nat) : Nat := 0x101001 + 256 * p
def HOST_DB_BAD (p : Nat) : Nat := 0x101002 + 256 * p
def HOST_PUSH_BAD (p : Nat) : Nat := 0x101003 + 256 * p
def HOST_LINK_DROP (p : Nat) : Nat := 0x101004 + 256 * p
def HOST_BAR_UNMAPPED (p : Nat) : Nat := 0x101005 + 256 * p
def HOST_WIN_BASE (p : Nat) : Nat := 0x101006 + 256 * p
def MEM_HOST_APERTURE (j : Nat) : Nat := 0x31002A + 256 * j
def HOSTFR_CONFIG (q : Nat) : Nat := 0x450000 + 256 * q
def HOSTFR_RX_NOBUF (q : Nat) : Nat := 0x450001 + 256 * q
def SEC_DOORBELL_PORTS (j : Nat) : Nat := 0x710003 + 256 * j
def SESS_COUNT : Nat := 0xA00000
def SESS_LIST : Nat := 0xA00001
def CAT_LAST_LONG : Nat := 0xA00002
def SESS_IDLE_TIMEOUT : Nat := 0xA00100
def CAT_REQUESTS : Nat := 0xA00101
def CAT_REFUSED : Nat := 0xA00102
def SESS_TIMEOUT : Nat := 0xA00103
def MGMT_PORT_SEL : Nat := 0xA00200
def MGMT_MEDIUM : Nat := 0xA00201
def MGMT_IPV4 : Nat := 0xA00202
def MGMT_UDP_PORT : Nat := 0xA00203
def MGMT_MAC : Nat := 0xA00204
def MGMT_TX_FRAMES : Nat := 0xA00300
def MGMT_RX_FRAMES : Nat := 0xA00301
def MGMT_COLLISIONS : Nat := 0xA00302
def MGMT_TX_EXCESS_COLL : Nat := 0xA00303
def MGMT_LATE_COLL : Nat := 0xA00304
def MGMT_RX_DUP : Nat := 0xA00305
def MGMT_RX_OTHER : Nat := 0xA00306
def SESS_LEVEL : Nat := 0xA01000
def SESS_ROLE : Nat := 0xA01001
def SESS_SLOTS : Nat := 0xA01002
def SESS_HANDLE : Nat := 0xA01003
def SESS_CHALLENGE : Nat := 0xA01004
def SESS_OWNER_PROOF : Nat := 0xA01005
def MGMT_BACKOFF_LIMIT : Nat := 0xA80000
def MGMT_ATTEMPTS : Nat := 0xA80001
def CTL_ERROR : Nat := 0x800000
def ALERT_CAUSE : Nat := 0x800001
def TRC_DEV_LOST : Nat := 0x800002
def TRC_DEV_RING : Nat := 0x800100
def TRC_DEV_HEAD : Nat := 0x800101
def UNIT_BUSY (u : Nat) : Nat := 0x810000 + 256 * u
def UNIT_STALL (u c : Nat) : Nat := 0x810000 + 256 * u + c
def UNIT_IDLE (u : Nat) : Nat := 0x81000C + 256 * u
def UNIT_UNHELD (u : Nat) : Nat := 0x81000D + 256 * u
def TRC_RING_VA (j : Nat) : Nat := 0x820000 + 256 * j
def TRC_RING_BYTES (j : Nat) : Nat := 0x820001 + 256 * j
def TRC_HEAD (j : Nat) : Nat := 0x820002 + 256 * j
def TRC_CONSUMED (j : Nat) : Nat := 0x820003 + 256 * j
def TRC_LOST (j : Nat) : Nat := 0x820004 + 256 * j
def TRC_STOP_FULL (j : Nat) : Nat := 0x820005 + 256 * j
def TRC_DEVICE_COPY (j : Nat) : Nat := 0x820006 + 256 * j
def SMP_RING_VA (j : Nat) : Nat := 0x820007 + 256 * j
def SMP_RING_BYTES (j : Nat) : Nat := 0x820008 + 256 * j
def SMP_HEAD (j : Nat) : Nat := 0x820009 + 256 * j
def SMP_CONSUMED (j : Nat) : Nat := 0x82000A + 256 * j
def SMP_LOST (j : Nat) : Nat := 0x82000B + 256 * j
def SMP_INTERVAL (j : Nat) : Nat := 0x82000C + 256 * j
def SMP_MARK (j : Nat) : Nat := 0x82000D + 256 * j
def TRC_UNIT_ONLY (j : Nat) : Nat := 0x880000 + 256 * j
def DEV_BOOT_STATE : Nat := 0x100100
def DEV_RESET_CAUSE : Nat := 0x100101
def DEV_BOOT_FAIL : Nat := 0x100102
def DEV_BOOT_TIMES : Nat := 0x100103
def DEV_RESET : Nat := 0x100104
/-- quota of kind `k`, 0 to 6, in the field order of R234 -/
def MEM_QUOTA (j k : Nat) : Nat := 0x310000 + 256 * j + k

end Cat

/-- Entries, part 0. -/
def catRows0 : List CatEntry :=
  [⟨0x5000, 1, 0x00, 1, .time64, .read, false, 0, 0, 18446744073709551615, 1, none, .device⟩,
   ⟨0x5000, 1, 0x01, 1, .u8, .read, false, 0, 0, 255, 1, none, .device⟩,
   ⟨0x5000, 1, 0x02, 1, .s64, .read, false, 0, 0, 18446744073709551615, 1, none, .device⟩,
   ⟨0x5000, 1, 0x03, 1, .u32, .read, false, 0, 0, 4294967295, 1, none, .device⟩,
   ⟨0x5000, 1, 0x04, 1, .blob, .read, false, 0, 0, 0, 1, none, .device⟩,
   ⟨0x5001, 1, 0x00, 1, .u8, .whenIdle, false, 0, 0, 255, 1, none, .device⟩,
   ⟨0x5001, 1, 0x01, 1, .u8, .whenIdle, false, 128, 0, 255, 1, none, .device⟩,
   ⟨0x5001, 1, 0x02, 1, .u8, .whenIdle, false, 128, 0, 255, 1, none, .device⟩,
   ⟨0x5001, 1, 0x03, 1, .u8, .whenIdle, false, 0, 0, 7, 1, none, .device⟩,
   ⟨0x5001, 1, 0x04, 1, .u8, .whenIdle, false, 0, 0, 1, 1, none, .device⟩,
   ⟨0x5001, 1, 0x05, 1, .u8, .whenIdle, false, 0, 0, 1, 1, none, .device⟩,
   ⟨0x5001, 1, 0x06, 1, .s8, .whenIdle, false, 252, 249, 255, 1, some 0, .device⟩,
   ⟨0x5001, 1, 0x07, 1, .bool, .whenIdle, false, 0, 0, 1, 1, none, .device⟩,
   ⟨0x5010, 1, 0x00, 1, .u8, .read, false, 0, 0, 255, 1, none, .device⟩,
   ⟨0x5010, 1, 0x01, 1, .u32, .read, false, 0, 0, 4294967295, 1, none, .device⟩,
   ⟨0x5010, 1, 0x02, 1, .u16, .read, false, 0, 0, 65535, 1, none, .device⟩,
   ⟨0x5010, 1, 0x03, 1, .u64, .read, false, 0, 0, 18446744073709551615, 1, none, .device⟩,
   ⟨0x5010, 1, 0x04, 1, .time64, .read, false, 0, 0, 18446744073709551615, 1, none, .device⟩,
   ⟨0x5011, 1, 0x00, 1, .blob, .whenIdle, false, 0, 0, 0, 1, none, .device⟩,
   ⟨0x5011, 1, 0x01, 1, .u8, .whenIdle, false, 0, 0, 255, 1, none, .device⟩,
   ⟨0x5011, 1, 0x02, 1, .blob, .read, false, 0, 0, 0, 1, none, .device⟩,
   ⟨0x5011, 1, 0x03, 1, .time64, .whenIdle, false, 0, 0, 18446744073709551615, 1, none, .device⟩,
   ⟨0x5011, 1, 0x04, 1, .u32, .whenIdle, false, 0, 0, 4294967295, 1, none, .device⟩,
   ⟨0x5011, 1, 0x05, 1, .u8, .whenIdle, false, 0, 0, 15, 1, none, .device⟩,
   ⟨0x5011, 1, 0x06, 1, .u32, .whenIdle, false, 4294967294, 0, 4294967294, 1, none, .device⟩,
   ⟨0x5011, 1, 0x07, 1, .u8, .readWrite, false, 0, 1, 3, 1, none, .device⟩,
   ⟨0x5012, 1, 0x00, 1, .u8, .readWrite, false, 25, 0, 100, 1, none, .device⟩,
   ⟨0x5012, 1, 0x01, 1, .u64, .readWrite, false, 0, 0, 18446744073709551615, 1, none, .device⟩,
   ⟨0x5012, 1, 0x02, 1, .bool, .readWrite, false, 1, 0, 1, 1, none, .device⟩,
   ⟨0x5020, 1, 0x00, 1, .u64, .read, false, 0, 0, 18446744073709551615, 1, none, .device⟩,
   ⟨0x5020, 1, 0x01, 1, .u64, .read, false, 0, 0, 18446744073709551615, 1, none, .device⟩,
   ⟨0x5020, 1, 0x02, 1, .u64, .read, false, 0, 0, 18446744073709551615, 1, none, .device⟩,
   ⟨0x5020, 1, 0x03, 1, .u64, .read, false, 0, 0, 18446744073709551615, 1, none, .device⟩,
   ⟨0x5020, 1, 0x04, 1, .u64, .read, false, 0, 0, 18446744073709551615, 1, none, .device⟩,
   ⟨0x5020, 1, 0x05, 1, .u64, .read, false, 0, 0, 18446744073709551615, 1, none, .device⟩,
   ⟨0x5020, 1, 0x06, 1, .u64, .read, false, 0, 0, 18446744073709551615, 1, none, .device⟩,
   ⟨0x5020, 1, 0x07, 1, .u64, .read, false, 0, 0, 18446744073709551615, 1, none, .device⟩,
   ⟨0x5020, 1, 0x08, 1, .u64, .read, false, 0, 0, 18446744073709551615, 1, none, .device⟩,
   ⟨0x5020, 1, 0x09, 1, .u64, .read, false, 0, 0, 18446744073709551615, 1, none, .device⟩,
   ⟨0x5020, 1, 0x0A, 1, .u64, .read, false, 0, 0, 18446744073709551615, 1, none, .device⟩]

/-- Entries, part 1. -/
def catRows1 : List CatEntry :=
  [⟨0x5020, 1, 0x0B, 1, .u64, .read, false, 0, 0, 18446744073709551615, 1, none, .device⟩,
   ⟨0x5020, 1, 0x0C, 1, .u64, .read, false, 0, 0, 18446744073709551615, 1, none, .device⟩,
   ⟨0x5020, 1, 0x0D, 1, .u64, .read, false, 0, 0, 18446744073709551615, 1, none, .device⟩,
   ⟨0x5800, 1, 0x00, 1, .u32, .readWrite, true, 8000, 0, 4294967295, 1, none, .device⟩,
   ⟨0x5800, 1, 0x01, 1, .u32, .readWrite, true, 400, 0, 4294967295, 1, none, .device⟩,
   ⟨0x5800, 1, 0x02, 1, .u8, .readWrite, true, 16, 0, 255, 1, none, .device⟩,
   ⟨0x5800, 1, 0x03, 1, .u32, .readWrite, true, 80000, 0, 4294967295, 1, none, .device⟩,
   ⟨0x5800, 1, 0x04, 1, .u16, .readWrite, true, 200, 1, 1000, 1, none, .device⟩,
   ⟨0x5801, 1, 0x00, 1, .time64, .ownerOnly, true, 0, 0, 18446744073709551615, 1, none, .device⟩,
   ⟨0x5810, 1, 0x00, 1, .u32, .whenIdle, true, 32000, 0, 4294967295, 1, none, .device⟩,
   ⟨0x5810, 1, 0x01, 1, .u32, .whenIdle, true, 8000000, 0, 4294967295, 1, none, .device⟩,
   ⟨0x5810, 1, 0x02, 1, .u32, .whenIdle, true, 800000, 0, 4294967295, 1, none, .device⟩,
   ⟨0x2000, 1, 0x00, 1, .u8, .read, false, 0, 0, 255, 1, none, .device⟩,
   ⟨0x2000, 1, 0x01, 1, .u16, .read, false, 0, 0, 65535, 1, none, .device⟩,
   ⟨0x2000, 1, 0x02, 1, .u16, .read, false, 0, 0, 65535, 1, none, .device⟩,
   ⟨0x2001, 1, 0x00, 1, .u64, .read, false, 0, 0, 18446744073709551615, 1, none, .device⟩,
   ⟨0x2001, 1, 0x01, 1, .u64, .read, false, 0, 0, 18446744073709551615, 1, none, .device⟩,
   ⟨0x2001, 1, 0x02, 1, .u64, .read, false, 0, 0, 18446744073709551615, 1, none, .device⟩,
   ⟨0x2100, 16, 0x00, 1, .u8, .read, false, 0, 0, 255, 1, none, .job⟩,
   ⟨0x2100, 16, 0x01, 1, .u16, .read, false, 0, 0, 65535, 1, none, .job⟩,
   ⟨0x2100, 16, 0x02, 1, .u8, .readWrite, false, 0, 1, 3, 1, none, .job⟩,
   ⟨0x2100, 16, 0x03, 1, .u16, .read, false, 0, 0, 65535, 1, none, .job⟩,
   ⟨0x2100, 16, 0x04, 1, .u16, .whenIdle, false, 4096, 1, 4096, 1, none, .job⟩,
   ⟨0x2100, 16, 0x05, 1, .u64, .read, false, 0, 0, 18446744073709551615, 1, none, .job⟩,
   ⟨0x2100, 16, 0x06, 1, .u64, .read, false, 0, 0, 18446744073709551615, 1, none, .job⟩,
   ⟨0x2100, 16, 0x07, 1, .u64, .read, false, 0, 0, 18446744073709551615, 1, none, .job⟩,
   ⟨0x2100, 16, 0x08, 1, .u64, .read, false, 0, 0, 18446744073709551615, 1, none, .job⟩,
   ⟨0x2200, 1024, 0x00, 1, .blob, .whenIdle, false, 16, 0, 0, 1, none, .ring⟩,
   ⟨0x2200, 1024, 0x01, 1, .u8, .read, false, 0, 0, 255, 1, none, .ring⟩,
   ⟨0x2200, 1024, 0x02, 1, .u8, .readWrite, false, 0, 1, 3, 1, none, .ring⟩,
   ⟨0x2200, 1024, 0x03, 1, .u64, .read, false, 0, 0, 18446744073709551615, 1, none, .ring⟩,
   ⟨0x2200, 1024, 0x04, 1, .u64, .read, false, 0, 0, 18446744073709551615, 1, none, .ring⟩,
   ⟨0x2200, 1024, 0x05, 1, .u32, .read, false, 0, 0, 4294967295, 1, none, .ring⟩,
   ⟨0x2200, 1024, 0x06, 1, .u64, .read, false, 0, 0, 18446744073709551615, 1, none, .ring⟩,
   ⟨0x2800, 1, 0x00, 1, .u16, .whenIdle, true, 1024, 0, 4096, 1, none, .device⟩,
   ⟨0x2800, 1, 0x01, 1, .u8, .readWrite, true, 8, 1, 255, 1, none, .device⟩,
   ⟨0x2800, 1, 0x02, 1, .u8, .readWrite, true, 32, 1, 64, 1, none, .device⟩,
   ⟨0x2002, 1, 0x00, 1, .u64, .read, false, 0, 0, 18446744073709551615, 1, none, .device⟩,
   ⟨0x2002, 1, 0x01, 1, .u64, .read, false, 0, 0, 18446744073709551615, 1, none, .device⟩,
   ⟨0x2002, 1, 0x02, 1, .u64, .read, false, 0, 0, 18446744073709551615, 1, none, .device⟩]

/-- Entries, part 2. -/
def catRows2 : List CatEntry :=
  [⟨0x2002, 1, 0x03, 1, .u64, .read, false, 0, 0, 18446744073709551615, 1, none, .device⟩,
   ⟨0x2002, 1, 0x04, 1, .u64, .read, false, 0, 0, 18446744073709551615, 1, none, .device⟩,
   ⟨0x2002, 1, 0x05, 1, .u64, .read, false, 0, 0, 18446744073709551615, 1, none, .device⟩,
   ⟨0x2002, 1, 0x06, 1, .u64, .read, false, 0, 0, 18446744073709551615, 1, none, .device⟩,
   ⟨0x2600, 64, 0x00, 8, .u64, .read, false, 0, 0, 18446744073709551615, 1, none, .device⟩,
   ⟨0x2600, 64, 0x08, 8, .u64, .read, false, 0, 0, 18446744073709551615, 1, none, .device⟩,
   ⟨0x2600, 64, 0x10, 8, .u64, .read, false, 0, 0, 18446744073709551615, 1, none, .device⟩,
   ⟨0x2600, 64, 0x18, 8, .u64, .read, false, 0, 0, 18446744073709551615, 1, none, .device⟩,
   ⟨0x2600, 64, 0x20, 8, .u64, .read, false, 0, 0, 18446744073709551615, 1, none, .device⟩,
   ⟨0x2600, 64, 0x28, 8, .u64, .read, false, 0, 0, 18446744073709551615, 1, none, .device⟩,
   ⟨0x2600, 64, 0x30, 8, .u64, .read, false, 0, 0, 18446744073709551615, 1, none, .device⟩,
   ⟨0x2640, 8, 0x00, 56, .u64, .read, false, 0, 0, 18446744073709551615, 1, none, .device⟩,
   ⟨0x2900, 16, 0x00, 1, .bool, .whenIdle, true, 0, 0, 1, 1, none, .job⟩,
   ⟨0x9000, 1, 0x00, 1, .u64, .read, false, 0, 0, 18446744073709551615, 1, none, .device⟩,
   ⟨0x9000, 1, 0x01, 1, .u64, .read, false, 0, 0, 18446744073709551615, 1, none, .device⟩,
   ⟨0x9000, 1, 0x02, 1, .u64, .read, false, 0, 0, 18446744073709551615, 1, none, .device⟩,
   ⟨0x9000, 1, 0x03, 1, .u64, .read, false, 0, 0, 18446744073709551615, 1, none, .device⟩,
   ⟨0x9000, 1, 0x04, 1, .u64, .read, false, 0, 0, 18446744073709551615, 1, none, .device⟩,
   ⟨0x9000, 1, 0x05, 1, .u64, .read, false, 0, 0, 18446744073709551615, 1, none, .device⟩,
   ⟨0x9000, 1, 0x06, 1, .u64, .read, false, 0, 0, 18446744073709551615, 1, none, .device⟩,
   ⟨0x9000, 1, 0x07, 1, .u64, .read, false, 0, 0, 18446744073709551615, 1, none, .device⟩,
   ⟨0x9000, 1, 0x08, 1, .u64, .read, false, 0, 0, 18446744073709551615, 1, none, .device⟩,
   ⟨0x9000, 1, 0x09, 1, .u64, .read, false, 0, 0, 18446744073709551615, 1, none, .device⟩,
   ⟨0x9100, 16, 0x00, 1, .u64, .whenIdle, false, 0, 0, 4503599627370495, 64, none, .job⟩,
   ⟨0x9100, 16, 0x01, 1, .f32, .readWrite, false, 953267991, 0, 1065353216, 1, some 2147483648, .job⟩,
   ⟨0x9100, 16, 0x02, 1, .u16, .whenIdle, false, 65535, 0, 1023, 1, some 65535, .job⟩,
   ⟨0x9100, 16, 0x03, 1, .u8, .readWrite, false, 0, 1, 1, 1, none, .job⟩,
   ⟨0x9100, 16, 0x04, 1, .u8, .whenIdle, false, 16, 1, 32, 1, none, .job⟩,
   ⟨0x9100, 16, 0x05, 1, .bool, .whenIdle, false, 1, 0, 1, 1, none, .job⟩,
   ⟨0x9100, 16, 0x06, 1, .u32, .whenIdle, false, 4294967295, 0, 4294967295, 1, none, .job⟩,
   ⟨0x9900, 16, 0x00, 1, .u8, .whenIdle, true, 2, 1, 8, 1, none, .job⟩,
   ⟨0x2003, 1, 0x00, 1, .u64, .read, false, 0, 0, 18446744073709551615, 1, none, .device⟩,
   ⟨0x2003, 1, 0x01, 1, .u64, .read, false, 0, 0, 18446744073709551615, 1, none, .device⟩,
   ⟨0x2003, 1, 0x02, 1, .u64, .read, false, 0, 0, 18446744073709551615, 1, none, .device⟩,
   ⟨0x2003, 1, 0x03, 1, .u64, .read, false, 0, 0, 18446744073709551615, 1, none, .device⟩,
   ⟨0x2003, 1, 0x04, 1, .u64, .read, false, 0, 0, 18446744073709551615, 1, none, .device⟩,
   ⟨0x2700, 64, 0x00, 1, .u64, .read, false, 0, 0, 18446744073709551615, 1, none, .device⟩,
   ⟨0x2700, 64, 0x01, 1, .u64, .read, false, 0, 0, 18446744073709551615, 1, none, .device⟩,
   ⟨0x2700, 64, 0x02, 1, .u64, .read, false, 0, 0, 18446744073709551615, 1, none, .device⟩,
   ⟨0x2700, 64, 0x03, 1, .u64, .read, false, 0, 0, 18446744073709551615, 1, none, .device⟩]

/-- Entries, part 3. -/
def catRows3 : List CatEntry :=
  [⟨0x2700, 64, 0x04, 1, .u64, .read, false, 0, 0, 18446744073709551615, 1, none, .device⟩,
   ⟨0x2700, 64, 0x05, 1, .u64, .read, false, 0, 0, 18446744073709551615, 1, none, .device⟩,
   ⟨0x2700, 64, 0x06, 1, .u64, .read, false, 0, 0, 18446744073709551615, 1, none, .device⟩,
   ⟨0x2700, 64, 0x07, 1, .u64, .read, false, 0, 0, 18446744073709551615, 1, none, .device⟩,
   ⟨0x2700, 64, 0x08, 1, .u64, .read, false, 0, 0, 18446744073709551615, 1, none, .device⟩,
   ⟨0x2740, 8, 0x00, 9, .u64, .read, false, 0, 0, 18446744073709551615, 1, none, .device⟩,
   ⟨0x2A00, 16, 0x00, 1, .bool, .whenIdle, true, 0, 0, 1, 1, none, .job⟩,
   ⟨0x3000, 1, 0x00, 1, .u64, .read, false, 17179869184, 0, 18446744073709551615, 1, none, .device⟩,
   ⟨0x3000, 1, 0x01, 1, .u64, .read, false, 0, 0, 18446744073709551615, 1, none, .device⟩,
   ⟨0x3000, 1, 0x02, 1, .bool, .ownerOnly, false, 1, 0, 1, 1, none, .device⟩,
   ⟨0x3000, 1, 0x03, 1, .u64, .ownerOnly, false, 0, 0, 281474976710655, 65536, none, .device⟩,
   ⟨0x3000, 1, 0x04, 1, .u32, .read, false, 0, 0, 4294967295, 1, none, .device⟩,
   ⟨0x3000, 1, 0x05, 1, .blob, .read, false, 0, 0, 0, 1, none, .device⟩,
   ⟨0x3000, 1, 0x06, 1, .u8, .ownerOnly, false, 0, 0, 255, 1, none, .device⟩,
   ⟨0x3000, 1, 0x07, 1, .u8, .ownerOnly, false, 0, 0, 255, 1, none, .device⟩,
   ⟨0x3000, 1, 0x08, 1, .u64, .read, false, 0, 0, 18446744073709551615, 1, none, .device⟩,
   ⟨0x3010, 8, 0x00, 1, .u64, .read, false, 0, 0, 18446744073709551615, 1, none, .device⟩,
   ⟨0x3010, 8, 0x01, 1, .u64, .read, false, 0, 0, 18446744073709551615, 1, none, .device⟩,
   ⟨0x3010, 8, 0x02, 1, .u64, .read, false, 0, 0, 18446744073709551615, 1, none, .device⟩,
   ⟨0x3010, 8, 0x03, 1, .u64, .read, false, 0, 0, 18446744073709551615, 1, none, .device⟩,
   ⟨0x3010, 8, 0x04, 1, .u64, .read, false, 0, 0, 18446744073709551615, 1, none, .device⟩,
   ⟨0x3010, 8, 0x05, 1, .u64, .read, false, 0, 0, 18446744073709551615, 1, none, .device⟩,
   ⟨0x3010, 8, 0x06, 1, .u64, .read, false, 0, 0, 18446744073709551615, 1, none, .device⟩,
   ⟨0x3010, 8, 0x07, 1, .u64, .read, false, 0, 0, 18446744073709551615, 1, none, .device⟩,
   ⟨0x3100, 16, 0x00, 1, .blob, .ownerOnly, false, 32, 0, 0, 1, none, .job⟩,
   ⟨0x3100, 16, 0x01, 1, .u64, .ownerOnly, false, 0, 0, 18446744073709551615, 1, none, .job⟩,
   ⟨0x3100, 16, 0x02, 1, .u64, .ownerOnly, false, 0, 0, 18446744073709551615, 1, none, .job⟩,
   ⟨0x3100, 16, 0x03, 1, .u64, .ownerOnly, false, 0, 0, 18446744073709551615, 1, none, .job⟩,
   ⟨0x3100, 16, 0x04, 1, .u32, .ownerOnly, false, 0, 0, 4294967295, 1, none, .job⟩,
   ⟨0x3100, 16, 0x05, 1, .u32, .ownerOnly, false, 0, 0, 4294967295, 1, none, .job⟩,
   ⟨0x3100, 16, 0x06, 1, .u64, .ownerOnly, false, 0, 0, 18446744073709551615, 1, none, .job⟩,
   ⟨0x3100, 16, 0x11, 6, .u64, .read, false, 0, 0, 18446744073709551615, 1, none, .job⟩,
   ⟨0x3100, 16, 0x20, 1, .blob, .readWrite, false, 0, 0, 0, 1, none, .job⟩,
   ⟨0x3100, 16, 0x21, 1, .u64, .readWrite, false, 0, 0, 18446744073709551615, 1, none, .job⟩,
   ⟨0x3100, 16, 0x22, 1, .u64, .readWrite, false, 0, 0, 18446744073709551615, 1, none, .job⟩,
   ⟨0x3100, 16, 0x23, 1, .u16, .read, false, 0, 0, 65535, 1, none, .job⟩,
   ⟨0x3100, 16, 0x24, 1, .u64, .read, false, 0, 0, 18446744073709551615, 1, none, .job⟩,
   ⟨0x3100, 16, 0x25, 1, .u64, .read, false, 0, 0, 18446744073709551615, 1, none, .job⟩,
   ⟨0x3100, 16, 0x26, 1, .u32, .read, false, 0, 0, 4294967295, 1, none, .job⟩,
   ⟨0x3100, 16, 0x27, 1, .u32, .read, false, 0, 0, 4294967295, 1, none, .job⟩]

/-- Entries, part 4. -/
def catRows4 : List CatEntry :=
  [⟨0x3100, 16, 0x28, 1, .u64, .read, false, 0, 0, 18446744073709551615, 1, none, .job⟩,
   ⟨0x3100, 16, 0x29, 1, .u64, .read, false, 0, 0, 18446744073709551615, 1, none, .job⟩,
   ⟨0x3800, 1, 0x00, 1, .u32, .readWrite, true, 86400, 3600, 604800, 1, none, .device⟩,
   ⟨0x3800, 1, 0x01, 1, .u32, .readWrite, true, 1000, 0, 4294967295, 1, none, .device⟩,
   ⟨0x3020, 1, 0x00, 1, .u64, .read, false, 0, 0, 18446744073709551615, 1, none, .device⟩,
   ⟨0x3020, 1, 0x01, 1, .u64, .read, false, 0, 0, 18446744073709551615, 1, none, .device⟩,
   ⟨0x3020, 1, 0x02, 1, .u64, .read, false, 0, 0, 18446744073709551615, 1, none, .device⟩,
   ⟨0x3020, 1, 0x03, 1, .u64, .read, false, 0, 0, 18446744073709551615, 1, none, .device⟩,
   ⟨0x3020, 1, 0x04, 1, .u64, .read, false, 0, 0, 18446744073709551615, 1, none, .device⟩,
   ⟨0x3200, 64, 0x00, 1, .u64, .read, false, 0, 0, 18446744073709551615, 1, none, .device⟩,
   ⟨0x3200, 64, 0x01, 1, .u64, .read, false, 0, 0, 18446744073709551615, 1, none, .device⟩,
   ⟨0x3200, 64, 0x02, 1, .u64, .read, false, 0, 0, 18446744073709551615, 1, none, .device⟩,
   ⟨0x3200, 64, 0x03, 1, .u64, .read, false, 0, 0, 18446744073709551615, 1, none, .device⟩,
   ⟨0x3200, 64, 0x04, 1, .u64, .read, false, 0, 0, 18446744073709551615, 1, none, .device⟩,
   ⟨0x3200, 64, 0x05, 1, .u64, .read, false, 0, 0, 18446744073709551615, 1, none, .device⟩,
   ⟨0x3240, 8, 0x00, 6, .u64, .read, false, 0, 0, 18446744073709551615, 1, none, .device⟩,
   ⟨0x3240, 8, 0x06, 1, .u64, .read, false, 0, 0, 18446744073709551615, 1, none, .device⟩,
   ⟨0x3240, 8, 0x07, 1, .u64, .read, false, 0, 0, 18446744073709551615, 1, none, .device⟩,
   ⟨0x3300, 16, 0x00, 1, .blob, .read, false, 0, 0, 0, 1, none, .job⟩,
   ⟨0x3810, 1, 0x00, 1, .u8, .readWrite, true, 128, 16, 128, 1, none, .device⟩,
   ⟨0x2004, 1, 0x00, 1, .u64, .read, false, 0, 0, 18446744073709551615, 1, none, .device⟩,
   ⟨0x2780, 16, 0x00, 1, .u64, .whenIdle, false, 0, 0, 4503599627370495, 32, none, .job⟩,
   ⟨0x2780, 16, 0x01, 1, .u32, .whenIdle, false, 0, 0, 65536, 1, none, .job⟩,
   ⟨0x2780, 16, 0x02, 1, .u16, .readWrite, false, 16, 0, 65535, 1, none, .job⟩,
   ⟨0x2780, 16, 0x03, 1, .u8, .readWrite, false, 0, 1, 1, 1, none, .job⟩,
   ⟨0x2780, 16, 0x04, 1, .u64, .read, false, 0, 0, 18446744073709551615, 1, none, .job⟩,
   ⟨0x2790, 8, 0x00, 1, .u64, .read, false, 0, 0, 18446744073709551615, 1, none, .device⟩,
   ⟨0x2790, 8, 0x01, 1, .u64, .read, false, 0, 0, 18446744073709551615, 1, none, .device⟩,
   ⟨0x2790, 8, 0x02, 1, .u64, .read, false, 0, 0, 18446744073709551615, 1, none, .device⟩,
   ⟨0x2B00, 16, 0x00, 1, .bool, .whenIdle, true, 1, 0, 1, 1, none, .job⟩,
   ⟨0x9200, 16, 0x00, 1, .u32, .whenIdle, false, 0, 0, 4294967295, 1, none, .job⟩,
   ⟨0x9200, 16, 0x01, 1, .u64, .whenIdle, false, 0, 0, 18446744073709551615, 1, none, .job⟩,
   ⟨0x9200, 16, 0x02, 1, .u16, .whenIdle, false, 65535, 0, 1023, 1, some 65535, .job⟩,
   ⟨0x9200, 16, 0x03, 1, .u64, .whenIdle, false, 0, 0, 18446744073709551615, 32, none, .job⟩,
   ⟨0x9200, 16, 0x04, 1, .u16, .whenIdle, false, 0, 0, 4096, 1, none, .job⟩,
   ⟨0x9200, 16, 0x05, 1, .u64, .whenIdle, false, 0, 0, 18446744073709551615, 1, none, .job⟩,
   ⟨0x9200, 16, 0x06, 1, .u64, .whenIdle, false, 0, 0, 18446744073709551615, 65536, none, .job⟩,
   ⟨0x9200, 16, 0x07, 1, .u64, .whenIdle, false, 0, 0, 18446744073709551615, 1, none, .job⟩,
   ⟨0x9200, 16, 0x08, 1, .u64, .whenIdle, false, 0, 0, 18446744073709551615, 1, none, .job⟩,
   ⟨0x9200, 16, 0x09, 1, .u64, .read, false, 0, 0, 18446744073709551615, 1, none, .job⟩]

/-- Entries, part 5. -/
def catRows5 : List CatEntry :=
  [⟨0x9200, 16, 0x0A, 1, .u64, .read, false, 0, 0, 18446744073709551615, 1, none, .job⟩,
   ⟨0x9200, 16, 0x0B, 1, .u64, .read, false, 0, 0, 18446744073709551615, 1, none, .job⟩,
   ⟨0x9200, 16, 0x0C, 1, .u64, .read, false, 0, 0, 18446744073709551615, 1, none, .job⟩,
   ⟨0x9200, 16, 0x0D, 1, .u64, .read, false, 0, 0, 18446744073709551615, 1, none, .job⟩,
   ⟨0x9200, 16, 0x0E, 1, .u64, .read, false, 0, 0, 18446744073709551615, 1, none, .job⟩,
   ⟨0x9200, 16, 0x0F, 1, .u64, .read, false, 0, 0, 18446744073709551615, 1, none, .job⟩,
   ⟨0x9200, 16, 0x10, 1, .u64, .read, false, 0, 0, 18446744073709551615, 1, none, .job⟩,
   ⟨0x9200, 16, 0x11, 1, .u64, .read, false, 0, 0, 18446744073709551615, 1, none, .job⟩,
   ⟨0x9200, 16, 0x12, 1, .u64, .read, false, 0, 0, 18446744073709551615, 1, none, .job⟩,
   ⟨0x9200, 16, 0x13, 1, .u64, .read, false, 0, 0, 18446744073709551615, 1, none, .job⟩,
   ⟨0x9200, 16, 0x14, 1, .u64, .read, false, 0, 0, 18446744073709551615, 1, none, .job⟩,
   ⟨0x9200, 16, 0x15, 1, .u8, .read, false, 0, 0, 255, 1, none, .job⟩,
   ⟨0x9200, 16, 0x16, 1, .blob, .readWrite, false, 16, 0, 0, 1, none, .job⟩,
   ⟨0x9200, 16, 0x17, 1, .u32, .whenIdle, false, 4294967295, 0, 4294967295, 1, none, .job⟩,
   ⟨0x9200, 16, 0x18, 1, .u64, .read, false, 0, 0, 18446744073709551615, 1, none, .job⟩,
   ⟨0x9A00, 16, 0x00, 1, .bool, .whenIdle, true, 0, 0, 1, 1, none, .job⟩,
   ⟨0x4000, 1, 0x00, 1, .u8, .ownerOnly, false, 0, 0, 1, 1, none, .device⟩,
   ⟨0x4000, 1, 0x01, 1, .u16, .ownerOnly, false, 47210, 0, 65535, 1, none, .device⟩,
   ⟨0x4000, 1, 0x02, 1, .u16, .ownerOnly, false, 0, 0, 65535, 1, none, .device⟩,
   ⟨0x4000, 1, 0x03, 1, .blob, .readWrite, false, 64, 0, 0, 1, none, .device⟩,
   ⟨0x4000, 1, 0x04, 1, .bool, .ownerOnly, false, 0, 0, 1, 1, none, .device⟩,
   ⟨0x4000, 1, 0x05, 1, .u8, .ownerOnly, false, 0, 0, 255, 1, none, .device⟩,
   ⟨0x4000, 1, 0x06, 1, .u16, .ownerOnly, false, 8192, 256, 8192, 64, none, .device⟩,
   ⟨0x4000, 1, 0x07, 1, .blob, .whenIdle, false, 0, 0, 0, 1, none, .device⟩,
   ⟨0x4010, 1, 0x00, 32, .u64, .read, false, 0, 0, 18446744073709551615, 1, none, .device⟩,
   ⟨0x4100, 8, 0x00, 1, .u8, .ownerOnly, false, 0, 0, 1, 1, none, .device⟩,
   ⟨0x4100, 8, 0x01, 1, .u8, .read, false, 0, 0, 255, 1, none, .device⟩,
   ⟨0x4100, 8, 0x02, 1, .blob, .read, false, 0, 0, 0, 1, none, .device⟩,
   ⟨0x4100, 8, 0x03, 1, .u32, .ownerOnly, false, 0, 0, 4294967295, 1, none, .device⟩,
   ⟨0x4100, 8, 0x04, 1, .u16, .ownerOnly, false, 0, 0, 65535, 1, none, .device⟩,
   ⟨0x4100, 8, 0x05, 1, .u16, .ownerOnly, false, 512, 64, 9216, 1, none, .device⟩,
   ⟨0x4200, 8, 0x00, 53, .u64, .read, false, 0, 0, 18446744073709551615, 1, none, .device⟩,
   ⟨0x4300, 16, 0x00, 1, .blob, .readWrite, false, 64, 0, 0, 1, none, .job⟩,
   ⟨0x4300, 16, 0x01, 1, .u32, .readWrite, false, 0, 0, 4294967295, 1, none, .job⟩,
   ⟨0x4300, 16, 0x02, 1, .blob, .readWrite, false, 32, 0, 0, 1, none, .job⟩,
   ⟨0x4300, 16, 0x03, 1, .blob, .readWrite, false, 64, 0, 0, 1, none, .job⟩,
   ⟨0x4300, 16, 0x04, 1, .u32, .readWrite, false, 0, 0, 4294967295, 1, none, .job⟩,
   ⟨0x4300, 16, 0x05, 1, .blob, .readWrite, false, 32, 0, 0, 1, none, .job⟩,
   ⟨0x4300, 16, 0x06, 1, .u64, .read, false, 0, 0, 18446744073709551615, 1, none, .job⟩,
   ⟨0x4300, 16, 0x07, 1, .u64, .read, false, 0, 0, 18446744073709551615, 1, none, .job⟩]

/-- Entries, part 6. -/
def catRows6 : List CatEntry :=
  [⟨0x4800, 1, 0x00, 1, .u32, .ownerOnly, true, 1600000, 0, 4294967295, 1, none, .device⟩,
   ⟨0x4800, 1, 0x01, 1, .u32, .ownerOnly, true, 25600000, 0, 4294967295, 1, none, .device⟩,
   ⟨0x4800, 1, 0x02, 1, .u8, .ownerOnly, true, 16, 1, 255, 1, none, .device⟩,
   ⟨0x4800, 1, 0x03, 1, .u32, .ownerOnly, true, 262144, 0, 4294967295, 1, none, .device⟩,
   ⟨0x4800, 1, 0x04, 1, .u32, .ownerOnly, true, 16384, 0, 4294967295, 1, none, .device⟩,
   ⟨0x4800, 1, 0x05, 1, .u32, .ownerOnly, true, 16777216, 0, 4294967295, 1, none, .device⟩,
   ⟨0x4800, 1, 0x06, 1, .u8, .ownerOnly, true, 8, 1, 64, 1, none, .device⟩,
   ⟨0x4800, 1, 0x07, 1, .u32, .ownerOnly, true, 32000, 0, 4294967295, 1, none, .device⟩,
   ⟨0x4800, 1, 0x08, 1, .u32, .ownerOnly, true, 800000, 0, 4294967295, 1, none, .device⟩,
   ⟨0x4800, 1, 0x09, 1, .u16, .ownerOnly, true, 20, 0, 65535, 1, none, .device⟩,
   ⟨0x4800, 1, 0x0A, 1, .u32, .ownerOnly, true, 160000000, 0, 4294967295, 1, none, .device⟩,
   ⟨0x4800, 1, 0x0B, 1, .u8, .ownerOnly, true, 4, 0, 16, 1, none, .device⟩,
   ⟨0x4800, 1, 0x0C, 1, .u32, .ownerOnly, true, 1600000, 0, 4294967295, 1, none, .device⟩,
   ⟨0x4800, 1, 0x0D, 1, .u32, .ownerOnly, true, 262144, 8192, 524288, 1, none, .device⟩,
   ⟨0x4801, 1, 0x00, 1, .u64, .ownerOnly, true, 0, 0, 18446744073709551615, 1, none, .device⟩,
   ⟨0x4801, 1, 0x01, 1, .u8, .ownerOnly, true, 0, 0, 1, 1, none, .device⟩,
   ⟨0x4020, 1, 0x00, 1, .u64, .read, false, 0, 0, 18446744073709551615, 1, none, .device⟩,
   ⟨0x4400, 16, 0x00, 1, .u64, .whenIdle, false, 0, 0, 18446744073709551615, 32, none, .job⟩,
   ⟨0x4400, 16, 0x01, 1, .u32, .whenIdle, false, 0, 0, 65536, 1, none, .job⟩,
   ⟨0x4400, 16, 0x02, 1, .u8, .whenIdle, false, 0, 0, 255, 1, none, .job⟩,
   ⟨0x4400, 16, 0x03, 1, .u8, .whenIdle, false, 1, 1, 128, 1, none, .job⟩,
   ⟨0x4400, 16, 0x04, 1, .u8, .whenIdle, false, 0, 0, 255, 1, none, .job⟩,
   ⟨0x4400, 16, 0x05, 1, .u8, .whenIdle, false, 0, 0, 255, 1, none, .job⟩,
   ⟨0x4400, 16, 0x06, 1, .blob, .whenIdle, false, 0, 0, 0, 1, none, .job⟩,
   ⟨0x4400, 16, 0x07, 1, .u64, .whenIdle, false, 0, 0, 18446744073709551615, 1, none, .job⟩,
   ⟨0x4400, 16, 0x08, 1, .u32, .readWrite, false, 40000000, 0, 4294967295, 1, none, .job⟩,
   ⟨0x4400, 16, 0x09, 1, .u32, .readWrite, false, 400000, 0, 4294967295, 1, none, .job⟩,
   ⟨0x4400, 16, 0x0A, 1, .u32, .readWrite, false, 80000000, 0, 4294967295, 1, none, .job⟩,
   ⟨0x4400, 16, 0x0B, 1, .blob, .whenIdle, false, 0, 0, 0, 1, none, .job⟩,
   ⟨0x4400, 16, 0x0C, 1, .u32, .readWrite, false, 800000, 0, 4294967295, 1, none, .job⟩,
   ⟨0x4400, 16, 0x10, 1, .u64, .read, false, 0, 0, 18446744073709551615, 1, none, .job⟩,
   ⟨0x4400, 16, 0x11, 1, .u64, .read, false, 0, 0, 18446744073709551615, 1, none, .job⟩,
   ⟨0x4400, 16, 0x12, 1, .u64, .read, false, 0, 0, 18446744073709551615, 1, none, .job⟩,
   ⟨0x4400, 16, 0x13, 1, .u64, .read, false, 0, 0, 18446744073709551615, 1, none, .job⟩,
   ⟨0x4400, 16, 0x14, 1, .u64, .read, false, 0, 0, 18446744073709551615, 1, none, .job⟩,
   ⟨0x4400, 16, 0x15, 1, .u64, .read, false, 0, 0, 18446744073709551615, 1, none, .job⟩,
   ⟨0x4400, 16, 0x16, 1, .u64, .read, false, 0, 0, 18446744073709551615, 1, none, .job⟩,
   ⟨0x4400, 16, 0x17, 1, .u64, .read, false, 0, 0, 18446744073709551615, 1, none, .job⟩,
   ⟨0x4400, 16, 0x18, 1, .u64, .read, false, 0, 0, 18446744073709551615, 1, none, .job⟩,
   ⟨0x4400, 16, 0x19, 1, .u64, .read, false, 0, 0, 18446744073709551615, 1, none, .job⟩]

/-- Entries, part 7. -/
def catRows7 : List CatEntry :=
  [⟨0x4400, 16, 0x1A, 1, .u64, .read, false, 0, 0, 18446744073709551615, 1, none, .job⟩,
   ⟨0x4400, 16, 0x1B, 1, .u64, .read, false, 0, 0, 18446744073709551615, 1, none, .job⟩,
   ⟨0x4400, 16, 0x1C, 1, .u64, .read, false, 0, 0, 18446744073709551615, 1, none, .job⟩,
   ⟨0x4400, 16, 0x1D, 1, .u64, .read, false, 0, 0, 18446744073709551615, 1, none, .job⟩,
   ⟨0x4400, 16, 0x1E, 1, .u64, .read, false, 0, 0, 18446744073709551615, 1, none, .job⟩,
   ⟨0x4900, 16, 0x00, 1, .bool, .whenIdle, true, 1, 0, 1, 1, none, .job⟩,
   ⟨0x6000, 1, 0x00, 1, .f32, .read, false, 0, 0, 4294967295, 1, none, .device⟩,
   ⟨0x6000, 1, 0x01, 1, .f32, .read, false, 0, 0, 4294967295, 1, none, .device⟩,
   ⟨0x6000, 1, 0x02, 1, .blob, .read, false, 0, 0, 0, 1, none, .device⟩,
   ⟨0x6000, 1, 0x03, 1, .u16, .ownerOnly, false, 1200, 400, 1200, 1, none, .device⟩,
   ⟨0x6000, 1, 0x04, 1, .u8, .read, false, 0, 0, 255, 1, none, .device⟩,
   ⟨0x6000, 1, 0x05, 1, .u8, .readWrite, false, 0, 0, 5, 1, none, .device⟩,
   ⟨0x6000, 1, 0x06, 1, .blob, .read, false, 0, 0, 0, 1, none, .device⟩,
   ⟨0x6000, 1, 0x07, 1, .u32, .read, false, 0, 0, 4294967295, 1, none, .device⟩,
   ⟨0x6000, 1, 0x08, 1, .f32, .read, false, 0, 0, 4294967295, 1, none, .device⟩,
   ⟨0x6001, 1, 0x00, 1, .u64, .read, false, 0, 0, 18446744073709551615, 1, none, .device⟩,
   ⟨0x6001, 1, 0x01, 1, .u64, .read, false, 0, 0, 18446744073709551615, 1, none, .device⟩,
   ⟨0x6001, 1, 0x02, 1, .u64, .read, false, 0, 0, 18446744073709551615, 1, none, .device⟩,
   ⟨0x6001, 1, 0x03, 1, .u64, .read, false, 0, 0, 18446744073709551615, 1, none, .device⟩,
   ⟨0x6001, 1, 0x04, 1, .u64, .read, false, 0, 0, 18446744073709551615, 1, none, .device⟩,
   ⟨0x6001, 1, 0x05, 1, .u64, .read, false, 0, 0, 18446744073709551615, 1, none, .device⟩,
   ⟨0x6001, 1, 0x06, 1, .u64, .read, false, 0, 0, 18446744073709551615, 1, none, .device⟩,
   ⟨0x6001, 1, 0x07, 1, .u64, .read, false, 0, 0, 18446744073709551615, 1, none, .device⟩,
   ⟨0x6010, 6, 0x00, 1, .u16, .readWrite, false, 2048, 0, 65535, 1, none, .device⟩,
   ⟨0x6020, 16, 0x00, 1, .f32, .read, false, 0, 0, 4294967295, 1, none, .device⟩,
   ⟨0x6020, 16, 0x01, 1, .f32, .read, false, 0, 0, 4294967295, 1, none, .device⟩,
   ⟨0x6020, 16, 0x02, 1, .f32, .read, false, 1067450368, 0, 4294967295, 1, none, .device⟩,
   ⟨0x6040, 1, 0x00, 1, .f32, .read, false, 0, 0, 4294967295, 1, none, .device⟩,
   ⟨0x6040, 1, 0x01, 1, .blob, .read, false, 0, 0, 0, 1, none, .device⟩,
   ⟨0x6040, 1, 0x02, 1, .u64, .read, false, 0, 0, 18446744073709551615, 1, none, .device⟩,
   ⟨0x6040, 1, 0x03, 1, .u64, .read, false, 0, 0, 18446744073709551615, 1, none, .device⟩,
   ⟨0x6040, 1, 0x04, 1, .blob, .read, false, 0, 0, 0, 1, none, .device⟩,
   ⟨0x6800, 1, 0x00, 1, .u16, .ownerOnly, true, 64, 8, 512, 1, none, .device⟩,
   ⟨0x6800, 1, 0x01, 1, .u16, .ownerOnly, true, 256, 64, 4096, 1, none, .device⟩,
   ⟨0x6800, 1, 0x02, 1, .u8, .ownerOnly, true, 40, 20, 80, 1, none, .device⟩,
   ⟨0x6800, 1, 0x03, 1, .u32, .ownerOnly, true, 480000, 0, 4294967295, 1, none, .device⟩,
   ⟨0x6800, 1, 0x04, 1, .u16, .ownerOnly, true, 50, 10, 500, 1, none, .device⟩,
   ⟨0x6800, 1, 0x05, 1, .u16, .ownerOnly, true, 24, 0, 120, 1, none, .device⟩,
   ⟨0x6800, 1, 0x06, 1, .u8, .ownerOnly, true, 100, 85, 100, 1, none, .device⟩,
   ⟨0x6801, 1, 0x00, 1, .bool, .ownerOnly, true, 1, 0, 1, 1, none, .device⟩]

/-- Entries, part 8. -/
def catRows8 : List CatEntry :=
  [⟨0x7000, 1, 0x00, 1, .blob, .read, false, 0, 0, 0, 1, none, .device⟩,
   ⟨0x7000, 1, 0x01, 1, .blob, .read, false, 0, 0, 0, 1, none, .device⟩,
   ⟨0x7000, 1, 0x02, 1, .blob, .read, false, 0, 0, 0, 1, none, .device⟩,
   ⟨0x7000, 1, 0x03, 1, .blob, .read, false, 0, 0, 0, 1, none, .device⟩,
   ⟨0x7000, 1, 0x04, 1, .blob, .read, false, 0, 0, 0, 1, none, .device⟩,
   ⟨0x7000, 1, 0x05, 1, .u8, .read, false, 0, 0, 255, 1, none, .device⟩,
   ⟨0x7000, 1, 0x06, 1, .u8, .read, false, 0, 0, 255, 1, none, .device⟩,
   ⟨0x7000, 1, 0x07, 1, .bool, .read, false, 0, 0, 1, 1, none, .device⟩,
   ⟨0x7000, 1, 0x08, 1, .u32, .read, false, 0, 0, 4294967295, 1, none, .device⟩,
   ⟨0x7000, 1, 0x09, 1, .blob, .writeOnce, false, 0, 0, 0, 1, none, .device⟩,
   ⟨0x7000, 1, 0x0A, 1, .u8, .read, false, 0, 0, 255, 1, none, .device⟩,
   ⟨0x7001, 1, 0x00, 1, .u64, .read, false, 0, 0, 18446744073709551615, 1, none, .device⟩,
   ⟨0x7001, 1, 0x01, 1, .u64, .read, false, 0, 0, 18446744073709551615, 1, none, .device⟩,
   ⟨0x7001, 1, 0x02, 1, .u64, .read, false, 0, 0, 18446744073709551615, 1, none, .device⟩,
   ⟨0x7001, 1, 0x03, 1, .u64, .read, false, 0, 0, 18446744073709551615, 1, none, .device⟩,
   ⟨0x7001, 1, 0x04, 1, .u64, .read, false, 0, 0, 18446744073709551615, 1, none, .device⟩,
   ⟨0x7001, 1, 0x05, 1, .u64, .read, false, 0, 0, 18446744073709551615, 1, none, .device⟩,
   ⟨0x7001, 1, 0x06, 1, .u64, .read, false, 0, 0, 18446744073709551615, 1, none, .device⟩,
   ⟨0x7001, 1, 0x07, 1, .u64, .read, false, 0, 0, 18446744073709551615, 1, none, .device⟩,
   ⟨0x7001, 1, 0x08, 1, .u64, .read, false, 0, 0, 18446744073709551615, 1, none, .device⟩,
   ⟨0x7010, 1, 0x00, 1, .blob, .readWrite, false, 0, 0, 0, 1, none, .device⟩,
   ⟨0x7010, 1, 0x01, 1, .blob, .readWrite, false, 0, 0, 0, 1, none, .device⟩,
   ⟨0x7010, 1, 0x02, 1, .blob, .readWrite, false, 0, 0, 0, 1, none, .device⟩,
   ⟨0x7010, 1, 0x03, 1, .blob, .readWrite, false, 0, 0, 0, 1, none, .device⟩,
   ⟨0x7010, 1, 0x04, 1, .blob, .readWrite, false, 0, 0, 0, 1, none, .device⟩,
   ⟨0x7010, 1, 0x05, 1, .u8, .readWrite, false, 0, 0, 63, 1, none, .device⟩,
   ⟨0x7010, 1, 0x06, 1, .blob, .ownerOnly, false, 0, 0, 0, 1, none, .device⟩,
   ⟨0x7020, 1, 0x00, 1, .blob, .ownerOnly, false, 0, 0, 0, 1, none, .device⟩,
   ⟨0x7020, 1, 0x01, 1, .u8, .ownerOnly, false, 0, 1, 1, 1, none, .device⟩,
   ⟨0x7020, 1, 0x02, 1, .bool, .ownerOnly, false, 0, 1, 1, 1, none, .device⟩,
   ⟨0x7030, 2, 0x00, 1, .blob, .ownerOnly, false, 0, 0, 0, 1, none, .device⟩,
   ⟨0x7030, 2, 0x01, 1, .u8, .read, false, 0, 0, 255, 1, none, .device⟩,
   ⟨0x7100, 16, 0x00, 1, .u8, .read, false, 255, 0, 255, 1, none, .job⟩,
   ⟨0x7100, 16, 0x01, 1, .bool, .readWrite, false, 0, 0, 1, 1, none, .job⟩,
   ⟨0x7100, 16, 0x02, 1, .bool, .whenIdle, false, 1, 0, 1, 1, none, .job⟩,
   ⟨0x7200, 64, 0x00, 1, .blob, .read, false, 0, 0, 0, 1, none, .device⟩,
   ⟨0x7800, 1, 0x00, 1, .u16, .ownerOnly, true, 41, 16, 255, 1, none, .device⟩,
   ⟨0x7800, 1, 0x01, 1, .u16, .ownerOnly, true, 624, 520, 1024, 1, none, .device⟩,
   ⟨0x1000, 1, 0x00, 1, .string, .read, false, 0, 0, 0, 1, none, .device⟩,
   ⟨0x1000, 1, 0x01, 1, .string, .read, false, 0, 0, 0, 1, none, .device⟩]

/-- Entries, part 9. -/
def catRows9 : List CatEntry :=
  [⟨0x1000, 1, 0x02, 1, .u8, .read, false, 0, 0, 255, 1, none, .device⟩,
   ⟨0x1000, 1, 0x03, 1, .u32, .read, false, 0, 0, 4294967295, 1, none, .device⟩,
   ⟨0x1010, 2, 0x00, 1, .u16, .read, false, 0, 0, 65535, 1, none, .device⟩,
   ⟨0x1010, 2, 0x01, 1, .u64, .read, false, 0, 0, 18446744073709551615, 1, none, .device⟩,
   ⟨0x1010, 2, 0x02, 1, .u64, .read, false, 0, 0, 18446744073709551615, 1, none, .device⟩,
   ⟨0x1010, 2, 0x03, 1, .u64, .read, false, 0, 0, 18446744073709551615, 1, none, .device⟩,
   ⟨0x1010, 2, 0x04, 1, .u64, .read, false, 0, 0, 18446744073709551615, 1, none, .device⟩,
   ⟨0x1010, 2, 0x05, 1, .u64, .read, false, 0, 0, 18446744073709551615, 1, none, .device⟩,
   ⟨0x1010, 2, 0x06, 1, .u64, .ownerOnly, false, 0, 0, 18446744073709551615, 549755813888, none, .device⟩,
   ⟨0x3100, 16, 0x2A, 1, .u64, .readWrite, false, 0, 0, 4503599627370495, 1073741824, none, .job⟩,
   ⟨0x4500, 8, 0x00, 1, .blob, .ownerOnly, false, 32, 0, 0, 1, none, .device⟩,
   ⟨0x4500, 8, 0x01, 1, .u64, .read, false, 0, 0, 18446744073709551615, 1, none, .device⟩,
   ⟨0x7100, 16, 0x03, 1, .u8, .readWrite, false, 3, 0, 3, 1, none, .job⟩,
   ⟨0xA000, 1, 0x00, 1, .u8, .read, false, 0, 0, 255, 1, none, .device⟩,
   ⟨0xA000, 1, 0x01, 1, .blob, .read, false, 0, 0, 0, 1, none, .device⟩,
   ⟨0xA000, 1, 0x02, 1, .blob, .read, false, 0, 0, 0, 1, none, .device⟩,
   ⟨0xA001, 1, 0x00, 1, .u32, .ownerOnly, false, 30000, 1000, 3600000, 1, none, .device⟩,
   ⟨0xA001, 1, 0x01, 1, .u64, .read, false, 0, 0, 18446744073709551615, 1, none, .device⟩,
   ⟨0xA001, 1, 0x02, 1, .u64, .read, false, 0, 0, 18446744073709551615, 1, none, .device⟩,
   ⟨0xA001, 1, 0x03, 1, .u64, .read, false, 0, 0, 18446744073709551615, 1, none, .device⟩,
   ⟨0xA002, 1, 0x00, 1, .u8, .ownerOnly, false, 0, 0, 1, 1, none, .device⟩,
   ⟨0xA002, 1, 0x01, 1, .u8, .read, false, 0, 0, 255, 1, none, .device⟩,
   ⟨0xA002, 1, 0x02, 1, .u32, .ownerOnly, false, 2851995905, 0, 4294967295, 1, none, .device⟩,
   ⟨0xA002, 1, 0x03, 1, .u16, .ownerOnly, false, 47211, 0, 65535, 1, none, .device⟩,
   ⟨0xA002, 1, 0x04, 1, .blob, .read, false, 0, 0, 0, 1, none, .device⟩,
   ⟨0xA003, 1, 0x00, 7, .u64, .read, false, 0, 0, 18446744073709551615, 1, none, .device⟩,
   ⟨0xA010, 1, 0x00, 1, .u8, .readWrite, false, 0, 0, 1, 1, none, .session⟩,
   ⟨0xA010, 1, 0x01, 1, .u8, .read, false, 0, 0, 255, 1, none, .session⟩,
   ⟨0xA010, 1, 0x02, 1, .u64, .read, false, 0, 0, 18446744073709551615, 1, none, .session⟩,
   ⟨0xA010, 1, 0x03, 1, .u32, .read, false, 0, 0, 4294967295, 1, none, .session⟩,
   ⟨0xA010, 1, 0x04, 1, .blob, .read, false, 0, 0, 0, 1, none, .session⟩,
   ⟨0xA010, 1, 0x05, 1, .blob, .readWrite, false, 0, 0, 0, 1, none, .session⟩,
   ⟨0xA800, 1, 0x00, 1, .u8, .ownerOnly, true, 10, 1, 10, 1, none, .device⟩,
   ⟨0xA800, 1, 0x01, 1, .u8, .ownerOnly, true, 16, 1, 16, 1, none, .device⟩,
   ⟨0x8000, 1, 0x00, 1, .u64, .read, false, 0, 0, 18446744073709551615, 1, none, .device⟩,
   ⟨0x8000, 1, 0x01, 1, .u32, .readWrite, false, 0, 0, 4294967295, 1, none, .device⟩,
   ⟨0x8000, 1, 0x02, 1, .u64, .read, false, 0, 0, 18446744073709551615, 1, none, .device⟩,
   ⟨0x8001, 1, 0x00, 1, .blob, .ownerOnly, false, 16, 0, 0, 1, none, .device⟩,
   ⟨0x8001, 1, 0x01, 1, .u64, .read, false, 0, 0, 18446744073709551615, 1, none, .device⟩,
   ⟨0x8100, 72, 0x00, 1, .u64, .read, false, 0, 0, 18446744073709551615, 1, none, .device⟩]

/-- Entries, part 10. -/
def catRows10 : List CatEntry :=
  [⟨0x8100, 72, 0x01, 11, .u64, .read, false, 0, 0, 18446744073709551615, 1, none, .device⟩,
   ⟨0x8100, 72, 0x0C, 1, .u64, .read, false, 0, 0, 18446744073709551615, 1, none, .device⟩,
   ⟨0x8100, 72, 0x0D, 1, .u64, .read, false, 0, 0, 18446744073709551615, 1, none, .device⟩,
   ⟨0x8200, 16, 0x00, 1, .u64, .whenIdle, false, 0, 0, 18446744073709551615, 1, none, .job⟩,
   ⟨0x8200, 16, 0x01, 1, .u64, .whenIdle, false, 0, 0, 18446744073709551615, 1, none, .job⟩,
   ⟨0x8200, 16, 0x02, 1, .u64, .read, false, 0, 0, 18446744073709551615, 1, none, .job⟩,
   ⟨0x8200, 16, 0x03, 1, .u64, .readWrite, false, 0, 0, 18446744073709551615, 1, none, .job⟩,
   ⟨0x8200, 16, 0x04, 1, .u64, .read, false, 0, 0, 18446744073709551615, 1, none, .job⟩,
   ⟨0x8200, 16, 0x05, 1, .bool, .whenIdle, false, 0, 0, 1, 1, none, .job⟩,
   ⟨0x8200, 16, 0x06, 1, .bool, .readWrite, false, 1, 0, 1, 1, none, .job⟩,
   ⟨0x8200, 16, 0x07, 1, .u64, .whenIdle, false, 0, 0, 18446744073709551615, 1, none, .job⟩,
   ⟨0x8200, 16, 0x08, 1, .u64, .whenIdle, false, 0, 0, 18446744073709551615, 1, none, .job⟩,
   ⟨0x8200, 16, 0x09, 1, .u64, .read, false, 0, 0, 18446744073709551615, 1, none, .job⟩,
   ⟨0x8200, 16, 0x0A, 1, .u64, .readWrite, false, 0, 0, 18446744073709551615, 1, none, .job⟩,
   ⟨0x8200, 16, 0x0B, 1, .u64, .read, false, 0, 0, 18446744073709551615, 1, none, .job⟩,
   ⟨0x8200, 16, 0x0C, 1, .u32, .readWrite, false, 800000, 80000, 800000000, 1, none, .job⟩,
   ⟨0x8200, 16, 0x0D, 1, .u16, .whenIdle, false, 65535, 0, 1023, 1, some 65535, .job⟩,
   ⟨0x8800, 16, 0x00, 1, .bool, .whenIdle, true, 0, 0, 1, 1, none, .job⟩,
   ⟨0x1001, 1, 0x00, 1, .u8, .read, false, 0, 0, 255, 1, none, .device⟩,
   ⟨0x1001, 1, 0x01, 1, .u8, .read, false, 1, 0, 255, 1, none, .device⟩,
   ⟨0x1001, 1, 0x02, 1, .blob, .read, false, 0, 0, 0, 1, none, .device⟩,
   ⟨0x1001, 1, 0x03, 1, .blob, .read, false, 0, 0, 0, 1, none, .device⟩,
   ⟨0x1001, 1, 0x04, 1, .u8, .ownerOnly, false, 0, 0, 255, 1, none, .device⟩]

/-- Every entry that a chapter defines (R442). -/
def catRows : List CatEntry :=
  catRows0 ++ catRows1 ++ catRows2 ++ catRows3 ++ catRows4 ++ catRows5 ++ catRows6 ++ catRows7 ++ catRows8 ++ catRows9 ++ catRows10

/-- The entry of an index and a field, if a chapter defines one (R442). -/
def catEntry (index field : Nat) : Option CatEntry :=
  catRows.find? fun e =>
    e.base ≤ index && index < e.base + e.count && e.fld ≤ field && field < e.fld + e.fcount

/-- The default of the entry with key `index * 256 + field`. -/
def catDefault (key : Nat) : Nat :=
  if key = Cat.PWR_PREF 5 then 0x08CC
  else
    match catEntry (key / 256) (key % 256) with
    | some e => e.dflt
    | none => 0

/-- The code of a type in the header of a request (R443). -/
def CatTy.code : CatTy → Nat
  | .bool => 1 | .u8 => 2 | .u16 => 3 | .u32 => 4 | .u64 => 5 | .s8 => 6 | .s16 => 7 | .s32 => 8 | .s64 => 9
  | .f32 => 10 | .time64 => 11 | .string => 12 | .blob => 13

/-- The bytes of a value of a type of fixed length (R443); 0 for STRING and BLOB. -/
def CatTy.bytes : CatTy → Nat
  | .bool => 1 | .u8 => 1 | .u16 => 2 | .u32 => 4 | .u64 => 8 | .s8 => 1 | .s16 => 2 | .s32 => 4 | .s64 => 8
  | .f32 => 4 | .time64 => 8 | .string => 0 | .blob => 0

end Sys2Proof.Machine
end

