-- ==== Sys2Proof/Machine/Crypto.lean ====
section
/-! DEFINITION. The algorithms that the spec names and other standards define: SHAKE256 (FIPS 202), AES-256 (FIPS 197) in
GCM (R305, R330, R414) and in XTS (R225). Bytes are lists; a lane, a block of GHASH and a key are numbers. -/

namespace Sys2Proof.Machine

/-! ### SHAKE256 -/

def nth (l : List Nat) (i : Nat) : Nat := (l[i]?).getD 0

/-- A 64-bit lane rotated left. -/
def rotLane (x n : Nat) : Nat := (x <<< n ||| x >>> (64 - n)) % 2 ^ 64

/-- Rotations of the lanes, lane x + 5y. -/
def keccakRho : List Nat :=
  [0, 1, 62, 28, 27, 36, 44, 6, 55, 20, 3, 10, 43, 25, 39, 41, 45, 15, 21, 8, 18, 2, 61, 56, 14]

def keccakRc : List Nat :=
  [0x1, 0x8082, 0x800000000000808A, 0x8000000080008000, 0x808B, 0x80000001, 0x8000000080008081, 0x8000000000008009,
   0x8A, 0x88, 0x80008009, 0x8000000A] ++
  [0x8000808B, 0x800000000000008B, 0x8000000000008089, 0x8000000000008003, 0x8000000000008002, 0x8000000000000080,
   0x800A, 0x800000008000000A, 0x8000000080008081, 0x8000000000008080, 0x80000001, 0x8000000080008008]

/-- One round of Keccak-f[1600]. -/
def keccakRound (a : List Nat) (rc : Nat) : List Nat :=
  let c := (List.range 5).map fun x => nth a x ^^^ nth a (x + 5) ^^^ nth a (x + 10) ^^^ nth a (x + 15) ^^^ nth a (x + 20)
  let a := (List.range 25).map fun i => nth a i ^^^ nth c ((i + 4) % 5) ^^^ rotLane (nth c ((i + 1) % 5)) 1
  -- lane (y, 2x + 3y) is lane (x, y) rotated
  let b := (List.range 25).map fun i =>
    let x := (i % 5 + 3 * (i / 5)) % 5
    let y := i % 5
    rotLane (nth a (x + 5 * y)) (nth keccakRho (x + 5 * y))
  let a := (List.range 25).map fun i =>
    let row := i / 5 * 5
    nth b i ^^^ ((2 ^ 64 - 1 - nth b (row + (i + 1) % 5)) &&& nth b (row + (i + 2) % 5))
  match a with
  | [] => []
  | h :: t => (h ^^^ rc) :: t

def keccakF (a : List Nat) : List Nat := keccakRc.foldl keccakRound a

/-- The lanes of one block of 136 bytes. -/
def laneBlock (l : List Byte) : List Nat := (List.range 17).map fun i => leNat ((l.drop (8 * i)).take 8)

def absorb : Nat → List Byte → List Nat → List Nat
  | 0, _, a => a
  | k + 1, l, a =>
    let b := laneBlock (l.take 136)
    absorb k (l.drop 136) (keccakF ((List.range 25).map fun i => nth a i ^^^ nth b i))

def squeeze : Nat → List Nat → List Byte
  | 0, _ => []
  | k + 1, a => ((a.take 17).map (leBytes 8)).flatten ++ squeeze k (keccakF a)

/-- The message with its padding for SHAKE. -/
def shakePad (m : List Byte) : List Byte :=
  let gap := 136 - m.length % 136
  m ++ if gap = 1 then [0x9F] else 0x1F :: (List.replicate (gap - 2) 0 ++ [0x80])

/-- SHAKE256 with `n` bytes of output. -/
def shake256 (m : List Byte) (n : Nat) : List Byte :=
  let p := shakePad m
  (squeeze (ceilDiv n 136) (absorb (p.length / 136) p (List.replicate 25 0))).take n

/-! ### AES-256 -/

/-- The S-box and its inverse: byte i of the number. -/
def aesSbox : Nat :=
  0x16bb54b00f2d99416842e6bf0d89a18cdf2855cee9871e9b948ed9691198f8e19e1dc186b95735610ef6034866b53e708a8bbd4b1f74dde8c6b4a61c2e2578ba08ae7a65eaf4566ca94ed58d6d37c8e779e4959162acd3c25c2406490a3a32e0db0b5ede14b8ee4688902a22dc4f816073195d643d7ea7c41744975fec130ccdd2f3ff1021dab6bcf5389d928f40a351a89f3c507f02f94585334d43fbaaefd0cf584c4a39becb6a5bb1fc20ed00d153842fe329b3d63b52a05a6e1b1a2c830975b227ebe28012079a059618c323c7041531d871f1e5a534ccf73f362693fdb7c072a49cafa2d4adf04759fa7dc982ca76abd7fe2b670130c56f6bf27b777c63

def aesInvSbox : Nat :=
  0x7d0c2155631469e126d677ba7e042b17619953833cbbebc8b0f52aae4d3be0a0ef9cc9939f7ae52d0d4ab519a97f51605fec8027591012b131c7078833a8dd1ff45acd78fec0db9a2079d2c64b3e56fc1bbe18aa0e62b76f89c5291d711af1476edf751ce837f9e28535ade72274ac9673e6b4f0cecff297eadc674f4111913a6b8a130103bdafc1020f3fca8f1e2cd00645b3b80558e4f70ad3bc8c00abd890849d8da75746155edab9edfd5048706c92b6655dcc5ca4d41698688664f6f87225d18b6d49a25b76b224d92866a12e084ec3fa420b954cee3d23c2a632947b54cbe9dec444438e3487ff2f9b8239e37cfbd7f3819ea340bf38a53630d56a0952

def subByte (box b : Nat) : Nat := box >>> (8 * b) % 256

/-- Multiplication by x in the field of AES. -/
def xtime (b : Nat) : Nat := if b < 128 then 2 * b else (2 * b) ^^^ 0x11B

/-- Multiplication by a constant below 16. -/
def gfMul (k b : Nat) : Nat :=
  let b2 := xtime b
  let b4 := xtime b2
  let b8 := xtime b4
  (if k % 2 = 1 then b else 0) ^^^ (if k / 2 % 2 = 1 then b2 else 0) ^^^ (if k / 4 % 2 = 1 then b4 else 0)
    ^^^ (if k / 8 % 2 = 1 then b8 else 0)

def xorLists (a b : List Nat) : List Nat := (a.zip b).map fun p => p.1 ^^^ p.2

/-- Further words of the key schedule, from the words so far, the last first. -/
def expandKey : Nat → Nat → List (List Nat) → List (List Nat)
  | 0, _, ws => ws
  | k + 1, i, ws =>
    let last := (ws[0]?).getD []
    let old := (ws[7]?).getD []
    let t :=
      if i % 8 = 0 then
        let s := (last.drop 1 ++ last.take 1).map (subByte aesSbox)
        xorLists s [2 ^ (i / 8 - 1), 0, 0, 0]
      else if i % 8 = 4 then last.map (subByte aesSbox)
      else last
    expandKey k (i + 1) (xorLists old t :: ws)

/-- The 15 round keys of a 32-byte key. -/
def roundKeys (key : List Nat) : List (List Nat) :=
  let first := ((List.range 8).map fun i => (key.drop (4 * i)).take 4).reverse
  let ws := (expandKey 52 8 first).reverse
  (List.range 15).map fun r => ((ws.drop (4 * r)).take 4).flatten

/-- Byte `i` of a state comes from byte `f i`: rows shifted left, or right. -/
def shiftRows (s : List Nat) : List Nat := (List.range 16).map fun i => nth s ((i + 4 * (i % 4)) % 16)
def unshiftRows (s : List Nat) : List Nat := (List.range 16).map fun i => nth s ((i + 12 * (i % 4)) % 16)

/-- Columns multiplied by the circulant matrix of these constants. -/
def mixColumns (m : List Nat) (s : List Nat) : List Nat :=
  (List.range 16).map fun i =>
    let col := i / 4 * 4
    (List.range 4).foldl (fun a k => a ^^^ gfMul (nth m ((k + 4 - i % 4) % 4)) (nth s (col + k))) 0

def aesEncrypt (rks : List (List Nat)) (block : List Nat) : List Nat :=
  let rk (r : Nat) : List Nat := (rks[r]?).getD []
  let s := (List.range 13).foldl
    (fun s r => xorLists (mixColumns [2, 3, 1, 1] (shiftRows (s.map (subByte aesSbox)))) (rk (r + 1))) (xorLists block (rk 0))
  xorLists (shiftRows (s.map (subByte aesSbox))) (rk 14)

def aesDecrypt (rks : List (List Nat)) (block : List Nat) : List Nat :=
  let rk (r : Nat) : List Nat := (rks[r]?).getD []
  let s := (List.range 13).foldl
    (fun s r => mixColumns [14, 11, 13, 9] (xorLists ((unshiftRows s).map (subByte aesInvSbox)) (rk (13 - r))))
    (xorLists block (rk 14))
  xorLists ((unshiftRows s).map (subByte aesInvSbox)) (rk 0)

/-! ### GCM -/

/-- A block of 16 bytes as the number that GHASH works on: the first byte highest. -/
def blockNat (l : List Nat) : Nat := (List.range 16).foldl (fun a i => a * 256 + nth l i) 0
def natBlock (n : Nat) : List Nat := (List.range 16).map fun i => n >>> (8 * (15 - i)) % 256

/-- The product in GHASH's field, from bit `127 - k` of x on. -/
def ghashMul : Nat → Nat → Nat → Nat → Nat
  | 0, _, _, z => z
  | k + 1, x, v, z =>
    ghashMul k x (if v % 2 = 1 then v / 2 ^^^ 0xE1 * 2 ^ 120 else v / 2) (if x >>> k % 2 = 1 then z ^^^ v else z)

/-- Blocks of 16 bytes, the last padded with zeros. -/
def blocks16 : Nat → List Nat → List (List Nat)
  | 0, _ => []
  | k + 1, l => (l.take 16 ++ List.replicate (16 - l.length) 0) :: blocks16 k (l.drop 16)

def blocksOf16 (l : List Nat) : List (List Nat) := blocks16 (ceilDiv l.length 16) l

def ghash (h : Nat) (bs : List (List Nat)) : Nat := bs.foldl (fun y b => ghashMul 128 (y ^^^ blockNat b) h 0) 0

/-- Counter blocks from `n` on, applied to the data. -/
def gctr (rks : List (List Nat)) (iv : List Nat) : Nat → Nat → List Nat → List Nat
  | 0, _, _ => []
  | k + 1, n, l =>
    xorLists (l.take 16) (aesEncrypt rks (iv ++ (List.range 4).map fun i => n >>> (8 * (3 - i)) % 256))
      ++ gctr rks iv k (n + 1) (l.drop 16)

def natsOf (l : List Byte) : List Nat := l.map (·.toNat)
def bytesOf (l : List Nat) : List Byte := l.map (BitVec.ofNat 8)

/-- The tag over additional data and ciphertext. -/
def gcmTag (rks : List (List Nat)) (iv aad ct : List Nat) : List Nat :=
  let h := blockNat (aesEncrypt rks (List.replicate 16 0))
  let lens := natBlock (8 * aad.length * 2 ^ 64 + 8 * ct.length)
  xorLists (natBlock (ghash h (blocksOf16 aad ++ blocksOf16 ct ++ [lens]))) (aesEncrypt rks (iv ++ [0, 0, 0, 1]))

/-- AES-256-GCM: key of 32 bytes, IV of 12, additional data, plaintext; ciphertext and tag. -/
def gcmSeal (key iv aad plain : List Byte) : List Byte × List Byte :=
  let rks := roundKeys (natsOf key)
  let ct := gctr rks (natsOf iv) (ceilDiv plain.length 16) 2 (natsOf plain)
  (bytesOf ct, bytesOf (gcmTag rks (natsOf iv) (natsOf aad) ct))

/-- The plaintext of a ciphertext, whatever its tag; and whether the tag verifies. -/
def gcmOpen (key iv aad ct tag : List Byte) : List Byte × Bool :=
  let rks := roundKeys (natsOf key)
  (bytesOf (gctr rks (natsOf iv) (ceilDiv ct.length 16) 2 (natsOf ct)),
    bytesOf (gcmTag rks (natsOf iv) (natsOf aad) (natsOf ct)) = tag)

/-! ### XTS -/

/-- The tweak of the next block. -/
def xtsNext (t : Nat) : Nat := if t < 2 ^ 127 then 2 * t else (2 * t) % 2 ^ 128 ^^^ 0x87

/-- A data unit of 64 bytes under an XTS key pair of 64 bytes, encrypted or decrypted; `unit` is its number, here its
physical address. -/
def xtsLine (decrypt : Bool) (key : List Byte) (unit : Nat) (line : List Byte) : List Byte :=
  let data := roundKeys (natsOf (key.take 32))
  let t0 := leNat (bytesOf (aesEncrypt (roundKeys (natsOf (key.drop 32))) (natsOf (leBytes 16 unit))))
  let t1 := xtsNext t0
  let t2 := xtsNext t1
  let block (t i : Nat) : List Byte :=
    let tw := natsOf (leBytes 16 t)
    let x := xorLists (natsOf ((line.drop (16 * i)).take 16)) tw
    bytesOf (xorLists (if decrypt then aesDecrypt data x else aesEncrypt data x) tw)
  block t0 0 ++ block t1 1 ++ block t2 2 ++ block (xtsNext t2) 3

end Sys2Proof.Machine
end

