-- ==== Sys2Proof/Machine/State.lean ====
section
/-! DEFINITION. The state of a CX1T module as plain data: every register, table, queue, counter, mode and pin
that the spec names, and the queue of commands that wait. -/

namespace Sys2Proof.Machine

/-! ### Cluster time -/

/-- States of the timebase (R34). -/
inductive TbState where
  | freeRun | acquiring | locked | holdover
deriving DecidableEq, Repr

/-- The timebase and its PTP clock (R27 to R36). The reading itself is `Dev.now`. -/
structure Timebase where
  st : TbState
  /-- this module is grandmaster (R33) -/
  gm : Bool
  /-- data sets of the masters heard, one per source (R31) -/
  foreign : List Announce
  /-- data set of the selected master -/
  master : Option Announce
  /-- what TB_GRANDMASTER shows (R62) -/
  gmShown : Nat
  /-- TB_OFFSET: last measured offset from the master, in units -/
  offset : Int
  /-- consecutive Sync messages within TB_LOCK_WINDOW (R34, R36) -/
  lockRun : Nat
  /-- reading at the last accepted Sync -/
  lastSync : Nat
  /-- measured path delay, in units (R31) -/
  pathDelay : Int
  /-- offset that is still to be slewed away, in millionths of a unit (R35, R36) -/
  slew : Int
  /-- frequency correction in force, in parts per 10^9: held in HOLDOVER at its last value (R34, R36) -/
  freq : Int
  /-- a delay request has been sent and its response has not come (R31) -/
  asked : Bool
deriving DecidableEq, Repr

/-- One slot entry of a timetable image (R40). -/
structure SlotDef where
  len : Nat
  firm : Nat
  phase : Nat
  slackOpen : Bool
deriving DecidableEq, Repr

/-- A loaded timetable image (R40): the step length, each stage's slots, and the bytes themselves. -/
structure TtImage where
  stepLen : Nat
  stages : List (List SlotDef)
  bytes : List Byte
deriving DecidableEq, Repr

/-- States of a timetable (R58). -/
inductive TtState where
  | unloaded | loaded | armed | running | held
deriving DecidableEq, Repr

/-- States of the current slot (R61). -/
inductive SlotState where
  | waiting | firm | slack | overrun | late | closed
deriving DecidableEq, Repr

/-- Why the timetable entered HELD (R57, R60). -/
inductive HeldCause where
  | none | timebase | stop | lastStep | selfRejoin
deriving DecidableEq, Repr

/-- What a domain member last said in a TTSYNC (R43, R355). -/
structure TtPeer where
  digest : Nat
  epoch : Nat
  firstStep : Nat
  curEpoch : Nat
  curStep : Nat
  state : Nat
  /-- stamp of the packet, expanded -/
  stamp : Nat
deriving DecidableEq, Repr

/-- The timetable of the module (R37 to R61). -/
structure Timetable where
  st : TtState
  image : Option TtImage
  /-- TT_STAGE, TT_EPOCH, TT_FIRST_STEP, TT_ANCHOR_JOB written since the last reset or unload (R498) -/
  wrStage : Bool
  wrEpoch : Bool
  wrFirst : Bool
  wrAnchor : Bool
  /-- TT_CONTROL reads the last command accepted (R499) -/
  lastControl : Nat
  pendingResume : Bool
  /-- ARMED was entered from HELD (R59) -/
  rejoin : Bool
  heldBy : HeldCause
  armedAt : Nat
  /-- what each member of the domain last said, by connection -/
  peers : Tbl TtPeer
  /-- E and n0 of R44 -/
  epoch : Nat
  firstStep : Nat
  step : Nat
  slot : Nat
  slotSt : SlotState
  /-- A(j), Λ(j), r(j), C(j) of R45 -/
  slotStart : Nat
  lag : Nat
  slackCut : Nat
  lastFirmEnd : Nat
  /-- the current slot's firm work was found complete -/
  firmDone : Bool
  /-- the slot before this one left slack open, or overran (R61, R374) -/
  prevSlackOpen : Bool
  prevOverrun : Bool
  /-- largest lag of a pace notice taken since the slot began (R47, R375) -/
  paceLag : Nat
  /-- what of it the current slot's start took: never sent on (R374) -/
  paceTook : Nat
  /-- outstanding resynchronisation request: m and the step that raised it; 0 for none (R54, R57) -/
  reqM : Nat
  reqStep : Nat
  /-- a vote of the anchor job carried the request (R55, R57) -/
  reqCarried : Bool
  /-- results m* waiting for the boundary that applies them: step of the vote and m* (R55) -/
  moves : List (Nat × Nat)
  /-- a slot has started, and these steps have ended (step, instant), in the command under way: what follows
  from them is done at its end -/
  justStarted : Bool
  ended : List (Nat × Nat)
  /-- slots of this run that have closed, newest first: step, slot, A(j), actual end (R45), from which past close and
  release instants follow -/
  past : List (Nat × Nat × Nat × Nat)
  /-- A(0) of the step with which the timetable last entered RUNNING: positions before it passed then (R38, R59) -/
  runStart : Nat
deriving DecidableEq, Repr

/-! ### Jobs, rings and commands -/

/-- States of a job slot (R73). -/
inductive JobState where
  | free | created | running | stopping | stopped | teardown
deriving DecidableEq, Repr

/-- A dependence mark: its value, and the stamp of the change that made it so (R86). -/
structure Mark where
  value : Word
  stamp : Nat
deriving DecidableEq, Repr

/-- A leaf of a job's page tables (R206, R207): `size` bytes at job address `va` map to physical `pa`. -/
structure Page where
  va : Nat
  size : Nat
  pa : Nat
  writable : Bool
  enc : Bool
  migrate : Bool
  /-- the allocation it belongs to (R213): the VA that MEM_ALLOC returned -/
  alloc : Nat
deriving DecidableEq, Repr

/-- A granted tier 1 record (R215, R216). -/
structure T1Grant where
  groups : Nat
  dies : Nat
  engines : Nat
  bundles : Nat
  dieBundles : Nat
  scratchOff : Nat
  scratchLen : Nat
  sramOff : Nat
  sramLen : Nat
deriving DecidableEq, Repr

/-- States of a ring (R81). -/
inductive RingState where
  | idle | active | stopped | halted
deriving DecidableEq, Repr

/-- A command ring with its completion ring (R76 to R81, R94). -/
structure Ring where
  st : RingState
  /-- the 16-byte ring record -/
  record : Nat
  head : Nat
  tail : Nat
  /-- RING_SEQ of the next descriptor -/
  seq : Nat
  phase : Bool
  cPos : Nat
  cPhase : Bool
  /-- pushed descriptors whose entries are not taken yet: entry index and the 512 bits (R78, R436) -/
  pushed : Tbl Nat
  /-- refetches made of the entry at head for its PHASE, and the instant of its last fetch (R79) -/
  phaseTries : Nat
  fetchedAt : Nat
  stopSeq : Nat
  /-- the halted commands, when the ring is HALTED, oldest first (R81, R254) -/
  haltedCmds : List Nat
deriving DecidableEq, Repr

/-- States of a command (R93); a retired command is not held. -/
inductive CmdState where
  | fetched | waiting | ready | running | parked | halted | retiring
deriving DecidableEq, Repr

/-- A command held by the command processors, from its fetch to its retirement (R80, R93). -/
structure Cmd where
  job : Nat
  ring : Nat
  seq : Nat
  /-- the 64-byte descriptor as a number (R82) -/
  desc : Nat
  st : CmdState
  /-- stamp at which each wait was met (R87, R88) -/
  met0 : Option Nat
  met1 : Option Nat
  /-- waits that timed out, and the deadline that expired -/
  to0 : Bool
  to1 : Bool
  toAt : Nat
  /-- instant it became the oldest undispatched command of its ring -/
  oldestAt : Option Nat
  /-- it is firm work, released (with TIMED 0: dispatched) in this step and slot (R42, R45, R89) -/
  firm : Bool
  step : Nat
  slot : Nat
  /-- units that have not started, and that run (bit u, R468) -/
  unitsLeft : Nat
  unitsOn : Nat
  /-- highest status so far, its DETAIL, EXEC (R95, R96) -/
  status : Nat
  detail : Nat
  exec : Bool
  /-- DROP_COUNT, and whether a first poisoned line or a first invalid product is recorded -/
  drops : Nat
  /-- the record of a halt is written and the command's position is saved (R97, R254) -/
  haltedOnce : Bool
  /-- its own work has ended: it retires when its writes are accepted -/
  done : Bool
  /-- stamp, and unit, engine, tile and block, of the first invalid operation (R124) -/
  invalid : Option (Nat × Nat)
  /-- a want of an in-flight slot has been counted for it (R90) -/
  waited : Bool
  /-- where and when it stopped holding an engine, or ended on a unit: unit, engine (0xF for the unit), stamp.
  The END records of R469 are written at its retirement, which fixes the status they carry -/
  ends : List (Nat × Nat × Nat)
  /-- WAITMKs of its slips that timed out: mark, value, deadline (R53, R247) -/
  lateWaits : List (Nat × Word × Nat)
  /-- lines that a COPY has still to move, source and destination: it waits for a memory that takes no requests (R22, R24) -/
  copyLeft : List (Nat × Nat)
deriving DecidableEq, Repr

/-- Where the global command processor's round robin goes on (R91): among firm commands and among all others, the job
to be looked at first, and by job the ring to be looked at first. -/
structure Arbiter where
  firmJob : Nat
  otherJob : Nat
  firmRing : Tbl Nat
  otherRing : Tbl Nat
deriving DecidableEq, Repr

/-! ### Sessions, keys, the Catalogue -/

/-- A channel of a session (R413, R414). -/
structure Chan where
  handle : Nat
  /-- last message counter accepted, to the device; last one used, from the device -/
  ctr : Nat
  ctrOut : Nat
  /-- key slots held, bit k (R416) -/
  slots : Nat
  /-- CX1T-CONFIRM value returned at the open -/
  conf : List Byte
  /-- tr and ch of R413: what proofs are over; keys and salts of both directions -/
  tr : List Byte
  keys : List Byte
deriving DecidableEq, Repr

/-- A Catalogue session that is not FREE (R455, R456). -/
structure Session where
  transport : Transport
  owner : Bool
  chan : Option Chan
  level : Nat
  /-- acceptance of its last request -/
  lastAct : Nat
  /-- owner challenge that one proof may use (R457) -/
  challenge : Option (List Byte)
  /-- the session's last quote (R410) -/
  quote : List Byte
  /-- cached response for a repeated XID on the management MAC: source, XID (R462) -/
  cached : Option (Nat × Nat)
deriving DecidableEq, Repr

/-- A filled key slot (R415 to R422). -/
structure KeySlot where
  tenant : Nat
  gen : Nat
  memGen : Nat
  origin : Nat
  root : Nat
  memRoot : Nat
  /-- records exported since boot (R420) -/
  exported : Nat
deriving DecidableEq, Repr

/-- The long operations (R451). -/
inductive LongKind where
  | fwInstall (images : List FwImage) (ok : Bool)
  | retrain (mask : Nat)
  | scrub (mask : Nat)
  | integrity (v : Nat)
  | rekey (slot : Nat)
  | expSeal (job : Nat) (request : List Byte)
deriving DecidableEq, Repr

/-- The long operation that runs (R451, R452). -/
structure LongOp where
  kind : LongKind
  index : Nat
  field : Nat
  sess : Nat
  reqId : Nat
  transport : Transport
  /-- the request's type code, and whether it was protected -/
  typ : Nat
  prot : Bool
  started : Nat
deriving DecidableEq, Repr

/-- A mailbox page (R453). -/
structure Mailbox where
  pending : Bool
  done : Bool
  lastStatus : Nat
  irqEn : Bool
  vector : Nat
  bulkAddr : Nat
  bulkLen : Nat
  req : List Byte
  rsp : List Byte
deriving DecidableEq, Repr

/-- A selective IDE stream (R425). -/
inductive IdeState where
  | off | secure | insecure
deriving DecidableEq, Repr

/-- A PCI Express port (R430 to R454). -/
structure HostPort where
  /-- HOST_LINK: rate, width, link up -/
  linkUp : Bool
  rate : Nat
  width : Nat
  /-- PERSTp_N is low -/
  perstLow : Bool
  /-- the link trains, since PERSTp_N rose -/
  training : Bool
  /-- HOST_ERR_CAUSE and HOST_ERR_IRQ -/
  errCause : Nat
  errEn : Bool
  errVector : Nat
  mboxes : Tbl Mailbox
  /-- MSI-X table entries that are not at reset, and the pending bits -/
  msix : Tbl Nat
  pba : Tbl Bool
  ide0 : IdeState
  ide1 : IdeState
  ideKeys : List Byte
deriving DecidableEq, Repr

/-- The management MAC (R460 to R462). -/
structure MgmtMac where
  /-- collisions the frame under transmission has suffered, and the instant its backoff ends -/
  collisions : Nat
  backoff : Option Nat
  /-- message under reassembly, by session: source, XID, bytes held -/
  partials : Tbl (Nat × Nat × List Byte)
deriving DecidableEq, Repr

/-! ### Boot, reset, pins, what survives a reset -/

/-- The non-volatile store and the fuses (R486). -/
structure NvStore where
  bootCount : Nat
  bank0 : List FwImage
  bank1 : List FwImage
  activeBank : Nat
  nextBank : Nat
  svnFused : Nat
  /-- vendor keys whose revocation fuse is blown, bit k (R404) -/
  revoked : Nat
  retired : List Nat
  hours : Nat
  ownerKey : List Byte
  tripRecord : List Byte
  bootFail : List Byte
  sscEn : Nat
deriving DecidableEq, Repr

/-- Boot and reset (R479 to R489). -/
structure Boot where
  /-- 54 V input above 47 V -/
  input : Bool
  /-- level of MOD_RST_N -/
  modRstN : Bool
  /-- step of R479 that was completed last -/
  step : Nat
  /-- rails switched on, bit r (R379) -/
  rails : Nat
  /-- DEV_BOOT_STATE and DEV_RESET_CAUSE -/
  state : Nat
  cause : Nat
  /-- POS[6:0] sampled at t0 -/
  pos : Nat
  recovery : Bool
  fallback : Bool
  /-- dies that reported ready: 0 none, 1 Lorquel, 2 Stacks dies too, 3 network die too -/
  ready : Nat
  /-- a reset that is due: its cause and instant (R484, R485) -/
  pendingReset : Option (Nat × Nat)
  /-- the module is down after a thermal trip, and whether MOD_RST_N was pulsed since (R485) -/
  tripped : Bool
  pulsed : Bool
  /-- a trip record exists since the last power-on (R490) -/
  tripSeen : Bool
  /-- the bank this boot runs (R405) and its measurements FW_SEC, FW_LQ, FW_STK, FW_NET -/
  bank : Nat
  measures : List Nat
  kemPublic : List Byte
  /-- entropy source: failed, not passed again yet (R426) -/
  entropyBad : Bool
  /-- microseconds from t0 to the end of each step -/
  times : List Nat
  /-- CLK_SSC_EN as the last reset found it: the spread in force (R398) -/
  ssc : Nat
deriving DecidableEq, Repr

/-- The output pins (R475, R479, R395). -/
structure Pins where
  pwrGood : Bool
  alertN : Bool
  thermTripN : Bool
  /-- the sideband registers, offsets 0x00 to 0x0F, as one little-endian number (R490) -/
  sideband : Nat
deriving DecidableEq, Repr

/-! ### Units: bundles, engines, movers -/

/-- What a bundle waits in (R172, R191, R194 to R198). -/
inductive BundleWait where
  | none
  | bar (n : Nat)
  /-- later instructions wait for stores accepted, loads returned; then the read buffer is invalidated -/
  | fence (stores loads invalidate : Bool)
  /-- no more than `n` tensor instructions incomplete on engine `e` -/
  | twait (e n : Nat)
  | swait (v : Word)
  | nap
deriving DecidableEq, Repr

/-- A bundle in its slot (R65, R168). -/
structure Bundle where
  cmd : Nat
  /-- BUNDLE of R66 -/
  index : Nat
  pc : Nat
  /-- V registers, key 64 × lane + register; zero when unlisted -/
  v : Tbl Word
  /-- U registers 0 to 62; zero when unlisted -/
  u : Tbl DWord
  /-- predicates P1 to P7, a bit per lane; zero when unlisted -/
  p : Tbl DWord
  live : DWord
  /-- return stack, newest first -/
  ret : List Nat
  wait : BundleWait
  /-- loads, atomics and prefetches outstanding (R203) -/
  loads : Nat
  /-- tensor instructions issued and incomplete, by engine of the command (R196) -/
  tens : Tbl Nat
  /-- timebase reading at which a NAP ends -/
  napEnd : Nat
deriving DecidableEq, Repr

/-- A store of a bundle that its sink has not accepted yet (R187, R191). -/
structure PendStore where
  slot : Nat
  cmd : Nat
  job : Nat
  /-- the store instruction, in the unit's issue order -/
  seq : Nat
  pa : Nat
  /-- bytes, and the bits of each that are written -/
  data : List Byte
  mask : List Byte
deriving DecidableEq, Repr

/-- A line in a unit's read buffer (R229): whose it is and what it holds. -/
structure BufLine where
  job : Nat
  data : List Byte
deriving DecidableEq, Repr

/-- An OPEN accumulator tile (R105, R107). -/
structure Tile where
  isInt : Bool
  shape : Nat
  /-- second-level scales of A by row and of B by column, as read (one entry when per tensor) -/
  sa : List Word
  sb : List Word
  za : Int
  zb : Int
  blocks : Nat
  /-- element (p, m, n) at key (p × M + m) × N + n; zero when unlisted -/
  acc : Tbl Word
deriving DecidableEq, Repr

/-- A tensor instruction in an engine's queue, with the bundle slot that issued it (R131, R195). -/
structure TensorEntry where
  slot : Nat
  word : Nat
  /-- it has been executed and is not complete yet (R196) -/
  started : Bool
deriving DecidableEq, Repr

/-- The ramp of an engine under the Cuff (R391, R392). -/
inductive EngineRamp where
  /-- at the duty in force -/
  | full
  /-- holds until its wave is released -/
  | held
  /-- at 2 eighths, at 4 eighths -/
  | quarter
  | half
deriving DecidableEq, Repr

/-- A matrix engine or a near-memory engine (R17, R105, R106, R131). -/
structure Engine where
  /-- command that owns it -/
  owner : Option Nat
  /-- job that it served last (R75); 16 for one that has been torn down since -/
  lastJob : Option Nat
  tiles : Tbl Tile
  queue : List TensorEntry
  ramp : EngineRamp
  /-- reading at which that ramp step began -/
  rampAt : Nat
  /-- timebase reading at which it last advanced a MAC (R390) -/
  lastMac : Option Nat
  /-- this filler occupancy is counted in TT_FILLER_OVERHANG (R51) -/
  overhang : Bool
deriving DecidableEq, Repr

/-- States of a declared buffer (R244). -/
inductive BufState where
  | empty | filling | full
deriving DecidableEq, Repr

/-- A buffer declaration in force (R237, R244): scratch bytes from `start`. -/
structure Decl where
  cmd : Nat
  slip : Nat
  buf : Nat
  start : Nat
  len : Nat
  st : BufState
deriving DecidableEq, Repr

/-- What a slip waits for (R241). -/
inductive SlipWait where
  | none
  | opening (b : Nat)
  | closing (b : Nat)
  | mark (m : Nat) (v : Word) (deadline : Option Nat)
  | signal (inc : Nat)
  | ending
deriving DecidableEq, Repr

/-- The figures of a slot in a step (R151): largest magnitudes by row (row 0 in tensor mode), as FP32 encodings,
elements, clipped, underrange and non-finite counts. -/
structure StatFig where
  rows : Tbl Nat
  elements : Nat
  clipped : Nat
  under : Nat
  nonfin : Nat
deriving DecidableEq, Repr

/-- A transfer that a FETCH, PUT or FMT has issued and that has not landed (R242). -/
structure Transfer where
  /-- bytes to write, by physical address -/
  writes : List (Nat × List Byte)
  toScratch : Bool
  /-- scratch extent written, for CLOSE -/
  start : Nat
  len : Nat
  isFmt : Bool
  /-- statistics slot that a conversion contributes to as its last output is written, 0 for none (R151, R152) -/
  stat : Nat
  fig : StatFig
  narrow : Bool
deriving DecidableEq, Repr

/-- A slip, queued or in a context (R235 to R239, R254). -/
structure Slip where
  id : Nat
  cmd : Nat
  a : List Nat
  c : List Word
  pc : Nat
  wait : SlipWait
  halted : Bool
  /-- row and byte of the first line not issued, when a halt stopped an instruction there (R254) -/
  saved : Option (Nat × Nat)
  inflight : List Transfer
deriving DecidableEq, Repr

/-- A mover: stream unit or tile formatter (R235). -/
structure Mover where
  queue : List Slip
  /-- contexts 0 to 3 -/
  ctx : Tbl Slip
  decls : List Decl
  /-- completion count of each command (R239) -/
  count : Tbl Word
  /-- commands one of whose slips was stopped here (R253) -/
  stopped : List Nat
  /-- context that issued last: the round robin goes on behind it (R235) -/
  turn : Nat
deriving DecidableEq, Repr

/-- A unit: group g is unit g, Stacks die d is unit 64 + d (R468). -/
structure ExecUnit where
  bundles : Tbl Bundle
  engines : Tbl Engine
  mover : Mover
  stores : List PendStore
  /-- read buffer, by line number (R229) -/
  buf : Tbl BufLine
  /-- instruction cache: 64-byte granules by job and address, key (address / 64) × 16 + job (R174) -/
  code : Tbl (List Byte)
  /-- bundle slots that have arrived at barrier n of a command: key 4 × command + n (R67, R194) -/
  bars : Tbl (List Nat)
deriving DecidableEq, Repr

/-! ### Power, heat and clocks -/

/-- Operating point of a die with a voltage table: the Lorquel die 0, Stacks die d as 1 + d (R381 to R394). -/
structure DiePower where
  /-- voltage-table entry in force -/
  entry : Nat
  /-- a change under way: the entry it goes to (R383, R393) -/
  target : Option Nat
  /-- instant `riseAt` at which the voltage stood `above` that of the entry in force, in 1/1600 mV: it moves by one of them
  in each unit of the timebase, toward the voltage of the entry aimed at (R383) -/
  riseAt : Nat
  above : Nat
  /-- the switch waits for the phase-change instant (R389) -/
  lead : Bool
  /-- duty cap D of the Cap (R386) -/
  capD : Nat
  /-- the Cap's ceiling, as an entry (R386, R389), and the instant it was last lowered -/
  capEntry : Nat
  capAt : Nat
  /-- the thermal ceiling (R394), and the instants of the last step down and up -/
  thermEntry : Nat
  thermAt : Nat
deriving DecidableEq, Repr

/-- Power, heat, the Cuff and the droop detectors (R379 to R399). Powers in mW, currents in mA. -/
structure Power where
  dies : Tbl DiePower
  /-- admitted eighths of tier 2 and of tier 3 requests (R380, R386), and dies whose LPDDR6 is too hot (R394) -/
  t2Rate : Nat
  t3Rate : Nat
  lpHot : Nat
  /-- samples of P, newest first, at most 10,000; of the rail currents, at most 5 -/
  samples : List Nat
  railSamples : List (List Nat)
  /-- samples in the current run above P_LIMIT (R385) -/
  run : Nat
  /-- gains of the 16 rails and of the module, as ratios (R384) -/
  gains : List (Nat × Nat)
  /-- the Brim (R388) -/
  brim : Nat
  /-- last readings: the sensors of R394 in table order, the inlet, in °C -/
  temps : List Int
  inlet : Int
  /-- phase in force (R389) -/
  phase : Nat
  /-- a throttle event was recorded in the current slot (R374) -/
  throttled : Bool
  /-- stretches under way, by detector (quadrant 0 to 3, Stacks die d as 4 + d): start and deepest droop (R393) -/
  droops : Tbl (Nat × Nat)
  /-- the Cuff: engaged, instant r, e, next wave to release (R390, R391) -/
  cuffOn : Bool
  cuffAt : Nat
  cuffE : Nat
  cuffWave : Nat
  /-- idle engines due to start lately: stamp, unit, engine -/
  due : List (Nat × Nat × Nat)
deriving DecidableEq, Repr

/-! ### Reduction, the vote, the sweep -/

/-- A REDUCE that runs (R366, R367). -/
structure RedStep where
  cmd : Nat
  step : Nat
  /-- CLOSE_MODE 1: by count -/
  byCount : Bool
  vote : Bool
  expect : Nat
  slot : Nat
  off : Nat
  deadline : Nat
  /-- the dispatch instant -/
  start : Nat
deriving DecidableEq, Repr

/-- A ballot as the root holds it (R370): norm values received by first index, whether its last chunk came, latest stamp. -/
structure Ballot where
  got : Tbl Nat
  last : Bool
  stamp : Nat
  nonfinite : Bool
  resync : Nat
deriving DecidableEq, Repr

/-- A vote at its root (R370). -/
structure VoteSt where
  ballots : Tbl Ballot
  /-- instant at which the ballots of all members were complete -/
  fullAt : Option Nat
  /-- the root's close(n), and whether it closed by count -/
  rootClose : Option (Nat × Bool)
deriving DecidableEq, Repr

/-- A result as a member gathers it (R371, R372). -/
structure VoteRes where
  skip : Bool
  present : Nat
  absent : Nat
  nonfinite : Nat
  total : Nat
  stamp : Nat
  resync : Nat
  norms : Tbl Nat
  /-- norm values received, of how many, and whether the last chunk came -/
  got : Nat
  want : Nat
  last : Bool
deriving DecidableEq, Repr

/-- What a job's reduction group keeps (R359 to R372). -/
structure RedJob where
  /-- VALID shard records as checked at the start: index and record -/
  shards : Tbl Nat
  runs : List RedStep
  /-- closes decided: step and close(n) -/
  closes : Tbl Nat
  /-- FINAL packets received whose SEQ the connection's CUM has not passed: step, member, connection, SEQ -/
  finals : List (Nat × Nat × Nat × Word)
  /-- members counted by step, each with the instant at which it was -/
  counted : Tbl (Tbl Nat)
  /-- FP64 norm accumulators (R364): key (8 × norm index + die) × 2 + parity -/
  acc : Tbl Nat
  votes : Tbl VoteSt
  /-- steps whose vote this root has decided: V -/
  voted : Tbl Nat
  results : Tbl VoteRes
  /-- steps recorded, and own decisions with no result recorded yet: the instant of the decision -/
  recorded : List Nat
  awaiting : Tbl Nat
deriving DecidableEq, Repr

/-- A version in the retention pool (R298): directory, offset, length, close position. -/
structure Retained where
  dir : Nat
  off : Nat
  len : Nat
  step : Nat
  slot : Nat
  offset : Nat
deriving DecidableEq, Repr

/-- A SWEEP whose update programs run (R290): entries to come and under way, by die. -/
structure SweepRun where
  cmd : Nat
  todo : Tbl (List Nat)
  cur : Tbl Nat
  /-- EARLY_MARK has been given -/
  early : Bool
  /-- c by norm index, as FP32 encodings (R288) -/
  clips : Tbl Nat
  t : Nat
  /-- dies on which an update program has started, by bit: the command has acquired there (R70) -/
  acquired : Nat := 0
deriving DecidableEq, Repr

/-! ### The job slot -/

/-- What a job start latches of an enabled statistics slot (R149). -/
structure SlotCfg where
  fmt : Nat
  /-- H -/
  histLen : Nat
  rowMode : Bool
  histVa : Nat
deriving DecidableEq, Repr

/-- A roll that has fallen due and is not decided (R152): its T, the step it closes (none for a manual roll), and
the figures of every slot. -/
structure RollDue where
  t : Nat
  step : Option Nat
  figs : Tbl StatFig
deriving DecidableEq, Repr

/-- A job slot (R73): the job's own state, apart from its Catalogue entries. -/
structure Job where
  st : JobState
  tenant : Nat
  /-- key slot it is bound to; 0xFF for none -/
  keySlot : Nat
  marks : Tbl Mark
  t1 : Option T1Grant
  /-- job address of group 0's scratch window (R215) -/
  t1Va : Nat
  /-- MEM_QUOTA_T1 was written since the grant was made (R215) -/
  t1Stale : Bool
  pages : List Page
  /-- MEM_ALLOC, as read back -/
  allocRec : Nat
  /-- records lost to the job's trace ring since its last LOST record (R472) -/
  trcLost : Nat
  /-- samples taken since the job's start, and whether one was lost since the last written (R473) -/
  smpSeq : Nat
  smpGap : Bool
  /-- the last sample instant -/
  smpAt : Nat
  /-- counts at the last sample instant: RETIRED, NOT_CLEAN, dropped lines, invalid operations (R473) -/
  smpBase : Nat × Nat × Nat × Nat
  /-- lines counted in DROP_COUNT, and ENG_INVALID and THR_INVALID increments, of the job so far -/
  dropLines : Nat
  invalids : Nat
  /-- instructions issued by the job's bundles on each unit since the last sample (R473) -/
  issued : Tbl Nat
  /-- statistics slots in use, as latched at the job start (R149) -/
  slots : Tbl SlotCfg
  /-- figures of the step that gathers now, the rolls that wait for their decision, oldest first, and the T of the
  last roll decided (R151, R152) -/
  figs : Tbl StatFig
  rolls : List RollDue
  lastRollT : Option Nat
  /-- the expert table that placement follows: job address and records (R258) -/
  nmu : Option (Nat × Nat)
  /-- HINT of each record, as last read from the table (R257, R258, R260) -/
  nmuHints : List Nat
  red : RedJob
  /-- versions retained, and where the pool's ring goes on (R298) -/
  pool : List Retained
  poolHead : Nat
deriving DecidableEq, Repr

/-! ### What the device makes observable -/

/-- A trace record (R467): its fields as R469 packs them. -/
structure TraceRec where
  kind : Nat
  stamp : Nat
  job : Nat
  unit : Nat
  engine : Nat
  ring : Nat
  data0 : Nat
  data1 : Nat
  data2 : Nat
deriving DecidableEq, Repr

/-- A Maelgo packet that the device sends (R325 to R328): the fields of its header, its extension, its plaintext. -/
structure TxPkt where
  port : Nat
  op : Nat
  flags : Nat
  tenant : Nat
  /-- the receiver's connection identifier -/
  conn : Nat
  region : Nat
  seq : Nat
  stamp : Nat
  step : Nat
  pn : Nat
  ext : Nat
  payload : List Byte
deriving DecidableEq, Repr

/-- The last frame of a data port's transmitter: the Maelgo packet that it carried, by connection, if it did, and its bytes. -/
structure LastTx where
  pkt : Option (Nat × TxPkt)
  data : List Byte
deriving DecidableEq, Repr

/-- What leaves the device. -/
inductive Out where
  /-- answer to a Catalogue request: session, REQ_ID, STATUS, BUSY_MS, value -/
  | answer (sess reqId status busyMs : Nat) (value : List Byte)
  | msix (port vector : Nat)
  | trace (r : TraceRec)
  /-- a Maelgo packet, and the frame that carries it -/
  | packet (p : TxPkt) (frame : List Byte)
  /-- a frame of a host frame ring: port, bytes -/
  | frame (port : Nat) (data : List Byte)
  /-- the frame last emitted on the port ended so: what was sent of it, and the one's complement of the FCS (R321) -/
  | cutFrame (port : Nat) (data : List Byte)
  /-- an ARP answer on a data port, or on the management MAC -/
  | arp (port : Option Nat) (ip : Nat)
  /-- PTP messages sent on the timing port: 0 Sync, 1 Announce, 2 Delay_Req, 3 Delay_Resp, 4 Pdelay_Req, 5 Pdelay_Resp,
  6 Follow_Up; over UDP (0) or IEEE 802.3 (1); the instant -/
  | ptp (port kind transport : Nat) (t : Nat)
  /-- answer to a configuration request: true for Request Retry Status -/
  | config (port : Nat) (retry : Bool)
  /-- completion of a BAR read: bytes, and whether it is poisoned -/
  | barRead (port : Nat) (data : List Byte) (poisoned : Bool)
  /-- a datagram of the management MAC with a Catalogue response, repeated from the cache -/
  | mgmtRepeat (sess xid : Nat)
deriving DecidableEq, Repr

/-! ### Maelgo: connections, transfers, regions (R333 to R354) -/

/-- States of a connection that is not FREE (R335). -/
inductive ConnState where
  | pending | open_ | draining | error
deriving DecidableEq, Repr

/-- A packet that a connection has to send: what it carries, and where its payload is read from at every
transmission (R340, R343). -/
structure TxItem where
  op : Nat
  region : Nat
  /-- header STEP when the packet names a step of its own (R360, R369); else the sender's step at each transmission -/
  step : Option Nat
  /-- extension, and its length in bytes -/
  ext : Nat
  extLen : Nat
  /-- job address of the payload; none for a payload of the device's own -/
  src : Option Nat
  own : List Byte
  len : Nat
  /-- transfer it belongs to -/
  xfer : Option Nat
deriving DecidableEq, Repr

/-- A sent packet whose SEQ is not settled (R340). -/
structure TxSent where
  item : TxItem
  /-- last transmission: instant and packet number; transmissions made -/
  sentAt : Nat
  sentPn : Nat
  times : Nat
  /-- to be sent again from this instant on -/
  resend : Option Nat
  /-- an ACK has shown it received -/
  acked : Bool
  /-- the resend waits for the window (R342) -/
  byWindow : Bool
  /-- the last timeout that was decided for it (R53) -/
  missed : Option Nat
deriving DecidableEq, Repr

/-- A transfer whose outcome is not known (R343). -/
structure Xfer where
  /-- posting command -/
  cmd : Nat
  region : Nat
  isSeal : Bool
  /-- a read transfer: its read-table entries settle it -/
  read : Bool
deriving DecidableEq, Repr

/-- A seal that waits to land (R348). -/
structure WaitSeal where
  seq : Word
  at_ : Nat
  region : Nat
  offset : Nat
  payload : List Byte
deriving DecidableEq, Repr

/-- A taint: region, offset, length (R350). -/
structure Taint where
  region : Nat
  offset : Nat
  len : Nat
deriving DecidableEq, Repr

/-- A connection (R333 to R343, R350). -/
structure Conn where
  st : ConnState
  job : Nat
  /-- the 64-byte connection record -/
  record : Nat
  /-- keys and salts of both directions, and whether this end is lo (R330, R420) -/
  link : List Byte
  lo : Bool
  /-- next SEQ, lowest SEQ not acknowledged, last PN used, window -/
  nextSeq : Word
  cumTx : Word
  /-- the peer's CUM as its ACKs have given it -/
  ackCum : Word
  pn : Nat
  win : Nat
  /-- the round: SEQ that ends it, a loss in it, CE marks and acknowledged packets of it (R341) -/
  roundEnd : Word
  roundLoss : Bool
  roundCe : Nat
  roundAcked : Nat
  queue : List TxItem
  /-- outstanding packets by SEQ, in the order of sending -/
  sent : List (Word × TxSent)
  xfers : Tbl Xfer
  /-- receiver: lowest SEQ not received, the instant it last moved, SEQs received above it -/
  cumRx : Word
  cumAt : Nat
  got : List Word
  /-- highest PN verified, and the verified ones of its window (R331) -/
  pnHigh : Nat
  pnSeen : List Nat
  /-- packets received since the last ACK, the instant of the first, CE marks since (R339) -/
  ackCount : Nat
  ackSince : Option Nat
  ce : Nat
  seals : List WaitSeal
  taints : List Taint
  /-- a taint hold that was decided against the connection: its deadline and the taints then (R53, R350) -/
  taintMiss : Option (Nat × List Taint)
  sealsOk : Nat
  sealsFailed : Nat
  lastFail : Nat
  /-- where its context resides: 0 on die, 1 context store, 2 host store; last use; spill count (R336) -/
  residence : Nat
  used : Nat
  spill : Nat
  /-- in the host store: its host bus address and the sealed bytes written there under the spill count (R336) -/
  storeAt : Nat
  stored : List Byte
  /-- instant of the close that made it DRAINING -/
  drainAt : Nat
  /-- last CREDIT of the peer's management fragments: XID, bytes of the message under reassembly (R459) -/
  mgmtPart : Option (Nat × List Byte)
deriving DecidableEq, Repr

/-- States of a region entry (R354). -/
inductive RegionState where
  | free | valid | revoking
deriving DecidableEq, Repr

/-- A region entry (R344, R349, R353). -/
structure NetRegion where
  st : RegionState
  gen : Nat
  job : Nat
  /-- the 64-byte region record -/
  record : Nat
  /-- revocation stamp, and whether step 3 of R353 is done -/
  tr : Nat
  settled : Bool
  /-- seal ring position and phase; seals landed -/
  pos : Nat
  phase : Bool
  landed : Nat
deriving DecidableEq, Repr

/-- A received packet that waits: for its context (R337) or for a version (R351). -/
structure HeldPkt where
  op : Nat
  pkt : Pkt
  at_ : Nat
deriving DecidableEq, Repr

/-- A read-table entry: one READ_REQ under way (R351, R352). -/
structure ReadEntry where
  conn : Nat
  job : Nat
  cmd : Nat
  xfer : Nat
  /-- SEQ of the READ_REQ, none until it is sent -/
  seq : Option Word
  region : Nat
  offset : Nat
  want : Nat
  versioned : Bool
  bytes : Nat
  /-- the piece of its version that a versioned read asks for -/
  piece : Nat
  /-- destination of its first byte, its length, and how many bytes of it the destination takes -/
  dst : Nat
  len : Nat
  room : Nat
  stampVa : Nat
  /-- lines not received, as line numbers of the request -/
  missing : List Nat
  /-- instant its READ_REQ was acknowledged; re-issues made -/
  ackedAt : Option Nat
  reissues : Nat
deriving DecidableEq, Repr

/-- A host frame ring's two queues (R439 to R441). -/
structure FrameRing where
  rxHead : Nat
  rxTail : Nat
  txHead : Nat
  txTail : Nat
deriving DecidableEq, Repr

/-- What the memory controllers keep for their alerts (R219, R222): stamps of corrected reads by die, temperatures at
the last training, dies whose need of a retraining is counted, and by die the instant of its last patrol pass (R221). -/
structure MemWatch where
  corrected : List (Nat × Nat)
  trained : Tbl Int
  due : List Nat
  patrolAt : Tbl Nat
deriving DecidableEq, Repr

/-- The network die's tables. -/
structure Net where
  conns : Tbl Conn
  regions : Tbl NetRegion
  hold : List HeldPkt
  versions : List HeldPkt
  reads : Tbl ReadEntry
  nextRead : Nat
  nextXfer : Nat
  rings : Tbl FrameRing
  /-- instant of the last TTSYNC sent in ARMED (R355) -/
  ttSent : Option Nat
  /-- last frame sent, by port (R321) -/
  lastTx : Tbl LastTx
  /-- hold-buffer deadlines that were decided: connection and deadline (R53, R337) -/
  holdMiss : List (Nat × Nat)
deriving DecidableEq, Repr

/-! ### The device -/

/-- Everything of the machine but its queue of commands. -/
structure Dev where
  /-- timebase reading, in units (R27) -/
  now : Nat
  /-- free values taken so far: the model's own field, not the spec's -/
  fresh : Nat
  /-- states of the rounding generators as last drawn from (R141), by generator; one that is unlisted holds its seed -/
  gens : Tbl DWord
  /-- what left the device, newest first: the model's own record -/
  out : List Out
  /-- Catalogue values that are not at their default, by key index × 256 + field -/
  cat : Tbl Nat
  /-- Catalogue BLOB and STRING values that have been set -/
  blob : Tbl (List Byte)
  /-- device physical memory and host memory, canonical: rising addresses, no zero byte -/
  mem : List Host.Cell
  /-- poisoned lines of tiers 2 and 3, by line number, rising (R219) -/
  poison : Tbl Unit
  tb : Timebase
  tt : Timetable
  jobs : Tbl Job
  /-- rings, key 64 × job + ring -/
  rings : Tbl Ring
  /-- commands held, by a number of the model's own -/
  cmds : Tbl Cmd
  nextCmd : Nat
  /-- the global command processor's arbiter (R91) -/
  arb : Arbiter
  units : Tbl ExecUnit
  nextSlip : Nat
  sessions : Tbl Session
  /-- sessions that an idle timeout has closed, with its deadline, until their handles are given again (R53) -/
  expired : Tbl Nat
  keys : Tbl KeySlot
  long : Option LongOp
  hosts : Tbl HostPort
  mgmt : MgmtMac
  nv : NvStore
  boot : Boot
  pins : Pins
  power : Power
  net : Net
  mem3 : MemWatch
  sweeps : List SweepRun
  /-- local GATHERs that wait for UPDATING 0 (R300): command and request stamp -/
  gathers : List (Nat × Nat)
  /-- records lost to the device trace ring since its last LOST record (R472) -/
  devTrcLost : Nat
deriving DecidableEq, Repr

/-! ### The machine -/

/-- The machine: the device and the commands that wait, first in, first out. -/
structure State where
  pending : List Instr
  dev : Dev
deriving DecidableEq, Repr

/-- Why the machine would stop with a fault. The spec gives every command an effect or leaves it without one, so no
command raises a fault: there is no constructor. -/
inductive Fault where
deriving DecidableEq, Repr

/-- Why a command has no meaning. -/
inductive Refusal where
  /-- raised by an arm of `exec` whose command has no meaning in the model yet: safe, since nothing can be proved of what
  follows it -/
  | notModelled (mnemonic : String)
deriving DecidableEq, Repr

/-! ### Reset (R479, R481, R486, and the reset values of the registers) -/

def Timebase.reset : Timebase :=
  { st := .freeRun, gm := false, foreign := [], master := none, gmShown := 0, offset := 0, lockRun := 0, lastSync := 0,
    pathDelay := 0, slew := 0, freq := 0, asked := false }

def Timetable.reset : Timetable :=
  { st := .unloaded, image := none, wrStage := false, wrEpoch := false, wrFirst := false, wrAnchor := false,
    lastControl := 0, pendingResume := false, rejoin := false, heldBy := .none, armedAt := 0, peers := [], epoch := 0,
    firstStep := 0, step := 0, slot := 0, slotSt := .waiting, slotStart := 0, lag := 0, slackCut := 0, lastFirmEnd := 0,
    firmDone := false, prevSlackOpen := false, prevOverrun := false, paceLag := 0, paceTook := 0, reqM := 0, reqStep := 0,
    reqCarried := false, moves := [], justStarted := false, ended := [], past := [], runStart := 0 }

/-- The round robin begins at job 0 and ring 0. -/
def Arbiter.reset : Arbiter := { firmJob := 0, otherJob := 0, firmRing := [], otherRing := [] }

/-- The non-volatile store and the fuses of a module as it leaves the factory. -/
def NvStore.fresh : NvStore :=
  { bootCount := 0, bank0 := [], bank1 := [], activeBank := 0, nextBank := 0, svnFused := 0, revoked := 0, retired := [],
    hours := 0, ownerKey := [], tripRecord := [], bootFail := [], sscEn := 1 }

def Boot.reset : Boot :=
  { input := false, modRstN := true, step := 0, rails := 0, state := 0, cause := 1, pos := 0, recovery := false,
    fallback := false, ready := 0, pendingReset := none, tripped := false, pulsed := false, tripSeen := false, bank := 0,
    measures := [], kemPublic := [], entropyBad := false, times := [], ssc := 1 }

def Pins.reset : Pins := { pwrGood := false, alertN := true, thermTripN := true, sideband := 0x10000C1 }

def Power.reset : Power :=
  { dies := (List.range 9).map fun k =>
      (k, { entry := 15, target := none, riseAt := 0, above := 0, lead := false, capD := 8, capEntry := 0, capAt := 0,
            thermEntry := 0, thermAt := 0 }),
    t2Rate := 8, t3Rate := 8, lpHot := 0, samples := [], railSamples := [], run := 0,
    gains := List.replicate 17 (5, 4), brim := 1000 * 2 ^ 80 + 8 * 2 ^ 20 + 8 * 2 ^ 16, temps := [], inlet := 0, phase := 0,
    throttled := false, droops := [], cuffOn := false, cuffAt := 0, cuffE := 0, cuffWave := 0, due := [] }

def Net.reset : Net :=
  { conns := [], regions := [], hold := [], versions := [], reads := [], nextRead := 0, nextXfer := 0, rings := [],
    ttSent := none, lastTx := [], holdMiss := [] }

/-- The device with everything at its reset value, before its input has risen. -/
def Dev.reset : Dev :=
  { now := 0, fresh := 0, gens := [], out := [], cat := [], blob := [], mem := [], poison := [], tb := Timebase.reset,
    tt := Timetable.reset, jobs := [], rings := [], cmds := [], nextCmd := 0, arb := Arbiter.reset, units := [], nextSlip := 0, sessions := [],
    expired := [],
    keys := [], long := none, hosts := [], mgmt := { collisions := 0, backoff := none, partials := [] },
    nv := NvStore.fresh, boot := Boot.reset, pins := Pins.reset, power := Power.reset, net := Net.reset,
    mem3 := { corrected := [], trained := [], due := [], patrolAt := [] }, sweeps := [], gathers := [], devTrcLost := 0 }

/-- The machine right after reset: no command waits. -/
def State.reset : State := { pending := [], dev := Dev.reset }

end Sys2Proof.Machine
end

