-- ==== Sys2Proof/Machine/Ops.lean ====
section
/-! DEFINITION. The named operations over the state that every family uses: time, free values, Catalogue
values and counters, memory and poison, translation, marks, trace records, interrupts. -/

namespace Sys2Proof.Machine

/-! ### Time and free values -/

/-- What is left to slew of `slew` millionths of a unit after `dt` units of time at `ppm` parts in 10^6 (R35, R36). -/
def slewLeft (slew : Int) (dt ppm : Nat) : Int :=
  if 0 ≤ slew then max 0 (slew - dt * ppm) else min 0 (slew + dt * ppm)

/-- The timebase once `dt` units have passed: the offset that is to be slewed away shrinks by no more than TB_SLEW_MAX
(R35, R36; that it shrinks by just so much is the model's choice, log entry 62). -/
def Timebase.pass (tb : Timebase) (dt ppm : Nat) : Timebase := { tb with slew := slewLeft tb.slew dt ppm }

/-- A command accepted at reading `t`: the timebase reads at least `t` from then on (R35), and what is to be slewed is
worked off meanwhile. -/
def Dev.advance (d : Dev) (t : Nat) : Dev :=
  if d.now < t then
    { d with now := t, tb := d.tb.pass (t - d.now) (Tbl.getD d.cat Cat.TB_SLEW_MAX (catDefault Cat.TB_SLEW_MAX)) }
  else d

/-- The stamp that an event inside the device takes: the replicas count in steps of 8 units (R29). R29 lets a replica of
the Lorquel die or a Stacks die stand up to 16 units from the network die's reading: that it reads the same is the
model's choice (log entry 62). -/
def Dev.stamp (d : Dev) : Nat := d.now / 8 * 8

/-- The next free value, and the device that has taken it. -/
def Dev.take (d : Dev) : Nat × Dev := (Config.freeNat d.fresh, { d with fresh := d.fresh + 1 })

/-- The device after `n` free values were taken. -/
def Dev.takeN (d : Dev) (n : Nat) : Dev := { d with fresh := d.fresh + n }

/-- The k-th free value from here, without taking it. -/
def Dev.free (d : Dev) (k : Nat) : Nat := Config.freeNat (d.fresh + k)

/-! ### Rounding generators (R141) -/

/-- One cycle of a generator: shifts 13, 7, 17. -/
def xsStep (s : DWord) : DWord :=
  let s := s ^^^ (s <<< 13)
  let s := s ^^^ (s >>> 7)
  s ^^^ (s <<< 17)

/-- `n` cycles. -/
def xsRun : Nat → DWord → DWord
  | 0, s => s
  | n + 1, s => xsRun n (xsStep s)

/-- The draw of a state: bits [63:48] of its product with the multiplier. -/
def xsDraw (s : DWord) : Nat := ((s * 0x2545F4914F6CDD1D#64) >>> 48).toNat

/-- Numbers of the generators: thread lanes and formatter lanes of a unit, block-rounding and epilogue lanes of an engine
of it. A bundle slot of a Stacks vector engine runs on quarter slot mod 4, which has lanes of its own (R201). -/
def genThread (u b l : Nat) : Nat := u * 2 ^ 16 + (if u < 64 then 0 else 64 * (b % 4)) + l % 64
def genLane (u l : Nat) : Nat := u * 2 ^ 16 + l % 256
def genFormat (u l : Nat) : Nat := u * 2 ^ 16 + 0x100 + l % 256
def genBlock (u e l : Nat) : Nat := u * 2 ^ 16 + 0x1000 * (e + 1) + l % 256
def genOut (u e l : Nat) : Nat := u * 2 ^ 16 + 0x1000 * (e + 1) + 0x100 + l % 256

/-- The seed that the entropy source gave a generator at this boot: any value but zero. -/
def Dev.genSeed (d : Dev) (g : Nat) : DWord := BitVec.ofNat 64 (1 + Config.genSeed d.nv.bootCount g % (2 ^ 64 - 1))

/-- The state of generator `g` in the cycle that uses its draw: how many cycles have passed since it was last drawn from is
the k-th free value from here. -/
def Dev.genState (d : Dev) (g k : Nat) : DWord := xsRun (d.free k + 1) (Tbl.getD d.gens g (d.genSeed g))

/-- The 16 bits that generator `g` delivers in that cycle. -/
def Dev.draw (d : Dev) (g k : Nat) : Nat := xsDraw (d.genState g k)

/-- The generators of the list have been drawn from, the k-th one with the k-th free value. -/
def Dev.drawn (d : Dev) (gs : List Nat) : Dev :=
  { d with
    gens := ((List.range gs.length).map fun k => ((gs[k]?).getD 0, k)).foldl (fun t gk => Tbl.set t gk.1 (d.genState gk.1 gk.2)) d.gens,
    fresh := d.fresh + gs.length }

/-! ### Catalogue values and counters -/

/-- The value of a Catalogue entry (R442): what was set, or its default. -/
def Dev.cget (d : Dev) (key : Nat) : Nat := Tbl.getD d.cat key (catDefault key)

def Dev.cset (d : Dev) (key v : Nat) : Dev := { d with cat := Tbl.set d.cat key v }

/-- A counter rises by `n`. -/
def Dev.bumpBy (d : Dev) (key n : Nat) : Dev := if n = 0 then d else d.cset key (d.cget key + n)

def Dev.bump (d : Dev) (key : Nat) : Dev := d.bumpBy key 1

/-- The value of a BLOB or STRING entry: what was set, or its default, which is empty or zeros. -/
def Dev.bget (d : Dev) (key : Nat) : List Byte := Tbl.getD d.blob key (List.replicate (catDefault key) 0)

def Dev.bset (d : Dev) (key : Nat) (v : List Byte) : Dev := { d with blob := Tbl.set d.blob key v }

def Dev.emit (d : Dev) (o : Out) : Dev := { d with out := o :: d.out }

/-- Set bits of ALERT_CAUSE (R475). -/
def Dev.alert (d : Dev) (bitNo : Nat) : Dev :=
  let c := d.cget Cat.ALERT_CAUSE
  if bit c bitNo then d else d.cset Cat.ALERT_CAUSE (c + 2 ^ bitNo)

/-! ### Parts of the state by key -/

def RedJob.empty : RedJob :=
  { shards := [], runs := [], closes := [], finals := [], counted := [], acc := [], votes := [], voted := [],
    results := [], recorded := [], awaiting := [] }

def Job.empty : Job :=
  { st := .free, tenant := 0, keySlot := 0xFF, marks := [], t1 := none, t1Va := 0, t1Stale := false, pages := [],
    allocRec := 0, trcLost := 0, smpSeq := 0, smpGap := false, smpAt := 0, smpBase := (0, 0, 0, 0), dropLines := 0,
    invalids := 0, issued := [], slots := [], figs := [], rolls := [], lastRollT := none, nmu := none, nmuHints := [],
    red := RedJob.empty, pool := [], poolHead := 0 }

def Ring.empty : Ring :=
  { st := .idle, record := 0, head := 0, tail := 0, seq := 0, phase := true, cPos := 0, cPhase := true,
    pushed := [], phaseTries := 0, fetchedAt := 0, stopSeq := 0, haltedCmds := [] }

def Mover.empty : Mover := { queue := [], ctx := [], decls := [], count := [], stopped := [], turn := 3 }

def ExecUnit.empty : ExecUnit :=
  { bundles := [], engines := [], mover := Mover.empty, stores := [], buf := [], code := [], bars := [] }

def Engine.empty : Engine :=
  { owner := none, lastJob := none, tiles := [], queue := [], ramp := .full, rampAt := 0, lastMac := none, overhang := false }

def Mailbox.empty : Mailbox :=
  { pending := false, done := false, lastStatus := 0, irqEn := false, vector := 0, bulkAddr := 0, bulkLen := 0,
    req := [], rsp := [] }

def HostPort.empty : HostPort :=
  { linkUp := false, rate := 0, width := 0, perstLow := true, training := false, errCause := 0, errEn := false,
    errVector := 0, mboxes := [], msix := [], pba := [], ide0 := .off, ide1 := .off, ideKeys := [] }

def Dev.job (d : Dev) (j : Nat) : Job := Tbl.getD d.jobs j Job.empty
def Dev.setJob (d : Dev) (j : Nat) (x : Job) : Dev := { d with jobs := Tbl.set d.jobs j x }
def Dev.ring (d : Dev) (j q : Nat) : Ring := Tbl.getD d.rings (64 * j + q) Ring.empty
def Dev.setRing (d : Dev) (j q : Nat) (x : Ring) : Dev := { d with rings := Tbl.set d.rings (64 * j + q) x }
def Dev.cmd? (d : Dev) (c : Nat) : Option Cmd := Tbl.find? d.cmds c
def Dev.setCmd (d : Dev) (c : Nat) (x : Cmd) : Dev := { d with cmds := Tbl.set d.cmds c x }
def Dev.updCmd (d : Dev) (c : Nat) (f : Cmd → Cmd) : Dev :=
  match d.cmd? c with
  | some x => d.setCmd c (f x)
  | none => d
def Dev.unit (d : Dev) (u : Nat) : ExecUnit := Tbl.getD d.units u ExecUnit.empty
def Dev.setUnit (d : Dev) (u : Nat) (x : ExecUnit) : Dev := { d with units := Tbl.set d.units u x }
def Dev.engine (d : Dev) (u e : Nat) : Engine := Tbl.getD (d.unit u).engines e Engine.empty
def Dev.setEngine (d : Dev) (u e : Nat) (x : Engine) : Dev :=
  d.setUnit u { d.unit u with engines := Tbl.set (d.unit u).engines e x }
def Dev.bundle? (d : Dev) (u b : Nat) : Option Bundle := Tbl.find? (d.unit u).bundles b
def Dev.setBundle (d : Dev) (u b : Nat) (x : Bundle) : Dev :=
  d.setUnit u { d.unit u with bundles := Tbl.set (d.unit u).bundles b x }
def Dev.host (d : Dev) (p : Nat) : HostPort := Tbl.getD d.hosts p HostPort.empty
def Dev.setHost (d : Dev) (p : Nat) (x : HostPort) : Dev := { d with hosts := Tbl.set d.hosts p x }

/-- The job is stopped, in the sense of RW-idle and write-when-idle (R73). -/
def Job.isStopped (x : Job) : Bool := x.st = .created || x.st = .stopped

/-- The job that the timetable's firm work belongs to (R42). -/
def Dev.anchor (d : Dev) : Nat := d.cget Cat.TT_ANCHOR_JOB

/-- The data plane is released (step 9 of R479). -/
def Dev.released (d : Dev) : Bool := d.boot.state = 4

/-! ### Memory: bytes by physical address (R19, R205) -/

/-- A byte of memory; one that nothing has written reads zero (device pages are zeroed before they are
granted, R213; for host memory see the log). -/
def memByte (m : List Host.Cell) (a : Nat) : Byte := (Tbl.find? m a).getD 0

/-- One byte written; a zero is not listed. -/
def memPut (m : List Host.Cell) (a : Nat) (v : Byte) : List Host.Cell :=
  if v = 0 then Tbl.erase m a else Tbl.set m a v

def memRead (m : List Host.Cell) (a : Nat) : Nat → List Byte
  | 0 => []
  | n + 1 => memByte m a :: memRead m (a + 1) n

def memWrite (m : List Host.Cell) (a : Nat) : List Byte → List Host.Cell
  | [] => m
  | v :: t => memWrite (memPut m a v) (a + 1) t

/-- Zeros over `n` bytes. -/
def memZero (m : List Host.Cell) (a n : Nat) : List Host.Cell :=
  m.filter fun c => !(a ≤ c.1 && c.1 < a + n)

/-- The canonical form: addresses strictly rising, no zero listed. -/
def Memory.wf (m : List Host.Cell) : Bool := Tbl.sorted m && m.all fun c => c.2 != 0

/-- The cells of `n` bytes at `src`, moved to `dst`. -/
def memCopy (m : List Host.Cell) (src dst n : Nat) : List Host.Cell :=
  (m.filter fun c => src ≤ c.1 && c.1 < src + n).foldl
    (fun acc c => memPut acc (dst + (c.1 - src)) c.2) (memZero m dst n)

/-- The cell that holds byte `x` of host memory behind port `p`: host bus addresses have cells of their own
above every device address. -/
def hostCell (p x : Nat) : Nat := 2 ^ 64 * (p + 1) + x

/-! ### The physical address map (R19, R20) -/

/-- The ASCII bytes of a label. -/
def label (s : String) : List Byte := s.toList.map fun c => BitVec.ofNat 8 c.toNat

/-- SEC_IDENTITY_DIGEST. -/
def identityDigest : List Byte := (Config.fusedBytes Cat.SEC_IDENTITY_DIGEST).take 32

/-- The AES-256-XTS key pair of a memory root. -/
def memKey (root : Nat) : List Byte := shake256 (label "CX1T-MEM" ++ leBytes 32 root ++ identityDigest) 64

/-- What lies at a physical address. -/
inductive Region where
  | tier3 (die : Nat)
  | tier2 (die : Nat)
  | scratch (g : Nat)
  | sram (die : Nat)
  | host (p : Nat)
  /-- carve-out with tags on, firmware reserve, control space, reserved range: the access does not take place -/
  | none
deriving DecidableEq, Repr

def dieSpan : Nat := 0x20_0000_0000
def carveOut : Nat := 0x1F_0000_0000
def fwReserve : Nat := 0x1F_F800_0000
def t2Base : Nat := 0x100_0000_0000
def t2Span : Nat := 0x8000_0000
def scratchBase : Nat := 0x200_0000_0000
def scratchSpan : Nat := 0x40_0000
def sramBase : Nat := 0x200_4000_0000
def sramStep : Nat := 0x200_0000
def sramSize : Nat := 24 * 0x10_0000
def hostBase : Nat := 0x300_0000_0000
def hostSpan : Nat := 0x80_0000_0000

def Dev.integrityOn (d : Dev) : Bool := d.cget Cat.MEM_INTEGRITY_EN = 1

/-- An address that a request of a job carries with a memory root: a page of tier 4 with ENC 1 is stored under that root's key
(R225). The physical address is its low 64 bits. -/
def keyedPa (root pa : Nat) : Nat := pa + 2 ^ 64 * (root + 1)

/-- The memory root of such an address. -/
def paRoot (pa : Nat) : Option Nat := if pa < 2 ^ 64 then none else some (pa / 2 ^ 64 - 1)

def Dev.regionAt (d : Dev) (pa : Nat) : Region :=
  if pa < t2Base then
    let x := pa % dieSpan
    if fwReserve ≤ x || (carveOut ≤ x && d.integrityOn) then .none else .tier3 (pa / dieSpan)
  else if pa < t2Base + 8 * t2Span then .tier2 ((pa - t2Base) / t2Span)
  else if scratchBase ≤ pa && pa < scratchBase + 64 * scratchSpan then .scratch ((pa - scratchBase) / scratchSpan)
  else if sramBase ≤ pa && pa < sramBase + 8 * sramStep && (pa - sramBase) % sramStep < sramSize then
    .sram ((pa - sramBase) / sramStep)
  else if hostBase ≤ pa && pa < hostBase + 2 * hostSpan then .host ((pa - hostBase) / hostSpan)
  else .none

def Dev.region (d : Dev) (pa : Nat) : Region := d.regionAt (pa % 2 ^ 64)

/-- The memory cell of a physical address: tier 4 is host memory at HOST_WIN_BASE plus the offset (R431). -/
def Dev.cell (d : Dev) (pa : Nat) : Nat :=
  match d.region pa with
  | .host p => hostCell p (d.cget (Cat.HOST_WIN_BASE p) + (pa % 2 ^ 64 - hostBase) % hostSpan)
  | _ => pa

/-- Base of the scratch that a unit's scratch offsets count from (R184, R201). -/
def unitScratch (u : Nat) : Nat := if u < 64 then scratchBase + u * scratchSpan else sramBase + (u - 64) * sramStep

/-- Granule of a unit's scratch address fields (R102, R235). -/
def unitGranule (u : Nat) : Nat := if u < 64 then 64 else 512

/-! ### Lines: poison and lost host ports (R219, R220, R432) -/

def Dev.isPoisoned (d : Dev) (line : Nat) : Bool := (Tbl.find? d.poison line).isSome

def Dev.setPoison (d : Dev) (line : Nat) : Dev := { d with poison := Tbl.set d.poison line () }

def Dev.clearPoison (d : Dev) (line : Nat) : Dev := { d with poison := Tbl.erase d.poison line }

/-- A tier 4 access to this port is lost: its link is down or PERSTp_N asserted (R432). -/
def Dev.hostLost (d : Dev) (p : Nat) : Bool := !(d.host p).linkUp || (d.host p).perstLow

/-- Tier 4 requests to this port wait: an IDE stream of it is insecure (R425). -/
def Dev.hostStalled (d : Dev) (p : Nat) : Bool := (d.host p).ide0 = .insecure || (d.host p).ide1 = .insecure

/-- The memory of Stacks die `i` is being retrained: no request enters its sinks, tier 2's neither (R22, R222). -/
def Dev.retraining (d : Dev) (i : Nat) : Bool :=
  match d.long with
  | some l => match l.kind with
    | .retrain mask => bit mask i
    | _ => false
  | none => false

/-- A request to this physical address waits: its die retrains, or its host port stalls (R22, R24, R425). -/
def Dev.stalledAt (d : Dev) (pa : Nat) : Bool :=
  match d.region pa with
  | .host p => d.hostStalled p
  | .tier2 i | .tier3 i | .sram i => d.retraining i
  | _ => false

/-- The line at `pa` reads as zeros, as a poisoned line. -/
def Dev.badLine (d : Dev) (pa : Nat) : Bool :=
  match d.region pa with
  | .host p => d.hostLost p
  | .tier2 _ | .tier3 _ => d.isPoisoned (pa / 64)
  | _ => false

/-- An MSI-X table entry at reset: masked (PCI Express; log entry 37). -/
def msixReset : Nat := 2 ^ 96

/-- Vector `v` of port `p` is raised: a message leaves, or the vector's pending bit is set while its entry is masked. -/
def Dev.raiseMsix (d : Dev) (p v : Nat) : Dev :=
  let h := d.host p
  if bit (Tbl.getD h.msix v msixReset) 96 then d.setHost p { h with pba := Tbl.set h.pba v true } else d.emit (.msix p v)

/-- A set bit of HOST_ERR_CAUSE raises ERR_VECTOR when it was 0 (R433). -/
def Dev.hostErr (d : Dev) (p b : Nat) : Dev :=
  let h := d.host p
  if bit h.errCause b then d
  else
    let d := d.setHost p { h with errCause := h.errCause + 2 ^ b }
    if h.errEn then d.raiseMsix p h.errVector else d

/-- Count a poisoned line delivered (R220), or a tier 4 read that was lost (R432). -/
def Dev.countBad (d : Dev) (pa : Nat) : Dev :=
  match d.region pa with
  | .host p => (d.bump (Cat.HOST_LINK_DROP p)).hostErr p 4
  | .tier2 i | .tier3 i => d.bump (Cat.MEM_POISON_READ i)
  | _ => d

/-- The line in which `pa` lies, in the clear: a line of a page with ENC 1 in tier 4 is decrypted on its way in. Its data unit
is the line and its tweak the line's physical address (R225). -/
def Dev.plainLine (d : Dev) (pa : Nat) : List Byte :=
  let line := pa / 64 * 64
  let stored := memRead d.mem (d.cell line) 64
  match paRoot pa with
  | none => stored
  | some root => xtsLine true (memKey root) (line % 2 ^ 64) stored

/-- A byte of memory in the clear. -/
def Dev.plainByte (d : Dev) (pa : Nat) : Byte :=
  if pa < 2 ^ 64 then memByte d.mem (d.cell pa) else ((d.plainLine pa)[pa % 64]?).getD 0

/-- Bytes within one line of tier 4 as they are stored: on a page with ENC 1 the line is encrypted again as a whole (R225). -/
def Dev.tier4Write (d : Dev) (pa : Nat) (data : List Byte) : Dev :=
  match paRoot pa with
  | none => { d with mem := memWrite d.mem (d.cell pa) data }
  | some root =>
    let line := pa / 64 * 64
    let old := d.plainLine pa
    let new := old.take (pa % 64) ++ data ++ old.drop (pa % 64 + data.length)
    { d with mem := memWrite d.mem (d.cell line) (xtsLine false (memKey root) (line % 2 ^ 64) new) }

/-- A byte as its readers get it: zero from a bad line. -/
def Dev.rdByte (d : Dev) (pa : Nat) : Byte := if d.badLine pa then 0 else d.plainByte pa

def Dev.rd (d : Dev) (pa n : Nat) : List Byte := (List.range n).map fun i => d.rdByte (pa + i)

/-- The physical line numbers that `n` bytes at `pa` touch. -/
def linesOf (pa n : Nat) : List Nat :=
  if n = 0 then [] else (List.range ((pa + n - 1) / 64 - pa / 64 + 1)).map fun i => pa / 64 + i

def Dev.badLines (d : Dev) (pa n : Nat) : List Nat := (linesOf pa n).filter fun l => d.badLine (64 * l)

/-- A write within one line, as its sink performs it: a full line clears poison, a partial one on a poisoned
line is dropped (R220); a write to a lost port is dropped (R432). -/
def Dev.wrRaw (d : Dev) (pa : Nat) (data : List Byte) : Dev :=
  match d.region pa with
  | .none => d
  | .host p =>
    if d.hostLost p then (d.bump (Cat.HOST_LINK_DROP p)).hostErr p 4
    else d.tier4Write pa data
  | .tier2 i | .tier3 i =>
    if data.length = 64 then { (d.clearPoison (pa / 64)) with mem := memWrite d.mem pa data }
    else if d.isPoisoned (pa / 64) then d.bump (Cat.MEM_POISON_WRITE_DROP i)
    else { d with mem := memWrite d.mem pa data }
  | _ => { d with mem := memWrite d.mem pa data }

/-- The record of a job's expert table that starts at a physical address: its index (R257). -/
def Job.expertIndex (x : Job) (pa : Nat) : Option Nat :=
  match x.nmu with
  | none => none
  | some (va, len) =>
    match x.pages.find? fun p => p.pa ≤ pa && pa < p.pa + p.size with
    | none => none
    | some p =>
      let a := p.va + (pa - p.pa)
      if va ≤ a && a < va + 32 * len && (a - va) % 32 = 0 then some ((a - va) / 32) else none

/-- PLACE of a record (R259): 1 for the Lorquel die. -/
def placeOf (hint eff count : Nat) : Nat := b2n (hint = 2 || (hint = 0 && eff ≤ count))

/-- The owning controller has performed a write of `n` bytes at `pa` that touches the first half of a record: what it wrote
to the read-only word [127:64] is ignored (R10, R257), and a write to word [63:0] gives PLACE, by the HINT and the EFF_THRESH
in force (R259). -/
def Dev.placeRecord (before d : Dev) (j hint rec_ pa : Nat) : Dev :=
  let d := { d with mem := memWrite d.mem (rec_ + 8) (memRead before.mem (rec_ + 8) 8) }
  if rec_ + 8 ≤ pa then d
  else
    let place := placeOf hint (leNat (memRead d.mem (rec_ + 12) 4)) (leNat (memRead d.mem rec_ 4))
    let d := { d with mem := memWrite d.mem (rec_ + 4) (leBytes 4 place) }
    if fld (leNat (memRead before.mem rec_ 8)) 32 1 = place then d else d.bump (Cat.NMU_PLACE_FLIP j)

/-- Records of expert tables whose first half a tier 2 write within one line touches (R257, R259). -/
def Dev.placeLine (before d : Dev) (pa n : Nat) : Dev :=
  match d.region pa with
  | .tier2 _ =>
    d.jobs.foldl (fun d kj =>
      if kj.2.nmu.isNone || !(kj.2.st = .running || kj.2.st = .stopping) then d
      else
        [pa / 64 * 64, pa / 64 * 64 + 32].foldl (fun d rec_ =>
          match kj.2.expertIndex rec_ with
          | some i => if pa < rec_ + 16 && rec_ < pa + n then Dev.placeRecord before d kj.1 ((kj.2.nmuHints[i]?).getD 0) rec_ pa else d
          | none => d) d) d
  | _ => d

/-- A write within one line, with the placement that a write to an expert table's record causes. -/
def Dev.wrLine (d : Dev) (pa : Nat) (data : List Byte) : Dev :=
  let d' := d.wrRaw pa data
  if d'.isPoisoned (pa / 64) then d' else Dev.placeLine d d' pa data.length

/-- A write of any length, line by line; `fuel` lines at most. -/
def Dev.wrLines (d : Dev) (pa : Nat) (data : List Byte) : Nat → Dev
  | 0 => d
  | fuel + 1 =>
    if data.isEmpty then d
    else
      let k := 64 - pa % 64
      (d.wrLine pa (data.take k)).wrLines (pa + k) (data.drop k) fuel

def Dev.wr (d : Dev) (pa : Nat) (data : List Byte) : Dev := d.wrLines pa data (data.length / 64 + 2)

/-- A byte with a pending store laid over it. -/
def overByte (p : PendStore) (pa : Nat) (v : Byte) : Byte :=
  if p.pa ≤ pa && pa < p.pa + p.data.length then
    let m := (p.mask[pa - p.pa]?).getD 0
    (v &&& ~~~ m) ||| ((p.data[pa - p.pa]?).getD 0 &&& m)
  else v

/-- A store's bytes as its sink writes them. -/
def mergeBytes (d : Dev) (p : PendStore) : List Byte :=
  (List.range p.data.length).map fun i => overByte p (p.pa + i) (d.plainByte (p.pa + i))

/-- A sink accepts a store (R22). -/
def Dev.acceptStore (d : Dev) (p : PendStore) : Dev :=
  -- a run that leaves bits of its bytes as they are is no full-line write, however long it is (R220)
  if d.isPoisoned (p.pa / 64) && p.mask.any (· ≠ 0xFF) then d.wrLine p.pa [0] else d.wrLine p.pa (mergeBytes d p)

/-- Zero a page before it is granted (R213): every line is written whole, so no poison is left, and no unit's read buffer
keeps a line of what lay there: the page reads as zero. -/
def Dev.zeroPage (d : Dev) (pa n : Nat) : Dev :=
  { d with mem := memZero d.mem pa n,
           poison := Tbl.keep (fun l _ => !(pa ≤ 64 * l && 64 * l < pa + n)) d.poison,
           units := Tbl.mapVals (fun _ u => { u with buf := Tbl.keep (fun l _ => !(pa ≤ 64 * l && 64 * l < pa + n)) u.buf }) d.units }

/-! ### Translation (R206, R207, R215, R265) -/

/-- Level of the table whose leaves map pages of a size (R206). -/
def pageLevel (size : Nat) : Nat := if size = 0x4000_0000 then 1 else if size = 0x20_0000 then 2 else 3

/-- The index of a job address in the table of a level. -/
def tableIndex (level va : Nat) : Nat :=
  match level with
  | 0 => fld va 39 13
  | 1 => fld va 30 9
  | 2 => fld va 21 9
  | _ => fld va 16 5

/-- The page table entry that firmware writes for a page: VALID, LEAF, WRITABLE, ENC, MIGRATE, ADDR (R207). -/
def Page.entry (p : Page) : Nat :=
  2 ^ 63 + 2 ^ 62 + b2n p.writable * 2 ^ 61 + b2n p.enc * 2 ^ 60 + b2n p.migrate * 2 ^ 59 + fld p.pa 8 40 * 2 ^ 8

/-- The page that a leaf entry maps, for a page of `size` bytes at `va` of the allocation at `alloc`. -/
def entryPage (e va size alloc : Nat) : Page :=
  { va := va, size := size, pa := fld e 8 40 * 2 ^ 8, writable := bit e 61, enc := bit e 60, migrate := bit e 59, alloc := alloc }

/-- The leaf that maps a job address: an allocation's page, or the job's range in a scratch or SRAM window. -/
def Job.leaf? (x : Job) (va : Nat) : Option (Nat × Page) :=
  match x.pages.find? fun p => p.va ≤ va && va < p.va + p.size with
  | some p => some (p.pa + (va - p.va), p)
  | none =>
    match x.t1 with
    | none => none
    | some g =>
      let o := va - x.t1Va
      let t1Page (start len pa : Nat) : Page :=
        { va := start, size := len, pa := pa, writable := true, enc := true, migrate := false, alloc := 2 ^ 52 }
      let grp := o / scratchSpan
      let off := o % scratchSpan
      let die := (o - 0x4000_0000) / sramStep
      let soff := (o - 0x4000_0000) % sramStep
      if va < x.t1Va then none
      else if grp < 64 && bit g.groups grp && g.scratchOff ≤ off && off < g.scratchOff + g.scratchLen then
        some (scratchBase + o, t1Page (x.t1Va + grp * scratchSpan + g.scratchOff) g.scratchLen
          (scratchBase + grp * scratchSpan + g.scratchOff))
      else if 0x4000_0000 ≤ o && die < 8 && bit g.dies die && g.sramOff ≤ soff && soff < g.sramOff + g.sramLen then
        some (sramBase + (o - 0x4000_0000), t1Page (x.t1Va + 0x4000_0000 + die * sramStep + g.sramOff) g.sramLen
          (sramBase + die * sramStep + g.sramOff))
      else none

/-- The key slot of a job. -/
def Dev.jobKey (d : Dev) (j : Nat) : KeySlot :=
  Tbl.getD d.keys (d.job j).keySlot { tenant := 0, gen := 0, memGen := 0, origin := 0, root := 0, memRoot := 0, exported := 0 }

/-- The address with which a request of job `j` leaves through a leaf: with its memory root where the page lies encrypted in
host memory (R225). -/
def Dev.keyedFor (d : Dev) (j pa : Nat) (p : Page) : Nat :=
  match d.region pa with
  | .host _ => if p.enc then keyedPa (d.jobKey j).memRoot pa else pa
  | _ => pa

/-- Translation of a job address for a read or a write: none is a translation fault (R20, R207). -/
def Dev.xlate (d : Dev) (j va : Nat) (write : Bool) : Option (Nat × Page) :=
  if 2 ^ 52 ≤ va then none
  else
    match (d.job j).leaf? va with
    | none => none
    | some (pa, p) =>
      if write && !p.writable then none
      else if d.region pa = .none then none
      else some (d.keyedFor j pa p, p)

/-- A translation fault is counted and its address kept (R207). -/
def Dev.xfault (d : Dev) (j va : Nat) : Dev :=
  (d.bump (Cat.MEM_XLATE_FAULT j)).cset (Cat.MEM_FAULT_VA j) va

/-- The first address of `n` bytes at job address `va` that faults, looked for at page and line starts. -/
def Dev.firstFault (d : Dev) (j va n : Nat) (write : Bool) : Option Nat :=
  if n = 0 then none
  else if (d.xlate j va write).isNone then some va
  else
    ((List.range ((va + n - 1) / 64 - va / 64)).map fun i => 64 * (va / 64 + 1 + i)).find?
      fun a => (d.xlate j a write).isNone

/-- Bytes at a job address that is known to be mapped; a fault reads zeros. -/
def Dev.jrdByte (d : Dev) (j va : Nat) : Byte :=
  match d.xlate j va false with
  | some (pa, _) => d.rdByte pa
  | none => 0

def Dev.jrd (d : Dev) (j va n : Nat) : List Byte := (List.range n).map fun i => d.jrdByte j (va + i)

/-- A request to some of `n` bytes at a job address waits. -/
def Dev.stalledIn (d : Dev) (j va n : Nat) : Bool :=
  n ≠ 0 && ((List.range ((va + n - 1) / 64 - va / 64 + 1)).map fun i => 64 * (va / 64 + i)).any fun a =>
    match d.xlate j a false with
    | some (pa, _) => d.stalledAt pa
    | none => false

/-- Bad physical lines behind `n` bytes at a job address, in address order. -/
def Dev.jbad (d : Dev) (j va n : Nat) : List Nat :=
  if n = 0 then []
  else
    ((List.range ((va + n - 1) / 64 - va / 64 + 1)).map fun i => 64 * (va / 64 + i)).filterMap fun a =>
      match d.xlate j a false with
      | some (pa, _) => if d.badLine pa then some (pa / 64 * 64) else none
      | none => none

/-- Bytes written at a job address, line by line; a line that faults is counted and left out (R207). -/
def Dev.jwrLines (d : Dev) (j va : Nat) (data : List Byte) : Nat → Dev
  | 0 => d
  | fuel + 1 =>
    if data.isEmpty then d
    else
      let k := 64 - va % 64
      let d := match d.xlate j va true with
        | some (pa, _) => d.wrLine pa (data.take k)
        | none => d.xfault j va
      d.jwrLines j (va + k) (data.drop k) fuel

def Dev.jwr (d : Dev) (j va : Nat) (data : List Byte) : Dev := d.jwrLines j va data (data.length / 64 + 2)

/-- A little-endian number at a job address. -/
def Dev.jnat (d : Dev) (j va n : Nat) : Nat := leNat (d.jrd j va n)

/-! ### Dependence marks (R86, R87) -/

def Job.mark (x : Job) (m : Nat) : Mark := Tbl.getD x.marks m { value := 0, stamp := 0 }

/-- A wait on a mark for `v` is satisfied: the signed difference is zero or positive. -/
def markMeets (value v : Word) : Bool := !(value - v).msb

/-- Descriptor fields of R82. -/
def Cmd.w0En (c : Cmd) : Bool := bit c.desc 176
def Cmd.w1En (c : Cmd) : Bool := bit c.desc 177
def Cmd.sigEn (c : Cmd) : Bool := bit c.desc 178
def Cmd.toSkip (c : Cmd) : Bool := bit c.desc 179
def Cmd.timed (c : Cmd) : Bool := bit c.desc 12
def Cmd.crec (c : Cmd) : Bool := bit c.desc 13
def Cmd.irq (c : Cmd) : Bool := bit c.desc 14
def Cmd.ordered (c : Cmd) : Bool := bit c.desc 15
def Cmd.tag (c : Cmd) : Nat := fld c.desc 16 16
def Cmd.cls (c : Cmd) : Nat := fld c.desc 1 3
def Cmd.opcode (c : Cmd) : Nat := fld c.desc 4 8
def Cmd.posStep (c : Cmd) : Nat := fld c.desc 96 32
def Cmd.posSlot (c : Cmd) : Nat := fld c.desc 80 16
def Cmd.posOff (c : Cmd) : Nat := fld c.desc 128 32
def Cmd.waitMark0 (c : Cmd) : Nat := fld c.desc 192 10
def Cmd.waitMark1 (c : Cmd) : Nat := fld c.desc 208 10
def Cmd.waitVal0 (c : Cmd) : Word := BitVec.ofNat 32 (fld c.desc 256 32)
def Cmd.waitVal1 (c : Cmd) : Word := BitVec.ofNat 32 (fld c.desc 288 32)
def Cmd.waitTimeout (c : Cmd) : Nat := fld c.desc 160 16
def Cmd.signalMark (c : Cmd) : Nat := fld c.desc 224 10
def Cmd.signalInc (c : Cmd) : Nat := fld c.desc 184 8
def Cmd.argsVa (c : Cmd) : Nat := fld c.desc 320 52
def Cmd.argsLen (c : Cmd) : Nat := fld c.desc 376 16

/-- The stamp at which a command's wait is found met, if it is. A wait is looked at from WAITING on: one met while the command is
still FETCHED and undone by a MARK_WRITE before it waits is not kept as satisfied (the model's choice, log entry 63: R87 keeps
a satisfied wait and does not say from when a wait is one). -/
def Cmd.noteWaits (x : Job) (c : Cmd) : Cmd :=
  let c := { c with lateWaits := c.lateWaits.filter fun w => !markMeets (x.mark w.1).value w.2.1 }
  if c.st = .waiting || c.to0 || c.to1 then
    { c with
      met0 := if c.w0En && c.met0.isNone && markMeets (x.mark c.waitMark0).value c.waitVal0 then
          some (x.mark c.waitMark0).stamp else c.met0
      met1 := if c.w1En && c.met1.isNone && markMeets (x.mark c.waitMark1).value c.waitVal1 then
          some (x.mark c.waitMark1).stamp else c.met1 }
  else c

/-- A slip that waits in WAITMK goes on when its mark is met in time (R241, R247). -/
def Slip.noteMark (x : Job) (s : Slip) : Slip :=
  match s.wait with
  | .mark m v dl =>
    if markMeets (x.mark m).value v && (match dl with | some t => (x.mark m).stamp ≤ t | none => true) then
      { s with wait := .none }
    else s
  | _ => s

/-- The job that a held command belongs to; 16 for none. -/
def Dev.cmdJob (d : Dev) (c : Nat) : Nat :=
  match d.cmd? c with
  | some x => x.job
  | none => 16

/-- Everything that waits on a mark of job `j` looks at it again. -/
def Dev.noteMarks (d : Dev) (j : Nat) : Dev :=
  let x := d.job j
  { d with
    cmds := Tbl.mapVals (fun _ c => if c.job = j then c.noteWaits x else c) d.cmds
    units := Tbl.mapVals (fun _ u =>
      { u with mover := { u.mover with ctx := Tbl.mapVals (fun _ s => if d.cmdJob s.cmd = j then s.noteMark x else s) u.mover.ctx } })
      d.units }

/-- Waits of a command that this change would have met in time, but that were decided before it arrived (R53). -/
def Cmd.tieLate (c : Cmd) (m : Nat) (v : Word) (stamp : Nat) : Nat :=
  b2n (c.to0 && c.w0En && c.met0.isNone && c.waitMark0 = m && markMeets v c.waitVal0 && stamp ≤ c.toAt)
    + b2n (c.to1 && c.w1En && c.met1.isNone && c.waitMark1 = m && markMeets v c.waitVal1 && stamp ≤ c.toAt)
    + (c.lateWaits.filter fun w => w.1 = m && markMeets v w.2.1 && stamp ≤ w.2.2).length

/-- A mark takes a value, stamped (R86). -/
def Dev.setMark (d : Dev) (j m : Nat) (v : Word) (stamp : Nat) : Dev :=
  let late := ((d.cmds.filter fun kc => kc.2.job = j).map fun kc => kc.2.tieLate m v stamp).sum
  let d := d.bumpBy Cat.TIE_LATE_STAMP late
  let x := d.job j
  (d.setJob j { x with marks := Tbl.set x.marks m { value := v, stamp := stamp } }).noteMarks j

/-- A mark rises by `n`, modulo 2^32 (R86). -/
def Dev.incMark (d : Dev) (j m n stamp : Nat) : Dev :=
  d.setMark j m (((d.job j).mark m).value + BitVec.ofNat 32 n) stamp

/-- A mark named by an entry that may hold 0xFFFF for none rises by 1. -/
def Dev.incMarkOpt (d : Dev) (j m stamp : Nat) : Dev := if m = 0xFFFF then d else d.incMark j m 1 stamp

/-! ### Trace records (R467 to R472) -/

/-- A record as 32 bytes; PHASE is the ring's. -/
def TraceRec.bytes (r : TraceRec) (phase : Nat) : List Byte :=
  leBytes 32 (r.stamp % 2 ^ 64 * 2 ^ 192 + r.data1 % 2 ^ 64 * 2 ^ 128 + r.data2 % 2 ^ 32 * 2 ^ 96 + r.ring * 2 ^ 90
    + r.job * 2 ^ 85 + r.unit * 2 ^ 72 + r.engine * 2 ^ 68 + phase * 2 ^ 64 + r.kind * 2 ^ 56 + r.data0 % 2 ^ 56)

/-- Phase of entry `head` of a ring of `n` entries: 1 on the first lap, flipping at each wrap. -/
def ringPhase (head n : Nat) : Nat := 1 - head / n % 2

/-- One record into a job's trace ring, or counted as lost: with TRC_STOP_FULL the last entry written is number TRC_CONSUMED +
ring entries − 1, entries numbered from 0 as TRC_HEAD counts them (R471, R472). -/
def Dev.trcPut1 (d : Dev) (j : Nat) (r : TraceRec) : Dev × Bool :=
  let n := d.cget (Cat.TRC_RING_BYTES j) / 32
  let head := d.cget (Cat.TRC_HEAD j)
  let va := d.cget (Cat.TRC_RING_VA j) + head % n * 32
  if d.cget (Cat.TRC_STOP_FULL j) = 1 && d.cget (Cat.TRC_CONSUMED j) + n ≤ head then (d, false)
  else if (d.xlate j va true).isNone then (d.xfault j va, false)
  else ((d.jwr j va (r.bytes (ringPhase head n))).bump (Cat.TRC_HEAD j), true)

/-- A record to a job's trace ring; a LOST record goes before it when records were lost (R472). -/
def Dev.trcPut (d : Dev) (j : Nat) (r : TraceRec) : Dev :=
  if d.cget (Cat.TRC_RING_BYTES j) = 0 then d
  else
    let lost := (d.job j).trcLost
    let (d, ok) :=
      if lost = 0 then (d, true)
      else
        let (d, ok) := d.trcPut1 j
          { kind := 0x50, stamp := d.stamp, job := j, unit := 0x90, engine := 0xF, ring := 0, data0 := 0,
            data1 := lost, data2 := 0 }
        if ok then (d.setJob j { d.job j with trcLost := 0 }, true) else (d, false)
    let (d, ok) := if ok then d.trcPut1 j r else (d, false)
    if ok then d
    else (d.bump (Cat.TRC_LOST j)).setJob j { d.job j with trcLost := (d.job j).trcLost + 1 }

/-- A record to the device trace ring in host memory (R471); lost when the ring's port is lost. -/
def Dev.trcDev (d : Dev) (r : TraceRec) : Dev :=
  let cfg := leNat (d.bget Cat.TRC_DEV_RING)
  let n := fld cfg 64 32 * 65536 / 32
  if !bit cfg 97 || n = 0 then d
  else
    let p := fld cfg 96 1
    if d.hostLost p then { (d.bump Cat.TRC_DEV_LOST) with devTrcLost := d.devTrcLost + 1 }
    else
      let put (d : Dev) (r : TraceRec) : Dev :=
        let head := d.cget Cat.TRC_DEV_HEAD
        { d with mem := memWrite d.mem (hostCell p (fld cfg 0 64 + head % n * 32)) (r.bytes (ringPhase head n)) }.bump
          Cat.TRC_DEV_HEAD
      let d := if d.devTrcLost = 0 then d
        else put { d with devTrcLost := 0 }
          { kind := 0x50, stamp := d.stamp, job := 0x1F, unit := 0x90, engine := 0xF, ring := 0, data0 := 0,
            data1 := d.devTrcLost, data2 := 0 }
      put d r

/-- A trace record goes where R470 sends it. -/
def Dev.trace (d : Dev) (r : TraceRec) : Dev :=
  let d := (d.emit (.trace r)).trcDev r
  if r.job < 16 then d.trcPut r.job r
  else
    (List.range 16).foldl (fun d j =>
      let x := d.job j
      if (x.st = .running || x.st = .stopping) && d.cget (Cat.TRC_DEVICE_COPY j) = 1 then d.trcPut j r else d) d

/-- An event record with no ring and a whole unit. -/
def Dev.event (d : Dev) (kind job unit data0 data1 data2 : Nat) : Dev :=
  d.trace { kind := kind, stamp := d.stamp, job := job, unit := unit, engine := 0xF, ring := 0, data0 := data0,
            data1 := data1, data2 := data2 }

end Sys2Proof.Machine
end

