-- ==== Sys2Proof/Machine/Keys.lean ====
section
/-! DEFINITION. The keys that the security engine derives (R419, R420). -/

namespace Sys2Proof.Machine

/-- Exactly `n` bytes: cut, or padded with zeros. -/
def fit (n : Nat) (l : List Byte) : List Byte := l.take n ++ List.replicate (n - l.length) 0

/-! ### Firmware images (R403, R405) -/

/-- The header as a number, with its bits as R403 numbers them. -/
def imageHead (i : FwImage) : Nat := leNat (fit 128 i.header)

def imageMagic (i : FwImage) : Nat := fld (imageHead i) 992 32
def imageKind (i : FwImage) : Nat := fld (imageHead i) 984 8
def imageKey (i : FwImage) : Nat := fld (imageHead i) 976 8
def imageSvn (i : FwImage) : Nat := fld (imageHead i) 960 16
def imageRsv (i : FwImage) : Bool := fld (imageHead i) 896 32 ≠ 0 || fld (imageHead i) 0 320 ≠ 0
def imageLen (i : FwImage) : Nat := fld (imageHead i) 832 64
def imageDigest (i : FwImage) : Nat := fld (imageHead i) 320 512

/-- SHAKE256 of the header: the image's measurement. -/
def imageMeasure (i : FwImage) : Nat := leNat (shake256 (fit 128 i.header) 64)

/-- The bytes of an image in a bundle. -/
def imageBytes (i : FwImage) : List Byte := i.header ++ i.body ++ i.sig

def NvStore.bank (n : NvStore) (b : Nat) : List FwImage := if b = 0 then n.bank0 else n.bank1

/-- SVN of the running security firmware: the attestation key pair is derived from it (R408). -/
def Dev.fwSvn (d : Dev) : Nat := match d.nv.bank d.boot.bank with | i :: _ => imageSvn i | [] => 0

/-- The attestation key's signature block over a digest. -/
def Dev.attest (d : Dev) (digest : List Byte) : List Byte := (Config.attestSign d.fwSvn digest).take 1536

/-! ### The keys of a slot (R419) -/

/-- A key of the slot's generation. -/
def KeySlot.genKey (k : KeySlot) (name : String) : List Byte := shake256 (label name ++ leBytes 32 k.root ++ leBytes 4 k.gen) 32

def KeySlot.expKey (k : KeySlot) : List Byte := k.genKey "CX1T-EXP"
def KeySlot.connKey (k : KeySlot) : List Byte := k.genKey "CX1T-CONN"
def KeySlot.catKey (k : KeySlot) : List Byte := k.genKey "CX1T-CAT"

/-- The key of its integrity tags. -/
def intKey (root : Nat) : List Byte := shake256 (label "CX1T-INT" ++ leBytes 32 root ++ identityDigest) 32

/-! ### The keys of a connection (R330, R420) -/

/-- End (a, ca) is lo: the lower identity digest, compared from its first byte on; the lower identifier when they are
equal (log entry 65). -/
def linkLo (a : List Byte) (ca : Nat) (b : List Byte) (cb : Nat) : Bool :=
  beNat a < beNat b || (a = b && ca < cb)

/-- The 72 bytes of keys and salts, from k_conn and the two ends, lo first. -/
def linkBytes (kConn a : List Byte) (ca : Nat) (b : List Byte) (cb gen : Nat) : List Byte :=
  shake256 (label "CX1T-LINK" ++ kConn ++ a ++ leBytes 4 ca ++ b ++ leBytes 4 cb ++ leBytes 4 gen) 72

/-- The key of one direction, `up` from lo to hi. -/
def linkKey (m : List Byte) (up : Bool) : List Byte := (m.drop (if up then 0 else 32)).take 32

/-- The IV of a packet: the direction's salt, 16 zero bits, PN as the header carries it. -/
def linkIv (m : List Byte) (up : Bool) (pn : Nat) : List Byte :=
  (m.drop (if up then 64 else 68)).take 4 ++ [0, 0] ++ beBytes 6 pn

end Sys2Proof.Machine
end

