-- ==== Sys2Proof/Machine/Catalogue.lean ====
section
/-! DEFINITION. The Catalogue's request pipeline (R444 to R452): the checks in their order, rights, answers,
counters, the trace record of a write; sessions (R455, R456). Every command that is a Catalogue write runs
through `catWrite`. -/

namespace Sys2Proof.Machine

/-! ### Answers -/

def stOk : Nat := 0
def stBusy : Nat := 1
def stDenied : Nat := 2
def stNoEntry : Nat := 3
def stBadType : Nat := 4
def stReadOnly : Nat := 5
def stExpert : Nat := 6

/-- What PROT, CHANNEL and MSG_CTR of a header say (R444); `p` is a channel handle and a counter. -/
def protBits (p : Option (Nat × Nat)) : Nat :=
  match p with
  | some (chan, ctr) => 2 ^ 83 + chan % 2 ^ 32 * 2 ^ 192 + ctr % 2 ^ 32 * 2 ^ 224
  | none => 0

/-- The 32-byte header of a response (R444); `p` are its channel and counter, when it is protected. -/
def answerHeader (r : Req) (status busyMs len index field opcode : Nat) (bulk : Bool) (p : Option (Nat × Nat)) : Nat :=
  r.reqId % 2 ^ 32 + r.sess % 2 ^ 32 * 2 ^ 32 + 2 ^ 81 + b2n bulk * 2 ^ 82 + protBits p + opcode * 2 ^ 84
    + status * 2 ^ 88 + r.typ % 256 * 2 ^ 96 + field * 2 ^ 104 + index * 2 ^ 112 + busyMs * 2 ^ 128 + len * 2 ^ 160

/-- The header of a request with `len` bytes of value (R444). -/
def requestHeader (r : Req) (p : Prot) (opcode index field len : Nat) : Nat :=
  r.reqId % 2 ^ 32 + r.sess % 2 ^ 32 * 2 ^ 32 + r.rsv % 2 ^ 17 * 2 ^ 64 + b2n p.bulk * 2 ^ 82 + protBits (some (p.chan, p.ctr))
    + opcode * 2 ^ 84 + r.typ % 256 * 2 ^ 96 + field * 2 ^ 104 + index * 2 ^ 112 + len * 2 ^ 160

/-- The key and the IV of message `ctr` of one direction of a channel (R413, R414). -/
def Chan.key (c : Chan) (toDev : Bool) : List Byte := (c.keys.drop (if toDev then 0 else 32)).take 32

def Chan.iv (c : Chan) (toDev : Bool) (ctr : Nat) : List Byte :=
  (c.keys.drop (if toDev then 64 else 68)).take 4 ++ [0, 0, 0, 0] ++ leBytes 4 ctr

/-- The message is larger than a mailbox page takes (R454). -/
def bulky (t : Transport) (len : Nat) : Bool :=
  match t with
  | .mbox _ _ => 4096 < 32 + len
  | _ => false

/-- The management header before a fragment of a message (R458): `kind` 0 request, 1 response. -/
def mgmtHeader (kind : Nat) (more : Bool) (off total xid : Nat) : Nat :=
  kind * 2 ^ 126 + b2n more * 2 ^ 125 + off % 2 ^ 32 * 2 ^ 64 + total % 2 ^ 32 * 2 ^ 32 + xid % 2 ^ 32

/-- The MGMT packets that carry a response, in their order (R458, R459). -/
def mgmtItems (msg : List Byte) (xid size : Nat) : List TxItem :=
  (List.range ((msg.length + size - 1) / size)).map fun i =>
    let part := (msg.drop (i * size)).take size
    { op := 10, region := 0, step := none, ext := mgmtHeader 1 ((i + 1) * size < msg.length) (i * size) msg.length xid,
      extLen := 16, src := none, own := part, len := part.length, xfer := none }

/-- The response goes back on the request's transport: a mailbox shows it (R453, R454), a connection gets MGMT packets
to send (R459), the management MAC a frame for every 1,024 bytes, and it keeps the response (R462). -/
def Dev.respond (d : Dev) (t : Transport) (sess status : Nat) (msg : List Byte) : Dev :=
  match t with
  | .mgmt c =>
    match Tbl.find? d.net.conns c with
    | none => d
    | some x =>
      let xid := match x.mgmtPart with | some p => p.1 | none => 0
      let x : Conn := { x with queue := x.queue ++ mgmtItems msg xid (max 1 (d.cget Cat.NET_MAELGO_MAX_PAYLOAD)) }
      { d with net := { d.net with conns := Tbl.set d.net.conns c x } }
  | .mbox p m =>
    let h := d.host p
    let b := Tbl.getD h.mboxes m Mailbox.empty
    let d := if msg.length ≤ 4096 then d
      else { d with mem := memWrite d.mem (hostCell p b.bulkAddr) (msg.drop 32) }
    let b := { b with pending := false, done := true, lastStatus := status,
                      rsp := if msg.length ≤ 4096 then msg else msg.take 32 }
    let d := d.setHost p { h with mboxes := Tbl.set h.mboxes m b }
    if b.irqEn then d.raiseMsix p b.vector else d
  | _ =>
    let d : Dev := (d.bumpBy Cat.MGMT_TX_FRAMES (ceilDiv msg.length 1024))
    let d : Dev := { d with mgmt := { d.mgmt with collisions := 0, backoff := none } }
    match Tbl.find? d.mgmt.partials sess, Tbl.find? d.sessions sess with
    | some (src, xid, _), some s => { d with sessions := Tbl.set d.sessions sess { s with cached := some (src, xid) } }
    | _, _ => d

/-- The message that answers a request (R444): under the session's channel when the request was protected, which takes its next
counter; in the clear when it was not, or when the channel is closed (log entry 69). -/
def Dev.answerMsg (d : Dev) (r : Req) (status busyMs : Nat) (value : List Byte) (index field opcode : Nat) : Dev × List Byte :=
  let head := answerHeader r status busyMs value.length index field opcode
  match r.prot, Tbl.find? d.sessions r.sess with
  | some _, some s =>
    match s.chan with
    | some c =>
      let n := c.ctrOut + 1
      let h := leBytes 32 (head (bulky r.transport (value.length + 16)) (some (c.handle, n)))
      let ct := gcmSeal (c.key false) (c.iv false n) h value
      ({ d with sessions := Tbl.set d.sessions r.sess { s with chan := some { c with ctrOut := n } } }, h ++ ct.1 ++ ct.2)
    | none => (d, leBytes 32 (head (bulky r.transport value.length) none) ++ value)
  | _, _ => (d, leBytes 32 (head (bulky r.transport value.length) none) ++ value)

/-- Answer a request: counted, and every answer but OK counted as refused (R445, R463). -/
def Dev.answer (d : Dev) (r : Req) (status busyMs : Nat) (value : List Byte) (index field opcode : Nat) : Dev :=
  let d := d.bump Cat.CAT_REQUESTS
  let d := if status = stOk then d else d.bump Cat.CAT_REFUSED
  let (d, msg) := (d.emit (.answer r.sess r.reqId status busyMs value)).answerMsg r status busyMs value index field opcode
  d.respond r.transport r.sess status msg

/-! ### Sessions and what they hold -/

def Dev.session? (d : Dev) (h : Nat) : Option Session := Tbl.find? d.sessions h

def Dev.setSession (d : Dev) (h : Nat) (s : Session) : Dev := { d with sessions := Tbl.set d.sessions h s }

/-- The session is FREE again: its channel closes, its key slots are released (R456). -/
def Dev.closeSession (d : Dev) (h : Nat) : Dev := { d with sessions := Tbl.erase d.sessions h }

def Dev.closeSessions (d : Dev) (p : Session → Bool) : Dev :=
  { d with sessions := Tbl.keep (fun _ s => !p s) d.sessions }

/-- Key slots that the session's channel holds. -/
def Session.slots (s : Session) : Nat := match s.chan with | some c => c.slots | none => 0

/-- The session holds job `j`'s tenant key (R416). -/
def Dev.holdsKey (d : Dev) (s : Session) (j : Nat) : Bool :=
  let k := (d.job j).keySlot
  k < 64 && bit s.slots k

/-- The channel of a session closes (R414); SESS_LEVEL goes unless the owner role remains (R456). -/
def Session.dropChan (s : Session) : Session := { s with chan := none, level := if s.owner then s.level else 0 }

/-- The management MAC's medium: true for the rack bus (R460). -/
def Dev.onBus (d : Dev) : Bool := d.released && d.cget Cat.MGMT_PORT_SEL = 0

/-- A request on this transport reaches the Catalogue (R432, R460, R482, R483). -/
def Dev.transportUp (d : Dev) (t : Transport) : Bool :=
  match t with
  | .mbox p _ => d.released && !d.hostLost p
  | .mgmt _ => d.released
  | .bus => d.onBus
  | .service => !d.onBus && 1 ≤ d.boot.step

/-! ### Checks (R445) -/

/-- The job slot of an entry, if it carries one. -/
def CatEntry.jobOf (e : CatEntry) (index : Nat) : Option Nat :=
  match e.scope with
  | .job => some (index - e.base)
  | .ring => some ((index - e.base) / 64)
  | _ => none

/-- Milliseconds that BUSY announces: an estimate of the device's own, at least 1 (R452). -/
def Dev.busyMs (d : Dev) : Nat := max 1 (d.free 0 % 2 ^ 32)

/-- What recovery mode lets through (R484). -/
def recoveryAllows (write : Bool) (index field : Nat) : Bool :=
  if write then (index = 0xA010 && field = 5) || (index = 0x7020 && field = 0)
  else (0x1000 ≤ index && index < 0x2000) || (0x7000 ≤ index && index < 0x8000) || (index = 0xA010 && field = 4)

/-- The tag of a protected request with plaintext `v` verifies under the channel (R414). -/
def Chan.verifies (c : Chan) (r : Req) (p : Prot) (opcode index field : Nat) (v : List Byte) : Bool :=
  (gcmSeal (c.key true) (c.iv true p.ctr) (leBytes 32 (requestHeader r p opcode index field v.length)) v).2 = p.tag

/-- Check 3 of R445: a protected request takes its counter, or closes the channel (R414). -/
def Dev.checkProt (d : Dev) (r : Req) (s : Session) (opcode index field : Nat) (v : List Byte) : Dev × Bool :=
  match r.prot with
  | none => (d, true)
  | some p =>
    match s.chan with
    | none => (d, false)
    | some c =>
      if p.chan = c.handle && p.ctr = c.ctr + 1 && c.verifies r p opcode index field v then
        (d.setSession r.sess { s with chan := some { c with ctr := p.ctr } }, true)
      else ((d.setSession r.sess s.dropChan).bump Cat.SEC_SESSION_FAIL, false)

def Dev.idleUnits (d : Dev) : Nat := d.cget Cat.SESS_IDLE_TIMEOUT * 8000000

/-- A session's idle period runs from the acceptance of a request, unless the request is stamped after the period's end: that
one comes too late to keep the session (R52, R456). -/
def Dev.touch (d : Dev) (s : Session) (at_ : Nat) : Session :=
  if s.lastAct + d.idleUnits < at_ then s else { s with lastAct := d.now }

/-- A request names a session that an idle timeout has closed: counted if it is stamped in time (R53). -/
def Dev.noSession (d : Dev) (r : Req) : Dev :=
  match Tbl.find? d.expired r.sess with
  | some t => if r.at_ ≤ t then d.bump Cat.TIE_LATE_STAMP else d
  | none => d

/-- Checks 1 to 5 for an entry, of a request in session `s`: the first failing answer, and the device with the session kept and
the message counter taken. `none` as a status means that all hold. -/
def Dev.checkSession (d : Dev) (r : Req) (s : Session) (write : Bool) (index field : Nat) (v : List Byte) : Dev × Option Nat :=
  let d := d.setSession r.sess s
  if d.long.isSome then (d, some stBusy)
  else if r.rsv ≠ 0 || r.typ = 0 || 13 < r.typ || s.transport ≠ r.transport then (d, some stBadType)
  else if d.boot.recovery && !recoveryAllows write index field then (d, some stDenied)
  else
    let (d, protOk) := d.checkProt r s (b2n write) index field v
    if !protOk then (d, some stDenied)
    else
      match catEntry index field with
      | none => (d, some stNoEntry)
      | some e =>
        let seen := match e.jobOf index with
          | none => true
          | some j => s.owner || d.holdsKey s j
        if !seen then (d, some stDenied)
        else if r.typ ≠ e.ty.code then (d, some stBadType)
        else (d, none)

/-- The same of the session that the request names, its period restarted. -/
def Dev.checkHead (d : Dev) (r : Req) (write : Bool) (index field : Nat) (v : List Byte) : Dev × Option Nat :=
  match d.session? r.sess with
  | none => (d.noSession r, some (if d.long.isSome then stBusy else stBadType))
  | some s => d.checkSession r (d.touch s r.at_) write index field v

/-- Who may write beyond the table of R446: an entry's own rule decides. -/
inductive Writer where
  /-- the table of R446 -/
  | byTable
  /-- any session (R446, last list; R457) -/
  | anyone
  /-- only the job's tenant key (R423, R424, R463) -/
  | tenantOnly
  /-- any session, but only as a protected request (R414 to R417) -/
  | anyProtected
  /-- a session whose channel holds this key slot, as a protected request, or the owner role (R418) -/
  | slotOrOwner (k : Nat)
  /-- the owner role, or a channel that holds a key slot (R448) -/
  | levelKeeper
deriving DecidableEq, Repr

/-- Entries reserved to the tenant key (R423, R424, R463). -/
def tenantReserved (index field : Nat) : Bool :=
  (0x7100 ≤ index && index ≤ 0x710F && (field = 1 || field = 2 || field = 3)) ||
  (0x3100 ≤ index && index ≤ 0x310F && field = 0x2A)

/-- The idleness that write-when-idle asks for (R446). -/
def Dev.idleFor (d : Dev) (index : Nat) (job : Option Nat) : Bool :=
  match job with
  | some j => (d.job j).isStopped
  | none =>
    if 0x5000 ≤ index && index ≤ 0x5FFF then d.tt.st ≠ .running
    else !d.jobs.any fun kj => kj.2.st = .running || kj.2.st = .stopping

/-- Check 7: the rights of R446. -/
def Dev.mayWrite (d : Dev) (s : Session) (r : Req) (e : CatEntry) (index field : Nat) (w : Writer) : Bool :=
  let job := e.jobOf index
  let tenant := match job with | some j => d.holdsKey s j && r.prot.isSome | none => false
  let base :=
    match w with
    | .anyone => true
    | .anyProtected => r.prot.isSome
    | .tenantOnly => tenant
    | .levelKeeper => s.owner || s.slots ≠ 0
    | .slotOrOwner k => s.owner || (k < 64 && bit s.slots k && r.prot.isSome)
    | .byTable =>
      match e.acc with
      | .read => false
      | .ownerOnly => s.owner
      | _ =>
        match e.scope with
        | .session => true
        | .device => s.owner
        | _ => tenant || (s.owner && !tenantReserved index field)
  let idle :=
    if e.acc = .whenIdle || (0x1010 ≤ index && index ≤ 0x1011 && field = 6) || (index = 0x4800 && field = 0x0D) then
      d.idleFor index job
    else true
  base && idle

/-- A value of the entry's type and range (R443, R445 check 9). -/
def CatEntry.valueOk (e : CatEntry) (v : List Byte) : Bool :=
  if e.ty = .blob then true
  else if e.ty = .string then v.length ≤ 255
  else
    v.length = e.ty.bytes &&
      (let n := leNat v
       (e.lo ≤ n && n ≤ e.hi && n % e.align = 0) || e.alt = some n)

/-- Write-once entries that have been written (R446). -/
def Dev.onceWritten (d : Dev) (e : CatEntry) : Bool := e.acc = .writeOnce && !d.nv.ownerKey.isEmpty

/-- The CAT_WRITE trace record (R447, R469) of a value of `len` bytes, stamped at acceptance. -/
def Dev.catTraceLen (d : Dev) (r : Req) (job : Option Nat) (index field : Nat) (v : List Byte) (len : Nat) : Dev :=
  d.event 0x20 (job.getD 0x1F) 0x90 (r.sess % 2 ^ 32 * 2 ^ 24 + min len (2 ^ 24 - 1)) (leNat (v.take 8))
    (index * 2 ^ 16 + field * 2 ^ 8 + r.typ)

def Dev.catTrace (d : Dev) (r : Req) (job : Option Nat) (index field : Nat) (v : List Byte) : Dev :=
  d.catTraceLen r job index field v v.length

/-- What a write does once it has passed: the device after it, its STATUS, and whether it is a long operation
whose answer comes at its end (R451). -/
structure WriteResult where
  dev : Dev
  status : Nat
  long : Bool := false

/-- A Catalogue WRITE (R445): the checks in order, then `eff`, then the answer and the trace record. `own` adds the
entry's own check of the value (check 9). -/
def catWrite (r : Req) (index field : Nat) (v : List Byte) (w : Writer) (own : Dev → Bool) (eff : Dev → WriteResult)
    (d : Dev) : Dev :=
  let d := d.advance r.at_
  if !d.transportUp r.transport then d
  else
    let busy := d.busyMs
    let (d, st) := d.checkHead r true index field v
    match st with
    | some st =>
      if st = stBusy then (d.takeN 1).answer r st busy [] index field 1 else d.answer r st 0 [] index field 1
    | none =>
      match d.session? r.sess, catEntry index field with
      | some s, some e =>
        if e.acc = .read || d.onceWritten e then d.answer r stReadOnly 0 [] index field 1
        else if !d.mayWrite s r e index field w then d.answer r stDenied 0 [] index field 1
        else if e.expert && s.level = 0 then d.answer r stExpert 0 [] index field 1
        else if !(e.valueOk v && own d) then d.answer r stBadType 0 [] index field 1
        else
          let res := eff d
          if res.long then res.dev
          else
            let d := res.dev
            let d := if res.status = stOk then d.catTrace r (e.jobOf index) index field v else d
            d.answer r res.status 0 [] index field 1
      | _, _ => d

/-- An effect that always ends OK. -/
def okWith (f : Dev → Dev) : Dev → WriteResult := fun d => ⟨f d, stOk, false⟩

/-- An effect that is refused. -/
def refuse (d : Dev) (status : Nat) : WriteResult := ⟨d, status, false⟩

/-- Start a long operation (R451): its answer comes with LONG_OPERATION_END. -/
def Dev.startLong (d : Dev) (r : Req) (index field : Nat) (v : List Byte) (job : Option Nat) (k : LongKind)
    (len : Nat := v.length) : WriteResult :=
  let d := { d with long := some { kind := k, index := index, field := field, sess := r.sess, reqId := r.reqId,
                                   transport := r.transport, typ := r.typ, prot := r.prot.isSome, started := d.now } }
  ⟨d.catTraceLen r job index field v len, stOk, true⟩

end Sys2Proof.Machine
end

