-- ==== Sys2Proof/Machine/Timetable.lean ====
section
/-! DEFINITION. The timetable: its image, slot arithmetic, slot and timetable states, resynchronisation
(R37 to R61, R498, R499). -/

namespace Sys2Proof.Machine

/-! ### The image (R40, R41) -/

/-- A slot entry, if every field is in range and every reserved bit is zero. -/
def parseSlot (n : Nat) : Option SlotDef :=
  let len := fld n 96 32
  let firm := fld n 64 32
  let phase := fld n 56 3
  if 80000 ≤ len && firm ≤ len && phase ≤ 5 && fld n 59 5 = 0 && fld n 49 7 = 0 && fld n 0 48 = 0 then
    some { len := len, firm := firm, phase := phase, slackOpen := bit n 48 }
  else none

/-- `n` records of `size` bytes each. -/
def records (size : Nat) (l : List Byte) : Nat → List Nat
  | 0 => []
  | n + 1 => leNat (l.take size) :: records size (l.drop size) n

/-- The slot range of a stage entry: first slot and count. -/
def parseStage (n : Nat) : Option (Nat × Nat) :=
  let first := fld n 32 20
  let count := fld n 0 16
  if fld n 52 12 = 0 && fld n 16 16 = 0 && 1 ≤ count && count ≤ 4096 then some (first, count) else none

/-- Stage slot ranges that do not overlap. -/
def rangesDisjoint : List (Nat × Nat) → Bool
  | [] => true
  | (f, c) :: t => t.all (fun g => f + c ≤ g.1 || g.1 + g.2 ≤ f) && rangesDisjoint t

/-- The image, when no case of R41 holds. -/
def parseImage (b : List Byte) : Option TtImage :=
  let h := leNat (b.take 16)
  let stages := fld h 104 8
  let entries := fld h 64 32
  let p := fld h 0 40
  if b.length < 16 || fld h 112 16 ≠ 1 || fld h 96 8 ≠ 0 || fld h 40 24 ≠ 0 || stages = 0 || 64 < stages
      || entries = 0 || 32768 < entries || p < 80000 || 480000000000 < p
      || b.length ≠ 16 + 8 * stages + 16 * entries then none
  else
    match (records 8 (b.drop 16) stages).mapM parseStage,
          (records 16 (b.drop (16 + 8 * stages)) entries).mapM parseSlot with
    | some ranges, some slots =>
      let lists := ranges.map fun r => (slots.drop r.1).take r.2
      if ranges.all (fun r => r.1 + r.2 ≤ entries) && rangesDisjoint ranges
          && lists.all (fun l => (l.map (·.len)).sum = p) then
        some { stepLen := p, stages := lists, bytes := b }
      else none
    | _, _ => none

/-- TT_DIGEST (R43): 32 bytes. -/
def TtImage.digest (i : TtImage) : Nat := beNat (shake256 i.bytes 32)

/-! ### Slot arithmetic (R44, R45) -/

/-- The slot list of the module's stage. -/
def Dev.slots (d : Dev) : List SlotDef :=
  match d.tt.image with
  | some i => (i.stages[d.cget Cat.TT_STAGE]?).getD []
  | none => []

def Dev.stepLen (d : Dev) : Nat := match d.tt.image with | some i => i.stepLen | none => 0

def Dev.slotDef (d : Dev) (j : Nat) : SlotDef :=
  ((d.slots)[j]?).getD { len := 0, firm := 0, phase := 5, slackOpen := false }

/-- S(n): nominal start of step n. -/
def Dev.stepStart (d : Dev) (n : Nat) : Nat := d.tt.epoch + (n - d.tt.firstStep) * d.stepLen

/-- N(n, j): nominal start of slot j of step n. -/
def Dev.slotNominal (d : Dev) (n j : Nat) : Nat := d.stepStart n + ((d.slots.take j).map (·.len)).sum

/-- The planned end of the current slot: A(j) + F(j) + K′(j). -/
def Dev.plannedEnd (d : Dev) : Nat :=
  let s := d.slotDef d.tt.slot
  d.tt.slotStart + s.firm + ((s.len - s.firm) - d.tt.slackCut)

/-- A(j) + F(j) of the current slot. -/
def Dev.firmPartEnd (d : Dev) : Nat := d.tt.slotStart + (d.slotDef d.tt.slot).firm

/-! ### Firm work and filler (R42, R45, R61) -/

/-- The step and slot after the current one. -/
def Dev.nextSlot (d : Dev) : Nat × Nat :=
  if d.tt.slot + 1 < d.slots.length then (d.tt.step, d.tt.slot + 1) else (d.tt.step + 1, 0)

/-- The step and slot that firm work released now counts for: the current one, or the one that WAITS for its start (R45,
R61). -/
def Dev.firmSlot (d : Dev) : Nat × Nat := if d.tt.slotSt = .waiting then d.nextSlot else (d.tt.step, d.tt.slot)

/-- A firm command released in the current slot is not retired: it is READY in an ACTIVE ring of a RUNNING job, or
dispatched (R45: C(j)). -/
def Dev.firmRunning (d : Dev) : Bool :=
  d.cmds.any fun kc => kc.2.firm && kc.2.step = d.tt.step && kc.2.slot = d.tt.slot &&
    ((kc.2.st = .ready && (d.job kc.2.job).st = .running && (d.ring kc.2.job kc.2.ring).st = .active)
      || kc.2.st = .running || kc.2.st = .parked || kc.2.st = .halted || kc.2.st = .retiring)

/-- A fetched command of the anchor job has its release position in the current slot and is not released. A command of the
slot that is not fetched yet is not seen: the model's choice (log entry 63). -/
def Dev.firmPending (d : Dev) : Bool :=
  d.cmds.any fun kc => kc.2.job = d.anchor && kc.2.timed && kc.2.posStep = d.tt.step && kc.2.posSlot = d.tt.slot &&
    (kc.2.st = .fetched || kc.2.st = .waiting)

/-- Filler may run (condition 4 of R89; R61). -/
def Dev.fillerOk (d : Dev) : Bool :=
  if d.tt.st ≠ .running then true
  else
    match d.tt.slotSt with
    | .waiting => d.tt.prevSlackOpen
    | .firm => (d.slotDef d.tt.slot).slackOpen && !d.firmRunning && !d.firmPending
    | .slack => (d.slotDef d.tt.slot).slackOpen
    | _ => false

/-- A command of a job other than the anchor job is filler while a timetable runs. -/
def Dev.isFiller (d : Dev) (c : Cmd) : Bool := c.job ≠ d.anchor

/-- The status of a command only rises; DETAIL goes with the status that the record carries (R95, R96). -/
def Cmd.raise (c : Cmd) (status detail : Nat) : Cmd :=
  if c.status < status then { c with status := status, detail := detail } else c

/-- A command parked while its job stops is preempted-at-boundary, with the units on which it did not run; its own work has
ended once none of its units runs (R74, R93). -/
def Cmd.preempted (c : Cmd) : Cmd :=
  let mask := (if bit c.desc 507 then c.unitsLeft / 2 ^ 64 else c.unitsLeft) % 2 ^ 64
  { c.raise 0x04 mask with unitsLeft := 0, st := if c.unitsOn = 0 then .retiring else .running,
                           done := c.done || c.unitsOn = 0 }

/-- No further filler is dispatched; filler compute commands that wait for units are parked (R51, R93), and those of a job
that is STOPPING retire for it (R74). -/
def Dev.parkFiller (d : Dev) : Dev :=
  let parks (c : Cmd) : Bool := d.isFiller c && c.st = .running && c.cls = 0 && c.unitsLeft ≠ 0
  let n := (d.cmds.filter fun kc => parks kc.2).length
  { d with cmds := Tbl.mapVals (fun _ c =>
      if parks c then (if (d.job c.job).st = JobState.stopping then c.preempted else { c with st := .parked }) else c) d.cmds }.bumpBy
    Cat.CP_FILLER_PARKED n

/-! ### States -/

/-- From RUNNING to HELD (R58). -/
def Dev.ttHold (d : Dev) (why : HeldCause) : Dev :=
  if d.tt.st = .running then { d with tt := { d.tt with st := .held, heldBy := why } } else d

/-- From HELD to ARMED, rejoining (R59); counted (R60). -/
def Dev.ttArmRejoin (d : Dev) : Dev :=
  let d := d.bump Cat.TT_REJOIN
  let d := if d.tt.heldBy = .selfRejoin then d.bump Cat.TT_SELF_REJOIN else d
  { d with tt := { d.tt with st := .armed, rejoin := true, armedAt := d.now, pendingResume := false, heldBy := .none, peers := [] } }

/-- A module in HELD rejoins by itself when its conditions hold (R57, R60, R499). -/
def Dev.tryRejoin (d : Dev) : Dev :=
  if d.tt.st = .held && d.tb.st = .locked &&
      (d.tt.pendingResume || d.tt.heldBy = .selfRejoin ||
        (d.tt.heldBy = .timebase && d.cget Cat.TT_AUTO_REJOIN = 1)) then
    d.ttArmRejoin
  else d

/-- A resynchronisation request of m steps (R54). -/
def Dev.raiseResync (d : Dev) (lag : Nat) : Dev :=
  let t := d.cget Cat.TT_LOST_STEP_THRESH
  let thresh := if t = 0 then (d.slots.map fun s => s.len - s.firm).sum else t
  if lag ≤ thresh then d
  else
    let m := ceilDiv (lag + d.cget Cat.TT_RESYNC_GUARD) (max 1 d.stepLen)
    -- a larger request that no vote can carry any more with the one it replaces waits for the next vote
    if d.tt.reqM = 0 || (d.tt.reqM < m && d.tt.reqCarried) then
      { d with tt := { d.tt with reqM := m, reqStep := d.tt.step, reqCarried := false } }
    else if d.tt.reqM < m then { d with tt := { d.tt with reqM := m } }
    else d

/-- Slot `j` of step `n` starts at A(j) = `a`: lag, slack reduction, counters, the SLOT_LAG record (R45, R48),
filler preempted (R49), the request of R54. PACE follows at the end of the command (R374). -/
def Dev.startSlot (d : Dev) (n j a : Nat) : Dev :=
  let d := d.advance a
  let lag := a - d.slotNominal n j
  let s := d.slotDef j
  let r := min (d.cget Cat.TT_CATCHUP_FRAC * (s.len - s.firm) / 100) lag
  let ended := if j = 0 && n = d.tt.step + 1 then d.tt.ended ++ [(d.tt.step, a)] else d.tt.ended
  let d := { d with tt := { d.tt with
    ended := ended, step := n, slot := j, slotSt := .firm, slotStart := a, lag := lag, slackCut := r, lastFirmEnd := a,
    firmDone := false, paceTook := d.tt.paceLag, paceLag := 0, justStarted := true } }
  let d := d.parkFiller
  let d := if d.cget Cat.TT_LAG_MAX < lag then d.cset Cat.TT_LAG_MAX lag else d
  let d := if lag = 0 then d
    else d.trace { kind := 0x10, stamp := a / 8 * 8, job := 0x1F, unit := 0x91, engine := 0xF, ring := 0,
                   data0 := j * 2 ^ 40 + d.cget Cat.TT_STAGE * 2 ^ 32 + r % 2 ^ 32, data1 := lag, data2 := n }
  d.raiseResync lag

/-- The epoch moves by m* steps at the boundary that ends step `n` (R55, R56). -/
def Dev.moveEpoch (d : Dev) (n m : Nat) : Dev :=
  if m = 0 then d
  else
    let old := d.tt.epoch
    let new := old + m * d.stepLen
    let d := { d with tt := { d.tt with epoch := new } }
    let d := (d.bumpBy Cat.TT_LOST_STEPS m).bump Cat.TT_RESYNC
    let d := d.event 0x12 0x1F 0x91 (m % 2 ^ 16) new n
    d.event 0x13 0x1F 0x91 0 old 0

/-- The boundary that ends step `n`: recorded epoch moves, the request that a vote carried is spent, a request
that no vote carried forces a rejoin (R57), the last step holds (R39). -/
def Dev.stepEnds (d : Dev) (n : Nat) : Dev :=
  let m := ((d.tt.moves.filter fun p => p.1 = n).map (·.2)).sum
  let d := d.moveEpoch n m
  let d := { d with tt := { d.tt with moves := d.tt.moves.filter fun p => n < p.1 } }
  let d := if d.tt.reqCarried && d.tt.reqM ≠ 0 && d.tt.reqStep ≤ n then
      { d with tt := { d.tt with reqM := 0, reqCarried := false } } else d
  if n = d.cget Cat.TT_LAST_STEP then d.ttHold .lastStep
  else if d.tt.reqM ≠ 0 && !d.tt.reqCarried && d.tt.reqStep + 1 ≤ n then
    ({ d with tt := { d.tt with reqM := 0 } }.ttHold .selfRejoin).tryRejoin
  else d

/-- A(j+1) before it is reached: the actual end, the nominal start, and a pace notice's lag (R45, R47). -/
def Dev.nextStart (d : Dev) (actualEnd : Nat) : Nat :=
  let (n, j) := d.nextSlot
  max actualEnd (d.slotNominal n j + d.tt.paceLag)

/-- The current slot is CLOSED at `t`: the boundary if the step ends, then the next slot at once, or WAITING. -/
def Dev.closeSlot (d : Dev) (t : Nat) : Dev :=
  let d := d.advance t
  let s := d.slotDef d.tt.slot
  let d := { d with tt := { d.tt with
    slotSt := .closed, prevSlackOpen := s.slackOpen, prevOverrun := d.firmPartEnd < d.tt.lastFirmEnd,
    past := (d.tt.step, d.tt.slot, d.tt.slotStart, t) :: d.tt.past } }
  let d := if d.tt.slot + 1 < d.slots.length then d
    else
      let d' := d.stepEnds d.tt.step
      if d'.tt.st = .running then d' else { d' with tt := { d'.tt with ended := d'.tt.ended ++ [(d.tt.step, t)] } }
  if d.tt.st ≠ .running then d
  else
    let a := d.nextStart t
    let (n, j) := d.nextSlot
    if a ≤ t then d.startSlot n j t
    else { d with tt := { d.tt with slotSt := .waiting, lastFirmEnd := t } }

/-- The instant of a position in a slot that has closed in this run: A(j) + OFFSET, or the slot's actual end (R49). -/
def Dev.pastInstant (d : Dev) (step slot off : Nat) : Option Nat :=
  (d.tt.past.find? fun p => p.1 = step && p.2.1 = slot).map fun p => min (p.2.2.1 + off) p.2.2.2

/-- The collective close instant of a position (R49): none while it lies ahead, and while no timetable runs. A position
before every slot that closed in this run passed as the timetable entered RUNNING, at the latest (R38). -/
def Dev.closeInstant (d : Dev) (step slot off : Nat) : Option Nat :=
  match d.pastInstant step slot off with
  | some t => some t
  | none =>
    if d.tt.st ≠ .running then none
    else if d.tt.step = step && d.tt.slot = slot then
      (if d.tt.slotStart + off ≤ d.now then some (d.tt.slotStart + off) else none)
    else if step < d.tt.step || (step = d.tt.step && slot < d.tt.slot) then some d.tt.runStart
    else none

/-- Every member that the module is told of has said the same digest, epoch and first step (R43). -/
def Dev.ttConns (d : Dev) : List Nat :=
  let b := d.bget Cat.NET_TTSYNC_CONNS
  records 4 b (b.length / 4)

/-- A member that names this digest, epoch and first step. -/
def Dev.ttSame (d : Dev) (p : TtPeer) : Bool :=
  match d.tt.image with
  | some i => p.digest = i.digest && p.epoch = d.cget Cat.TT_EPOCH && p.firstStep = d.cget Cat.TT_FIRST_STEP
  | none => false

def Dev.ttPeersAgree (d : Dev) : Bool :=
  d.ttConns.all fun c => match Tbl.find? d.tt.peers c with | some p => d.ttSame p | none => false

/-- ARMED to RUNNING at S(n0), with agreement and lock (R43, R58). -/
def execTtRunStartD (d : Dev) : Dev :=
  if d.tt.st ≠ .armed || d.tt.rejoin || d.tb.st ≠ .locked || !d.ttPeersAgree then d
  else
    let n0 := d.cget Cat.TT_FIRST_STEP
    let d := { d with tt := { d.tt with
      st := .running, epoch := d.cget Cat.TT_EPOCH, firstStep := n0, step := n0, slot := 0, paceLag := 0,
      reqM := 0, reqCarried := false, moves := [], prevOverrun := false, prevSlackOpen := false, past := [] } }
    let a := max d.now (d.stepStart n0)
    { d with tt := { d.tt with runStart := a } }.startSlot n0 0 a

/-- The epoch and step that a rejoining module takes (R59, R355): of the RUNNING member of its own digest that spoke last. -/
def Dev.domainPlace (d : Dev) : Nat × Nat :=
  let digest := match d.tt.image with | some i => i.digest | none => 0
  (d.tt.peers.foldl (fun (best : Nat × Nat × Nat) kp =>
    if kp.2.state = 3 && kp.2.digest = digest && best.1 ≤ kp.2.stamp then (kp.2.stamp, kp.2.curEpoch, kp.2.curStep)
    else best) (0, d.tt.epoch, d.cget Cat.TT_FIRST_STEP)).2

def Dev.domainEpoch (d : Dev) : Nat := d.domainPlace.1

/-- The step that the domain is in: the rejoin comes at a later one, or at the first. -/
def Dev.domainStep (d : Dev) : Nat := d.domainPlace.2

/-- ARMED after HELD enters RUNNING at A(0) of the first step whose nominal start lies at least
TT_RESYNC_NOTICE after it became ARMED and has not passed, or returns to HELD beyond the last step (R59). -/
def execTtRejoinD (d : Dev) : Dev :=
  if d.tt.st ≠ .armed || !d.tt.rejoin || d.tb.st ≠ .locked || !d.ttPeersAgree then d
  else
    let n0 := d.cget Cat.TT_FIRST_STEP
    let e := d.domainEpoch
    let n := max d.domainStep
      (n0 + ceilDiv (max d.now (d.tt.armedAt + d.cget Cat.TT_RESYNC_NOTICE) - e) (max 1 d.stepLen))
    if d.cget Cat.TT_LAST_STEP < n then
      { d with tt := { d.tt with st := .held, heldBy := .lastStep, rejoin := false } }
    else
      let d := { d with tt := { d.tt with
        st := .running, rejoin := false, epoch := e, firstStep := n0, step := n, slot := 0, paceLag := 0, moves := [],
        reqM := 0, reqCarried := false, prevOverrun := false, prevSlackOpen := false,
        past := d.tt.past.filter fun p => p.1 < n } }
      let a := max d.now (d.stepStart n)
      { d with tt := { d.tt with runStart := a } }.startSlot n 0 a

/-- WAITING to FIRM when the time reaches A(j) (R61). -/
def execSlotStartD (d : Dev) : Dev :=
  if d.tt.st ≠ .running || d.tt.slotSt ≠ .waiting then d
  else
    let (n, j) := d.nextSlot
    let a := max d.now (d.nextStart d.tt.lastFirmEnd)
    d.startSlot n j a

/-- The time reaches A(j) + F(j): SLACK, or OVERRUN with firm work running (R48, R61). -/
def execFirmEndD (d : Dev) : Dev :=
  if d.tt.st ≠ .running || d.tt.slotSt ≠ .firm then d
  else
    let d := d.advance d.firmPartEnd
    if d.firmRunning then
      { d with tt := { d.tt with slotSt := .overrun, firmDone := true } }.bump Cat.TT_FIRM_OVERRUN
    else { d with tt := { d.tt with slotSt := .slack } }

/-- The planned end: CLOSED with no firm work running, else LATE; filler is preempted (R48, R49, R61). -/
def execSlotPlannedEndD (d : Dev) : Dev :=
  if d.tt.st ≠ .running || !(d.tt.slotSt = .slack || d.tt.slotSt = .overrun) then d
  else
    let t := max d.now d.plannedEnd
    let d := (d.advance t).parkFiller
    if d.firmRunning then { d with tt := { d.tt with slotSt := .late } }.bump Cat.TT_LATE_SLOT
    else d.closeSlot t

/-- A firm command of the current slot has retired at `t` (R45, R48, R61). -/
def Dev.slotOnRetire (d : Dev) (c : Cmd) (t : Nat) : Dev :=
  if d.tt.st ≠ .running || !c.firm || c.step ≠ d.tt.step || c.slot ≠ d.tt.slot then d
  else
    let d := { d with tt := { d.tt with lastFirmEnd := max d.tt.lastFirmEnd t } }
    let d := if d.firmPartEnd < t && !d.tt.firmDone then
        { d with tt := { d.tt with firmDone := true } }.bump Cat.TT_FIRM_OVERRUN else d
    if d.firmRunning then d
    else
      match d.tt.slotSt with
      | .overrun => if t < d.plannedEnd then { d with tt := { d.tt with slotSt := .slack } } else d
      | .late => d.closeSlot t
      | _ => d

/-- The firm work that holds the current slot OVERRUN or LATE is gone without retiring: its ring or job has stopped. -/
def Dev.firmGone (d : Dev) : Bool :=
  d.tt.st = .running && (d.tt.slotSt = .late || (d.tt.slotSt = .overrun && d.now < d.plannedEnd)) && !d.firmRunning

/-- The slot goes on when nothing firm holds it any more (R45, R61). -/
def Dev.settleFirm (d : Dev) : Dev :=
  if !d.firmGone then d
  else if d.tt.slotSt = .late then d.closeSlot d.now
  else { d with tt := { d.tt with slotSt := .slack } }

/-! ### Entries that arm the timetable (R39, R498) -/

/-- Stage, epoch, first step and anchor job have all been written. -/
def Timetable.allWritten (t : Timetable) : Bool := t.wrStage && t.wrEpoch && t.wrFirst && t.wrAnchor

def Dev.stageOk (d : Dev) : Bool :=
  match d.tt.image with
  | some i => d.cget Cat.TT_STAGE < i.stages.length
  | none => false

def Dev.lastOk (d : Dev) : Bool := d.cget Cat.TT_FIRST_STEP ≤ d.cget Cat.TT_LAST_STEP

/-- LOADED to ARMED as soon as R498 holds: a fresh start. -/
def Dev.tryArm (d : Dev) : Dev :=
  if d.tt.st = .loaded && d.tt.allWritten && d.stageOk && d.lastOk then
    { d with tt := { d.tt with st := .armed, rejoin := false, armedAt := d.now, peers := [],
                               epoch := d.cget Cat.TT_EPOCH, firstStep := d.cget Cat.TT_FIRST_STEP } }
  else d

/-- What a write of an entry of R498 can break: the stage, the order of the steps, or nothing of its own. -/
inductive TtEntry where
  | stage
  | steps
  | plain
deriving DecidableEq, Repr

/-- A write of an entry of R498: `f` takes the value. With the first condition true after it, it is refused when it is the
stage's and the stage is not in the image, when it is a step's and the steps contradict, or when it would complete the
conditions but for steps that contradict (R39, R498). -/
def ttEntryWrite (f : Dev → Dev) (e : TtEntry) (d : Dev) : WriteResult :=
  let d' := f d
  if d.tt.image.isSome && d'.tt.allWritten
      && ((e = .stage && !d'.stageOk) || ((e = .steps || d'.stageOk) && !d'.lastOk)) then
    refuse (d.bump Cat.TT_LOAD_REJECT) stBadType
  else ⟨d'.tryArm, stOk, false⟩

def execTtTableD (r : Req) (img : List Byte) : Dev → Dev :=
  catWrite r 0x5011 0x00 img .byTable (fun _ => true) fun d =>
    match parseImage img with
    | none => refuse (d.bump Cat.TT_LOAD_REJECT) stBadType
    | some i =>
      let d := { d with tt := { d.tt with
        st := .loaded, image := some i, pendingResume := false, rejoin := false, heldBy := .none, peers := [] } }
      if d.tt.allWritten && d.stageOk && !d.lastOk then ⟨d.bump Cat.TT_LOAD_REJECT, stBadType, false⟩
      else ⟨d.tryArm, stOk, false⟩

def execTtStageD (r : Req) (v : Nat) : Dev → Dev :=
  catWrite r 0x5011 0x01 (leBytes 1 v) .byTable (fun _ => v < 256)
    (ttEntryWrite (fun d => { d.cset Cat.TT_STAGE v with tt := { d.tt with wrStage := true } }) .stage)

def execTtEpochD (r : Req) (v : Nat) : Dev → Dev :=
  catWrite r 0x5011 0x03 (leBytes 8 v) .byTable (fun _ => v < 2 ^ 64)
    (ttEntryWrite (fun d => { d.cset Cat.TT_EPOCH v with tt := { d.tt with wrEpoch := true } }) .plain)

def execTtFirstStepD (r : Req) (v : Nat) : Dev → Dev :=
  catWrite r 0x5011 0x04 (leBytes 4 v) .byTable (fun _ => v < 2 ^ 32)
    (ttEntryWrite (fun d => { d.cset Cat.TT_FIRST_STEP v with tt := { d.tt with wrFirst := true } }) .steps)

def execTtAnchorJobD (r : Req) (v : Nat) : Dev → Dev :=
  catWrite r 0x5011 0x05 (leBytes 1 v) .byTable (fun _ => v < 256)
    (ttEntryWrite (fun d => { d.cset Cat.TT_ANCHOR_JOB v with tt := { d.tt with wrAnchor := true } }) .plain)

def execTtLastStepD (r : Req) (v : Nat) : Dev → Dev :=
  catWrite r 0x5011 0x06 (leBytes 4 v) .byTable (fun _ => v < 2 ^ 32)
    (ttEntryWrite (fun d => d.cset Cat.TT_LAST_STEP v) .steps)

/-- TT_CONTROL (R499): `v` is the command, `f` answers none where R58 lists no transition. -/
def ttControl (r : Req) (v : Nat) (f : Dev → Option Dev) : Dev → Dev :=
  catWrite r 0x5011 0x07 (leBytes 1 v) .byTable (fun _ => true) fun d =>
    match f d with
    | some d => ⟨{ d with tt := { d.tt with lastControl := v } }, stOk, false⟩
    | none => refuse d stDenied

def execTtStopD (r : Req) : Dev → Dev :=
  ttControl r 1 fun d => if d.tt.st = .running then some (d.ttHold .stop) else none

def execTtResumeD (r : Req) : Dev → Dev :=
  ttControl r 2 fun d =>
    if d.tt.st ≠ .held then none
    else if d.tb.st = .locked then some d.ttArmRejoin
    else some { d with tt := { d.tt with pendingResume := true } }

def execTtUnloadD (r : Req) : Dev → Dev :=
  ttControl r 3 fun d =>
    if d.tt.st = .loaded || d.tt.st = .armed || d.tt.st = .held then
      some { d with tt := { d.tt with
        st := .unloaded, image := none, wrStage := false, wrEpoch := false, wrFirst := false, wrAnchor := false,
        pendingResume := false, rejoin := false, heldBy := .none, peers := [], past := [] } }
    else none

end Sys2Proof.Machine
end

