-- ==== Sys2Proof/Machine/Capacity.lean ====
section
/-! DEFINITION. What a command needs before it is dispatched: the fields of its descriptor that name units, what units have
free, and condition 6 of R89 (R64, R84, R91, R237, R238, R252). -/

namespace Sys2Proof.Machine

def CmdState.undispatched : CmdState → Bool
  | .fetched | .waiting | .ready => true
  | _ => false

def Cmd.target1 (c : Cmd) : Bool := bit c.desc 507
def Cmd.engines (c : Cmd) : Nat := fld c.desc 508 4
def Cmd.argQwords (c : Cmd) : Nat := fld c.desc 501 6
def Cmd.bundles (c : Cmd) : Nat := fld c.desc 496 5
def Cmd.groupMask (c : Cmd) : Nat := fld c.desc 432 64
def Cmd.programVa (c : Cmd) : Nat := fld c.desc 320 52
def Cmd.launchArgs (c : Cmd) : Nat := fld c.desc 376 52

/-- Units that a compute command names, as unit numbers of R468: bit g, or 64 + d. -/
def Cmd.unitMask (c : Cmd) : Nat := if c.target1 then c.groupMask % 2 ^ 8 * 2 ^ 64 else c.groupMask

/-- A dispatched command, in any of the states in which it holds an in-flight slot. A HALTED one does: a job that stops waits
for its ring to be resumed or restarted (the model's choice, log entry 63: R73 does not name HALTED commands). -/
def Cmd.inFlight (c : Cmd) : Bool := !c.st.undispatched

/-! ### Units for bundles and engines (R64, R91) -/

/-- Bundle slots of a unit (R64). -/
def unitSlots (u : Nat) : Nat := if u < 64 then 16 else 8

def Dev.freeSlots (d : Dev) (u : Nat) : List Nat :=
  (List.range (unitSlots u)).filter fun b => (d.bundle? u b).isNone

def Dev.freeEngines (d : Dev) (u : Nat) : List Nat :=
  (List.range 8).filter fun e => (d.engine u e).owner.isNone

/-- A unit has capacity for a command's part (R91). -/
def Dev.unitFits (d : Dev) (u : Nat) (c : Cmd) : Bool :=
  c.bundles ≤ (d.freeSlots u).length && c.engines ≤ (d.freeEngines u).length

/-! ### Slip contexts (R237, R238, R252) -/

/-- Scratch range of the job on a unit (R215): offset and length. -/
def Job.scratchRange (x : Job) (u : Nat) : Nat × Nat :=
  match x.t1 with
  | none => (0, 0)
  | some g =>
    if u < 64 then (if bit g.groups u then (g.scratchOff, g.scratchLen) else (0, 0))
    else if bit g.dies (u - 64) then (g.sramOff, g.sramLen) else (0, 0)

def Job.inScratch (x : Job) (u off len : Nat) : Bool :=
  let (o, n) := x.scratchRange u
  o ≤ off && off + len ≤ o + n

/-- Declarations of a parameter block that are valid: buffer, start and length in bytes. -/
def paramDecls (u p : Nat) : List (Nat × Nat × Nat) :=
  ((List.range 16).filter fun b => bit p (1024 + 64 * b + 63)).map fun b =>
    let y := fld p (1024 + 64 * b) 64
    (b, fld y 32 16 * unitGranule u, fld y 0 24 * unitGranule u)

def rangesApart : List (Nat × Nat × Nat) → Bool
  | [] => true
  | y :: t => (t.all fun z => y.2.1 + y.2.2 ≤ z.2.1 || z.2.1 + z.2.2 ≤ y.2.1) && rangesApart t

/-- The parameter block breaks no rule of R237 and R238. -/
def paramOk (j : Job) (u p : Nat) : Bool :=
  let decls := paramDecls u p
  fld p 768 256 = 0 && ((List.range 8).all fun i => fld p (64 * i + 52) 12 = 0)
    && ((List.range 16).all fun b => fld p (1024 + 64 * b + 48) 15 = 0 && fld p (1024 + 64 * b + 24) 8 = 0)
    && decls.all (fun y => y.2.2 ≠ 0 && y.2.2 ≤ (if u < 64 then 65536 else 49152) * unitGranule u
        && j.inScratch u y.2.1 y.2.2)
    && rangesApart decls

/-- The mover can take the declarations (R238). -/
def Mover.room (m : Mover) (k : Nat) (decls : List (Nat × Nat × Nat)) : Bool :=
  m.queue.length < 8 && m.decls.length + decls.length ≤ 64
    && decls.all fun y => !(m.decls.any fun z => z.cmd = k && z.buf = y.1)

/-- Units of a SLIP's argument block. -/
def slipUnits (n : Nat) : Nat := if bit n 64 then fld n 0 8 * 2 ^ 64 else fld n 0 64

/-- A SLIP's argument block is well formed for the job. -/
def slipArgsOk (j : Job) (n : Nat) : Bool :=
  let u := if bit n 64 then 64 else 0
  let units := setBits 72 (slipUnits n)
  let len := fld n 128 16
  fld n 144 368 = 0 && fld n 65 15 = 0 && 1 ≤ len && len ≤ 8144 && fld n 0 64 ≠ 0
    && (!bit n 64 || fld n 0 64 < 256)
    && fld n 104 24 % unitGranule u = 0 && fld n 80 24 % unitGranule u = 0
    && units.all (fun v => j.inScratch v (fld n 104 24) 256 && j.inScratch v (fld n 80 24) (8 * len)
        && paramOk j v (fld n 512 2048))

/-- A unit can take the slip at once: a free context with nothing queued before it, room for its declarations. -/
def Dev.slipFits (d : Dev) (u k p : Nat) : Bool :=
  let m := (d.unit u).mover
  m.ctx.length < 4 && m.queue.isEmpty && m.room k (paramDecls u p)

def Dev.slipArgs (d : Dev) (c : Cmd) : Nat := d.jnat c.job c.argsVa c.argsLen

/-- A SLIP is dispatched when a first unit has a free context; with bad arguments it retires at once. -/
def Dev.slipCanGo (d : Dev) (c : Cmd) : Bool :=
  let n := d.slipArgs c
  (d.firstFault c.job c.argsVa c.argsLen false).isSome || !slipArgsOk (d.job c.job) n
    || (setBits 72 (slipUnits n)).any fun u => d.slipFits u d.nextCmd (fld n 512 2048)

/-! ### Memory that takes requests (R22, R24) -/

/-- The stretches of job memory that a command reads and writes as it is dispatched: its argument block, and what the block
names. -/
def Dev.touches (d : Dev) (c : Cmd) : List (Nat × Nat) :=
  let n := d.jnat c.job c.argsVa c.argsLen
  let block := (c.argsVa, c.argsLen)
  match c.cls, c.opcode with
  | 0, _ => [(c.launchArgs, 8 * c.argQwords)]
  | 3, 0 =>
    block :: ((blockEntries n 64 64 (swEntries n)).map fun e =>
      (enDir e, if enDir e = 0 then 0 else 64) :: (enRanges n e).map fun r => (r.1, r.2.1)).flatten
  | 3, _ =>
    let dir := d.jnat c.job (gaDir n) 64
    if gaLocal n then
      [block, (gaDir n, 64), (dirCurVa dir, dirBytes dir), (dirPrevVa dir, if dirPrevValid dir then dirBytes dir else 0),
       (gaDst n, gaBytes n), (gaStampVa n, 16)]
    else [block]
  | 4, 1 => [(c.argsVa, 8)]
  | 6, 0 => block :: (xpRecord n, rcBytes (xpRowCount n * xpRowBytes n) (xpSign n)) :: xpRows n
  | 6, _ =>
    let h := d.jnat c.job (xpRecord n) 128
    block :: (xpRecord n, rcBytes (rcLen h) (rcSigned h)) :: xpRows n
  | _, _ => [block]

/-- None of them lies where requests wait: on a die that retrains, or behind a host port that stalls. The model dispatches a
command whose work is done whole only then (log entry 64). -/
def Dev.served (d : Dev) (c : Cmd) : Bool := !((d.touches c).any fun r => d.stalledIn c.job r.1 r.2)

/-! ### Condition 6 of R89 -/

/-- Condition 6 of R89: fewer than 256 collective commands run. -/
def Dev.collectiveFits (d : Dev) (_ : Cmd) : Bool :=
  (d.cmds.filter fun kc => kc.2.cls = 2 && kc.2.inFlight).length < 256

/-- A unit the command names, or the die it needs, has capacity (condition 6 of R89). -/
def Dev.hasCapacity (d : Dev) (c : Cmd) : Bool :=
  match c.cls, c.opcode with
  | 0, _ => (setBits 72 c.unitMask).any fun u => d.unitFits u c
  | 1, 1 => d.slipCanGo c
  | 2, _ => d.collectiveFits c
  | _, _ => true

end Sys2Proof.Machine
end

