-- ==== Sys2Proof/Machine/Cuff.lean ====
section
/-! DEFINITION. Operating points in force and the Cuff (R381, R382, R389 to R392): what the start of an engine
needs of the power chapter. -/

namespace Sys2Proof.Machine

def DiePower.empty : DiePower :=
  { entry := 0, target := none, riseAt := 0, above := 0, lead := false, capD := 8, capEntry := 0, capAt := 0, thermEntry := 0,
    thermAt := 0 }

def Dev.die (d : Dev) (k : Nat) : DiePower := Tbl.getD d.power.dies k DiePower.empty
def Dev.setDie (d : Dev) (k : Nat) (x : DiePower) : Dev :=
  { d with power := { d.power with dies := Tbl.set d.power.dies k x } }

/-- The die that a unit belongs to: 0 the Lorquel die, 1 + d a Stacks die. -/
def dieOfUnit (u : Nat) : Nat := if u < 64 then 0 else 1 + (u - 64)

/-- Frequency of an entry in MHz (R381). -/
def entryMhz (k : Nat) : Nat := 1050 - 50 * k

/-- Units of the timebase that `n` cycles of a die's clock take at the entry in force. -/
def Dev.cyclesToUnits (d : Dev) (die n : Nat) : Nat := n * 8000 / max 1 (entryMhz (d.die die).entry)

/-- Preferred entry and duty cap of a phase for a die (R389, R400). -/
def Dev.prefEntry (d : Dev) (die : Nat) : Nat :=
  let p := d.cget (Cat.PWR_PREF d.power.phase)
  if die = 0 then fld p 0 4 else fld p 4 4

def Dev.prefDuty (d : Dev) : Nat := fld (d.cget (Cat.PWR_PREF d.power.phase)) 8 4

/-- The duty in force of a die: the lower of the phase's duty cap and the Cap's D (R389). -/
def Dev.duty (d : Dev) (die : Nat) : Nat := min d.prefDuty (d.die die).capD

/-- The wave of a unit (R391). -/
def Dev.waveOf (d : Dev) (u : Nat) : Nat := ((if u < 64 then u else u - 64) + d.power.cuffE) % 8

/-- An engine has advanced no MAC in the last CUFF_IDLE_WINDOW cycles (R390). -/
def Dev.engineIdle (d : Dev) (u e : Nat) : Bool :=
  let x := d.engine u e
  !(x.queue.any fun q => q.started) &&
    match x.lastMac with
    | none => true
    | some t => d.cyclesToUnits (dieOfUnit u) (d.cget Cat.CUFF_IDLE_WINDOW) < d.now - t

/-- The ramp with which an engine starts: 2 eighths, unless the duty in force is no higher (R392). -/
def Dev.firstRamp (d : Dev) (u : Nat) : EngineRamp := if d.duty (dieOfUnit u) ≤ 2 then .full else .quarter

/-- While the Cuff is engaged, a start before the unit's wave holds; one after it ramps at once (R391). -/
def Dev.rampFor (d : Dev) (u : Nat) : EngineRamp := if d.waveOf u < d.power.cuffWave then d.firstRamp u else .held

def Dev.setRamp (d : Dev) (u e : Nat) (r : EngineRamp) : Dev := d.setEngine u e { d.engine u e with ramp := r, rampAt := d.now }

/-- Idle engines of a unit are due to start: the Cuff counts those of the last 128 ns, each once, and engages above
CUFF_TRIGGER. Those due before the instant of engagement have started at full duty and go on (R390, R391). -/
def Dev.engineDue (d : Dev) (u : Nat) (es : List Nat) : Dev :=
  let idle := es.filter fun e => d.engineIdle u e
  if d.power.cuffOn then idle.foldl (fun d e => d.setRamp u e (d.rampFor u)) d
  else
    let due := d.power.due.filter fun p => d.now < p.1 + 1024
    let due := due ++ (idle.filter fun e => !(due.any fun p => p.2 = (u, e))).map fun e => (d.now, u, e)
    let d := { d with power := { d.power with due := due } }
    if due.length ≤ d.cget Cat.CUFF_TRIGGER then d
    else
      let e := d.cget Cat.CUFF_ENGAGE
      let d := { d with power := { d.power with
        cuffOn := true, cuffAt := d.now, cuffE := e, cuffWave := 1, due := [] } }
      let d := (d.bump Cat.CUFF_ENGAGE).event 0x32 0x1F 0x88 (e % 8 * 2 ^ 10 + due.length % 2 ^ 10) 0 0
      (due.filter fun p => p.1 = d.now).foldl (fun d p => d.setRamp p.2.1 p.2.2 (d.rampFor p.2.1)) d

end Sys2Proof.Machine
end

