-- ==== Sys2Proof/Machine/Command.lean ====
section
/-! DEFINITION. Commands from fetch to retirement (R76 to R98, R434 to R436, R500, R501): rings, descriptors,
marks and waits, release, dispatch, start on units, completion. -/

namespace Sys2Proof.Machine

/-! ### Descriptors (R82 to R85) -/

/-- Poisoned lines read by a command: DROP_COUNT, and the first line's address (R95, R96). -/
def Cmd.drop (c : Cmd) (lines : List Nat) : Cmd :=
  match lines with
  | [] => c
  | a :: _ => { c with drops := c.drops + lines.length }.raise 0x01 (a % 2 ^ 48)

/-- The set bits of a field that must be zero. -/
def setBitsAt (n lo len : Nat) : List Nat := (setBits len (fld n lo len)).map (· + lo)

def ifBad (b : Bool) (bitNo : Nat) : List Nat := if b then [bitNo] else []

/-- Opcodes that the owning chapters define (R83). -/
def opcodeDefined (cls op : Nat) : Bool :=
  match cls with
  | 0 => op = 0
  | 1 => op ≤ 1
  | 2 => op ≤ 2
  | 3 => op ≤ 1
  | 4 => op ≤ 1
  | 5 => op ≤ 2
  | 6 => op ≤ 1
  | _ => op ≤ 2

/-- Offending bits of PAYLOAD (R84). -/
def Cmd.payloadBad (c : Cmd) : List Nat :=
  let n := c.desc
  match c.cls with
  | 0 =>
    setBitsAt n 372 4 ++ setBitsAt n 428 4 ++ ifBad (c.programVa % 64 ≠ 0) 320 ++ ifBad (c.launchArgs % 64 ≠ 0) 376
      ++ ifBad (c.groupMask = 0 || (c.target1 && 256 ≤ c.groupMask)) 432
      ++ ifBad (c.bundles = 0 || (if c.target1 then 8 else 16) < c.bundles) 496
      ++ ifBad (32 < c.argQwords) 501 ++ ifBad (8 < c.engines) 508
  | 4 =>
    if c.opcode = 1 then setBitsAt n 372 140 ++ ifBad (fld n 320 52 % 8 ≠ 0) 320 else setBitsAt n 320 192
  | 5 => if c.opcode = 1 then setBitsAt n 330 22 ++ setBitsAt n 384 128 else setBitsAt n 320 192
  | 7 =>
    if c.opcode = 0 then setBitsAt n 332 180
    else if c.opcode = 1 then setBitsAt n 384 128
    else setBitsAt n 320 192
  | _ =>
    setBitsAt n 372 4 ++ setBitsAt n 392 120 ++ ifBad (c.argsVa % 64 ≠ 0) 320
      ++ ifBad (c.argsLen < 64 || 65472 < c.argsLen || c.argsLen % 64 ≠ 0) 376

/-- Offending bits of a release position (R38, R82). -/
def Dev.positionBad (d : Dev) (c : Cmd) : List Nat :=
  if !c.timed then ifBad (c.posSlot ≠ 0) 80 ++ ifBad (c.posStep ≠ 0) 96 ++ ifBad (c.posOff ≠ 0) 128
  else if d.slots.isEmpty then []
  else if d.slots.length ≤ c.posSlot then [80]
  else ifBad ((d.slotDef c.posSlot).len ≤ c.posOff) 128

/-- The lowest offending bit of a descriptor (R85). -/
def Dev.lowestBad (d : Dev) (c : Cmd) : Option Nat :=
  let n := c.desc
  (setBitsAt n 180 4 ++ setBitsAt n 202 6 ++ setBitsAt n 218 6 ++ setBitsAt n 234 22
    ++ ifBad (c.sigEn && c.signalInc = 0) 184 ++ ifBad (!opcodeDefined c.cls c.opcode) 4
    ++ ifBad (c.cls = 4 && c.opcode = 0 && !c.timed) 12 ++ d.positionBad c ++ c.payloadBad).min?

/-- A compute command asks for nothing beyond the job's tier 1 grant (R85, R267). -/
def Job.permits (x : Job) (c : Cmd) : Bool :=
  c.cls ≠ 0 ||
    match x.t1 with
    | none => false
    | some g =>
      if c.target1 then
        (setBits 8 c.groupMask).all (fun k => bit g.dies k) && c.engines ≤ g.engines && c.bundles ≤ g.dieBundles
      else
        (setBits 64 c.groupMask).all (fun k => bit g.groups k) && c.engines ≤ g.engines && c.bundles ≤ g.bundles

/-! ### Retirement (R69, R86, R94 to R97, R500) -/

def Ring.baseVa (r : Ring) : Nat := fld r.record 0 52
def Ring.size (r : Ring) : Nat := 2 ^ fld r.record 52 5
def Ring.cSize (r : Ring) : Nat := 2 ^ fld r.record 57 5
def Ring.cBase (r : Ring) : Nat := fld r.record 64 52
def Ring.vector (r : Ring) : Nat := fld r.record 116 11
def Ring.port (r : Ring) : Nat := fld r.record 127 1

/-- The completion record of R94, as a number. -/
def Cmd.recordNat (c : Cmd) (stamp : Nat) (phase : Bool) : Nat :=
  stamp % 2 ^ 64 * 2 ^ 192 + c.detail % 2 ^ 64 * 2 ^ 128 + c.seq % 2 ^ 32 * 2 ^ 96 + c.tag * 2 ^ 80
    + min c.drops 0xFFFF * 2 ^ 64 + c.status % 2 ^ 8 * 2 ^ 56 + c.ring * 2 ^ 50 + c.job * 2 ^ 46 + c.cls * 2 ^ 43
    + b2n c.exec * 2 ^ 42 + b2n c.to1 * 2 ^ 41 + b2n c.to0 * 2 ^ 40 + b2n phase

/-- The record goes into the next completion entry; true when its write faulted (R94, R500). -/
def Dev.putRecord (d : Dev) (c : Cmd) (stamp : Nat) : Dev × Bool :=
  let r := d.ring c.job c.ring
  let va := r.cBase + 32 * r.cPos
  if (d.xlate c.job va true).isNone then
    ((d.xfault c.job va).bump (Cat.RING_CREC_LOST c.job c.ring), true)
  else
    let d := d.jwr c.job va (leBytes 32 (c.recordNat stamp r.cPhase))
    let r := d.ring c.job c.ring
    let last := r.cPos + 1 = r.cSize
    (d.setRing c.job c.ring { r with cPos := if last then 0 else r.cPos + 1, cPhase := if last then !r.cPhase else r.cPhase },
     false)

/-- Statuses that signal the command's mark (R95). -/
def statusSignals (s : Nat) : Bool := s ≤ 0x03 || s = 0x05

def Dev.countStatus (d : Dev) (j status : Nat) : Dev :=
  if status = 0 then d else if 0x10 ≤ status then d.bump (Cat.JOB_FAILED j) else d.bump (Cat.JOB_NOT_CLEAN j)

/-- An ACTIVE ring goes to STOPPED or HALTED with the RING_SEQ that made it so (R81). A ring that is STOPPED or HALTED already
keeps its state and RING_STOP_SEQ, and a command that halts then stays HALTED until the ring is HALTED and resumed or
restarted, or reset: the model's choice, since R81 lists no transition there and R500 none for a ring that is STOPPED (log
entry 63). -/
def Dev.stopRing (d : Dev) (j q seq : Nat) (st : RingState) (halted : Option Nat) : Dev :=
  let r := d.ring j q
  let r := { r with haltedCmds := r.haltedCmds ++ halted.toList }
  d.setRing j q (if r.st = .active then { r with st := st, stopSeq := seq } else r)

/-- END records of a command (R469): the busy cycles of an engine are the device's own. -/
def Dev.traceEnds (d : Dev) (c : Cmd) : Dev :=
  c.ends.foldl (fun d e =>
    let (busy, d) := d.take
    d.trace { kind := 0x02, stamp := e.2.2, job := c.job, unit := e.1, engine := e.2.1, ring := c.ring,
              data0 := c.status % 2 ^ 8 * 2 ^ 48 + b2n c.exec * 2 ^ 47 + (if e.2.1 = 0xF then 0 else busy % 2 ^ 32),
              data1 := fld c.desc 32 16 * 2 ^ 48 + fld c.desc 48 16 * 2 ^ 32 + fld c.desc 64 16 * 2 ^ 16 + c.tag,
              data2 := c.seq }) d

/-- The retirement of a command that is no longer held, in the order of R69: its writes are released already. -/
def Dev.finish (d : Dev) (c : Cmd) : Dev :=
  let stamp := d.stamp
  let r := d.ring c.job c.ring
  let d := d.traceEnds c
  let (d, lost) := if c.crec || c.status ≠ 0 then d.putRecord c stamp else (d, false)
  let d := if c.sigEn && statusSignals c.status then d.incMark c.job c.signalMark c.signalInc stamp else d
  let d := if c.irq then d.raiseMsix r.port r.vector else d
  let d := (d.bump (Cat.JOB_RETIRED c.job)).countStatus c.job c.status
  let d := d.setJob c.job { d.job c.job with dropLines := (d.job c.job).dropLines + c.drops }
  if lost || 0x11 ≤ c.status then d.stopRing c.job c.ring c.seq .stopped none else d

/-- The oldest undispatched command of a ring. -/
def Dev.oldest (d : Dev) (j q : Nat) : Option (Nat × Cmd) :=
  d.cmds.find? fun kc => kc.2.job = j && kc.2.ring = q && kc.2.st.undispatched

/-- The oldest undispatched command of a ring leaves FETCHED: it retires when its descriptor is malformed or not
permitted (R85), and otherwise waits (R88, R93). -/
def Dev.promote (d : Dev) (j q : Nat) : Dev :=
  if (d.job j).st ≠ .running || (d.ring j q).st ≠ .active then d
  else
    match d.oldest j q with
    | none => d
    | some (k, c) =>
      if c.st ≠ .fetched then d
      else
        match d.lowestBad c with
        | some b => { d with cmds := Tbl.erase d.cmds k }.finish (c.raise 0x30 b)
        | none =>
          if !(d.job j).permits c then { d with cmds := Tbl.erase d.cmds k }.finish (c.raise 0x31 0)
          else d.setCmd k ({ c with st := .waiting, oldestAt := some d.now }.noteWaits (d.job j))

/-- The last dispatched command of a STOPPING job has retired (R73). -/
def Dev.jobDrained (d : Dev) (j : Nat) : Dev :=
  if (d.job j).st = .stopping && !(d.cmds.any fun kc => kc.2.job = j && kc.2.inFlight) then
    d.setJob j { d.job j with st := .stopped }
  else d

/-- A held command retires: it leaves the device, and what waited on that follows. -/
def Dev.retireHeld (d : Dev) (k : Nat) (c : Cmd) : Dev :=
  let d := { d with cmds := Tbl.erase d.cmds k }.finish c
  let d := if c.inFlight then (d.slotOnRetire c d.now).jobDrained c.job else d
  d.promote c.job c.ring

/-- The completion record of the command, where it has one, goes to memory that takes requests (R22, R24). -/
def Dev.recordServed (d : Dev) (c : Cmd) : Bool :=
  let r := d.ring c.job c.ring
  !(c.crec || c.status ≠ 0) || !d.stalledIn c.job (r.cBase + 32 * r.cPos) 32

/-- No write of the command waits for a sink (R69). -/
def Dev.writesAccepted (d : Dev) (k : Nat) : Bool :=
  !(d.units.any fun ku =>
    ku.2.stores.any (fun p => p.cmd = k) ||
      ku.2.mover.ctx.any (fun ks => ks.2.cmd = k && !ks.2.inflight.isEmpty))

def execCommandRetireD (at_ k : Nat) (d : Dev) : Dev :=
  let d := d.advance at_
  match d.cmd? k with
  | none => d
  | some c => if c.done && c.inFlight && d.writesAccepted k && d.recordServed c then d.retireHeld k c else d

/-! ### Fetching (R78 to R80, R436, R501) -/

/-- Room in the ring window and in the store (R80). -/
def Dev.roomToFetch (d : Dev) (j q : Nat) : Bool :=
  (d.cmds.filter fun kc => kc.2.job = j && kc.2.ring = q && kc.2.st.undispatched).length < d.cget Cat.CP_RING_LOOKAHEAD
    && (d.cmds.filter fun kc => kc.2.st.undispatched).length < 8192

/-- A command just read: FETCHED, with nothing done. -/
def newCmd (j q seq desc : Nat) : Cmd :=
  { job := j, ring := q, seq := seq, desc := desc, st := .fetched, met0 := none, met1 := none, to0 := false,
    to1 := false, toAt := 0, oldestAt := none, firm := false, step := 0, slot := 0, unitsLeft := 0, unitsOn := 0, status := 0,
    detail := 0, exec := false, drops := 0, haltedOnce := false, done := false, invalid := none, waited := false, ends := [],
    lateWaits := [], copyLeft := [] }

/-- The head moves past its entry (R78). -/
def Dev.advanceHead (d : Dev) (j q : Nat) : Dev :=
  let r := d.ring j q
  let wrap := r.head + 1 = r.size
  (d.setRing j q { r with
    head := if wrap then 0 else r.head + 1, phase := if wrap then !r.phase else r.phase, seq := (r.seq + 1) % 2 ^ 32,
    phaseTries := 0, pushed := Tbl.erase r.pushed r.head }).bump (Cat.RING_FETCHED j q)

/-- A descriptor with the expected PHASE is held. -/
def Dev.holdDesc (d : Dev) (j q desc : Nat) : Dev :=
  let c := newCmd j q (d.ring j q).seq desc
  (({ d with cmds := Tbl.set d.cmds d.nextCmd c, nextCmd := d.nextCmd + 1 } : Dev).advanceHead j q).promote j q

/-- A descriptor whose PHASE never matched: malformed, bit 0, and the ring stops (R79, R436). -/
def Dev.phaseFail (d : Dev) (j q desc : Nat) : Dev :=
  let c := newCmd j q (d.ring j q).seq desc
  ((d.advanceHead j q).bump (Cat.RING_PHASE_ERR j q)).finish { c with status := 0x30, detail := 0 }

/-- The head entry was pushed: it is taken with no read of its slot (R78, R436). -/
def Dev.takePushed1 (d : Dev) (j q : Nat) : Dev :=
  let r := d.ring j q
  if (d.job j).st ≠ .running || r.st ≠ .active || !d.roomToFetch j q then d
  else
    match Tbl.find? r.pushed r.head with
    | none => d
    | some desc => if bit desc 0 = r.phase then d.holdDesc j q desc else d.phaseFail j q desc

/-- Pushed entries are taken as long as they stand at the head. -/
def Dev.takePushed (d : Dev) (j q : Nat) : Nat → Dev
  | 0 => d
  | fuel + 1 => (d.takePushed1 j q).takePushed j q fuel

/-- The memory that holds the ring's head takes requests. -/
def Dev.headServed (d : Dev) (j q : Nat) : Bool :=
  let r := d.ring j q
  !d.stalledIn j (r.baseVa + 64 * r.head) 64

/-- One read of the head's entry from ring memory; `last` says that no refetch is left. A fetch that faults moves the head
and counts in RING_FETCHED like any other: the model's choice (log entry 63). -/
def Dev.fetchHead (d : Dev) (j q : Nat) (last : Bool) : Dev :=
  let r := d.ring j q
  let va := r.baseVa + 64 * r.head
  if (d.xlate j va false).isNone then
    let c := { newCmd j q r.seq 0 with status := 0x11, detail := va }
    ((d.xfault j va).advanceHead j q).finish c
  else
    let d := (d.jbad j va 64).foldl (fun d pa => d.countBad pa) d
    let desc := d.jnat j va 64
    if bit desc 0 = r.phase then (d.holdDesc j q desc).takePushed j q r.pushed.length
    else if last then d.phaseFail j q desc
    else d.setRing j q { r with phaseTries := r.phaseTries + 1, fetchedAt := d.now }

def execDescriptorFetchD (at_ j q : Nat) (d : Dev) : Dev :=
  let d := d.advance at_
  let r := d.ring j q
  if (d.job j).st ≠ .running || r.st ≠ .active || r.head = r.tail || r.phaseTries ≠ 0 || !d.roomToFetch j q then d
  else if (Tbl.find? r.pushed r.head).isSome then d.takePushed j q (r.pushed.length)
  else if !d.headServed j q then d
  else d.fetchHead j q false

/-- The next fetch of a descriptor whose PHASE did not match, 1 µs after the last, once the window and the store have room
(R79, R80). -/
def execPhaseRefetchD (j q : Nat) (d : Dev) : Dev :=
  let r := d.ring j q
  if (d.job j).st ≠ .running || r.st ≠ .active || r.phaseTries = 0 || !d.roomToFetch j q || !d.headServed j q then d
  else (d.advance (r.fetchedAt + 8000)).fetchHead j q (d.cget Cat.CP_PHASE_RETRY ≤ r.phaseTries)

/-- Entries announced and not fetched. -/
def Ring.unfetched (r : Ring) : Nat := (r.tail + r.size - r.head) % r.size

/-- The port may ring this ring (R435). -/
def Dev.doorbellOpen (d : Dev) (port j q : Nat) : Bool :=
  (d.ring j q).st = .active && bit (d.cget (Cat.SEC_DOORBELL_PORTS j)) port

def execRingDoorbellD (at_ port j q : Nat) (v : Word) (d : Dev) : Dev :=
  let d := d.advance at_
  let r := d.ring j q
  let tail := v.toNat % 2 ^ 16
  if !d.released || d.hostLost port then d
  else if !d.doorbellOpen port j q then (d.bump (Cat.HOST_DB_DROP port)).hostErr port 0
  else if r.size ≤ tail || r.size ≤ (tail + r.size - r.tail) % r.size + r.unfetched then
    (d.bump (Cat.HOST_DB_BAD port)).hostErr port 1
  else d.setRing j q { r with tail := tail }

def execRingPushD (at_ port j q off tlps : Nat) (data : List Byte) (d : Dev) : Dev :=
  let d := d.advance at_
  let r := d.ring j q
  if !d.released || d.hostLost port then d
  else if off ≠ 0x40 || tlps ≠ 1 || data.length ≠ 64 then (d.bump (Cat.HOST_PUSH_BAD port)).hostErr port 2
  else if !d.doorbellOpen port j q then (d.bump (Cat.HOST_DB_DROP port)).hostErr port 0
  else if d.cget (Cat.SEC_RING_SEALED j) = 1 then d.bump Cat.SEC_RING_REFUSED
  else if r.size ≤ r.unfetched + 1 then (d.bump (Cat.HOST_DB_BAD port)).hostErr port 1
  else
    let d := d.setRing j q { r with
      pushed := Tbl.set r.pushed r.tail (leNat data), tail := (r.tail + 1) % r.size }
    if r.head = r.tail then d.takePushed1 j q else d

/-! ### Release (R49, R87 to R89) -/

/-- The release instant of a command: none while its position lies ahead, or while the anchor job's commands are
held in ARMED and HELD (R42, R49); of a slot that has closed, its instant in it. -/
def Dev.releaseInstant (d : Dev) (c : Cmd) : Option Nat :=
  if !c.timed then some 0
  else if d.tt.st ≠ .running then
    if c.job = d.anchor && (d.tt.st = .armed || d.tt.st = .held) then none else some 0
  else
    match d.pastInstant c.posStep c.posSlot c.posOff with
    | some t => some t
    | none =>
      if c.posStep < d.tt.step || (c.posStep = d.tt.step && c.posSlot < d.tt.slot) then some d.tt.runStart
      else if c.posStep = d.tt.step && c.posSlot = d.tt.slot then some (d.tt.slotStart + c.posOff)
      else none

/-- The wait deadline (R88). -/
def Dev.waitDeadline (d : Dev) (c : Cmd) : Option Nat :=
  if c.waitTimeout = 0 then none
  else
    match c.oldestAt, d.releaseInstant c with
    | some t, some r => some (max t r + c.waitTimeout * 8192)
    | _, _ => none

/-- A wait was met in time. -/
def waitMet (deadline : Option Nat) (met : Option Nat) : Bool :=
  match met, deadline with
  | some s, some t => s ≤ t
  | some _, none => true
  | none, _ => false

/-- JOB_DRAIN: every command of the job dispatched earlier has retired (R84). -/
def Dev.drained (d : Dev) (k : Nat) (c : Cmd) : Bool :=
  c.cls ≠ 5 || c.opcode ≠ 2 || !(d.cmds.any fun kc => kc.1 ≠ k && kc.2.job = c.job && kc.2.inFlight)

/-- ORDERED: every earlier command of the ring has retired (R89). -/
def Dev.orderedOk (d : Dev) (k : Nat) (c : Cmd) : Bool :=
  !c.ordered || !(d.cmds.any fun kc => kc.1 < k && kc.2.job = c.job && kc.2.ring = c.ring)

/-- Condition 4 of R89. -/
def Dev.slotAllows (d : Dev) (c : Cmd) : Bool := !(d.tt.st = .running && d.isFiller c) || d.fillerOk

/-- Engines that filler occupies when a firm command arrives on its units (R51). -/
def Dev.countOverhang (d : Dev) (c : Cmd) : Dev :=
  if d.tt.st ≠ .running || d.isFiller c || c.cls ≠ 0 then d
  else
    (setBits 72 c.unitMask).foldl (fun d u =>
      (List.range 8).foldl (fun d e =>
        let x := d.engine u e
        match x.owner with
        | some o =>
          if x.overhang || d.cmdJob o = d.anchor then d
          else (d.setEngine u e { x with overhang := true }).bump Cat.TT_FILLER_OVERHANG
        | none => d) d) d

/-- Firm work: a command of the anchor job while a timetable runs (R42, R89). -/
def Dev.isFirm (d : Dev) (c : Cmd) : Bool := d.tt.st = .running && c.job = d.anchor

/-- The command as firm work of the slot it is released or dispatched in, when it is the anchor job's. -/
def Dev.markFirm (d : Dev) (c : Cmd) : Cmd :=
  { c with firm := d.isFirm c, step := if d.isFirm c then d.firmSlot.1 else 0, slot := if d.isFirm c then d.firmSlot.2 else 0 }

/-- A command with a release position is firm work of the slot in which it is released; one with TIMED 0 only of the slot in
which it is dispatched (R45, R89). -/
def Dev.markReleased (d : Dev) (c : Cmd) : Cmd := if c.timed then d.markFirm c else c

/-- WAITING to READY: conditions 1 to 4 of R89 hold. -/
def execCommandReleaseD (k : Nat) (d : Dev) : Dev :=
  match d.cmd? k with
  | none => d
  | some c =>
    let dl := d.waitDeadline c
    match d.releaseInstant c with
    | none => d
    | some t =>
      if c.st ≠ .waiting || (d.job c.job).st ≠ .running || (d.ring c.job c.ring).st ≠ .active || !d.orderedOk k c
          || !d.drained k c || (c.w0En && !c.to0 && !waitMet dl c.met0) || (c.w1En && !c.to1 && !waitMet dl c.met1)
          || !d.slotAllows c then d
      else
        let d := d.advance t
        (d.setCmd k (d.markReleased { c with st := .ready })).countOverhang c

/-- TT_SETTLE after a wait deadline, the tie rule decides (R52, R53, R88). Each of a command's two waits that times out counts
for itself in CP_WAIT_TIMEOUT: the model's choice (log entry 63). -/
def execWaitTimeoutD (k : Nat) (d : Dev) : Dev :=
  match d.cmd? k with
  | none => d
  | some c =>
    match d.waitDeadline c with
    | none => d
    | some t =>
      let late0 := c.w0En && !c.to0 && !waitMet (some t) c.met0
      let late1 := c.w1En && !c.to1 && !waitMet (some t) c.met1
      if c.st ≠ .waiting || (d.job c.job).st ≠ .running || !(late0 || late1) then d
      else
        let d := (d.advance (t + d.cget Cat.TT_SETTLE)).bumpBy Cat.CP_WAIT_TIMEOUT (b2n late0 + b2n late1)
        let c := { c with to0 := c.to0 || late0, to1 := c.to1 || late1, toAt := t }.raise 0x03 t
        if c.toSkip then d.retireHeld k c else d.setCmd k c

/-! ### Dispatch (R89 to R91) -/

/-- An in-flight slot is free for the command (R90). -/
def Dev.slotFree (d : Dev) (c : Cmd) : Bool :=
  let held := d.cmds.filter fun kc => kc.2.inFlight
  held.length < 4096 && (held.filter fun kc => kc.2.job = c.job).length < d.cget (Cat.JOB_INFLIGHT_MAX c.job)
    && (d.isFirm c || (held.filter fun kc => !kc.2.firm).length + d.cget Cat.CP_FIRM_RESERVE < 4096)

/-- A completion entry is free (R94). -/
def Dev.entryFree (d : Dev) (c : Cmd) : Bool :=
  (d.cmds.filter fun kc => kc.2.inFlight && kc.2.job = c.job && kc.2.ring = c.ring).length < (d.ring c.job c.ring).cSize

/-- A BEGIN record (R469). -/
def Dev.traceBegin (d : Dev) (c : Cmd) (u e : Nat) : Dev :=
  d.trace { kind := 0x01, stamp := d.stamp, job := c.job, unit := u, engine := e, ring := c.ring,
            data0 := if c.cls = 0 then c.bundles * 16 + c.engines else 0,
            data1 := fld c.desc 32 16 * 2 ^ 48 + fld c.desc 48 16 * 2 ^ 32 + fld c.desc 64 16 * 2 ^ 16 + c.tag,
            data2 := c.seq }

/-- The device after the arbiter has taken this command: its round robin goes on after the command's job, and in that job
after its ring (R91). -/
def Dev.tookTurn (d : Dev) (c : Cmd) : Dev :=
  let a := d.arb
  let job := (c.job + 1) % 16
  let ring := (c.ring + 1) % 64
  if d.isFirm c then { d with arb := { a with firmJob := job, firmRing := Tbl.set a.firmRing c.job ring } }
  else { d with arb := { a with otherJob := job, otherRing := Tbl.set a.otherRing c.job ring } }

/-- A READY command's place in the order in which the global command processor considers rings: firm commands first, then
jobs from the one whose turn it is, then the job's rings from theirs (R91). The least comes first. -/
def Dev.turnOf (d : Dev) (c : Cmd) : Nat :=
  let (set, job, ring) := if d.isFirm c then (0, d.arb.firmJob, Tbl.getD d.arb.firmRing c.job 0)
    else (1, d.arb.otherJob, Tbl.getD d.arb.otherRing c.job 0)
  set * 1024 + (c.job + 16 - job) % 16 * 64 + (c.ring + 64 - ring) % 64

/-- Conditions 1 to 6 of R89 hold of a READY command: it is dispatchable. -/
def Dev.dispatchable (d : Dev) (k : Nat) (c : Cmd) : Bool :=
  c.st = .ready && (d.job c.job).st = .running && (d.ring c.job c.ring).st = .active && d.slotAllows c && d.drained k c
    && d.slotFree c && d.entryFree c && d.hasCapacity c && d.served c

/-- No dispatchable command comes before this one (R91). -/
def Dev.isTurn (d : Dev) (c : Cmd) : Bool :=
  !(d.cmds.any fun kc => d.turnOf kc.2 < d.turnOf c && d.dispatchable kc.1 kc.2)

/-- The command as its dispatch makes it: RUNNING, executing, and firm in the current slot when it is the anchor job's. -/
def Dev.dispatched (d : Dev) (c : Cmd) : Cmd := d.markFirm { c with st := .running, exec := true }

/-- The device on which it is so, the arbiter having moved on. -/
def Dev.onceDispatched (d : Dev) (k : Nat) (c : Cmd) : Dev := (d.tookTurn c).setCmd k (d.dispatched c)

/-- The dispatch of a READY command of this class and opcode at `at_`: when conditions 4 to 6 of R89 hold and it is its
turn, it is RUNNING and `run` is its effect. -/
def Dev.dispatch (cls op : Nat) (run : Nat → Cmd → Dev → Dev) (at_ k : Nat) (d : Dev) : Dev :=
  let d := d.advance at_
  match d.cmd? k with
  | none => d
  | some c =>
    if c.st ≠ .ready || c.cls ≠ cls || c.opcode ≠ op || (d.job c.job).st ≠ .running
        || (d.ring c.job c.ring).st ≠ .active || !d.slotAllows c || !d.drained k c then d
    else if !d.slotFree c then
      if c.waited then d else (d.setCmd k { c with waited := true }).bump Cat.CP_INFLIGHT_FULL
    else if !d.entryFree c || !d.hasCapacity c || !d.served c || !d.isTurn c then d
    else (run k (d.dispatched c) (d.onceDispatched k c)).promote c.job c.ring

/-- A command's own work has ended (R93). -/
def Dev.workDone (d : Dev) (k : Nat) : Dev := d.updCmd k fun c => { c with st := .retiring, done := true }

/-- It ends with this status before its action (a malformed argument block): it did not execute (R85). -/
def Dev.workRefused (d : Dev) (k status detail : Nat) : Dev :=
  d.updCmd k fun c => { c.raise status detail with st := .retiring, done := true, exec := false }

/-- It ends with this status, having executed. -/
def Dev.workEnds (d : Dev) (k status detail : Nat) : Dev := (d.updCmd k fun c => c.raise status detail).workDone k

/-- Begin and end on a unit that is no group or engine (R469). -/
def Dev.atUnit (d : Dev) (k u : Nat) : Dev :=
  match d.cmd? k with
  | none => d
  | some c =>
    let d := d.traceBegin c u 0xF
    d.updCmd k fun c => { c with ends := c.ends ++ [(u, 0xF, d.stamp)] }

/-- A translation fault that a command meets (R96, R207). -/
def Dev.cmdFault (d : Dev) (k j va : Nat) : Dev := (d.xfault j va).updCmd k fun c => c.raise 0x11 va

/-- Poisoned lines that a command read (R220): counted at the memory, in DROP_COUNT, and in its status. -/
def Dev.cmdPoison (d : Dev) (k : Nat) (lines : List Nat) : Dev :=
  (lines.foldl (fun d pa => d.countBad pa) d).updCmd k fun c => c.drop lines

/-- The argument block of a command: `len` bytes, with faults and poison of its read reported. `f` gets it as a
number; `lenOk` says that ARGS_LEN is right. -/
def Dev.withArgs (d : Dev) (k : Nat) (c : Cmd) (lenOk : Bool) (f : Nat → Dev → Dev) : Dev :=
  if !lenOk then d.workRefused k 0x30 376
  else
    match d.firstFault c.job c.argsVa c.argsLen false with
    | some va => (d.cmdFault k c.job va).workDone k
    | none => f (d.jnat c.job c.argsVa c.argsLen) (d.cmdPoison k (d.jbad c.job c.argsVa c.argsLen))

/-! ### The commands of this chapter (R84) -/

def execWaitPositionD : Nat → Nat → Dev → Dev :=
  Dev.dispatch 4 0 fun k _ d => (d.atUnit k 0x91).workDone k

def execStampD : Nat → Nat → Dev → Dev :=
  Dev.dispatch 4 1 fun k c d =>
    let d := d.atUnit k 0x91
    let va := fld c.desc 320 52
    if (d.xlate c.job va true).isNone then (d.cmdFault k c.job va).workDone k
    else (d.jwr c.job va (leBytes 8 d.stamp)).workDone k

def execJoinD : Nat → Nat → Dev → Dev := Dev.dispatch 5 0 fun k _ d => (d.atUnit k 0x91).workDone k

def execMarkWriteD : Nat → Nat → Dev → Dev :=
  Dev.dispatch 5 1 fun k c d =>
    ((d.atUnit k 0x91).setMark c.job (fld c.desc 320 10) (BitVec.ofNat 32 (fld c.desc 352 32)) d.stamp).workDone k

def execJobDrainD : Nat → Nat → Dev → Dev := Dev.dispatch 5 2 fun k _ d => (d.atUnit k 0x91).workDone k

def execInterruptD : Nat → Nat → Dev → Dev :=
  Dev.dispatch 7 0 fun k c d =>
    ((d.atUnit k 0x91).raiseMsix (fld c.desc 331 1) (fld c.desc 320 11)).workDone k

/-- The MARKER record (R469) is written as the command retires; nothing lies between. -/
def execTraceMarkerD : Nat → Nat → Dev → Dev :=
  Dev.dispatch 7 1 fun k c d => ((d.atUnit k 0x91).event 0x03 c.job 0x91 0 (fld c.desc 320 64) 0).workDone k

/-! ### Compute commands on their units (R65, R70, R75, R91, R169) -/

/-- An acquire at package scope: the job's lines in the unit's read buffer are invalidated (R70, R191). -/
def Dev.invalidate (d : Dev) (u j : Nat) : Dev :=
  let x := d.unit u
  d.setUnit u { x with buf := Tbl.keep (fun _ l => l.job ≠ j) x.buf }

/-- The acquire of a command's start, which invalidates the job's instruction granules too (R70, R174). -/
def Dev.acquire (d : Dev) (u j : Nat) : Dev :=
  let d := d.invalidate u j
  let x := d.unit u
  d.setUnit u { x with code := Tbl.keep (fun key _ => key % 16 ≠ j) x.code }

/-- An engine is taken by a command (R75, R106, R268). -/
def Dev.takeEngine (d : Dev) (k : Nat) (c : Cmd) (u e : Nat) : Dev :=
  let x := d.engine u e
  let pass : Bool := match x.lastJob with | some j => j ≠ c.job | none => false
  let d := d.setEngine u e { x with owner := some k, lastJob := some c.job, tiles := [], queue := [], overhang := false }
  if pass then
    let d := d.bump (Cat.JOB_SWITCH_IN c.job)
    if 64 ≤ u then d.bump (Cat.NMU_JOB_SWITCH (u - 64)) else d
  else d

def Bundle.start (k index pc : Nat) (args : List Nat) : Bundle :=
  { cmd := k, index := index, pc := pc, v := [],
    u := (List.range args.length).foldl (fun t i =>
      let v : DWord := BitVec.ofNat 64 ((args[i]?).getD 0)
      if v = 0 then t else Tbl.set t i v) [],
    p := [], live := BitVec.allOnes 64, ret := [], wait := .none, loads := 0, tens := [], napEnd := 0 }

/-- All units of a compute or SLIP command have ended (R93). -/
def Dev.checkUnits (d : Dev) (k : Nat) : Dev :=
  match d.cmd? k with
  | some c =>
    if (c.st = .running || c.st = .parked) && c.unitsLeft = 0 && c.unitsOn = 0 then d.workDone k else d
  | none => d

/-- The command starts its part on a unit: acquire, argument load, bundles, engines, BEGIN records, the Cuff. -/
def Dev.startPart (d : Dev) (k : Nat) (c : Cmd) (u : Nat) : Dev :=
  let d := d.acquire u c.job
  let c := { c with unitsLeft := c.unitsLeft - 2 ^ u, st := .running }
  let n := c.argQwords * 8
  match d.firstFault c.job c.launchArgs n false with
  | some va => ((d.setCmd k c).cmdFault k c.job va).checkUnits k
  | none =>
    let bad := d.jbad c.job c.launchArgs n
    let args := (List.range c.argQwords).map fun i => d.jnat c.job (c.launchArgs + 8 * i) 8
    let d := d.setCmd k { c with unitsOn := c.unitsOn + 2 ^ u }
    let d := (d.cmdPoison k bad).bumpBy (Cat.THR_POISON_ZERO u) bad.length
    let d := d.bumpBy Cat.THR_POISON_ZERO_TOTAL bad.length
    let slots := (d.freeSlots u).take c.bundles
    let engines := (d.freeEngines u).take c.engines
    let d := (List.range slots.length).foldl (fun d i =>
      d.setBundle u ((slots[i]?).getD 0) (Bundle.start k i c.programVa args)) d
    let x := d.unit u
    let d := d.setUnit u { x with mover := { x.mover with count := Tbl.erase x.mover.count k } }
    let d := engines.foldl (fun d e => d.takeEngine k c u e) d
    let d := if engines.isEmpty || d.cget (Cat.TRC_UNIT_ONLY c.job) = 1 then d.traceBegin c u 0xF
      else engines.foldl (fun d e => d.traceBegin c u e) d
    d.engineDue u engines

/-- A compute command starts its part on a unit where it is still to run, if the unit has capacity (R91). -/
def Dev.startIfFits (d : Dev) (k u : Nat) : Dev :=
  match d.cmd? k with
  | none => d
  | some c => if c.cls = 0 && bit c.unitsLeft u && d.unitFits u c then d.startPart k c u else d

/-- LAUNCH: the command is dispatched when a first unit has capacity, and starts at once on every unit that has it; the
others take their parts as they come to have it (R84, R91, R93). -/
def execLaunchD : Nat → Nat → Dev → Dev :=
  Dev.dispatch 0 0 fun k c d =>
    (setBits 72 c.unitMask).foldl (fun d u => d.startIfFits k u) (d.setCmd k { c with unitsLeft := c.unitMask })

/-- A parked command goes on with a unit that did not run, when slack reopens (R93, R98). -/
def execParkedResumeD (at_ k u : Nat) (d : Dev) : Dev :=
  let d := d.advance at_
  match d.cmd? k with
  | none => d
  | some c =>
    if c.cls ≠ 0 || c.st ≠ .parked || !bit c.unitsLeft u || !d.slotAllows c || !d.unitFits u c
        || (d.job c.job).st ≠ .running then d
    else d.startPart k c u

/-! ### The end of a part -/

/-- Engines of a unit that a command owns. -/
def Dev.ownedEngines (d : Dev) (u k : Nat) : List Nat :=
  (List.range 8).filter fun e => (d.engine u e).owner = some k

/-- Nothing of the command is left on the unit: no bundle, no queued tensor instruction, no slip. -/
def Dev.partOver (d : Dev) (u k : Nat) : Bool :=
  let x := d.unit u
  !(x.bundles.any fun kb => kb.2.cmd = k) && (d.ownedEngines u k).all (fun e => (d.engine u e).queue.isEmpty)
    && !(x.mover.queue.any fun s => s.cmd = k) && !(x.mover.ctx.any fun ks => ks.2.cmd = k)

/-- Engines of a part go back, their OPEN tiles discarded and counted (R105, R109). -/
def Dev.freePart (d : Dev) (u k : Nat) : Dev :=
  let es := d.ownedEngines u k
  let d := es.foldl (fun d e =>
    let x := d.engine u e
    let n := x.tiles.length
    let d := d.setEngine u e { x with owner := none, tiles := [], queue := [], ramp := .full, overhang := false }
    (d.bumpBy (Cat.ENG_TILE_DISCARD u e) n).bumpBy Cat.ENG_TILE_DISCARD_TOTAL n) d
  let x := d.unit u
  let d := d.setUnit u { x with
    bars := Tbl.keep (fun key _ => key / 4 ≠ k) x.bars,
    mover := { x.mover with decls := x.mover.decls.filter (fun y => y.cmd ≠ k), count := Tbl.erase x.mover.count k,
                            stopped := x.mover.stopped.filter (· ≠ k) } }
  match d.cmd? k with
  | none => d
  | some c =>
    let whole := es.isEmpty || d.cget (Cat.TRC_UNIT_ONLY c.job) = 1
    let ends := if whole then [(u, 0xF, d.stamp)] else es.map fun e => (u, e, d.stamp)
    d.setCmd k { c with ends := c.ends ++ ends, unitsOn := if bit c.unitsOn u then c.unitsOn - 2 ^ u else c.unitsOn }

/-- Slips of a command that wait in OPEN with no bundle of it left on the unit are ended (R246). -/
def Dev.orphans (d : Dev) (u k : Nat) : Dev :=
  let x := d.unit u
  match d.cmd? k with
  | none => d
  | some c =>
    if c.cls ≠ 0 || c.st = .halted || x.bundles.any (fun kb => kb.2.cmd = k) then d
    else
      let stuck (s : Slip) : Bool := s.cmd = k && (match s.wait with | .opening _ => true | _ => false)
      let n := (x.mover.ctx.filter fun ks => stuck ks.2).length
      let gone (s : Slip) : Bool := stuck s && s.inflight.isEmpty
      let ids := (x.mover.ctx.filter fun ks => gone ks.2).map fun ks => ks.2.id
      (d.setUnit u { x with mover := { x.mover with
        ctx := Tbl.mapVals (fun _ s => if stuck s then { s with wait := .ending } else s)
          (Tbl.keep (fun _ s => !gone s) x.mover.ctx),
        decls := x.mover.decls.filter fun y => !ids.contains y.slip } }).bumpBy Cat.STRM_ORPHAN n

/-- Look whether the command's part on the unit, and with it the command, is over. -/
def Dev.checkPart (d : Dev) (u k : Nat) : Dev :=
  let d := d.orphans u k
  match d.cmd? k with
  | none => d
  | some c =>
    if bit c.unitsOn u && c.st ≠ .halted && d.partOver u k then (d.freePart u k).checkUnits k else d

end Sys2Proof.Machine
end

