-- ==== Sys2Proof/Machine/Wire.lean ====
section
/-! DEFINITION. Frames and Maelgo packets as bytes: Ethernet, IPv4 and UDP headers and checksums (R316 to R323), the Maelgo
header and extension in network byte order (R324 to R328). The formats that IEEE 802.3, IEEE 802.1Q, ARP, IPv4, UDP and TCP
fix are theirs (log entry 66). -/

namespace Sys2Proof.Machine

/-! ### Bytes of a frame -/

/-- `n` bytes from offset `o`, as a number in network byte order. -/
def beAt (l : List Byte) (o n : Nat) : Nat := beNat ((l.drop o).take n)

/-- CRC-32 of IEEE 802.3: bits reflected. -/
def crcByte (c : Nat) : Nat :=
  (List.range 8).foldl (fun c _ => if c % 2 = 1 then c / 2 ^^^ 0xEDB88320 else c / 2) c

def crc32 (l : List Byte) : Nat := l.foldl (fun c b => crcByte ((c ^^^ b.toNat) % 256) ^^^ c / 256) 0xFFFFFFFF ^^^ 0xFFFFFFFF

/-- The FCS that ends a frame. -/
def fcsOf (l : List Byte) : List Byte := leBytes 4 (crc32 l)

/-- A frame without its FCS. -/
def frameBody (l : List Byte) : List Byte := l.take (l.length - 4)

def fcsOk (l : List Byte) : Bool := fcsOf (frameBody l) = l.drop (l.length - 4)

/-- The VIDs of the 802.1Q tags, outermost first; a third one is not looked for. -/
def frameTags (l : List Byte) : List Nat :=
  if beAt l 12 2 ≠ 0x8100 then []
  else (beAt l 14 2 % 4096) :: if beAt l 16 2 = 0x8100 then [beAt l 18 2 % 4096] else []

/-- Where what the EtherType names begins, and the EtherType. -/
def netAt (l : List Byte) : Nat := 14 + 4 * (frameTags l).length
def etherType (l : List Byte) : Nat := beAt l (netAt l - 2) 2

/-- 0 unicast, 1 multicast, 2 broadcast, by the destination address. -/
def castOf (l : List Byte) : Nat :=
  if (l.take 6).all (· = 0xFF) then 2 else if bit (beAt l 0 1) 0 then 1 else 0

/-! ### IPv4, UDP and TCP -/

def isIp (l : List Byte) : Bool := etherType l = 0x0800 && beAt l (netAt l) 1 / 16 = 4

def ipHeadLen (l : List Byte) : Nat := 4 * (beAt l (netAt l) 1 % 16)
def ipProto (l : List Byte) : Nat := beAt l (netAt l + 9) 1
def ipDst (l : List Byte) : Nat := beAt l (netAt l + 16) 4
def ipOptions (l : List Byte) : Bool := ipHeadLen l ≠ 20

/-- More fragments follow, or this is not the first. -/
def ipFragment (l : List Byte) : Bool := beAt l (netAt l + 6) 2 % 0x4000 ≠ 0

/-- The payload of an IPv4 packet. -/
def ipPayload (l : List Byte) : List Byte := (l.drop (netAt l + ipHeadLen l)).take (beAt l (netAt l + 2) 2 - ipHeadLen l)

def udpPort (l : List Byte) : Nat := beAt (ipPayload l) 2 2

/-- The 16-bit words of some bytes, the last padded with a zero byte. -/
def words16 : List Byte → List Nat
  | a :: b :: t => (a.toNat * 256 + b.toNat) :: words16 t
  | [a] => [a.toNat * 256]
  | [] => []

/-- One's complement sum of 16-bit words. -/
def sum16 (l : List Byte) : Nat := (words16 l).foldl (fun s w => (s + w) % 0x10000 + (s + w) / 0x10000) 0

/-- The checksum to send over bytes whose checksum field is zero. -/
def csum16 (l : List Byte) : Nat := 0xFFFF - sum16 l

/-- The pseudo-header before a UDP or TCP segment of `n` bytes. -/
def pseudoHead (l : List Byte) (n : Nat) : List Byte := (l.drop (netAt l + 12)).take 8 ++ beBytes 2 (ipProto l) ++ beBytes 2 n

/-- The IPv4 header checksum is good; none without an IPv4 header. -/
def ipCsum (l : List Byte) : Option Bool :=
  if isIp l then some (sum16 ((l.drop (netAt l)).take (ipHeadLen l)) = 0xFFFF) else none

/-- A whole segment of a protocol. -/
def segment (l : List Byte) (proto : Nat) : Bool := isIp l && ipProto l = proto && !ipFragment l

/-- The UDP checksum is good; none where there is none to check. -/
def udpCsum (l : List Byte) : Option Bool :=
  let s := ipPayload l
  if segment l 17 && beAt s 6 2 ≠ 0 then some (sum16 (pseudoHead l s.length ++ s) = 0xFFFF) else none

def tcpCsum (l : List Byte) : Option Bool :=
  let s := ipPayload l
  if segment l 6 then some (sum16 (pseudoHead l s.length ++ s) = 0xFFFF) else none

/-- Bytes `v` in place of those from offset `o` on. -/
def putAt (l : List Byte) (o : Nat) (v : List Byte) : List Byte := l.take o ++ v ++ l.drop (o + v.length)

/-- The IPv4 header checksum of a frame is computed into it. -/
def withIpCsum (l : List Byte) : List Byte :=
  if !isIp l then l
  else
    let l := putAt l (netAt l + 10) [0, 0]
    putAt l (netAt l + 10) (beBytes 2 (csum16 ((l.drop (netAt l)).take (ipHeadLen l))))

/-- The checksum of its segment, at offset `o` of it; for UDP a sum of zero is sent as 0xFFFF. -/
def withSegCsum (l : List Byte) (proto o : Nat) : List Byte :=
  if !segment l proto then l
  else
    let at_ := netAt l + ipHeadLen l + o
    let l := putAt l at_ [0, 0]
    let s := ipPayload l
    let c := csum16 (pseudoHead l s.length ++ s)
    putAt l at_ (beBytes 2 (if c = 0 && proto = 17 then 0xFFFF else c))

/-- A frame with the port's tag, when it has one (R317). -/
def withTag (tci : Option Nat) (l : List Byte) : List Byte :=
  match tci with
  | some t => l.take 12 ++ [0x81, 0] ++ beBytes 2 t ++ l.drop 12
  | none => l

/-- A frame of a host ring as it leaves (R319): its checksums, its tag, its FCS. -/
def hostFrame (tci : Option Nat) (l : List Byte) : List Byte :=
  let l := withTag tci (withIpCsum (withSegCsum (withSegCsum l 17 6) 6 16))
  l ++ fcsOf l

/-! ### Op codes and packet forms (R325 to R328) -/

def opWrite : Nat := 1
def opSeal : Nat := 2
def opReadReq : Nat := 3
def opReadResp : Nat := 4
def opAck : Nat := 5
def opNack : Nat := 6
def opContrib : Nat := 7
def opVote : Nat := 8
def opPace : Nat := 9
def opMgmt : Nat := 10
def opTtsync : Nat := 11

def opReserved (op : Nat) : Bool := op = 0 || 11 < op

/-- A sequenced op (R327). -/
def opSequenced (op : Nat) : Bool := op = 1 || op = 2 || op = 3 || op = 7 || op = 8 || op = 10

/-- Bytes of the extension (R327, R360, R369, R373, R458). -/
def opExtLen (op : Nat) : Nat :=
  if op = 1 || op = 2 || op = 10 then 16
  else if op = 4 then 48
  else if op = 11 then 64
  else 32

/-- Frame bytes of a Maelgo packet (R323). -/
def maelgoBytes (tagged : Bool) (extLen payload : Nat) : Nat :=
  14 + (if tagged then 4 else 0) + 20 + 8 + 32 + extLen + payload + 16 + 4

/-- The Maelgo header as a number of 256 bits (R325). -/
def maelgoHeader (op flags tenant conn region seq stamp step len pn : Nat) : Nat :=
  2 ^ 252 + op % 2 ^ 4 * 2 ^ 248 + flags % 2 ^ 8 * 2 ^ 240 + tenant % 2 ^ 16 * 2 ^ 224 + conn % 2 ^ 19 * 2 ^ 205
    + region % 2 ^ 32 * 2 ^ 166 + seq % 2 ^ 32 * 2 ^ 134 + stamp % 2 ^ 40 * 2 ^ 94 + step % 2 ^ 32 * 2 ^ 62
    + len % 2 ^ 14 * 2 ^ 48 + pn % 2 ^ 48

/-- What stands before a packet's Maelgo header (R323). -/
structure WireHead where
  dstMac : List Byte
  srcMac : List Byte
  /-- the 802.1Q tag control information of a tagged port -/
  tci : Option Nat
  dscp : Nat
  /-- IPv4 identification: the spec gives none -/
  ident : Nat
  srcIp : Nat
  dstIp : Nat
  srcPort : Nat
  dstPort : Nat
  /-- NET_MAELGO_UDPCSUM -/
  csum : Bool
deriving DecidableEq, Repr

/-- The frame of a packet, from its headers and what follows UDP's; FCS included. ECN is ECT(0), DF set, TTL 64. -/
def WireHead.frame (h : WireHead) (body : List Byte) : List Byte :=
  let udp := beBytes 2 h.srcPort ++ beBytes 2 h.dstPort ++ beBytes 2 (8 + body.length) ++ [0, 0]
  let ip := [0x45] ++ beBytes 1 (h.dscp * 4 + 2) ++ beBytes 2 (28 + body.length) ++ beBytes 2 h.ident
    ++ [0x40, 0, 64, 17, 0, 0] ++ beBytes 4 h.srcIp ++ beBytes 4 h.dstIp
  let l := fit 6 h.dstMac ++ fit 6 h.srcMac ++ [0x08, 0] ++ ip ++ udp ++ body
  let l := withTag h.tci (withIpCsum (if h.csum then withSegCsum l 17 6 else l))
  l ++ fcsOf l

/-- Header, extension, ciphertext and tag of a packet under a key (R330). -/
def maelgoBody (key iv : List Byte) (header ext extLen : Nat) (payload : List Byte) : List Byte :=
  let aad := beBytes 32 header ++ beBytes extLen ext
  let c := gcmSeal key iv aad payload
  aad ++ c.1 ++ c.2

end Sys2Proof.Machine

namespace Sys2Proof

open Sys2Proof.Machine

/-! ### The fields of a received packet (R323 to R328) -/

/-- Where its Maelgo header stands. -/
def Pkt.headAt (p : Pkt) : Nat := netAt p.data + 28

def Pkt.header (p : Pkt) : Nat := beAt p.data p.headAt 32
def Pkt.ver (p : Pkt) : Nat := fld p.header 252 4
def Pkt.op (p : Pkt) : Nat := fld p.header 248 4
def Pkt.flags (p : Pkt) : BitVec 8 := BitVec.ofNat 8 (fld p.header 240 8)
def Pkt.tenant (p : Pkt) : Nat := fld p.header 224 16
def Pkt.conn (p : Pkt) : Nat := fld p.header 205 19
def Pkt.rsv (p : Pkt) : Nat := fld p.header 198 7
def Pkt.region (p : Pkt) : Nat := fld p.header 166 32
def Pkt.seq (p : Pkt) : Word := BitVec.ofNat 32 (fld p.header 134 32)
def Pkt.stamp (p : Pkt) : Nat := fld p.header 94 40
def Pkt.step (p : Pkt) : Nat := fld p.header 62 32
def Pkt.len (p : Pkt) : Nat := fld p.header 48 14
def Pkt.pn (p : Pkt) : Nat := fld p.header 0 48

def Pkt.extLen (p : Pkt) : Nat := opExtLen p.op

/-- The extension, with its bits as R328 numbers them. -/
def Pkt.ext (p : Pkt) : Nat := beAt p.data (p.headAt + 32) p.extLen

def Pkt.aad (p : Pkt) : List Byte := (p.data.drop p.headAt).take (32 + p.extLen)
def Pkt.cipher (p : Pkt) : List Byte := (p.data.drop (p.headAt + 32 + p.extLen)).take p.len
def Pkt.tag (p : Pkt) : List Byte := (p.data.drop (p.headAt + 32 + p.extLen + p.len)).take 16

/-- Frame bytes, FCS included. -/
def Pkt.frameBytes (p : Pkt) : Nat := p.data.length

/-- A switch has set ECN CE. -/
def Pkt.ce (p : Pkt) : Bool := beAt p.data (netAt p.data + 1) 1 % 4 = 3

end Sys2Proof
end

