-- ==== Sys2Proof/Machine/Mac.lean ====
section
/-! DEFINITION. The data-port MACs: their 48-bit counters and what a transmitted frame counts (R313, R316 to R322). -/

namespace Sys2Proof.Machine

/-- Data ports in the configuration in force (R313). -/
def Dev.portCount (d : Dev) : Nat := if d.cget Cat.NET_PORT_MODE = 0 then 4 else 8

/-- The link of a data port is up, and the data plane is released. -/
def Dev.netUp (d : Dev) (p : Nat) : Bool := d.released && p < d.portCount && d.cget (Cat.NET_PORT_LINK p) = 2

/-- Field `n` of port `p` rises by `k`, modulo 2^48; when bit 47 becomes 1, its bit of NET_CNT_HALF is set and the vector
of NET_CNT_VECTOR raised (R322). -/
def Dev.macBy (d : Dev) (p n k : Nat) : Dev :=
  let old := d.cget (Cat.macCtr p n)
  let new := (old + k) % 2 ^ 48
  let d := d.cset (Cat.macCtr p n) new
  if bit old 47 || !bit new 47 then d
  else
    let half := leNat (d.bget Cat.NET_CNT_HALF)
    let d := d.bset Cat.NET_CNT_HALF (leBytes 64 (setFld half (64 * p + n) 1 1))
    let v := d.cget Cat.NET_CNT_VECTOR
    if bit v 14 then d.raiseMsix (fld v 15 1) (fld v 0 11) else d

def Dev.mac (d : Dev) (p n : Nat) : Dev := d.macBy p n 1

/-- The size class of a frame, as an offset to the first size counter (R322). -/
def sizeClass (len : Nat) : Nat :=
  ([64, 127, 255, 511, 1023, 1518, 2047, 4095, 8191].filter fun top => top < len).length

/-- Port `p` carries one 802.1Q tag (R317). -/
def Dev.taggedPort (d : Dev) (p : Nat) : Bool := bit (d.cget (Cat.NET_PORT_VLAN p)) 15

def castCtr (base cast : Nat) : Nat := base + min cast 2

/-- A frame of `len` bytes leaves port `p`; `cast` is 0 unicast, 1 multicast, 2 broadcast. -/
def Dev.macSent (d : Dev) (p len cast : Nat) : Dev :=
  let d := (((d.mac p Cat.TX_FRAMES_OK).macBy p Cat.TX_BYTES_OK len).mac p (Cat.TX_SIZE0 + sizeClass len)).mac p
    (castCtr Cat.TX_UNICAST cast)
  if d.taggedPort p then d.mac p Cat.TX_VLAN else d

/-- The 802.1Q tag that a port inserts, with this priority (R317). -/
def Dev.txTag (d : Dev) (p pcp : Nat) : Option Nat :=
  if d.taggedPort p then some (pcp % 8 * 2 ^ 13 + fld (d.cget (Cat.NET_PORT_VLAN p)) 0 12) else none

/-- A frame that was counted as sent did not end well: it leaves the counts of good frames (R321). -/
def Dev.macUnsent (d : Dev) (p len cast : Nat) (maelgo : Bool) : Dev :=
  let off (d : Dev) (n k : Nat) : Dev := d.cset (Cat.macCtr p n) ((d.cget (Cat.macCtr p n) + 2 ^ 48 - k % 2 ^ 48) % 2 ^ 48)
  let d := off (off (off (off d Cat.TX_FRAMES_OK 1) Cat.TX_BYTES_OK len) (Cat.TX_SIZE0 + sizeClass len) 1)
    (castCtr Cat.TX_UNICAST cast) 1
  let d := if maelgo then off d Cat.TX_MAELGO 1 else d
  if d.taggedPort p then off d Cat.TX_VLAN 1 else d

def Dev.setLastTx (d : Dev) (p : Nat) (x : LastTx) : Dev :=
  { d with net := { d.net with lastTx := Tbl.set d.net.lastTx p x } }

def Dev.noLastTx (d : Dev) (p : Nat) : Dev := { d with net := { d.net with lastTx := Tbl.erase d.net.lastTx p } }

/-- A PTP message leaves the timing port (R31); its length is the protocol's, outside the spec. -/
def Dev.sendPtp (d : Dev) (p kind : Nat) : Dev :=
  if !d.netUp p then d
  else
    let (n, d) := d.take
    let d := d.noLastTx p
    ((d.macSent p (64 + n % 64) 1).mac p Cat.TX_PTP).emit (.ptp p kind (d.cget Cat.PTP_TRANSPORT) d.now)

end Sys2Proof.Machine
end

