-- ==== Sys2Proof/Machine/Memory.lean ====
section
/-! DEFINITION. Memory tiers, placement and quotas (R206 to R228): what a job uses, where pages go, allocation, free,
bring-in, retirement, quotas, scrubs. -/

namespace Sys2Proof.Machine

/-! ### Spans and room (R205, R210, R217, R223) -/

def pageSize : Nat → Nat
  | 0 => 0x1_0000 | 1 => 0x20_0000 | _ => 0x4000_0000

/-- Bytes of a die's tier 3 span that pages may take. -/
def Dev.t3Limit (d : Dev) : Nat := if d.integrityOn then carveOut else fwReserve

/-- Tier of a physical address: 2, 3, 4, or 0 for anything else. -/
def Dev.tierOf (d : Dev) (pa : Nat) : Nat :=
  match d.region pa with
  | .tier2 _ => 2
  | .tier3 _ => 3
  | .host _ => 4
  | _ => 0

/-- Two stretches of addresses share a byte. -/
def overlaps (a n b m : Nat) : Bool := a < b + m && b < a + n

/-- Physical stretches in use: every job's pages, and the retired ones. -/
def Dev.taken (d : Dev) : List (Nat × Nat) :=
  (d.jobs.map fun kj => kj.2.pages.map fun p => (p.pa, p.size)).flatten ++ d.nv.retired.map fun a => (a, 0x1_0000)

/-- The lowest multiple of `size` from `base` up to `limit` that is apart from the stretches; or the address `want`
when that one is as good: where several places fit, the choice is the device's own. -/
def placeIn (taken : List (Nat × Nat)) (base limit size want : Nat) : Option Nat :=
  let ok (a : Nat) : Bool :=
    base ≤ a && a + size ≤ limit && a % size = 0 && !(taken.any fun t => overlaps a size t.1 t.2)
  if ok want then some want
  else (((ceilDiv base size * size) :: taken.map fun t => ceilDiv (t.1 + t.2) size * size).filter ok).min?

/-- A place for a page of a tier on a die. -/
def Dev.placeOn (d : Dev) (tier die size : Nat) (taken : List (Nat × Nat)) (k : Nat) : Option Nat :=
  let base := if tier = 2 then t2Base + die * t2Span else die * dieSpan
  let span := if tier = 2 then t2Span else d.t3Limit
  placeIn taken base (base + span) size (base + d.free k % span / size * size)

/-! ### Use and quotas (R216, R217) -/

def Job.bytesIn (d : Dev) (x : Job) (tier : Nat) : Nat := ((x.pages.filter fun p => d.tierOf p.pa = tier).map (·.size)).sum

/-- The job's ranges in the windows of tier 1, which 64 KiB leaves map (R206, R215). -/
def Job.t1Ranges (x : Job) : List (Nat × Nat) :=
  match x.t1 with
  | none => []
  | some g =>
    (setBits 64 g.groups).map (fun k => (x.t1Va + k * scratchSpan + g.scratchOff, g.scratchLen))
      ++ (setBits 8 g.dies).map fun k => (x.t1Va + 0x4000_0000 + k * sramStep + g.sramOff, g.sramLen)

/-- Stretches of job address space that leaves map: start, length, and the size of the leaves. -/
def leafRuns (pages : List Page) (t1 : List (Nat × Nat)) : List (Nat × Nat × Nat) :=
  pages.map (fun p => (p.va, p.size, p.size)) ++ (t1.filter fun t => t.2 ≠ 0).map fun t => (t.1, t.2, 0x1_0000)

/-- Tables that map stretches whose leaves are smaller than `leaf`, one for each `span` bytes of address space touched. -/
def tablesOver (runs : List (Nat × Nat × Nat)) (leaf span : Nat) : Nat :=
  ((runs.filter fun r => r.2.2 < leaf).flatMap fun r =>
    (List.range ((r.1 + r.2.1 - 1) / span - r.1 / span + 1)).map fun i => r.1 / span + i).dedup.length

/-- Bytes of the page tables that a job's leaves need, in 64 KiB steps (R206, R216). -/
def tableBytes (pages : List Page) (t1 : List (Nat × Nat)) : Nat :=
  let runs := leafRuns pages t1
  if runs.isEmpty then 0
  else
    ceilDiv (0x1_0000 + 4096 * tablesOver runs (2 ^ 39) (2 ^ 39) + 4096 * tablesOver runs (2 ^ 30) (2 ^ 30)
      + 256 * tablesOver runs (2 ^ 21) (2 ^ 21)) 0x1_0000 * 0x1_0000

/-- Connections and regions that a job holds. -/
def Dev.connsOf (d : Dev) (j : Nat) : Nat := (d.net.conns.filter fun c => c.2.job = j).length
def Dev.regionsOf (d : Dev) (j : Nat) : Nat := (d.net.regions.filter fun r => r.2.st ≠ .free && r.2.job = j).length

/-- Use of a job against quota kind 1 to 6. -/
def Dev.used (d : Dev) (j kind : Nat) : Nat :=
  let x := d.job j
  match kind with
  | 1 => x.bytesIn d 2
  | 2 => x.bytesIn d 3 + tableBytes x.pages x.t1Ranges
  | 3 => x.bytesIn d 4
  | 4 => d.connsOf j
  | 5 => d.regionsOf j
  | _ => d.cget (Cat.TRC_RING_BYTES j) + d.cget (Cat.SMP_RING_BYTES j)

def Dev.quota (d : Dev) (j kind : Nat) : Nat := d.cget (Cat.MEM_QUOTA j kind)

/-- The device's capacity for a kind. -/
def Dev.capacity (d : Dev) (kind : Nat) : Nat :=
  match kind with
  | 1 => 8 * t2Span
  | 2 => 8 * d.t3Limit - 0x1_0000 * d.nv.retired.length
  | 3 => 2 * hostSpan
  | 4 => 524288
  | 5 => 65536
  | _ => 64 * 0x4000_0000

/-- A request of the job is refused: MEM_LAST_STATUS (R234). -/
def Dev.lastStatus (d : Dev) (j status kind : Nat) : Dev := d.cset (Cat.MEM_LAST_STATUS j) (status * 256 + kind)

def Dev.refuseQuota (d : Dev) (j kind : Nat) : WriteResult := refuse (d.lastStatus j 0x21 kind) stDenied

/-! ### MEM_ALLOC (R210, R211) -/

def aTier (n : Nat) : Nat := fld n 52 2
def aSize (n : Nat) : Nat := fld n 128 64
def aVa (n : Nat) : Nat := fld n 76 52
def aHost (n : Nat) : Nat := fld n 192 64
def aPort (n : Nat) : Nat := fld n 47 1
def aPage (n : Nat) : Nat := pageSize (fld n 54 2)

/-- The record breaks R210 (or R431: a host address outside the window of its port). -/
def Dev.allocBad (d : Dev) (n : Nat) : Bool :=
  let size := aPage n
  let base := d.cget (Cat.HOST_WIN_BASE (aPort n))
  aTier n = 3 || fld n 54 2 = 3 || (aTier n = 0 && fld n 54 2 = 2) || fld n 0 47 ≠ 0 || aSize n = 0
    || aSize n % size ≠ 0 || aVa n % size ≠ 0
    || (if aTier n = 2 then aHost n % size ≠ 0 || aHost n < base || base + hostSpan < aHost n + aSize n
        else aHost n ≠ 0 || !bit n 49 || bit n 48)

/-- Stretches of the job's address space that are mapped: allocations, and its ranges of tier 1. -/
def Job.mapped (x : Job) : List (Nat × Nat) :=
  x.pages.map (fun p => (p.va, p.size)) ++ x.t1Ranges

/-- Physical pages for `n` pages of an allocation: die by die as SPREAD says (R210). None when one finds no room. -/
def Dev.placePages (d : Dev) (tier size mask : Nat) (spread : Bool) (n : Nat) : Option (List Nat) :=
  let dies := setBits 8 (if mask = 0 then 0xFF else mask)
  ((List.range n).foldl (fun (s : Option (List Nat × List (Nat × Nat))) i =>
    match s with
    | none => none
    | some (got, taken) =>
      let t := i % dies.length
      let order := if spread then dies.drop t ++ dies.take t else dies
      match order.findSome? fun die => d.placeOn tier die size taken i with
      | none => none
      | some pa => some (pa :: got, (pa, size) :: taken)) (some ([], d.taken))).map fun s => s.1.reverse

/-- The kind that an allocation is charged to. -/
def allocKind (n : Nat) : Nat := aTier n + 1

/-- Where an allocation of `n` goes in job `j`'s address space: where the record says, or at a free place at a multiple of the
page size, which is the device's own choice; page 0 is never chosen. A request that runs past the end of the address space finds
no place, like one that overlaps a mapping (log entry 43). -/
def Dev.allocVa (d : Dev) (j n : Nat) : Option Nat :=
  let size := aPage n
  let x := d.job j
  if aVa n = 0 then
    let want := (d.free 0 % 2 ^ 52) / size * size
    let taken := (0, size) :: x.mapped
    -- the whole request must fit: a page at a multiple of the page size with room behind it
    let ok (a : Nat) : Bool := a + aSize n ≤ 2 ^ 52 && !(taken.any fun t => overlaps a (aSize n) t.1 t.2)
    if ok want then some want
    else ((taken.map fun t => ceilDiv (t.1 + t.2) size * size).filter ok).min?
  else if 2 ^ 52 < aVa n + aSize n || x.mapped.any fun t => overlaps (aVa n) (aSize n) t.1 t.2 then none
  else some (aVa n)

/-- The pages of an allocation at `va`, on these physical ones. -/
def newPages (n va : Nat) (pas : List Nat) : List Page :=
  (List.range (aSize n / aPage n)).map fun i =>
    { va := va + i * aPage n, size := aPage n, pa := (pas[i]?).getD 0, writable := bit n 50, enc := bit n 49,
      migrate := bit n 48, alloc := va }

/-- The quota kind that an allocation at `va` would exceed, its page tables included. -/
def Dev.overQuota (d : Dev) (j n va : Nat) : Option Nat :=
  let x := d.job j
  let kind := allocKind n
  if d.quota j kind < (if kind = 2 then x.bytesIn d 3 else d.used j kind) + aSize n then some kind
  else if d.quota j 2 < x.bytesIn d 3 + (if kind = 2 then aSize n else 0) + tableBytes (x.pages ++ newPages n va []) x.t1Ranges then
    some 2
  else none

/-- Physical address of the host memory that an allocation of tier 4 names. -/
def Dev.hostPlace (d : Dev) (n : Nat) : Nat := hostBase + aPort n * hostSpan + (aHost n - d.cget (Cat.HOST_WIN_BASE (aPort n)))

/-- The physical pages of an allocation: the host memory named, or pages of its tier; none when there is no room. -/
def Dev.allocPlaces (d : Dev) (n : Nat) : Option (List Nat) :=
  let count := aSize n / aPage n
  if aTier n = 2 then
    if d.taken.any fun t => overlaps (d.hostPlace n) (aSize n) t.1 t.2 then none
    else some ((List.range count).map fun i => d.hostPlace n + i * aPage n)
  else d.placePages (aTier n + 2) (aPage n) (fld n 56 8) (bit n 51) count

/-- An allocation request of job `j`, decided: the record as read back, or RESULT and QKIND of a refusal. -/
def Dev.allocate (d : Dev) (j n : Nat) : WriteResult :=
  let x := d.job j
  let n := setFld (setFld n 68 8 0) 64 4 0
  let keep (d : Dev) (n : Nat) : Dev := d.setJob j { d.job j with allocRec := n }
  let deny (kind : Nat) : WriteResult := (keep d (setFld (setFld n 68 8 0x21) 64 4 kind)).refuseQuota j kind
  if d.allocBad n then refuse ((keep d (setFld n 68 8 0x30)).lastStatus j 0x30 0) stBadType
  else
    match d.allocVa j n with
    | none => deny (allocKind n)
    | some va =>
      match d.overQuota j n va, d.allocPlaces n with
      | some kind, _ => deny kind
      | none, none => deny (allocKind n)
      | none, some pas =>
        let d := d.takeN (pas.length + 1)
        let d := if aTier n = 2 then d else pas.foldl (fun d pa => d.zeroPage pa (aPage n)) d
        let d := d.setJob j { d.job j with pages := x.pages ++ newPages n va pas }
        ⟨keep d (setFld n 76 52 va), stOk, false⟩

def execMemAllocD (r : Req) (j : Nat) (rec : List Byte) : Dev → Dev :=
  catWrite r (0x3100 + j) 0x20 rec .byTable (fun _ => j < 16) fun d =>
    if rec.length ≠ 32 then
      let n := setFld (setFld (leNat (rec.take 32)) 68 8 0x30) 64 4 0
      refuse ((d.setJob j { d.job j with allocRec := n }).lastStatus j 0x30 0) stBadType
    else d.allocate j (leNat rec)

/-! ### MEM_FREE (R213, R345) -/

/-- Writes already issued are accepted before a page goes: the stores of every unit, and what slips have in flight. -/
def Dev.drainWrites (d : Dev) (pages : List Page) : Dev :=
  let hit (pa : Nat) : Bool := pages.any fun p => p.pa ≤ pa % 2 ^ 64 && pa % 2 ^ 64 < p.pa + p.size
  let stores := (d.units.map fun ku => (ku.2.stores.filter fun p => hit p.pa).map fun p => (p, ())).flatten
  let moves := (d.units.map fun ku =>
    (ku.2.mover.ctx.map fun ks => (ks.2.inflight.map fun t => t.writes.filter fun w => hit w.1).flatten).flatten).flatten
  let drop (s : Slip) : Slip :=
    { s with inflight := s.inflight.map (fun t => { t with writes := t.writes.filter (fun w => !hit w.1) }) }
  let clear (x : ExecUnit) : ExecUnit :=
    { x with stores := x.stores.filter (fun p => !hit p.pa),
             mover := { x.mover with ctx := Tbl.mapVals (fun _ s => drop s) x.mover.ctx } }
  let d := { d with units := Tbl.mapVals (fun _ x => clear x) d.units }
  let d := stores.foldl (fun d p => d.acceptStore p.1) d
  moves.foldl (fun d w => d.wrLine w.1 w.2) d

/-- A VALID or REVOKING region of the job overlaps these job addresses. -/
def Dev.regionOver (d : Dev) (j va len : Nat) : Bool :=
  d.net.regions.any fun kr => kr.2.st ≠ .free && kr.2.job = j && overlaps (fld kr.2.record 460 52) (fld kr.2.record 416 40) va len

/-- Pages of the allocation that starts at `va`. -/
def Job.allocPages (x : Job) (va : Nat) : List Page := x.pages.filter fun p => p.alloc = va

def execMemFreeD (r : Req) (j v : Nat) : Dev → Dev :=
  catWrite r (0x3100 + j) 0x21 (leBytes 8 v) .byTable (fun _ => j < 16 && v < 2 ^ 64) fun d =>
    let x := d.job j
    let ps := x.allocPages v
    if ps.isEmpty then refuse d stNoEntry
    else if d.regionOver j v (ps.map (·.size)).sum then refuse d stDenied
    else
      let d := d.drainWrites ps
      ⟨(d.setJob j { d.job j with pages := x.pages.filter fun p => p.alloc ≠ v }).cset (Cat.MEM_FREE j) v, stOk, false⟩

/-! ### MEM_BRING_IN (R214) -/

/-- The bytes of a host page, copied; a lost port's lines read as zeros, and those of an encrypted page are decrypted. -/
def Dev.copyFromHost (d : Dev) (src dst n : Nat) : Dev :=
  { d with mem :=
      if d.badLine src then memZero d.mem dst n
      else if src < 2 ^ 64 then memCopy d.mem (d.cell src) dst n
      else memWrite d.mem dst ((List.range (n / 64)).flatMap fun i => d.plainLine (src + 64 * i)) }

def execMemBringInD (r : Req) (j v : Nat) : Dev → Dev :=
  catWrite r (0x3100 + j) 0x22 (leBytes 8 v) .byTable (fun _ => j < 16 && v < 2 ^ 64 && fld v 52 4 = 0) fun d =>
    let x := d.job j
    let d := d.cset (Cat.MEM_BRING_IN j) v
    match x.pages.find? fun p => p.va = fld v 0 52 && p.migrate && d.tierOf p.pa = 4 with
    | none => refuse d stNoEntry
    | some p =>
      if d.quota j 2 < d.used j 2 + p.size then d.refuseQuota j 2
      else
        match d.placePages 3 p.size (fld v 56 8) false 1 with
        | some [pa] =>
          let d := (d.takeN 1).zeroPage pa p.size
          let d := d.copyFromHost (d.keyedFor j p.pa p) pa p.size
          let pages := x.pages.map fun q => if q.va = p.va then { q with pa := pa, migrate := false, enc := true } else q
          ⟨(d.setJob j { d.job j with pages := pages }).bump (Cat.MEM_BRING_INS j), stOk, false⟩
        | _ => d.refuseQuota j 2

/-! ### MEM_RETIRE (R223) -/

/-- The sum of all jobs' quotas of a kind, but for job `j`. -/
def Dev.quotaSum (d : Dev) (kind : Nat) (but : Nat) : Nat :=
  (((List.range 16).filter fun j => j ≠ but).map fun j => d.quota j kind).sum

/-- A page mapped into a stopped job moves to a fresh page of its die span, poison and all. -/
def Dev.evacuate (d : Dev) (a : Nat) : Dev :=
  match d.jobs.find? fun kj => kj.2.isStopped && kj.2.pages.any fun p => overlaps p.pa p.size a 0x1_0000 with
  | none => d
  | some (j, x) =>
    match x.pages.find? fun p => overlaps p.pa p.size a 0x1_0000 with
    | none => d
    | some p =>
      match d.placeOn 3 (p.pa / dieSpan) p.size d.taken 0 with
      | none => d
      | some pa =>
        let lines := d.poison.filter fun kl => p.pa ≤ 64 * kl.1 && 64 * kl.1 < p.pa + p.size
        let d := (d.takeN 1).zeroPage pa p.size
        let d := { d with mem := memCopy d.mem p.pa pa p.size }
        let d := lines.foldl (fun d kl => d.setPoison (pa / 64 + (kl.1 - p.pa / 64))) d
        d.setJob j { d.job j with pages := x.pages.map fun q => if q.va = p.va then { q with pa := pa } else q }

def execMemRetireD (r : Req) (v : Nat) : Dev → Dev :=
  catWrite r 0x3000 3 (leBytes 8 v) .byTable (fun _ => v % 0x1_0000 = 0 && v < t2Base) fun d =>
    if 4095 < d.nv.retired.length then refuse ((d.bump Cat.MEM_RETIRE_FULL).alert 10) stDenied
    else if d.nv.retired.contains v then ⟨d, stOk, false⟩
    else
      let d : Dev := { d with nv := { d.nv with retired := d.nv.retired ++ [v] } }
      let d := d.evacuate v
      ⟨if d.capacity 2 < d.quotaSum 2 16 then d.alert 3 else d, stOk, false⟩

/-! ### Quotas (R216, R217) -/

/-- Fields of a tier 1 quota. -/
def q1Groups (n : Nat) : Nat := fld n 192 64
def q1Dies (n : Nat) : Nat := fld n 184 8
def q1Engines (n : Nat) : Nat := fld n 180 4
def q1Bundles (n : Nat) : Nat := fld n 175 5
def q1DieBundles (n : Nat) : Nat := fld n 171 4
def q1Scratch (n : Nat) : Nat := fld n 150 21 * 0x1_0000
def q1Sram (n : Nat) : Nat := fld n 128 22 * 0x1_0000

def t1QuotaForm (n : Nat) : Bool :=
  q1Engines n ≤ 8 && q1Bundles n ≤ 16 && q1DieBundles n ≤ 8 && fld n 150 21 ≤ 64 && fld n 128 22 ≤ 384 && fld n 0 128 = 0

def Dev.t1Quota (d : Dev) (j : Nat) : Nat := leNat (d.bget (Cat.MEM_QUOTA_T1 j))

/-- With this quota for job `j`, no group and no die is granted beyond what it holds. -/
def Dev.t1QuotaFits (d : Dev) (j n : Nat) : Bool :=
  let qs := n :: ((List.range 16).filter (· ≠ j)).map d.t1Quota
  ((List.range 64).all fun g =>
    let on := qs.filter fun q => bit (q1Groups q) g
    (on.map q1Scratch).sum ≤ scratchSpan && (on.map q1Engines).sum ≤ 8 && (on.map q1Bundles).sum ≤ 16)
  && (List.range 8).all fun k =>
    let on := qs.filter fun q => bit (q1Dies q) k
    (on.map q1Sram).sum ≤ sramSize && (on.map q1DieBundles).sum ≤ 8

def execQuotaWriteD (r : Req) (j kind : Nat) (v : List Byte) : Dev → Dev :=
  catWrite r (0x3100 + j) kind v .byTable
    (fun _ => j < 16 && kind ≤ 6 &&
      (if kind = 0 then v.length = 32 && t1QuotaForm (leNat v)
       else kind = 4 || kind = 5 || leNat v % 0x1_0000 = 0)) fun d =>
    if kind = 0 then
      if !d.t1QuotaFits j (leNat v) then refuse d stDenied
      else ⟨(d.bset (Cat.MEM_QUOTA_T1 j) v).setJob j { d.job j with t1Stale := true }, stOk, false⟩
    else if d.capacity kind < d.quotaSum kind j + leNat v || leNat v < d.used j kind then refuse d stDenied
    else ⟨d.cset (Cat.MEM_QUOTA j kind) (leNat v), stOk, false⟩

/-! ### Where lines lie; scrubs and the long operations of memory (R218, R219, R221 to R228) -/

/-- Where a controller keeps the line of tier 3 at a physical address: channel and LPDDR6 package of its die, and the line's
place in its granule (R218). -/
def t3Place (pa : Nat) : Nat × Nat × Nat :=
  let x := pa % dieSpan
  let channel := (x >>> 8 ^^^ x >>> 16 ^^^ x >>> 24) % 16
  (channel, channel / 4, x / 64 % 4)

/-- The internal channel of its die that a granule of tier 2 lies on (R224). -/
def t2Channel (pa : Nat) : Nat := fld pa 8 5

/-- Where the tag of the granule at a physical address of tier 3 lies (R226). -/
def tagAddr (pa : Nat) : Nat := pa / dieSpan * dieSpan + carveOut + 8 * (pa % dieSpan / 256)

/-- The Stacks die whose tier 2 or tier 3 holds a physical address, the carve-out and the firmware reserve too (R19). -/
def memDie (pa : Nat) : Option Nat :=
  if pa < t2Base then some (pa / dieSpan) else if pa < t2Base + 8 * t2Span then some ((pa - t2Base) / t2Span) else none

/-- A tag that fails: with tags on, the four lines of a granule of tier 3 below the carve-out are poisoned (R226). -/
def Dev.tagFails (d : Dev) (line : Nat) : Dev :=
  match d.region (64 * line) with
  | .tier3 i =>
    if !d.integrityOn then d
    else (((List.range 4).foldl (fun d m => d.setPoison (line / 4 * 4 + m)) d).bump (Cat.MEM_INTEGRITY_FAIL i)).alert 1
  | _ => d

/-- A line of a die that a controller finds in error: corrected and written back, or poisoned; a poisoned one is left so
(R219, R220). -/
def Dev.lineError (d : Dev) (die : Nat) (h : ScrubHit) : Dev :=
  if h.tag then d.tagFails h.line
  else if d.isPoisoned h.line then d
  else if h.corrected then
    { (d.bump (Cat.MEM_ECC_CORR die)) with mem3 := { d.mem3 with corrected := d.mem3.corrected ++ [(die, d.now)] } }
  else (d.setPoison h.line).bump (Cat.MEM_ECC_UNCORR die)

/-- What reading lines of a die finds; ALERT_N is raised when the corrected reads of the last hour are more than
MEM_ECC_CORR_ALERT (R219). -/
def Dev.scrubHits (d : Dev) (die : Nat) (hits : List ScrubHit) : Dev :=
  let d := (hits.filter fun h => memDie (64 * h.line) = some die).foldl (fun d h => d.lineError die h) d
  let recent := d.mem3.corrected.filter fun c => d.now < c.2 + 3600 * 8000000000
  let d := { d with mem3 := { d.mem3 with corrected := recent } }
  if d.cget Cat.MEM_ECC_CORR_ALERT < (recent.filter fun c => c.1 = die).length then d.alert 0 else d

def Dev.scrubPass (d : Dev) (die : Nat) (hits : List ScrubHit) : Dev :=
  (d.scrubHits die hits).bump (Cat.MEM_SCRUB_PASSES die)

/-- The background scrub has read lines of a die. Its pass is complete once MEM_SCRUB_PERIOD has gone by since the last one
(R221). An error that an ordinary read meets is found by a scrub just before that read (log entry 44). -/
def execPatrolScrubD (at_ die : Nat) (hits : List ScrubHit) (d : Dev) : Dev :=
  let d := d.advance at_
  if 8 ≤ die || !d.released then d
  else if d.now < Tbl.getD d.mem3.patrolAt die 0 + d.cget Cat.MEM_SCRUB_PERIOD * 8000000000 then d.scrubHits die hits
  else { (d.scrubPass die hits) with mem3 := { (d.scrubHits die hits).mem3 with patrolAt := Tbl.set d.mem3.patrolAt die d.now } }

/-- A start of a long operation by a write of entry `index.field`. -/
def longWrite (r : Req) (index field : Nat) (v : List Byte) (own : Dev → Bool) (k : LongKind) : Dev → Dev :=
  catWrite r index field v .byTable own fun d => d.startLong r index field v none k

def execMemScrubFullD (r : Req) (v : Nat) : Dev → Dev :=
  longWrite r 0x3000 6 (leBytes 1 v) (fun _ => v < 256) (.scrub v)

def execMemRetrainD (r : Req) (v : Nat) : Dev → Dev :=
  longWrite r 0x3000 7 (leBytes 1 v) (fun _ => v < 256) (.retrain v)

/-- Some job holds a tier 3 page. -/
def Dev.t3Held (d : Dev) : Bool := d.jobs.any fun kj => kj.2.pages.any fun p => d.tierOf p.pa = 3

def execMemIntegrityEnD (r : Req) (v : Nat) : Dev → Dev :=
  catWrite r 0x3000 2 (leBytes 1 v) .byTable (fun _ => v < 2) fun d =>
    if d.t3Held then refuse d stDenied
    else if v = 0 then ⟨d.cset Cat.MEM_INTEGRITY_EN 0, stOk, false⟩
    else d.startLong r 0x3000 2 (leBytes 1 v) none (.integrity v)

end Sys2Proof.Machine
end

