-- ==== Sys2Proof/Machine/Timebase.lean ====
section
/-! DEFINITION. The timebase: PTP Sync and Announce, its states, steps and slews (R27 to R36, R63). -/

namespace Sys2Proof.Machine

/-- Timebase count of a PTP time (R27), when it does not lie before count zero. -/
def ptpCount (s f : Nat) : Option Nat :=
  if s < 1704067200 then none else some ((s - 1704067200) * 8000000000 + f * 8)

/-- The sync interval in units: 2^PTP_SYNC_LOG_INTERVAL seconds, the exponent from −7 to 0. -/
def Dev.syncInterval (d : Dev) : Nat :=
  let v := d.cget Cat.PTP_SYNC_LOG_INTERVAL
  8000000000 / 2 ^ ((256 - v) % 256)

/-- A received short stamp expanded to the value nearest to `now` (R30). -/
def expandStamp (now s : Nat) : Int :=
  let dd : Nat := (s + 2 ^ 40 - now % 2 ^ 40) % 2 ^ 40
  (now : Int) + (if 2 ^ 39 ≤ dd then (dd : Int) - 2 ^ 40 else (dd : Int))

/-- TB_ERROR_BOUND (R35). -/
def Dev.errorBound (d : Dev) : Nat :=
  match d.tb.st with
  | .locked => 800
  | .holdover => 800 + (d.now - d.tb.lastSync) / 2000000
  | _ => 0xFFFFFFFF

/-- The identity that TB_GRANDMASTER shows (R62). -/
def Dev.showGm (d : Dev) : Dev :=
  let shown :=
    if d.tb.gm then Config.ownClock.2.2.2 % 2 ^ 64
    else
      match d.tb.st, d.tb.master with
      | .freeRun, _ => 0
      | .holdover, _ => d.tb.gmShown
      | _, some m => m.gm.toNat
      | _, none => d.tb.gmShown
  { d with tb := { d.tb with gmShown := shown } }

/-- The timebase enters a state; in FREE_RUN it runs at the oscillator's rate (R34); leaving LOCKED and HOLDOVER holds the
timetable (R58), LOCKED lets it rejoin (R60, R499). -/
def Dev.tbEnter (d : Dev) (st : TbState) : Dev :=
  let d := { d with tb := { d.tb with st := st } }
  let d := if st = .freeRun then { d with tb := { d.tb with slew := 0, freq := 0 } } else d
  let d := if st = .freeRun || st = .acquiring then d.ttHold .timebase else d
  let d := d.showGm
  if st = .locked then d.tryRejoin else d

/-- The timebase is stepped to `v` (R36): the timetable enters HELD first; counted; a TB_STEP record carries the
readings after and before. -/
def Dev.tbStep (d : Dev) (v : Nat) : Dev :=
  let d := d.ttHold .timebase
  let before := d.now
  let d := { d with now := v, tb := { d.tb with lockRun := 0, slew := 0 } }
  (d.bump Cat.TB_STEP_EVENT).event 0x11 0x1F 0x90 0 before 0

/-- A measured offset is to be slewed away from now on, and the frequency corrected: by how much, within TB_SLEW_MAX, is the
device's own servo's (R35, R36). -/
def Dev.slewBy (d : Dev) (offset : Int) : Dev :=
  let most := d.cget Cat.TB_SLEW_MAX * 1000
  let (n, d) := d.take
  { d with tb := { d.tb with slew := offset * 1000000, freq := (n % (2 * most + 1) : Nat) - (most : Int) } }

/-- A Sync in ACQUIRING with this offset (R34, R36). -/
def Dev.acquireSync (d : Dev) (offset : Int) : Dev :=
  if (d.cget Cat.TB_STEP_THRESH : Int) < offset.natAbs then d.tbStep ((d.now : Int) + offset).toNat
  else
    let run := if offset.natAbs ≤ d.cget Cat.TB_LOCK_WINDOW then d.tb.lockRun + 1 else 0
    let d := { d with tb := { d.tb with lockRun := run } }.slewBy offset
    if d.cget Cat.TB_LOCK_COUNT ≤ run && run ≠ 0 then d.tbEnter .locked else d

/-- A Sync of the selected master whose offset is known (R34). The Sync that takes HOLDOVER to ACQUIRING is itself handled as
a Sync in ACQUIRING, which R36 says of FREE_RUN only: the model's choice (log entry 62). -/
def Dev.takeSync (d : Dev) (offset : Int) : Dev :=
  let d := { d with tb := { d.tb with offset := offset } }
  let d :=
    match d.tb.st with
    | .freeRun => ({ d with tb := { d.tb with lockRun := 0 } }.tbEnter .acquiring).acquireSync offset
    | .acquiring => d.acquireSync offset
    | .locked =>
      if (d.cget Cat.TB_STEP_THRESH : Int) < offset.natAbs then
        let d := d.ttHold .timebase
        ({ d with tb := { d.tb with lockRun := 0 } }.tbEnter .acquiring).tbStep ((d.now : Int) + offset).toNat
      else d.slewBy offset
    | .holdover =>
      if offset.natAbs ≤ d.cget Cat.TB_LOCK_WINDOW then (d.slewBy offset).tbEnter .locked
      else ({ d with tb := { d.tb with lockRun := 0 } }.tbEnter .acquiring).acquireSync offset
  { d with tb := { d.tb with lastSync := d.now } }

/-- A Sync with its Follow_Up: `s` seconds and `f` nanoseconds of the master at the receive stamp (R27, R33, R34). -/
def execSyncD (at_ port s f domain : Nat) (src : DWord) (d : Dev) : Dev :=
  let d := d.advance at_
  let fromMaster := match d.tb.master with | some m => m.src = src | none => false
  if port ≠ d.cget Cat.PTP_TIMING_PORT || domain ≠ d.cget Cat.PTP_DOMAIN || d.tb.gm || !fromMaster then d
  else
    match ptpCount s f with
    | none => d.bump Cat.TB_BAD_SYNC
    | some t => d.takeSync ((t : Int) + d.tb.pathDelay - d.now)

/-- The comparison key of a data set, smaller is better (R31: default data set comparison). -/
def announceKey (a : Announce) : List Nat :=
  [a.prio1, a.clockClass, a.accuracy, a.variance, a.prio2, a.gm.toNat, a.src.toNat]

def listLt : List Nat → List Nat → Bool
  | [], [] => false
  | [], _ => true
  | _, [] => false
  | a :: s, b :: t => if a < b then true else if b < a then false else listLt s t

/-- The best of the masters heard. -/
def bestMaster : List Announce → Option Announce
  | [] => none
  | a :: t =>
    match bestMaster t with
    | none => some a
    | some b => if listLt (announceKey a) (announceKey b) then some a else some b

/-- This module's own data set. -/
def Dev.ownAnnounce (d : Dev) : Announce :=
  let (cls, acc, var, id) := Config.ownClock
  { domain := d.cget Cat.PTP_DOMAIN, prio1 := d.cget Cat.PTP_PRIORITY1, clockClass := cls, accuracy := acc,
    variance := var, prio2 := d.cget Cat.PTP_PRIORITY2, gm := BitVec.ofNat 64 id, src := BitVec.ofNat 64 id,
    lost := false }

/-- It gives up the grandmaster's role: HOLDOVER at once, error bound from 800 units (R33). -/
def Dev.dropGm (d : Dev) : Dev :=
  if d.tb.gm then { d with tb := { d.tb with gm := false, lastSync := d.now, freq := 0 } }.tbEnter .holdover else d

/-- A decision of the best master clock algorithm (R33, R34). -/
def Dev.decideMaster (d : Dev) : Dev :=
  let best := bestMaster d.tb.foreign
  let own := d.ownAnnounce
  let ownBest := match best with
    | none => true
    | some b => listLt (announceKey own) (announceKey b)
  if ownBest && d.cget Cat.PTP_SLAVE_ONLY = 0 then
    { d with tb := { d.tb with gm := true, master := none, slew := 0, freq := 0, asked := false } }.tbEnter .locked
  else
    let d := d.dropGm
    { d with tb := { d.tb with master := best } }.showGm

/-- An Announce, or the loss of a master (R31, R33). -/
def execAnnounceD (at_ port : Nat) (a : Announce) (d : Dev) : Dev :=
  let d := d.advance at_
  if port ≠ d.cget Cat.PTP_TIMING_PORT || a.domain ≠ d.cget Cat.PTP_DOMAIN then d
  else
    let rest := d.tb.foreign.filter fun b => b.src ≠ a.src
    { d with tb := { d.tb with foreign := if a.lost then rest else a :: rest } }.decideMaster

/-- 3 sync intervals without a Sync in LOCKED, 8 in ACQUIRING (R34). -/
def execSyncTimeoutD (d : Dev) : Dev :=
  match d.tb.st with
  | .locked =>
    if d.tb.gm then d else (d.advance (d.tb.lastSync + 3 * d.syncInterval)).tbEnter .holdover
  | .acquiring => (d.advance (d.tb.lastSync + 8 * d.syncInterval)).tbEnter .freeRun
  | _ => d

/-- The error bound, 800 units and 0.5 ppm of the time since the last Sync, exceeds TB_HOLDOVER_LIMIT with no Sync present:
in the first unit of time in which it does (R34, R35). -/
def execHoldoverLimitD (d : Dev) : Dev :=
  if d.tb.st ≠ .holdover then d
  else
    let limit := d.cget Cat.TB_HOLDOVER_LIMIT
    let d := d.advance (d.tb.lastSync + if limit < 800 then 0 else (limit - 800) * 2000000 + 1)
    (d.bump Cat.TB_HOLDOVER_EXIT).tbEnter .freeRun

def execTbSetD (r : Req) (v : Nat) : Dev → Dev :=
  catWrite r 0x5801 0x00 (leBytes 8 v) .byTable (fun _ => v < 2 ^ 64) fun d =>
    if d.tt.st ≠ .running && (d.tb.st = .freeRun || d.tb.gm) then ⟨d.tbStep v, stOk, false⟩
    else refuse d stDenied

def execPtpSlaveOnlyD (r : Req) (v : Nat) : Dev → Dev :=
  catWrite r 0x5001 0x07 (leBytes 1 v) .byTable (fun _ => v < 2)
    (okWith fun d =>
      let d := d.cset Cat.PTP_SLAVE_ONLY v
      if v = 1 && d.tb.gm then
        let d := d.dropGm
        { d with tb := { d.tb with master := bestMaster d.tb.foreign } }
      else d)

/-- The delay mechanism is peer to peer (R31, R62). -/
def Dev.peerDelay (d : Dev) : Bool := d.cget Cat.PTP_DELAY_MECH = 1

/-- At its sync interval a grandmaster sends Announce, and Sync with its Follow_Up; a slave with a selected master sends the
delay request of its delay mechanism (R31, R33). -/
def execSyncIntervalD (at_ : Nat) (d : Dev) : Dev :=
  let d := d.advance at_
  let p := d.cget Cat.PTP_TIMING_PORT
  if d.tb.gm then ((d.sendPtp p 1).sendPtp p 0).sendPtp p 6
  else if d.tb.master.isNone then d
  else { d.sendPtp p (if d.peerDelay then 4 else 2) with tb := { d.tb with asked := d.tb.asked || d.netUp p } }

/-- A delay message in the module's domain and of its delay mechanism, on the timing port (R31). A request is answered with
the receive stamp: a Delay_Req by the grandmaster alone, a Pdelay_Req by either end of the link. A response to a request that
was sent gives the path delay: a Delay_Resp of the selected master, or a Pdelay_Resp. -/
def execDelayRequestResponseD (at_ : Nat) (m : DelayMsg) (d : Dev) : Dev :=
  let d := d.advance at_
  match m with
  | .request peer domain _ =>
    if domain ≠ d.cget Cat.PTP_DOMAIN || peer ≠ d.peerDelay || !(peer || d.tb.gm) then d
    else d.sendPtp (d.cget Cat.PTP_TIMING_PORT) (if peer then 5 else 3)
  | .response peer domain src x =>
    let fromMaster := match d.tb.master with | some m => m.src = src | none => false
    if domain ≠ d.cget Cat.PTP_DOMAIN || peer ≠ d.peerDelay || !d.tb.asked || !(peer || fromMaster) then d
    else { d with tb := { d.tb with pathDelay := x, asked := false } }

end Sys2Proof.Machine
end

