-- ==== Sys2Proof/Machine/Net.lean ====
section
/-! DEFINITION. Maelgo connections (R323 to R343): packets out, transfers, acknowledgement, windows, losses, errors, and
where contexts reside. -/

namespace Sys2Proof.Machine

/-! ### Fields of a connection record (R333) -/

def Conn.port (x : Conn) : Nat := fld x.record 391 3
def Conn.peer (x : Conn) : Nat := fld x.record 372 19
def Conn.markEn (x : Conn) : Bool := bit x.record 352
def Conn.mark (x : Conn) : Nat := fld x.record 342 10
def Conn.peerMac (x : Conn) : List Byte := beBytes 6 (fld x.record 464 48)
def Conn.pcp (x : Conn) : Nat := if bit x.record 463 then fld x.record 460 3 else 0
def Conn.peerIp (x : Conn) : Nat := fld x.record 416 32
def Conn.peerUdp (x : Conn) : Nat := fld x.record 400 16
def Conn.dscp (x : Conn) : Nat := fld x.record 394 6
def Conn.gen (x : Conn) : Nat := fld x.record 288 32
def Conn.peerId (x : Conn) : List Byte := leBytes 32 (fld x.record 0 256)

def Dev.conn? (d : Dev) (c : Nat) : Option Conn := Tbl.find? d.net.conns c
def Dev.setConn (d : Dev) (c : Nat) (x : Conn) : Dev := { d with net := { d.net with conns := Tbl.set d.net.conns c x } }
def Dev.dropConn (d : Dev) (c : Nat) : Dev := { d with net := { d.net with conns := Tbl.erase d.net.conns c } }
def Dev.updConn (d : Dev) (c : Nat) (f : Conn → Conn) : Dev :=
  match d.conn? c with
  | some x => d.setConn c (f x)
  | none => d

/-- A connection just opened (R334): its keys come from the generation that its job's key slot holds now (R420, R421). -/
def newConn (d : Dev) (j record : Nat) (st : ConnState) : Conn :=
  let c := fld record 353 19
  let pc := fld record 372 19
  let id := leBytes 32 (fld record 0 256)
  let lo := linkLo identityDigest c id pc
  let key := (d.jobKey j).connKey
  let gen := fld record 288 32
  let link := if lo then linkBytes key identityDigest c id pc gen else linkBytes key id pc identityDigest c gen
  { st := st, job := j, record := record, link := link, lo := lo, nextSeq := 0, cumTx := 0, ackCum := 0, pn := 0, win := d.cget Cat.NET_WIN_INIT, roundEnd := 0,
    roundLoss := false, roundCe := 0, roundAcked := 0, queue := [], sent := [], xfers := [], cumRx := 0, cumAt := d.now,
    got := [], pnHigh := 0, pnSeen := [], ackCount := 0, ackSince := none, ce := 0, seals := [], taints := [], taintMiss := none, sealsOk := 0,
    sealsFailed := 0, lastFail := 0, residence := 0, used := d.now, spill := 0, storeAt := 0,
    stored := [], drainAt := 0, mgmtPart := none }

/-! ### Protection (R330) -/

def Conn.keyTx (x : Conn) : List Byte := linkKey x.link x.lo
def Conn.keyRx (x : Conn) : List Byte := linkKey x.link !x.lo

/-- A packet's ciphertext under the connection's receiving key: the plaintext, whatever its tag, and whether that verifies. -/
def Conn.opened (x : Conn) (p : Pkt) : List Byte × Bool :=
  gcmOpen x.keyRx (linkIv x.link (!x.lo) p.pn) p.aad p.cipher p.tag

def Conn.plain (x : Conn) (p : Pkt) : List Byte := (x.opened p).1
def Conn.tagOk (x : Conn) (p : Pkt) : Bool := (x.opened p).2

/-- The sender's step number: zero while no timetable is RUNNING (R325). -/
def Dev.headerStep (d : Dev) : Nat := if d.tt.st = .running then d.tt.step else 0

/-! ### Where contexts reside (R336) -/

def Dev.heldFor (d : Dev) (c : Nat) : Bool := d.net.hold.any fun h => h.pkt.conn = c

/-- A context that may be evicted. -/
def Dev.evictable (d : Dev) (c : Nat) (x : Conn) : Bool :=
  x.sent.isEmpty && x.seals.isEmpty && x.taints.isEmpty && !d.heldFor c

/-- The least recently used context of a residence that may be evicted. -/
def Dev.lruOf (d : Dev) (res : Nat) : Option Nat :=
  ((d.net.conns.filter fun kc => kc.2.residence = res && d.evictable kc.1 kc.2).foldl
    (fun (b : Option (Nat × Nat)) kc =>
      match b with
      | some (t, _) => if kc.2.used < t then some (kc.2.used, kc.1) else b
      | none => some (kc.2.used, kc.1)) none).map (·.2)

def Dev.residing (d : Dev) (res : Nat) : Nat := (d.net.conns.filter fun kc => kc.2.residence = res).length

/-- Host memory behind a port. -/
def Dev.hostRead (d : Dev) (port x n : Nat) : List Byte :=
  if d.hostLost port then List.replicate n 0 else memRead d.mem (hostCell port x) n

def Dev.hostWrite (d : Dev) (port x : Nat) (v : List Byte) : Dev :=
  if d.hostLost port then (d.bump (Cat.HOST_LINK_DROP port)).hostErr port 4
  else { d with mem := memWrite d.mem (hostCell port x) v }

/-- A context goes to the host store, sealed under the spill count that rises for it: where in the store, and the sealed
bytes, are the device's own, of a size that it fixes (log entry 67). -/
def Dev.spillContext (d : Dev) (c : Nat) : Dev :=
  let (place, d) := d.take
  let (bytes, d) := d.take
  let at_ := (d.cget Cat.NET_CTX_HOST_BASE + place) % 2 ^ 64
  let v := leBytes 512 bytes
  let d := d.updConn c fun x => { x with residence := 2, spill := x.spill + 1, storeAt := at_, stored := v }
  d.hostWrite (d.cget Cat.NET_CTX_HOST_PORT) at_ v

/-- The host store still gives the bytes sealed under the current spill count. -/
def Dev.storeOk (d : Dev) (x : Conn) : Bool :=
  d.hostRead (d.cget Cat.NET_CTX_HOST_PORT) x.storeAt x.stored.length = x.stored

/-- Contexts beyond the room of the cache and of the context store move on. -/
def Dev.evictContexts (d : Dev) : Dev :=
  let d :=
    if d.residing 0 ≤ 8192 then d
    else
      match d.lruOf 0 with
      | some c => (d.updConn c fun x => { x with residence := 1 }).bump Cat.NET_CTX_EVICT_T3
      | none => d
  if d.residing 1 ≤ d.cget Cat.NET_CTX_T3_ENTRIES || d.cget Cat.NET_CTX_HOST_BASE = 0 then d
  else
    match d.lruOf 1 with
    | some c => (d.spillContext c).bump Cat.NET_CTX_EVICT_HOST
    | none => d

/-! ### The end of a posting command (R343, R365) -/

/-- Packets of a command that wait for their first transmission, and reads of it that are not complete. -/
def Dev.unsent (d : Dev) (k : Nat) : Bool :=
  (d.net.conns.any fun kc => kc.2.queue.any fun i =>
    match i.xfer with
    | some t => (match Tbl.find? kc.2.xfers t with | some x => x.cmd = k | none => false)
    | none => false)
  || d.net.reads.any fun kr => kr.2.cmd = k

/-- A collective command or a GATHER is done when every packet has been transmitted once and every read is complete. -/
def Dev.checkSent (d : Dev) (k : Nat) : Dev :=
  match d.cmd? k with
  | some c =>
    if c.st = .running && ((c.cls = 2 && c.opcode ≠ 2) || (c.cls = 3 && c.opcode = 1)) && !d.unsent k then d.workDone k
    else d
  | none => d

/-! ### Failures (R335, R342, R343) -/

/-- a ≤ b in SEQ order (R338). -/
def seqLe (a b : Word) : Bool := !(b - a).msb

/-- A sent SEQ is not acknowledged: the peer's CUM has not passed it (R339). -/
def Conn.unacked (x : Conn) (s : Word × TxSent) : Bool := seqLe x.ackCum s.1

/-- SEQs that the peer's CUM has passed are acknowledged and go, but for those that a timeout has still to send again. -/
def Conn.trim (x : Conn) : Conn :=
  let sent := x.sent.filter fun s => x.unacked s || s.2.resend.isSome
  { x with sent := sent, cumTx := match sent.find? x.unacked with | some s => s.1 | none => x.nextSeq }

/-- Lines of the job that a packet still to be acknowledged is read from. -/
def TxItem.lines (i : TxItem) : List Nat :=
  match i.src with
  | some va => (List.range (i.len / 64)).map fun n => va + 64 * n
  | none => []

def TxItem.of (i : TxItem) (t : Nat) : Bool := i.xfer = some t

/-- The posting command, if it still runs, takes the status of the failure; `reason` is a NACK's REASON, or 0xFF. -/
def Dev.failCmd (d : Dev) (j k reason region : Nat) (lines : List Nat) : Dev :=
  if reason = 2 then d.updCmd k fun c => c.raise 0x20 region
  else if reason ≠ 0xFF then d.updCmd k fun c => c.raise 0x31 0
  else
    let phys := lines.map fun va => match d.xlate j va false with | some (pa, _) => pa / 64 * 64 | none => 0
    d.updCmd k fun c => c.drop phys

/-- What every transfer that fails leaves behind: SEND_MARK, counts, the trace record. -/
def Dev.failNote (d : Dev) (c : Nat) (x : Conn) (t : Xfer) (reason : Nat) : Dev :=
  let d := d.updConn c fun y => { y with
    sealsFailed := if t.isSeal then y.sealsFailed + 1 else y.sealsFailed, lastFail := reason }
  let d := (d.bump Cat.NET_SEND_FAIL).event 0x41 x.job 0x90 reason t.region c
  if x.markEn then d.incMark x.job x.mark 1 d.stamp else d

/-- A post names no connection of the job: a failure with no connection to count it in (R343). -/
def Dev.failNoConn (d : Dev) (k j c region : Nat) : Dev :=
  ((d.bump Cat.NET_SEND_FAIL).event 0x41 j 0x90 3 region c).updCmd k fun y => y.raise 0x31 0

/-- A transfer of connection `c` fails: nothing of it is sent any more. -/
def Dev.failXfer (d : Dev) (c t reason : Nat) : Dev :=
  match d.conn? c with
  | none => d
  | some x =>
    match Tbl.find? x.xfers t with
    | none => d
    | some xf =>
      let left := ((x.sent.filter fun s => !s.2.acked && s.2.item.of t).map fun s => s.2.item.lines).flatten
        ++ ((x.queue.filter fun i => i.of t).map TxItem.lines).flatten
      let mine := d.net.reads.filter fun kr => kr.2.xfer = t
      let left := if xf.read then (mine.map fun kr => kr.2.missing.map fun n => kr.2.dst + 64 * n).flatten else left
      let d := d.setConn c (Conn.trim { x with
        queue := x.queue.filter (fun i => !i.of t), sent := x.sent.filter (fun s => !s.2.item.of t),
        xfers := Tbl.erase x.xfers t })
      let d := { d with net := { d.net with reads := Tbl.keep (fun _ r => r.xfer ≠ t) d.net.reads } }
      ((d.failNote c x xf reason).failCmd x.job xf.cmd reason xf.region left).checkSent xf.cmd

/-- A connection enters ERROR (R335): counted, traced, every unfinished transfer fails. -/
def Dev.connError (d : Dev) (c cause : Nat) : Dev :=
  match d.conn? c with
  | none => d
  | some x =>
    if x.st = .error then d
    else
      let d := (d.bump Cat.NET_CONN_ERROR).event 0x40 x.job 0x90 cause 0 c
      let d := x.xfers.foldl (fun d kt => d.failXfer c kt.1 0xFF) d
      d.updConn c fun y => { y with st := .error, queue := [], sent := [], seals := [], taints := [], ackSince := none }

/-! ### Packets out (R323 to R331) -/

/-- What stands before the Maelgo header of a packet (R323). The destination port is the peer's NET_MAELGO_UDP_PORT, which
the connection record names (log entry 66). -/
def Dev.wireHead (d : Dev) (c : Nat) (x : Conn) (ident : Nat) : WireHead :=
  { dstMac := x.peerMac, srcMac := Config.fusedBytes (Cat.NET_PORT_MAC x.port), tci := d.txTag x.port x.pcp, dscp := x.dscp,
    ident := ident, srcIp := d.cget (Cat.NET_PORT_IPV4 x.port), dstIp := x.peerIp, srcPort := 49152 + c % 16384,
    dstPort := x.peerUdp, csum := d.cget Cat.NET_MAELGO_UDPCSUM = 1 }

/-- The frame of a packet that connection `c` sends (R323 to R330). -/
def Dev.pktFrame (d : Dev) (c : Nat) (x : Conn) (ident extLen : Nat) (q : TxPkt) : List Byte :=
  (d.wireHead c x ident).frame (maelgoBody x.keyTx (linkIv x.link x.lo q.pn)
    (maelgoHeader q.op q.flags q.tenant q.conn q.region q.seq q.stamp q.step q.payload.length q.pn) q.ext extLen q.payload)

/-- One packet leaves on the connection's port under the next PN; none leaves a port whose link is down. The spec gives its
IPv4 identification no value. -/
def Dev.sendPkt (d : Dev) (c op flags region : Nat) (seq : Word) (step ext extLen : Nat) (payload : List Byte) : Dev :=
  match d.conn? c with
  | none => d
  | some x =>
    if !d.netUp x.port then d
    else
      let pn := x.pn + 1
      let (ident, d) := d.take
      let q : TxPkt := {
        port := x.port, op := op, flags := flags, tenant := (d.job x.job).tenant, conn := x.peer, region := region,
        seq := seq.toNat, stamp := d.now % 2 ^ 40, step := step, pn := pn, ext := ext, payload := payload }
      let frame := d.pktFrame c x ident extLen q
      let d := d.setConn c { x with pn := pn, used := d.now }
      let d := (d.emit (.packet q frame)).setLastTx x.port { pkt := some (c, q), data := frame }
      let d := (d.macSent x.port (maelgoBytes (d.taggedPort x.port) extLen payload.length) 0).mac x.port Cat.TX_MAELGO
      let d := d.bumpBy (Cat.NET_JOB_TX_BYTES x.job) payload.length
      if pn = 2 ^ 48 - 1 then d.connError c 2 else d

/-- An ACK (R339): CUM, SACK and CE_COUNT. -/
def Dev.sendAck (d : Dev) (c : Nat) : Dev :=
  match d.conn? c with
  | none => d
  | some x =>
    let sack := ((List.range 128).map fun i =>
      if x.got.contains (x.cumRx + 1 + BitVec.ofNat 32 i) then 2 ^ i else 0).sum
    let d := d.setConn c { x with ackCount := 0, ackSince := none, ce := 0 }
    d.sendPkt c opAck 0 0 0 d.headerStep (x.cumRx.toNat * 2 ^ 224 + sack * 2 ^ 96 + min x.ce 0xFFFF * 2 ^ 80) 32 []

/-- A NACK (R328). -/
def Dev.sendNack (d : Dev) (c : Nat) (seq : Word) (reason retry offset length : Nat) (last : Bool) : Dev :=
  d.sendPkt c opNack (if last then 2 ^ 6 else 0) 0 0 d.headerStep
    (seq.toNat * 2 ^ 224 + reason * 2 ^ 216 + retry * 2 ^ 200 + offset % 2 ^ 64 * 2 ^ 128 + length % 2 ^ 32 * 2 ^ 96) 32 []

/-! ### Transmission (R338, R340, R341, R343) -/

/-- Payload bytes outstanding. -/
def Conn.outstanding (x : Conn) : Nat := ((x.sent.filter fun s => !s.2.acked).map fun s => s.2.item.len).sum

/-- SEQs outstanding, from the lowest not acknowledged. -/
def Conn.span (x : Conn) : Nat := (x.nextSeq - x.cumTx).toNat

/-- The payload of a packet, read from its source now; poisoned lines go as zeros. -/
def Dev.itemPayload (d : Dev) (j : Nat) (i : TxItem) : List Byte :=
  match i.src with
  | some va => d.jrd j va i.len
  | none => i.own

/-- Poisoned source lines of a first transmission are the command's (R220). -/
def Dev.itemPoison (d : Dev) (x : Conn) (i : TxItem) : Dev :=
  match i.src, i.xfer with
  | some va, some t =>
    match Tbl.find? x.xfers t with
    | some xf => d.cmdPoison xf.cmd (d.jbad x.job va i.len)
    | none => d
  | _, _ => d

/-- Read-table entries in use: those whose READ_REQ has been sent (R23, R351). -/
def Dev.readEntries (d : Dev) : Nat := (d.net.reads.filter fun kr => kr.2.seq.isSome).length

/-- The first packet of the queue leaves for the first time. -/
def Dev.sendNext (d : Dev) (c : Nat) (x : Conn) (i : TxItem) (rest : List TxItem) : Dev :=
  let seq := x.nextSeq
  let s : TxSent := { item := i, sentAt := d.now, sentPn := x.pn + 1, times := 1, resend := none, acked := false,
                       byWindow := false, missed := none }
  let d := d.itemPoison x i
  let d := d.setConn c { x with queue := rest, nextSeq := x.nextSeq + 1, sent := x.sent ++ [(seq, s)] }
  -- the read-table entry that this READ_REQ is for
  let d := if i.op ≠ opReadReq then d
    else
      let note (k : Nat) (r : ReadEntry) : ReadEntry := if i.own = leBytes 8 k then { r with seq := some seq } else r
      { d with net := { d.net with reads := Tbl.mapVals note d.net.reads } }
  let payload := if i.op = opReadReq then [] else d.itemPayload x.job i
  let flags := if i.op = opSeal then 2 ^ 4 else 0
  let d := d.sendPkt c i.op flags i.region seq (i.step.getD d.headerStep) i.ext i.extLen payload
  match i.xfer with
  | some t =>
    match Tbl.find? x.xfers t with
    | some xf => d.checkSent xf.cmd
    | none => d
  | none => d

/-- A lost packet leaves again, with RETX and ACK_NOW (R340). -/
def Dev.sendAgain (d : Dev) (c : Nat) (x : Conn) (seq : Word) (s : TxSent) : Dev :=
  let s' := { s with sentAt := d.now, sentPn := x.pn + 1, times := s.times + 1, resend := none, byWindow := false }
  let d := (d.setConn c (Conn.trim { x with sent := x.sent.map fun p => if p.1 = seq then (seq, s') else p })).bump Cat.NET_RETX
  let payload := if s.item.op = opReadReq then [] else d.itemPayload x.job s.item
  d.sendPkt c s.item.op (2 ^ 7 + 2 ^ 4) s.item.region seq (s.item.step.getD d.headerStep) s.item.ext s.item.extLen payload

/-- The next packet of a connection: a resend that is due, else the next one that the window allows (R341 to R343). -/
def execPacketTransmitD (at_ c : Nat) (d : Dev) : Dev :=
  let d := d.advance at_
  match d.conn? c with
  | none => d
  | some x =>
    if !(x.st = .open_ || x.st = .draining) || x.residence ≠ 0 || !d.netUp x.port then d
    else
      match x.sent.find? fun p => (match p.2.resend with | some t => t ≤ d.now | none => false)
          && (!p.2.byWindow || x.outstanding ≤ x.win) with
      | some (seq, s) => d.sendAgain c x seq s
      | none =>
        match x.queue with
        | [] => d
        | i :: rest =>
          if x.win < x.outstanding + i.len || 1023 ≤ x.span || (i.op = opReadReq && 2048 ≤ d.readEntries) then d
          else d.sendNext c x i rest

/-! ### Posting transfers (R343) -/

/-- Packets are queued for one transfer of a connection, or the transfer fails at once. `lines` are its source or
destination lines. -/
def Dev.postXfer (d : Dev) (k j c region : Nat) (isSeal read : Bool) (lines : List Nat) (mk : Nat → List TxItem) : Dev :=
  match d.conn? c with
  | none => d.failNoConn k j c region
  | some x =>
    let xf : Xfer := { cmd := k, region := region, isSeal := isSeal, read := read }
    if x.job ≠ j then d.failNoConn k j c region
    else if x.st ≠ .open_ then (d.failNote c x xf 0xFF).failCmd j k 0xFF region lines
    else
      let t := d.net.nextXfer
      let d := { d with net := { d.net with nextXfer := t + 1 } }
      d.setConn c { x with queue := x.queue ++ mk t, xfers := Tbl.set x.xfers t xf }

/-- The pieces of at most `size` bytes that `n` bytes are cut into: offset and length. -/
def piecesOf (n size : Nat) : List (Nat × Nat) :=
  (List.range (ceilDiv n size)).map fun i => (i * size, min size (n - i * size))

/-- A sequenced packet of the device's own joins the queue (R342). -/
def Dev.postOwn (d : Dev) (c : Nat) (i : TxItem) : Dev :=
  d.updConn c fun x => if x.st = .open_ then { x with queue := x.queue ++ [i] } else x

/-! ### Outcomes (R341 to R343) -/

/-- A transfer whose packets are all acknowledged, and whose reads are complete, has succeeded. -/
def Dev.settleXfer (d : Dev) (c t : Nat) : Dev :=
  match d.conn? c with
  | none => d
  | some x =>
    match Tbl.find? x.xfers t with
    | none => d
    | some xf =>
      let open_ := x.queue.any (fun i => i.of t) || x.sent.any (fun s => x.unacked s && s.2.item.of t)
        || d.net.reads.any (fun kr => kr.2.xfer = t)
      if open_ then d
      else
        let d := d.setConn c { x with
          xfers := Tbl.erase x.xfers t, sealsOk := if xf.isSeal then x.sealsOk + 1 else x.sealsOk }
        if x.markEn then d.incMark x.job x.mark 1 d.stamp else d

def Dev.settleXfers (d : Dev) (c : Nat) : Dev :=
  match d.conn? c with
  | none => d
  | some x => x.xfers.foldl (fun d kt => d.settleXfer c kt.1) d

/-- The end of a round (R341): W is set once. -/
def Dev.endRound (d : Dev) (x : Conn) : Conn :=
  let low := d.cget Cat.NET_WIN_MIN
  let w :=
    if x.roundLoss then max low (x.win / 2)
    else if 0 < x.roundCe then max low (x.win * (2 * max 1 x.roundAcked - min x.roundCe (2 * max 1 x.roundAcked)) / (2 * max 1 x.roundAcked))
    else min (d.cget Cat.NET_WIN_MAX) (x.win + d.cget Cat.NET_MAELGO_MAX_PAYLOAD)
  { x with win := w, roundEnd := x.nextSeq, roundLoss := false, roundCe := 0, roundAcked := 0 }

def Dev.checkRound (d : Dev) (x : Conn) : Conn :=
  if seqLe x.ackCum x.roundEnd then x else d.endRound x

/-- Three higher SEQs received, each transmitted after this one's last transmission (R340). -/
def Conn.overtaken (x : Conn) (seq : Word) (s : TxSent) : Bool :=
  3 ≤ (x.sent.filter fun o => o.2.acked && seqLe seq o.1 && o.1 ≠ seq && s.sentPn < o.2.sentPn).length

/-- A SEQ is sent again from `t` on; at the retry limit the connection enters ERROR instead (R340). -/
def Dev.resendSeq (d : Dev) (c : Nat) (seq : Word) (t : Nat) (byWindow : Bool) : Dev :=
  match d.conn? c with
  | none => d
  | some x =>
    match x.sent.find? fun p => p.1 = seq with
    | none => d
    | some (_, s) =>
      if d.cget Cat.NET_RETRY_MAX + 1 ≤ s.times then d.connError c 0
      else d.setConn c { x with sent := x.sent.map fun p =>
             if p.1 = seq then (seq, { p.2 with resend := some t, byWindow := byWindow }) else p }

/-- A SEQ is lost: the round has a loss, and the SEQ is sent again at once (R340, R341). -/
def Dev.loseSeq (d : Dev) (c : Nat) (seq : Word) : Dev :=
  (d.updConn c fun x => { x with roundLoss := true }).resendSeq c seq d.now false

/-- Retransmission timeout of a SEQ (R340). -/
def Dev.rtoOf (d : Dev) (s : TxSent) : Nat :=
  min (d.cget Cat.NET_RTO_INIT * 2 ^ min (s.times - 1) 32) (d.cget Cat.NET_RTO_MAX)

/-- The instant of a SEQ's timeout. -/
def Dev.rtoAt (d : Dev) (s : TxSent) : Nat := s.sentAt + d.rtoOf s

/-- The timeout passes, decided TT_SETTLE later (R53, R340). -/
def execRtoExpiryD (c : Nat) (seq : Word) (d : Dev) : Dev :=
  match d.conn? c with
  | none => d
  | some x =>
    match x.sent.find? fun p => p.1 = seq && !p.2.acked && p.2.resend.isNone with
    | none => d
    | some (_, s) =>
      let t := d.rtoAt s
      let x := { x with sent := x.sent.map fun p => if p.1 = seq then (seq, { p.2 with missed := some t }) else p }
      ((d.advance (t + d.cget Cat.TT_SETTLE)).setConn c x).loseSeq c seq

/-- What an ACK received at `stamp` acknowledges (R339 to R341). One stamped after a SEQ's timeout does not avert it (R52); one
stamped before a timeout that is already decided is counted (R53). -/
def Dev.takeAck (d : Dev) (c ext stamp : Nat) : Dev :=
  match d.conn? c with
  | none => d
  | some x =>
    let cum : Word := BitVec.ofNat 32 (fld ext 224 32)
    let sack := fld ext 96 128
    let shown (s : Word) : Bool := !seqLe cum s || (cum ≠ s && (s - cum - 1).toNat < 128 && bit sack (s - cum - 1).toNat)
    let fresh := x.sent.filter fun p => !p.2.acked && shown p.1
    let late := (fresh.filter fun p => p.2.resend.isNone && d.rtoAt p.2 < stamp).map (·.1)
    let tied := fresh.filter fun p => match p.2.missed with | some t => decide (stamp ≤ t) | none => false
    let d := late.foldl (fun d s => d.loseSeq c s) (d.bumpBy Cat.TIE_LATE_STAMP tied.length)
    match d.conn? c with
    | none => d
    | some x =>
      let x : Conn := { x with
        ackCum := if seqLe x.ackCum cum then cum else x.ackCum,
        sent := x.sent.map (fun p => if shown p.1 then
          (p.1, { p.2 with acked := true, resend := if late.contains p.1 then p.2.resend else none }) else p),
        roundAcked := x.roundAcked + fresh.length, roundCe := x.roundCe + fld ext 80 16, used := d.now }
      let lost := (x.sent.filter fun p => !p.2.acked && p.2.resend.isNone && x.overtaken p.1 p.2).map (·.1)
      let d := d.setConn c x.trim
      let note (r : ReadEntry) : ReadEntry :=
        if r.conn = c && r.ackedAt.isNone && fresh.any (fun p => r.seq = some p.1) then { r with ackedAt := some d.now } else r
      let d := { d with net := { d.net with reads := Tbl.mapVals (fun _ r => note r) d.net.reads } }
      let d := lost.foldl (fun d s => d.loseSeq c s) d
      let d := d.updConn c d.checkRound
      d.settleXfers c

/-- The packet of `seq` is settled with no transfer behind it (R342). -/
def Dev.settleSeq (d : Dev) (c : Nat) (seq : Word) : Dev :=
  d.updConn c fun x => Conn.trim { x with sent := x.sent.filter fun p => p.1 ≠ seq }

/-- A verified NACK acts by its reason (R342). -/
def Dev.takeNack (d : Dev) (c ext : Nat) (last : Bool) : Dev :=
  match d.conn? c with
  | none => d
  | some x =>
    let seq : Word := BitVec.ofNat 32 (fld ext 224 32)
    let reason := fld ext 216 8
    let hit := x.sent.find? fun p => p.1 = seq && x.unacked p
    let again (t : Nat) (byWindow : Bool) (d : Dev) : Dev := if hit.isSome then d.resendSeq c seq t byWindow else d
    let viaRead := (d.net.reads.filter fun kr => kr.2.conn = c && kr.2.seq = some seq).map fun kr => kr.2.xfer
    let refused (ctr why : Nat) : Dev :=
      let d := d.bump ctr
      match hit, viaRead with
      | some (_, s), _ =>
        match s.item.xfer with
        | some t => d.failXfer c t why
        | none => d.settleSeq c seq
      | none, t :: _ => d.failXfer c t why
      | none, [] => d
    match reason with
    | 1 => again (d.now + fld ext 200 16 * 8000) false (d.bump Cat.NET_NACK_BUSY)
    | 2 => refused Cat.NET_NACK_REVOKED 2
    | 3 => refused Cat.NET_NACK_REFUSED 3
    | 4 => refused Cat.NET_NACK_REFUSED 4
    | 5 =>
      if last then (d.bump Cat.NET_NACK_INTEGRITY).connError c 4
      else if hit.isSome then again d.now false (d.bump Cat.NET_NACK_INTEGRITY)
      else d.bump Cat.NET_NACK_UNMATCHED
    | 6 => again d.now true ((d.bump Cat.NET_NACK_WINDOW).updConn c fun y => { y with roundLoss := true })
    | _ => d

/-! ### Underruns (R321) -/

/-- The Maelgo packet of a frame that ended badly goes again at once with RETX, in its SEQ's turn if it has one. -/
def Dev.requeue (d : Dev) (c : Nat) (q : TxPkt) : Dev :=
  match d.conn? c with
  | none => d
  | some x =>
    let seq : Word := BitVec.ofNat 32 q.seq
    if !opSequenced q.op then
      (d.bump Cat.NET_TX_UNDERRUN_RETX).sendPkt c q.op (q.flags ||| (2 ^ 7 + 2 ^ 4)) q.region seq q.step q.ext (opExtLen q.op)
        q.payload
    else if x.sent.any fun s => s.1 = seq && x.unacked s then
      (d.setConn c { x with sent := x.sent.map fun s =>
        if s.1 = seq then (s.1, { s.2 with resend := some d.now }) else s }).bump Cat.NET_TX_UNDERRUN_RETX
    else d

/-- The data of the frame last sent on the port did not arrive in time after `n` bytes of it (R321). A Maelgo frame that left
only once it was buffered whole cannot underrun (R319). -/
def execTxUnderrunD (at_ p n : Nat) (d : Dev) : Dev :=
  let d := d.advance at_
  let count (d : Dev) : Dev :=
    (d.mac p Cat.TX_UNDERRUN).cset (Cat.NET_TX_START p) (min 9216 (d.cget (Cat.NET_TX_START p) + 512))
  match Tbl.find? d.net.lastTx p with
  | none => if d.netUp p then count d else d
  | some t =>
    let len := t.data.length
    if !d.netUp p || len ≤ n || len ≤ d.cget (Cat.NET_TX_START p) || (t.pkt.isSome && d.cget Cat.NET_MAELGO_UDPCSUM = 1) then d
    else
      let sent := t.data.take n
      let d := (d.macUnsent p len (castOf t.data) t.pkt.isSome).emit (.cutFrame p (sent ++ (fcsOf sent).map (~~~ ·)))
      let d := (count d).noLastTx p
      match t.pkt with
      | none => d
      | some (c, q) => d.requeue c q

end Sys2Proof.Machine
end

