-- ==== Sys2Proof/Machine/Version.lean ====
section
/-! DEFINITION. Version directories (R297) and the choice of a version (R300). -/

namespace Sys2Proof.Machine

/-- A version to serve: its address, step and stamp. -/
structure Version where
  va : Nat
  step : Nat
  stamp : Nat
deriving DecidableEq, Repr

/-- The close instant of a directory's position. -/
def Dev.dirClose (d : Dev) (n : Nat) : Option Nat := d.closeInstant (fld n 160 32) (fld n 144 16) (fld n 112 32)

/-- A request for the retained version that is stamped in time and reaches the owner too late (R53, R300). -/
def Dev.versionLate (d : Dev) (n want s : Nat) : Bool :=
  dirPrevValid n && want = dirPrevStep n &&
    match d.dirClose n with
    | some x => s ≤ x && x + d.cget Cat.TT_SETTLE < d.now
    | none => false

/-- The version that a request stamped `s` is served (R300); none while it is held. -/
def Dev.chooseVersion (d : Dev) (n want s : Nat) : Option Version :=
  let inTime := match d.dirClose n with | some x => decide (s ≤ x) | none => true
  if dirPrevValid n && want = dirPrevStep n && inTime && !d.versionLate n want s then
    some { va := dirPrevVa n, step := dirPrevStep n, stamp := dirPrevStamp n }
  else if dirUpdating n then none
  else some { va := dirCurVa n, step := dirCurStep n, stamp := dirCurStamp n }

end Sys2Proof.Machine
end

