-- ==== Sys2Proof/Machine/Maelgo.lean ====
section
/-! DEFINITION. Maelgo receive (R329 to R355): the checks of R346, remote writes and seals, taints, remote reads,
revocation, TTSYNC; and the Catalogue entries of connections, regions and ports. -/

namespace Sys2Proof.Machine

/-! ### Malformed packets (R327 to R329, R360, R369, R373) -/

/-- Reserved bits of the extension, and LEN, OFFSET and LENGTH, are as R327 and R328 say. -/
def extOk (op : Nat) (p : Pkt) (maxLen : Nat) : Bool :=
  let e := p.ext
  let payload := 64 ≤ p.len && p.len ≤ maxLen && p.len % 64 = 0
  match op with
  | 1 => payload && fld e 0 64 = 0 && fld e 64 64 % 64 = 0
  | 2 => p.len ≤ 256 && p.len % 64 = 0 && fld e 0 64 = 0 && fld e 64 64 % 64 = 0
  | 3 =>
    p.len = 0 && fld e 192 64 % 64 = 0 && 64 ≤ fld e 160 32 && fld e 160 32 ≤ 2 ^ 20 && fld e 160 32 % 64 = 0
      && fld e 96 31 = 0 && fld e 0 48 = 0 && (bit e 127 || (fld e 128 32 = 0 && fld e 48 48 = 0))
  | 4 => payload && fld e 128 96 = 0
  | 5 => p.len = 0 && fld e 0 80 = 0
  | 6 => p.len = 0 && 1 ≤ fld e 216 8 && fld e 216 8 ≤ 6 && fld e 192 8 = 0 && fld e 0 96 = 0
  | 7 =>
    let width := if fld e 196 4 = 0 then 4 else 2
    payload && fld e 196 4 ≤ 2 && fld e 208 32 % 32 = 0 && p.len / width % 32 = 0 && fld e 0 196 = 0
  | 8 =>
    p.len ≤ maxLen && p.len = ceilDiv (4 * fld e 208 16) 64 * 64 && fld e 240 7 = 0 && fld e 64 29 = 0
  | 9 => p.len = 0 && fld e 0 166 = 0
  | 10 => p.len ≤ maxLen && fld e 126 2 ≤ 1 && fld e 96 29 = 0
  | _ => p.len = 0 && fld e 73 7 = 0 && fld e 0 72 = 0

/-- The packet is dropped under R329. -/
def Dev.malformed (d : Dev) (op : Nat) (p : Pkt) : Bool :=
  p.ver ≠ 1 || opReserved op || p.flags.toNat % 16 ≠ 0 || p.rsv ≠ 0
    || p.frameBytes < p.headAt + 32 + opExtLen op + p.len + 16 + 4 || !extOk op p (d.cget Cat.NET_MAELGO_MAX_PAYLOAD)

/-! ### What a verified packet changes (R331, R339) -/

/-- Below the window of packet numbers, or marked in it. -/
def Conn.replayed (x : Conn) (pn : Nat) : Bool := pn + 1024 < x.pnHigh || x.pnSeen.contains pn

/-- The tag verified: the window of packet numbers, ECN marks, the context's last use. -/
def Dev.verified (d : Dev) (p : Pkt) : Dev :=
  let d := if p.ce then d.bump Cat.NET_CE_MARKS else d
  d.updConn p.conn fun x =>
    let high := max x.pnHigh p.pn
    { x with pnHigh := high, pnSeen := (p.pn :: x.pnSeen).filter (fun n => high ≤ n + 1024),
             ce := if p.ce then x.ce + 1 else x.ce, used := d.now }

/-- CUM passes every SEQ received, by a packet stamped `stamp`; at a waiting seal it stops (R339). -/
def Conn.passCum (x : Conn) (stamp : Nat) : Nat → Conn
  | 0 => x
  | fuel + 1 =>
    if x.got.contains x.cumRx && !(x.seals.any fun s => s.seq = x.cumRx) then
      Conn.passCum { x with got := x.got.filter (· ≠ x.cumRx), cumRx := x.cumRx + 1, cumAt := max x.cumAt stamp } stamp fuel
    else x

/-- A SEQ below this one is missing. -/
def Conn.aboveGap (x : Conn) (seq : Word) : Bool :=
  (List.range (seq - x.cumRx).toNat).any fun i => !x.got.contains (x.cumRx + BitVec.ofNat 32 i)

/-- A packet counts for the next ACK; one is sent at once, or when NET_ACK_EVERY are reached (R339). -/
def Dev.noteForAck (d : Dev) (c : Nat) (atOnce : Bool) : Dev :=
  match d.conn? c with
  | none => d
  | some x =>
    let x := { x with ackCount := x.ackCount + 1, ackSince := some (x.ackSince.getD d.now) }
    let d := d.setConn c x
    if atOnce || d.cget Cat.NET_ACK_EVERY ≤ x.ackCount then d.sendAck c else d

/-- A sequenced packet is received (R339). -/
def Dev.received (d : Dev) (p : Pkt) : Dev :=
  match d.conn? p.conn with
  | none => d
  | some x =>
    let gap := x.aboveGap p.seq
    let x := { x with got := p.seq :: x.got }
    (d.setConn p.conn (x.passCum p.at_ (x.got.length + 1))).noteForAck p.conn (bit p.flags.toNat 4 || gap)

/-- NET_ACK_DELAY after the first packet not yet acknowledged (R339). -/
def execAckDelayD (c : Nat) (d : Dev) : Dev :=
  match d.conn? c with
  | none => d
  | some x =>
    match x.ackSince with
    | none => d
    | some t => (d.advance (t + d.cget Cat.NET_ACK_DELAY)).sendAck c

/-! ### The checks (R346) -/

/-- A refusal: the NACK's REASON, and the counter. -/
structure Deny where
  reason : Nat
  ctr : Option Nat
deriving DecidableEq, Repr

/-- A packet that is refused: still decrypted for its tag. `reached` says that it came to its region check. -/
def Dev.denyPkt (d : Dev) (op : Nat) (p : Pkt) (x : Conn) (r : Deny) (reached last : Bool) : Dev :=
  let d := match r.ctr with | some k => d.bump k | none => d
  if x.tagOk p then
    let d := d.verified p
    if opSequenced op then d.sendNack p.conn p.seq r.reason 0 0 0 last else d
  else
    let d := d.bump Cat.NET_TAG_FAIL
    if reached && opSequenced op then d.sendNack p.conn p.seq 5 0 0 0 false else d

/-- A duplicate is dropped without acting and causes an ACK at once (R338). -/
def Dev.duplicate (d : Dev) (p : Pkt) (x : Conn) : Dev :=
  let d := d.bump Cat.NET_RX_DUP
  if x.tagOk p then (d.verified p).sendAck p.conn else d.bump Cat.NET_TAG_FAIL

/-- A write of a connection in ERROR that would have cleared a taint in time (R53, R350). -/
def Conn.taintTie (x : Conn) (op : Nat) (p : Pkt) : Bool :=
  (op = opWrite || op = opSeal) && x.tagOk p &&
    match x.taintMiss with
    | some (t, ts) =>
      decide (p.at_ ≤ t) && ts.any fun y =>
        y.region = p.region && fld p.ext 64 64 ≤ y.offset && y.offset + y.len ≤ fld p.ext 64 64 + p.len
    | none => false

/-- Steps 4 to 10 of R346 for a packet whose context is on die. `region` are steps 7 to 9 of the op, `sink` says that what it
goes to takes nothing now (R22 to R24), `bad` is what a failed tag leaves, `act` the op's action once the tag has verified. -/
def Dev.rxAct (op : Nat) (p : Pkt) (region : Dev → Conn → Option Deny) (sink : Dev → Conn → Bool) (bad : Dev → Conn → Dev)
    (act : Dev → Conn → Dev) (d : Dev) : Dev :=
  match d.conn? p.conn with
  | none => d.bump Cat.NET_RX_NO_CONN
  | some x =>
    if x.st = .error then
      (if x.taintTie op p then d.bump Cat.TIE_LATE_STAMP else d).denyPkt op p x ⟨5, none⟩ false true
    else if p.tenant ≠ (d.job x.job).tenant then d.denyPkt op p x ⟨4, some Cat.NET_RX_TENANT_MISMATCH⟩ false false
    else if x.replayed p.pn then d.bump Cat.NET_RX_REPLAY
    else if opSequenced op && ((p.seq - x.cumRx).msb || x.got.contains p.seq) then d.duplicate p x
    else if opSequenced op && 1024 ≤ (p.seq - x.cumRx).toNat then d.denyPkt op p x ⟨6, none⟩ false false
    else
      match region d x with
      | some r => d.denyPkt op p x r true false
      | none =>
        if sink d x then d.mac p.port Cat.RX_FULL_DROP
        else if x.tagOk p then act (d.verified p) x
        else bad (d.bump Cat.NET_TAG_FAIL) x

/-- A failed tag of a sequenced packet with nothing written (R332). -/
def tagNack (op : Nat) (p : Pkt) (d : Dev) (_ : Conn) : Dev :=
  if opSequenced op then d.sendNack p.conn p.seq 5 0 0 0 false else d

def noRegion (_ : Dev) (_ : Conn) : Option Deny := none
def noSink (_ : Dev) (_ : Conn) : Bool := false

/-- A packet waits for its context (R337); with the buffer full it is dropped in silence. -/
def Dev.holdPkt (d : Dev) (op : Nat) (p : Pkt) : Dev :=
  let bytes := (d.net.hold.map fun h => h.pkt.frameBytes).sum
  if 512 < d.net.hold.length + 1 || 4 * 2 ^ 20 < bytes + p.frameBytes then d.bump Cat.NET_HOLD_FULL
  else { d with net := { d.net with hold := d.net.hold ++ [{ op := op, pkt := p, at_ := d.now }] } }

/-- Steps 1 to 3 of R346, then `act`. -/
def Dev.rx (op : Nat) (p : Pkt) (act : Dev → Dev) (d : Dev) : Dev :=
  let d := d.advance p.at_
  if !d.netUp p.port then d
  else if d.malformed op p then d.bump Cat.NET_RX_MALFORMED
  else
    match d.conn? p.conn with
    | none => d.bump Cat.NET_RX_NO_CONN
    | some x =>
      if x.st = .pending then d.bump Cat.NET_RX_NO_CONN
      else if x.residence ≠ 0 then d.holdPkt op p
      else act d

/-! ### Regions (R344 to R346, R353) -/

def NetRegion.va (r : NetRegion) : Nat := fld r.record 460 52
def NetRegion.len (r : NetRegion) : Nat := fld r.record 416 40

def NetRegion.none : NetRegion :=
  { st := .free, gen := 1, job := 0, record := 0, tr := 0, settled := false, pos := 0, phase := true, landed := 0 }

def Dev.netRegion (d : Dev) (k : Nat) : NetRegion := Tbl.getD d.net.regions k NetRegion.none
def Dev.setRegion (d : Dev) (k : Nat) (r : NetRegion) : Dev :=
  { d with net := { d.net with regions := Tbl.set d.net.regions k r } }

/-- Step 7: the handle names a region that this connection may use so. -/
def Dev.regionOk (d : Dev) (c : Nat) (x : Conn) (handle off len : Nat) (write : Bool) : Bool :=
  let r := d.netRegion (handle % 2 ^ 16)
  r.st ≠ .free && r.gen = handle / 2 ^ 16 && r.job = x.job && (!bit r.record 364 || fld r.record 365 19 = c)
    && bit r.record (if write then 363 else 362) && off + len ≤ r.len

/-- Steps 7 to 9. -/
def Dev.regionDeny (d : Dev) (c : Nat) (x : Conn) (handle at_ off len : Nat) (write : Bool) : Option Deny :=
  let r := d.netRegion (handle % 2 ^ 16)
  if !d.regionOk c x handle off len write then some ⟨3, some Cat.NET_RX_NO_REGION⟩
  else if r.st = .revoking && r.tr < at_ then some ⟨2, some Cat.NET_RX_REVOKED⟩
  else if (d.firstFault x.job (r.va + off) len write).isSome then some ⟨3, some Cat.NET_RX_NO_REGION⟩
  else none

def wrOffset (p : Pkt) : Nat := fld p.ext 64 64

/-! ### Remote write and the seal (R347 to R350) -/

/-- The seal whose predecessors are all received, if it waits. -/
def Conn.frontSeal (x : Conn) : Option WaitSeal := x.seals.find? fun s => s.seq = x.cumRx

/-- The deadline of a seal that waits for its connection's taints (R350). -/
def Conn.taintDeadline (x : Conn) (hold : Nat) : Option Nat :=
  if x.taints.isEmpty then none else x.frontSeal.map fun s => max x.cumAt s.at_ + hold

/-- A verified range received at `stamp` clears the taints that it covers, if a seal does not wait for them no longer (R52,
R350). -/
def Conn.clearTaints (x : Conn) (hold region off len stamp : Nat) : Conn :=
  let late : Bool := match x.taintDeadline hold with | some t => decide (t < stamp) | none => false
  if late then x
  else { x with taints := x.taints.filter fun t => !(t.region = region && off ≤ t.offset && t.offset + t.len ≤ off + len) }

/-- Payload bytes land for a job. -/
def Dev.land (d : Dev) (j va : Nat) (data : List Byte) : Dev :=
  (d.jwr j va data).bumpBy (Cat.NET_JOB_RX_BYTES j) data.length

/-- Job address of the payload of a WRITE or SEAL_WRITE. -/
def Dev.writeVa (d : Dev) (p : Pkt) : Nat := (d.netRegion (p.region % 2 ^ 16)).va + wrOffset p

/-- The tag of a WRITE failed: whether its payload had been written is open (R332, R350). -/
def writeBad (p : Pkt) (d : Dev) (x : Conn) : Dev :=
  let (k, d) := d.take
  if k % 2 = 0 then d.sendNack p.conn p.seq 5 0 0 0 false
  else
    let d := d.land x.job (d.writeVa p) (x.plain p)
    let d := (d.bump Cat.NET_TAINT).updConn p.conn fun y =>
      { y with taints := y.taints ++ [{ region := p.region, offset := wrOffset p, len := p.len }] }
    let d := d.sendNack p.conn p.seq 5 0 (wrOffset p) p.len false
    match d.conn? p.conn with
    | some y => if 8 < y.taints.length then d.connError p.conn 1 else d
    | none => d

def Dev.clearBy (d : Dev) (p : Pkt) (y : Conn) : Conn :=
  y.clearTaints (d.cget Cat.NET_TAINT_HOLD) p.region (wrOffset p) p.len p.at_

def Dev.actWrite (p : Pkt) : Dev → Dev :=
  Dev.rxAct opWrite p (fun d x => d.regionDeny p.conn x p.region p.at_ (wrOffset p) p.len true)
    (fun d x => d.stalledIn x.job (d.writeVa p) p.len) (writeBad p) fun d x =>
    let d := d.land x.job (d.writeVa p) (x.plain p)
    (d.updConn p.conn (d.clearBy p)).received p

/-- A seal record (R349). -/
def sealRecord (c : Nat) (s : WaitSeal) (phase : Bool) : List Byte :=
  leBytes 32 (s.at_ % 2 ^ 64 * 2 ^ 192 + s.offset % 2 ^ 64 * 2 ^ 128 + s.region * 2 ^ 96 + s.seq.toNat * 2 ^ 64
    + c * 2 ^ 45 + b2n phase)

/-- A seal lands: payload, mark, seal record, acknowledgement, in this order (R348). -/
def Dev.landSeal (d : Dev) (c : Nat) (s : WaitSeal) : Dev :=
  let k := s.region % 2 ^ 16
  let r := d.netRegion k
  let d := d.land r.job (r.va + s.offset) s.payload
  let d := if bit r.record 361 then d.incMark r.job (fld r.record 351 10) 1 s.at_ else d
  let d :=
    if bit r.record 350 then
      let n := 2 ^ fld r.record 345 5
      let d := d.jwr r.job (fld r.record 204 52 + 32 * r.pos) (sealRecord c s r.phase)
      let wrap := r.pos + 1 = n
      d.setRegion k { d.netRegion k with pos := if wrap then 0 else r.pos + 1, phase := if wrap then !r.phase else r.phase }
    else d
  let d := d.setRegion k { d.netRegion k with landed := (d.netRegion k).landed + 1 }
  let d := d.updConn c fun x =>
    let x := { x with seals := x.seals.filter fun t => t.seq ≠ s.seq }
    x.passCum d.now (x.got.length + 1)
  d.sendAck c

/-- A seal is discarded without landing; CUM passes it (R353, step 3). -/
def Dev.strandSeal (d : Dev) (c : Nat) (s : WaitSeal) : Dev :=
  let d := (d.bump Cat.NET_SEAL_REVOKED).updConn c fun x =>
    let x := { x with seals := x.seals.filter fun t => t.seq ≠ s.seq }
    x.passCum d.now (x.got.length + 1)
  d.sendNack c s.seq 2 0 0 0 false

/-- Seals that wait, device-wide. -/
def Dev.sealsWaiting (d : Dev) : Nat := (d.net.conns.map fun kc => kc.2.seals.length).sum

/-- The memory that a seal goes to takes requests. -/
def Dev.sealServed (d : Dev) (s : WaitSeal) : Bool :=
  let r := d.netRegion (s.region % 2 ^ 16)
  !d.stalledIn r.job (r.va + s.offset) s.payload.length

def Dev.actSeal (p : Pkt) : Dev → Dev :=
  Dev.rxAct opSeal p (fun d x => d.regionDeny p.conn x p.region p.at_ (wrOffset p) p.len true) noSink (tagNack opSeal p)
    fun d x =>
    if 1024 ≤ d.sealsWaiting then d.bump Cat.NET_SEAL_WAIT_FULL
    else
      let s : WaitSeal := { seq := p.seq, at_ := p.at_, region := p.region, offset := wrOffset p, payload := x.plain p }
      let d := d.updConn p.conn fun y =>
        { d.clearBy p y with seals := y.seals ++ [s] }
      let d := d.received p
      match d.conn? p.conn with
      | some y =>
        if (d.netRegion (p.region % 2 ^ 16)).settled then
          if y.frontSeal = some s && y.taints.isEmpty then d.landSeal p.conn s else d.strandSeal p.conn s
        else d
      | none => d

/-- The oldest waiting seal lands once everything below it is received and no taint is left (R348). -/
def execSealLandD (at_ c : Nat) (d : Dev) : Dev :=
  let d := d.advance at_
  match d.conn? c with
  | none => d
  | some x =>
    match x.frontSeal with
    | some s => if x.taints.isEmpty && d.sealServed s then d.landSeal c s else d
    | none => d

/-- A seal has waited NET_TAINT_HOLD for a taint (R350, R53). -/
def execTaintHoldExpiryD (c : Nat) (d : Dev) : Dev :=
  match d.conn? c with
  | none => d
  | some x =>
    match x.frontSeal, x.taintDeadline (d.cget Cat.NET_TAINT_HOLD) with
    | some s, some t =>
      let d := d.advance (t + d.cget Cat.TT_SETTLE)
      ((d.connError c 1).updConn c fun y => { y with taintMiss := some (t, x.taints) }).sendNack c s.seq 5 0 0 0 true
    | _, _ => d

/-! ### Remote read: the responder (R351) -/

/-- READ_RESPs for `len` bytes, of which `real` are read from job address `va` and any others are zeros: the end of a version
whose bytes are no whole lines. -/
def Dev.sendReads (d : Dev) (c j va len real : Nat) (seq : Word) (v : Option Version) : Dev :=
  let ps := piecesOf len (d.cget Cat.NET_MAELGO_MAX_PAYLOAD)
  ps.foldl (fun d q =>
    let a := va + q.1
    let n := min q.2 (real - q.1)
    let bad := d.jbad j a n
    let mask := ((List.range (ceilDiv n 64)).map fun i => if (d.jbad j (a + 64 * i) 1).isEmpty then 0 else 2 ^ i).sum
    let data := fit q.2 (d.jrd j a n)
    let d := bad.foldl (fun d pa => d.countBad pa) d
    let flags := (if q.1 + q.2 = len then 2 ^ 6 else 0) + (if mask = 0 then 0 else 2 ^ 5)
    let ver := match v with | some v => v.stamp % 2 ^ 64 * 2 ^ 256 + v.step % 2 ^ 32 * 2 ^ 224 | none => 0
    d.sendPkt c opReadResp flags 0 seq d.headerStep (q.1 * 2 ^ 320 + ver + mask) 48 data) d

/-- Bytes of a piece of a versioned read: READ_REQs of at most 1 MiB (R351). -/
def pieceBytes : Nat := 2 ^ 20

/-- Where a READ_REQ points: the region offset of the data or of the version directory, and for a versioned read which piece
of the version it asks for. The spec gives a piece no place in the packet; the model has it in OFFSET [63:40], which no region
reaches (log entry 49). -/
def readOffset (p : Pkt) : Nat := if bit p.ext 127 then fld p.ext 192 40 else fld p.ext 192 64
def readPiece (p : Pkt) : Nat := fld p.ext 232 24

/-- A versioned read is decided: served, refused, or held (none). -/
def Dev.decideVersion (d : Dev) (p : Pkt) (x : Conn) (count : Bool) : Option Dev :=
  let r := d.netRegion (p.region % 2 ^ 16)
  let dir := d.jnat x.job (r.va + readOffset p) 64
  let want := fld p.ext 128 32
  let start := pieceBytes * readPiece p
  let real := min (fld p.ext 160 32) (dirBytes dir - start)
  let d := if count && d.versionLate dir want p.at_ then d.bump Cat.TIE_LATE_STAMP else d
  if fld p.ext 48 48 ≠ dirBytes dir || !dirOk dir then some (d.sendNack p.conn p.seq 3 0 0 0 false)
  else
    match d.chooseVersion dir want p.at_ with
    | none => none
    | some v =>
      let va := v.va + start
      if va < r.va || r.va + r.len < va + real || (d.firstFault x.job va real false).isSome then
        some (d.sendNack p.conn p.seq 3 0 0 0 false)
      else
        let d := if count then d.received p else d
        some (d.sendReads p.conn x.job va (fld p.ext 160 32) real p.seq (some v))

/-- Length of what step 7 checks: the directory's for a versioned read. -/
def readSpan (p : Pkt) : Nat := if bit p.ext 127 then 64 else fld p.ext 160 32

/-- The read that serves a READ_REQ gets no request credits (R23), or what it reads takes no requests now. -/
def readSink (p : Pkt) (d : Dev) (x : Conn) : Bool :=
  p.full || d.stalledIn x.job ((d.netRegion (p.region % 2 ^ 16)).va + readOffset p) (readSpan p)

/-- A NACK busy; without a response slot for it there is none, and the drop is counted (R23). -/
def Dev.nackBusy (d : Dev) (p : Pkt) (retry : Nat) : Dev :=
  if p.full then d.mac p.port Cat.RX_FULL_DROP else d.sendNack p.conn p.seq 1 retry 0 0 false

def Dev.actReadReq (p : Pkt) : Dev → Dev :=
  Dev.rxAct opReadReq p (fun d x => d.regionDeny p.conn x p.region p.at_ (readOffset p) (readSpan p) false)
    (readSink p) (tagNack opReadReq p) fun d x =>
    if bit p.ext 127 then
      match d.decideVersion p x true with
      | some d => d
      | none =>
        if 64 ≤ d.net.versions.length then d.nackBusy p 100
        else
          let d := d.received p
          { d with net := { d.net with versions := d.net.versions ++ [{ op := opReadReq, pkt := p, at_ := d.now }] } }
    else
      let len := fld p.ext 160 32
      (d.received p).sendReads p.conn x.job ((d.netRegion (p.region % 2 ^ 16)).va + fld p.ext 192 64) len len p.seq none

/-- Every 1 µs a held versioned read is decided again (R351). -/
def execVersionHoldRetryD (k : Nat) (d : Dev) : Dev :=
  match d.net.versions[k]? with
  | none => d
  | some h =>
    let d := d.advance (h.at_ + 8000)
    let without : Dev := { d with net := { d.net with versions := d.net.versions.eraseIdx k } }
    match d.conn? h.pkt.conn with
    | none => without
    | some x =>
      match without.decideVersion h.pkt x false with
      | some d => d
      | none => { d with net := { d.net with versions := listSet d.net.versions k { h with at_ := d.now } } }

/-! ### Remote read: the requester (R351, R352) -/

/-- Runs of consecutive numbers in a rising list: start and length. -/
def runsOf : List Nat → List (Nat × Nat)
  | [] => []
  | a :: t =>
    match runsOf t with
    | (b, n) :: r => if a + 1 = b then (a, n + 1) :: r else (a, 1) :: (b, n) :: r
    | [] => [(a, 1)]

/-- The READ_REQ of a read-table entry; `own` names the entry. -/
def readItem (key : Nat) (r : ReadEntry) : TxItem :=
  { op := opReadReq, region := r.region, step := none,
    ext := r.piece % 2 ^ 24 * 2 ^ 232 + r.offset % 2 ^ 40 * 2 ^ 192 + r.len * 2 ^ 160 + r.want * 2 ^ 128 + b2n r.versioned * 2 ^ 127
      + r.bytes % 2 ^ 48 * 2 ^ 48,
    extLen := 32, src := none, own := leBytes 8 key, len := 0, xfer := some r.xfer }

/-- A new entry of the read table, its READ_REQ queued. -/
def Dev.addRead (d : Dev) (r : ReadEntry) (front : Bool) : Dev :=
  let k := d.net.nextRead
  let d := { d with net := { d.net with reads := Tbl.set d.net.reads k r, nextRead := k + 1 } }
  d.updConn r.conn fun x => { x with queue := if front then readItem k r :: x.queue else x.queue ++ [readItem k r] }

def Dev.dropRead (d : Dev) (k : Nat) : Dev := { d with net := { d.net with reads := Tbl.erase d.net.reads k } }

/-- A read-table entry that is wholly answered ends. -/
def Dev.checkRead (d : Dev) (k : Nat) : Dev :=
  match Tbl.find? d.net.reads k with
  | none => d
  | some r => if r.missing.isEmpty then ((d.dropRead k).settleXfer r.conn r.xfer).checkSent r.cmd else d

/-- The entry that asks for lines `[start, start + n)` of an entry's request. A versioned read names no offset within its
version: it asks again for everything up to the last of them. -/
def ReadEntry.part (r : ReadEntry) (start n : Nat) (lines : List Nat) : ReadEntry :=
  if r.versioned then { r with seq := none, ackedAt := none, len := 64 * (start + n), missing := lines }
  else
    { r with seq := none, ackedAt := none, offset := r.offset + 64 * start, dst := r.dst + 64 * start, len := 64 * n,
             room := r.room - 64 * start, missing := lines.map (· - start) }

/-- Lines of an entry that a READ_RESP carries. -/
def respLines (p : Pkt) : List Nat := (List.range (p.len / 64)).map fun i => fld p.ext 320 64 / 64 + i

/-- The entry that a READ_RESP names. -/
def Dev.readOf (d : Dev) (p : Pkt) : Option (Nat × ReadEntry) :=
  d.net.reads.find? fun kr => kr.2.conn = p.conn && kr.2.seq = some p.seq && fld p.ext 320 64 + p.len ≤ kr.2.len

/-- The memory that a READ_RESP goes to takes no requests now. -/
def readRespSink (p : Pkt) (d : Dev) (_ : Conn) : Bool :=
  match d.readOf p with
  | some (_, r) => d.stalledIn r.job (r.dst + fld p.ext 320 64) (min p.len (r.room - fld p.ext 320 64))
  | none => false

/-- A READ_RESP whose tag fails: its range is asked for again at once (R352). -/
def readRespBad (p : Pkt) (d : Dev) (_ : Conn) : Dev :=
  match d.readOf p with
  | none => d
  | some (k, r) =>
    let lines := r.missing.filter fun n => (respLines p).contains n
    if lines.isEmpty then d
    else
      let d := { d with net := { d.net with reads := Tbl.set d.net.reads k { r with
        missing := r.missing.filter fun n => !lines.contains n } } }
      (d.addRead (r.part (fld p.ext 320 64 / 64) (p.len / 64) lines) true).checkRead k

/-- Version fields go to STAMP_VA; another version than wanted is version-skew (R301, R351). -/
def Dev.noteVersion (d : Dev) (r : ReadEntry) (step stamp : Nat) : Dev :=
  let d := d.jwr r.job r.stampVa (leBytes 16 (step * 2 ^ 64 + stamp))
  match d.cmd? r.cmd with
  | some c =>
    if step = r.want || c.status = 0x05 then d
    else (d.updCmd r.cmd fun c => c.raise 0x05 step).bump (Cat.UPD_VERSION_SKEW r.job)
  | none => d

def Dev.actReadResp (p : Pkt) : Dev → Dev :=
  Dev.rxAct opReadResp p noRegion (readRespSink p) (readRespBad p) fun d x =>
    match d.readOf p with
    | none => d.bump Cat.NET_RX_STALE_RESP
    | some (k, r) =>
      -- the destination ends with the bytes that the GATHER asked for
      let d := d.land r.job (r.dst + fld p.ext 320 64) ((x.plain p).take (r.room - fld p.ext 320 64))
      let bad := (setBits 128 (fld p.ext 0 128)).map fun i =>
        match d.xlate r.job (r.dst + fld p.ext 320 64 + 64 * i) false with
        | some (pa, _) => pa / 64 * 64
        | none => 0
      let d := d.updCmd r.cmd fun c => c.drop bad
      let d := if r.versioned then d.noteVersion r (fld p.ext 224 32) (fld p.ext 256 64) else d
      let d := { d with net := { d.net with reads := Tbl.set d.net.reads k { r with
        missing := r.missing.filter fun n => !(respLines p).contains n } } }
      d.checkRead k

/-- A READ_REQ not wholly answered NET_READ_TIMEOUT after its acknowledgement (R352). -/
def execReadTimeoutD (k : Nat) (d : Dev) : Dev :=
  match Tbl.find? d.net.reads k with
  | none => d
  | some r =>
    match r.ackedAt with
    | none => d
    | some t =>
      let d := d.advance (t + d.cget Cat.NET_READ_TIMEOUT)
      let runs := runsOf r.missing
      if r.reissues < d.cget Cat.NET_READ_RETRIES then
        let d := (d.bump Cat.NET_READ_RETRY).dropRead k
        runs.foldl (fun d q =>
          d.addRead ({ r with reissues := r.reissues + 1 }.part q.1 q.2 ((List.range q.2).map (q.1 + ·))) false) d
      else
        let phys := r.missing.map fun n =>
          match d.xlate r.job (r.dst + 64 * n) false with | some (pa, _) => pa / 64 * 64 | none => 0
        let d := r.missing.foldl (fun d n =>
          d.jwr r.job (r.dst + 64 * n) (List.replicate (min 64 (r.room - 64 * n)) 0)) d
        let d := (d.bumpBy Cat.NET_READ_ABANDON runs.length).updCmd r.cmd fun c => c.drop phys
        ((d.dropRead k).settleXfer r.conn r.xfer).checkSent r.cmd

/-! ### ACK, NACK, TTSYNC (R341, R342, R355) -/

def Dev.actAck (p : Pkt) : Dev → Dev :=
  Dev.rxAct opAck p noRegion noSink (fun d _ => d) fun d _ => d.takeAck p.conn p.ext p.at_

def Dev.actNack (p : Pkt) : Dev → Dev :=
  Dev.rxAct opNack p noRegion noSink (fun d _ => d) fun d _ => d.takeNack p.conn p.ext (bit p.flags.toNat 6)

/-- TT_STATE as a code (R62). -/
def ttStateCode : TtState → Nat
  | .unloaded => 0 | .loaded => 1 | .armed => 2 | .running => 3 | .held => 4

/-- The TTSYNC extension (R328). -/
def Dev.ttsyncExt (d : Dev) (reply : Bool) : Nat :=
  let digest := match d.tt.image with | some i => i.digest | none => 0
  digest % 2 ^ 256 * 2 ^ 256 + d.cget Cat.TT_EPOCH * 2 ^ 192 + d.tt.epoch % 2 ^ 64 * 2 ^ 128
    + d.cget Cat.TT_FIRST_STEP * 2 ^ 96 + d.cget Cat.TT_STAGE * 2 ^ 88 + ttStateCode d.tt.st * 2 ^ 80 + b2n reply * 2 ^ 72

def Dev.sendTtsync (d : Dev) (c : Nat) (reply : Bool) : Dev :=
  d.sendPkt c opTtsync 0 0 0 d.headerStep (d.ttsyncExt reply) 64 []

def Dev.actTtsync (p : Pkt) : Dev → Dev :=
  Dev.rxAct opTtsync p noRegion noSink (fun d _ => d) fun d _ =>
    let d := d.bump Cat.NET_TTSYNC_RX
    let peer : TtPeer := {
      digest := fld p.ext 256 256, epoch := fld p.ext 192 64, firstStep := fld p.ext 96 32, curEpoch := fld p.ext 128 64,
      curStep := p.step, state := fld p.ext 80 8, stamp := (expandStamp d.now p.stamp).toNat }
    let d :=
      if d.tt.st = .armed && d.ttConns.contains p.conn then
        -- the TTSYNC with the latest STAMP stands
        let newer : Bool := match Tbl.find? d.tt.peers p.conn with | some y => decide (y.stamp ≤ peer.stamp) | none => true
        (if newer then { d with tt := { d.tt with peers := Tbl.set d.tt.peers p.conn peer } } else d).bumpBy Cat.TT_DIGEST_MISMATCH (b2n !d.ttSame peer)
      else d
    if bit p.ext 72 then d.sendTtsync p.conn false else d

/-- On entering ARMED and every 1 ms while ARMED, a TTSYNC on each listed connection (R355). -/
def execTtsyncSendD (d : Dev) : Dev :=
  if d.tt.st ≠ .armed then d
  else
    let due := match d.net.ttSent with
      | some t => if d.tt.armedAt ≤ t then t + 8000000 else d.tt.armedAt
      | none => d.tt.armedAt
    let d := d.advance due
    let d := { d with net := { d.net with ttSent := some (max due d.tt.armedAt) } }
    d.ttConns.foldl (fun d c => d.sendTtsync c true) d

/-! ### Time limits of held packets and draining connections (R335, R337) -/

/-- The packet's context is not on die, so no NACK can be authenticated: the drop is silent (R337). -/
def execHoldTimeoutD (k : Nat) (d : Dev) : Dev :=
  match d.net.hold[k]? with
  | none => d
  | some h =>
    let t := h.at_ + d.cget Cat.NET_HOLD_TIMEOUT
    let d := d.advance (t + d.cget Cat.TT_SETTLE)
    { d with net := { d.net with hold := d.net.hold.eraseIdx k, holdMiss := (h.pkt.conn, t) :: d.net.holdMiss } }.bump
      Cat.NET_HOLD_TIMEOUT_DROP

/-- Something received on the connection is still held for it. -/
def Dev.netHeld (d : Dev) (c : Nat) (x : Conn) : Bool :=
  d.heldFor c || d.net.versions.any (fun h => h.pkt.conn = c) || !x.seals.isEmpty

def execConnectionDrainEndD (at_ c : Nat) (d : Dev) : Dev :=
  let d := d.advance at_
  match d.conn? c with
  | none => d
  | some x =>
    let ended := x.queue.isEmpty && x.sent.isEmpty && !d.netHeld c x
    let late := x.drainAt + d.cget Cat.NET_RTO_MAX * d.cget Cat.NET_RETRY_MAX ≤ d.now
    if x.st ≠ .draining || !(ended || late) then d
    else
      let d := x.xfers.foldl (fun d kt => d.failXfer c kt.1 0xFF) d
      { d.dropConn c with net := { (d.dropConn c).net with
        hold := d.net.hold.filter (fun h => h.pkt.conn ≠ c), versions := d.net.versions.filter (fun h => h.pkt.conn ≠ c) } }

/-! ### Revocation (R353) -/

def regionHandle (k gen : Nat) : Nat := gen * 2 ^ 16 + k

/-- At Tᵣ + TT_SETTLE the region's waiting seals are answered and discarded. -/
def Dev.settleRegion (d : Dev) (k : Nat) : Dev :=
  let r := d.netRegion k
  let h := regionHandle k r.gen
  let d := d.net.conns.foldl (fun d kc =>
    (kc.2.seals.filter fun s => s.region = h).foldl (fun d s => d.strandSeal kc.1 s) d) d
  d.setRegion k { d.netRegion k with settled := true }

def execRevokeSettleD (k : Nat) (d : Dev) : Dev :=
  let r := d.netRegion k
  if r.st ≠ .revoking || r.settled then d
  else (d.advance (r.tr + d.cget Cat.TT_SETTLE)).settleRegion k

/-- Packets in flight that name the region; of a REVOKING one those stamped at or before Tᵣ (R353, R356). -/
def Dev.regionInFlight (d : Dev) (k : Nat) : Nat :=
  let r := d.netRegion k
  let h := regionHandle k r.gen
  ((d.net.hold ++ d.net.versions).filter fun p => p.pkt.region = h && (r.st = .valid || p.pkt.at_ ≤ r.tr)).length
    + (d.net.conns.map fun kc => (kc.2.seals.filter fun s => s.region = h).length).sum

def execRevokeCompleteD (at_ k : Nat) (d : Dev) : Dev :=
  let d := d.advance at_
  let r := d.netRegion k
  if r.st ≠ .revoking || !r.settled || d.regionInFlight k ≠ 0 then d
  else (d.setRegion k { NetRegion.none with gen := if r.gen = 0xFFFF then 1 else r.gen + 1 }).bump Cat.NET_REVOKE_DONE

/-! ### Catalogue entries of connections (R333 to R335) -/

def connOpenBad (d : Dev) (v : List Byte) : Bool :=
  let n := leNat v
  v.length ≠ 64 || fld n 448 12 ≠ 0 || fld n 320 22 ≠ 0 || fld n 256 32 ≠ 0 || d.portCount ≤ fld n 391 3

/-- The lowest FREE identifier. 0x7FFFF, by which a record leaves the choice to the device, is granted to no connection, so the
model holds at most 524,287 of them (the model's choice, log entry 68). -/
def Dev.freeConn (d : Dev) : Option Nat :=
  -- the lowest key not listed: the table's keys rise strictly
  let k := d.net.conns.foldl (fun k kc => if kc.1 = k then k + 1 else k) 0
  if k < 0x7FFFF then some k else none

/-- A connection takes its place; `record` names the identifier granted. -/
def Dev.openConn (d : Dev) (j id record : Nat) (st : ConnState) : WriteResult :=
  let d := (d.setConn id (newConn d j record st)).evictContexts
  ⟨d.bset (Cat.NET_CONN_OPEN j) (leBytes 64 record), stOk, false⟩

def execNetConnOpenD (r : Req) (j : Nat) (rec : List Byte) : Dev → Dev :=
  catWrite r (0x4300 + j) 0 rec .byTable (fun d => j < 16 && !connOpenBad d rec) fun d =>
    let n := leNat rec
    let id := fld n 353 19
    let full := d.quota j 4 ≤ d.connsOf j ||
      (d.cget Cat.NET_CTX_T3_ENTRIES ≤ d.residing 1 && d.cget Cat.NET_CTX_HOST_BASE = 0)
    if id = 0x7FFFF then
      match d.freeConn with
      | none => d.refuseQuota j 4
      | some c => if full then d.refuseQuota j 4 else d.openConn j c (setFld n 353 19 c) .pending
    else
      match d.conn? id with
      | some x => if x.st = .pending && x.job = j then d.openConn j id n .open_ else d.refuseQuota j 4
      | none => if full then d.refuseQuota j 4 else d.openConn j id n .open_

def execNetConnCloseD (r : Req) (j v : Nat) : Dev → Dev :=
  catWrite r (0x4300 + j) 1 (leBytes 4 v) .byTable (fun _ => j < 16 && v < 2 ^ 32) fun d =>
    match d.conn? v with
    | none => refuse d stNoEntry
    | some x =>
      if x.job ≠ j then refuse d stNoEntry
      else
        let d := d.cset (Cat.NET_CONN_CLOSE j) v
        match x.st with
        | .open_ => ⟨d.setConn v { x with st := .draining, drainAt := d.now }, stOk, false⟩
        | .draining => ⟨d, stOk, false⟩
        | _ => ⟨d.dropConn v, stOk, false⟩

def execNetConnQueryD (r : Req) (j : Nat) (v : List Byte) : Dev → Dev :=
  catWrite r (0x4300 + j) 2 v .byTable (fun _ => j < 16 && v.length = 4)
    (okWith fun d => d.bset (Cat.NET_CONN_QUERY j) v)

/-! ### Catalogue entries of regions (R344, R345, R353) -/

/-- `n` bytes at a job address are mapped pages in tiers 2 to 4. -/
def Dev.inTiers (d : Dev) (j va n : Nat) (tiers : List Nat) : Bool :=
  n ≠ 0 && ((List.range ((va + n - 1) / 0x1_0000 - va / 0x1_0000 + 1)).all fun i =>
    let a := max va ((va / 0x1_0000 + i) * 0x1_0000)
    match d.xlate j a false with
    | some (pa, _) => tiers.contains (d.tierOf pa)
    | none => false)

def Dev.regionRecBad (d : Dev) (j : Nat) (v : List Byte) : Bool :=
  let n := leNat v
  let log := fld n 345 5
  v.length ≠ 64 || fld n 456 4 ≠ 0 || fld n 256 89 ≠ 0 || fld n 0 204 ≠ 0 || fld n 460 52 % 64 ≠ 0
    || fld n 416 40 = 0 || fld n 416 40 % 64 ≠ 0 || !d.inTiers j (fld n 460 52) (fld n 416 40) [2, 3, 4]
    || (bit n 350 && (log < 6 || 16 < log || fld n 204 52 % (32 * 2 ^ log) ≠ 0
        || !d.inTiers j (fld n 204 52) (32 * 2 ^ log) [2]))

/-- A FREE region index: any one is the device's choice. -/
def Dev.freeRegion (d : Dev) : Option Nat :=
  let want := d.free 0 % 65536
  if (d.netRegion want).st = .free then some want
  else (List.range 65536).find? fun k => (d.netRegion k).st = .free

def execNetRegionRegD (r : Req) (j : Nat) (rec : List Byte) : Dev → Dev :=
  catWrite r (0x4300 + j) 3 rec .byTable (fun d => j < 16 && !d.regionRecBad j rec) fun d =>
    if d.quota j 5 ≤ d.regionsOf j then d.refuseQuota j 5
    else
      match d.freeRegion with
      | none => d.refuseQuota j 5
      | some k =>
        let d := d.takeN 1
        let gen := (d.netRegion k).gen
        let n := setFld (leNat rec) 384 32 (regionHandle k gen)
        let d := d.setRegion k { NetRegion.none with st := .valid, gen := gen, job := j, record := n }
        ⟨d.bset (Cat.NET_REGION_REG j) (leBytes 64 n), stOk, false⟩

/-- Step 1 of R353: REVOKING from `tr` on. -/
def Dev.revoke (d : Dev) (k tr : Nat) : Dev :=
  let r := d.netRegion k
  if r.st ≠ .valid then d
  else (d.setRegion k { r with st := .revoking, tr := tr, settled := false }).event 0x42 r.job 0x90 0 tr (regionHandle k r.gen)

def execNetRegionRevokeD (r : Req) (j v : Nat) : Dev → Dev :=
  catWrite r (0x4300 + j) 4 (leBytes 4 v) .byTable (fun _ => j < 16 && v < 2 ^ 32) fun d =>
    let g := d.netRegion (v % 2 ^ 16)
    if g.st = .free || g.gen ≠ v / 2 ^ 16 || g.job ≠ j then refuse d stNoEntry
    else ⟨(d.cset (Cat.NET_REGION_REVOKE j) v).revoke (v % 2 ^ 16) d.now, stOk, false⟩

def execNetRegionQueryD (r : Req) (j : Nat) (v : List Byte) : Dev → Dev :=
  catWrite r (0x4300 + j) 5 v .byTable (fun _ => j < 16 && v.length = 4)
    (okWith fun d => d.bset (Cat.NET_REGION_QUERY j) v)

/-! ### Ports (R313, R314) -/

def execPortLinkChangeD (at_ p link : Nat) (d : Dev) : Dev :=
  let d := d.advance at_
  if !d.released || d.portCount ≤ p || 2 < link then d else d.cset (Cat.NET_PORT_LINK p) link

/-- Every link goes down and the new ports train. -/
def Dev.retrainPorts (d : Dev) : Dev :=
  (List.range 8).foldl (fun d p => d.cset (Cat.NET_PORT_LINK p) (if p < d.portCount then 1 else 0)) d

def execNetPortModeD (r : Req) (v : Nat) : Dev → Dev :=
  catWrite r 0x4000 0 (leBytes 1 v) .byTable (fun _ => v < 2) fun d =>
    if d.net.conns.any fun kc => kc.2.st = .open_ || kc.2.st = .draining then refuse d stDenied
    else ⟨(d.cset Cat.NET_PORT_MODE v).retrainPorts, stOk, false⟩

end Sys2Proof.Machine
end

