-- ==== Sys2Proof/Machine/Reduce.lean ====
section
/-! DEFINITION. In-adapter reduction (R356 to R368): shards, adds and squared norms, contributions, the collective
commands SEND, CONTRIBUTE and REDUCE. -/

namespace Sys2Proof.Machine

/-! ### Shard records (R358) -/

def shardBuf1 (n : Nat) : Nat := fld n 152 52
def shardCount (n : Nat) : Nat := fld n 120 32
def shardNorm (n : Nat) : Nat := fld n 108 12
def shardAcc (n : Nat) : Nat := fld n 104 4
def shardValid (n : Nat) : Bool := bit n 103

/-- Which buffer serves step `n`: BUF0 alone when BUF1_VA is 0. -/
def shardBuf (rec_ n : Nat) : Nat := if shardBuf1 rec_ = 0 then 0 else n % 2

def shardBufVa (rec_ n : Nat) : Nat := if shardBuf rec_ n = 0 then fld rec_ 204 52 else shardBuf1 rec_

/-- ARMED0 or ARMED1. -/
def shardArmed (rec_ b : Nat) : Nat := if b = 0 then fld rec_ 64 32 else fld rec_ 32 32

/-- What ARMED0 and ARMED1 hold while their buffer is armed for no step; it is the number of no step. -/
def armedNone : Nat := 0xFFFFFFFF

/-- Bytes of a stored element. -/
def shardWidth (rec_ : Nat) : Nat := if shardAcc rec_ = 0 then 4 else 2

def shardBytes (rec_ : Nat) : Nat := shardCount rec_ * shardWidth rec_

def Dev.setRed (d : Dev) (j : Nat) (r : RedJob) : Dev := d.setJob j { d.job j with red := r }

/-- A shard is armed for a step, in the state and in its record in memory. -/
def Dev.armShard (d : Dev) (j k b step : Nat) : Dev :=
  let r := (d.job j).red
  let rec_ := Tbl.getD r.shards k 0
  let rec_ := if b = 0 then setFld rec_ 64 32 step else setFld rec_ 32 32 step
  let d := d.setRed j { r with shards := Tbl.set r.shards k rec_ }
  d.jwr j (d.cget (Cat.RED_SHARD_TABLE_VA j) + 32 * k + (if b = 0 then 8 else 4)) (leBytes 4 step)

/-! ### Adds and squared norms (R362, R364) -/

/-- FP64 rounding of a value. -/
def f64 (v : FVal) : Nat := (encodeF 8 .nearest v).bits

def f64Add (a b : Nat) : Nat := f64 ((decodeF 8 a).add (decodeF 8 b)).1

/-- new² − old², rounded once. -/
def sqDiff (code old new : Nat) : Nat :=
  let sq (n : Nat) : FVal := ((decodeF code n).mul (decodeF code n)).1
  f64 ((sq new).add (sq old).neg).1

/-- Key of an FP64 accumulator: norm index, die, parity. -/
def accKey (idx die parity : Nat) : Nat := (8 * idx + die) * 2 + parity

/-- The contributed elements of one accumulator line are added, as one action of its controller. -/
def Dev.addLine (d : Dev) (j rec_ parity va fmt elem : Nat) (els : List Nat) : Dev :=
  match d.xlate j va true with
  | none => d
  | some (pa, _) =>
    let die := match d.region pa with | .tier2 i | .tier3 i => i | _ => 0
    if d.isPoisoned (pa / 64) then d.bump (Cat.MEM_POISON_WRITE_DROP die)
    else
      let acc := shardAcc rec_
      let w := shardWidth rec_
      let sr := acc = 1 && d.cget (Cat.RED_BF16_SR j) = 1
      let olds := (List.range els.length).map fun i => leNat (memRead d.mem (pa + w * i) w)
      -- an adder lane is a lane of its die, by the element's place (log entry 46)
      let lanes := (List.range els.length).map fun i => genLane (64 + die) (elem + i)
      let news := (List.range els.length).map fun i =>
        encodeF acc (if sr then .stochastic (d.draw (genLane (64 + die) (elem + i)) i) else .nearest)
          ((decodeF acc ((olds[i]?).getD 0)).add (decodeF fmt ((els[i]?).getD 0))).1
      let d := if sr then d.drawn lanes else d
      let r := (d.job j).red
      let key := accKey (shardNorm rec_) die parity
      let sum := (olds.zip news).foldl (fun a on => f64Add a (sqDiff acc on.1 on.2.bits)) (Tbl.getD r.acc key 0)
      let d := d.setRed j { r with acc := Tbl.set r.acc key sum }
      (d.wrLine pa (news.map fun e => leBytes w e.bits).flatten).bumpBy (Cat.RED_ADD_SAT j) (news.filter (·.sat)).length

/-- The elements of a payload in a format. -/
def elemsOf (w : Nat) (data : List Byte) : List Nat :=
  (List.range (data.length / w)).map fun i => leNat ((data.drop (w * i)).take w)

/-- A contribution is added into the buffer of a step, line by line. -/
def Dev.addInto (d : Dev) (j rec_ step elem fmt : Nat) (els : List Nat) : Dev :=
  let w := shardWidth rec_
  let per := 64 / w
  let base := shardBufVa rec_ step + elem * w
  (List.range (ceilDiv els.length per)).foldl
    (fun d i => d.addLine j rec_ (step % 2) (base + 64 * i) fmt (elem + per * i) ((els.drop (per * i)).take per)) d

/-- Which row of R363 applies: the step whose buffer takes the elements, or the counter of a drop. -/
inductive AddCase where
  | onTime | notArmed | late | lateNonfinite | lateDrop
deriving DecidableEq, Repr

/-- A buffer is armed for step `m`. -/
def armedFor (rec_ m : Nat) : Bool := m ≠ armedNone && shardArmed rec_ (shardBuf rec_ m) = m

/-- The grace window after close(n) has been decided at its end (R53). -/
def graceOver (grace settle close now : Nat) : Bool := close + grace + settle ≤ now

/-- The row for a contribution stamped `s`. Once close(n), close(n + 1) or the end of the grace window has been decided, what
comes is late for it whatever its stamp (R53). -/
def Job.addCase (x : Job) (grace settle now rec_ n s : Nat) (finite : Bool) : AddCase :=
  match Tbl.find? x.red.closes n with
  | none => if armedFor rec_ n then .onTime else .notArmed
  | some c =>
    if s ≤ c + grace && !graceOver grace settle c now && (Tbl.find? x.red.closes (n + 1)).isNone && shardBuf1 rec_ ≠ 0
        && armedFor rec_ (n + 1) then (if finite then .late else .lateNonfinite)
    else .lateDrop

/-- The stamp lies at or before a deadline of R363 that has been decided without it (R53). -/
def Job.addTie (x : Job) (grace settle now n s : Nat) : Bool :=
  match Tbl.find? x.red.closes n with
  | none => false
  | some c =>
    s ≤ c || (s ≤ c + grace && graceOver grace settle c now)
      || match Tbl.find? x.red.closes (n + 1) with | some c' => decide (s ≤ c') | none => false

def AddCase.step (a : AddCase) (n : Nat) : Nat :=
  match a with
  | .late | .lateNonfinite => n + 1
  | _ => n

/-- The elements are added. -/
def AddCase.adds : AddCase → Bool
  | .onTime | .late => true
  | .notArmed | .lateNonfinite | .lateDrop => false

def finiteElem (fmt e : Nat) : Bool := (decodeF fmt e).isFinite

/-- The row of R363 for the elements `els` of a contribution stamped `s`. -/
def Dev.addCase (d : Dev) (j rec_ n s fmt : Nat) (els : List Nat) : AddCase :=
  (d.job j).addCase (d.cget (Cat.RED_GRACE j)) (d.cget Cat.TT_SETTLE) d.now rec_ n s (els.all (finiteElem fmt))

/-- A contribution stamped `s` for step `n` is decided (R363). -/
def Dev.takeContrib (d : Dev) (j k n s elem fmt : Nat) (data : List Byte) : Dev :=
  let x := d.job j
  let rec_ := Tbl.getD x.red.shards k 0
  let els := elemsOf (fmtBytes fmt) data
  let c := d.addCase j rec_ n s fmt els
  let d := if x.addTie (d.cget (Cat.RED_GRACE j)) (d.cget Cat.TT_SETTLE) d.now n s then d.bump Cat.TIE_LATE_STAMP else d
  match c with
  | .onTime =>
    let d := if els.all (finiteElem fmt) then d else d.bump (Cat.RED_NONFINITE_IN j)
    (d.addInto j rec_ n elem fmt els).bump (Cat.RED_ADDS j)
  | .notArmed => d.bump (Cat.RED_NOT_ARMED j)
  | .late => (d.addInto j rec_ (n + 1) elem fmt els).bump (Cat.RED_LATE_ADD j)
  | .lateNonfinite => d.bump (Cat.RED_LATE_NONFINITE j)
  | .lateDrop => d.bump (Cat.RED_LATE_DROP j)

/-! ### CONTRIB packets (R360, R361) -/

/-- The connection that the job's table gives for a member (R357): 4 bytes each, 0x7FFFF for none. -/
def Dev.memberConn (d : Dev) (j m : Nat) : Option Nat :=
  let b := d.bget (Cat.RED_MEMBER_CONNS j)
  let c := leNat ((b.drop (4 * m)).take 4)
  if b.length < 4 * (m + 1) || c = 0x7FFFF then none else some c

/-- The elements of a CONTRIB. -/
def contribEls (p : Pkt) (x : Conn) : List Nat := elemsOf (fmtBytes (fld p.ext 196 4)) (x.plain p)

/-- The row of R363 for a CONTRIB, and the job address of the first element that its buffer takes. -/
def Dev.contribCase (d : Dev) (p : Pkt) (x : Conn) (rec_ : Nat) : AddCase :=
  d.addCase x.job rec_ p.step p.at_ (fld p.ext 196 4) (contribEls p x)

def Dev.contribVa (d : Dev) (p : Pkt) (x : Conn) (rec_ : Nat) : Nat :=
  shardBufVa rec_ ((d.contribCase p x rec_).step p.step) + fld p.ext 208 32 * shardWidth rec_

/-- Steps 7 to 9 for a CONTRIB: its region covers the elements that the selected buffer gives it. -/
def Dev.contribDeny (d : Dev) (p : Pkt) (x : Conn) : Option Deny :=
  let k := fld p.ext 240 16
  let fmt := fld p.ext 196 4
  let count := p.len / fmtBytes fmt
  match Tbl.find? (d.job x.job).red.shards k with
  | none => some ⟨3, some Cat.NET_RX_NO_REGION⟩
  | some rec_ =>
    if shardCount rec_ < fld p.ext 208 32 + count then some ⟨3, some Cat.NET_RX_NO_REGION⟩
    else
      let va := d.contribVa p x rec_
      let r := d.netRegion (p.region % 2 ^ 16)
      if va < r.va then some ⟨3, some Cat.NET_RX_NO_REGION⟩
      else d.regionDeny p.conn x p.region p.at_ (va - r.va) (count * shardWidth rec_) true

/-- The memory that a CONTRIB's adds go to takes no requests now. -/
def contribSink (p : Pkt) (d : Dev) (x : Conn) : Bool :=
  match Tbl.find? (d.job x.job).red.shards (fld p.ext 240 16) with
  | some rec_ =>
    (d.contribCase p x rec_).adds && d.stalledIn x.job (d.contribVa p x rec_) ((contribEls p x).length * shardWidth rec_)
  | none => false

def Dev.actContrib (p : Pkt) : Dev → Dev :=
  Dev.rxAct opContrib p (fun d x => d.contribDeny p x) (contribSink p) (tagNack opContrib p) fun d x =>
    let member := fld p.ext 201 7
    let k := fld p.ext 240 16
    if d.memberConn x.job member ≠ some p.conn then (d.bump (Cat.RED_MEMBER_MISMATCH x.job)).received p
    else
      let lands := (d.contribCase p x (Tbl.getD (d.job x.job).red.shards k 0)).adds
      let d := (d.takeContrib x.job k p.step p.at_ (fld p.ext 208 32) (fld p.ext 196 4) (x.plain p)).bumpBy
        (Cat.NET_JOB_RX_BYTES x.job) (if lands then p.len else 0)
      let r := (d.job x.job).red
      let d := if bit p.ext 200 then
          d.setRed x.job { r with finals := r.finals ++ [(p.step, member, p.conn, p.seq)] } else d
      d.received p

/-! ### Members counted (R367) -/

/-- A member is counted for a step at an instant, once, and while its close is not decided. -/
def RedJob.count (r : RedJob) (step member at_ : Nat) : RedJob :=
  let ms := Tbl.getD r.counted step []
  if (Tbl.find? ms member).isSome || (Tbl.find? r.closes step).isSome then r else { r with counted := Tbl.set r.counted step (Tbl.set ms member at_) }

/-- FINAL packets that their connection's CUM has passed are counted, at the stamp by which it had. -/
def Dev.countFinals (d : Dev) (j : Nat) : Dev :=
  let r := (d.job j).red
  let passedAt (f : Nat × Nat × Nat × Word) : Option Nat :=
    match d.conn? f.2.2.1 with
    | some x => if f.2.2.2 ≠ x.cumRx && seqLe f.2.2.2 x.cumRx then some x.cumAt else none
    | none => none
  let done := r.finals.filterMap fun f => (passedAt f).map fun t => (f.1, f.2.1, t)
  if done.isEmpty then d
  else d.setRed j (done.foldl (fun r f => r.count f.1 f.2.1 f.2.2) { r with finals := r.finals.filter fun f => (passedAt f).isNone })

/-- Insertion into a rising list. -/
def insertNat (a : Nat) : List Nat → List Nat
  | [] => [a]
  | b :: t => if a ≤ b then a :: b :: t else b :: insertNat a t

/-- The instant at which EXPECT distinct members are counted for a REDUCE; those counted before its dispatch are so at it. -/
def RedJob.fullAt (r : RedJob) (s : RedStep) : Option Nat :=
  (((Tbl.getD r.counted s.step []).map fun mt => max mt.2 s.start).foldr insertNat [])[s.expect - 1]?

/-! ### Collective commands (R365) -/

def sendOk (n : Nat) : Bool :=
  fld n 448 64 % 64 = 0 && fld n 408 40 ≠ 0 && fld n 408 40 % 64 = 0 && fld n 348 8 ≤ 4
    && fld n 348 8 ≤ fld n 408 40 / 64 && (bit n 356 || fld n 348 8 = 0) && fld n 52 296 = 0 && fld n 0 52 % 64 = 0

/-- The packets of a write transfer: WRITEs, then the seal when there is one (R343, R365). -/
def sendItems (maxPayload n t : Nat) : List TxItem :=
  let off := fld n 448 64
  let src := fld n 0 52
  let last := if bit n 356 then 64 * fld n 348 8 else 0
  let body := fld n 408 40 - last
  let item (op o len : Nat) : TxItem :=
    { op := op, region := fld n 376 32, step := none, ext := (off + o) % 2 ^ 64 * 2 ^ 64, extLen := 16,
      src := some (src + o), own := [], len := len, xfer := some t }
  (piecesOf body maxPayload).map (fun q => item opWrite q.1 q.2) ++ if bit n 356 then [item opSeal body last] else []

def execSendD : Nat → Nat → Dev → Dev :=
  Dev.dispatch 2 0 fun k c d =>
    (d.atUnit k 0x90).withArgs k c (c.argsLen = 64) fun n d =>
      let len := fld n 408 40
      if !sendOk n then d.workRefused k 0x30 0
      else
        match d.firstFault c.job (fld n 0 52) len false with
        | some va => (d.cmdFault k c.job va).workDone k
        | none =>
          let lines := (List.range (len / 64)).map fun i => fld n 0 52 + 64 * i
          (d.postXfer k c.job (fld n 357 19) (fld n 376 32) (bit n 356) false lines
            (sendItems (d.cget Cat.NET_MAELGO_MAX_PAYLOAD) n)).checkSent k

/-! ### CONTRIBUTE (R365) -/

def pieceOk (n : Nat) : Bool :=
  fld n 204 52 % 64 = 0 && (!bit n 184 || (fld n 185 19 = 0 && fld n 152 32 = 0)) && fld n 104 32 % 32 = 0
    && fld n 72 32 ≠ 0 && fld n 72 32 % 32 = 0 && fld n 0 71 = 0

/-- A local piece names elements that the shard table has. -/
def Job.localOk (x : Job) (n : Nat) : Bool :=
  !bit n 184 ||
    match Tbl.find? x.red.shards (fld n 136 16) with
    | some r => fld n 104 32 + fld n 72 32 ≤ shardCount r
    | none => false

/-- CONTRIB packets of a remote piece. -/
def pieceItems (maxPayload member step fmt n t : Nat) : List TxItem :=
  let w := fmtBytes fmt
  let len := fld n 72 32 * w
  let chunk := max 1 (maxPayload / (32 * w)) * (32 * w)
  (piecesOf len chunk).map fun q =>
    { op := opContrib, region := fld n 152 32, step := some step,
      ext := fld n 136 16 * 2 ^ 240 + (fld n 104 32 + q.1 / w) % 2 ^ 32 * 2 ^ 208 + member % 2 ^ 7 * 2 ^ 201
        + b2n (bit n 71 && q.1 + q.2 = len) * 2 ^ 200 + fmt * 2 ^ 196,
      extLen := 32, src := some (fld n 204 52 + q.1), own := [], len := q.2, xfer := some t }

/-- A local piece: one contribution, stamped as it is issued. -/
def Dev.localPiece (d : Dev) (k j step fmt n : Nat) : Dev :=
  let va := fld n 204 52
  let len := fld n 72 32 * fmtBytes fmt
  let d := d.cmdPoison k (d.jbad j va len)
  let d := d.takeContrib j (fld n 136 16) step d.stamp (fld n 104 32) fmt (d.jrd j va len)
  if bit n 71 then d.setRed j ((d.job j).red.count step (d.cget (Cat.RED_MEMBER j)) d.stamp) else d

def Dev.postPiece (d : Dev) (k j step fmt n : Nat) : Dev :=
  if bit n 184 then d.localPiece k j step fmt n
  else
    let lines := (List.range (fld n 72 32 * fmtBytes fmt / 64)).map fun i => fld n 204 52 + 64 * i
    d.postXfer k j (fld n 185 19) (fld n 152 32) false false lines
      (pieceItems (d.cget Cat.NET_MAELGO_MAX_PAYLOAD) (d.cget (Cat.RED_MEMBER j)) step fmt n)

/-- The module is HELD: its anchor job contributes nothing to reductions, and its vote is absent (R58, R59). -/
def Dev.absent (d : Dev) (j : Nat) : Bool := j = d.anchor && d.tt.st = .held

def execContributeD : Nat → Nat → Dev → Dev :=
  Dev.dispatch 2 1 fun k c d =>
    (d.atUnit k 0x90).withArgs k c true fun n d =>
      let count := fld n 496 16
      let fmt := fld n 460 4
      let ps := blockEntries n 64 32 count
      if c.argsLen ≠ 64 + 32 * count then d.workRefused k 0x30 376
      else if count = 0 || 2044 < count || 2 < fmt || fld n 0 460 ≠ 0 || !ps.all pieceOk then d.workRefused k 0x30 0
      else if !ps.all (d.job c.job).localOk then d.workRefused k 0x31 0
      else
        match ps.findSome? fun p => d.firstFault c.job (fld p 204 52) (fld p 72 32 * fmtBytes fmt) false with
        | some va => (d.cmdFault k c.job va).workDone k
        | none =>
          let step := if fld n 464 32 = 0xFFFFFFFF then d.tt.step else fld n 464 32
          (if d.absent c.job then d else ps.foldl (fun d p => d.postPiece k c.job step fmt p) d).checkSent k

/-! ### REDUCE (R366, R367) -/

/-- One VALID shard is armed for a step: its buffer and its parity's accumulators are zeroed first. -/
def Dev.armFor (d : Dev) (j step k rec_ : Nat) : Dev :=
  let d := d.jwr j (shardBufVa rec_ step) (List.replicate (shardBytes rec_) 0)
  let r := (d.job j).red
  let mine (key : Nat) : Bool := key % 2 = step % 2 && key / 16 = shardNorm rec_
  (d.setRed j { r with acc := Tbl.keep (fun key _ => !mine key) r.acc }).armShard j k (shardBuf rec_ step) step

def reduceOk (d : Dev) (n : Nat) : Bool :=
  fld n 0 407 = 0 &&
    (if bit n 431 then fld n 423 7 ≠ 0 && fld n 407 16 ≠ 0
     else d.slots.isEmpty || (fld n 432 16 < d.slots.length && fld n 448 32 < (d.slotDef (fld n 432 16)).len))

/-- A REDUCE of the job for this step, or for the one two before, still runs. -/
def RedJob.busy (r : RedJob) (step : Nat) : Bool := r.runs.any fun s => s.step = step || s.step + 2 = step

def execReduceD : Nat → Nat → Dev → Dev :=
  Dev.dispatch 2 2 fun k c d =>
    (d.atUnit k 0x90).withArgs k c (c.argsLen = 64) fun n d =>
      let j := c.job
      let step := fld n 480 32
      let r := (d.job j).red
      if !reduceOk d n then d.workRefused k 0x30 0
      else if r.busy step || (!bit n 431 && (d.tt.st ≠ .running || j ≠ d.anchor)) || d.cget (Cat.UPD_NORM_VA j) = 0 then
        d.workRefused k 0x31 0
      else
        let d := r.shards.foldl (fun d kr => d.armFor j step kr.1 kr.2) d
        let run : RedStep := {
          cmd := k, step := step, byCount := bit n 431, vote := bit n 430, expect := fld n 423 7, slot := fld n 432 16,
          off := fld n 448 32, deadline := d.now + fld n 407 16 * 8192, start := d.now }
        let r := (d.job j).red
        d.setRed j { r with runs := r.runs ++ [run], closes := Tbl.erase r.closes step }

end Sys2Proof.Machine
end

