-- ==== Sys2Proof/Machine/Stats.lean ====
section
/-! DEFINITION. Statistics slots (R148 to R161, R502): contributions, the roll, probe mode, seals, what a job start
checks and writes. -/

namespace Sys2Proof.Machine

def StatFig.empty : StatFig := { rows := [], elements := 0, clipped := 0, under := 0, nonfin := 0 }

/-- Two sets of figures combined (R151). -/
def StatFig.add (a b : StatFig) : StatFig :=
  { rows := b.rows.foldl (fun t kv => Tbl.set t kv.1 (max (Tbl.getD t kv.1 0) kv.2)) a.rows,
    elements := a.elements + b.elements, clipped := a.clipped + b.clipped, under := a.under + b.under,
    nonfin := a.nonfin + b.nonfin }

/-- The largest magnitude over all rows. -/
def StatFig.amax (f : StatFig) : Nat := f.rows.foldl (fun m kv => max m kv.2) 0

def finiteBits (n : Nat) : Bool := n % 2 ^ 31 < 0x7F800000

/-! ### The slot records (R148) -/

def Dev.slotVa (d : Dev) (j k : Nat) : Nat := d.cget (Cat.NUM_STAT_TABLE_VA j) + 64 * k

def Dev.slotRec (d : Dev) (j k : Nat) : Nat := d.jnat j (d.slotVa j k) 64

def slotHistCount (n : Nat) : Nat := fld n 474 6
def slotProbeLeft (n : Nat) : Nat := fld n 470 4
def slotSealed (n : Nat) : Bool := bit n 468
def slotS2 (n : Nat) : Nat := fld n 224 32
def slotScaleVa (n : Nat) : Nat := fld n 64 52
def slotAdaptEn (n : Nat) : Bool := bit n 52
def slotMargin (n : Nat) : Nat := fld n 49 3
def slotHistValid (n : Nat) : Bool := bit n 48
def slotZeroPoint (n : Nat) : Nat := fld n 40 8

/-! ### Contributions (R151, R152, R160) -/

/-- The figures go to the roll with the earliest T at or after the stamp, else to the step that gathers now. -/
def addToRolls (k stamp : Nat) (f : StatFig) : List RollDue → List RollDue × Bool
  | [] => ([], false)
  | r :: t =>
    if stamp ≤ r.t then ({ r with figs := Tbl.set r.figs k ((Tbl.getD r.figs k StatFig.empty).add f) } :: t, true)
    else let (t', b) := addToRolls k stamp f t; (r :: t', b)

/-- A conversion that names slot `k` of job `j` contributes its figures; `narrow` says that its destination is a
narrow format. Rows are by tile row or lane; `noRows` marks a source without rows, which counts in every row. -/
def Dev.contributeStat (d : Dev) (j k : Nat) (f : StatFig) (narrow noRows : Bool) : Dev :=
  if k = 0 then d
  else
    let x := d.job j
    match Tbl.find? x.slots k with
    | none => d.bump Cat.NUM_STAT_UNUSED
    | some c =>
      let rec_ := d.slotRec j k
      let d := if narrow && slotProbeLeft rec_ ≠ 0 && !slotSealed rec_ then d.bump Cat.NUM_PROBE_UNSEALED else d
      let f := { f with
        rows := if !c.rowMode then [(0, f.amax)]
          else if noRows then (List.range 64).map fun m => (m, f.amax) else f.rows }
      let stamp := d.stamp
      let late : Bool := match x.lastRollT with | some t => stamp ≤ t | none => false
      let (rolls, found) := addToRolls k stamp f x.rolls
      let x := if found then { x with rolls := rolls }
        else { x with figs := Tbl.set x.figs k ((Tbl.getD x.figs k StatFig.empty).add f) }
      let d := d.setJob j x
      if late then (d.bump Cat.NUM_STAT_LATE).bump Cat.TIE_LATE_STAMP else d

/-! ### Writes of a roll or a seal (R502) -/

/-- A write that may fault: dropped then, counted, and reported. -/
def Dev.statWrite (d : Dev) (j va : Nat) (b : List Byte) : Dev × Bool :=
  match d.firstFault j va b.length true with
  | some a => (d.xfault j a, true)
  | none => (d.jwr j va b, false)

/-- The scale record of R113, with the row scales after its header in row mode. -/
def scaleBytes (s2 zp : Nat) (rows : List Nat) : List Byte :=
  leBytes 64 (s2 % 2 ^ 32 * 2 ^ 64 + zp % 256) ++ (rows.map fun s => leBytes 4 s).flatten

def slotRows (c : SlotCfg) : List Nat := if c.rowMode then List.range 64 else [0]

/-- Entry `i` of row `m`'s history. -/
def Dev.histAt (d : Dev) (j : Nat) (c : SlotCfg) (m i : Nat) : Nat :=
  d.jnat j (c.histVa + 128 * m + 4 * i) 4

/-- Zeros over the whole history (R158). -/
def histClear (c : SlotCfg) : List Byte := List.replicate (if c.rowMode then 8192 else 128) 0

def mfOf (fmt : Nat) : Nat × Nat :=
  if fmt = 6 then (127, 1) else if fmt = 7 then (7, 1) else (decodeF fmt (fmtMax fmt)).frac

/-- pow2ceil(m ÷ mf) × 2^margin of an FP32 magnitude, as an FP32 encoding (R153). A NaN has no such power: `pick`. -/
def scaleFor (fmt margin amax pick : Nat) : Nat :=
  if 0x7F800000 < amax then f32Pow2 ((pick % 254 : Nat) - 126)
  else if amax = 0x7F800000 then f32Pow2 127
  else
    let (a, b) := (decodeF 0 amax).frac
    let (m, p) := mfOf fmt
    f32Pow2 (pow2ceil (a * p) (b * m) + margin)

/-- What entering probe mode sets in a slot record (R158). -/
def probeRec (rec_ steps : Nat) : Nat :=
  setFld (setFld (setFld (setFld rec_ 474 6 0) 470 4 steps) 224 32 0x3F800000) 48 1 1

/-- The LAST figures of a closed step (R153, at its label done). -/
def closeRec (rec_ n : Nat) (f : StatFig) (adapted : Bool) : Nat :=
  let rec_ := setFld rec_ 480 32 n
  let rec_ := setFld rec_ 469 1 (b2n adapted)
  let rec_ := setFld rec_ 468 1 0
  let rec_ := setFld rec_ 467 1 (b2n (f.rows.any fun kv => !finiteBits kv.2))
  let rec_ := setFld rec_ 416 32 (min f.nonfin 0xFFFFFFFF)
  let rec_ := setFld rec_ 384 32 (min f.under 0xFFFFFFFF)
  let rec_ := setFld rec_ 320 64 f.clipped
  let rec_ := setFld rec_ 256 64 f.elements
  setFld rec_ 192 32 f.amax

/-- clipped > thresh × elements, exactly. -/
def clipsAbove (thresh clipped elements : Nat) : Bool :=
  let (a, b) := (decodeF 0 thresh).frac
  a * elements < clipped * b

/-- Several writes in order; true when one of them faulted. -/
def Dev.statWrites (d : Dev) (j : Nat) : List (Nat × List Byte) → Dev × Bool
  | [] => (d, false)
  | (va, b) :: t =>
    let (d, f) := d.statWrite j va b
    let (d, g) := d.statWrites j t
    (d, f || g)

/-- The record is written last; a lost write marks the slot's history invalid and is counted once (R502). -/
def Dev.statCommit (d : Dev) (j k rec_ : Nat) (writes : List (Nat × List Byte)) : Dev :=
  let (d, f) := d.statWrites j writes
  let rec_ := if f then setFld rec_ 48 1 0 else rec_
  let (d, g) := d.statWrite j (d.slotVa j k) (leBytes 64 rec_)
  if f || g then d.bump Cat.NUM_ROLL_FAULT else d

/-- The slot enters probe mode; the record is closed, and a non-finite maximum counted, when a roll does it (R153, R155,
R158). -/
def Dev.enterProbe (d : Dev) (j k : Nat) (c : SlotCfg) (close : Option (Nat × StatFig)) : Dev :=
  let rec_ := d.slotRec j k
  let one := 0x3F800000
  let new := probeRec rec_ (d.cget (Cat.NUM_PROBE_STEPS j))
  let new := match close with | some (n, f) => closeRec new n f false | none => new
  let held : Bool := match close with | some (_, f) => f.rows.any fun kv => !finiteBits kv.2 | none => false
  let d := if held then d.bump Cat.NUM_HIST_HOLD else d
  d.statCommit j k new
    [(c.histVa, histClear c),
     (slotScaleVa rec_, scaleBytes one (slotZeroPoint rec_) (if c.rowMode then List.replicate 64 one else []))]

/-- The largest history entry of row `m` among the `count` steps before step `n` (R153). -/
def Dev.histMax (d : Dev) (j : Nat) (c : SlotCfg) (m n count : Nat) : Nat :=
  ((List.range (min count c.histLen)).map fun i => d.histAt j c m ((n + c.histLen - (i + 1)) % c.histLen)).foldl max 0

/-- The roll of one slot that closes step `n` (R153). -/
def Dev.rollSlot (d : Dev) (j k : Nat) (c : SlotCfg) (n : Nat) (f : StatFig) : Dev :=
  let rec_ := d.slotRec j k
  if !slotHistValid rec_ then d.enterProbe j k c (some (n, f))
  else
    let rows := slotRows c
    let amaxOf (m : Nat) : Nat := Tbl.getD f.rows m 0
    let count := slotHistCount rec_
    let margin := slotMargin rec_
    let hist := rows.map fun m =>
      (c.histVa + 128 * m + 4 * (n % c.histLen), leBytes 4 (if finiteBits (amaxOf m) then amaxOf m else 0))
    let probe := slotProbeLeft rec_
    let d := if probe ≠ 0 then d.bump Cat.NUM_PROBE_STEP else d
    let d := if rows.any fun m => !finiteBits (amaxOf m) then d.bump Cat.NUM_HIST_HOLD else d
    let new := setFld (setFld rec_ 474 6 (min (count + 1) c.histLen)) 470 4 (probe - 1)
    if 1 < probe then d.statCommit j k (closeRec new n f false) hist
    else
      let old := slotS2 rec_
      let base (m : Nat) : Nat :=
        let h := d.histMax j c m n count
        if h = 0 then old else scaleFor c.fmt margin h 0
      let adapt := slotAdaptEn rec_ && c.fmt ≤ 5 && f.elements ≠ 0
        && clipsAbove (d.cget (Cat.NUM_CLIP_THRESH j)) f.clipped f.elements
      let final (m : Nat) : Nat :=
        if adapt && finiteBits (amaxOf m) && amaxOf m ≠ 0 then max (base m) (scaleFor c.fmt margin (amaxOf m) 0) else base m
      let scales := rows.map final
      let raised := rows.any fun m => base m < final m
      let s2 := scales.foldl max 0
      let d := if raised then d.bump Cat.NUM_CLIP_ADAPT else d
      d.statCommit j k (closeRec (setFld new 224 32 s2) n f raised)
        (hist ++ [(slotScaleVa rec_, scaleBytes s2 (slotZeroPoint rec_) (if c.rowMode then scales else []))])

/-- Steps that an automatic roll finds unrolled count as empty (R157). -/
def Dev.fillGap (d : Dev) (j : Nat) (c : SlotCfg) (last n : Nat) : Dev :=
  if last = 0xFFFFFFFF || n ≤ last + 1 then d
  else
    let steps := (List.range (min c.histLen (n - 1 - last))).map fun i => n - 1 - i
    (slotRows c).foldl (fun d m =>
      steps.foldl (fun d s => (d.statWrite j (c.histVa + 128 * m + 4 * (s % c.histLen)) (leBytes 4 0)).1) d) d

/-- A roll of job `j`, TT_SETTLE after its T or when the one before it is done (R152 to R157). -/
def execRollD (j : Nat) (d : Dev) : Dev :=
  match (d.job j).rolls with
  | [] => d
  | r :: rest =>
    let d := d.advance (r.t + d.cget Cat.TT_SETTLE)
    let x := d.job j
    let d := d.setJob j { x with rolls := rest, lastRollT := some r.t }
    let last := d.cget (Cat.NUM_LAST_ROLL_STEP j)
    let n := match r.step with | some n => n | none => (last + 1) % 2 ^ 32
    let d := x.slots.foldl (fun d kc =>
      let d := if r.step.isSome then d.fillGap j kc.2 last n else d
      d.rollSlot j kc.1 kc.2 n (Tbl.getD r.figs kc.1 StatFig.empty)) d
    let d := d.cset (Cat.NUM_LAST_ROLL_STEP j) n
    d.incMarkOpt j (d.cget (Cat.NUM_ROLL_MARK j)) d.stamp

/-- A roll falls due at `t` (R152, R157). -/
def Dev.rollDue (d : Dev) (j t : Nat) (step : Option Nat) : Dev :=
  let x := d.job j
  d.setJob j { x with rolls := x.rolls ++ [{ t := t, step := step, figs := x.figs }], figs := [] }

/-- At a step boundary every job in RUNNING or STOPPING with NUM_ROLL_AUTO 1 rolls (R157). -/
def Dev.autoRolls (d : Dev) (n t : Nat) : Dev :=
  (List.range 16).foldl (fun d j =>
    let st := (d.job j).st
    if (st = .running || st = .stopping) && d.cget (Cat.NUM_ROLL_AUTO j) = 1 then d.rollDue j t (some n) else d) d

/-- A manual roll is in progress (R157). -/
def Job.rollPending (x : Job) : Bool := x.rolls.any fun r => r.step.isNone

def execNumStatRollD (r : Req) (j v : Nat) : Dev → Dev :=
  catWrite r (0x9100 + j) 3 (leBytes 1 v) .byTable (fun _ => j < 16 && v = 1) fun d =>
    if (d.tt.st = .running && d.cget (Cat.NUM_ROLL_AUTO j) = 1) || (d.job j).rollPending then refuse d stDenied
    else ⟨d.rollDue j d.now none, stOk, false⟩

/-! ### Seals (R159) -/

/-- A seal of slot `k` from the figures of the step that gathers now. -/
def Dev.sealSlot (d : Dev) (j k : Nat) : Dev :=
  let x := d.job j
  match Tbl.find? x.slots k with
  | none => d.bump Cat.NUM_STAT_UNUSED
  | some c =>
    let (pick, d) := d.take
    let rec_ := d.slotRec j k
    let f := Tbl.getD x.figs k StatFig.empty
    let scaleOf (m : Nat) : Nat :=
      if f.elements = 0 then 0x3F800000
      else
        let a := Tbl.getD f.rows m 0
        if a = 0 then slotS2 rec_ else scaleFor c.fmt (slotMargin rec_) a pick
    let scales := (slotRows c).map scaleOf
    let s2 := scales.foldl max 0
    d.statCommit j k (setFld (setFld rec_ 224 32 s2) 468 1 1)
      [(slotScaleVa rec_, scaleBytes s2 (slotZeroPoint rec_) (if c.rowMode then scales else []))]

/-! ### Job start (R149, R158) -/

def slotReservedZero (n : Nat) : Bool :=
  fld n 448 19 = 0 && fld n 180 12 = 0 && fld n 116 12 = 0 && fld n 1 39 = 0

def slotCfgOf (n dflt : Nat) : SlotCfg :=
  { fmt := fld n 60 4, histLen := if fld n 54 6 = 0 then dflt else fld n 54 6, rowMode := bit n 53,
    histVa := fld n 128 52 }

/-- The bytes are mapped to writable pages of the job. -/
def Dev.writable (d : Dev) (j va n : Nat) : Bool := (d.firstFault j va n true).isNone

def Dev.slotOk (d : Dev) (j n : Nat) : Bool :=
  slotReservedZero n &&
    (!bit n 0 ||
      (let c := slotCfgOf n 1
       3 ≤ c.fmt && c.fmt ≤ 7 && fld n 54 6 ≤ 32 && slotMargin n ≤ 4 && slotHistCount n ≤ 32 && slotProbeLeft n ≤ 8
         && (isInt c.fmt || slotZeroPoint n = 0) && c.histVa % 128 = 0 && slotScaleVa n % 64 = 0
         && d.writable j c.histVa (if c.rowMode then 8192 else 128)
         && d.writable j (slotScaleVa n) (if c.rowMode then 320 else 64)))

/-- The statistics table passes the checks of R149. -/
def Dev.statTableOk (d : Dev) (j : Nat) : Bool :=
  d.cget (Cat.NUM_STAT_TABLE_VA j) = 0 ||
    (d.writable j (d.cget (Cat.NUM_STAT_TABLE_VA j)) 16384 &&
      (List.range 255).all fun i => d.slotOk j (d.slotRec j (i + 1)))

/-- A restored slot's scale record is written before the first fetch, and the slot is in normal mode (R158). -/
def Dev.restoreScale (d : Dev) (j k : Nat) (c : SlotCfg) : Dev :=
  let rec_ := d.slotRec j k
  let n := fld rec_ 480 32
  let rows := (slotRows c).map fun m =>
    let h := d.histMax j c m (n + 1) (slotHistCount rec_)
    if h = 0 then slotS2 rec_ else scaleFor c.fmt (slotMargin rec_) h 0
  let (d, f) := d.statWrite j (slotScaleVa rec_)
    (scaleBytes (slotS2 rec_) (slotZeroPoint rec_) (if c.rowMode then rows else []))
  let d := if slotProbeLeft rec_ = 0 then d else (d.statWrite j (d.slotVa j k) (leBytes 64 (setFld rec_ 470 4 0))).1
  if f then d.bump Cat.NUM_ROLL_FAULT else d

/-- Latch the slots and enter probe mode or restore each (R149, R158). -/
def Dev.statStart (d : Dev) (j : Nat) : Dev :=
  let ks := if d.cget (Cat.NUM_STAT_TABLE_VA j) = 0 then []
    else ((List.range 255).map (· + 1)).filter fun k => bit (d.slotRec j k) 0
  let slots : Tbl SlotCfg := ks.map fun k => (k, slotCfgOf (d.slotRec j k) (d.cget (Cat.NUM_HIST_DEFAULT j)))
  let d := d.setJob j { d.job j with slots := slots }
  slots.foldl (fun d kc =>
    let rec_ := d.slotRec j kc.1
    if !slotHistValid rec_ || slotHistCount rec_ = 0 || !isPow2Scale (slotS2 rec_) then d.enterProbe j kc.1 kc.2 none
    else d.restoreScale j kc.1 kc.2) d

end Sys2Proof.Machine
end

