-- ==== Sys2Proof/Machine/Vote.lean ====
section
/-! DEFINITION. The close of a reduction, the norms table, the vote, pace notices (R282, R283, R294, R366 to R375). -/

namespace Sys2Proof.Machine

/-! ### The norms table (R294) -/

def Dev.normVa (d : Dev) (j i : Nat) : Nat := d.cget (Cat.UPD_NORM_VA j) + 32 * i

def Dev.normRec (d : Dev) (j i : Nat) : Nat := d.jnat j (d.normVa j i) 32

/-- A write to a record: the first of a new step replaces the figures, a later one adds to them. -/
def Dev.normWrite (d : Dev) (j i step : Nat) (f : Nat → Nat) : Dev :=
  let n := d.normRec j i
  let n := if fld n 224 32 = step then n else step % 2 ^ 32 * 2 ^ 224
  d.jwr j (d.normVa j i) (leBytes 32 (f n))

/-! ### Ballots and results on the wire (R369) -/

/-- The extension of a VOTE packet; the figures of a result are zero in a ballot. -/
structure VoteHead where
  kind : Nat
  member : Nat
  first : Nat
  norms : Nat
  total : Nat
  nonfinite : Bool := false
  last : Bool
  resync : Nat
  present : Nat := 0
  absent : Nat := 0
  nonfinCount : Nat := 0
  skip : Bool := false
  sq : Nat := 0
  stamp : Nat := 0
deriving DecidableEq, Repr

def VoteHead.bits (h : VoteHead) : Nat :=
  h.kind * 2 ^ 254 + h.member % 2 ^ 7 * 2 ^ 247 + h.first % 2 ^ 16 * 2 ^ 224 + h.norms % 2 ^ 16 * 2 ^ 208
    + h.total % 2 ^ 16 * 2 ^ 192 + b2n h.nonfinite * 2 ^ 191 + b2n h.last * 2 ^ 190 + h.resync % 2 ^ 16 * 2 ^ 174
    + h.present % 2 ^ 16 * 2 ^ 158 + h.absent % 2 ^ 16 * 2 ^ 142 + h.nonfinCount % 2 ^ 16 * 2 ^ 126 + b2n h.skip * 2 ^ 125
    + h.sq % 2 ^ 32 * 2 ^ 93 + h.stamp % 2 ^ 64

def voteHead (e : Nat) : VoteHead :=
  { kind := fld e 254 2, member := fld e 247 7, first := fld e 224 16, norms := fld e 208 16, total := fld e 192 16,
    nonfinite := bit e 191, last := bit e 190, resync := fld e 174 16, present := fld e 158 16, absent := fld e 142 16,
    nonfinCount := fld e 126 16, skip := bit e 125, sq := fld e 93 32, stamp := fld e 0 64 }

/-- A VOTE packet with its values, zero-padded to 64 bytes. -/
def voteItem (step : Nat) (h : VoteHead) (vals : List Nat) : TxItem :=
  let data := (vals.map fun v => leBytes 4 v).flatten
  let len := ceilDiv data.length 64 * 64
  { op := opVote, region := 0, step := some step, ext := h.bits, extLen := 32, src := none,
    own := data ++ List.replicate (len - data.length) 0, len := len, xfer := none }

/-- The chunks of a vote of T norm indices: first index and number; a vote of none still takes one packet. -/
def Dev.voteChunks (d : Dev) (t : Nat) : List (Nat × Nat) :=
  if t = 0 then [(0, 0)] else piecesOf t (max 1 (d.cget Cat.NET_MAELGO_MAX_PAYLOAD / 4))

/-- The chunks of a vote, as packets: `vals` are the values of all T indices. -/
def Dev.voteItems (d : Dev) (step : Nat) (h : VoteHead) (vals : List Nat) : List TxItem :=
  (d.voteChunks vals.length).map fun q =>
    voteItem step { h with first := q.1, norms := q.2, total := vals.length, last := q.1 + q.2 = vals.length }
      ((vals.drop q.1).take q.2)

/-- The packets go to a member on its connection, if the table gives one. -/
def Dev.sendToMember (d : Dev) (j m : Nat) (items : List TxItem) : Dev :=
  match d.memberConn j m with
  | some c => items.foldl (fun d i => d.postOwn c i) d
  | none => d

/-! ### The root (R370, R371) -/

def Dev.voteRoot (d : Dev) (j : Nat) : Nat := d.cget (Cat.RED_VOTE_ROOT j)
def Dev.voteDeputy (d : Dev) (j : Nat) : Nat := d.cget (Cat.RED_VOTE_DEPUTY j)
def Dev.member (d : Dev) (j : Nat) : Nat := d.cget (Cat.RED_MEMBER j)
def Dev.voteNorms (d : Dev) (j : Nat) : Nat := d.cget (Cat.UPD_NORM_COUNT j)

def VoteSt.empty : VoteSt := { ballots := [], fullAt := none, rootClose := none }
def Ballot.empty : Ballot := { got := [], last := false, stamp := 0, nonfinite := false, resync := 0 }

def Ballot.complete (b : Ballot) (t : Nat) : Bool := (b.got.map (·.2)).sum = t && b.last

/-- V, once the root's close is known; with a count close and ballots missing, the latest that it can be. -/
def Dev.voteV (d : Dev) (j : Nat) (v : VoteSt) : Option Nat :=
  match v.rootClose with
  | none => none
  | some (c, false) => some (c + d.cget (Cat.RED_VOTE_WINDOW j))
  | some (c, true) =>
    let t := c + d.cget (Cat.RED_VOTE_TIMEOUT j)
    some (match v.fullAt with | some f => min f t | none => t)

/-- A ballot chunk is kept in its member's row. -/
def Dev.takeBallot (d : Dev) (j step : Nat) (h : VoteHead) (vals : List Nat) (stamp : Nat) : Dev :=
  let r := (d.job j).red
  match Tbl.find? r.voted step with
  | some v => if v < stamp then d.bump (Cat.RED_VOTE_LATE j) else d.bump Cat.TIE_LATE_STAMP
  | none =>
    let st := Tbl.getD r.votes step VoteSt.empty
    let late := match d.voteV j st with | some v => decide (v < stamp) | none => false
    let d := if late then d.bump (Cat.RED_VOTE_LATE j) else d
    let t := d.voteNorms j
    let d := d.jwr j (d.cget (Cat.RED_VOTE_BUF_VA j) + 4 * (h.member * t + h.first)) ((vals.map fun v => leBytes 4 v).flatten)
    let b := Tbl.getD st.ballots h.member Ballot.empty
    let b : Ballot := { got := Tbl.set b.got h.first vals.length, last := b.last || h.last, stamp := max b.stamp stamp,
                        nonfinite := b.nonfinite || h.nonfinite, resync := max b.resync h.resync }
    let ballots := Tbl.set st.ballots h.member b
    let full := (List.range (d.cget (Cat.RED_MEMBERS j))).all fun m => (Tbl.getD ballots m Ballot.empty).complete t
    let fullAt := if full && st.fullAt.isNone then some (ballots.foldl (fun s kb => max s kb.2.stamp) 0) else st.fullAt
    let r := (d.job j).red
    d.setRed j { r with votes := Tbl.set r.votes step { st with ballots := ballots, fullAt := fullAt } }

/-! ### Recording a result (R282, R372) -/

/-- The last slot of the current step has closed, and the module waits for the next step's first slot: the boundary between the
two lies ahead, and what the end of the step had to bring has been done. -/
def Dev.atBoundary (d : Dev) : Bool := d.tt.slotSt = .waiting && d.tt.slot + 1 = d.slots.length

/-- m* moves the epoch at the boundary that ends step `n`, or at the next one when that has passed (R55, R372). -/
def Dev.noteMove (d : Dev) (j n m : Nat) : Dev :=
  if m = 0 || d.tt.st ≠ .running || j ≠ d.anchor then d
  else
    let late : Bool := n < d.tt.step
    let d := if late then d.bump (Cat.RED_RESYNC_LATE j) else d
    let at_ := if late then d.tt.step else n
    if at_ = d.tt.step && d.atBoundary then d.moveEpoch at_ m
    else { d with tt := { d.tt with moves := d.tt.moves ++ [(at_, m)] } }

/-- The vote result record. -/
def voteRecord (step : Nat) (v : VoteRes) : Nat :=
  step % 2 ^ 32 * 2 ^ 480 + b2n v.skip * 2 ^ 479 + v.present % 2 ^ 16 * 2 ^ 448 + v.absent % 2 ^ 16 * 2 ^ 432
    + v.nonfinite % 2 ^ 16 * 2 ^ 416 + v.total % 2 ^ 32 * 2 ^ 384 + v.stamp % 2 ^ 64 * 2 ^ 320 + v.resync % 2 ^ 16 * 2 ^ 304

def Dev.recordResult (d : Dev) (j step : Nat) (v : VoteRes) : Dev :=
  let va := d.cget (Cat.UPD_VOTE_VA j)
  let d :=
    if va = 0 then d
    else
      let d := d.jwr j va (leBytes 64 (voteRecord step v))
      let d := v.norms.foldl (fun d kv => d.normWrite j kv.1 step fun n => setFld n 192 32 kv.2) d
      let d := if v.skip then d else d.cset (Cat.UPD_APPLIED j) ((d.cget (Cat.UPD_APPLIED j) + 1) % 2 ^ 32)
      d.incMarkOpt j (d.cget (Cat.UPD_VOTE_MARK j)) d.stamp
  let d := d.noteMove j step v.resync
  let r := (d.job j).red
  d.setRed j { r with recorded := r.recorded ++ [step], results := Tbl.erase r.results step,
                      awaiting := Tbl.erase r.awaiting step }

def VoteRes.complete (v : VoteRes) : Bool := v.last && v.got = v.want

/-- A REDUCE of the job for the step has not retired. -/
def Dev.reduceRuns (d : Dev) (j step : Nat) : Bool :=
  (d.job j).red.runs.any fun s => s.step = step && (d.cmd? s.cmd).isSome

/-- A complete result is recorded, unless the REDUCE of its step runs. -/
def Dev.tryRecord (d : Dev) (j step : Nat) : Dev :=
  match Tbl.find? (d.job j).red.results step with
  | some v => if v.complete && !d.reduceRuns j step then d.recordResult j step v else d
  | none => d

/-- A chunk of a result is taken. -/
def Dev.takeResult (d : Dev) (j step : Nat) (h : VoteHead) (vals : List Nat) : Dev :=
  let r := (d.job j).red
  if r.recorded.contains step then (if h.last then d.bump (Cat.RED_VOTE_DUP j) else d)
  else
    let old := match Tbl.find? r.results step with | some v => v.norms | none => []
    let wasLast := match Tbl.find? r.results step with | some v => v.last | none => false
    let norms := (List.range vals.length).foldl (fun t i => Tbl.set t (h.first + i) ((vals[i]?).getD 0)) old
    let v : VoteRes := { skip := h.skip, present := h.present, absent := h.absent, nonfinite := h.nonfinCount, total := h.sq,
                         stamp := h.stamp, resync := h.resync, norms := norms, got := norms.length, want := h.total,
                         last := wasLast || h.last }
    (d.setRed j { r with results := Tbl.set r.results step v }).tryRecord j step

/-- TT_SETTLE after V the root decides (R371). -/
def execVoteCloseD (j step : Nat) (d : Dev) : Dev :=
  let r := (d.job j).red
  match Tbl.find? r.votes step with
  | none => d
  | some st =>
    match d.voteV j st with
    | none => d
    | some v =>
      let d := d.advance (v + d.cget Cat.TT_SETTLE)
      let t := d.voteNorms j
      let all := List.range (d.cget (Cat.RED_MEMBERS j))
      let ballot (m : Nat) : Ballot := Tbl.getD st.ballots m Ballot.empty
      let present := all.filter fun m => (ballot m).complete t && (ballot m).stamp ≤ v
      let nf := (present.filter fun m => (ballot m).nonfinite).length
      let valueOf (m i : Nat) : Nat := d.jnat j (d.cget (Cat.RED_VOTE_BUF_VA j) + 4 * (m * t + i)) 4
      let sums := (List.range t).map fun i =>
        present.foldl (fun s m => f64Add s (f64 (decodeF 0 (valueOf m i)))) 0
      let toF32 (s : Nat) : Nat := (encodeF 0 .nearest (decodeF 8 s)).bits
      let h : VoteHead := {
        kind := 1, member := d.member j, first := 0, norms := 0, total := t, last := false,
        resync := (present.map fun m => (ballot m).resync).foldl max 0, present := present.length,
        absent := all.length - present.length, nonfinCount := nf, skip := nf ≠ 0, sq := toF32 (sums.foldl f64Add 0),
        stamp := v }
      let items := d.voteItems step h (sums.map toF32)
      let r := (d.job j).red
      let d := d.setRed j { r with votes := Tbl.erase r.votes step, voted := Tbl.set r.voted step v }
      let root := d.voteRoot j
      let dep := d.voteDeputy j
      let order := (if dep = root then [] else [dep]) ++ all.filter fun m => m ≠ root && m ≠ dep
      let d := order.foldl (fun d m => d.sendToMember j m items) d
      let d := d.takeResult j step { h with total := t, last := true } (sums.map toF32)
      d

/-! ### Ballots and results received -/

/-- A VOTE chunk fits the job's vote. -/
def Dev.voteFits (d : Dev) (j : Nat) (h : VoteHead) : Bool :=
  h.total = d.voteNorms j && h.first + h.norms ≤ h.total

def voteVals (h : VoteHead) (p : Pkt) (x : Conn) : List Nat := (elemsOf 4 (x.plain p)).take h.norms

/-- A verified ballot: at the root it is kept in its member's row; any other is dropped, and received. -/
def Dev.onBallot (p : Pkt) (d : Dev) (x : Conn) : Dev :=
  let h := voteHead p.ext
  let j := x.job
  if d.member j = d.voteRoot j && h.kind = 0 && d.memberConn j h.member = some p.conn && d.voteFits j h then
    (d.takeBallot j p.step h (voteVals h p x) p.at_).received p
  else d.received p

/-- The deputy forwards a result of the root to every member but the root and itself. -/
def Dev.forwardResult (d : Dev) (j step : Nat) (h : VoteHead) (vals : List Nat) : Dev :=
  let me := d.member j
  if me ≠ d.voteDeputy j || me = d.voteRoot j || h.member ≠ d.voteRoot j then d
  else
    ((List.range (d.cget (Cat.RED_MEMBERS j))).filter fun m => m ≠ me && m ≠ d.voteRoot j).foldl
      (fun d m => d.sendToMember j m [voteItem step { h with member := me } vals]) d

def Dev.onResult (p : Pkt) (d : Dev) (x : Conn) : Dev :=
  let h := voteHead p.ext
  let j := x.job
  if (h.member = d.voteRoot j || h.member = d.voteDeputy j) && d.memberConn j h.member = some p.conn && d.voteFits j h then
    ((d.forwardResult j p.step h (voteVals h p x)).takeResult j p.step h (voteVals h p x)).received p
  else d.received p

def Dev.actVote (p : Pkt) : Dev → Dev :=
  Dev.rxAct opVote p noRegion noSink (tagNack opVote p) fun d x => if fld p.ext 254 2 = 1 then d.onResult p x else d.onBallot p x

/-- RED_VOTE_TIMEOUT after a member's own REDUCE decided, with no result recorded. -/
def execVoteNoResultD (j step : Nat) (d : Dev) : Dev :=
  match Tbl.find? (d.job j).red.awaiting step with
  | none => d
  | some t =>
    let d := d.advance (t + d.cget (Cat.RED_VOTE_TIMEOUT j))
    let r := (d.job j).red
    ((d.setRed j { r with awaiting := Tbl.erase r.awaiting step }).bump (Cat.RED_VOTE_NO_RESULT j)).alert 7

/-! ### The close of a reduction (R367, R368) -/

/-- GRAD_SQ_LOCAL of a norm index: the accumulators of all dies summed, and rounded to FP32 (R364). -/
def RedJob.gradSq (r : RedJob) (idx step : Nat) : Nat :=
  let sum := (List.range 8).foldl (fun s die => f64Add s (Tbl.getD r.acc (accKey idx die (step % 2)) 0)) 0
  (encodeF 0 .nearest (decodeF 8 sum)).bits

/-- Norm indices of the VALID shards. -/
def RedJob.normIdx (r : RedJob) : List Nat := (r.shards.map fun kr => shardNorm kr.2).dedup

/-- The module's ballot for a step goes to the root, or is taken locally (R283, R370). -/
def Dev.sendBallot (d : Dev) (j step : Nat) : Dev :=
  let r := (d.job j).red
  let t := d.voteNorms j
  let vals := (List.range t).map fun i => if r.normIdx.contains i then r.gradSq i step else 0
  let anchor : Bool := j = d.anchor && d.tt.st = .running && d.tt.reqStep ≤ step
  let h : VoteHead := {
    kind := 0, member := d.member j, first := 0, norms := 0, total := t, last := false,
    nonfinite := vals.any fun v => !finiteBits v, resync := if anchor then d.tt.reqM else 0 }
  let d := if anchor && d.tt.reqM ≠ 0 then { d with tt := { d.tt with reqCarried := true } } else d
  if d.absent j then d
  else if d.member j = d.voteRoot j then d.takeBallot j step { h with last := true } vals d.stamp
  else d.sendToMember j (d.voteRoot j) (d.voteItems step h vals)

/-- close(n) of a REDUCE that runs; for a count close, the deadline unless EXPECT members came in time. In the current slot
it is the position: REDUCE_CLOSE comes before the slot's end or at it (R366). -/
def Dev.closeOf (d : Dev) (s : RedStep) (j : Nat) : Option Nat :=
  if s.byCount then some (match (d.job j).red.fullAt s with | some t => min t s.deadline | none => s.deadline)
  else
    match d.closeInstant s.step s.slot s.off with
    | some t => some (max t s.start)
    | none =>
      if d.tt.st = .running && d.tt.step = s.step && d.tt.slot = s.slot then some (d.tt.slotStart + s.off) else none

/-- A count close came at the deadline: fewer than EXPECT members were counted by then. -/
def RedJob.closedLate (r : RedJob) (s : RedStep) : Bool :=
  s.byCount && match r.fullAt s with | some t => decide (s.deadline < t) | none => true

/-- TT_SETTLE after close(n) the reduction is decided (R367, R368). -/
def execReduceCloseD (k : Nat) (d : Dev) : Dev :=
  match d.cmd? k with
  | none => d
  | some c =>
    let j := c.job
    match (d.job j).red.runs.find? fun s => s.cmd = k with
    | none => d
    | some s =>
      match d.closeOf s j with
      | none => d
      | some close =>
        if c.st ≠ .running then d
        else
          let step := s.step
          let d := d.advance (close + d.cget Cat.TT_SETTLE)
          let r := (d.job j).red
          let late := r.closedLate s
          let d := d.setRed j { r with closes := Tbl.set r.closes step close, counted := Tbl.erase r.counted step }
          let d := r.normIdx.foldl (fun d i =>
            let sq := r.gradSq i step
            d.normWrite j i step fun n => setFld (setFld n 160 32 sq) 0 1 (b2n !(finiteBits sq))) d
          let d :=
            if !s.vote then d
            else
              let r := (d.job j).red
              let st := Tbl.getD r.votes step VoteSt.empty
              let r := { r with awaiting := if r.recorded.contains step then r.awaiting else Tbl.set r.awaiting step d.now }
              let r := if d.member j = d.voteRoot j then
                { r with votes := Tbl.set r.votes step { st with rootClose := some (close, s.byCount) } } else r
              (d.setRed j r).sendBallot j step
          if late then d.workEnds k 0x03 close else d.workDone k

/-- What follows at the end of every command: members counted, retired REDUCEs, results that waited for one. -/
def Dev.settleRed (d : Dev) : Dev :=
  d.jobs.foldl (fun d kj =>
    let j := kj.1
    let d := d.countFinals j
    let r := (d.job j).red
    if r.runs.isEmpty && r.results.isEmpty then d
    else
      let d := d.setRed j { r with runs := r.runs.filter fun s => (d.cmd? s.cmd).isSome }
      r.results.foldl (fun d kv => d.tryRecord j kv.1) d) d

/-! ### Pace notices (R373 to R375) -/

def Dev.paceConns (d : Dev) (j : Nat) : List Nat :=
  let b := d.bget (Cat.PACE_CONNS j)
  records 4 b (b.length / 4)

def Dev.actPace (p : Pkt) : Dev → Dev :=
  Dev.rxAct opPace p noRegion noSink (fun d _ => d) fun d x =>
    if (d.paceConns x.job).contains p.conn && x.job = d.anchor && d.tt.st = .running && fld p.ext 166 3 ≤ 1
        && (p.step = d.tt.step || p.step + 1 = d.tt.step) then
      ({ d with tt := { d.tt with paceLag := max d.tt.paceLag (fld p.ext 192 64) } }).bump (Cat.PACE_APPLIED x.job)
    else d.bump (Cat.PACE_IGNORED x.job)

/-- At a slot start: one PACE on each listed connection, with a lag of the module's own and a cause for it. -/
def Dev.sendPace (d : Dev) : Dev :=
  let j := d.anchor
  let due := d.tt.st = .running && d.cget (Cat.PACE_THRESH j) < d.tt.lag && d.tt.paceTook < d.tt.lag
    && (d.power.throttled || d.tt.prevOverrun)
  let ext := d.tt.lag % 2 ^ 64 * 2 ^ 192 + d.tt.slot % 2 ^ 16 * 2 ^ 176 + d.member j % 2 ^ 7 * 2 ^ 169
    + b2n (!d.power.throttled) * 2 ^ 166
  let send (d : Dev) (c : Nat) : Dev :=
    match d.conn? c with
    | some x =>
      if x.st = .open_ && d.netUp x.port then (d.sendPkt c opPace 0 0 0 d.headerStep ext 32 []).bump (Cat.PACE_SENT j)
      else d
    | none => d
  let d := if due then (d.paceConns j).foldl send d else d
  { d with power := { d.power with throttled := false } }

end Sys2Proof.Machine
end

