-- ==== Sys2Proof/Machine/MaelgoRx.lean ====
section
/-! DEFINITION. What arrives at a data port: frames (R315 to R320), the Maelgo packet commands, packets held for their
context (R337), MGMT fragments (R458, R459), and the host frame rings (R439 to R441). -/

namespace Sys2Proof.Machine

/-! ### MGMT packets -/

/-- A Catalogue answer that no request command follows: the message was longer than its transport takes. The header stands
at the front of `data`. -/
def Dev.answerTooLong (d : Dev) (t : Transport) (at_ : Nat) (data : List Byte) : Dev :=
  let h := leNat (data.take 32)
  let r : Req := { at_ := at_, sess := fld h 32 32, transport := t, typ := fld h 96 8, rsv := 0, prot := none, reqId := fld h 0 32 }
  d.answer r stBadType 0 [] (fld h 112 16) (fld h 104 8) (fld h 84 4)

/-- A fragment of a message joins what is held of it: what is held then, and whether the message is whole. `held` goes on
only with the fragment that follows it. -/
def joinFragment (held : Option (Nat × List Byte)) (xid off total : Nat) (more : Bool) (data : List Byte) :
    Option (Nat × List Byte) × Bool :=
  let whole (l : List Byte) : Option (Nat × List Byte) × Bool :=
    if more then (some (xid, l), false) else if l.length = total then (some (xid, []), true) else (none, false)
  if off = 0 then whole data
  else
    match held with
    | some (x, l) => if x = xid && l.length = off && !l.isEmpty then whole (l ++ data) else (none, false)
    | none => (none, false)

/-- A verified MGMT packet: its fragment is held until its message is whole; the request then comes as a command of its
own on this connection. -/
def Dev.actMgmt (p : Pkt) : Dev → Dev :=
  Dev.rxAct opMgmt p noRegion noSink (tagNack opMgmt p) fun d x =>
    let e := p.ext
    let d := d.received p
    if x.st ≠ .open_ then d
    else if 1048576 < fld e 32 32 then
      if fld e 64 32 = 0 then
        (d.updConn p.conn fun x => { x with mgmtPart := some (fld e 0 32, []) }).answerTooLong (.mgmt p.conn) p.at_ (x.plain p)
      else d
    else
      let r := joinFragment x.mgmtPart (fld e 0 32) (fld e 64 32) (fld e 32 32) (bit e 125) (x.plain p)
      d.updConn p.conn fun x => { x with mgmtPart := r.1 }

/-! ### The packet commands (R346) -/

/-- The action of a packet whose context is on die. -/
def Dev.netAct (op : Nat) (p : Pkt) : Dev → Dev :=
  match op with
  | 1 => Dev.actWrite p
  | 2 => Dev.actSeal p
  | 3 => Dev.actReadReq p
  | 4 => Dev.actReadResp p
  | 5 => Dev.actAck p
  | 6 => Dev.actNack p
  | 7 => Dev.actContrib p
  | 8 => Dev.actVote p
  | 9 => Dev.actPace p
  | 10 => Dev.actMgmt p
  | 11 => Dev.actTtsync p
  | _ => fun d => d

/-- A packet arrives whose header names this op. -/
def Dev.packet (op : Nat) (p : Pkt) (d : Dev) : Dev := if p.op = op then Dev.rx op p (Dev.netAct op p) d else d.advance p.at_

def execWriteD (p : Pkt) : Dev → Dev := Dev.packet opWrite p
def execSealWriteD (p : Pkt) : Dev → Dev := Dev.packet opSeal p
def execReadReqD (p : Pkt) : Dev → Dev := Dev.packet opReadReq p
def execReadRespD (p : Pkt) : Dev → Dev := Dev.packet opReadResp p
def execAckD (p : Pkt) : Dev → Dev := Dev.packet opAck p
def execNackD (p : Pkt) : Dev → Dev := Dev.packet opNack p
def execContribD (p : Pkt) : Dev → Dev := Dev.packet opContrib p
def execPaceD (p : Pkt) : Dev → Dev := Dev.packet opPace p
def execMgmtD (p : Pkt) : Dev → Dev := Dev.packet opMgmt p
def execTtsyncD (p : Pkt) : Dev → Dev := Dev.packet opTtsync p

/-- A VOTE packet with KIND 0 is a ballot, one with KIND 1 a result (R369); a reserved KIND is no result. -/
def execBallotD (p : Pkt) (d : Dev) : Dev := if fld p.ext 254 2 = 1 then d.advance p.at_ else Dev.packet opVote p d
def execVoteResultD (p : Pkt) (d : Dev) : Dev := if fld p.ext 254 2 = 1 then Dev.packet opVote p d else d.advance p.at_

/-- A held packet whose time limit has passed, now that its context can authenticate an answer (R337). -/
def Dev.dropHeld (d : Dev) (h : HeldPkt) : Dev :=
  let d := d.bump Cat.NET_HOLD_TIMEOUT_DROP
  match d.conn? h.pkt.conn with
  | some x => if opSequenced h.op && x.tagOk h.pkt then d.nackBusy h.pkt (d.cget Cat.NET_BUSY_RETRY) else d
  | none => d

/-- The context is on die: the packets held for it go on in their order; those whose time limit has passed are dropped. -/
def Dev.resumeHeld (d : Dev) (c at_ : Nat) : Dev :=
  let mine := d.net.hold.filter fun h => h.pkt.conn = c
  let d : Dev := { d with net := { d.net with hold := d.net.hold.filter fun h => h.pkt.conn ≠ c } }
  mine.foldl (fun d h => if h.at_ + d.cget Cat.NET_HOLD_TIMEOUT < at_ then d.dropHeld h else Dev.netAct h.op h.pkt d) d

/-- Packets of the connection whose time limit was decided before a context that came in time (R53). -/
def Dev.holdTies (d : Dev) (c at_ : Nat) : Dev :=
  let mine := d.net.holdMiss.filter fun m => m.1 = c
  let d := d.bumpBy Cat.TIE_LATE_STAMP (mine.filter fun m => at_ ≤ m.2).length
  { d with net := { d.net with holdMiss := d.net.holdMiss.filter fun m => m.1 ≠ c } }

/-- A context arrives on die; one from the host store that fails its authentication puts the connection into ERROR, and
what was held for it is dropped (R336, R337). -/
def execContextFetchCompleteD (at_ c : Nat) (d : Dev) : Dev :=
  let d := d.advance at_
  match d.conn? c with
  | none => d
  | some x =>
    if x.residence = 0 then d
    else if x.residence = 2 && !d.storeOk x then
      let d := ((d.updConn c fun x => { x with residence := 0 }).bump Cat.NET_CTX_AUTH_FAIL).connError c 3
      { d with net := { d.net with hold := d.net.hold.filter fun h => h.pkt.conn ≠ c } }
    else (((d.holdTies c at_).updConn c fun x => { x with residence := 0, used := d.now }).evictContexts).resumeHeld c at_

/-! ### Host frame rings (R439 to R441) -/

def Dev.frameRing (d : Dev) (q : Nat) : FrameRing :=
  Tbl.getD d.net.rings q { rxHead := 0, rxTail := 0, txHead := 0, txTail := 0 }

def Dev.setFrameRing (d : Dev) (q : Nat) (x : FrameRing) : Dev :=
  { d with net := { d.net with rings := Tbl.set d.net.rings q x } }

def Dev.hostfr (d : Dev) (q : Nat) : Nat := leNat (d.bget (Cat.HOSTFR_CONFIG q))
def hfOn (n : Nat) : Bool := bit n 99
def hfPort (n : Nat) : Nat := fld n 111 1
def hfRxSize (n : Nat) : Nat := 2 ^ fld n 120 8
def hfTxSize (n : Nat) : Nat := 2 ^ fld n 112 8

/-- A frame descriptor that the device owns and may use: one with its reserved bit set is not executed, and its ring stays at
it (R13; log entry 66). -/
def hfUsable (e : Nat) : Bool := bit e 49 && !bit e 48

/-- An entry goes back: OWN clear, and VECTOR raised. -/
def Dev.handBack (d : Dev) (cfg entry v : Nat) : Dev :=
  (d.hostWrite (hfPort cfg) entry (leBytes 16 v)).raiseMsix (hfPort cfg) (fld cfg 100 11)

/-- STATUS of a received frame (R440). -/
def rxStatus (data : List Byte) : Nat :=
  b2n (ipCsum data = some true) + 2 * b2n (udpCsum data = some true || tcpCsum data = some true)
    + 4 * b2n !(frameTags data).isEmpty

/-- A selected frame takes the next owned entry of the receive ring, or is dropped. -/
def Dev.toHostRing (d : Dev) (f : Frame) : Dev :=
  let cfg := d.hostfr f.port
  let r := d.frameRing f.port
  let entry := fld cfg 192 64 + 16 * r.rxHead
  let e := leNat (d.hostRead (hfPort cfg) entry 16)
  if !hfOn cfg || r.rxHead = r.rxTail || !hfUsable e then d.bump (Cat.HOSTFR_RX_NOBUF f.port)
  else
    let body := frameBody f.data
    let d := d.hostWrite (hfPort cfg) (fld e 64 64) body
    let d := d.handBack cfg entry
      (fld e 64 64 * 2 ^ 64 + body.length % 2 ^ 14 * 2 ^ 50 + rxStatus f.data * 2 ^ 40 + f.at_ % 2 ^ 40)
    d.setFrameRing f.port { r with rxHead := (r.rxHead + 1) % hfRxSize cfg }

def execHostfrRxTailD (at_ q : Nat) (v : Word) (d : Dev) : Dev :=
  let d := d.advance at_
  if !d.released || 8 ≤ q then d
  else d.setFrameRing q { d.frameRing q with rxTail := v.toNat % 2 ^ 12 % hfRxSize (d.hostfr q) }

/-- A frame that a host ring gives leaves the port with PCP 0 on a tagged one (R317, R319). -/
def Dev.sendHostFrame (d : Dev) (q : Nat) (data : List Byte) : Dev :=
  let frame := hostFrame (d.txTag q 0) data
  ((d.macSent q frame.length (castOf frame)).setLastTx q { pkt := none, data := frame }).emit (.frame q frame)

/-- The frames of the transmit ring leave, in order, up to the tail or an entry that the device may not use. -/
def Dev.sendHostFrames (d : Dev) (q : Nat) : Nat → Dev
  | 0 => d
  | fuel + 1 =>
    let cfg := d.hostfr q
    let r := d.frameRing q
    let entry := fld cfg 128 64 + 16 * r.txHead
    let e := leNat (d.hostRead (hfPort cfg) entry 16)
    if !hfOn cfg || r.txHead = r.txTail || !hfUsable e || !d.netUp q then d
    else
      let d := d.sendHostFrame q (d.hostRead (hfPort cfg) (fld e 64 64) (fld e 50 14))
      let d := d.handBack cfg entry (setFld e 49 1 0)
      (d.setFrameRing q { r with txHead := (r.txHead + 1) % hfTxSize cfg }).sendHostFrames q fuel

def execHostfrTxTailD (at_ q : Nat) (v : Word) (d : Dev) : Dev :=
  let d := d.advance at_
  if !d.released || 8 ≤ q then d
  else
    let d := d.setFrameRing q { d.frameRing q with txTail := v.toNat % 2 ^ 12 % hfTxSize (d.hostfr q) }
    d.sendHostFrames q (hfTxSize (d.hostfr q))

/-! ### Frames (R315 to R320) -/

/-- The tags of a frame fit the port. -/
def Dev.vlanOk (d : Dev) (p : Nat) (tags : List Nat) : Bool :=
  let vid := fld (d.cget (Cat.NET_PORT_VLAN p)) 0 12
  if d.taggedPort p then tags = [vid] else tags.isEmpty || tags = [0]

/-- A frame of MAC control: its opcode (R320). -/
def macControl (l : List Byte) : Option Nat := if etherType l = 0x8808 then some (beAt l (netAt l) 2) else none

/-- A PTP message of either transport of R31: EtherType 0x88F7, or UDP port 319 or 320. -/
def isPtp (l : List Byte) : Bool :=
  etherType l = 0x88F7 || (segment l 17 && (udpPort l = 319 || udpPort l = 320))

/-- IPv4 addressed to the port. -/
def Dev.ipToPort (d : Dev) (p : Nat) (l : List Byte) : Bool := isIp l && ipDst l = d.cget (Cat.NET_PORT_IPV4 p)

def Dev.isMaelgo (d : Dev) (p : Nat) (l : List Byte) : Bool :=
  d.ipToPort p l && !ipOptions l && segment l 17 && udpPort l = d.cget Cat.NET_MAELGO_UDP_PORT

/-- An ARP request for the port's address. -/
def Dev.isArp (d : Dev) (p : Nat) (l : List Byte) : Bool :=
  etherType l = 0x0806 && beAt l (netAt l + 6) 2 = 1 && beAt l (netAt l + 24) 4 = d.cget (Cat.NET_PORT_IPV4 p)

/-- The classification of a good frame (R318). PTP messages, ARP requests and Maelgo packets act by commands of their own, but
for the packets of an op that no command carries: those are dropped (R329). -/
def Dev.classify (d : Dev) (f : Frame) : Dev :=
  let p := f.port
  let l := f.data
  if isPtp l && p = d.cget Cat.PTP_TIMING_PORT then d.mac p Cat.RX_PTP
  else if d.isMaelgo p l then
    let d := d.mac p Cat.RX_MAELGO
    let k : Pkt := { port := p, at_ := f.at_, data := l, full := f.full }
    if opReserved k.op then d.bump Cat.NET_RX_MALFORMED else d
  else if d.isArp p l then d
  else if bit (d.cget Cat.NET_HOST_FRAMES) p then d.toHostRing f
  else if d.ipToPort p l && (ipOptions l || ipFragment l) then d.mac p Cat.RX_IP_DROP
  else d.mac p Cat.RX_OTHER_DROP

/-- A frame that is counted as good and is not a control frame. -/
def Dev.goodFrame (d : Dev) (f : Frame) : Dev :=
  let p := f.port
  let l := f.data
  if 2 ≤ (frameTags l).length then d.mac p Cat.RX_OTHER_DROP
  else if !d.vlanOk p (frameTags l) then d.mac p Cat.RX_VLAN_MISMATCH
  else if ipCsum l = some false then d.mac p Cat.RX_IPV4_CSUM_ERR
  else if udpCsum l = some false then d.mac p Cat.RX_UDP_CSUM_ERR
  else if tcpCsum l = some false then d.mac p Cat.RX_TCP_CSUM_ERR
  else if f.full then d.mac p Cat.RX_FULL_DROP
  else d.classify f

/-- Counters of the PCS and of a good frame (R315, R322). -/
def Dev.countPcs (d : Dev) (f : Frame) : Dev :=
  let p := f.port
  let d := ((d.macBy p Cat.FEC_CW_CORRECTED f.fecCorrected).macBy p Cat.FEC_CW_UNCORRECTED f.fecUncorrected).macBy p
    Cat.FEC_SYMBOLS_CORRECTED f.fecSymbols
  if f.symbolErr then d.mac p Cat.RX_SYMBOL_ERR else d

def Dev.countGood (d : Dev) (p : Nat) (l : List Byte) : Dev :=
  let n := l.length
  let d := (((d.mac p Cat.RX_FRAMES_OK).macBy p Cat.RX_BYTES_OK n).mac p (Cat.RX_SIZE0 + sizeClass n)).mac p
    (castCtr Cat.RX_UNICAST (castOf l))
  if (frameTags l).isEmpty then d else d.mac p Cat.RX_VLAN

def execFrameReceiveD (f : Frame) (d : Dev) : Dev :=
  let d := d.advance f.at_
  let p := f.port
  let l := f.data
  if !d.netUp p then d
  else
    let d := d.countPcs f
    if l.length < 64 then d.mac p Cat.RX_RUNT
    else if 9216 < l.length then d.mac p Cat.RX_OVERSIZE
    else if !fcsOk l || 0 < f.fecUncorrected then d.mac p Cat.RX_FCS_ERR
    else
      let d := d.countGood p l
      match macControl l with
      | some 1 => d.mac p Cat.RX_PAUSE
      | some 0x0101 => d.mac p Cat.RX_PFC
      | _ => d.goodFrame f

/-- An ARP request for the address of a data port, or of the management MAC, is answered (R318, R462). -/
def execArpRequestD (at_ : Nat) (port : Option Nat) (ip : Nat) (d : Dev) : Dev :=
  let d := d.advance at_
  match port with
  | some p =>
    if d.netUp p && ip = d.cget (Cat.NET_PORT_IPV4 p) then ((d.noLastTx p).macSent p 64 0).emit (.arp (some p) ip) else d
  | none =>
    if d.boot.step = 0 then d
    else if ip = d.cget Cat.MGMT_IPV4 then ((d.bump Cat.MGMT_RX_FRAMES).bump Cat.MGMT_TX_FRAMES).emit (.arp none ip)
    else d.bump Cat.MGMT_RX_FRAMES

end Sys2Proof.Machine
end

