-- ==== Sys2Proof/Machine/Host.lean ====
section
/-! DEFINITION. Host ports, Catalogue sessions and the management MAC (R430 to R438, R442 to R462, R482): requests that open
and close sessions, roles, mailboxes, job apertures, PCI Express links, management datagrams. -/

namespace Sys2Proof.Machine

/-! ### Requests without an entry (R444, R445, R455, R456) -/

def busyAnswer (r : Req) (opcode : Nat) (d : Dev) : Dev :=
  (d.takeN 1).answer r stBusy d.busyMs [] 0 0 opcode

/-- Checks 1 to 3 of a request of an open session that names no entry, then `f`. -/
def sessionRequest (r : Req) (opcode : Nat) (f : Dev → Dev) (d : Dev) : Dev :=
  let d := d.advance r.at_
  if !d.transportUp r.transport then d
  else
    match d.session? r.sess with
    | none =>
      let d := d.noSession r
      if d.long.isSome then busyAnswer r opcode d else d.answer r stBadType 0 [] 0 0 opcode
    | some s =>
      let s := d.touch s r.at_
      let d := d.setSession r.sess s
      if d.long.isSome then busyAnswer r opcode d
      else if r.rsv ≠ 0 || r.typ ≠ 0 || s.transport ≠ r.transport then d.answer r stBadType 0 [] 0 0 opcode
      else
        let (d, protOk) := d.checkProt r s opcode 0 0 []
        if !protOk then d.answer r stDenied 0 [] 0 0 opcode else f d

def execCatNopD (r : Req) : Dev → Dev := sessionRequest r 4 fun d => d.answer r stOk 0 [] 0 0 4

def execCatCloseD (r : Req) : Dev → Dev :=
  sessionRequest r 3 fun d => (d.answer r stOk 0 [] 0 0 3).closeSession r.sess

/-- Sessions whose transport satisfies `p`. -/
def Dev.sessionsOn (d : Dev) (p : Transport → Bool) : Nat := (d.sessions.filter fun ks => p ks.2.transport).length

def isMgmtT : Transport → Bool
  | .mgmt _ => true
  | _ => false

def isMacT : Transport → Bool
  | .bus => true
  | .service => true
  | _ => false

/-- The transport has a free session (R455, R459). -/
def Dev.sessionFree (d : Dev) (t : Transport) : Bool :=
  let none_ := d.sessionsOn (fun u => u = t) = 0
  match t with
  | .mbox p m => p < 2 && m < 8 && none_
  | .mgmt c =>
    let isOpen : Bool := match d.conn? c with | some x => x.st = .open_ | none => false
    isOpen && none_ && d.sessionsOn isMgmtT < 64
  | _ => d.sessionsOn isMacT < 16

/-- A new non-zero handle: any one not in use is the device's choice. -/
def Dev.newHandle (d : Dev) : Nat :=
  let want := 1 + d.free 0 % (2 ^ 32 - 1)
  if (d.session? want).isNone then want
  else ((List.range 97).find? fun k => (d.session? (k + 1)).isNone).map (· + 1) |>.getD 1

def Session.fresh (t : Transport) (now : Nat) : Session :=
  { transport := t, owner := false, chan := none, level := 0, lastAct := now, challenge := none, quote := [], cached := none }

def execCatOpenD (r : Req) (d : Dev) : Dev :=
  let d := d.advance r.at_
  if !d.transportUp r.transport then d
  else if d.long.isSome then busyAnswer r 2 d
  else if r.rsv ≠ 0 || r.typ ≠ 0 || r.sess ≠ 0 || r.prot.isSome then d.answer r stBadType 0 [] 0 0 2
  else if !d.sessionFree r.transport then d.answer r stDenied 0 [] 0 0 2
  else
    let h := d.newHandle
    let d := { (d.takeN 1).setSession h (Session.fresh r.transport d.now) with expired := Tbl.erase d.expired h }
    d.answer { r with sess := h } stOk 0 [] 0 0 2

/-! ### Reads (R445) -/

/-- A Catalogue READ: checks 1 to 5, then the value. -/
def catReadWith (r : Req) (index field : Nat) (value : Dev → Session → Dev × List Byte) (d : Dev) : Dev :=
  let d := d.advance r.at_
  if !d.transportUp r.transport then d
  else
    let busy := d.busyMs
    let (d, st) := d.checkHead r false index field []
    match st, d.session? r.sess with
    | some st, _ =>
      if st = stBusy then (d.takeN 1).answer r st busy [] index field 0 else d.answer r st 0 [] index field 0
    | none, some s =>
      let (d, v) := value d s
      d.answer r stOk 0 v index field 0
    | none, none => d

/-- A fresh challenge, valid for one proof (R457). -/
def newChallenge (r : Req) (d : Dev) (s : Session) : Dev × List Byte :=
  let (n, d) := d.take
  let c := leBytes 32 n
  (d.setSession r.sess { s with challenge := some c }, c)

def execSessChallengeD (r : Req) : Dev → Dev := catReadWith r 0xA010 4 (newChallenge r)

/-! ### Roles and levels (R448, R456, R457) -/

def execSessLevelD (r : Req) (v : Nat) : Dev → Dev :=
  catWrite r 0xA010 0 (leBytes 1 v) .levelKeeper (fun _ => v < 2) fun d =>
    match d.session? r.sess with
    | some s => ⟨d.setSession r.sess { s with level := v }, stOk, false⟩
    | none => refuse d stDenied

/-- With no owner key, an empty proof on the service port; with one, a signature over the outstanding challenge, which
`sigOk` says verifies. -/
def execSessOwnerProofD (r : Req) (v : List Byte) (sigOk : Bool) : Dev → Dev :=
  catWrite r 0xA010 5 v .anyone (fun _ => true) fun d =>
    match d.session? r.sess with
    | none => refuse d stDenied
    | some s =>
      let ok :=
        if d.nv.ownerKey.isEmpty then s.transport = .service && v.isEmpty
        else s.challenge.isSome && sigOk && !isMgmtT s.transport
      let s := { s with challenge := none }
      if ok then ⟨d.setSession r.sess { s with owner := true }, stOk, false⟩ else refuse (d.setSession r.sess s) stDenied

/-- A session whose idle period has run out at `t` is closed and counted. -/
def Dev.expire (d : Dev) (h t : Nat) : Dev :=
  { (d.closeSession h).bump Cat.SESS_TIMEOUT with expired := Tbl.set d.expired h t }

def execSessIdleTimeoutD (r : Req) (v : Nat) : Dev → Dev :=
  catWrite r 0xA001 0 (leBytes 4 v) .byTable (fun _ => v < 2 ^ 32)
    (okWith fun d =>
      let d := d.cset Cat.SESS_IDLE_TIMEOUT v
      (d.sessions.filter fun ks => ks.2.lastAct + d.idleUnits < d.now).foldl (fun d ks => d.expire ks.1 (ks.2.lastAct + d.idleUnits)) d)

/-- TT_SETTLE after the deadline, the tie rule decides (R52, R456). -/
def execSessionIdleExpiryD (h : Nat) (d : Dev) : Dev :=
  match d.session? h with
  | none => d
  | some s =>
    let t := s.lastAct + d.idleUnits
    (d.advance (t + d.cget Cat.TT_SETTLE)).expire h t

/-! ### Mailboxes and the global registers (R433, R453, R454) -/

def Dev.mbox (d : Dev) (p m : Nat) : Mailbox := Tbl.getD (d.host p).mboxes m Mailbox.empty

def Dev.setMbox (d : Dev) (p m : Nat) (b : Mailbox) : Dev :=
  d.setHost p { d.host p with mboxes := Tbl.set (d.host p).mboxes m b }

/-- The registers of port `p` are reached. -/
def Dev.barOpen (d : Dev) (p : Nat) : Bool := d.released && p < 2 && !d.hostLost p

/-- GO: the request in MBOX_REQ is accepted, and comes as a command of its own; or it is dropped and sets MBOX_ERR. With BULK
its value lies in the bulk buffer; `bulkFails` says that this read fails. -/
def execMboxCtrlD (at_ p m : Nat) (v : Word) (bulkFails : Bool) (d : Dev) : Dev :=
  let d := d.advance at_
  let b := d.mbox p m
  let head := leNat (b.req.take 32)
  if !d.barOpen p || 8 ≤ m || !bit v.toNat 0 then d
  else if b.pending || (bit head 82 && (b.bulkLen < fld head 160 32 || bulkFails)) then (d.bump Cat.CTL_ERROR).hostErr p 5
  else d.setMbox p m { b with pending := true }

/-- A register of `n` bytes after a write of bytes at an offset within it. -/
def regWrite (n old o : Nat) (data : List Byte) : Nat := leNat (putAt (leBytes n old) o (data.take (n - o)))

/-- The write covers bytes of the register of `n` bytes at `reg`. -/
def inReg (off reg n : Nat) : Bool := reg ≤ off && off < reg + n

/-- A write to a mailbox page beside MBOX_CTRL (R453): DONE clears by 1; MBOX_IRQ, the bulk buffer's place and MBOX_REQ are
written; the rest ignores it. -/
def Mailbox.write (b : Mailbox) (off : Nat) (data : List Byte) : Mailbox :=
  if off = 0x08 then (if bit (leNat data) 1 then { b with done := false } else b)
  else if off = 0x10 then { b with irqEn := bit (leNat data) 15, vector := fld (leNat data) 0 11 }
  else if inReg off 0x18 8 then { b with bulkAddr := regWrite 8 b.bulkAddr (off - 0x18) data }
  else if off = 0x20 then { b with bulkLen := fld (leNat data) 0 32 }
  else if inReg off 0x1000 0x1000 then { b with req := putAt (fit 4096 b.req) (off - 0x1000) (data.take (0x2000 - off)) }
  else b

def execMboxStatusD (at_ p m off : Nat) (data : List Byte) (d : Dev) : Dev :=
  let d := d.advance at_
  if !d.barOpen p || 8 ≤ m then d else d.setMbox p m ((d.mbox p m).write off data)

/-- A write to an MSI-X table entry; a vector that is unmasked while it is pending is raised. -/
def Dev.msixWrite (d : Dev) (p o : Nat) (data : List Byte) : Dev :=
  let h := d.host p
  let v := o / 16
  let e := regWrite 16 (Tbl.getD h.msix v msixReset) (o % 16) data
  let d := d.setHost p { h with msix := if e = msixReset then Tbl.erase h.msix v else Tbl.set h.msix v e }
  if !bit e 96 && Tbl.getD h.pba v false then
    (d.setHost p { d.host p with pba := Tbl.erase h.pba v }).raiseMsix p v
  else d

/-- A write to the global registers or the MSI-X table of a port (R433): the bits of HOST_ERR_CAUSE clear by 1, HOST_ERR_IRQ
and the table are written; what is read only, and what the map does not name, ignores it (R10). -/
def execHostErrCauseD (at_ p off : Nat) (data : List Byte) (d : Dev) : Dev :=
  let d := d.advance at_
  let h := d.host p
  let v := leNat data
  if !d.barOpen p then d
  else if off = 0x10 then d.setHost p { h with errCause := h.errCause - (h.errCause &&& v) }
  else if off = 0x18 then d.setHost p { h with errEn := bit v 15, errVector := fld v 0 11 }
  else if inReg off 0x20000 0x8000 then d.msixWrite p (off - 0x20000) data
  else d

/-- A BAR write to an RW-idle field while the job is not stopped is ignored and counted (R10, R73, R476). -/
def execRwIdleBarWriteD (at_ p j q : Nat) (d : Dev) : Dev :=
  let d := d.advance at_
  if d.barOpen p && j < 16 && q < 64 && !(d.job j).isStopped then d.bump Cat.CTL_ERROR else d

/-! ### Job apertures (R423, R438) -/

/-- Physical addresses of the lines that an access touches, when every one lies in tier 2 or tier 3. -/
def Dev.apertureLines (d : Dev) (j va n : Nat) (write : Bool) : Option (List Nat) :=
  (linesOf va n).mapM fun l =>
    match d.xlate j (max va (64 * l)) write with
    | some (pa, _) =>
      match d.region pa with
      | .tier2 _ | .tier3 _ => some (pa / 64 * 64)
      | _ => none
    | none => none

def execApertureAccessD (at_ p j off : Nat) (op : ApertureOp) (d : Dev) : Dev :=
  let d := d.advance at_
  let va := d.cget (Cat.MEM_HOST_APERTURE j) + off
  let zeros (n : Nat) (d : Dev) : Dev := d.emit (.barRead p (List.replicate n 0) false)
  if !d.barOpen p || 16 ≤ j || 2 ^ 30 ≤ off then d
  else if d.cget (Cat.SEC_HOST_ACCESS j) ≠ 1 then
    let d := d.bump Cat.SEC_HOST_ACCESS_DROP
    match op with
    | .read n => zeros n d
    | .write _ => d
  else
    match op with
    | .read n =>
      match d.apertureLines j va n false with
      | none => zeros n ((d.bump (Cat.HOST_BAR_UNMAPPED p)).hostErr p 3)
      | some lines =>
        let bad := lines.filter fun pa => d.badLine pa
        let data := d.jrd j va n
        (bad.foldl (fun d pa => d.countBad pa) d).emit (.barRead p data (!bad.isEmpty))
    | .write data =>
      match d.apertureLines j va data.length true with
      | none => (d.bump (Cat.HOST_BAR_UNMAPPED p)).hostErr p 3
      | some _ => d.jwr j va data

/-! ### PCI Express links (R432, R482, R483) -/

/-- The port's registers return to their reset values; its sessions close. -/
def Dev.portReset (d : Dev) (p : Nat) (perstLow : Bool) : Dev :=
  let h := d.host p
  let onPort (s : Session) : Bool := match s.transport with | .mbox q _ => q = p | _ => false
  (d.closeSessions onPort).setHost p
    { HostPort.empty with perstLow := perstLow, training := !perstLow && d.pins.pwrGood && !d.boot.recovery,
                          ide0 := h.ide0, ide1 := h.ide1, ideKeys := h.ideKeys }

def execPerstAssertD (at_ p : Nat) (d : Dev) : Dev :=
  let d := d.advance at_
  if 2 ≤ p then d else d.portReset p true

def execPerstReleaseD (at_ p : Nat) (d : Dev) : Dev :=
  let d := d.advance at_
  let h := d.host p
  if 2 ≤ p || !h.perstLow then d
  else d.setHost p { h with perstLow := false, training := d.pins.pwrGood && !d.boot.recovery }

def execHostLinkUpD (at_ p rate width : Nat) (d : Dev) : Dev :=
  let d := d.advance at_
  let h := d.host p
  if 2 ≤ p || !h.training || h.perstLow || rate = 0 || 5 < rate || !([1, 2, 4, 8, 16] : List Nat).contains width then d
  else d.setHost p { h with linkUp := true, training := false, rate := rate, width := width }

def execHostLinkDownD (at_ p : Nat) (d : Dev) : Dev :=
  let d := d.advance at_
  if 2 ≤ p || !(d.host p).linkUp then d else d.portReset p (d.host p).perstLow

/-- 10 ms after the loss the pending tier 4 reads return zeros; in the model a read takes its bytes as it is issued, so none
is pending. -/
def execHostReadTimeoutD (p : Nat) (d : Dev) : Dev :=
  if 2 ≤ p || !d.hostLost p then d else d.advance (d.now + 80000000)

def execConfigurationRequestD (at_ p : Nat) (d : Dev) : Dev :=
  let d := d.advance at_
  if 2 ≤ p || !(d.host p).linkUp then d else d.emit (.config p (!d.released))

/-! ### The management MAC (R458 to R462) -/

/-- The MAC listens to this medium. -/
def Dev.macListens (d : Dev) (onBus : Bool) : Bool := 1 ≤ d.boot.step && onBus = d.onBus

/-- Message bytes that the medium takes at most. -/
def Dev.macLimit (d : Dev) : Nat := if d.onBus then 1048576 else 269484096

def execMgmtDatagramD (f : MgmtFrag) (d : Dev) : Dev :=
  let d := d.advance f.at_
  if !d.macListens f.onBus then d
  else
    let d := d.bump Cat.MGMT_RX_FRAMES
    let dup : Bool := match d.session? f.sess with | some s => s.cached = some (f.src, f.xid) | none => false
    if f.otherKind || f.kind ≠ 0 || f.rsv ≠ 0 || 1024 < f.data.length then d.bump Cat.MGMT_RX_OTHER
    else if dup then
      if f.more then d else ((d.bump Cat.MGMT_RX_DUP).bump Cat.MGMT_TX_FRAMES).emit (.mgmtRepeat f.sess f.xid)
    else if d.macLimit < f.totalLen then
      if f.fragOffset = 0 then d.answerTooLong (if f.onBus then .bus else .service) f.at_ f.data else d
    else
      let held := match Tbl.find? d.mgmt.partials f.sess with
        | some (src, xid, l) => if src = f.src then some (xid, l) else none
        | none => none
      let parts := match (joinFragment held f.xid f.fragOffset f.totalLen f.more f.data).1 with
        | some (xid, l) => Tbl.set d.mgmt.partials f.sess (f.src, xid, l)
        | none => Tbl.erase d.mgmt.partials f.sess
      { d with mgmt := { d.mgmt with partials := parts } }

/-- A collision: the frame is dropped when it is late, or was its last attempt; else it backs off by a free draw. -/
def execMgmtCollisionD (at_ : Nat) (late : Bool) (d : Dev) : Dev :=
  let d := d.advance at_
  if !d.onBus || d.boot.step = 0 then d
  else
    let d := d.bump Cat.MGMT_COLLISIONS
    let n := d.mgmt.collisions + 1
    let drop (d : Dev) : Dev := { d with mgmt := { d.mgmt with collisions := 0, backoff := none } }
    if late then drop (d.bump Cat.MGMT_LATE_COLL)
    else if d.cget Cat.MGMT_ATTEMPTS ≤ n then drop (d.bump Cat.MGMT_TX_EXCESS_COLL)
    else
      let (r, d) := d.take
      let t := d.now + r % 2 ^ min n (d.cget Cat.MGMT_BACKOFF_LIMIT) * 409600
      { d with mgmt := { d.mgmt with collisions := n, backoff := some t } }

/-- r slot times of 512 bit times at 10 Mb/s, 51.2 µs each, have passed since the collision: the frame is tried again. -/
def execBackoffExpiryD (d : Dev) : Dev :=
  match d.mgmt.backoff with
  | none => d
  | some t => { (d.advance t) with mgmt := { d.mgmt with backoff := none } }

end Sys2Proof.Machine
end

