-- ==== Sys2Proof/Machine/Power.lean ====
section
/-! DEFINITION. Power, heat and clocks (R379 to R400): the voltage tables and their changes, the phases, the Cap, its
calibration and the Brim, temperatures, droop stretches and the waves of the Cuff. -/

namespace Sys2Proof.Machine

/-! ### Voltage tables (R381 to R383) -/

/-- Dies with a voltage table: 0 the Lorquel die, 1 + d Stacks die d. -/
def powerDies : List Nat := List.range 9

/-- Unit number of such a die (R468). -/
def dieUnit (k : Nat) : Nat := if k = 0 then 0x88 else 63 + k

/-- Fused voltage of entry `e` of a die, in mV. -/
def fusedMv (die e : Nat) : Nat := leNat (((Config.fusedBytes Cat.PWR_TABLE).drop (2 * (16 * die + e))).take 2)

/-- The voltage applied, in mV: with the ageing guard band, rounded up to 5 mV (R382). -/
def appliedMv (hours die e : Nat) : Nat :=
  ceilDiv ((fusedMv die e + 5) * 60000 + 15 * min hours 60000) (5 * 60000) * 5

/-- The guard band disables this entry. -/
def entryDisabled (hours die e : Nat) : Bool := 900 < appliedMv hours die e

/-- The entry that a request selects: the next lower usable one. -/
def usableEntry (hours die e : Nat) : Nat :=
  ((List.range 16).find? fun k => e ≤ k && !entryDisabled hours die k).getD 15

/-- Disabled entries of all dies, and whether an entry 0 is among them. -/
def disabledEntries (hours : Nat) : List (Nat × Nat) :=
  (powerDies.flatMap fun k => (List.range 16).map fun e => (k, e)).filter fun p => entryDisabled hours p.1 p.2

/-- Entries that the powered hours newly disable are counted; entry 0 raises ALERT_N. -/
def Dev.noteHours (d : Dev) (before : List (Nat × Nat)) (hours : Nat) : Dev :=
  let new := (disabledEntries hours).filter fun p => !before.contains p
  let d := d.bumpBy Cat.PWR_ENTRY_DISABLED new.length
  if new.any fun p => p.2 = 0 then d.alert 4 else d

/-- How far the applied voltage of entry `a` lies above that of entry `b`, in 1/1600 mV. -/
def mvRise (hours die a b : Nat) : Nat := (appliedMv hours die a - appliedMv hours die b) * 1600

/-- How far above the voltage of the entry in force the die's voltage is to be: at that of a faster entry aimed at (R383). -/
def Dev.aboveGoal (d : Dev) (k : Nat) : Nat :=
  let x := d.die k
  match x.target with
  | some e => if e < x.entry then mvRise d.nv.hours k e x.entry else 0
  | none => 0

/-- How far above it the voltage stands now: it has moved toward its goal by 5 mV per µs. -/
def Dev.aboveNow (d : Dev) (k : Nat) : Nat :=
  let x := d.die k
  let goal := d.aboveGoal k
  let t := d.now - x.riseAt
  if x.above ≤ goal then min goal (x.above + t) else max goal (x.above - t)

/-- A die is asked for entry `e`: it goes there from now on, or stays. -/
def Dev.aim (d : Dev) (k e : Nat) (lead : Bool) : Dev :=
  let x := d.die k
  let e := usableEntry d.nv.hours k e
  if x.target = some e || (x.target = none && x.entry = e) then d.setDie k { x with lead := lead && x.target.isSome }
  else
    let x := { x with riseAt := d.now, above := d.aboveNow k }
    if x.entry = e then d.setDie k { x with target := none, lead := false }
    else d.setDie k { x with target := some e, lead := lead }

/-- The slowest of the phase's preferred entry and the ceilings of the Cap and of heat (R389, R394). -/
def Dev.wantedEntry (d : Dev) (k : Nat) : Nat := max (d.prefEntry k) (max (d.die k).capEntry (d.die k).thermEntry)

def Dev.retarget (d : Dev) (k : Nat) : Dev := d.aim k (d.wantedEntry k) false

/-- The voltage tables follow PWR_PREF from step 9 of R479 on. -/
def Dev.retargetAll (d : Dev) : Dev := if d.released then powerDies.foldl (fun d k => d.retarget k) d else d

/-- A stretch is under way on the die. -/
def Dev.stretched (d : Dev) (k : Nat) : Bool :=
  d.power.droops.any fun p => if k = 0 then p.1 < 4 else p.1 = 3 + k

/-- The frequency of a die switches: at once when it goes down, when the voltage has risen when it goes up; while a
stretch lasts, and before the instant of a phase change that raised the voltage ahead, it waits (R383, R389, R393). -/
def execEntryChangeD (k : Nat) (d : Dev) : Dev :=
  let x := d.die k
  match x.target with
  | none => d
  | some e =>
    if 9 ≤ k || x.lead || d.stretched k || !d.pins.pwrGood then d
    else
      let rise := if e < x.entry then d.aboveGoal k - x.above else 0
      let d := d.advance (x.riseAt + rise)
      let above := if e < x.entry then 0 else d.aboveNow k + mvRise d.nv.hours k x.entry e
      ((d.setDie k { x with entry := e, target := none, riseAt := d.now, above := above }).bump Cat.PWR_ENTRY_CHANGE).event 0x31 0x1F (dieUnit k)
        (e % 16 * 16 + x.entry % 16) 0 0

/-! ### Phases (R49, R389) -/

/-- A filler command runs. -/
def Dev.fillerRuns (d : Dev) : Bool := d.cmds.any fun kc => d.isFiller kc.2 && (kc.2.st = .running || kc.2.st = .retiring)

/-- The phase in force by the timetable, or by hand. -/
def Dev.phaseNow (d : Dev) : Nat :=
  if d.tt.st ≠ .running then d.cget Cat.PWR_PHASE_MANUAL
  else
    match d.tt.slotSt with
    | .firm | .overrun | .late => (d.slotDef d.tt.slot).phase
    | _ => if d.fillerRuns then 4 else 5

def Dev.setPhase (d : Dev) (p : Nat) : Dev := { d with power := { d.power with phase := p } }.retargetAll

/-- The instant of a phase change: every die moves to its new preferred point. -/
def execPhaseChangeD (at_ : Nat) (d : Dev) : Dev :=
  let d := d.advance at_
  d.setPhase d.phaseNow

/-- PWR_PHASE_LEAD before the firm part of the next slot: the voltage of each die that goes to a faster entry starts
rising, unless a ceiling forbids the entry. -/
def execPhaseLeadD (at_ : Nat) (d : Dev) : Dev :=
  let d := d.advance at_
  if d.tt.st ≠ .running || !d.released then d
  else
    let next := (d.slotDef d.nextSlot.2).phase
    powerDies.foldl (fun d k =>
      let pref := fld (d.cget (Cat.PWR_PREF next)) (if k = 0 then 0 else 4) 4
      let x := d.die k
      if pref < x.entry && x.capEntry ≤ pref && x.thermEntry ≤ pref then d.aim k pref true else d) d

/-! ### Limits (R379, R380, R385, R396) -/

/-- Current limit of a rail in mA. -/
def railLimit (r : Nat) : Nat :=
  match r with
  | 0 => 950000
  | 1 => 120000
  | 10 => 80000
  | 11 => 120000
  | 12 => 110000
  | 13 => 70000
  | 14 => 30000
  | 15 => 2000
  | _ => 36000

/-- P_LIMIT in mW: PWR_LIMIT, less 30 W for each °C of inlet air above 35 °C. -/
def Dev.pLimit (d : Dev) : Nat := (d.cget Cat.PWR_LIMIT - 30 * (d.power.inlet - 35).toNat) * 1000

/-- Mean current of a rail over its last five samples, in mA. -/
def Dev.railMean (d : Dev) (r : Nat) : Nat :=
  let l := (d.power.railSamples.take 5).map fun s => (s[r]?).getD 0
  l.sum / max 1 l.length

def Dev.powerMean (d : Dev) : Nat × Nat := (d.power.samples.sum, max 1 d.power.samples.length)

/-- A forecast of P meets R385. One at a raised setting does so with `raise` mW to spare, and leaves no run above P_LIMIT
(the worked example of R400 keeps D at 6 because 7 forecasts 1,245 W). -/
def Dev.powerOk (d : Dev) (f : Nat) (raise : Option Nat) : Bool :=
  let margin := raise.getD 0
  let lim := d.pLimit
  let last := d.power.samples.take 9999
  let four := d.power.samples.take 4
  last.sum + f + margin ≤ lim * (last.length + 1)
    && (four.length < 4 || 5 * (four.sum + f + margin) ≤ 6 * lim * 5)
    && (f + margin ≤ lim || (raise = none && d.power.run + d.cget Cat.PWR_EXCURSION_GUARD < 1000))

/-- A forecast of a rail's current meets R380. -/
def Dev.railOk (d : Dev) (r f : Nat) : Bool :=
  let four := (d.power.railSamples.take 4).map fun s => (s[r]?).getD 0
  four.sum + f ≤ railLimit r * (four.length + 1)

def f32Ratio (neg : Bool) (num den : Nat) : Nat := (encodeF 0 .nearest (.fin neg num den 0)).bits

/-- A step of R386 is in force. -/
def Power.stepInForce (p : Power) : Bool :=
  p.t2Rate < 8 || p.t3Rate < 8 || p.dies.any fun kx => kx.2.capD < 8 || 0 < kx.2.capEntry

/-- The Brim (R388). -/
def Dev.brimNow (d : Dev) : Nat :=
  let (sum, n) := d.powerMean
  let lim := d.pLimit * n
  let head := f32Ratio (lim < sum) (max lim sum - min lim sum) (n * 1000)
  let room (r : Nat) : Int := (railLimit r : Int) - d.railMean r
  let tight := (List.range 16).foldl (fun b r => if room r < room b then r else b) 0
  let stk := (List.range 8).map fun k => d.die (1 + k)
  head * 2 ^ 96 + (1000 - min 1000 d.power.run) * 2 ^ 80 + tight * 2 ^ 72
    + f32Ratio (room tight < 0) (room tight).natAbs 1000 * 2 ^ 32 + (d.die 0).entry * 2 ^ 28
    + (stk.map (·.entry)).foldl max 0 * 2 ^ 24 + (d.die 0).capD * 2 ^ 20 + (stk.map (·.capD)).foldl min 8 * 2 ^ 16
    + b2n d.power.stepInForce

def Dev.rewriteBrim (d : Dev) : Dev := { d with power := { d.power with brim := d.brimNow } }

/-! ### The Cap (R386, R387) -/

/-- A throttle event: counted, noted for PACE, with its record. -/
def Dev.throttle (d : Dev) (k forecastW rail cause : Nat) : Dev :=
  let x := d.die k
  let d : Dev := { d with power := { d.power with throttled := true } }
  (d.bump Cat.PWR_THROTTLE_EVENT).event 0x30 0x1F (dieUnit k)
    (x.capD % 16 * 2 ^ 20 + max x.capEntry x.thermEntry % 16 * 2 ^ 16 + rail * 2 ^ 8 + cause) (forecastW * 2 ^ 32) 0

/-- A step of the Cap is left on the die. -/
def Dev.stepLeft (d : Dev) (k : Nat) : Bool := 2 < (d.die k).capD || d.wantedEntry k < 15

/-- The Cap acts on a die: the fewest eighths of duty that `ok` (over the new D) allows; at 2 the entry goes down by
one, every 10 µs. An action below the preferred point is a throttle event. -/
def Dev.capStep (d : Dev) (k : Nat) (ok : Nat → Bool) (forecastW : Nat → Nat) (rail cause : Nat) : Dev :=
  let x := d.die k
  if 2 < x.capD then
    let n := (((List.range x.capD).reverse.filter (2 ≤ ·)).find? ok).getD 2
    let d := d.setDie k { x with capD := n }
    if n < d.prefDuty then d.throttle k (forecastW n) rail cause else d
  else if d.wantedEntry k < 15 && (x.capEntry = 0 || x.capAt + 80000 ≤ d.now) then
    let d := (d.setDie k { x with capEntry := d.wantedEntry k + 1, capAt := d.now }).retarget k
    d.throttle k (forecastW 2) rail cause
  else d

/-- An estimate times its gain (R384). -/
def Dev.gained (d : Dev) (i v : Nat) : Nat :=
  let (n, m) := (d.power.gains[i]?).getD (0, 1)
  v * n / m

/-- The rate of a memory tier's requests goes down in the same eighths. -/
def lowerRate (rate : Nat) (ok : Nat → Bool) : Nat :=
  (((List.range rate).reverse.filter (2 ≤ ·)).find? ok).getD (min rate 2)

/-- The rails that throttle a die, or a tier. -/
def railOfDie (k : Nat) : Nat := if k = 0 then 0 else 1 + k

def execCapSampleD (p : PowerSample) (d : Dev) : Dev :=
  let d := d.advance p.at_
  if !d.pins.pwrGood then d
  else
    let pw := d.gained 16 p.power
    let rails := (List.range 16).map fun r => d.gained r ((p.rails[r]?).getD 0)
    let d : Dev := { d with power := { d.power with
      samples := (pw :: d.power.samples).take 10000, railSamples := (rails :: d.power.railSamples).take 5,
      run := if d.pLimit < pw then d.power.run + 1 else 0 } }
    -- forecasts at a duty cap, or a request rate, n
    let fp (n : Nat) : Nat := d.gained 16 ((p.forecast[8 - n]?).getD 0)
    let fr (r n : Nat) : Nat := d.gained r (((((p.railForecast[r]?).getD [])[8 - n]?)).getD 0)
    let first := (powerDies.find? fun k => d.stepLeft k).getD 0
    let moduleBad := !d.powerOk (fp (d.die first).capD) none
    let railBad (r : Nat) : Bool :=
      !d.railOk r (fr r (if r = 10 then d.power.t2Rate else if r = 11 || r = 12 then d.power.t3Rate
        else if r = 0 then (d.die 0).capD else if r < 10 then (d.die (r - 1)).capD else 8))
    let bad := (List.range 16).map railBad
    let isBad (r : Nat) : Bool := (bad[r]?).getD false
    let d' := d.bumpBy Cat.PWR_RAIL_LIMIT_HIT (b2n (bad.contains true))
    let d' := powerDies.foldl (fun (s : Dev) k =>
      let r := railOfDie k
      let byModule := moduleBad && k = first
      if byModule || isBad r then
        s.capStep k (fun n => (!byModule || d.powerOk (fp n) none) && (!isBad r || d.railOk r (fr r n)))
          (fun n => f32Ratio false (fp n) 1000) (if isBad r then r else 0) (b2n (!byModule))
      else s) d'
    let d' : Dev := { d' with power := { d'.power with
      t2Rate := if isBad 10 then lowerRate d.power.t2Rate (fun n => d.railOk 10 (fr 10 n)) else d'.power.t2Rate
      t3Rate := if isBad 11 || isBad 12 then
          lowerRate d.power.t3Rate fun n => (!isBad 11 || d.railOk 11 (fr 11 n)) && (!isBad 12 || d.railOk 12 (fr 12 n))
        else d'.power.t3Rate } }
    (d'.bumpBy Cat.PWR_THROTTLE_US (b2n d'.power.stepInForce)).rewriteBrim

/-- What the Cap undoes next, in the reverse order of its steps: an entry, a duty cap, a request rate. -/
def Dev.undoStep (d : Dev) : Option (Dev → Dev) :=
  match powerDies.reverse.find? fun k => 0 < (d.die k).capEntry with
  | some k =>
    some fun d =>
      let x := d.die k
      let e := x.capEntry - 1
      (d.setDie k { x with capEntry := if e ≤ d.prefEntry k then 0 else e }).retarget k
  | none =>
    match powerDies.reverse.find? fun k => (d.die k).capD < 8 with
    | some k => some fun d => d.setDie k { d.die k with capD := (d.die k).capD + 1 }
    | none =>
      if d.power.t3Rate < 8 then some fun d => { d with power := { d.power with t3Rate := d.power.t3Rate + 1 } }
      else if d.power.t2Rate < 8 then some fun d => { d with power := { d.power with t2Rate := d.power.t2Rate + 1 } }
      else none

/-- Every 100 µs one step is undone when the forecast at the raised setting (`p.power`, `p.rails`) allows. -/
def execCapRelaxD (p : PowerSample) (d : Dev) : Dev :=
  let d := d.advance p.at_
  if !d.pins.pwrGood then d
  else
    let ok := d.powerOk (d.gained 16 p.power) (some (d.cget Cat.PWR_RAISE_MARGIN * 1000))
      && (List.range 16).all fun r => d.railOk r (d.gained r ((p.rails[r]?).getD 0))
    match d.undoStep with
    | some f => if ok then f d else d
    | none => d

/-! ### Calibration (R384) -/

/-- Measured over estimated energy of each rail and, last, of the module: the gain is their ratio, from 4/5 to 5/4; of 0 over
0, a free one. -/
def execCalibrationD (at_ : Nat) (ratios : List (Nat × Nat)) (d : Dev) : Dev :=
  let d := d.advance at_
  if !d.pins.pwrGood then d
  else
    (List.range (min 17 ratios.length)).foldl (fun d i =>
      let (measured, estimated) := (ratios[i]?).getD (0, 0)
      let set (d : Dev) (g : Nat × Nat) : Dev := { d with power := { d.power with gains := listSet d.power.gains i g } }
      if estimated = 0 && measured = 0 then
        let (v, d) := d.take
        set d (16 * 2 ^ 16 + v % (9 * 2 ^ 16 + 1), 20 * 2 ^ 16)
      else if 4 * measured > 5 * estimated then set ((d.bump Cat.PWR_CAL_FAULT).alert 5) (5, 4)
      else if 5 * measured < 4 * estimated then set ((d.bump Cat.PWR_CAL_FAULT).alert 5) (4, 5)
      else set d (measured, estimated)) d

/-! ### Heat (R394 to R396) -/

/-- Sensors in the order of R394: 16 of the Lorquel die, 2 of each Stacks die, 2 of the network die, 4 LPDDR6 packages
of each Stacks die, the inlet and the outlet. -/
def dieTemps (temps : List Int) (k : Nat) : List Int :=
  if k = 0 then temps.take 16 else (temps.drop (14 + 2 * k)).take 2

def packageTemps (temps : List Int) (d : Nat) : List Int := (temps.drop (34 + 4 * d)).take 4

def hottest (l : List Int) : Int :=
  match l with
  | [] => 0
  | a :: t => t.foldl max a

def junctions (temps : List Int) : List Int := temps.take 34

/-- A die's thermal step: down one entry every 200 µs at or above the limit, up one every 10 ms below it less 3 °C. -/
def Dev.thermStep (d : Dev) (k : Nat) (t : Int) : Dev :=
  let x := d.die k
  let lim : Int := d.cget Cat.THERM_THROTTLE_C
  if lim ≤ t then
    if d.wantedEntry k < 15 && (x.thermEntry = 0 || x.thermAt + 1600000 ≤ d.now) then
      let d := (d.setDie k { x with thermEntry := d.wantedEntry k + 1, thermAt := d.now }).retarget k
      let (f, d) := d.take
      (d.throttle k (f % 2 ^ 32) 0 2).bump Cat.THERM_THROTTLE_EVENT
    else d
  else if t < lim - 3 && 0 < x.thermEntry && x.thermAt + 80000000 ≤ d.now then
    let e := x.thermEntry - 1
    (d.setDie k { x with thermEntry := if e ≤ d.prefEntry k then 0 else e, thermAt := d.now }).retarget k
  else d

/-- Tier 3 requests of a die with a hot LPDDR6 package are limited to 4 eighths until all are below 92 °C. -/
def Dev.lpStep (d : Dev) (i : Nat) (l : List Int) : Dev :=
  let hot := bit d.power.lpHot i
  if !hot && l.any (95 ≤ ·) then { d with power := { d.power with lpHot := d.power.lpHot + 2 ^ i } }
  else if hot && l.all (· < 92) then { d with power := { d.power with lpHot := d.power.lpHot - 2 ^ i } }
  else d

/-- While a timetable runs, a die whose temperature moved more than 20 °C since its last training needs one: counted
once, ALERT_N raised (R222). -/
def Dev.noteTraining (d : Dev) (i : Nat) (t : Int) : Dev :=
  match Tbl.find? d.mem3.trained i with
  | none => { d with mem3 := { d.mem3 with trained := Tbl.set d.mem3.trained i t } }
  | some t0 =>
    if d.tt.st = .running && 20 < (t - t0).natAbs && !d.mem3.due.contains i then
      ({ d with mem3 := { d.mem3 with due := i :: d.mem3.due } }.bump (Cat.MEM_RETRAIN_DUE i)).alert 2
    else d

/-- The sensor that trips, if one does (R395). -/
def tripSensor (temps : List Int) : Option Nat :=
  (List.range temps.length).find? fun i =>
    let t := (temps[i]?).getD 0
    (i < 34 && 115 ≤ t) || (34 ≤ i && i < 66 && 105 ≤ t)

/-- What a temperature sample does when nothing trips: it holds the junctions, and every 1 ms the packages after them. -/
def Dev.heatSample (d : Dev) (temps : List Int) : Dev :=
  let d : Dev := { d with power := { d.power with temps := temps ++ d.power.temps.drop temps.length } }
  let d := powerDies.foldl (fun d k => if (dieTemps temps k).isEmpty then d else d.thermStep k (hottest (dieTemps temps k))) d
  (List.range 8).foldl (fun d i =>
    let l := packageTemps temps i
    if l.isEmpty then d else (d.lpStep i l).noteTraining i (hottest (dieTemps temps (1 + i)))) d

def execInletSampleD (at_ : Nat) (temp : Int) (d : Dev) : Dev :=
  let d := d.advance at_
  if !d.pins.pwrGood then d
  else
    let d : Dev := { d with power := { d.power with inlet := temp } }
    if 35 < temp then (d.bump Cat.THERM_INLET_OVER).alert 6 else d

/-! ### Droop (R393) -/

def droopUnit (det : Nat) : Nat := if det < 4 then 0x80 + det else 60 + det

def execDroopD (at_ det mv : Nat) (d : Dev) : Dev :=
  let d := d.advance at_
  if 12 ≤ det || mv ≤ d.cget Cat.DROOP_THRESH || !d.pins.pwrGood then d
  else
    match Tbl.find? d.power.droops det with
    | some (s, m) => { d with power := { d.power with droops := Tbl.set d.power.droops det (s, max m mv) } }
    | none =>
      { d with power := { d.power with droops := Tbl.set d.power.droops det (d.now, mv) } }.bump Cat.DROOP_EVENTS

/-- The stretch ends: its length in stretched cycles lies between that at the entry's frequency and that at 12 % less. -/
def execDroopEndD (at_ det : Nat) (d : Dev) : Dev :=
  let d := d.advance at_
  match Tbl.find? d.power.droops det with
  | none => d
  | some (s, m) =>
    let mhz := entryMhz (d.die (if det < 4 then 0 else det - 3)).entry
    let full := (d.now - s) * mhz / 8000
    let least := full * 100 / 112
    let (v, d) := d.take
    let d : Dev := { d with power := { d.power with droops := Tbl.erase d.power.droops det } }
    d.event 0x33 0x1F (droopUnit det) ((least + v % (full - least + 1)) % 2 ^ 16 * 2 ^ 16 + m % 2 ^ 16) 0 0

/-! ### The waves of the Cuff (R391, R392) -/

/-- The next wave is released: its engines that hold start their ramp. -/
def execCuffWaveD (d : Dev) : Dev :=
  let w := d.power.cuffWave
  if !d.power.cuffOn || 8 ≤ w then d
  else
    let d := d.advance (d.power.cuffAt + 1024 * w)
    let d : Dev := { d with power := { d.power with cuffWave := w + 1 } }
    (List.range 72).foldl (fun d u =>
      if d.waveOf u ≠ w then d
      else (List.range 8).foldl (fun d e => if (d.engine u e).ramp = .held then d.setRamp u e (d.firstRamp u) else d) d) d

/-- 64 cycles on, a started engine goes from 2 eighths to 4, or to the duty in force. -/
def execCuffRampStepD (u e : Nat) (d : Dev) : Dev :=
  let rampEnd := d.advance ((d.engine u e).rampAt + d.cyclesToUnits (dieOfUnit u) 64)
  match (d.engine u e).ramp with
  | .quarter => rampEnd.setRamp u e (if rampEnd.duty (dieOfUnit u) ≤ 4 then .full else .half)
  | .half => rampEnd.setRamp u e .full
  | _ => d

/-- 128 cycles after wave 7 (of the Lorquel die's clock) the Cuff is not engaged any more. -/
def execCuffDisengageD (d : Dev) : Dev :=
  if !d.power.cuffOn || d.power.cuffWave < 8 then d
  else
    let d := d.advance (d.power.cuffAt + 7 * 1024 + d.cyclesToUnits 0 128)
    { d with power := { d.power with cuffOn := false, due := [] } }

/-! ### Powered hours (R382) -/

def execPoweredHoursD (h : Nat) (d : Dev) : Dev :=
  if h ≤ d.nv.hours then d
  else
    let before := disabledEntries d.nv.hours
    let d : Dev := { d with nv := { d.nv with hours := h } }
    (d.noteHours before h).retargetAll

end Sys2Proof.Machine
end

