-- ==== Sys2Proof/Machine/Sweep.lean ====
section
/-! DEFINITION. The update sweep and GATHER (R275 to R303): templates 0 to 3, DERIVE, update programs, version
directories, the retention pool, Returns entries. -/

namespace Sys2Proof.Machine

/-! ### What a SWEEP's argument block may hold (R278 to R280) -/

/-- An FP32 field from 0 to 1. -/
def unitRange (w : Word) : Bool := !(f32 w).isNaN && !(f32 w).lt (f32 0) && !(f32 0x3F800000).lt (f32 w)

def swHeadOk (n : Nat) : Bool :=
  let t := swTemplate n
  (t ≤ 3 || t = 15) && swClipMode n ≤ 2 && unitRange (swWord n 448) && unitRange (swWord n 416)
    && unitRange (swWord n 320) && !(f32 (swWord n 384)).lt (f32 0) && fld n 182 2 = 0 && fld n 160 11 = 0 && fld n 0 64 = 0
    && (swClipMode n ≠ 0 || fld n 288 32 = 0)
    && (if t = 15 then fld n 204 52 % 64 = 0 else fld n 204 52 = 0)
    && (!(t = 2 || t = 3) || (fld n 384 32 = 0 && !swBias n))
    && (t ≠ 3 || fld n 416 32 = 0)
    && (swAvgEn n || fld n 320 32 = 0)
    && 1 ≤ swEntries n && swEntries n ≤ 1022

def swEntryOk (norms n e : Nat) : Bool :=
  let f := enWorkFmt e
  let cols := enCols e
  enGrad e % 64 = 0 && (f = 1 || f = 3 || f = 4 || f = 5) && enGradFmt e ≤ 2 && fld e 0 11 = 0 && cols ≠ 0
    && cols % (if f = 5 then 128 else 64) = 0 && enCount e ≠ 0 && enCount e % cols = 0 && enNorm e < norms
    && (swAvgEn n || enAvg e = 0) && (swSplit n || enRem e = 0)
    && (swTemplate n ≤ 1 || enM2 e = 0)
    && (!swDerive n || (enGrad e = 0 && enAvg e = 0 && enM1 e = 0 && enM2 e = 0))

/-- No two entries name overlapping state. -/
def statesApart (n : Nat) : List Nat → Bool
  | [] => true
  | e :: t =>
    let mine := (enRanges n e).filter (·.2.2)
    t.all (fun f => ((enRanges n f).filter (·.2.2)).all fun b => mine.all fun a => !overlaps a.1 a.2.1 b.1 b.2.1)
      && statesApart n t

/-! ### FP32 operations of the sweep (R178, R286): a value, and the saturations and invalid operations on the way to it -/

structure Calc where
  v : Word
  sats : Nat
  invs : Nat
deriving DecidableEq, Repr

def Calc.of (w : Word) : Calc := ⟨w, 0, 0⟩

/-- The value of a step that is used again: what happened on the way to it is counted once. -/
def Calc.again (a : Calc) : Calc := .of a.v

def Calc.step (a b : Calc) (r : F32) : Calc := ⟨r.bits, a.sats + b.sats + b2n r.sat, a.invs + b.invs + b2n r.invalid⟩

def Calc.op (f : Word → Word → F32) (a b : Calc) : Calc := Calc.step a b (f a.v b.v)

def Calc.add : Calc → Calc → Calc := Calc.op f32Add
def Calc.sub : Calc → Calc → Calc := Calc.op f32Sub
def Calc.mul : Calc → Calc → Calc := Calc.op f32Mul
def Calc.div : Calc → Calc → Calc := Calc.op f32Div
def Calc.min : Calc → Calc → Calc := Calc.op f32Min
def Calc.sqrt (a : Calc) : Calc := Calc.step a (.of 0) (f32Sqrt a.v)
def Calc.neg (a : Calc) : Calc := { a with v := a.v ^^^ 0x80000000 }

/-- What operations of unit `u` met is counted: saturations (R138, R178) and invalid operations (R178). -/
def Dev.countCalcs (d : Dev) (u : Nat) (cs : List Calc) : Dev :=
  let sats := (cs.map (·.sats)).sum
  let invs := (cs.map (·.invs)).sum
  (((d.bumpBy Cat.NUM_CVT_OVERFLOW_SAT sats).bumpBy (Cat.THR_OVERFLOW_SAT u) sats).bumpBy Cat.THR_OVERFLOW_SAT_TOTAL sats
    |>.bumpBy (Cat.THR_INVALID u) invs).bumpBy Cat.THR_INVALID_TOTAL invs

def f32One : Word := 0x3F800000
def Calc.one : Calc := .of f32One

/-- x^t of a number from 0 to 1, as a fixed-point fraction of 256 bits, by its bits from the top. -/
def powFix (x : Nat) : Nat → Nat → Nat → Nat
  | 0, _, acc => acc
  | k + 1, t, acc =>
    let sq := acc * acc / 2 ^ 256
    powFix x k t (if bit t k then sq * x / 2 ^ 256 else sq)

/-- β^t, within 1 ulp where it is not exact: its computation is the device's own. -/
def betaPow (beta : Word) (t pick : Nat) : Word :=
  if t = 0 then f32One
  else if t = 1 || beta = f32One || (f32 beta).isZero then beta
  else
    let (a, b) := (f32 beta).frac
    (within1 false (powFix (a * 2 ^ 256 / b) 32 t (2 ^ 256)) (2 ^ 256) pick).bits

/-- A bias correction 1 − β^t, or 1. -/
def biasOf (n : Nat) (beta : Word) (t pick : Nat) : Word :=
  if swBias n then (f32Sub f32One (betaPow beta t pick)).bits else f32One

/-- What all elements of an entry share. -/
structure SwEntry where
  /-- the unit that executes the entry -/
  u : Nat
  /-- header and entry -/
  n : Nat
  e : Nat
  t : Nat
  c : Word
  b1 : Word
  b2 : Word
  lambda : Word
  /-- mean of the row factors -/
  meanR : Word
deriving DecidableEq, Repr

/-- An element's moments after the step (m, r) and d. -/
structure ElemStep where
  m : Calc
  r : Calc
  d : Calc
deriving DecidableEq, Repr

/-- −LR × x -/
def SwEntry.rate (s : SwEntry) (x : Calc) : Calc := ((Calc.of (swWord s.n 480)).neg).mul x

/-- sign(x); NaN propagates (R136). -/
def signOf (x : Word) : Word :=
  match f32 x with
  | .nan => canonNaN32
  | v => if v.isZero then 0 else if x.msb then 0xBF800000 else f32One

/-- One element under a template (R286): w, g, m, r or the factors. -/
def SwEntry.step (s : SwEntry) (w g m r rowF colF : Word) : ElemStep :=
  let n := s.n
  let beta1 := Calc.of (swWord n 448)
  let beta2 := Calc.of (swWord n 416)
  let g := Calc.of g
  let m := Calc.of m
  let wd := (Calc.of s.lambda).mul (Calc.of w)
  let mix (beta x y : Calc) : Calc := (beta.mul x).add ((Calc.one.sub beta).mul y)
  let eps := Calc.of (swWord n 384)
  match swTemplate n with
  | 0 =>
    let m' := mix beta1 m g
    let v := mix beta2 ((Calc.of r).mul (.of r)) (g.mul g)
    let d := s.rate (((m'.again.div (.of s.b1)).div (((v.again.div (.of s.b2)).sqrt).add eps)).add wd)
    { m := m', r := v.sqrt, d := d }
  | 1 =>
    let m' := mix beta1 m g
    let v := ((Calc.of rowF).mul (.of colF)).div (.of s.meanR)
    let d := if s.t = 1 then Calc.of 0
      else s.rate (((m'.again.div (.of s.b1)).div (((v.div (.of s.b2)).sqrt).add eps)).add wd)
    { m := m', r := .of 0, d := d }
  | 2 =>
    let u := mix beta1 m g
    { m := mix beta2 m g, r := .of 0, d := s.rate (({ u with v := signOf u.v } : Calc).add wd) }
  | _ =>
    let m' := (beta1.mul m).add g
    { m := m', r := .of 0, d := s.rate (m'.again.add wd) }

/-! ### Blocks (R287) -/

/-- The E8M0 exponent of a block: the least that keeps its largest finite magnitude; and whether it was limited below. -/
def e8Exp (code : Nat) (vs : List FVal) : Int × Bool :=
  let (a, b) := maxFrac vs
  if a = 0 then (-127, false)
  else
    let (m, p) := (decodeF code (fmtMax code)).frac
    let k := ilog2 (a * p) (b * m)
    let (x, y) := pow2Frac k
    let e := if a * p * y = b * m * x then k else k + 1
    (max (-127) (min 127 e), decide (e < -127))

/-- A block of 32 values in a format with an E8M0 exponent, or plain BF16: encodings and exponent byte. -/
def encodeMx (code : Nat) (rnd : Nat → Rnd) (vs : List FVal) : List Enc × Nat :=
  if code = 1 then ((List.range vs.length).map fun i => encodeF 1 (rnd i) ((vs[i]?).getD .nan), 0)
  else
    let (e, _) := e8Exp code vs
    ((List.range vs.length).map fun i =>
      let v := ((vs[i]?).getD .nan).scale (-e)
      match v with
      | .fin s .. =>
        -- beyond the largest magnitude only where e was limited
        let r := encodeF code (rnd i) v
        if fmtMax code < r.bits % 2 ^ (fmtWidth code - 1) then { bits := withSign code s (fmtMax code), sat := true } else r
      | _ => encodeF code (rnd i) v, (e + 127).toNat)

/-- Elements packed into bytes: two to a byte, low half first, for FP4. -/
def packMx (code : Nat) (l : List Nat) : List Byte :=
  if fmtWidth code = 4 then
    (List.range (l.length / 2)).map fun i => BitVec.ofNat 8 ((l[2 * i]?).getD 0 + 16 * (l[2 * i + 1]?).getD 0)
  else (l.map fun v => leBytes (fmtWidth code / 8) v).flatten

/-! ### One entry -/

/-- What an entry gathers as it goes: sums of w1² and d² by lane, sums of g² and counts by row and by column; each sum with
what its operations met. -/
structure SwAcc where
  wsq : Tbl Calc
  usq : Tbl Calc
  rowSq : Tbl (Calc × Nat)
  colSq : Tbl (Calc × Nat)
  elems : Nat
deriving DecidableEq, Repr

/-- A lane adds to its sum (R295). -/
def addLane (t : Tbl Calc) (lane : Nat) (x : Calc) : Tbl Calc := Tbl.set t lane ((Tbl.getD t lane (.of 0)).add x)

/-- The fixed tree of 8 levels over 256 lanes. -/
def laneTree (t : Tbl Calc) : Calc :=
  let level (l : List Calc) : List Calc :=
    (List.range (l.length / 2)).map fun i => ((l[2 * i]?).getD (.of 0)).add ((l[2 * i + 1]?).getD (.of 0))
  (((List.range 8).foldl (fun l _ => level l) ((List.range 256).map fun i => Tbl.getD t i (.of 0)))[0]?).getD (.of 0)

def addSq (t : Tbl (Calc × Nat)) (k : Nat) (x : Calc) : Tbl (Calc × Nat) :=
  let (s, c) := Tbl.getD t k (.of 0, 0)
  Tbl.set t k (s.add x, c + 1)

/-- Lines that a block reads, as stretches (R291). -/
def SwEntry.blockReads (s : SwEntry) (b : Nat) : List (Nat × Nat) :=
  let i := 32 * b
  let e := s.e
  let n := s.n
  let master := if swSplit n then [(enMaster e + 2 * i, 64), (enRem e + 2 * i, 64)] else [(enMaster e + 4 * i, 128)]
  if swDerive n then master
  else
    let gw := fmtBytes (enGradFmt e)
    let m2 :=
      if swTemplate n = 0 then [(enM2 e + i, 32), (enM2 e + enCount e + b, 1)]
      else if swTemplate n = 1 then
        [(enM2 e + 4 * (i / enCols e), 4), (enM2 e + 4 * (enRows e + i % enCols e), 128)]
      else []
    master ++ [(enGrad e + gw * i, 32 * gw), (enM1 e + 2 * i, 64)] ++ m2
      ++ if swAvgEn n then [(enAvg e + 2 * i, 64)] else []

/-- The figures that a block's working copy adds to its slot (R151): clipped is a figure of block-scaled formats. -/
def workFigs (code : Nat) (vs : List FVal) (es : List Enc) (under : Bool) : StatFig :=
  { rows := [(0, (vs.map magBits).foldl max 0)], elements := vs.length,
    clipped := if isBlock code then (es.filter (·.sat)).length else 0,
    under := b2n under, nonfin := (es.filter (·.changed)).length }

/-- The lanes that work on block `b`, by their generators (R141): element i of an entry is lane i mod 256's. -/
def SwEntry.lanes (s : SwEntry) (b : Nat) : List Nat := (List.range 32).map fun i => genLane s.u (32 * b + i)

/-- Rounding of element `i` of block `b` in the current cycle. -/
def Dev.sweepRnd (d : Dev) (s : SwEntry) (b : Nat) (sr : Bool) (i : Nat) : Rnd :=
  if sr then .stochastic (d.draw (genLane s.u (32 * b + i)) i) else .nearest

/-- The lanes of block `b` have drawn. -/
def Dev.sweepDrawn (d : Dev) (s : SwEntry) (b : Nat) (sr : Bool) : Dev := if sr then d.drawn (s.lanes b) else d

/-- The working copy of a block (R287). -/
def Dev.writeWork (d : Dev) (j : Nat) (s : SwEntry) (b : Nat) (ws : List Word) : Dev :=
  let code := enWorkFmt s.e
  let sr := bit s.n 195
  let vs := ws.map f32
  let (es, ex) := encodeMx code (d.sweepRnd s b sr) vs
  let d := d.sweepDrawn s b sr
  let d := d.jwr j (enWork s.e + 32 * b * fmtWidth code / 8) (packMx code (es.map (·.bits)))
  let d := if code = 1 then d else d.jwr j (enWork s.e + enWorkBody s.e + b) (leBytes 1 ex)
  let d := (d.bumpBy Cat.NUM_CVT_OVERFLOW_SAT (es.filter (·.sat)).length).bumpBy Cat.NUM_CVT_NONFINITE
    (es.filter (·.changed)).length
  let under := code ≠ 1 && (e8Exp code vs).2
  let d := if swStat s.n = 0 then d else d.bumpBy Cat.NUM_UNDERRANGE_BLOCK (b2n under)
  d.contributeStat j (swStat s.n) (workFigs code vs es under) (code ≠ 1) true

/-- FP32 master elements of a block (R275). -/
def Dev.readMaster (d : Dev) (j : Nat) (s : SwEntry) (b : Nat) : List Word :=
  let i := 32 * b
  if swSplit s.n then
    ((elemsOf 2 (d.jrd j (enMaster s.e + 2 * i) 64)).zip (elemsOf 2 (d.jrd j (enRem s.e + 2 * i) 64))).map fun h =>
      BitVec.ofNat 32 (h.1 * 65536 + h.2)
  else (elemsOf 4 (d.jrd j (enMaster s.e + 4 * i) 128)).map fun x => BitVec.ofNat 32 x

def Dev.writeMaster (d : Dev) (j : Nat) (s : SwEntry) (b : Nat) (ws : List Word) : Dev :=
  let i := 32 * b
  if swSplit s.n then
    (d.jwr j (enMaster s.e + 2 * i) ((ws.map fun w => leBytes 2 (w.toNat / 65536)).flatten)).jwr j (enRem s.e + 2 * i)
      ((ws.map fun w => leBytes 2 w.toNat).flatten)
  else d.jwr j (enMaster s.e + 4 * i) ((ws.map fun w => leBytes 4 w.toNat).flatten)

/-- FP32 of elements of an unscaled format. -/
def widen (code : Nat) (l : List Nat) : List Word := l.map fun x => BitVec.ofNat 32 (encodeF 0 .nearest (decodeF code x)).bits

/-- A block of an entry under a template (R286). -/
def Dev.sweepBlock (d : Dev) (j : Nat) (s : SwEntry) (acc : SwAcc) (b : Nat) : Dev × SwAcc :=
  let n := s.n
  let e := s.e
  let i0 := 32 * b
  let ws := d.readMaster j s b
  let at_ (l : List Word) (i : Nat) : Word := (l[i]?).getD 0
  let nthCalc (l : List Calc) (i : Nat) : Calc := (l[i]?).getD (.of 0)
  let lane (i : Nat) : Nat := (i0 + i) % 256
  let sumLanes (t : Tbl Calc) (l : List Calc) : Tbl Calc := (List.range 32).foldl (fun t i => addLane t (lane i) (nthCalc l i)) t
  let square (c : Calc) : Calc := c.again.mul c.again
  if swDerive n then
    let acc := { acc with wsq := sumLanes acc.wsq (ws.map fun w => square (.of w)), elems := acc.elems + 32 }
    (d.writeWork j s b ws, acc)
  else
    let gs := widen (enGradFmt e) (elemsOf (fmtBytes (enGradFmt e))
      (d.jrd j (enGrad e + fmtBytes (enGradFmt e) * i0) (32 * fmtBytes (enGradFmt e))))
    let bad := (gs.filter fun g => !(f32 g).isFinite).length
    let gcs := gs.map fun g => (Calc.of s.c).mul (.of (if (f32 g).isFinite then g else 0))
    let ms := widen 1 (elemsOf 2 (d.jrd j (enM1 e + 2 * i0) 64))
    let rExp : Int := (d.jnat j (enM2 e + enCount e + b) 1 : Int) - 127
    let rs := if swTemplate n ≠ 0 then []
      else (elemsOf 1 (d.jrd j (enM2 e + i0) 32)).map fun x =>
        (BitVec.ofNat 32 (encodeF 0 .nearest ((decodeF 3 x).scale rExp)).bits : Word)
    let rowF : Word := BitVec.ofNat 32 (d.jnat j (enM2 e + 4 * (i0 / enCols e)) 4)
    let cols := if swTemplate n ≠ 1 then []
      else (elemsOf 4 (d.jrd j (enM2 e + 4 * (enRows e + i0 % enCols e)) 128)).map fun x => (BitVec.ofNat 32 x : Word)
    let steps := (List.range 32).map fun i => s.step (at_ ws i) (nthCalc gcs i).v (at_ ms i) (at_ rs i) rowF (at_ cols i)
    let new := (ws.zip steps).map fun p => (Calc.of p.1).add p.2.d.again
    let w1 := new.map (·.v)
    let avg := widen 1 (elemsOf 2 (d.jrd j (enAvg e + 2 * i0) 64))
    let keep := Calc.one.sub (.of (swWord n 320))
    let avgNew := if !swAvgEn n then []
      else (avg.zip w1).map fun p => (Calc.of p.1).add (keep.again.mul ((Calc.of p.2).sub (.of p.1)))
    let g2 := if swTemplate n ≠ 1 then [] else gcs.map square
    let acc : SwAcc := {
      wsq := sumLanes acc.wsq (new.map square), usq := sumLanes acc.usq (steps.map fun t => square t.d),
      rowSq := if swTemplate n ≠ 1 then []
        else (List.range 32).foldl (fun t i => addSq t (i0 / enCols e) (nthCalc g2 i)) acc.rowSq,
      colSq := if swTemplate n ≠ 1 then []
        else (List.range 32).foldl (fun t i => addSq t ((i0 + i) % enCols e) (nthCalc g2 i).again) acc.colSq,
      elems := acc.elems + 32 }
    let d := d.countCalcs s.u (gcs ++ steps.map (·.m) ++ steps.map (·.r) ++ steps.map (·.d) ++ new ++ avgNew)
    -- each lane draws for m, for r, for the average and for the working copy, in this order
    let sr := bit n 194
    let mEnc := (List.range 32).map fun i => encodeF 1 (d.sweepRnd s b sr i) (f32 (((steps[i]?).map fun t => t.m.v).getD 0))
    let d := d.sweepDrawn s b sr
    let rEnc := if swTemplate n ≠ 0 then ([], 0) else encodeMx 3 (d.sweepRnd s b sr) (steps.map fun t => f32 t.r.v)
    let d := if swTemplate n ≠ 0 then d else d.sweepDrawn s b sr
    let aEnc := (List.range avgNew.length).map fun i => encodeF 1 (d.sweepRnd s b true i) (f32 (nthCalc avgNew i).v)
    let d := d.sweepDrawn s b (swAvgEn n)
    let encs := mEnc ++ rEnc.1 ++ aEnc
    let d := d.writeMaster j s b w1
    let d := d.jwr j (enM1 e + 2 * i0) (packMx 1 (mEnc.map (·.bits)))
    let d := if swTemplate n ≠ 0 then d
      else (d.jwr j (enM2 e + i0) (packMx 3 (rEnc.1.map (·.bits)))).jwr j (enM2 e + enCount e + b) (leBytes 1 rEnc.2)
    let d := if swAvgEn n then d.jwr j (enAvg e + 2 * i0) (packMx 1 (aEnc.map (·.bits))) else d
    let d := d.writeWork j s b w1
    let d := (d.bumpBy (Cat.UPD_GRAD_NONFINITE j) bad).bumpBy Cat.NUM_CVT_OVERFLOW_SAT (encs.filter (·.sat)).length
    (d.bumpBy Cat.NUM_CVT_NONFINITE (encs.filter (·.changed)).length, acc)

/-- A block, or its skip when a line that it reads is poisoned (R291). -/
def Dev.sweepOrSkip (d : Dev) (k j : Nat) (s : SwEntry) (acc : SwAcc) (b : Nat) : Dev × SwAcc :=
  let bad := ((s.blockReads b).map fun r => d.jbad j r.1 r.2).flatten.dedup
  if bad.isEmpty then d.sweepBlock j s acc b else ((d.cmdPoison k bad).bump (Cat.UPD_POISON_BLOCK j), acc)

/-- A count as FP32. -/
def f32Nat (n : Nat) : Word := BitVec.ofNat 32 (encodeF 0 .nearest (.fin false n 1 0)).bits

/-- The factors of template 1 at the end of an entry: F ← β₂F + (1 − β₂) × mean of g². -/
def Dev.writeFactors (d : Dev) (j : Nat) (s : SwEntry) (base : Nat) (t : Tbl (Calc × Nat)) : Dev :=
  let beta := Calc.of (swWord s.n 416)
  t.foldl (fun d kv =>
    let va := base + 4 * kv.1
    let old : Word := BitVec.ofNat 32 (d.jnat j va 4)
    let mean := kv.2.1.div (.of (f32Nat kv.2.2))
    let new := (beta.mul (.of old)).add ((Calc.one.sub beta).mul mean)
    (d.jwr j va (leBytes 4 new.v.toNat)).countCalcs s.u [new]) d

/-! ### Versions (R297, R298) -/

/-- Pool space is free again: the close of its version passed TT_SETTLE ago; or, with no timetable running, the same shard
sweeps again. -/
def Dev.freePool (d : Dev) (j dir : Nat) : Dev :=
  let x := d.job j
  let gone (r : Retained) : Bool :=
    match d.closeInstant r.step r.slot r.offset with
    | some t => decide (t + d.cget Cat.TT_SETTLE < d.now)
    | none => d.tt.st ≠ .running && r.dir = dir
  d.setJob j { x with pool := x.pool.filter fun r => !gone r }

/-- Room for `len` bytes in ring order. -/
def Dev.poolRoom (d : Dev) (j len : Nat) : Option Nat :=
  let x := d.job j
  let size := d.cget (Cat.UPD_RETAIN_BYTES j)
  [x.poolHead, 0].find? fun o => o + len ≤ size && !(x.pool.any fun r => overlaps o len r.off r.len)

/-- Step 1 of R298: the current version is retained where there is room; the directory shows UPDATING. -/
def Dev.retain (d : Dev) (k j n e : Nat) : Dev :=
  let va := enDir e
  let d := d.freePool j va
  let dir := d.jnat j va 64
  let len := dirBytes dir
  match d.poolRoom j len with
  | none => (d.jwr j va (leBytes 64 (setFld (setFld dir 203 1 0) 202 1 1))).bump (Cat.UPD_RETAIN_MISS j)
  | some off =>
    let dst := d.cget (Cat.UPD_RETAIN_VA j) + off
    let src := dirCurVa dir
    let d := d.cmdPoison k (d.jbad j src len)
    let d := d.jwr j dst (d.jrd j src len)
    let x := d.job j
    let r : Retained := { dir := va, off := off, len := len, step := fld n 128 32, slot := fld n 112 16,
                          offset := fld n 80 32 }
    let d := d.setJob j { x with pool := x.pool ++ [r], poolHead := off + len }
    let dir := setFld (setFld (setFld dir 320 32 (dirCurStep dir)) 256 64 (dirCurStamp dir)) 204 52 dst
    let dir := setFld (setFld (setFld dir 160 32 r.step) 144 16 r.slot) 112 32 r.offset
    d.jwr j va (leBytes 64 (setFld (setFld dir 203 1 1) 202 1 1))

/-- What comes before an entry's first write. -/
def Dev.entryBegins (d : Dev) (k j n e : Nat) : Dev :=
  if enDir e = 0 then d
  else if swDerive n then d.jwr j (enDir e) (leBytes 64 (setFld (d.jnat j (enDir e) 64) 202 1 1))
  else d.retain k j n e

/-- Step 3 of R298. -/
def Dev.entryEnds (d : Dev) (j n e : Nat) : Dev :=
  if enDir e = 0 then d
  else
    let dir := d.jnat j (enDir e) 64
    d.jwr j (enDir e) (leBytes 64 (setFld (setFld (setFld dir 480 32 (swStep n)) 416 64 d.stamp) 202 1 0))

/-! ### The clip factor (R288) -/

/-- c from a squared norm. -/
def clipOf (n sq : Nat) : Calc :=
  match decodeF 0 sq with
  | .nan => .of 0
  | .inf _ => .of 0
  | v => if v.isZero then .one else Calc.one.min ((Calc.of (swWord n 288)).div (Calc.of (BitVec.ofNat 32 sq)).sqrt)

/-- c of a norm index. -/
def Dev.clipFor (d : Dev) (j n i : Nat) : Calc :=
  match swClipMode n with
  | 1 => clipOf n (fld (d.jnat j (d.cget (Cat.UPD_VOTE_VA j)) 64) 384 32)
  | 2 => clipOf n (fld (d.normRec j i) 192 32)
  | _ => .one

/-! ### An entry as a whole (R286, R294, R295) -/

/-- The figures of an entry go to the norms record. -/
def Dev.normEntry (d : Dev) (j n e u : Nat) (wsq usq : Calc) : Dev :=
  let rec_ := if fld (d.normRec j (enNorm e)) 224 32 = swStep n then d.normRec j (enNorm e) else 0
  let w := (Calc.of (swWord rec_ 128)).add wsq
  let v := (Calc.of (swWord rec_ 96)).add usq
  if d.cget (Cat.UPD_NORM_VA j) = 0 then d.countCalcs u [wsq, usq]
  else
    (d.normWrite j (enNorm e) (swStep n) fun r =>
      setFld (setFld (setFld r 128 32 w.v.toNat) 96 32 v.v.toNat) 32 32 (fld r 32 32 + 1)).countCalcs u [w, v]

def Dev.normClip (d : Dev) (j n e : Nat) (c : Word) : Dev :=
  if d.cget (Cat.UPD_NORM_VA j) = 0 || swDerive n then d
  else d.normWrite j (enNorm e) (swStep n) fun r => setFld r 64 32 c.toNat

/-- The mean of the row factors as they stand. -/
def Dev.meanRows (d : Dev) (j e : Nat) : Calc :=
  ((List.range (enRows e)).foldl (fun s i => s.add (.of (BitVec.ofNat 32 (d.jnat j (enM2 e + 4 * i) 4)))) (Calc.of 0)).div
    (.of (f32Nat (enRows e)))

/-- One entry under templates 0 to 3, or DERIVE. -/
def Dev.sweepEntry (d : Dev) (u k j n e t : Nat) (c : Word) : Dev :=
  let d := (d.entryBegins k j n e).normClip j n e c
  let factored := swTemplate n = 1 && !swDerive n
  let mean := if factored then d.meanRows j e else .of 0
  -- a row factor on a poisoned line is read as zero
  let d := if factored then (d.cmdPoison k (d.jbad j (enM2 e) (4 * enRows e))).countCalcs u [mean] else d
  let s : SwEntry := {
    u := u, n := n, e := e, t := t, c := c, b1 := biasOf n (swWord n 448) t (d.free 0), b2 := biasOf n (swWord n 416) t (d.free 1),
    lambda := if bit e 11 then 0 else swWord n 352,
    meanR := mean.v }
  let d := d.takeN 2
  let (d, acc) := (List.range (enCount e / 32)).foldl (fun (p : Dev × SwAcc) b => p.1.sweepOrSkip k j s p.2 b)
    (d, { wsq := [], usq := [], rowSq := [], colSq := [], elems := 0 })
  let d := if factored then
      (d.writeFactors j s (enM2 e) acc.rowSq).writeFactors j s (enM2 e + 4 * enRows e) acc.colSq
    else d
  let d := (d.normEntry j n e u (laneTree acc.wsq) (laneTree acc.usq)).bumpBy (Cat.UPD_SWEPT_ELEMENTS j) acc.elems
  d.entryEnds j n e

/-! ### SWEEP (R280 to R285, R292, R302, R303) -/

/-- The die that executes an entry, and whether it is a Returns entry. -/
def Dev.entryDie (d : Dev) (j e : Nat) : Nat × Bool :=
  let dieOf (va : Nat) : Option Nat :=
    match d.xlate j va false with
    | some (pa, _) => (match d.region pa with | .tier2 i | .tier3 i => some i | _ => none)
    | none => none
  match dieOf (enMaster e) with
  | some i => (i, false)
  | none =>
    (match d.xlate j (enGrad e) false with
     | some (pa, _) => (match d.region pa with | .tier2 i => i | _ => 0)
     | none => 0,
     match d.xlate j (enMaster e) false with | some (pa, _) => d.tierOf pa = 4 | none => false)

/-- The first address of a SWEEP that faults. -/
def Dev.sweepFault (d : Dev) (j n : Nat) (es : List Nat) : Option Nat :=
  let pool := if es.any fun e => enDir e ≠ 0 && !swDerive n then
      [(d.cget (Cat.UPD_RETAIN_VA j), d.cget (Cat.UPD_RETAIN_BYTES j), true)] else []
  let ranges := (es.map fun e => enRanges n e ++ if enDir e = 0 then [] else [(enDir e, 64, true)]).flatten ++ pool
  ranges.findSome? fun r => d.firstFault j r.1 r.2.1 (r.2.2 && !(swDerive n && es.any fun e => enMaster e = r.1 || enRem e = r.1))

def Dev.earlyMark (d : Dev) (j n : Nat) : Dev := if bit n 181 then d.incMark j (fld n 171 10) 1 d.stamp else d

/-- The gradient of a Returns entry rests in the Returns area at an offset; none when there is no room for it. -/
def Dev.toReturns (d : Dev) (j e off : Nat) : Option (Dev × Nat) :=
  let len := enCount e * fmtBytes (enGradFmt e)
  let va := d.cget (Cat.UPD_RETURNS_VA j) + off
  if d.cget (Cat.UPD_RETURNS_BYTES j) < off + len || (d.firstFault j va len true).isSome then none
  else
    let lines := (List.range (ceilDiv len 64)).filter fun i => !(d.jbad j (enGrad e + 64 * i) 1).isEmpty
    let d := d.jwr j va (d.jrd j (enGrad e) len)
    -- a poisoned line stays poisoned in the copy: its block is skipped (R291)
    let d := lines.foldl (fun d i =>
      match d.xlate j (va + 64 * i) true with
      | some (pa, _) => d.setPoison (pa / 64)
      | none => d) d
    some (d, setFld e 460 52 va)

/-- The entries in the order of their dies: in place, then the Returns entries after EARLY_MARK (R292, R302, R303). -/
def Dev.sweepAll (d : Dev) (k j n t : Nat) (clip : Nat → Word) (es : List Nat) : Dev :=
  let order := ((List.range 8).map fun die => (es.filter fun e => (d.entryDie j e).1 = die).map fun e => (64 + die, e)).flatten
  let sweep (d : Dev) (ue : Nat × Nat) : Dev := d.sweepEntry ue.1 k j n ue.2 t (clip (enNorm ue.2))
  let (d, later, _) := order.foldl (fun (p : Dev × List (Nat × Nat) × Nat) ue =>
    let (d, later, off) := p
    if !(d.entryDie j ue.2).2 then (sweep d ue, later, off)
    else if swDerive n then (d, later ++ [ue], off)
    else
      match d.toReturns j ue.2 off with
      | some (d, e') => (d, later ++ [(ue.1, e')], ceilDiv (off + enCount ue.2 * fmtBytes (enGradFmt ue.2)) 64 * 64)
      | none => ((sweep d ue).bump (Cat.UPD_RETURNS_FULL j), later, off))
    (d, [], 0)
  let d := d.earlyMark j n
  later.foldl (fun d ue => (sweep d ue).bump (Cat.UPD_RETURNS_SHARDS j)) d

/-- With no vote, the first SWEEP of a step raises UPD_APPLIED (R292). -/
def Dev.applyStep (d : Dev) (j n : Nat) : Dev :=
  if d.cget (Cat.UPD_VOTE_VA j) ≠ 0 || swDerive n || d.cget (Cat.UPD_LAST_STEP j) = swStep n then d
  else (d.cset (Cat.UPD_APPLIED j) ((d.cget (Cat.UPD_APPLIED j) + 1) % 2 ^ 32)).cset (Cat.UPD_LAST_STEP j) (swStep n)

/-! ### Update programs (R290) -/

/-- An entry of an update program starts on its die: every bundle slot that the grant gives. -/
def Dev.startProgram (d : Dev) (run : SweepRun) (c : Cmd) (die i : Nat) : Dev :=
  let j := c.job
  let u := 64 + die
  let n := d.jnat j c.argsVa 64
  let va := c.argsVa + 64 + 64 * i
  let e := d.jnat j va 64
  let clip := BitVec.ofNat 32 (Tbl.getD run.clips (enNorm e) f32One.toNat)
  let d := (d.entryBegins run.cmd j n e).normClip j n e clip
  let d := if bit run.acquired die then d else d.acquire u j
  let slots := (d.freeSlots u).take (match (d.job j).t1 with | some g => g.dieBundles | none => 0)
  let args := [va, c.argsVa, clip.toNat, run.t, d.normVa j (enNorm e)]
  let d := (List.range slots.length).foldl (fun d s =>
    d.setBundle u ((slots[s]?).getD 0) (Bundle.start run.cmd s (fld n 204 52) args)) d
  (d.traceBegin c u 0xF).updCmd run.cmd fun c => { c with unitsOn := c.unitsOn + 2 ^ u }

/-- The entry of a die is over: its directory, SHARDS, its elements. -/
def Dev.endProgram (d : Dev) (c : Cmd) (i : Nat) : Dev :=
  let j := c.job
  let n := d.jnat j c.argsVa 64
  let e := d.jnat j (c.argsVa + 64 + 64 * i) 64
  let d := (d.normEntry j n e (64 + (d.entryDie j e).1) (.of 0) (.of 0)).bumpBy (Cat.UPD_SWEPT_ELEMENTS j) (enCount e)
  let d := if (d.entryDie j e).2 then d.bump (Cat.UPD_RETURNS_SHARDS j) else d
  d.entryEnds j n e

/-- A page of an entry that is about to begin, or of one that runs, was freed (R281): no further entry begins. -/
def Dev.stopRun (d : Dev) (run : SweepRun) (c : Cmd) (i : Nat) : Dev × SweepRun :=
  let n := d.jnat c.job c.argsVa 64
  let e := d.jnat c.job (c.argsVa + 64 + 64 * i) 64
  match d.sweepFault c.job n [e] with
  | some va => (d.cmdFault run.cmd c.job va, { run with todo := [] })
  | none => (d, if c.status = 0x11 then { run with todo := [] } else run)

/-- One look at a die of a run: an entry that ended, or one that may start. -/
def Dev.advanceDie (d : Dev) (run : SweepRun) (c : Cmd) (die : Nat) : Dev × SweepRun :=
  let u := 64 + die
  let (d, run) := match Tbl.find? run.cur die, Tbl.getD run.todo die [] with
    | none, i :: _ => d.stopRun run c i
    | some _, _ => (d, if c.status = 0x11 then { run with todo := [] } else run)
    | none, [] => (d, run)
  let (d, run) := match Tbl.find? run.cur die with
    | some i => if bit c.unitsOn u then (d, run) else (d.endProgram c i, { run with cur := Tbl.erase run.cur die })
    | none => (d, run)
  match Tbl.find? run.cur die, Tbl.getD run.todo die [] with
  | none, i :: rest =>
    let e := d.jnat c.job (c.argsVa + 64 + 64 * i) 64
    -- Returns entries wait for EARLY_MARK
    if ((d.entryDie c.job e).2 && !run.early) || (d.freeSlots u).length < (match (d.job c.job).t1 with | some g => g.dieBundles | none => 0)
    then (d, run)
    else
      (d.startProgram run c die i,
        { run with cur := Tbl.set run.cur die i, todo := Tbl.set run.todo die rest,
                   acquired := if bit run.acquired die then run.acquired else run.acquired + 2 ^ die })
  | _, _ => (d, run)

/-- A run goes on as far as it can (R290, R292). -/
def Dev.advanceRun (d : Dev) (run : SweepRun) : Dev :=
  let put (d : Dev) (r : SweepRun) : Dev := { d with sweeps := d.sweeps.map fun s => if s.cmd = r.cmd then r else s }
  match d.cmd? run.cmd with
  | none => { d with sweeps := d.sweeps.filter fun s => s.cmd ≠ run.cmd }
  | some c =>
    let pass (p : Dev × SweepRun) (die : Nat) : Dev × SweepRun :=
      match p.1.cmd? run.cmd with
      | some c => p.1.advanceDie p.2 c die
      | none => p
    let (d, run) := (List.range 8).foldl pass (d, run)
    let n := d.jnat c.job c.argsVa 64
    let left := (run.todo.map (·.2)).flatten
    let owed := left.any fun i => !(d.entryDie c.job (d.jnat c.job (c.argsVa + 64 + 64 * i) 64)).2
    let (d, run) :=
      if run.early || owed || run.cur.any (fun kv => !(d.entryDie c.job (d.jnat c.job (c.argsVa + 64 + 64 * kv.2) 64)).2) then
        (d, run)
      else
        let run := { run with early := true }
        (List.range 8).foldl pass (d.earlyMark c.job n, run)
    if run.cur.isEmpty && (run.todo.all fun kv => kv.2.isEmpty) then
      { d.workDone run.cmd with sweeps := d.sweeps.filter fun s => s.cmd ≠ run.cmd }
    else put d run

def Dev.settleSweeps (d : Dev) : Dev := d.sweeps.foldl (fun d r => d.advanceRun r) d

/-- Mark that keeps a SWEEP's command running while its update programs do. -/
def programMark : Nat := 2 ^ 72

/-- An update program's SWEEP: entries by die. -/
def Dev.startRun (d : Dev) (k j t : Nat) (clips : Tbl Nat) (es : List Nat) : Dev :=
  let idx := List.range es.length
  let entry (i : Nat) : Nat := (es[i]?).getD 0
  let todo : Tbl (List Nat) := ((List.range 8).map fun die =>
    let mine := idx.filter fun i => (d.entryDie j (entry i)).1 = die
    (die, (mine.filter fun i => !(d.entryDie j (entry i)).2) ++ mine.filter fun i => (d.entryDie j (entry i)).2)).filter
      fun kv => !kv.2.isEmpty
  let run : SweepRun := { cmd := k, todo := todo, cur := [], early := false, clips := clips, t := t }
  { d.updCmd k (fun c => { c with unitsLeft := programMark }) with sweeps := d.sweeps ++ [run] }.advanceRun run

/-- The job's grant gives every die that an update program needs. -/
def Dev.programDies (d : Dev) (j : Nat) (es : List Nat) : Bool :=
  match (d.job j).t1 with
  | none => false
  | some g => g.dieBundles ≠ 0 && es.all fun e => bit g.dies (d.entryDie j e).1

def execSweepD : Nat → Nat → Dev → Dev :=
  Dev.dispatch 3 0 fun k c d =>
    (d.atUnit k 0x90).withArgs k c true fun n d =>
      let j := c.job
      let es := blockEntries n 64 64 (swEntries n)
      let vote := d.cget (Cat.UPD_VOTE_VA j)
      if c.argsLen ≠ 64 + 64 * swEntries n then d.workRefused k 0x30 376
      else if !swHeadOk n || !es.all (swEntryOk (d.cget (Cat.UPD_NORM_COUNT j)) n) || !statesApart n es
          || (swClipMode n ≠ 0 && vote = 0) then d.workRefused k 0x30 0
      else if swTemplate n = 15 && (d.cget (Cat.UPD_PROGRAM_EN j) = 0 || !d.programDies j es) then d.workRefused k 0x31 0
      else
        let d := d.applyStep j n
        match d.sweepFault j n es with
        | some va => (d.cmdFault k j va).workDone k
        | none =>
          let rec_ := d.jnat j vote 64
          if es.any fun e => enDir e ≠ 0 && (!dirOk (d.jnat j (enDir e) 64) || dirCurVa (d.jnat j (enDir e) 64) ≠ enWork e) then d.workRefused k 0x30 0
          else if vote ≠ 0 && !swDerive n && fld rec_ 480 32 ≠ swStep n then
            (d.bump (Cat.UPD_VOTE_MISMATCH j)).workRefused k 0x31 0
          else if vote ≠ 0 && !swDerive n && bit rec_ 479 then
            (((d.bump (Cat.UPD_STEP_SKIPPED j)).earlyMark j n).updCmd k fun c => { c with exec := false }).workDone k
          else
            let idx := (es.map enNorm).dedup
            let stale (i : Nat) : Bool := let r := d.normRec j i; fld r 224 32 = swStep n && bit r 0
            let d := if vote ≠ 0 && !swDerive n && idx.any stale then d.bump (Cat.UPD_ABSENT_NONFINITE j) else d
            let found := idx.map fun i => (i, d.clipFor j n i)
            let clips : Tbl Nat := found.foldl (fun t ic => Tbl.set t ic.1 ic.2.v.toNat) []
            let d := d.countCalcs (64 + (d.entryDie j ((es[0]?).getD 0)).1) (found.map (·.2))
            let below (w : Nat) : Bool := (decodeF 0 w).lt (f32 f32One)
            let d := if !swDerive n && clips.any (fun kv => below kv.2) then d.bump (Cat.UPD_CLIPPED_STEPS j) else d
            let t := d.cget (Cat.UPD_APPLIED j)
            if swTemplate n = 15 && !swDerive n then d.startRun k j t clips es
            else (d.sweepAll k j n t (fun i => BitVec.ofNat 32 (Tbl.getD clips i f32One.toNat)) es).workDone k

/-! ### GATHER (R299 to R301) -/

/-- A local GATHER is served a version: the copy, its step and stamp. -/
def Dev.serveLocal (d : Dev) (k j n : Nat) (v : Version) : Dev :=
  let len := gaBytes n
  let dst := gaDst n
  match (d.firstFault j v.va len false).orElse fun _ => (d.firstFault j dst len true).orElse fun _ =>
      d.firstFault j (gaStampVa n) 16 true with
  | some va => (d.cmdFault k j va).workDone k
  | none =>
    let d := d.cmdPoison k (d.jbad j v.va len)
    let d := d.jwr j dst (d.jrd j v.va len)
    let d := d.jwr j (gaStampVa n) (leBytes 16 (v.step % 2 ^ 32 * 2 ^ 64 + v.stamp))
    if v.step = gaWant n then d.workDone k
    else (d.bump (Cat.UPD_VERSION_SKEW j)).workEnds k 0x05 v.step

/-- A local GATHER stamped `s` is decided, or waits for UPDATING 0. -/
def Dev.gatherLocal (d : Dev) (k j n s : Nat) : Dev :=
  let dir := d.jnat j (gaDir n) 64
  match d.chooseVersion dir (gaWant n) s with
  | some v => { d.serveLocal k j n v with gathers := d.gathers.filter fun g => g.1 ≠ k }
  | none => if d.gathers.any fun g => g.1 = k then d else { d with gathers := d.gathers ++ [(k, s)] }

/-- Local GATHERs that wait are decided again. -/
def Dev.settleGathers (d : Dev) : Dev :=
  d.gathers.foldl (fun d g =>
    match d.cmd? g.1 with
    | some c => d.gatherLocal g.1 c.job (d.jnat c.job c.argsVa 64) g.2
    | none => { d with gathers := d.gathers.filter fun h => h.1 ≠ g.1 }) d

/-- READ_REQs of a remote GATHER, of at most 1 MiB each (R351); their lengths are whole lines, and one of no bytes asks for a
line, of which nothing is kept. -/
def Dev.gatherRemote (d : Dev) (k j n : Nat) : Dev :=
  let len := max 64 (ceilDiv (gaBytes n) 64 * 64)
  let dst := gaDst n
  let c := gaConn n
  let t := d.net.nextXfer
  let d := d.postXfer k j c (gaRegion n) false true ((List.range (len / 64)).map fun i => dst + 64 * i) fun _ => []
  if d.net.nextXfer = t then d
  else
    (piecesOf len pieceBytes).foldl (fun d q => d.addRead {
      conn := c, job := j, cmd := k, xfer := t, seq := none, region := gaRegion n, offset := 0, piece := q.1 / pieceBytes, want := gaWant n,
      versioned := true, bytes := gaBytes n, dst := dst + q.1, len := q.2, room := gaBytes n - q.1, stampVa := gaStampVa n,
      missing := List.range (q.2 / 64), ackedAt := none, reissues := 0 } false) d

def execGatherD : Nat → Nat → Dev → Dev :=
  Dev.dispatch 3 1 fun k c d =>
    (d.atUnit k 0x90).withArgs k c (c.argsLen = 64) fun n d =>
      let j := c.job
      let local_ := gaLocal n
      if fld n 0 224 ≠ 0 || gaDst n % 64 ≠ 0 || (!local_ && gaDir n ≠ 0) then
        d.workRefused k 0x30 0
      else if local_ then
        match d.firstFault j (gaDir n) 64 false with
        | some va => (d.cmdFault k j va).workDone k
        | none =>
          let dir := d.jnat j (gaDir n) 64
          if !dirOk dir then d.workRefused k 0x30 0
          else if dirBytes dir ≠ gaBytes n then d.workEnds k 0x31 0
          else
            let d := if d.versionLate dir (gaWant n) d.stamp then d.bump Cat.TIE_LATE_STAMP else d
            d.gatherLocal k j n d.stamp
      else
        match (d.firstFault j (gaDst n) (gaBytes n) true).orElse fun _ => d.firstFault j (gaStampVa n) 16 true with
        | some va => (d.cmdFault k j va).workDone k
        | none => (d.gatherRemote k j n).checkSent k

end Sys2Proof.Machine
end

