-- ==== Sys2Proof/Machine/Export.lean ====
section
/-! DEFINITION. Shard export and import, seals of record sets (R304 to R311), with the keys they use (R419, R420). -/

namespace Sys2Proof.Machine

/-! ### The IV (R420) -/

/-- The IV of the next export record: ORIGIN, SEC_BOOT_COUNT, records exported since boot (R420). -/
def Dev.expIv (d : Dev) (k : KeySlot) : Nat :=
  k.origin % 2 ^ 16 * 2 ^ 80 + d.nv.bootCount % 2 ^ 32 * 2 ^ 48 + k.exported % 2 ^ 48

/-! ### The argument block (R304, R306, R309) -/

/-- A format that carries E8M0 bytes (R274). -/
def xpMx (n : Nat) : Bool := isBlock (xpFormat n)

/-- Elements of a row of an MX tensor, from its bytes in a record: 32 elements and their E8M0 byte. -/
def mxCols (n : Nat) : Nat := xpRowBytes n * 32 / (4 * fmtWidth (xpFormat n) + 1)
def mxElemBytes (n : Nat) : Nat := mxCols n * fmtWidth (xpFormat n) / 8
def mxScaleBytes (n : Nat) : Nat := mxCols n / 32

/-- The rules of R304 and R309 for the block. -/
def xpOk (import_ : Bool) (n : Nat) : Bool :=
  let dims := xpDims n
  let elems := ((List.range dims).map (xpExtent n)).foldl (· * ·) 1
  let bits := elems * fmtWidth (xpFormat n) + (if xpMx n then elems / 32 * 8 else 0)
  let rowsMx := import_ && xpMx n
  fld n 960 12 = 0 && fld n 896 12 = 0 && fld n 736 15 = 0 && fld n 0 256 = 0
    && xpTensor n % 64 = 0 && xpRecord n % 64 = 0 && xpPitch n % 64 = 0 && xpRowCount n ≠ 0 && xpRowBytes n ≠ 0
    && (if rowsMx then mxElemBytes n + mxScaleBytes n = xpRowBytes n && xpPitch n = mxElemBytes n && mxCols n % 32 = 0
        else xpRowBytes n % 64 = 0)
    && fld n 760 8 ≤ 11 && xpFormat n ≤ 7 && 1 ≤ dims && dims ≤ 4
    && (List.range 4).all (fun i =>
        if i < dims then xpOffset n i + xpExtent n i ≤ xpFull n i
        else xpOffset n i = 0 && xpExtent n i = 0 && xpFull n i = 0)
    && bits = 8 * (xpRowCount n * xpRowBytes n) && (!xpMx n || elems % 32 = 0)
    && (import_ || (!xpMatch n && fld n 672 32 = 0 && xpSkip n = 0))

/-! ### The record (R305) -/

/-- The header of a record. -/
def recordHeader (n tenant version stamp len gen iv sigLen : Nat) : Nat :=
  2 ^ 1008 + tenant % 2 ^ 16 * 2 ^ 992 + fld n 784 16 * 2 ^ 976 + fld n 768 16 * 2 ^ 960 + fld n 760 8 * 2 ^ 952
    + xpFormat n * 2 ^ 948 + b2n (xpSign n) * 2 ^ 947 + xpDims n * 2 ^ 944 + fld n 704 32 * 2 ^ 912
    + version % 2 ^ 32 * 2 ^ 880 + stamp % 2 ^ 64 * 2 ^ 816 + len % 2 ^ 64 * 2 ^ 752 + gen % 2 ^ 32 * 2 ^ 720
    + iv % 2 ^ 96 * 2 ^ 624 + sigLen % 2 ^ 16 * 2 ^ 608 + fld n 416 256 * 2 ^ 320 + fld n 288 128 * 2 ^ 192

/-- The bytes of a record. -/
def recordBytes (header : Nat) (key : List Byte) (iv : Nat) (plain : List Byte) (sign : Option (List Byte → List Byte)) :
    List Byte :=
  let h := leBytes 128 header
  let (ct, tag) := gcmSeal key (leBytes 12 iv) h plain
  let body := h ++ fit (ceilDiv plain.length 64 * 64) ct ++ fit 64 tag
  let digest := fit 64 (shake256 body 64)
  body ++ digest ++ match sign with | some f => fit 1536 (f digest) | none => []

def execExportRecD : Nat → Nat → Dev → Dev :=
  Dev.dispatch 6 0 fun k c d =>
    (d.atUnit k 0x90).withArgs k c (c.argsLen = 128) fun n d =>
      let j := c.job
      let rows := xpRows n
      let len := xpRowCount n * xpRowBytes n
      if !xpOk false n then d.workRefused k 0x30 0
      else
        match (rows.findSome? fun r => d.firstFault j r.1 r.2 false).orElse
            fun _ => d.firstFault j (xpRecord n) (rcBytes len (xpSign n)) true with
        | some va => (d.cmdFault k j va).workDone k
        | none =>
          let ks := d.jobKey j
          let iv := d.expIv ks
          let stamp := d.stamp
          let plain := (rows.map fun r => d.jrd j r.1 r.2).flatten
          let d := d.cmdPoison k ((rows.map fun r => d.jbad j r.1 r.2).flatten)
          -- the length of a signature does not depend on what it signs
          let sigLen := if xpSign n then (d.attest []).length else 0
          let h := recordHeader n (d.job j).tenant (d.cget (Cat.UPD_APPLIED j)) stamp len ks.gen iv sigLen
          let d := d.jwr j (xpRecord n) (recordBytes h ks.expKey iv plain (if xpSign n then some d.attest else none))
          let slot := (d.job j).keySlot
          let d : Dev := { d with keys := Tbl.mapVals (fun i x => if i = slot then { x with exported := x.exported + 1 } else x) d.keys }
          (d.bump (Cat.EXP_RECORDS j)).workDone k

/-! ### IMPORT (R308, R309) -/

/-- Rows that a record holds, in rows of the block's length. -/
def rcRows (n h : Nat) : Nat := rcLen h / xpRowBytes n

/-- Check 6: the coordinates of the block and of the record, narrowed to the imported rows. -/
def coordsMatch (n h : Nat) : Bool :=
  let dims := xpDims n
  let ext (i : Nat) : Nat := fld h (320 + 64 * i) 32
  let off (i : Nat) : Nat := fld h (352 + 64 * i) 32
  let o := dims - 1
  let k := rcRows n h / max 1 (ext o)
  fld n 784 16 = fld h 976 16 && fld n 768 16 = fld h 960 16 && fld n 760 8 = fld h 952 8 && xpFormat n = fld h 948 4
    && dims = fld h 944 3 && fld n 704 32 = fld h 912 32 && fld n 672 32 = fld h 880 32 && fld n 288 128 = fld h 192 128
    && (List.range 4).all (fun i => i = o || (xpExtent n i = ext i && xpOffset n i = off i))
    && ext o ≠ 0 && rcRows n h % ext o = 0 && k ≠ 0 && xpSkip n % k = 0 && xpRowCount n % k = 0
    && xpOffset n o = off o + xpSkip n / k && xpExtent n o = xpRowCount n / k

/-- The first check of R308 that fails. -/
def importReason (n h tenant gen : Nat) (digestOk sigOk tagOk : Bool) : Option Nat :=
  if rcTenant h ≠ tenant then some 1
  else if rcKeyGen h ≠ gen then some 2
  else if !digestOk then some 3
  else if xpSign n && !(rcSigned h && sigOk) then some 4
  else if !tagOk then some 5
  else if xpMatch n && !coordsMatch n h then some 6
  else if rcLen h % xpRowBytes n ≠ 0 || rcRows n h < xpSkip n + xpRowCount n then some 7
  else none

/-- What a record's bytes say of it: the header, whether its digest matches, whether its tag verifies under k_exp, and its
plaintext. -/
structure RecordRead where
  head : Nat
  digestOk : Bool
  tagOk : Bool
  plain : List Byte

def readRecord (key : List Byte) (b : List Byte) : RecordRead :=
  let h := leNat (b.take 128)
  let at_ := rcDigestAt (rcLen h)
  let (plain, ok) := gcmOpen key (leBytes 12 (fld h 624 96)) (b.take 128) ((b.drop 128).take (rcLen h))
    ((b.drop (at_ - 64)).take 16)
  { head := h, digestOk := shake256 (b.take at_) 64 = (b.drop at_).take 64, tagOk := ok, plain := plain }

/-- Where the imported bytes go: address and bytes. -/
def importWrites (n h : Nat) (plain : List Byte) : List (Nat × List Byte) :=
  let cut (o len : Nat) : List Byte := fit len (plain.drop o)
  let rows := xpRowCount n
  if xpMx n then
    let scales := rcRows n h * mxElemBytes n
    (List.range rows).map (fun i => (xpTensor n + i * mxElemBytes n, cut ((xpSkip n + i) * mxElemBytes n) (mxElemBytes n)))
      ++ (List.range rows).map fun i =>
        (xpTensor n + rows * mxElemBytes n + i * mxScaleBytes n, cut (scales + (xpSkip n + i) * mxScaleBytes n) (mxScaleBytes n))
  else
    (List.range rows).map fun i => (xpTensor n + i * xpPitch n, cut ((xpSkip n + i) * xpRowBytes n) (xpRowBytes n))

/-- An IMPORT; whether the signature verifies is outside the spec's own algorithms (log entry 8). -/
def execImportRecD (at_ k : Nat) (sigOk : Bool) : Dev → Dev :=
  Dev.dispatch 6 1 (fun k c d =>
    (d.atUnit k 0x90).withArgs k c (c.argsLen = 128) fun n d =>
      let j := c.job
      if !xpOk true n then d.workRefused k 0x30 0
      else
        match d.firstFault j (xpRecord n) 128 false with
        | some va => (d.cmdFault k j va).workDone k
        | none =>
          let h := d.jnat j (xpRecord n) 128
          let ks := d.jobKey j
          let tenant := (d.job j).tenant
          let refused (why : Nat) (d : Dev) : Dev :=
            ((d.bump (Cat.EXP_IMPORT_REJECT j)).cset (Cat.EXP_LAST_REJECT j) why).workEnds k 0x31 0
          if rcTenant h ≠ tenant then refused 1 d
          else if rcKeyGen h ≠ ks.gen then refused 2 d
          else
            let size := rcBytes (rcLen h) (rcSigned h)
            match d.firstFault j (xpRecord n) size false with
            | some va => (d.cmdFault k j va).workDone k
            | none =>
              let d := d.cmdPoison k (d.jbad j (xpRecord n) size)
              let r := readRecord ks.expKey (d.jrd j (xpRecord n) size)
              match importReason n h tenant ks.gen r.digestOk sigOk r.tagOk with
              | some why => refused why d
              | none =>
                let ws := importWrites n h r.plain
                match ws.findSome? fun w => d.firstFault j w.1 w.2.length true with
                | some va => (d.cmdFault k j va).workDone k
                | none => (ws.foldl (fun d w => d.jwr j w.1 w.2) d).workDone k) at_ k

/-! ### EXP_SEAL (R311) -/

def sealCount (q : Nat) : Nat := fld q 52 16

def execExpSealD (r : Req) (j : Nat) (v : List Byte) : Dev → Dev :=
  catWrite r (0x9200 + j) 0x16 v .byTable
    (fun _ => j < 16 && v.length = 16 && sealCount (leNat v) ≠ 0) fun d =>
      (d.bset (Cat.EXP_SEAL j) v).startLong r (0x9200 + j) 0x16 v (some j) (.expSeal j v)

/-- The manifest: header, each record's digest, a digest over all of these, its signature. -/
def manifestBytes (sign : List Byte → List Byte) (count tenant step stamp : Nat) (digests : List (List Byte)) : List Byte :=
  let head := leBytes 64 (count * 2 ^ 496 + tenant % 2 ^ 16 * 2 ^ 480 + step % 2 ^ 32 * 2 ^ 448 + stamp % 2 ^ 64 * 2 ^ 384)
  let body := head ++ digests.flatten
  let digest := fit 64 (shake256 body 64)
  body ++ digest ++ fit 1536 (sign digest)

/-- What the end of a sealing does, and its answer. -/
def Dev.endSeal (d : Dev) (j : Nat) (v : List Byte) : Dev × Nat :=
  let q := leNat v
  let n := sealCount q
  let list := fld q 0 52
  let dst := fld q 76 52
  let size := 64 + 64 * n + 64 + 1536
  match (d.firstFault j list (8 * n) false).orElse fun _ => d.firstFault j dst size true with
  | some va => (d.xfault j va, stDenied)
  | none =>
    let vas := (List.range n).map fun i => d.jnat j (list + 8 * i) 8 % 2 ^ 52
    match vas.findSome? fun va =>
        (d.firstFault j va 128 false).orElse fun _ => d.firstFault j va (rcDigestAt (rcLen (d.jnat j va 128)) + 64) false with
    | some va => (d.xfault j va, stDenied)
    | none =>
      let digestAt (va : Nat) : Nat := rcDigestAt (rcLen (d.jnat j va 128))
      let digests := vas.map fun va => d.jrd j (va + digestAt va) 64
      if !vas.all fun va => shake256 (d.jrd j va (digestAt va)) 64 = d.jrd j (va + digestAt va) 64 then (d, stDenied)
      else
        let step := fld (d.jnat j ((vas[0]?).getD 0) 128) 912 32
        (d.jwr j dst (manifestBytes d.attest n (d.job j).tenant step d.stamp digests), stOk)

end Sys2Proof.Machine
end

