-- ==== Sys2Proof/Machine/Nmu.lean ====
section
/-! DEFINITION. Expert tables (R257 to R260): the check, the rewrite, and the writes that ask for them. -/

namespace Sys2Proof.Machine

/-- A record of an expert table, as it stands. -/
def Dev.expertRec (d : Dev) (j i : Nat) : Nat := d.jnat j (d.cget (Cat.NMU_TABLE_VA j) + 32 * i) 32

def exHint (n : Nat) : Nat := fld n 195 2

/-- The placement is under the device's control: NMU_PLACE_EN 1 and a table. -/
def Dev.placementOn (d : Dev) (j : Nat) : Bool := d.cget (Cat.NMU_PLACE_EN j) = 1 && d.cget (Cat.NMU_TABLE_LEN j) ≠ 0

/-- WEIGHT_VA translates to the tier 3 span of HOME. -/
def Dev.weightsHome (d : Dev) (j n : Nat) : Bool :=
  match d.xlate j (fld n 204 52) false with
  | some (pa, _) => d.region pa = .tier3 (fld n 197 3)
  | none => false

/-- Every line of `n` bytes at a job address lies in tier 2. -/
def Dev.inTier2 (d : Dev) (j va n : Nat) : Bool :=
  (List.range ((va + n - 1) / 64 - va / 64 + 1)).all fun i =>
    match d.xlate j (64 * (va / 64 + i)) false with
    | some (pa, _) => d.tierOf pa = 2
    | none => false

/-- The table passes R258. -/
def Dev.expertTableOk (d : Dev) (j : Nat) : Bool :=
  let va := d.cget (Cat.NMU_TABLE_VA j)
  let len := d.cget (Cat.NMU_TABLE_LEN j)
  va % 32 = 0 && (d.firstFault j va (32 * len) true).isNone && d.inTier2 j va (32 * len)
    && (List.range len).all fun i =>
      let n := d.expertRec j i
      fld n 200 4 = 0 && fld n 176 19 = 0 && fld n 64 32 = 0 && fld n 33 31 = 0 && exHint n ≠ 3 && d.weightsHome j n

/-- EFF_THRESH of a record (R257). -/
def effThresh (dflt n : Nat) : Nat :=
  match exHint n with
  | 1 => 0xFFFFFFFF
  | 2 => 0
  | _ => if fld n 160 16 = 0 then dflt else fld n 160 16

/-- A record with EFF_THRESH and PLACE from its current COUNT. -/
def placed (dflt n : Nat) : Nat :=
  let eff := effThresh dflt n
  setFld (setFld (setFld n 96 32 eff) 33 31 0) 32 1 (placeOf (exHint n) eff (fld n 0 32))

/-- Every record is read and rewritten (R258, R260), one action each; the HINTs read stay in force until the next time. -/
def Dev.rewriteExperts (d : Dev) (j : Nat) : Dev :=
  let va := d.cget (Cat.NMU_TABLE_VA j)
  let records := (List.range (d.cget (Cat.NMU_TABLE_LEN j))).map fun i => (va + 32 * i, d.expertRec j i)
  let d := records.foldl (fun d vn =>
    match d.xlate j vn.1 true with
    | some (pa, _) => d.wrRaw pa (leBytes 32 (placed (d.cget (Cat.NMU_PLACE_THRESH j)) vn.2))
    | none => d) d
  d.setJob j { d.job j with nmuHints := records.map fun vn => exHint vn.2 }

/-- A job start with the placement on (R258): latch the table, write every record. -/
def Dev.expertStart (d : Dev) (j : Nat) : Dev :=
  let on := d.placementOn j
  let d := if on then d.rewriteExperts j else d
  d.setJob j { d.job j with
    nmu := if on then some (d.cget (Cat.NMU_TABLE_VA j), d.cget (Cat.NMU_TABLE_LEN j)) else none }

/-- A reload, with `keep` taking the value that asked for it. -/
def Dev.reload (j : Nat) (keep : Dev → Dev) (d : Dev) : WriteResult :=
  if !d.placementOn j then ⟨keep d, stOk, false⟩
  else if !d.expertTableOk j then refuse (d.bump Cat.NMU_TABLE_REJECT) stBadType
  else ⟨(keep d).rewriteExperts j, stOk, false⟩

/-- A write of 1 asks for a reload; the entry reads 0 again once it is done. -/
def execNmuTableReloadD (r : Req) (j v : Nat) : Dev → Dev :=
  catWrite r (0x2780 + j) 3 (leBytes 1 v) .byTable (fun _ => j < 16 && v < 256) fun d =>
    if v = 1 then Dev.reload j id d else ⟨d, stOk, false⟩

def execNmuPlaceThreshD (r : Req) (j v : Nat) : Dev → Dev :=
  catWrite r (0x2780 + j) 2 (leBytes 2 v) .byTable (fun _ => j < 16 && v < 65536)
    (Dev.reload j fun d => d.cset (Cat.NMU_PLACE_THRESH j) v)

end Sys2Proof.Machine
end

