-- ==== Sys2Proof/Machine/Operands.lean ====
section
/-! DEFINITION. Operand forms of thread instructions (R168 to R176): registers by lane, guards, fields, and the one
way in which every thread instruction issues, is found malformed, or stops its bundle. -/

namespace Sys2Proof.Machine

/-! ### Registers (R168) -/

def Bundle.vreg (x : Bundle) (lane r : Nat) : Word := Tbl.getD x.v (64 * lane + r) 0

def Bundle.setV (x : Bundle) (lane r : Nat) (v : Word) : Bundle :=
  { x with v := if v = 0 then Tbl.erase x.v (64 * lane + r) else Tbl.set x.v (64 * lane + r) v }

/-- U63 reads zero, and writes to it are ignored. -/
def Bundle.ureg (x : Bundle) (r : Nat) : DWord := if r = 63 then 0 else Tbl.getD x.u r 0

def Bundle.setU (x : Bundle) (r : Nat) (v : DWord) : Bundle :=
  if r = 63 then x else { x with u := if v = 0 then Tbl.erase x.u r else Tbl.set x.u r v }

/-- P0 reads true, and writes to it are ignored. -/
def Bundle.preg (x : Bundle) (r : Nat) : DWord := if r = 0 then BitVec.allOnes 64 else Tbl.getD x.p r 0

def Bundle.pred (x : Bundle) (r lane : Nat) : Bool := (x.preg r).getLsbD lane

def Bundle.setP (x : Bundle) (r : Nat) (m : DWord) : Bundle :=
  if r = 0 then x else { x with p := if m = 0 then Tbl.erase x.p r else Tbl.set x.p r m }

/-- The mask of a list of lanes. -/
def laneMask (l : List Nat) : DWord := l.foldl (fun m i => m ||| (1#64 <<< i)) 0

/-- Predicate `r` takes `f lane` in the given lanes and keeps its value elsewhere. -/
def Bundle.setPLanes (x : Bundle) (r : Nat) (lanes : List Nat) (f : Nat → Bool) : Bundle :=
  x.setP r ((x.preg r &&& ~~~ laneMask lanes) ||| laneMask (lanes.filter f))

/-- V register `r` takes `f lane` in the given lanes. -/
def Bundle.setVLanes (x : Bundle) (r : Nat) (lanes : List Nat) (f : Nat → Word) : Bundle :=
  lanes.foldl (fun y l => y.setV l r (f l)) x

/-! ### Fields (R175) -/

def fD (n : Nat) : Nat := fld n 46 6
def fA (n : Nat) : Nat := fld n 40 6
def fB (n : Nat) : Nat := fld n 34 6
def fC (n : Nat) : Nat := fld n 28 6
def fBU (n : Nat) : Bool := bit n 27
def fNA (n : Nat) : Bool := bit n 26
def fNC (n : Nat) : Bool := bit n 25
def fAA (n : Nat) : Bool := bit n 24
def fPD (n : Nat) : Nat := fld n 21 3
def fCond (n : Nat) : Nat := fld n 18 3
def fImm (n : Nat) : Nat := fld n 0 32
def fImm14 (n : Nat) : Nat := fld n 0 14
def fStat (n : Nat) : Nat := fld n 14 8
def fPG (n : Nat) : Nat := fld n 52 3
def fPNeg (n : Nat) : Bool := bit n 55

/-- A field of `len` bits from `lo`, as a mask. -/
def mk (lo len : Nat) : Nat := (2 ^ len - 1) * 2 ^ lo

def mD : Nat := mk 46 6
def mA : Nat := mk 40 6
def mB : Nat := mk 34 6
def mC : Nat := mk 28 6
def mBU : Nat := mk 27 1
def mNA : Nat := mk 26 1
def mNC : Nat := mk 25 1
def mAA : Nat := mk 24 1
def mPD : Nat := mk 21 3
def mCond : Nat := mk 18 3
def mImm : Nat := mk 0 32

/-- A number as a signed one of `w` bits. -/
def toSigned (w n : Nat) : Int := if n < 2 ^ (w - 1) then (n : Int) else (n : Int) - 2 ^ w

/-- Lanes that are active for an instruction: LIVE and guard (R170). -/
def Bundle.active (x : Bundle) (n : Nat) : List Nat :=
  (List.range 64).filter fun l => x.live.getLsbD l && (x.pred (fPG n) l != fPNeg n)

/-! ### Ends and stops of a bundle (R65, R170, R200) -/

/-- The bundle is over: its slot is free (R65). -/
def Dev.endBundle (d : Dev) (u b k : Nat) : Dev :=
  let x := d.unit u
  (d.setUnit u { x with bundles := Tbl.erase x.bundles b }).checkPart u k

/-- A stopped bundle executes nothing further and counts as ended (R200). -/
def Dev.stopBundle (d : Dev) (u b k status detail : Nat) : Dev :=
  let d := (d.bump (Cat.THR_FAULT u)).bump Cat.THR_FAULT_TOTAL
  (d.updCmd k fun c => c.raise status detail).endBundle u b k

/-- The same for a tensor word that was rejected, which is counted elsewhere (R114, R200). -/
def Dev.stopRejected (d : Dev) (u b k status detail : Nat) : Dev :=
  (d.updCmd k fun c => c.raise status detail).endBundle u b k

/-! ### Issue -/

/-- What an instruction works on: unit, bundle slot, its command, the word, the active lanes. The bundle's PC has
moved past the instruction. -/
structure TCtx where
  u : Nat
  b : Nat
  k : Nat
  cmd : Cmd
  x : Bundle
  n : Nat
  act : List Nat
deriving DecidableEq, Repr

/-- The bundle of the context, back into its slot. -/
def Dev.putBundle (d : Dev) (t : TCtx) (x : Bundle) : Dev := d.setBundle t.u t.b x

/-- A poisoned instruction line reads as zeros, whose OPC is reserved (R200). -/
def Dev.poisonedFetch (d : Dev) (u b k : Nat) (lines : List Nat) : Dev :=
  let d := (d.cmdPoison k lines).bumpBy (Cat.THR_POISON_ZERO u) lines.length
  (d.bumpBy Cat.THR_POISON_ZERO_TOTAL lines.length).stopBundle u b k 0x30 56

/-- A bundle is ready to issue (R172); the bundles of a HALTED command hold (R254). -/
def Dev.mayIssue (c : Cmd) (x : Bundle) : Bool := x.wait = .none && (c.st = .running || c.st = .parked)

/-! ### Fetch (R174, R177) -/

/-- OPC of a thread instruction (R177) and OP of a slip instruction (R241). Zero, which both tables reserve, for any other
command. -/
def opcOf : Instr → Nat
  | .fadd .. => 0x01 | .fmul .. => 0x02 | .ffma .. => 0x03 | .fmin .. => 0x04 | .fmax .. => 0x05
  | .sel .. => 0x06
  | .frcp .. => 0x08 | .frsq .. => 0x09 | .fsqrt .. => 0x0A | .fexp2 .. => 0x0B | .flog2 .. => 0x0C
  | .ftanh .. => 0x0D
  | .faddi .. => 0x10 | .fmuli .. => 0x11
  | .iadd .. => 0x20 | .isub .. => 0x21 | .imul .. => 0x22 | .imad .. => 0x23 | .imin .. => 0x24
  | .imax .. => 0x25 | .umin .. => 0x26 | .umax .. => 0x27 | .and .. => 0x28 | .or .. => 0x29
  | .xor .. => 0x2A | .shl .. => 0x2B | .shr .. => 0x2C | .sar .. => 0x2D | .popc .. => 0x2E
  | .clz .. => 0x2F
  | .iaddi .. => 0x30 | .andi .. => 0x31 | .ori .. => 0x32 | .shli .. => 0x33 | .shri .. => 0x34
  | .movi .. => 0x35 | .mov .. => 0x36
  | .movu .. => 0x37
  | .movuh .. => 0x3D
  | .fsetp .. => 0x38 | .isetp .. => 0x39 | .usetp .. => 0x3A | .plop .. => 0x3B
  | .cvt .. => 0x40 | .offs .. => 0x41
  | .shfl .. => 0x48 | .shflx .. => 0x49 | .red .. => 0x4A | .scan .. => 0x4B | .vote .. => 0x4C
  | .rdlane .. => 0x4D
  | .uadd .. => 0x50 | .usub .. => 0x51 | .umul .. => 0x52 | .uand .. => 0x53 | .uor .. => 0x54
  | .ushl .. => 0x55 | .ushr .. => 0x56 | .umovi .. => 0x57 | .umovhi .. => 0x58 | .uaddi .. => 0x59
  | .ucmp .. => 0x5A
  | .ld .. => 0x60 | .st .. => 0x61 | .atom .. => 0x62 | .pref .. => 0x63
  | .fence .. => 0x68 | .bar .. => 0x69 | .nap .. => 0x6A
  | .tens .. => 0x70 | .twait .. => 0x71
  | .strmRun .. => 0x72
  | .strmFree .. => 0x72
  | .swait .. => 0x73 | .statmx .. => 0x74 | .seal .. => 0x75
  | .sreg .. => 0x78
  | .bra .. => 0x7C | .call .. => 0x7D | .ret .. => 0x7E | .exit .. => 0x7F
  | .fetch .. => 0x01 | .put .. => 0x02 | .mova .. => 0x03 | .addaa .. => 0x04 | .setc .. => 0x05
  | .addc .. => 0x06 | .loop .. => 0x07 | .open_ .. => 0x08 | .close .. => 0x09 | .waitmk .. => 0x0A
  | .sig .. => 0x0B | .fmt .. => 0x0C | .end_ .. => 0x0D
  | _ => 0

/-- The values of OPC that R177 lists, first and last of each stretch. -/
def opcRanges : List (Nat × Nat) :=
  [(0x01, 0x06), (0x08, 0x0D), (0x10, 0x11), (0x20, 0x3B), (0x3D, 0x3D), (0x40, 0x41), (0x48, 0x4D), (0x50, 0x5A), (0x60, 0x63), (0x68, 0x6A), (0x70, 0x75), (0x78, 0x78), (0x7C, 0x7F)]

def opcReserved (o : Nat) : Bool := !(opcRanges.any fun r => r.1 ≤ o && o ≤ r.2)

def codeKey (j va : Nat) : Nat := va / 64 * 16 + j

/-- The unit's instruction cache holds another granule than memory: the job has written it since (R174). -/
def Dev.codeStale (d : Dev) (u j va : Nat) : Bool :=
  match Tbl.find? (d.unit u).code (codeKey j va) with
  | some old => decide (old ≠ d.jrd j (va / 64 * 64) 64)
  | none => false

/-- The granule that a fetch reads: memory's, or the cache's older one where it holds one, as the device likes (R174). -/
def Dev.granule (d : Dev) (u j va : Nat) : List Byte :=
  let now := d.jrd j (va / 64 * 64) 64
  if d.codeStale u j va && d.free 0 % 2 = 1 then Tbl.getD (d.unit u).code (codeKey j va) now else now

/-- The word that a bundle of job `j` fetches at `va`. -/
def Dev.fetchWord (d : Dev) (u j va : Nat) : Nat := leNat (((d.granule u j va).drop (va % 64)).take 8)

/-- The granule is in the instruction cache from now on. -/
def Dev.fillCode (d : Dev) (u j va : Nat) : Dev :=
  { d with
    units := Tbl.set d.units u { d.unit u with code := Tbl.set (d.unit u).code (codeKey j va) (d.granule u j va) },
    fresh := d.fresh + if d.codeStale u j va then 1 else 0 }

/-- Bundle `b` of unit `u` issues its next instruction, and it is the one of opcode `op` with low bits `w`: it acts as `run`
says where the fetch reads that word. A word of a reserved OPC stops the bundle (R176), and any other word is another
command's. Where nothing can be fetched, `run` says what happens. -/
def Dev.fetched (op u b : Nat) (w : TWord) (run : Dev → Dev) (d : Dev) : Dev :=
  match d.bundle? u b with
  | none => run d
  | some x =>
    match d.cmd? x.cmd with
    | none => run d
    | some c =>
      if !Dev.mayIssue c x || (d.xlate c.job x.pc false).isNone || !(d.jbad c.job x.pc 8).isEmpty then run d
      else
        let n := d.fetchWord u c.job x.pc
        if n = op * 2 ^ 56 + w.toNat then run (d.fillCode u c.job x.pc)
        else if opcReserved (n / 2 ^ 56) then (d.fillCode u c.job x.pc).stopBundle u b x.cmd 0x30 56
        else d

/-- One instruction of bundle `b` of unit `u`, whose low 56 bits are `w`: fetched through the job's page tables,
checked, executed by `run`. `used` masks the bits of [51:0] that the opcode uses, `bad` gives further offending
bits, `ready` the limits of R203. -/
def Dev.thread (u b : Nat) (w : TWord) (used : Nat) (bad : Nat → List Nat) (ready : Dev → Cmd → Bundle → Bool)
    (run : TCtx → Dev → Dev) (d : Dev) : Dev :=
  match d.bundle? u b with
  | none => d
  | some x =>
    match d.cmd? x.cmd with
    | none => d
    | some c =>
      if !Dev.mayIssue c x || !ready d c x then d
      else if (d.xlate c.job x.pc false).isNone then
        (d.xfault c.job x.pc).stopBundle u b x.cmd 0x11 x.pc
      else if !(d.jbad c.job x.pc 8).isEmpty then d.poisonedFetch u b x.cmd (d.jbad c.job x.pc 8)
      else
        let n := w.toNat
        match ((setBits 52 (n - Nat.land n used)) ++ bad n).min? with
        | some o => d.stopBundle u b x.cmd 0x30 o
        | none =>
          let d := d.bump (Cat.THR_ISSUED u)
          let j := d.job c.job
          let d := d.setJob c.job { j with issued := Tbl.set j.issued u (Tbl.getD j.issued u 0 + 1) }
          let x' := { x with pc := (x.pc + 8) % 2 ^ 52 }
          run { u := u, b := b, k := x.cmd, cmd := c, x := x', n := n, act := x.active n } (d.setBundle u b x')

def noBad (_ : Nat) : List Nat := []
def anyTime (_ : Dev) (_ : Cmd) (_ : Bundle) : Bool := true

/-- A vector or special instruction: each active lane's result goes to V[D]; saturations and invalid operations
are counted (R178). `pick` is the lane's free value. -/
def Dev.lanes (u b : Nat) (w : TWord) (used : Nat) (bad : Nat → List Nat) (free : Bool)
    (f : TCtx → (pick lane : Nat) → F32) : Dev → Dev :=
  Dev.thread u b w used bad anyTime fun t d =>
    let rs := t.act.map fun l => (l, f t (d.free l) l)
    let d := if free then d.takeN 64 else d
    let sats := (rs.filter fun r => r.2.sat).length
    let invs := (rs.filter fun r => r.2.invalid).length
    let d := (d.bumpBy (Cat.THR_OVERFLOW_SAT t.u) sats).bumpBy Cat.THR_OVERFLOW_SAT_TOTAL sats
    let d := (d.bumpBy (Cat.THR_INVALID t.u) invs).bumpBy Cat.THR_INVALID_TOTAL invs
    let j := d.job t.cmd.job
    let d := d.setJob t.cmd.job { j with invalids := j.invalids + invs }
    d.putBundle t (rs.foldl (fun x r => x.setV r.1 (fD t.n) r.2.bits) t.x)

/-- An instruction on the bundle alone. -/
def Dev.bundleOp (u b : Nat) (w : TWord) (used : Nat) (bad : Nat → List Nat) (f : TCtx → Bundle) : Dev → Dev :=
  Dev.thread u b w used bad anyTime fun t d => d.putBundle t (f t)

/-- A bundle-level instruction has no effect when no lane is active (R171). -/
def Dev.uniformOp (u b : Nat) (w : TWord) (used : Nat) (bad : Nat → List Nat) (f : TCtx → Bundle) : Dev → Dev :=
  Dev.bundleOp u b w used bad fun t => if t.act.isEmpty then t.x else f t

/-! ### Operands of lanes -/

/-- B, from V[B] of the lane or from the low half of U[B] (R175). -/
def TCtx.opB (t : TCtx) (lane : Nat) : Word :=
  if fBU t.n then (t.x.ureg (fB t.n)).setWidth 32 else t.x.vreg lane (fB t.n)

def TCtx.opA (t : TCtx) (lane : Nat) : Word := t.x.vreg lane (fA t.n)
def TCtx.opC (t : TCtx) (lane : Nat) : Word := t.x.vreg lane (fC t.n)

def signBit : Word := 0x80000000

/-- A′: |A| taken first, then negated (R175). -/
def TCtx.opA' (t : TCtx) (lane : Nat) : Word :=
  let a := t.opA lane
  let a := if fAA t.n then a &&& ~~~ signBit else a
  if fNA t.n then a ^^^ signBit else a

def TCtx.opC' (t : TCtx) (lane : Nat) : Word :=
  let c := t.opC lane
  if fNC t.n then c ^^^ signBit else c

def TCtx.imm (t : TCtx) : Word := BitVec.ofNat 32 (fImm t.n)

/-- An integer result. -/
def intRes (w : Word) : F32 := { bits := w }

end Sys2Proof.Machine
end

