-- ==== Sys2Proof/Machine/Flags.lean ====
section
/-! DEFINITION. Predicate computations: the comparisons and the predicate logic of R177, the branch conditions of
R173. The machine has no other flags. -/

namespace Sys2Proof.Machine

/-- Signed comparison by COND 0 to 5. -/
def cmpSigned (cond : Nat) (a b : Int) : Bool :=
  match cond with
  | 0 => a = b
  | 1 => a ≠ b
  | 2 => a < b
  | 3 => a ≤ b
  | 4 => b < a
  | _ => b ≤ a

/-- Unsigned comparison by COND 0 to 5. -/
def cmpUnsigned (cond a b : Nat) : Bool := cmpSigned cond a b

/-- PLOP by COND 0 to 4. -/
def predOp (cond : Nat) (a b : Bool) : Bool :=
  match cond with
  | 0 => a && b
  | 1 => a || b
  | 2 => a != b
  | 3 => a && !b
  | _ => !a

/-- COND codes 6 and 7 are reserved for the integer comparisons. -/
def badCmp (n : Nat) : List Nat := ifBad (6 ≤ fCond n) 18

/-- Branch conditions (R173). -/
def branchTaken (t : TCtx) : Bool :=
  let pb := fld t.n 45 3
  let ua := t.x.ureg (fld t.n 39 6)
  match fld t.n 48 4 with
  | 0 => true
  | 1 => t.act.any fun l => t.x.pred pb l
  | 2 => t.act.all fun l => t.x.pred pb l
  | 3 => !(t.act.any fun l => t.x.pred pb l)
  | 4 => ua ≠ 0
  | _ => ua = 0

end Sys2Proof.Machine
end

