-- ==== Sys2Proof/Machine/Thread.lean ====
section
/-! DEFINITION. Thread instructions that work on registers alone, control flow, and identity reads (R173, R177 to
R183, R198, R199). Memory, fences, barriers and issue to other units are in ThreadMem. -/

namespace Sys2Proof.Machine

/-! ### FP32 -/

def mBin : Nat := mD + mA + mB + mBU

def execFaddD (u b : Nat) (w : TWord) : Dev → Dev :=
  Dev.lanes u b w (mBin + mNA + mAA) noBad false fun t _ l => f32Add (t.opA' l) (t.opB l)
def execFmulD (u b : Nat) (w : TWord) : Dev → Dev :=
  Dev.lanes u b w (mBin + mNA + mAA) noBad false fun t _ l => f32Mul (t.opA' l) (t.opB l)
def execFfmaD (u b : Nat) (w : TWord) : Dev → Dev :=
  Dev.lanes u b w (mBin + mC + mNA + mNC + mAA) noBad false fun t _ l => f32Fma (t.opA' l) (t.opB l) (t.opC' l)
def execFminD (u b : Nat) (w : TWord) : Dev → Dev :=
  Dev.lanes u b w mBin noBad false fun t _ l => f32Min (t.opA l) (t.opB l)
def execFmaxD (u b : Nat) (w : TWord) : Dev → Dev :=
  Dev.lanes u b w mBin noBad false fun t _ l => f32Max (t.opA l) (t.opB l)
def execSelD (u b : Nat) (w : TWord) : Dev → Dev :=
  Dev.lanes u b w (mBin + mPD) noBad false fun t _ l =>
    intRes (if t.x.pred (fPD t.n) l then t.opA l else t.opB l)

/-! ### Special functions -/

def mSpec : Nat := mD + mA + mNA + mAA

def execFrcpD (u b : Nat) (w : TWord) : Dev → Dev :=
  Dev.lanes u b w mSpec noBad true fun t p l => f32Rcp (t.opA' l) p
def execFrsqD (u b : Nat) (w : TWord) : Dev → Dev :=
  Dev.lanes u b w mSpec noBad true fun t p l => f32Rsq (t.opA' l) p
def execFsqrtD (u b : Nat) (w : TWord) : Dev → Dev :=
  Dev.lanes u b w mSpec noBad false fun t _ l => f32Sqrt (t.opA' l)
def execFexp2D (u b : Nat) (w : TWord) : Dev → Dev :=
  Dev.lanes u b w mSpec noBad true fun t p l => f32Exp2 (t.opA' l) p
def execFlog2D (u b : Nat) (w : TWord) : Dev → Dev :=
  Dev.lanes u b w mSpec noBad true fun t p l => f32Log2 (t.opA' l) p
def execFtanhD (u b : Nat) (w : TWord) : Dev → Dev :=
  Dev.lanes u b w mSpec noBad true fun t p l => f32Tanh (t.opA' l) p

def mImmOp : Nat := mD + mA + mImm

def execFaddiD (u b : Nat) (w : TWord) : Dev → Dev :=
  Dev.lanes u b w mImmOp noBad false fun t _ l => f32Add (t.opA l) t.imm
def execFmuliD (u b : Nat) (w : TWord) : Dev → Dev :=
  Dev.lanes u b w mImmOp noBad false fun t _ l => f32Mul (t.opA l) t.imm

/-! ### 32-bit integers (R180) -/

/-- An integer instruction of two sources. -/
def Dev.intOp (u b : Nat) (w : TWord) (f : Word → Word → Word) : Dev → Dev :=
  Dev.lanes u b w mBin noBad false fun t _ l => intRes (f (t.opA l) (t.opB l))

def execIaddD (u b : Nat) (w : TWord) : Dev → Dev := Dev.intOp u b w fun x y => x + y
def execIsubD (u b : Nat) (w : TWord) : Dev → Dev := Dev.intOp u b w fun x y => x - y
def execImulD (u b : Nat) (w : TWord) : Dev → Dev := Dev.intOp u b w fun x y => x * y
def execImadD (u b : Nat) (w : TWord) : Dev → Dev :=
  Dev.lanes u b w (mBin + mC) noBad false fun t _ l => intRes (t.opA l * t.opB l + t.opC l)
def execIminD (u b : Nat) (w : TWord) : Dev → Dev := Dev.intOp u b w fun x y => if x.slt y then x else y
def execImaxD (u b : Nat) (w : TWord) : Dev → Dev := Dev.intOp u b w fun x y => if x.slt y then y else x
def execUminD (u b : Nat) (w : TWord) : Dev → Dev := Dev.intOp u b w fun x y => if x.ult y then x else y
def execUmaxD (u b : Nat) (w : TWord) : Dev → Dev := Dev.intOp u b w fun x y => if x.ult y then y else x
def execAndD (u b : Nat) (w : TWord) : Dev → Dev := Dev.intOp u b w fun x y => x &&& y
def execOrD (u b : Nat) (w : TWord) : Dev → Dev := Dev.intOp u b w fun x y => x ||| y
def execXorD (u b : Nat) (w : TWord) : Dev → Dev := Dev.intOp u b w fun x y => x ^^^ y
def execShlD (u b : Nat) (w : TWord) : Dev → Dev := Dev.intOp u b w fun x y => x <<< (y.toNat % 32)
def execShrD (u b : Nat) (w : TWord) : Dev → Dev := Dev.intOp u b w fun x y => x >>> (y.toNat % 32)
def execSarD (u b : Nat) (w : TWord) : Dev → Dev := Dev.intOp u b w fun x y => x.sshiftRight (y.toNat % 32)

def popWord (x : Word) : Word := BitVec.ofNat 32 (popCount 32 x.toNat)
def clzWord (x : Word) : Word := BitVec.ofNat 32 (if x = 0 then 32 else 31 - Nat.log2 x.toNat)

def execPopcD (u b : Nat) (w : TWord) : Dev → Dev :=
  Dev.lanes u b w (mD + mA) noBad false fun t _ l => intRes (popWord (t.opA l))
def execClzD (u b : Nat) (w : TWord) : Dev → Dev :=
  Dev.lanes u b w (mD + mA) noBad false fun t _ l => intRes (clzWord (t.opA l))

/-- An integer instruction with an immediate. -/
def Dev.immOp (u b : Nat) (w : TWord) (f : Word → Word → Word) : Dev → Dev :=
  Dev.lanes u b w mImmOp noBad false fun t _ l => intRes (f (t.opA l) t.imm)

def execIaddiD (u b : Nat) (w : TWord) : Dev → Dev := Dev.immOp u b w fun x i => x + i
def execAndiD (u b : Nat) (w : TWord) : Dev → Dev := Dev.immOp u b w fun x i => x &&& i
def execOriD (u b : Nat) (w : TWord) : Dev → Dev := Dev.immOp u b w fun x i => x ||| i
def execShliD (u b : Nat) (w : TWord) : Dev → Dev := Dev.immOp u b w fun x i => x <<< (i.toNat % 32)
def execShriD (u b : Nat) (w : TWord) : Dev → Dev := Dev.immOp u b w fun x i => x >>> (i.toNat % 32)
def execMoviD (u b : Nat) (w : TWord) : Dev → Dev :=
  Dev.lanes u b w (mD + mImm) noBad false fun t _ _ => intRes t.imm
def execMovD (u b : Nat) (w : TWord) : Dev → Dev :=
  Dev.lanes u b w (mD + mA) noBad false fun t _ l => intRes (t.opA l)
def execMovuD (u b : Nat) (w : TWord) : Dev → Dev :=
  Dev.lanes u b w (mD + mA) noBad false fun t _ _ => intRes ((t.x.ureg (fA t.n)).setWidth 32)
def execMovuhD (u b : Nat) (w : TWord) : Dev → Dev :=
  Dev.lanes u b w (mD + mA) noBad false fun t _ _ => intRes ((t.x.ureg (fA t.n) >>> 32).setWidth 32)

/-! ### Predicates -/

def mCmp : Nat := mA + mB + mBU + mPD + mCond

def execFsetpD (u b : Nat) (w : TWord) : Dev → Dev :=
  Dev.bundleOp u b w mCmp noBad fun t =>
    t.x.setPLanes (fPD t.n) t.act fun l => f32Cmp (fCond t.n) (t.opA l) (t.opB l)
def execIsetpD (u b : Nat) (w : TWord) : Dev → Dev :=
  Dev.bundleOp u b w mCmp badCmp fun t =>
    t.x.setPLanes (fPD t.n) t.act fun l => cmpSigned (fCond t.n) (t.opA l).toInt (t.opB l).toInt
def execUsetpD (u b : Nat) (w : TWord) : Dev → Dev :=
  Dev.bundleOp u b w mCmp badCmp fun t =>
    t.x.setPLanes (fPD t.n) t.act fun l => cmpUnsigned (fCond t.n) (t.opA l).toNat (t.opB l).toNat

/-- PLOP names predicates in A[2:0] and B[2:0]; B is not used by NOT. -/
def execPlopD (u b : Nat) (w : TWord) : Dev → Dev :=
  Dev.bundleOp u b w (mk 40 3 + mk 34 3 + mPD + mCond)
    (fun n => ifBad (5 ≤ fCond n) 18 ++ (if fCond n = 4 then setBitsAt n 34 3 else [])) fun t =>
    t.x.setPLanes (fPD t.n) t.act fun l =>
      predOp (fCond t.n) (t.x.pred (fA t.n % 8) l) (t.x.pred (fB t.n % 8) l)

/-! ### Conversions (R181, R182) -/

def cvtFrom (n : Nat) : Nat := fld n 36 4
def cvtTo (n : Nat) : Nat := fld n 32 4
def cvtSr (n : Nat) : Bool := bit n 31
def cvtSat (n : Nat) : Bool := bit n 30
def cvtBlk16 (n : Nat) : Bool := bit n 29
def cvtBlk (n : Nat) : Bool := bit n 28
def cvtUs (n : Nat) : Nat := fld n 22 6

def cvtBad (n : Nat) : List Nat :=
  ifBad (8 ≤ cvtFrom n) 36 ++ ifBad (8 ≤ cvtTo n) 32 ++ ifBad (cvtFrom n ≤ 2 && cvtTo n ≤ 2 && cvtUs n ≠ 0) 22
    ++ ifBad (cvtBlk n && !isBlock (cvtFrom n) && !isBlock (cvtTo n)) 28

/-- S2 and the zero point of U[US] for a format; US 63 selects 1.0 and 0. -/
def cvtScale (t : TCtx) (code : Nat) : Scale :=
  if cvtUs t.n = 63 || (cvtFrom t.n ≤ 2 && cvtTo t.n ≤ 2) then Scale.one
  else
    let x := (t.x.ureg (cvtUs t.n)).toNat
    { s2 := decodeF 0 (fld x 0 32), zp := zeroPoint code (fld x 32 8) }

/-- The value that a lane holds before the conversion. -/
def cvtValue (t : TCtx) (l : Nat) : FVal :=
  let a := (t.opA l).toNat
  let from_ := cvtFrom t.n
  decodeScaled from_ (cvtScale t from_) (if cvtBlk t.n && isBlock from_ then fld a 8 4 else 0) a

/-- Lane results of a conversion: bits, saturated, changed, clipped; and the underrange blocks. -/
structure CvtRes where
  lanes : List (Nat × Enc)
  under : Nat

/-- One block of lanes, or the lanes with no block. -/
def cvtGroup (t : TCtx) (draw : Nat → Nat) (block : Bool) (ls : List Nat) : CvtRes :=
  let to_ := cvtTo t.n
  let sc := cvtScale t to_
  let vs := ls.map fun l => (l, cvtValue t l)
  let (o, under) := if block then blockOffset to_ (vs.map fun v => v.2.div sc.s2) else (0, false)
  { lanes := vs.map fun v =>
      let r := if cvtSr t.n then Rnd.stochastic (draw v.1) else .nearest
      let e := encodeScaled to_ r (cvtSat t.n) false sc o v.2
      (v.1, if block then { e with bits := e.bits + o * 2 ^ 8 } else e),
    under := b2n (under && !ls.isEmpty) }

/-- All blocks of the bundle. -/
def cvtAll (t : TCtx) (draw : Nat → Nat) : CvtRes :=
  if cvtBlk t.n && isBlock (cvtTo t.n) then
    let size := if cvtBlk16 t.n then 16 else 32
    let rs := (List.range (64 / size)).map fun i => cvtGroup t draw true (t.act.filter fun l => l / size = i)
    { lanes := (rs.map (·.lanes)).flatten, under := (rs.map (·.under)).sum }
  else cvtGroup t draw false t.act

def execCvtD (u b : Nat) (w : TWord) : Dev → Dev :=
  Dev.thread u b w (mD + mA + mk 36 4 + mk 32 4 + mk 28 4 + mk 22 6 + mk 14 8) cvtBad anyTime fun t d =>
    let res := cvtAll t fun l => d.draw (genThread u b l) l
    let d := if cvtSr t.n then d.drawn ((List.range 64).map (genThread u b)) else d
    let sats := (res.lanes.filter fun e => e.2.sat).length
    let changed := (res.lanes.filter fun e => e.2.changed).length
    let stat := fStat t.n
    let d := (d.bumpBy Cat.NUM_CVT_OVERFLOW_SAT sats).bumpBy Cat.NUM_CVT_NONFINITE changed
    let d := if stat = 0 then d else d.bumpBy Cat.NUM_UNDERRANGE_BLOCK res.under
    let d := if t.act.isEmpty then d
      else
        d.contributeStat t.cmd.job stat
          { rows := t.act.map fun l => (l, magBits (cvtValue t l)), elements := t.act.length,
            clipped := if isBlock (cvtTo t.n) then sats else 0, under := res.under, nonfin := changed }
          (3 ≤ cvtTo t.n) false
    d.putBundle t (res.lanes.foldl (fun x e => x.setV e.1 (fD t.n) (BitVec.ofNat 32 e.2.bits)) t.x)

/-- OFFS packs the offsets of the blocks into lane 0 of D; every other lane receives zero, active or not (R182). -/
def execOffsD (u b : Nat) (w : TWord) : Dev → Dev :=
  Dev.bundleOp u b w (mD + mA + mk 29 1) noBad fun t =>
    let size := if cvtBlk16 t.n then 16 else 32
    let packed := ((List.range (64 / size)).map fun i => fld (t.opA (i * size)).toNat 8 4 * 16 ^ i).sum
    t.x.setVLanes (fD t.n) (List.range 64) fun l =>
      if l = 0 then BitVec.ofNat 32 packed else 0

/-! ### Cross-lane operations (R183) -/

def execShflD (u b : Nat) (w : TWord) : Dev → Dev :=
  Dev.lanes u b w mBin noBad false fun t _ l => intRes (t.opA ((t.opB l).toNat % 64))
def execShflxD (u b : Nat) (w : TWord) : Dev → Dev :=
  Dev.lanes u b w (mD + mA + mk 0 6) noBad false fun t _ l => intRes (t.opA (Nat.xor l (fImm t.n % 64)))

/-- One combination of RED or SCAN by COND. -/
def redOp (cond : Nat) (x y : Word) : F32 :=
  match cond with
  | 0 => f32Add x y
  | 1 => f32Max x y
  | 2 => f32Min x y
  | 3 => intRes (x + y)
  | 4 => intRes (if x.slt y then y else x)
  | 5 => intRes (if x.slt y then x else y)
  | 6 => intRes (x &&& y)
  | _ => intRes (x ||| y)

def redEmpty (cond : Nat) : Word :=
  match cond with
  | 0 => 0
  | 1 => 0xFF800000
  | 2 => 0x7F800000
  | 3 => 0
  | 4 => 0x80000000
  | 5 => 0x7FFFFFFF
  | 6 => 0xFFFFFFFF
  | _ => 0

/-- A list of elements with the counts of saturations and invalid operations so far. -/
structure TreeRes where
  vals : List (Option Word)
  sat : Nat
  inv : Nat

/-- One level of the pairwise tree: element 2i combines with element 2i + 1; a missing one passes its partner up. -/
def treeLevel (cond : Nat) : List (Option Word) → TreeRes
  | some x :: some y :: t =>
    let r := redOp cond x y
    let rest := treeLevel cond t
    { vals := some r.bits :: rest.vals, sat := rest.sat + b2n r.sat, inv := rest.inv + b2n r.invalid }
  | some x :: none :: t => let rest := treeLevel cond t; { rest with vals := some x :: rest.vals }
  | none :: y :: t => let rest := treeLevel cond t; { rest with vals := y :: rest.vals }
  | l => { vals := l, sat := 0, inv := 0 }

def treeReduce (cond : Nat) : Nat → TreeRes → TreeRes
  | 0, r => r
  | k + 1, r =>
    let s := treeLevel cond r.vals
    treeReduce cond k { vals := s.vals, sat := r.sat + s.sat, inv := r.inv + s.inv }

/-- Counts of a bundle's FP32 results outside single lanes (R178). -/
def Dev.countFp (d : Dev) (t : TCtx) (sat inv : Nat) : Dev :=
  let d := (d.bumpBy (Cat.THR_OVERFLOW_SAT t.u) sat).bumpBy Cat.THR_OVERFLOW_SAT_TOTAL sat
  let d := (d.bumpBy (Cat.THR_INVALID t.u) inv).bumpBy Cat.THR_INVALID_TOTAL inv
  let j := d.job t.cmd.job
  d.setJob t.cmd.job { j with invalids := j.invalids + inv }

/-- The reduction over the active lanes as a fixed tree of six levels. -/
def redResult (t : TCtx) : TreeRes :=
  treeReduce (fCond t.n) 6
    { vals := (List.range 64).map fun l => if t.act.contains l then some (t.opA l) else none, sat := 0, inv := 0 }

def execRedD (u b : Nat) (w : TWord) : Dev → Dev :=
  Dev.thread u b w (mD + mA + mCond) noBad anyTime fun t d =>
    let r := redResult t
    let v : Word := match r.vals with | some x :: _ => x | _ => redEmpty (fCond t.n)
    let cond := fCond t.n
    let wide : DWord := if 3 ≤ cond && cond ≤ 5 then v.signExtend 64 else v.setWidth 64
    (d.countFp t r.sat r.inv).putBundle t (t.x.setU (fD t.n) wide)

/-- One step of SCAN: lane l combines with lane l − 2^k. -/
def scanStep (cond k : Nat) (r : TreeRes) : TreeRes :=
  let outs := (List.range 64).map fun l =>
    match (r.vals[l]?).getD none, (if 2 ^ k ≤ l then (r.vals[l - 2 ^ k]?).getD none else none) with
    | some x, some y => (some (redOp cond y x).bits, b2n (redOp cond y x).sat, b2n (redOp cond y x).invalid)
    | some x, none => (some x, 0, 0)
    | none, y => (y, 0, 0)
  { vals := outs.map (·.1), sat := r.sat + (outs.map (·.2.1)).sum, inv := r.inv + (outs.map (·.2.2)).sum }

def scanResult (t : TCtx) : TreeRes :=
  (List.range 6).foldl (fun r k => scanStep (fCond t.n) k r)
    { vals := (List.range 64).map fun l => if t.act.contains l then some (t.opA l) else none, sat := 0, inv := 0 }

def execScanD (u b : Nat) (w : TWord) : Dev → Dev :=
  Dev.thread u b w (mD + mA + mCond) (fun n => ifBad (fCond n ≠ 0 && fCond n ≠ 3 && fCond n ≠ 4) 18) anyTime
    fun t d =>
    let r := scanResult t
    (d.countFp t r.sat r.inv).putBundle t
      (t.x.setVLanes (fD t.n) t.act fun l => ((r.vals[l]?).getD none).getD 0)

def execVoteD (u b : Nat) (w : TWord) : Dev → Dev :=
  Dev.bundleOp u b w (mD + mPD) noBad fun t =>
    t.x.setU (fD t.n) (laneMask (t.act.filter fun l => t.x.pred (fPD t.n) l))
def execRdlaneD (u b : Nat) (w : TWord) : Dev → Dev :=
  Dev.bundleOp u b w (mD + mA + mB) noBad fun t => t.x.setU (fD t.n) ((t.opA (fB t.n)).setWidth 64)

/-! ### Uniform operations (R177, R180) -/

/-- A uniform instruction of two U sources. -/
def Dev.uOp (u b : Nat) (w : TWord) (f : DWord → DWord → DWord) : Dev → Dev :=
  Dev.uniformOp u b w (mD + mA + mB) noBad fun t =>
    t.x.setU (fD t.n) (f (t.x.ureg (fA t.n)) (t.x.ureg (fB t.n)))

def execUaddD (u b : Nat) (w : TWord) : Dev → Dev := Dev.uOp u b w fun x y => x + y
def execUsubD (u b : Nat) (w : TWord) : Dev → Dev := Dev.uOp u b w fun x y => x - y
def execUmulD (u b : Nat) (w : TWord) : Dev → Dev := Dev.uOp u b w fun x y => x * y
def execUandD (u b : Nat) (w : TWord) : Dev → Dev := Dev.uOp u b w fun x y => x &&& y
def execUorD (u b : Nat) (w : TWord) : Dev → Dev := Dev.uOp u b w fun x y => x ||| y
def execUshlD (u b : Nat) (w : TWord) : Dev → Dev := Dev.uOp u b w fun x y => x <<< (y.toNat % 64)
def execUshrD (u b : Nat) (w : TWord) : Dev → Dev := Dev.uOp u b w fun x y => x >>> (y.toNat % 64)

/-- The immediate, sign-extended to 64 bits. -/
def TCtx.immWide (t : TCtx) : DWord := t.imm.signExtend 64

def execUmoviD (u b : Nat) (w : TWord) : Dev → Dev :=
  Dev.uniformOp u b w (mD + mImm) noBad fun t => t.x.setU (fD t.n) t.immWide
def execUmovhiD (u b : Nat) (w : TWord) : Dev → Dev :=
  Dev.uniformOp u b w (mD + mImm) noBad fun t =>
    t.x.setU (fD t.n) ((t.x.ureg (fD t.n) &&& 0xFFFFFFFF#64) ||| (t.imm.setWidth 64 <<< 32))
def execUaddiD (u b : Nat) (w : TWord) : Dev → Dev :=
  Dev.uniformOp u b w mImmOp noBad fun t => t.x.setU (fD t.n) (t.x.ureg (fA t.n) + t.immWide)
def execUcmpD (u b : Nat) (w : TWord) : Dev → Dev :=
  Dev.uniformOp u b w (mA + mB + mPD + mCond) badCmp fun t =>
    t.x.setPLanes (fPD t.n) t.act fun _ =>
      cmpUnsigned (fCond t.n) (t.x.ureg (fA t.n)).toNat (t.x.ureg (fB t.n)).toNat

/-! ### Control flow (R173, R200) -/

/-- PC of the instruction itself. -/
def TCtx.pc (t : TCtx) : Nat := (t.x.pc + 2 ^ 52 - 8) % 2 ^ 52

/-- PC + 8 × TARGET -/
def TCtx.target (t : TCtx) : Nat := (((t.pc : Int) + 8 * toSigned 32 (fImm t.n)) % 2 ^ 52).toNat

def execBraD (u b : Nat) (w : TWord) : Dev → Dev :=
  Dev.uniformOp u b w (mk 48 4 + mk 45 3 + mk 39 6 + mImm) (fun n => ifBad (6 ≤ fld n 48 4) 48) fun t =>
    if branchTaken t then { t.x with pc := t.target } else t.x

def execCallD (u b : Nat) (w : TWord) : Dev → Dev :=
  Dev.thread u b w mImm noBad anyTime fun t d =>
    if t.act.isEmpty then d
    else if 16 ≤ t.x.ret.length then d.stopBundle t.u t.b t.k 0x30 56
    else d.putBundle t { t.x with ret := t.x.pc :: t.x.ret, pc := t.target }

def execRetD (u b : Nat) (w : TWord) : Dev → Dev :=
  Dev.thread u b w 0 noBad anyTime fun t d =>
    if t.act.isEmpty then d
    else
      match t.x.ret with
      | [] => d.stopBundle t.u t.b t.k 0x30 56
      | a :: rest => d.putBundle t { t.x with ret := rest, pc := a }

def execExitD (u b : Nat) (w : TWord) : Dev → Dev :=
  Dev.thread u b w 0 noBad anyTime fun t d =>
    let live := t.x.live &&& ~~~ laneMask t.act
    if live = 0 then d.endBundle t.u t.b t.k else d.putBundle t { t.x with live := live }

/-! ### Statistics and seals (R198) -/

def badStat (n : Nat) : List Nat := ifBad (fStat n = 0) 14

def execStatmxD (u b : Nat) (w : TWord) : Dev → Dev :=
  Dev.thread u b w (mA + mk 14 8) badStat anyTime fun t d =>
    if t.act.isEmpty then d
    else
      d.contributeStat t.cmd.job (fStat t.n)
        { rows := t.act.map fun l => (l, magBits (f32 (t.opA l))), elements := t.act.length, clipped := 0, under := 0,
          nonfin := (t.act.filter fun l => !(f32 (t.opA l)).isFinite).length } false false

/-- The seal is carried out, and its record released, before the bundle's next instruction. -/
def execSealD (u b : Nat) (w : TWord) : Dev → Dev :=
  Dev.thread u b w (mk 14 8) badStat anyTime fun t d =>
    if t.act.isEmpty then d else d.sealSlot t.cmd.job (fStat t.n)

/-! ### Identity values (R66, R199) -/

/-- RANK: ordinal of the unit among the set bits of GROUP_MASK. -/
def Cmd.rank (c : Cmd) (u : Nat) : Nat := popCount (if u < 64 then u else u - 64) c.groupMask

def sregBad (n : Nat) : List Nat :=
  let sel := fld n 0 4
  let ud := bit n 4
  ifBad (11 ≤ sel) 0 ++ ifBad ((sel = 8 && !ud) || (sel = 9 && ud)) 4

/-- The value that SEL selects for a lane. -/
def sregValue (d : Dev) (t : TCtx) (l : Nat) : Nat :=
  let running : Bool := d.tt.st = .running
  match fld t.n 0 4 with
  | 0 => l
  | 1 => t.x.index
  | 2 => t.cmd.rank t.u
  | 3 => if t.u < 64 then t.u else t.u - 64
  | 4 => t.cmd.job
  | 5 => t.cmd.tag
  | 6 => if running then d.tt.step else 0
  | 7 => if running then d.tt.slot else 0
  | 8 => d.stamp
  | 9 => d.draw (genThread t.u t.b l) l
  | _ => t.cmd.bundles

/-- With UD 1 a lane number has no one value for the bundle: LANE there is a free value. -/
def execSregD (u b : Nat) (w : TWord) : Dev → Dev :=
  Dev.thread u b w (mD + mk 0 5) sregBad anyTime fun t d =>
    let laneToU := fld t.n 0 4 = 0 && bit t.n 4
    let d' := if laneToU then d.takeN 64 else if fld t.n 0 4 = 9 then d.drawn ((List.range 64).map (genThread u b)) else d
    if bit t.n 4 then
      match t.act with
      | [] => d'
      | l :: _ =>
        d'.putBundle t (t.x.setU (fD t.n)
          (BitVec.ofNat 64 (if laneToU then d.free 0 % 64 else sregValue d t l)))
    else d'.putBundle t (t.x.setVLanes (fD t.n) t.act fun l => BitVec.ofNat 32 (sregValue d t l))

end Sys2Proof.Machine
end

