-- ==== Sys2Proof/Machine/ThreadMem.lean ====
section
/-! DEFINITION. Thread instructions that reach memory, and what orders them: loads, stores, atomics, prefetches,
fences, barriers, NAP (R184 to R194, R203). A load reads when it issues; a store to a job address waits in its
unit until its sink accepts it. -/

namespace Sys2Proof.Machine

/-! ### What a unit sees of memory (R187, R229) -/

/-- A line with the unit's stores laid over it in issue order. -/
def overLine (stores : List PendStore) (line : Nat) (data : List Byte) : List Byte :=
  let near := stores.filter fun p => p.pa / 64 = line
  (List.range 64).map fun i => near.foldl (fun v p => overByte p (64 * line + i) v) ((data[i]?).getD 0)

/-- Tiers that a read buffer holds lines of. -/
def Dev.buffered (d : Dev) (pa : Nat) : Bool :=
  match d.region pa with
  | .tier2 _ | .tier3 _ | .host _ => true
  | _ => false

/-- The line of the unit's read buffer, when it holds one for this job (R229). -/
def ExecUnit.bufLine? (x : ExecUnit) (j line : Nat) : Option BufLine :=
  (Tbl.find? x.buf line).filter fun l => l.job = j

/-- What job `j` reads of a line on unit `u`: the line of its read buffer, unless that has been given up (`keep`), or
memory; with its own stores. -/
def Dev.unitLine (d : Dev) (u j line : Nat) (keep : Bool) : List Byte :=
  let x := d.unit u
  let base := match x.bufLine? j line with
    | some l => if keep then l.data else d.rd (64 * line) 64
    | none => d.rd (64 * line) 64
  overLine x.stores line base

/-- The line is in the unit's read buffer from now on. -/
def Dev.bufferLine (d : Dev) (u j line : Nat) (data : List Byte) : Dev :=
  if d.buffered (64 * line) && !d.badLine (64 * line) then
    let x := d.unit u
    d.setUnit u { x with buf := Tbl.set x.buf line { job := j, data := data } }
  else d

def Dev.dropLine (d : Dev) (u line : Nat) : Dev :=
  let x := d.unit u
  d.setUnit u { x with buf := Tbl.erase x.buf line }

/-- Stores of the unit that satisfy `sel` are accepted, in issue order. -/
def Dev.acceptWhere (d : Dev) (u : Nat) (sel : PendStore → Bool) : Dev :=
  let x := d.unit u
  let d := d.setUnit u { x with stores := x.stores.filter fun p => !sel p }
  (x.stores.filter sel).foldl (fun d p => d.acceptStore p) d

/-! ### Addresses of lanes (R184, R185) -/

def mWidth (n : Nat) : Nat := fld n 31 3
def mScr (n : Nat) : Bool := bit n 30
def mA64 (n : Nat) : Bool := bit n 29
def mSx (n : Nat) : Bool := bit n 28
def mOrd (n : Nat) : Nat := fld n 26 2
def mPackage (n : Nat) : Bool := bit n 25
def mAop (n : Nat) : Nat := fld n 20 5
def mOff (n : Nat) : Int := toSigned 20 (fld n 0 20)

/-- Bytes of a width; B4 is a nibble of one byte. -/
def widthBytes (n : Nat) : Nat := if mWidth n = 0 then 1 else 2 ^ (mWidth n - 1)

/-- One lane's access: lane, address, and for B4 whether it is the high nibble. -/
structure LaneAcc where
  lane : Nat
  addr : Nat
  high : Bool
  /-- its address was misaligned -/
  mis : Bool

def laneAcc (t : TCtx) (l : Nat) : LaneAcc :=
  let n := t.n
  let a : Int := (t.x.vreg l (fA n)).toNat
  let base : Int := (t.x.ureg (fB n)).toNat
  let w := widthBytes n
  if mA64 n then
    let v : Int := (t.x.vreg l (fA n + 1)).toNat * 2 ^ 32 + (t.x.vreg l (fA n)).toNat
    let raw := v + mOff n
    if mWidth n = 0 then { lane := l, addr := (raw % 2 ^ 64).toNat, high := false, mis := false }
    else { lane := l, addr := alignDown (raw % 2 ^ 64).toNat w, high := false, mis := (raw % 2 ^ 64).toNat % w ≠ 0 }
  else if mWidth n = 0 then
    let s := a + mOff n
    { lane := l, addr := ((base + s / 2) % 2 ^ 64).toNat, high := s % 2 = 1, mis := false }
  else
    let raw := ((base + a + mOff n) % 2 ^ 64).toNat
    { lane := l, addr := alignDown raw w, high := false, mis := raw % w ≠ 0 }

/-- Why a memory instruction stops its bundle: status and DETAIL. -/
structure MemStop where
  status : Nat
  detail : Nat

/-- The first lane that stops the instruction (R200). -/
def Dev.memStop (d : Dev) (t : TCtx) (accs : List LaneAcc) (write : Bool) : Option MemStop :=
  let j := t.cmd.job
  if accs.any (·.mis) && d.cget (Cat.THR_MISALIGN_STOP j) = 1 then some ⟨0x30, 40⟩
  else if mScr t.n then
    if accs.all fun a => (d.job j).inScratch t.u a.addr (widthBytes t.n) then none else some ⟨0x30, 40⟩
  else
    match accs.find? fun a => (d.xlate j a.addr write).isNone with
    | some a => some ⟨0x11, a.addr⟩
    | none => none

/-- Physical address of a lane's access that does not stop. -/
def Dev.lanePa (d : Dev) (t : TCtx) (addr : Nat) : Nat :=
  if mScr t.n then unitScratch t.u + addr
  else match d.xlate t.cmd.job addr false with
    | some (pa, _) => pa
    | none => 0

/-- A memory instruction's stop: counted, and a translation fault reported (R207). -/
def Dev.stopMem (d : Dev) (t : TCtx) (s : MemStop) : Dev :=
  let d := if s.status = 0x11 then d.xfault t.cmd.job s.detail else d
  d.stopBundle t.u t.b t.k s.status (s.detail % 2 ^ 52)

def Dev.countMisaligned (d : Dev) (u n : Nat) : Dev :=
  (d.bumpBy (Cat.THR_MISALIGN u) n).bumpBy Cat.THR_MISALIGN_TOTAL n

/-- Poisoned lines that a thread read (R190, R220). -/
def Dev.threadPoison (d : Dev) (t : TCtx) (lines : List Nat) : Dev :=
  let d := (d.cmdPoison t.k lines).bumpBy (Cat.THR_POISON_ZERO t.u) lines.length
  d.bumpBy Cat.THR_POISON_ZERO_TOTAL lines.length

/-! ### Forms (R175, R184 to R189) -/

def mMem : Nat := mA + mB + mk 29 5 + mk 25 3 + mk 0 20

/-- The rules of A64, and of the reserved widths. -/
def memBad (n : Nat) : List Nat :=
  ifBad (5 ≤ mWidth n) 31 ++
    (if mA64 n then ifBad (fB n ≠ 63) 34 ++ ifBad (62 < fA n) 40 ++ ifBad (mScr n) 30 else [])

def ldBad (n : Nat) : List Nat := memBad n ++ ifBad (1 < mOrd n) 26 ++ ifBad (mWidth n = 4 && 62 < fD n) 46
def stBad (n : Nat) : List Nat :=
  memBad n ++ ifBad (mOrd n = 1 || mOrd n = 3) 26 ++ ifBad (mWidth n = 4 && 62 < fD n) 46
def prefBad (n : Nat) : List Nat := memBad n ++ ifBad (mOrd n ≠ 0) 26

/-- Operations of R189 on 64 bits. -/
def aop64 (o : Nat) : Bool := o = 13 || o = 14 || o = 15

def atomBad (n : Nat) : List Nat :=
  let o := mAop n
  memBad n ++ ifBad (16 ≤ o) 20 ++ ifBad (mWidth n ≠ (if aop64 o then 4 else 3)) 31
    ++ ifBad ((o = 12 || o = 13 || o = 14) && 62 < fD n) 46 ++ ifBad (o = 15 && 60 < fD n) 46

/-! ### Limits and orders at issue (R191, R203) -/

def Dev.pendingStores (d : Dev) (u k b : Nat) : List PendStore :=
  (d.unit u).stores.filter fun p => p.cmd = k && p.slot = b

/-- Store instructions of the bundle that are not performed. -/
def Dev.storeCount (d : Dev) (u k b : Nat) : Nat := ((d.pendingStores u k b).map (·.seq)).dedup.length

/-- The context of an instruction that bundle `x` is about to issue. -/
def issuing (u b : Nat) (w : TWord) (c : Cmd) (x : Bundle) : TCtx :=
  { u := u, b := b, k := x.cmd, cmd := c, x := x, n := w.toNat, act := x.active w.toNat }

/-- A request of some active lane would wait: its die retrains, or its host port stalls (R22, R24). A load reads when it
issues, so it waits to issue. -/
def Dev.lanesStalled (d : Dev) (t : TCtx) : Bool :=
  !mScr t.n && t.act.any fun l =>
    match d.xlate t.cmd.job (laneAcc t l).addr false with
    | some (pa, _) => d.stalledAt pa
    | none => false

/-- The bundle may issue a load or an atomic. -/
def loadReady (u b : Nat) (w : TWord) (d : Dev) (c : Cmd) (x : Bundle) : Bool :=
  x.loads < 16 && !d.lanesStalled (issuing u b w c x)

/-- The bundle may issue a prefetch: one by scratch offset does nothing and counts for nothing (R203). -/
def prefReady (u b : Nat) (w : TWord) (d : Dev) (c : Cmd) (x : Bundle) : Bool := mScr w.toNat || loadReady u b w d c x

/-- A release that an instruction carries holds it until the bundle's earlier stores are performed at its scope. -/
def Dev.releaseMet (d : Dev) (u k b n : Nat) : Bool :=
  !(bit (mOrd n) 1) || !mPackage n || (d.pendingStores u k b).isEmpty

def storeReady (u b : Nat) (w : TWord) (d : Dev) (_ : Cmd) (x : Bundle) : Bool :=
  d.storeCount u x.cmd b < 64 && d.releaseMet u x.cmd b w.toNat

def atomReady (u b : Nat) (w : TWord) (d : Dev) (c : Cmd) (x : Bundle) : Bool :=
  loadReady u b w d c x && d.releaseMet u x.cmd b w.toNat

/-- An acquire that an instruction carries: the bundle waits for its loads, and at package scope the job's lines
are then invalidated. -/
def acquireWait (n : Nat) (x : Bundle) : Bundle :=
  if bit (mOrd n) 0 then { x with wait := .fence false true (mPackage n) } else x

/-! ### Scratch banks (R188, R201) -/

/-- A physical address in the unit's own scratch or SRAM (R17, R184). -/
def Dev.ownScratch (d : Dev) (u pa : Nat) : Bool :=
  match d.region pa with
  | .scratch g => g = u
  | .sram i => 64 + i = u
  | _ => false

/-- Banks of 8 bytes of a unit's scratch. -/
def unitBanks (u : Nat) : Nat := if u < 64 then 32 else 128

/-- The largest number of the 8-byte words that lie in one bank. -/
def bankLoad (u : Nat) (words : List Nat) : Nat :=
  ((List.range (unitBanks u)).map fun b => (words.filter fun w => w % unitBanks u = b).length).foldl max 0

/-- Cycles that an access of these lanes to the unit's scratch takes beyond the first: LD and ST by distinct words, ATOM by
lanes. -/
def Dev.bankConflicts (d : Dev) (t : TCtx) (accs : List LaneAcc) (atom : Bool) : Nat :=
  let words := ((accs.map fun a => d.lanePa t a.addr).filter (d.ownScratch t.u)).map fun pa => (pa - unitScratch t.u) / 8
  bankLoad t.u (if atom then words else words.dedup) - 1

def Dev.countBanks (d : Dev) (t : TCtx) (accs : List LaneAcc) (atom : Bool) : Dev :=
  d.bumpBy (Cat.THR_BANK_CONFLICT t.u) (d.bankConflicts t accs atom)

/-! ### LD, PREF -/

/-- Lines that a list of accesses touches, rising by first lane. -/
def Dev.accLines (d : Dev) (t : TCtx) (accs : List LaneAcc) : List Nat :=
  (accs.map fun a => d.lanePa t a.addr / 64).dedup

/-- The value that a lane loads from its line's bytes. -/
def loadBits (n : Nat) (a : LaneAcc) (bytes : List Byte) : DWord :=
  let v := leNat bytes
  match mWidth n with
  | 0 =>
    let q := if a.high then v / 16 % 16 else v % 16
    if mSx n then (BitVec.ofNat 4 q).signExtend 64 else BitVec.ofNat 64 q
  | 1 => if mSx n then (BitVec.ofNat 8 v).signExtend 64 else BitVec.ofNat 64 v
  | 2 => if mSx n then (BitVec.ofNat 16 v).signExtend 64 else BitVec.ofNat 64 v
  | _ => BitVec.ofNat 64 v

def execLdD (u b : Nat) (w : TWord) : Dev → Dev :=
  Dev.thread u b w (mMem + mD + mk 28 1) ldBad (loadReady u b w) fun t d =>
    if t.act.isEmpty then d
    else
    let accs := t.act.map (laneAcc t)
    let d := d.countMisaligned u (accs.filter (·.mis)).length
    match d.memStop t accs false with
    | some s => d.stopMem t s
    | none =>
      let d := d.countBanks t accs false
      let lines := d.accLines t accs
      -- whether a buffered line has been given up is the device's own choice, line by line
      let keeps := (List.range lines.length).map fun i => ((lines[i]?).getD 0, decide (d.free i % 2 = 0))
      let held (p : Nat × Bool) : Bool := p.2 && ((d.unit u).bufLine? t.cmd.job p.1).isSome
      let bad := (keeps.filter fun p => !held p && d.badLine (64 * p.1)).map fun p => 64 * p.1
      let seen : Tbl (List Byte) := keeps.foldl (fun s p => Tbl.set s p.1 (d.unitLine u t.cmd.job p.1 p.2)) []
      let d' := seen.foldl (fun d kv => d.bufferLine u t.cmd.job kv.1 kv.2) (d.takeN lines.length)
      let x := accs.foldl (fun x a =>
        let pa := d.lanePa t a.addr
        let v := loadBits t.n a (((Tbl.getD seen (pa / 64) []).drop (pa % 64)).take (widthBytes t.n))
        let x := x.setV a.lane (fD t.n) (v.setWidth 32)
        if mWidth t.n = 4 then x.setV a.lane (fD t.n + 1) ((v >>> 32).setWidth 32) else x) t.x
      (d'.putBundle t (acquireWait t.n { x with loads := x.loads + 1 })).threadPoison t bad

def execPrefD (u b : Nat) (w : TWord) : Dev → Dev :=
  Dev.thread u b w mMem prefBad (prefReady u b w) fun t d =>
    if mScr t.n || t.act.isEmpty then d
    else
      let accs := (t.act.map (laneAcc t)).filter fun a => (d.xlate t.cmd.job a.addr false).isSome
      let lines := d.accLines t accs
      let d := lines.foldl (fun d l => d.bufferLine u t.cmd.job l (d.unitLine u t.cmd.job l true)) d
      d.putBundle t { t.x with loads := t.x.loads + 1 }

/-! ### ST -/

/-- Bytes and written bits of one lane's store. -/
def storeBytes (t : TCtx) (a : LaneAcc) : List (Byte × Byte) :=
  let lo := (t.x.vreg a.lane (fD t.n)).toNat
  let v := if mWidth t.n = 4 then lo + (t.x.vreg a.lane (fD t.n + 1)).toNat * 2 ^ 32 else lo
  if mWidth t.n = 0 then
    if a.high then [(BitVec.ofNat 8 (v % 16 * 16), 0xF0)] else [(BitVec.ofNat 8 (v % 16), 0x0F)]
  else (leBytes (widthBytes t.n) v).map fun x => (x, 0xFF)

/-- Bytes of one instruction by physical address: the highest lane's bits win (R186). -/
def gather (items : List (Nat × Byte × Byte)) : Tbl (Byte × Byte) :=
  items.foldl (fun t i =>
    let old := Tbl.getD t i.1 (0, 0)
    Tbl.set t i.1 ((old.1 &&& ~~~ i.2.2) ||| (i.2.1 &&& i.2.2), old.2 ||| i.2.2)) []

/-- Runs of consecutive bytes within a line. -/
def runs (slot k j seq : Nat) : Tbl (Byte × Byte) → List PendStore
  | [] => []
  | (pa, v, m) :: t =>
    match runs slot k j seq t with
    | p :: rest =>
      if p.pa = pa + 1 && pa / 64 = p.pa / 64 then { p with pa := pa, data := v :: p.data, mask := m :: p.mask } :: rest
      else { slot := slot, cmd := k, job := j, seq := seq, pa := pa, data := [v], mask := [m] } :: p :: rest
    | [] => [{ slot := slot, cmd := k, job := j, seq := seq, pa := pa, data := [v], mask := [m] }]

/-- A unit's stores update its own read buffer (R187). -/
def Dev.storeToBuffer (d : Dev) (u : Nat) (p : PendStore) : Dev :=
  let x := d.unit u
  match Tbl.find? x.buf (p.pa / 64) with
  | some l => d.setUnit u { x with buf := Tbl.set x.buf (p.pa / 64) { l with data := overLine [p] (p.pa / 64) l.data } }
  | none => d

/-- Stores of an instruction: to the unit's own scratch at once, by scratch offset or by job address, so that every later
access of the unit meets them in issue order (R17, R187, R193); elsewhere into the unit's queue. -/
def Dev.issueStores (d : Dev) (u : Nat) (ps : List PendStore) : Dev :=
  let own (p : PendStore) : Bool := d.ownScratch u p.pa
  let d := (ps.filter own).foldl (fun d p => d.acceptStore p) d
  let rest := ps.filter fun p => !own p
  let d := rest.foldl (fun d p => d.storeToBuffer u p) d
  let x := d.unit u
  d.setUnit u { x with stores := x.stores ++ rest }

def Dev.nextStore (d : Dev) (u : Nat) : Nat := ((d.unit u).stores.map (·.seq)).foldl max 0 + 1

def execStD (u b : Nat) (w : TWord) : Dev → Dev :=
  Dev.thread u b w (mMem + mD) stBad (storeReady u b w) fun t d =>
    let accs := t.act.map (laneAcc t)
    let d := d.countMisaligned u (accs.filter (·.mis)).length
    match d.memStop t accs true with
    | some s => d.stopMem t s
    | none =>
      let items := (accs.map fun a =>
        let pa := d.lanePa t a.addr
        let bs := storeBytes t a
        (List.range bs.length).map fun i => (pa + i, (bs[i]?).getD (0, 0))).flatten
      (d.countBanks t accs false).issueStores u (runs t.b t.k t.cmd.job (d.nextStore u) (gather items))

/-! ### ATOM (R189, R190) -/

/-- The new value of an atomic on 32 bits, with what it counts. -/
def atomOp32 (o : Nat) (old v cmp : Word) : F32 :=
  match o with
  | 0 => intRes (old + v)
  | 1 => f32Add old v
  | 2 => intRes (if old.slt v then v else old)
  | 3 => intRes (if v.slt old then v else old)
  | 4 => intRes (if old.ult v then v else old)
  | 5 => intRes (if v.ult old then v else old)
  | 6 => f32Max old v
  | 7 => f32Min old v
  | 8 => intRes (old &&& v)
  | 9 => intRes (old ||| v)
  | 10 => intRes (old ^^^ v)
  | 11 => intRes v
  | _ => intRes (if old = cmp then v else old)

def atomOp64 (o : Nat) (old v cmp : DWord) : DWord :=
  match o with
  | 13 => old + v
  | 14 => v
  | _ => if old = cmp then v else old

def pairOf (x : Bundle) (l r : Nat) : DWord := (x.vreg l (r + 1)).setWidth 64 <<< 32 ||| (x.vreg l r).setWidth 64

/-- One lane's atomic at its location; on a poisoned line it is not performed and returns zeros. -/
def Dev.atomLane (t : TCtx) (s : Dev × Bundle) (a : LaneAcc) : Dev × Bundle :=
  let (d, x) := s
  let n := t.n
  let pa := d.lanePa t a.addr
  let dr := fD n
  if d.badLine pa then
    let d := d.wrLine pa [0]
    let x := x.setV a.lane dr 0
    (d, if aop64 (mAop n) then x.setV a.lane (dr + 1) 0 else x)
  else if aop64 (mAop n) then
    let old : DWord := BitVec.ofNat 64 (leNat (d.rd pa 8))
    let new := atomOp64 (mAop n) old (pairOf t.x a.lane dr) (pairOf t.x a.lane (dr + 2))
    let d := d.wrLine pa (leBytes 8 new.toNat)
    (d, (x.setV a.lane dr (old.setWidth 32)).setV a.lane (dr + 1) ((old >>> 32).setWidth 32))
  else
    let old : Word := BitVec.ofNat 32 (leNat (d.rd pa 4))
    let r := atomOp32 (mAop n) old (t.x.vreg a.lane dr) (t.x.vreg a.lane (dr + 1))
    let d := (d.wrLine pa (leBytes 4 r.bits.toNat)).countFp t (b2n r.sat) (b2n r.invalid)
    (d, x.setV a.lane dr old)

def execAtomD (u b : Nat) (w : TWord) : Dev → Dev :=
  Dev.thread u b w (mMem + mD + mk 20 5) atomBad (atomReady u b w) fun t d =>
    if t.act.isEmpty then d
    else
    let accs := t.act.map (laneAcc t)
    let d := d.countMisaligned u (accs.filter (·.mis)).length
    match d.memStop t accs true with
    | some s => d.stopMem t s
    | none =>
      let host (a : LaneAcc) : Bool := match d.region (d.lanePa t a.addr) with | .host _ => true | _ => false
      if accs.any host then d.stopBundle t.u t.b t.k 0x31 0
      else
        let d := d.countBanks t accs true
        let lines := d.accLines t accs
        let bad := (lines.filter fun l => d.badLine (64 * l)).map (64 * ·)
        let d := d.acceptWhere u fun p => lines.contains (p.pa / 64)
        let d := lines.foldl (fun d l => d.dropLine u l) d
        let (d, x) := accs.foldl (Dev.atomLane t) (d, t.x)
        (d.putBundle t (acquireWait t.n { x with loads := x.loads + 1 })).threadPoison t bad

/-! ### Fences, barriers, NAP (R191, R194) -/

def fenceKind (n : Nat) : Nat := fld n 0 2

def execFenceD (u b : Nat) (w : TWord) : Dev → Dev :=
  Dev.uniformOp u b w (mk 0 3) (fun n => ifBad (fenceKind n = 0) 0) fun t =>
    let pkg := bit t.n 2
    let acq := bit (fenceKind t.n) 0
    let rel := bit (fenceKind t.n) 1
    { t.x with wait := .fence (rel && pkg) acq (acq && pkg) }

/-- A bundle that waits in a fence goes on when its condition holds; an acquire at package scope invalidates. -/
def execFenceCompleteD (u b : Nat) (d : Dev) : Dev :=
  match d.bundle? u b with
  | none => d
  | some x =>
    match x.wait with
    | .fence stores loads inv =>
      if (stores && !(d.pendingStores u x.cmd b).isEmpty) || (loads && x.loads ≠ 0) then d
      else
        let d := d.setBundle u b { x with wait := .none }
        if inv then d.invalidate u (d.cmdJob x.cmd) else d
    | _ => d

/-- Bundles of a command on a unit, by slot. -/
def Dev.bundlesOf (d : Dev) (u k : Nat) : List Nat :=
  ((d.unit u).bundles.filter fun kb => kb.2.cmd = k).map (·.1)

def Dev.arrived (d : Dev) (u k n : Nat) : List Nat := Tbl.getD (d.unit u).bars (4 * k + n) []

def execBarD (u b : Nat) (w : TWord) : Dev → Dev :=
  Dev.thread u b w (mk 0 3) noBad anyTime fun t d =>
    let n := fld t.n 0 2
    let x := d.unit u
    let arr := d.arrived u t.k n
    let d := d.setUnit u { x with bars := Tbl.set x.bars (4 * t.k + n) (if arr.contains b then arr else b :: arr) }
    d.putBundle t (if bit t.n 2 then { t.x with wait := .bar n } else t.x)

/-- Every bundle of command `k` on the unit has arrived at barrier `n` or ended: the waiting ones go on, and a new
round starts (R67, R194). Idle engines of the command are due to start (R390). -/
def execBarrierCompleteD (u k n : Nat) (d : Dev) : Dev :=
  let arr := d.arrived u k n
  if arr.isEmpty || !((d.bundlesOf u k).all fun b => arr.contains b) then d
  else
    let x := d.unit u
    let d := d.setUnit u { x with
      bars := Tbl.erase x.bars (4 * k + n),
      bundles := Tbl.mapVals (fun _ y => if y.cmd = k && y.wait = .bar n then { y with wait := .none } else y) x.bundles }
    d.engineDue u (d.ownedEngines u k)

def execNapD (u b : Nat) (w : TWord) : Dev → Dev :=
  Dev.thread u b w (mk 0 14) noBad anyTime fun t d =>
    if t.act.isEmpty then d
    else d.putBundle t { t.x with
      wait := .nap, napEnd := d.now + d.cyclesToUnits (dieOfUnit u) (fImm14 t.n) }

def execNapEndD (u b : Nat) (d : Dev) : Dev :=
  match d.bundle? u b with
  | none => d
  | some x =>
    if x.wait = .nap then (d.advance x.napEnd).setBundle u b { x with wait := .none, napEnd := 0 } else d

end Sys2Proof.Machine
end

