-- ==== Sys2Proof/Machine/Tensor.lean ====
section
/-! DEFINITION. Matrix engines (R100 to R131, R195, R196, R245, R248): the tensor instruction word and its checks,
the queue of an engine, and what MMA, LOAD, STORE, RELEASE and DEBUG_READ do. -/

namespace Sys2Proof.Machine

/-! ### Shapes, pairs, the word (R100, R103, R110, R112) -/

/-- M, N and the number of chains of a shape. -/
def shapeDims : Nat → Nat × Nat × Nat
  | 0 => (32, 64, 1) | 1 => (64, 32, 1) | 2 => (16, 64, 2) | 3 => (32, 32, 2) | 4 => (16, 32, 4) | _ => (8, 64, 4)

/-- The pairs that an engine accepts: two floating-point formats but FP32, or two integer formats. -/
def pairOk (a b : Nat) : Bool :=
  (1 ≤ a && a ≤ 5 && 1 ≤ b && b ≤ 5) || ((a = 6 || a = 7) && (b = 6 || b = 7))

def tOp (n : Nat) : Nat := fld n 124 4
def tEngine (n : Nat) : Nat := fld n 121 3
def tAcc (n : Nat) : Nat := fld n 116 5
def tFmtA (n : Nat) : Nat := fld n 112 4
def tFmtB (n : Nat) : Nat := fld n 108 4
def tShape (n : Nat) : Nat := fld n 105 3
def tBlk (n : Nat) : Nat := if bit n 104 then 16 else 32
def tZero (n : Nat) : Bool := bit n 103
def tSr (n : Nat) : Bool := bit n 102
def tSat (n : Nat) : Bool := bit n 101
def tRowA (n : Nat) : Bool := bit n 100
def tColB (n : Nat) : Bool := bit n 99
def tBlocks (n : Nat) : Nat := fld n 84 12
def tInt (n : Nat) : Bool := isInt (tFmtA n)
def oFmt (n : Nat) : Nat := fld n 112 4
def oFuseFmt (n : Nat) : Nat := fld n 108 4
def oFuse (n : Nat) : Nat := fld n 106 2
def oBlk (n : Nat) : Nat := if bit n 105 then 16 else 32
def oDimM (n : Nat) : Bool := bit n 104
def oSr (n : Nat) : Bool := bit n 103
def oKeep (n : Nat) : Bool := bit n 102
def oStat (n : Nat) : Nat := fld n 80 8

/-- Bytes of an address field that starts at bit `lo`, from the base of the unit's scratch (R102, R110). -/
def tAddr (u n lo : Nat) : Nat := fld n lo 16 * unitGranule u

/-! ### Layouts (R111, R121, R248) -/

/-- Bytes of a slab. -/
def slabBytes (fmt x blk : Nat) : Nat := x * blk * fmtWidth fmt / 8

/-- Bytes of an engine-ready operand of `blocks` blocks. -/
def operandBytes (fmt x blk blocks : Nat) : Nat :=
  blocks * slabBytes fmt x blk + if isBlock fmt then ceilDiv blocks (128 / x) * 64 else 0

/-- Where slab `i` of an operand starts. -/
def slabAt (fmt x blk i : Nat) : Nat :=
  i * slabBytes fmt x blk + if isBlock fmt then i / (128 / x) * 64 else 0

/-- Where the offset granule of slab `i`'s group starts. -/
def offsetsAt (fmt x blk blocks i : Nat) : Nat :=
  let g := 128 / x
  let last := min blocks (i / g * g + g)
  last * slabBytes fmt x blk + i / g * 64

/-- Element `pos` of packed elements of `w` bits. -/
def packedAt (bytes : List Byte) (w pos : Nat) : Nat :=
  if w = 4 then ((bytes[pos / 2]?).getD 0).toNat / 16 ^ (pos % 2) % 16
  else leNat ((bytes.drop (pos * (w / 8))).take (w / 8))

/-- Row pitch in bytes of a row layout: whole 64-byte granules (R121). -/
def rowPitch (n w : Nat) : Nat := ceilDiv (n * w) 512 * 64

/-- Packed elements of `w` bits as bytes. -/
def packElems (w : Nat) : List Nat → List Byte
  | [] => []
  | [a] => if w = 4 then [BitVec.ofNat 8 (a % 16)] else leBytes (w / 8) a
  | a :: b :: t =>
    if w = 4 then BitVec.ofNat 8 (a % 16 + b % 16 * 16) :: packElems w t
    else leBytes (w / 8) a ++ (leBytes (w / 8) b ++ packElems w t)

/-- Bytes that a STORE writes: rows, and the block offsets behind them. -/
def storeExtent (fmt m n blk : Nat) : Nat :=
  m * rowPitch n (fmtWidth fmt) + if isBlock fmt then m * n / blk / 2 else 0

/-! ### Scale records (R113) -/

/-- The header of a scale record is well formed for a format. -/
def scaleHeadOk (fmt h : Nat) : Bool :=
  let z := fld h 0 8
  fld h 96 416 = 0 && fld h 8 56 = 0 &&
    (if fmt = 6 then true else if fmt = 7 then fld z 4 4 = (if bit z 3 then 15 else 0) else z = 0)

/-! ### Reading as an engine does (R127, R245) -/

/-- A buffer that a live slip of the command declares, and that is not FULL, overlaps these bytes of scratch. -/
def Dev.bufHeld (d : Dev) (u k start len : Nat) : Bool :=
  (d.unit u).mover.decls.any fun y =>
    y.cmd = k && y.st ≠ .full && y.start < start + len && start < y.start + y.len

def Dev.engRead (d : Dev) (u off n : Nat) : List Byte := d.rd (unitScratch u + off) n

/-- A counter of an engine and its total. -/
def Dev.engBump (d : Dev) (key total n : Nat) : Dev := (d.bumpBy key n).bumpBy total n

/-- Poisoned lines that an engine read. -/
def Dev.engPoison (d : Dev) (k u e off n : Nat) : Dev :=
  let bad := d.badLines (unitScratch u + off) n
  (d.cmdPoison k (bad.map (64 * ·))).engBump (Cat.ENG_POISON_ZERO u e) Cat.ENG_POISON_ZERO_TOTAL bad.length

/-! ### Checks at decode (R114) -/

/-- What a tile will be when the queued instructions have run: none is FREE, else its type and shape (R107). -/
def tileAfter (acc : Nat) (st : Option (Bool × Nat)) (n : Nat) : Option (Bool × Nat) :=
  if tAcc n ≠ acc then st
  else
    match tOp n with
    | 0 => if tZero n then some (tInt n, tShape n) else st
    | 1 => some (tInt n, tShape n)
    | 2 => if oKeep n then st else none
    | 3 => none
    | _ => st

/-- The state of a tile as a check sees it: none is FREE, else its type and shape (R107). -/
def Dev.tileNow (d : Dev) (u e acc : Nat) : Option (Bool × Nat) :=
  (Tbl.find? (d.engine u e).tiles acc).map fun t => (t.isInt, t.shape)

def Dev.specTile (d : Dev) (u e acc : Nat) : Option (Bool × Nat) :=
  let x := d.engine u e
  (x.queue.filter fun q => !q.started).foldl (fun s q => tileAfter acc s q.word) (d.tileNow u e acc)

/-- Bytes from `off` lie outside the job's scratch on the unit: the offending field. -/
def outside (x : Job) (u off len lo : Nat) : List Nat := ifBad (!x.inScratch u off len) lo

/-- A scale record that is not held back by a buffer is ill formed: the field that points to it. -/
def Dev.scaleBad (d : Dev) (u k fmt off lo : Nat) : List Nat :=
  if d.bufHeld u k off 64 then [] else ifBad (!scaleHeadOk fmt (leNat (d.engRead u off 64))) lo

/-- The state of a tile forbids a word (R107): the offending bits. -/
def stateBad (n : Nat) (tile : Option (Bool × Nat)) : List Nat :=
  match tOp n, tile with
  | 0, none => ifBad (!tZero n) 103
  | 0, some (i, sh) => if tZero n then [] else ifBad (sh ≠ tShape n) 105 ++ ifBad (i ≠ tInt n) 108
  | 2, none => [116]
  | _, _ => []

/-- Offending bits of an MMA or a LOAD in the word itself and in the scale records it points to. Where the shape, a format
or the block count is at fault, the extent that a field implies is not defined: its first byte stands for it. -/
def Dev.operandBad (d : Dev) (u k : Nat) (c : Cmd) (n : Nat) : List Nat :=
  let j := d.job c.job
  let mma := tOp n = 0
  let (m, nn, _) := shapeDims (tShape n)
  let sized := tShape n < 6
  let extent (b : Bool) (len : Nat) : Nat := if sized && b then len else 1
  let operand (lo fmt x : Nat) : List Nat :=
    outside j u (tAddr u n lo) (extent (fmt < 8 && 0 < tBlocks n) (operandBytes fmt x (tBlk n) (tBlocks n))) lo
  let record (lo fmt len : Nat) : List Nat :=
    outside j u (tAddr u n lo) len lo
      ++ (if j.inScratch u (tAddr u n lo) 64 && fmt < 8 then d.scaleBad u k fmt (tAddr u n lo) lo else [])
  let head := ifBad (!pairOk (tFmtA n) (tFmtB n)) 108 ++ ifBad (6 ≤ tShape n) 105 ++ ifBad (!mma && tZero n) 103
    ++ ifBad (tInt n && tSr n) 102 ++ ifBad (!tInt n && tSat n) 101 ++ setBitsAt n 96 3
    ++ ifBad (if mma then tBlocks n = 0 else tBlocks n ≠ 0) 84 ++ setBitsAt n 80 4 ++ setBitsAt n 0 16
    ++ ifBad (!mma && fld n 32 16 ≠ 0) 32
  head
    ++ (if mma then operand 16 (tFmtA n) m ++ operand 32 (tFmtB n) nn
        else outside j u (tAddr u n 16) (extent true (m * nn * 4)) 16)
    ++ (if mma && !tZero n then []
        else record 48 (tFmtA n) (64 + extent true (if tRowA n then 4 * m else 0))
          ++ record 64 (tFmtB n) (64 + extent true (if tColB n then 4 * nn else 0)))

/-- Offending bits of a STORE in the word itself and in the scale record it points to; the tile, when it is OPEN, gives
the extents. -/
def Dev.outputBad (d : Dev) (u k : Nat) (c : Cmd) (n : Nat) (tile : Option (Bool × Nat)) : List Nat :=
  let j := d.job c.job
  let block := isBlock (oFmt n)
  let extent (b : Bool) (len : Nat → Nat → Nat) : Nat :=
    match tile with
    | some (_, sh) => if b then len (shapeDims sh).1 (shapeDims sh).2.1 else 1
    | none => 1
  ifBad (8 ≤ oFmt n) 112 ++ ifBad (3 ≤ oFuseFmt n || (oFuse n = 0 && oFuseFmt n ≠ 0)) 108
    ++ ifBad (oFuse n = 3) 106 ++ ifBad (!block && bit n 105) 105 ++ ifBad (!block && oDimM n) 104
    ++ setBitsAt n 88 13 ++ ifBad (oFmt n ≤ 2 && fld n 64 16 ≠ 0) 64 ++ ifBad (oFuse n = 0 && fld n 48 16 ≠ 0) 48
    ++ setBitsAt n 0 32
    ++ (match tile with
        | some (_, sh) => ifBad (block && (if oDimM n then (shapeDims sh).1 else (shapeDims sh).2.1) % oBlk n ≠ 0) 104
        | none => [])
    ++ outside j u (tAddr u n 32) (extent (oFmt n < 8) fun m nn => storeExtent (oFmt n) m nn (oBlk n)) 32
    ++ (if oFuse n = 0 then []
        else outside j u (tAddr u n 48) (extent (oFuseFmt n < 3) fun m nn => m * rowPitch nn (fmtWidth (oFuseFmt n))) 48)
    ++ (if oFmt n ≤ 2 || 8 ≤ oFmt n then []
        else if !j.inScratch u (tAddr u n 64) 64 then [64]
        else d.scaleBad u k (oFmt n) (tAddr u n 64) 64)

/-- All offending bits of a word whose tile is in a given state; `tile` is none where the command has no such engine. -/
def Dev.wordBad (d : Dev) (u k : Nat) (c : Cmd) (n : Nat) (tile : Option (Option (Bool × Nat))) : List Nat :=
  ifBad tile.isNone 121 ++
    if 5 ≤ tOp n then ifBad (24 ≤ tAcc n) 116 ++ [124]
    else
      ifBad (24 ≤ tAcc n) 116 ++ (match tile with | some t => stateBad n t | none => []) ++
        match tOp n with
        | 2 => d.outputBad u k c n (tile.getD none)
        | 3 => setBitsAt n 0 116
        | 4 => setBitsAt n 48 68 ++ setBitsAt n 0 32 ++ outside (d.job c.job) u (tAddr u n 32) 8256 32
        | _ => d.operandBad u k c n

/-- All offending bits of a word on the engine it names, as they are when it is issued. -/
def Dev.tensorBad (d : Dev) (u k e : Nat) (c : Cmd) (n : Nat) : List Nat :=
  d.wordBad u k c n (some (d.specTile u e (tAcc n)))

/-! ### TENS and TWAIT (R195, R196) -/

/-- The word that TENS issues. -/
def tensWord (x : Bundle) (n : Nat) : Nat := (x.ureg (fA n)).toNat * 2 ^ 64 + (x.ureg (fB n)).toNat

/-- The engine that a word names, when the command has it (R106). -/
def Dev.wordEngine (d : Dev) (u k n : Nat) : Option Nat := (d.ownedEngines u k)[tEngine n]?

/-- A rejected word: counted, and the bundle stops. -/
def Dev.rejectWord (d : Dev) (u b k e status detail : Nat) : Dev :=
  (d.engBump (Cat.ENG_REJECT u e) Cat.ENG_REJECT_TOTAL 1).stopRejected u b k status detail

def execTensD (u b : Nat) (w : TWord) : Dev → Dev :=
  Dev.thread u b w (mA + mB) noBad
    (fun d _ x =>
      (x.active w.toNat).isEmpty ||
        match d.wordEngine u x.cmd (tensWord x w.toNat) with
        | none => true
        | some e => (d.engine u e).queue.length < 16)
    fun t d =>
      if t.act.isEmpty then d
      else
        let n := tensWord t.x t.n
        let named := d.wordEngine u t.k n
        if tOp n = 4 && d.cget (Cat.ENG_ACC_DEBUG t.cmd.job) = 0 then
          d.rejectWord u b t.k (named.getD (tEngine n)) 0x31 0
        else
          match named with
          | none => d.rejectWord u b t.k (tEngine n) 0x30 ((d.wordBad u t.k t.cmd n none).min?.getD 121)
          | some e =>
            match (d.tensorBad u t.k e t.cmd n).min? with
            | some o => d.rejectWord u b t.k e 0x30 o
            | none =>
              let x := d.engine u e
              let d := d.setEngine u e { x with queue := x.queue ++ [{ slot := b, word := n, started := false }] }
              d.putBundle t { t.x with tens := Tbl.set t.x.tens (tEngine n) (Tbl.getD t.x.tens (tEngine n) 0 + 1) }

def execTwaitD (u b : Nat) (w : TWord) : Dev → Dev :=
  Dev.uniformOp u b w (mk 0 8) noBad fun t =>
    let e := fld t.n 0 3
    let n := fld t.n 3 5
    if Tbl.getD t.x.tens e 0 ≤ n then t.x else { t.x with wait := .twait e n }

/-! ### Execution: what starts, and when (R131) -/

/-- Mark the `i`-th entry of a queue started. -/
def startEntry : List TensorEntry → List TensorEntry
  | [] => []
  | q :: t => if q.started then q :: startEntry t else { q with started := true } :: t

/-- The command that owns the engine, and the first entry that has not started. -/
def Dev.nextTensor (d : Dev) (u e : Nat) : Option (Nat × Cmd × TensorEntry) :=
  match (d.engine u e).owner, (d.engine u e).queue.find? (fun q => !q.started) with
  | some k, some q => (d.cmd? k).map fun c => (k, c, q)
  | _, _ => none

/-- Started entries of the engine that satisfy `p`. -/
def Dev.startedTensors (d : Dev) (u e : Nat) (p : Nat → Bool) : List TensorEntry :=
  (d.engine u e).queue.filter fun q => q.started && p q.word

/-- Limits of R131 on the next instruction. -/
def Dev.mayStart (d : Dev) (u e n : Nat) : Bool :=
  let onTile (w : Nat) : Bool := tAcc w = tAcc n
  let drains (w : Nat) : Bool := tOp w = 2 || tOp w = 4
  if tOp n ≤ 1 then (d.startedTensors u e fun w => drains w && onTile w).isEmpty
  else
    (d.startedTensors u e fun w => tOp w = 0 && onTile w).isEmpty
      && (!drains n || (d.startedTensors u e drains).length < 2)

/-- The scratch ranges that an instruction reads. -/
def tensorReads (u n : Nat) (tile : Option Tile) : List (Nat × Nat) :=
  let (m, nn, _) := shapeDims (tShape n)
  let scales := [(tAddr u n 48, 64 + if tRowA n then 4 * m else 0), (tAddr u n 64, 64 + if tColB n then 4 * nn else 0)]
  match tOp n with
  | 0 => [(tAddr u n 16, operandBytes (tFmtA n) m (tBlk n) (tBlocks n)),
          (tAddr u n 32, operandBytes (tFmtB n) nn (tBlk n) (tBlocks n))] ++ if tZero n then scales else []
  | 1 => (tAddr u n 16, m * nn * 4) :: scales
  | 2 =>
    match tile with
    | none => []
    | some t =>
      let (m, nn, _) := shapeDims t.shape
      (if oFuse n = 0 then [] else [(tAddr u n 48, m * rowPitch nn (fmtWidth (oFuseFmt n)))])
        ++ if 3 ≤ oFmt n then [(tAddr u n 64, 64)] else []
  | _ => []

/-- The instruction at the front of an engine's queue, whose OP is `op`, executes: `run` is its effect. Its reads
wait for their buffers (R245), its lines from poison are counted; its MACs wait for the Cuff (R391). -/
def Dev.tensor (op : Nat) (run : (k : Nat) → Cmd → TensorEntry → Dev → Dev) (at_ u e : Nat) (d : Dev) : Dev :=
  let d := d.advance at_
  match d.nextTensor u e with
  | none => d
  | some (k, c, q) =>
    let n := q.word
    let reads := tensorReads u n (Tbl.find? (d.engine u e).tiles (tAcc n))
    if tOp n ≠ op || !d.mayStart u e n || (op = 0 && (d.engine u e).ramp = .held)
        || reads.any (fun r => d.bufHeld u k r.1 r.2) then d
    else
      let x := d.engine u e
      let d := d.setEngine u e { x with queue := startEntry x.queue }
      let d := reads.foldl (fun d r => d.engPoison k u e r.1 r.2) d
      run k c q d

/-- The bundle that issued an instruction counts it complete, and a TWAIT that this meets ends. -/
def Dev.tensDone (d : Dev) (u k : Nat) (q : TensorEntry) : Dev :=
  match d.bundle? u q.slot with
  | none => d
  | some x =>
    if x.cmd ≠ k then d
    else
      let left := Tbl.getD x.tens (tEngine q.word) 0 - 1
      let met : Bool := match x.wait with | .twait e n => e = tEngine q.word && left ≤ n | _ => false
      d.setBundle u q.slot { x with
        tens := if left = 0 then Tbl.erase x.tens (tEngine q.word) else Tbl.set x.tens (tEngine q.word) left,
        wait := if met then .none else x.wait }

/-- The oldest started instruction of an engine is complete (R196). -/
def Dev.completeTensor (d : Dev) (u e : Nat) : Dev :=
  let x := d.engine u e
  match x.owner, x.queue.find? (·.started) with
  | some k, some q =>
    let d := d.setEngine u e { x with
      queue := eraseFirst (·.started) x.queue, lastMac := if tOp q.word = 0 then some d.now else x.lastMac }
    (d.tensDone u k q).checkPart u k
  | _, _ => d

def execTensorCompleteD (at_ u e : Nat) (d : Dev) : Dev := (d.advance at_).completeTensor u e

/-- A word found at fault only when its turn came, by its scale record or the state of its tile: it is not executed
(R107, R114). -/
def Dev.lateReject (d : Dev) (u k e : Nat) (q : TensorEntry) (detail : Nat) : Dev :=
  let d := d.engBump (Cat.ENG_REJECT u e) Cat.ENG_REJECT_TOTAL 1
  let d := d.updCmd k fun c => c.raise 0x30 detail
  let d := match d.bundle? u q.slot with
    | some x => if x.cmd = k then d.endBundle u q.slot k else d
    | none => d
  let x := d.engine u e
  (d.setEngine u e { x with queue := eraseFirst (· = { q with started := true }) x.queue }).checkPart u k

/-! ### Opening a tile (R107, R108) -/

/-- Scales of a record: one, or one per row or column. -/
def Dev.latchScales (d : Dev) (u off count : Nat) (per : Bool) : List Word :=
  if per then (List.range count).map fun i => BitVec.ofNat 32 (leNat (d.engRead u (off + 64 + 4 * i) 4))
  else [BitVec.ofNat 32 (leNat (d.engRead u (off + 8) 4))]

def Dev.latchZero (d : Dev) (u off fmt : Nat) : Int := zeroPoint fmt (leNat (d.engRead u off 1))

/-- The tile that an instruction opens. -/
def Dev.openTile (d : Dev) (u n : Nat) : Tile :=
  let (m, nn, _) := shapeDims (tShape n)
  { isInt := tInt n, shape := tShape n, sa := d.latchScales u (tAddr u n 48) m (tRowA n),
    sb := d.latchScales u (tAddr u n 64) nn (tColB n), za := d.latchZero u (tAddr u n 48) (tFmtA n),
    zb := d.latchZero u (tAddr u n 64) (tFmtB n), blocks := 0, acc := [] }

/-- The lowest offending bit of an instruction when it executes: what the scale records hold, and the state of its tile,
may have changed since it was issued. -/
def Dev.openBad (d : Dev) (u k e : Nat) (c : Cmd) (n : Nat) : Option Nat :=
  (d.wordBad u k c n (some (d.tileNow u e (tAcc n)))).min?

def Tile.at_ (t : Tile) (p m n : Nat) : Word :=
  let (mm, nn, _) := shapeDims t.shape
  Tbl.getD t.acc ((p * mm + m) * nn + n) 0

def setAcc (acc : Tbl Word) (key : Nat) (v : Word) : Tbl Word := if v = 0 then Tbl.erase acc key else Tbl.set acc key v

def Dev.setTile (d : Dev) (u e acc : Nat) (t : Tile) : Dev :=
  let x := d.engine u e
  d.setEngine u e { x with tiles := Tbl.set x.tiles acc t }

def Dev.freeTile (d : Dev) (u e acc : Nat) : Dev :=
  let x := d.engine u e
  d.setEngine u e { x with tiles := Tbl.erase x.tiles acc }

/-! ### MMA (R116, R117, R123 to R126) -/

/-- The exact sum of a block's products, with what it reports. -/
structure BlockSum where
  v : FVal
  invalid : Bool
  nanIn : Bool

def blockSum (ps : List (FVal × FVal)) : BlockSum :=
  let prods := ps.map fun p => p.1.mul p.2
  let nanIn := ps.any fun p => p.1.isNaN || p.2.isNaN
  let pos := prods.any fun p => p.1 = .inf false
  let neg := prods.any fun p => p.1 = .inf true
  let inv := prods.any (·.2) || (pos && neg)
  if nanIn || inv then ⟨.nan, inv, nanIn⟩
  else if pos then ⟨.inf false, false, false⟩
  else if neg then ⟨.inf true, false, false⟩
  else ⟨prods.foldl (fun s p => (s.add p.1).1) (.fin true 0 1 0), false, false⟩

/-- What an MMA has done so far: chains, counts, and the block of its first invalid operation. -/
structure MmaRes where
  acc : Tbl Word
  invalid : Nat := 0
  nan : Nat := 0
  sat : Nat := 0
  limit : Nat := 0
  first : Option Nat := none

/-- An operand in scratch: its bytes, format, outer extent, block size and number of blocks. -/
structure Operand where
  bytes : List Byte
  fmt : Nat
  x : Nat
  blk : Nat
  blocks : Nat

/-- Element k of row x of slab i. -/
def Operand.elem (o : Operand) (i x k : Nat) : Nat :=
  packedAt (o.bytes.drop (slabAt o.fmt o.x o.blk i)) (fmtWidth o.fmt) (x * o.blk + k)

/-- The 4-bit offset of slab i, row x; 0 for formats without. -/
def Operand.offset (o : Operand) (i x : Nat) : Nat :=
  if isBlock o.fmt then
    packedAt (o.bytes.drop (offsetsAt o.fmt o.x o.blk o.blocks i)) 4 (i % (128 / o.x) * o.x + x)
  else 0

/-- A 32-bit two's complement sum, saturated or wrapped; true when it was limited. -/
def intLimit (sat : Bool) (v : Int) : Word × Bool :=
  let out := v < -2147483648 || 2147483647 < v
  if out && sat then (if v < 0 then 0x80000000 else 0x7FFFFFFF, true) else (BitVec.ofInt 32 v, out)

/-- One block addition into one element: block `i` of the instruction, number `b` from the opening. -/
def mmaStep (t : Tile) (n : Nat) (a b : Operand) (rnd : Nat → Rnd) (i num m nn : Nat) (r : MmaRes) : MmaRes :=
  let (mm, nc, s) := shapeDims t.shape
  let key := ((num % s) * mm + m) * nc + nn
  let c := Tbl.getD r.acc key 0
  let ks := List.range (tBlk n)
  if t.isInt then
    let sum := (ks.map fun k =>
      (decodeI a.fmt (a.elem i m k) - t.za) * (decodeI b.fmt (b.elem i nn k) - t.zb)).sum
    let (v, lim) := intLimit (tSat n) (c.toInt + sum)
    { r with acc := setAcc r.acc key v, limit := r.limit + b2n lim }
  else
    let bs := blockSum (ks.map fun k => (decodeF a.fmt (a.elem i m k), decodeF b.fmt (b.elem i nn k)))
    let e : Int := -((a.offset i m + b.offset i nn : Nat) : Int)
    let (v, inv) := (f32 c).add (bs.v.scale e)
    let res := F32.round (rnd ((i * mm + m) * nc + nn)) (v, inv)
    let bad := bs.invalid || inv
    { r with
      acc := setAcc r.acc key res.bits, invalid := r.invalid + b2n bad, nan := r.nan + b2n bs.nanIn,
      sat := r.sat + b2n res.sat, first := if bad && r.first.isNone then some num else r.first }

/-- All block additions of an MMA, block by block. -/
def mmaRun (t : Tile) (n : Nat) (a b : Operand) (rnd : Nat → Rnd) : MmaRes :=
  let (mm, nc, _) := shapeDims t.shape
  (List.range a.blocks).foldl (fun r i =>
    (List.range (mm * nc)).foldl (fun r mn => mmaStep t n a b rnd i (t.blocks + i) (mn / nc) (mn % nc) r) r)
    { acc := t.acc }

/-- The first invalid operation of a command: earliest stamp, then group, engine, tile, block (R124); DETAIL (R96). -/
def Cmd.noteInvalid (c : Cmd) (stamp u e acc num : Nat) : Cmd :=
  let g := if u < 64 then u else u - 64
  let key := ((g * 8 + e) * 32 + acc) * 2 ^ 33 + num
  let detail := num % 2 ^ 32 * 2 ^ 32 + g * 2 ^ 16 + e * 2 ^ 8 + acc
  match c.invalid with
  | none => { c with invalid := some (stamp, key) }.raise 0x02 detail
  | some (s, q) =>
    if stamp < s || (stamp = s && key < q) then
      { c with invalid := some (stamp, key), detail := if c.status = 0x02 then detail else c.detail }
    else c

/-- Invalid operations of an engine, counted and reported. -/
def Dev.engInvalid (d : Dev) (k : Nat) (c : Cmd) (u e acc count num : Nat) : Dev :=
  if count = 0 then d
  else
    let d := d.engBump (Cat.ENG_INVALID u e) Cat.ENG_INVALID_TOTAL count
    let j := d.job c.job
    let d := d.setJob c.job { j with invalids := j.invalids + count }
    let stamp := d.stamp
    d.updCmd k fun c => c.noteInvalid stamp u e acc num

/-- Cycles that the MAC array advances for `n` blocks (R129). -/
def macCycles (u w n : Nat) : Nat :=
  let (_, _, s) := shapeDims (tShape w)
  let width := max (fmtWidth (tFmtA w)) (fmtWidth (tFmtB w))
  ceilDiv n s * (4 * width) / (if tBlk w = 16 then 2 else 1) * (if u < 64 then 1 else 2)

def execMmaD : Nat → Nat → Nat → Dev → Dev := fun at_ u e d =>
  Dev.tensor 0 (fun k c q d =>
    let n := q.word
    match d.openBad u k e c n with
    | some o => d.lateReject u k e q o
    | none =>
      let t := if tZero n then d.openTile u n else (Tbl.find? (d.engine u e).tiles (tAcc n)).getD (d.openTile u n)
      let (m, nn, _) := shapeDims t.shape
      let blocks := tBlocks n
      let operand (lo fmt x : Nat) : Operand :=
        { bytes := d.engRead u (tAddr u n lo) (operandBytes fmt x (tBlk n) blocks), fmt := fmt, x := x, blk := tBlk n,
          blocks := blocks }
      let draws := blocks * m * nn
      let rnd (i : Nat) : Rnd := if tSr n then .stochastic (d.draw (genBlock u e i) i) else .nearest
      let r := mmaRun t n (operand 16 (tFmtA n) m) (operand 32 (tFmtB n) nn) rnd
      let d := if tSr n then d.drawn ((List.range draws).map (genBlock u e)) else d
      let d := d.setTile u e (tAcc n) { t with acc := r.acc, blocks := t.blocks + blocks }
      let d := d.engBump (Cat.ENG_NAN_IN u e) Cat.ENG_NAN_IN_TOTAL r.nan
      let d := d.engBump (Cat.ENG_OVERFLOW_SAT u e) Cat.ENG_OVERFLOW_SAT_TOTAL r.sat
      let d := d.engBump (Cat.ENG_INT_LIMIT u e) Cat.ENG_INT_LIMIT_TOTAL r.limit
      let d := if u < 64 then d
        else (d.bumpBy (Cat.NMU_BLOCKS (u - 64)) blocks).bumpBy (Cat.NMU_BUSY_CYCLES (u - 64)) (macCycles u n blocks)
      d.engInvalid k c u e (tAcc n) r.invalid (r.first.getD 0)) at_ u e d

/-! ### LOAD, RELEASE, DEBUG_READ (R111, R128) -/

def execLoadD : Nat → Nat → Nat → Dev → Dev := fun at_ u e d =>
  Dev.tensor 1 (fun k c q d =>
    let n := q.word
    match d.openBad u k e c n with
    | some o => d.lateReject u k e q o
    | none =>
      let t := d.openTile u n
      let (m, nn, _) := shapeDims t.shape
      let bytes := d.engRead u (tAddr u n 16) (m * nn * 4)
      let acc := (List.range (m * nn)).foldl (fun a i => setAcc a i (BitVec.ofNat 32 (packedAt bytes 32 i))) []
      d.setTile u e (tAcc n) { t with acc := acc }) at_ u e d

def execReleaseD : Nat → Nat → Nat → Dev → Dev := fun at_ u e d =>
  Dev.tensor 3 (fun k _ q d =>
    let d := d.freeTile u e (tAcc q.word)
    let x := d.engine u e
    let d := d.setEngine u e { x with queue := eraseFirst (· = { q with started := true }) x.queue }
    (d.tensDone u k q).checkPart u k) at_ u e d

/-- The debug view of a tile: the header, and the raw chains. -/
def debugBytes : Option Tile → List Byte
  | none => List.replicate 8256 0
  | some t =>
    leBytes 64 (2 ^ 36 + b2n t.isInt * 2 ^ 35 + t.shape * 2 ^ 32 + t.blocks % 2 ^ 32)
      ++ ((List.range 2048).map fun i => leBytes 4 (Tbl.getD t.acc i 0).toNat).flatten

def execDebugReadD : Nat → Nat → Nat → Dev → Dev := fun at_ u e d =>
  Dev.tensor 4 (fun _ _ q d =>
    d.wr (unitScratch u + tAddr u q.word 32) (debugBytes (Tbl.find? (d.engine u e).tiles (tAcc q.word)))) at_ u e d

/-! ### STORE (R118 to R122) -/

/-- A value of the epilogue, with what it reports. -/
structure Epi where
  v : FVal
  invalid : Bool := false
  sat : Nat := 0
  limit : Nat := 0

/-- One rounding to FP32 (R119). -/
def Epi.round (x : Epi) (r : FVal × Bool) : Epi :=
  let f := F32.round .nearest r
  { x with v := f32 f.bits, invalid := x.invalid || f.invalid, sat := x.sat + b2n f.sat }

/-- Chains merged pairwise (R118). -/
def mergeFloat (a b : Epi) : Epi :=
  let x : Epi := { v := a.v, invalid := a.invalid || b.invalid, sat := a.sat + b.sat }
  x.round (a.v.add b.v)

def mergeInt (sat : Bool) (a b : Int × Nat) : Int × Nat :=
  let (v, lim) := intLimit sat (a.1 + b.1)
  (v.toInt, a.2 + b.2 + b2n lim)

/-- The merged value of element (m, n). -/
def mergeTile (t : Tile) (sat : Bool) (m n : Nat) : Epi :=
  let (_, _, s) := shapeDims t.shape
  if t.isInt then
    let c (p : Nat) : Int × Nat := ((t.at_ p m n).toInt, 0)
    let r := match s with
      | 1 => c 0
      | 2 => mergeInt sat (c 0) (c 1)
      | _ => mergeInt sat (mergeInt sat (c 0) (c 1)) (mergeInt sat (c 2) (c 3))
    { v := FVal.ofInt r.1, limit := r.2 }
  else
    let c (p : Nat) : Epi := { v := f32 (t.at_ p m n) }
    match s with
    | 1 => c 0
    | 2 => mergeFloat (c 0) (c 1)
    | _ => mergeFloat (mergeFloat (c 0) (c 1)) (mergeFloat (c 2) (c 3))

/-- Steps 1 to 3 of the epilogue for one element; `f` is its fused operand. -/
def epilogue (t : Tile) (w m n : Nat) (f : FVal) : Epi :=
  let x := mergeTile t (tSat w) m n
  let sa := f32 ((t.sa[m]?).getD ((t.sa[0]?).getD 0))
  let sb := f32 ((t.sb[n]?).getD ((t.sb[0]?).getD 0))
  let c := x.v
  let y := x.round (sa.mul sb)
  let (p, i) := c.mul y.v
  match oFuse w with
  | 0 => y.round (p, i)
  | 1 =>
    let (q, j) := p.add f
    y.round (q, i || j)
  | _ =>
    let z := y.round (p, i)
    z.round (z.v.mul f)

/-- Conversion of the values of one block (R144): its offset, whether it is underrange, and each element. -/
structure BlockRes where
  off : Nat
  under : Bool
  encs : List Enc

def convertBlock (code : Nat) (rnd : Nat → Rnd) (sat : Bool) (sc : Scale) (vs : List (Nat × FVal)) : BlockRes :=
  let (o, under) := blockOffset code (vs.map fun v => v.2.div sc.s2)
  { off := o, under := under, encs := vs.map fun v => encodeScaled code (rnd v.1) sat false sc o v.2 }

/-- The output of a STORE, of `rows` rows by `cols` columns: elements in row order, and block offsets in the order of
R121. -/
structure Converted where
  encs : List Enc
  offs : List Nat
  under : Nat

/-- Blocks of `blk` values along the columns, or along the rows when `along` says so. -/
def convertTensor (code : Nat) (rnd : Nat → Rnd) (sat : Bool) (sc : Scale) (rows cols blk : Nat) (alongRows : Bool)
    (vs : List FVal) : Converted :=
  let v (i : Nat) : Nat × FVal := (i, (vs[i]?).getD .nan)
  if !isBlock code then
    { encs := (List.range (rows * cols)).map fun i => encodeScaled code (rnd i) sat true sc 0 (v i).2, offs := [], under := 0 }
  else if !alongRows then
    let bs := (List.range (rows * cols / blk)).map fun g =>
      convertBlock code rnd sat sc ((List.range blk).map fun i => v (g * blk + i))
    { encs := (bs.map (·.encs)).flatten, offs := bs.map (·.off), under := (bs.filter (·.under)).length }
  else
    let bs := (List.range (rows / blk * cols)).map fun g =>
      convertBlock code rnd sat sc ((List.range blk).map fun i => v ((g / cols * blk + i) * cols + g % cols))
    { encs := (List.range (rows * cols)).map fun i =>
        match bs[(i / cols / blk) * cols + i % cols]? with
        | some b => (b.encs[i / cols % blk]?).getD { bits := 0 }
        | none => { bits := 0 },
      offs := bs.map (·.off), under := (bs.filter (·.under)).length }

/-- Figures of a tensor of values (R151): largest magnitude by row, element count, and the conversion's counts. -/
def figuresOf (code : Nat) (cols : Nat) (vs : List FVal) (r : Converted) : StatFig :=
  { rows := (List.range vs.length).foldl (fun t i =>
      Tbl.set t (i / cols) (max (Tbl.getD t (i / cols) 0) (magBits ((vs[i]?).getD .nan)))) [],
    elements := vs.length, clipped := if isBlock code then (r.encs.filter (·.sat)).length else 0, under := r.under,
    nonfin := (r.encs.filter (·.changed)).length }

/-- Rows of a row layout, each padded to its pitch with what memory holds there. -/
def Dev.putRows (d : Dev) (base w rows cols : Nat) (elems : List Nat) : Dev :=
  (List.range rows).foldl (fun d m => d.wr (base + m * rowPitch cols w) (packElems w ((elems.drop (m * cols)).take cols))) d

def execStoreD : Nat → Nat → Nat → Dev → Dev := fun at_ u e d =>
  Dev.tensor 2 (fun k c q d =>
    let n := q.word
    let fmt := oFmt n
    match d.openBad u k e c n, Tbl.find? (d.engine u e).tiles (tAcc n) with
    | some o, _ => d.lateReject u k e q o
    | none, none => d
    | none, some t =>
      let (m, nn, _) := shapeDims t.shape
      let fw := fmtWidth (oFuseFmt n)
      let fused (i : Nat) : FVal :=
        if oFuse n = 0 then .nan
        else decodeF (oFuseFmt n) (packedAt (d.engRead u (tAddr u n 48 + i / nn * rowPitch nn fw) (rowPitch nn fw)) fw (i % nn))
      let es := (List.range (m * nn)).map fun i => epilogue t n (i / nn) (i % nn) (fused i)
      let vs := es.map (·.v)
      let head := leNat (d.engRead u (tAddr u n 64) 64)
      let sc : Scale := if fmt ≤ 2 then Scale.one else { s2 := decodeF 0 (fld head 64 32), zp := zeroPoint fmt (fld head 0 8) }
      let rnd (i : Nat) : Rnd := if oSr n then .stochastic (d.draw (genOut u e i) i) else .nearest
      let r := convertTensor fmt rnd (tSat n) sc m nn (oBlk n) (oDimM n) vs
      let d := if oSr n then d.drawn ((List.range (m * nn)).map (genOut u e)) else d
      let out := unitScratch u + tAddr u n 32
      let d := d.putRows out (fmtWidth fmt) m nn (r.encs.map (·.bits))
      let d := if isBlock fmt then d.wr (out + m * rowPitch nn (fmtWidth fmt)) (packElems 4 r.offs) else d
      let d := if oKeep n then d else d.freeTile u e (tAcc n)
      let d := d.engBump (Cat.ENG_OVERFLOW_SAT u e) Cat.ENG_OVERFLOW_SAT_TOTAL
        ((es.map (·.sat)).sum + (r.encs.filter (·.sat)).length)
      let d := d.engBump (Cat.ENG_INT_LIMIT u e) Cat.ENG_INT_LIMIT_TOTAL (es.map (·.limit)).sum
      let d := d.bumpBy Cat.NUM_CVT_NONFINITE (r.encs.filter (·.changed)).length
      let d := if oStat n = 0 then d else d.bumpBy Cat.NUM_UNDERRANGE_BLOCK r.under
      let d := d.contributeStat c.job (oStat n) (figuresOf fmt nn vs r) (3 ≤ fmt) false
      d.engInvalid k c u e (tAcc n) (es.filter (·.invalid)).length 0xFFFFFFFF) at_ u e d

end Sys2Proof.Machine
end

