-- ==== Sys2Proof/Machine/Stream.lean ====
section
/-! DEFINITION. Call slips (R235 to R254): STRM and SWAIT, slip contexts, the slip instructions, FMT, halts on host
pages; COPY and SLIP commands; the start of a command on a unit; the completion of memory accesses. -/

namespace Sys2Proof.Machine

/-! ### Completion counts and SWAIT (R197, R239, R253) -/

def Dev.setMover (d : Dev) (u : Nat) (m : Mover) : Dev := d.setUnit u { d.unit u with mover := m }

def Mover.countOf (m : Mover) (k : Nat) : Word := Tbl.getD m.count k 0

/-- A slip of the command is queued or in a context. -/
def Mover.live (m : Mover) (k : Nat) : Bool := (m.queue.any fun s => s.cmd = k) || m.ctx.any fun ks => ks.2.cmd = k

/-- The mover's count of the command rises, and bundles whose SWAIT it meets go on. -/
def Dev.bumpCount (d : Dev) (u k inc : Nat) : Dev :=
  let x := d.unit u
  let v := x.mover.countOf k + BitVec.ofNat 32 inc
  d.setUnit u { x with
    mover := { x.mover with count := Tbl.set x.mover.count k v },
    bundles := Tbl.mapVals (fun _ b =>
      match b.wait with
      | .swait w => if b.cmd = k && markMeets v w then { b with wait := .none } else b
      | _ => b) x.bundles }

/-- Bundles that wait in SWAIT for a count that a stopped slip can no longer produce are stopped: no slip of the
command is left on the unit (R253). -/
def Dev.stopSwaits (d : Dev) (u k : Nat) : Dev :=
  let m := (d.unit u).mover
  if !m.stopped.contains k || m.live k then d
  else
    ((d.unit u).bundles.filter fun kb => kb.2.cmd = k && (match kb.2.wait with | .swait _ => true | _ => false)).foldl
      (fun d kb => d.stopBundle u kb.1 k 0 0) d

/-! ### Waits of a slip (R241, R244) -/

def Dev.ctx? (d : Dev) (u x : Nat) : Option Slip := Tbl.find? (d.unit u).mover.ctx x

def Dev.setCtx (d : Dev) (u x : Nat) (s : Slip) : Dev :=
  let m := (d.unit u).mover
  d.setMover u { m with ctx := Tbl.set m.ctx x s }

/-- The slip's declaration of a buffer. -/
def Mover.decl? (m : Mover) (slip b : Nat) : Option Decl := m.decls.find? fun y => y.slip = slip && y.buf = b

def Mover.setBuf (m : Mover) (slip b : Nat) (st : BufState) : Mover :=
  { m with decls := m.decls.map fun y => if y.slip = slip && y.buf = b then { y with st := st } else y }

/-- The slip ends: its context is free and its declarations end (R241). -/
def Dev.endSlip (d : Dev) (u x : Nat) (s : Slip) : Dev :=
  let m := (d.unit u).mover
  let d := d.setMover u { m with ctx := Tbl.erase m.ctx x, decls := m.decls.filter fun y => y.slip ≠ s.id }
  (d.stopSwaits u s.cmd).checkPart u s.cmd

/-- A transfer still in flight writes into these bytes of scratch. -/
def Slip.writesInto (s : Slip) (start len : Nat) : Bool :=
  s.inflight.any fun t => t.toScratch && t.start < start + len && start < t.start + t.len

/-- The slip's condition is looked at again. -/
def Dev.settleSlip (d : Dev) (u x : Nat) : Dev :=
  match d.ctx? u x with
  | none => d
  | some s =>
    let m := (d.unit u).mover
    let go := { s with wait := SlipWait.none }
    match s.wait with
    | .opening b =>
      match m.decl? s.id b with
      | some y => if y.st = .empty then (d.setMover u (m.setBuf s.id b .filling)).setCtx u x go else d.checkPart u s.cmd
      | none => d.checkPart u s.cmd
    | .closing b =>
      let slipCommand : Bool := match d.cmd? s.cmd with | some c => c.cls ≠ 0 | none => false
      let held : Bool := match m.decl? s.id b with | some y => s.writesInto y.start y.len | none => false
      if held then d
      else ((d.setMover u (m.setBuf s.id b (if slipCommand then .empty else .full))).setCtx u x go).bumpCount u s.cmd 1
    | .signal inc =>
      if s.inflight.any fun t => !t.toScratch || t.isFmt then d else (d.setCtx u x go).bumpCount u s.cmd inc
    | .ending => if s.inflight.isEmpty then d.endSlip u x s else d
    | _ => d

/-- Slips of a mover that wait in OPEN look at their buffers again. -/
def Dev.settleMover (d : Dev) (u : Nat) : Dev := (List.range 4).foldl (fun d x => d.settleSlip u x) d

/-! ### Stops and halts (R253, R254) -/

/-- A slip is stopped: it issues nothing further, and ends when what it issued has landed. -/
def Dev.stopSlip (d : Dev) (u x : Nat) (s : Slip) (status detail : Nat) : Dev :=
  let d := (d.bump Cat.STRM_FAULT).updCmd s.cmd fun c => c.raise status detail
  let d := d.setCtx u x { s with wait := .ending }
  let m := (d.unit u).mover
  let gone := if m.stopped.contains s.cmd then m.stopped else s.cmd :: m.stopped
  let d := d.setMover u { m with stopped := gone, decls := m.decls.filter fun y => y.slip ≠ s.id }
  d.settleSlip u x

/-- Every slip of a command is marked halted, or no longer. -/
def Dev.markHalted (d : Dev) (k : Nat) (h : Bool) : Dev :=
  let f (s : Slip) : Slip := if s.cmd = k then { s with halted := h } else s
  let g (x : ExecUnit) : ExecUnit :=
    { x with mover := { x.mover with ctx := Tbl.mapVals (fun _ s => f s) x.mover.ctx, queue := x.mover.queue.map f } }
  { d with units := Tbl.mapVals (fun _ x => g x) d.units }

/-- A record of STRM_HALT_INFO: faulting address, unit, context, PC, row, byte (the packing is the model's own). -/
def haltInfo (va u x pc row byte : Nat) : List Byte :=
  leBytes 16 (va % 2 ^ 52 + u % 128 * 2 ^ 52 + x % 4 * 2 ^ 59 + pc % 2 ^ 25 * 2 ^ 61 + row % 2 ^ 16 * 2 ^ 86
    + byte % 2 ^ 24 * 2 ^ 102)

/-- The command is HALTED on a host page: its position is kept, and it writes a fault-halted record. -/
def Dev.haltCommand (d : Dev) (k u x pc va row byte : Nat) : Dev :=
  match d.cmd? k with
  | none => d
  | some c =>
    let d := (d.bump Cat.STRM_HALTS).bset (Cat.STRM_HALT_INFO c.job)
      (leBytes 16 (c.ring + c.seq * 2 ^ 32) ++ haltInfo va u x pc row byte)
    let stamp := d.stamp
    let (d, _) := d.putRecord { c with status := 0x10, detail := va % 2 ^ 52 } stamp
    let d := (d.setCmd k { c with st := .halted, haltedOnce := true }).countStatus c.job 0x10
    (d.stopRing c.job c.ring c.seq .halted (some k)).markHalted k true

/-! ### STRM and SWAIT (R236 to R238, R244) -/

def strmWord (x : Bundle) (n : Nat) : Nat := (x.ureg (fA n)).toNat

/-- Offending bits of a STRM word. -/
def strmBad (w : Nat) : List Nat :=
  setBitsAt w 48 12 ++ setBitsAt w 4 12 ++
    match fld w 60 4 with
    | 1 => ifBad (fld w 0 4 ≠ 0) 0
    | 2 => ifBad (fld w 32 16 ≠ 0) 32 ++ ifBad (fld w 16 16 ≠ 0) 16
    | _ => [60]

/-- The slip of a RUN: registers from its parameter block, PC at its program. -/
def slipOf (id k p pc : Nat) : Slip :=
  { id := id, cmd := k, a := (List.range 8).map fun i => fld p (64 * i) 52,
    c := (List.range 8).map fun i => BitVec.ofNat 32 (fld p (512 + 32 * i) 32), pc := pc, wait := .none,
    halted := false, saved := none, inflight := [] }

/-- A RUN enters the queue: its buffers are EMPTY. -/
def Dev.postRun (d : Dev) (u k p pc : Nat) : Dev :=
  let m := (d.unit u).mover
  let id := d.nextSlip
  let decls := (paramDecls u p).map fun y =>
    ({ cmd := k, slip := id, buf := y.1, start := y.2.1, len := y.2.2, st := .empty } : Decl)
  { d with nextSlip := id + 1 }.setMover u { m with queue := m.queue ++ [slipOf id k p pc], decls := m.decls ++ decls }

/-- The parameter block that a RUN word points to, as a number. -/
def Dev.runParam (d : Dev) (u w : Nat) : Nat := leNat (d.engRead u (fld w 32 16 * unitGranule u) 256)

/-- Why a RUN is malformed: the lowest offending bit. -/
def Dev.runBad (d : Dev) (u : Nat) (c : Cmd) (w : Nat) : Option Nat :=
  let j := d.job c.job
  (strmBad w ++
    (if fld w 60 4 ≠ 1 then []
     else
      ifBad (!j.inScratch u (fld w 16 16 * unitGranule u) 8) 16
        ++ (if !j.inScratch u (fld w 32 16 * unitGranule u) 256 then [32]
            else ifBad (!paramOk j u (d.runParam u w)) 32))).min?

def execStrmRunD (u b : Nat) (w : TWord) : Dev → Dev :=
  Dev.thread u b w mA noBad
    (fun d c x =>
      let v := strmWord x w.toNat
      fld v 60 4 ≠ 2 &&
        ((x.active w.toNat).isEmpty || (d.runBad u c v).isSome
          || (d.unit u).mover.room x.cmd (paramDecls u (d.runParam u v))))
    fun t d =>
      if t.act.isEmpty then d
      else
        let v := strmWord t.x t.n
        match d.runBad u t.cmd v with
        | some o => d.stopBundle u b t.k 0x30 o
        | none => d.postRun u t.k (d.runParam u v) (fld v 16 16 * unitGranule u)

def execStrmFreeD (u b : Nat) (w : TWord) : Dev → Dev :=
  Dev.thread u b w mA noBad (fun _ _ x => fld (strmWord x w.toNat) 60 4 = 2) fun t d =>
    if t.act.isEmpty then d
    else
      let v := strmWord t.x t.n
      match (strmBad v).min? with
      | some o => d.stopBundle u b t.k 0x30 o
      | none =>
        let m := (d.unit u).mover
        match m.decls.find? fun y => y.cmd = t.k && y.buf = fld v 0 4 with
        | some y =>
          if y.st = .full then (d.setMover u (m.setBuf y.slip y.buf .empty)).settleMover u
          else d.bump Cat.STRM_FREE_EXTRA
        | none => d.bump Cat.STRM_FREE_EXTRA

def execSwaitD (u b : Nat) (w : TWord) : Dev → Dev :=
  Dev.thread u b w mA noBad anyTime fun t d =>
    if t.act.isEmpty then d
    else
      let v := (t.x.ureg (fA t.n)).setWidth 32
      if markMeets ((d.unit u).mover.countOf t.k) v then d
      else (d.putBundle t { t.x with wait := .swait v }).stopSwaits u t.k

/-- The oldest queued RUN takes the first free slip context (R239). -/
def execSlipContextStartD (u : Nat) (d : Dev) : Dev :=
  let m := (d.unit u).mover
  match m.queue, (List.range 4).find? fun x => (Tbl.find? m.ctx x).isNone with
  | s :: rest, some x =>
    (d.setMover u { m with queue := rest, ctx := Tbl.set m.ctx x s }).bump (Cat.STRM_SLIPS u)
  | _, _ => d

/-! ### Slip instructions (R240 to R242) -/

/-- What a slip instruction works on. -/
structure SCtx where
  u : Nat
  x : Nat
  s : Slip
  cmd : Cmd
  n : Nat

def sR (n lo : Nat) : Nat := fld n lo 3
def SCtx.aReg (t : SCtx) (lo : Nat) : Nat := (t.s.a[sR t.n lo]?).getD 0
def SCtx.cReg (t : SCtx) (lo : Nat) : Word := (t.s.c[sR t.n lo]?).getD 0
def SCtx.imm (t : SCtx) : Int := toSigned 32 (fld t.n 0 32)

/-- The word at a slip's PC in its unit's scratch (R240). -/
def Dev.slipWord (d : Dev) (u pc : Nat) : Nat := leNat (d.rd (unitScratch u + pc) 8)

/-! ### What is read by an instruction before it issues (R240 to R242, R250) -/

/-- One line of a transfer: row, byte in the row, job address, scratch offset. -/
structure MoveLine where
  row : Nat
  byte : Nat
  va : Nat
  off : Nat

/-- The lines of a transfer in address order. -/
def moveLines (va pitch off rows rowBytes : Nat) : List MoveLine :=
  ((List.range rows).map fun r =>
    (List.range (rowBytes / 64)).map fun i =>
      ({ row := r, byte := 64 * i, va := (va + r * pitch + 64 * i) % 2 ^ 52, off := off + r * rowBytes + 64 * i } : MoveLine)).flatten

def Dev.linePa (d : Dev) (j va : Nat) : Nat := match d.xlate j va false with | some (pa, _) => pa | none => 0

def xRows (n : Nat) : Nat := fld n 24 16
def xRowBytes (n : Nat) : Nat := fld n 0 24

/-- Fields of a format descriptor. -/
structure FmtDesc where
  s2 : Nat
  zp : Nat
  stat : Nat
  src : Nat
  dst : Nat
  kind : Nat
  trans : Bool
  blk : Nat
  blk16 : Bool
  sr : Bool
  sat : Bool
  x : Nat
  blocks : Nat
  pitch : Nat

def fmtDesc (n : Nat) : FmtDesc :=
  { s2 := fld n 480 32, zp := fld n 472 8, stat := fld n 464 8, src := fld n 460 4, dst := fld n 456 4,
    kind := fld n 454 2, trans := bit n 453, blk := if bit n 452 then 16 else 32, blk16 := bit n 452, sr := bit n 451,
    sat := bit n 450, x := fld n 440 8, blocks := fld n 428 12, pitch := fld n 384 40 }

/-- Source rows and elements per row. -/
def FmtDesc.rows (f : FmtDesc) : Nat := if f.trans then f.blocks * f.blk else f.x
def FmtDesc.cols (f : FmtDesc) : Nat := if f.trans then f.x else f.blocks * f.blk

/-- Bytes behind the element rows: 4-bit offsets of a relayout, or E8M0 scale bytes. -/
def FmtDesc.tail (f : FmtDesc) : Nat :=
  if f.kind = 1 then f.x * f.blocks else if isBlock f.src then ceilDiv (f.x * f.blocks) 2 else 0

/-- Source lines: row by row, then the tail. -/
def FmtDesc.lines (f : FmtDesc) (va : Nat) : List Nat :=
  let span (a n : Nat) : List Nat := (linesOf a n).map (64 * ·)
  ((List.range f.rows).map fun r => span (va + r * f.pitch) (ceilDiv (f.cols * fmtWidth f.src) 8)).flatten
    ++ span (va + f.rows * f.pitch) f.tail

/-! ### The issue of an instruction (R235, R240) -/

/-- The lines of memory that a FETCH or an FMT reads: those of the instruction `n` of a slip. -/
def Dev.slipSources (d : Dev) (u : Nat) (s : Slip) (n : Nat) : List Nat :=
  let a (lo : Nat) : Nat := (s.a[sR n lo]?).getD 0
  match n / 2 ^ 58 with
  | 1 => (moveLines (a 55) ((s.c[sR n 47]?).getD 0).toNat (a 52) (xRows n) (xRowBytes n)).map (·.va)
  | 12 => (fmtDesc (leNat (d.engRead u (a 55) 64))).lines (a 52)
  | _ => []

/-- The slip can issue: it does not wait, no more than 8 of its FETCH, PUT and FMT are outstanding (R242), and the memory
that its instruction reads takes requests (R22, R24). -/
def Dev.slipReady (d : Dev) (u : Nat) (s : Slip) : Bool :=
  let n := d.slipWord u s.pc
  let moves : Bool := n / 2 ^ 58 = 1 || n / 2 ^ 58 = 2 || n / 2 ^ 58 = 12
  let j := d.cmdJob s.cmd
  !s.halted && s.wait = .none && (!moves || s.inflight.length < 8)
    && !((d.slipSources u s n).any fun va => d.stalledAt (d.linePa j va))

/-- Context `x` is the next of the mover's contexts that can issue, in round-robin order (R235). -/
def Dev.slipTurn (d : Dev) (u x : Nat) : Bool :=
  let m := (d.unit u).mover
  let place (y : Nat) : Nat := (y + 3 - m.turn % 4) % 4
  !(m.ctx.any fun ks => place ks.1 < place x && d.slipReady u ks.2)

/-- Context `x` of the mover issues. -/
def Dev.tookSlipTurn (d : Dev) (u x : Nat) : Dev := d.setMover u { (d.unit u).mover with turn := x }

/-- The slip in context `x` issues its next instruction, and it is the one of `op` with low bits `w`: it acts as `run` says
where scratch holds that word at its PC. A word of a reserved OP stops the slip (R241), and any other word is another
command's. Where the slip may not go on, `run` says what happens. -/
def Dev.slipFetched (op at_ u x : Nat) (w : SWord) (run : Dev → Dev) (d : Dev) : Dev :=
  let d' := d.advance at_
  match d'.ctx? u x with
  | none => run d
  | some s =>
    match d'.cmd? s.cmd with
    | none => run d
    | some c =>
      if !d'.slipReady u s || !d'.slipTurn u x || !(d'.job c.job).inScratch u s.pc 8 then run d
      else
        let n := d'.slipWord u s.pc
        if n = op * 2 ^ 58 + w.toNat then run d
        else if n / 2 ^ 58 = 0 || 13 < n / 2 ^ 58 then (d'.tookSlipTurn u x).stopSlip u x s 0x30 58
        else d'

/-- One instruction of slip context `x` of unit `u`'s mover, whose low 58 bits are `w`, issues when it is ready and it is the
context's turn: `used` masks the bits that its format names, `bad` gives further offending bits. The PC has moved past it. -/
def Dev.slipOp (at_ u x : Nat) (w : SWord) (used : Nat) (bad : Dev → SCtx → List Nat) (run : SCtx → Dev → Dev) (d : Dev) :
    Dev :=
  let d := d.advance at_
  match d.ctx? u x with
  | none => d
  | some s =>
    match d.cmd? s.cmd with
    | none => d
    | some c =>
      let n := w.toNat
      let t : SCtx := { u := u, x := x, s := s, cmd := c, n := n }
      if !d.slipReady u s || !d.slipTurn u x then d
      else
        let e := d.tookSlipTurn u x
        if !(d.job c.job).inScratch u s.pc 8 then e.stopSlip u x s 0x30 58
        else
          match (setBits 58 (n - Nat.land n used) ++ bad d t).min? with
          | some o => e.stopSlip u x s 0x30 o
          | none =>
            let s := { s with pc := s.pc + 8 }
            run { t with s := s } (e.setCtx u x s)

def noSlipBad (_ : Dev) (_ : SCtx) : List Nat := []
/-- The slip of the context, changed. -/
def Dev.putSlip (d : Dev) (t : SCtx) (s : Slip) : Dev := d.setCtx t.u t.x s

def mSlipR : Nat := mk 55 3 + mk 52 3 + mk 0 32

def execMovaD (at_ u x : Nat) (w : SWord) : Dev → Dev :=
  Dev.slipOp at_ u x w mSlipR noSlipBad fun t d =>
    d.putSlip t { t.s with a := listSet t.s.a (sR t.n 55) (((t.aReg 52 : Int) + t.imm) % 2 ^ 52).toNat }

def execAddaaD (at_ u x : Nat) (w : SWord) : Dev → Dev :=
  Dev.slipOp at_ u x w mSlipR noSlipBad fun t d =>
    d.putSlip t { t.s with a := listSet t.s.a (sR t.n 55) ((t.aReg 55 + t.aReg 52) % 2 ^ 52) }

def execSetcD (at_ u x : Nat) (w : SWord) : Dev → Dev :=
  Dev.slipOp at_ u x w mSlipR noSlipBad fun t d =>
    d.putSlip t { t.s with c := listSet t.s.c (sR t.n 55) (BitVec.ofNat 32 (fld t.n 0 32)) }

def execAddcD (at_ u x : Nat) (w : SWord) : Dev → Dev :=
  Dev.slipOp at_ u x w mSlipR noSlipBad fun t d =>
    d.putSlip t { t.s with c := listSet t.s.c (sR t.n 55) (t.cReg 55 + BitVec.ofNat 32 (fld t.n 0 32)) }

def execLoopD (at_ u x : Nat) (w : SWord) : Dev → Dev :=
  Dev.slipOp at_ u x w mSlipR noSlipBad fun t d =>
    let c := t.cReg 55
    if c = 0 then d
    else
      let pc := if c = 1 then t.s.pc else ((t.s.pc : Int) - 8 + 8 * t.imm).toNat
      d.putSlip t { t.s with c := listSet t.s.c (sR t.n 55) (c - 1), pc := pc }

/-- An instruction that waits: the wait is set, and its condition looked at at once. -/
def Dev.slipWaits (at_ u x : Nat) (w : SWord) (used : Nat) (bad : Dev → SCtx → List Nat) (f : SCtx → SlipWait) :
    Dev → Dev :=
  Dev.slipOp at_ u x w used bad fun t d => (d.putSlip t { t.s with wait := f t }).settleSlip u x

def execOpenD (at_ u x : Nat) (w : SWord) : Dev → Dev :=
  Dev.slipWaits at_ u x w (mk 0 4) noSlipBad fun t => .opening (fld t.n 0 4)

def execCloseD (at_ u x : Nat) (w : SWord) : Dev → Dev :=
  Dev.slipWaits at_ u x w (mk 0 4) noSlipBad fun t => .closing (fld t.n 0 4)

def execSigD (at_ u x : Nat) (w : SWord) : Dev → Dev :=
  Dev.slipWaits at_ u x w (mk 0 8) (fun _ t => ifBad (fld t.n 0 8 = 0) 0) fun t => .signal (fld t.n 0 8)

def execEndD (at_ u x : Nat) (w : SWord) : Dev → Dev := Dev.slipWaits at_ u x w 0 noSlipBad fun _ => .ending

def execWaitmkD (at_ u x : Nat) (w : SWord) : Dev → Dev :=
  Dev.slipOp at_ u x w (mk 55 3 + mk 45 10 + mk 0 16) noSlipBad fun t d =>
    let m := fld t.n 45 10
    let v := t.cReg 55
    let steps := fld t.n 0 16
    if markMeets ((d.job t.cmd.job).mark m).value v then d
    else d.putSlip t { t.s with wait := .mark m v (if steps = 0 then none else some (d.now + steps * 8192)) }

/-- TT_SETTLE after a WAITMK deadline the slip goes on, unless its mark was met in time (R247, R53). -/
def execWaitmkTimeoutD (u x : Nat) (d : Dev) : Dev :=
  match d.ctx? u x with
  | none => d
  | some s =>
    match s.wait with
    | .mark m v (some dl) =>
      let d := (d.advance (dl + d.cget Cat.TT_SETTLE)).bump Cat.STRM_MARK_TIMEOUT
      (d.updCmd s.cmd fun c => { c.raise 0x03 dl with lateWaits := (m, v, dl) :: c.lateWaits }).setCtx u x
        { s with wait := .none }
    | _ => d

/-! ### FETCH and PUT (R241, R242, R253, R254) -/

/-- Why a line cannot be issued. -/
inductive LineStop where
  | fault
  | migrate
deriving DecidableEq, Repr

/-- A mover's access to a job address (R207, R214). -/
def Dev.lineStop (d : Dev) (u j va : Nat) (write : Bool) : Option LineStop :=
  match d.xlate j va write with
  | none => some .fault
  | some (_, p) => if u < 64 && p.migrate then some .migrate else none

/-- Lines that are issued, and the first that is not. -/
def Dev.issueLines (d : Dev) (u j : Nat) (write : Bool) : List MoveLine → List MoveLine × Option (MoveLine × LineStop)
  | [] => ([], none)
  | l :: t =>
    match d.lineStop u j l.va write with
    | some w => ([], some (l, w))
    | none => let (ls, e) := d.issueLines u j write t; (l :: ls, e)

/-- Offending bits of a FETCH or a PUT. -/
def moveBad (d : Dev) (t : SCtx) : List Nat :=
  let rb := xRowBytes t.n
  ifBad (rb < 64 || rb % 64 ≠ 0) 0 ++ ifBad (xRows t.n = 0) 24 ++ ifBad ((t.cReg 47).toNat % 64 ≠ 0) 47
    ++ ifBad (t.aReg 55 % 64 ≠ 0) 55 ++ ifBad (!(d.job t.cmd.job).inScratch t.u (t.aReg 52) (xRows t.n * rb)) 52

def Transfer.plain (writes : List (Nat × List Byte)) (toScratch : Bool) (start len : Nat) : Transfer :=
  { writes := writes, toScratch := toScratch, start := start, len := len, isFmt := false, stat := 0, fig := StatFig.empty,
    narrow := false }

/-- A line at its issue, as what it writes: a FETCH reads memory, a PUT reads scratch. -/
def Dev.lineWrite (d : Dev) (u j : Nat) (put : Bool) (l : MoveLine) : Nat × List Byte :=
  if put then (d.linePa j l.va, d.engRead u l.off 64) else (unitScratch u + l.off, d.rd (d.linePa j l.va) 64)

/-- FETCH or PUT issues its lines from its saved position; a fault stops the slip, a host page halts the command. -/
def Dev.move (put : Bool) (t : SCtx) (d : Dev) : Dev :=
  let j := t.cmd.job
  let rows := xRows t.n
  let rb := xRowBytes t.n
  let lines := moveLines (t.aReg 55) (t.cReg 47).toNat (t.aReg 52) rows rb
  let lines := match t.s.saved with
    | some (r, y) => lines.filter fun l => r < l.row || (l.row = r && y ≤ l.byte)
    | none => lines
  let (ls, stop) := d.issueLines t.u j put lines
  let bad := if put then [] else (ls.map fun l => d.linePa j l.va).filter d.badLine
  let tr := Transfer.plain (ls.map (d.lineWrite t.u j put)) (!put) (t.aReg 52) (rows * rb)
  let s := if ls.isEmpty then t.s else { t.s with inflight := t.s.inflight ++ [tr] }
  let d := d.cmdPoison t.s.cmd bad
  let d := if put then d.bumpBy (Cat.STRM_BYTES_OUT t.u) (64 * ls.length) else d
  match stop with
  | some (l, .fault) => (d.xfault j l.va).stopSlip t.u t.x s 0x11 l.va
  | some (l, .migrate) =>
    let s := { s with pc := s.pc - 8, saved := some (l.row, l.byte) }
    (d.putSlip t s).haltCommand s.cmd t.u t.x s.pc l.va l.row l.byte
  | none =>
    let raise (a : List Nat) (r n : Nat) : List Nat := listSet a r (((a[r]?).getD 0 + n) % 2 ^ 52)
    let a := if bit t.n 51 then raise s.a (sR t.n 55) (rows * (t.cReg 47).toNat) else s.a
    let a := if bit t.n 50 then raise a (sR t.n 52) (rows * rb) else a
    d.putSlip t { s with a := a, saved := none }

def mSlipM : Nat := mk 47 11 + mk 0 40

def execFetchD (at_ u x : Nat) (w : SWord) : Dev → Dev := Dev.slipOp at_ u x w mSlipM moveBad (Dev.move false)
def execPutD (at_ u x : Nat) (w : SWord) : Dev → Dev := Dev.slipOp at_ u x w mSlipM moveBad (Dev.move true)

/-! ### FMT (R250, R251) -/

def fmtOk (n : Nat) : Bool :=
  let f := fmtDesc n
  fld n 448 2 = 0 && fld n 424 4 = 0 && fld n 0 384 = 0 && f.src < 8 && f.dst < 8
    && (f.x = 8 || f.x = 16 || f.x = 32 || f.x = 64) && f.blocks ≠ 0 && f.pitch % 64 = 0
    && (if f.dst = 6 then true else if f.dst = 7 then fld f.zp 4 4 = (if bit f.zp 3 then 15 else 0) else f.zp = 0)
    && (if f.kind = 0 then f.src = f.dst || f.src ≤ 2
        else f.kind = 1 && isBlock f.src && f.src = f.dst && !f.blk16 && (pow2Exp? f.s2).isSome)

/-- One block of the operand (slab `i`, outer index `x`): its offset, its elements, and what it counts. -/
structure FmtBlock where
  off : Nat
  elems : List Nat
  sat : Nat := 0
  changed : Nat := 0
  under : Bool := false
  reenc : Bool := false
  /-- values converted, for the slot's figures -/
  vals : List FVal := []

/-- A block that is converted with S2. -/
def FmtDesc.convert (f : FmtDesc) (rnd : Nat → Rnd) (first : Nat) (vs : List FVal) : FmtBlock :=
  let sc : Scale := { s2 := decodeF 0 f.s2, zp := zeroPoint f.dst f.zp }
  let idx := (List.range vs.length).map fun i => (first + i, (vs[i]?).getD .nan)
  let r : BlockRes :=
    if isBlock f.dst then convertBlock f.dst rnd f.sat sc idx
    else { off := 0, under := false, encs := idx.map fun v => encodeScaled f.dst (rnd v.1) f.sat false sc 0 v.2 }
  { off := r.off, elems := r.encs.map (·.bits), sat := (r.encs.filter (·.sat)).length,
    changed := (r.encs.filter (·.changed)).length, under := r.under, vals := vs }

/-- A block from its source elements, and its source offset or scale byte `o`. -/
def FmtDesc.block (f : FmtDesc) (rnd : Nat → Rnd) (first o : Nat) (elems : List Nat) : FmtBlock :=
  if f.kind = 1 then
    let k := (pow2Exp? f.s2).getD 0 - ((o : Int) - 127)
    if o = 0xFF then
      { off := 15, elems := elems.map fun _ => if f.dst = 5 then 0 else fmtNaN f.dst, changed := 1,
        vals := elems.map fun _ => .nan }
    else if 0 ≤ k && k ≤ 15 then { off := k.toNat, elems := elems }
    else { f.convert rnd first (elems.map fun e => (decodeF f.src e).scale ((o : Int) - 127)) with reenc := true }
  else if f.src = f.dst then { off := o, elems := elems }
  else f.convert rnd first (elems.map (decodeF f.src))

/-- All blocks, slab by slab and row by row; `rd` reads job memory. -/
def FmtDesc.blocksOf (f : FmtDesc) (rnd : Nat → Rnd) (rd : Nat → Nat → List Byte) (va : Nat) : List FmtBlock :=
  let w := fmtWidth f.src
  let elem (r c : Nat) : Nat :=
    let a := va + r * f.pitch
    if w = 4 then packedAt (rd (a + c / 2) 1) 4 (c % 2) else leNat (rd (a + c * (w / 8)) (w / 8))
  let tail := va + f.rows * f.pitch
  (List.range (f.blocks * f.x)).map fun g =>
    let i := g / f.x
    let x := g % f.x
    let pos := if f.trans then i * f.x + x else x * f.blocks + i
    let o := if f.kind = 1 then leNat (rd (tail + pos) 1)
      else if isBlock f.src && f.src = f.dst then packedAt (rd (tail + pos / 2) 1) 4 (pos % 2) else 0
    f.block rnd (g * f.blk) o ((List.range f.blk).map fun k =>
      if f.trans then elem (i * f.blk + k) x else elem x (i * f.blk + k))

/-- The operand's bytes (R248). -/
def FmtDesc.bytes (f : FmtDesc) (bs : List FmtBlock) : List Byte :=
  let g := 128 / f.x
  ((List.range f.blocks).map fun i =>
    let slab := (bs.drop (i * f.x)).take f.x
    packElems (fmtWidth f.dst) (slab.map (·.elems)).flatten
      ++ (if isBlock f.dst && (i % g = g - 1 || i + 1 = f.blocks) then
            let grp := ((bs.drop (i / g * g * f.x)).take ((i % g + 1) * f.x)).map (·.off)
            let b := packElems 4 grp
            b ++ List.replicate (64 - b.length) 0
          else [])).flatten

/-- Bytes in lines of 64 from an address. -/
def linesFrom (a : Nat) (b : List Byte) : Nat → List (Nat × List Byte)
  | 0 => []
  | n + 1 => (a, b.take 64) :: linesFrom (a + 64) (b.drop 64) n

/-- Offending bits of a FMT. -/
def fmtBad (d : Dev) (t : SCtx) : List Nat :=
  let j := d.job t.cmd.job
  if t.u < 64 then [58]
  else
    let desc := leNat (d.engRead t.u (t.aReg 55) 64)
    let f := fmtDesc desc
    let scr := bit t.n 48
    ifBad (t.aReg 52 % 64 ≠ 0) 52 ++ ifBad (t.aReg 49 % (if scr then 512 else 64) ≠ 0) 49
      ++ (if !j.inScratch t.u (t.aReg 55) 64 || !fmtOk desc then [55]
          else ifBad (scr && !j.inScratch t.u (t.aReg 49) (operandBytes f.dst f.x f.blk f.blocks)) 49)

def execFmtD (at_ u x : Nat) (w : SWord) : Dev → Dev :=
  Dev.slipOp at_ u x w (mk 48 10) fmtBad fun t d =>
    let j := t.cmd.job
    let f := fmtDesc (leNat (d.engRead u (t.aReg 55) 64))
    let src := t.aReg 52
    let dst := t.aReg 49
    let scr := bit t.n 48
    let len := operandBytes f.dst f.x f.blk f.blocks
    let lines := f.lines src
    let read := lines.takeWhile fun a => (d.xlate j a false).isSome
    let bad := (read.map fun a => d.linePa j a).filter d.badLine
    match lines[read.length]? with
    | some a => ((d.cmdPoison t.s.cmd bad).xfault j a).stopSlip u x t.s 0x11 a
    | none =>
      let rnd (i : Nat) : Rnd := if f.sr then .stochastic (d.draw (genFormat u i) i) else .nearest
      let bs := f.blocksOf rnd (d.jrd j) src
      let d := if f.sr then d.drawn ((List.range (f.x * f.blocks * f.blk)).map (genFormat u)) else d
      let d := d.cmdPoison t.s.cmd bad
      let conv := bs.filter fun b => !b.vals.isEmpty
      let d := d.bumpBy Cat.NUM_CVT_OVERFLOW_SAT (conv.map (·.sat)).sum
      let d := d.bumpBy Cat.NUM_CVT_NONFINITE (conv.map (·.changed)).sum
      let d := if f.stat = 0 then d else d.bumpBy Cat.NUM_UNDERRANGE_BLOCK (conv.filter (·.under)).length
      let d := d.bumpBy (Cat.FMT_REENCODE (u - 64)) (bs.filter (·.reenc)).length
      let vals := (conv.map (·.vals)).flatten
      let fig : StatFig :=
        { rows := [(0, (vals.map magBits).foldl max 0)], elements := vals.length,
          clipped := if isBlock f.dst then (conv.map (·.sat)).sum else 0, under := (conv.filter (·.under)).length,
          nonfin := (conv.map (·.changed)).sum }
      let out := linesFrom dst (f.bytes bs) (ceilDiv len 64)
      let stop : Option (Nat × List Byte) := if scr then none else out.find? fun l => (d.xlate j l.1 true).isNone
      let kept : List (Nat × List Byte) := match stop with | some l => out.takeWhile (fun y => y.1 ≠ l.1) | none => out
      let tr : Transfer :=
        { writes := kept.map fun l => (if scr then unitScratch u + l.1 else d.linePa j l.1, l.2), toScratch := scr,
          start := dst, len := len, isFmt := true, stat := if vals.isEmpty || stop.isSome then 0 else f.stat, fig := fig,
          narrow := 3 ≤ f.dst }
      let s := if kept.isEmpty then t.s else { t.s with inflight := t.s.inflight ++ [tr] }
      match stop with
      | some l => (d.xfault j l.1).stopSlip u x s 0x11 l.1
      | none => d.putSlip t s

/-! ### Completion of accesses (R22, R191, R241) -/

/-- Line `n` of those outstanding of the `i`-th transfer of a slip lands, or is accepted where its memory takes requests
(R22, R24, R242); with its last line the transfer is complete. -/
def Dev.landLine (d : Dev) (u x i n : Nat) : Dev :=
  match d.ctx? u x with
  | none => d
  | some s =>
    match s.inflight[i]? with
    | none => d
    | some tr =>
      match tr.writes[n]? with
      | none => d
      | some w =>
        if d.stalledAt w.1 then d
        else
          let d := d.wrLine w.1 w.2
          let d := if tr.isFmt then d.bumpBy (Cat.FMT_BYTES_OUT (u - 64)) w.2.length
            else if tr.toScratch then d.bumpBy (Cat.STRM_BYTES_IN u) w.2.length else d
          let rest := tr.writes.eraseIdx n
          if rest.isEmpty then
            let d := d.setCtx u x { s with inflight := s.inflight.eraseIdx i }
            (d.contributeStat (d.cmdJob s.cmd) tr.stat tr.fig tr.narrow true).settleSlip u x
          else d.setCtx u x { s with inflight := listSet s.inflight i { tr with writes := rest } }

/-! ### COPY (R252) -/

def copyOk (n : Nat) : Bool :=
  fld n 296 216 = 0 && fld n 232 24 = 0 && fld n 176 16 = 0 && fld n 152 8 = 0 && fld n 116 12 = 0 && fld n 52 12 = 0
    && fld n 256 40 % 64 = 0 && fld n 192 40 % 64 = 0 && fld n 160 16 ≠ 0 && fld n 128 24 % 64 = 0 && fld n 128 24 ≠ 0
    && fld n 64 52 % 64 = 0 && fld n 0 52 % 64 = 0

/-- A job address translates to host memory. -/
def Dev.isHost (d : Dev) (j va : Nat) : Bool :=
  match d.xlate j va false with
  | some (pa, _) => (match d.region pa with | .host _ => true | _ => false)
  | none => false

/-- The unit that executes a COPY: the network die for tier 4, else the formatter of the destination's die. -/
def Dev.copyUnit (d : Dev) (j src dst : Nat) : Nat :=
  if d.isHost j src || d.isHost j dst then 0x90
  else
    match d.xlate j dst true with
    | some (pa, _) => (match d.region pa with | .tier2 i | .tier3 i | .sram i => 64 + i | _ => 64)
    | none => 64

/-- Lines of a copy in order: source and destination; the first fault ends it, and it waits at the first line that a memory
takes no request for (R22, R24). -/
def Dev.copyLines (d : Dev) (k j : Nat) : List (Nat × Nat) → Dev
  | [] => d.workDone k
  | (s, t) :: rest =>
    match d.xlate j s false, d.xlate j t true with
    | none, _ => (d.cmdFault k j s).workDone k
    | _, none => (d.cmdFault k j t).workDone k
    | some (ps, _), some (pt, _) =>
      if d.stalledAt ps || d.stalledAt pt then d.updCmd k fun c => { c with copyLeft := (s, t) :: rest }
      else
        let d := if d.badLine ps then d.cmdPoison k [ps] else d
        (d.wrLine pt (d.rd ps 64)).copyLines k j rest

/-- The formatter that executes a COPY acquires for its job (R70). -/
def Dev.copyAcquire (d : Dev) (u j : Nat) : Dev := if u = 0x90 then d else d.acquire u j

/-- COPY. -/
def execCopyD : Nat → Nat → Dev → Dev :=
  Dev.dispatch 1 0 fun k c d =>
    d.withArgs k c (c.argsLen = 64) fun n d =>
      if !copyOk n then d.workRefused k 0x30 0
      else
        let src := fld n 0 52
        let dst := fld n 64 52
        let rb := fld n 128 24
        let line (r i : Nat) : Nat × Nat :=
          ((src + r * fld n 192 40 + 64 * i) % 2 ^ 52, (dst + r * fld n 256 40 + 64 * i) % 2 ^ 52)
        let lines := ((List.range (fld n 160 16)).map fun r => (List.range (rb / 64)).map (line r)).flatten
        let u := d.copyUnit c.job src dst
        ((d.copyAcquire u c.job).atUnit k u).copyLines k c.job lines

/-- A COPY that waits goes on where it stopped. -/
def Dev.copyOn (d : Dev) (k : Nat) : Dev :=
  match d.cmd? k with
  | none => d
  | some c =>
    if c.copyLeft.isEmpty then d else (d.setCmd k { c with copyLeft := [] }).copyLines k c.job c.copyLeft

/-- A load's data returns; or sinks accept a store; or a slip's access completes. Of a bundle's stores the oldest whose
sinks take requests is accepted, with the unit's earlier stores to its lines: R187 leaves the order of different lines
open, and this one is the model's choice (log entry 64). A store that waits for a host port or for a die under retraining
holds no other back (R22, R24). -/
def execMemoryAccessCompleteD (at_ : Nat) (a : AccessId) (d : Dev) : Dev :=
  let d := d.advance at_
  match a with
  | .bundleLoad u b =>
    match d.bundle? u b with
    | some x => if x.loads = 0 then d else d.setBundle u b { x with loads := x.loads - 1 }
    | none => d
  | .bundleStore u b =>
    match (d.unit u).stores.find? fun p => p.slot = b && !d.stalledAt p.pa with
    | none => d
    | some p =>
      let mine (q : PendStore) : Bool := q.slot = b && q.cmd = p.cmd && q.seq = p.seq && !d.stalledAt q.pa
      let lines := ((d.unit u).stores.filter mine).map fun q => q.pa / 64
      d.acceptWhere u fun q => mine q || (q.seq ≤ p.seq && lines.contains (q.pa / 64))
  | .slip u x i n => d.landLine u x i n
  | .copy k => d.copyOn k

/-! ### SLIP commands (R252) -/

/-- The units lie in the job's grant. -/
def slipPermitted (j : Job) (n : Nat) : Bool :=
  match j.t1 with
  | none => false
  | some g => if bit n 64 then Nat.land (fld n 0 64) (2 ^ 64 - 1 - g.dies) = 0 else Nat.land (fld n 0 64) (2 ^ 64 - 1 - g.groups) = 0

/-- The command starts on a unit: parameter block and program go to its scratch, and the RUN is posted. -/
def Dev.startSlipPart (d : Dev) (k : Nat) (c : Cmd) (u : Nat) : Dev :=
  let n := d.slipArgs c
  let d := d.acquire u c.job
  let d := d.setCmd k { c with unitsLeft := c.unitsLeft - 2 ^ u, unitsOn := c.unitsOn + 2 ^ u }
  let d := d.traceBegin c u 0xF
  let d := d.wr (unitScratch u + fld n 104 24) (leBytes 256 (fld n 512 2048))
  let d := d.wr (unitScratch u + fld n 80 24) (leBytes (8 * fld n 128 16) (n / 2 ^ 2560))
  (d.postRun u k (fld n 512 2048) (fld n 80 24)).engineDue u []

/-- A SLIP command starts its part on a unit where it is still to run, if the mover has room (R252). -/
def Dev.startSlipIfFits (d : Dev) (k u : Nat) : Dev :=
  match d.cmd? k with
  | none => d
  | some c =>
    if c.cls = 1 && bit c.unitsLeft u && d.slipFits u k (fld (d.slipArgs c) 512 2048) then d.startSlipPart k c u else d

/-- SLIP: dispatched when a first unit has room, it starts at once on every unit that has it (R91, R93, R252). -/
def execSlipD : Nat → Nat → Dev → Dev :=
  Dev.dispatch 1 1 fun k c d =>
    d.withArgs k c true fun n d =>
      if c.argsLen ≠ ceilDiv (320 + 8 * fld n 128 16) 64 * 64 then d.workRefused k 0x30 376
      else if fld n 0 64 ≠ 0 && !slipPermitted (d.job c.job) n then d.workRefused k 0x31 0
      else if !slipArgsOk (d.job c.job) n then d.workRefused k 0x30 0
      else
        (setBits 72 (slipUnits n)).foldl (fun d u => d.startSlipIfFits k u) (d.updCmd k fun c => { c with unitsLeft := slipUnits n })

/-! ### The start of a command on a unit (R91, R252) -/

def execCommandStartOnUnitD (at_ k u : Nat) (d : Dev) : Dev :=
  let d := d.advance at_
  match d.cmd? k with
  | none => d
  | some c =>
    if c.st ≠ .running || !bit c.unitsLeft u || !d.slotAllows c then d
    else if c.cls = 0 then d.startIfFits k u
    else d.startSlipIfFits k u

end Sys2Proof.Machine
end

