-- ==== Sys2Proof/Machine/Jobs.lean ====
section
/-! DEFINITION. Jobs and rings as their Catalogue entries control them (R73, R74, R76, R77, R81, R215, R296, R359, R417,
R471): start and its checks, stop, teardown, creation, ring configuration and control. -/

namespace Sys2Proof.Machine

/-! ### The tier 1 grant (R215) -/

/-- The grant that a quota asks for, with its offsets. -/
def grantOf (q scratchOff sramOff : Nat) : T1Grant :=
  { groups := q1Groups q, dies := q1Dies q, engines := q1Engines q, bundles := q1Bundles q, dieBundles := q1DieBundles q,
    scratchOff := scratchOff, scratchLen := q1Scratch q, sramOff := sramOff, sramLen := q1Sram q }

/-- Grants of the other jobs. -/
def Dev.otherGrants (d : Dev) (j : Nat) : List T1Grant :=
  d.jobs.filterMap fun kj => if kj.1 = j then none else kj.2.t1

/-- A common offset: 64 KiB aligned, inside `span`, apart from `taken`; any one is the firmware's choice. -/
def commonOffset (span len want : Nat) (taken : List (Nat × Nat)) : Option Nat :=
  if len = 0 then some 0
  else
    let ok (o : Nat) : Bool := o % 0x1_0000 = 0 && o + len ≤ span && !(taken.any fun t => overlaps o len t.1 t.2)
    if ok want then some want
    else ((0 :: taken.map fun t => ceilDiv (t.1 + t.2) 0x1_0000 * 0x1_0000).filter ok).min?

/-- The engines and bundle slots that a quota asks for are left beside the grants of other jobs (R217). -/
def slotsLeft (q : Nat) (others : List T1Grant) : Bool :=
  ((setBits 64 (q1Groups q)).all fun g =>
    let on := others.filter fun o => bit o.groups g
    q1Engines q + (on.map (·.engines)).sum ≤ 8 && q1Bundles q + (on.map (·.bundles)).sum ≤ 16)
  && (setBits 8 (q1Dies q)).all fun k =>
    q1DieBundles q + ((others.filter fun o => bit o.dies k).map (·.dieBundles)).sum ≤ 8

/-- Scratch and SRAM stretches of a grant, as zeroed before the first command. -/
def T1Grant.stretches (g : T1Grant) : List (Nat × Nat) :=
  (setBits 64 g.groups).map (fun k => (scratchBase + k * scratchSpan + g.scratchOff, g.scratchLen))
    ++ (setBits 8 g.dies).map fun k => (sramBase + k * sramStep + g.sramOff, g.sramLen)

/-- Job address space that the windows of tier 1 take. -/
def t1Span : Nat := 0x5000_0000

/-- A fresh grant for the job; none when no common offset exists, or when another job's grant, made before its quota was
lowered, leaves too few engines or bundle slots (R217; that the start is then refused like one that finds no offset is the
model's choice, log entry 43). -/
def Dev.grantT1 (d : Dev) (j : Nat) : Option Dev :=
  let q := d.t1Quota j
  let others := d.otherGrants j
  let scr := (others.filter fun g => g.groups &&& q1Groups q ≠ 0).map fun g => (g.scratchOff, g.scratchLen)
  let sram := (others.filter fun g => g.dies &&& q1Dies q ≠ 0).map fun g => (g.sramOff, g.sramLen)
  if !slotsLeft q others then none else
  match commonOffset scratchSpan (q1Scratch q) (d.free 0 % 64 * 0x1_0000) scr,
        commonOffset sramSize (q1Sram q) (d.free 1 % 384 * 0x1_0000) sram with
  | some so, some mo =>
    let g := grantOf q so mo
    let x := d.job j
    let taken := (0, 0x1_0000) :: x.pages.map fun p => (p.va, p.size)
    let ok (a : Nat) : Bool := a % 0x1_0000 = 0 && a + t1Span ≤ 2 ^ 52 && !(taken.any fun t => overlaps a t1Span t.1 t.2)
    let want := d.free 2 % 2 ^ 36 * 0x1_0000
    match (if ok want then some want
           else ((taken.map fun t => ceilDiv (t.1 + t.2) 0x1_0000 * 0x1_0000).filter ok).min?) with
    | none => none
    | some va =>
      let d := d.takeN 3
      let d := d.setJob j { x with t1 := some g, t1Va := va, t1Stale := false }
      some (g.stretches.foldl (fun d s => { d with mem := memZero d.mem s.1 s.2 }) d)
  | _, _ => none

/-! ### The checks of a start -/

/-- Bytes that are mapped, writable, and lie in these tiers. -/
def Dev.writableIn (d : Dev) (j va n : Nat) (tiers : List Nat) : Bool :=
  n = 0 || ((d.firstFault j va n true).isNone && d.inTiers j va n tiers)

/-- The update's tables (R296). -/
def Dev.updateTablesOk (d : Dev) (j : Nat) : Bool :=
  let vote := d.cget (Cat.UPD_VOTE_VA j)
  let norm := d.cget (Cat.UPD_NORM_VA j)
  (vote = 0 && norm = 0) ||
    (d.voteNorms j ≤ 4096 && (vote = 0 || d.writableIn j vote 64 [2, 3])
      && (norm = 0 || d.writableIn j norm (32 * d.voteNorms j) [2, 3]))

/-- Trace and sample rings lie in writable tier 3 pages (R471). -/
def Dev.traceRingsOk (d : Dev) (j : Nat) : Bool :=
  d.writableIn j (d.cget (Cat.TRC_RING_VA j)) (d.cget (Cat.TRC_RING_BYTES j)) [3]
    && d.writableIn j (d.cget (Cat.SMP_RING_VA j)) (d.cget (Cat.SMP_RING_BYTES j)) [3]

/-- The VALID records of the shard table. -/
def Dev.shardTable (d : Dev) (j : Nat) : Tbl Nat :=
  let va := d.cget (Cat.RED_SHARD_TABLE_VA j)
  if va = 0 then []
  else
    ((List.range (d.cget (Cat.RED_SHARD_COUNT j))).map fun i => (i, d.jnat j (va + 32 * i) 32)).filter
      fun kr => shardValid kr.2

/-- Buffers of a shard. -/
def shardBufs (n : Nat) : List (Nat × Nat) :=
  (fld n 204 52, shardBytes n) :: if shardBuf1 n = 0 then [] else [(shardBuf1 n, shardBytes n)]

def Dev.shardOk (d : Dev) (j n : Nat) : Bool :=
  fld n 96 7 = 0 && fld n 0 32 = 0 && fld n 204 52 % 64 = 0 && shardBuf1 n % 64 = 0 && shardCount n ≠ 0
    && shardCount n % 32 = 0 && shardNorm n < d.voteNorms j && shardAcc n ≤ 1
    && (shardBufs n).all fun b => d.writableIn j b.1 b.2 [2, 3]

def stretchesApart : List (Nat × Nat) → Bool
  | [] => true
  | a :: t => t.all (fun b => !overlaps a.1 a.2 b.1 b.2) && stretchesApart t

/-- The shard table passes R359. -/
def Dev.shardTableOk (d : Dev) (j : Nat) : Bool :=
  let va := d.cget (Cat.RED_SHARD_TABLE_VA j)
  va = 0 ||
    (va % 32 = 0 && (d.firstFault j va (32 * d.cget (Cat.RED_SHARD_COUNT j)) true).isNone
      && (d.shardTable j).all (fun kr => d.shardOk j kr.2)
      && stretchesApart ((d.shardTable j).map fun kr => shardBufs kr.2).flatten
      && d.cget (Cat.UPD_NORM_VA j) ≠ 0
      && (d.member j ≠ d.voteRoot j ||
        d.writableIn j (d.cget (Cat.RED_VOTE_BUF_VA j)) (4 * d.cget (Cat.RED_MEMBERS j) * d.voteNorms j) [2, 3]))

/-- Latch the shards, unarmed (R359). -/
def Dev.reductionStart (d : Dev) (j : Nat) : Dev :=
  let shards := d.shardTable j
  let d := d.setRed j { (d.job j).red with shards := shards, runs := [] }
  shards.foldl (fun d kr => (d.armShard j kr.1 0 armedNone).armShard j kr.1 1 armedNone) d

/-! ### JOB_CONTROL (R73, R74, R99) -/

/-- Every ring of the job looks at its entries again. -/
def Dev.wakeRings (d : Dev) (j : Nat) : Dev :=
  (List.range 64).foldl (fun d q =>
    let r := d.ring j q
    if r.st = .active then (d.takePushed j q r.pushed.length).promote j q else d) d

/-- Counts that the next sample is taken against (R473). -/
def Dev.sampleCounts (d : Dev) (j : Nat) : Nat × Nat × Nat × Nat :=
  (d.cget (Cat.JOB_RETIRED j), d.cget (Cat.JOB_NOT_CLEAN j) + d.cget (Cat.JOB_FAILED j), (d.job j).dropLines,
   (d.job j).invalids)

/-- A job starts: granted, checked, latched, RUNNING; or the refusal. -/
def Dev.startJob (d : Dev) (j : Nat) : WriteResult :=
  let x := d.job j
  let granted := if x.st = .created || x.t1Stale then d.grantT1 j else some d
  match granted with
  | none => refuse (d.lastStatus j 0x21 0) stDenied
  | some g =>
    if !g.statTableOk j || !g.traceRingsOk j || !g.updateTablesOk j then refuse d stBadType
    else if g.placementOn j && !g.expertTableOk j then refuse (d.bump Cat.NMU_TABLE_REJECT) stBadType
    else if !g.shardTableOk j then refuse (d.bump Cat.RED_TABLE_REJECT) stBadType
    else
      let d := ((g.statStart j).expertStart j).reductionStart j
      let d := d.setJob j { d.job j with
        st := .running, smpSeq := 0, smpGap := false, smpAt := d.now, smpBase := d.sampleCounts j, issued := [] }
      ⟨(d.cset (Cat.JOB_CONTROL j) 1).wakeRings j, stOk, false⟩

def execJobStartD (r : Req) (j : Nat) : Dev → Dev :=
  catWrite r (0x2100 + j) 2 (leBytes 1 1) .byTable (fun _ => j < 16) fun d =>
    if (d.job j).isStopped then d.startJob j else refuse d stDenied

def execJobStopD (r : Req) (j : Nat) : Dev → Dev :=
  catWrite r (0x2100 + j) 2 (leBytes 1 2) .byTable (fun _ => j < 16) fun d =>
    let x := d.job j
    if x.st ≠ .running then refuse d stDenied
    else
      let d := d.setJob j { x with st := .stopping }
      let d := { d with cmds := Tbl.mapVals (fun _ c => if c.job = j && c.st = CmdState.parked then c.preempted else c) d.cmds }
      ⟨(d.cset (Cat.JOB_CONTROL j) 2).jobDrained j, stOk, false⟩

/-- The job's connections are freed from any state, their transfers discarded with no outcome. -/
def Dev.freeConns (d : Dev) (j : Nat) : Dev :=
  let mine (c : Nat) : Bool := match d.conn? c with | some x => x.job = j | none => false
  { d with net := { d.net with
      hold := d.net.hold.filter (fun h => !mine h.pkt.conn), versions := d.net.versions.filter (fun h => !mine h.pkt.conn),
      reads := Tbl.keep (fun _ r => r.job ≠ j) d.net.reads, conns := Tbl.keep (fun _ x => x.job ≠ j) d.net.conns } }

/-- What a unit keeps of a job that is torn down goes: its lines and granules, and an engine that served it last served a
job that is no more (R75, R174, R229). -/
def ExecUnit.forget (u : ExecUnit) (j : Nat) : ExecUnit :=
  { u with buf := Tbl.keep (fun _ l => l.job ≠ j) u.buf, code := Tbl.keep (fun key _ => key % 16 ≠ j) u.code,
           engines := Tbl.mapVals (fun _ e => if e.lastJob = some j then { e with lastJob := some 16 } else e) u.engines }

/-- Clearing of a job (R73): commands, accumulators, tier 1, pages, connections, quotas; its regions are revoked. -/
def Dev.clearJob (d : Dev) (j : Nat) : Dev :=
  let x := d.job j
  let d : Dev := { d with
    cmds := Tbl.keep (fun _ c => c.job ≠ j) d.cmds, rings := Tbl.keep (fun key _ => key / 64 ≠ j) d.rings,
    units := Tbl.mapVals (fun _ u => u.forget j) d.units }
  let d := match x.t1 with
    | some g => g.stretches.foldl (fun (d : Dev) (s : Nat × Nat) => { d with mem := memZero d.mem s.1 s.2 }) d
    | none => d
  let d : Dev := d.freeConns j
  let regions := d.net.regions.filter fun kr => kr.2.job = j && kr.2.st = .valid
  let d := regions.foldl (fun d kr => d.revoke kr.1 d.now) d
  let d := (List.range 6).foldl (fun d i => d.cset (Cat.MEM_QUOTA j (i + 1)) 0) (d.bset (Cat.MEM_QUOTA_T1 j) (leBytes 32 0))
  d.setJob j { Job.empty with st := .teardown, tenant := x.tenant, keySlot := x.keySlot }

def execJobTeardownD (r : Req) (j : Nat) : Dev → Dev :=
  catWrite r (0x2100 + j) 2 (leBytes 1 3) .byTable (fun _ => j < 16) fun d =>
    if (d.job j).isStopped then ⟨(d.clearJob j).cset (Cat.JOB_CONTROL j) 3, stOk, false⟩ else refuse d stDenied

/-- Clearing has ended and every revocation of the job is complete. -/
def execTeardownCompleteD (at_ j : Nat) (d : Dev) : Dev :=
  let d := d.advance at_
  if (d.job j).st = .teardown && d.regionsOf j = 0 then { d with jobs := Tbl.erase d.jobs j } else d

/-! ### SEC_JOB_CREATE (R417) -/

/-- The lowest FREE job slot, or the one named when it is FREE. -/
def Dev.freeJob (d : Dev) (job : Nat) : Option Nat :=
  (List.range 16).find? fun j => (d.job j).st = .free && (job = 0xFF || job = j)

/-- The channel of a protected request holds this key slot. -/
def Dev.holdsSlot (d : Dev) (r : Req) (slot : Nat) : Bool :=
  r.prot.isSome && slot < 64 &&
    match d.session? r.sess with
    | some s => bit s.slots slot
    | none => false

def execSecJobCreateD (r : Req) (slot job : Nat) : Dev → Dev :=
  catWrite r 0x7010 4 (leBytes 2 (slot % 256 + 256 * job)) .anyProtected (fun _ => slot < 64 && (job < 16 || job = 0xFF)) fun d =>
    if !d.holdsSlot r slot then refuse d stDenied
    else
      match d.freeJob job with
      | none => refuse d stDenied
      | some j =>
        let tenant := match Tbl.find? d.keys slot with | some k => k.tenant | none => 0
        let d := d.setJob j { Job.empty with st := .created, tenant := tenant, keySlot := slot }
        let d := (List.range 6).foldl (fun d i => d.cset (Cat.MEM_QUOTA j (i + 1)) 0) (d.bset (Cat.MEM_QUOTA_T1 j) (leBytes 32 0))
        -- no step has been rolled (R157)
        let d := d.cset (Cat.NUM_LAST_ROLL_STEP j) 0xFFFFFFFF
        let d := d.bset Cat.SEC_JOB_CREATE (leBytes 2 (slot + 256 * j))
        -- the answer carries the job slot
        ⟨(d.catTrace r none 0x7010 4 (leBytes 2 (slot % 256 + 256 * job))).answer r stOk 0 (leBytes 1 j) 0x7010 4 1, stOk, true⟩

/-! ### Rings (R76, R77, R81) -/

/-- A command leaves the device with no record: its units are freed. -/
def Dev.abandon (d : Dev) (k : Nat) : Dev :=
  match d.cmd? k with
  | none => d
  | some c =>
    let d := (setBits 72 c.unitsOn).foldl (fun d u =>
      let x := d.unit u
      let d := d.setUnit u { x with
        bundles := Tbl.keep (fun _ b => b.cmd ≠ k) x.bundles,
        mover := { x.mover with queue := x.mover.queue.filter (fun s => s.cmd ≠ k),
                                ctx := Tbl.keep (fun _ s => s.cmd ≠ k) x.mover.ctx } }
      d.freePart u k) d
    let d := { d with cmds := Tbl.erase d.cmds k, gathers := d.gathers.filter fun g => g.1 ≠ k }
    if c.inFlight then (d.slotOnRetire c d.now).jobDrained c.job else d

/-- Commands of a ring that are held go without records. -/
def Dev.discardRing (d : Dev) (j q : Nat) : Dev :=
  (d.cmds.filter fun kc => kc.2.job = j && kc.2.ring = q).foldl (fun d kc => d.abandon kc.1) d

/-- Every 64 KiB of `n` bytes at a job address is a mapped page of tiers 2 to 4, encrypted when the rings are sealed. -/
def Dev.ringPages (d : Dev) (j va n : Nat) (write : Bool) : Bool :=
  d.inTiers j va n [2, 3, 4] && (d.firstFault j va n write).isNone &&
    (List.range ((va + n - 1) / 0x1_0000 - va / 0x1_0000 + 1)).all fun i =>
      match d.xlate j (max va ((va / 0x1_0000 + i) * 0x1_0000)) false with
      | some (pa, p) => d.cget (Cat.SEC_RING_SEALED j) = 0 || d.tierOf pa ≠ 4 || p.enc
      | none => false

def Dev.ringRecOk (d : Dev) (j : Nat) (v : List Byte) : Bool :=
  let n := leNat v
  let rl := fld n 52 5
  let cl := fld n 57 5
  v.length = 16 && fld n 62 2 = 0 && 6 ≤ rl && rl ≤ 16 && 6 ≤ cl && cl ≤ 16
    && fld n 0 52 % (64 * 2 ^ rl) = 0 && fld n 64 52 % (32 * 2 ^ cl) = 0
    && d.ringPages j (fld n 0 52) (64 * 2 ^ rl) false && d.ringPages j (fld n 64 52) (32 * 2 ^ cl) true

def execRingConfigD (r : Req) (j q : Nat) (rec : List Byte) : Dev → Dev :=
  catWrite r (0x2200 + 64 * j + q) 0 rec .byTable (fun d => j < 16 && q < 64 && d.ringRecOk j rec)
    (okWith fun d =>
      (((d.discardRing j q).bset (Cat.RING_CONFIG j q) rec).setRing j q
        { Ring.empty with st := .active, record := leNat rec }))

/-- RING_CONTROL: `f` answers none where R81 lists no transition. -/
def ringControl (r : Req) (j q v : Nat) (f : Dev → Option Dev) : Dev → Dev :=
  catWrite r (0x2200 + 64 * j + q) 2 (leBytes 1 v) .byTable (fun _ => j < 16 && q < 64) fun d =>
    match f d with
    | some d => ⟨d.cset (Cat.RING_CONTROL j q) v, stOk, false⟩
    | none => refuse d stDenied

def execRingRestartD (r : Req) (j q : Nat) : Dev → Dev :=
  ringControl r j q 1 fun d =>
    let x := d.ring j q
    if x.st = .stopped || x.st = .halted then
      let halted : Bool := x.st = RingState.halted
      let d : Dev := if halted then x.haltedCmds.foldl (fun d k => d.abandon k) d else d
      let d := d.setRing j q { d.ring j q with st := .active, haltedCmds := if halted then [] else x.haltedCmds }
      some ((d.takePushed j q (d.ring j q).pushed.length).promote j q)
    else none

/-- A halted command goes on; a part of it whose work ended meanwhile ends now (R93, R254). -/
def Dev.resumeCommand (d : Dev) (k : Nat) : Dev :=
  let d := (d.markHalted k false).updCmd k fun c => { c with st := .running }
  (List.range 72).foldl (fun d u => d.checkPart u k) d

def execRingResumeD (r : Req) (j q : Nat) : Dev → Dev :=
  ringControl r j q 2 fun d =>
    let x := d.ring j q
    if x.st ≠ .halted then none
    else
      let d := d.setRing j q { x with st := .active, haltedCmds := [] }
      let d := x.haltedCmds.foldl (fun d k => d.resumeCommand k) d
      some ((d.takePushed j q (d.ring j q).pushed.length).promote j q)

def execRingResetD (r : Req) (j q : Nat) : Dev → Dev :=
  ringControl r j q 3 fun d =>
    let x := d.ring j q
    if !(d.job j).isStopped || x.st = .idle then none
    else some ((d.discardRing j q).setRing j q { Ring.empty with st := .active, record := x.record })

end Sys2Proof.Machine
end

