-- ==== Sys2Proof/Machine/Security.lean ====
section
/-! DEFINITION. Security (R401 to R429): quotes, channels, key slots and their rotation, firmware, the owner key, IDE
streams, the entropy source. -/

namespace Sys2Proof.Machine

/-! ### The configuration of a job (R412) -/

/-- Read/write entries that enter CONFIG_DIGEST, for job `j`. -/
def configNamed (j : Nat) : List Nat :=
  [Cat.NUM_CLIP_THRESH j, Cat.NMU_PLACE_THRESH j, Cat.RED_GRACE j, Cat.RED_VOTE_WINDOW j, Cat.RED_VOTE_TIMEOUT j,
   Cat.PACE_THRESH j, Cat.MEM_HOST_APERTURE j, Cat.SEC_HOST_ACCESS j, Cat.SEC_DOORBELL_PORTS j, Cat.TRC_DEVICE_COPY j,
   Cat.SMP_INTERVAL j]

/-- Keys of an entry that carry job slot `j`. -/
def CatEntry.jobKeys (e : CatEntry) (j : Nat) : List Nat :=
  let fields (index : Nat) : List Nat := (List.range e.fcount).map fun f => index * 256 + e.fld + f
  match e.scope with
  | .job => fields (e.base + j)
  | .ring => (List.range 64).flatMap fun q => fields (e.base + 64 * j + q)
  | _ => []

/-- The settings of a job in ascending index and field, each with its type. -/
def configKeys (j : Nat) : Tbl CatTy :=
  catRows.foldl (fun t e =>
    (e.jobKeys j).foldl (fun t key =>
      if e.acc = .whenIdle || e.acc = .writeOnce || e.acc = .ownerOnly || (configNamed j).contains key then
        Tbl.set t key e.ty
      else t) t) []

/-- The stored value of an entry. A counter does not wrap: it reads its type's largest value from there on (R234, R312). -/
def Dev.stored (d : Dev) (key : Nat) (ty : CatTy) : List Byte :=
  if ty = .blob || ty = .string then d.bget key else leBytes ty.bytes (min (d.cget key) (256 ^ ty.bytes - 1))

def Dev.configBytes (d : Dev) (j : Nat) : List Byte :=
  (configKeys j).flatMap fun kt =>
    leBytes 2 (kt.1 / 256) ++ leBytes 1 (kt.1 % 256) ++ leBytes 1 kt.2.code ++ d.stored kt.1 kt.2

/-! ### Quotes (R410, R411) -/

def tbStateCode : TbState → Nat
  | .freeRun => 0
  | .acquiring => 1
  | .locked => 2
  | .holdover => 3

def jobStateCode : JobState → Nat
  | .free => 0
  | .created => 1
  | .running => 2
  | .stopping => 3
  | .stopped => 4
  | .teardown => 5

def Dev.measure (d : Dev) (i : Nat) : Nat := (d.boot.measures[i]?).getD 0

/-- The quote body, as a number of 5,120 bits; `j` is the job, 0xFF for the device alone. -/
def Dev.quoteBody (d : Dev) (j nonce : Nat) : Nat :=
  let x := d.job j
  let gen := match Tbl.find? d.keys x.keySlot with | some k => k.gen | none => 0
  let digest := match d.tt.image with | some i => leNat (shake256 i.bytes 32) | none => 0
  let secure (p : Nat) : Nat := b2n ((d.host p).ide0 = .secure || (d.host p).ide1 = .secure)
  let job : Nat :=
    if 16 ≤ j then 0
    else
      jobStateCode x.st * 2 ^ 5088 + x.tenant * 2 ^ 5072 + gen * 2 ^ 5040
        + leNat (shake256 (d.configBytes j) 64) % 2 ^ 512 * 2 ^ 1152 + leNat (d.bget (Cat.MEM_QUOTA_T1 j)) % 2 ^ 256 * 2 ^ 896
        + d.quota j 1 % 2 ^ 64 * 2 ^ 832 + d.quota j 2 % 2 ^ 64 * 2 ^ 768 + d.quota j 3 % 2 ^ 64 * 2 ^ 704
        + d.quota j 4 % 2 ^ 32 * 2 ^ 672 + d.quota j 5 % 2 ^ 32 * 2 ^ 640 + d.quota j 6 % 2 ^ 64 * 2 ^ 576
  2 ^ 5104 + j * 2 ^ 5096 + job + d.nv.svnFused * 2 ^ 5024 + d.boot.bank * 2 ^ 5016 + tbStateCode d.tb.st * 2 ^ 5008
    + ttStateCode d.tt.st * 2 ^ 5000 + d.cget Cat.TT_STAGE * 2 ^ 4992 + d.cget Cat.TT_ANCHOR_JOB * 2 ^ 4984
    + b2n d.integrityOn * 2 ^ 4983 + secure 0 * 2 ^ 4982 + secure 1 * 2 ^ 4981 + d.now % 2 ^ 64 * 2 ^ 4864
    + nonce * 2 ^ 4608 + leNat identityDigest * 2 ^ 4352 + leNat (shake256 d.boot.kemPublic 32) % 2 ^ 256 * 2 ^ 4096
    + d.measure 0 % 2 ^ 512 * 2 ^ 3584 + d.measure 1 % 2 ^ 512 * 2 ^ 3072 + d.measure 2 % 2 ^ 512 * 2 ^ 2560
    + d.measure 3 % 2 ^ 512 * 2 ^ 2048 + digest % 2 ^ 256 * 2 ^ 1792 + d.cget Cat.TT_EPOCH % 2 ^ 64 * 2 ^ 1728
    + d.cget Cat.TT_FIRST_STEP % 2 ^ 32 * 2 ^ 1696

/-- Body, digest and signature block: 2,240 bytes. -/
def Dev.quote (d : Dev) (j nonce : Nat) : List Byte :=
  let body := leBytes 640 (d.quoteBody j nonce)
  let digest := shake256 body 64
  body ++ digest ++ fit 1536 (d.attest digest)

/-- The requesting session. -/
def Dev.reqSession (d : Dev) (r : Req) (f : Session → WriteResult) : WriteResult :=
  match d.session? r.sess with
  | some s => f s
  | none => refuse d stDenied

def execSecQuoteReqD (r : Req) (v : List Byte) : Dev → Dev :=
  catWrite r 0x7010 0 v .anyone (fun _ => v.length = 40 && fld (leNat v) 264 56 = 0) fun d =>
    d.reqSession r fun s =>
      let n := leNat v
      let j := fld n 256 8
      if d.boot.entropyBad || (j ≠ 0xFF && !(j < 16 && d.holdsKey s j)) then refuse d stDenied
      else
        let q := d.quote j (fld n 0 256)
        ⟨(d.setSession r.sess { s with quote := q }).bump Cat.SEC_QUOTES, stOk, false⟩

/-! ### Channels (R413) -/

/-- The secret that decapsulation gives is a free value: the private key is the device's own. -/
def execSecSessionOpenD (r : Req) (v : List Byte) : Dev → Dev :=
  catWrite r 0x7010 1 v .anyone (fun _ => v.length = 1632) fun d =>
    d.reqSession r fun s =>
      if v.drop 1600 ≠ (shake256 d.boot.kemPublic 32).take 32 then refuse (d.bump Cat.SEC_SESSION_FAIL) stDenied
      else if d.boot.entropyBad then refuse d stDenied
      else
        let (ss, d) := d.take
        let (h, d) := d.take
        let tr := shake256 (d.boot.kemPublic ++ v.take 1600) 64
        let c : Chan := {
          handle := h % 2 ^ 32, ctr := 0, ctrOut := 0, slots := 0, tr := tr,
          conf := shake256 (label "CX1T-CONFIRM" ++ leBytes 32 ss ++ tr) 32,
          keys := shake256 (label "CX1T-CHAN" ++ leBytes 32 ss ++ tr) 72 }
        ⟨d.setSession r.sess { s with chan := some c }, stOk, false⟩

/-! ### Key slots (R415 to R422) -/

def kdRoot (n : Nat) : Nat := fld n 256 256
def kdTenant (n : Nat) : Nat := fld n 240 16
def kdSlot (n : Nat) : Nat := fld n 232 8
def kdGen (n : Nat) : Nat := fld n 200 32
def kdOrigin (n : Nat) : Nat := fld n 184 16
def kdRekey (n : Nat) : Bool := bit n 183

/-- The values of the fields of a delivery. -/
def keyDeliverOk (v : List Byte) : Bool :=
  let n := leNat v
  v.length = 64 && kdTenant n ≠ 0 && (kdSlot n < 64 || kdSlot n = 0xFF) && kdGen n ≠ 0 && fld n 0 183 = 0

/-- The slot that holds a tenant. -/
def Dev.tenantSlot (d : Dev) (t : Nat) : Option Nat := (d.keys.find? fun kk => kk.2.tenant = t).map (·.1)

def Dev.freeKeySlot (d : Dev) : Option Nat := (List.range 64).find? fun k => (Tbl.find? d.keys k).isNone

/-- A session's channel holds a slot from now on. -/
def Session.hold (s : Session) (k : Nat) : Session :=
  { s with chan := s.chan.map fun c => if bit c.slots k then c else { c with slots := c.slots + 2 ^ k } }

/-- Jobs bound to a key slot. -/
def Dev.boundJobs (d : Dev) (k : Nat) : List Nat :=
  (List.range 16).filter fun j => (d.job j).st ≠ .free && (d.job j).keySlot = k

/-- REKEY_MEM is accepted: every bound job STOPPED, none of its regions VALID or REVOKING. -/
def Dev.rekeyOk (d : Dev) (k : Nat) : Bool :=
  (d.boundJobs k).all fun j => (d.job j).st = .stopped && d.regionsOf j = 0

def keyReject (d : Dev) : WriteResult := refuse (d.bump Cat.SEC_KEY_REJECT) stDenied

/-- A free slot is filled: its memory root is the root delivered with it. -/
def Dev.fillSlot (d : Dev) (r : Req) (k n : Nat) : WriteResult :=
  let slot : KeySlot := { tenant := kdTenant n, gen := kdGen n, memGen := kdGen n, origin := kdOrigin n, root := kdRoot n,
                          memRoot := kdRoot n, exported := 0 }
  d.reqSession r fun s => ⟨({ d with keys := Tbl.set d.keys k slot } : Dev).setSession r.sess (s.hold k), stOk, false⟩

/-- The slot that a delivery goes to: the one named, or the lowest free one. -/
def Dev.deliverSlot (d : Dev) (n : Nat) : Option Nat := if kdSlot n = 0xFF then d.freeKeySlot else some (kdSlot n)

def execSecKeyDeliverD (r : Req) (v : List Byte) : Dev → Dev :=
  catWrite r 0x7010 2 v .anyProtected (fun _ => keyDeliverOk v) fun d =>
    let n := leNat v
    match d.deliverSlot n with
    | none => keyReject d
    | some k =>
      match Tbl.find? d.keys k with
      | none => if (d.tenantSlot (kdTenant n)).isSome then keyReject d else d.fillSlot r k n
      | some old =>
        if old.tenant ≠ kdTenant n || kdGen n ≤ old.gen || (kdRekey n && !d.rekeyOk k) then keyReject d
        else
          let slot : KeySlot := { old with gen := kdGen n, root := kdRoot n, origin := kdOrigin n }
          let d := ({ d with keys := Tbl.set d.keys k slot } : Dev).bump Cat.SEC_KEY_ROTATE
          if kdRekey n then d.startLong r 0x7010 2 [] none (.rekey k) 64
          else d.reqSession r fun s => ⟨d.setSession r.sess (s.hold k), stOk, false⟩

/-- An encrypted page of tier 4 is read under one memory root and written back under another. -/
def Dev.rekeyPage (d : Dev) (old new : Nat) (p : Page) : Dev :=
  if !p.enc || d.tierOf p.pa ≠ 4 then d
  else (List.range (p.size / 64)).foldl (fun d i =>
    let pa := p.pa + 64 * i
    d.wrRaw (keyedPa new pa) (d.rd (keyedPa old pa) 64)) d

/-- The re-encryption of a slot ends: its jobs' pages lie under the new memory root and MEM_GEN is the new generation. Pages of
tiers 2 and 3 are held in the clear (log entry 8), so only those of tier 4 change. Lines that the pass finds in error are
handled as by any read (R219, R226, R422). -/
def Dev.endRekey (d : Dev) (k : Nat) (hits : List ScrubHit) : Dev :=
  let pages := (d.boundJobs k).flatMap fun j => (d.job j).pages
  let mine := hits.filter fun h => pages.any fun p => p.pa ≤ 64 * h.line && 64 * h.line < p.pa + p.size
  let d := (List.range 8).foldl (fun d i => if mine.isEmpty then d else d.scrubHits i mine) d
  match Tbl.find? d.keys k with
  | some x =>
    let d := pages.foldl (fun d p => d.rekeyPage x.memRoot x.root p) d
    { d with keys := Tbl.set d.keys k { x with memGen := x.gen, memRoot := x.root } }
  | none => d

/-- The MAC that proves a root on a channel (R416). -/
def proveMac (k : KeySlot) (c : Chan) : List Byte := shake256 (label "CX1T-PROVE" ++ k.catKey ++ c.tr) 32

/-- The value is TENANT, then the MAC (log entry 69). -/
def execSecKeyProveD (r : Req) (tenant : Nat) (mac : List Byte) : Dev → Dev :=
  catWrite r 0x7010 3 (leBytes 2 tenant ++ mac) .anyProtected (fun _ => tenant < 2 ^ 16 && mac.length = 32) fun d =>
    d.reqSession r fun s =>
      match (d.tenantSlot tenant).bind fun k => (Tbl.find? d.keys k).map fun x => (k, x), s.chan with
      | some (k, x), some c =>
        if proveMac x c = mac then ⟨d.setSession r.sess (s.hold k), stOk, false⟩ else keyReject d
      | _, _ => keyReject d

/-- A zeroised slot is held by no channel. -/
def Session.release (s : Session) (k : Nat) : Session :=
  { s with chan := s.chan.map fun c => if bit c.slots k then { c with slots := c.slots - 2 ^ k } else c }

def execSecSlotEraseD (r : Req) (v : Nat) : Dev → Dev :=
  catWrite r 0x7010 5 (leBytes 1 v) (.slotOrOwner v) (fun _ => v < 64) fun d =>
    if !(d.boundJobs v).isEmpty then refuse d stDenied
    else
      ⟨{ d with keys := Tbl.erase d.keys v, sessions := Tbl.mapVals (fun _ s => s.release v) d.sessions }, stOk, false⟩

/-! ### The owner key (R427) -/

/-- The request holds the new key; `sigOk` says that the current key has signed it with SEC_BOOT_COUNT. -/
def execSecOwnerTransferD (r : Req) (v : List Byte) (sigOk : Bool) : Dev → Dev :=
  catWrite r 0x7010 6 v .byTable (fun _ => true) fun d =>
    if d.nv.ownerKey.isEmpty || !sigOk then refuse d stDenied
    else ⟨{ d with nv := { d.nv with ownerKey := v } }, stOk, false⟩

/-! ### Firmware (R403 to R406) -/

/-- An image is whole: its parts have the sizes that R403 gives them. -/
def imageWhole (i : FwImage) : Bool :=
  i.header.length = 128 && i.body.length = imageLen i && imageLen i % 64 = 0 && imageLen i ≤ 0x400_0000 && i.sig.length = 1536

/-- An image of this KIND is valid (R404). -/
def imageValid (nv : NvStore) (kind : Nat) (i : FwImage) : Bool :=
  imageWhole i && imageMagic i = 0x43583146 && imageKind i = kind && !imageRsv i && imageKey i < 4
    && !bit nv.revoked (imageKey i) && i.sigOk && imageDigest i = leNat (shake256 i.body 64)
    && nv.svnFused ≤ imageSvn i && imageSvn i ≤ 64

/-- The image of a KIND in a bank, if it is there and valid. -/
def bankImage (nv : NvStore) (bank : List FwImage) (kind : Nat) : Option FwImage :=
  match bank[kind - 1]? with
  | some i => if imageValid nv kind i then some i else none
  | none => none

/-- Images of a bundle that are refused: each place 1 to 4 must hold a valid image of its KIND. -/
def bundleBad (nv : NvStore) (images : List FwImage) : Nat :=
  ((List.range (max 4 images.length)).filter fun k => 4 ≤ k || (bankImage nv images (k + 1)).isNone).length

/-- A bundle: its images one after the other. -/
def bundleBytes (images : List FwImage) : List Byte := (images.map imageBytes).flatten

def NvStore.setBank (n : NvStore) (b : Nat) (images : List FwImage) : NvStore :=
  if b = 0 then { n with bank0 := images } else { n with bank1 := images }

/-- The bank that the running boot does not use. -/
def Dev.otherBank (d : Dev) : Nat := 1 - d.boot.bank

def execSecFwInstallD (r : Req) (images : List FwImage) : Dev → Dev :=
  catWrite r 0x7020 0 (bundleBytes images) .byTable (fun _ => true) fun d =>
    d.startLong r 0x7020 0 (bundleBytes images) none (.fwInstall images (bundleBad d.nv images = 0))

/-- The end of an installation: the inactive bank, or DENIED with it unchanged; in recovery mode the bank becomes active
and a reset is due 1 s later (R484). -/
def Dev.endInstall (d : Dev) (images : List FwImage) (ok : Bool) : Dev × Nat :=
  if !ok then (d.bumpBy Cat.SEC_FW_REJECT (bundleBad d.nv images), stDenied)
  else
    let b := d.otherBank
    let d : Dev := { d with nv := d.nv.setBank b images }
    if d.boot.recovery then
      ({ d with nv := { d.nv with nextBank := b },
                boot := { d.boot with pendingReset := some (5, d.now + 8000000000) } }, stOk)
    else (d, stOk)

def execSecFwActivateD (r : Req) (v : Nat) : Dev → Dev :=
  catWrite r 0x7020 1 (leBytes 1 v) .byTable (fun _ => v = 1)
    (okWith fun d => ({ d with nv := { d.nv with nextBank := d.otherBank } } : Dev).cset Cat.SEC_FW_ACTIVATE v)

/-- The lowest SVN among the four images of the active bank. -/
def Dev.bankSvn (d : Dev) : Nat := (((d.nv.bank d.boot.bank).map imageSvn).min?).getD 0

def execSecFwCommitD (r : Req) (v : Nat) : Dev → Dev :=
  catWrite r 0x7020 2 (leBytes 1 v) .byTable (fun _ => v < 2) fun d =>
    if v = 0 then ⟨d, stOk, false⟩
    else if d.boot.fallback || d.boot.recovery then refuse d stDenied
    else
      ⟨({ d with nv := { d.nv with svnFused := max d.nv.svnFused (min 64 d.bankSvn) } } : Dev).cset Cat.SEC_FW_COMMIT 1,
       stOk, false⟩

/-! ### IDE streams and entropy (R425, R426) -/

/-- Half of a SEC_IDE_KEYS value belongs to each stream; a stream with a half of zeros is off. -/
def ideHalf (v : List Byte) (k : Nat) : IdeState :=
  let h := v.length / 2
  if ((v.drop (k * h)).take h).all (· = 0) then .off else .secure

def execSecIdeKeysD (r : Req) (p : Nat) (v : List Byte) : Dev → Dev :=
  catWrite r (0x7030 + p) 0 v .byTable (fun _ => p < 2 && v.length % 2 = 0)
    (okWith fun d => (d.setHost p { d.host p with ideKeys := v, ide0 := ideHalf v 0, ide1 := ideHalf v 1 }))

def execSecIdeFailD (at_ p stream : Nat) (d : Dev) : Dev :=
  let d := d.advance at_
  let h := d.host p
  if 2 ≤ p then d
  else if stream = 0 && h.ide0 = .secure then ((d.setHost p { h with ide0 := .insecure }).bump Cat.SEC_IDE_FAIL).alert 8
  else if stream = 1 && h.ide1 = .secure then ((d.setHost p { h with ide1 := .insecure }).bump Cat.SEC_IDE_FAIL).alert 8
  else d

def execSecEntropyFailD (at_ : Nat) (d : Dev) : Dev :=
  let d := d.advance at_
  if d.boot.step = 0 then d
  else (({ d with boot := { d.boot with entropyBad := true } } : Dev).bump Cat.SEC_ENTROPY_FAIL).alert 9

def execEntropyRecoveryD (at_ : Nat) (d : Dev) : Dev :=
  let d := d.advance at_
  { d with boot := { d.boot with entropyBad := false } }

end Sys2Proof.Machine
end

