-- ==== Sys2Proof/Machine/Telemetry.lean ====
section
/-! DEFINITION. Counter samples (R473), SAMPLE_NOW, and the alert causes (R475). -/

namespace Sys2Proof.Machine

/-! ### Sample records (R473) -/

/-- Engines of a unit that commands of a job hold. -/
def Dev.jobEngines (d : Dev) (j u : Nat) : List Nat :=
  (List.range 8).filterMap fun e =>
    match (d.engine u e).owner with
    | some k => if d.cmdJob k = j then some k else none
    | none => none

/-- Units on which the job held an engine or a bundle since the last sample, rising. -/
def Dev.sampleUnits (d : Dev) (j : Nat) : List Nat :=
  (List.range 72).filter fun u =>
    (Tbl.find? (d.job j).issued u).isSome || !(d.jobEngines j u).isEmpty
      || (d.unit u).bundles.any fun kb => d.cmdJob kb.2.cmd = j

/-- The command that holds the most engines: the first of the most. -/
def mostOf (ks : List Nat) : Option Nat :=
  ks.foldl (fun (b : Option Nat) k =>
    match b with
    | some m => if ks.count m < ks.count k then some k else b
    | none => some k) none

/-- One unit entry: the counts of engine cycles are the device's own. -/
def Dev.unitEntry (d : Dev) (j u : Nat) : Dev × Nat :=
  let held := d.jobEngines j u
  let ids := match (mostOf held).bind fun k => d.cmd? k with
    | some c => fld c.desc 32 16 * 2 ^ 80 + fld c.desc 48 16 * 2 ^ 64 + fld c.desc 64 16 * 2 ^ 48
    | none => 0
  let counts := ((List.range 13).map fun i => d.free i % 2 ^ 32 * 2 ^ (96 + 32 * i)).sum
  (d.takeN 13, counts + ids + u * 2 ^ 40 + held.length * 2 ^ 36 + Tbl.getD (d.job j).issued u 0 % 2 ^ 32)

def Dev.sampleHeader (d : Dev) (j units stamp phase : Nat) (forced : Bool) : Nat :=
  let x := d.job j
  let run := d.tt.st = .running
  let (retired, notClean, drops, invalid) := x.smpBase
  let delta (now base : Nat) : Nat := (now - base) % 2 ^ 32
  stamp % 2 ^ 64 * 2 ^ 448 + (if run then d.tt.step else 0) % 2 ^ 32 * 2 ^ 416
    + (if run then d.tt.slot else 0) % 2 ^ 16 * 2 ^ 400 + units * 2 ^ 392 + j * 2 ^ 388 + b2n forced * 2 ^ 387
    + b2n x.smpGap * 2 ^ 386 + phase * 2 ^ 385 + (x.smpSeq + 1) % 2 ^ 32 * 2 ^ 352 + d.power.brim * 2 ^ 192
    + delta (d.cget (Cat.JOB_RETIRED j)) retired * 2 ^ 160
    + delta (d.cget (Cat.JOB_NOT_CLEAN j) + d.cget (Cat.JOB_FAILED j)) notClean * 2 ^ 128
    + delta x.dropLines drops * 2 ^ 96 + delta x.invalids invalid * 2 ^ 64

/-- 64-byte parts written one after another into a ring of `size` bytes from position `head`. -/
def Dev.putParts (d : Dev) (j base size : Nat) : Nat → List Nat → Dev
  | _, [] => d
  | head, v :: t => (d.jwr j (base + head % size) (leBytes 64 v)).putParts j base size (head + 64) t

/-- A sample record of the job is written, or discarded when it finds the ring full or not mapped. -/
def Dev.takeSample (d : Dev) (j stamp : Nat) (forced : Bool) : Dev :=
  let size := d.cget (Cat.SMP_RING_BYTES j)
  let base := d.cget (Cat.SMP_RING_VA j)
  let head := d.cget (Cat.SMP_HEAD j)
  let units := d.sampleUnits j
  let (d, entries) := units.foldl (fun (s : Dev × List Nat) u =>
    let (d, e) := s.1.unitEntry j u
    (d, s.2 ++ [e])) (d, [])
  let len := 64 * (units.length + 1)
  let full := d.cget (Cat.TRC_STOP_FULL j) = 1 && d.cget (Cat.SMP_CONSUMED j) + size < head + len
  let mapped := (List.range (units.length + 1)).all fun i => (d.xlate j (base + (head + 64 * i) % size) true).isSome
  let header := d.sampleHeader j units.length stamp (ringPhase head size) forced
  let x := d.job j
  if full || !mapped || len > size then
    let d := if full || len > size then d
      else match (List.range (units.length + 1)).find? fun i => (d.xlate j (base + (head + 64 * i) % size) true).isNone with
        | some i => d.xfault j (base + (head + 64 * i) % size)
        | none => d
    (d.bump (Cat.SMP_LOST j)).setJob j { x with smpSeq := x.smpSeq + 1, smpGap := true }
  else
    let d := (d.putParts j base size head (header :: entries)).bumpBy (Cat.SMP_HEAD j) len
    let d := d.setJob j { d.job j with smpSeq := x.smpSeq + 1, smpGap := false }
    d.incMarkOpt j (d.cget (Cat.SMP_MARK j)) d.stamp

/-- Counts against which the next sample is taken. -/
def Dev.latchCounts (d : Dev) (j at_ : Nat) : Dev :=
  let x := d.job j
  d.setJob j { x with
    smpAt := at_, issued := [],
    smpBase := (d.cget (Cat.JOB_RETIRED j), d.cget (Cat.JOB_NOT_CLEAN j) + d.cget (Cat.JOB_FAILED j), x.dropLines, x.invalids) }

/-- The sample instant: the whole multiple of SMP_INTERVAL after the last one. -/
def execSampleD (j : Nat) (d : Dev) : Dev :=
  let x := d.job j
  if 16 ≤ j || x.st = .free || x.st = .teardown || d.cget (Cat.SMP_RING_BYTES j) = 0 then d
  else
    let i := max 1 (d.cget (Cat.SMP_INTERVAL j))
    let t := (x.smpAt / i + 1) * i
    let d := d.advance t
    (d.takeSample j t false).latchCounts j t

/-- SAMPLE_NOW: one extra record at once; the interval of the next instant goes on (R84, R473). -/
def execSampleNowD : Nat → Nat → Dev → Dev :=
  Dev.dispatch 7 2 fun k c d =>
    let d := d.atUnit k 0x91
    let d := if d.cget (Cat.SMP_RING_BYTES c.job) = 0 then d else d.takeSample c.job d.stamp true
    d.workDone k

/-! ### Restoring order (R474) -/

/-- The key by which the records of every ring and module are merged: the stamp, the digest of the module whose ring holds
the record, the unit, the engine, and END before BEGIN. Records of equal keys keep the order of their ring. -/
def mergeKey (identity : List Byte) (r : TraceRec) : List Nat :=
  [r.stamp, leNat identity.reverse, r.unit, r.engine, b2n (r.kind = 0x01)]

/-- A record comes before another in the merge. -/
def mergesBefore (a b : List Byte × TraceRec) : Bool := mergeKey a.1 a.2 < mergeKey b.1 b.2

/-! ### Alerts (R475) -/

/-- Writing 1 clears a cause, but for bit 11 while recovery mode lasts. -/
def execAlertCauseD (r : Req) (v : Nat) : Dev → Dev :=
  catWrite r 0x8000 1 (leBytes 4 v) .byTable (fun _ => v < 2 ^ 32)
    (okWith fun d =>
      let clear := if d.boot.recovery then setFld v 11 1 0 else v
      let c := d.cget Cat.ALERT_CAUSE
      d.cset Cat.ALERT_CAUSE (c - (c &&& clear)))

end Sys2Proof.Machine
end

