-- ==== Sys2Proof/Machine/Boot.lean ====
section
/-! DEFINITION. Start-up, resets, recovery mode and thermal trips (R395, R405, R479 to R490), and the end of a long
Catalogue operation (R451, R452). -/

namespace Sys2Proof.Machine

/-! ### What a reset leaves (R451, R485, R486) -/

/-- The non-volatile store after a reset: an installation that it interrupts leaves the inactive bank invalid. -/
def Dev.nvAfterReset (d : Dev) : NvStore :=
  match d.long with
  | some l =>
    match l.kind with
    | .fwInstall _ _ => d.nv.setBank d.otherBank []
    | _ => d.nv
  | none => d.nv

/-- The default of MGMT_IPV4: 169.254.1.(POS + 1). -/
def defaultIpv4 (pos : Nat) : Nat := 0xA9FE0100 + (pos + 1) % 256

/-- The levels of PERST0_N and PERST1_N are the carrier's. -/
def Dev.perstLevels (d : Dev) : Tbl HostPort :=
  (List.range 2).foldl (fun t p =>
    if (d.host p).perstLow then t else Tbl.set t p { HostPort.empty with perstLow := false }) []

/-- Everything is lost but what the non-volatile store, the fuses and the pins hold. With `aux`, VDD_AUX stays on and the
sequence stands before step 2. Host memory is the host's; free values and the output go on. -/
def Dev.resetTo (d : Dev) (cause : Nat) (aux : Bool) : Dev :=
  let b := d.boot
  let r : Dev := { Dev.reset with
    fresh := d.fresh, out := d.out, mem := d.mem.filter (fun c => 2 ^ 64 ≤ c.1), nv := d.nvAfterReset,
    hosts := d.perstLevels, cat := Tbl.set [] Cat.MGMT_IPV4 (defaultIpv4 b.pos),
    pins := { Pins.reset with thermTripN := !b.tripped },
    boot := { Boot.reset with
      input := b.input, modRstN := b.modRstN, cause := cause, pos := b.pos, tripped := b.tripped, pulsed := b.pulsed,
      tripSeen := b.tripSeen, step := b2n aux, rails := if aux then 2 ^ 15 else 0,
      times := if aux then b.times.take 1 else [], ssc := d.nv.sscEn } }
  if aux then r.noteHours [] r.nv.hours else r

/-- A change of the boot registers. -/
def Dev.setBoot (d : Dev) (f : Boot → Boot) : Dev := { d with boot := f d.boot }

/-- VDD_AUX is in regulation. -/
def Dev.auxUp (d : Dev) : Bool := bit d.boot.rails 15

/-! ### Power and reset pins (R479, R485, R487, R489) -/

/-- t0: the straps are sampled. -/
def execPowerOnD (pos : BitVec 7) (d : Dev) : Dev :=
  if d.boot.input then d
  else
    (d.setBoot fun b => { b with
      input := true, modRstN := true, pos := pos.toNat, tripSeen := false, pulsed := b.tripped }).resetTo 1 false

def execInputLossD (at_ : Nat) (d : Dev) : Dev :=
  let d := d.advance at_
  if !d.boot.input then d else (d.setBoot fun b => { b with input := false }).resetTo 1 false

def execModRstNAssertD (at_ : Nat) (d : Dev) : Dev :=
  let d := d.advance at_
  if !d.boot.modRstN then d
  else
    let d' := d.setBoot fun b => { b with modRstN := false }
    if !d.boot.input then d' else d'.resetTo (if d.boot.tripped then 4 else 2) d.auxUp

def execModRstNReleaseD (at_ : Nat) (d : Dev) : Dev :=
  let d := d.advance at_
  if d.boot.modRstN then d else d.setBoot fun b => { b with modRstN := true, pulsed := b.tripped }

/-- After a trip: the input was cycled or MOD_RST_N pulsed, and every junction reads below 90 °C. -/
def execTripCooldownD (at_ : Nat) (d : Dev) : Dev :=
  let d := d.advance at_
  if !d.boot.tripped || !d.boot.pulsed || !d.boot.input || !d.boot.modRstN then d
  else { (d.setBoot fun b => { b with tripped := false, pulsed := false }) with pins := { d.pins with thermTripN := true } }

def execDevResetD (r : Req) (v : Nat) : Dev → Dev :=
  catWrite r 0x1001 4 (leBytes 1 v) .byTable (fun _ => v = 0xA5)
    (okWith fun d => d.setBoot fun b => { b with pendingReset := some (3, d.now + 80000000) })

/-- A reset that is due takes effect at its instant. -/
def dueReset (cause : Nat) (d : Dev) : Dev :=
  match d.boot.pendingReset with
  | some (c, t) => if c = cause then (d.advance t).resetTo cause true else d
  | none => d

def execCatalogueResetD : Dev → Dev := dueReset 3
def execRecoveryResetD : Dev → Dev := dueReset 5

/-! ### Steps 1 to 3 (R479) -/

/-- The order in which the rails are switched on. -/
def railOrder : List Nat := [15, 13, 14, 1, 10, 11, 12, 2, 3, 4, 5, 6, 7, 8, 9, 0]

/-- A step of R479 ends; one that is gone through again, after the other bank was taken, has its last instant in DEV_BOOT_TIMES. -/
def Dev.stepDone (d : Dev) (n : Nat) : Dev := d.setBoot fun b => { b with step := n, times := b.times.take (n - 1) ++ [d.now / 8000] }

/-- The last rail is up: PWR_GOOD rises, stage 1 begins, and ports whose PERSTp_N is high start to train. -/
def Dev.powerGood (d : Dev) : Dev :=
  let d := (d.stepDone 2).stepDone 3
  { (d.setBoot fun b => { b with state := 1 }) with
    pins := { d.pins with pwrGood := true }, hosts := Tbl.mapVals (fun _ h => { h with training := !h.perstLow }) d.hosts }

def execRailInRegulationD (at_ : Nat) (d : Dev) : Dev :=
  let d := d.advance at_
  match railOrder.find? fun r => !bit d.boot.rails r with
  | none => d
  | some r =>
    if !d.boot.input then d
    else if r = 15 then
      ((d.setBoot fun b => { b with rails := 2 ^ 15 }).stepDone 1).noteHours [] d.nv.hours
    else if !d.boot.modRstN || d.boot.tripped || d.boot.state ≠ 0 then d
    else
      let d := d.setBoot fun b => { b with rails := b.rails + 2 ^ r }
      if r = 0 then d.powerGood else d

/-! ### The Gauntlet (R405, R480, R484) -/

/-- DEV_BOOT_FAIL: stage, die, channel, reason (1 image, 2 entropy, 3 die not ready), timebase, SEC_BOOT_COUNT. -/
def Dev.bootFailRecord (d : Dev) (stage die channel reason : Nat) : List Byte :=
  leBytes 1 stage ++ leBytes 1 die ++ leBytes 1 channel ++ leBytes 1 reason ++ leBytes 8 d.now ++ leBytes 4 d.nv.bootCount

/-- Recovery mode: only VDD_AUX, VDD_NET and VDD_SERDES stay on, both links stay down. -/
def Dev.enterRecovery (d : Dev) (fail : Option (List Byte)) : Dev :=
  let d := d.setBoot fun b => { b with recovery := true, state := 5, rails := 2 ^ 13 + 2 ^ 14 + 2 ^ 15 }
  let d : Dev := { d with
    nv := match fail with | some r => { d.nv with bootFail := r } | none => d.nv
    hosts := Tbl.mapVals (fun _ h => { h with training := false, linkUp := false }) d.hosts }
  d.alert 11

/-- Images that the manufacture put into a bank. -/
def NvStore.fill (n : NvStore) (bank0 bank1 : List FwImage) : NvStore :=
  { n with bank0 := if n.bank0.isEmpty then bank0 else n.bank0, bank1 := if n.bank1.isEmpty then bank1 else n.bank1 }

/-- The KIND 1 image of a bank runs. -/
def Dev.runBank (d : Dev) (bank : Nat) (fallback : Bool) (i : FwImage) : Dev :=
  (d.setBoot fun b => { b with bank := bank, fallback := fallback, measures := [imageMeasure i], state := 2 }).stepDone 4

def execGauntletStage1D (at_ : Nat) (bank0 bank1 : List FwImage) (d : Dev) : Dev :=
  let d := d.advance at_
  if d.boot.state ≠ 1 then d
  else if d.boot.pos = 0x7F then d.enterRecovery none
  else
    let nv := d.nv.fill bank0 bank1
    let first := if d.boot.fallback then d.boot.bank else nv.nextBank
    let d : Dev := { d with nv := { nv with bootCount := nv.bootCount + 1, activeBank := nv.nextBank } }
    match bankImage d.nv (d.nv.bank first) 1 with
    | some i => d.runBank first d.boot.fallback i
    | none =>
      let d := d.bump Cat.SEC_FW_REJECT
      let fail := some (d.bootFailRecord 1 0xFF 0xFF 1)
      if d.boot.fallback then d.enterRecovery fail
      else
        match bankImage d.nv (d.nv.bank (1 - first)) 1 with
        | some i => d.runBank (1 - first) true i
        | none => (d.bump Cat.SEC_FW_REJECT).enterRecovery fail

/-- Stage 2 failed: the other bank once, from stage 1, else recovery mode. -/
def Dev.stage2Fails (d : Dev) (reason : Nat) : Dev :=
  if d.boot.fallback then d.enterRecovery (some (d.bootFailRecord 2 0xFF 0xFF reason))
  else d.setBoot fun b => { b with fallback := true, bank := 1 - b.bank, measures := [], state := 1 }

/-- `keys` spells the KEM public key generated. -/
def execGauntletStage2D (at_ : Nat) (entropyOk : Bool) (keys : Nat) (d : Dev) : Dev :=
  let d := d.advance at_
  if d.boot.state ≠ 2 then d
  else
    let bank := d.nv.bank d.boot.bank
    let images := [2, 3, 4].filterMap fun k => bankImage d.nv bank k
    let d := d.bumpBy Cat.SEC_FW_REJECT (3 - images.length)
    if images.length < 3 then d.stage2Fails 1
    else if !entropyOk then ((d.bump Cat.SEC_ENTROPY_FAIL).alert 9).stage2Fails 2
    else
      (d.setBoot fun b => { b with
        measures := b.measures.take 1 ++ images.map imageMeasure, kemPublic := leBytes 1568 keys, state := 3 }).stepDone 5

/-- The data plane is released: BOOT_STATE RUNNING, the management medium moves, data ports train, the voltage tables follow
PWR_PREF. -/
def Dev.releasePlane (d : Dev) : Dev :=
  let d := d.setBoot fun b => { b with state := 4, ready := 3 }
  let d := if d.onBus then d.closeSessions fun s => isMacT s.transport else d
  (((d.stepDone 8).stepDone 9).retrainPorts).setPhase d.phaseNow

def execDieReadyD (at_ : Nat) (d : Dev) : Dev :=
  let d := d.advance at_
  if d.boot.state ≠ 3 then d
  else
    match d.boot.ready with
    | 0 => (d.setBoot fun b => { b with ready := 1 }).stepDone 6
    | 1 => (d.setBoot fun b => { b with ready := 2 }).stepDone 7
    | _ => d.releasePlane

/-- 100 ms after its release a die is not ready. `channel` names the LPDDR6 channel that failed its training, 16 to a die. -/
def execDieReadyTimeoutD (channel : Option Nat) (d : Dev) : Dev :=
  if d.boot.state ≠ 3 then d
  else
    let d := d.advance ((d.boot.times.getLast?.getD 0) * 8000 + 800000000)
    let die := match d.boot.ready, channel with
      | 0, _ => 0
      | 1, some c => 1 + c / 16 % 8
      | 1, none => 1
      | _, _ => 9
    d.enterRecovery (some (d.bootFailRecord 3 die (match d.boot.ready, channel with | 1, some c => c % 16 | _, _ => 0xFF) 3))

/-! ### Thermal trips (R395) -/

/-- The trip: everything off but VDD_AUX; its stamp and sensor are kept. -/
def Dev.trip (d : Dev) (sensor : Nat) : Dev :=
  let d : Dev := { d with nv := { d.nv with tripRecord := leBytes 8 d.now ++ leBytes 1 sensor } }
  (d.setBoot fun b => { b with tripped := true, pulsed := false, tripSeen := true }).resetTo 4 true

def execThermalSampleD (at_ : Nat) (temps : List Int) (d : Dev) : Dev :=
  let d := d.advance at_
  if d.boot.rails % 2 ^ 15 = 0 then d
  else
    match tripSensor temps with
    | some i => d.trip i
    | none => d.heatSample temps

/-! ### The end of a long operation (R451, R452) -/

/-- A retraining of a die: its accepted writes reach memory first; counted; its temperature is noted. -/
def Dev.retrain (d : Dev) (i : Nat) : Dev :=
  let d := d.bump (Cat.MEM_RETRAIN_COUNT i)
  let t := hottest (dieTemps d.power.temps (1 + i))
  { d with mem3 := { d.mem3 with
      trained := if d.power.temps.isEmpty then d.mem3.trained else Tbl.set d.mem3.trained i t,
      due := d.mem3.due.filter (· ≠ i) } }

/-- What the operation does at its end, and its STATUS. -/
def LongOp.finish (l : LongOp) (hits : List ScrubHit) (d : Dev) : Dev × Nat :=
  match l.kind with
  | .fwInstall images ok => d.endInstall images ok
  | .retrain mask => ((setBits 8 mask).foldl (fun d i => d.retrain i) d, stOk)
  | .scrub mask => ((setBits 8 mask).foldl (fun d i => d.scrubPass i hits) d, stOk)
  | .integrity v => (d.cset Cat.MEM_INTEGRITY_EN v, stOk)
  | .rekey slot => (d.endRekey slot hits, stOk)
  | .expSeal j req => d.endSeal j req

def execLongOperationEndD (hits : List ScrubHit) (d : Dev) : Dev :=
  match d.long with
  | none => d
  | some l =>
    let (d, status) := l.finish hits { d with long := none }
    -- a delivery that re-keyed the memory ends OK: the channel holds its slot from now on (R456)
    let d := match l.kind, d.session? l.sess with | .rekey k, some s => d.setSession l.sess (s.hold k) | _, _ => d
    let d := d.bset Cat.CAT_LAST_LONG
      (leBytes 2 l.index ++ leBytes 1 l.field ++ leBytes 1 status ++ leBytes 8 l.started ++ leBytes 8 d.now)
    let r : Req := { at_ := d.now, sess := l.sess, transport := l.transport, typ := l.typ, rsv := 0,
                     prot := if l.prot then some { chan := 0, ctr := 0, bulk := false, tag := [] } else none, reqId := l.reqId }
    if (d.session? l.sess).isNone then d else d.answer r status 0 [] l.index l.field 1

end Sys2Proof.Machine
end

