-- ==== Sys2Proof/Machine/CatView.lean ====
section
/-! DEFINITION. What a Catalogue READ answers for every entry (R442 to R449 and the chapters' tables): most entries read
what is stored, or their default; the others show a part of the state. -/

namespace Sys2Proof.Machine

/-- Bytes of a number with the most significant first: the order of clock identities and network addresses. -/
def f32Whole (t : Int) : Nat := f32Ratio (t < 0) t.natAbs 1

/-! ### Timebase and timetable (R62) -/

def viewTime (d : Dev) (index field : Nat) : Option (List Byte) :=
  match index, field with
  | 0x5000, 0 => some (leBytes 8 d.now)
  | 0x5000, 1 => some (leBytes 1 (tbStateCode d.tb.st))
  | 0x5000, 2 => some (leBytes 8 (d.tb.offset % 2 ^ 64).toNat)
  | 0x5000, 3 => some (leBytes 4 (min d.errorBound (2 ^ 32 - 1)))
  | 0x5000, 4 => some (beBytes 8 d.tb.gmShown)
  | 0x5010, 0 => some (leBytes 1 (ttStateCode d.tt.st))
  | 0x5010, 1 => some (leBytes 4 d.tt.step)
  | 0x5010, 2 => some (leBytes 2 d.tt.slot)
  | 0x5010, 3 => some (leBytes 8 d.tt.lag)
  | 0x5010, 4 => some (leBytes 8 d.tt.epoch)
  | 0x5011, 0 => some (match d.tt.image with | some i => i.bytes | none => [])
  | 0x5011, 2 => some (match d.tt.image with | some i => beBytes 32 i.digest | none => leBytes 32 0)
  | 0x5011, 7 => some (leBytes 1 d.tt.lastControl)
  | _, _ => none

/-! ### Jobs, rings, statistics (R99, R167) -/

def ringStateCode : RingState → Nat
  | .idle => 0
  | .active => 1
  | .stopped => 2
  | .halted => 3

/-- Commands dispatched and not retired, of one job or of all. -/
def Dev.inFlightOf (d : Dev) (job : Option Nat) : Nat :=
  (d.cmds.filter fun kc => kc.2.inFlight && (match job with | some j => kc.2.job = j | none => true)).length

def viewJob (d : Dev) (index field : Nat) : Option (List Byte) :=
  let j := index % 16
  if index = 0x2000 then
    match field with
    | 0 => some (leBytes 1 (d.jobs.filter fun kj => kj.2.st ≠ .free).length)
    | 1 => some (leBytes 2 (d.inFlightOf none))
    | 2 => some (leBytes 2 (d.cmds.filter fun kc => !kc.2.inFlight).length)
    | _ => none
  else if 0x2100 ≤ index && index < 0x2110 then
    match field with
    | 0 => some (leBytes 1 (jobStateCode (d.job j).st))
    | 1 => some (leBytes 2 (d.job j).tenant)
    | 3 => some (leBytes 2 (d.inFlightOf (some j)))
    | _ => none
  else if 0x2200 ≤ index && index < 0x2600 then
    let r := Tbl.getD d.rings (index - 0x2200) Ring.empty
    match field with
    | 1 => some (leBytes 1 (ringStateCode r.st))
    | 5 => some (leBytes 4 r.stopSeq)
    | _ => none
  else if 0x9100 ≤ index && index < 0x9110 && field = 3 then some (leBytes 1 (b2n (d.job j).rollPending))
  else none

/-! ### Memory (R234) -/

/-- Tier 2 and tier 3 bytes not allocated; of tier 3, not retired and not reserved either. -/
def Dev.t2Free (d : Dev) : Nat := d.capacity 1 - (d.jobs.map fun kj => d.used kj.1 1).sum

/-- Retired pages that a job still holds: they are retired when they are freed (R223). -/
def Dev.retiredHeld (d : Dev) : Nat :=
  (d.nv.retired.filter fun a => d.jobs.any fun kj => kj.2.pages.any fun p => overlaps p.pa p.size a 0x1_0000).length

def Dev.t3Free (d : Dev) : Nat := d.capacity 2 + 0x1_0000 * d.retiredHeld - (d.jobs.map fun kj => d.used kj.1 2).sum

def viewMem (d : Dev) (index field : Nat) : Option (List Byte) :=
  let j := index % 16
  if index = 0x3000 then
    match field with
    | 0 => some (leBytes 8 d.t2Free)
    | 1 => some (leBytes 8 d.t3Free)
    | 4 => some (leBytes 4 d.nv.retired.length)
    | 5 => some (d.nv.retired.flatMap fun a => leBytes 8 a)
    | _ => none
  else if 0x3100 ≤ index && index < 0x3110 then
    let x := d.job j
    if 0x11 ≤ field && field ≤ 0x16 then some (leBytes 8 (d.used j (field - 0x10)))
    else
      match field with
      | 0x20 => some (leBytes 32 x.allocRec)
      | 0x26 => some (leBytes 4 (match x.t1 with | some g => g.scratchOff | none => 0))
      | 0x27 => some (leBytes 4 (match x.t1 with | some g => g.sramOff | none => 0))
      | 0x28 => some (leBytes 8 x.t1Va)
      | _ => none
  else none

/-! ### Connections and regions (R356) -/

def connStateCode : ConnState → Nat
  | .pending => 1
  | .open_ => 2
  | .draining => 3
  | .error => 4

/-- NET_CONN_QUERY reads 32 bytes about the connection last named. -/
def Dev.connQuery (d : Dev) (j : Nat) : List Byte :=
  let v := d.bget (Cat.NET_CONN_QUERY j)
  if v.length ≠ 4 then leBytes 32 0
  else
    match d.conn? (leNat v) with
    | none => leBytes 32 0
    | some x =>
      if x.job ≠ j then leBytes 32 0
      else
        leBytes 1 (connStateCode x.st) ++ leBytes 1 x.residence ++ leBytes 2 x.lastFail ++ leBytes 4 x.win
          ++ leBytes 4 x.cumTx.toNat ++ leBytes 4 x.cumRx.toNat ++ leBytes 8 x.sealsOk ++ leBytes 8 x.sealsFailed

/-- NET_REGION_QUERY reads 32 bytes about the region last named: bits [63:8] are zero. -/
def Dev.regionQuery (d : Dev) (j : Nat) : List Byte :=
  let v := d.bget (Cat.NET_REGION_QUERY j)
  let k := leNat v % 2 ^ 16
  let x := d.netRegion k
  if v.length ≠ 4 then leBytes 32 0
  else if x.job ≠ j || regionHandle k x.gen ≠ leNat v then leBytes 32 0
  else
    let st := match x.st with | .free => 0 | .valid => 1 | .revoking => 2
    leBytes 8 st ++ leBytes 8 x.tr ++ leBytes 8 (d.regionInFlight k) ++ leBytes 8 x.landed

def viewNet (d : Dev) (index field : Nat) : Option (List Byte) :=
  let j := index % 16
  if 0x4300 ≤ index && index < 0x4310 && field = 2 then some (d.connQuery j)
  else if 0x4300 ≤ index && index < 0x4310 && field = 5 then some (d.regionQuery j)
  else if 0x4100 ≤ index && index < 0x4108 && field = 2 then
    some ((Config.fusedBytes (Cat.NET_PORT_MAC (index - 0x4100))).take 6)
  else none

/-! ### Power and heat (R400) -/

def viewPower (d : Dev) (index field : Nat) : Option (List Byte) :=
  let f32 (n : Nat) : Option (List Byte) := some (leBytes 4 n)
  let p := d.power
  if index = 0x6000 then
    match field with
    | 0 => f32 (f32Ratio false (p.samples.headD 0) 1000)
    | 1 => f32 (f32Ratio false d.powerMean.1 (1000 * d.powerMean.2))
    | 2 => some (leBytes 16 p.brim)
    | 4 => some (leBytes 1 p.phase)
    | 6 => some ((powerDies.flatMap fun k => (List.range 16).map fun e => fusedMv k e).flatMap fun v => leBytes 2 v)
    | 7 => some (leBytes 4 d.nv.hours)
    | 8 => f32 (f32Ratio false (5 * 60000 + 15 * min d.nv.hours 60000) 60000)
    | _ => none
  else if 0x6020 ≤ index && index < 0x6030 then
    let r := index - 0x6020
    match field with
    | 0 => f32 (f32Ratio false (d.railMean r) 1000)
    | 1 => f32 (f32Ratio false (railLimit r) 1000)
    | 2 =>
      let g := (p.gains[r]?).getD (0, 1)
      f32 (f32Ratio false g.1 g.2)
    | _ => none
  else if index = 0x6040 then
    match field with
    | 0 => f32 (f32Whole (hottest (junctions p.temps)))
    | 1 => some ((List.range 68).flatMap fun i => leBytes 4 (f32Whole (if i = 66 then p.inlet else (p.temps[i]?).getD 0)))
    | 4 => some d.nv.tripRecord
    | _ => none
  else if index = 0x6801 && field = 0 then some (leBytes 1 d.nv.sscEn)
  else none

/-! ### Security (R429) -/

def ideCode : IdeState → Nat
  | .off => 0
  | .secure => 1
  | .insecure => 2

/-- SEC_SLOT_INFO of a key slot; zeros when it is empty. -/
def Dev.slotInfo (d : Dev) (k : Nat) : List Byte :=
  match Tbl.find? d.keys k with
  | none => leBytes 14 0
  | some x =>
    leBytes 2 x.tenant ++ leBytes 4 x.gen ++ leBytes 4 x.memGen ++ leBytes 2 x.origin
      ++ leBytes 2 ((d.boundJobs k).map (2 ^ ·)).sum

def viewSec (d : Dev) (s : Session) (index field : Nat) : Option (List Byte) :=
  if index = 0x7000 then
    match field with
    | 0 => some identityDigest
    | 1 => some (Config.fusedBytes Cat.SEC_IDENTITY_CERT)
    | 2 => some (if d.boot.measures.length < 4 then [] else Config.attestCert d.fwSvn)
    | 3 => some d.boot.kemPublic
    | 4 => some (((List.range 4).map fun i => d.measure i).flatMap fun m => leBytes 64 m)
    | 5 => some (leBytes 1 d.nv.svnFused)
    | 6 => some (leBytes 1 d.boot.bank)
    | 7 => some (leBytes 1 (b2n d.boot.fallback))
    | 8 => some (leBytes 4 d.nv.bootCount)
    | 9 => some d.nv.ownerKey
    | 0xA => some (leBytes 1 d.keys.length)
    | _ => none
  else if index = 0x7010 then
    match field with
    | 0 => some s.quote
    | 1 => some (match s.chan with | some c => leBytes 4 c.handle ++ c.conf | none => [])
    | _ => none
  else if 0x7030 ≤ index && index < 0x7032 then
    let h := d.host (index - 0x7030)
    match field with
    | 0 => some h.ideKeys
    | 1 => some (leBytes 1 (ideCode h.ide0 + 4 * ideCode h.ide1))
    | _ => none
  else if 0x7100 ≤ index && index < 0x7110 && field = 0 then some (leBytes 1 (d.job (index - 0x7100)).keySlot)
  else if 0x7200 ≤ index && index < 0x7240 then some (d.slotInfo (index - 0x7200))
  else none

/-! ### Identity, boot, host ports, sessions (R463, and the tables of 15 and 17) -/

/-- The bytes of an ASCII text. -/
def asciiBytes (s : String) : List Byte := s.toList.map fun c => BitVec.ofNat 8 c.toNat

/-- SESS_LIST's code of a transport: 8 times the port plus the mailbox, 16 for MGMT packets, 32 the bus, 33 the service
port. -/
def transportCode : Transport → Nat
  | .mbox p m => 8 * p + m
  | .mgmt _ => 16
  | .bus => 32
  | .service => 33

def Session.roleBits (s : Session) : Nat := b2n s.owner + 2 * b2n s.chan.isSome

def Dev.hostLink (d : Dev) (p : Nat) : Nat :=
  let h := d.host p
  h.rate + 16 * h.width + 2 ^ 15 * b2n h.linkUp

def viewHost (d : Dev) (r : Req) (s : Session) (index field : Nat) : Option (List Byte) :=
  match index, field with
  | 0x1000, 0 => some (asciiBytes "CX1T-1024A")
  | 0x1000, 1 => some ((Config.fusedBytes Cat.DEV_SERIAL).take 255)
  | 0x1000, 2 => some (leBytes 1 d.boot.pos)
  | 0x1000, 3 => some (leBytes 2 (Config.fusedNat Cat.DEV_PCI_IDS) ++ leBytes 2 0xC1A0)
  | 0x1001, 0 => some (leBytes 1 d.boot.state)
  | 0x1001, 1 => some (leBytes 1 d.boot.cause)
  | 0x1001, 2 => some d.nv.bootFail
  | 0x1001, 3 => some (d.boot.times.flatMap fun t => leBytes 4 t)
  | 0x1010, 0 => some (leBytes 2 (d.hostLink 0))
  | 0x1011, 0 => some (leBytes 2 (d.hostLink 1))
  | 0xA000, 0 => some (leBytes 1 d.sessions.length)
  | 0xA000, 1 => some (d.sessions.flatMap fun ks =>
      leBytes 4 ks.1 ++ leBytes 2 (transportCode ks.2.transport) ++ leBytes 1 ks.2.roleBits ++ leBytes 1 ks.2.level)
  | 0xA002, 1 => some (leBytes 1 (b2n d.onBus))
  | 0xA002, 4 => some ((Config.fusedBytes Cat.MGMT_MAC).take 6)
  | 0xA010, 0 => some (leBytes 1 s.level)
  | 0xA010, 1 => some (leBytes 1 s.roleBits)
  | 0xA010, 2 => some (leBytes 8 s.slots)
  | 0xA010, 3 => some (leBytes 4 r.sess)
  | _, _ => none

/-! ### A read -/

/-- Counters of waiting and working cycles (R204, R256, R466): how many cycles a wait or a transfer takes is timing, which
the model does not hold. -/
def cycleCounter (index field : Nat) : Bool :=
  (0x2700 ≤ index && index < 0x2748 && 6 ≤ field && field ≤ 7) ||
  (0x3200 ≤ index && index < 0x3248 && 3 ≤ field && field ≤ 5) ||
  (0x8100 ≤ index && index < 0x8148)

/-- The unit has done something whose cycles the counter may have counted: it has issued a thread instruction or started a
slip; it is idle, unheld or reserved for a command (stall codes 5 and 11) from the start. -/
def Dev.cyclesPassed (d : Dev) (index field : Nat) : Bool :=
  let threads (u : Nat) : Bool := d.cget (Cat.THR_ISSUED u) ≠ 0
  let slips (u : Nat) : Bool := d.cget (Cat.STRM_SLIPS u) ≠ 0
  if index < 0x3200 then threads (index - 0x2700)
  else if index < 0x8100 then slips (index - 0x3200)
  else 0xC ≤ field || field = 5 || field = 0xB || threads (index - 0x8100) || slips (index - 0x8100)

/-- A counter of cycles as it stands when it is looked at: it has risen since it was last seen by a free amount, or, where
nothing happened that it counts, stands still. -/
def Dev.seeCycles (d : Dev) (index field : Nat) : Dev :=
  if cycleCounter index field && d.cyclesPassed index field then d.take.2.bumpBy (index * 256 + field) d.take.1 else d

/-- The value of an entry for a session. -/
def Dev.view (d : Dev) (r : Req) (s : Session) (index field : Nat) : List Byte :=
  let o := (viewTime d index field).orElse fun _ => (viewJob d index field).orElse fun _ =>
    (viewMem d index field).orElse fun _ => (viewNet d index field).orElse fun _ =>
    (viewPower d index field).orElse fun _ => (viewSec d s index field).orElse fun _ => viewHost d r s index field
  match o with
  | some v => v
  | none =>
    match catEntry index field with
    | some e => d.stored (index * 256 + field) e.ty
    | none => []

/-- A read of the entry, with what the read itself changes: TT_LAG_MAX is cleared (R62), a challenge is drawn (R457). -/
def readEntry (r : Req) (index field : Nat) (d : Dev) (s : Session) : Dev × List Byte :=
  if index = 0xA010 && field = 4 then newChallenge r d s
  else
    let d := d.seeCycles index field
    let v := d.view r s index field
    if index * 256 + field = Cat.TT_LAG_MAX then (d.cset Cat.TT_LAG_MAX 0, v) else (d, v)

def execCatReadD (r : Req) (index field : Nat) : Dev → Dev :=
  catReadWith r index field (readEntry r index field)

end Sys2Proof.Machine
end

