-- ==== Sys2Proof/Machine/CatWrite.lean ====
section
/-! DEFINITION. Catalogue WRITEs of entries that have no row of their own (R443, R445 to R447), with the own checks and the
effects that the chapters give them; a write of an entry that has a row of its own is that row's command. -/

namespace Sys2Proof.Machine

/-! ### Own checks of a value (check 9 of R445) -/

/-- A list of connection identifiers: 4 bytes each, at most `n`. -/
def connListOk (n : Nat) (v : List Byte) : Bool := v.length % 4 = 0 && v.length ≤ 4 * n

/-- HOSTFR_CONFIG (R439). -/
def frameConfigOk (v : List Byte) : Bool :=
  let n := leNat v
  let logOk (k : Nat) : Bool := (6 ≤ k && k ≤ 12) || (!bit n 99 && k = 0)
  v.length = 32 && fld n 0 99 = 0 && fld n 192 12 = 0 && fld n 128 12 = 0 && logOk (fld n 120 8) && logOk (fld n 112 8)

/-- TRC_DEV_RING (R478). -/
def devRingOk (v : List Byte) : Bool := v.length = 16 && fld (leNat v) 98 30 = 0 && fld (leNat v) 0 16 = 0

/-- PWR_PREF: two entries, a duty cap of 2 to 8, reserved bits zero (R400). -/
def prefOk (n : Nat) : Bool := 2 ≤ fld n 8 4 && fld n 8 4 ≤ 8 && fld n 12 4 = 0

/-- What an entry asks of a value beyond its type and range. That a reserved bit set in NET_CNT_VECTOR [13:11] or in
NET_PORT_VLAN [14:12] makes the value BAD_TYPE, and is not ignored as in a register (R11), is the model's choice (log
entry 42): R356 names no such bits. -/
def writeOk (d : Dev) (index field : Nat) (v : List Byte) : Bool :=
  let key := index * 256 + field
  let n := leNat v
  if 0x8200 ≤ index && index < 0x8210 then
    (field ≠ 0 && field ≠ 1 && field ≠ 7 && field ≠ 8) || n % 65536 = 0
  else if 0x6010 ≤ index && index < 0x6016 then prefOk n
  else if 0x4500 ≤ index && index < 0x4508 then frameConfigOk v
  else if 0x4100 ≤ index && index < 0x4108 && field = 4 then fld n 12 3 = 0
  else if 0x4400 ≤ index && index < 0x4410 && field = 6 then connListOk 128 v
  else if 0x4400 ≤ index && index < 0x4410 && field = 0xB then connListOk 32 v
  else if key = Cat.PTP_TIMING_PORT then n < d.portCount
  else if key = Cat.NET_TTSYNC_CONNS then connListOk 127 v
  else if key = Cat.NET_CNT_HALF then v.length = 64
  else if key = Cat.NET_CNT_VECTOR then fld n 11 3 = 0
  else if key = Cat.TRC_DEV_RING then devRingOk v
  else if key = Cat.SEC_OWNER_KEY then !v.isEmpty
  else true

/-! ### Effects -/

/-- A ring size of the job: charged to quota kind 6, or refused (R471). -/
def Dev.writeRingBytes (d : Dev) (j key other v : Nat) : WriteResult :=
  if d.cget (Cat.MEM_QUOTA_TRACE j) < v + d.cget other then d.refuseQuota j 6 else ⟨d.cset key v, stOk, false⟩

/-- An entry is stored: its number, or its bytes. -/
def Dev.store (d : Dev) (index field : Nat) (v : List Byte) : Dev :=
  match catEntry index field with
  | some e => if e.ty = .blob || e.ty = .string then d.bset (index * 256 + field) v else d.cset (index * 256 + field) (leNat v)
  | none => d

/-- The effect of a write that has passed its checks. -/
def writeEffect (index field : Nat) (v : List Byte) (d : Dev) : WriteResult :=
  let key := index * 256 + field
  let n := leNat v
  let stored := d.store index field v
  if 0x8200 ≤ index && index < 0x8210 && field = 1 then
    d.writeRingBytes (index - 0x8200) key (Cat.SMP_RING_BYTES (index - 0x8200)) n
  else if 0x8200 ≤ index && index < 0x8210 && field = 8 then
    d.writeRingBytes (index - 0x8200) key (Cat.TRC_RING_BYTES (index - 0x8200)) n
  else if key = Cat.MGMT_PORT_SEL then
    -- switching the medium closes every session of the management MAC (R460)
    ⟨if stored.onBus = d.onBus then stored else stored.closeSessions fun s => isMacT s.transport, stOk, false⟩
  else if key = Cat.NET_CNT_HALF then
    let h := leNat (d.bget key)
    ⟨d.bset key (leBytes 64 (h - (h &&& n))), stOk, false⟩
  else if 0x4500 ≤ index && index < 0x4508 then
    let rings := Tbl.set stored.net.rings (index - 0x4500) { rxHead := 0, rxTail := 0, txHead := 0, txTail := 0 }
    ⟨{ stored with net := { stored.net with rings := rings } }, stOk, false⟩
  else if key = Cat.SEC_OWNER_KEY then ⟨{ d with nv := { d.nv with ownerKey := v } }, stOk, false⟩
  else if key = Cat.CLK_SSC_EN then ⟨{ d with nv := { d.nv with sscEn := n } }, stOk, false⟩
  else if 0x6010 ≤ index && index < 0x6016 then ⟨stored.retargetAll, stOk, false⟩
  else if key = Cat.PWR_PHASE_MANUAL then ⟨if d.tt.st = .running then stored else stored.setPhase n, stOk, false⟩
  else if key = Cat.TT_AUTO_REJOIN then ⟨stored.tryRejoin, stOk, false⟩
  else if key = Cat.NET_CTX_T3_ENTRIES || key = Cat.NET_CTX_HOST_BASE then ⟨stored.evictContexts, stOk, false⟩
  else ⟨stored, stOk, false⟩

/-- A write of an entry with no row of its own. -/
def plainWrite (r : Req) (index field : Nat) (v : List Byte) : Dev → Dev :=
  catWrite r index field v (if tenantReserved index field then .tenantOnly else .byTable) (fun d => writeOk d index field v)
    (writeEffect index field v)

/-! ### Writes that are another row's command -/

/-- An image at the front of some bytes (R403); whether its signature verifies is a free value. -/
def parseFwImage (b : List Byte) (sigOk : Bool) : FwImage :=
  let n := min (imageLen { header := b.take 128, body := [], sig := [], sigOk := sigOk }) (b.length - 128)
  { header := b.take 128, body := (b.drop 128).take n, sig := (b.drop (128 + n)).take 1536, sigOk := sigOk }

/-- The images of a bundle, one after the other; `fuel` at most, the rest as one more. -/
def parseBundle (sigs : Nat) (b : List Byte) : Nat → List FwImage
  | 0 => if b.isEmpty then [] else [{ header := b, body := [], sig := [], sigOk := false }]
  | fuel + 1 =>
    if b.isEmpty then []
    else
      let i := parseFwImage b (bit sigs 0)
      i :: parseBundle (sigs / 2) (b.drop (imageBytes i).length) fuel

/-- The row that a write of a timebase or timetable entry is. -/
def routeTime (r : Req) (index field : Nat) (v : List Byte) : Option (Dev → Dev) :=
  let n := leNat v
  match index, field with
  | 0x5001, 7 => some (execPtpSlaveOnlyD r n)
  | 0x5801, 0 => some (execTbSetD r n)
  | 0x5011, 0 => some (execTtTableD r v)
  | 0x5011, 1 => some (execTtStageD r n)
  | 0x5011, 3 => some (execTtEpochD r n)
  | 0x5011, 4 => some (execTtFirstStepD r n)
  | 0x5011, 5 => some (execTtAnchorJobD r n)
  | 0x5011, 6 => some (execTtLastStepD r n)
  | 0x5011, 7 => if n = 1 then some (execTtStopD r) else if n = 2 then some (execTtResumeD r)
      else if n = 3 then some (execTtUnloadD r) else none
  | _, _ => none

/-- The row that a write of an entry with a job slot is. -/
def routeJob (r : Req) (index field : Nat) (v : List Byte) : Option (Dev → Dev) :=
  let n := leNat v
  let j := index % 16
  if 0x2100 ≤ index && index < 0x2110 && field = 2 then
    if n = 1 then some (execJobStartD r j) else if n = 2 then some (execJobStopD r j)
    else if n = 3 then some (execJobTeardownD r j) else none
  else if 0x2200 ≤ index && index < 0x2600 then
    let jq := (index - 0x2200) / 64
    let q := (index - 0x2200) % 64
    if field = 0 then some (execRingConfigD r jq q v)
    else if field ≠ 2 then none
    else if n = 1 then some (execRingRestartD r jq q)
    else if n = 2 then some (execRingResumeD r jq q)
    else if n = 3 then some (execRingResetD r jq q) else none
  else if 0x9100 ≤ index && index < 0x9110 && field = 3 then some (execNumStatRollD r j n)
  else if 0x2780 ≤ index && index < 0x2790 && field = 2 then some (execNmuPlaceThreshD r j n)
  else if 0x2780 ≤ index && index < 0x2790 && field = 3 then some (execNmuTableReloadD r j n)
  else if 0x9200 ≤ index && index < 0x9210 && field = 0x16 then
    some (execExpSealD r j v)
  else if 0x4300 ≤ index && index < 0x4310 then
    match field with
    | 0 => some (execNetConnOpenD r j v)
    | 1 => some (execNetConnCloseD r j n)
    | 2 => some (execNetConnQueryD r j v)
    | 3 => some (execNetRegionRegD r j v)
    | 4 => some (execNetRegionRevokeD r j n)
    | 5 => some (execNetRegionQueryD r j v)
    | _ => none
  else if 0x3100 ≤ index && index < 0x3110 then
    match field with
    | 0x20 => some (execMemAllocD r j v)
    | 0x21 => some (execMemFreeD r j n)
    | 0x22 => some (execMemBringInD r j n)
    | _ => if field ≤ 6 then some (execQuotaWriteD r j field v) else none
  else none

/-- The row that a write of a device entry is. Whether a signature verifies is a free value here. -/
def routeDevice (r : Req) (index field : Nat) (v : List Byte) : Option (Dev → Dev) :=
  let n := leNat v
  let withBit (f : Bool → Dev → Dev) : Option (Dev → Dev) := some fun d =>
    let (b, d) := d.take
    f (b % 2 = 1) d
  match index, field with
  | 0x4000, 0 => some (execNetPortModeD r n)
  | 0x3000, 2 => some (execMemIntegrityEnD r n)
  | 0x3000, 3 => some (execMemRetireD r n)
  | 0x3000, 6 => some (execMemScrubFullD r n)
  | 0x3000, 7 => some (execMemRetrainD r n)
  | 0x7010, 0 => some (execSecQuoteReqD r v)
  | 0x7010, 1 => some (execSecSessionOpenD r v)
  | 0x7010, 2 => some (execSecKeyDeliverD r v)
  | 0x7010, 3 => some (execSecKeyProveD r (leNat (v.take 2)) (v.drop 2))
  | 0x7010, 4 => some (execSecJobCreateD r (leNat (v.take 1)) (if v.length = 2 then leNat (v.drop 1) else 256))
  | 0x7010, 5 => some (execSecSlotEraseD r n)
  | 0x7010, 6 => withBit fun b => execSecOwnerTransferD r v b
  | 0x7020, 0 => some fun d =>
      let (f, d) := d.take
      execSecFwInstallD r (parseBundle f v 5) d
  | 0x7020, 1 => some (execSecFwActivateD r n)
  | 0x7020, 2 => some (execSecFwCommitD r n)
  | 0x7030, 0 => some (execSecIdeKeysD r 0 v)
  | 0x7031, 0 => some (execSecIdeKeysD r 1 v)
  | 0xA010, 0 => some (execSessLevelD r n)
  | 0xA010, 5 => withBit fun b => execSessOwnerProofD r v b
  | 0xA001, 0 => some (execSessIdleTimeoutD r n)
  | 0x8000, 1 => some (execAlertCauseD r n)
  | 0x1001, 4 => some (execDevResetD r n)
  | _, _ => none

/-- The value has the length of its entry's type: only then does a number stand for it. -/
def lengthOk (index field : Nat) (v : List Byte) : Bool :=
  match catEntry index field with
  | some e => e.ty = .blob || e.ty = .string || v.length = e.ty.bytes
  | none => false

def execCatWriteD (r : Req) (index field : Nat) (v : List Byte) : Dev → Dev :=
  let route := (routeTime r index field v).orElse fun _ =>
    (routeJob r index field v).orElse fun _ => routeDevice r index field v
  match route with
  | some f => if lengthOk index field v then f else plainWrite r index field v
  | none => plainWrite r index field v

end Sys2Proof.Machine
end

