-- ==== Sys2Proof/Machine/Settle.lean ====
section
/-! DEFINITION. What follows, inside the device, from the command that has just acted: the rolls and pace notices of a step
or slot that began, reductions, sweeps and gathers that go on, sessions whose connection is gone, and the pins that show
the state (R151, R290, R300, R366, R373, R459, R475, R490). -/

namespace Sys2Proof.Machine

/-! ### Pins -/

/-- Only VDD_AUX is on, or nothing. -/
def Dev.auxOnly (d : Dev) : Bool := d.boot.rails % 2 ^ 15 = 0

/-- Sideband STATUS: RECOVERY, THROTTLED, TRIPPED, ALERT, RUNNING. -/
def Dev.sidebandStatus (d : Dev) : Nat :=
  b2n d.boot.recovery * 2 ^ 4 + d.power.brim % 2 * 2 ^ 3 + b2n d.boot.tripSeen * 2 ^ 2
    + b2n (d.cget Cat.ALERT_CAUSE ≠ 0) * 2 + b2n d.released

/-- A temperature in 1/16 °C, signed, 16 bits. -/
def sixteenths (t : Int) : Nat := ((16 * t) % 2 ^ 16).toNat

/-- The sideband registers (R490). -/
def Dev.sidebandNow (d : Dev) : Nat :=
  let hot := if d.auxOnly then 0 else sixteenths (hottest (junctions d.power.temps))
  let watts := if d.auxOnly then 0 else (d.power.samples.headD 0 + 500) / 1000
  0xC1 + d.sidebandStatus * 2 ^ 8 + d.boot.state % 2 ^ 8 * 2 ^ 16 + d.boot.cause % 2 ^ 8 * 2 ^ 24 + hot * 2 ^ 32
    + sixteenths d.power.inlet * 2 ^ 48 + watts % 2 ^ 16 * 2 ^ 64 + d.cget Cat.ALERT_CAUSE % 2 ^ 32 * 2 ^ 96

/-- ALERT_N is low exactly while a bit of ALERT_CAUSE is 1 (R475), and the sideband shows the state (R490). -/
def Dev.pinsNow (d : Dev) : Dev :=
  { d with pins := { d.pins with alertN := d.cget Cat.ALERT_CAUSE = 0, sideband := d.sidebandNow } }

/-! ### Consequences -/

/-- The MGMT session's connection is OPEN (R459). -/
def Dev.sessionAlive (d : Dev) (s : Session) : Bool :=
  match s.transport with
  | .mgmt c => match d.conn? c with | some x => x.st = .open_ | none => false
  | _ => true

/-- A job's reduction has nothing under way. -/
def RedJob.idle (r : RedJob) : Bool := r.runs.isEmpty && r.results.isEmpty && r.finals.isEmpty

/-- Nothing is left to follow: no slot waits for firm work that is gone, no slot or step has just begun, no reduction, sweep or gather is under way, and every
session's connection is there. -/
def Dev.quiet (d : Dev) : Bool :=
  !d.firmGone && !d.tt.justStarted && d.tt.ended.isEmpty && d.sweeps.isEmpty && d.gathers.isEmpty
    && d.jobs.all (fun kj => kj.2.red.idle) && d.sessions.all fun ks => d.sessionAlive ks.2

/-- What a slot's start and a step's end bring: PACE notices and automatic rolls. -/
def Dev.settleSlots (d : Dev) : Dev :=
  let ended := d.tt.ended
  let started := d.tt.justStarted
  let d : Dev := { d with tt := { d.tt with justStarted := false, ended := [] } }
  let d := ended.foldl (fun d nt => d.autoRolls nt.1 nt.2) d
  if started then d.sendPace else d

/-- All that follows from a command. -/
def Dev.settle (d : Dev) : Dev :=
  if d.quiet then d.pinsNow
  else
    let d := (((d.settleFirm.settleSlots).settleRed).settleSweeps).settleGathers
    (d.closeSessions fun s => !d.sessionAlive s).pinsNow

/-- A command acts on the device, what follows is done, and the queue stays as it is. -/
def lift (f : Dev → Dev) (s : State) : Host.Outcome State Fault Refusal :=
  .next { s with dev := (f s.dev).settle }

end Sys2Proof.Machine
end

