-- ==== Sys2Proof/Machine/CmdCallSlips.lean ====
section
/-! DEFINITION. The meanings of the commands of one part of the opcode table: call slips: context `x` of unit `u`'s mover issues the word with these low 58 bits, where scratch holds it.
Each is its effect on the device, from the family's own file, with what follows from it. -/

namespace Sys2Proof.Machine

/-- SLIP_CONTEXT_START (R239). A queued RUN takes a free slip context and starts issuing. -/
def execSlipContextStart (u : Nat) (s : State) : Host.Outcome State Fault Refusal :=
  lift (execSlipContextStartD u) s

/-- FETCH (R241). Slip instruction: copies memory rows into scratch. -/
def execFetch (at_ u x : Nat) (w : SWord) (s : State) : Host.Outcome State Fault Refusal :=
  lift (Dev.slipFetched (opcOf (.fetch at_ u x w)) at_ u x w (execFetchD at_ u x w)) s

/-- PUT (R241). Slip instruction: copies scratch to memory rows. -/
def execPut (at_ u x : Nat) (w : SWord) (s : State) : Host.Outcome State Fault Refusal :=
  lift (Dev.slipFetched (opcOf (.put at_ u x w)) at_ u x w (execPutD at_ u x w)) s

/-- MOVA (R241). Slip instruction: address register move with immediate. -/
def execMova (at_ u x : Nat) (w : SWord) (s : State) : Host.Outcome State Fault Refusal :=
  lift (Dev.slipFetched (opcOf (.mova at_ u x w)) at_ u x w (execMovaD at_ u x w)) s

/-- ADDAA (R241). Slip instruction: adds address registers. -/
def execAddaa (at_ u x : Nat) (w : SWord) (s : State) : Host.Outcome State Fault Refusal :=
  lift (Dev.slipFetched (opcOf (.addaa at_ u x w)) at_ u x w (execAddaaD at_ u x w)) s

/-- SETC (R241). Slip instruction: sets a counter. -/
def execSetc (at_ u x : Nat) (w : SWord) (s : State) : Host.Outcome State Fault Refusal :=
  lift (Dev.slipFetched (opcOf (.setc at_ u x w)) at_ u x w (execSetcD at_ u x w)) s

/-- ADDC (R241). Slip instruction: adds to a counter. -/
def execAddc (at_ u x : Nat) (w : SWord) (s : State) : Host.Outcome State Fault Refusal :=
  lift (Dev.slipFetched (opcOf (.addc at_ u x w)) at_ u x w (execAddcD at_ u x w)) s

/-- LOOP (R241). Slip instruction: decrement and branch. -/
def execLoop (at_ u x : Nat) (w : SWord) (s : State) : Host.Outcome State Fault Refusal :=
  lift (Dev.slipFetched (opcOf (.loop at_ u x w)) at_ u x w (execLoopD at_ u x w)) s

/-- OPEN (R241). Slip instruction: waits for a buffer EMPTY, then sets it FILLING. -/
def execOpen (at_ u x : Nat) (w : SWord) (s : State) : Host.Outcome State Fault Refusal :=
  lift (Dev.slipFetched (opcOf (.open_ at_ u x w)) at_ u x w (execOpenD at_ u x w)) s

/-- CLOSE (R241). Slip instruction: waits for fills to land, sets the buffer FULL and counts completion. -/
def execClose (at_ u x : Nat) (w : SWord) (s : State) : Host.Outcome State Fault Refusal :=
  lift (Dev.slipFetched (opcOf (.close at_ u x w)) at_ u x w (execCloseD at_ u x w)) s

/-- WAITMK (R241). Slip instruction: waits for a mark to meet a value. -/
def execWaitmk (at_ u x : Nat) (w : SWord) (s : State) : Host.Outcome State Fault Refusal :=
  lift (Dev.slipFetched (opcOf (.waitmk at_ u x w)) at_ u x w (execWaitmkD at_ u x w)) s

/-- WAITMK_TIMEOUT (R247). A WAITMK deadline passes and the slip goes on without an acquire. -/
def execWaitmkTimeout (u x : Nat) (s : State) : Host.Outcome State Fault Refusal :=
  lift (execWaitmkTimeoutD u x) s

/-- SIG (R241). Slip instruction: waits for PUT and FMT acceptance, then adds to the completion count. -/
def execSig (at_ u x : Nat) (w : SWord) (s : State) : Host.Outcome State Fault Refusal :=
  lift (Dev.slipFetched (opcOf (.sig at_ u x w)) at_ u x w (execSigD at_ u x w)) s

/-- FMT (R250). Slip instruction: the tile formatter converts one operand into engine-ready tiles. -/
def execFmt (at_ u x : Nat) (w : SWord) (s : State) : Host.Outcome State Fault Refusal :=
  lift (Dev.slipFetched (opcOf (.fmt at_ u x w)) at_ u x w (execFmtD at_ u x w)) s

/-- END (R241). Slip instruction: waits for outstanding transfers and ends the slip. -/
def execEnd (at_ u x : Nat) (w : SWord) (s : State) : Host.Outcome State Fault Refusal :=
  lift (Dev.slipFetched (opcOf (.end_ at_ u x w)) at_ u x w (execEndD at_ u x w)) s

end Sys2Proof.Machine
end

