-- ==== Sys2Proof/Machine/CmdCatalogueSessions.lean ====
section
/-! DEFINITION. The meanings of the commands of one part of the opcode table: the Catalogue and its sessions.
Each is its effect on the device, from the family's own file, with what follows from it. -/

namespace Sys2Proof.Machine

/-- CAT_OPEN (R455). A Catalogue OPEN creates a session on the transport. -/
def execCatOpen (r : Req) (s : State) : Host.Outcome State Fault Refusal :=
  lift (execCatOpenD r) s

/-- CAT_CLOSE (R456). A Catalogue CLOSE frees the session, its channel and slot holdings. -/
def execCatClose (r : Req) (s : State) : Host.Outcome State Fault Refusal :=
  lift (execCatCloseD r) s

/-- CAT_NOP (R456). A Catalogue NOP keeps a session alive. -/
def execCatNop (r : Req) (s : State) : Host.Outcome State Fault Refusal :=
  lift (execCatNopD r) s

/-- CAT_READ (R445). A Catalogue READ is checked and returns an entry's value. -/
def execCatRead (r : Req) (index field : Nat) (s : State) : Host.Outcome State Fault Refusal :=
  lift (execCatReadD r index field) s

/-- CAT_WRITE (R445). A Catalogue WRITE to an entry with no row of its own is checked and takes effect before OK. -/
def execCatWrite (r : Req) (index field : Nat) (v : List Byte) (s : State) : Host.Outcome State Fault Refusal :=
  lift (execCatWriteD r index field v) s

/-- RW_IDLE_BAR_WRITE (R10). A BAR write to an RW-idle field while the job runs is ignored and counted in CTL_ERROR. -/
def execRwIdleBarWrite (at_ port j q : Nat) (s : State) : Host.Outcome State Fault Refusal :=
  lift (execRwIdleBarWriteD at_ port j q) s

/-- SESS_LEVEL (R448). A session sets its control level, allowed only with the owner role or a key slot. -/
def execSessLevel (r : Req) (v : Nat) (s : State) : Host.Outcome State Fault Refusal :=
  lift (execSessLevelD r v) s

/-- SESS_CHALLENGE (R457). A read returns a fresh 32-byte owner challenge valid for one proof. -/
def execSessChallenge (r : Req) (s : State) : Host.Outcome State Fault Refusal :=
  lift (execSessChallengeD r) s

/-- SESS_OWNER_PROOF (R457). A proof write grants the session the owner role, or is refused. -/
def execSessOwnerProof (r : Req) (v : List Byte) (sigOk : Bool) (s : State) : Host.Outcome State Fault Refusal :=
  lift (execSessOwnerProofD r v sigOk) s

/-- SESS_IDLE_TIMEOUT (R456). A new idle timeout applies at once and closes sessions already idle beyond it. -/
def execSessIdleTimeout (r : Req) (v : Nat) (s : State) : Host.Outcome State Fault Refusal :=
  lift (execSessIdleTimeoutD r v) s

/-- SESSION_IDLE_EXPIRY (R456). A session with no request for SESS_IDLE_TIMEOUT is closed and counted. -/
def execSessionIdleExpiry (sess : Nat) (s : State) : Host.Outcome State Fault Refusal :=
  lift (execSessionIdleExpiryD sess) s

/-- MBOX_CTRL (R454). GO submits the mailbox request, reading bulk data if needed, or sets MBOX_ERR. -/
def execMboxCtrl (at_ port m : Nat) (v : Word) (bulkFails : Bool) (s : State) : Host.Outcome State Fault Refusal :=
  lift (execMboxCtrlD at_ port m v bulkFails) s

/-- APERTURE_ACCESS (R438). A host BAR2 read or write reaches a job's tier 2 or tier 3 page, or is refused. -/
def execApertureAccess (at_ port j off : Nat) (op : ApertureOp) (s : State) : Host.Outcome State Fault Refusal :=
  lift (execApertureAccessD at_ port j off op) s

/-- MGMT_DATAGRAM (R462). A management MAC datagram carrying a Catalogue fragment is received, or answered from cache. -/
def execMgmtDatagram (f : MgmtFrag) (s : State) : Host.Outcome State Fault Refusal :=
  lift (execMgmtDatagramD f) s

/-- MGMT_COLLISION (R461). A collision on the rack bus sends the jam and schedules a back-off, or drops the frame. -/
def execMgmtCollision (at_ : Nat) (late : Bool) (s : State) : Host.Outcome State Fault Refusal :=
  lift (execMgmtCollisionD at_ late) s

/-- BACKOFF_EXPIRY (R461). The back-off expires and the frame is retried. -/
def execBackoffExpiry (s : State) : Host.Outcome State Fault Refusal := lift execBackoffExpiryD s

end Sys2Proof.Machine
end

