-- ==== Sys2Proof/Machine/CmdCommands.lean ====
section
/-! DEFINITION. The meanings of the commands of one part of the opcode table: commands: dispatch of the fetched command `c`.
Each is its effect on the device, from the family's own file, with what follows from it. -/

namespace Sys2Proof.Machine

/-- LAUNCH (R84). A compute command launches a thread program on selected groups or Stacks dies. -/
def execLaunch (at_ c : Nat) (s : State) : Host.Outcome State Fault Refusal :=
  lift (execLaunchD at_ c) s

/-- WAIT_POSITION (R84). A timetable command retires at its release instant. -/
def execWaitPosition (at_ c : Nat) (s : State) : Host.Outcome State Fault Refusal :=
  lift (execWaitPositionD at_ c) s

/-- STAMP (R84). A timetable command writes the timebase to STAMP_VA. -/
def execStamp (at_ c : Nat) (s : State) : Host.Outcome State Fault Refusal :=
  lift (execStampD at_ c) s

/-- JOIN (R84). A mark/barrier command with no action other than its waits and signal. -/
def execJoin (at_ c : Nat) (s : State) : Host.Outcome State Fault Refusal :=
  lift (execJoinD at_ c) s

/-- MARK_WRITE (R84). A mark/barrier command sets a mark to a value, then does its own signal. -/
def execMarkWrite (at_ c : Nat) (s : State) : Host.Outcome State Fault Refusal :=
  lift (execMarkWriteD at_ c) s

/-- JOB_DRAIN (R84). A mark/barrier command dispatched only after every earlier-dispatched command of the job has
retired. -/
def execJobDrain (at_ c : Nat) (s : State) : Host.Outcome State Fault Refusal :=
  lift (execJobDrainD at_ c) s

/-- INTERRUPT (R84). A control command raises an MSI-X vector. -/
def execInterrupt (at_ c : Nat) (s : State) : Host.Outcome State Fault Refusal :=
  lift (execInterruptD at_ c) s

/-- TRACE_MARKER (R84). A control command writes a MARKER trace record carrying VALUE. -/
def execTraceMarker (at_ c : Nat) (s : State) : Host.Outcome State Fault Refusal :=
  lift (execTraceMarkerD at_ c) s

/-- SAMPLE_NOW (R473). A control command takes one forced counter sample of the job at once. -/
def execSampleNow (at_ c : Nat) (s : State) : Host.Outcome State Fault Refusal :=
  lift (execSampleNowD at_ c) s

/-- COPY (R252). A stream/copy command copies rows from source to destination. -/
def execCopy (at_ c : Nat) (s : State) : Host.Outcome State Fault Refusal :=
  lift (execCopyD at_ c) s

/-- SLIP (R252). A stream/copy command copies a call slip to each selected unit and posts its RUN there. -/
def execSlip (at_ c : Nat) (s : State) : Host.Outcome State Fault Refusal :=
  lift (execSlipD at_ c) s

/-- SEND (R365). A collective command posts a write transfer to a peer region, optionally ending in a seal. -/
def execSend (at_ c : Nat) (s : State) : Host.Outcome State Fault Refusal :=
  lift (execSendD at_ c) s

/-- CONTRIBUTE (R365). A collective command sends gradient pieces as CONTRIB packets or local adds to shard owners. -/
def execContribute (at_ c : Nat) (s : State) : Host.Outcome State Fault Refusal :=
  lift (execContributeD at_ c) s

/-- REDUCE (R366). A collective command arms a step's shard buffers and waits for the reduction close. -/
def execReduce (at_ c : Nat) (s : State) : Host.Outcome State Fault Refusal :=
  lift (execReduceD at_ c) s

/-- REDUCE_CLOSE (R368). TT_SETTLE after the close instant the reduction is decided, norms are written, the ballot sent
and the REDUCE retires. -/
def execReduceClose (c : Nat) (s : State) : Host.Outcome State Fault Refusal :=
  lift (execReduceCloseD c) s

/-- SWEEP (R286). An update sweep command updates master, moments, running average and working copy of its shard
entries. -/
def execSweep (at_ c : Nat) (s : State) : Host.Outcome State Fault Refusal :=
  lift (execSweepD at_ c) s

/-- GATHER (R299). An update sweep command fetches a version of a working copy from its owner, locally or by versioned
read. -/
def execGather (at_ c : Nat) (s : State) : Host.Outcome State Fault Refusal :=
  lift (execGatherD at_ c) s

/-- EXPORT (R307). An export/import command writes an encrypted, optionally signed shard record. -/
def execExportRec (at_ c : Nat) (s : State) : Host.Outcome State Fault Refusal :=
  lift (execExportRecD at_ c) s

/-- IMPORT (R308). An export/import command verifies a record and decrypts the selected rows into the shard. -/
def execImportRec (at_ c : Nat) (sigOk : Bool) (s : State) : Host.Outcome State Fault Refusal :=
  lift (execImportRecD at_ c sigOk) s

end Sys2Proof.Machine
end

