-- ==== Sys2Proof/Machine/CmdJobsRings.lean ====
section
/-! DEFINITION. The meanings of the commands of one part of the opcode table: jobs and rings.
Each is its effect on the device, from the family's own file, with what follows from it. -/

namespace Sys2Proof.Machine

/-- JOB_START (R73). JOB_CONTROL start checks the job's tables and tier 1 grant and moves a CREATED or STOPPED job to
RUNNING, or refuses it. -/
def execJobStart (r : Req) (j : Nat) (s : State) : Host.Outcome State Fault Refusal :=
  lift (execJobStartD r j) s

/-- JOB_STOP (R73). JOB_CONTROL stop moves a RUNNING job to STOPPING; parked commands retire preempted-at-boundary. -/
def execJobStop (r : Req) (j : Nat) (s : State) : Host.Outcome State Fault Refusal :=
  lift (execJobStopD r j) s

/-- JOB_TEARDOWN (R73). JOB_CONTROL teardown discards held commands, clears job state, frees connections and starts
revocation of every region. -/
def execJobTeardown (r : Req) (j : Nat) (s : State) : Host.Outcome State Fault Refusal :=
  lift (execJobTeardownD r j) s

/-- TEARDOWN_COMPLETE (R73). Clearing ends and every revocation of the job has completed; the job slot becomes FREE. -/
def execTeardownComplete (at_ j : Nat) (s : State) : Host.Outcome State Fault Refusal :=
  lift (execTeardownCompleteD at_ j) s

/-- SEC_JOB_CREATE (R417). A protected request creates a job in CREATED bound to a held key slot with zero quotas. -/
def execSecJobCreate (r : Req) (slot job : Nat) (s : State) : Host.Outcome State Fault Refusal :=
  lift (execSecJobCreateD r slot job) s

/-- RING_CONFIG (R77). A ring record written while the job is stopped is checked and sets the ring ACTIVE, or is
refused. -/
def execRingConfig (r : Req) (j q : Nat) (rec : List Byte) (s : State) : Host.Outcome State Fault Refusal :=
  lift (execRingConfigD r j q rec) s

/-- RING_RESTART (R81). RING_CONTROL restart makes a STOPPED or HALTED ring ACTIVE at the next descriptor, abandoning a
halted command. -/
def execRingRestart (r : Req) (j q : Nat) (s : State) : Host.Outcome State Fault Refusal :=
  lift (execRingRestartD r j q) s

/-- RING_RESUME (R81). RING_CONTROL resume makes a HALTED ring ACTIVE and continues the halted command. -/
def execRingResume (r : Req) (j q : Nat) (s : State) : Host.Outcome State Fault Refusal :=
  lift (execRingResumeD r j q) s

/-- RING_RESET (R81). RING_CONTROL reset with the job stopped zeroes head, tail and sequence and discards held commands. -/
def execRingReset (r : Req) (j q : Nat) (s : State) : Host.Outcome State Fault Refusal :=
  lift (execRingResetD r j q) s

/-- RING_DOORBELL (R435). A doorbell announces a new tail, which is accepted or dropped and counted. -/
def execRingDoorbell (at_ port j q : Nat) (v : Word) (s : State) : Host.Outcome State Fault Refusal :=
  lift (execRingDoorbellD at_ port j q v) s

/-- RING_PUSH (R436). A 64-byte push write delivers a descriptor with the doorbell, checked for form and PHASE. -/
def execRingPush (at_ port j q off tlps : Nat) (data : List Byte) (s : State) : Host.Outcome State Fault Refusal :=
  lift (execRingPushD at_ port j q off tlps data) s

/-- DESCRIPTOR_FETCH (R80). The global command processor fetches a descriptor from ring memory into its ring window when
there is room. -/
def execDescriptorFetch (at_ j q : Nat) (s : State) : Host.Outcome State Fault Refusal :=
  lift (execDescriptorFetchD at_ j q) s

/-- PHASE_REFETCH (R79). Every 1 µs a descriptor with the wrong PHASE is fetched again, and after CP_PHASE_RETRY tries
it retires malformed and stops the ring. -/
def execPhaseRefetch (j q : Nat) (s : State) : Host.Outcome State Fault Refusal :=
  lift (execPhaseRefetchD j q) s

/-- WAIT_TIMEOUT (R88). A command's wait deadline passes and the tie rule decides whether its waits timed out. -/
def execWaitTimeout (c : Nat) (s : State) : Host.Outcome State Fault Refusal :=
  lift (execWaitTimeoutD c) s

/-- COMMAND_START_ON_UNIT (R91). A quadrant command processor starts a compute command's part on a group or Stacks die
once it has free bundle slots and engines. -/
def execCommandStartOnUnit (at_ c u : Nat) (s : State) : Host.Outcome State Fault Refusal :=
  lift (execCommandStartOnUnitD at_ c u) s

/-- PARKED_RESUME (R98). A parked command resumes on its units that did not run when slack reopens and capacity allows. -/
def execParkedResume (at_ c u : Nat) (s : State) : Host.Outcome State Fault Refusal :=
  lift (execParkedResumeD at_ c u) s

/-- COMMAND_RETIRE (R69). A command whose work has ended is retired: writes released, completion record written, mark
signalled, interrupt raised. -/
def execCommandRetire (at_ c : Nat) (s : State) : Host.Outcome State Fault Refusal :=
  lift (execCommandRetireD at_ c) s

end Sys2Proof.Machine
end

