-- ==== Sys2Proof/Machine/CmdMemory.lean ====
section
/-! DEFINITION. The meanings of the commands of one part of the opcode table: memory.
Each is its effect on the device, from the family's own file, with what follows from it. -/

namespace Sys2Proof.Machine

/-- MEM_ALLOC (R211). An allocation request places, zeroes and maps pages, or is refused. -/
def execMemAlloc (r : Req) (j : Nat) (rec : List Byte) (s : State) : Host.Outcome State Fault Refusal :=
  lift (execMemAllocD r j rec) s

/-- MEM_FREE (R213). A VA write frees an allocation after invalidating and draining its pages. -/
def execMemFree (r : Req) (j v : Nat) (s : State) : Host.Outcome State Fault Refusal :=
  lift (execMemFreeD r j v) s

/-- MEM_BRING_IN (R214). A page is moved from tier 4 to tier 3 and its leaf rewritten. -/
def execMemBringIn (r : Req) (j v : Nat) (s : State) : Host.Outcome State Fault Refusal :=
  lift (execMemBringInD r j v) s

/-- MEM_RETIRE (R223). A physical page is added to the retired list and copied if mapped to a stopped job, or refused
when the list is full. -/
def execMemRetire (r : Req) (v : Nat) (s : State) : Host.Outcome State Fault Refusal :=
  lift (execMemRetireD r v) s

/-- MEM_SCRUB_FULL (R221). A long operation that scrubs every line of the masked dies. -/
def execMemScrubFull (r : Req) (v : Nat) (s : State) : Host.Outcome State Fault Refusal :=
  lift (execMemScrubFullD r v) s

/-- MEM_RETRAIN (R222). A long operation that retrains the masked dies' LPDDR6 links, stopping each die's data plane in
turn. -/
def execMemRetrain (r : Req) (v : Nat) (s : State) : Host.Outcome State Fault Refusal :=
  lift (execMemRetrainD r v) s

/-- MEM_INTEGRITY_EN (R228). A write accepted while no job holds tier 3 turns integrity tags on or off as a long
operation. -/
def execMemIntegrityEn (r : Req) (v : Nat) (s : State) : Host.Outcome State Fault Refusal :=
  lift (execMemIntegrityEnD r v) s

/-- QUOTA_WRITE (R217). An owner write of a job quota is checked against capacity and use. -/
def execQuotaWrite (r : Req) (j kind : Nat) (v : List Byte) (s : State) : Host.Outcome State Fault Refusal :=
  lift (execQuotaWriteD r j kind v) s

/-- PATROL_SCRUB (R221). The background scrub reads lines and corrects or poisons them once per period. -/
def execPatrolScrub (at_ d : Nat) (hits : List ScrubHit) (s : State) : Host.Outcome State Fault Refusal :=
  lift (execPatrolScrubD at_ d hits) s

/-- LONG_OPERATION_END (R452). A long Catalogue operation finishes, answers its session and is recorded in
CAT_LAST_LONG. -/
def execLongOperationEnd (hits : List ScrubHit) (s : State) : Host.Outcome State Fault Refusal :=
  lift (execLongOperationEndD hits) s

end Sys2Proof.Machine
end

