-- ==== Sys2Proof/Machine/CmdNetwork.lean ====
section
/-! DEFINITION. The meanings of the commands of one part of the opcode table: Ethernet and Maelgo.
Each is its effect on the device, from the family's own file, with what follows from it. -/

namespace Sys2Proof.Machine

/-- FRAME_RECEIVE (R318). A data-port MAC receives a frame, checks it and classifies it to PTP, Maelgo, ARP, host ring
or drop. -/
def execFrameReceive (f : Frame) (s : State) : Host.Outcome State Fault Refusal :=
  lift (execFrameReceiveD f) s

/-- ARP_REQUEST (R318). An ARP request for the port's address is answered by network die firmware. -/
def execArpRequest (at_ : Nat) (port : Option Nat) (ip : Nat) (s : State) : Host.Outcome State Fault Refusal :=
  lift (execArpRequestD at_ port ip) s

/-- TX_UNDERRUN (R321). Transmit data fails to arrive in time; the frame is ended with a bad FCS and a Maelgo packet
requeued. -/
def execTxUnderrun (at_ port n : Nat) (s : State) : Host.Outcome State Fault Refusal :=
  lift (execTxUnderrunD at_ port n) s

/-- PORT_LINK_CHANGE (R314). A data-port link goes down, trains or comes up. -/
def execPortLinkChange (at_ port link : Nat) (s : State) : Host.Outcome State Fault Refusal :=
  lift (execPortLinkChangeD at_ port link) s

/-- WRITE (R347). A Maelgo WRITE is checked and cut through into its sink before its tag is checked. -/
def execWrite (p : Pkt) (s : State) : Host.Outcome State Fault Refusal :=
  lift (execWriteD p) s

/-- SEAL_WRITE (R348). A Maelgo SEAL_WRITE is verified and buffered until it may land. -/
def execSealWrite (p : Pkt) (s : State) : Host.Outcome State Fault Refusal :=
  lift (execSealWriteD p) s

/-- SEAL_LAND (R348). A waiting seal whose predecessors are received and with no taint lands: payload written, mark
incremented, seal record written, acknowledged. -/
def execSealLand (at_ conn : Nat) (s : State) : Host.Outcome State Fault Refusal :=
  lift (execSealLandD at_ conn) s

/-- TAINT_HOLD_EXPIRY (R350). A seal waiting on a taint for NET_TAINT_HOLD puts the connection in ERROR. -/
def execTaintHoldExpiry (conn : Nat) (s : State) : Host.Outcome State Fault Refusal :=
  lift (execTaintHoldExpiryD conn) s

/-- READ_REQ (R351). A Maelgo READ_REQ is checked and served by READ_RESPs, versioned or plain. -/
def execReadReq (p : Pkt) (s : State) : Host.Outcome State Fault Refusal :=
  lift (execReadReqD p) s

/-- VERSION_HOLD_RETRY (R351). Every 1 µs a held versioned read is decided again. -/
def execVersionHoldRetry (k : Nat) (s : State) : Host.Outcome State Fault Refusal :=
  lift (execVersionHoldRetryD k) s

/-- READ_RESP (R352). A Maelgo READ_RESP is verified and its payload written to the destination. -/
def execReadResp (p : Pkt) (s : State) : Host.Outcome State Fault Refusal :=
  lift (execReadRespD p) s

/-- READ_TIMEOUT (R352). A READ_REQ not wholly answered within NET_READ_TIMEOUT is re-issued or abandoned. -/
def execReadTimeout (k : Nat) (s : State) : Host.Outcome State Fault Refusal :=
  lift (execReadTimeoutD k) s

/-- ACK (R341). A Maelgo ACK is received, acknowledging SEQs, detecting losses and adjusting the window at round end. -/
def execAck (p : Pkt) (s : State) : Host.Outcome State Fault Refusal :=
  lift (execAckD p) s

/-- NACK (R342). A verified Maelgo NACK is acted on by its reason. -/
def execNack (p : Pkt) (s : State) : Host.Outcome State Fault Refusal :=
  lift (execNackD p) s

/-- MGMT (R459). A Maelgo MGMT packet carries a fragment of a Catalogue message for the connection's session. -/
def execMgmt (p : Pkt) (s : State) : Host.Outcome State Fault Refusal :=
  lift (execMgmtD p) s

/-- TTSYNC (R355). A TTSYNC is received, answered if asked, and used for agreement or rejoin. -/
def execTtsync (p : Pkt) (s : State) : Host.Outcome State Fault Refusal :=
  lift (execTtsyncD p) s

/-- TTSYNC_SEND (R355). On entering ARMED and every 1 ms while ARMED, a TTSYNC is sent on each listed connection. -/
def execTtsyncSend (s : State) : Host.Outcome State Fault Refusal := lift execTtsyncSendD s

/-- PACKET_TRANSMIT (R343). The network die transmits the next packet of a posted transfer as the window allows. -/
def execPacketTransmit (at_ conn : Nat) (s : State) : Host.Outcome State Fault Refusal :=
  lift (execPacketTransmitD at_ conn) s

/-- ACK_DELAY (R339). NET_ACK_DELAY after the first unacknowledged packet, an ACK is sent. -/
def execAckDelay (conn : Nat) (s : State) : Host.Outcome State Fault Refusal :=
  lift (execAckDelayD conn) s

/-- RTO_EXPIRY (R340). A retransmission timeout passes; the SEQ is retransmitted or the connection enters ERROR. -/
def execRtoExpiry (conn : Nat) (seq : Word) (s : State) : Host.Outcome State Fault Refusal :=
  lift (execRtoExpiryD conn seq) s

/-- CONTEXT_FETCH_COMPLETE (R337). A connection context arrives on die and held packets continue at their region check. -/
def execContextFetchComplete (at_ conn : Nat) (s : State) : Host.Outcome State Fault Refusal :=
  lift (execContextFetchCompleteD at_ conn) s

/-- HOLD_TIMEOUT (R337). A packet held NET_HOLD_TIMEOUT is dropped and answered NACK busy. -/
def execHoldTimeout (k : Nat) (s : State) : Host.Outcome State Fault Refusal :=
  lift (execHoldTimeoutD k) s

/-- CONNECTION_DRAIN_END (R335). A DRAINING connection's transfers are all acknowledged or its time limit passes, and it
becomes FREE. -/
def execConnectionDrainEnd (at_ conn : Nat) (s : State) : Host.Outcome State Fault Refusal :=
  lift (execConnectionDrainEndD at_ conn) s

/-- NET_CONN_OPEN (R334). A connection record opens a connection, or completes a PENDING one. -/
def execNetConnOpen (r : Req) (j : Nat) (rec : List Byte) (s : State) : Host.Outcome State Fault Refusal :=
  lift (execNetConnOpenD r j rec) s

/-- NET_CONN_CLOSE (R335). A close moves a connection to DRAINING or FREE. -/
def execNetConnClose (r : Req) (j v : Nat) (s : State) : Host.Outcome State Fault Refusal :=
  lift (execNetConnCloseD r j v) s

/-- NET_CONN_QUERY (R356). A written identifier selects the connection whose state is returned. -/
def execNetConnQuery (r : Req) (j : Nat) (v : List Byte) (s : State) : Host.Outcome State Fault Refusal :=
  lift (execNetConnQueryD r j v) s

/-- NET_REGION_REG (R345). A region record registers a region and returns its handle. -/
def execNetRegionReg (r : Req) (j : Nat) (rec : List Byte) (s : State) : Host.Outcome State Fault Refusal :=
  lift (execNetRegionRegD r j rec) s

/-- NET_REGION_REVOKE (R353). A handle write marks the region REVOKING with revocation stamp Tᵣ. -/
def execNetRegionRevoke (r : Req) (j v : Nat) (s : State) : Host.Outcome State Fault Refusal :=
  lift (execNetRegionRevokeD r j v) s

/-- NET_REGION_QUERY (R356). A written handle selects the region whose state is returned. -/
def execNetRegionQuery (r : Req) (j : Nat) (v : List Byte) (s : State) : Host.Outcome State Fault Refusal :=
  lift (execNetRegionQueryD r j v) s

/-- REVOKE_SETTLE (R353). At Tᵣ + TT_SETTLE waiting seals of the region are answered NACK revoked and discarded. -/
def execRevokeSettle (k : Nat) (s : State) : Host.Outcome State Fault Refusal :=
  lift (execRevokeSettleD k) s

/-- REVOKE_COMPLETE (R353). No packet stamped before Tᵣ remains in flight; the region becomes FREE with a new
generation. -/
def execRevokeComplete (at_ k : Nat) (s : State) : Host.Outcome State Fault Refusal :=
  lift (execRevokeCompleteD at_ k) s

/-- NET_PORT_MODE (R314). A port-mode write, when no connection is open, takes links down and trains the new ports. -/
def execNetPortMode (r : Req) (v : Nat) (s : State) : Host.Outcome State Fault Refusal :=
  lift (execNetPortModeD r v) s

/-- HOSTFR_RX_TAIL (R441). A receive tail write posts host frame buffers. -/
def execHostfrRxTail (at_ q : Nat) (v : Word) (s : State) : Host.Outcome State Fault Refusal :=
  lift (execHostfrRxTailD at_ q v) s

/-- HOSTFR_TX_TAIL (R441). A transmit tail write hands host frames to the CX1T for transmission. -/
def execHostfrTxTail (at_ q : Nat) (v : Word) (s : State) : Host.Outcome State Fault Refusal :=
  lift (execHostfrTxTailD at_ q v) s

end Sys2Proof.Machine
end

