-- ==== Sys2Proof/Machine/CmdPowerHeat.lean ====
section
/-! DEFINITION. The meanings of the commands of one part of the opcode table: power, heat, clocks.
Each is its effect on the device, from the family's own file, with what follows from it. -/

namespace Sys2Proof.Machine

/-- CAP_SAMPLE (R386). Every 1 µs the Cap estimates power and rail currents, forecasts and throttles, and rewrites the
Brim. -/
def execCapSample (p : PowerSample) (s : State) : Host.Outcome State Fault Refusal :=
  lift (execCapSampleD p) s

/-- CAP_RELAX (R387). Every 100 µs the Cap undoes one step when the forecast allows. -/
def execCapRelax (p : PowerSample) (s : State) : Host.Outcome State Fault Refusal :=
  lift (execCapRelaxD p) s

/-- CALIBRATION (R384). Every 1 ms each gain is set from measured over estimated energy, clamped if out of range. -/
def execCalibration (at_ : Nat) (ratios : List (Nat × Nat)) (s : State) : Host.Outcome State Fault Refusal :=
  lift (execCalibrationD at_ ratios) s

/-- ENTRY_CHANGE (R383). A voltage-table change reaches its voltage and switches frequency. -/
def execEntryChange (die : Nat) (s : State) : Host.Outcome State Fault Refusal :=
  lift (execEntryChangeD die) s

/-- THERMAL_SAMPLE (R394). Junction and LPDDR6 sensors are sampled and thermal steps or refresh changes applied. -/
def execThermalSample (at_ : Nat) (temps : List Int) (s : State) : Host.Outcome State Fault Refusal :=
  lift (execThermalSampleD at_ temps) s

/-- INLET_SAMPLE (R396). Every 1 ms inlet air is read and P_LIMIT lowered above 35 °C. -/
def execInletSample (at_ : Nat) (temp : Int) (s : State) : Host.Outcome State Fault Refusal :=
  lift (execInletSampleD at_ temp) s

/-- DROOP (R393). A supply sag below DROOP_THRESH stretches the quadrant or die clock. -/
def execDroop (at_ det mv : Nat) (s : State) : Host.Outcome State Fault Refusal :=
  lift (execDroopD at_ det mv) s

/-- DROOP_END (R393). After 64 cycles within threshold the stretch ends and a DROOP trace record is written. -/
def execDroopEnd (at_ det : Nat) (s : State) : Host.Outcome State Fault Refusal :=
  lift (execDroopEndD at_ det) s

/-- CUFF_WAVE (R391). Each 128 ns the next wave of groups and Stacks dies is released. -/
def execCuffWave (s : State) : Host.Outcome State Fault Refusal := lift execCuffWaveD s

/-- CUFF_RAMP_STEP (R392). After 64 cycles a started engine's duty steps up. -/
def execCuffRampStep (u e : Nat) (s : State) : Host.Outcome State Fault Refusal :=
  lift (execCuffRampStepD u e) s

/-- CUFF_DISENGAGE (R392). 128 cycles after wave 7 the Cuff disengages. -/
def execCuffDisengage (s : State) : Host.Outcome State Fault Refusal := lift execCuffDisengageD s

end Sys2Proof.Machine
end

