-- ==== Sys2Proof/Machine/CmdReductionVote.lean ====
section
/-! DEFINITION. The meanings of the commands of one part of the opcode table: reduction, vote, pace.
Each is its effect on the device, from the family's own file, with what follows from it. -/

namespace Sys2Proof.Machine

/-- VOTE_CLOSE (R371). TT_SETTLE after V the root decides the vote and sends the result, first to the deputy. -/
def execVoteClose (j step : Nat) (s : State) : Host.Outcome State Fault Refusal :=
  lift (execVoteCloseD j step) s

/-- BALLOT (R370). A VOTE packet of kind ballot is received at the root and kept in its member's row. -/
def execBallot (p : Pkt) (s : State) : Host.Outcome State Fault Refusal :=
  lift (execBallotD p) s

/-- VOTE_RESULT (R372). A VOTE packet of kind result is received and recorded, or forwarded by the deputy, or dropped as
a duplicate. -/
def execVoteResult (p : Pkt) (s : State) : Host.Outcome State Fault Refusal :=
  lift (execVoteResultD p) s

/-- VOTE_NO_RESULT (R372). RED_VOTE_TIMEOUT after a member's REDUCE decided with no result recorded, it counts and
raises ALERT_N. -/
def execVoteNoResult (j step : Nat) (s : State) : Host.Outcome State Fault Refusal :=
  lift (execVoteNoResultD j step) s

/-- PACE (R375). A PACE packet is received and applied to the next slot start, or ignored. -/
def execPace (p : Pkt) (s : State) : Host.Outcome State Fault Refusal :=
  lift (execPaceD p) s

/-- CONTRIB (R363). A CONTRIB packet is checked and its elements added into the owner's shard for the step its stamp
selects, or dropped. -/
def execContrib (p : Pkt) (s : State) : Host.Outcome State Fault Refusal :=
  lift (execContribD p) s

end Sys2Proof.Machine
end

