-- ==== Sys2Proof/Machine/CmdReleasesCompletions.lean ====
section
/-! DEFINITION. The meanings of the commands of one part of the opcode table: releases, completions and the remaining events.
Each is its effect on the device, from the family's own file, with what follows from it. -/

namespace Sys2Proof.Machine

/-- COMMAND_RELEASE (R49). A held firm command's release instant A(j)+OFFSET is reached and it becomes dispatchable, or
a WAIT_POSITION retires. -/
def execCommandRelease (c : Nat) (s : State) : Host.Outcome State Fault Refusal :=
  lift (execCommandReleaseD c) s

/-- MEMORY_ACCESS_COMPLETE (R22). A load or atomic returns its data, or a write (including a FETCH, PUT or FMT line) is
accepted by its memory write sink or lands in scratch. -/
def execMemoryAccessComplete (at_ : Nat) (a : AccessId) (s : State) : Host.Outcome State Fault Refusal :=
  lift (execMemoryAccessCompleteD at_ a) s

/-- POWERED_HOURS (R382). The module's powered-hours count advances, raising the ageing guard band and possibly
disabling voltage-table entries with ALERT_N. -/
def execPoweredHours (h : Nat) (s : State) : Host.Outcome State Fault Refusal :=
  lift (execPoweredHoursD h) s

/-- ENTROPY_RECOVERY (R426). After a health test failure, 1,024 consecutive samples pass and key generation, session
opens and quotes are accepted again. -/
def execEntropyRecovery (at_ : Nat) (s : State) : Host.Outcome State Fault Refusal :=
  lift (execEntropyRecoveryD at_) s

/-- TRIP_COOLDOWN (R485). After a thermal trip and a MOD_RST_N pulse or input cycle, every junction reads below 90 °C
and the sequence restarts at step 2. -/
def execTripCooldown (at_ : Nat) (s : State) : Host.Outcome State Fault Refusal :=
  lift (execTripCooldownD at_) s

/-- CATALOGUE_RESET (R485). 10 ms after a DEV_RESET write answered OK, every rail except VDD_AUX turns off and boot
restarts at step 2. -/
def execCatalogueReset (s : State) : Host.Outcome State Fault Refusal := lift execCatalogueResetD s

/-- SYNC_INTERVAL (R31). At each sync or announce interval a grandmaster transmits Sync, Follow_Up and Announce, and a
slave transmits its delay requests. -/
def execSyncInterval (at_ : Nat) (s : State) : Host.Outcome State Fault Refusal :=
  lift (execSyncIntervalD at_) s

/-- DELAY_REQUEST_RESPONSE (R31). A PTP Delay_Req, Delay_Resp or peer-delay message is received and answered, or used to
measure path delay. -/
def execDelayRequestResponse (at_ : Nat) (m : DelayMsg) (s : State) : Host.Outcome State Fault Refusal :=
  lift (execDelayRequestResponseD at_ m) s

/-- HOST_LINK_UP (R482). A PCI Express link completes training and comes up, and tier 4 traffic to the port can resume. -/
def execHostLinkUp (at_ port rate width : Nat) (s : State) : Host.Outcome State Fault Refusal :=
  lift (execHostLinkUpD at_ port rate width) s

/-- CONFIGURATION_REQUEST (R482). A PCI Express configuration request arrives and is answered with Request Retry Status
before step 9, and normally after it. -/
def execConfigurationRequest (at_ port : Nat) (s : State) : Host.Outcome State Fault Refusal :=
  lift (execConfigurationRequestD at_ port) s

/-- HOST_ERR_CAUSE (R433). A host write of 1 to a bit of HOST_ERR_CAUSE clears that error cause bit. The row also takes writes
to the other words that stand with it, by their BAR0 offset (log entry 37). -/
def execHostErrCause (at_ port off : Nat) (data : List Byte) (s : State) : Host.Outcome State Fault Refusal :=
  lift (execHostErrCauseD at_ port off data) s

/-- MBOX_STATUS (R453). A host write of 1 to DONE in MBOX_STATUS clears the mailbox completion flag. The row also takes writes
to the other registers of the page, by their offset (log entry 37). -/
def execMboxStatus (at_ port m off : Nat) (data : List Byte) (s : State) : Host.Outcome State Fault Refusal :=
  lift (execMboxStatusD at_ port m off data) s

end Sys2Proof.Machine
end

