-- ==== Sys2Proof/Machine/CmdSecurity.lean ====
section
/-! DEFINITION. The meanings of the commands of one part of the opcode table: security.
Each is its effect on the device, from the family's own file, with what follows from it. -/

namespace Sys2Proof.Machine

/-- SEC_QUOTE_REQ (R410). A nonce request produces a signed quote for the session. -/
def execSecQuoteReq (r : Req) (v : List Byte) (s : State) : Host.Outcome State Fault Refusal :=
  lift (execSecQuoteReqD r v) s

/-- SEC_SESSION_OPEN (R413). An ML-KEM ciphertext opens a protected channel for the session. -/
def execSecSessionOpen (r : Req) (v : List Byte) (s : State) : Host.Outcome State Fault Refusal :=
  lift (execSecSessionOpenD r v) s

/-- SEC_KEY_DELIVER (R415). A protected root key delivery fills a key slot or rotates it. -/
def execSecKeyDeliver (r : Req) (v : List Byte) (s : State) : Host.Outcome State Fault Refusal :=
  lift (execSecKeyDeliverD r v) s

/-- SEC_KEY_PROVE (R416). A protected proof lets the channel hold an existing key slot. -/
def execSecKeyProve (r : Req) (tenant : Nat) (mac : List Byte) (s : State) : Host.Outcome State Fault Refusal :=
  lift (execSecKeyProveD r tenant mac) s

/-- SEC_SLOT_ERASE (R418). A slot number write zeroises an unbound key slot. -/
def execSecSlotErase (r : Req) (v : Nat) (s : State) : Host.Outcome State Fault Refusal :=
  lift (execSecSlotEraseD r v) s

/-- SEC_OWNER_TRANSFER (R427). A signed request replaces the owner public key. -/
def execSecOwnerTransfer (r : Req) (v : List Byte) (sigOk : Bool) (s : State) : Host.Outcome State Fault Refusal :=
  lift (execSecOwnerTransferD r v sigOk) s

/-- SEC_FW_INSTALL (R406). A long operation that verifies an image bundle and writes it to the inactive bank. -/
def execSecFwInstall (r : Req) (images : List FwImage) (s : State) : Host.Outcome State Fault Refusal :=
  lift (execSecFwInstallD r images) s

/-- SEC_FW_ACTIVATE (R406). A write of 1 selects the inactive bank for the next reset. -/
def execSecFwActivate (r : Req) (v : Nat) (s : State) : Host.Outcome State Fault Refusal :=
  lift (execSecFwActivateD r v) s

/-- SEC_FW_COMMIT (R406). A write of 1 blows fuses raising SEC_SVN_FUSED to the active bank's lowest SVN. -/
def execSecFwCommit (r : Req) (v : Nat) (s : State) : Host.Outcome State Fault Refusal :=
  lift (execSecFwCommitD r v) s

/-- SEC_IDE_KEYS (R425). An owner write sets an IDE stream's key sets, IV and address association. -/
def execSecIdeKeys (r : Req) (port : Nat) (v : List Byte) (s : State) : Host.Outcome State Fault Refusal :=
  lift (execSecIdeKeysD r port v) s

/-- SEC_IDE_FAIL (R425). An IDE integrity failure makes the stream insecure, counts and raises ALERT_N. -/
def execSecIdeFail (at_ port stream : Nat) (s : State) : Host.Outcome State Fault Refusal :=
  lift (execSecIdeFailD at_ port stream) s

/-- SEC_ENTROPY_FAIL (R426). An entropy health test fails; key generation, sessions and quotes are refused until samples
pass again. -/
def execSecEntropyFail (at_ : Nat) (s : State) : Host.Outcome State Fault Refusal :=
  lift (execSecEntropyFailD at_) s

end Sys2Proof.Machine
end

