-- ==== Sys2Proof/Machine/CmdStartUp.lean ====
section
/-! DEFINITION. The meanings of the commands of one part of the opcode table: start-up and reset.
Each is its effect on the device, from the family's own file, with what follows from it. -/

namespace Sys2Proof.Machine

/-- POWER_ON (R479). The input rises above 47 V with MOD_RST_N high, starting boot at t0. -/
def execPowerOn (pos : BitVec 7) (s : State) : Host.Outcome State Fault Refusal :=
  lift (execPowerOnD pos) s

/-- INPUT_LOSS (R485). The input stays below 45 V for 10 µs and every rail turns off. -/
def execInputLoss (at_ : Nat) (s : State) : Host.Outcome State Fault Refusal :=
  lift (execInputLossD at_) s

/-- MOD_RST_N_ASSERT (R485). MOD_RST_N low past the filter turns off every rail except VDD_AUX. -/
def execModRstNAssert (at_ : Nat) (s : State) : Host.Outcome State Fault Refusal :=
  lift (execModRstNAssertD at_) s

/-- MOD_RST_N_RELEASE (R479). MOD_RST_N rises and the sequence restarts at step 2. -/
def execModRstNRelease (at_ : Nat) (s : State) : Host.Outcome State Fault Refusal :=
  lift (execModRstNReleaseD at_) s

/-- DEV_RESET (R485). A write of 0xA5 resets the module 10 ms after the OK. -/
def execDevReset (r : Req) (v : Nat) (s : State) : Host.Outcome State Fault Refusal :=
  lift (execDevResetD r v) s

/-- RAIL_IN_REGULATION (R479). A rail reaches regulation and the next rail starts, PWR_GOOD rising after the last. -/
def execRailInRegulation (at_ : Nat) (s : State) : Host.Outcome State Fault Refusal :=
  lift (execRailInRegulationD at_) s

/-- GAUNTLET_STAGE1 (R405). ROM verifies the security firmware image, falling back or entering recovery on failure. -/
def execGauntletStage1 (at_ : Nat) (bank0 bank1 : List FwImage) (s : State) : Host.Outcome State Fault Refusal :=
  lift (execGauntletStage1D at_ bank0 bank1) s

/-- GAUNTLET_STAGE2 (R405). Security firmware verifies the die images and entropy, and generates attestation and KEM
keys. -/
def execGauntletStage2 (at_ : Nat) (entropyOk : Bool) (keys : Nat) (s : State) : Host.Outcome State Fault Refusal :=
  lift (execGauntletStage2D at_ entropyOk keys) s

/-- DIE_READY (R405). A released die reports ready and the next is released; after the network die the data plane is
released. -/
def execDieReady (at_ : Nat) (s : State) : Host.Outcome State Fault Refusal :=
  lift (execDieReadyD at_) s

/-- DIE_READY_TIMEOUT (R405). A die not ready within 100 ms holds the boot and enters recovery mode. -/
def execDieReadyTimeout (channel : Option Nat) (s : State) : Host.Outcome State Fault Refusal :=
  lift (execDieReadyTimeoutD channel) s

/-- RECOVERY_RESET (R484). 1 s after a recovery install OK the module resets. -/
def execRecoveryReset (s : State) : Host.Outcome State Fault Refusal := lift execRecoveryResetD s

/-- PERST_ASSERT (R432). PERSTp_N low closes the port's sessions and drops its tier 4 traffic. -/
def execPerstAssert (at_ port : Nat) (s : State) : Host.Outcome State Fault Refusal :=
  lift (execPerstAssertD at_ port) s

/-- PERST_RELEASE (R482). PERSTp_N rises and the port starts link training. -/
def execPerstRelease (at_ port : Nat) (s : State) : Host.Outcome State Fault Refusal :=
  lift (execPerstReleaseD at_ port) s

/-- HOST_LINK_DOWN (R432). A PCI Express link goes down and the port is handled as in reset. -/
def execHostLinkDown (at_ port : Nat) (s : State) : Host.Outcome State Fault Refusal :=
  lift (execHostLinkDownD at_ port) s

/-- HOST_READ_TIMEOUT (R432). 10 ms after link loss, pending tier 4 reads return zeros as poisoned lines. -/
def execHostReadTimeout (port : Nat) (s : State) : Host.Outcome State Fault Refusal :=
  lift (execHostReadTimeoutD port) s

end Sys2Proof.Machine
end

