-- ==== Sys2Proof/Machine/CmdStatisticsExpert.lean ====
section
/-! DEFINITION. The meanings of the commands of one part of the opcode table: statistics, expert tables, seals of record sets.
Each is its effect on the device, from the family's own file, with what follows from it. -/

namespace Sys2Proof.Machine

/-- ROLL (R153). TT_SETTLE after a step's end, the roll turns each slot's figures into the next scale and writes the
records. -/
def execRoll (j : Nat) (s : State) : Host.Outcome State Fault Refusal :=
  lift (execRollD j) s

/-- NUM_STAT_ROLL (R157). A write of 1 requests a manual roll of the job's statistics slots. -/
def execNumStatRoll (r : Req) (j v : Nat) (s : State) : Host.Outcome State Fault Refusal :=
  lift (execNumStatRollD r j v) s

/-- NMU_TABLE_RELOAD (R260). A write of 1 rechecks the expert table and recomputes every threshold and placement. -/
def execNmuTableReload (r : Req) (j v : Nat) (s : State) : Host.Outcome State Fault Refusal :=
  lift (execNmuTableReloadD r j v) s

/-- NMU_PLACE_THRESH (R260). A write of the default threshold acts as a reload of the expert table. -/
def execNmuPlaceThresh (r : Req) (j v : Nat) (s : State) : Host.Outcome State Fault Refusal :=
  lift (execNmuPlaceThreshD r j v) s

/-- EXP_SEAL (R311). A long operation that writes a signed manifest over a list of export records. -/
def execExpSeal (r : Req) (j : Nat) (v : List Byte) (s : State) : Host.Outcome State Fault Refusal :=
  lift (execExpSealD r j v) s

end Sys2Proof.Machine
end

