-- ==== Sys2Proof/Machine/CmdTelemetry.lean ====
section
/-! DEFINITION. The meanings of the commands of one part of the opcode table: telemetry.
Each is its effect on the device, from the family's own file, with what follows from it. -/

namespace Sys2Proof.Machine

/-- SAMPLE (R473). At each multiple of SMP_INTERVAL counts are latched and a sample record written per job. -/
def execSample (j : Nat) (s : State) : Host.Outcome State Fault Refusal :=
  lift (execSampleD j) s

/-- ALERT_CAUSE (R475). Writing 1 clears cause bits, except bit 11 during recovery, updating ALERT_N. -/
def execAlertCause (r : Req) (v : Nat) (s : State) : Host.Outcome State Fault Refusal :=
  lift (execAlertCauseD r v) s

end Sys2Proof.Machine
end

