-- ==== Sys2Proof/Machine/CmdTensorInstructions.lean ====
section
/-! DEFINITION. The meanings of the commands of one part of the opcode table: tensor instructions: engine `e` of unit `u` executes the word at the front of its queue.
Each is its effect on the device, from the family's own file, with what follows from it. -/

namespace Sys2Proof.Machine

/-- MMA (R116). Tensor instruction: multiplies operand blocks and accumulates them into a tile's chains. -/
def execMma (at_ u e : Nat) (s : State) : Host.Outcome State Fault Refusal :=
  lift (execMmaD at_ u e) s

/-- LOAD (R111). Tensor instruction: opens a tile with values loaded from scratch. -/
def execLoad (at_ u e : Nat) (s : State) : Host.Outcome State Fault Refusal :=
  lift (execLoadD at_ u e) s

/-- STORE (R119). Tensor instruction: merges, scales, fuses, converts and writes a tile to scratch. -/
def execStore (at_ u e : Nat) (s : State) : Host.Outcome State Fault Refusal :=
  lift (execStoreD at_ u e) s

/-- RELEASE (R107). Tensor instruction: frees a tile. -/
def execRelease (at_ u e : Nat) (s : State) : Host.Outcome State Fault Refusal :=
  lift (execReleaseD at_ u e) s

/-- DEBUG_READ (R128). Tensor instruction: writes a tile's raw contents with a header, if permitted. -/
def execDebugRead (at_ u e : Nat) (s : State) : Host.Outcome State Fault Refusal :=
  lift (execDebugReadD at_ u e) s

/-- TENSOR_COMPLETE (R196). A tensor instruction finishes its last rounding or write, possibly releasing a TWAIT. -/
def execTensorComplete (at_ u e : Nat) (s : State) : Host.Outcome State Fault Refusal :=
  lift (execTensorCompleteD at_ u e) s

end Sys2Proof.Machine
end

