-- ==== Sys2Proof/Machine/CmdThreadInstructions.lean ====
section
/-! DEFINITION. The meanings of the commands of one part of the opcode table: thread instructions: bundle `b` of unit `u` issues the word with these low 56 bits, where its fetch reads that word.
Each is its effect on the device, from the family's own file, with what follows from it. -/

namespace Sys2Proof.Machine

/-- FADD (R178). Thread instruction: FP32 add. -/
def execFadd (u b : Nat) (w : TWord) (s : State) : Host.Outcome State Fault Refusal :=
  lift (Dev.fetched (opcOf (.fadd u b w)) u b w (execFaddD u b w)) s

/-- FMUL (R178). Thread instruction: FP32 multiply. -/
def execFmul (u b : Nat) (w : TWord) (s : State) : Host.Outcome State Fault Refusal :=
  lift (Dev.fetched (opcOf (.fmul u b w)) u b w (execFmulD u b w)) s

/-- FFMA (R178). Thread instruction: FP32 fused multiply-add with one rounding. -/
def execFfma (u b : Nat) (w : TWord) (s : State) : Host.Outcome State Fault Refusal :=
  lift (Dev.fetched (opcOf (.ffma u b w)) u b w (execFfmaD u b w)) s

/-- FMIN (R178). Thread instruction: FP32 minimum. -/
def execFmin (u b : Nat) (w : TWord) (s : State) : Host.Outcome State Fault Refusal :=
  lift (Dev.fetched (opcOf (.fmin u b w)) u b w (execFminD u b w)) s

/-- FMAX (R178). Thread instruction: FP32 maximum. -/
def execFmax (u b : Nat) (w : TWord) (s : State) : Host.Outcome State Fault Refusal :=
  lift (Dev.fetched (opcOf (.fmax u b w)) u b w (execFmaxD u b w)) s

/-- SEL (R177). Thread instruction: selects a or b by predicate. -/
def execSel (u b : Nat) (w : TWord) (s : State) : Host.Outcome State Fault Refusal :=
  lift (Dev.fetched (opcOf (.sel u b w)) u b w (execSelD u b w)) s

/-- FRCP (R179). Thread instruction: reciprocal. -/
def execFrcp (u b : Nat) (w : TWord) (s : State) : Host.Outcome State Fault Refusal :=
  lift (Dev.fetched (opcOf (.frcp u b w)) u b w (execFrcpD u b w)) s

/-- FRSQ (R179). Thread instruction: reciprocal square root. -/
def execFrsq (u b : Nat) (w : TWord) (s : State) : Host.Outcome State Fault Refusal :=
  lift (Dev.fetched (opcOf (.frsq u b w)) u b w (execFrsqD u b w)) s

/-- FSQRT (R179). Thread instruction: correctly rounded square root. -/
def execFsqrt (u b : Nat) (w : TWord) (s : State) : Host.Outcome State Fault Refusal :=
  lift (Dev.fetched (opcOf (.fsqrt u b w)) u b w (execFsqrtD u b w)) s

/-- FEXP2 (R179). Thread instruction: base-2 exponential. -/
def execFexp2 (u b : Nat) (w : TWord) (s : State) : Host.Outcome State Fault Refusal :=
  lift (Dev.fetched (opcOf (.fexp2 u b w)) u b w (execFexp2D u b w)) s

/-- FLOG2 (R179). Thread instruction: base-2 logarithm. -/
def execFlog2 (u b : Nat) (w : TWord) (s : State) : Host.Outcome State Fault Refusal :=
  lift (Dev.fetched (opcOf (.flog2 u b w)) u b w (execFlog2D u b w)) s

/-- FTANH (R179). Thread instruction: hyperbolic tangent. -/
def execFtanh (u b : Nat) (w : TWord) (s : State) : Host.Outcome State Fault Refusal :=
  lift (Dev.fetched (opcOf (.ftanh u b w)) u b w (execFtanhD u b w)) s

/-- FADDI (R177). Thread instruction: add an FP32 immediate. -/
def execFaddi (u b : Nat) (w : TWord) (s : State) : Host.Outcome State Fault Refusal :=
  lift (Dev.fetched (opcOf (.faddi u b w)) u b w (execFaddiD u b w)) s

/-- FMULI (R177). Thread instruction: multiply by an FP32 immediate. -/
def execFmuli (u b : Nat) (w : TWord) (s : State) : Host.Outcome State Fault Refusal :=
  lift (Dev.fetched (opcOf (.fmuli u b w)) u b w (execFmuliD u b w)) s

/-- IADD (R180). Thread instruction: 32-bit integer add. -/
def execIadd (u b : Nat) (w : TWord) (s : State) : Host.Outcome State Fault Refusal :=
  lift (Dev.fetched (opcOf (.iadd u b w)) u b w (execIaddD u b w)) s

/-- ISUB (R180). Thread instruction: 32-bit integer subtract. -/
def execIsub (u b : Nat) (w : TWord) (s : State) : Host.Outcome State Fault Refusal :=
  lift (Dev.fetched (opcOf (.isub u b w)) u b w (execIsubD u b w)) s

/-- IMUL (R180). Thread instruction: 32-bit integer multiply, low half. -/
def execImul (u b : Nat) (w : TWord) (s : State) : Host.Outcome State Fault Refusal :=
  lift (Dev.fetched (opcOf (.imul u b w)) u b w (execImulD u b w)) s

/-- IMAD (R180). Thread instruction: integer multiply-add. -/
def execImad (u b : Nat) (w : TWord) (s : State) : Host.Outcome State Fault Refusal :=
  lift (Dev.fetched (opcOf (.imad u b w)) u b w (execImadD u b w)) s

/-- IMIN (R180). Thread instruction: signed minimum. -/
def execImin (u b : Nat) (w : TWord) (s : State) : Host.Outcome State Fault Refusal :=
  lift (Dev.fetched (opcOf (.imin u b w)) u b w (execIminD u b w)) s

/-- IMAX (R180). Thread instruction: signed maximum. -/
def execImax (u b : Nat) (w : TWord) (s : State) : Host.Outcome State Fault Refusal :=
  lift (Dev.fetched (opcOf (.imax u b w)) u b w (execImaxD u b w)) s

/-- UMIN (R180). Thread instruction: unsigned minimum. -/
def execUmin (u b : Nat) (w : TWord) (s : State) : Host.Outcome State Fault Refusal :=
  lift (Dev.fetched (opcOf (.umin u b w)) u b w (execUminD u b w)) s

/-- UMAX (R180). Thread instruction: unsigned maximum. -/
def execUmax (u b : Nat) (w : TWord) (s : State) : Host.Outcome State Fault Refusal :=
  lift (Dev.fetched (opcOf (.umax u b w)) u b w (execUmaxD u b w)) s

/-- AND (R180). Thread instruction: bitwise and. -/
def execAnd (u b : Nat) (w : TWord) (s : State) : Host.Outcome State Fault Refusal :=
  lift (Dev.fetched (opcOf (.and u b w)) u b w (execAndD u b w)) s

/-- OR (R180). Thread instruction: bitwise or. -/
def execOr (u b : Nat) (w : TWord) (s : State) : Host.Outcome State Fault Refusal :=
  lift (Dev.fetched (opcOf (.or u b w)) u b w (execOrD u b w)) s

/-- XOR (R180). Thread instruction: bitwise exclusive or. -/
def execXor (u b : Nat) (w : TWord) (s : State) : Host.Outcome State Fault Refusal :=
  lift (Dev.fetched (opcOf (.xor u b w)) u b w (execXorD u b w)) s

/-- SHL (R180). Thread instruction: shift left. -/
def execShl (u b : Nat) (w : TWord) (s : State) : Host.Outcome State Fault Refusal :=
  lift (Dev.fetched (opcOf (.shl u b w)) u b w (execShlD u b w)) s

/-- SHR (R180). Thread instruction: logical shift right. -/
def execShr (u b : Nat) (w : TWord) (s : State) : Host.Outcome State Fault Refusal :=
  lift (Dev.fetched (opcOf (.shr u b w)) u b w (execShrD u b w)) s

/-- SAR (R180). Thread instruction: arithmetic shift right. -/
def execSar (u b : Nat) (w : TWord) (s : State) : Host.Outcome State Fault Refusal :=
  lift (Dev.fetched (opcOf (.sar u b w)) u b w (execSarD u b w)) s

/-- POPC (R177). Thread instruction: population count. -/
def execPopc (u b : Nat) (w : TWord) (s : State) : Host.Outcome State Fault Refusal :=
  lift (Dev.fetched (opcOf (.popc u b w)) u b w (execPopcD u b w)) s

/-- CLZ (R177). Thread instruction: count leading zeros. -/
def execClz (u b : Nat) (w : TWord) (s : State) : Host.Outcome State Fault Refusal :=
  lift (Dev.fetched (opcOf (.clz u b w)) u b w (execClzD u b w)) s

/-- IADDI (R177). Thread instruction: add an integer immediate. -/
def execIaddi (u b : Nat) (w : TWord) (s : State) : Host.Outcome State Fault Refusal :=
  lift (Dev.fetched (opcOf (.iaddi u b w)) u b w (execIaddiD u b w)) s

/-- ANDI (R177). Thread instruction: and with an immediate. -/
def execAndi (u b : Nat) (w : TWord) (s : State) : Host.Outcome State Fault Refusal :=
  lift (Dev.fetched (opcOf (.andi u b w)) u b w (execAndiD u b w)) s

/-- ORI (R177). Thread instruction: or with an immediate. -/
def execOri (u b : Nat) (w : TWord) (s : State) : Host.Outcome State Fault Refusal :=
  lift (Dev.fetched (opcOf (.ori u b w)) u b w (execOriD u b w)) s

/-- SHLI (R177). Thread instruction: shift left by an immediate. -/
def execShli (u b : Nat) (w : TWord) (s : State) : Host.Outcome State Fault Refusal :=
  lift (Dev.fetched (opcOf (.shli u b w)) u b w (execShliD u b w)) s

/-- SHRI (R177). Thread instruction: shift right by an immediate. -/
def execShri (u b : Nat) (w : TWord) (s : State) : Host.Outcome State Fault Refusal :=
  lift (Dev.fetched (opcOf (.shri u b w)) u b w (execShriD u b w)) s

/-- MOVI (R177). Thread instruction: load an immediate. -/
def execMovi (u b : Nat) (w : TWord) (s : State) : Host.Outcome State Fault Refusal :=
  lift (Dev.fetched (opcOf (.movi u b w)) u b w (execMoviD u b w)) s

/-- MOV (R177). Thread instruction: register move. -/
def execMov (u b : Nat) (w : TWord) (s : State) : Host.Outcome State Fault Refusal :=
  lift (Dev.fetched (opcOf (.mov u b w)) u b w (execMovD u b w)) s

/-- MOVU (R177). Thread instruction: low half of a U register to every lane. -/
def execMovu (u b : Nat) (w : TWord) (s : State) : Host.Outcome State Fault Refusal :=
  lift (Dev.fetched (opcOf (.movu u b w)) u b w (execMovuD u b w)) s

/-- MOVUH (R177). Thread instruction: high half of a U register to every lane. -/
def execMovuh (u b : Nat) (w : TWord) (s : State) : Host.Outcome State Fault Refusal :=
  lift (Dev.fetched (opcOf (.movuh u b w)) u b w (execMovuhD u b w)) s

/-- FSETP (R177). Thread instruction: float comparison into a predicate. -/
def execFsetp (u b : Nat) (w : TWord) (s : State) : Host.Outcome State Fault Refusal :=
  lift (Dev.fetched (opcOf (.fsetp u b w)) u b w (execFsetpD u b w)) s

/-- ISETP (R177). Thread instruction: signed comparison into a predicate. -/
def execIsetp (u b : Nat) (w : TWord) (s : State) : Host.Outcome State Fault Refusal :=
  lift (Dev.fetched (opcOf (.isetp u b w)) u b w (execIsetpD u b w)) s

/-- USETP (R177). Thread instruction: unsigned comparison into a predicate. -/
def execUsetp (u b : Nat) (w : TWord) (s : State) : Host.Outcome State Fault Refusal :=
  lift (Dev.fetched (opcOf (.usetp u b w)) u b w (execUsetpD u b w)) s

/-- PLOP (R177). Thread instruction: predicate logic. -/
def execPlop (u b : Nat) (w : TWord) (s : State) : Host.Outcome State Fault Refusal :=
  lift (Dev.fetched (opcOf (.plop u b w)) u b w (execPlopD u b w)) s

/-- CVT (R181). Thread instruction: format conversion, optionally block-scaled and contributing to a statistics slot. -/
def execCvt (u b : Nat) (w : TWord) (s : State) : Host.Outcome State Fault Refusal :=
  lift (Dev.fetched (opcOf (.cvt u b w)) u b w (execCvtD u b w)) s

/-- OFFS (R182). Thread instruction: packs block offsets into lane 0. -/
def execOffs (u b : Nat) (w : TWord) (s : State) : Host.Outcome State Fault Refusal :=
  lift (Dev.fetched (opcOf (.offs u b w)) u b w (execOffsD u b w)) s

/-- SHFL (R183). Thread instruction: lane shuffle by index. -/
def execShfl (u b : Nat) (w : TWord) (s : State) : Host.Outcome State Fault Refusal :=
  lift (Dev.fetched (opcOf (.shfl u b w)) u b w (execShflD u b w)) s

/-- SHFLX (R183). Thread instruction: lane shuffle by XOR. -/
def execShflx (u b : Nat) (w : TWord) (s : State) : Host.Outcome State Fault Refusal :=
  lift (Dev.fetched (opcOf (.shflx u b w)) u b w (execShflxD u b w)) s

/-- RED (R183). Thread instruction: fixed-tree reduction over active lanes into a U register. -/
def execRed (u b : Nat) (w : TWord) (s : State) : Host.Outcome State Fault Refusal :=
  lift (Dev.fetched (opcOf (.red u b w)) u b w (execRedD u b w)) s

/-- SCAN (R183). Thread instruction: inclusive prefix over lanes. -/
def execScan (u b : Nat) (w : TWord) (s : State) : Host.Outcome State Fault Refusal :=
  lift (Dev.fetched (opcOf (.scan u b w)) u b w (execScanD u b w)) s

/-- VOTE (R183). Thread instruction: mask of active lanes with a true predicate. -/
def execVote (u b : Nat) (w : TWord) (s : State) : Host.Outcome State Fault Refusal :=
  lift (Dev.fetched (opcOf (.vote u b w)) u b w (execVoteD u b w)) s

/-- RDLANE (R183). Thread instruction: reads one lane's value into a U register. -/
def execRdlane (u b : Nat) (w : TWord) (s : State) : Host.Outcome State Fault Refusal :=
  lift (Dev.fetched (opcOf (.rdlane u b w)) u b w (execRdlaneD u b w)) s

/-- UADD (R180). Uniform instruction: 64-bit add. -/
def execUadd (u b : Nat) (w : TWord) (s : State) : Host.Outcome State Fault Refusal :=
  lift (Dev.fetched (opcOf (.uadd u b w)) u b w (execUaddD u b w)) s

/-- USUB (R180). Uniform instruction: 64-bit subtract. -/
def execUsub (u b : Nat) (w : TWord) (s : State) : Host.Outcome State Fault Refusal :=
  lift (Dev.fetched (opcOf (.usub u b w)) u b w (execUsubD u b w)) s

/-- UMUL (R180). Uniform instruction: 64-bit multiply. -/
def execUmul (u b : Nat) (w : TWord) (s : State) : Host.Outcome State Fault Refusal :=
  lift (Dev.fetched (opcOf (.umul u b w)) u b w (execUmulD u b w)) s

/-- UAND (R180). Uniform instruction: 64-bit and. -/
def execUand (u b : Nat) (w : TWord) (s : State) : Host.Outcome State Fault Refusal :=
  lift (Dev.fetched (opcOf (.uand u b w)) u b w (execUandD u b w)) s

/-- UOR (R180). Uniform instruction: 64-bit or. -/
def execUor (u b : Nat) (w : TWord) (s : State) : Host.Outcome State Fault Refusal :=
  lift (Dev.fetched (opcOf (.uor u b w)) u b w (execUorD u b w)) s

/-- USHL (R180). Uniform instruction: 64-bit shift left. -/
def execUshl (u b : Nat) (w : TWord) (s : State) : Host.Outcome State Fault Refusal :=
  lift (Dev.fetched (opcOf (.ushl u b w)) u b w (execUshlD u b w)) s

/-- USHR (R180). Uniform instruction: 64-bit shift right. -/
def execUshr (u b : Nat) (w : TWord) (s : State) : Host.Outcome State Fault Refusal :=
  lift (Dev.fetched (opcOf (.ushr u b w)) u b w (execUshrD u b w)) s

/-- UMOVI (R177). Uniform instruction: sign-extended immediate. -/
def execUmovi (u b : Nat) (w : TWord) (s : State) : Host.Outcome State Fault Refusal :=
  lift (Dev.fetched (opcOf (.umovi u b w)) u b w (execUmoviD u b w)) s

/-- UMOVHI (R177). Uniform instruction: immediate into the high half. -/
def execUmovhi (u b : Nat) (w : TWord) (s : State) : Host.Outcome State Fault Refusal :=
  lift (Dev.fetched (opcOf (.umovhi u b w)) u b w (execUmovhiD u b w)) s

/-- UADDI (R177). Uniform instruction: add a sign-extended immediate. -/
def execUaddi (u b : Nat) (w : TWord) (s : State) : Host.Outcome State Fault Refusal :=
  lift (Dev.fetched (opcOf (.uaddi u b w)) u b w (execUaddiD u b w)) s

/-- UCMP (R177). Uniform instruction: unsigned comparison into a predicate of every active lane. -/
def execUcmp (u b : Nat) (w : TWord) (s : State) : Host.Outcome State Fault Refusal :=
  lift (Dev.fetched (opcOf (.ucmp u b w)) u b w (execUcmpD u b w)) s

/-- LD (R185). Thread instruction: load from scratch or a job address. -/
def execLd (u b : Nat) (w : TWord) (s : State) : Host.Outcome State Fault Refusal :=
  lift (Dev.fetched (opcOf (.ld u b w)) u b w (execLdD u b w)) s

/-- ST (R185). Thread instruction: store to scratch or a job address. -/
def execSt (u b : Nat) (w : TWord) (s : State) : Host.Outcome State Fault Refusal :=
  lift (Dev.fetched (opcOf (.st u b w)) u b w (execStD u b w)) s

/-- ATOM (R189). Thread instruction: atomic read-modify-write selected by AOP. -/
def execAtom (u b : Nat) (w : TWord) (s : State) : Host.Outcome State Fault Refusal :=
  lift (Dev.fetched (opcOf (.atom u b w)) u b w (execAtomD u b w)) s

/-- PREF (R185). Thread instruction: prefetch lines into the read buffer. -/
def execPref (u b : Nat) (w : TWord) (s : State) : Host.Outcome State Fault Refusal :=
  lift (Dev.fetched (opcOf (.pref u b w)) u b w (execPrefD u b w)) s

/-- FENCE (R191). Thread instruction: release and/or acquire at unit or package scope. -/
def execFence (u b : Nat) (w : TWord) (s : State) : Host.Outcome State Fault Refusal :=
  lift (Dev.fetched (opcOf (.fence u b w)) u b w (execFenceD u b w)) s

/-- FENCE_COMPLETE (R191). A bundle waiting in a fence resumes when its release or acquire condition is met. -/
def execFenceComplete (u b : Nat) (s : State) : Host.Outcome State Fault Refusal :=
  lift (execFenceCompleteD u b) s

/-- BAR (R194). Thread instruction: arrive, or arrive and wait, at a group barrier. -/
def execBar (u b : Nat) (w : TWord) (s : State) : Host.Outcome State Fault Refusal :=
  lift (Dev.fetched (opcOf (.bar u b w)) u b w (execBarD u b w)) s

/-- BARRIER_COMPLETE (R67). Every thread has arrived or ended and waiting threads are released within 4 cycles. -/
def execBarrierComplete (u c n : Nat) (s : State) : Host.Outcome State Fault Refusal :=
  lift (execBarrierCompleteD u c n) s

/-- NAP (R177). Thread instruction: the bundle issues nothing for IMM14 cycles. -/
def execNap (u b : Nat) (w : TWord) (s : State) : Host.Outcome State Fault Refusal :=
  lift (Dev.fetched (opcOf (.nap u b w)) u b w (execNapD u b w)) s

/-- NAP_END (R177). The NAP count expires and the bundle becomes ready. -/
def execNapEnd (u b : Nat) (s : State) : Host.Outcome State Fault Refusal :=
  lift (execNapEndD u b) s

/-- TENS (R195). Thread instruction: issues a tensor instruction word to an engine queue, accepted or rejected. -/
def execTens (u b : Nat) (w : TWord) (s : State) : Host.Outcome State Fault Refusal :=
  lift (Dev.fetched (opcOf (.tens u b w)) u b w (execTensD u b w)) s

/-- TWAIT (R196). Thread instruction: waits until at most N tensor instructions to an engine remain incomplete. -/
def execTwait (u b : Nat) (w : TWord) (s : State) : Host.Outcome State Fault Refusal :=
  lift (Dev.fetched (opcOf (.twait u b w)) u b w (execTwaitD u b w)) s

/-- STRM_RUN (R238). STRM with KIND RUN queues a call slip and brings its buffer declarations into force. -/
def execStrmRun (u b : Nat) (w : TWord) (s : State) : Host.Outcome State Fault Refusal :=
  lift (Dev.fetched (opcOf (.strmRun u b w)) u b w (execStrmRunD u b w)) s

/-- STRM_FREE (R244). STRM with KIND FREE returns a FULL buffer to EMPTY. -/
def execStrmFree (u b : Nat) (w : TWord) (s : State) : Host.Outcome State Fault Refusal :=
  lift (Dev.fetched (opcOf (.strmFree u b w)) u b w (execStrmFreeD u b w)) s

/-- SWAIT (R197). Thread instruction: waits until the stream completion count meets a value. -/
def execSwait (u b : Nat) (w : TWord) (s : State) : Host.Outcome State Fault Refusal :=
  lift (Dev.fetched (opcOf (.swait u b w)) u b w (execSwaitD u b w)) s

/-- STATMX (R198). Thread instruction: contributes lane values to a statistics slot. -/
def execStatmx (u b : Nat) (w : TWord) (s : State) : Host.Outcome State Fault Refusal :=
  lift (Dev.fetched (opcOf (.statmx u b w)) u b w (execStatmxD u b w)) s

/-- SEAL (R159). Thread instruction: computes and releases a slot's scale record from the current-step maximum. -/
def execSeal (u b : Nat) (w : TWord) (s : State) : Host.Outcome State Fault Refusal :=
  lift (Dev.fetched (opcOf (.seal u b w)) u b w (execSealD u b w)) s

/-- SREG (R199). Thread instruction: reads an identity, timebase or generator value. -/
def execSreg (u b : Nat) (w : TWord) (s : State) : Host.Outcome State Fault Refusal :=
  lift (Dev.fetched (opcOf (.sreg u b w)) u b w (execSregD u b w)) s

/-- BRA (R173). Thread instruction: conditional branch. -/
def execBra (u b : Nat) (w : TWord) (s : State) : Host.Outcome State Fault Refusal :=
  lift (Dev.fetched (opcOf (.bra u b w)) u b w (execBraD u b w)) s

/-- CALL (R173). Thread instruction: push return address and jump. -/
def execCall (u b : Nat) (w : TWord) (s : State) : Host.Outcome State Fault Refusal :=
  lift (Dev.fetched (opcOf (.call u b w)) u b w (execCallD u b w)) s

/-- RET (R173). Thread instruction: pop return address and jump. -/
def execRet (u b : Nat) (w : TWord) (s : State) : Host.Outcome State Fault Refusal :=
  lift (Dev.fetched (opcOf (.ret u b w)) u b w (execRetD u b w)) s

/-- EXIT (R173). Thread instruction: clears LIVE in active lanes, ending the bundle when none remain. -/
def execExit (u b : Nat) (w : TWord) (s : State) : Host.Outcome State Fault Refusal :=
  lift (Dev.fetched (opcOf (.exit u b w)) u b w (execExitD u b w)) s

end Sys2Proof.Machine
end

