-- ==== Sys2Proof/Machine/CmdTimebase.lean ====
section
/-! DEFINITION. The meanings of the commands of one part of the opcode table: timebase.
Each is its effect on the device, from the family's own file, with what follows from it. -/

namespace Sys2Proof.Machine

/-- SYNC (R34). A PTP Sync (with its Follow_Up) from the selected master is received and the timebase is corrected by
slewing or stepped, possibly changing timebase state. -/
def execSync (at_ port sec frac domain : Nat) (src : DWord) (s : State) : Host.Outcome State Fault Refusal :=
  lift (execSyncD at_ port sec frac domain src) s

/-- ANNOUNCE (R33). A PTP Announce is received and the best master clock algorithm may select a new master or end the
module's grandmaster role. -/
def execAnnounce (at_ port : Nat) (a : Announce) (s : State) : Host.Outcome State Fault Refusal :=
  lift (execAnnounceD at_ port a) s

/-- SYNC_TIMEOUT (R34). The allowed number of sync intervals passes without a Sync, moving ACQUIRING to FREE_RUN or
LOCKED to HOLDOVER. -/
def execSyncTimeout (s : State) : Host.Outcome State Fault Refusal := lift execSyncTimeoutD s

/-- HOLDOVER_LIMIT (R35). The holdover error bound exceeds TB_HOLDOVER_LIMIT and the timebase leaves HOLDOVER. -/
def execHoldoverLimit (s : State) : Host.Outcome State Fault Refusal := lift execHoldoverLimitD s

/-- TB_SET (R63). A write to TB_SET steps the timebase when no timetable is RUNNING and the module is FREE_RUN or
grandmaster, else is DENIED. -/
def execTbSet (r : Req) (v : Nat) (s : State) : Host.Outcome State Fault Refusal :=
  lift (execTbSetD r v) s

/-- PTP_SLAVE_ONLY (R33). A write of PTP_SLAVE_ONLY 1 while grandmaster gives up the role at once and enters HOLDOVER. -/
def execPtpSlaveOnly (r : Req) (v : Nat) (s : State) : Host.Outcome State Fault Refusal :=
  lift (execPtpSlaveOnlyD r v) s

end Sys2Proof.Machine
end

