-- ==== Sys2Proof/Machine/CmdTimetable.lean ====
section
/-! DEFINITION. The meanings of the commands of one part of the opcode table: timetable.
Each is its effect on the device, from the family's own file, with what follows from it. -/

namespace Sys2Proof.Machine

/-- TT_TABLE (R41). A timetable image written to TT_TABLE is checked, loaded or rejected, and the timetable may move to
LOADED and ARMED. -/
def execTtTable (r : Req) (img : List Byte) (s : State) : Host.Outcome State Fault Refusal :=
  lift (execTtTableD r img) s

/-- TT_STAGE (R498). A write of TT_STAGE is checked against the image and may complete the conditions for ARMED. -/
def execTtStage (r : Req) (v : Nat) (s : State) : Host.Outcome State Fault Refusal :=
  lift (execTtStageD r v) s

/-- TT_EPOCH (R498). A write of TT_EPOCH is recorded and may complete the conditions for ARMED. -/
def execTtEpoch (r : Req) (v : Nat) (s : State) : Host.Outcome State Fault Refusal :=
  lift (execTtEpochD r v) s

/-- TT_FIRST_STEP (R498). A write of TT_FIRST_STEP is checked against TT_LAST_STEP and may complete the conditions for
ARMED. -/
def execTtFirstStep (r : Req) (v : Nat) (s : State) : Host.Outcome State Fault Refusal :=
  lift (execTtFirstStepD r v) s

/-- TT_ANCHOR_JOB (R498). A write of TT_ANCHOR_JOB is recorded and may complete the conditions for ARMED. -/
def execTtAnchorJob (r : Req) (v : Nat) (s : State) : Host.Outcome State Fault Refusal :=
  lift (execTtAnchorJobD r v) s

/-- TT_LAST_STEP (R39). A write of TT_LAST_STEP is checked against TT_FIRST_STEP, answered BAD_TYPE if below it, and may
complete the conditions for ARMED. -/
def execTtLastStep (r : Req) (v : Nat) (s : State) : Host.Outcome State Fault Refusal :=
  lift (execTtLastStepD r v) s

/-- TT_STOP (R499). TT_CONTROL stop moves a RUNNING timetable to HELD, else is DENIED. -/
def execTtStop (r : Req) (s : State) : Host.Outcome State Fault Refusal :=
  lift (execTtStopD r) s

/-- TT_RESUME (R499). TT_CONTROL resume moves a HELD timetable to ARMED to rejoin, or keeps the resume pending until
LOCKED. -/
def execTtResume (r : Req) (s : State) : Host.Outcome State Fault Refusal :=
  lift (execTtResumeD r) s

/-- TT_UNLOAD (R499). TT_CONTROL unload returns a LOADED, ARMED or HELD timetable to UNLOADED. -/
def execTtUnload (r : Req) (s : State) : Host.Outcome State Fault Refusal :=
  lift (execTtUnloadD r) s

/-- TT_RUN_START (R58). With TTSYNC agreement reached and the timebase LOCKED, the time reaches S(n0) and the timetable
enters RUNNING. -/
def execTtRunStart (s : State) : Host.Outcome State Fault Refusal := lift execTtRunStartD s

/-- TT_REJOIN (R59). A rejoining module enters RUNNING at A(0) of the chosen step, or returns to HELD when that step
lies beyond TT_LAST_STEP. -/
def execTtRejoin (s : State) : Host.Outcome State Fault Refusal := lift execTtRejoinD s

/-- SLOT_START (R45). A slot starts at A(j): lag and slack reduction are computed, pace notices applied, firm commands
released at their offsets. -/
def execSlotStart (s : State) : Host.Outcome State Fault Refusal := lift execSlotStartD s

/-- FIRM_END (R61). The time reaches A(j)+F(j) and the slot moves to SLACK or OVERRUN. -/
def execFirmEnd (s : State) : Host.Outcome State Fault Refusal := lift execFirmEndD s

/-- SLOT_PLANNED_END (R61). The planned end of a slot is reached; the slot closes or goes LATE and filler is preempted. -/
def execSlotPlannedEnd (s : State) : Host.Outcome State Fault Refusal := lift execSlotPlannedEndD s

/-- PHASE_CHANGE (R389). A power-phase change instant is reached and each die moves toward the new phase's preferred
operating point. -/
def execPhaseChange (at_ : Nat) (s : State) : Host.Outcome State Fault Refusal :=
  lift (execPhaseChangeD at_) s

/-- PHASE_LEAD (R389). PWR_PHASE_LEAD before a change to a faster entry, the voltage starts rising. -/
def execPhaseLead (at_ : Nat) (s : State) : Host.Outcome State Fault Refusal :=
  lift (execPhaseLeadD at_) s

end Sys2Proof.Machine
end

