-- ==== Sys2Proof/Machine/Dispatch.lean ====
section
/-! DEFINITION. What each command does to everything but the queue: one arm per row of the opcode table. -/

namespace Sys2Proof.Machine

def exec (i : Instr) (s : State) : Host.Outcome State Fault Refusal :=
  match i with
  | .sync at_ port sec frac domain src => Sys2Proof.Machine.execSync at_ port sec frac domain src s
  | .announce at_ port a => Sys2Proof.Machine.execAnnounce at_ port a s
  | .syncTimeout => Sys2Proof.Machine.execSyncTimeout s
  | .holdoverLimit => Sys2Proof.Machine.execHoldoverLimit s
  | .tbSet r v => Sys2Proof.Machine.execTbSet r v s
  | .ptpSlaveOnly r v => Sys2Proof.Machine.execPtpSlaveOnly r v s
  | .ttTable r img => Sys2Proof.Machine.execTtTable r img s
  | .ttStage r v => Sys2Proof.Machine.execTtStage r v s
  | .ttEpoch r v => Sys2Proof.Machine.execTtEpoch r v s
  | .ttFirstStep r v => Sys2Proof.Machine.execTtFirstStep r v s
  | .ttAnchorJob r v => Sys2Proof.Machine.execTtAnchorJob r v s
  | .ttLastStep r v => Sys2Proof.Machine.execTtLastStep r v s
  | .ttStop r => Sys2Proof.Machine.execTtStop r s
  | .ttResume r => Sys2Proof.Machine.execTtResume r s
  | .ttUnload r => Sys2Proof.Machine.execTtUnload r s
  | .ttRunStart => Sys2Proof.Machine.execTtRunStart s
  | .ttRejoin => Sys2Proof.Machine.execTtRejoin s
  | .slotStart => Sys2Proof.Machine.execSlotStart s
  | .firmEnd => Sys2Proof.Machine.execFirmEnd s
  | .slotPlannedEnd => Sys2Proof.Machine.execSlotPlannedEnd s
  | .phaseChange at_ => Sys2Proof.Machine.execPhaseChange at_ s
  | .phaseLead at_ => Sys2Proof.Machine.execPhaseLead at_ s
  | .jobStart r j => Sys2Proof.Machine.execJobStart r j s
  | .jobStop r j => Sys2Proof.Machine.execJobStop r j s
  | .jobTeardown r j => Sys2Proof.Machine.execJobTeardown r j s
  | .teardownComplete at_ j => Sys2Proof.Machine.execTeardownComplete at_ j s
  | .secJobCreate r slot job => Sys2Proof.Machine.execSecJobCreate r slot job s
  | .ringConfig r j q rec => Sys2Proof.Machine.execRingConfig r j q rec s
  | .ringRestart r j q => Sys2Proof.Machine.execRingRestart r j q s
  | .ringResume r j q => Sys2Proof.Machine.execRingResume r j q s
  | .ringReset r j q => Sys2Proof.Machine.execRingReset r j q s
  | .ringDoorbell at_ port j q v => Sys2Proof.Machine.execRingDoorbell at_ port j q v s
  | .ringPush at_ port j q off tlps data => Sys2Proof.Machine.execRingPush at_ port j q off tlps data s
  | .descriptorFetch at_ j q => Sys2Proof.Machine.execDescriptorFetch at_ j q s
  | .phaseRefetch j q => Sys2Proof.Machine.execPhaseRefetch j q s
  | .waitTimeout c => Sys2Proof.Machine.execWaitTimeout c s
  | .commandStartOnUnit at_ c u => Sys2Proof.Machine.execCommandStartOnUnit at_ c u s
  | .parkedResume at_ c u => Sys2Proof.Machine.execParkedResume at_ c u s
  | .commandRetire at_ c => Sys2Proof.Machine.execCommandRetire at_ c s
  | .launch at_ c => Sys2Proof.Machine.execLaunch at_ c s
  | .waitPosition at_ c => Sys2Proof.Machine.execWaitPosition at_ c s
  | .stamp at_ c => Sys2Proof.Machine.execStamp at_ c s
  | .join at_ c => Sys2Proof.Machine.execJoin at_ c s
  | .markWrite at_ c => Sys2Proof.Machine.execMarkWrite at_ c s
  | .jobDrain at_ c => Sys2Proof.Machine.execJobDrain at_ c s
  | .interrupt at_ c => Sys2Proof.Machine.execInterrupt at_ c s
  | .traceMarker at_ c => Sys2Proof.Machine.execTraceMarker at_ c s
  | .sampleNow at_ c => Sys2Proof.Machine.execSampleNow at_ c s
  | .copy at_ c => Sys2Proof.Machine.execCopy at_ c s
  | .slip at_ c => Sys2Proof.Machine.execSlip at_ c s
  | .send at_ c => Sys2Proof.Machine.execSend at_ c s
  | .contribute at_ c => Sys2Proof.Machine.execContribute at_ c s
  | .reduce at_ c => Sys2Proof.Machine.execReduce at_ c s
  | .reduceClose c => Sys2Proof.Machine.execReduceClose c s
  | .sweep at_ c => Sys2Proof.Machine.execSweep at_ c s
  | .gather at_ c => Sys2Proof.Machine.execGather at_ c s
  | .exportRec at_ c => Sys2Proof.Machine.execExportRec at_ c s
  | .importRec at_ c sigOk => Sys2Proof.Machine.execImportRec at_ c sigOk s
  | .fadd u b w => Sys2Proof.Machine.execFadd u b w s
  | .fmul u b w => Sys2Proof.Machine.execFmul u b w s
  | .ffma u b w => Sys2Proof.Machine.execFfma u b w s
  | .fmin u b w => Sys2Proof.Machine.execFmin u b w s
  | .fmax u b w => Sys2Proof.Machine.execFmax u b w s
  | .sel u b w => Sys2Proof.Machine.execSel u b w s
  | .frcp u b w => Sys2Proof.Machine.execFrcp u b w s
  | .frsq u b w => Sys2Proof.Machine.execFrsq u b w s
  | .fsqrt u b w => Sys2Proof.Machine.execFsqrt u b w s
  | .fexp2 u b w => Sys2Proof.Machine.execFexp2 u b w s
  | .flog2 u b w => Sys2Proof.Machine.execFlog2 u b w s
  | .ftanh u b w => Sys2Proof.Machine.execFtanh u b w s
  | .faddi u b w => Sys2Proof.Machine.execFaddi u b w s
  | .fmuli u b w => Sys2Proof.Machine.execFmuli u b w s
  | .iadd u b w => Sys2Proof.Machine.execIadd u b w s
  | .isub u b w => Sys2Proof.Machine.execIsub u b w s
  | .imul u b w => Sys2Proof.Machine.execImul u b w s
  | .imad u b w => Sys2Proof.Machine.execImad u b w s
  | .imin u b w => Sys2Proof.Machine.execImin u b w s
  | .imax u b w => Sys2Proof.Machine.execImax u b w s
  | .umin u b w => Sys2Proof.Machine.execUmin u b w s
  | .umax u b w => Sys2Proof.Machine.execUmax u b w s
  | .and u b w => Sys2Proof.Machine.execAnd u b w s
  | .or u b w => Sys2Proof.Machine.execOr u b w s
  | .xor u b w => Sys2Proof.Machine.execXor u b w s
  | .shl u b w => Sys2Proof.Machine.execShl u b w s
  | .shr u b w => Sys2Proof.Machine.execShr u b w s
  | .sar u b w => Sys2Proof.Machine.execSar u b w s
  | .popc u b w => Sys2Proof.Machine.execPopc u b w s
  | .clz u b w => Sys2Proof.Machine.execClz u b w s
  | .iaddi u b w => Sys2Proof.Machine.execIaddi u b w s
  | .andi u b w => Sys2Proof.Machine.execAndi u b w s
  | .ori u b w => Sys2Proof.Machine.execOri u b w s
  | .shli u b w => Sys2Proof.Machine.execShli u b w s
  | .shri u b w => Sys2Proof.Machine.execShri u b w s
  | .movi u b w => Sys2Proof.Machine.execMovi u b w s
  | .mov u b w => Sys2Proof.Machine.execMov u b w s
  | .movu u b w => Sys2Proof.Machine.execMovu u b w s
  | .movuh u b w => Sys2Proof.Machine.execMovuh u b w s
  | .fsetp u b w => Sys2Proof.Machine.execFsetp u b w s
  | .isetp u b w => Sys2Proof.Machine.execIsetp u b w s
  | .usetp u b w => Sys2Proof.Machine.execUsetp u b w s
  | .plop u b w => Sys2Proof.Machine.execPlop u b w s
  | .cvt u b w => Sys2Proof.Machine.execCvt u b w s
  | .offs u b w => Sys2Proof.Machine.execOffs u b w s
  | .shfl u b w => Sys2Proof.Machine.execShfl u b w s
  | .shflx u b w => Sys2Proof.Machine.execShflx u b w s
  | .red u b w => Sys2Proof.Machine.execRed u b w s
  | .scan u b w => Sys2Proof.Machine.execScan u b w s
  | .vote u b w => Sys2Proof.Machine.execVote u b w s
  | .rdlane u b w => Sys2Proof.Machine.execRdlane u b w s
  | .uadd u b w => Sys2Proof.Machine.execUadd u b w s
  | .usub u b w => Sys2Proof.Machine.execUsub u b w s
  | .umul u b w => Sys2Proof.Machine.execUmul u b w s
  | .uand u b w => Sys2Proof.Machine.execUand u b w s
  | .uor u b w => Sys2Proof.Machine.execUor u b w s
  | .ushl u b w => Sys2Proof.Machine.execUshl u b w s
  | .ushr u b w => Sys2Proof.Machine.execUshr u b w s
  | .umovi u b w => Sys2Proof.Machine.execUmovi u b w s
  | .umovhi u b w => Sys2Proof.Machine.execUmovhi u b w s
  | .uaddi u b w => Sys2Proof.Machine.execUaddi u b w s
  | .ucmp u b w => Sys2Proof.Machine.execUcmp u b w s
  | .ld u b w => Sys2Proof.Machine.execLd u b w s
  | .st u b w => Sys2Proof.Machine.execSt u b w s
  | .atom u b w => Sys2Proof.Machine.execAtom u b w s
  | .pref u b w => Sys2Proof.Machine.execPref u b w s
  | .fence u b w => Sys2Proof.Machine.execFence u b w s
  | .fenceComplete u b => Sys2Proof.Machine.execFenceComplete u b s
  | .bar u b w => Sys2Proof.Machine.execBar u b w s
  | .barrierComplete u c n => Sys2Proof.Machine.execBarrierComplete u c n s
  | .nap u b w => Sys2Proof.Machine.execNap u b w s
  | .napEnd u b => Sys2Proof.Machine.execNapEnd u b s
  | .tens u b w => Sys2Proof.Machine.execTens u b w s
  | .twait u b w => Sys2Proof.Machine.execTwait u b w s
  | .strmRun u b w => Sys2Proof.Machine.execStrmRun u b w s
  | .strmFree u b w => Sys2Proof.Machine.execStrmFree u b w s
  | .swait u b w => Sys2Proof.Machine.execSwait u b w s
  | .statmx u b w => Sys2Proof.Machine.execStatmx u b w s
  | .seal u b w => Sys2Proof.Machine.execSeal u b w s
  | .sreg u b w => Sys2Proof.Machine.execSreg u b w s
  | .bra u b w => Sys2Proof.Machine.execBra u b w s
  | .call u b w => Sys2Proof.Machine.execCall u b w s
  | .ret u b w => Sys2Proof.Machine.execRet u b w s
  | .exit u b w => Sys2Proof.Machine.execExit u b w s
  | .mma at_ u e => Sys2Proof.Machine.execMma at_ u e s
  | .load at_ u e => Sys2Proof.Machine.execLoad at_ u e s
  | .store at_ u e => Sys2Proof.Machine.execStore at_ u e s
  | .release at_ u e => Sys2Proof.Machine.execRelease at_ u e s
  | .debugRead at_ u e => Sys2Proof.Machine.execDebugRead at_ u e s
  | .tensorComplete at_ u e => Sys2Proof.Machine.execTensorComplete at_ u e s
  | .slipContextStart u => Sys2Proof.Machine.execSlipContextStart u s
  | .fetch at_ u x w => Sys2Proof.Machine.execFetch at_ u x w s
  | .put at_ u x w => Sys2Proof.Machine.execPut at_ u x w s
  | .mova at_ u x w => Sys2Proof.Machine.execMova at_ u x w s
  | .addaa at_ u x w => Sys2Proof.Machine.execAddaa at_ u x w s
  | .setc at_ u x w => Sys2Proof.Machine.execSetc at_ u x w s
  | .addc at_ u x w => Sys2Proof.Machine.execAddc at_ u x w s
  | .loop at_ u x w => Sys2Proof.Machine.execLoop at_ u x w s
  | .open_ at_ u x w => Sys2Proof.Machine.execOpen at_ u x w s
  | .close at_ u x w => Sys2Proof.Machine.execClose at_ u x w s
  | .waitmk at_ u x w => Sys2Proof.Machine.execWaitmk at_ u x w s
  | .waitmkTimeout u x => Sys2Proof.Machine.execWaitmkTimeout u x s
  | .sig at_ u x w => Sys2Proof.Machine.execSig at_ u x w s
  | .fmt at_ u x w => Sys2Proof.Machine.execFmt at_ u x w s
  | .end_ at_ u x w => Sys2Proof.Machine.execEnd at_ u x w s
  | .roll j => Sys2Proof.Machine.execRoll j s
  | .numStatRoll r j v => Sys2Proof.Machine.execNumStatRoll r j v s
  | .nmuTableReload r j v => Sys2Proof.Machine.execNmuTableReload r j v s
  | .nmuPlaceThresh r j v => Sys2Proof.Machine.execNmuPlaceThresh r j v s
  | .expSeal r j v => Sys2Proof.Machine.execExpSeal r j v s
  | .voteClose j step => Sys2Proof.Machine.execVoteClose j step s
  | .ballot p => Sys2Proof.Machine.execBallot p s
  | .voteResult p => Sys2Proof.Machine.execVoteResult p s
  | .voteNoResult j step => Sys2Proof.Machine.execVoteNoResult j step s
  | .pace p => Sys2Proof.Machine.execPace p s
  | .contrib p => Sys2Proof.Machine.execContrib p s
  | .frameReceive f => Sys2Proof.Machine.execFrameReceive f s
  | .arpRequest at_ port ip => Sys2Proof.Machine.execArpRequest at_ port ip s
  | .txUnderrun at_ port n => Sys2Proof.Machine.execTxUnderrun at_ port n s
  | .portLinkChange at_ port link => Sys2Proof.Machine.execPortLinkChange at_ port link s
  | .write p => Sys2Proof.Machine.execWrite p s
  | .sealWrite p => Sys2Proof.Machine.execSealWrite p s
  | .sealLand at_ conn => Sys2Proof.Machine.execSealLand at_ conn s
  | .taintHoldExpiry conn => Sys2Proof.Machine.execTaintHoldExpiry conn s
  | .readReq p => Sys2Proof.Machine.execReadReq p s
  | .versionHoldRetry k => Sys2Proof.Machine.execVersionHoldRetry k s
  | .readResp p => Sys2Proof.Machine.execReadResp p s
  | .readTimeout k => Sys2Proof.Machine.execReadTimeout k s
  | .ack p => Sys2Proof.Machine.execAck p s
  | .nack p => Sys2Proof.Machine.execNack p s
  | .mgmt p => Sys2Proof.Machine.execMgmt p s
  | .ttsync p => Sys2Proof.Machine.execTtsync p s
  | .ttsyncSend => Sys2Proof.Machine.execTtsyncSend s
  | .packetTransmit at_ conn => Sys2Proof.Machine.execPacketTransmit at_ conn s
  | .ackDelay conn => Sys2Proof.Machine.execAckDelay conn s
  | .rtoExpiry conn seq => Sys2Proof.Machine.execRtoExpiry conn seq s
  | .contextFetchComplete at_ conn => Sys2Proof.Machine.execContextFetchComplete at_ conn s
  | .holdTimeout k => Sys2Proof.Machine.execHoldTimeout k s
  | .connectionDrainEnd at_ conn => Sys2Proof.Machine.execConnectionDrainEnd at_ conn s
  | .netConnOpen r j rec => Sys2Proof.Machine.execNetConnOpen r j rec s
  | .netConnClose r j v => Sys2Proof.Machine.execNetConnClose r j v s
  | .netConnQuery r j v => Sys2Proof.Machine.execNetConnQuery r j v s
  | .netRegionReg r j rec => Sys2Proof.Machine.execNetRegionReg r j rec s
  | .netRegionRevoke r j v => Sys2Proof.Machine.execNetRegionRevoke r j v s
  | .netRegionQuery r j v => Sys2Proof.Machine.execNetRegionQuery r j v s
  | .revokeSettle k => Sys2Proof.Machine.execRevokeSettle k s
  | .revokeComplete at_ k => Sys2Proof.Machine.execRevokeComplete at_ k s
  | .netPortMode r v => Sys2Proof.Machine.execNetPortMode r v s
  | .hostfrRxTail at_ q v => Sys2Proof.Machine.execHostfrRxTail at_ q v s
  | .hostfrTxTail at_ q v => Sys2Proof.Machine.execHostfrTxTail at_ q v s
  | .memAlloc r j rec => Sys2Proof.Machine.execMemAlloc r j rec s
  | .memFree r j v => Sys2Proof.Machine.execMemFree r j v s
  | .memBringIn r j v => Sys2Proof.Machine.execMemBringIn r j v s
  | .memRetire r v => Sys2Proof.Machine.execMemRetire r v s
  | .memScrubFull r v => Sys2Proof.Machine.execMemScrubFull r v s
  | .memRetrain r v => Sys2Proof.Machine.execMemRetrain r v s
  | .memIntegrityEn r v => Sys2Proof.Machine.execMemIntegrityEn r v s
  | .quotaWrite r j kind v => Sys2Proof.Machine.execQuotaWrite r j kind v s
  | .patrolScrub at_ d hits => Sys2Proof.Machine.execPatrolScrub at_ d hits s
  | .longOperationEnd hits => Sys2Proof.Machine.execLongOperationEnd hits s
  | .capSample p => Sys2Proof.Machine.execCapSample p s
  | .capRelax p => Sys2Proof.Machine.execCapRelax p s
  | .calibration at_ ratios => Sys2Proof.Machine.execCalibration at_ ratios s
  | .entryChange die => Sys2Proof.Machine.execEntryChange die s
  | .thermalSample at_ temps => Sys2Proof.Machine.execThermalSample at_ temps s
  | .inletSample at_ temp => Sys2Proof.Machine.execInletSample at_ temp s
  | .droop at_ det mv => Sys2Proof.Machine.execDroop at_ det mv s
  | .droopEnd at_ det => Sys2Proof.Machine.execDroopEnd at_ det s
  | .cuffWave => Sys2Proof.Machine.execCuffWave s
  | .cuffRampStep u e => Sys2Proof.Machine.execCuffRampStep u e s
  | .cuffDisengage => Sys2Proof.Machine.execCuffDisengage s
  | .secQuoteReq r v => Sys2Proof.Machine.execSecQuoteReq r v s
  | .secSessionOpen r v => Sys2Proof.Machine.execSecSessionOpen r v s
  | .secKeyDeliver r v => Sys2Proof.Machine.execSecKeyDeliver r v s
  | .secKeyProve r tenant mac => Sys2Proof.Machine.execSecKeyProve r tenant mac s
  | .secSlotErase r v => Sys2Proof.Machine.execSecSlotErase r v s
  | .secOwnerTransfer r v sigOk => Sys2Proof.Machine.execSecOwnerTransfer r v sigOk s
  | .secFwInstall r images => Sys2Proof.Machine.execSecFwInstall r images s
  | .secFwActivate r v => Sys2Proof.Machine.execSecFwActivate r v s
  | .secFwCommit r v => Sys2Proof.Machine.execSecFwCommit r v s
  | .secIdeKeys r port v => Sys2Proof.Machine.execSecIdeKeys r port v s
  | .secIdeFail at_ port stream => Sys2Proof.Machine.execSecIdeFail at_ port stream s
  | .secEntropyFail at_ => Sys2Proof.Machine.execSecEntropyFail at_ s
  | .catOpen r => Sys2Proof.Machine.execCatOpen r s
  | .catClose r => Sys2Proof.Machine.execCatClose r s
  | .catNop r => Sys2Proof.Machine.execCatNop r s
  | .catRead r index field => Sys2Proof.Machine.execCatRead r index field s
  | .catWrite r index field v => Sys2Proof.Machine.execCatWrite r index field v s
  | .rwIdleBarWrite at_ port j q => Sys2Proof.Machine.execRwIdleBarWrite at_ port j q s
  | .sessLevel r v => Sys2Proof.Machine.execSessLevel r v s
  | .sessChallenge r => Sys2Proof.Machine.execSessChallenge r s
  | .sessOwnerProof r v sigOk => Sys2Proof.Machine.execSessOwnerProof r v sigOk s
  | .sessIdleTimeout r v => Sys2Proof.Machine.execSessIdleTimeout r v s
  | .sessionIdleExpiry sess => Sys2Proof.Machine.execSessionIdleExpiry sess s
  | .mboxCtrl at_ port m v bulkFails => Sys2Proof.Machine.execMboxCtrl at_ port m v bulkFails s
  | .apertureAccess at_ port j off op => Sys2Proof.Machine.execApertureAccess at_ port j off op s
  | .mgmtDatagram f => Sys2Proof.Machine.execMgmtDatagram f s
  | .mgmtCollision at_ late => Sys2Proof.Machine.execMgmtCollision at_ late s
  | .backoffExpiry => Sys2Proof.Machine.execBackoffExpiry s
  | .sample j => Sys2Proof.Machine.execSample j s
  | .alertCause r v => Sys2Proof.Machine.execAlertCause r v s
  | .powerOn pos => Sys2Proof.Machine.execPowerOn pos s
  | .inputLoss at_ => Sys2Proof.Machine.execInputLoss at_ s
  | .modRstNAssert at_ => Sys2Proof.Machine.execModRstNAssert at_ s
  | .modRstNRelease at_ => Sys2Proof.Machine.execModRstNRelease at_ s
  | .devReset r v => Sys2Proof.Machine.execDevReset r v s
  | .railInRegulation at_ => Sys2Proof.Machine.execRailInRegulation at_ s
  | .gauntletStage1 at_ bank0 bank1 => Sys2Proof.Machine.execGauntletStage1 at_ bank0 bank1 s
  | .gauntletStage2 at_ entropyOk keys => Sys2Proof.Machine.execGauntletStage2 at_ entropyOk keys s
  | .dieReady at_ => Sys2Proof.Machine.execDieReady at_ s
  | .dieReadyTimeout channel => Sys2Proof.Machine.execDieReadyTimeout channel s
  | .recoveryReset => Sys2Proof.Machine.execRecoveryReset s
  | .perstAssert at_ port => Sys2Proof.Machine.execPerstAssert at_ port s
  | .perstRelease at_ port => Sys2Proof.Machine.execPerstRelease at_ port s
  | .hostLinkDown at_ port => Sys2Proof.Machine.execHostLinkDown at_ port s
  | .hostReadTimeout port => Sys2Proof.Machine.execHostReadTimeout port s
  | .commandRelease c => Sys2Proof.Machine.execCommandRelease c s
  | .memoryAccessComplete at_ a => Sys2Proof.Machine.execMemoryAccessComplete at_ a s
  | .poweredHours h => Sys2Proof.Machine.execPoweredHours h s
  | .entropyRecovery at_ => Sys2Proof.Machine.execEntropyRecovery at_ s
  | .tripCooldown at_ => Sys2Proof.Machine.execTripCooldown at_ s
  | .catalogueReset => Sys2Proof.Machine.execCatalogueReset s
  | .syncInterval at_ => Sys2Proof.Machine.execSyncInterval at_ s
  | .delayRequestResponse at_ m => Sys2Proof.Machine.execDelayRequestResponse at_ m s
  | .hostLinkUp at_ port rate width => Sys2Proof.Machine.execHostLinkUp at_ port rate width s
  | .configurationRequest at_ port => Sys2Proof.Machine.execConfigurationRequest at_ port s
  | .hostErrCause at_ port off data => Sys2Proof.Machine.execHostErrCause at_ port off data s
  | .mboxStatus at_ port m off data => Sys2Proof.Machine.execMboxStatus at_ port m off data s

end Sys2Proof.Machine
end

