-- ==== Sys2Proof/Safety.lean ====
section
/-! DEFINITION. What counts as a safe run, and the terms in which statements speak: a command that acts, a thread
instruction that issues and what it leaves alone, a command that is dispatched. -/

namespace Sys2Proof.Machine

/-! ### Runs -/

/-- ALERT_N and the sideband registers show the state (R475, R490). -/
def State.pinsAgree (s : State) : Bool := s.dev.pins = s.dev.pinsNow.pins

/-- Memory is in its canonical form: rising addresses, no zero listed. -/
def State.memOk (s : State) : Bool := Memory.wf s.dev.mem

/-- A step that answers a next state, and no fault and no refusal. -/
def State.goesOn (s : State) : Bool :=
  match step s with
  | .next _ => true
  | _ => false

/-- The state after a command whose own effect leads to device `d`: what follows from it is done, and the queue is
as it was. -/
def State.after (s : State) (d : Dev) : State := { s with dev := d.settle }

/-- Command `i` completes at `s`, and its own effect leads to a device of which `P` holds. -/
def Acts (i : Instr) (s : State) (P : Dev → Prop) : Prop := ∃ d, exec i s = .next (s.after d) ∧ P d

/-! ### Thread instructions -/

/-- Bundle `x` of command `c` stands in slot `b` of unit `u` and may issue (R172), and its next instruction's eight
bytes are mapped and not poisoned (R169, R200). -/
def Issues (d : Dev) (u b : Nat) (x : Bundle) (c : Cmd) : Prop :=
  d.bundle? u b = some x ∧ d.cmd? x.cmd = some c ∧ x.wait = .none ∧ (c.st = .running ∨ c.st = .parked)
    ∧ (d.xlate c.job x.pc false).isSome = true ∧ d.jbad c.job x.pc 8 = []

/-- No bit of [51:0] outside the fields of `used` is set (R175). -/
def Only (w : TWord) (used : Nat) : Prop := setBits 52 (w.toNat - Nat.land w.toNat used) = []

/-- What the instruction with low bits `w` works on when bundle `x` of `c` issues it. -/
def ctx (u b : Nat) (x : Bundle) (c : Cmd) (w : TWord) : TCtx :=
  { u := u, b := b, k := x.cmd, cmd := c, x := { x with pc := (x.pc + 8) % 2 ^ 52 }, n := w.toNat,
    act := x.active w.toNat }

/-- What bundle `x` of command `c` fetches on unit `u` is the instruction of opcode `op` with low bits `w` (R174, R175). -/
def Fetches (d : Dev) (u : Nat) (x : Bundle) (c : Cmd) (op : Nat) (w : TWord) : Prop :=
  d.fetchWord u c.job x.pc = op * 2 ^ 56 + w.toNat

/-- The device once bundle `x` of `c` has fetched: its granule is in the unit's instruction cache, and nothing else but the
count of free values has changed (R174). -/
def Dev.onceFetched (d : Dev) (u : Nat) (x : Bundle) (c : Cmd) : Dev := d.fillCode u c.job x.pc

/-- The device once the instruction is counted and the bundle's PC has moved past it. -/
def Dev.issue (d : Dev) (t : TCtx) : Dev :=
  let d := d.bump (Cat.THR_ISSUED t.u)
  let j := d.job t.cmd.job
  (d.setJob t.cmd.job { j with issued := Tbl.set j.issued t.u (Tbl.getD j.issued t.u 0 + 1) }).setBundle t.u t.b t.x

/-- What a thread instruction that works on its own bundle changes, and that it changes nothing else: the bundle is
`y`; counters rise by `adds` beside THR_ISSUED; the job's counts; the free values taken. -/
def ThreadFrame (d d' : Dev) (t : TCtx) (y : Bundle) (adds : Nat → Nat) (invalids draws : Nat) : Prop :=
  d'.bundle? t.u t.b = some y
    ∧ (∀ b, b ≠ t.b → d'.bundle? t.u b = d.bundle? t.u b)
    ∧ d'.unit t.u = { d.unit t.u with bundles := (d'.unit t.u).bundles }
    ∧ (∀ v, v ≠ t.u → d'.unit v = d.unit v)
    ∧ (∀ key, d'.cget key = d.cget key + (if key = Cat.THR_ISSUED t.u then 1 else 0) + adds key)
    ∧ d'.job t.cmd.job =
        { d.job t.cmd.job with
          issued := Tbl.set (d.job t.cmd.job).issued t.u (Tbl.getD (d.job t.cmd.job).issued t.u 0 + 1),
          invalids := (d.job t.cmd.job).invalids + invalids }
    ∧ (∀ k, k ≠ t.cmd.job → d'.job k = d.job k)
    ∧ d'.fresh = d.fresh + draws
    ∧ d' = { d with units := d'.units, cat := d'.cat, jobs := d'.jobs, fresh := d'.fresh }

/-- What a thread instruction's counts of saturations and invalid operations add to a counter (R178). -/
def fpAdds (u sat inv key : Nat) : Nat :=
  (if key = Cat.THR_OVERFLOW_SAT u then sat else 0) + (if key = Cat.THR_OVERFLOW_SAT_TOTAL then sat else 0)
    + (if key = Cat.THR_INVALID u then inv else 0) + (if key = Cat.THR_INVALID_TOTAL then inv else 0)

/-- How many active lanes have a result that satisfies `p`. -/
def laneCount (t : TCtx) (f : Nat → F32) (p : F32 → Bool) : Nat := (t.act.filter fun l => p (f l)).length

/-- A vector instruction's effect (R170, R178): V[D] of each active lane takes its result, every other register keeps
its value, and the lanes that saturated or were invalid are counted, for the unit and in total. -/
def LaneEffect (d d' : Dev) (t : TCtx) (draws : Nat) (f : Nat → F32) : Prop :=
  ∃ y : Bundle, y = { t.x with v := y.v }
    ∧ (∀ l r, l < 64 → r < 64 → y.vreg l r = if l ∈ t.act ∧ r = fD t.n then (f l).bits else t.x.vreg l r)
    ∧ ThreadFrame d d' t y (fpAdds t.u (laneCount t f F32.sat) (laneCount t f F32.invalid)) (laneCount t f F32.invalid)
        draws

/-- A predicate instruction's effect (R168, R170): P[PD] of each active lane takes its result unless PD is 0, and every
other predicate, and every V and U register, keeps its value. -/
def PredEffect (d d' : Dev) (t : TCtx) (f : Nat → Bool) : Prop :=
  ∃ y : Bundle, y = { t.x with p := y.p }
    ∧ (∀ r l, l < 64 → y.pred r l = if l ∈ t.act ∧ r = fPD t.n ∧ r ≠ 0 then f l else t.x.pred r l)
    ∧ ThreadFrame d d' t y (fun _ => 0) 0 0

/-- A uniform result's effect (R168, R171): U[D] takes it unless D is 63, and nothing else changes. -/
def UniEffect (d d' : Dev) (t : TCtx) (v : DWord) : Prop :=
  ∃ y : Bundle, y = { t.x with u := y.u }
    ∧ (∀ r, y.ureg r = if r = fD t.n ∧ r ≠ 63 then v else t.x.ureg r)
    ∧ ThreadFrame d d' t y (fun _ => 0) 0 0

/-! ### Shapes of statements about thread instructions -/

/-- Thread instruction `mk` of a bundle that issues and fetches it, with no bit set outside `used` and no bit that `bad`
names, acts so that `P` relates the device once it is fetched, the device its own effect leads to, and what it worked on. -/
def ThreadOp (mk : Nat → Nat → TWord → Instr) (used : Nat) (bad : Nat → List Nat) (P : Dev → Dev → TCtx → Prop) : Prop :=
  ∀ (s : State) (u b : Nat) (w : TWord) (x : Bundle) (c : Cmd),
    Issues s.dev u b x c → Fetches s.dev u x c (opcOf (mk u b w)) w → Only w used → bad w.toNat = [] →
      Acts (mk u b w) s fun d => P (s.dev.onceFetched u x c) d (ctx u b x c w)

/-- The same of an instruction that waits at issue until `ready` (R172, R203). -/
def ThreadWhen (mk : Nat → Nat → TWord → Instr) (used : Nat) (bad : Nat → List Nat) (ready : Dev → TCtx → Prop)
    (P : Dev → Dev → TCtx → Prop) : Prop :=
  ∀ (s : State) (u b : Nat) (w : TWord) (x : Bundle) (c : Cmd),
    Issues s.dev u b x c → Fetches s.dev u x c (opcOf (mk u b w)) w → Only w used → bad w.toNat = [] →
      ready (s.dev.onceFetched u x c) (ctx u b x c w) →
      Acts (mk u b w) s fun d => P (s.dev.onceFetched u x c) d (ctx u b x c w)

/-- A vector instruction: lane `l`'s result is `f`, of the instruction's context, the lane's free value, and `l`. -/
def LaneOp (mk : Nat → Nat → TWord → Instr) (used draws : Nat) (f : TCtx → Nat → Nat → F32) : Prop :=
  ThreadOp mk used noBad fun d d' t => LaneEffect d d' t draws fun l => f t (d.free l) l

/-- A predicate instruction: lane `l`'s result is `f`. -/
def PredOp (mk : Nat → Nat → TWord → Instr) (used : Nat) (bad : Nat → List Nat) (f : TCtx → Nat → Bool) : Prop :=
  ThreadOp mk used bad fun d d' t => PredEffect d d' t (f t)

/-- A bundle-level instruction with a uniform result: with an active lane U[D] takes it, with none nothing but the PC
changes (R171). -/
def UniOp (mk : Nat → Nat → TWord → Instr) (used : Nat) (f : TCtx → DWord) : Prop :=
  ThreadOp mk used noBad fun d d' t =>
    (t.act ≠ [] → UniEffect d d' t (f t)) ∧ (t.act = [] → ThreadFrame d d' t t.x (fun _ => 0) 0 0)

/-! ### Tensor instructions on their engine (R131) -/

/-- The instruction at the front of engine `e` of unit `u`, queued by command `k` = `c` as entry `q`, may execute: the
limits of R131 hold, an MMA is not held by the Cuff (R391), and no buffer that it reads is being filled (R245). -/
def Executes (d : Dev) (u e op k : Nat) (c : Cmd) (q : TensorEntry) : Prop :=
  d.nextTensor u e = some (k, c, q) ∧ tOp q.word = op ∧ d.mayStart u e q.word = true
    ∧ (op = 0 → (d.engine u e).ramp ≠ .held)
    ∧ (tensorReads u q.word (Tbl.find? (d.engine u e).tiles (tAcc q.word))).all (fun r => !d.bufHeld u k r.1 r.2) = true

/-- The device once the entry is started and the poisoned lines that it reads are counted (R132). -/
def Dev.startTensor (d : Dev) (u e k : Nat) (q : TensorEntry) : Dev :=
  (tensorReads u q.word (Tbl.find? (d.engine u e).tiles (tAcc q.word))).foldl (fun d r => d.engPoison k u e r.1 r.2)
    (d.setEngine u e { d.engine u e with queue := startEntry (d.engine u e).queue })

/-- Tensor command `mk` of operation `op`, where its instruction may execute, acts so that `P` relates the device on which
it is started and the device its own effect leads to. -/
def TensorOp (mk : Nat → Nat → Nat → Instr) (op : Nat)
    (P : Dev → Dev → (u e k : Nat) → Cmd → TensorEntry → Prop) : Prop :=
  ∀ (s : State) (at_ u e k : Nat) (c : Cmd) (q : TensorEntry), Executes (s.dev.advance at_) u e op k c q →
    Acts (mk at_ u e) s fun d => P ((s.dev.advance at_).startTensor u e k q) d u e k c q

/-! ### Slip instructions (R240, R241) -/

/-- Slip `s` of command `c` runs in context `x` of unit `u`, is ready to issue, has the mover's turn, and its PC lies in the
job's scratch. -/
def SlipIssues (d : Dev) (u x : Nat) (s : Slip) (c : Cmd) : Prop :=
  d.ctx? u x = some s ∧ d.cmd? s.cmd = some c ∧ d.slipReady u s = true ∧ d.slipTurn u x = true
    ∧ (d.job c.job).inScratch u s.pc 8 = true

/-- What the instruction with low bits `w` works on: the PC has moved past it. -/
def slipCtx (u x : Nat) (s : Slip) (c : Cmd) (w : SWord) : SCtx :=
  { u := u, x := x, s := { s with pc := s.pc + 8 }, cmd := c, n := w.toNat }

/-- Slip instruction `mk`, which scratch holds at the slip's PC, well formed, acts so that `P` relates the device on which its
context has had its turn and its PC has moved on, and the device its own effect leads to. -/
def SlipOp (mk : Nat → Nat → Nat → SWord → Instr) (used : Nat) (bad : Dev → SCtx → List Nat)
    (P : Dev → Dev → SCtx → Prop) : Prop :=
  ∀ (s : State) (at_ u x : Nat) (w : SWord) (sl : Slip) (c : Cmd),
    SlipIssues (s.dev.advance at_) u x sl c →
      (s.dev.advance at_).slipWord u sl.pc = opcOf (mk at_ u x w) * 2 ^ 58 + w.toNat → setBits 58 (w.toNat - Nat.land w.toNat used) = [] →
      bad (s.dev.advance at_) { slipCtx u x sl c w with s := sl } = [] →
      Acts (mk at_ u x w) s fun d =>
        P (((s.dev.advance at_).tookSlipTurn u x).setCtx u x (slipCtx u x sl c w).s) d (slipCtx u x sl c w)

/-! ### Commands of a ring (R69, R84, R89) -/

/-- `e` differs from `d` in what a trace record may touch, in held commands and in nothing else: a job only in its count of
records lost. -/
def TraceOnly (d e : Dev) : Prop :=
  e = { d with out := e.out, mem := e.mem, cat := e.cat, poison := e.poison, hosts := e.hosts, jobs := e.jobs,
               devTrcLost := e.devTrcLost, cmds := e.cmds }
    ∧ ∀ j, e.job j = { d.job j with trcLost := (e.job j).trcLost }

/-- Neither the job's trace ring nor the device's is set up: a record of the job writes no memory (R471). -/
def Untraced (d : Dev) (j : Nat) : Prop :=
  j < 16 ∧ d.cget (Cat.TRC_RING_BYTES j) = 0 ∧ bit (leNat (d.bget Cat.TRC_DEV_RING)) 97 = false

/-- Command `k` = `c` is READY and of this class and opcode, its job is RUNNING and its ring ACTIVE, the current slot admits
it, a JOB_DRAIN finds the job's other commands retired, an in-flight slot, a completion entry and a unit's or die's capacity
are free, the memory that it goes to takes requests, and no other dispatchable command comes before it (R22, R24, R89 to R91,
R94). -/
def Dispatches (d : Dev) (cls op k : Nat) (c : Cmd) : Prop :=
  d.cmd? k = some c ∧ c.st = .ready ∧ c.cls = cls ∧ c.opcode = op ∧ (d.job c.job).st = .running
    ∧ (d.ring c.job c.ring).st = .active ∧ d.slotAllows c = true ∧ d.drained k c = true ∧ d.slotFree c = true
    ∧ d.entryFree c = true ∧ d.hasCapacity c = true ∧ d.served c = true ∧ d.isTurn c = true

/-- Ring command `mk`, where it may be dispatched, acts: it is RUNNING, its effect leads to a device that `P` relates to the
one on which it is, and the ring looks at its next command. -/
def RingOp (mk : Nat → Nat → Instr) (cls op : Nat) (P : Dev → Dev → Nat → Cmd → Prop) : Prop :=
  ∀ (s : State) (at_ k : Nat) (c : Cmd), Dispatches (s.dev.advance at_) cls op k c →
    Acts (mk at_ k) s fun d => ∃ e : Dev, d = e.promote c.job c.ring
      ∧ P ((s.dev.advance at_).onceDispatched k c) e k ((s.dev.advance at_).dispatched c)

/-- Command `k` = `c` has begun and ended at unit number `u`: its BEGIN record is traced and its END noted, and nothing else
has changed (R469). -/
def Noted (d t : Dev) (k : Nat) (c : Cmd) (u : Nat) : Prop :=
  t.cmd? k = some { c with ends := c.ends ++ [(u, 0xF, d.stamp)] }
    ∧ (∀ i, i ≠ k → t.cmd? i = d.cmd? i) ∧ TraceOnly d t
    ∧ (Untraced d c.job → t.mem = d.mem ∧ t.cat = d.cat ∧ t.poison = d.poison)

/-- Ring command `mk` whose argument block, read at unit 0x90, may be `lenOk` bytes long: of another length it is malformed
at bit 376; a block that is not mapped is its fault; and else `P` relates the device on which the block's poisoned lines are
counted, and the block as a number, to the device that its effect leads to (R84, R85, R220). -/
def ArgsOp (mk : Nat → Nat → Instr) (cls op : Nat) (lenOk : Cmd → Prop) (P : Dev → Dev → Nat → Cmd → Nat → Prop) : Prop :=
  RingOp mk cls op fun d e k c => ∃ t : Dev, Noted d t k c 0x90
    ∧ (¬ lenOk c → e = t.workRefused k 0x30 376)
    ∧ (∀ va, lenOk c → t.firstFault c.job c.argsVa c.argsLen false = some va → e = (t.cmdFault k c.job va).workDone k)
    ∧ (lenOk c → t.firstFault c.job c.argsVa c.argsLen false = none →
        P (t.cmdPoison k (t.jbad c.job c.argsVa c.argsLen)) e k c (t.jnat c.job c.argsVa c.argsLen))

/-- Command `k` = `c` starts its part on unit `u` (R70, R91, R169): it runs there; its bundles take the lowest free slots
with the program's start, the arguments and zeroed registers; its engines are the lowest free ones, with no tile and nothing
queued; the job's lines are gone from the unit's read buffer; and other units and memory of other jobs are as they were. -/
def PartStarts (d d' : Dev) (k u : Nat) (c : Cmd) : Prop :=
  (∃ y : Cmd, d'.cmd? k = some y ∧ y.st = .running ∧ y.unitsLeft = c.unitsLeft - 2 ^ u ∧ y.unitsOn = c.unitsOn + 2 ^ u
      ∧ y.ends = c.ends)
    ∧ (∀ i b, (d.freeSlots u)[i]? = some b → i < c.bundles →
        d'.bundle? u b = some (Bundle.start k i c.programVa
          ((List.range c.argQwords).map fun n => d.jnat c.job (c.launchArgs + 8 * n) 8)))
    ∧ (∀ b, b ∉ (d.freeSlots u).take c.bundles → d'.bundle? u b = d.bundle? u b)
    ∧ (∀ e, e ∈ (d.freeEngines u).take c.engines →
        (d'.engine u e).owner = some k ∧ (d'.engine u e).lastJob = some c.job ∧ (d'.engine u e).tiles = []
          ∧ (d'.engine u e).queue = [])
    ∧ (∀ l y, Tbl.find? (d'.unit u).buf l = some y → y.job ≠ c.job)

/-! ### Catalogue writes (R445) -/

/-- A write of `v` by request `r` to this entry passes every check of R445, and leaves `d1` on which it takes effect: the
session's idle period begins anew, and a protected request has taken its counter. -/
def Admits (d : Dev) (r : Req) (index field : Nat) (v : List Byte) (w : Writer) (own : Dev → Bool) (d1 : Dev) : Prop :=
  d.transportUp r.transport = true ∧ d.checkHead r true index field v = (d1, none)
    ∧ ∃ (s : Session) (e : CatEntry), d1.session? r.sess = some s ∧ catEntry index field = some e ∧ e.acc ≠ .read
      ∧ d1.onceWritten e = false ∧ d1.mayWrite s r e index field w = true ∧ (e.expert = true → s.level ≠ 0)
      ∧ e.valueOk v = true ∧ own d1 = true

/-- The device that its effect `e` with status `st` leaves once it is traced and answered. -/
def Dev.replied (e : Dev) (r : Req) (index field : Nat) (v : List Byte) (st : Nat) : Dev :=
  (if st = stOk then e.catTrace r ((catEntry index field).bind (·.jobOf index)) index field v else e).answer r st 0 []
    index field 1

/-- Catalogue write `mk`, once admitted, acts: its effect is a device and a status that `P` relates to the device on which it
was admitted, and it is traced and answered. -/
def WriteOp (mk : Req → Instr) (index field : Nat) (v : List Byte) (w : Writer) (own : Dev → Bool)
    (P : Dev → Req → Dev → Nat → Prop) : Prop :=
  ∀ (s : State) (r : Req) (d1 : Dev), Admits (s.dev.advance r.at_) r index field v w own d1 →
    Acts (mk r) s fun d => ∃ (e : Dev) (st : Nat), P d1 r e st ∧ d = e.replied r index field v st

/-- Catalogue write `mk`, once admitted and where `ready` holds, starts a long operation: on the device as `prep` makes it,
the operation and the request that began it are recorded, and the write is traced; the answer waits for the end (R451). -/
def StartsLong (mk : Req → Instr) (index field : Nat) (v : List Byte) (len : Nat) (w : Writer) (own : Dev → Bool)
    (ready : Dev → Req → Prop) (prep : Dev → Req → Dev) (k : LongKind) : Prop :=
  ∀ (s : State) (r : Req) (d1 : Dev), Admits (s.dev.advance r.at_) r index field v w own d1 → ready d1 r →
    Acts (mk r) s fun d => ∃ l : LongOp, l.kind = k ∧ l.sess = r.sess ∧ l.reqId = r.reqId ∧ l.transport = r.transport
      ∧ l.index = index ∧ l.field = field ∧ l.typ = r.typ ∧ l.prot = r.prot.isSome ∧ l.started = (prep d1 r).now
      ∧ d = { prep d1 r with long := some l }.catTraceLen r ((catEntry index field).bind (·.jobOf index)) index field v len

end Sys2Proof.Machine
end

