-- ==== Sys2Proof/Certificates/Slice0/Obligations.lean ====
section
/-! DEFINITION. The statements for the provers: what the machine does, rule by rule. -/

open Sys2Proof Sys2Proof.Machine

/-- A step of a state whose queue has command c at its front is exec of c on the state with the rest
of the queue, and a step of a state whose queue is empty answers that state unchanged. The queue is
the model's (log entry 1). (01_architecture.md, 98_reader.md) -/
def Obligations.FrontCommandRunsWithTheRest : Prop :=
  (∀ (c : Instr) (rest : List Instr) (s : State),
      step { s with pending := c :: rest } = exec c { s with pending := rest })
    ∧ ∀ s : State, s.pending = [] → step s = .next s

/-- For every command and every state, exec answers a next state whose queue is the queue it was
given: no command faults, none is refused, and none adds, removes or reorders waiting commands.
(01_architecture.md, 95_what_each_step_holds.md) -/
def Obligations.EveryCommandGoesOn : Prop :=
  ∀ (c : Instr) (s : State), ∃ t, exec c s = .next t ∧ t.pending = s.pending

/-- From every state in which the pins show the state, and from every state with a command waiting,
whatever its pins, a step answers a next state in which they do: ALERT_N is low exactly while a bit
of ALERT_CAUSE is 1, and the sideband registers hold what the state makes them show. What the
sideband registers hold is the model's reading of R490 (log entry 33). (R475, R490) -/
def Obligations.PinsShowTheStateAfterEveryStep : Prop :=
  ∀ s t : State, (s.pending ≠ [] ∨ s.pinsAgree = true) → step s = .next t →
    t.pinsAgree = true ∧ (t.dev.pins.alertN = true ↔ t.dev.cget Cat.ALERT_CAUSE = 0)
      ∧ t.dev.pins.sideband = t.dev.sidebandNow

/-- State.reset satisfies the invariant on the pins; its memory is in canonical form and every byte
of it reads zero (the model's choice, log entry 3); its queue is empty; and nothing is under way
that a command would have to follow up. (R475, R490, R205) -/
def Obligations.ResetShowsItsPinsAndCanonicalMemory : Prop :=
  State.reset.pinsAgree = true ∧ State.reset.memOk = true ∧ State.reset.pending = []
    ∧ (∀ a, memByte State.reset.dev.mem a = 0) ∧ State.reset.dev.quiet = true

/-- For every device on which no step or slot has just begun, no reduction, sweep or gather is under
way and every session's connection is there, what follows from a command changes nothing but the
pins, and leaves such a device; for every device the pins show the state afterwards. (R475, R490,
95_what_each_step_holds.md) -/
def Obligations.SettlingAQuietDeviceOnlySetsPins : Prop :=
  (∀ d : Dev, d.quiet = true → d.settle = { d with pins := d.settle.pins } ∧ d.settle.quiet = true)
    ∧ ∀ d : Dev, d.settle.pins = d.settle.pinsNow.pins

/-- A bundle that issues FADD, FMUL, FFMA, FMIN, FMAX, SEL, FADDI or FMULI with a well-formed word
completes: V[D] of each active lane takes A'+B, A'xB, A'xB+C' (one rounding), the minimum, the
maximum, a or b by P[PD], a+IMM, axIMM; saturations and invalid operations are counted per lane; the
PC moves past the instruction; every other register, counter, unit, job, and all of memory stay.
(R170, R175, R177, R178) -/
def Obligations.FloatingPointByLane : Prop :=
  LaneOp .fadd (mD + mA + mB + mBU + mNA + mAA) 0 (fun t _ l => f32Add (t.opA' l) (t.opB l))
    ∧ LaneOp .fmul (mD + mA + mB + mBU + mNA + mAA) 0 (fun t _ l => f32Mul (t.opA' l) (t.opB l))
    ∧ LaneOp .ffma (mD + mA + mB + mBU + mC + mNA + mNC + mAA) 0 (fun t _ l => f32Fma (t.opA' l) (t.opB l) (t.opC' l))
    ∧ LaneOp .fmin (mD + mA + mB + mBU) 0 (fun t _ l => f32Min (t.opA l) (t.opB l))
    ∧ LaneOp .fmax (mD + mA + mB + mBU) 0 (fun t _ l => f32Max (t.opA l) (t.opB l))
    ∧ LaneOp .sel (mD + mA + mB + mBU + mPD) 0 (fun t _ l => { bits := if t.x.pred (fPD t.n) l then t.opA l else t.opB l })
    ∧ LaneOp .faddi (mD + mA + mImm) 0 (fun t _ l => f32Add (t.opA l) t.imm)
    ∧ LaneOp .fmuli (mD + mA + mImm) 0 (fun t _ l => f32Mul (t.opA l) t.imm)

/-- A bundle that issues FRCP, FRSQ, FSQRT, FEXP2, FLOG2 or FTANH with a well-formed word completes:
V[D] of each active lane takes the function's result for A', which for all but FSQRT is chosen
within the function's bound by a free value of the lane (of any value); saturations and invalid
operations are counted; everything else but the PC stays. That a free value chooses within the bound
is the model's form (log entry 2). (R170, R175, R177, R179) -/
def Obligations.SpecialFunctionsByLane : Prop :=
  LaneOp .frcp (mD + mA + mNA + mAA) 64 (fun t p l => f32Rcp (t.opA' l) p)
    ∧ LaneOp .frsq (mD + mA + mNA + mAA) 64 (fun t p l => f32Rsq (t.opA' l) p)
    ∧ LaneOp .fsqrt (mD + mA + mNA + mAA) 0 (fun t _ l => f32Sqrt (t.opA' l))
    ∧ LaneOp .fexp2 (mD + mA + mNA + mAA) 64 (fun t p l => f32Exp2 (t.opA' l) p)
    ∧ LaneOp .flog2 (mD + mA + mNA + mAA) 64 (fun t p l => f32Log2 (t.opA' l) p)
    ∧ LaneOp .ftanh (mD + mA + mNA + mAA) 64 (fun t p l => f32Tanh (t.opA' l) p)

/-- A 32-bit integer instruction of two sources. -/
def IntOp (mk : Nat → Nat → TWord → Instr) (f : Word → Word → Word) : Prop :=
  LaneOp mk (mD + mA + mB + mBU) 0 fun t _ l => { bits := f (t.opA l) (t.opB l) }

/-- A 32-bit integer instruction with an immediate. -/
def ImmOp (mk : Nat → Nat → TWord → Instr) (f : Word → Word → Word) : Prop :=
  LaneOp mk (mD + mA + mImm) 0 fun t _ l => { bits := f (t.opA l) t.imm }

/-- A 64-bit uniform instruction of two U sources. -/
def UniBin (mk : Nat → Nat → TWord → Instr) (f : DWord → DWord → DWord) : Prop :=
  UniOp mk (mD + mA + mB) fun t => f (t.x.ureg (fA t.n)) (t.x.ureg (fB t.n))

/-- IADD, ISUB, IMUL, IMAD, SHL, SHR, SAR, IADDI, SHLI, SHRI complete with 32-bit wrapping results
in V[D] of each active lane, IMUL and IMAD keeping the low 32 bits of the product, SHR and SHRI
shifting in zeros and SAR copies of the sign bit, and count nothing but the issue; UADD, USUB, UMUL,
USHL, USHR do so on 64 bits in U[D]. (R180) -/
def Obligations.IntegerOperationsWrapWithoutCounting : Prop :=
  IntOp .iadd (fun x y => x + y) ∧ IntOp .isub (fun x y => x - y) ∧ IntOp .imul (fun x y => BitVec.ofNat 32 (x.toNat * y.toNat))
    ∧ LaneOp .imad (mD + mA + mB + mBU + mC) 0
        (fun t _ l => { bits := BitVec.ofNat 32 ((t.opA l).toNat * (t.opB l).toNat + (t.opC l).toNat) })
    ∧ IntOp .shl (fun x y => x <<< (y.toNat % 32)) ∧ IntOp .shr (fun x y => x >>> (y.toNat % 32))
    ∧ IntOp .sar (fun x y => x.sshiftRight (y.toNat % 32))
    ∧ ImmOp .iaddi (fun x i => x + i) ∧ ImmOp .shli (fun x i => x <<< (i.toNat % 32))
    ∧ ImmOp .shri (fun x i => x >>> (i.toNat % 32))
    ∧ UniBin .uadd (fun x y => x + y) ∧ UniBin .usub (fun x y => x - y)
    ∧ UniBin .umul (fun x y => BitVec.ofNat 64 (x.toNat * y.toNat))
    ∧ UniBin .ushl (fun x y => x <<< (y.toNat % 64)) ∧ UniBin .ushr (fun x y => x >>> (y.toNat % 64))

/-- A bundle that issues one of these with a well-formed word completes: signed and unsigned minimum
and maximum, bitwise operations, the number of set bits, the number of leading zeros, the immediate,
a V register, the low or high half of a U register go to V[D] of each active lane; UAND, UOR, UMOVI
(sign-extended), UMOVHI (the high half), UADDI go to U[D] when a lane is active, and change nothing
but the PC when none is. (R170, R171, R175, R177) -/
def Obligations.LogicMinimaMovesAndCounts : Prop :=
  IntOp .imin (fun x y => if x.toInt < y.toInt then x else y) ∧ IntOp .imax (fun x y => if x.toInt < y.toInt then y else x)
    ∧ IntOp .umin (fun x y => if x.toNat < y.toNat then x else y) ∧ IntOp .umax (fun x y => if x.toNat < y.toNat then y else x)
    ∧ IntOp .and (fun x y => x &&& y) ∧ IntOp .or (fun x y => x ||| y) ∧ IntOp .xor (fun x y => x ^^^ y)
    ∧ LaneOp .popc (mD + mA) 0
        (fun t _ l => { bits := BitVec.ofNat 32 ((List.range 32).filter fun i => (t.opA l).getLsbD i).length })
    ∧ LaneOp .clz (mD + mA) 0 (fun t _ l => { bits := clzWord (t.opA l) })
    ∧ ImmOp .andi (fun x i => x &&& i) ∧ ImmOp .ori (fun x i => x ||| i)
    ∧ LaneOp .movi (mD + mImm) 0 (fun t _ _ => { bits := t.imm })
    ∧ LaneOp .mov (mD + mA) 0 (fun t _ l => { bits := t.opA l })
    ∧ LaneOp .movu (mD + mA) 0 (fun t _ _ => { bits := (t.x.ureg (fA t.n)).setWidth 32 })
    ∧ LaneOp .movuh (mD + mA) 0 (fun t _ _ => { bits := (t.x.ureg (fA t.n) >>> 32).setWidth 32 })
    ∧ UniBin .uand (fun x y => x &&& y) ∧ UniBin .uor (fun x y => x ||| y)
    ∧ UniOp .umovi (mD + mImm) (fun t => t.imm.signExtend 64)
    ∧ UniOp .umovhi (mD + mImm)
        (fun t => BitVec.ofNat 64 ((t.x.ureg (fD t.n)).toNat % 2 ^ 32 + t.imm.toNat * 2 ^ 32))
    ∧ UniOp .uaddi (mD + mA + mImm) (fun t => t.x.ureg (fA t.n) + t.imm.signExtend 64)

/-- A bundle that issues FSETP, ISETP, USETP, PLOP or UCMP with a well-formed word completes: P[PD]
of each active lane takes the comparison (float, signed, unsigned) or the predicate operation, and
every other predicate and register stays; PD 0 writes nothing. (R168, R170, R177) -/
def Obligations.PredicateInstructionsByLane : Prop :=
  PredOp .fsetp (mA + mB + mBU + mPD + mCond) noBad (fun t l => f32Cmp (fCond t.n) (t.opA l) (t.opB l))
    ∧ PredOp .isetp (mA + mB + mBU + mPD + mCond) (fun n => if 6 ≤ fCond n then [18] else [])
        (fun t l => cmpSigned (fCond t.n) (t.opA l).toInt (t.opB l).toInt)
    ∧ PredOp .usetp (mA + mB + mBU + mPD + mCond) (fun n => if 6 ≤ fCond n then [18] else [])
        (fun t l => cmpUnsigned (fCond t.n) (t.opA l).toNat (t.opB l).toNat)
    ∧ PredOp .plop (mk 40 3 + mk 34 3 + mPD + mCond)
        (fun n => (if 5 ≤ fCond n then [18] else []) ++ (if fCond n = 4 then setBitsAt n 34 3 else []))
        (fun t l => predOp (fCond t.n) (t.x.pred (fA t.n % 8) l) (t.x.pred (fB t.n % 8) l))
    ∧ PredOp .ucmp (mA + mB + mPD + mCond) (fun n => if 6 ≤ fCond n then [18] else [])
        (fun t _ => cmpUnsigned (fCond t.n) (t.x.ureg (fA t.n)).toNat (t.x.ureg (fB t.n)).toNat)

/-- The value of RED over the active lanes: the tree's, or the operation's neutral one when no lane
is active. -/
def redValue (t : TCtx) : Word :=
  match (redResult t).vals with
  | some x :: _ => x
  | _ => redEmpty (fCond t.n)

/-- A result to U[D] that is written whether or not a lane is active, with its FP32 counts. -/
def ToUniform (d d' : Dev) (t : TCtx) (v : DWord) (sat inv : Nat) : Prop :=
  ∃ y : Bundle, y = { t.x with u := y.u } ∧ (∀ r, y.ureg r = if r = fD t.n ∧ r ≠ 63 then v else t.x.ureg r)
    ∧ ThreadFrame d d' t y (fpAdds t.u sat inv) inv 0

/-- SHFL gives lane l the value of A in lane (B of lane l) mod 64, SHFLX in lane l XOR IMM[5:0],
whether or not that lane is active; RED reduces A over the active lanes as a fixed pairwise tree and
writes U[D], sign-extended for COND 3 to 5 and zero-extended otherwise, and gives the table's value
when no lane is active; SCAN writes the inclusive prefix to V[D] of the active lanes; VOTE writes
the mask of active lanes with P[PD] true; RDLANE writes A of lane B, zero-extended. Nothing else but
the PC and the counts of FP32 results changes. (R183) -/
def Obligations.CrossLaneInstructions : Prop :=
  LaneOp .shfl (mD + mA + mB + mBU) 0 (fun t _ l => { bits := t.opA ((t.opB l).toNat % 64) })
    ∧ LaneOp .shflx (mD + mA + mk 0 6) 0 (fun t _ l => { bits := t.opA (Nat.xor l (fImm t.n % 64)) })
    ∧ ThreadOp .red (mD + mA + mCond) noBad (fun d d' t =>
        ToUniform d d' t (if 3 ≤ fCond t.n ∧ fCond t.n ≤ 5 then (redValue t).signExtend 64 else (redValue t).setWidth 64)
          (redResult t).sat (redResult t).inv
        ∧ (t.act = [] → redValue t = redEmpty (fCond t.n)))
    ∧ ThreadOp .scan (mD + mA + mCond) (fun n => if fCond n = 0 ∨ fCond n = 3 ∨ fCond n = 4 then [] else [18]) (fun d d' t =>
        ∃ y : Bundle, y = { t.x with v := y.v }
          ∧ (∀ l r, l < 64 → r < 64 → y.vreg l r =
              if l ∈ t.act ∧ r = fD t.n then (((scanResult t).vals[l]?).getD none).getD 0 else t.x.vreg l r)
          ∧ ThreadFrame d d' t y (fpAdds t.u (scanResult t).sat (scanResult t).inv) (scanResult t).inv 0)
    ∧ ThreadOp .vote (mD + mPD) noBad (fun d d' t =>
        ToUniform d d' t (laneMask (t.act.filter fun l => t.x.pred (fPD t.n) l)) 0 0)
    ∧ ThreadOp .rdlane (mD + mA + mB) noBad (fun d d' t =>
        ToUniform d d' t ((t.x.vreg (fB t.n) (fA t.n)).setWidth 64) 0 0)

/-- BCOND (R173). -/
def bcondHolds (t : TCtx) : Prop :=
  let pb := fld t.n 45 3
  let ua := t.x.ureg (fld t.n 39 6)
  match fld t.n 48 4 with
  | 0 => True
  | 1 => ∃ l ∈ t.act, t.x.pred pb l = true
  | 2 => ∀ l ∈ t.act, t.x.pred pb l = true
  | 3 => ¬ ∃ l ∈ t.act, t.x.pred pb l = true
  | 4 => ua ≠ 0
  | _ => ua = 0

/-- PC + 8 × TARGET, from the PC of the instruction itself, in 52 bits. -/
def jumpTarget (t : TCtx) : Nat := (((t.x.pc : Int) - 8 + 8 * toSigned 32 (fImm t.n)) % 2 ^ 52).toNat

/-- With an active lane: BRA goes to PC + 8 x TARGET when its BCOND holds and past itself otherwise;
CALL pushes PC + 8 and jumps, and with 16 entries stops the bundle with 0x30 and DETAIL 56; RET pops
and jumps, and with none stops the bundle in the same way; EXIT clears LIVE in every active lane,
and the bundle ends when no lane is left. With no active lane BRA, CALL and RET change only the PC.
Registers, memory and counters other than the issue's stay, but for a stop's own. (R171, R173, R200)
-/
def Obligations.ControlFlowOfABundle : Prop :=
  ThreadOp .bra (mk 48 4 + mk 45 3 + mk 39 6 + mImm) (fun n => if 6 ≤ fld n 48 4 then [48] else []) (fun d d' t =>
      (t.act ≠ [] → bcondHolds t → ThreadFrame d d' t { t.x with pc := jumpTarget t } (fun _ => 0) 0 0)
        ∧ (t.act = [] ∨ ¬ bcondHolds t → ThreadFrame d d' t t.x (fun _ => 0) 0 0))
    ∧ ThreadOp .call mImm noBad (fun d d' t =>
        (t.act = [] → ThreadFrame d d' t t.x (fun _ => 0) 0 0)
          ∧ (t.act ≠ [] → t.x.ret.length < 16 →
              ThreadFrame d d' t { t.x with ret := t.x.pc :: t.x.ret, pc := jumpTarget t } (fun _ => 0) 0 0)
          ∧ (t.act ≠ [] → 16 ≤ t.x.ret.length → d' = (d.issue t).stopBundle t.u t.b t.k 0x30 56))
    ∧ ThreadOp .ret 0 noBad (fun d d' t =>
        (t.act = [] → ThreadFrame d d' t t.x (fun _ => 0) 0 0)
          ∧ (∀ a rest, t.act ≠ [] → t.x.ret = a :: rest →
              ThreadFrame d d' t { t.x with ret := rest, pc := a } (fun _ => 0) 0 0)
          ∧ (t.act ≠ [] → t.x.ret = [] → d' = (d.issue t).stopBundle t.u t.b t.k 0x30 56))
    ∧ ThreadOp .exit 0 noBad (fun d d' t =>
        ∃ live : DWord, (∀ l, l < 64 → live.getLsbD l = (t.x.live.getLsbD l && !decide (l ∈ t.act)))
          ∧ (live ≠ 0 → ThreadFrame d d' t { t.x with live := live } (fun _ => 0) 0 0)
          ∧ (live = 0 → d' = (d.issue t).endBundle t.u t.b t.k))

/-- The offset of the block that lane `l` lies in, chosen over the block's active lanes (R144,
R181); 0 without blocks. -/
def cvtOffset (t : TCtx) (l : Nat) : Nat :=
  if cvtBlk t.n && isBlock (cvtTo t.n) then
    let size := if cvtBlk16 t.n then 16 else 32
    (blockOffset (cvtTo t.n) (((t.act.filter fun k => k / size = l / size).map (cvtValue t)).map
      fun v => v.div (cvtScale t (cvtTo t.n)).s2)).1
  else 0

/-- What CVT writes to lane `l`: the value in TO, rounded once, with its block offset in bits
[11:8]. -/
def cvtLane (t : TCtx) (draw l : Nat) : Word :=
  BitVec.ofNat 32
    ((encodeScaled (cvtTo t.n) (if cvtSr t.n then .stochastic draw else .nearest) (cvtSat t.n) false
      (cvtScale t (cvtTo t.n)) (cvtOffset t l) (cvtValue t l)).bits + cvtOffset t l * 2 ^ 8)

/-- CVT completes with V[D] of each active lane holding its value converted from FROM to TO with the
scale of U[US], rounded once (a draw of the lane's generator for SR, which only then is drawn from),
and with the block's offset, chosen over the block's active lanes, in bits [11:8]; every other
register of the bundle, every other bundle, and memory stay. OFFS completes with lane 0 of D holding
bits [11:8] of A in the first lane of each block, low nibble first, and zero in every other lane of
D. (R141, R170, R175, R181, R182) -/
def Obligations.ConversionsByLane : Prop :=
  ThreadOp .cvt (mD + mA + mk 36 4 + mk 32 4 + mk 28 4 + mk 22 6 + mk 14 8) cvtBad (fun d d' t =>
      ∃ y : Bundle, y = { t.x with v := y.v } ∧ d'.bundle? t.u t.b = some y
        ∧ (∀ l r, l < 64 → r < 64 → y.vreg l r = if l ∈ t.act ∧ r = fD t.n then cvtLane t (d.draw (genThread t.u t.b l) l) l
            else t.x.vreg l r)
        ∧ d' = { d with units := d'.units, cat := d'.cat, jobs := d'.jobs, fresh := d'.fresh, gens := d'.gens }
        ∧ (cvtSr t.n = false → d'.gens = d.gens ∧ d'.fresh = d.fresh)
        ∧ d'.unit t.u = { d.unit t.u with bundles := (d'.unit t.u).bundles }
        ∧ ∀ v b, (v, b) ≠ (t.u, t.b) → d'.bundle? v b = d.bundle? v b)
    ∧ ThreadOp .offs (mD + mA + mk 29 1) noBad (fun d d' t =>
        ∃ y : Bundle, y = { t.x with v := y.v }
          ∧ (∀ l r, l < 64 → r < 64 → y.vreg l r =
              if r = fD t.n ∧ l = 0 then
                (if cvtBlk16 t.n then
                  BitVec.ofNat 32 (fld (t.x.vreg 0 (fA t.n)).toNat 8 4 + fld (t.x.vreg 16 (fA t.n)).toNat 8 4 * 16
                    + fld (t.x.vreg 32 (fA t.n)).toNat 8 4 * 16 ^ 2 + fld (t.x.vreg 48 (fA t.n)).toNat 8 4 * 16 ^ 3)
                else
                  BitVec.ofNat 32 (fld (t.x.vreg 0 (fA t.n)).toNat 8 4 + fld (t.x.vreg 32 (fA t.n)).toNat 8 4 * 16))
              else if r = fD t.n then 0
              else t.x.vreg l r)
          ∧ ThreadFrame d d' t y (fun _ => 0) 0 0)

/-- SREG completes: with UD 0 V[D] of each active lane takes the selected value, with UD 1 and an
active lane U[D] takes it zero-extended. The values are the lane number, the bundle's index, the
unit's rank, its number, the job slot, the tag, the step and slot numbers (zero when no timetable is
RUNNING), the timebase at the replicas' resolution, a draw of 16 bits of the lane's generator, and
BUNDLES; only that draw changes anything but the bundle, and it advances the 64 lanes' generators.
LANE with UD 1 has no one value for the bundle and is a free value (log entry 2). (R66, R141, R199)
-/
def Obligations.IdentityReads : Prop :=
  ThreadOp .sreg (mD + mk 0 5) sregBad (fun d d' t =>
      let e := if fld t.n 0 4 = 9 then d.drawn ((List.range 64).map (genThread t.u t.b)) else d
      (bit t.n 4 = false → LaneEffect e d' t 0 fun l => { bits := BitVec.ofNat 32 (sregValue d t l) })
        ∧ (∀ l rest, bit t.n 4 = true → fld t.n 0 4 ≠ 0 → t.act = l :: rest →
            ∃ y : Bundle, y = { t.x with u := y.u }
              ∧ (∀ r, y.ureg r = if r = fD t.n ∧ r ≠ 63 then BitVec.ofNat 64 (sregValue d t l) else t.x.ureg r)
              ∧ ThreadFrame e d' t y (fun _ => 0) 0 0))
    ∧ ∀ (d : Dev) (t : TCtx) (l : Nat),
        (fld t.n 0 4 = 0 → sregValue d t l = l) ∧ (fld t.n 0 4 = 1 → sregValue d t l = t.x.index)
          ∧ (fld t.n 0 4 = 2 → t.u < 128 → sregValue d t l = popCount (t.u % 64) t.cmd.groupMask)
          ∧ (fld t.n 0 4 = 3 → t.u < 128 → sregValue d t l = t.u % 64) ∧ (fld t.n 0 4 = 4 → sregValue d t l = t.cmd.job)
          ∧ (fld t.n 0 4 = 5 → sregValue d t l = t.cmd.tag)
          ∧ (fld t.n 0 4 = 6 → sregValue d t l = if d.tt.st = .running then d.tt.step else 0)
          ∧ (fld t.n 0 4 = 7 → sregValue d t l = if d.tt.st = .running then d.tt.slot else 0)
          ∧ (fld t.n 0 4 = 8 → sregValue d t l = d.now / 8 * 8) ∧ (fld t.n 0 4 = 9 → sregValue d t l = d.draw (genThread t.u t.b l) l)
          ∧ (fld t.n 0 4 = 10 → sregValue d t l = t.cmd.bundles)

/-- The device on which a memory instruction acts: issued, with its misaligned lanes counted (R185).
-/
def memIssued (d : Dev) (t : TCtx) : Dev :=
  (d.issue t).countMisaligned t.u ((t.act.map (laneAcc t)).filter (·.mis)).length

/-- What a load reads for lane `l`: the bytes at its address as the unit sees their line,
read-buffer line or memory as `keep` says of the line, with the unit's stores over it, extended by
SX. -/
def loaded (d : Dev) (t : TCtx) (keep : Nat → Bool) (l : Nat) : DWord :=
  let pa := d.lanePa t (laneAcc t l).addr
  loadBits t.n (laneAcc t l) (((d.unitLine t.u t.cmd.job (pa / 64) (keep (pa / 64))).drop (pa % 64)).take (widthBytes t.n))

/-- The bytes that ST writes, by physical address, with the bits of each that it writes: the highest
lane's bits win. -/
def storeItems (d : Dev) (t : TCtx) : List (Nat × Byte × Byte) :=
  ((t.act.map (laneAcc t)).map fun a =>
    (List.range (storeBytes t a).length).map fun i => (d.lanePa t a.addr + i, ((storeBytes t a)[i]?).getD (0, 0))).flatten

/-- With fewer than 16 loads outstanding, and no lane's memory held back by a retraining die or a
stalled port (a prefetch by scratch offset needs neither): LD with an active lane and no stopping
lane gives V[D] of each active lane the value at its effective address, as the unit sees it (whether
a buffered line has been given up is free, line by line), with D+1 for B64, leaves every other
register, counts one load outstanding and with ORD 1 waits as an acquire; a stopping lane stops the
bundle with its status and DETAIL; PREF changes no register and never stops. Memory is unchanged,
and with no active lane nothing but the PC changes. (R22, R24, R170, R171, R184, R185, R187, R190,
R191, R200, R203) -/
def Obligations.LoadsAndPrefetches : Prop :=
  ThreadWhen .ld (mMem + mD + mk 28 1) ldBad (fun d t => t.x.loads < 16 ∧ d.lanesStalled t = false) (fun d d' t =>
      (t.act = [] → ThreadFrame d d' t t.x (fun _ => 0) 0 0)
        ∧ (∀ stop, t.act ≠ [] → (memIssued d t).memStop t (t.act.map (laneAcc t)) false = some stop →
            d' = (memIssued d t).stopMem t stop)
        ∧ (t.act ≠ [] → (memIssued d t).memStop t (t.act.map (laneAcc t)) false = none →
            ∃ (y : Bundle) (keep : Nat → Bool), d'.bundle? t.u t.b = some y ∧ d'.mem = d.mem
              ∧ y = { t.x with
                      v := y.v, loads := t.x.loads + 1,
                      wait := if bit (mOrd t.n) 0 then .fence false true (mPackage t.n) else t.x.wait }
              ∧ (∀ l ∈ t.act, y.vreg l (fD t.n) = (loaded (memIssued d t) t keep l).setWidth 32)
              ∧ (∀ l ∈ t.act, mWidth t.n = 4 → y.vreg l (fD t.n + 1) = (loaded (memIssued d t) t keep l >>> 32).setWidth 32)
              ∧ ∀ l r, l < 64 → r < 64 → (l ∉ t.act ∨ (r ≠ fD t.n ∧ (mWidth t.n = 4 → r ≠ fD t.n + 1))) →
                  y.vreg l r = t.x.vreg l r))
    ∧ ThreadWhen .pref mMem prefBad (fun d t => mScr t.n = true ∨ (t.x.loads < 16 ∧ d.lanesStalled t = false)) (fun d d' t =>
        d'.mem = d.mem
          ∧ (t.act = [] ∨ mScr t.n = true → ThreadFrame d d' t t.x (fun _ => 0) 0 0)
          ∧ (t.act ≠ [] → mScr t.n = false → d'.bundle? t.u t.b = some { t.x with loads := t.x.loads + 1 }))

/-- With fewer than 64 stores not performed and its release met, ST with no stopping lane leaves the
bundle's registers and writes the bytes of the active lanes' values at their effective addresses,
the highest lane's bits winning: those that fall into the unit's own scratch or SRAM, by scratch
offset or by job address, at once, run by run, so that memory is what those writes make of it, and
the rest at the end of the unit's queue of stores, with memory unchanged by them; nothing but the
unit's queue and read buffer changes otherwise. A stopping lane stops the bundle with its status and
DETAIL. (R17, R184, R185, R186, R187, R191, R200, R203) -/
def Obligations.StoresWaitInTheirUnit : Prop :=
  ThreadWhen .st (mMem + mD) stBad
    (fun d t => d.storeCount t.u t.k t.b < 64 ∧ d.releaseMet t.u t.k t.b t.n = true) (fun d d' t =>
      (∀ stop, (memIssued d t).memStop t (t.act.map (laneAcc t)) true = some stop → d' = (memIssued d t).stopMem t stop)
        ∧ ((memIssued d t).memStop t (t.act.map (laneAcc t)) true = none →
            let ps := runs t.b t.k t.cmd.job ((memIssued d t).nextStore t.u) (gather (storeItems (memIssued d t) t))
            let own (p : PendStore) : Bool := d.ownScratch t.u p.pa
            let e := (ps.filter own).foldl (fun d p => d.acceptStore p)
              ((memIssued d t).countBanks t (t.act.map (laneAcc t)) false)
            d'.mem = e.mem ∧ d'.bundle? t.u t.b = some t.x ∧ d' = { e with units := d'.units }
              ∧ d'.unit t.u = { e.unit t.u with
                  stores := (d.unit t.u).stores ++ ps.filter (fun p => !own p), buf := (d'.unit t.u).buf }
              ∧ ∀ v, v ≠ t.u → d'.unit v = d.unit v))

/-- With fewer than 16 loads outstanding, its release met and no lane's memory held back, ATOM with
an active lane, no stopping lane and no lane in tier 4 is performed lane by lane after the unit's
stores to its lines are accepted and the lines have left the read buffer; a lane in tier 4 stops the
bundle with 0x31. One lane on a line that is not poisoned returns the old value to D (D and D+1 on
64 bits) and writes the operation's result: ADD, MAX, MIN, AND, OR, XOR, EXCH, and CAS, which
compares with V[D+1] (V[D+3]:V[D+2]) and stores V[D] (V[D+1]:V[D]). (R186, R189, R190, R191, R200,
R203) -/
def Obligations.AtomicsReturnTheOldValue : Prop :=
  ThreadWhen .atom (mMem + mD + mk 20 5) atomBad
      (fun d t => t.x.loads < 16 ∧ d.lanesStalled t = false ∧ d.releaseMet t.u t.k t.b t.n = true) (fun d d' t =>
        let e := memIssued d t
        let accs := t.act.map (laneAcc t)
        let lines := e.accLines t accs
        let start := lines.foldl (fun d l => d.dropLine t.u l)
          ((e.countBanks t accs true).acceptWhere t.u fun p => lines.contains (p.pa / 64))
        let host (a : LaneAcc) : Prop := ∃ p, e.region (e.lanePa t a.addr) = .host p
        (t.act = [] → ThreadFrame d d' t t.x (fun _ => 0) 0 0)
          ∧ (∀ stop, t.act ≠ [] → e.memStop t accs true = some stop → d' = e.stopMem t stop)
          ∧ (t.act ≠ [] → e.memStop t accs true = none → (∃ a ∈ accs, host a) → d' = e.stopBundle t.u t.b t.k 0x31 0)
          ∧ (t.act ≠ [] → e.memStop t accs true = none → (¬ ∃ a ∈ accs, host a) →
              d' = ((accs.foldl (Dev.atomLane t) (start, t.x)).1.putBundle t
                (acquireWait t.n { (accs.foldl (Dev.atomLane t) (start, t.x)).2 with
                  loads := (accs.foldl (Dev.atomLane t) (start, t.x)).2.loads + 1 })).threadPoison t
                ((lines.filter fun l => e.badLine (64 * l)).map (64 * ·))))
    ∧ (∀ (t : TCtx) (d : Dev) (x : Bundle) (a : LaneAcc), d.badLine (d.lanePa t a.addr) = false → mAop t.n < 13 →
        let old : Word := BitVec.ofNat 32 (leNat (d.rd (d.lanePa t a.addr) 4))
        let new := atomOp32 (mAop t.n) old (t.x.vreg a.lane (fD t.n)) (t.x.vreg a.lane (fD t.n + 1))
        Dev.atomLane t (d, x) a =
          ((d.wrLine (d.lanePa t a.addr) (leBytes 4 new.bits.toNat)).countFp t (b2n new.sat) (b2n new.invalid),
            x.setV a.lane (fD t.n) old))
    ∧ (∀ (t : TCtx) (d : Dev) (x : Bundle) (a : LaneAcc), d.badLine (d.lanePa t a.addr) = false → 13 ≤ mAop t.n → mAop t.n ≤ 15 →
        let old : DWord := BitVec.ofNat 64 (leNat (d.rd (d.lanePa t a.addr) 8))
        let new := atomOp64 (mAop t.n) old (pairOf t.x a.lane (fD t.n)) (pairOf t.x a.lane (fD t.n + 2))
        Dev.atomLane t (d, x) a =
          (d.wrLine (d.lanePa t a.addr) (leBytes 8 new.toNat),
            (x.setV a.lane (fD t.n) (old.setWidth 32)).setV a.lane (fD t.n + 1) ((old >>> 32).setWidth 32)))
    ∧ ∀ old v cmp : Word,
        (atomOp32 0 old v cmp).bits = old + v ∧ atomOp32 1 old v cmp = f32Add old v
          ∧ (atomOp32 2 old v cmp).bits.toInt = max old.toInt v.toInt ∧ (atomOp32 3 old v cmp).bits.toInt = min old.toInt v.toInt
          ∧ (atomOp32 4 old v cmp).bits.toNat = max old.toNat v.toNat ∧ (atomOp32 5 old v cmp).bits.toNat = min old.toNat v.toNat
          ∧ atomOp32 6 old v cmp = f32Max old v ∧ atomOp32 7 old v cmp = f32Min old v
          ∧ (atomOp32 8 old v cmp).bits = old &&& v ∧ (atomOp32 9 old v cmp).bits = old ||| v
          ∧ (atomOp32 10 old v cmp).bits = old ^^^ v ∧ (atomOp32 11 old v cmp).bits = v
          ∧ (atomOp32 12 old v cmp).bits = if old = cmp then v else old

/-- FENCE with an active lane makes the bundle wait for stores accepted (release at package scope),
loads returned (acquire), and then the invalidation of the job's buffered lines (acquire at package
scope); FENCE_COMPLETE ends the wait when that holds. BAR, whatever its guard, adds the bundle to
the barrier's arrivals once and with IMM14[2] makes it wait; BARRIER_COMPLETE, when every bundle of
the command on the unit has arrived, lets the waiting ones go on, starts a new round, and has the
command's idle engines due to start. NAP waits IMM14 cycles; NAP_END ends the wait at that instant.
Memory is unchanged by all of them, but for the record of a Cuff that those engines engage. (R67,
R171, R191, R194) -/
def Obligations.FencesBarriersAndNaps : Prop :=
  ThreadOp .fence (mk 0 3) (fun n => if fld n 0 2 = 0 then [0] else []) (fun d d' t =>
      (t.act = [] → ThreadFrame d d' t t.x (fun _ => 0) 0 0)
        ∧ (t.act ≠ [] →
            ThreadFrame d d' t { t.x with wait := .fence (bit t.n 1 && bit t.n 2) (bit t.n 0) (bit t.n 0 && bit t.n 2) }
              (fun _ => 0) 0 0))
    ∧ (∀ (s : State) (u b : Nat) (x : Bundle) (stores loads inv : Bool), s.dev.bundle? u b = some x →
        x.wait = .fence stores loads inv → (stores = true → s.dev.pendingStores u x.cmd b = []) →
        (loads = true → x.loads = 0) →
        Acts (.fenceComplete u b) s fun d =>
          d.bundle? u b = some { x with wait := .none } ∧ d.mem = s.dev.mem
            ∧ (inv = true → ∀ p ∈ (d.unit u).buf, p.2.job ≠ s.dev.cmdJob x.cmd)
            ∧ (inv = false → d = s.dev.setBundle u b { x with wait := .none }))
    ∧ ThreadOp .bar (mk 0 3) noBad (fun d d' t =>
        d'.bundle? t.u t.b = some (if bit t.n 2 then { t.x with wait := .bar (fld t.n 0 2) } else t.x)
          ∧ (∀ v, v ∈ d'.arrived t.u t.k (fld t.n 0 2) ↔ v = t.b ∨ v ∈ d.arrived t.u t.k (fld t.n 0 2))
          ∧ d'.mem = d.mem ∧ ∀ v, v ≠ t.u → d'.unit v = d.unit v)
    ∧ (∀ (s : State) (u k n : Nat), s.dev.arrived u k n ≠ [] →
        (∀ b ∈ s.dev.bundlesOf u k, b ∈ s.dev.arrived u k n) →
        Acts (.barrierComplete u k n) s fun d => ∃ e : Dev,
          d = e.engineDue u (e.ownedEngines u k) ∧ e.mem = s.dev.mem ∧ e.arrived u k n = []
            ∧ (∀ b x, s.dev.bundle? u b = some x →
                e.bundle? u b = some (if x.cmd = k ∧ x.wait = .bar n then { x with wait := .none } else x))
            ∧ ∀ v, v ≠ u → e.unit v = s.dev.unit v)
    ∧ ThreadOp .nap (mk 0 14) noBad (fun d d' t =>
        (t.act = [] → ThreadFrame d d' t t.x (fun _ => 0) 0 0)
          ∧ (t.act ≠ [] → d'.mem = d.mem ∧ d'.bundle? t.u t.b = some { t.x with
              wait := .nap, napEnd := d.now + (d.issue t).cyclesToUnits (dieOfUnit t.u) (fImm14 t.n) }))
    ∧ ∀ (s : State) (u b : Nat) (x : Bundle), s.dev.bundle? u b = some x → x.wait = .nap →
        Acts (.napEnd u b) s fun d =>
          d.bundle? u b = some { x with wait := .none, napEnd := 0 } ∧ d.now = max s.dev.now x.napEnd ∧ d.mem = s.dev.mem

/-- TENS with an active lane rejects a DEBUG_READ while the job's ENG_ACC_DEBUG is 0 with 0x31, well
formed or not; any other word is queued on the engine it names when it has no offending bit, and
otherwise stops the bundle with the lowest, which counts ENGINE where the command has no such
engine. TWAIT waits while more than N of the bundle's tensor instructions on the engine are
incomplete. STRM.RUN posts a run to the stream unit; STRM.FREE empties the declared buffer when it
is FULL. SWAIT waits until the completion count meets U[A][31:0]. STATMX contributes the active
lanes of V[A], SEAL seals its slot. Without an active lane nothing but the PC changes; memory is
unchanged by TENS, TWAIT and SWAIT. (R114, R115, R195, R196, R197, R198) -/
def Obligations.TensorAndStreamIssue : Prop :=
  ThreadWhen .tens (mA + mB) noBad
      (fun d t => t.act = [] ∨ ∀ e, d.wordEngine t.u t.k (tensWord t.x t.n) = some e → (d.engine t.u e).queue.length < 16)
      (fun d d' t =>
        (t.act = [] → ThreadFrame d d' t t.x (fun _ => 0) 0 0)
          ∧ (∀ e, t.act ≠ [] → (d.issue t).wordEngine t.u t.k (tensWord t.x t.n) = some e →
              (d.issue t).tensorBad t.u t.k e t.cmd (tensWord t.x t.n) = [] →
              (tOp (tensWord t.x t.n) = 4 → (d.issue t).cget (Cat.ENG_ACC_DEBUG t.cmd.job) ≠ 0) →
              (d'.engine t.u e).queue = (d.engine t.u e).queue ++ [{ slot := t.b, word := tensWord t.x t.n, started := false }]
                ∧ d'.bundle? t.u t.b = some { t.x with
                    tens := Tbl.set t.x.tens (tEngine (tensWord t.x t.n)) (Tbl.getD t.x.tens (tEngine (tensWord t.x t.n)) 0 + 1) }
                ∧ d'.mem = d.mem)
          ∧ (t.act ≠ [] → tOp (tensWord t.x t.n) = 4 → (d.issue t).cget (Cat.ENG_ACC_DEBUG t.cmd.job) = 0 →
              d' = (d.issue t).rejectWord t.u t.b t.k
                (((d.issue t).wordEngine t.u t.k (tensWord t.x t.n)).getD (tEngine (tensWord t.x t.n))) 0x31 0)
          ∧ (∀ o, t.act ≠ [] → (tOp (tensWord t.x t.n) = 4 → (d.issue t).cget (Cat.ENG_ACC_DEBUG t.cmd.job) ≠ 0) →
              (d.issue t).wordEngine t.u t.k (tensWord t.x t.n) = none →
              ((d.issue t).wordBad t.u t.k t.cmd (tensWord t.x t.n) none).min? = some o →
              d' = (d.issue t).rejectWord t.u t.b t.k (tEngine (tensWord t.x t.n)) 0x30 o)
          ∧ ∀ e o, t.act ≠ [] → (tOp (tensWord t.x t.n) = 4 → (d.issue t).cget (Cat.ENG_ACC_DEBUG t.cmd.job) ≠ 0) →
              (d.issue t).wordEngine t.u t.k (tensWord t.x t.n) = some e →
              ((d.issue t).tensorBad t.u t.k e t.cmd (tensWord t.x t.n)).min? = some o →
              d' = (d.issue t).rejectWord t.u t.b t.k e 0x30 o)
    ∧ ThreadOp .twait (mk 0 8) noBad (fun d d' t =>
        (t.act = [] ∨ Tbl.getD t.x.tens (fld t.n 0 3) 0 ≤ fld t.n 3 5 → ThreadFrame d d' t t.x (fun _ => 0) 0 0)
          ∧ (t.act ≠ [] → fld t.n 3 5 < Tbl.getD t.x.tens (fld t.n 0 3) 0 →
              ThreadFrame d d' t { t.x with wait := .twait (fld t.n 0 3) (fld t.n 3 5) } (fun _ => 0) 0 0))
    ∧ ThreadWhen .strmRun mA noBad
        (fun d t => fld (strmWord t.x t.n) 60 4 ≠ 2 ∧ (t.act = [] ∨ (d.runBad t.u t.cmd (strmWord t.x t.n)).isSome
          ∨ (d.unit t.u).mover.room t.k (paramDecls t.u (d.runParam t.u (strmWord t.x t.n)))))
        (fun d d' t =>
          (t.act = [] → ThreadFrame d d' t t.x (fun _ => 0) 0 0)
            ∧ (t.act ≠ [] → (d.issue t).runBad t.u t.cmd (strmWord t.x t.n) = none →
                d' = (d.issue t).postRun t.u t.k ((d.issue t).runParam t.u (strmWord t.x t.n))
                  (fld (strmWord t.x t.n) 16 16 * unitGranule t.u))
            ∧ ∀ o, t.act ≠ [] → (d.issue t).runBad t.u t.cmd (strmWord t.x t.n) = some o →
                d' = (d.issue t).stopBundle t.u t.b t.k 0x30 o)
    ∧ ThreadWhen .strmFree mA noBad (fun _ t => fld (strmWord t.x t.n) 60 4 = 2) (fun d d' t =>
        (t.act = [] → ThreadFrame d d' t t.x (fun _ => 0) 0 0)
          ∧ (∀ y, t.act ≠ [] → strmBad (strmWord t.x t.n) = [] →
              (d.unit t.u).mover.decls.find? (fun y => y.cmd = t.k && y.buf = fld (strmWord t.x t.n) 0 4) = some y →
              y.st = .full →
              d' = ((d.issue t).setMover t.u ((d.unit t.u).mover.setBuf y.slip y.buf .empty)).settleMover t.u)
          ∧ (t.act ≠ [] → strmBad (strmWord t.x t.n) = [] →
              (d.unit t.u).mover.decls.find? (fun y => y.cmd = t.k && y.buf = fld (strmWord t.x t.n) 0 4) = none →
              d' = (d.issue t).bump Cat.STRM_FREE_EXTRA))
    ∧ ThreadOp .swait mA noBad (fun d d' t =>
        (t.act = [] ∨ markMeets ((d.unit t.u).mover.countOf t.k) ((t.x.ureg (fA t.n)).setWidth 32) = true →
            ThreadFrame d d' t t.x (fun _ => 0) 0 0)
          ∧ (t.act ≠ [] → markMeets ((d.unit t.u).mover.countOf t.k) ((t.x.ureg (fA t.n)).setWidth 32) = false →
              d' = ((d.issue t).putBundle t { t.x with wait := .swait ((t.x.ureg (fA t.n)).setWidth 32) }).stopSwaits t.u t.k))
    ∧ ThreadOp .statmx (mA + mk 14 8) badStat (fun d d' t =>
        (t.act = [] → ThreadFrame d d' t t.x (fun _ => 0) 0 0)
          ∧ (t.act ≠ [] → d' = (d.issue t).contributeStat t.cmd.job (fStat t.n)
              { rows := t.act.map fun l => (l, magBits (f32 (t.x.vreg l (fA t.n)))), elements := t.act.length, clipped := 0,
                under := 0, nonfin := (t.act.filter fun l => !(f32 (t.x.vreg l (fA t.n))).isFinite).length } false false))
    ∧ ThreadOp .seal (mk 14 8) badStat (fun d d' t =>
        (t.act = [] → ThreadFrame d d' t t.x (fun _ => 0) 0 0)
          ∧ (t.act ≠ [] → d' = (d.issue t).sealSlot t.cmd.job (fStat t.n)))

/-- Where the front instruction of an engine may execute: MMA, LOAD and STORE whose scale record or
tile is not what they need when their turn comes are rejected with the lowest offending bit, as a
STORE or an accumulating MMA on a FREE tile is; else MMA leaves its tile (opened anew with ZERO,
with the latched scales) holding the accumulators after its blocks, other tiles and memory as they
were; LOAD opens its tile with the accumulators read from scratch; STORE writes the rows of the
converted tile (and the packed offsets of a block-scaled format) and frees the tile unless KEEP;
RELEASE frees the tile and is complete; DEBUG_READ writes the tile's header and raw accumulators.
Stochastic rounding draws from the engine's own generators. (R107, R108, R109, R111, R114, R116,
R118, R124, R128, R131) -/
def Obligations.TensorInstructionsOnTheirEngine : Prop :=
  TensorOp .mma 0 (fun d d' u e k c q =>
      let n := q.word
      let t := if tZero n then d.openTile u n else (Tbl.find? (d.engine u e).tiles (tAcc n)).getD (d.openTile u n)
      let operand (lo fmt x : Nat) : Operand :=
        { bytes := d.engRead u (tAddr u n lo) (operandBytes fmt x (tBlk n) (tBlocks n)), fmt := fmt, x := x, blk := tBlk n,
          blocks := tBlocks n }
      let r := mmaRun t n (operand 16 (tFmtA n) (shapeDims t.shape).1) (operand 32 (tFmtB n) (shapeDims t.shape).2.1)
        (fun i => if tSr n then .stochastic (d.draw (genBlock u e i) i) else .nearest)
      (∀ o, d.openBad u k e c n = some o → d' = d.lateReject u k e q o)
        ∧ (d.openBad u k e c n = none →
            (d'.engine u e).tiles = Tbl.set (d.engine u e).tiles (tAcc n) { t with acc := r.acc, blocks := t.blocks + tBlocks n }
              ∧ (d'.engine u e).queue = (d.engine u e).queue ∧ d'.mem = d.mem))
    ∧ TensorOp .load 1 (fun d d' u e k c q =>
        let n := q.word
        let t := d.openTile u n
        (∀ o, d.openBad u k e c n = some o → d' = d.lateReject u k e q o)
          ∧ (d.openBad u k e c n = none → d'.mem = d.mem ∧ ∃ a : Tile,
              (d'.engine u e).tiles = Tbl.set (d.engine u e).tiles (tAcc n) a ∧ a = { t with acc := a.acc }
                ∧ ∀ i, i < (shapeDims t.shape).1 * (shapeDims t.shape).2.1 →
                    Tbl.getD a.acc i 0 = BitVec.ofNat 32 (packedAt
                      (d.engRead u (tAddr u n 16) ((shapeDims t.shape).1 * (shapeDims t.shape).2.1 * 4)) 32 i)))
    ∧ TensorOp .store 2 (fun d d' u e k c q =>
        let n := q.word
        (∀ o, d.openBad u k e c n = some o → d' = d.lateReject u k e q o)
          ∧ (Tbl.find? (d.engine u e).tiles (tAcc n) = none → ∃ o, d.openBad u k e c n = some o ∧ o ≤ 116)
          ∧ ∀ t : Tile, Tbl.find? (d.engine u e).tiles (tAcc n) = some t → d.openBad u k e c n = none →
                let head := leNat (d.engRead u (tAddr u n 64) 64)
                let m := (shapeDims t.shape).1
                let nn := (shapeDims t.shape).2.1
                let fw := fmtWidth (oFuseFmt n)
                let fused (i : Nat) : FVal :=
                  if oFuse n = 0 then .nan
                  else decodeF (oFuseFmt n)
                    (packedAt (d.engRead u (tAddr u n 48 + i / nn * rowPitch nn fw) (rowPitch nn fw)) fw (i % nn))
                let vs := (List.range (m * nn)).map fun i => (epilogue t n (i / nn) (i % nn) (fused i)).v
                let sc : Scale := if oFmt n ≤ 2 then Scale.one
                  else { s2 := decodeF 0 (fld head 64 32), zp := zeroPoint (oFmt n) (fld head 0 8) }
                let r := convertTensor (oFmt n) (fun i => if oSr n then .stochastic (d.draw (genOut u e i) i) else .nearest)
                  (tSat n) sc m nn (oBlk n) (oDimM n) vs
                let rows := (if oSr n then d.drawn ((List.range (m * nn)).map (genOut u e)) else d).putRows (unitScratch u + tAddr u n 32) (fmtWidth (oFmt n))
                  m nn (r.encs.map (·.bits))
                d'.mem = (if isBlock (oFmt n) then
                    rows.wr (unitScratch u + tAddr u n 32 + m * rowPitch nn (fmtWidth (oFmt n))) (packElems 4 r.offs)
                  else rows).mem
                  ∧ (d'.engine u e).tiles =
                      if oKeep n then (d.engine u e).tiles else Tbl.erase (d.engine u e).tiles (tAcc n))
    ∧ TensorOp .release 3 (fun d d' u e k _ q =>
        d' = ((d.setEngine u e { d.engine u e with
          tiles := Tbl.erase (d.engine u e).tiles (tAcc q.word),
          queue := eraseFirst (· = { q with started := true }) (d.engine u e).queue }).tensDone u k q).checkPart u k)
    ∧ TensorOp .debugRead 4 (fun d d' u e _ _ q =>
        d' = d.wr (unitScratch u + tAddr u q.word 32) (debugBytes (Tbl.find? (d.engine u e).tiles (tAcc q.word))))

/-- TENSOR_COMPLETE of an engine with an owner and a started instruction takes the oldest started
one out of the queue and looks whether the command's part on the unit is over. On the bundle that
issued it, the count of incomplete instructions of the engine falls by one, and a TWAIT on that
engine ends when no more than its N are left; a bundle of another command in the slot is left alone.
(R95, R131, R196) -/
def Obligations.TensorCompletion : Prop :=
  (∀ (s : State) (at_ u e k : Nat) (q : TensorEntry), ((s.dev.advance at_).engine u e).owner = some k →
      ((s.dev.advance at_).engine u e).queue.find? (·.started) = some q →
      Acts (.tensorComplete at_ u e) s fun d' =>
        let d := s.dev.advance at_
        let x := d.engine u e
        d' = ((d.setEngine u e { x with queue := eraseFirst (·.started) x.queue,
                                        lastMac := if tOp q.word = 0 then some d.now else x.lastMac }).tensDone u k q).checkPart u k)
    ∧ ∀ (d : Dev) (u k : Nat) (q : TensorEntry) (x : Bundle), d.bundle? u q.slot = some x →
        (x.cmd ≠ k → d.tensDone u k q = d)
          ∧ (x.cmd = k → ∃ y : Bundle, (d.tensDone u k q).bundle? u q.slot = some y ∧ y = { x with tens := y.tens, wait := y.wait }
              ∧ (∀ e, Tbl.getD y.tens e 0 = if e = tEngine q.word then Tbl.getD x.tens e 0 - 1 else Tbl.getD x.tens e 0)
              ∧ (∀ n, x.wait = .twait (tEngine q.word) n →
                  y.wait = if Tbl.getD x.tens (tEngine q.word) 0 - 1 ≤ n then .none else x.wait)
              ∧ ((∀ n, x.wait ≠ .twait (tEngine q.word) n) → y.wait = x.wait))

/-- A slip instruction that issues: MOVA gives A[d] the value A[s]+IMM, ADDAA adds A[s], SETC and
ADDC load and add C[c], LOOP with C[c] above 1 decrements and jumps by IMM words; OPEN waits for
EMPTY, CLOSE for the buffer's writes, SIG for the slip's stores, END for all transfers, and each
goes on at once when its condition holds; WAITMK goes on when its mark meets C[c] and else waits,
with a deadline when it names one; FETCH and PUT, where no line stops, put one transfer of all their
lines in flight and step their registers, and leave memory. (R240, R241, R242, R244, R247, R253,
R254) -/
def Obligations.SlipInstructions : Prop :=
  SlipOp .mova mSlipR noSlipBad (fun d d' t =>
      d' = d.setCtx t.u t.x { t.s with a := listSet t.s.a (fld t.n 55 3) (((t.aReg 52 : Int) + toSigned 32 (fld t.n 0 32)) % 2 ^ 52).toNat })
    ∧ SlipOp .addaa mSlipR noSlipBad (fun d d' t =>
        d' = d.setCtx t.u t.x { t.s with a := listSet t.s.a (fld t.n 55 3) ((t.aReg 55 + t.aReg 52) % 2 ^ 52) })
    ∧ SlipOp .setc mSlipR noSlipBad (fun d d' t =>
        d' = d.setCtx t.u t.x { t.s with c := listSet t.s.c (fld t.n 55 3) (BitVec.ofNat 32 (fld t.n 0 32)) })
    ∧ SlipOp .addc mSlipR noSlipBad (fun d d' t =>
        d' = d.setCtx t.u t.x { t.s with c := listSet t.s.c (fld t.n 55 3) (t.cReg 55 + BitVec.ofNat 32 (fld t.n 0 32)) })
    ∧ SlipOp .loop mSlipR noSlipBad (fun d d' t =>
        (t.cReg 55 = 0 → d' = d)
          ∧ (t.cReg 55 = 1 → d' = d.setCtx t.u t.x { t.s with c := listSet t.s.c (fld t.n 55 3) 0 })
          ∧ (1 < (t.cReg 55).toNat → d' = d.setCtx t.u t.x { t.s with
              c := listSet t.s.c (fld t.n 55 3) (t.cReg 55 - 1),
              pc := ((t.s.pc : Int) - 8 + 8 * toSigned 32 (fld t.n 0 32)).toNat }))
    ∧ SlipOp .open_ (mk 0 4) noSlipBad (fun d d' t =>
        d' = (d.setCtx t.u t.x { t.s with wait := .opening (fld t.n 0 4) }).settleSlip t.u t.x)
    ∧ SlipOp .close (mk 0 4) noSlipBad (fun d d' t =>
        d' = (d.setCtx t.u t.x { t.s with wait := .closing (fld t.n 0 4) }).settleSlip t.u t.x)
    ∧ SlipOp .sig (mk 0 8) (fun _ t => if fld t.n 0 8 = 0 then [0] else []) (fun d d' t =>
        d' = (d.setCtx t.u t.x { t.s with wait := .signal (fld t.n 0 8) }).settleSlip t.u t.x)
    ∧ SlipOp .end_ 0 noSlipBad (fun d d' t =>
        d' = (d.setCtx t.u t.x { t.s with wait := .ending }).settleSlip t.u t.x)
    ∧ SlipOp .waitmk (mk 55 3 + mk 45 10 + mk 0 16) noSlipBad (fun d d' t =>
        (markMeets ((d.job t.cmd.job).mark (fld t.n 45 10)).value (t.cReg 55) = true → d' = d)
          ∧ (markMeets ((d.job t.cmd.job).mark (fld t.n 45 10)).value (t.cReg 55) = false →
              let dl := if fld t.n 0 16 = 0 then none else some (d.now + fld t.n 0 16 * 8192)
              d' = d.setCtx t.u t.x { t.s with wait := .mark (fld t.n 45 10) (t.cReg 55) dl }))
    ∧ (∀ (s : State) (u x : Nat) (sl : Slip) (m : Nat) (v : Word) (dl : Nat), s.dev.ctx? u x = some sl →
        sl.wait = .mark m v (some dl) →
        Acts (.waitmkTimeout u x) s fun d =>
          d.ctx? u x = some { sl with wait := .none } ∧ d.now = max s.dev.now (dl + s.dev.cget Cat.TT_SETTLE)
            ∧ d.mem = s.dev.mem ∧ ∀ c, s.dev.cmd? sl.cmd = some c →
              d.cmd? sl.cmd = some { c.raise 0x03 dl with lateWaits := (m, v, dl) :: c.lateWaits })

/-- When a waiting slip is looked at: in OPEN with its buffer EMPTY the buffer is FILLING and the
slip goes on, and with any other state nothing changes but that the slip is an orphan when the
command has no bundle left on the unit; in CLOSE with no write of its own left into the buffer, the
buffer is FULL, or EMPTY when the slip's command is a SLIP, the unit's count for the command rises
by 1, and the slip goes on; in SIG with no store in flight, the count rises by INC and the slip goes
on; in END with nothing in flight the context and its declarations are gone. (R241, R242, R244,
R246) -/
def Obligations.SlipWaitsEndWhenTheirConditionHolds : Prop :=
  (∀ (d : Dev) (u x b : Nat) (s : Slip) (y : Decl), d.ctx? u x = some s → s.wait = .opening b →
      (d.unit u).mover.decl? s.id b = some y →
      (y.st ≠ .empty → d.settleSlip u x = d.checkPart u s.cmd)
        ∧ (y.st = .empty → (d.settleSlip u x).ctx? u x = some { s with wait := .none }
            ∧ (d.settleSlip u x).mem = d.mem
            ∧ ∀ z ∈ (d.settleSlip u x |>.unit u).mover.decls, z.slip = s.id → z.buf = b → z.st = .filling))
    ∧ (∀ (d : Dev) (u x b : Nat) (s : Slip) (y : Decl), d.ctx? u x = some s → s.wait = .closing b →
        (d.unit u).mover.decl? s.id b = some y → s.writesInto y.start y.len = false →
        (d.settleSlip u x).ctx? u x = some { s with wait := .none } ∧ (d.settleSlip u x).mem = d.mem
          ∧ (d.settleSlip u x |>.unit u).mover.countOf s.cmd = (d.unit u).mover.countOf s.cmd + 1
          ∧ ∀ c, d.cmd? s.cmd = some c → ∀ z ∈ (d.settleSlip u x |>.unit u).mover.decls, z.slip = s.id → z.buf = b →
              z.st = if c.cls = 0 then .full else .empty)
    ∧ (∀ (d : Dev) (u x inc : Nat) (s : Slip), d.ctx? u x = some s → s.wait = .signal inc →
        s.inflight.any (fun t => !t.toScratch || t.isFmt) = false →
        (d.settleSlip u x).ctx? u x = some { s with wait := .none } ∧ (d.settleSlip u x).mem = d.mem
          ∧ (d.settleSlip u x |>.unit u).mover.countOf s.cmd = (d.unit u).mover.countOf s.cmd + BitVec.ofNat 32 inc)
    ∧ ∀ (d : Dev) (u x : Nat) (s : Slip), d.ctx? u x = some s → s.wait = .ending → s.inflight = [] →
        d.settleSlip u x = d.endSlip u x s

/-- FETCH and PUT with no stopping line put one transfer of their lines in flight, in order, and
step their registers by bits 51 and then 50; a line that faults in translation stops the slip with
0x11, one on a migrating page halts the command there. FMT with its source mapped and its output
mapped or in scratch puts the converted output in flight; a source line that is not mapped stops the
slip with 0x11, the poisoned lines before it counted, and so does an output line, with the lines
before it in flight. What is put in flight leaves memory until MEMORY_ACCESS_COMPLETE, which lands
any line of any transfer whose memory takes requests, returns a load, or has accepted a bundle's
oldest store that is not held back. SLIP_CONTEXT_START gives the oldest queued RUN the first free
context. (R22, R24, R187, R191, R239, R241, R242, R246, R253, R254) -/
def Obligations.SlipTransfersAndTheirLanding : Prop :=
  (∀ put : Bool, SlipOp (if put then .put else .fetch) mSlipM moveBad (fun d d' t =>
      let lines := moveLines (t.aReg 55) (t.cReg 47).toNat (t.aReg 52) (xRows t.n) (xRowBytes t.n)
      let todo := match t.s.saved with
        | some (r, y) => lines.filter fun l => r < l.row || (l.row = r && y ≤ l.byte)
        | none => lines
      let issued := d.issueLines t.u t.cmd.job put todo
      let flight := if issued.1 = [] then t.s.inflight
        else t.s.inflight ++ [Transfer.plain (issued.1.map (d.lineWrite t.u t.cmd.job put)) (!put) (t.aReg 52)
          (xRows t.n * xRowBytes t.n)]
      let raise (a : List Nat) (r n : Nat) : List Nat := listSet a r (((a[r]?).getD 0 + n) % 2 ^ 52)
      let stepM := if bit t.n 51 then raise t.s.a (fld t.n 55 3) (xRows t.n * (t.cReg 47).toNat) else t.s.a
      (issued.2 = none → d'.mem = d.mem ∧ d'.ctx? t.u t.x = some { t.s with
          inflight := flight, saved := none,
          a := if bit t.n 50 then raise stepM (fld t.n 52 3) (xRows t.n * xRowBytes t.n) else stepM })
        ∧ (∀ l, issued.2 = some (l, .fault) → ∃ e : Dev, e.mem = d.mem ∧ e.units = d.units
            ∧ d' = (e.xfault t.cmd.job l.va).stopSlip t.u t.x { t.s with inflight := flight } 0x11 l.va)
        ∧ ∀ l, issued.2 = some (l, .migrate) → ∃ e : Dev, e.mem = d.mem ∧ e.units = d.units
            ∧ d' = (e.setCtx t.u t.x { t.s with inflight := flight, pc := t.s.pc - 8, saved := some (l.row, l.byte) }).haltCommand
                t.s.cmd t.u t.x (t.s.pc - 8) l.va l.row l.byte))
    ∧ SlipOp .fmt (mk 48 10) fmtBad (fun d d' t =>
        let f := fmtDesc (leNat (d.engRead t.u (t.aReg 55) 64))
        let lines := f.lines (t.aReg 52)
        let bs := f.blocksOf (fun i => if f.sr then .stochastic (d.draw (genFormat t.u i) i) else .nearest) (d.jrd t.cmd.job)
          (t.aReg 52)
        let out := linesFrom (t.aReg 49) (f.bytes bs) (ceilDiv (operandBytes f.dst f.x f.blk f.blocks) 64)
        (∀ a, lines.find? (fun a => (d.xlate t.cmd.job a false).isNone) = some a →
            d' = ((d.cmdPoison t.s.cmd (((lines.takeWhile fun a => (d.xlate t.cmd.job a false).isSome).map
              (d.linePa t.cmd.job)).filter d.badLine)).xfault t.cmd.job a).stopSlip t.u t.x t.s 0x11 a)
          ∧ ((∀ a ∈ lines, (d.xlate t.cmd.job a false).isSome = true) → ∃ e : Dev, e.mem = d.mem ∧ e.units = d.units ∧ e.jobs = d.jobs
            ∧ (bit t.n 48 = true ∨ (∀ l ∈ out, (e.xlate t.cmd.job l.1 true).isSome = true) → ∃ tr : Transfer,
                d' = e.setCtx t.u t.x { t.s with inflight := t.s.inflight ++ [tr] }
                  ∧ tr.writes = out.map (fun l =>
                      (if bit t.n 48 then unitScratch t.u + l.1 else e.linePa t.cmd.job l.1, l.2))
                  ∧ tr.toScratch = bit t.n 48 ∧ tr.isFmt = true)
            ∧ ∀ l, bit t.n 48 = false → out.find? (fun l => (e.xlate t.cmd.job l.1 true).isNone) = some l → ∃ tr : Transfer,
                d' = (e.xfault t.cmd.job l.1).stopSlip t.u t.x { t.s with
                    inflight := if tr.writes = [] then t.s.inflight else t.s.inflight ++ [tr] } 0x11 l.1
                  ∧ tr.writes = (out.takeWhile fun y => y.1 ≠ l.1).map fun l => (e.linePa t.cmd.job l.1, l.2)))
    ∧ (∀ (s : State) (at_ u b : Nat) (x : Bundle), (s.dev.advance at_).bundle? u b = some x → x.loads ≠ 0 →
        Acts (.memoryAccessComplete at_ (.bundleLoad u b)) s fun d =>
          d = (s.dev.advance at_).setBundle u b { x with loads := x.loads - 1 })
    ∧ (∀ (s : State) (at_ u b : Nat) (p : PendStore), let e := s.dev.advance at_
        (e.unit u).stores.find? (fun p => p.slot = b && !e.stalledAt p.pa) = some p →
        Acts (.memoryAccessComplete at_ (.bundleStore u b)) s fun d =>
          let mine (q : PendStore) : Bool := q.slot = b && q.cmd = p.cmd && q.seq = p.seq && !e.stalledAt q.pa
          d = e.acceptWhere u fun q => mine q || (q.seq ≤ p.seq
            && (((e.unit u).stores.filter mine).map fun q => q.pa / 64).contains (q.pa / 64)))
    ∧ (∀ (s : State) (at_ u x i n : Nat) (sl : Slip) (tr : Transfer) (w : Nat × List Byte), let e := s.dev.advance at_
        e.ctx? u x = some sl → sl.inflight[i]? = some tr → tr.writes[n]? = some w →
          (e.stalledAt w.1 = true → Acts (.memoryAccessComplete at_ (.slip u x i n)) s fun d => d = e)
          ∧ (e.stalledAt w.1 = false → 1 < tr.writes.length →
              Acts (.memoryAccessComplete at_ (.slip u x i n)) s fun d => d.mem = (e.wrLine w.1 w.2).mem
                ∧ d.ctx? u x = some { sl with
                    inflight := listSet sl.inflight i { tr with writes := tr.writes.eraseIdx n } })
          ∧ (e.stalledAt w.1 = false → tr.writes.length = 1 → sl.wait = .none →
              Acts (.memoryAccessComplete at_ (.slip u x i n)) s fun d => d.mem = (e.wrLine w.1 w.2).mem
                ∧ d.ctx? u x = some { sl with inflight := sl.inflight.eraseIdx i }))
    ∧ ∀ (s : State) (u x : Nat) (sl : Slip) (rest : List Slip), (s.dev.unit u).mover.queue = sl :: rest →
        (List.range 4).find? (fun x => (Tbl.find? (s.dev.unit u).mover.ctx x).isNone) = some x →
        Acts (.slipContextStart u) s fun d =>
          d.ctx? u x = some sl ∧ (d.unit u).mover.queue = rest ∧ d.mem = s.dev.mem
            ∧ d.cget (Cat.STRM_SLIPS u) = s.dev.cget (Cat.STRM_SLIPS u) + 1

/-- Where it may be dispatched, each of these is RUNNING, begins and ends at unit 0x91 in one step
and is RETIRING: WAIT_POSITION, JOIN and JOB_DRAIN with no other effect; STAMP writes the timebase's
stamp to STAMP_VA, or ends with 0x11 where that is not mapped for writing; MARK_WRITE gives its mark
the value and the stamp; INTERRUPT raises its MSI-X vector; TRACE_MARKER writes a MARKER record;
SAMPLE_NOW takes a forced sample when the job has a sample ring. Nothing but the trace changes
beside. (R42, R69, R84, R86, R89, R469) -/
def Obligations.BarrierTimetableAndControlCommands : Prop :=
  (∀ (d : Dev) (k : Nat) (c : Cmd), d.cmd? k = some c →
      d.workDone k = d.setCmd k { c with st := .retiring, done := true })
    ∧ RingOp .waitPosition 4 0 (fun d e k c => ∃ t, Noted d t k c 0x91 ∧ e = t.workDone k)
    ∧ RingOp .join 5 0 (fun d e k c => ∃ t, Noted d t k c 0x91 ∧ e = t.workDone k)
    ∧ RingOp .jobDrain 5 2 (fun d e k c => ∃ t, Noted d t k c 0x91 ∧ e = t.workDone k)
    ∧ RingOp .stamp 4 1 (fun d e k c => ∃ t, Noted d t k c 0x91 ∧
        let va := fld c.desc 320 52
        ((t.xlate c.job va true).isSome → e = (t.jwr c.job va (leBytes 8 d.stamp)).workDone k)
          ∧ (t.xlate c.job va true = none → e = (t.cmdFault k c.job va).workDone k))
    ∧ RingOp .markWrite 5 1 (fun d e k c => ∃ t, Noted d t k c 0x91
        ∧ e = (t.setMark c.job (fld c.desc 320 10) (BitVec.ofNat 32 (fld c.desc 352 32)) d.stamp).workDone k)
    ∧ RingOp .interrupt 7 0 (fun d e k c => ∃ t, Noted d t k c 0x91
        ∧ e = (t.raiseMsix (fld c.desc 331 1) (fld c.desc 320 11)).workDone k)
    ∧ RingOp .traceMarker 7 1 (fun d e k c => ∃ t, Noted d t k c 0x91
        ∧ e = (t.event 0x03 c.job 0x91 0 (fld c.desc 320 64) 0).workDone k)
    ∧ RingOp .sampleNow 7 2 (fun d e k c => ∃ t, Noted d t k c 0x91
        ∧ (t.cget (Cat.SMP_RING_BYTES c.job) = 0 → e = t.workDone k)
        ∧ (t.cget (Cat.SMP_RING_BYTES c.job) ≠ 0 → e = (t.takeSample c.job d.stamp true).workDone k))

/-- For every command that is dispatched (the commands of R84, all 17 of the table but IMPORT, whose
operands are more): where it is READY and everything but an in-flight slot is there, it stays READY
and the first such want is counted in CP_INFLIGHT_FULL; where an in-flight slot but no completion
entry of its ring is free, or it is not READY, or its ring is not ACTIVE, its job not RUNNING, the
slot does not admit it, no unit or die has capacity, or another dispatchable command comes first,
the device is as it was. (R84, R89, R90, R91, R94) -/
def Obligations.NoInFlightSlotNoDispatch : Prop :=
  ∀ p ∈ ([(.launch, 0, 0), (.waitPosition, 4, 0), (.stamp, 4, 1), (.join, 5, 0), (.markWrite, 5, 1), (.jobDrain, 5, 2),
      (.interrupt, 7, 0), (.traceMarker, 7, 1), (.sampleNow, 7, 2), (.copy, 1, 0), (.slip, 1, 1), (.send, 2, 0),
      (.contribute, 2, 1), (.reduce, 2, 2), (.sweep, 3, 0), (.gather, 3, 1), (.exportRec, 6, 0)] :
        List ((Nat → Nat → Instr) × Nat × Nat)),
    ∀ (s : State) (at_ k : Nat) (c : Cmd), let d := s.dev.advance at_
      d.cmd? k = some c → c.cls = p.2.1 → c.opcode = p.2.2 →
        (c.st = .ready → (d.job c.job).st = .running → (d.ring c.job c.ring).st = .active → d.slotAllows c = true →
          d.drained k c = true → d.slotFree c = false →
            (c.waited = true → Acts (p.1 at_ k) s fun d' => d' = d)
              ∧ (c.waited = false → Acts (p.1 at_ k) s fun d' =>
                  d' = (d.setCmd k { c with waited := true }).bump Cat.CP_INFLIGHT_FULL))
        ∧ (c.st ≠ .ready ∨ (d.job c.job).st ≠ .running ∨ (d.ring c.job c.ring).st ≠ .active ∨ d.slotAllows c = false
            ∨ (d.slotFree c = true ∧ (d.entryFree c = false ∨ d.hasCapacity c = false ∨ d.served c = false
              ∨ d.isTurn c = false)) → Acts (p.1 at_ k) s fun d' => d' = d)

/-- Setting a mark of a job gives it the value and the stamp and leaves every other mark and every
other job; a WAITING command of the job whose enabled, unmet wait names the mark and is met by the
value (signed difference zero or positive) has that wait met at the stamp; a slip of the job in
WAITMK on it, met in time, goes on; commands of other jobs, bundles, engines, memory and rings stay
as they were. (R53, R86, R87, R88, R247) -/
def Obligations.MarksWakeWhatWaits : Prop :=
  ∀ (d : Dev) (j m : Nat) (v : Word) (st : Nat), let e := d.setMark j m v st
    (e.job j).mark m = { value := v, stamp := st }
      ∧ (∀ n, n ≠ m → (e.job j).mark n = (d.job j).mark n) ∧ (∀ i, i ≠ j → e.job i = d.job i)
      ∧ (∀ k c, d.cmd? k = some c → c.job ≠ j → e.cmd? k = some c)
      ∧ (∀ k c, d.cmd? k = some c → c.job = j → c.st = .waiting → ∃ y : Cmd, e.cmd? k = some y
          ∧ y = { c with met0 := y.met0, met1 := y.met1 }
          ∧ (c.w0En = true → c.met0 = none → c.waitMark0 = m →
              y.met0 = if (v - c.waitVal0).msb = false then some st else none)
          ∧ (c.w1En = true → c.met1 = none → c.waitMark1 = m →
              y.met1 = if (v - c.waitVal1).msb = false then some st else none)
          ∧ (c.met0 ≠ none → y.met0 = c.met0) ∧ (c.met1 ≠ none → y.met1 = c.met1))
      ∧ (∀ u x s n w dl, d.ctx? u x = some s → d.cmdJob s.cmd = j → s.wait = .mark n w dl → n = m →
          e.ctx? u x = some (if markMeets v w = true ∧ (∀ t, dl = some t → st ≤ t) then { s with wait := .none } else s))
      ∧ (∀ u, (e.unit u).bundles = (d.unit u).bundles ∧ (e.unit u).engines = (d.unit u).engines)
      ∧ e.mem = d.mem ∧ e.rings = d.rings ∧ e.now = d.now

/-- LAUNCH, where some unit that it names has the bundle slots and engines it asks for, is RUNNING
and starts its part at once on every unit, in order, that has them; the others stay units to come.
COMMAND_START_ON_UNIT of a RUNNING compute command, and PARKED_RESUME of a PARKED one whose job
runs, start its part on a unit to come that has capacity: its bundles stand in the lowest free slots
at the program's start with U registers holding the arguments and all else zero, its engines are the
lowest free ones, with no tile, and the job's lines leave the unit's read buffer. (R65, R70, R84,
R89, R91, R93, R98, R169) -/
def Obligations.LaunchAndPartsOnUnits : Prop :=
  RingOp .launch 0 0 (fun d e k c =>
      e = (setBits 72 c.unitMask).foldl (fun d u => d.startIfFits k u) (d.setCmd k { c with unitsLeft := c.unitMask }))
    ∧ (∀ (d : Dev) (k u : Nat) (c : Cmd), d.cmd? k = some c → c.cls = 0 →
        (bit c.unitsLeft u = false ∨ d.unitFits u c = false → d.startIfFits k u = d)
          ∧ (bit c.unitsLeft u = true → d.unitFits u c = true →
              d.firstFault c.job c.launchArgs (c.argQwords * 8) false = none → PartStarts d (d.startIfFits k u) k u c))
    ∧ (∀ (s : State) (at_ k u : Nat) (c : Cmd), let d := s.dev.advance at_
        d.cmd? k = some c → c.cls = 0 → bit c.unitsLeft u = true → d.slotAllows c = true → d.unitFits u c = true →
        d.firstFault c.job c.launchArgs (c.argQwords * 8) false = none →
          (c.st = .running → Acts (.commandStartOnUnit at_ k u) s fun d' => PartStarts d d' k u c)
            ∧ (c.st = .parked → (d.job c.job).st = .running → Acts (.parkedResume at_ k u) s fun d' => PartStarts d d' k u c))
    ∧ ∀ (k i pc : Nat) (args : List Nat) (r l : Nat), let x := Bundle.start k i pc args
        x.pc = pc ∧ x.index = i ∧ x.cmd = k ∧ x.live = BitVec.allOnes 64 ∧ x.ret = [] ∧ x.wait = .none ∧ x.loads = 0
          ∧ x.vreg l r = 0 ∧ (r < 63 → args.length ≤ 63 → x.ureg r = BitVec.ofNat 64 (args[r]?.getD 0))
          ∧ x.preg r = if r = 0 then BitVec.allOnes 64 else 0

/-- COMMAND_RETIRE of a command that is done, with no write waiting for a sink and its record's
memory taking requests, takes it out of the device and finishes it. Finishing a command: its
completion record goes to the next entry of the completion ring when CREC or its status asks for one
and the entry is mapped, and the position moves on, with the phase flipping at the wrap; its mark
rises by SIGNAL_INC when its status signals; its ring's vector is raised when IRQ asks, a message
leaving or, masked, its pending bit set; and a status of 0x11 or more, or a record that could not be
written, makes an ACTIVE ring STOPPED with its RING_SEQ. (R69, R73, R81, R86, R94, R95, R96, R500)
-/
def Obligations.RetirementInItsOrder : Prop :=
  (∀ (s : State) (at_ k : Nat) (c : Cmd), (s.dev.advance at_).cmd? k = some c → c.done = true → c.inFlight = true →
      (s.dev.advance at_).writesAccepted k = true → (s.dev.advance at_).recordServed c = true →
      Acts (.commandRetire at_ k) s fun d' => d' = (s.dev.advance at_).retireHeld k c)
    ∧ ∀ (d : Dev) (c : Cmd), let t := d.traceEnds c; let r := d.ring c.job c.ring; let e := d.finish c
        let va := r.cBase + 32 * r.cPos; let wants : Prop := c.crec = true ∨ c.status ≠ 0
        let last : Prop := r.cPos + 1 = r.cSize
        (wants → (t.xlate c.job va true).isSome →
            e.mem = (t.jwr c.job va (leBytes 32 (c.recordNat d.stamp r.cPhase))).mem
              ∧ (e.ring c.job c.ring).cPos = (if last then 0 else r.cPos + 1)
              ∧ (e.ring c.job c.ring).cPhase = (if last then !r.cPhase else r.cPhase))
          ∧ (¬ wants → e.mem = t.mem ∧ (e.ring c.job c.ring).cPos = r.cPos)
          ∧ (c.sigEn = true → statusSignals c.status = true →
              (e.job c.job).mark c.signalMark
                = { value := ((d.job c.job).mark c.signalMark).value + BitVec.ofNat 32 c.signalInc, stamp := d.stamp })
          ∧ (¬ (c.sigEn = true ∧ statusSignals c.status = true) → (e.job c.job).marks = (d.job c.job).marks)
          ∧ (c.irq = true → bit (Tbl.getD (d.host r.port).msix r.vector msixReset) 96 = false → Out.msix r.port r.vector ∈ e.out)
          ∧ (c.irq = true → bit (Tbl.getD (d.host r.port).msix r.vector msixReset) 96 = true →
              Tbl.getD (e.host r.port).pba r.vector false = true)
          ∧ (r.st = .active → (0x11 ≤ c.status ∨ (wants ∧ t.xlate c.job va true = none)) →
              (e.ring c.job c.ring).st = .stopped ∧ (e.ring c.job c.ring).stopSeq = c.seq)
          ∧ (r.st = .active → c.status < 0x11 → (wants → (t.xlate c.job va true).isSome) →
              (e.ring c.job c.ring).st = .active)

/-- COMMAND_RELEASE of a WAITING command whose ring is ACTIVE, job RUNNING, ORDERED and JOB_DRAIN
conditions hold, waits are met in time or timed out, and which the slot admits: it is READY, at its
release instant at the earliest, firm work of the slot when it is TIMED and the anchor job's, and
memory, jobs and rings are as they were. WAIT_TIMEOUT of a WAITING command with a deadline and an
enabled wait unmet by then: at the deadline plus TT_SETTLE each such wait is marked timed out and
counted, the status rises to 0x03 with the deadline as DETAIL, and the command waits on, or with
TO_SKIP retires. (R42, R49, R52, R53, R87, R88, R89) -/
def Obligations.WaitsReleaseAndTimeOut : Prop :=
  (∀ (s : State) (k t : Nat) (c : Cmd), let d := s.dev
      d.cmd? k = some c → c.st = .waiting → d.releaseInstant c = some t → (d.job c.job).st = .running →
      (d.ring c.job c.ring).st = .active → d.orderedOk k c = true → d.drained k c = true → d.slotAllows c = true →
      (c.w0En = true → c.to0 = true ∨ waitMet (d.waitDeadline c) c.met0 = true) →
      (c.w1En = true → c.to1 = true ∨ waitMet (d.waitDeadline c) c.met1 = true) →
      Acts (.commandRelease k) s fun e => e.cmd? k = some ((d.advance t).markReleased { c with st := .ready })
        ∧ e.now = max d.now t
        ∧ (∀ i, i ≠ k → e.cmd? i = d.cmd? i) ∧ e.mem = d.mem ∧ e.jobs = d.jobs ∧ e.rings = d.rings)
    ∧ ∀ (s : State) (k t : Nat) (c : Cmd), let d := s.dev
        let late0 : Bool := c.w0En && !c.to0 && !waitMet (some t) c.met0
        let late1 : Bool := c.w1En && !c.to1 && !waitMet (some t) c.met1
        d.cmd? k = some c → c.st = .waiting → (d.job c.job).st = .running → d.waitDeadline c = some t →
        (late0 = true ∨ late1 = true) →
        Acts (.waitTimeout k) s fun e =>
          let y := { c with to0 := c.to0 || late0, to1 := c.to1 || late1, toAt := t }.raise 0x03 t
          let w := (d.advance (t + d.cget Cat.TT_SETTLE)).bumpBy Cat.CP_WAIT_TIMEOUT (b2n late0 + b2n late1)
          (c.toSkip = false → e = w.setCmd k y) ∧ (c.toSkip = true → e = w.retireHeld k y)

/-- DESCRIPTOR_FETCH of a ring that is ACTIVE, of a RUNNING job, with an announced entry not pushed,
no refetch pending, room, and ring memory that takes requests: where the entry is mapped, holds no
poisoned line and carries the ring's PHASE, it is a new held command with the next RING_SEQ and the
head moves on, its phase flipping at the wrap; a fault retires it with 0x11; a wrong PHASE leaves
the head and counts a try. PHASE_REFETCH, with room, tries again 1 us after that fetch, and after
CP_PHASE_RETRY tries the descriptor retires as malformed. (R76, R78, R79, R80, R82, R501) -/
def Obligations.RingsFetchTheirDescriptors : Prop :=
  (∀ (s : State) (at_ j q : Nat), let d := s.dev.advance at_; let r := d.ring j q; let va := r.baseVa + 64 * r.head
      (d.job j).st = .running → r.st = .active → r.head ≠ r.tail → r.phaseTries = 0 → d.roomToFetch j q = true →
      d.headServed j q = true → Tbl.find? r.pushed r.head = none →
        ((d.xlate j va false).isSome → d.jbad j va 64 = [] → bit (d.jnat j va 64) 0 = r.phase →
          Acts (.descriptorFetch at_ j q) s fun e =>
            e = (d.holdDesc j q (d.jnat j va 64)).takePushed j q r.pushed.length)
        ∧ ((d.xlate j va false).isSome → d.jbad j va 64 = [] → bit (d.jnat j va 64) 0 ≠ r.phase →
          Acts (.descriptorFetch at_ j q) s fun e => e = d.setRing j q { r with phaseTries := 1, fetchedAt := d.now })
        ∧ (d.xlate j va false = none → Acts (.descriptorFetch at_ j q) s fun e =>
            e = ((d.xfault j va).advanceHead j q).finish { newCmd j q r.seq 0 with status := 0x11, detail := va }))
    ∧ (∀ (s : State) (j q : Nat), let r := s.dev.ring j q; let d := s.dev.advance (r.fetchedAt + 8000)
        let va := r.baseVa + 64 * r.head
        (d.job j).st = .running → r.st = .active → r.phaseTries ≠ 0 → s.dev.roomToFetch j q = true →
          s.dev.headServed j q = true → (d.xlate j va false).isSome → d.jbad j va 64 = [] →
          (bit (d.jnat j va 64) 0 = r.phase → Acts (.phaseRefetch j q) s fun e =>
            e = (d.holdDesc j q (d.jnat j va 64)).takePushed j q r.pushed.length)
          ∧ (bit (d.jnat j va 64) 0 ≠ r.phase → r.phaseTries < d.cget Cat.CP_PHASE_RETRY →
            Acts (.phaseRefetch j q) s fun e => 
              e = d.setRing j q { r with phaseTries := r.phaseTries + 1, fetchedAt := d.now })
          ∧ (bit (d.jnat j va 64) 0 ≠ r.phase → d.cget Cat.CP_PHASE_RETRY ≤ r.phaseTries →
            Acts (.phaseRefetch j q) s fun e => e = ((d.advanceHead j q).bump (Cat.RING_PHASE_ERR j q)).finish
              { newCmd j q r.seq (d.jnat j va 64) with status := 0x30, detail := 0 }))
    ∧ ∀ (d : Dev) (j q desc : Nat), let r := d.ring j q
        ∃ e : Dev, d.holdDesc j q desc = e.promote j q ∧ e.cmd? d.nextCmd = some (newCmd j q r.seq desc)
          ∧ (∀ k, k ≠ d.nextCmd → e.cmd? k = d.cmd? k) ∧ e.nextCmd = d.nextCmd + 1
          ∧ e.ring j q = { r with
              head := if r.head + 1 = r.size then 0 else r.head + 1,
              phase := if r.head + 1 = r.size then !r.phase else r.phase, seq := (r.seq + 1) % 2 ^ 32, phaseTries := 0,
              pushed := Tbl.erase r.pushed r.head }
          ∧ e.mem = d.mem ∧ e.jobs = d.jobs

/-- With the data plane released and the port's link up: a doorbell to a ring that is not ACTIVE, or
from a port that may not ring it, is counted in HOST_DB_DROP and sets error cause 0; one whose tail
lies outside the ring, or would announce more than it holds, is counted in HOST_DB_BAD and sets
cause 1; else the tail is the new one. A push of 64 bytes in one packet at offset 0x40 to an open
ring that is not sealed, with room, stores the descriptor for its entry and moves the tail; of
another form it is counted in HOST_PUSH_BAD and sets cause 2. An error cause that was 0 is set, and
raises the port's vector when enabled: a message leaves, or, masked, its pending bit is set. (R78,
R433, R435, R436) -/
def Obligations.DoorbellsAndPushes : Prop :=
  ∀ (s : State) (at_ port j q : Nat), let d := s.dev.advance at_; let r := d.ring j q
    d.released = true → d.hostLost port = false →
      (∀ v : Word, let tail := v.toNat % 2 ^ 16
        (d.doorbellOpen port j q = false → Acts (.ringDoorbell at_ port j q v) s fun e =>
          e = (d.bump (Cat.HOST_DB_DROP port)).hostErr port 0)
        ∧ (d.doorbellOpen port j q = true →
            (r.size ≤ tail ∨ r.size ≤ (tail + r.size - r.tail) % r.size + r.unfetched) →
            Acts (.ringDoorbell at_ port j q v) s fun e => e = (d.bump (Cat.HOST_DB_BAD port)).hostErr port 1)
        ∧ (d.doorbellOpen port j q = true → tail < r.size → (tail + r.size - r.tail) % r.size + r.unfetched < r.size →
            Acts (.ringDoorbell at_ port j q v) s fun e =>
              (e.ring j q) = { r with tail := tail } ∧ e.mem = d.mem ∧ e.jobs = d.jobs ∧ e.cmds = d.cmds))
      ∧ (∀ (off tlps : Nat) (data : List Byte), (off ≠ 0x40 ∨ tlps ≠ 1 ∨ data.length ≠ 64) →
          Acts (.ringPush at_ port j q off tlps data) s fun e => e = (d.bump (Cat.HOST_PUSH_BAD port)).hostErr port 2)
      ∧ (∀ data : List Byte, data.length = 64 → d.doorbellOpen port j q = true → d.cget (Cat.SEC_RING_SEALED j) ≠ 1 →
          r.unfetched + 1 < r.size →
          Acts (.ringPush at_ port j q 0x40 1 data) s fun e =>
            let w := d.setRing j q { r with pushed := Tbl.set r.pushed r.tail (leNat data), tail := (r.tail + 1) % r.size }
            (r.head ≠ r.tail → e = w) ∧ (r.head = r.tail → e = w.takePushed1 j q))
      ∧ ∀ b, (bit (d.host port).errCause b = true → d.hostErr port b = d)
          ∧ (bit (d.host port).errCause b = false →
              ((d.hostErr port b).host port).errCause = (d.host port).errCause + 2 ^ b
                ∧ ((d.host port).errEn = true →
                    bit (Tbl.getD (d.host port).msix (d.host port).errVector msixReset) 96 = false →
                    Out.msix port (d.host port).errVector ∈ (d.hostErr port b).out)
                ∧ ((d.host port).errEn = true →
                    bit (Tbl.getD (d.host port).msix (d.host port).errVector msixReset) 96 = true →
                    Tbl.getD ((d.hostErr port b).host port).pba (d.host port).errVector false = true))

/-- COPY with a well-formed argument block begins and ends at the unit that R252 gives it, whose
formatter acquires for the job, and writes, for every row and line in order, the line at the source
to the line at the destination, a poisoned source line as zeros and counted; it stops at the first
line that faults, waits at one whose memory takes no requests, and goes on there when told that
accesses complete; a malformed block refuses it. SLIP with a well-formed, permitted block is RUNNING
and starts at once on every unit, in order, that has room, and the others stay units to come; its
start on a unit with room writes the 256-byte parameter block and the program to the unit's scratch
and queues one slip there. (R22, R24, R70, R84, R85, R91, R220, R239, R252) -/
def Obligations.CopyAndSlipCommands : Prop :=
  RingOp .copy 1 0 (fun d e k c =>
      let n := d.jnat c.job c.argsVa 64
      let p := d.cmdPoison k (d.jbad c.job c.argsVa 64)
      (c.argsLen ≠ 64 → e = d.workRefused k 0x30 376)
        ∧ (c.argsLen = 64 → d.firstFault c.job c.argsVa 64 false = none →
            (copyOk n = false → e = p.workRefused k 0x30 0)
              ∧ (copyOk n = true → let u := p.copyUnit c.job (fld n 0 52) (fld n 64 52)
                  e = (((if u = 0x90 then p else p.acquire u c.job).atUnit k u).copyLines k c.job
                  ((List.range (fld n 160 16)).map fun r => (List.range (fld n 128 24 / 64)).map fun i =>
                    ((fld n 0 52 + r * fld n 192 40 + 64 * i) % 2 ^ 52,
                      (fld n 64 52 + r * fld n 256 40 + 64 * i) % 2 ^ 52)).flatten))))
    ∧ (∀ (d : Dev) (k j : Nat), d.copyLines k j [] = d.workDone k)
    ∧ (∀ (d : Dev) (k j s t ps pt : Nat) (p q : Page) (rest : List (Nat × Nat)), d.xlate j s false = some (ps, p) →
        d.xlate j t true = some (pt, q) →
        let held : Prop := d.stalledAt ps = true ∨ d.stalledAt pt = true
        (¬ held → d.badLine ps = false → d.copyLines k j ((s, t) :: rest) = (d.wrLine pt (d.rd ps 64)).copyLines k j rest)
          ∧ (¬ held → d.badLine ps = true → d.copyLines k j ((s, t) :: rest)
              = ((d.cmdPoison k [ps]).wrLine pt ((d.cmdPoison k [ps]).rd ps 64)).copyLines k j rest)
          ∧ (held → d.copyLines k j ((s, t) :: rest) = d.updCmd k fun c => { c with copyLeft := (s, t) :: rest }))
    ∧ (∀ (s : State) (at_ k : Nat) (c : Cmd), (s.dev.advance at_).cmd? k = some c →
        Acts (.memoryAccessComplete at_ (.copy k)) s fun d => let e := s.dev.advance at_
          (c.copyLeft = [] → d = e)
            ∧ (c.copyLeft ≠ [] → d = (e.setCmd k { c with copyLeft := [] }).copyLines k c.job c.copyLeft))
    ∧ (∀ (d : Dev) (k j s t : Nat) (rest : List (Nat × Nat)),
        (d.xlate j s false = none → d.copyLines k j ((s, t) :: rest) = (d.cmdFault k j s).workDone k)
          ∧ (∀ x, d.xlate j s false = some x → d.xlate j t true = none →
              d.copyLines k j ((s, t) :: rest) = (d.cmdFault k j t).workDone k))
    ∧ RingOp .slip 1 1 (fun d e k c =>
        let n := d.jnat c.job c.argsVa c.argsLen
        d.firstFault c.job c.argsVa c.argsLen false = none → c.argsLen = ceilDiv (320 + 8 * fld n 128 16) 64 * 64 →
        (fld n 0 64 ≠ 0 → slipPermitted (d.job c.job) n = true) →
          let p := d.cmdPoison k (d.jbad c.job c.argsVa c.argsLen)
          (slipArgsOk (p.job c.job) n = false → e = p.workRefused k 0x30 0)
            ∧ (slipArgsOk (p.job c.job) n = true →
                e = (setBits 72 (slipUnits n)).foldl (fun d u => d.startSlipIfFits k u)
                  (p.updCmd k fun c => { c with unitsLeft := slipUnits n })))
    ∧ (∀ (d : Dev) (k u : Nat) (c : Cmd), d.cmd? k = some c → c.cls = 1 →
        (bit c.unitsLeft u = false ∨ d.slipFits u k (fld (d.slipArgs c) 512 2048) = false → d.startSlipIfFits k u = d)
          ∧ (bit c.unitsLeft u = true → d.slipFits u k (fld (d.slipArgs c) 512 2048) = true →
              d.startSlipIfFits k u = d.startSlipPart k c u))
    ∧ ∀ (s : State) (at_ k u : Nat) (c : Cmd), let d := s.dev.advance at_
        d.cmd? k = some c → c.cls = 1 → c.st = .running → bit c.unitsLeft u = true → d.slotAllows c = true →
        d.slipFits u k (fld (d.slipArgs c) 512 2048) = true →
        Acts (.commandStartOnUnit at_ k u) s fun e =>
          let n := d.slipArgs c
          let b := ((d.acquire u c.job).setCmd k { c with unitsLeft := c.unitsLeft - 2 ^ u, unitsOn := c.unitsOn + 2 ^ u }).traceBegin
            c u 0xF
          e = (((b.wr (unitScratch u + fld n 104 24) (leBytes 256 (fld n 512 2048))).wr (unitScratch u + fld n 80 24)
            (leBytes (8 * fld n 128 16) (n / 2 ^ 2560))).postRun u k (fld n 512 2048) (fld n 80 24)).engineDue u []

/-- With a well-formed argument block: SEND whose source is mapped posts one transfer of WRITEs and,
when it seals, a SEAL_WRITE; CONTRIBUTE whose pieces are well formed, name elements that the shards
have, and are mapped, posts or adds each in order; REDUCE of a step that no REDUCE of the job runs
for, nor for the one two before, zeroes the buffer of every shard, arms it for the step, and runs
until its close. A malformed block ends each with 0x30, one that is not permitted with 0x31. While
the module is HELD its anchor job's CONTRIBUTE contributes nothing. (R58, R357, R358, R359, R363,
R365, R366, R367) -/
def Obligations.CollectiveCommands : Prop :=
  ArgsOp .send 2 0 (fun c => c.argsLen = 64) (fun d e k c n =>
      (sendOk n = false → e = d.workRefused k 0x30 0)
        ∧ (sendOk n = true → d.firstFault c.job (fld n 0 52) (fld n 408 40) false = none →
            e = (d.postXfer k c.job (fld n 357 19) (fld n 376 32) (bit n 356) false
              ((List.range (fld n 408 40 / 64)).map fun i => fld n 0 52 + 64 * i)
              (sendItems (d.cget Cat.NET_MAELGO_MAX_PAYLOAD) n)).checkSent k)
        ∧ (∀ va, sendOk n = true → d.firstFault c.job (fld n 0 52) (fld n 408 40) false = some va →
            e = (d.cmdFault k c.job va).workDone k))
    ∧ ArgsOp .contribute 2 1 (fun _ => True) (fun d e k c n =>
        let count := fld n 496 16
        let fmt := fld n 460 4
        let ps := blockEntries n 64 32 count
        let ok : Prop := count ≠ 0 ∧ count ≤ 2044 ∧ fmt ≤ 2 ∧ fld n 0 460 = 0 ∧ ps.all pieceOk = true
        (c.argsLen ≠ 64 + 32 * count → e = d.workRefused k 0x30 376)
          ∧ (c.argsLen = 64 + 32 * count → ¬ ok → e = d.workRefused k 0x30 0)
          ∧ (c.argsLen = 64 + 32 * count → ok → ps.all (d.job c.job).localOk = false → e = d.workRefused k 0x31 0)
          ∧ (c.argsLen = 64 + 32 * count → ok → ps.all (d.job c.job).localOk = true →
              (∀ p ∈ ps, d.firstFault c.job (fld p 204 52) (fld p 72 32 * fmtBytes fmt) false = none) →
              let step := if fld n 464 32 = 0xFFFFFFFF then d.tt.step else fld n 464 32
              (d.absent c.job = false → e = (ps.foldl (fun d p => d.postPiece k c.job step fmt p) d).checkSent k)
                ∧ (d.absent c.job = true → e = d.checkSent k)))
    ∧ ArgsOp .reduce 2 2 (fun c => c.argsLen = 64) (fun d e k c n =>
        let j := c.job
        let step := fld n 480 32
        let ready : Prop := (d.job j).red.busy step = false ∧ d.cget (Cat.UPD_NORM_VA j) ≠ 0
          ∧ (bit n 431 = false → d.tt.st = .running ∧ j = d.anchor)
        (reduceOk d n = false → e = d.workRefused k 0x30 0)
          ∧ (reduceOk d n = true → ¬ ready → e = d.workRefused k 0x31 0)
          ∧ (reduceOk d n = true → ready →
              let a := (d.job j).red.shards.foldl (fun d kr => d.armFor j step kr.1 kr.2) d
              (∃ run : RedStep, (e.job j).red.runs = (a.job j).red.runs ++ [run] ∧ run.cmd = k ∧ run.step = step
                  ∧ run.byCount = bit n 431 ∧ run.vote = bit n 430 ∧ run.expect = fld n 423 7 ∧ run.slot = fld n 432 16
                  ∧ run.off = fld n 448 32 ∧ run.deadline = a.now + fld n 407 16 * 8192 ∧ run.start = a.now)
                ∧ (e.job j).red.closes = Tbl.erase (a.job j).red.closes step ∧ e.mem = a.mem
                ∧ (e.job j).red.shards = (a.job j).red.shards))
    ∧ ∀ (d : Dev) (j step k r : Nat), Tbl.find? (d.job j).red.shards k = some r → step < 2 ^ 32 →
        shardArmed (Tbl.getD ((d.armFor j step k r).job j).red.shards k 0) (shardBuf r step) = step
          ∧ (∀ i, i ≠ k → Tbl.getD ((d.armFor j step k r).job j).red.shards i 0 = Tbl.getD (d.job j).red.shards i 0)

/-- A contribution stamped s for step n: while the step's close is not decided it is added into the
step's buffer when that is armed for n, and else dropped and counted; afterwards, with s within
RED_GRACE of the close, the end of that window and the close of the next step not decided, and the
next step's own buffer armed, it is added there unless it holds a value that is not finite, and else
dropped. Each case has its own counter, and a stamp no later than a deadline that was decided
without it is counted as a late arrival. (R53, R362, R363, R364) -/
def Obligations.ContributionsAreDecidedByTheirStamp : Prop :=
  ∀ (d : Dev) (j k n s elem fmt : Nat) (data : List Byte),
    let x := d.job j
    let r := Tbl.getD x.red.shards k 0
    let els := elemsOf (fmtBytes fmt) data
    let finite := els.all (finiteElem fmt)
    let armed (m : Nat) : Prop := m ≠ 0xFFFFFFFF ∧ shardArmed r (shardBuf r m) = m
    let grace := d.cget (Cat.RED_GRACE j)
    let next? := Tbl.find? x.red.closes (n + 1)
    (Tbl.find? x.red.closes n = none → armed n →
        d.takeContrib j k n s elem fmt data
          = ((if finite then d else d.bump (Cat.RED_NONFINITE_IN j)).addInto j r n elem fmt els).bump (Cat.RED_ADDS j))
      ∧ (Tbl.find? x.red.closes n = none → ¬ armed n →
          d.takeContrib j k n s elem fmt data = d.bump (Cat.RED_NOT_ARMED j))
      ∧ (∀ c, Tbl.find? x.red.closes n = some c →
          let ended : Prop := c + grace + d.cget Cat.TT_SETTLE ≤ d.now
          let t := if s ≤ c ∨ (s ≤ c + grace ∧ ended) ∨ next?.any (fun c' => s ≤ c') = true then d.bump Cat.TIE_LATE_STAMP else d
          let next : Prop := s ≤ c + grace ∧ ¬ ended ∧ next? = none ∧ shardBuf1 r ≠ 0 ∧ armed (n + 1)
          (next → finite = true → d.takeContrib j k n s elem fmt data
              = (t.addInto j r (n + 1) elem fmt els).bump (Cat.RED_LATE_ADD j))
            ∧ (next → finite = false → d.takeContrib j k n s elem fmt data = t.bump (Cat.RED_LATE_NONFINITE j))
            ∧ (¬ next → d.takeContrib j k n s elem fmt data = t.bump (Cat.RED_LATE_DROP j)))

/-- REDUCE_CLOSE of a RUNNING REDUCE with a close: the time is at least the close plus TT_SETTLE,
the close of its step is recorded and its members are no longer counted, and it has ended, with 0x03
and the close as DETAIL when a count close came at its deadline; with a vote the step awaits its
result from then on unless that is recorded, and the root knows its close. VOTE_CLOSE of a vote
whose V is known: the time is at least V plus TT_SETTLE, and the step is voted with V and takes no
more ballots. VOTE_NO_RESULT of a step that awaits its result: at the timeout the step awaits no
more, the want is counted, and cause 7 of ALERT_CAUSE is set. (R282, R283, R294, R366, R367, R368,
R370, R371, R372) -/
def Obligations.ReductionCloseVoteAndResult : Prop :=
  (∀ (s : State) (k close : Nat) (c : Cmd) (r : RedStep), let d := s.dev
      let red := (d.job c.job).red
      d.cmd? k = some c → c.st = .running → red.runs.find? (fun x => x.cmd = k) = some r →
      d.closeOf r c.job = some close →
      Acts (.reduceClose k) s fun e =>
        e.now = max d.now (close + d.cget Cat.TT_SETTLE) ∧ Tbl.find? (e.job c.job).red.closes r.step = some close
          ∧ Tbl.find? (e.job c.job).red.counted r.step = none
          ∧ (r.vote = true → red.recorded.contains r.step = false →
              Tbl.find? (e.job c.job).red.awaiting r.step = some e.now)
          ∧ (r.vote = true → d.member c.job = d.voteRoot c.job → ∃ v : VoteSt,
              Tbl.find? (e.job c.job).red.votes r.step = some v ∧ v.rootClose = some (close, r.byCount))
          ∧ ∃ y : Cmd, e.cmd? k = some y ∧ y.st = .retiring ∧ y.done = true
            ∧ (r.byCount = false → y.status = c.status)
            ∧ (r.byCount = true → (∀ t, red.fullAt r = some t → r.deadline < t) → c.status < 3 → y.status = 3 ∧ y.detail = close)
            ∧ (∀ t, r.byCount = true → red.fullAt r = some t → t ≤ r.deadline → y.status = c.status))
    ∧ (∀ (s : State) (j step v : Nat) (t : VoteSt), Tbl.find? (s.dev.job j).red.votes step = some t →
        s.dev.voteV j t = some v →
        Acts (.voteClose j step) s fun e => e.now = max s.dev.now (v + s.dev.cget Cat.TT_SETTLE)
          ∧ Tbl.find? (e.job j).red.voted step = some v ∧ Tbl.find? (e.job j).red.votes step = none)
    ∧ ∀ (s : State) (j step t : Nat), j < 16 → Tbl.find? (s.dev.job j).red.awaiting step = some t →
        Acts (.voteNoResult j step) s fun e => e.now = max s.dev.now (t + s.dev.cget (Cat.RED_VOTE_TIMEOUT j))
          ∧ Tbl.find? (e.job j).red.awaiting step = none ∧ bit (e.cget Cat.ALERT_CAUSE) 7 = true
          ∧ e.cget (Cat.RED_VOTE_NO_RESULT j) = s.dev.cget (Cat.RED_VOTE_NO_RESULT j) + 1 ∧ e.mem = s.dev.mem

/-- A SWEEP, whatever its template: with a malformed block, or a directory that the device may not
use or that does not name its working copy, 0x30; a program whose units or enable are not given,
0x31; a stretch that is not mapped, 0x11 there, with nothing swept; else, where the vote applies,
with a vote record of another step 0x31, counted, and with the skip bit of its step no entry swept,
EXEC 0, counted, its early mark given; and else every entry is swept with the clip factor of its
norm index under templates 0 to 3 and DERIVE, or its update program started under template 15. The
second clause is what one element does. (R278, R279, R281, R282, R286, R288, R290, R292, R296) -/
def Obligations.SweepsAndTheirVote : Prop :=
  ArgsOp .sweep 3 0 (fun _ => True) (fun d0 e k c n =>
      let j := c.job
      let es := blockEntries n 64 64 (swEntries n)
      let vote := d0.cget (Cat.UPD_VOTE_VA j)
      let ok : Prop := swHeadOk n = true ∧ es.all (swEntryOk (d0.cget (Cat.UPD_NORM_COUNT j)) n) = true
        ∧ statesApart n es = true ∧ (swClipMode n = 0 ∨ vote ≠ 0)
      let given : Prop := swTemplate n = 15 → d0.cget (Cat.UPD_PROGRAM_EN j) ≠ 0 ∧ d0.programDies j es = true
      let votes : Prop := vote ≠ 0 ∧ swDerive n = false
      let d := d0.applyStep j n
      let rec_ := d.jnat j vote 64
      let agree : Prop := ∀ x ∈ es, enDir x ≠ 0 →
        dirOk (d.jnat j (enDir x) 64) = true ∧ dirCurVa (d.jnat j (enDir x) 64) = enWork x
      let clear : Prop := c.argsLen = 64 + 64 * swEntries n ∧ ok ∧ given ∧ d.sweepFault j n es = none ∧ agree
      (c.argsLen ≠ 64 + 64 * swEntries n → e = d0.workRefused k 0x30 376)
        ∧ (c.argsLen = 64 + 64 * swEntries n → ¬ ok → e = d0.workRefused k 0x30 0)
        ∧ (c.argsLen = 64 + 64 * swEntries n → ok → ¬ given → e = d0.workRefused k 0x31 0)
        ∧ (∀ va, c.argsLen = 64 + 64 * swEntries n → ok → given → d.sweepFault j n es = some va →
            e = (d.cmdFault k j va).workDone k)
        ∧ (c.argsLen = 64 + 64 * swEntries n → ok → given → d.sweepFault j n es = none → ¬ agree →
            e = d.workRefused k 0x30 0)
        ∧ (clear → votes → fld rec_ 480 32 ≠ swStep n → e = (d.bump (Cat.UPD_VOTE_MISMATCH j)).workRefused k 0x31 0)
        ∧ (clear → votes → fld rec_ 480 32 = swStep n → bit rec_ 479 = true →
            e = (((d.bump (Cat.UPD_STEP_SKIPPED j)).earlyMark j n).updCmd k fun c => { c with exec := false }).workDone k)
        ∧ (clear → (votes → fld rec_ 480 32 = swStep n ∧ bit rec_ 479 = false) →
            let idx := (es.map enNorm).dedup
            let p := if vote ≠ 0 ∧ swDerive n = false
                ∧ (idx.any fun i => fld (d.normRec j i) 224 32 = swStep n && bit (d.normRec j i) 0) = true
              then d.bump (Cat.UPD_ABSENT_NONFINITE j) else d
            let clips : Tbl Nat := idx.foldl (fun t i => Tbl.set t i (p.clipFor j n i).v.toNat) []
            let q := p.countCalcs (64 + (p.entryDie j ((es[0]?).getD 0)).1) (idx.map (p.clipFor j n))
            let w := if swDerive n = false ∧ (clips.any fun kv => (decodeF 0 kv.2).lt (f32 f32One)) = true
              then q.bump (Cat.UPD_CLIPPED_STEPS j) else q
            (swTemplate n = 15 → swDerive n = false → e = w.startRun k j (w.cget (Cat.UPD_APPLIED j)) clips es)
              ∧ (swTemplate n ≠ 15 ∨ swDerive n = true →
                  e = (w.sweepAll k j n (w.cget (Cat.UPD_APPLIED j))
                    (fun i => BitVec.ofNat 32 (Tbl.getD clips i f32One.toNat)) es).workDone k)))
    ∧ ∀ (s : SwEntry) (w g m r rf cf : Word),
        let lr : Word := swWord s.n 480 ^^^ 0x80000000
        let b1 := swWord s.n 448
        let b2 := swWord s.n 416
        let mul (x y : Word) : Word := (f32Mul x y).bits
        let add (x y : Word) : Word := (f32Add x y).bits
        let mix (b x y : Word) : Word := add (mul b x) (mul (f32Sub f32One b).bits y)
        let x := s.step w g m r rf cf
        (swTemplate s.n = 0 →
          x.m.v = mix b1 m g ∧ x.r.v = (f32Sqrt (mix b2 (mul r r) (mul g g))).bits
            ∧ x.d.v = mul lr (add (f32Div (f32Div (mix b1 m g) s.b1).bits
                (add (f32Sqrt (f32Div (mix b2 (mul r r) (mul g g)) s.b2).bits).bits (swWord s.n 384))).bits (mul s.lambda w)))
          ∧ (swTemplate s.n = 1 → x.m.v = mix b1 m g
            ∧ (s.t = 1 → x.d.v = 0)
            ∧ (s.t ≠ 1 → x.d.v = mul lr (add (f32Div (f32Div (mix b1 m g) s.b1).bits
                (add (f32Sqrt (f32Div (f32Div (mul rf cf) s.meanR).bits s.b2).bits).bits (swWord s.n 384))).bits
                (mul s.lambda w))))
          ∧ (swTemplate s.n = 2 → x.m.v = mix b2 m g ∧ x.d.v = mul lr (add (signOf (mix b1 m g)) (mul s.lambda w)))
          ∧ (swTemplate s.n = 3 → x.m.v = add (mul b1 m) g ∧ x.d.v = mul lr (add (add (mul b1 m) g) (mul s.lambda w)))

/-- With a well-formed block: a local GATHER whose directory has its size is served the version that
R300 selects, by copying it, writing step and stamp, and ending with 0x05 when the step is another,
or waits while there is none; a remote one posts its read requests; EXPORT, mapped throughout,
writes one record of header, ciphertext, tag, digest and signature, and counts it; IMPORT whose
checks of R308 all hold writes its rows and ends, and one that fails a check writes nothing, counts
the refusal with its reason, and ends with 0x31. Malformed blocks end with 0x30, and what is not
mapped with 0x11 there. (R299, R300, R301, R304, R305, R307, R308, R309) -/
def Obligations.GathersExportsAndImports : Prop :=
  ArgsOp .gather 3 1 (fun c => c.argsLen = 64) (fun d e k c n =>
      let j := c.job
      let ok : Prop := fld n 0 224 = 0 ∧ fld n 460 52 % 64 = 0 ∧ (bit n 356 = true ∨ fld n 408 52 = 0)
      let dir := d.jnat j (fld n 408 52) 64
      (¬ ok → e = d.workRefused k 0x30 0)
        ∧ (∀ va, ok → bit n 356 = true → d.firstFault j (fld n 408 52) 64 false = some va →
            e = (d.cmdFault k j va).workDone k)
        ∧ (ok → bit n 356 = true → d.firstFault j (fld n 408 52) 64 false = none →
            let g := if d.versionLate dir (fld n 324 32) d.stamp = true then d.bump Cat.TIE_LATE_STAMP else d
            (dirOk dir = false → e = d.workRefused k 0x30 0)
              ∧ (dirOk dir = true → dirBytes dir ≠ fld n 224 48 → e = d.workEnds k 0x31 0)
              ∧ (dirOk dir = true → dirBytes dir = fld n 224 48 → e = g.gatherLocal k j n d.stamp))
        ∧ (ok → bit n 356 = false → d.firstFault j (fld n 460 52) (fld n 224 48) true = none →
            d.firstFault j (fld n 272 52) 16 true = none → e = (d.gatherRemote k j n).checkSent k)
        ∧ (∀ va, ok → bit n 356 = false → (d.firstFault j (fld n 460 52) (fld n 224 48) true = some va
              ∨ (d.firstFault j (fld n 460 52) (fld n 224 48) true = none ∧ d.firstFault j (fld n 272 52) 16 true = some va)) →
            e = (d.cmdFault k j va).workDone k))
    ∧ (∀ (d : Dev) (k j n s : Nat), let dir := d.jnat j (fld n 408 52) 64
        let want := fld n 324 32
        let kept : Prop := dirPrevValid dir = true ∧ want = dirPrevStep dir ∧ d.versionLate dir want s = false
          ∧ ∀ x, d.dirClose dir = some x → s ≤ x
        let serve (v : Version) : Dev := { d.serveLocal k j n v with gathers := d.gathers.filter fun g => g.1 ≠ k }
        (kept → d.gatherLocal k j n s = serve { va := dirPrevVa dir, step := dirPrevStep dir, stamp := dirPrevStamp dir })
          ∧ (¬ kept → dirUpdating dir = false →
              d.gatherLocal k j n s = serve { va := dirCurVa dir, step := dirCurStep dir, stamp := dirCurStamp dir })
          ∧ (¬ kept → dirUpdating dir = true → (∀ g ∈ d.gathers, g.1 ≠ k) →
              d.gatherLocal k j n s = { d with gathers := d.gathers ++ [(k, s)] }))
    ∧ (∀ (d : Dev) (k j n : Nat) (v : Version), d.firstFault j v.va (fld n 224 48) false = none →
        d.firstFault j (fld n 460 52) (fld n 224 48) true = none → d.firstFault j (fld n 272 52) 16 true = none →
        let len := fld n 224 48
        let p := d.cmdPoison k (d.jbad j v.va len)
        let w := (p.jwr j (fld n 460 52) (p.jrd j v.va len)).jwr j (fld n 272 52)
          (leBytes 16 (v.step % 2 ^ 32 * 2 ^ 64 + v.stamp))
        (v.step = fld n 324 32 → d.serveLocal k j n v = w.workDone k)
          ∧ (v.step ≠ fld n 324 32 → d.serveLocal k j n v = (w.bump (Cat.UPD_VERSION_SKEW j)).workEnds k 0x05 v.step))
    ∧ ArgsOp .exportRec 6 0 (fun c => c.argsLen = 128) (fun d e k c n =>
        let j := c.job
        let rows := xpRows n
        let len := xpRowCount n * xpRowBytes n
        (xpOk false n = false → e = d.workRefused k 0x30 0)
          ∧ (∀ va, xpOk false n = true → rows.findSome? (fun r => d.firstFault j r.1 r.2 false) = some va →
              e = (d.cmdFault k j va).workDone k)
          ∧ (∀ va, xpOk false n = true → (∀ r ∈ rows, d.firstFault j r.1 r.2 false = none) →
              d.firstFault j (xpRecord n) (rcBytes len (xpSign n)) true = some va → e = (d.cmdFault k j va).workDone k)
          ∧ (xpOk false n = true → (∀ r ∈ rows, d.firstFault j r.1 r.2 false = none) →
              d.firstFault j (xpRecord n) (rcBytes len (xpSign n)) true = none →
              let ks := d.jobKey j
              let p := d.cmdPoison k ((rows.map fun r => d.jbad j r.1 r.2).flatten)
              let h := recordHeader n (p.job j).tenant (p.cget (Cat.UPD_APPLIED j)) d.stamp len ks.gen (d.expIv ks)
                (if xpSign n then (p.attest []).length else 0)
              let w := p.jwr j (xpRecord n) (recordBytes h ks.expKey (d.expIv ks)
                ((rows.map fun r => d.jrd j r.1 r.2).flatten) (if xpSign n then some p.attest else none))
              let slot := (w.job j).keySlot
              let keys := Tbl.mapVals (fun i x => if i = slot then { x with exported := x.exported + 1 } else x) w.keys
              e = (({ w with keys := keys } : Dev).bump (Cat.EXP_RECORDS j)).workDone k))
    ∧ ∀ sig : Bool, ArgsOp (fun at_ k => .importRec at_ k sig) 6 1 (fun c => c.argsLen = 128) (fun d e k c n =>
          let j := c.job
          let h := d.jnat j (xpRecord n) 128
          let ks := d.jobKey j
          let tenant := (d.job j).tenant
          let size := rcBytes (rcLen h) (rcSigned h)
          let refused (d : Dev) (why : Nat) : Dev :=
            ((d.bump (Cat.EXP_IMPORT_REJECT j)).cset (Cat.EXP_LAST_REJECT j) why).workEnds k 0x31 0
          let mine : Prop := rcTenant h = tenant ∧ rcKeyGen h = ks.gen
          (xpOk true n = false → e = d.workRefused k 0x30 0)
            ∧ (∀ va, xpOk true n = true → d.firstFault j (xpRecord n) 128 false = some va → e = (d.cmdFault k j va).workDone k)
            ∧ (xpOk true n = true → d.firstFault j (xpRecord n) 128 false = none → rcTenant h ≠ tenant → e = refused d 1)
            ∧ (xpOk true n = true → d.firstFault j (xpRecord n) 128 false = none → rcTenant h = tenant → rcKeyGen h ≠ ks.gen →
                e = refused d 2)
            ∧ (∀ va, xpOk true n = true → d.firstFault j (xpRecord n) 128 false = none → mine →
                d.firstFault j (xpRecord n) size false = some va → e = (d.cmdFault k j va).workDone k)
            ∧ (xpOk true n = true → d.firstFault j (xpRecord n) 128 false = none → mine →
                d.firstFault j (xpRecord n) size false = none →
                let p := d.cmdPoison k (d.jbad j (xpRecord n) size)
                let r := readRecord ks.expKey (p.jrd j (xpRecord n) size)
                (∀ why, importReason n h tenant ks.gen r.digestOk sig r.tagOk = some why → e = refused p why)
                  ∧ (importReason n h tenant ks.gen r.digestOk sig r.tagOk = none →
                      let ws := importWrites n h r.plain
                      (∀ va, ws.findSome? (fun w => p.firstFault j w.1 w.2.length true) = some va →
                          e = (p.cmdFault k j va).workDone k)
                        ∧ ((∀ w ∈ ws, p.firstFault j w.1 w.2.length true = none) →
                          e = (ws.foldl (fun d w => d.jwr j w.1 w.2) p).workDone k))))

/-- The checks before an entry's own: with no such session BAD_TYPE, or BUSY during a long
operation, and TIE_LATE_STAMP rises when an idle timeout closed the session though the request is
stamped in time; a request not stamped after the session's idle period restarts it; during a long
operation BUSY; a malformed header or another transport's session BAD_TYPE; in recovery mode what it
does not let through DENIED; a protected request without a channel DENIED, and one with another
handle, another counter or a tag that does not verify DENIED, its channel closed and counted; else
the channel takes the counter; an entry that is not there NO_ENTRY; another job's DENIED; a wrong
TYPE BAD_TYPE. For a write that passes those: a read-only or already written write-once entry
READ_ONLY, without the rights DENIED, an expert entry at level 0 EXPERT_REQUIRED, a value out of
range BAD_TYPE; each is answered on the device as the earlier checks left it. (R52, R53, R414, R442,
R443, R445, R446, R448, R452, R456) -/
def Obligations.CatalogueChecksInOrder : Prop :=
  (∀ (d : Dev) (r : Req) (write : Bool) (index field : Nat) (v : List Byte),
      (d.session? r.sess = none → d.checkHead r write index field v =
          ((match Tbl.find? d.expired r.sess with
            | some t => if r.at_ ≤ t then d.bump Cat.TIE_LATE_STAMP else d
            | none => d), some (if d.long.isSome then stBusy else stBadType)))
        ∧ ∀ s : Session, d.session? r.sess = some s →
            let s1 : Session := if s.lastAct + d.cget Cat.SESS_IDLE_TIMEOUT * 8000000 < r.at_ then s else { s with lastAct := d.now }
            let d1 := d.setSession r.sess s1
            let head : Prop := r.rsv = 0 ∧ 1 ≤ r.typ ∧ r.typ ≤ 13 ∧ s.transport = r.transport
            let alive : Prop := d.boot.recovery = true → recoveryAllows write index field = true
            let good (p : Prot) (c : Chan) : Prop :=
              p.chan = c.handle ∧ p.ctr = c.ctr + 1 ∧ c.verifies r p (b2n write) index field v = true
            let passes (d2 : Dev) : Prop := (r.prot = none ∧ d2 = d1) ∨ ∃ p c, r.prot = some p ∧ s.chan = some c ∧ good p c
              ∧ d2 = d1.setSession r.sess { s1 with chan := some { c with ctr := p.ctr } }
            (d.long.isSome = true → d.checkHead r write index field v = (d1, some stBusy))
              ∧ (d.long = none → ¬ head → d.checkHead r write index field v = (d1, some stBadType))
              ∧ (d.long = none → head → ¬ alive → d.checkHead r write index field v = (d1, some stDenied))
              ∧ (d.long = none → head → alive → r.prot ≠ none → s.chan = none →
                  d.checkHead r write index field v = (d1, some stDenied))
              ∧ (∀ p c, d.long = none → head → alive → r.prot = some p → s.chan = some c → ¬ good p c →
                  d.checkHead r write index field v = ((d1.setSession r.sess s1.dropChan).bump Cat.SEC_SESSION_FAIL, some stDenied))
              ∧ ∀ d2, d.long = none → head → alive → passes d2 →
                (catEntry index field = none → d.checkHead r write index field v = (d2, some stNoEntry))
                ∧ ∀ e : CatEntry, catEntry index field = some e →
                    let seen : Prop := ∀ j, e.jobOf index = some j → s.owner = true ∨ d.holdsKey s j = true
                    (¬ seen → d.checkHead r write index field v = (d2, some stDenied))
                      ∧ (seen → r.typ ≠ e.ty.code → d.checkHead r write index field v = (d2, some stBadType))
                      ∧ (seen → r.typ = e.ty.code → d.checkHead r write index field v = (d2, none)))
    ∧ ∀ (d d1 : Dev) (r : Req) (index field : Nat) (v : List Byte) (w : Writer) (own : Dev → Bool)
        (eff : Dev → WriteResult) (s : Session) (e : CatEntry),
        (d.advance r.at_).transportUp r.transport = true → (d.advance r.at_).checkHead r true index field v = (d1, none) →
        d1.session? r.sess = some s → catEntry index field = some e →
        let once : Prop := e.acc = .writeOnce ∧ d1.nv.ownerKey ≠ []
        (e.acc = .read ∨ once → catWrite r index field v w own eff d = d1.answer r stReadOnly 0 [] index field 1)
          ∧ (e.acc ≠ .read → ¬ once → d1.mayWrite s r e index field w = false →
              catWrite r index field v w own eff d = d1.answer r stDenied 0 [] index field 1)
          ∧ (e.acc ≠ .read → ¬ once → d1.mayWrite s r e index field w = true → e.expert = true → s.level = 0 →
              catWrite r index field v w own eff d = d1.answer r stExpert 0 [] index field 1)
          ∧ (e.acc ≠ .read → ¬ once → d1.mayWrite s r e index field w = true → (e.expert = true → s.level ≠ 0) →
              e.valueOk v = false → catWrite r index field v w own eff d = d1.answer r stBadType 0 [] index field 1)

/-- Answering a request counts it in CAT_REQUESTS, and in CAT_REFUSED unless it is OK; the answer
leaves the device with its session, REQ_ID, STATUS, BUSY_MS and value; on a mailbox whose response
fits, PENDING ends, DONE is set, the last status is the answer's, and the response page holds header
and value: in the clear for a request that was not protected or whose channel is closed (log entry
69), else under the session's channel with its next counter, header first, then ciphertext and tag;
the mailbox's vector is raised when it is enabled, or pends while it is masked; memory, jobs, rings
and held commands are as they were. (R414, R430, R444, R445, R447, R453, R454, R463) -/
def Obligations.AnswersAreCountedAndSent : Prop :=
  ∀ (d : Dev) (r : Req) (st busy : Nat) (v : List Byte) (index field op : Nat), let e := d.answer r st busy v index field op
    e.cget Cat.CAT_REQUESTS = d.cget Cat.CAT_REQUESTS + 1
      ∧ e.cget Cat.CAT_REFUSED = d.cget Cat.CAT_REFUSED + (if st = stOk then 0 else 1)
      ∧ Out.answer r.sess r.reqId st busy v ∈ e.out ∧ e.jobs = d.jobs ∧ e.rings = d.rings ∧ e.cmds = d.cmds
      ∧ (∀ p m msg, r.transport = .mbox p m →
          let b := Tbl.getD (d.host p).mboxes m Mailbox.empty
          let w := Tbl.getD (d.host p).msix b.vector msixReset
          let shown : Prop := Tbl.getD (e.host p).mboxes m Mailbox.empty
              = { b with pending := false, done := true, lastStatus := st, rsp := msg }
            ∧ e.mem = d.mem
            ∧ (b.irqEn = true → bit w 96 = false → Out.msix p b.vector ∈ e.out)
            ∧ (b.irqEn = true → bit w 96 = true → Tbl.getD (e.host p).pba b.vector false = true)
          (v.length ≤ 4064 → r.prot = none ∨ (∀ s, d.session? r.sess = some s → s.chan = none) →
              msg = leBytes 32 (answerHeader r st busy v.length index field op false none) ++ v → shown)
            ∧ ∀ s c, v.length ≤ 4048 → r.prot ≠ none → d.session? r.sess = some s → s.chan = some c →
                let h := leBytes 32 (answerHeader r st busy v.length index field op false (some (c.handle, c.ctrOut + 1)))
                let x := gcmSeal (c.key false) (c.iv false (c.ctrOut + 1)) h v
                msg = h ++ x.1 ++ x.2 → shown ∧ e.session? r.sess = some { s with chan := some { c with ctrOut := c.ctrOut + 1 } })

/-- JOB_START of a job that is CREATED or STOPPED: without a tier 1 grant to be had it is DENIED;
with a table that fails its check BAD_TYPE; else OK, and the job is RUNNING. JOB_STOP of a RUNNING
job is OK: it is STOPPED when no command of it is in flight, else STOPPING. JOB_TEARDOWN of a
CREATED or STOPPED job is OK: its commands, rings, connections, pages and marks are gone and it is
in TEARDOWN; TEARDOWN_COMPLETE, with no region of it left, frees the slot. In any other state each
is DENIED and changes nothing. (R73, R74, R99, R215, R258, R296, R359, R471) -/
def Obligations.JobControl : Prop :=
  (∀ j, WriteOp (.jobStart · j) (0x2100 + j) 2 (leBytes 1 1) .byTable (fun _ => j < 16) (fun d _ e st =>
      ((d.job j).isStopped = false → st = stDenied ∧ e = d)
        ∧ ((d.job j).isStopped = true → let fresh : Bool := (d.job j).st = .created || (d.job j).t1Stale
            (fresh = true → d.grantT1 j = none → st = stDenied ∧ e = d.lastStatus j 0x21 0)
              ∧ ∀ g, (if fresh then d.grantT1 j else some d) = some g →
                  let tables : Prop := g.statTableOk j = true ∧ g.traceRingsOk j = true ∧ g.updateTablesOk j = true
                  let experts : Prop := g.placementOn j = true → g.expertTableOk j = true
                  (¬ tables → st = stBadType ∧ e = d)
                    ∧ (tables → ¬ experts → st = stBadType ∧ e = d.bump Cat.NMU_TABLE_REJECT)
                    ∧ (tables → experts → g.shardTableOk j = false → st = stBadType ∧ e = d.bump Cat.RED_TABLE_REJECT)
                    ∧ (tables → experts → g.shardTableOk j = true → st = stOk ∧ (e.job j).st = .running))))
    ∧ (∀ j, WriteOp (.jobStop · j) (0x2100 + j) 2 (leBytes 1 2) .byTable (fun _ => j < 16) (fun d _ e st =>
        ((d.job j).st ≠ .running → st = stDenied ∧ e = d)
          ∧ ((d.job j).st = .running → st = stOk ∧ (e.job j).st =
              if d.cmds.any (fun kc => kc.2.job = j && kc.2.inFlight) then .stopping else .stopped)))
    ∧ (∀ j, WriteOp (.jobTeardown · j) (0x2100 + j) 2 (leBytes 1 3) .byTable (fun _ => j < 16) (fun d _ e st =>
        ((d.job j).isStopped = false → st = stDenied ∧ e = d)
          ∧ ((d.job j).isStopped = true → st = stOk
              ∧ e.job j = { Job.empty with st := .teardown, tenant := (d.job j).tenant, keySlot := (d.job j).keySlot }
              ∧ (∀ kc ∈ e.cmds, kc.2.job ≠ j) ∧ (∀ kc ∈ e.net.conns, kc.2.job ≠ j)
              ∧ (∀ q, q < 64 → e.ring j q = Ring.empty)
              ∧ (∀ i q, i ≠ j → q < 64 → e.ring i q = d.ring i q))))
    ∧ (∀ (s : State) (at_ j : Nat), let d := s.dev.advance at_
        (d.job j).st = .teardown → d.regionsOf j = 0 →
        Acts (.teardownComplete at_ j) s fun e => e.job j = Job.empty ∧ (∀ i, i ≠ j → e.job i = d.job i) ∧ e.mem = d.mem)

/-- RING_CONFIG with a good record discards the ring's held commands and makes it ACTIVE at entry 0
with the record. RING_RESTART of a STOPPED ring, and of a HALTED one after its halted commands are
abandoned, makes it ACTIVE and goes on with the entries pushed; RING_RESUME of a HALTED ring makes
it ACTIVE and its halted commands RUNNING, and a part whose work has ended meanwhile ends;
RING_RESET, with the job stopped and the ring not IDLE, empties it. In other states each is DENIED.
SEC_JOB_CREATE on a channel that holds the key slot makes the FREE job slot CREATED, bound to the
slot and its tenant, with no step rolled yet, and answers its number. (R76, R77, R78, R81, R93,
R157, R254, R417) -/
def Obligations.RingsAreConfiguredAndControlled : Prop :=
  (∀ j q rec_, WriteOp (.ringConfig · j q rec_) (0x2200 + 64 * j + q) 0 rec_ .byTable
      (fun d => j < 16 && q < 64 && d.ringRecOk j rec_) (fun _ _ e st =>
        st = stOk ∧ e.ring j q = { Ring.empty with st := .active, record := leNat rec_ }
          ∧ ∀ kc ∈ e.cmds, ¬ (kc.2.job = j ∧ kc.2.ring = q)))
    ∧ (∀ j q, WriteOp (.ringRestart · j q) (0x2200 + 64 * j + q) 2 (leBytes 1 1) .byTable (fun _ => j < 16 && q < 64)
        (fun d _ e st => let x := d.ring j q
          (x.st ≠ .stopped → x.st ≠ .halted → st = stDenied ∧ e = d)
            ∧ (x.st = .stopped → st = stOk
                ∧ e = (((d.setRing j q { x with st := .active }).takePushed j q x.pushed.length).promote j q).cset
                    (Cat.RING_CONTROL j q) 1)
            ∧ (x.st = .halted → st = stOk
                ∧ let a := x.haltedCmds.foldl Dev.abandon d
                  let y := a.ring j q
                  e = (((a.setRing j q { y with st := .active, haltedCmds := [] }).takePushed j q y.pushed.length).promote
                    j q).cset (Cat.RING_CONTROL j q) 1)))
    ∧ (∀ j q, WriteOp (.ringResume · j q) (0x2200 + 64 * j + q) 2 (leBytes 1 2) .byTable (fun _ => j < 16 && q < 64)
        (fun d _ e st => let x := d.ring j q
          (x.st ≠ .halted → st = stDenied ∧ e = d)
            ∧ (x.st = .halted → st = stOk
                ∧ let a := x.haltedCmds.foldl (fun d k => (List.range 72).foldl (fun d u => d.checkPart u k)
                    ((d.markHalted k false).updCmd k fun c => { c with st := .running }))
                    (d.setRing j q { x with st := .active, haltedCmds := [] })
                  e = ((a.takePushed j q (a.ring j q).pushed.length).promote j q).cset (Cat.RING_CONTROL j q) 2)))
    ∧ (∀ j q, WriteOp (.ringReset · j q) (0x2200 + 64 * j + q) 2 (leBytes 1 3) .byTable (fun _ => j < 16 && q < 64)
        (fun d _ e st => let x := d.ring j q
          ((d.job j).isStopped = false ∨ x.st = .idle → st = stDenied ∧ e = d)
            ∧ ((d.job j).isStopped = true → x.st ≠ .idle → st = stOk
                ∧ e.ring j q = { Ring.empty with st := .active, record := x.record }
                ∧ ∀ kc ∈ e.cmds, ¬ (kc.2.job = j ∧ kc.2.ring = q))))
    ∧ ∀ (s : State) (r : Req) (slot job j : Nat) (d1 : Dev),
        Admits (s.dev.advance r.at_) r 0x7010 4 (leBytes 2 (slot % 256 + 256 * job)) .anyProtected
          (fun _ => slot < 64 && (job < 16 || job = 0xFF)) d1 →
        (d1.holdsSlot r slot = false → Acts (.secJobCreate r slot job) s fun e => e = d1.answer r stDenied 0 [] 0x7010 4 1)
        ∧ (d1.holdsSlot r slot = true → d1.freeJob job = none → Acts (.secJobCreate r slot job) s fun e =>
            e = d1.answer r stDenied 0 [] 0x7010 4 1)
        ∧ (d1.holdsSlot r slot = true → d1.freeJob job = some j → Acts (.secJobCreate r slot job) s fun d =>
            ∃ e : Dev, e.job j = { Job.empty with
                st := .created, tenant := ((Tbl.find? d1.keys slot).map (·.tenant)).getD 0, keySlot := slot }
              ∧ (∀ i, i ≠ j → e.job i = d1.job i) ∧ e.mem = d1.mem ∧ e.cget (Cat.NUM_LAST_ROLL_STEP j) = 0xFFFFFFFF
              ∧ d = (e.catTrace r none 0x7010 4 (leBytes 2 (slot % 256 + 256 * job))).answer r stOk 0 (leBytes 1 j) 0x7010 4 1)

/-- A Sync on another port, of another domain, from another source than the selected master, or at a
grandmaster is ignored. Else one whose time lies before count zero is only counted; else its offset
and its instant are recorded, and with "far" for an offset beyond TB_STEP_THRESH and "near" for one
within TB_LOCK_WINDOW: a far one, but in HOLDOVER a near one, steps the time to the master's, in
ACQUIRING with the count of near Syncs at 0, and the timetable is not RUNNING; any other leaves the
time, is to be slewed away, and corrects the frequency by no more than TB_SLEW_MAX. Then LOCKED
stays LOCKED; ACQUIRING counts near Syncs in a row and is LOCKED at TB_LOCK_COUNT; FREE_RUN, and
HOLDOVER with an offset that is not near, is ACQUIRING and counts from 0 (that HOLDOVER's Sync is
itself handled in ACQUIRING is the model's choice, log entry 62); and a near one in HOLDOVER is
LOCKED. An Announce on another port or of another domain is ignored; else it is recorded, its
master's earlier one replaced, or removed when the master is lost; where this module's own data set
is the best and it is no slave it is grandmaster and LOCKED; else the best is its master, and a
grandmaster goes to HOLDOVER. (R27, R31, R33, R34, R35, R36, R62) -/
def Obligations.TimebaseFollowsItsMaster : Prop :=
  (∀ (s : State) (at_ port sec frac domain : Nat) (src : DWord), let d := s.dev.advance at_
      let mine : Prop := port = d.cget Cat.PTP_TIMING_PORT ∧ domain = d.cget Cat.PTP_DOMAIN ∧ d.tb.gm = false
        ∧ ∃ m, d.tb.master = some m ∧ m.src = src
      (¬ mine → Acts (.sync at_ port sec frac domain src) s fun e => e = d)
        ∧ (mine → ptpCount sec frac = none → Acts (.sync at_ port sec frac domain src) s fun e => e = d.bump Cat.TB_BAD_SYNC)
        ∧ ∀ t, mine → ptpCount sec frac = some t → Acts (.sync at_ port sec frac domain src) s fun e =>
            let o : Int := (t : Int) + d.tb.pathDelay - d.now
            let far : Prop := (d.cget Cat.TB_STEP_THRESH : Int) < o.natAbs
            let near : Prop := o.natAbs ≤ d.cget Cat.TB_LOCK_WINDOW
            let steps : Prop := far ∧ (d.tb.st = .holdover → ¬ near)
            let run := if near then (if d.tb.st = .acquiring then d.tb.lockRun else 0) + 1 else 0
            e.tb.offset = o ∧ e.tb.lastSync = e.now ∧ e.tb.gm = false ∧ e.tb.master = d.tb.master
              ∧ (steps → e.now = ((d.now : Int) + o).toNat ∧ e.tb.st = .acquiring ∧ e.tt.st ≠ .running ∧ e.tb.lockRun = 0
                  ∧ e.tb.slew = 0)
              ∧ (¬ steps → e.now = d.now ∧ e.tb.slew = o * 1000000 ∧ e.tb.freq.natAbs ≤ d.cget Cat.TB_SLEW_MAX * 1000)
              ∧ (¬ steps → d.tb.st = .locked → e.tb.st = .locked ∧ e.tt = d.tt)
              ∧ (¬ steps → d.tb.st = .acquiring ∨ d.tb.st = .freeRun ∨ (d.tb.st = .holdover ∧ ¬ near) → e.tb.lockRun = run
                  ∧ e.tb.st = if d.cget Cat.TB_LOCK_COUNT ≤ run ∧ run ≠ 0 then .locked else .acquiring)
              ∧ (near → d.tb.st = .holdover → e.tb.st = .locked))
    ∧ ∀ (s : State) (at_ port : Nat) (a : Announce), let d := s.dev.advance at_
        let mine : Prop := port = d.cget Cat.PTP_TIMING_PORT ∧ a.domain = d.cget Cat.PTP_DOMAIN
        (¬ mine → Acts (.announce at_ port a) s fun e => e = d)
        ∧ (mine → Acts (.announce at_ port a) s fun e =>
          let rest := d.tb.foreign.filter fun b => b.src ≠ a.src
          let best := bestMaster e.tb.foreign
          let own : Prop := ∀ b, best = some b → listLt (announceKey d.ownAnnounce) (announceKey b) = true
          e.now = d.now ∧ e.mem = d.mem
            ∧ e.tb.foreign = (if a.lost then rest else a :: rest)
            ∧ (own → d.cget Cat.PTP_SLAVE_ONLY = 0 → e.tb.gm = true ∧ e.tb.st = .locked ∧ e.tb.master = none ∧ e.tb.slew = 0)
            ∧ (¬ (own ∧ d.cget Cat.PTP_SLAVE_ONLY = 0) → e.tb.gm = false ∧ e.tb.master = best
                ∧ e.tb.st = if d.tb.gm then .holdover else d.tb.st))

/-- SYNC_TIMEOUT: LOCKED, not grandmaster, is HOLDOVER 3 sync intervals after the last Sync,
ACQUIRING is FREE_RUN after 8, and the timetable is not RUNNING in FREE_RUN. HOLDOVER_LIMIT:
HOLDOVER is FREE_RUN when its error bound exceeds the limit (the instant in whole units, log entry
5), counted. TB_SET sets the time when no timetable is RUNNING and the timebase is FREE_RUN or
grandmaster, else is DENIED. PTP_SLAVE_ONLY 1 ends the grandmaster's role in HOLDOVER. A grandmaster
sends Announce and Sync with its Follow_Up at its interval, a slave the request of its delay
mechanism. In the module's domain and of its delay mechanism, a Delay_Req is answered by a
grandmaster and a Pdelay_Req by any, and a response to a request that was sent, from the selected
master or of the peer, gives the path delay; any other message is ignored. A message leaves a port
that is up, in the transport chosen. (R31, R33, R34, R35, R36, R58, R62, R63) -/
def Obligations.TimebaseTimesOutAndIsSet : Prop :=
  (∀ s : State, s.dev.tb.st = .locked → s.dev.tb.gm = false → Acts .syncTimeout s fun e =>
      e.tb.st = .holdover ∧ e.now = max s.dev.now (s.dev.tb.lastSync + 3 * s.dev.syncInterval) ∧ e.tt = s.dev.tt)
    ∧ (∀ s : State, s.dev.tb.st = .acquiring → Acts .syncTimeout s fun e =>
        e.tb.st = .freeRun ∧ e.now = max s.dev.now (s.dev.tb.lastSync + 8 * s.dev.syncInterval) ∧ e.tt.st ≠ .running)
    ∧ (∀ s : State, s.dev.tb.st = .holdover → Acts .holdoverLimit s fun e =>
        e.tb.st = .freeRun ∧ e.tt.st ≠ .running ∧ e.cget Cat.TB_HOLDOVER_EXIT = s.dev.cget Cat.TB_HOLDOVER_EXIT + 1
          ∧ (800 ≤ s.dev.cget Cat.TB_HOLDOVER_LIMIT →
              s.dev.tb.lastSync + (s.dev.cget Cat.TB_HOLDOVER_LIMIT - 800) * 2000000 < e.now))
    ∧ (∀ v, WriteOp (.tbSet · v) 0x5801 0 (leBytes 8 v) .byTable (fun _ => v < 2 ^ 64) (fun d _ e st =>
        let free : Prop := d.tt.st ≠ .running ∧ (d.tb.st = .freeRun ∨ d.tb.gm = true)
        (¬ free → st = stDenied ∧ e = d) ∧ (free → st = stOk ∧ e.now = v ∧ e.tb.slew = 0 ∧ e.tt = d.tt ∧ e.tb.st = d.tb.st)))
    ∧ (∀ v, WriteOp (.ptpSlaveOnly · v) 0x5001 7 (leBytes 1 v) .byTable (fun _ => v < 2) (fun d _ e st =>
        st = stOk ∧ e.cget Cat.PTP_SLAVE_ONLY = v
          ∧ (v = 1 → d.tb.gm = true → e.tb.gm = false ∧ e.tb.st = .holdover ∧ e.tb.master = bestMaster d.tb.foreign)
          ∧ (¬ (v = 1 ∧ d.tb.gm = true) → e.tb = d.tb)))
    ∧ (∀ (s : State) (at_ : Nat), let d := s.dev.advance at_; let p := d.cget Cat.PTP_TIMING_PORT
        (d.tb.gm = true → Acts (.syncInterval at_) s fun e => e = ((d.sendPtp p 1).sendPtp p 0).sendPtp p 6)
          ∧ (d.tb.gm = false → d.tb.master = none → Acts (.syncInterval at_) s fun e => e = d)
          ∧ (∀ m, d.tb.gm = false → d.tb.master = some m → Acts (.syncInterval at_) s fun e =>
              e = { d.sendPtp p (if d.cget Cat.PTP_DELAY_MECH = 1 then 4 else 2) with
                    tb := { d.tb with asked := d.tb.asked || d.netUp p } })
          ∧ ∀ (peer : Bool) (domain : Nat) (src : DWord),
            let mine : Prop := domain = d.cget Cat.PTP_DOMAIN ∧ (peer = true ↔ d.cget Cat.PTP_DELAY_MECH = 1)
            let answers : Prop := mine ∧ (peer = true ∨ d.tb.gm = true)
            let takes : Prop := mine ∧ d.tb.asked = true ∧ (peer = true ∨ ∃ m, d.tb.master = some m ∧ m.src = src)
            (answers → Acts (.delayRequestResponse at_ (.request peer domain src)) s fun e =>
                e = d.sendPtp p (if peer then 5 else 3))
              ∧ (¬ answers → Acts (.delayRequestResponse at_ (.request peer domain src)) s fun e => e = d)
              ∧ (∀ x, takes → Acts (.delayRequestResponse at_ (.response peer domain src x)) s fun e =>
                  e = { d with tb := { d.tb with pathDelay := x, asked := false } })
              ∧ (∀ x, ¬ takes → Acts (.delayRequestResponse at_ (.response peer domain src x)) s fun e => e = d))
    ∧ ∀ (d : Dev) (p k : Nat), (d.netUp p = false → d.sendPtp p k = d)
        ∧ (d.netUp p = true → Out.ptp p k (d.cget Cat.PTP_TRANSPORT) d.now ∈ (d.sendPtp p k).out
            ∧ (d.sendPtp p k).mem = d.mem ∧ (d.sendPtp p k).tb = d.tb)

/-- TT_TABLE with an image that R41 rejects is BAD_TYPE and counted; else it is LOADED, or BAD_TYPE
and counted when the written steps contradict, and else OK and armed if it can be. Writes of
TT_STAGE, TT_EPOCH, TT_FIRST_STEP, TT_ANCHOR_JOB and TT_LAST_STEP are kept, and arm the timetable if
they can; one that with an image and all four written leaves the stage outside the image (a stage
write), the first step above the last (a step write), or would complete the conditions but for such
steps (any of them) is BAD_TYPE, counted, and kept out. A timetable is armed exactly when LOADED,
all four are written, the stage is in the image and the first step does not exceed the last. (R39,
R40, R41, R498) -/
def Obligations.TimetableEntriesArmIt : Prop :=
  (∀ img, WriteOp (.ttTable · img) 0x5011 0 img .byTable (fun _ => True) (fun d _ e st =>
      (parseImage img = none → st = stBadType ∧ e = d.bump Cat.TT_LOAD_REJECT)
        ∧ ∀ i, parseImage img = some i →
            let l : Dev := { d with tt := { d.tt with
              st := .loaded, image := some i, pendingResume := false, rejoin := false, heldBy := .none, peers := [] } }
            (d.tt.allWritten = true → l.stageOk = true → l.lastOk = false →
                st = stBadType ∧ e = l.bump Cat.TT_LOAD_REJECT)
              ∧ (¬ (d.tt.allWritten = true ∧ l.stageOk = true ∧ l.lastOk = false) → st = stOk ∧ e = l.tryArm)))
    ∧ (let entry (mk : Req → Instr) (field : Nat) (v : List Byte) (fits : Bool) (f : Dev → Dev) (stage steps : Bool) : Prop :=
        WriteOp mk 0x5011 field v .byTable (fun _ => fits) (fun d _ e st =>
          let breaks : Prop := d.tt.image.isSome = true ∧ (f d).tt.allWritten = true
            ∧ ((stage = true ∧ (f d).stageOk = false) ∨ ((steps = true ∨ (f d).stageOk = true) ∧ (f d).lastOk = false))
          (breaks → st = stBadType ∧ e = d.bump Cat.TT_LOAD_REJECT) ∧ (¬ breaks → st = stOk ∧ e = (f d).tryArm))
      (∀ v, entry (.ttStage · v) 1 (leBytes 1 v) (v < 256)
          (fun d => { d.cset Cat.TT_STAGE v with tt := { d.tt with wrStage := true } }) true false)
        ∧ (∀ v, entry (.ttEpoch · v) 3 (leBytes 8 v) (v < 2 ^ 64)
          (fun d => { d.cset Cat.TT_EPOCH v with tt := { d.tt with wrEpoch := true } }) false false)
        ∧ (∀ v, entry (.ttFirstStep · v) 4 (leBytes 4 v) (v < 2 ^ 32)
          (fun d => { d.cset Cat.TT_FIRST_STEP v with tt := { d.tt with wrFirst := true } }) false true)
        ∧ (∀ v, entry (.ttAnchorJob · v) 5 (leBytes 1 v) (v < 256)
          (fun d => { d.cset Cat.TT_ANCHOR_JOB v with tt := { d.tt with wrAnchor := true } }) false false)
        ∧ (∀ v, entry (.ttLastStep · v) 6 (leBytes 4 v) (v < 2 ^ 32) (fun d => d.cset Cat.TT_LAST_STEP v) false true))
    ∧ ∀ d : Dev, let ok : Prop := d.tt.st = .loaded ∧ d.tt.allWritten = true ∧ d.stageOk = true ∧ d.lastOk = true
        (¬ ok → d.tryArm = d)
          ∧ (ok → d.tryArm = { d with tt := { d.tt with
              st := .armed, rejoin := false, armedAt := d.now, peers := [], epoch := d.cget Cat.TT_EPOCH,
              firstStep := d.cget Cat.TT_FIRST_STEP } })

/-- TT_STOP of a RUNNING timetable makes it HELD; TT_RESUME of a HELD one makes it ARMED to rejoin
when the timebase is LOCKED, and else keeps the resume pending; TT_UNLOAD of a LOADED, ARMED or HELD
one takes the image and what was written away; each is OK and TT_CONTROL reads it. In any other
state each is DENIED and changes nothing. (R57, R58, R59, R60, R499) -/
def Obligations.TimetableControl : Prop :=
  WriteOp .ttStop 0x5011 7 (leBytes 1 1) .byTable (fun _ => true) (fun d _ e st =>
      (d.tt.st = .running → st = stOk ∧ e = { d with tt := { d.tt with st := .held, heldBy := .stop, lastControl := 1 } })
        ∧ (d.tt.st ≠ .running → st = stDenied ∧ e = d))
    ∧ WriteOp .ttResume 0x5011 7 (leBytes 1 2) .byTable (fun _ => true) (fun d _ e st =>
        (d.tt.st ≠ .held → st = stDenied ∧ e = d)
          ∧ (d.tt.st = .held → st = stOk ∧ e.tt.lastControl = 2
              ∧ (d.tb.st = .locked → e.tt.st = .armed ∧ e.tt.rejoin = true ∧ e.tt.armedAt = d.now ∧ e.tt.pendingResume = false
                  ∧ e.cget Cat.TT_REJOIN = d.cget Cat.TT_REJOIN + 1)
              ∧ (d.tb.st ≠ .locked → e = { d with tt := { d.tt with pendingResume := true, lastControl := 2 } })))
    ∧ WriteOp .ttUnload 0x5011 7 (leBytes 1 3) .byTable (fun _ => true) (fun d _ e st =>
        let can : Prop := d.tt.st = .loaded ∨ d.tt.st = .armed ∨ d.tt.st = .held
        (¬ can → st = stDenied ∧ e = d)
          ∧ (can → st = stOk ∧ e.tt.st = .unloaded ∧ e.tt.image = none ∧ e.tt.allWritten = false ∧ e.tt.past = [] ∧ e.tt.lastControl = 3
              ∧ e.cat = d.cat ∧ e.mem = d.mem))

/-- TT_RUN_START of an ARMED timetable with agreement and lock: RUNNING at the first step's slot 0,
its epoch the written one, at that epoch or now if later, with the lag that follows. TT_REJOIN: at
the first step that starts far enough ahead and is no earlier than the domain's, or HELD when that
lies beyond the last. SLOT_START of a WAITING slot: the next slot is FIRM at A(j). FIRM_END:
OVERRUN, counted, with firm work running, else SLACK. SLOT_PLANNED_END: LATE, counted, with firm
work running, else the slot closes. Within a step a closing slot is followed by the next at once, or
waits for its start. (R42, R43, R44, R45, R48, R58, R59, R61) -/
def Obligations.SlotsStartEndAndClose : Prop :=
  (∀ s : State, let d := s.dev; let n0 := d.cget Cat.TT_FIRST_STEP
      d.tt.st = .armed → d.tt.rejoin = false → d.tb.st = .locked → d.ttPeersAgree = true →
      Acts .ttRunStart s fun e => let a := max d.now (d.cget Cat.TT_EPOCH)
        e.tt.st = .running ∧ e.tt.epoch = d.cget Cat.TT_EPOCH ∧ e.tt.step = n0 ∧ e.tt.slot = 0 ∧ e.tt.slotSt = .firm
          ∧ e.tt.slotStart = a ∧ e.now = a ∧ e.tt.lag = a - d.cget Cat.TT_EPOCH ∧ e.tt.runStart = a ∧ e.tt.past = [])
    ∧ (∀ s : State, let d := s.dev; let n0 := d.cget Cat.TT_FIRST_STEP
        let n := max d.domainStep
          (n0 + ceilDiv (max d.now (d.tt.armedAt + d.cget Cat.TT_RESYNC_NOTICE) - d.domainEpoch) (max 1 d.stepLen))
        d.tt.st = .armed → d.tt.rejoin = true → d.tb.st = .locked → d.ttPeersAgree = true →
          (d.cget Cat.TT_LAST_STEP < n → Acts .ttRejoin s fun e => e.tt.st = .held ∧ e.tt.rejoin = false ∧ e.now = d.now)
          ∧ (n ≤ d.cget Cat.TT_LAST_STEP → Acts .ttRejoin s fun e =>
              let a := max d.now (d.domainEpoch + (n - n0) * d.stepLen)
              e.tt.st = .running ∧ e.tt.epoch = d.domainEpoch ∧ e.tt.step = n ∧ e.tt.slot = 0 ∧ e.tt.slotSt = .firm
                ∧ e.tt.slotStart = a ∧ e.now = a ∧ e.tt.runStart = a))
    ∧ (∀ s : State, let d := s.dev; d.tt.st = .running → d.tt.slotSt = .waiting → Acts .slotStart s fun e =>
        let a := max d.now (max d.tt.lastFirmEnd (d.slotNominal d.nextSlot.1 d.nextSlot.2 + d.tt.paceLag))
        e.tt.st = .running ∧ (e.tt.step, e.tt.slot) = d.nextSlot ∧ e.tt.slotSt = .firm ∧ e.tt.slotStart = a ∧ e.now = a)
    ∧ (∀ s : State, let d := s.dev; d.tt.st = .running → d.tt.slotSt = .firm →
        (d.firmRunning = true → Acts .firmEnd s fun e => e.tt = { d.tt with slotSt := .overrun, firmDone := true }
            ∧ e.cget Cat.TT_FIRM_OVERRUN = d.cget Cat.TT_FIRM_OVERRUN + 1 ∧ e.now = max d.now d.firmPartEnd)
          ∧ (d.firmRunning = false → Acts .firmEnd s fun e => e.tt = { d.tt with slotSt := .slack }
            ∧ e.cat = d.cat ∧ e.now = max d.now d.firmPartEnd))
    ∧ (∀ s : State, let d := s.dev; let t := max d.now d.plannedEnd; let p := (d.advance t).parkFiller
        d.tt.st = .running → (d.tt.slotSt = .slack ∨ d.tt.slotSt = .overrun) →
          (p.firmRunning = true → Acts .slotPlannedEnd s fun e => e.tt = { d.tt with slotSt := .late }
            ∧ e.cget Cat.TT_LATE_SLOT = p.cget Cat.TT_LATE_SLOT + 1 ∧ e.now = t)
          ∧ (p.firmRunning = false → Acts .slotPlannedEnd s fun e => e = p.closeSlot t))
    ∧ ∀ (d : Dev) (t : Nat), d.now ≤ t → d.tt.st = .running → d.tt.slot + 1 < d.slots.length →
        let a := max t (d.slotNominal d.tt.step (d.tt.slot + 1) + d.tt.paceLag); let e := d.closeSlot t
        (t < a → e.tt.slotSt = .waiting ∧ e.tt.slot = d.tt.slot ∧ e.tt.lastFirmEnd = t ∧ e.now = t ∧ e.mem = d.mem)
          ∧ (a ≤ t → e.tt.slotSt = .firm ∧ e.tt.slot = d.tt.slot + 1 ∧ e.tt.step = d.tt.step ∧ e.tt.slotStart = t
              ∧ e.now = t)

/-- After a request for entry `w`, die `k` has its frequency and goes to the slowest usable entry
that serves it, or stays (R382, R389). -/
def Aimed (d e : Dev) (k w : Nat) : Prop :=
  let u := usableEntry d.nv.hours k w
  (e.die k).entry = (d.die k).entry
    ∧ (e.die k).target = if (d.die k).target = some u ∨ (d.die k).entry ≠ u then some u else none

/-- PHASE_CHANGE: the phase in force is the timetable's, and after the release each die aims at the
slowest of its preferred entry and its ceilings; PHASE_LEAD only raises the voltage of dies that go
faster. ENTRY_CHANGE: the die runs at its target when its voltage has risen, at 5 mV per µs from
where it stood, counted. POWERED_HOURS: newly disabled entries are counted. A Cap sample enters the
means; with every forecast in its limits nothing is lowered; else the first die with a step left
(module) and each die of an exceeded rail lose the fewest eighths of duty that the forecasts allow,
or at 2 an entry. CAP_RELAX undoes one step. A gain is measured over estimated energy, held to 0.8
to 1.25, beyond it counted; of 0 over 0 it is free within them (log entry 57). (R380, R382, R383,
R384, R385, R386, R387, R389) -/
def Obligations.PhasesEntriesAndCap : Prop :=
  (∀ (s : State) (at_ : Nat), let d := s.dev.advance at_; let p : Dev := { d with power := { d.power with phase := d.phaseNow } }
      Acts (.phaseChange at_) s fun e => e.power.phase = d.phaseNow ∧ e.cat = d.cat ∧ e.mem = d.mem
        ∧ (d.released = false → e = p) ∧ (d.released = true → ∀ k, k < 9 → Aimed d e k (p.wantedEntry k)))
    ∧ (∀ (s : State) (at_ : Nat), let d := s.dev.advance at_
        let rises (k pref : Nat) : Prop := pref < (d.die k).entry ∧ (d.die k).capEntry ≤ pref ∧ (d.die k).thermEntry ≤ pref
        Acts (.phaseLead at_) s fun e => e.power.phase = d.power.phase ∧ e.cat = d.cat
          ∧ (d.tt.st ≠ .running ∨ d.released = false → e = d)
          ∧ (d.tt.st = .running → d.released = true → ∀ k, k < 9 →
              let pref := fld (d.cget (Cat.PWR_PREF (d.slotDef d.nextSlot.2).phase)) (if k = 0 then 0 else 4) 4
              (¬ rises k pref → e.die k = d.die k)
                ∧ (rises k pref → Aimed d e k pref ∧ (e.die k).lead = (e.die k).target.isSome)))
    ∧ (∀ (s : State) (k t : Nat), let d := s.dev; let x := d.die k; let mv := appliedMv d.nv.hours k
        x.target = some t → k < 9 → x.lead = false → d.stretched k = false → d.pins.pwrGood = true →
          Acts (.entryChange k) s fun e => (e.die k).entry = t ∧ (e.die k).target = none
            ∧ (∀ i, i ≠ k → e.die i = d.die i)
            ∧ e.now = max d.now (x.riseAt + if t < x.entry then (mv t - mv x.entry) * 1600 - x.above else 0)
            ∧ (e.die k).riseAt = e.now ∧ (t < x.entry → (e.die k).above = 0)
            ∧ e.cget Cat.PWR_ENTRY_CHANGE = d.cget Cat.PWR_ENTRY_CHANGE + 1)
    ∧ (∀ (s : State) (k : Nat), let d := s.dev
        (d.die k).target = none ∨ 9 ≤ k ∨ (d.die k).lead = true ∨ d.stretched k = true ∨ d.pins.pwrGood = false →
          Acts (.entryChange k) s fun e => e = d)
    ∧ (∀ (s : State) (h : Nat), let d := s.dev
        (h ≤ d.nv.hours → Acts (.poweredHours h) s fun e => e = d)
          ∧ (d.nv.hours < h → Acts (.poweredHours h) s fun e =>
              let new := (disabledEntries h).filter fun p => !(disabledEntries d.nv.hours).contains p
              e.nv = { d.nv with hours := h }
                ∧ e.cget Cat.PWR_ENTRY_DISABLED = d.cget Cat.PWR_ENTRY_DISABLED + new.length
                ∧ ((∃ k, (k, 0) ∈ new) → bit (e.cget Cat.ALERT_CAUSE) 4 = true)))
    ∧ (∀ (s : State) (p : PowerSample), let d := s.dev.advance p.at_
        (d.pins.pwrGood = false → Acts (.capSample p) s fun e => e = d)
          ∧ (d.pins.pwrGood = true → Acts (.capSample p) s fun e =>
              let pw := d.gained 16 p.power
              let q : Dev := { d with power := { d.power with
                samples := (pw :: d.power.samples).take 10000
                railSamples := (((List.range 16).map fun r => d.gained r ((p.rails[r]?).getD 0)) :: d.power.railSamples).take 5
                run := if d.pLimit < pw then d.power.run + 1 else 0 } }
              let fp (n : Nat) := d.gained 16 ((p.forecast[8 - n]?).getD 0)
              let fr (r n : Nat) := d.gained r ((((p.railForecast[r]?).getD [])[8 - n]?).getD 0)
              let rate (r : Nat) : Nat := if r = 10 then d.power.t2Rate else if r = 11 ∨ r = 12 then d.power.t3Rate
                else if r = 0 then (d.die 0).capD else if r < 10 then (d.die (r - 1)).capD else 8
              let tooHigh (r : Nat) : Prop := r < 16 ∧ q.railOk r (fr r (rate r)) = false
              let first := (powerDies.find? fun k => d.stepLeft k).getD 0
              let byModule (k : Nat) : Prop := k = first ∧ q.powerOk (fp (d.die first).capD) none = false
              let fits (k n : Nat) : Prop := (byModule k → q.powerOk (fp n) none = true)
                ∧ (tooHigh (railOfDie k) → q.railOk (railOfDie k) (fr (railOfDie k) n) = true)
              e.power.samples = q.power.samples ∧ e.power.railSamples = q.power.railSamples ∧ e.power.run = q.power.run
                ∧ e.power.brim = e.brimNow
                ∧ (∀ k, k < 9 →
                    (¬ byModule k → ¬ tooHigh (railOfDie k) → e.die k = d.die k)
                      ∧ (byModule k ∨ tooHigh (railOfDie k) →
                          (2 < (d.die k).capD → (e.die k).capEntry = (d.die k).capEntry
                              ∧ 2 ≤ (e.die k).capD ∧ (e.die k).capD < (d.die k).capD
                              ∧ (fits k (e.die k).capD ∨ (e.die k).capD = 2)
                              ∧ ∀ n, (e.die k).capD < n → n < (d.die k).capD → ¬ fits k n)
                            ∧ ((d.die k).capD ≤ 2 → (e.die k).capD = (d.die k).capD
                              ∧ (d.wantedEntry k < 15 → ((d.die k).capEntry = 0 ∨ (d.die k).capAt + 80000 ≤ d.now) →
                                  (e.die k).capEntry = d.wantedEntry k + 1 ∧ (e.die k).capAt = d.now))))
                ∧ (¬ tooHigh 10 → e.power.t2Rate = d.power.t2Rate)
                ∧ (¬ tooHigh 11 → ¬ tooHigh 12 → e.power.t3Rate = d.power.t3Rate)))
    ∧ (∀ (s : State) (p : PowerSample), let d := s.dev.advance p.at_
        let ok : Prop := d.pins.pwrGood = true ∧ d.powerOk (d.gained 16 p.power) (some (d.cget Cat.PWR_RAISE_MARGIN * 1000)) = true
          ∧ ∀ r, r < 16 → d.railOk r (d.gained r ((p.rails[r]?).getD 0)) = true
        let noEntry : Prop := ∀ k, k < 9 → (d.die k).capEntry = 0
        let fullDuty : Prop := ∀ k, k < 9 → 8 ≤ (d.die k).capD
        (¬ ok → Acts (.capRelax p) s fun e => e = d)
          ∧ (∀ k, ok → k < 9 → 0 < (d.die k).capEntry → (∀ m, k < m → m < 9 → (d.die m).capEntry = 0) →
              Acts (.capRelax p) s fun e => let n := (d.die k).capEntry - 1
                (e.die k).capEntry = (if n ≤ d.prefEntry k then 0 else n) ∧ (e.die k).capD = (d.die k).capD
                  ∧ (∀ m, m ≠ k → e.die m = d.die m) ∧ e.cat = d.cat)
          ∧ (∀ k, ok → noEntry → k < 9 → (d.die k).capD < 8 → (∀ m, k < m → m < 9 → 8 ≤ (d.die m).capD) →
              Acts (.capRelax p) s fun e => e = d.setDie k { d.die k with capD := (d.die k).capD + 1 })
          ∧ (ok → noEntry → fullDuty → Acts (.capRelax p) s fun e =>
              e = { d with power := { d.power with
                t3Rate := if d.power.t3Rate < 8 then d.power.t3Rate + 1 else d.power.t3Rate
                t2Rate := if d.power.t3Rate < 8 then d.power.t2Rate else if d.power.t2Rate < 8 then d.power.t2Rate + 1
                  else d.power.t2Rate } }))
    ∧ ∀ (s : State) (at_ : Nat) (ratios : List (Nat × Nat)), let d := s.dev.advance at_
        (d.pins.pwrGood = false → Acts (.calibration at_ ratios) s fun e => e = d)
          ∧ (d.pins.pwrGood = true → Acts (.calibration at_ ratios) s fun e =>
              (∀ i m x, i < 17 → ratios[i]? = some (m, x) → i < d.power.gains.length →
                ∃ a b, e.power.gains[i]? = some (a, b) ∧ 0 < b ∧ 4 * b ≤ 5 * a ∧ 4 * a ≤ 5 * b
                  ∧ (5 * x < 4 * m → (a, b) = (5, 4)) ∧ (5 * m < 4 * x → (a, b) = (4, 5))
                  ∧ (0 < x → 4 * m ≤ 5 * x → 4 * x ≤ 5 * m → (a, b) = (m, x)))
                ∧ e.cget Cat.PWR_CAL_FAULT = d.cget Cat.PWR_CAL_FAULT
                    + ((ratios.take 17).filter fun p => decide (5 * p.2 < 4 * p.1) || decide (5 * p.1 < 4 * p.2)).length
                ∧ e.power.dies = d.power.dies ∧ e.mem = d.mem)

/-- THERMAL_SAMPLE: a junction at 115 °C or an LPDDR6 package at 105 °C trips: everything off but
VDD_AUX, cause 4, stamp and sensor kept. Else each die at its limit goes an entry down every 200 µs,
and 3 °C below it an entry up every 10 ms; hot LPDDR6 is limited from 95 °C until below 92 °C; 20 °C
since the last training asks for one while a timetable runs. INLET_SAMPLE over 35 °C is counted. A
droop over its threshold begins a stretch or deepens it; its end records a length in its bounds.
CUFF_WAVE releases the held engines of the next wave, CUFF_RAMP_STEP goes, 64 cycles after the last
step, from 2 eighths to 4 to all, CUFF_DISENGAGE ends it 128 cycles after wave 7. (R222, R390, R391,
R392, R393, R394, R395, R396) -/
def Obligations.HeatDroopAndCuff : Prop :=
  (∀ (s : State) (at_ : Nat) (temps : List Int), let d := s.dev.advance at_
      (d.boot.rails % 2 ^ 15 = 0 → Acts (.thermalSample at_ temps) s fun e => e = d)
        ∧ (∀ i, d.boot.rails % 2 ^ 15 ≠ 0 → tripSensor temps = some i → Acts (.thermalSample at_ temps) s fun e =>
            e.boot.tripped = true ∧ e.boot.tripSeen = true ∧ e.boot.rails = 2 ^ 15 ∧ e.boot.cause = 4 ∧ e.boot.state = 0
              ∧ e.pins.thermTripN = false ∧ e.pins.pwrGood = false ∧ e.nv.tripRecord = leBytes 8 d.now ++ leBytes 1 i
              ∧ e.jobs = [] ∧ e.cmds = [])
        ∧ (d.boot.rails % 2 ^ 15 ≠ 0 → tripSensor temps = none → Acts (.thermalSample at_ temps) s fun e =>
            e.power.temps = temps ++ d.power.temps.drop temps.length ∧ e.boot = d.boot
              ∧ (∀ k, k < 9 → dieTemps temps k ≠ [] → let x := d.die k; let y := e.die k; let t := hottest (dieTemps temps k)
                  let lim : Int := d.cget Cat.THERM_THROTTLE_C
                  let down : Prop := lim ≤ t ∧ d.wantedEntry k < 15 ∧ (x.thermEntry = 0 ∨ x.thermAt + 1600000 ≤ d.now)
                  let up : Prop := t < lim - 3 ∧ 0 < x.thermEntry ∧ x.thermAt + 80000000 ≤ d.now
                  (down → y.thermEntry = d.wantedEntry k + 1 ∧ y.thermAt = d.now)
                    ∧ (up → y.thermEntry = (if x.thermEntry - 1 ≤ d.prefEntry k then 0 else x.thermEntry - 1)
                        ∧ y.thermAt = d.now)
                    ∧ (¬ down → ¬ up → y = x)
                    ∧ y.entry = x.entry ∧ y.capD = x.capD ∧ y.capEntry = x.capEntry)
              ∧ (∀ i, i < 8 → packageTemps temps i ≠ [] → bit e.power.lpHot i =
                  if bit d.power.lpHot i then !((packageTemps temps i).all (· < 92)) else (packageTemps temps i).any (95 ≤ ·))
              ∧ (∀ i t, i < 8 → packageTemps temps i ≠ [] → d.tt.st = .running → Tbl.find? d.mem3.trained i = some t →
                  20 < (hottest (dieTemps temps (1 + i)) - t).natAbs → i ∉ d.mem3.due →
                  i ∈ e.mem3.due ∧ e.cget (Cat.MEM_RETRAIN_DUE i) = d.cget (Cat.MEM_RETRAIN_DUE i) + 1
                    ∧ bit (e.cget Cat.ALERT_CAUSE) 2 = true)))
    ∧ (∀ temps, tripSensor temps = none ↔ ∀ i t, temps[i]? = some t → (i < 34 → t < 115) ∧ (34 ≤ i → i < 66 → t < 105))
    ∧ (∀ (s : State) (at_ : Nat) (temp : Int), let d := s.dev.advance at_
        (d.pins.pwrGood = false → Acts (.inletSample at_ temp) s fun e => e = d)
          ∧ (d.pins.pwrGood = true → Acts (.inletSample at_ temp) s fun e => e.power = { d.power with inlet := temp }
              ∧ (temp ≤ 35 → e.cat = d.cat)
              ∧ (35 < temp → e.cget Cat.THERM_INLET_OVER = d.cget Cat.THERM_INLET_OVER + 1
                  ∧ bit (e.cget Cat.ALERT_CAUSE) 6 = true)))
    ∧ (∀ (s : State) (at_ det mv : Nat), let d := s.dev.advance at_
        let deep : Prop := det < 12 ∧ d.cget Cat.DROOP_THRESH < mv ∧ d.pins.pwrGood = true
        (¬ deep → Acts (.droop at_ det mv) s fun e => e = d)
          ∧ (deep → Tbl.find? d.power.droops det = none → Acts (.droop at_ det mv) s fun e =>
              Tbl.find? e.power.droops det = some (d.now, mv)
                ∧ e.cget Cat.DROOP_EVENTS = d.cget Cat.DROOP_EVENTS + 1)
          ∧ (∀ t m, deep → Tbl.find? d.power.droops det = some (t, m) → Acts (.droop at_ det mv) s fun e =>
              Tbl.find? e.power.droops det = some (t, max m mv) ∧ e.cat = d.cat)
          ∧ (Tbl.find? d.power.droops det = none → Acts (.droopEnd at_ det) s fun e => e = d)
          ∧ (∀ t m, Tbl.find? d.power.droops det = some (t, m) → Acts (.droopEnd at_ det) s fun e =>
              let full := (d.now - t) * entryMhz (d.die (if det < 4 then 0 else det - 3)).entry / 8000
              ∃ n, full * 100 / 112 ≤ n ∧ n ≤ full
                ∧ e = ({ d.takeN 1 with power := { d.power with droops := Tbl.erase d.power.droops det } } : Dev).event
                    0x33 0x1F (droopUnit det) (n % 2 ^ 16 * 2 ^ 16 + m % 2 ^ 16) 0 0))
    ∧ (∀ s : State, let d := s.dev; let w := d.power.cuffWave
        (d.power.cuffOn = false ∨ 8 ≤ w → Acts .cuffWave s fun e => e = d)
          ∧ (d.power.cuffOn = true → w < 8 → Acts .cuffWave s fun e =>
              e.power = { d.power with cuffWave := w + 1 } ∧ e.now = max d.now (d.power.cuffAt + 1024 * w) ∧ e.mem = d.mem
                ∧ ∀ u x, e.engine u x = if u < 72 ∧ x < 8 ∧ d.waveOf u = w ∧ (d.engine u x).ramp = .held
                    then { d.engine u x with ramp := d.firstRamp u, rampAt := e.now } else d.engine u x)
          ∧ (d.power.cuffOn = false ∨ w < 8 → Acts .cuffDisengage s fun e => e = d)
          ∧ (d.power.cuffOn = true → 8 ≤ w → Acts .cuffDisengage s fun e =>
              e.power = { d.power with cuffOn := false, due := [] } ∧ e.mem = d.mem
                ∧ e.now = max d.now (d.power.cuffAt + 7168 + d.cyclesToUnits 0 128)))
    ∧ ∀ (s : State) (u x : Nat), let d := s.dev; let a := d.advance ((d.engine u x).rampAt + d.cyclesToUnits (dieOfUnit u) 64)
        ((d.engine u x).ramp = .quarter → Acts (.cuffRampStep u x) s fun e =>
            e = a.setRamp u x (if d.duty (dieOfUnit u) ≤ 4 then .full else .half))
          ∧ ((d.engine u x).ramp = .half → Acts (.cuffRampStep u x) s fun e => e = a.setRamp u x .full)
          ∧ ((d.engine u x).ramp = .held ∨ (d.engine u x).ramp = .full → Acts (.cuffRampStep u x) s fun e => e = d)

/-- POWER_ON of an unpowered module: cause 1, straps sampled, before step 1. INPUT_LOSS: everything
off. MOD_RST_N low: cause 2, or 4 after a trip, VDD_AUX kept where it was on. DEV_RESET 0xA5 makes a
reset due 10 ms later; CATALOGUE_RESET and RECOVERY_RESET, when due: causes 3 and 5. TRIP_COOLDOWN
needs the input cycled or a pulse. A reset leaves every part of the device at its reset value but
the non-volatile store (an installation under way leaves the inactive bank invalid), the levels of
the pins, the boot registers named, host memory, MGMT_IPV4 from POS, and the model's own free-value
counter and output; every device byte reads 0. (R485, R486, R487, R489, R395, R451) -/
def Obligations.ResetsAndWhatTheyLeave : Prop :=
  (∀ (s : State) (pos : BitVec 7), let d := s.dev
      (d.boot.input = true → Acts (.powerOn pos) s fun e => e = d)
        ∧ (d.boot.input = false → Acts (.powerOn pos) s fun e =>
            e = (d.setBoot fun b => { b with input := true, modRstN := true, pos := pos.toNat, tripSeen := false,
                                             pulsed := b.tripped }).resetTo 1 false))
    ∧ (∀ (s : State) (at_ : Nat), let d := s.dev.advance at_
        (Acts (.inputLoss at_) s fun e =>
            e = if d.boot.input then (d.setBoot fun b => { b with input := false }).resetTo 1 false else d)
          ∧ (d.boot.modRstN = false → Acts (.modRstNAssert at_) s fun e => e = d)
          ∧ (d.boot.modRstN = true → let l := (d.setBoot fun b => { b with modRstN := false });
              Acts (.modRstNAssert at_) s fun e =>
                e = if d.boot.input then l.resetTo (if d.boot.tripped then 4 else 2) (bit d.boot.rails 15) else l)
          ∧ (Acts (.modRstNRelease at_) s fun e =>
              e = if d.boot.modRstN then d else d.setBoot fun b => { b with modRstN := true, pulsed := b.tripped })
          ∧ (let cool : Prop := d.boot.tripped = true ∧ d.boot.pulsed = true ∧ d.boot.input = true ∧ d.boot.modRstN = true;
              (¬ cool → Acts (.tripCooldown at_) s fun e => e = d)
                ∧ (cool → Acts (.tripCooldown at_) s fun e => e.pins.thermTripN = true
                    ∧ e.boot = { d.boot with tripped := false, pulsed := false } ∧ e.nv = d.nv)))
    ∧ (WriteOp (.devReset · 0xA5) 0x1001 4 (leBytes 1 0xA5) .byTable (fun _ => true) (fun d _ e st =>
        st = stOk ∧ e = d.setBoot fun b => { b with pendingReset := some (3, d.now + 80000000) }))
    ∧ (∀ (s : State) (t : Nat),
        (s.dev.boot.pendingReset = some (3, t) → Acts .catalogueReset s fun e => e = (s.dev.advance t).resetTo 3 true)
          ∧ (s.dev.boot.pendingReset = some (5, t) → Acts .recoveryReset s fun e => e = (s.dev.advance t).resetTo 5 true))
    ∧ (∀ s : State, s.dev.boot.pendingReset = none →
        (Acts .catalogueReset s fun e => e = s.dev) ∧ Acts .recoveryReset s fun e => e = s.dev)
    ∧ ∀ (d : Dev) (cause : Nat) (aux : Bool), let e := d.resetTo cause aux
        e = { Dev.reset with fresh := d.fresh, out := d.out, mem := e.mem, nv := e.nv, hosts := e.hosts, cat := e.cat,
                             pins := e.pins, boot := e.boot }
          ∧ (∀ a, a < 2 ^ 64 → memByte e.mem a = 0) ∧ (∀ a, 2 ^ 64 ≤ a → memByte e.mem a = memByte d.mem a)
          ∧ (∀ l im ok, d.long = some l → l.kind = .fwInstall im ok → e.nv = d.nv.setBank (1 - d.boot.bank) [])
          ∧ ((∀ l im ok, d.long = some l → l.kind ≠ .fwInstall im ok) → e.nv = d.nv)
          ∧ (∀ p, p < 2 → e.host p = { HostPort.empty with perstLow := (d.host p).perstLow })
          ∧ e.cget Cat.MGMT_IPV4 = 0xA9FE0100 + (d.boot.pos + 1) % 256
          ∧ (∀ key, key ≠ Cat.MGMT_IPV4 → key ≠ Cat.ALERT_CAUSE → key ≠ Cat.PWR_ENTRY_DISABLED →
              e.cget key = catDefault key)
          ∧ e.pins = { Pins.reset with thermTripN := !d.boot.tripped }
          ∧ e.boot = { Boot.reset with input := d.boot.input, modRstN := d.boot.modRstN, cause := cause, pos := d.boot.pos,
                                       tripped := d.boot.tripped, pulsed := d.boot.pulsed, tripSeen := d.boot.tripSeen,
                                       step := if aux then 1 else 0, rails := if aux then 2 ^ 15 else 0,
                                       times := if aux then d.boot.times.take 1 else [], ssc := d.nv.sscEn }

/-- RAIL_IN_REGULATION: VDD_AUX first with the input, then each next rail with MOD_RST_N high and no
trip; the last raises PWR_GOOD, starts stage 1 and the ports whose PERSTp_N is high. Stage 1 counts
the boot and runs the KIND 1 image of the bank if valid, else the other bank once as fallback,
counted, else recovery; POS 0x7F goes to recovery. Stage 2 needs the three other images and the
entropy tests, then makes its keys; else the other bank once, else recovery. DIE_READY: Lorquel,
Stacks dies, network die, then RUNNING: step 9, ports train, the phase applies, MAC sessions close
where the medium moves. A die not ready in 100 ms: recovery. (R405, R479, R480, R481, R484, R426) -/
def Obligations.StartUpRunsTheGauntlet : Prop :=
  let same (s : State) (mk : Nat → Instr) (at_ : Nat) : Prop := Acts (mk at_) s fun e => e = s.dev.advance at_
  let recovers (d e : Dev) : Prop := e.boot = { d.boot with recovery := true, state := 5, rails := 2 ^ 13 + 2 ^ 14 + 2 ^ 15 }
    ∧ bit (e.cget Cat.ALERT_CAUSE) 11 = true ∧ ∀ p, (e.host p).linkUp = false ∧ (e.host p).training = false
  (∀ (s : State) (at_ : Nat), let d := s.dev.advance at_; let next := railOrder.find? fun r => !bit d.boot.rails r
      (next = none ∨ d.boot.input = false → same s .railInRegulation at_)
        ∧ (next = some 15 → d.boot.input = true → Acts (.railInRegulation at_) s fun e =>
            e.boot = { d.boot with rails := 2 ^ 15, step := 1, times := [d.now / 8000] })
        ∧ (∀ r, next = some r → r ≠ 15 → d.boot.modRstN = false ∨ d.boot.tripped = true ∨ d.boot.state ≠ 0 →
            same s .railInRegulation at_)
        ∧ (∀ r, next = some r → r ≠ 15 → d.boot.input = true → d.boot.modRstN = true → d.boot.tripped = false →
            d.boot.state = 0 → Acts (.railInRegulation at_) s fun e =>
              e.boot.rails = d.boot.rails + 2 ^ r
                ∧ (r ≠ 0 → e.boot = { d.boot with rails := d.boot.rails + 2 ^ r } ∧ e.pins = d.pins)
                ∧ (r = 0 → e.boot.state = 1 ∧ e.boot.step = 3 ∧ e.pins.pwrGood = true
                    ∧ ∀ p h, Tbl.find? d.hosts p = some h → Tbl.find? e.hosts p = some { h with training := !h.perstLow })))
    ∧ (∀ (s : State) (at_ : Nat) (b0 b1 : List FwImage), let d := s.dev.advance at_; let nv := d.nv.fill b0 b1
        let first := if d.boot.fallback then d.boot.bank else nv.nextBank
        let runs (k : Nat) := bankImage nv (nv.bank k) 1
        (d.boot.state ≠ 1 → Acts (.gauntletStage1 at_ b0 b1) s fun e => e = d)
          ∧ (d.boot.state = 1 → d.boot.pos = 0x7F → Acts (.gauntletStage1 at_ b0 b1) s fun e => recovers d e ∧ e.nv = d.nv)
          ∧ (∀ i, d.boot.state = 1 → d.boot.pos ≠ 0x7F → runs first = some i →
              Acts (.gauntletStage1 at_ b0 b1) s fun e => e.nv = { nv with bootCount := nv.bootCount + 1, activeBank := nv.nextBank }
                ∧ e.cat = d.cat
                ∧ e.boot = { d.boot with bank := first, measures := [imageMeasure i], state := 2, step := 4,
                                         times := d.boot.times.take 3 ++ [d.now / 8000] })
          ∧ (∀ i, d.boot.state = 1 → d.boot.pos ≠ 0x7F → runs first = none → d.boot.fallback = false →
              runs (1 - first) = some i → Acts (.gauntletStage1 at_ b0 b1) s fun e =>
                e.boot = { d.boot with bank := 1 - first, fallback := true, measures := [imageMeasure i], state := 2, step := 4,
                                       times := d.boot.times.take 3 ++ [d.now / 8000] }
                  ∧ e.nv.bootCount = nv.bootCount + 1 ∧ e.cget Cat.SEC_FW_REJECT = d.cget Cat.SEC_FW_REJECT + 1)
          ∧ (d.boot.state = 1 → d.boot.pos ≠ 0x7F → runs first = none →
              d.boot.fallback = true ∨ runs (1 - first) = none → Acts (.gauntletStage1 at_ b0 b1) s fun e => recovers d e
                ∧ e.nv.bootCount = nv.bootCount + 1 ∧ e.nv.bootFail.take 4 = [1, 0xFF, 0xFF, 1]
                ∧ e.cget Cat.SEC_FW_REJECT = d.cget Cat.SEC_FW_REJECT + if d.boot.fallback then 1 else 2))
    ∧ (∀ (s : State) (at_ : Nat) (ok : Bool) (keys : Nat), let d := s.dev.advance at_
        let images := ([2, 3, 4] : List Nat).filterMap fun k => bankImage d.nv (d.nv.bank d.boot.bank) k
        let fails : Prop := images.length < 3 ∨ ok = false
        (d.boot.state ≠ 2 → Acts (.gauntletStage2 at_ ok keys) s fun e => e = d)
          ∧ (d.boot.state = 2 → ¬ fails → Acts (.gauntletStage2 at_ ok keys) s fun e => e.cat = d.cat
              ∧ e.boot = { d.boot with measures := d.boot.measures.take 1 ++ images.map imageMeasure,
                                       kemPublic := leBytes 1568 keys, state := 3, step := 5,
                                       times := d.boot.times.take 4 ++ [d.now / 8000] })
          ∧ (d.boot.state = 2 → fails → d.boot.fallback = false → Acts (.gauntletStage2 at_ ok keys) s fun e =>
              e.boot = { d.boot with fallback := true, bank := 1 - d.boot.bank, measures := [], state := 1 }
                ∧ e.cget Cat.SEC_FW_REJECT = d.cget Cat.SEC_FW_REJECT + (3 - images.length))
          ∧ (d.boot.state = 2 → fails → d.boot.fallback = true → Acts (.gauntletStage2 at_ ok keys) s fun e => recovers d e
              ∧ e.nv.bootFail.take 4 = [2, 0xFF, 0xFF, if images.length < 3 then 1 else 2]))
    ∧ (∀ (s : State) (at_ : Nat), let d := s.dev.advance at_
        (d.boot.state ≠ 3 → same s .dieReady at_)
          ∧ (d.boot.state = 3 → d.boot.ready < 2 → Acts (.dieReady at_) s fun e =>
              let b := d.boot
              e = d.setBoot fun _ => { b with
                ready := b.ready + 1, step := 6 + b.ready, times := b.times.take (5 + b.ready) ++ [d.now / 8000] })
          ∧ (d.boot.state = 3 → 2 ≤ d.boot.ready → Acts (.dieReady at_) s fun e =>
              e.boot.state = 4 ∧ e.boot.step = 9 ∧ e.boot.ready = 3
                ∧ (∀ p, p < 8 → e.cget (Cat.NET_PORT_LINK p) = if p < d.portCount then 1 else 0)
                ∧ e.sessions = d.sessions.filter (fun x =>
                    !(decide (d.cget Cat.MGMT_PORT_SEL = 0) && isMacT x.2.transport))
                ∧ e.power.phase = d.phaseNow))
    ∧ ∀ (s : State) (ch : Option Nat), let d := s.dev
        (d.boot.state ≠ 3 → Acts (.dieReadyTimeout ch) s fun e => e = d)
          ∧ (d.boot.state = 3 → Acts (.dieReadyTimeout ch) s fun e => recovers d e
              ∧ e.nv.bootFail.take 4 = (match d.boot.ready, ch with
                  | 0, _ => [3, 0, 0xFF, 3]
                  | 1, some c => [3, BitVec.ofNat 8 (1 + c / 16 % 8), BitVec.ofNat 8 (c % 16), 3]
                  | 1, none => [3, 1, 0xFF, 3]
                  | _, _ => [3, 9, 0xFF, 3])
              ∧ e.now = max d.now ((d.boot.times.getLast?.getD 0) * 8000 + 800000000))

/-- Request `r` of opcode `op` names no entry and passes checks 1 to 3 of R445: its transport is up,
its session open and on that transport, no long operation runs, reserved bits and type are zero, and
its protection holds; `d1` is the device with the idle period begun anew and the counter taken. -/
def Asks (d : Dev) (r : Req) (op : Nat) (d1 : Dev) : Prop :=
  d.transportUp r.transport = true ∧ d.long = none ∧ r.rsv = 0 ∧ r.typ = 0
    ∧ ∃ x : Session, d.session? r.sess = some x ∧ x.transport = r.transport
      ∧ (d.setSession r.sess (d.touch x r.at_)).checkProt r (d.touch x r.at_) op 0 0 [] = (d1, true)

/-- A read of this entry passes its checks, in session `x` (R445). -/
def Readable (d : Dev) (r : Req) (index field : Nat) (d1 : Dev) (x : Session) : Prop :=
  d.transportUp r.transport = true ∧ d.checkHead r false index field [] = (d1, none) ∧ d1.session? r.sess = some x

/-- CAT_OPEN on a transport that is down is lost; in a long operation BUSY; malformed BAD_TYPE; with
none free DENIED; else a session of that transport opens under a handle. CLOSE ends the session
after its answer, NOP is answered OK. A read is answered with the entry's value, a counter of cycles
having risen by a free amount; TT_LAG_MAX is then cleared; a challenge is 32 fresh bytes (a free
value, log entry 2). A write of an entry with a row of its own is that row's command; of any other
takes the effect of the entry. SESS_LEVEL sets the level. A proof gives the owner role with no owner
key to an empty proof on the service port, else to a signature over the challenge, which is spent.
Idle sessions are closed, counted. (R444, R445, R448, R452, R455, R456, R457, R62) -/
def Obligations.SessionsAnswerReadsAndWrites : Prop :=
  (∀ (s : State) (r : Req), let d := s.dev.advance r.at_
      let up : Prop := d.transportUp r.transport = true
      let form : Prop := r.rsv = 0 ∧ r.typ = 0 ∧ r.sess = 0 ∧ r.prot = none
      (¬ up → Acts (.catOpen r) s fun e => e = d)
        ∧ (up → d.long.isSome = true → Acts (.catOpen r) s fun e => ∃ ms, 1 ≤ ms ∧ e = (d.takeN 1).answer r stBusy ms [] 0 0 2)
        ∧ (up → d.long = none → ¬ form → Acts (.catOpen r) s fun e => e = d.answer r stBadType 0 [] 0 0 2)
        ∧ (up → d.long = none → form → d.sessionFree r.transport = false →
            Acts (.catOpen r) s fun e => e = d.answer r stDenied 0 [] 0 0 2)
        ∧ (up → d.long = none → form → d.sessionFree r.transport = true → Acts (.catOpen r) s fun e =>
            ∃ h, 1 ≤ h ∧ h < 2 ^ 32 ∧ (d.sessions.length < 97 → d.session? h = none)
              ∧ e = ({ (d.takeN 1).setSession h (Session.fresh r.transport d.now) with expired := Tbl.erase d.expired h }).answer
                  { r with sess := h } stOk 0 [] 0 0 2))
    ∧ (∀ (s : State) (r : Req), let d := s.dev.advance r.at_
        (d.transportUp r.transport = false → (Acts (.catNop r) s fun e => e = d) ∧ Acts (.catClose r) s fun e => e = d)
          ∧ (d.transportUp r.transport = true → d.session? r.sess = none → d.long = none →
              (Acts (.catNop r) s fun e => e = (d.noSession r).answer r stBadType 0 [] 0 0 4)
                ∧ Acts (.catClose r) s fun e => e = (d.noSession r).answer r stBadType 0 [] 0 0 3)
          ∧ (∀ d1, Asks d r 4 d1 → Acts (.catNop r) s fun e => e = d1.answer r stOk 0 [] 0 0 4)
          ∧ ∀ d1, Asks d r 3 d1 → Acts (.catClose r) s fun e => e = (d1.answer r stOk 0 [] 0 0 3).closeSession r.sess
            ∧ e.session? r.sess = none ∧ e.jobs = d1.jobs ∧ e.keys = d1.keys)
    ∧ (∀ (s : State) (r : Req) (index field : Nat) (d1 : Dev) (x : Session),
        Readable (s.dev.advance r.at_) r index field d1 x → (index, field) ≠ (0xA010, 4) →
          let q := d1.seeCycles index field
          (Acts (.catRead r index field) s fun e =>
              e = (if index * 256 + field = Cat.TT_LAG_MAX then q.cset Cat.TT_LAG_MAX 0 else q).answer r stOk 0
                (q.view r x index field) index field 0)
            ∧ (cycleCounter index field = false → q = d1)
            ∧ (∃ n, q.cget (index * 256 + field) = d1.cget (index * 256 + field) + n)
            ∧ (∀ key, key ≠ index * 256 + field → q.cget key = d1.cget key))
    ∧ (∀ (s : State) (r : Req) (d1 : Dev) (x : Session), Readable (s.dev.advance r.at_) r 0xA010 4 d1 x →
        Acts (.sessChallenge r) s fun e => ∃ c : List Byte, c.length = 32
          ∧ e = ((d1.takeN 1).setSession r.sess { x with challenge := some c }).answer r stOk 0 c 0xA010 4 0)
    ∧ (∀ (s : State) (r : Req) (index field : Nat) (v : List Byte) (f : Dev → Dev), lengthOk index field v = true →
        ((routeTime r index field v).orElse fun _ => (routeJob r index field v).orElse fun _ =>
          routeDevice r index field v) = some f → Acts (.catWrite r index field v) s fun e => e = f s.dev)
    ∧ (∀ (index field : Nat) (v : List Byte),
        (∀ r, routeTime r index field v = none ∧ routeJob r index field v = none ∧ routeDevice r index field v = none) →
          WriteOp (.catWrite · index field v) index field v (if tenantReserved index field then .tenantOnly else .byTable)
            (fun d => writeOk d index field v) (fun d _ e st =>
              e = (writeEffect index field v d).dev ∧ st = (writeEffect index field v d).status))
    ∧ (∀ (d : Dev) (v : List Byte) (j : Nat), j < 16 → let n := leNat v;
        (let full : Prop := d.cget (Cat.MEM_QUOTA_TRACE j) < n + d.cget (Cat.SMP_RING_BYTES j);
          (full → writeEffect (0x8200 + j) 1 v d = d.refuseQuota j 6)
            ∧ (¬ full → (writeEffect (0x8200 + j) 1 v d).dev = d.cset (Cat.TRC_RING_BYTES j) n))
          ∧ (writeEffect (0x7100 + j) 3 v d).dev.cget (Cat.SEC_DOORBELL_PORTS j) = n
          ∧ (writeEffect 0x6000 3 v d).dev.cget Cat.PWR_LIMIT = n)
    ∧ (∀ v, WriteOp (.sessLevel · v) 0xA010 0 (leBytes 1 v) .levelKeeper (fun _ => v < 2) (fun d r e st =>
        ∀ x, d.session? r.sess = some x → st = stOk ∧ e = d.setSession r.sess { x with level := v }))
    ∧ (∀ (v : List Byte) (ok : Bool), WriteOp (.sessOwnerProof · v ok) 0xA010 5 v .anyone (fun _ => true) (fun d r e st =>
        ∀ x, d.session? r.sess = some x →
          let good : Prop := (d.nv.ownerKey = [] ∧ x.transport = .service ∧ v = [])
            ∨ (d.nv.ownerKey ≠ [] ∧ x.challenge.isSome = true ∧ ok = true ∧ isMgmtT x.transport = false)
          (good → st = stOk ∧ e = d.setSession r.sess { x with challenge := none, owner := true })
            ∧ (¬ good → st = stDenied ∧ e = d.setSession r.sess { x with challenge := none })))
    ∧ (∀ v, WriteOp (.sessIdleTimeout · v) 0xA001 0 (leBytes 4 v) .byTable (fun _ => v < 2 ^ 32) (fun d _ e st =>
        let idle (x : Session) : Prop := x.lastAct + v * 8000000 < d.now
        st = stOk ∧ e.cget Cat.SESS_IDLE_TIMEOUT = v ∧ (∀ ks ∈ d.sessions, idle ks.2 → e.session? ks.1 = none)
          ∧ (∀ h, (∀ x, (h, x) ∈ d.sessions → ¬ idle x) → e.session? h = d.session? h)
          ∧ e.cget Cat.SESS_TIMEOUT = d.cget Cat.SESS_TIMEOUT
              + (d.sessions.filter fun ks => ks.2.lastAct + v * 8000000 < d.now).length))
    ∧ ∀ (s : State) (h : Nat), let d := s.dev
        (d.session? h = none → Acts (.sessionIdleExpiry h) s fun e => e = d)
          ∧ ∀ x, d.session? h = some x → Acts (.sessionIdleExpiry h) s fun e => e.session? h = none
            ∧ (∀ i, i ≠ h → e.session? i = d.session? i) ∧ e.cget Cat.SESS_TIMEOUT = d.cget Cat.SESS_TIMEOUT + 1
            ∧ Tbl.find? e.expired h = some (x.lastAct + d.cget Cat.SESS_IDLE_TIMEOUT * 8000000)
            ∧ e.now = max d.now (x.lastAct + d.cget Cat.SESS_IDLE_TIMEOUT * 8000000 + d.cget Cat.TT_SETTLE)

/-- PERST low or a lost link returns the port to its reset values and closes its sessions; rising,
the link trains once power is good; a trained link comes up at a valid rate and width. A
configuration request is answered, with retry status before RUNNING. MBOX_CTRL GO makes a free
mailbox pending, or drops it, counted, when it is pending or its bulk value does not fit or cannot
be read; a write to another register of a mailbox page or of the port has its register's effect,
bits of MBOX_STATUS and HOST_ERR_CAUSE clearing by 1, and none on what is read only; a vector
unmasked while it pends is raised. A BAR write to a field of a job that is neither CREATED nor
STOPPED is counted. An aperture access without leave is counted and reads zeros; unmapped it is
counted and has no effect; else it reads or writes the job's bytes. A collision backs off at most
2^n slot times of 51.2 µs (a free draw, log entry 2), or drops the frame, and tries again at that
instant. Fragments of a datagram join in order, one message at a time. A SAMPLE is taken at its
multiple of the interval. ALERT_CAUSE clears what is written 1. (R432, R433, R435, R438, R453, R454,
R461, R462, R473, R475, R482, R483) -/
def Obligations.HostPortsAperturesAndManagement : Prop :=
  (∀ (s : State) (at_ p : Nat), let d := s.dev.advance at_; let h := d.host p
      let trains : Bool := d.pins.pwrGood && !d.boot.recovery
      let gone (low : Bool) (e : Dev) : Prop := e.host p = { HostPort.empty with
          perstLow := low, training := !low && trains, ide0 := h.ide0, ide1 := h.ide1, ideKeys := h.ideKeys }
        ∧ e.sessions = d.sessions.filter (fun x => match x.2.transport with | .mbox q _ => decide (q ≠ p) | _ => true)
        ∧ e.mem = d.mem ∧ e.jobs = d.jobs ∧ e.cat = d.cat
      (p < 2 → Acts (.perstAssert at_ p) s (gone true))
        ∧ (2 ≤ p → Acts (.perstAssert at_ p) s fun e => e = d)
        ∧ (p < 2 → h.linkUp = true → Acts (.hostLinkDown at_ p) s (gone h.perstLow))
        ∧ (2 ≤ p ∨ h.linkUp = false → Acts (.hostLinkDown at_ p) s fun e => e = d)
        ∧ (Acts (.perstRelease at_ p) s fun e =>
            e = if p < 2 ∧ h.perstLow = true then d.setHost p { h with perstLow := false, training := trains } else d)
        ∧ (∀ rate width, Acts (.hostLinkUp at_ p rate width) s fun e =>
            e = if p < 2 ∧ h.training = true ∧ h.perstLow = false ∧ 1 ≤ rate ∧ rate ≤ 5 ∧ width ∈ ([1, 2, 4, 8, 16] : List Nat)
              then d.setHost p { h with linkUp := true, training := false, rate := rate, width := width } else d)
        ∧ (Acts (.configurationRequest at_ p) s fun e =>
            e = if p < 2 ∧ h.linkUp = true then d.emit (.config p (!d.released)) else d)
        ∧ (∀ off data, let v := leNat data; let k := (off - 0x20000) / 16
            let x := regWrite 16 (Tbl.getD h.msix k msixReset) ((off - 0x20000) % 16) data
            let table : Prop := 0x20000 ≤ off ∧ off < 0x28000
            let pends : Prop := Tbl.getD h.pba k false = true
            (d.barOpen p = false → Acts (.hostErrCause at_ p off data) s fun e => e = d)
              ∧ (d.barOpen p = true → Acts (.hostErrCause at_ p off data) s fun e =>
                (off = 0x10 → e = d.setHost p { h with errCause := h.errCause - (h.errCause &&& v) })
                  ∧ (off = 0x18 → e = d.setHost p { h with errEn := bit v 15, errVector := fld v 0 11 })
                  ∧ (table → Tbl.getD (e.host p).msix k msixReset = x ∧ e.mem = d.mem ∧ e.cat = d.cat
                      ∧ (bit x 96 = false → pends → Out.msix p k ∈ e.out ∧ Tbl.getD (e.host p).pba k false = false)
                      ∧ (bit x 96 = true ∨ ¬ pends → e.out = d.out ∧ (e.host p).pba = h.pba))
                  ∧ (off ≠ 0x10 → off ≠ 0x18 → ¬ table → e = d)))
        ∧ (∀ m off data, Acts (.mboxStatus at_ p m off data) s fun e =>
            e = if d.barOpen p = true ∧ m < 8 then d.setMbox p m ((d.mbox p m).write off data) else d)
        ∧ (∀ (m : Nat) (v : Word) (fails : Bool), let b := d.mbox p m; let head := leNat (b.req.take 32)
            let go : Prop := d.barOpen p = true ∧ m < 8 ∧ bit v.toNat 0 = true
            let lost : Prop := b.pending = true ∨ (bit head 82 = true ∧ (b.bulkLen < fld head 160 32 ∨ fails = true))
            (¬ go → Acts (.mboxCtrl at_ p m v fails) s fun e => e = d)
              ∧ (go → lost → Acts (.mboxCtrl at_ p m v fails) s fun e => e = (d.bump Cat.CTL_ERROR).hostErr p 5)
              ∧ (go → ¬ lost → Acts (.mboxCtrl at_ p m v fails) s fun e => e = d.setMbox p m { b with pending := true }))
        ∧ (∀ j q, Acts (.rwIdleBarWrite at_ p j q) s fun e =>
            e = if d.barOpen p = true ∧ j < 16 ∧ q < 64 ∧ (d.job j).st ≠ .created ∧ (d.job j).st ≠ .stopped
              then d.bump Cat.CTL_ERROR else d)
        ∧ (∀ (j off : Nat) (op : ApertureOp), let va := d.cget (Cat.MEM_HOST_APERTURE j) + off
            let zeros (n : Nat) (x : Dev) : Dev := x.emit (.barRead p (List.replicate n 0) false)
            let may : Prop := d.barOpen p = true ∧ j < 16 ∧ off < 2 ^ 30
            let leave : Prop := d.cget (Cat.SEC_HOST_ACCESS j) = 1
            (¬ may → Acts (.apertureAccess at_ p j off op) s fun e => e = d)
              ∧ (may → ¬ leave → Acts (.apertureAccess at_ p j off op) s fun e =>
                  (∀ n, op = .read n → e = zeros n (d.bump Cat.SEC_HOST_ACCESS_DROP))
                    ∧ (∀ x, op = .write x → e = d.bump Cat.SEC_HOST_ACCESS_DROP))
              ∧ (∀ n, may → leave → op = .read n → Acts (.apertureAccess at_ p j off op) s fun e =>
                  (d.apertureLines j va n false = none → e = zeros n ((d.bump (Cat.HOST_BAR_UNMAPPED p)).hostErr p 3))
                    ∧ (d.apertureLines j va n false ≠ none → e.mem = d.mem
                        ∧ ∃ bad, Out.barRead p (d.jrd j va n) bad ∈ e.out))
              ∧ (∀ x, may → leave → op = .write x → Acts (.apertureAccess at_ p j off op) s fun e =>
                  (d.apertureLines j va x.length true = none → e = (d.bump (Cat.HOST_BAR_UNMAPPED p)).hostErr p 3)
                    ∧ (d.apertureLines j va x.length true ≠ none → e = d.jwr j va x))))
    ∧ (∀ (b : Mailbox) (off : Nat) (data : List Byte), let v := leNat data; let y := b.write off data
        (off = 0x08 → y = { b with done := b.done && !bit v 1 })
          ∧ (off = 0x10 → y = { b with irqEn := bit v 15, vector := fld v 0 11 })
          ∧ (0x18 ≤ off → off < 0x20 → y = { b with bulkAddr := regWrite 8 b.bulkAddr (off - 0x18) data })
          ∧ (off = 0x20 → y = { b with bulkLen := fld v 0 32 })
          ∧ (0x1000 ≤ off → off < 0x2000 → y = { b with req := putAt (fit 4096 b.req) (off - 0x1000) (data.take (0x2000 - off)) })
          ∧ (off ≠ 0x08 → off ≠ 0x10 → (off < 0x18 ∨ 0x20 < off) → (off < 0x1000 ∨ 0x2000 ≤ off) → y = b))
    ∧ (∀ (s : State) (p : Nat), Acts (.hostReadTimeout p) s fun e =>
        e = if p < 2 ∧ s.dev.hostLost p = true then s.dev.advance (s.dev.now + 80000000) else s.dev)
    ∧ (∀ (s : State) (f : MgmtFrag), let d := s.dev.advance f.at_; let r := d.bump Cat.MGMT_RX_FRAMES
        let other : Prop := f.otherKind = true ∨ f.kind ≠ 0 ∨ f.rsv ≠ 0 ∨ 1024 < f.data.length
        let dup : Prop := ∃ x, d.session? f.sess = some x ∧ x.cached = some (f.src, f.xid)
        (d.macListens f.onBus = false → Acts (.mgmtDatagram f) s fun e => e = d)
          ∧ (d.macListens f.onBus = true → other → Acts (.mgmtDatagram f) s fun e => e = r.bump Cat.MGMT_RX_OTHER)
          ∧ (d.macListens f.onBus = true → ¬ other → dup → f.more = false → Acts (.mgmtDatagram f) s fun e =>
              e = ((r.bump Cat.MGMT_RX_DUP).bump Cat.MGMT_TX_FRAMES).emit (.mgmtRepeat f.sess f.xid))
          ∧ (d.macListens f.onBus = true → ¬ other → dup → f.more = true → Acts (.mgmtDatagram f) s fun e => e = r)
          ∧ (d.macListens f.onBus = true → ¬ other → ¬ dup → d.macLimit < f.totalLen → Acts (.mgmtDatagram f) s fun e =>
              e = if f.fragOffset = 0 then r.answerTooLong (if f.onBus then .bus else .service) f.at_ f.data else r)
          ∧ (d.macListens f.onBus = true → ¬ other → ¬ dup → f.totalLen ≤ d.macLimit → Acts (.mgmtDatagram f) s fun e =>
              let joined : Option (List Byte) := if f.fragOffset = 0 then some f.data
                else match Tbl.find? d.mgmt.partials f.sess with
                  | some (src, xid, l) =>
                    if src = f.src ∧ xid = f.xid ∧ l.length = f.fragOffset ∧ l ≠ [] then some (l ++ f.data) else none
                  | none => none
              let kept := match joined with
                | some l => if f.more then some l else if l.length = f.totalLen then some [] else none
                | none => none
              e = { r with mgmt := { d.mgmt with partials := match kept with
                | some l => Tbl.set d.mgmt.partials f.sess (f.src, f.xid, l)
                | none => Tbl.erase d.mgmt.partials f.sess } }))
    ∧ (∀ (s : State) (at_ : Nat) (late : Bool), let d := s.dev.advance at_; let n := d.mgmt.collisions + 1
        let on : Prop := d.onBus = true ∧ d.boot.step ≠ 0
        let last : Prop := late = true ∨ d.cget Cat.MGMT_ATTEMPTS ≤ n
        (¬ on → Acts (.mgmtCollision at_ late) s fun e => e = d)
          ∧ (on → last → Acts (.mgmtCollision at_ late) s fun e => e.mgmt = { d.mgmt with collisions := 0, backoff := none }
              ∧ e.cget Cat.MGMT_COLLISIONS = d.cget Cat.MGMT_COLLISIONS + 1)
          ∧ (on → ¬ last → Acts (.mgmtCollision at_ late) s fun e => ∃ k, k < 2 ^ min n (d.cget Cat.MGMT_BACKOFF_LIMIT)
              ∧ e.mgmt = { d.mgmt with collisions := n, backoff := some (d.now + k * 409600) } ∧ e.fresh = d.fresh + 1))
    ∧ (∀ s : State, Acts .backoffExpiry s fun e => let d := s.dev
        (d.mgmt.backoff = none → e = d)
          ∧ ∀ t, d.mgmt.backoff = some t → e = { d.advance t with mgmt := { d.mgmt with backoff := none } })
    ∧ (∀ (s : State) (j : Nat), let d := s.dev; let i := max 1 (d.cget (Cat.SMP_INTERVAL j))
        let t := ((d.job j).smpAt / i + 1) * i
        let off : Prop := 16 ≤ j ∨ (d.job j).st = .free ∨ (d.job j).st = .teardown ∨ d.cget (Cat.SMP_RING_BYTES j) = 0
        (off → Acts (.sample j) s fun e => e = d)
          ∧ (¬ off → Acts (.sample j) s fun e => e = ((d.advance t).takeSample j t false).latchCounts j t
              ∧ e.now = max d.now t ∧ (e.job j).smpAt = t ∧ (e.job j).smpSeq = (d.job j).smpSeq + 1 ∧ (e.job j).issued = []))
    ∧ ∀ v, WriteOp (.alertCause · v) 0x8000 1 (leBytes 4 v) .byTable (fun _ => v < 2 ^ 32) (fun d _ e st =>
        st = stOk ∧ (∀ i, bit (e.cget Cat.ALERT_CAUSE) i
          = (bit (d.cget Cat.ALERT_CAUSE) i && !(bit v i && !(decide (i = 11) && d.boot.recovery))))
          ∧ ∀ key, key ≠ Cat.ALERT_CAUSE → e.cget key = d.cget key)

/-- SEC_QUOTE_REQ: DENIED with a failed entropy source or for a job whose key the session lacks;
else the session holds a quote of that nonce and time, counted. SEC_SESSION_OPEN: another device's
key digest is DENIED, counted; else a new channel with a free secret and handle (log entry 2), its
confirmation from the secret. SEC_KEY_DELIVER: a free slot is filled unless the tenant has one; a
filled one takes a higher generation of its tenant, and the channel holds it; REKEY_MEM needs
stopped jobs without regions and is a long operation; else DENIED, counted. A proof of the root over
the channel's open gives the hold (its layout: log entry 69); an erase needs no bound job.
SEC_FW_INSTALL is a long operation; ACTIVATE, COMMIT, owner transfer, IDE keys, IDE and entropy
failures as ruled. (R403, R404, R406, R410, R413, R415, R416, R417, R418, R422, R425, R427) -/
def Obligations.KeysQuotesFirmwareAndIde : Prop :=
  let inSession (P : Session → Prop) (d : Dev) (r : Req) : Prop := ∀ x, d.session? r.sess = some x → P x
  (∀ v, WriteOp (.secQuoteReq · v) 0x7010 0 v .anyone (fun _ => v.length = 40 && fld (leNat v) 264 56 = 0) (fun d r e st =>
      inSession (fun x => let j := fld (leNat v) 256 8; let nonce := fld (leNat v) 0 256
        let no : Prop := d.boot.entropyBad = true ∨ (j ≠ 0xFF ∧ ¬ (j < 16 ∧ d.holdsKey x j = true))
        (no → st = stDenied ∧ e = d)
          ∧ (¬ no → st = stOk ∧ e = (d.setSession r.sess { x with quote := d.quote j nonce }).bump Cat.SEC_QUOTES)) d r))
    ∧ (∀ (d : Dev) (j nonce : Nat), j < 256 → nonce < 2 ^ 256 → let q := leNat ((d.quote j nonce).take 640)
        fld q 4608 256 = nonce ∧ fld q 4864 64 = d.now % 2 ^ 64
          ∧ (d.quote j nonce).drop 640 = shake256 ((d.quote j nonce).take 640) 64
              ++ fit 1536 (d.attest (shake256 ((d.quote j nonce).take 640) 64)))
    ∧ (∀ v, WriteOp (.secSessionOpen · v) 0x7010 1 v .anyone (fun _ => v.length = 1632) (fun d r e st =>
        inSession (fun x => let ours : Prop := v.drop 1600 = (shake256 d.boot.kemPublic 32).take 32
          (¬ ours → st = stDenied ∧ e = d.bump Cat.SEC_SESSION_FAIL)
            ∧ (ours → d.boot.entropyBad = true → st = stDenied ∧ e = d)
            ∧ (ours → d.boot.entropyBad = false → st = stOk ∧ ∃ (secret handle : Nat),
                let tr := shake256 (d.boot.kemPublic ++ v.take 1600) 64
                e = (d.takeN 2).setSession r.sess { x with chan := some {
                  handle := handle % 2 ^ 32, ctr := 0, ctrOut := 0, slots := 0, tr := tr,
                  conf := shake256 (label "CX1T-CONFIRM" ++ leBytes 32 secret ++ tr) 32,
                  keys := shake256 (label "CX1T-CHAN" ++ leBytes 32 secret ++ tr) 72 } })) d r))
    ∧ (∀ v, let n := leNat v; kdRekey n = false →
        WriteOp (.secKeyDeliver · v) 0x7010 2 v .anyProtected (fun _ => keyDeliverOk v) (fun d r e st =>
          let denied : Prop := st = stDenied ∧ e = d.bump Cat.SEC_KEY_REJECT
          (d.deliverSlot n = none → denied)
            ∧ (∀ k, d.deliverSlot n = some k → Tbl.find? d.keys k = none → d.tenantSlot (kdTenant n) ≠ none → denied)
            ∧ (∀ k, d.deliverSlot n = some k → Tbl.find? d.keys k = none → d.tenantSlot (kdTenant n) = none →
                let slot : KeySlot := { tenant := kdTenant n, gen := kdGen n, memGen := kdGen n, origin := kdOrigin n,
                                        root := kdRoot n, memRoot := kdRoot n, exported := 0 }
                inSession (fun x => st = stOk
                  ∧ e = ({ d with keys := Tbl.set d.keys k slot } : Dev).setSession r.sess (x.hold k)) d r)
            ∧ (∀ k old, d.deliverSlot n = some k → Tbl.find? d.keys k = some old →
                (old.tenant ≠ kdTenant n ∨ kdGen n ≤ old.gen → denied)
                  ∧ (old.tenant = kdTenant n → old.gen < kdGen n →
                      let slot : KeySlot := { old with gen := kdGen n, root := kdRoot n, origin := kdOrigin n }
                      inSession (fun x => st = stOk
                        ∧ e = (({ d with keys := Tbl.set d.keys k slot } : Dev).bump Cat.SEC_KEY_ROTATE).setSession r.sess
                            (x.hold k)) d r))))
    ∧ (∀ (s : State) (r : Req) (v : List Byte) (d1 : Dev) (k : Nat) (old : KeySlot), let n := leNat v
        Admits (s.dev.advance r.at_) r 0x7010 2 v .anyProtected (fun _ => keyDeliverOk v) d1 → kdRekey n = true →
        d1.deliverSlot n = some k → Tbl.find? d1.keys k = some old → old.tenant = kdTenant n → old.gen < kdGen n →
        d1.rekeyOk k = true → Acts (.secKeyDeliver r v) s fun e => ∃ l : LongOp, e.long = some l ∧ l.kind = .rekey k
          ∧ l.sess = r.sess ∧ l.reqId = r.reqId ∧ e.sessions = d1.sessions
          ∧ Tbl.find? e.keys k = some { old with gen := kdGen n, root := kdRoot n, origin := kdOrigin n }
          ∧ e.cget Cat.SEC_KEY_ROTATE = d1.cget Cat.SEC_KEY_ROTATE + 1)
    ∧ (∀ (t : Nat) (mac : List Byte), WriteOp (.secKeyProve · t mac) 0x7010 3 (leBytes 2 t ++ mac) .anyProtected
        (fun _ => t < 2 ^ 16 && mac.length = 32) (fun d r e st =>
          let denied : Prop := st = stDenied ∧ e = d.bump Cat.SEC_KEY_REJECT
          inSession (fun x => (d.tenantSlot t = none ∨ x.chan = none → denied)
            ∧ ∀ k y c, d.tenantSlot t = some k → Tbl.find? d.keys k = some y → x.chan = some c →
              let proof := shake256 (label "CX1T-PROVE" ++ y.catKey ++ c.tr) 32
              (proof ≠ mac → denied) ∧ (proof = mac → st = stOk ∧ e = d.setSession r.sess (x.hold k))) d r))
    ∧ (∀ v, WriteOp (.secSlotErase · v) 0x7010 5 (leBytes 1 v) (.slotOrOwner v) (fun _ => v < 64) (fun d _ e st =>
        (d.boundJobs v ≠ [] → st = stDenied ∧ e = d)
          ∧ (d.boundJobs v = [] → st = stOk ∧ Tbl.find? e.keys v = none
              ∧ (∀ k, k ≠ v → Tbl.find? e.keys k = Tbl.find? d.keys k)
              ∧ (∀ h x, d.session? h = some x → e.session? h = some (x.release v))
              ∧ e = { d with keys := e.keys, sessions := e.sessions })))
    ∧ (∀ (v : List Byte) (ok : Bool), WriteOp (.secOwnerTransfer · v ok) 0x7010 6 v .byTable (fun _ => true) (fun d _ e st =>
        (d.nv.ownerKey = [] ∨ ok = false → st = stDenied ∧ e = d)
          ∧ (d.nv.ownerKey ≠ [] → ok = true → st = stOk ∧ e = { d with nv := { d.nv with ownerKey := v } })))
    ∧ (∀ images : List FwImage, let v := (images.map fun i => i.header ++ i.body ++ i.sig).flatten
        StartsLong (.secFwInstall · images) 0x7020 0 v v.length .byTable (fun _ => true) (fun d _ =>
          (bundleBad d.nv images = 0)) (fun d _ => d) (.fwInstall images true)
          ∧ StartsLong (.secFwInstall · images) 0x7020 0 v v.length .byTable (fun _ => true) (fun d _ =>
            (bundleBad d.nv images ≠ 0)) (fun d _ => d) (.fwInstall images false))
    ∧ (∀ (d : Dev) (images : List FwImage),
        d.endInstall images false = (d.bumpBy Cat.SEC_FW_REJECT (bundleBad d.nv images), stDenied)
          ∧ (d.boot.recovery = false →
              d.endInstall images true = ({ d with nv := d.nv.setBank (1 - d.boot.bank) images }, stOk))
          ∧ (d.boot.recovery = true → (d.endInstall images true).2 = stOk
              ∧ (d.endInstall images true).1.nv.nextBank = 1 - d.boot.bank
              ∧ (d.endInstall images true).1.boot.pendingReset = some (5, d.now + 8000000000)))
    ∧ WriteOp (.secFwActivate · 1) 0x7020 1 (leBytes 1 1) .byTable (fun _ => true) (fun d _ e st =>
        st = stOk ∧ e.nv = { d.nv with nextBank := 1 - d.boot.bank } ∧ e.mem = d.mem ∧ e.boot = d.boot)
    ∧ (∀ v, WriteOp (.secFwCommit · v) 0x7020 2 (leBytes 1 v) .byTable (fun _ => v < 2) (fun d _ e st =>
        (v = 0 → st = stOk ∧ e = d)
          ∧ (v = 1 → d.boot.fallback = true ∨ d.boot.recovery = true → st = stDenied ∧ e = d)
          ∧ (v = 1 → d.boot.fallback = false → d.boot.recovery = false → st = stOk
              ∧ e.nv = { d.nv with svnFused := max d.nv.svnFused (min 64 d.bankSvn) } ∧ d.nv.svnFused ≤ e.nv.svnFused)))
    ∧ (∀ p v, WriteOp (.secIdeKeys · p v) (0x7030 + p) 0 v .byTable (fun _ => p < 2 && v.length % 2 = 0) (fun d _ e st =>
        st = stOk ∧ e = d.setHost p { d.host p with ideKeys := v, ide0 := ideHalf v 0, ide1 := ideHalf v 1 }))
    ∧ (∀ (s : State) (at_ p : Nat), let d := s.dev.advance at_; let h := d.host p
        let fails (e : Dev) : Prop := e.cget Cat.SEC_IDE_FAIL = d.cget Cat.SEC_IDE_FAIL + 1
          ∧ bit (e.cget Cat.ALERT_CAUSE) 8 = true
        (p < 2 → h.ide0 = .secure → Acts (.secIdeFail at_ p 0) s fun e => e.host p = { h with ide0 := .insecure } ∧ fails e)
          ∧ (p < 2 → h.ide1 = .secure → Acts (.secIdeFail at_ p 1) s fun e => e.host p = { h with ide1 := .insecure } ∧ fails e)
          ∧ (2 ≤ p → ∀ i, Acts (.secIdeFail at_ p i) s fun e => e = d)
          ∧ (d.boot.step = 0 → Acts (.secEntropyFail at_) s fun e => e = d)
          ∧ (d.boot.step ≠ 0 → Acts (.secEntropyFail at_) s fun e => e.boot = { d.boot with entropyBad := true }
              ∧ e.cget Cat.SEC_ENTROPY_FAIL = d.cget Cat.SEC_ENTROPY_FAIL + 1 ∧ bit (e.cget Cat.ALERT_CAUSE) 9 = true)
          ∧ Acts (.entropyRecovery at_) s fun e => e = { d with boot := { d.boot with entropyBad := false } })

/-- ROLL: TT_SETTLE after its T the first due roll fills the gap before its step (an automatic roll)
and closes each slot in order, NUM_LAST_ROLL_STEP becomes its step (or one more than the last for a
manual roll), and NUM_ROLL_MARK rises; with none due nothing happens. A slot without valid history
enters probe mode: history and figures cleared, scale 1; one still probing appends its amax; else
its scale is that of its history's maximum, raised at once where it clips beyond NUM_CLIP_THRESH;
the record is closed, a non-finite amax enters the history as 0 and is counted. A manual roll is
DENIED while one is due or rolls are automatic. A reload rewrites EFF_THRESH and PLACE of every
record, or is BAD_TYPE, counted, with a bad table. A scrub, retraining, integrity switch (with no
tier 3 page held, else DENIED) or seal is a long operation; at its end its work is done,
CAT_LAST_LONG is set and an open session is answered. (R152, R153, R155, R157, R158, R257, R258,
R260, R221, R222, R311, R452) -/
def Obligations.RollsExpertsAndLongOperations : Prop :=
  (∀ (s : State) (j : Nat), let d := s.dev
      ((d.job j).rolls = [] → Acts (.roll j) s fun e => e = d)
        ∧ ∀ (x : RollDue) (rest : List RollDue), (d.job j).rolls = x :: rest → Acts (.roll j) s fun e =>
            let a := d.advance (x.t + d.cget Cat.TT_SETTLE)
            let b := a.setJob j { a.job j with rolls := rest, lastRollT := some x.t }
            let last := d.cget (Cat.NUM_LAST_ROLL_STEP j)
            let n := match x.step with | some n => n | none => (last + 1) % 2 ^ 32
            let f := ((d.job j).slots.foldl (fun d kc =>
              (if x.step = none then d else d.fillGap j kc.2 last n).rollSlot j kc.1 kc.2 n (Tbl.getD x.figs kc.1 StatFig.empty))
              b).cset (Cat.NUM_LAST_ROLL_STEP j) n
            e = f.incMarkOpt j (f.cget (Cat.NUM_ROLL_MARK j)) f.stamp)
    ∧ (∀ (d : Dev) (j k : Nat) (c : SlotCfg) (n : Nat) (f : StatFig), let r := d.slotRec j k
        let amax (m : Nat) := Tbl.getD f.rows m 0
        let rows := if c.rowMode then List.range 64 else [0]
        let held : Bool := rows.any fun m => !finiteBits (amax m)
        let probe := slotProbeLeft r
        let p := if probe = 0 then d else d.bump Cat.NUM_PROBE_STEP
        let q := if held then p.bump Cat.NUM_HIST_HOLD else p
        let hist := rows.map fun m =>
          (c.histVa + 128 * m + 4 * (n % c.histLen), leBytes 4 (if finiteBits (amax m) then amax m else 0))
        let new := setFld (setFld r 474 6 (min (slotHistCount r + 1) c.histLen)) 470 4 (probe - 1)
        (slotHistValid r = false → d.rollSlot j k c n f = d.enterProbe j k c (some (n, f)))
          ∧ (slotHistValid r = true → 1 < probe → d.rollSlot j k c n f = q.statCommit j k (closeRec new n f false) hist)
          ∧ (slotHistValid r = true → probe ≤ 1 →
              let base (m : Nat) : Nat := let h := q.histMax j c m n (slotHistCount r)
                if h = 0 then slotS2 r else scaleFor c.fmt (slotMargin r) h 0
              let adapts : Bool := slotAdaptEn r && decide (c.fmt ≤ 5) && decide (f.elements ≠ 0)
                && clipsAbove (q.cget (Cat.NUM_CLIP_THRESH j)) f.clipped f.elements
              let final (m : Nat) : Nat := if adapts && finiteBits (amax m) && decide (amax m ≠ 0)
                then max (base m) (scaleFor c.fmt (slotMargin r) (amax m) 0) else base m
              let raised : Bool := rows.any fun m => decide (base m < final m)
              let scales := rows.map final
              let s2 := scales.foldl max 0
              d.rollSlot j k c n f = (if raised then q.bump Cat.NUM_CLIP_ADAPT else q).statCommit j k
                (closeRec (setFld new 224 32 s2) n f raised)
                (hist ++ [(slotScaleVa r, scaleBytes s2 (slotZeroPoint r) (if c.rowMode then scales else []))])))
    ∧ (∀ (d : Dev) (j k : Nat) (c : SlotCfg) (n : Nat) (f : StatFig), let r := d.slotRec j k
        let new := setFld (setFld (setFld (setFld r 474 6 0) 470 4 (d.cget (Cat.NUM_PROBE_STEPS j))) 224 32 0x3F800000) 48 1 1
        let bad : Bool := f.rows.any fun kv => !finiteBits kv.2
        d.enterProbe j k c (some (n, f)) = (if bad then d.bump Cat.NUM_HIST_HOLD else d).statCommit j k (closeRec new n f false)
          [(c.histVa, List.replicate (if c.rowMode then 8192 else 128) 0),
           (slotScaleVa r, scaleBytes 0x3F800000 (slotZeroPoint r) (if c.rowMode then List.replicate 64 0x3F800000 else []))])
    ∧ (∀ j v, WriteOp (.numStatRoll · j v) (0x9100 + j) 3 (leBytes 1 v) .byTable (fun _ => j < 16 && v = 1) (fun d _ e st =>
        let no : Prop := (d.tt.st = .running ∧ d.cget (Cat.NUM_ROLL_AUTO j) = 1) ∨ (d.job j).rollPending = true
        let x := d.job j
        (no → st = stDenied ∧ e = d)
          ∧ (¬ no → st = stOk ∧ e = d.setJob j { x with
              rolls := x.rolls ++ [{ t := d.now, step := none, figs := x.figs }], figs := [] })))
    ∧ (let reload (d : Dev) (j : Nat) (keep : Dev → Dev) (e : Dev) (st : Nat) : Prop :=
          (d.placementOn j = false → st = stOk ∧ e = keep d)
            ∧ (d.placementOn j = true → d.expertTableOk j = false → st = stBadType ∧ e = d.bump Cat.NMU_TABLE_REJECT)
            ∧ (d.placementOn j = true → d.expertTableOk j = true → st = stOk ∧ e = (keep d).rewriteExperts j);
        (∀ j v, WriteOp (.nmuTableReload · j v) (0x2780 + j) 3 (leBytes 1 v) .byTable (fun _ => j < 16 && v < 256)
            (fun d _ e st => (v = 1 → reload d j id e st) ∧ (v ≠ 1 → st = stOk ∧ e = d)))
          ∧ ∀ j v, WriteOp (.nmuPlaceThresh · j v) (0x2780 + j) 2 (leBytes 2 v) .byTable (fun _ => j < 16 && v < 65536)
            (fun d _ e st => reload d j (fun d => d.cset (Cat.NMU_PLACE_THRESH j) v) e st))
    ∧ (∀ (t n : Nat),
        let own := if fld n 160 16 = 0 then t else fld n 160 16
        let eff := if exHint n = 1 then 0xFFFFFFFF else if exHint n = 2 then 0 else own
        fld (placed t n) 96 32 = eff % 2 ^ 32 ∧ fld (placed t n) 0 32 = fld n 0 32 ∧ fld (placed t n) 33 31 = 0
          ∧ bit (placed t n) 32 = decide (exHint n = 2 ∨ (exHint n = 0 ∧ eff ≤ fld n 0 32)))
    ∧ (∀ v, StartsLong (.memScrubFull · v) 0x3000 6 (leBytes 1 v) 1 .byTable (fun _ => v < 256) (fun _ _ => True) (fun d _ => d)
        (.scrub v))
    ∧ (∀ v, StartsLong (.memRetrain · v) 0x3000 7 (leBytes 1 v) 1 .byTable (fun _ => v < 256) (fun _ _ => True) (fun d _ => d)
        (.retrain v))
    ∧ StartsLong (.memIntegrityEn · 1) 0x3000 2 (leBytes 1 1) 1 .byTable (fun _ => true) (fun d _ => d.t3Held = false)
        (fun d _ => d) (.integrity 1)
    ∧ (∀ (s : State) (r : Req) (d1 : Dev) (v : Nat),
        Admits (s.dev.advance r.at_) r 0x3000 2 (leBytes 1 v) .byTable (fun _ => v < 2) d1 → d1.t3Held = true →
          Acts (.memIntegrityEn r v) s fun e => e = d1.replied r 0x3000 2 (leBytes 1 v) stDenied)
    ∧ WriteOp (.memIntegrityEn · 0) 0x3000 2 (leBytes 1 0) .byTable (fun _ => true) (fun d _ e st =>
        (d.t3Held = true → st = stDenied ∧ e = d)
          ∧ (d.t3Held = false → st = stOk ∧ e = d.cset Cat.MEM_INTEGRITY_EN 0))
    ∧ (∀ j v, StartsLong (.expSeal · j v) (0x9200 + j) 0x16 v v.length .byTable
        (fun _ => j < 16 && v.length = 16 && sealCount (leNat v) ≠ 0) (fun _ _ => True)
        (fun d _ => d.bset (Cat.EXP_SEAL j) v) (.expSeal j v))
    ∧ (∀ (s : State) (hits : List ScrubHit), let d := s.dev
        (d.long = none → Acts (.longOperationEnd hits) s fun e => e = d)
          ∧ ∀ l : LongOp, d.long = some l → Acts (.longOperationEnd hits) s fun e =>
              let fin := l.finish hits { d with long := none }
              let h := match l.kind, fin.1.session? l.sess with
                | .rekey k, some x => fin.1.setSession l.sess (x.hold k)
                | _, _ => fin.1
              let f := h.bset Cat.CAT_LAST_LONG (leBytes 2 l.index ++ leBytes 1 l.field ++ leBytes 1 fin.2
                ++ leBytes 8 l.started ++ leBytes 8 h.now)
              (f.session? l.sess = none → e = f)
                ∧ (f.session? l.sess ≠ none → ∃ r : Req, r.sess = l.sess ∧ r.reqId = l.reqId ∧ r.transport = l.transport
                    ∧ r.typ = l.typ ∧ r.prot.isSome = l.prot ∧ e = f.answer r fin.2 0 [] l.index l.field 1))
    ∧ (∀ (l : LongOp) (hits : List ScrubHit) (d : Dev),
        (∀ mask, l.kind = .scrub mask → l.finish hits d = ((setBits 8 mask).foldl (fun d i => d.scrubPass i hits) d, stOk))
          ∧ (∀ mask, l.kind = .retrain mask → l.finish hits d = ((setBits 8 mask).foldl (fun d i => d.retrain i) d, stOk))
          ∧ (∀ v, l.kind = .integrity v → l.finish hits d = (d.cset Cat.MEM_INTEGRITY_EN v, stOk))
          ∧ (∀ k, l.kind = .rekey k → l.finish hits d = (d.endRekey k hits, stOk))
          ∧ (∀ j v, l.kind = .expSeal j v → l.finish hits d = d.endSeal j v)
          ∧ (∀ images ok, l.kind = .fwInstall images ok → l.finish hits d = d.endInstall images ok))
    ∧ ∀ (d : Dev) (i : Nat), (d.retrain i).cget (Cat.MEM_RETRAIN_COUNT i) = d.cget (Cat.MEM_RETRAIN_COUNT i) + 1
        ∧ i ∉ (d.retrain i).mem3.due ∧ (d.retrain i).mem = d.mem ∧ (d.retrain i).jobs = d.jobs

/-- MEM_ALLOC: a record that breaks R210 is BAD_TYPE; one beyond a quota, overlapping the job's own
addresses, or without room is DENIED with 0x21 and its kind; else its pages join the job's at the
address asked for, or, for 0, at one of its own that is free, each at a multiple of its size, in the
tier and on the dies named, apart from every page and each other, reading zeros (which of several
places is a free choice, log entry 2). MEM_FREE takes an allocation's pages away, not below a
region. MEM_BRING_IN moves a host page with MIGRATE to tier 3. MEM_RETIRE records the page once, up
to 4,095. A quota must fit the device, the other jobs' and the use. A scrub counts its hits and
poisons uncorrected lines and the four lines of a granule whose tag fails; the patrol's pass counts
once MEM_SCRUB_PERIOD has gone by. (R210, R211, R213, R214, R216, R217, R219, R221, R223, R226) -/
def Obligations.MemoryIsAllocatedFreedAndScrubbed : Prop :=
  (∀ j rec, WriteOp (.memAlloc · j rec) (0x3100 + j) 0x20 rec .byTable (fun _ => j < 16) (fun d _ e st =>
      let x := d.job j
      let result (n code kind : Nat) := setFld (setFld n 68 8 code) 64 4 kind
      let n := result (leNat rec) 0 0
      let denied (kind : Nat) : Prop :=
        st = stDenied ∧ e = (d.setJob j { x with allocRec := result n 0x21 kind }).lastStatus j 0x21 kind
      (rec.length ≠ 32 → st = stBadType
          ∧ e = (d.setJob j { x with allocRec := result (leNat (rec.take 32)) 0x30 0 }).lastStatus j 0x30 0)
        ∧ (rec.length = 32 → d.allocBad n = true → st = stBadType
            ∧ e = (d.setJob j { x with allocRec := setFld n 68 8 0x30 }).lastStatus j 0x30 0)
        ∧ (rec.length = 32 → d.allocBad n = false → d.allocVa j n = none → denied (aTier n + 1))
        ∧ (∀ va, rec.length = 32 → d.allocBad n = false → d.allocVa j n = some va →
            (∀ kind, d.overQuota j n va = some kind → denied kind)
              ∧ (d.overQuota j n va = none → d.allocPlaces n = none → denied (aTier n + 1))
              ∧ (∀ pas, d.overQuota j n va = none → d.allocPlaces n = some pas → st = stOk
                  ∧ e.job j = { x with pages := x.pages ++ newPages n va pas, allocRec := setFld n 76 52 va }
                  ∧ (∀ i, i ≠ j → e.job i = d.job i)
                  ∧ (aTier n = 2 → e.mem = d.mem)
                  ∧ (aTier n ≠ 2 → (∀ pa ∈ pas, ∀ i, i < aPage n → memByte e.mem (pa + i) = 0)
                    ∧ ∀ a, (∀ pa ∈ pas, ¬ (pa ≤ a ∧ a < pa + aPage n)) → memByte e.mem a = memByte d.mem a)))))
    ∧ (∀ (d : Dev) (j n : Nat), aSize n ≠ 0 →
        let clash (a : Nat) : Prop := 2 ^ 52 < a + aSize n ∨ ∃ t ∈ (d.job j).mapped, overlaps a (aSize n) t.1 t.2 = true
        (∀ va, d.allocVa j n = some va → ¬ clash va ∧ (aVa n ≠ 0 → va = aVa n) ∧ (aVa n = 0 → va % aPage n = 0 ∧ va ≠ 0))
          ∧ (d.allocVa j n = none → aVa n ≠ 0 → clash (aVa n))
          ∧ (d.allocVa j n = none → aVa n = 0 → ∀ a, a % aPage n = 0 → a ≠ 0 → clash a))
    ∧ (∀ (d : Dev) (j n va : Nat), let x := d.job j; let t3 := x.bytesIn d 3
        let tables := tableBytes (x.pages ++ newPages n va []) x.t1Ranges
        let more := if aTier n = 1 then aSize n else 0
        let beyond (kind : Nat) : Prop := d.quota j kind < (if aTier n = 1 then t3 else d.used j kind) + aSize n
        (beyond (aTier n + 1) → d.overQuota j n va = some (aTier n + 1))
          ∧ (¬ beyond (aTier n + 1) → d.quota j 2 < t3 + more + tables → d.overQuota j n va = some 2)
          ∧ (¬ beyond (aTier n + 1) → t3 + more + tables ≤ d.quota j 2 → d.overQuota j n va = none))
    ∧ (∀ (d : Dev) (n : Nat), let count := aSize n / aPage n
        let host := hostBase + aPort n * hostSpan + (aHost n - d.cget (Cat.HOST_WIN_BASE (aPort n)))
        let used : Prop := ∃ t ∈ d.taken, overlaps host (aSize n) t.1 t.2 = true
        (aTier n = 2 → used → d.allocPlaces n = none)
          ∧ (aTier n = 2 → ¬ used → d.allocPlaces n = some ((List.range count).map fun i => host + i * aPage n))
          ∧ (aTier n ≠ 2 → d.allocPlaces n = d.placePages (aTier n + 2) (aPage n) (fld n 56 8) (bit n 51) count))
    ∧ (∀ (d : Dev) (tier k mask : Nat) (spread : Bool) (n : Nat) (pas : List Nat), let size : Nat := pageSize k
        d.placePages tier size mask spread n = some pas → pas.length = n
          ∧ (∀ pa ∈ pas, pa % size = 0 ∧ ∀ t ∈ d.taken, overlaps pa size t.1 t.2 = false)
          ∧ (∀ i j a b : Nat, i < j → pas[i]? = some a → pas[j]? = some b → overlaps a size b size = false)
          ∧ (tier = 2 → ∀ pa ∈ pas, ∃ die, die < 8 ∧ (mask = 0 ∨ bit mask die = true) ∧ t2Base + die * t2Span ≤ pa
              ∧ pa + size ≤ t2Base + (die + 1) * t2Span)
          ∧ (tier = 3 → ∀ pa ∈ pas, ∃ die, die < 8 ∧ (mask = 0 ∨ bit mask die = true) ∧ die * dieSpan ≤ pa
              ∧ pa + size ≤ die * dieSpan + d.t3Limit))
    ∧ (∀ j v, WriteOp (.memFree · j v) (0x3100 + j) 0x21 (leBytes 8 v) .byTable (fun _ => j < 16 && v < 2 ^ 64)
        (fun d _ e st => let x := d.job j; let ps := x.pages.filter fun p => p.alloc = v
          let region : Prop := d.regionOver j v (ps.map (·.size)).sum = true
          (ps = [] → st = stNoEntry ∧ e = d)
            ∧ (ps ≠ [] → region → st = stDenied ∧ e = d)
            ∧ (ps ≠ [] → ¬ region → st = stOk ∧ let a := d.drainWrites ps
                e = (a.setJob j { a.job j with pages := x.pages.filter fun p => p.alloc ≠ v }).cset (Cat.MEM_FREE j) v)))
    ∧ (∀ j v, WriteOp (.memBringIn · j v) (0x3100 + j) 0x22 (leBytes 8 v) .byTable
        (fun _ => j < 16 && v < 2 ^ 64 && fld v 52 4 = 0) (fun d0 _ e st => let d := d0.cset (Cat.MEM_BRING_IN j) v; let x := d0.job j
          let page := x.pages.find? fun p => p.va = fld v 0 52 && p.migrate && d0.tierOf p.pa = 4
          (page = none → st = stNoEntry ∧ e = d)
            ∧ (∀ p, page = some p → d.quota j 2 < d.used j 2 + p.size → st = stDenied ∧ e = d.lastStatus j 0x21 2)
            ∧ (∀ p, page = some p → d.used j 2 + p.size ≤ d.quota j 2 → d.placePages 3 p.size (fld v 56 8) false 1 = none →
                st = stDenied ∧ e = d.lastStatus j 0x21 2)
            ∧ (∀ p pa, page = some p → d.used j 2 + p.size ≤ d.quota j 2 →
                d.placePages 3 p.size (fld v 56 8) false 1 = some [pa] → st = stOk
                  ∧ let a := ((d.takeN 1).zeroPage pa p.size).copyFromHost (d.keyedFor j p.pa p) pa p.size
                    e = (a.setJob j { a.job j with pages := x.pages.map fun q =>
                      if q.va = p.va then { q with pa := pa, migrate := false, enc := true } else q }).bump (Cat.MEM_BRING_INS j))))
    ∧ (∀ v, WriteOp (.memRetire · v) 0x3000 3 (leBytes 8 v) .byTable (fun _ => v % 0x1_0000 = 0 && v < t2Base)
        (fun d _ e st =>
          (4095 < d.nv.retired.length → st = stDenied ∧ e = (d.bump Cat.MEM_RETIRE_FULL).alert 10)
            ∧ (d.nv.retired.length ≤ 4095 → v ∈ d.nv.retired → st = stOk ∧ e = d)
            ∧ (d.nv.retired.length ≤ 4095 → v ∉ d.nv.retired → st = stOk
                ∧ let a := ({ d with nv := { d.nv with retired := d.nv.retired ++ [v] } } : Dev).evacuate v
                  e = if a.capacity 2 < a.quotaSum 2 16 then a.alert 3 else a)))
    ∧ (∀ j kind v, WriteOp (.quotaWrite · j kind v) (0x3100 + j) kind v .byTable
        (fun _ => j < 16 && kind ≤ 6 && (if kind = 0 then v.length = 32 && t1QuotaForm (leNat v)
          else kind = 4 || kind = 5 || leNat v % 0x1_0000 = 0)) (fun d _ e st =>
          (kind = 0 → (d.t1QuotaFits j (leNat v) = false → st = stDenied ∧ e = d)
              ∧ (d.t1QuotaFits j (leNat v) = true → st = stOk
                  ∧ e = (d.bset (Cat.MEM_QUOTA_T1 j) v).setJob j { d.job j with t1Stale := true }))
            ∧ (kind ≠ 0 → let no : Prop := d.capacity kind < d.quotaSum kind j + leNat v ∨ leNat v < d.used j kind
                (no → st = stDenied ∧ e = d)
                  ∧ (¬ no → st = stOk ∧ e = d.cset (Cat.MEM_QUOTA j kind) (leNat v)))))
    ∧ (∀ (s : State) (at_ die : Nat) (hits : List ScrubHit), let d := s.dev.advance at_
        let due : Prop := Tbl.getD d.mem3.patrolAt die 0 + d.cget Cat.MEM_SCRUB_PERIOD * 8000000000 ≤ d.now
        (8 ≤ die ∨ d.released = false → Acts (.patrolScrub at_ die hits) s fun e => e = d)
          ∧ (die < 8 → d.released = true → ¬ due → Acts (.patrolScrub at_ die hits) s fun e => e = d.scrubHits die hits)
          ∧ (die < 8 → d.released = true → due → Acts (.patrolScrub at_ die hits) s fun e => let f := d.scrubHits die hits
              e = { f.bump (Cat.MEM_SCRUB_PASSES die) with
                    mem3 := { f.mem3 with patrolAt := Tbl.set d.mem3.patrolAt die d.now } }))
    ∧ ∀ (d : Dev) (die : Nat) (hits : List ScrubHit), let e := d.scrubHits die hits
        let mine (h : ScrubHit) : Prop := h ∈ hits ∧ memDie (64 * h.line) = some die
        let granule (h : ScrubHit) (l : Nat) : Prop := h.tag = true ∧ d.integrityOn = true
          ∧ (∃ i, d.region (64 * h.line) = .tier3 i) ∧ l / 4 = h.line / 4
        e.mem = d.mem ∧ e.jobs = d.jobs
          ∧ (∀ h, mine h → h.tag = false → h.corrected = false → e.isPoisoned h.line = true)
          ∧ (∀ h l, mine h → granule h l → e.isPoisoned l = true)
          ∧ (∀ l, d.isPoisoned l = true → e.isPoisoned l = true)
          ∧ (∀ l, e.isPoisoned l = true → d.isPoisoned l = true
              ∨ ∃ h, mine h ∧ ((h.tag = false ∧ h.corrected = false ∧ h.line = l) ∨ granule h l))

/-- A packet of op `op` comes to connection record `x` (steps 1 to 3 of R346): its port is up, it is
well formed, and its context is on die. -/
def Arrives (d : Dev) (op : Nat) (p : Pkt) (x : Conn) : Prop :=
  d.netUp p.port = true ∧ d.malformed op p = false ∧ d.conn? p.conn = some x ∧ x.st ≠ .pending ∧ x.residence = 0

/-- It passes steps 4 to 6: the connection is not in ERROR, the tenant is its job's, the packet
number is new, and a sequenced packet's SEQ is new and in the window. -/
def Fresh (d : Dev) (op : Nat) (p : Pkt) (x : Conn) : Prop :=
  x.st ≠ .error ∧ p.tenant = (d.job x.job).tenant ∧ x.replayed p.pn = false
    ∧ (opSequenced op = true → (p.seq - x.cumRx).msb = false ∧ p.seq ∉ x.got ∧ (p.seq - x.cumRx).toNat < 1024)

/-- Packet command `mk` of op `op`, where the packet names that op, arrives, is fresh and passes its
region checks: with no room in what it goes to it is dropped and counted (R23); else, where its tag
verifies, it acts: `P` relates the device on which it is verified to the one that its action leads
to (R346). -/
def PacketOp (mk : Pkt → Instr) (op : Nat) (region : Dev → Pkt → Conn → Option Deny) (sink : Dev → Pkt → Conn → Bool)
    (P : Dev → Dev → Pkt → Conn → Prop) : Prop :=
  ∀ (s : State) (p : Pkt) (x : Conn), let d := s.dev.advance p.at_
    p.op = op → Arrives d op p x → Fresh d op p x → region d p x = none →
      (sink d p x = true → Acts (mk p) s fun e => e = d.mac p.port Cat.RX_FULL_DROP)
        ∧ (sink d p x = false → x.tagOk p = true → Acts (mk p) s fun e => P (d.verified p) e p x)

/-- The regions of WRITE and SEAL (R347). -/
def writeRegion (d : Dev) (p : Pkt) (x : Conn) : Option Deny :=
  d.regionDeny p.conn x p.region p.at_ (fld p.ext 64 64) p.len true

/-- On a port that is down nothing comes; a malformed packet, one for no connection, a replay are
counted; one whose context is away is held; in ERROR, of another tenant or beyond the window it is
refused; a duplicate is acknowledged; one that gets no room in what it goes to is dropped, counted.
A WRITE's payload lands at the region's offset and clears the taints it covers, unless its stamp
lies after the deadline of a seal that waits for them; a SEAL waits for its predecessors among 1,024
places, else is dropped, counted; a READ_REQ is answered by its bytes, or by the version chosen; a
READ_RESP lands at its entry's destination, one that names none is counted; ACK and NACK act on what
was sent; a CONTRIB of its member's connection is taken and counted, another is counted as a
mismatch; a ballot counts at the root, a result from the root or the deputy; a PACE of a listed
connection raises the lag for this step or the one before, else is counted as ignored; a MGMT
fragment joins its message; a TTSYNC of a listed connection in ARMED is its peer's word unless an
older one had a later stamp. (R331, R338, R344, R346, R347, R348, R350, R351, R355, R360, R369,
R373) -/
def Obligations.PacketsActOnceVerified : Prop :=
  let none_ (_ : Dev) (_ : Pkt) (_ : Conn) : Option Deny := none
  let room (_ : Dev) (_ : Pkt) (_ : Conn) : Bool := false
  PacketOp .write 1 writeRegion (fun d p x => d.stalledIn x.job ((d.netRegion (p.region % 2 ^ 16)).va + fld p.ext 64 64) p.len)
      (fun d e p x =>
        let va := (d.netRegion (p.region % 2 ^ 16)).va + fld p.ext 64 64
        let l := d.land x.job va (x.plain p)
        e = (l.updConn p.conn (Conn.clearTaints · (l.cget Cat.NET_TAINT_HOLD) p.region (fld p.ext 64 64) p.len p.at_)).received p)
    ∧ (∀ (x : Conn) (hold region off len stamp : Nat),
        let after (p : Nat → Prop) : Prop := ∃ t, x.taintDeadline hold = some t ∧ p t
        let covers (t : Taint) : Bool := t.region = region && off ≤ t.offset && t.offset + t.len ≤ off + len
        (after (· < stamp) → x.clearTaints hold region off len stamp = x)
          ∧ (¬ after (· < stamp) → x.clearTaints hold region off len stamp = { x with taints := x.taints.filter (!covers ·) }))
    ∧ PacketOp .sealWrite 2 writeRegion room (fun d e p x =>
      let w : WaitSeal := { seq := p.seq, at_ := p.at_, region := p.region, offset := fld p.ext 64 64, payload := x.plain p }
      let t := (d.updConn p.conn fun y =>
        { y.clearTaints (d.cget Cat.NET_TAINT_HOLD) p.region (fld p.ext 64 64) p.len p.at_ with
          seals := (y.clearTaints (d.cget Cat.NET_TAINT_HOLD) p.region (fld p.ext 64 64) p.len p.at_).seals ++ [w] }).received p
      (1024 ≤ d.sealsWaiting → e = d.bump Cat.NET_SEAL_WAIT_FULL)
        ∧ (d.sealsWaiting < 1024 → (t.netRegion (p.region % 2 ^ 16)).settled = false → e = t)
        ∧ ∀ y, d.sealsWaiting < 1024 → (t.netRegion (p.region % 2 ^ 16)).settled = true → t.conn? p.conn = some y →
            e = if y.frontSeal = some w ∧ y.taints = [] then t.landSeal p.conn w else t.strandSeal p.conn w)
    ∧ PacketOp .readReq 3 (fun d p x => d.regionDeny p.conn x p.region p.at_ (readOffset p)
        (if bit p.ext 127 then 64 else fld p.ext 160 32) false) (fun d p x => readSink p d x) (fun d e p x =>
      (bit p.ext 127 = false → e = (d.received p).sendReads p.conn x.job
          ((d.netRegion (p.region % 2 ^ 16)).va + fld p.ext 192 64) (fld p.ext 160 32) (fld p.ext 160 32) p.seq none)
        ∧ (bit p.ext 127 = true → (∀ f, d.decideVersion p x true = some f → e = f)
            ∧ (d.decideVersion p x true = none →
                (64 ≤ d.net.versions.length → e = d.sendNack p.conn p.seq 1 100 0 0 false)
                  ∧ (d.net.versions.length < 64 → let r := d.received p
                      e = { r with net := { r.net with
                        versions := r.net.versions ++ [{ op := 3, pkt := p, at_ := r.now }] } }))))
    ∧ PacketOp .readResp 4 none_ (fun d p x => readRespSink p d x) (fun d e p x =>
      (d.readOf p = none → e = d.bump Cat.NET_RX_STALE_RESP)
        ∧ ∀ k r, d.readOf p = some (k, r) →
            let va := r.dst + fld p.ext 320 64
            let l := d.land r.job va ((x.plain p).take (r.room - fld p.ext 320 64))
            let line (i : Nat) : Nat := match l.xlate r.job (va + 64 * i) false with | some (pa, _) => pa / 64 * 64 | none => 0
            let u := l.updCmd r.cmd fun c => c.drop ((setBits 128 (fld p.ext 0 128)).map line)
            let v := if r.versioned = true then u.noteVersion r (fld p.ext 224 32) (fld p.ext 256 64) else u
            e = ({ v with net := { v.net with reads := Tbl.set v.net.reads k { r with
                missing := r.missing.filter fun n => !(respLines p).contains n } } } : Dev).checkRead k)
    ∧ PacketOp .ack 5 none_ room (fun d e p _ => e = d.takeAck p.conn p.ext p.at_)
    ∧ PacketOp .nack 6 none_ room (fun d e p _ => e = d.takeNack p.conn p.ext (bit p.flags.toNat 6))
    ∧ PacketOp .contrib 7 (fun d p x => d.contribDeny p x) (fun d p x => contribSink p d x) (fun d e p x =>
      let m := fld p.ext 201 7
      (d.memberConn x.job m ≠ some p.conn → e = (d.bump (Cat.RED_MEMBER_MISMATCH x.job)).received p)
        ∧ (d.memberConn x.job m = some p.conn →
            let rec_ := Tbl.getD (d.job x.job).red.shards (fld p.ext 240 16) 0
            let t := (d.takeContrib x.job (fld p.ext 240 16) p.step p.at_ (fld p.ext 208 32) (fld p.ext 196 4)
              (x.plain p)).bumpBy (Cat.NET_JOB_RX_BYTES x.job) (if (d.contribCase p x rec_).adds then p.len else 0)
            let r := (t.job x.job).red
            e = (if bit p.ext 200 then t.setRed x.job { r with finals := r.finals ++ [(p.step, m, p.conn, p.seq)] }
              else t).received p))
    ∧ (let ballot (p : Pkt) : Prop := fld p.ext 254 2 ≠ 1;
        (∀ s p, ballot p → Acts (.voteResult p) s fun e => e = s.dev.advance p.at_)
          ∧ (∀ s p, ¬ ballot p → Acts (.ballot p) s fun e => e = s.dev.advance p.at_)
          ∧ PacketOp .ballot 8 none_ room (fun d e p x => ballot p → let h := voteHead p.ext; let j := x.job
            let counts : Prop := d.member j = d.voteRoot j ∧ h.kind = 0 ∧ d.memberConn j h.member = some p.conn
              ∧ d.voteFits j h = true
            (counts → e = (d.takeBallot j p.step h ((elemsOf 4 (x.plain p)).take h.norms) p.at_).received p)
              ∧ (¬ counts → e = d.received p))
          ∧ PacketOp .voteResult 8 none_ room (fun d e p x => ¬ ballot p → let h := voteHead p.ext; let j := x.job
            let counts : Prop := (h.member = d.voteRoot j ∨ h.member = d.voteDeputy j)
              ∧ d.memberConn j h.member = some p.conn ∧ d.voteFits j h = true
            let vals := (elemsOf 4 (x.plain p)).take h.norms
            (counts → e = ((d.forwardResult j p.step h vals).takeResult j p.step h vals).received p)
              ∧ (¬ counts → e = d.received p)))
    ∧ PacketOp .pace 9 none_ room (fun d e p x =>
      let applies : Prop := p.conn ∈ d.paceConns x.job ∧ x.job = d.anchor ∧ d.tt.st = .running ∧ fld p.ext 166 3 ≤ 1
        ∧ (p.step = d.tt.step ∨ p.step + 1 = d.tt.step)
      (applies → e = ({ d with tt := { d.tt with paceLag := max d.tt.paceLag (fld p.ext 192 64) } } : Dev).bump
          (Cat.PACE_APPLIED x.job))
        ∧ (¬ applies → e = d.bump (Cat.PACE_IGNORED x.job)))
    ∧ PacketOp .mgmt 10 none_ room (fun d e p x => let w := p.ext; let r := d.received p
      (x.st ≠ .open_ → e = r)
        ∧ (x.st = .open_ → 1048576 < fld w 32 32 → fld w 64 32 ≠ 0 → e = r)
        ∧ (x.st = .open_ → 1048576 < fld w 32 32 → fld w 64 32 = 0 →
            e = (r.updConn p.conn fun y => { y with mgmtPart := some (fld w 0 32, []) }).answerTooLong (.mgmt p.conn) p.at_
              (x.plain p))
        ∧ (x.st = .open_ → fld w 32 32 ≤ 1048576 →
            let part := (joinFragment x.mgmtPart (fld w 0 32) (fld w 64 32) (fld w 32 32) (bit w 125) (x.plain p)).1
            e = r.updConn p.conn fun y => { y with mgmtPart := part }))
    ∧ PacketOp .ttsync 11 none_ room (fun d e p _ =>
      let r := d.bump Cat.NET_TTSYNC_RX
      let peer : TtPeer := {
        digest := fld p.ext 256 256, epoch := fld p.ext 192 64, firstStep := fld p.ext 96 32,
        curEpoch := fld p.ext 128 64, curStep := p.step, state := fld p.ext 80 8, stamp := (expandStamp d.now p.stamp).toNat }
      let older : Prop := ∃ y, Tbl.find? d.tt.peers p.conn = some y ∧ peer.stamp < y.stamp
      let heard : Prop := d.tt.st = .armed ∧ p.conn ∈ d.ttConns
      let word (t : Dev) : Prop := e = if bit p.ext 72 = true then t.sendTtsync p.conn false else t
      (¬ heard → word r)
        ∧ (heard → ∃ u : Dev, (older → u = r)
            ∧ (¬ older → u = { r with tt := { r.tt with peers := Tbl.set r.tt.peers p.conn peer } })
            ∧ word (u.bumpBy Cat.TT_DIGEST_MISMATCH (if r.ttSame peer = true then 0 else 1))))
    ∧ (let kinds : List ((Pkt → Instr) × Nat) := [(.write, 1), (.sealWrite, 2), (.readReq, 3), (.readResp, 4), (.ack, 5),
          (.nack, 6), (.contrib, 7), (.pace, 9), (.mgmt, 10), (.ttsync, 11)]
      ∀ k ∈ kinds, ∀ (s : State) (p : Pkt), let d := s.dev.advance p.at_; let op := k.2
        let ok : Prop := p.op = op ∧ d.netUp p.port = true ∧ d.malformed op p = false
        (p.op ≠ op ∨ d.netUp p.port = false → Acts (k.1 p) s fun e => e = d)
          ∧ (p.op = op → d.netUp p.port = true → d.malformed op p = true →
              Acts (k.1 p) s fun e => e = d.bump Cat.NET_RX_MALFORMED)
          ∧ (ok → (∀ x, d.conn? p.conn = some x → x.st = .pending) → Acts (k.1 p) s fun e => e = d.bump Cat.NET_RX_NO_CONN)
          ∧ (∀ x, ok → d.conn? p.conn = some x → x.st ≠ .pending → x.residence ≠ 0 →
              Acts (k.1 p) s fun e => e = d.holdPkt op p)
          ∧ ∀ x, p.op = op → Arrives d op p x →
              (x.st = .error → Acts (k.1 p) s fun e =>
                  e = (if x.taintTie op p = true then d.bump Cat.TIE_LATE_STAMP else d).denyPkt op p x ⟨5, none⟩ false true)
                ∧ (x.st ≠ .error → p.tenant ≠ (d.job x.job).tenant → Acts (k.1 p) s fun e =>
                    e = d.denyPkt op p x ⟨4, some Cat.NET_RX_TENANT_MISMATCH⟩ false false)
                ∧ (x.st ≠ .error → p.tenant = (d.job x.job).tenant →
                    (x.replayed p.pn = true → Acts (k.1 p) s fun e => e = d.bump Cat.NET_RX_REPLAY)
                      ∧ (x.replayed p.pn = false → opSequenced op = true →
                          ((p.seq - x.cumRx).msb = true ∨ p.seq ∈ x.got → Acts (k.1 p) s fun e => e = d.duplicate p x)
                            ∧ ((p.seq - x.cumRx).msb = false → p.seq ∉ x.got → 1024 ≤ (p.seq - x.cumRx).toNat →
                                Acts (k.1 p) s fun e => e = d.denyPkt op p x ⟨6, none⟩ false false))))

/-- PACKET_TRANSMIT on an OPEN or DRAINING connection with its context on die and its port up sends
a resend that is due, else the next packet the window allows. A packet leaves under the next PN.
ACK_DELAY sends the ACK. RTO_EXPIRY loses the SEQ: resent at once, or ERROR at the retry limit. A
round's end halves W after a loss, else raises it. ERROR is counted and empties the connection.
SEAL_LAND lands the front seal without taints; one that waited too long for a taint puts the
connection into ERROR. Held versioned reads are decided each 1 µs; reads are asked for again or
abandoned with zeros; held packets are dropped in time; a fetched context resumes them, or ERROR
with a failed authentication. DRAIN_END frees it. TTSYNC goes to each listed connection. (R331,
R335, R336, R337, R339, R340, R341, R343, R348, R350, R351, R352) -/
def Obligations.ConnectionsSendAndRecover : Prop :=
  (∀ (s : State) (at_ c : Nat), let d := s.dev.advance at_
      let nothing (mk : Instr) : Prop := Acts mk s fun e => e = d
      (d.conn? c = none → nothing (.packetTransmit at_ c) ∧ nothing (.sealLand at_ c)
          ∧ nothing (.connectionDrainEnd at_ c) ∧ nothing (.contextFetchComplete at_ c))
        ∧ ∀ x, d.conn? c = some x →
            let may : Prop := (x.st = .open_ ∨ x.st = .draining) ∧ x.residence = 0 ∧ d.netUp x.port = true
            let due := x.sent.find? fun p => (match p.2.resend with | some t => decide (t ≤ d.now) | none => false)
              && (!p.2.byWindow || decide (x.outstanding ≤ x.win))
            let room (i : TxItem) : Prop := x.outstanding + i.len ≤ x.win ∧ x.span < 1023
              ∧ (i.op = 3 → d.readEntries < 2048)
            (¬ may → nothing (.packetTransmit at_ c))
              ∧ (∀ q y, may → due = some (q, y) → Acts (.packetTransmit at_ c) s fun e => e = d.sendAgain c x q y)
              ∧ (may → due = none → x.queue = [] → nothing (.packetTransmit at_ c))
              ∧ (∀ i rest, may → due = none → x.queue = i :: rest →
                  (room i → Acts (.packetTransmit at_ c) s fun e => e = d.sendNext c x i rest)
                    ∧ (¬ room i → nothing (.packetTransmit at_ c)))
              ∧ (x.frontSeal = none ∨ x.taints ≠ [] → nothing (.sealLand at_ c))
              ∧ (∀ w, x.frontSeal = some w → d.sealServed w = false → nothing (.sealLand at_ c))
              ∧ (∀ w, x.frontSeal = some w → x.taints = [] → d.sealServed w = true → Acts (.sealLand at_ c) s fun e => e = d.landSeal c w
                  ∧ (∀ y, e.conn? c = some y → ∀ t ∈ y.seals, t.seq ≠ w.seq)
                  ∧ (e.netRegion (w.region % 2 ^ 16)).landed = (d.netRegion (w.region % 2 ^ 16)).landed + 1)
              ∧ (x.residence = 0 → nothing (.contextFetchComplete at_ c))
              ∧ (x.residence = 2 → d.storeOk x = false → Acts (.contextFetchComplete at_ c) s fun e =>
                  (∃ y, e.conn? c = some y ∧ y.st = .error ∧ y.residence = 0) ∧ (∀ h ∈ e.net.hold, h.pkt.conn ≠ c)
                    ∧ e.cget Cat.NET_CTX_AUTH_FAIL = d.cget Cat.NET_CTX_AUTH_FAIL + 1)
              ∧ (x.residence ≠ 0 → (x.residence = 2 → d.storeOk x = true) → Acts (.contextFetchComplete at_ c) s fun e =>
                  let mine := d.net.holdMiss.filter fun m => m.1 = c
                  let t := d.bumpBy Cat.TIE_LATE_STAMP (mine.filter fun m => at_ ≤ m.2).length
                  let f : Dev := { t with net := { t.net with holdMiss := t.net.holdMiss.filter fun m => m.1 ≠ c } }
                  e = ((f.updConn c fun y => { y with residence := 0, used := d.now }).evictContexts).resumeHeld c at_)
              ∧ (let ended : Prop := x.queue = [] ∧ x.sent = [] ∧ d.netHeld c x = false
                let late : Prop := x.drainAt + d.cget Cat.NET_RTO_MAX * d.cget Cat.NET_RETRY_MAX ≤ d.now
                (x.st ≠ .draining ∨ ¬ (ended ∨ late) → nothing (.connectionDrainEnd at_ c))
                  ∧ (x.st = .draining → ended ∨ late → Acts (.connectionDrainEnd at_ c) s fun e => e.conn? c = none
                      ∧ (∀ h ∈ e.net.hold, h.pkt.conn ≠ c) ∧ ∀ h ∈ e.net.versions, h.pkt.conn ≠ c)))
    ∧ (∀ (s : State) (c : Nat), let d := s.dev
        (d.conn? c = none → (Acts (.ackDelay c) s fun e => e = d) ∧ (Acts (.taintHoldExpiry c) s fun e => e = d)
            ∧ ∀ q, Acts (.rtoExpiry c q) s fun e => e = d)
          ∧ ∀ x, d.conn? c = some x →
              (x.ackSince = none → Acts (.ackDelay c) s fun e => e = d)
                ∧ (∀ t, x.ackSince = some t → Acts (.ackDelay c) s fun e => e = (d.advance (t + d.cget Cat.NET_ACK_DELAY)).sendAck c)
                ∧ (x.frontSeal = none ∨ x.taints = [] → Acts (.taintHoldExpiry c) s fun e => e = d)
                ∧ (∀ w, x.frontSeal = some w → x.taints ≠ [] → Acts (.taintHoldExpiry c) s fun e =>
                    let t := max x.cumAt w.at_ + d.cget Cat.NET_TAINT_HOLD
                    e = (((d.advance (t + d.cget Cat.TT_SETTLE)).connError c 1).updConn c fun y =>
                      { y with taintMiss := some (t, x.taints) }).sendNack c w.seq 5 0 0 0 true)
                ∧ ∀ (q : Word), let hit := x.sent.find? fun p => p.1 = q && !p.2.acked && p.2.resend.isNone
                    (hit = none → Acts (.rtoExpiry c q) s fun e => e = d)
                      ∧ ∀ r y, hit = some (r, y) → Acts (.rtoExpiry c q) s fun e =>
                          let rto := min (d.cget Cat.NET_RTO_INIT * 2 ^ min (y.times - 1) 32) (d.cget Cat.NET_RTO_MAX)
                          let note (p : Word × TxSent) : Word × TxSent :=
                            if p.1 = q then (q, { p.2 with missed := some (y.sentAt + rto) }) else p
                          e = ((d.advance (y.sentAt + rto + d.cget Cat.TT_SETTLE)).setConn c
                            { x with sent := x.sent.map note }).loseSeq c q)
    ∧ (∀ (d : Dev) (c : Nat) (x : Conn), d.conn? c = some x →
        (∀ q r y, x.sent.find? (fun p => p.1 = q) = some (r, y) →
            (d.cget Cat.NET_RETRY_MAX < y.times → d.loseSeq c q =
                (d.updConn c fun z => { z with roundLoss := true }).connError c 0)
              ∧ (y.times ≤ d.cget Cat.NET_RETRY_MAX → ∃ z, (d.loseSeq c q).conn? c = some z ∧ z.roundLoss = true
                  ∧ ∀ p ∈ z.sent, p.1 = q → p.2.resend = some d.now))
          ∧ (∀ cause, x.st ≠ .error → let e := d.connError c cause
              (∃ y, e.conn? c = some y ∧ y.st = .error ∧ y.queue = [] ∧ y.sent = [] ∧ y.seals = [] ∧ y.taints = [])
                ∧ e.cget Cat.NET_CONN_ERROR = d.cget Cat.NET_CONN_ERROR + 1)
          ∧ (∀ op flags region q step ext extLen payload, d.netUp x.port = true →
              let e := d.sendPkt c op flags region q step ext extLen payload
              (∃ y, e.conn? c = some y ∧ y.pn = x.pn + 1)
                ∧ ∃ o ident, Out.packet o (d.pktFrame c x ident extLen o) ∈ e.out ∧ o.pn = x.pn + 1 ∧ o.op = op
                  ∧ o.port = x.port ∧ o.conn = x.peer ∧ o.payload = payload ∧ o.ext = ext ∧ o.seq = q.toNat
                  ∧ o.flags = flags ∧ o.region = region ∧ o.step = step ∧ o.tenant = (d.job x.job).tenant
                  ∧ o.stamp = d.now % 2 ^ 40)
          ∧ (let w := (d.endRound x).win; let low := d.cget Cat.NET_WIN_MIN
            (x.roundLoss = true → w = max low (x.win / 2))
              ∧ (x.roundLoss = false → x.roundCe = 0 →
                  w = min (d.cget Cat.NET_WIN_MAX) (x.win + d.cget Cat.NET_MAELGO_MAX_PAYLOAD))
              ∧ (x.roundLoss = false → 0 < x.roundCe → w ≤ max low x.win)))
    ∧ (∀ (s : State) (k : Nat), let d := s.dev
        (d.net.versions[k]? = none → Acts (.versionHoldRetry k) s fun e => e = d)
          ∧ (∀ h, d.net.versions[k]? = some h → Acts (.versionHoldRetry k) s fun e =>
              let t := d.advance (h.at_ + 8000)
              let w : Dev := { t with net := { t.net with versions := t.net.versions.eraseIdx k } }
              (t.conn? h.pkt.conn = none → e = w)
                ∧ ∀ x, t.conn? h.pkt.conn = some x → (∀ f, w.decideVersion h.pkt x false = some f → e = f)
                  ∧ (w.decideVersion h.pkt x false = none →
                      e.net.versions[k]? = some { h with at_ := t.now } ∧ e.now = max d.now (h.at_ + 8000)))
          ∧ (d.net.hold[k]? = none → Acts (.holdTimeout k) s fun e => e = d)
          ∧ (∀ h, d.net.hold[k]? = some h → Acts (.holdTimeout k) s fun e => e.net.hold = d.net.hold.eraseIdx k
              ∧ e.now = max d.now (h.at_ + d.cget Cat.NET_HOLD_TIMEOUT + d.cget Cat.TT_SETTLE)
              ∧ e.net.holdMiss = (h.pkt.conn, h.at_ + d.cget Cat.NET_HOLD_TIMEOUT) :: d.net.holdMiss
              ∧ e.cget Cat.NET_HOLD_TIMEOUT_DROP = d.cget Cat.NET_HOLD_TIMEOUT_DROP + 1)
          ∧ (Tbl.find? d.net.reads k = none → Acts (.readTimeout k) s fun e => e = d)
          ∧ (∀ r, Tbl.find? d.net.reads k = some r → r.ackedAt = none → Acts (.readTimeout k) s fun e => e = d)
          ∧ ∀ r t, Tbl.find? d.net.reads k = some r → r.ackedAt = some t → Acts (.readTimeout k) s fun e =>
              let w := d.advance (t + d.cget Cat.NET_READ_TIMEOUT)
              (r.reissues < d.cget Cat.NET_READ_RETRIES →
                  e = (runsOf r.missing).foldl (fun d q => d.addRead
                      (ReadEntry.part { r with reissues := r.reissues + 1 } q.1 q.2 ((List.range q.2).map (q.1 + ·))) false)
                    ((w.bump Cat.NET_READ_RETRY).dropRead k))
                ∧ (d.cget Cat.NET_READ_RETRIES ≤ r.reissues →
                    let zeros := r.missing.foldl (fun d n =>
                      d.jwr r.job (r.dst + 64 * n) (List.replicate (min 64 (r.room - 64 * n)) 0)) w
                    let line (n : Nat) : Nat := match w.xlate r.job (r.dst + 64 * n) false with
                      | some (pa, _) => pa / 64 * 64
                      | none => 0
                    let f := (zeros.bumpBy Cat.NET_READ_ABANDON (runsOf r.missing).length).updCmd r.cmd fun y =>
                      y.drop (r.missing.map line)
                    e = ((f.dropRead k).settleXfer r.conn r.xfer).checkSent r.cmd))
    ∧ ∀ s : State, let d := s.dev
        (d.tt.st ≠ .armed → Acts .ttsyncSend s fun e => e = d)
          ∧ (d.tt.st = .armed → Acts .ttsyncSend s fun e =>
              let due := match d.net.ttSent with
                | some t => if d.tt.armedAt ≤ t then t + 8000000 else d.tt.armedAt
                | none => d.tt.armedAt
              let w := d.advance due
              e = d.ttConns.foldl (fun d c => d.sendTtsync c true)
                ({ w with net := { w.net with ttSent := some (max due d.tt.armedAt) } } : Dev))

/-- NET_CONN_OPEN: the identifier named, a PENDING one of the job, or for 0x7FFFF the lowest free
one as PENDING; without room or quota DENIED. CLOSE drains an OPEN connection and frees others.
NET_REGION_REG takes a free index (any: log entry 2) with its generation in the handle, within the
quota. REVOKE makes a VALID region REVOKING from now; REVOKE_SETTLE discards its waiting seals
TT_SETTLE later; REVOKE_COMPLETE frees it under the next generation when nothing is in flight,
counted. NET_PORT_MODE is DENIED with a connection open, else ports retrain. A frame on a port that
is up is counted by its first error, else classified. Ring tails, an underrun and ARP requests act
as ruled. (R313, R318, R320, R321, R333, R334, R335, R344, R345, R353, R439, R441) -/
def Obligations.ConnectionsRegionsPortsAndFrames : Prop :=
  (∀ j rec, WriteOp (.netConnOpen · j rec) (0x4300 + j) 0 rec .byTable (fun d => j < 16 && !connOpenBad d rec) (fun d _ e st =>
      let n := leNat rec; let id := fld n 353 19
      let full : Prop := d.quota j 4 ≤ d.connsOf j
        ∨ (d.cget Cat.NET_CTX_T3_ENTRIES ≤ d.residing 1 ∧ d.cget Cat.NET_CTX_HOST_BASE = 0)
      let denied : Prop := st = stDenied ∧ e = d.lastStatus j 0x21 4
      let opens (k rec : Nat) (c : ConnState) : Prop := st = stOk
        ∧ e = ((d.setConn k (newConn d j rec c)).evictContexts).bset (Cat.NET_CONN_OPEN j) (leBytes 64 rec)
      (id = 0x7FFFF → d.freeConn = none ∨ full → denied)
        ∧ (∀ k, id = 0x7FFFF → d.freeConn = some k → ¬ full → opens k (setFld n 353 19 k) .pending)
        ∧ (id ≠ 0x7FFFF → d.conn? id = none → (full → denied) ∧ (¬ full → opens id n .open_))
        ∧ (∀ x, id ≠ 0x7FFFF → d.conn? id = some x → (x.st = .pending ∧ x.job = j → opens id n .open_)
            ∧ (¬ (x.st = .pending ∧ x.job = j) → denied))))
    ∧ (∀ j v, WriteOp (.netConnClose · j v) (0x4300 + j) 1 (leBytes 4 v) .byTable (fun _ => j < 16 && v < 2 ^ 32) (fun d _ e st =>
        let c := d.cset (Cat.NET_CONN_CLOSE j) v
        ((∀ x, d.conn? v = some x → x.job ≠ j) → st = stNoEntry ∧ e = d)
          ∧ ∀ x, d.conn? v = some x → x.job = j → st = stOk
            ∧ (x.st = .open_ → e = c.setConn v { x with st := .draining, drainAt := c.now })
            ∧ (x.st = .draining → e = c) ∧ (x.st = .pending ∨ x.st = .error → e = c.dropConn v ∧ e.conn? v = none)))
    ∧ (∀ j v, WriteOp (.netConnQuery · j v) (0x4300 + j) 2 v .byTable (fun _ => j < 16 && v.length = 4) (fun d _ e st =>
        st = stOk ∧ e = d.bset (Cat.NET_CONN_QUERY j) v))
    ∧ (∀ j v, WriteOp (.netRegionQuery · j v) (0x4300 + j) 5 v .byTable (fun _ => j < 16 && v.length = 4) (fun d _ e st =>
        st = stOk ∧ e = d.bset (Cat.NET_REGION_QUERY j) v))
    ∧ (∀ j rec, WriteOp (.netRegionReg · j rec) (0x4300 + j) 3 rec .byTable (fun d => j < 16 && !d.regionRecBad j rec)
        (fun d _ e st =>
          (d.quota j 5 ≤ d.regionsOf j ∨ d.freeRegion = none → st = stDenied ∧ e = d.lastStatus j 0x21 5)
            ∧ (d.regionsOf j < d.quota j 5 → d.freeRegion ≠ none → st = stOk ∧ ∃ k, k < 65536 ∧ (d.netRegion k).st = .free
                ∧ let g := (d.netRegion k).gen; let n := setFld (leNat rec) 384 32 (g * 2 ^ 16 + k)
                  e.netRegion k = { NetRegion.none with st := .valid, gen := g, job := j, record := n }
                    ∧ (∀ i, i ≠ k → e.netRegion i = d.netRegion i) ∧ e.bget (Cat.NET_REGION_REG j) = leBytes 64 n)))
    ∧ (∀ j v, WriteOp (.netRegionRevoke · j v) (0x4300 + j) 4 (leBytes 4 v) .byTable (fun _ => j < 16 && v < 2 ^ 32)
        (fun d _ e st => let g := d.netRegion (v % 2 ^ 16)
          let mine : Prop := g.st ≠ .free ∧ g.gen = v / 2 ^ 16 ∧ g.job = j
          (¬ mine → st = stNoEntry ∧ e = d)
            ∧ (mine → st = stOk ∧ (g.st = .valid →
                e.netRegion (v % 2 ^ 16) = { g with st := .revoking, tr := d.now, settled := false })
                ∧ (g.st ≠ .valid → e = d.cset (Cat.NET_REGION_REVOKE j) v))))
    ∧ (∀ (s : State) (k : Nat), let d := s.dev; let r := d.netRegion k
        (r.st ≠ .revoking ∨ r.settled = true → Acts (.revokeSettle k) s fun e => e = d)
          ∧ (r.st = .revoking → r.settled = false → Acts (.revokeSettle k) s fun e =>
              e = (d.advance (r.tr + d.cget Cat.TT_SETTLE)).settleRegion k ∧ (e.netRegion k).settled = true
                ∧ (e.netRegion k).st = .revoking))
    ∧ (∀ (s : State) (at_ k : Nat), let d := s.dev.advance at_; let r := d.netRegion k
        let may : Prop := r.st = .revoking ∧ r.settled = true ∧ d.regionInFlight k = 0
        (¬ may → Acts (.revokeComplete at_ k) s fun e => e = d)
          ∧ (may → Acts (.revokeComplete at_ k) s fun e =>
              e.netRegion k = { NetRegion.none with gen := if r.gen = 0xFFFF then 1 else r.gen + 1 }
                ∧ e.cget Cat.NET_REVOKE_DONE = d.cget Cat.NET_REVOKE_DONE + 1))
    ∧ (∀ v, WriteOp (.netPortMode · v) 0x4000 0 (leBytes 1 v) .byTable (fun _ => v < 2) (fun d _ e st =>
        let busy : Prop := ∃ kc ∈ d.net.conns, kc.2.st = .open_ ∨ kc.2.st = .draining
        (busy → st = stDenied ∧ e = d)
          ∧ (¬ busy → st = stOk ∧ e.cget Cat.NET_PORT_MODE = v
              ∧ ∀ p, p < 8 → e.cget (Cat.NET_PORT_LINK p) = if p < e.portCount then 1 else 0)))
    ∧ (∀ (s : State) (at_ p link : Nat), let d := s.dev.advance at_
        Acts (.portLinkChange at_ p link) s fun e =>
          e = if d.released = true ∧ p < d.portCount ∧ link ≤ 2 then d.cset (Cat.NET_PORT_LINK p) link else d)
    ∧ (∀ (s : State) (f : Frame), let d := s.dev.advance f.at_; let p := f.port; let l := f.data; let n := l.length
        let c0 := ((d.macBy p Cat.FEC_CW_CORRECTED f.fecCorrected).macBy p Cat.FEC_CW_UNCORRECTED f.fecUncorrected).macBy p
          Cat.FEC_SYMBOLS_CORRECTED f.fecSymbols
        let c := if f.symbolErr then c0.mac p Cat.RX_SYMBOL_ERR else c0
        let g0 := (((c.mac p Cat.RX_FRAMES_OK).macBy p Cat.RX_BYTES_OK n).mac p (Cat.RX_SIZE0 + sizeClass n)).mac p
          (castCtr Cat.RX_UNICAST (castOf l))
        let g := if frameTags l = [] then g0 else g0.mac p Cat.RX_VLAN
        let up : Prop := d.netUp p = true
        let whole : Prop := up ∧ 64 ≤ n ∧ n ≤ 9216 ∧ fcsOk l = true ∧ f.fecUncorrected = 0
        let data : Prop := whole ∧ macControl l ≠ some 1 ∧ macControl l ≠ some 0x0101
        let fits : Prop := data ∧ (frameTags l).length < 2 ∧ g.vlanOk p (frameTags l) = true
        let good : Prop := fits ∧ ipCsum l ≠ some false ∧ udpCsum l ≠ some false ∧ tcpCsum l ≠ some false
        let served : Prop := good ∧ f.full = false
        let gives (P : Prop) (t : Dev) : Prop := P → Acts (.frameReceive f) s fun e => e = t
        let ptp : Prop := isPtp l = true ∧ p = g.cget Cat.PTP_TIMING_PORT
        let maelgo : Prop := ¬ ptp ∧ g.isMaelgo p l = true
        let reserved : Prop := opReserved (fld (beAt l (netAt l + 28) 32) 248 4) = true
        let arp : Prop := ¬ ptp ∧ g.isMaelgo p l = false ∧ g.isArp p l = true
        let other : Prop := ¬ ptp ∧ g.isMaelgo p l = false ∧ g.isArp p l = false
        let host : Prop := bit (g.cget Cat.NET_HOST_FRAMES) p = true
        let odd : Prop := g.ipToPort p l = true ∧ (ipOptions l = true ∨ ipFragment l = true)
        gives (¬ up) d ∧ gives (up ∧ n < 64) (c.mac p Cat.RX_RUNT) ∧ gives (up ∧ 9216 < n) (c.mac p Cat.RX_OVERSIZE)
          ∧ gives (up ∧ 64 ≤ n ∧ n ≤ 9216 ∧ (fcsOk l = false ∨ 0 < f.fecUncorrected)) (c.mac p Cat.RX_FCS_ERR)
          ∧ gives (whole ∧ macControl l = some 1) (g.mac p Cat.RX_PAUSE)
          ∧ gives (whole ∧ macControl l = some 0x0101) (g.mac p Cat.RX_PFC)
          ∧ gives (data ∧ 2 ≤ (frameTags l).length) (g.mac p Cat.RX_OTHER_DROP)
          ∧ gives (data ∧ (frameTags l).length < 2 ∧ g.vlanOk p (frameTags l) = false) (g.mac p Cat.RX_VLAN_MISMATCH)
          ∧ gives (fits ∧ ipCsum l = some false) (g.mac p Cat.RX_IPV4_CSUM_ERR)
          ∧ gives (fits ∧ ipCsum l ≠ some false ∧ udpCsum l = some false) (g.mac p Cat.RX_UDP_CSUM_ERR)
          ∧ gives (fits ∧ ipCsum l ≠ some false ∧ udpCsum l ≠ some false ∧ tcpCsum l = some false)
              (g.mac p Cat.RX_TCP_CSUM_ERR)
          ∧ gives (good ∧ f.full = true) (g.mac p Cat.RX_FULL_DROP)
          ∧ gives (served ∧ ptp) (g.mac p Cat.RX_PTP)
          ∧ gives (served ∧ maelgo ∧ ¬ reserved) (g.mac p Cat.RX_MAELGO)
          ∧ gives (served ∧ maelgo ∧ reserved) ((g.mac p Cat.RX_MAELGO).bump Cat.NET_RX_MALFORMED)
          ∧ gives (served ∧ arp) g ∧ gives (served ∧ other ∧ host) (g.toHostRing f)
          ∧ gives (served ∧ other ∧ ¬ host ∧ odd) (g.mac p Cat.RX_IP_DROP)
          ∧ gives (served ∧ other ∧ ¬ host ∧ ¬ odd) (g.mac p Cat.RX_OTHER_DROP))
    ∧ (∀ (s : State) (at_ q : Nat) (v : Word), let d := s.dev.advance at_; let on : Prop := d.released = true ∧ q < 8
        let r := d.frameRing q
        (¬ on → (Acts (.hostfrRxTail at_ q v) s fun e => e = d) ∧ Acts (.hostfrTxTail at_ q v) s fun e => e = d)
          ∧ (on → Acts (.hostfrRxTail at_ q v) s fun e =>
              e = d.setFrameRing q { r with rxTail := v.toNat % 2 ^ 12 % hfRxSize (d.hostfr q) })
          ∧ (on → Acts (.hostfrTxTail at_ q v) s fun e =>
              e = (d.setFrameRing q { r with txTail := v.toNat % 2 ^ 12 % hfTxSize (d.hostfr q) }).sendHostFrames q
                (hfTxSize (d.hostfr q))))
    ∧ (∀ (s : State) (at_ ip : Nat), let d := s.dev.advance at_
        (∀ p, Acts (.arpRequest at_ (some p) ip) s fun e =>
            e = if d.netUp p = true ∧ ip = d.cget (Cat.NET_PORT_IPV4 p) then
              ((d.noLastTx p).macSent p 64 0).emit (.arp (some p) ip) else d)
          ∧ (d.boot.step = 0 → Acts (.arpRequest at_ none ip) s fun e => e = d)
          ∧ (d.boot.step ≠ 0 → ip ≠ d.cget Cat.MGMT_IPV4 → Acts (.arpRequest at_ none ip) s fun e =>
              e = d.bump Cat.MGMT_RX_FRAMES)
          ∧ (d.boot.step ≠ 0 → ip = d.cget Cat.MGMT_IPV4 → Acts (.arpRequest at_ none ip) s fun e =>
              e = ((d.bump Cat.MGMT_RX_FRAMES).bump Cat.MGMT_TX_FRAMES).emit (.arp none ip)))
    ∧ ∀ (s : State) (at_ p n : Nat), let d := s.dev.advance at_; let act (P : Dev → Prop) : Prop := Acts (.txUnderrun at_ p n) s P
        let counted (t : Dev) : Dev := (t.mac p Cat.TX_UNDERRUN).cset (Cat.NET_TX_START p)
          (min 9216 (t.cget (Cat.NET_TX_START p) + 512))
        (d.netUp p = false → act fun e => e = d)
          ∧ (d.netUp p = true → Tbl.find? d.net.lastTx p = none → act fun e => e = counted d)
          ∧ ∀ t, d.netUp p = true → Tbl.find? d.net.lastTx p = some t →
              let len := t.data.length
              let whole : Prop := len ≤ n ∨ len ≤ d.cget (Cat.NET_TX_START p)
                ∨ (t.pkt.isSome = true ∧ d.cget Cat.NET_MAELGO_UDPCSUM = 1)
              let cut := t.data.take n
              let u := (counted ((d.macUnsent p len (castOf t.data) t.pkt.isSome).emit
                (.cutFrame p (cut ++ (fcsOf cut).map fun b => ~~~ b)))).noLastTx p
              (whole → act fun e => e = d)
                ∧ (¬ whole → t.pkt = none → act fun e => e = u)
                ∧ ∀ k q, ¬ whole → t.pkt = some (k, q) →
                    (u.conn? k = none → act fun e => e = u)
                      ∧ ∀ x, u.conn? k = some x →
                          let mine (y : Word × TxSent) : Bool := y.1 = BitVec.ofNat 32 q.seq && x.unacked y
                          let now (y : Word × TxSent) : Word × TxSent :=
                            if y.1 = BitVec.ofNat 32 q.seq then (y.1, { y.2 with resend := some u.now }) else y
                          (opSequenced q.op = false → act fun e => e = (u.bump Cat.NET_TX_UNDERRUN_RETX).sendPkt k q.op
                              (q.flags ||| 0x90) q.region (BitVec.ofNat 32 q.seq) q.step q.ext (opExtLen q.op) q.payload)
                            ∧ (opSequenced q.op = true → x.sent.any mine = false → act fun e => e = u)
                            ∧ (opSequenced q.op = true → x.sent.any mine = true → act fun e =>
                                e = (u.setConn k { x with sent := x.sent.map now }).bump Cat.NET_TX_UNDERRUN_RETX)

/-- For the thread instructions with no limit of their own: a free slot, a waiting bundle or one of
a command that is not running or parked is left as it is. A bundle whose PC is not mapped stops with
0x11 and the PC; one whose word is poisoned stops with 0x30 and 56, the lines counted. Where it
fetches the command's own instruction with a bit set outside the opcode's fields, or one that its
fields forbid, it stops with 0x30 and the lowest such bit; where it fetches a word of a reserved OPC
it stops with 0x30 and 56; and where it fetches another instruction the command is not its next one
and changes nothing (the model's form, log entry 60). A stop is counted for the unit and in total.
(R172, R175, R169, R200, R206, R254) -/
def Obligations.AWordThatMayNotIssueStopsItsBundle : Prop :=
  let kinds : List ((Nat → Nat → TWord → Instr) × Nat × (Nat → List Nat)) :=
    let all (used : Nat) (bad : Nat → List Nat) (l : List (Nat → Nat → TWord → Instr)) := l.map fun m => (m, used, bad)
    all (mD + mA + mB + mBU + mNA + mAA) noBad [.fadd, .fmul] ++ all (mD + mA + mB + mBU + mC + mNA + mNC + mAA) noBad [.ffma]
      ++ all (mD + mA + mB + mBU) noBad [.fmin, .fmax, .iadd, .isub, .imul, .imin, .imax, .umin, .umax, .and, .or, .xor, .shl,
          .shr, .sar, .shfl]
      ++ all (mD + mA + mB + mBU + mPD) noBad [.sel] ++ all (mD + mA + mB + mBU + mC) noBad [.imad]
      ++ all (mD + mA + mNA + mAA) noBad [.frcp, .frsq, .fsqrt, .fexp2, .flog2, .ftanh]
      ++ all (mD + mA + mImm) noBad [.faddi, .fmuli, .iaddi, .andi, .ori, .shli, .shri, .uaddi]
      ++ all (mD + mA) noBad [.popc, .clz, .mov, .movu, .movuh] ++ all (mD + mImm) noBad [.movi, .umovi, .umovhi]
      ++ all (mD + mA + mB) noBad [.uadd, .usub, .umul, .uand, .uor, .ushl, .ushr, .rdlane]
      ++ all (mA + mB + mBU + mPD + mCond) noBad [.fsetp] ++ all (mA + mB + mBU + mPD + mCond) badCmp [.isetp, .usetp]
      ++ all (mA + mB + mPD + mCond) badCmp [.ucmp] ++ all (mD + mPD) noBad [.vote] ++ all (mD + mA + mCond) noBad [.red]
      ++ all (mk 48 4 + mk 45 3 + mk 39 6 + mImm) (fun n => ifBad (6 ≤ fld n 48 4) 48) [.bra] ++ all mImm noBad [.call]
      ++ all 0 noBad [.ret, .exit] ++ all (mA + mk 14 8) badStat [.statmx] ++ all (mk 14 8) badStat [.seal]
  (∀ k ∈ kinds, ∀ (s : State) (u b : Nat) (w : TWord), let d := s.dev
      (d.bundle? u b = none → Acts (k.1 u b w) s fun e => e = d)
        ∧ ∀ (x : Bundle) (c : Cmd), d.bundle? u b = some x → d.cmd? x.cmd = some c →
            let may : Prop := x.wait = .none ∧ (c.st = .running ∨ c.st = .parked)
            let mapped : Prop := (d.xlate c.job x.pc false).isSome = true
            let poison := d.jbad c.job x.pc 8
            let offending := setBits 52 (w.toNat - Nat.land w.toNat k.2.1) ++ k.2.2 w.toNat
            (¬ may → Acts (k.1 u b w) s fun e => e = d)
              ∧ (may → ¬ mapped → Acts (k.1 u b w) s fun e => e = (d.xfault c.job x.pc).stopBundle u b x.cmd 0x11 x.pc)
              ∧ (may → mapped → poison ≠ [] → Acts (k.1 u b w) s fun e => e =
                  (((d.cmdPoison x.cmd poison).bumpBy (Cat.THR_POISON_ZERO u) poison.length).bumpBy Cat.THR_POISON_ZERO_TOTAL
                    poison.length).stopBundle u b x.cmd 0x30 56)
              ∧ (may → mapped → poison = [] →
                  let op := opcOf (k.1 u b w)
                  let n := d.fetchWord u c.job x.pc
                  (∀ o, Fetches d u x c op w → o ∈ offending → (∀ i ∈ offending, o ≤ i) →
                      Acts (k.1 u b w) s fun e => e = (d.onceFetched u x c).stopBundle u b x.cmd 0x30 o)
                    ∧ (¬ Fetches d u x c op w → opcReserved (n / 2 ^ 56) = true →
                        Acts (k.1 u b w) s fun e => e = (d.onceFetched u x c).stopBundle u b x.cmd 0x30 56)
                    ∧ (¬ Fetches d u x c op w → opcReserved (n / 2 ^ 56) = false → Acts (k.1 u b w) s fun e => e = d)))
    ∧ ∀ (d : Dev) (u b k st dt : Nat), u < 72 → let e := d.stopBundle u b k st dt
        e.cget (Cat.THR_FAULT u) = d.cget (Cat.THR_FAULT u) + 1
          ∧ e.cget Cat.THR_FAULT_TOTAL = d.cget Cat.THR_FAULT_TOTAL + 1 ∧ e.mem = d.mem
          ∧ ∀ i, i ≠ b → e.bundle? u i = d.bundle? u i
end

