-- ==== Sys2Proof/Laws/Tables.lean ====
section
/-! SUPPORT. Laws of the sparse tables: what a key reads as after each operation, and that keys stay rising. -/

namespace Sys2Proof.Machine

variable {α : Type}

@[simp] theorem Tbl.find?_nil (k : Nat) : Tbl.find? ([] : Tbl α) k = none := rfl

/-- A key that was set reads its new value; every other key reads what it read. -/
theorem Tbl.find?_set (t : Tbl α) (k : Nat) (v : α) (key : Nat) :
    Tbl.find? (Tbl.set t k v) key = if key = k then some v else Tbl.find? t key := by
  induction t with
  | nil => simp only [Tbl.set, Tbl.find?]; (repeat' split) <;> first | rfl | omega
  | cons kw t ih =>
    obtain ⟨k', w⟩ := kw
    simp only [Tbl.set]
    split
    · simp only [Tbl.find?]; (repeat' split) <;> first | rfl | omega
    · split
      · subst_vars; simp only [Tbl.find?]; (repeat' split) <;> first | rfl | omega
      · simp only [Tbl.find?, ih]; (repeat' split) <;> first | rfl | omega

/-- A key that was erased is not listed; every other key reads what it read. -/
theorem Tbl.find?_erase (t : Tbl α) (k key : Nat) :
    Tbl.find? (Tbl.erase t k) key = if key = k then none else Tbl.find? t key := by
  induction t with
  | nil => simp [Tbl.erase]
  | cons kw t ih =>
    obtain ⟨k', w⟩ := kw
    simp only [Tbl.erase]
    split
    · subst_vars; simp only [ih, Tbl.find?]; (repeat' split) <;> first | rfl | omega
    · simp only [Tbl.find?, ih]; (repeat' split) <;> first | rfl | omega

theorem Tbl.getD_set (t : Tbl α) (k : Nat) (v : α) (key : Nat) (x : α) :
    Tbl.getD (Tbl.set t k v) key x = if key = k then v else Tbl.getD t key x := by
  by_cases h : key = k <;> simp [Tbl.getD, Tbl.find?_set, h]

theorem Tbl.getD_erase (t : Tbl α) (k key : Nat) (x : α) :
    Tbl.getD (Tbl.erase t k) key x = if key = k then x else Tbl.getD t key x := by
  by_cases h : key = k <;> simp [Tbl.getD, Tbl.find?_erase, h]

@[simp] theorem Tbl.find?_set_self (t : Tbl α) (k : Nat) (v : α) : Tbl.find? (Tbl.set t k v) k = some v := by
  simp [Tbl.find?_set]

@[simp] theorem Tbl.getD_set_self (t : Tbl α) (k : Nat) (v x : α) : Tbl.getD (Tbl.set t k v) k x = v := by
  simp [Tbl.getD_set]

/-- The keys of a table are above `n` and strictly rising. -/
def Tbl.above (n : Nat) : Tbl α → Bool
  | [] => true
  | (k, _) :: t => n < k && Tbl.above k t

theorem Tbl.sorted_cons (k : Nat) (v : α) (t : Tbl α) : Tbl.sorted ((k, v) :: t) = Tbl.above k t := by
  induction t generalizing k v with
  | nil => rfl
  | cons kw t ih => obtain ⟨k', w⟩ := kw; simp [Tbl.sorted, Tbl.above, ih]

theorem Tbl.above_mono {m n : Nat} (h : m ≤ n) {t : Tbl α} (ht : Tbl.above n t = true) : Tbl.above m t = true := by
  cases t with
  | nil => rfl
  | cons kw t => obtain ⟨k, w⟩ := kw; simp [Tbl.above] at ht ⊢; exact ⟨by omega, ht.2⟩

theorem Tbl.above_set {n k : Nat} (h : n < k) (v : α) {t : Tbl α} (ht : Tbl.above n t = true) :
    Tbl.above n (Tbl.set t k v) = true := by
  induction t generalizing n with
  | nil => simp [Tbl.set, Tbl.above, h]
  | cons kw t ih =>
    obtain ⟨k', w⟩ := kw
    simp only [Tbl.above, Bool.and_eq_true, decide_eq_true_eq] at ht
    simp only [Tbl.set]
    split
    · simp [Tbl.above, h, ht.2]; assumption
    · split
      · subst_vars; simp [Tbl.above, h, ht.2]
      · simp [Tbl.above, ht.1]; exact ih (by omega) ht.2

/-- Keys stay rising when a key is set. -/
theorem Tbl.sorted_set (k : Nat) (v : α) {t : Tbl α} (ht : Tbl.sorted t = true) : Tbl.sorted (Tbl.set t k v) = true := by
  cases t with
  | nil => rfl
  | cons kw t =>
    obtain ⟨k', w⟩ := kw
    rw [Tbl.sorted_cons] at ht
    simp only [Tbl.set]
    split
    · rw [Tbl.sorted_cons]; simp [Tbl.above, ht]; assumption
    · split
      · subst_vars; rw [Tbl.sorted_cons]; exact ht
      · rw [Tbl.sorted_cons]; exact Tbl.above_set (by omega) v ht

theorem Tbl.above_filter {n : Nat} (p : Nat × α → Bool) {t : Tbl α} (ht : Tbl.above n t = true) :
    Tbl.above n (t.filter p) = true := by
  induction t generalizing n with
  | nil => rfl
  | cons kw t ih =>
    obtain ⟨k, w⟩ := kw
    simp only [Tbl.above, Bool.and_eq_true, decide_eq_true_eq] at ht
    simp only [List.filter_cons]
    split
    · simp only [Tbl.above, Bool.and_eq_true, decide_eq_true_eq]; exact ⟨ht.1, ih ht.2⟩
    · exact ih (Tbl.above_mono (by omega) ht.2)

/-- Keys stay rising when entries are taken out. -/
theorem Tbl.sorted_filter (p : Nat × α → Bool) {t : Tbl α} (ht : Tbl.sorted t = true) :
    Tbl.sorted (t.filter p) = true := by
  induction t with
  | nil => rfl
  | cons kw t ih =>
    obtain ⟨k, w⟩ := kw
    rw [Tbl.sorted_cons] at ht
    simp only [List.filter_cons]
    split
    · rw [Tbl.sorted_cons]; exact Tbl.above_filter p ht
    · apply ih; cases t with
      | nil => rfl
      | cons kw' t' =>
        obtain ⟨k', w'⟩ := kw'; rw [Tbl.sorted_cons]; simp [Tbl.above] at ht; exact ht.2

theorem Tbl.erase_eq_filter (t : Tbl α) (k : Nat) : Tbl.erase t k = t.filter fun kv => kv.1 != k := by
  induction t with
  | nil => rfl
  | cons kw t ih =>
    obtain ⟨k', w⟩ := kw
    by_cases h : k' = k <;> simp [Tbl.erase, h, ih]

/-- Keys stay rising when a key is erased. -/
theorem Tbl.sorted_erase (k : Nat) {t : Tbl α} (ht : Tbl.sorted t = true) : Tbl.sorted (Tbl.erase t k) = true := by
  rw [Tbl.erase_eq_filter]; exact Tbl.sorted_filter _ ht

theorem Tbl.mem_set {t : Tbl α} {k : Nat} {v : α} {c : Nat × α} (h : c ∈ Tbl.set t k v) : c = (k, v) ∨ c ∈ t := by
  induction t with
  | nil => simp [Tbl.set] at h; exact .inl h
  | cons kw t ih =>
    obtain ⟨k', w⟩ := kw
    simp only [Tbl.set] at h
    split at h
    · simp at h ⊢; tauto
    · split at h
      · simp at h ⊢; tauto
      · simp at h ⊢
        rcases h with h | h
        · tauto
        · rcases ih h with h | h <;> tauto

end Sys2Proof.Machine
end

