-- ==== Sys2Proof/Laws/State.lean ====
section
/-! SUPPORT. What each named update of the device leaves alone, field by field, and what it makes of its own field. -/

namespace Sys2Proof.Machine

variable (d : Dev)

@[simp] theorem Dev.advance_fresh (t : Nat) : (d.advance t).fresh = d.fresh := by unfold Dev.advance; split <;> rfl
@[simp] theorem Dev.advance_out (t : Nat) : (d.advance t).out = d.out := by unfold Dev.advance; split <;> rfl
@[simp] theorem Dev.advance_cat (t : Nat) : (d.advance t).cat = d.cat := by unfold Dev.advance; split <;> rfl
@[simp] theorem Dev.advance_gens (t : Nat) : (d.advance t).gens = d.gens := by unfold Dev.advance; split <;> rfl
@[simp] theorem Dev.advance_blob (t : Nat) : (d.advance t).blob = d.blob := by unfold Dev.advance; split <;> rfl
@[simp] theorem Dev.advance_mem (t : Nat) : (d.advance t).mem = d.mem := by unfold Dev.advance; split <;> rfl
@[simp] theorem Dev.advance_poison (t : Nat) : (d.advance t).poison = d.poison := by unfold Dev.advance; split <;> rfl
@[simp] theorem Dev.advance_tt (t : Nat) : (d.advance t).tt = d.tt := by unfold Dev.advance; split <;> rfl
@[simp] theorem Dev.advance_jobs (t : Nat) : (d.advance t).jobs = d.jobs := by unfold Dev.advance; split <;> rfl
@[simp] theorem Dev.advance_rings (t : Nat) : (d.advance t).rings = d.rings := by unfold Dev.advance; split <;> rfl
@[simp] theorem Dev.advance_cmds (t : Nat) : (d.advance t).cmds = d.cmds := by unfold Dev.advance; split <;> rfl
@[simp] theorem Dev.advance_nextCmd (t : Nat) : (d.advance t).nextCmd = d.nextCmd := by unfold Dev.advance; split <;> rfl
@[simp] theorem Dev.advance_arb (t : Nat) : (d.advance t).arb = d.arb := by unfold Dev.advance; split <;> rfl
@[simp] theorem Dev.advance_units (t : Nat) : (d.advance t).units = d.units := by unfold Dev.advance; split <;> rfl
@[simp] theorem Dev.advance_nextSlip (t : Nat) : (d.advance t).nextSlip = d.nextSlip := by unfold Dev.advance; split <;> rfl
@[simp] theorem Dev.advance_sessions (t : Nat) : (d.advance t).sessions = d.sessions := by unfold Dev.advance; split <;> rfl
@[simp] theorem Dev.advance_expired (t : Nat) : (d.advance t).expired = d.expired := by unfold Dev.advance; split <;> rfl
@[simp] theorem Dev.advance_keys (t : Nat) : (d.advance t).keys = d.keys := by unfold Dev.advance; split <;> rfl
@[simp] theorem Dev.advance_long (t : Nat) : (d.advance t).long = d.long := by unfold Dev.advance; split <;> rfl
@[simp] theorem Dev.advance_hosts (t : Nat) : (d.advance t).hosts = d.hosts := by unfold Dev.advance; split <;> rfl
@[simp] theorem Dev.advance_mgmt (t : Nat) : (d.advance t).mgmt = d.mgmt := by unfold Dev.advance; split <;> rfl
@[simp] theorem Dev.advance_nv (t : Nat) : (d.advance t).nv = d.nv := by unfold Dev.advance; split <;> rfl
@[simp] theorem Dev.advance_boot (t : Nat) : (d.advance t).boot = d.boot := by unfold Dev.advance; split <;> rfl
@[simp] theorem Dev.advance_pins (t : Nat) : (d.advance t).pins = d.pins := by unfold Dev.advance; split <;> rfl
@[simp] theorem Dev.advance_power (t : Nat) : (d.advance t).power = d.power := by unfold Dev.advance; split <;> rfl
@[simp] theorem Dev.advance_net (t : Nat) : (d.advance t).net = d.net := by unfold Dev.advance; split <;> rfl
@[simp] theorem Dev.advance_mem3 (t : Nat) : (d.advance t).mem3 = d.mem3 := by unfold Dev.advance; split <;> rfl
@[simp] theorem Dev.advance_sweeps (t : Nat) : (d.advance t).sweeps = d.sweeps := by unfold Dev.advance; split <;> rfl
@[simp] theorem Dev.advance_gathers (t : Nat) : (d.advance t).gathers = d.gathers := by unfold Dev.advance; split <;> rfl
@[simp] theorem Dev.advance_devTrcLost (t : Nat) : (d.advance t).devTrcLost = d.devTrcLost := by unfold Dev.advance; split <;> rfl

@[simp] theorem Dev.takeN_now (n : Nat) : (d.takeN n).now = d.now := rfl
@[simp] theorem Dev.takeN_out (n : Nat) : (d.takeN n).out = d.out := rfl
@[simp] theorem Dev.takeN_cat (n : Nat) : (d.takeN n).cat = d.cat := rfl
@[simp] theorem Dev.takeN_gens (n : Nat) : (d.takeN n).gens = d.gens := rfl
@[simp] theorem Dev.takeN_blob (n : Nat) : (d.takeN n).blob = d.blob := rfl
@[simp] theorem Dev.takeN_mem (n : Nat) : (d.takeN n).mem = d.mem := rfl
@[simp] theorem Dev.takeN_poison (n : Nat) : (d.takeN n).poison = d.poison := rfl
@[simp] theorem Dev.takeN_tb (n : Nat) : (d.takeN n).tb = d.tb := rfl
@[simp] theorem Dev.takeN_tt (n : Nat) : (d.takeN n).tt = d.tt := rfl
@[simp] theorem Dev.takeN_jobs (n : Nat) : (d.takeN n).jobs = d.jobs := rfl
@[simp] theorem Dev.takeN_rings (n : Nat) : (d.takeN n).rings = d.rings := rfl
@[simp] theorem Dev.takeN_cmds (n : Nat) : (d.takeN n).cmds = d.cmds := rfl
@[simp] theorem Dev.takeN_nextCmd (n : Nat) : (d.takeN n).nextCmd = d.nextCmd := rfl
@[simp] theorem Dev.takeN_arb (n : Nat) : (d.takeN n).arb = d.arb := rfl
@[simp] theorem Dev.takeN_units (n : Nat) : (d.takeN n).units = d.units := rfl
@[simp] theorem Dev.takeN_nextSlip (n : Nat) : (d.takeN n).nextSlip = d.nextSlip := rfl
@[simp] theorem Dev.takeN_sessions (n : Nat) : (d.takeN n).sessions = d.sessions := rfl
@[simp] theorem Dev.takeN_expired (n : Nat) : (d.takeN n).expired = d.expired := rfl
@[simp] theorem Dev.takeN_keys (n : Nat) : (d.takeN n).keys = d.keys := rfl
@[simp] theorem Dev.takeN_long (n : Nat) : (d.takeN n).long = d.long := rfl
@[simp] theorem Dev.takeN_hosts (n : Nat) : (d.takeN n).hosts = d.hosts := rfl
@[simp] theorem Dev.takeN_mgmt (n : Nat) : (d.takeN n).mgmt = d.mgmt := rfl
@[simp] theorem Dev.takeN_nv (n : Nat) : (d.takeN n).nv = d.nv := rfl
@[simp] theorem Dev.takeN_boot (n : Nat) : (d.takeN n).boot = d.boot := rfl
@[simp] theorem Dev.takeN_pins (n : Nat) : (d.takeN n).pins = d.pins := rfl
@[simp] theorem Dev.takeN_power (n : Nat) : (d.takeN n).power = d.power := rfl
@[simp] theorem Dev.takeN_net (n : Nat) : (d.takeN n).net = d.net := rfl
@[simp] theorem Dev.takeN_mem3 (n : Nat) : (d.takeN n).mem3 = d.mem3 := rfl
@[simp] theorem Dev.takeN_sweeps (n : Nat) : (d.takeN n).sweeps = d.sweeps := rfl
@[simp] theorem Dev.takeN_gathers (n : Nat) : (d.takeN n).gathers = d.gathers := rfl
@[simp] theorem Dev.takeN_devTrcLost (n : Nat) : (d.takeN n).devTrcLost = d.devTrcLost := rfl

@[simp] theorem Dev.cset_now (k v : Nat) : (d.cset k v).now = d.now := rfl
@[simp] theorem Dev.cset_fresh (k v : Nat) : (d.cset k v).fresh = d.fresh := rfl
@[simp] theorem Dev.cset_out (k v : Nat) : (d.cset k v).out = d.out := rfl
@[simp] theorem Dev.cset_blob (k v : Nat) : (d.cset k v).blob = d.blob := rfl
@[simp] theorem Dev.cset_gens (k v : Nat) : (d.cset k v).gens = d.gens := rfl
@[simp] theorem Dev.cset_mem (k v : Nat) : (d.cset k v).mem = d.mem := rfl
@[simp] theorem Dev.cset_poison (k v : Nat) : (d.cset k v).poison = d.poison := rfl
@[simp] theorem Dev.cset_tb (k v : Nat) : (d.cset k v).tb = d.tb := rfl
@[simp] theorem Dev.cset_tt (k v : Nat) : (d.cset k v).tt = d.tt := rfl
@[simp] theorem Dev.cset_jobs (k v : Nat) : (d.cset k v).jobs = d.jobs := rfl
@[simp] theorem Dev.cset_rings (k v : Nat) : (d.cset k v).rings = d.rings := rfl
@[simp] theorem Dev.cset_cmds (k v : Nat) : (d.cset k v).cmds = d.cmds := rfl
@[simp] theorem Dev.cset_nextCmd (k v : Nat) : (d.cset k v).nextCmd = d.nextCmd := rfl
@[simp] theorem Dev.cset_arb (k v : Nat) : (d.cset k v).arb = d.arb := rfl
@[simp] theorem Dev.cset_units (k v : Nat) : (d.cset k v).units = d.units := rfl
@[simp] theorem Dev.cset_nextSlip (k v : Nat) : (d.cset k v).nextSlip = d.nextSlip := rfl
@[simp] theorem Dev.cset_sessions (k v : Nat) : (d.cset k v).sessions = d.sessions := rfl
@[simp] theorem Dev.cset_expired (k v : Nat) : (d.cset k v).expired = d.expired := rfl
@[simp] theorem Dev.cset_keys (k v : Nat) : (d.cset k v).keys = d.keys := rfl
@[simp] theorem Dev.cset_long (k v : Nat) : (d.cset k v).long = d.long := rfl
@[simp] theorem Dev.cset_hosts (k v : Nat) : (d.cset k v).hosts = d.hosts := rfl
@[simp] theorem Dev.cset_mgmt (k v : Nat) : (d.cset k v).mgmt = d.mgmt := rfl
@[simp] theorem Dev.cset_nv (k v : Nat) : (d.cset k v).nv = d.nv := rfl
@[simp] theorem Dev.cset_boot (k v : Nat) : (d.cset k v).boot = d.boot := rfl
@[simp] theorem Dev.cset_pins (k v : Nat) : (d.cset k v).pins = d.pins := rfl
@[simp] theorem Dev.cset_power (k v : Nat) : (d.cset k v).power = d.power := rfl
@[simp] theorem Dev.cset_net (k v : Nat) : (d.cset k v).net = d.net := rfl
@[simp] theorem Dev.cset_mem3 (k v : Nat) : (d.cset k v).mem3 = d.mem3 := rfl
@[simp] theorem Dev.cset_sweeps (k v : Nat) : (d.cset k v).sweeps = d.sweeps := rfl
@[simp] theorem Dev.cset_gathers (k v : Nat) : (d.cset k v).gathers = d.gathers := rfl
@[simp] theorem Dev.cset_devTrcLost (k v : Nat) : (d.cset k v).devTrcLost = d.devTrcLost := rfl

@[simp] theorem Dev.bumpBy_now (k n : Nat) : (d.bumpBy k n).now = d.now := by unfold Dev.bumpBy; split <;> rfl
@[simp] theorem Dev.bumpBy_fresh (k n : Nat) : (d.bumpBy k n).fresh = d.fresh := by unfold Dev.bumpBy; split <;> rfl
@[simp] theorem Dev.bumpBy_out (k n : Nat) : (d.bumpBy k n).out = d.out := by unfold Dev.bumpBy; split <;> rfl
@[simp] theorem Dev.bumpBy_blob (k n : Nat) : (d.bumpBy k n).blob = d.blob := by unfold Dev.bumpBy; split <;> rfl
@[simp] theorem Dev.bumpBy_gens (k n : Nat) : (d.bumpBy k n).gens = d.gens := by unfold Dev.bumpBy; split <;> rfl
@[simp] theorem Dev.bumpBy_mem (k n : Nat) : (d.bumpBy k n).mem = d.mem := by unfold Dev.bumpBy; split <;> rfl
@[simp] theorem Dev.bumpBy_poison (k n : Nat) : (d.bumpBy k n).poison = d.poison := by unfold Dev.bumpBy; split <;> rfl
@[simp] theorem Dev.bumpBy_tb (k n : Nat) : (d.bumpBy k n).tb = d.tb := by unfold Dev.bumpBy; split <;> rfl
@[simp] theorem Dev.bumpBy_tt (k n : Nat) : (d.bumpBy k n).tt = d.tt := by unfold Dev.bumpBy; split <;> rfl
@[simp] theorem Dev.bumpBy_jobs (k n : Nat) : (d.bumpBy k n).jobs = d.jobs := by unfold Dev.bumpBy; split <;> rfl
@[simp] theorem Dev.bumpBy_rings (k n : Nat) : (d.bumpBy k n).rings = d.rings := by unfold Dev.bumpBy; split <;> rfl
@[simp] theorem Dev.bumpBy_cmds (k n : Nat) : (d.bumpBy k n).cmds = d.cmds := by unfold Dev.bumpBy; split <;> rfl
@[simp] theorem Dev.bumpBy_nextCmd (k n : Nat) : (d.bumpBy k n).nextCmd = d.nextCmd := by unfold Dev.bumpBy; split <;> rfl
@[simp] theorem Dev.bumpBy_arb (k n : Nat) : (d.bumpBy k n).arb = d.arb := by unfold Dev.bumpBy; split <;> rfl
@[simp] theorem Dev.bumpBy_units (k n : Nat) : (d.bumpBy k n).units = d.units := by unfold Dev.bumpBy; split <;> rfl
@[simp] theorem Dev.bumpBy_nextSlip (k n : Nat) : (d.bumpBy k n).nextSlip = d.nextSlip := by unfold Dev.bumpBy; split <;> rfl
@[simp] theorem Dev.bumpBy_sessions (k n : Nat) : (d.bumpBy k n).sessions = d.sessions := by unfold Dev.bumpBy; split <;> rfl
@[simp] theorem Dev.bumpBy_expired (k n : Nat) : (d.bumpBy k n).expired = d.expired := by unfold Dev.bumpBy; split <;> rfl
@[simp] theorem Dev.bumpBy_keys (k n : Nat) : (d.bumpBy k n).keys = d.keys := by unfold Dev.bumpBy; split <;> rfl
@[simp] theorem Dev.bumpBy_long (k n : Nat) : (d.bumpBy k n).long = d.long := by unfold Dev.bumpBy; split <;> rfl
@[simp] theorem Dev.bumpBy_hosts (k n : Nat) : (d.bumpBy k n).hosts = d.hosts := by unfold Dev.bumpBy; split <;> rfl
@[simp] theorem Dev.bumpBy_mgmt (k n : Nat) : (d.bumpBy k n).mgmt = d.mgmt := by unfold Dev.bumpBy; split <;> rfl
@[simp] theorem Dev.bumpBy_nv (k n : Nat) : (d.bumpBy k n).nv = d.nv := by unfold Dev.bumpBy; split <;> rfl
@[simp] theorem Dev.bumpBy_boot (k n : Nat) : (d.bumpBy k n).boot = d.boot := by unfold Dev.bumpBy; split <;> rfl
@[simp] theorem Dev.bumpBy_pins (k n : Nat) : (d.bumpBy k n).pins = d.pins := by unfold Dev.bumpBy; split <;> rfl
@[simp] theorem Dev.bumpBy_power (k n : Nat) : (d.bumpBy k n).power = d.power := by unfold Dev.bumpBy; split <;> rfl
@[simp] theorem Dev.bumpBy_net (k n : Nat) : (d.bumpBy k n).net = d.net := by unfold Dev.bumpBy; split <;> rfl
@[simp] theorem Dev.bumpBy_mem3 (k n : Nat) : (d.bumpBy k n).mem3 = d.mem3 := by unfold Dev.bumpBy; split <;> rfl
@[simp] theorem Dev.bumpBy_sweeps (k n : Nat) : (d.bumpBy k n).sweeps = d.sweeps := by unfold Dev.bumpBy; split <;> rfl
@[simp] theorem Dev.bumpBy_gathers (k n : Nat) : (d.bumpBy k n).gathers = d.gathers := by unfold Dev.bumpBy; split <;> rfl
@[simp] theorem Dev.bumpBy_devTrcLost (k n : Nat) : (d.bumpBy k n).devTrcLost = d.devTrcLost := by unfold Dev.bumpBy; split <;> rfl

@[simp] theorem Dev.bump_now (k : Nat) : (d.bump k).now = d.now := Dev.bumpBy_now d k 1
@[simp] theorem Dev.bump_fresh (k : Nat) : (d.bump k).fresh = d.fresh := Dev.bumpBy_fresh d k 1
@[simp] theorem Dev.bump_out (k : Nat) : (d.bump k).out = d.out := Dev.bumpBy_out d k 1
@[simp] theorem Dev.bump_blob (k : Nat) : (d.bump k).blob = d.blob := Dev.bumpBy_blob d k 1
@[simp] theorem Dev.bump_gens (k : Nat) : (d.bump k).gens = d.gens := Dev.bumpBy_gens d k 1
@[simp] theorem Dev.bump_mem (k : Nat) : (d.bump k).mem = d.mem := Dev.bumpBy_mem d k 1
@[simp] theorem Dev.bump_poison (k : Nat) : (d.bump k).poison = d.poison := Dev.bumpBy_poison d k 1
@[simp] theorem Dev.bump_tb (k : Nat) : (d.bump k).tb = d.tb := Dev.bumpBy_tb d k 1
@[simp] theorem Dev.bump_tt (k : Nat) : (d.bump k).tt = d.tt := Dev.bumpBy_tt d k 1
@[simp] theorem Dev.bump_jobs (k : Nat) : (d.bump k).jobs = d.jobs := Dev.bumpBy_jobs d k 1
@[simp] theorem Dev.bump_rings (k : Nat) : (d.bump k).rings = d.rings := Dev.bumpBy_rings d k 1
@[simp] theorem Dev.bump_cmds (k : Nat) : (d.bump k).cmds = d.cmds := Dev.bumpBy_cmds d k 1
@[simp] theorem Dev.bump_nextCmd (k : Nat) : (d.bump k).nextCmd = d.nextCmd := Dev.bumpBy_nextCmd d k 1
@[simp] theorem Dev.bump_arb (k : Nat) : (d.bump k).arb = d.arb := Dev.bumpBy_arb d k 1
@[simp] theorem Dev.bump_units (k : Nat) : (d.bump k).units = d.units := Dev.bumpBy_units d k 1
@[simp] theorem Dev.bump_nextSlip (k : Nat) : (d.bump k).nextSlip = d.nextSlip := Dev.bumpBy_nextSlip d k 1
@[simp] theorem Dev.bump_sessions (k : Nat) : (d.bump k).sessions = d.sessions := Dev.bumpBy_sessions d k 1
@[simp] theorem Dev.bump_expired (k : Nat) : (d.bump k).expired = d.expired := Dev.bumpBy_expired d k 1
@[simp] theorem Dev.bump_keys (k : Nat) : (d.bump k).keys = d.keys := Dev.bumpBy_keys d k 1
@[simp] theorem Dev.bump_long (k : Nat) : (d.bump k).long = d.long := Dev.bumpBy_long d k 1
@[simp] theorem Dev.bump_hosts (k : Nat) : (d.bump k).hosts = d.hosts := Dev.bumpBy_hosts d k 1
@[simp] theorem Dev.bump_mgmt (k : Nat) : (d.bump k).mgmt = d.mgmt := Dev.bumpBy_mgmt d k 1
@[simp] theorem Dev.bump_nv (k : Nat) : (d.bump k).nv = d.nv := Dev.bumpBy_nv d k 1
@[simp] theorem Dev.bump_boot (k : Nat) : (d.bump k).boot = d.boot := Dev.bumpBy_boot d k 1
@[simp] theorem Dev.bump_pins (k : Nat) : (d.bump k).pins = d.pins := Dev.bumpBy_pins d k 1
@[simp] theorem Dev.bump_power (k : Nat) : (d.bump k).power = d.power := Dev.bumpBy_power d k 1
@[simp] theorem Dev.bump_net (k : Nat) : (d.bump k).net = d.net := Dev.bumpBy_net d k 1
@[simp] theorem Dev.bump_mem3 (k : Nat) : (d.bump k).mem3 = d.mem3 := Dev.bumpBy_mem3 d k 1
@[simp] theorem Dev.bump_sweeps (k : Nat) : (d.bump k).sweeps = d.sweeps := Dev.bumpBy_sweeps d k 1
@[simp] theorem Dev.bump_gathers (k : Nat) : (d.bump k).gathers = d.gathers := Dev.bumpBy_gathers d k 1
@[simp] theorem Dev.bump_devTrcLost (k : Nat) : (d.bump k).devTrcLost = d.devTrcLost := Dev.bumpBy_devTrcLost d k 1

@[simp] theorem Dev.bset_now (k : Nat) (v : List Byte) : (d.bset k v).now = d.now := rfl
@[simp] theorem Dev.bset_fresh (k : Nat) (v : List Byte) : (d.bset k v).fresh = d.fresh := rfl
@[simp] theorem Dev.bset_out (k : Nat) (v : List Byte) : (d.bset k v).out = d.out := rfl
@[simp] theorem Dev.bset_cat (k : Nat) (v : List Byte) : (d.bset k v).cat = d.cat := rfl
@[simp] theorem Dev.bset_gens (k : Nat) (v : List Byte) : (d.bset k v).gens = d.gens := rfl
@[simp] theorem Dev.bset_mem (k : Nat) (v : List Byte) : (d.bset k v).mem = d.mem := rfl
@[simp] theorem Dev.bset_poison (k : Nat) (v : List Byte) : (d.bset k v).poison = d.poison := rfl
@[simp] theorem Dev.bset_tb (k : Nat) (v : List Byte) : (d.bset k v).tb = d.tb := rfl
@[simp] theorem Dev.bset_tt (k : Nat) (v : List Byte) : (d.bset k v).tt = d.tt := rfl
@[simp] theorem Dev.bset_jobs (k : Nat) (v : List Byte) : (d.bset k v).jobs = d.jobs := rfl
@[simp] theorem Dev.bset_rings (k : Nat) (v : List Byte) : (d.bset k v).rings = d.rings := rfl
@[simp] theorem Dev.bset_cmds (k : Nat) (v : List Byte) : (d.bset k v).cmds = d.cmds := rfl
@[simp] theorem Dev.bset_nextCmd (k : Nat) (v : List Byte) : (d.bset k v).nextCmd = d.nextCmd := rfl
@[simp] theorem Dev.bset_arb (k : Nat) (v : List Byte) : (d.bset k v).arb = d.arb := rfl
@[simp] theorem Dev.bset_units (k : Nat) (v : List Byte) : (d.bset k v).units = d.units := rfl
@[simp] theorem Dev.bset_nextSlip (k : Nat) (v : List Byte) : (d.bset k v).nextSlip = d.nextSlip := rfl
@[simp] theorem Dev.bset_sessions (k : Nat) (v : List Byte) : (d.bset k v).sessions = d.sessions := rfl
@[simp] theorem Dev.bset_expired (k : Nat) (v : List Byte) : (d.bset k v).expired = d.expired := rfl
@[simp] theorem Dev.bset_keys (k : Nat) (v : List Byte) : (d.bset k v).keys = d.keys := rfl
@[simp] theorem Dev.bset_long (k : Nat) (v : List Byte) : (d.bset k v).long = d.long := rfl
@[simp] theorem Dev.bset_hosts (k : Nat) (v : List Byte) : (d.bset k v).hosts = d.hosts := rfl
@[simp] theorem Dev.bset_mgmt (k : Nat) (v : List Byte) : (d.bset k v).mgmt = d.mgmt := rfl
@[simp] theorem Dev.bset_nv (k : Nat) (v : List Byte) : (d.bset k v).nv = d.nv := rfl
@[simp] theorem Dev.bset_boot (k : Nat) (v : List Byte) : (d.bset k v).boot = d.boot := rfl
@[simp] theorem Dev.bset_pins (k : Nat) (v : List Byte) : (d.bset k v).pins = d.pins := rfl
@[simp] theorem Dev.bset_power (k : Nat) (v : List Byte) : (d.bset k v).power = d.power := rfl
@[simp] theorem Dev.bset_net (k : Nat) (v : List Byte) : (d.bset k v).net = d.net := rfl
@[simp] theorem Dev.bset_mem3 (k : Nat) (v : List Byte) : (d.bset k v).mem3 = d.mem3 := rfl
@[simp] theorem Dev.bset_sweeps (k : Nat) (v : List Byte) : (d.bset k v).sweeps = d.sweeps := rfl
@[simp] theorem Dev.bset_gathers (k : Nat) (v : List Byte) : (d.bset k v).gathers = d.gathers := rfl
@[simp] theorem Dev.bset_devTrcLost (k : Nat) (v : List Byte) : (d.bset k v).devTrcLost = d.devTrcLost := rfl

@[simp] theorem Dev.emit_now (o : Out) : (d.emit o).now = d.now := rfl
@[simp] theorem Dev.emit_fresh (o : Out) : (d.emit o).fresh = d.fresh := rfl
@[simp] theorem Dev.emit_cat (o : Out) : (d.emit o).cat = d.cat := rfl
@[simp] theorem Dev.emit_gens (o : Out) : (d.emit o).gens = d.gens := rfl
@[simp] theorem Dev.emit_blob (o : Out) : (d.emit o).blob = d.blob := rfl
@[simp] theorem Dev.emit_mem (o : Out) : (d.emit o).mem = d.mem := rfl
@[simp] theorem Dev.emit_poison (o : Out) : (d.emit o).poison = d.poison := rfl
@[simp] theorem Dev.emit_tb (o : Out) : (d.emit o).tb = d.tb := rfl
@[simp] theorem Dev.emit_tt (o : Out) : (d.emit o).tt = d.tt := rfl
@[simp] theorem Dev.emit_jobs (o : Out) : (d.emit o).jobs = d.jobs := rfl
@[simp] theorem Dev.emit_rings (o : Out) : (d.emit o).rings = d.rings := rfl
@[simp] theorem Dev.emit_cmds (o : Out) : (d.emit o).cmds = d.cmds := rfl
@[simp] theorem Dev.emit_nextCmd (o : Out) : (d.emit o).nextCmd = d.nextCmd := rfl
@[simp] theorem Dev.emit_arb (o : Out) : (d.emit o).arb = d.arb := rfl
@[simp] theorem Dev.emit_units (o : Out) : (d.emit o).units = d.units := rfl
@[simp] theorem Dev.emit_nextSlip (o : Out) : (d.emit o).nextSlip = d.nextSlip := rfl
@[simp] theorem Dev.emit_sessions (o : Out) : (d.emit o).sessions = d.sessions := rfl
@[simp] theorem Dev.emit_expired (o : Out) : (d.emit o).expired = d.expired := rfl
@[simp] theorem Dev.emit_keys (o : Out) : (d.emit o).keys = d.keys := rfl
@[simp] theorem Dev.emit_long (o : Out) : (d.emit o).long = d.long := rfl
@[simp] theorem Dev.emit_hosts (o : Out) : (d.emit o).hosts = d.hosts := rfl
@[simp] theorem Dev.emit_mgmt (o : Out) : (d.emit o).mgmt = d.mgmt := rfl
@[simp] theorem Dev.emit_nv (o : Out) : (d.emit o).nv = d.nv := rfl
@[simp] theorem Dev.emit_boot (o : Out) : (d.emit o).boot = d.boot := rfl
@[simp] theorem Dev.emit_pins (o : Out) : (d.emit o).pins = d.pins := rfl
@[simp] theorem Dev.emit_power (o : Out) : (d.emit o).power = d.power := rfl
@[simp] theorem Dev.emit_net (o : Out) : (d.emit o).net = d.net := rfl
@[simp] theorem Dev.emit_mem3 (o : Out) : (d.emit o).mem3 = d.mem3 := rfl
@[simp] theorem Dev.emit_sweeps (o : Out) : (d.emit o).sweeps = d.sweeps := rfl
@[simp] theorem Dev.emit_gathers (o : Out) : (d.emit o).gathers = d.gathers := rfl
@[simp] theorem Dev.emit_devTrcLost (o : Out) : (d.emit o).devTrcLost = d.devTrcLost := rfl

@[simp] theorem Dev.setJob_now (j : Nat) (x : Job) : (d.setJob j x).now = d.now := rfl
@[simp] theorem Dev.setJob_fresh (j : Nat) (x : Job) : (d.setJob j x).fresh = d.fresh := rfl
@[simp] theorem Dev.setJob_out (j : Nat) (x : Job) : (d.setJob j x).out = d.out := rfl
@[simp] theorem Dev.setJob_cat (j : Nat) (x : Job) : (d.setJob j x).cat = d.cat := rfl
@[simp] theorem Dev.setJob_gens (j : Nat) (x : Job) : (d.setJob j x).gens = d.gens := rfl
@[simp] theorem Dev.setJob_blob (j : Nat) (x : Job) : (d.setJob j x).blob = d.blob := rfl
@[simp] theorem Dev.setJob_mem (j : Nat) (x : Job) : (d.setJob j x).mem = d.mem := rfl
@[simp] theorem Dev.setJob_poison (j : Nat) (x : Job) : (d.setJob j x).poison = d.poison := rfl
@[simp] theorem Dev.setJob_tb (j : Nat) (x : Job) : (d.setJob j x).tb = d.tb := rfl
@[simp] theorem Dev.setJob_tt (j : Nat) (x : Job) : (d.setJob j x).tt = d.tt := rfl
@[simp] theorem Dev.setJob_rings (j : Nat) (x : Job) : (d.setJob j x).rings = d.rings := rfl
@[simp] theorem Dev.setJob_cmds (j : Nat) (x : Job) : (d.setJob j x).cmds = d.cmds := rfl
@[simp] theorem Dev.setJob_nextCmd (j : Nat) (x : Job) : (d.setJob j x).nextCmd = d.nextCmd := rfl
@[simp] theorem Dev.setJob_arb (j : Nat) (x : Job) : (d.setJob j x).arb = d.arb := rfl
@[simp] theorem Dev.setJob_units (j : Nat) (x : Job) : (d.setJob j x).units = d.units := rfl
@[simp] theorem Dev.setJob_nextSlip (j : Nat) (x : Job) : (d.setJob j x).nextSlip = d.nextSlip := rfl
@[simp] theorem Dev.setJob_sessions (j : Nat) (x : Job) : (d.setJob j x).sessions = d.sessions := rfl
@[simp] theorem Dev.setJob_expired (j : Nat) (x : Job) : (d.setJob j x).expired = d.expired := rfl
@[simp] theorem Dev.setJob_keys (j : Nat) (x : Job) : (d.setJob j x).keys = d.keys := rfl
@[simp] theorem Dev.setJob_long (j : Nat) (x : Job) : (d.setJob j x).long = d.long := rfl
@[simp] theorem Dev.setJob_hosts (j : Nat) (x : Job) : (d.setJob j x).hosts = d.hosts := rfl
@[simp] theorem Dev.setJob_mgmt (j : Nat) (x : Job) : (d.setJob j x).mgmt = d.mgmt := rfl
@[simp] theorem Dev.setJob_nv (j : Nat) (x : Job) : (d.setJob j x).nv = d.nv := rfl
@[simp] theorem Dev.setJob_boot (j : Nat) (x : Job) : (d.setJob j x).boot = d.boot := rfl
@[simp] theorem Dev.setJob_pins (j : Nat) (x : Job) : (d.setJob j x).pins = d.pins := rfl
@[simp] theorem Dev.setJob_power (j : Nat) (x : Job) : (d.setJob j x).power = d.power := rfl
@[simp] theorem Dev.setJob_net (j : Nat) (x : Job) : (d.setJob j x).net = d.net := rfl
@[simp] theorem Dev.setJob_mem3 (j : Nat) (x : Job) : (d.setJob j x).mem3 = d.mem3 := rfl
@[simp] theorem Dev.setJob_sweeps (j : Nat) (x : Job) : (d.setJob j x).sweeps = d.sweeps := rfl
@[simp] theorem Dev.setJob_gathers (j : Nat) (x : Job) : (d.setJob j x).gathers = d.gathers := rfl
@[simp] theorem Dev.setJob_devTrcLost (j : Nat) (x : Job) : (d.setJob j x).devTrcLost = d.devTrcLost := rfl

@[simp] theorem Dev.setRing_now (j q : Nat) (x : Ring) : (d.setRing j q x).now = d.now := rfl
@[simp] theorem Dev.setRing_fresh (j q : Nat) (x : Ring) : (d.setRing j q x).fresh = d.fresh := rfl
@[simp] theorem Dev.setRing_out (j q : Nat) (x : Ring) : (d.setRing j q x).out = d.out := rfl
@[simp] theorem Dev.setRing_cat (j q : Nat) (x : Ring) : (d.setRing j q x).cat = d.cat := rfl
@[simp] theorem Dev.setRing_gens (j q : Nat) (x : Ring) : (d.setRing j q x).gens = d.gens := rfl
@[simp] theorem Dev.setRing_blob (j q : Nat) (x : Ring) : (d.setRing j q x).blob = d.blob := rfl
@[simp] theorem Dev.setRing_mem (j q : Nat) (x : Ring) : (d.setRing j q x).mem = d.mem := rfl
@[simp] theorem Dev.setRing_poison (j q : Nat) (x : Ring) : (d.setRing j q x).poison = d.poison := rfl
@[simp] theorem Dev.setRing_tb (j q : Nat) (x : Ring) : (d.setRing j q x).tb = d.tb := rfl
@[simp] theorem Dev.setRing_tt (j q : Nat) (x : Ring) : (d.setRing j q x).tt = d.tt := rfl
@[simp] theorem Dev.setRing_jobs (j q : Nat) (x : Ring) : (d.setRing j q x).jobs = d.jobs := rfl
@[simp] theorem Dev.setRing_cmds (j q : Nat) (x : Ring) : (d.setRing j q x).cmds = d.cmds := rfl
@[simp] theorem Dev.setRing_nextCmd (j q : Nat) (x : Ring) : (d.setRing j q x).nextCmd = d.nextCmd := rfl
@[simp] theorem Dev.setRing_arb (j q : Nat) (x : Ring) : (d.setRing j q x).arb = d.arb := rfl
@[simp] theorem Dev.setRing_units (j q : Nat) (x : Ring) : (d.setRing j q x).units = d.units := rfl
@[simp] theorem Dev.setRing_nextSlip (j q : Nat) (x : Ring) : (d.setRing j q x).nextSlip = d.nextSlip := rfl
@[simp] theorem Dev.setRing_sessions (j q : Nat) (x : Ring) : (d.setRing j q x).sessions = d.sessions := rfl
@[simp] theorem Dev.setRing_expired (j q : Nat) (x : Ring) : (d.setRing j q x).expired = d.expired := rfl
@[simp] theorem Dev.setRing_keys (j q : Nat) (x : Ring) : (d.setRing j q x).keys = d.keys := rfl
@[simp] theorem Dev.setRing_long (j q : Nat) (x : Ring) : (d.setRing j q x).long = d.long := rfl
@[simp] theorem Dev.setRing_hosts (j q : Nat) (x : Ring) : (d.setRing j q x).hosts = d.hosts := rfl
@[simp] theorem Dev.setRing_mgmt (j q : Nat) (x : Ring) : (d.setRing j q x).mgmt = d.mgmt := rfl
@[simp] theorem Dev.setRing_nv (j q : Nat) (x : Ring) : (d.setRing j q x).nv = d.nv := rfl
@[simp] theorem Dev.setRing_boot (j q : Nat) (x : Ring) : (d.setRing j q x).boot = d.boot := rfl
@[simp] theorem Dev.setRing_pins (j q : Nat) (x : Ring) : (d.setRing j q x).pins = d.pins := rfl
@[simp] theorem Dev.setRing_power (j q : Nat) (x : Ring) : (d.setRing j q x).power = d.power := rfl
@[simp] theorem Dev.setRing_net (j q : Nat) (x : Ring) : (d.setRing j q x).net = d.net := rfl
@[simp] theorem Dev.setRing_mem3 (j q : Nat) (x : Ring) : (d.setRing j q x).mem3 = d.mem3 := rfl
@[simp] theorem Dev.setRing_sweeps (j q : Nat) (x : Ring) : (d.setRing j q x).sweeps = d.sweeps := rfl
@[simp] theorem Dev.setRing_gathers (j q : Nat) (x : Ring) : (d.setRing j q x).gathers = d.gathers := rfl
@[simp] theorem Dev.setRing_devTrcLost (j q : Nat) (x : Ring) : (d.setRing j q x).devTrcLost = d.devTrcLost := rfl

@[simp] theorem Dev.setCmd_now (k : Nat) (x : Cmd) : (d.setCmd k x).now = d.now := rfl
@[simp] theorem Dev.setCmd_fresh (k : Nat) (x : Cmd) : (d.setCmd k x).fresh = d.fresh := rfl
@[simp] theorem Dev.setCmd_out (k : Nat) (x : Cmd) : (d.setCmd k x).out = d.out := rfl
@[simp] theorem Dev.setCmd_cat (k : Nat) (x : Cmd) : (d.setCmd k x).cat = d.cat := rfl
@[simp] theorem Dev.setCmd_gens (k : Nat) (x : Cmd) : (d.setCmd k x).gens = d.gens := rfl
@[simp] theorem Dev.setCmd_blob (k : Nat) (x : Cmd) : (d.setCmd k x).blob = d.blob := rfl
@[simp] theorem Dev.setCmd_mem (k : Nat) (x : Cmd) : (d.setCmd k x).mem = d.mem := rfl
@[simp] theorem Dev.setCmd_poison (k : Nat) (x : Cmd) : (d.setCmd k x).poison = d.poison := rfl
@[simp] theorem Dev.setCmd_tb (k : Nat) (x : Cmd) : (d.setCmd k x).tb = d.tb := rfl
@[simp] theorem Dev.setCmd_tt (k : Nat) (x : Cmd) : (d.setCmd k x).tt = d.tt := rfl
@[simp] theorem Dev.setCmd_jobs (k : Nat) (x : Cmd) : (d.setCmd k x).jobs = d.jobs := rfl
@[simp] theorem Dev.setCmd_rings (k : Nat) (x : Cmd) : (d.setCmd k x).rings = d.rings := rfl
@[simp] theorem Dev.setCmd_nextCmd (k : Nat) (x : Cmd) : (d.setCmd k x).nextCmd = d.nextCmd := rfl
@[simp] theorem Dev.setCmd_arb (k : Nat) (x : Cmd) : (d.setCmd k x).arb = d.arb := rfl
@[simp] theorem Dev.setCmd_units (k : Nat) (x : Cmd) : (d.setCmd k x).units = d.units := rfl
@[simp] theorem Dev.setCmd_nextSlip (k : Nat) (x : Cmd) : (d.setCmd k x).nextSlip = d.nextSlip := rfl
@[simp] theorem Dev.setCmd_sessions (k : Nat) (x : Cmd) : (d.setCmd k x).sessions = d.sessions := rfl
@[simp] theorem Dev.setCmd_expired (k : Nat) (x : Cmd) : (d.setCmd k x).expired = d.expired := rfl
@[simp] theorem Dev.setCmd_keys (k : Nat) (x : Cmd) : (d.setCmd k x).keys = d.keys := rfl
@[simp] theorem Dev.setCmd_long (k : Nat) (x : Cmd) : (d.setCmd k x).long = d.long := rfl
@[simp] theorem Dev.setCmd_hosts (k : Nat) (x : Cmd) : (d.setCmd k x).hosts = d.hosts := rfl
@[simp] theorem Dev.setCmd_mgmt (k : Nat) (x : Cmd) : (d.setCmd k x).mgmt = d.mgmt := rfl
@[simp] theorem Dev.setCmd_nv (k : Nat) (x : Cmd) : (d.setCmd k x).nv = d.nv := rfl
@[simp] theorem Dev.setCmd_boot (k : Nat) (x : Cmd) : (d.setCmd k x).boot = d.boot := rfl
@[simp] theorem Dev.setCmd_pins (k : Nat) (x : Cmd) : (d.setCmd k x).pins = d.pins := rfl
@[simp] theorem Dev.setCmd_power (k : Nat) (x : Cmd) : (d.setCmd k x).power = d.power := rfl
@[simp] theorem Dev.setCmd_net (k : Nat) (x : Cmd) : (d.setCmd k x).net = d.net := rfl
@[simp] theorem Dev.setCmd_mem3 (k : Nat) (x : Cmd) : (d.setCmd k x).mem3 = d.mem3 := rfl
@[simp] theorem Dev.setCmd_sweeps (k : Nat) (x : Cmd) : (d.setCmd k x).sweeps = d.sweeps := rfl
@[simp] theorem Dev.setCmd_gathers (k : Nat) (x : Cmd) : (d.setCmd k x).gathers = d.gathers := rfl
@[simp] theorem Dev.setCmd_devTrcLost (k : Nat) (x : Cmd) : (d.setCmd k x).devTrcLost = d.devTrcLost := rfl

@[simp] theorem Dev.setUnit_now (u : Nat) (x : ExecUnit) : (d.setUnit u x).now = d.now := rfl
@[simp] theorem Dev.setUnit_fresh (u : Nat) (x : ExecUnit) : (d.setUnit u x).fresh = d.fresh := rfl
@[simp] theorem Dev.setUnit_out (u : Nat) (x : ExecUnit) : (d.setUnit u x).out = d.out := rfl
@[simp] theorem Dev.setUnit_cat (u : Nat) (x : ExecUnit) : (d.setUnit u x).cat = d.cat := rfl
@[simp] theorem Dev.setUnit_gens (u : Nat) (x : ExecUnit) : (d.setUnit u x).gens = d.gens := rfl
@[simp] theorem Dev.setUnit_blob (u : Nat) (x : ExecUnit) : (d.setUnit u x).blob = d.blob := rfl
@[simp] theorem Dev.setUnit_mem (u : Nat) (x : ExecUnit) : (d.setUnit u x).mem = d.mem := rfl
@[simp] theorem Dev.setUnit_poison (u : Nat) (x : ExecUnit) : (d.setUnit u x).poison = d.poison := rfl
@[simp] theorem Dev.setUnit_tb (u : Nat) (x : ExecUnit) : (d.setUnit u x).tb = d.tb := rfl
@[simp] theorem Dev.setUnit_tt (u : Nat) (x : ExecUnit) : (d.setUnit u x).tt = d.tt := rfl
@[simp] theorem Dev.setUnit_jobs (u : Nat) (x : ExecUnit) : (d.setUnit u x).jobs = d.jobs := rfl
@[simp] theorem Dev.setUnit_rings (u : Nat) (x : ExecUnit) : (d.setUnit u x).rings = d.rings := rfl
@[simp] theorem Dev.setUnit_cmds (u : Nat) (x : ExecUnit) : (d.setUnit u x).cmds = d.cmds := rfl
@[simp] theorem Dev.setUnit_nextCmd (u : Nat) (x : ExecUnit) : (d.setUnit u x).nextCmd = d.nextCmd := rfl
@[simp] theorem Dev.setUnit_arb (u : Nat) (x : ExecUnit) : (d.setUnit u x).arb = d.arb := rfl
@[simp] theorem Dev.setUnit_nextSlip (u : Nat) (x : ExecUnit) : (d.setUnit u x).nextSlip = d.nextSlip := rfl
@[simp] theorem Dev.setUnit_sessions (u : Nat) (x : ExecUnit) : (d.setUnit u x).sessions = d.sessions := rfl
@[simp] theorem Dev.setUnit_expired (u : Nat) (x : ExecUnit) : (d.setUnit u x).expired = d.expired := rfl
@[simp] theorem Dev.setUnit_keys (u : Nat) (x : ExecUnit) : (d.setUnit u x).keys = d.keys := rfl
@[simp] theorem Dev.setUnit_long (u : Nat) (x : ExecUnit) : (d.setUnit u x).long = d.long := rfl
@[simp] theorem Dev.setUnit_hosts (u : Nat) (x : ExecUnit) : (d.setUnit u x).hosts = d.hosts := rfl
@[simp] theorem Dev.setUnit_mgmt (u : Nat) (x : ExecUnit) : (d.setUnit u x).mgmt = d.mgmt := rfl
@[simp] theorem Dev.setUnit_nv (u : Nat) (x : ExecUnit) : (d.setUnit u x).nv = d.nv := rfl
@[simp] theorem Dev.setUnit_boot (u : Nat) (x : ExecUnit) : (d.setUnit u x).boot = d.boot := rfl
@[simp] theorem Dev.setUnit_pins (u : Nat) (x : ExecUnit) : (d.setUnit u x).pins = d.pins := rfl
@[simp] theorem Dev.setUnit_power (u : Nat) (x : ExecUnit) : (d.setUnit u x).power = d.power := rfl
@[simp] theorem Dev.setUnit_net (u : Nat) (x : ExecUnit) : (d.setUnit u x).net = d.net := rfl
@[simp] theorem Dev.setUnit_mem3 (u : Nat) (x : ExecUnit) : (d.setUnit u x).mem3 = d.mem3 := rfl
@[simp] theorem Dev.setUnit_sweeps (u : Nat) (x : ExecUnit) : (d.setUnit u x).sweeps = d.sweeps := rfl
@[simp] theorem Dev.setUnit_gathers (u : Nat) (x : ExecUnit) : (d.setUnit u x).gathers = d.gathers := rfl
@[simp] theorem Dev.setUnit_devTrcLost (u : Nat) (x : ExecUnit) : (d.setUnit u x).devTrcLost = d.devTrcLost := rfl

@[simp] theorem Dev.setBundle_now (u b : Nat) (x : Bundle) : (d.setBundle u b x).now = d.now := rfl
@[simp] theorem Dev.setBundle_fresh (u b : Nat) (x : Bundle) : (d.setBundle u b x).fresh = d.fresh := rfl
@[simp] theorem Dev.setBundle_out (u b : Nat) (x : Bundle) : (d.setBundle u b x).out = d.out := rfl
@[simp] theorem Dev.setBundle_cat (u b : Nat) (x : Bundle) : (d.setBundle u b x).cat = d.cat := rfl
@[simp] theorem Dev.setBundle_gens (u b : Nat) (x : Bundle) : (d.setBundle u b x).gens = d.gens := rfl
@[simp] theorem Dev.setBundle_blob (u b : Nat) (x : Bundle) : (d.setBundle u b x).blob = d.blob := rfl
@[simp] theorem Dev.setBundle_mem (u b : Nat) (x : Bundle) : (d.setBundle u b x).mem = d.mem := rfl
@[simp] theorem Dev.setBundle_poison (u b : Nat) (x : Bundle) : (d.setBundle u b x).poison = d.poison := rfl
@[simp] theorem Dev.setBundle_tb (u b : Nat) (x : Bundle) : (d.setBundle u b x).tb = d.tb := rfl
@[simp] theorem Dev.setBundle_tt (u b : Nat) (x : Bundle) : (d.setBundle u b x).tt = d.tt := rfl
@[simp] theorem Dev.setBundle_jobs (u b : Nat) (x : Bundle) : (d.setBundle u b x).jobs = d.jobs := rfl
@[simp] theorem Dev.setBundle_rings (u b : Nat) (x : Bundle) : (d.setBundle u b x).rings = d.rings := rfl
@[simp] theorem Dev.setBundle_cmds (u b : Nat) (x : Bundle) : (d.setBundle u b x).cmds = d.cmds := rfl
@[simp] theorem Dev.setBundle_nextCmd (u b : Nat) (x : Bundle) : (d.setBundle u b x).nextCmd = d.nextCmd := rfl
@[simp] theorem Dev.setBundle_arb (u b : Nat) (x : Bundle) : (d.setBundle u b x).arb = d.arb := rfl
@[simp] theorem Dev.setBundle_nextSlip (u b : Nat) (x : Bundle) : (d.setBundle u b x).nextSlip = d.nextSlip := rfl
@[simp] theorem Dev.setBundle_sessions (u b : Nat) (x : Bundle) : (d.setBundle u b x).sessions = d.sessions := rfl
@[simp] theorem Dev.setBundle_expired (u b : Nat) (x : Bundle) : (d.setBundle u b x).expired = d.expired := rfl
@[simp] theorem Dev.setBundle_keys (u b : Nat) (x : Bundle) : (d.setBundle u b x).keys = d.keys := rfl
@[simp] theorem Dev.setBundle_long (u b : Nat) (x : Bundle) : (d.setBundle u b x).long = d.long := rfl
@[simp] theorem Dev.setBundle_hosts (u b : Nat) (x : Bundle) : (d.setBundle u b x).hosts = d.hosts := rfl
@[simp] theorem Dev.setBundle_mgmt (u b : Nat) (x : Bundle) : (d.setBundle u b x).mgmt = d.mgmt := rfl
@[simp] theorem Dev.setBundle_nv (u b : Nat) (x : Bundle) : (d.setBundle u b x).nv = d.nv := rfl
@[simp] theorem Dev.setBundle_boot (u b : Nat) (x : Bundle) : (d.setBundle u b x).boot = d.boot := rfl
@[simp] theorem Dev.setBundle_pins (u b : Nat) (x : Bundle) : (d.setBundle u b x).pins = d.pins := rfl
@[simp] theorem Dev.setBundle_power (u b : Nat) (x : Bundle) : (d.setBundle u b x).power = d.power := rfl
@[simp] theorem Dev.setBundle_net (u b : Nat) (x : Bundle) : (d.setBundle u b x).net = d.net := rfl
@[simp] theorem Dev.setBundle_mem3 (u b : Nat) (x : Bundle) : (d.setBundle u b x).mem3 = d.mem3 := rfl
@[simp] theorem Dev.setBundle_sweeps (u b : Nat) (x : Bundle) : (d.setBundle u b x).sweeps = d.sweeps := rfl
@[simp] theorem Dev.setBundle_gathers (u b : Nat) (x : Bundle) : (d.setBundle u b x).gathers = d.gathers := rfl
@[simp] theorem Dev.setBundle_devTrcLost (u b : Nat) (x : Bundle) : (d.setBundle u b x).devTrcLost = d.devTrcLost := rfl

@[simp] theorem Dev.setHost_now (p : Nat) (x : HostPort) : (d.setHost p x).now = d.now := rfl
@[simp] theorem Dev.setHost_fresh (p : Nat) (x : HostPort) : (d.setHost p x).fresh = d.fresh := rfl
@[simp] theorem Dev.setHost_out (p : Nat) (x : HostPort) : (d.setHost p x).out = d.out := rfl
@[simp] theorem Dev.setHost_cat (p : Nat) (x : HostPort) : (d.setHost p x).cat = d.cat := rfl
@[simp] theorem Dev.setHost_gens (p : Nat) (x : HostPort) : (d.setHost p x).gens = d.gens := rfl
@[simp] theorem Dev.setHost_blob (p : Nat) (x : HostPort) : (d.setHost p x).blob = d.blob := rfl
@[simp] theorem Dev.setHost_mem (p : Nat) (x : HostPort) : (d.setHost p x).mem = d.mem := rfl
@[simp] theorem Dev.setHost_poison (p : Nat) (x : HostPort) : (d.setHost p x).poison = d.poison := rfl
@[simp] theorem Dev.setHost_tb (p : Nat) (x : HostPort) : (d.setHost p x).tb = d.tb := rfl
@[simp] theorem Dev.setHost_tt (p : Nat) (x : HostPort) : (d.setHost p x).tt = d.tt := rfl
@[simp] theorem Dev.setHost_jobs (p : Nat) (x : HostPort) : (d.setHost p x).jobs = d.jobs := rfl
@[simp] theorem Dev.setHost_rings (p : Nat) (x : HostPort) : (d.setHost p x).rings = d.rings := rfl
@[simp] theorem Dev.setHost_cmds (p : Nat) (x : HostPort) : (d.setHost p x).cmds = d.cmds := rfl
@[simp] theorem Dev.setHost_nextCmd (p : Nat) (x : HostPort) : (d.setHost p x).nextCmd = d.nextCmd := rfl
@[simp] theorem Dev.setHost_arb (p : Nat) (x : HostPort) : (d.setHost p x).arb = d.arb := rfl
@[simp] theorem Dev.setHost_units (p : Nat) (x : HostPort) : (d.setHost p x).units = d.units := rfl
@[simp] theorem Dev.setHost_nextSlip (p : Nat) (x : HostPort) : (d.setHost p x).nextSlip = d.nextSlip := rfl
@[simp] theorem Dev.setHost_sessions (p : Nat) (x : HostPort) : (d.setHost p x).sessions = d.sessions := rfl
@[simp] theorem Dev.setHost_expired (p : Nat) (x : HostPort) : (d.setHost p x).expired = d.expired := rfl
@[simp] theorem Dev.setHost_keys (p : Nat) (x : HostPort) : (d.setHost p x).keys = d.keys := rfl
@[simp] theorem Dev.setHost_long (p : Nat) (x : HostPort) : (d.setHost p x).long = d.long := rfl
@[simp] theorem Dev.setHost_mgmt (p : Nat) (x : HostPort) : (d.setHost p x).mgmt = d.mgmt := rfl
@[simp] theorem Dev.setHost_nv (p : Nat) (x : HostPort) : (d.setHost p x).nv = d.nv := rfl
@[simp] theorem Dev.setHost_boot (p : Nat) (x : HostPort) : (d.setHost p x).boot = d.boot := rfl
@[simp] theorem Dev.setHost_pins (p : Nat) (x : HostPort) : (d.setHost p x).pins = d.pins := rfl
@[simp] theorem Dev.setHost_power (p : Nat) (x : HostPort) : (d.setHost p x).power = d.power := rfl
@[simp] theorem Dev.setHost_net (p : Nat) (x : HostPort) : (d.setHost p x).net = d.net := rfl
@[simp] theorem Dev.setHost_mem3 (p : Nat) (x : HostPort) : (d.setHost p x).mem3 = d.mem3 := rfl
@[simp] theorem Dev.setHost_sweeps (p : Nat) (x : HostPort) : (d.setHost p x).sweeps = d.sweeps := rfl
@[simp] theorem Dev.setHost_gathers (p : Nat) (x : HostPort) : (d.setHost p x).gathers = d.gathers := rfl
@[simp] theorem Dev.setHost_devTrcLost (p : Nat) (x : HostPort) : (d.setHost p x).devTrcLost = d.devTrcLost := rfl

@[simp] theorem Dev.pinsNow_now : d.pinsNow.now = d.now := rfl
@[simp] theorem Dev.pinsNow_fresh : d.pinsNow.fresh = d.fresh := rfl
@[simp] theorem Dev.pinsNow_out : d.pinsNow.out = d.out := rfl
@[simp] theorem Dev.pinsNow_cat : d.pinsNow.cat = d.cat := rfl
@[simp] theorem Dev.pinsNow_gens : d.pinsNow.gens = d.gens := rfl
@[simp] theorem Dev.pinsNow_blob : d.pinsNow.blob = d.blob := rfl
@[simp] theorem Dev.pinsNow_mem : d.pinsNow.mem = d.mem := rfl
@[simp] theorem Dev.pinsNow_poison : d.pinsNow.poison = d.poison := rfl
@[simp] theorem Dev.pinsNow_tb : d.pinsNow.tb = d.tb := rfl
@[simp] theorem Dev.pinsNow_tt : d.pinsNow.tt = d.tt := rfl
@[simp] theorem Dev.pinsNow_jobs : d.pinsNow.jobs = d.jobs := rfl
@[simp] theorem Dev.pinsNow_rings : d.pinsNow.rings = d.rings := rfl
@[simp] theorem Dev.pinsNow_cmds : d.pinsNow.cmds = d.cmds := rfl
@[simp] theorem Dev.pinsNow_nextCmd : d.pinsNow.nextCmd = d.nextCmd := rfl
@[simp] theorem Dev.pinsNow_arb : d.pinsNow.arb = d.arb := rfl
@[simp] theorem Dev.pinsNow_units : d.pinsNow.units = d.units := rfl
@[simp] theorem Dev.pinsNow_nextSlip : d.pinsNow.nextSlip = d.nextSlip := rfl
@[simp] theorem Dev.pinsNow_sessions : d.pinsNow.sessions = d.sessions := rfl
@[simp] theorem Dev.pinsNow_expired : d.pinsNow.expired = d.expired := rfl
@[simp] theorem Dev.pinsNow_keys : d.pinsNow.keys = d.keys := rfl
@[simp] theorem Dev.pinsNow_long : d.pinsNow.long = d.long := rfl
@[simp] theorem Dev.pinsNow_hosts : d.pinsNow.hosts = d.hosts := rfl
@[simp] theorem Dev.pinsNow_mgmt : d.pinsNow.mgmt = d.mgmt := rfl
@[simp] theorem Dev.pinsNow_nv : d.pinsNow.nv = d.nv := rfl
@[simp] theorem Dev.pinsNow_boot : d.pinsNow.boot = d.boot := rfl
@[simp] theorem Dev.pinsNow_power : d.pinsNow.power = d.power := rfl
@[simp] theorem Dev.pinsNow_net : d.pinsNow.net = d.net := rfl
@[simp] theorem Dev.pinsNow_mem3 : d.pinsNow.mem3 = d.mem3 := rfl
@[simp] theorem Dev.pinsNow_sweeps : d.pinsNow.sweeps = d.sweeps := rfl
@[simp] theorem Dev.pinsNow_gathers : d.pinsNow.gathers = d.gathers := rfl
@[simp] theorem Dev.pinsNow_devTrcLost : d.pinsNow.devTrcLost = d.devTrcLost := rfl

/-! ### Own fields -/

@[simp] theorem Dev.takeN_fresh (n : Nat) : (d.takeN n).fresh = d.fresh + n := rfl
@[simp] theorem Dev.emit_out (o : Out) : (d.emit o).out = o :: d.out := rfl
@[simp] theorem Dev.setJob_job (j : Nat) (x : Job) : (d.setJob j x).job j = x := by simp [Dev.job, Dev.setJob]
@[simp] theorem Dev.setRing_ring (j q : Nat) (x : Ring) : (d.setRing j q x).ring j q = x := by
  simp [Dev.ring, Dev.setRing]
@[simp] theorem Dev.setCmd_cmd (k : Nat) (x : Cmd) : (d.setCmd k x).cmd? k = some x := by simp [Dev.cmd?, Dev.setCmd]
@[simp] theorem Dev.setUnit_unit (u : Nat) (x : ExecUnit) : (d.setUnit u x).unit u = x := by
  simp [Dev.unit, Dev.setUnit]
@[simp] theorem Dev.setBundle_bundle (u b : Nat) (x : Bundle) : (d.setBundle u b x).bundle? u b = some x := by
  simp [Dev.bundle?, Dev.setBundle]
@[simp] theorem Dev.setHost_host (p : Nat) (x : HostPort) : (d.setHost p x).host p = x := by
  simp [Dev.host, Dev.setHost]

/-- Time never runs back (R35). -/
theorem Dev.advance_now (t : Nat) : (d.advance t).now = max d.now t := by
  unfold Dev.advance; split
  · show t = _; omega
  · omega

/-- Two devices whose parts are equal are equal. -/
theorem Dev.eq_of {d e : Dev} (h_now : d.now = e.now) (h_fresh : d.fresh = e.fresh) (h_gens : d.gens = e.gens) (h_out : d.out = e.out) (h_cat : d.cat = e.cat) (h_blob : d.blob = e.blob) (h_mem : d.mem = e.mem) (h_poison : d.poison = e.poison) (h_tb : d.tb = e.tb) (h_tt : d.tt = e.tt) (h_jobs : d.jobs = e.jobs) (h_rings : d.rings = e.rings) (h_cmds : d.cmds = e.cmds) (h_nextCmd : d.nextCmd = e.nextCmd) (h_arb : d.arb = e.arb) (h_units : d.units = e.units) (h_nextSlip : d.nextSlip = e.nextSlip) (h_sessions : d.sessions = e.sessions) (h_expired : d.expired = e.expired) (h_keys : d.keys = e.keys) (h_long : d.long = e.long) (h_hosts : d.hosts = e.hosts) (h_mgmt : d.mgmt = e.mgmt) (h_nv : d.nv = e.nv) (h_boot : d.boot = e.boot) (h_pins : d.pins = e.pins) (h_power : d.power = e.power) (h_net : d.net = e.net) (h_mem3 : d.mem3 = e.mem3) (h_sweeps : d.sweeps = e.sweeps) (h_gathers : d.gathers = e.gathers) (h_devTrcLost : d.devTrcLost = e.devTrcLost) : d = e := by
  cases d; cases e; simp_all

theorem Dev.setJob_job_of (j k : Nat) (x : Job) : (d.setJob j x).job k = if k = j then x else d.job k := by
  simp [Dev.job, Dev.setJob, Tbl.getD_set]
theorem Dev.setCmd_cmd_of (j k : Nat) (x : Cmd) : (d.setCmd j x).cmd? k = if k = j then some x else d.cmd? k := by
  simp [Dev.cmd?, Dev.setCmd, Tbl.find?_set]
theorem Dev.setUnit_unit_of (u v : Nat) (x : ExecUnit) : (d.setUnit u x).unit v = if v = u then x else d.unit v := by
  simp [Dev.unit, Dev.setUnit, Tbl.getD_set]

/-! ### Catalogue values -/

theorem Dev.cget_cset (k v key : Nat) : (d.cset k v).cget key = if key = k then v else d.cget key := by
  simp only [Dev.cget, Dev.cset, Tbl.getD_set]

/-- A counter that rises by `n` reads `n` more; every other value is as it was. -/
theorem Dev.cget_bumpBy (k n key : Nat) : (d.bumpBy k n).cget key = d.cget key + if key = k then n else 0 := by
  unfold Dev.bumpBy
  split
  · simp_all
  · rw [Dev.cget_cset]; split <;> simp_all

theorem Dev.cget_bump (k key : Nat) : (d.bump k).cget key = d.cget key + if key = k then 1 else 0 :=
  Dev.cget_bumpBy d k 1 key

@[simp] theorem Dev.cget_advance (t : Nat) (key : Nat) : (d.advance t).cget key = d.cget key := by simp [Dev.cget]
@[simp] theorem Dev.cget_takeN (n : Nat) (key : Nat) : (d.takeN n).cget key = d.cget key := by simp [Dev.cget]
@[simp] theorem Dev.cget_bset (k : Nat) (v : List Byte) (key : Nat) : (d.bset k v).cget key = d.cget key := by simp [Dev.cget]
@[simp] theorem Dev.cget_emit (o : Out) (key : Nat) : (d.emit o).cget key = d.cget key := by simp [Dev.cget]
@[simp] theorem Dev.cget_setJob (j : Nat) (x : Job) (key : Nat) : (d.setJob j x).cget key = d.cget key := by simp [Dev.cget]
@[simp] theorem Dev.cget_setRing (j q : Nat) (x : Ring) (key : Nat) : (d.setRing j q x).cget key = d.cget key := by simp [Dev.cget]
@[simp] theorem Dev.cget_setCmd (k : Nat) (x : Cmd) (key : Nat) : (d.setCmd k x).cget key = d.cget key := by simp [Dev.cget]
@[simp] theorem Dev.cget_setUnit (u : Nat) (x : ExecUnit) (key : Nat) : (d.setUnit u x).cget key = d.cget key := by simp [Dev.cget]
@[simp] theorem Dev.cget_setBundle (u b : Nat) (x : Bundle) (key : Nat) : (d.setBundle u b x).cget key = d.cget key := by simp [Dev.cget]
@[simp] theorem Dev.cget_setHost (p : Nat) (x : HostPort) (key : Nat) : (d.setHost p x).cget key = d.cget key := by simp [Dev.cget]
@[simp] theorem Dev.cget_pinsNow (key : Nat) : d.pinsNow.cget key = d.cget key := by simp [Dev.cget]

/-! ### Pins and what follows a command -/

/-- Showing the pins twice shows the same. -/
@[simp] theorem Dev.pinsNow_pinsNow : d.pinsNow.pinsNow = d.pinsNow := rfl

/-- After a command's consequences the pins show the state. -/
theorem Dev.settle_pins : d.settle.pinsNow = d.settle := by
  unfold Dev.settle; split <;> rfl

/-- Where nothing is under way, only the pins follow from a command. -/
theorem Dev.settle_quiet (h : d.quiet = true) : d.settle = d.pinsNow := by simp [Dev.settle, h]

@[simp] theorem lift_eq (f : Dev → Dev) (s : State) : lift f s = .next { s with dev := (f s.dev).settle } := rfl

end Sys2Proof.Machine
end

