-- ==== Sys2Proof/Laws/Memory.lean ====
section
/-! SUPPORT. Laws of memory: read after write, what a write leaves alone, and the canonical form, which every memory
operation keeps. -/

namespace Sys2Proof.Machine

variable {m : List Host.Cell}

theorem memByte_put (m : List Host.Cell) (a : Nat) (v : Byte) (x : Nat) :
    memByte (memPut m a v) x = if x = a then v else memByte m x := by
  unfold memPut memByte
  split
  · rw [Tbl.find?_erase]; split <;> simp_all
  · rw [Tbl.find?_set]; split <;> simp

/-- After a write, the bytes written read as given and every other byte as before. -/
theorem memByte_write (m : List Host.Cell) (a : Nat) (l : List Byte) (x : Nat) :
    memByte (memWrite m a l) x = if a ≤ x ∧ x < a + l.length then (l[x - a]?).getD 0 else memByte m x := by
  induction l generalizing m a with
  | nil => simp only [memWrite, List.length_nil]; rw [if_neg (by omega)]
  | cons v t ih =>
    simp only [memWrite, ih, memByte_put, List.length_cons]
    by_cases h : x = a
    · subst h; rw [if_neg (by omega), if_pos rfl, if_pos (by omega)]; simp
    · by_cases h2 : a + 1 ≤ x ∧ x < a + 1 + t.length
      · rw [if_pos h2, if_pos (by omega)]
        obtain ⟨k, rfl⟩ : ∃ k, x = a + 1 + k := ⟨x - (a + 1), by omega⟩
        rw [show a + 1 + k - (a + 1) = k by omega, show a + 1 + k - a = k + 1 by omega]; simp
      · rw [if_neg h2, if_neg h, if_neg (by omega)]

theorem memRead_length (m : List Host.Cell) (a n : Nat) : (memRead m a n).length = n := by
  induction n generalizing a with
  | zero => rfl
  | succ n ih => simp [memRead, ih]

theorem memRead_get (m : List Host.Cell) (a n i : Nat) (h : i < n) : (memRead m a n)[i]? = some (memByte m (a + i)) := by
  induction n generalizing a i with
  | zero => omega
  | succ n ih =>
    cases i with
    | zero => simp [memRead]
    | succ i => simp only [memRead, List.getElem?_cons_succ]; rw [ih (a + 1) i (by omega)]; congr 2; omega

/-- A read of what was just written gives it back. -/
theorem memRead_write (m : List Host.Cell) (a : Nat) (l : List Byte) : memRead (memWrite m a l) a l.length = l := by
  apply List.ext_getElem?
  intro i
  by_cases h : i < l.length
  · rw [memRead_get _ _ _ _ h, memByte_write, if_pos (by omega), show a + i - a = i by omega]; simp [h]
  · rw [List.getElem?_eq_none (by rw [memRead_length]; omega), List.getElem?_eq_none (by omega)]

theorem Memory.wf_put (a : Nat) (v : Byte) (h : Memory.wf m = true) : Memory.wf (memPut m a v) = true := by
  simp only [Memory.wf, Bool.and_eq_true, List.all_eq_true] at h ⊢
  unfold memPut
  split
  · exact ⟨Tbl.sorted_erase a h.1, fun c hc => h.2 c (by rw [Tbl.erase_eq_filter] at hc; exact (List.mem_filter.1 hc).1)⟩
  · refine ⟨Tbl.sorted_set a v h.1, fun c hc => ?_⟩
    rcases Tbl.mem_set hc with rfl | hc
    · simpa using ‹¬ v = 0›
    · exact h.2 c hc

theorem Memory.wf_write (a : Nat) (l : List Byte) (h : Memory.wf m = true) : Memory.wf (memWrite m a l) = true := by
  induction l generalizing m a with
  | nil => exact h
  | cons v t ih => exact ih _ (Memory.wf_put a v h)

theorem Memory.wf_filter (p : Host.Cell → Bool) (h : Memory.wf m = true) : Memory.wf (m.filter p) = true := by
  simp only [Memory.wf, Bool.and_eq_true, List.all_eq_true] at h ⊢
  exact ⟨Tbl.sorted_filter p h.1, fun c hc => h.2 c (List.mem_filter.1 hc).1⟩

theorem Memory.wf_zero (a n : Nat) (h : Memory.wf m = true) : Memory.wf (memZero m a n) = true := Memory.wf_filter _ h

theorem Memory.wf_copy (src dst n : Nat) (h : Memory.wf m = true) : Memory.wf (memCopy m src dst n) = true := by
  unfold memCopy
  generalize List.filter _ m = l
  have h0 := Memory.wf_zero dst n h
  revert h0
  generalize memZero m dst n = acc
  intro h0
  induction l generalizing acc with
  | nil => exact h0
  | cons c t ih => exact ih _ (Memory.wf_put _ _ h0)

/-! ### The device's own writes -/

/-- The device's memory is in its canonical form. -/
def Dev.memWf (d : Dev) : Prop := Memory.wf d.mem = true

theorem Dev.memWf_reset : Dev.reset.memWf := rfl

theorem Dev.memWf_raiseMsix (d : Dev) (p v : Nat) (h : d.memWf) : (d.raiseMsix p v).memWf := by
  unfold Dev.raiseMsix; dsimp only; split <;> exact h

theorem Dev.memWf_hostErr (d : Dev) (p b : Nat) (h : d.memWf) : (d.hostErr p b).memWf := by
  unfold Dev.hostErr; dsimp only; split
  · exact h
  · split
    · exact Dev.memWf_raiseMsix _ _ _ h
    · exact h

theorem Dev.memWf_of_mem {d e : Dev} (h : d.memWf) (he : e.mem = d.mem) : e.memWf := by unfold Dev.memWf; rw [he]; exact h

theorem Dev.memWf_tier4Write (d : Dev) (pa : Nat) (l : List Byte) (h : d.memWf) : (d.tier4Write pa l).memWf := by
  unfold Dev.tier4Write
  cases paRoot pa with
  | none => exact Memory.wf_write _ _ h
  | some root =>
    dsimp only
    generalize xtsLine _ _ _ _ = x
    exact Memory.wf_write _ _ h

theorem Dev.memWf_wrRaw (d : Dev) (pa : Nat) (l : List Byte) (h : d.memWf) : (d.wrRaw pa l).memWf := by
  unfold Dev.wrRaw
  split
  · exact h
  · split
    · exact Dev.memWf_hostErr _ _ _ (Dev.memWf_of_mem h (by simp))
    · exact Dev.memWf_tier4Write _ _ _ h
  · split
    · exact Memory.wf_write _ _ h
    · split
      · exact Dev.memWf_of_mem h (by simp)
      · exact Memory.wf_write _ _ h
  · split
    · exact Memory.wf_write _ _ h
    · split
      · exact Dev.memWf_of_mem h (by simp)
      · exact Memory.wf_write _ _ h
  · exact Memory.wf_write _ _ h

theorem Dev.memWf_placeRecord (b d : Dev) (j hint rec_ pa : Nat) (h : d.memWf) :
    (Dev.placeRecord b d j hint rec_ pa).memWf := by
  unfold Dev.placeRecord
  dsimp only
  split
  · exact Memory.wf_write _ _ h
  · split
    · exact Memory.wf_write _ _ (Memory.wf_write _ _ h)
    · unfold Dev.memWf; rw [Dev.bump_mem]; exact Memory.wf_write _ _ (Memory.wf_write _ _ h)

/-- A property that each element's step keeps is kept by a fold. -/
theorem foldl_keeps {α β : Type} (P : β → Prop) (f : β → α → β) (hf : ∀ b a, P b → P (f b a)) (l : List α) (b : β) (h : P b) :
    P (l.foldl f b) := by
  induction l generalizing b with
  | nil => exact h
  | cons a t ih => exact ih _ (hf _ _ h)

theorem Dev.memWf_placeLine (b d : Dev) (pa n : Nat) (h : d.memWf) : (Dev.placeLine b d pa n).memWf := by
  unfold Dev.placeLine
  split
  · refine foldl_keeps Dev.memWf _ (fun e kj he => ?_) _ _ h
    split
    · exact he
    · refine foldl_keeps Dev.memWf _ (fun e r he => ?_) _ _ he
      split
      · split
        · exact Dev.memWf_placeRecord _ _ _ _ _ _ he
        · exact he
      · exact he
  · exact h

theorem Dev.memWf_wrLine (d : Dev) (pa : Nat) (l : List Byte) (h : d.memWf) : (d.wrLine pa l).memWf := by
  unfold Dev.wrLine
  dsimp only
  split
  · exact Dev.memWf_wrRaw _ _ _ h
  · exact Dev.memWf_placeLine _ _ _ _ (Dev.memWf_wrRaw _ _ _ h)

/-- Writes by physical address keep the canonical form. -/
theorem Dev.memWf_wr (d : Dev) (pa : Nat) (l : List Byte) (h : d.memWf) : (d.wr pa l).memWf := by
  have key : ∀ (fuel : Nat) (d : Dev) (pa : Nat) (l : List Byte), d.memWf → (d.wrLines pa l fuel).memWf := by
    intro fuel
    induction fuel with
    | zero => intro d pa l h; exact h
    | succ n ih =>
      intro d pa l h; simp only [Dev.wrLines]; split
      · exact h
      · exact ih _ _ _ (Dev.memWf_wrLine _ _ _ h)
  exact key _ _ _ _ h

/-- Writes by job address keep the canonical form. -/
theorem Dev.memWf_jwr (d : Dev) (j va : Nat) (l : List Byte) (h : d.memWf) : (d.jwr j va l).memWf := by
  have key : ∀ (fuel : Nat) (d : Dev) (va : Nat) (l : List Byte), d.memWf → (d.jwrLines j va l fuel).memWf := by
    intro fuel
    induction fuel with
    | zero => intro d va l h; exact h
    | succ n ih =>
      intro d va l h; simp only [Dev.jwrLines]; split
      · exact h
      · apply ih; split
        · exact Dev.memWf_wrLine _ _ _ h
        · exact h
  exact key _ _ _ _ h

/-- The entry of a page, read back, maps that page (R207). -/
theorem entryPage_entry (p : Page) (h : p.pa < 2 ^ 48) (ha : p.pa % 2 ^ 8 = 0) :
    entryPage p.entry p.va p.size p.alloc = p := by
  obtain ⟨va, size, pa, w, e, m, alloc⟩ := p
  simp only at h ha
  have hpa : pa / 2 ^ 8 % 2 ^ 40 = pa / 2 ^ 8 := by omega
  cases w <;> cases e <;> cases m <;>
    simp only [entryPage, Page.entry, fld, bit, b2n, Page.mk.injEq, true_and, and_true, hpa, if_true, reduceCtorEq, if_false,
      decide_eq_false_iff_not, decide_eq_true_eq] <;> omega

theorem Dev.memWf_zeroPage (d : Dev) (pa n : Nat) (h : d.memWf) : (d.zeroPage pa n).memWf := Memory.wf_zero _ _ h

end Sys2Proof.Machine
end

