-- ==== Sys2Proof/Laws/Commands.lean ====
section
/-! SUPPORT. What the shared ways of ring commands and Catalogue writes can do: a trace record, a dispatch, a write that
passes its checks. -/

namespace Sys2Proof.Machine

/-! ### Parts of the device that an operation leaves -/

/-- `e` differs from `d` in what a trace record may touch, at most. -/
def Dev.tracedOf (d e : Dev) : Prop :=
  e = { d with out := e.out, mem := e.mem, cat := e.cat, poison := e.poison, hosts := e.hosts, jobs := e.jobs,
               devTrcLost := e.devTrcLost }
    ∧ ∀ j, e.job j = { d.job j with trcLost := (e.job j).trcLost }

theorem Dev.tracedOf.refl (d : Dev) : d.tracedOf d := ⟨rfl, fun _ => rfl⟩

theorem Dev.tracedOf.trans {a b c : Dev} (h : a.tracedOf b) (k : b.tracedOf c) : a.tracedOf c := by
  refine ⟨by rw [k.1, h.1], fun j => ?_⟩
  rw [k.2 j, h.2 j]

/-- A device that keeps its job slots, and everything but what a trace record may touch. -/
theorem Dev.tracedOf.of_eq {d e : Dev} (hj : e.jobs = d.jobs)
    (h : e = { d with out := e.out, mem := e.mem, cat := e.cat, poison := e.poison, hosts := e.hosts,
                      devTrcLost := e.devTrcLost }) : d.tracedOf e := by
  refine ⟨by rw [h], fun j => ?_⟩
  have : e.job j = d.job j := by unfold Dev.job; rw [hj]
  rw [this]

theorem Dev.tracedOf_bumpBy (d : Dev) (k n : Nat) : d.tracedOf (d.bumpBy k n) := by
  refine .of_eq ?_ ?_ <;> unfold Dev.bumpBy <;> split <;> rfl
theorem Dev.tracedOf_bump (d : Dev) (k : Nat) : d.tracedOf (d.bump k) := d.tracedOf_bumpBy k 1
theorem Dev.tracedOf_emit (d : Dev) (o : Out) : d.tracedOf (d.emit o) := .of_eq rfl rfl
theorem Dev.tracedOf_mem (d : Dev) (m : List Host.Cell) : d.tracedOf { d with mem := m } := .of_eq rfl rfl
theorem Dev.tracedOf_setHost (d : Dev) (p : Nat) (x : HostPort) : d.tracedOf (d.setHost p x) := .of_eq rfl rfl

theorem Dev.tracedOf_raiseMsix (d : Dev) (p v : Nat) : d.tracedOf (d.raiseMsix p v) := by
  unfold Dev.raiseMsix; dsimp only; split
  · exact d.tracedOf_setHost _ _
  · exact d.tracedOf_emit _

theorem Dev.tracedOf_hostErr (d : Dev) (p b : Nat) : d.tracedOf (d.hostErr p b) := by
  unfold Dev.hostErr; dsimp only; split
  · exact .refl d
  · split
    · exact (d.tracedOf_setHost _ _).trans (Dev.tracedOf_raiseMsix _ _ _)
    · exact d.tracedOf_setHost _ _

theorem Dev.tracedOf_clearPoison (d : Dev) (l : Nat) : d.tracedOf (d.clearPoison l) := .of_eq rfl rfl

theorem Dev.tracedOf_tier4Write (d : Dev) (pa : Nat) (data : List Byte) : d.tracedOf (d.tier4Write pa data) := by
  unfold Dev.tier4Write
  cases paRoot pa <;> exact d.tracedOf_mem _

theorem Dev.tracedOf_wrRaw (d : Dev) (pa : Nat) (data : List Byte) : d.tracedOf (d.wrRaw pa data) := by
  unfold Dev.wrRaw
  (repeat' split) <;> first
    | exact .refl d
    | exact (d.tracedOf_bump _).trans (Dev.tracedOf_hostErr _ _ _)
    | exact d.tracedOf_tier4Write _ _
    | exact d.tracedOf_mem _
    | exact d.tracedOf_bump _
    | exact .of_eq rfl rfl

theorem Dev.tracedOf_foldl {α : Type} (f : Dev → α → Dev) (l : List α) (hf : ∀ (d : Dev) (a : α), d.tracedOf (f d a)) (d : Dev) :
    d.tracedOf (l.foldl f d) := by
  induction l generalizing d with
  | nil => exact .refl d
  | cons a t ih => exact (hf d a).trans (ih _)

theorem Dev.tracedOf_placeRecord (b d : Dev) (j hint rec_ pa : Nat) : d.tracedOf (Dev.placeRecord b d j hint rec_ pa) := by
  unfold Dev.placeRecord; dsimp only; split
  · exact d.tracedOf_mem _
  · split
    · exact (d.tracedOf_mem _).trans (Dev.tracedOf_mem _ _)
    · exact ((d.tracedOf_mem _).trans (Dev.tracedOf_mem _ _)).trans (Dev.tracedOf_bump _ _)

theorem Dev.tracedOf_placeLine (b d : Dev) (pa n : Nat) : d.tracedOf (Dev.placeLine b d pa n) := by
  unfold Dev.placeLine
  split
  · refine d.tracedOf_foldl _ _ fun d kj => ?_
    split
    · exact .refl d
    · refine d.tracedOf_foldl _ _ fun d a => ?_
      split
      · split
        · exact Dev.tracedOf_placeRecord _ _ _ _ _ _
        · exact .refl d
      · exact .refl d
  · exact .refl d

theorem Dev.tracedOf_wrLine (d : Dev) (pa : Nat) (data : List Byte) : d.tracedOf (d.wrLine pa data) := by
  unfold Dev.wrLine; dsimp only; split
  · exact d.tracedOf_wrRaw _ _
  · exact (d.tracedOf_wrRaw _ _).trans (Dev.tracedOf_placeLine _ _ _ _)

theorem Dev.tracedOf_xfault (d : Dev) (j va : Nat) : d.tracedOf (d.xfault j va) :=
  (d.tracedOf_bump _).trans (.of_eq rfl rfl)

theorem Dev.tracedOf_jwrLines (fuel : Nat) (d : Dev) (j va : Nat) (data : List Byte) :
    d.tracedOf (d.jwrLines j va data fuel) := by
  induction fuel generalizing d va data with
  | zero => exact .refl d
  | succ n ih =>
    unfold Dev.jwrLines
    split
    · exact .refl d
    · dsimp only
      split
      · exact (d.tracedOf_wrLine _ _).trans (ih _ _ _)
      · exact (d.tracedOf_xfault _ _).trans (ih _ _ _)

/-- A write at a job address leaves everything but memory, poison, counters and what a port shows. -/
theorem Dev.tracedOf_jwr (d : Dev) (j va : Nat) (data : List Byte) : d.tracedOf (d.jwr j va data) :=
  Dev.tracedOf_jwrLines _ _ _ _ _

theorem Dev.job_setJob (d : Dev) (j k : Nat) (x : Job) : (d.setJob j x).job k = if k = j then x else d.job k := by
  unfold Dev.job Dev.setJob; exact Tbl.getD_set _ _ _ _ _

theorem Dev.tracedOf_setLost (d : Dev) (j n : Nat) : d.tracedOf (d.setJob j { d.job j with trcLost := n }) := by
  refine ⟨rfl, fun k => ?_⟩
  rw [Dev.job_setJob]; split
  · next h => subst h; rfl
  · rfl

theorem Dev.tracedOf_trcPut1 (d : Dev) (j : Nat) (r : TraceRec) : d.tracedOf (d.trcPut1 j r).1 := by
  unfold Dev.trcPut1; dsimp only
  (repeat' split)
  · exact .refl d
  · exact d.tracedOf_xfault _ _
  · exact (d.tracedOf_jwr _ _ _).trans (Dev.tracedOf_bump _ _)

theorem Dev.tracedOf_trcPut (d : Dev) (j : Nat) (r : TraceRec) : d.tracedOf (d.trcPut j r) := by
  unfold Dev.trcPut; dsimp only
  split
  · exact .refl d
  · generalize hp : (if (d.job j).trcLost = 0 then (d, true) else _) = p
    have h1 : d.tracedOf p.1 := by
      rw [← hp]
      (repeat' split)
      · exact .refl d
      · exact (d.tracedOf_trcPut1 _ _).trans (Dev.tracedOf_setLost _ _ _)
      · exact d.tracedOf_trcPut1 _ _
    obtain ⟨e, b⟩ := p
    dsimp only at h1 ⊢
    generalize hq : (if b = true then e.trcPut1 j r else (e, false)) = q
    have h2 : d.tracedOf q.1 := by
      rw [← hq]
      split
      · exact h1.trans (e.tracedOf_trcPut1 _ _)
      · exact h1
    obtain ⟨f, c⟩ := q
    dsimp only at h2 ⊢
    split
    · exact h2
    · refine h2.trans ((f.tracedOf_bump (Cat.TRC_LOST j)).trans ?_)
      have hj : (f.bump (Cat.TRC_LOST j)).job j = f.job j := by unfold Dev.bump Dev.bumpBy; rfl
      rw [← hj]; exact Dev.tracedOf_setLost _ _ _

theorem Dev.tracedOf_trcDev (d : Dev) (r : TraceRec) : d.tracedOf (d.trcDev r) := by
  unfold Dev.trcDev; dsimp only
  have put : ∀ (d : Dev) (p n k : Nat) (r : TraceRec) , d.tracedOf
      ({ d with mem := memWrite d.mem (hostCell p n) (r.bytes k) }.bump Cat.TRC_DEV_HEAD) :=
    fun d p n k r => (d.tracedOf_mem _).trans (Dev.tracedOf_bump _ _)
  have zero : ∀ d : Dev, d.tracedOf { d with devTrcLost := 0 } := fun d => .of_eq rfl rfl
  (repeat' split)
  · exact .refl d
  · exact (d.tracedOf_bump _).trans (.of_eq rfl rfl)
  · exact put _ _ _ _ _
  · exact (zero d).trans ((put _ _ _ _ _).trans (put _ _ _ _ _))

/-- A trace record changes memory, poison, counters and what the ports and the records show, and nothing else. -/
theorem Dev.tracedOf_trace (d : Dev) (r : TraceRec) : d.tracedOf (d.trace r) := by
  unfold Dev.trace; dsimp only
  have h : d.tracedOf ((d.emit (.trace r)).trcDev r) := (d.tracedOf_emit _).trans (Dev.tracedOf_trcDev _ _)
  split
  · exact h.trans (Dev.tracedOf_trcPut _ _ _)
  · refine h.trans (Dev.tracedOf_foldl _ _ (fun d j => ?_) _)
    split
    · exact Dev.tracedOf_trcPut _ _ _
    · exact .refl d

theorem Dev.tracedOf_event (d : Dev) (kind job unit a b c : Nat) : d.tracedOf (d.event kind job unit a b c) :=
  Dev.tracedOf_trace _ _

/-- With no ring set up, a record of a job only leaves the device. -/
theorem Dev.trace_untraced {d : Dev} {r : TraceRec} (h : Untraced d r.job) : d.trace r = d.emit (.trace r) := by
  obtain ⟨h1, h2, h3⟩ := h
  have hd : (d.emit (.trace r)).trcDev r = d.emit (.trace r) := by
    unfold Dev.trcDev
    have hb : (d.emit (.trace r)).bget Cat.TRC_DEV_RING = d.bget Cat.TRC_DEV_RING := rfl
    simp only [hb, h3, Bool.not_false, Bool.true_or, if_true]
  unfold Dev.trace
  dsimp only
  rw [if_pos h1, hd]
  unfold Dev.trcPut
  have hc : (d.emit (.trace r)).cget (Cat.TRC_RING_BYTES r.job) = d.cget (Cat.TRC_RING_BYTES r.job) := rfl
  rw [if_pos (by rw [hc, h2])]

/-! ### Held commands -/

theorem Dev.cmd?_setCmd (d : Dev) (k i : Nat) (c : Cmd) : (d.setCmd k c).cmd? i = if i = k then some c else d.cmd? i := by
  unfold Dev.cmd? Dev.setCmd; exact Tbl.find?_set _ _ _ _

theorem Dev.tracedOf.cmds {d e : Dev} (h : d.tracedOf e) : e.cmds = d.cmds := by rw [h.1]
theorem Dev.tracedOf.cmd? {d e : Dev} (h : d.tracedOf e) (i : Nat) : e.cmd? i = d.cmd? i := by
  unfold Dev.cmd?; rw [h.cmds]
theorem Dev.tracedOf.now {d e : Dev} (h : d.tracedOf e) : e.now = d.now := by rw [h.1]
theorem Dev.tracedOf.stamp {d e : Dev} (h : d.tracedOf e) : e.stamp = d.stamp := by unfold Dev.stamp; rw [h.now]

theorem Dev.updCmd_some {d : Dev} {k : Nat} {c : Cmd} (h : d.cmd? k = some c) (f : Cmd → Cmd) :
    d.updCmd k f = d.setCmd k (f c) := by unfold Dev.updCmd; rw [h]

/-- A held command that begins and ends at a unit: its END is noted, and the rest is the trace's. -/
theorem Dev.noted_atUnit {d : Dev} {k : Nat} {c : Cmd} (u : Nat) (h : d.cmd? k = some c) : Noted d (d.atUnit k u) k c u := by
  have ht : d.tracedOf (d.traceBegin c u 0xF) := Dev.tracedOf_trace _ _
  have ha : d.atUnit k u = (d.traceBegin c u 0xF).setCmd k { c with ends := c.ends ++ [(u, 0xF, d.stamp)] } := by
    unfold Dev.atUnit
    simp only [h]
    rw [Dev.updCmd_some (by rw [ht.cmd?, h]), ht.stamp]
  refine ⟨?_, ?_, ?_, ?_⟩
  · rw [ha, Dev.cmd?_setCmd, if_pos rfl]
  · intro i hi
    rw [ha, Dev.cmd?_setCmd, if_neg hi, ht.cmd?]
  · rw [ha]
    refine ⟨?_, fun j => ht.2 j⟩
    exact congrArg (fun z : Dev => { z with cmds := ((d.traceBegin c u 0xF).setCmd k
      { c with ends := c.ends ++ [(u, 0xF, d.stamp)] }).cmds }) ht.1
  · intro hu
    have : ∃ o, d.traceBegin c u 0xF = d.emit o := ⟨_, Dev.trace_untraced hu⟩
    obtain ⟨o, this⟩ := this
    rw [ha, this]; exact ⟨rfl, rfl, rfl⟩

theorem Dev.workDone_some {d : Dev} {k : Nat} {c : Cmd} (h : d.cmd? k = some c) :
    d.workDone k = d.setCmd k { c with st := .retiring, done := true } := Dev.updCmd_some h _

/-! ### Dispatch -/

theorem Dev.dispatch_runs {d : Dev} {cls op k : Nat} {c : Cmd} {run : Nat → Cmd → Dev → Dev}
    {at_ : Nat} (h : Dispatches (d.advance at_) cls op k c) :
    Dev.dispatch cls op run at_ k d
      = (run k ((d.advance at_).dispatched c) ((d.advance at_).onceDispatched k c)).promote c.job c.ring := by
  obtain ⟨h1, h2, h3, h4, h5, h6, h7, h8, h9, h10, h11, h12, h13⟩ := h
  unfold Dev.dispatch
  simp only [h1]
  rw [if_neg (by simp [h2, h3, h4, h5, h6, h7, h8]), if_neg (by simp [h9]), if_neg (by simp [h10, h11, h12, h13])]

@[simp] theorem Dev.cmd?_onceDispatched (d : Dev) (k : Nat) (c : Cmd) (i : Nat) :
    (d.onceDispatched k c).cmd? i = if i = k then some (d.dispatched c) else d.cmd? i := by
  have h : ∀ e : Dev, (e.tookTurn c).cmds = e.cmds := by
    intro e; unfold Dev.tookTurn; dsimp only; split <;> rfl
  unfold Dev.onceDispatched
  rw [Dev.cmd?_setCmd]
  unfold Dev.cmd?
  rw [h]

theorem RingOp.of {mk : Nat → Nat → Instr} {cls op : Nat} {P : Dev → Dev → Nat → Cmd → Prop}
    (run : Nat → Cmd → Dev → Dev)
    (he : ∀ at_ k s, exec (mk at_ k) s = lift (Dev.dispatch cls op run at_ k) s)
    (hp : ∀ (d : Dev) k c, d.cmd? k = some c → P d (run k c d) k c) : RingOp mk cls op P := by
  intro s at_ k c h
  refine ⟨_, he at_ k s, _, Dev.dispatch_runs h, ?_⟩
  exact hp _ _ _ (by rw [Dev.cmd?_onceDispatched, if_pos rfl])

/-! ### Catalogue writes -/

theorem catWrite_admits {d : Dev} {r : Req} {index field : Nat} {v : List Byte} {w : Writer} {own : Dev → Bool} {d1 : Dev}
    (h : Admits (d.advance r.at_) r index field v w own d1) (eff : Dev → WriteResult) :
    catWrite r index field v w own eff d =
      if (eff d1).long then (eff d1).dev else (eff d1).dev.replied r index field v (eff d1).status := by
  obtain ⟨h1, h2, s, e, h3, h4, h5, h6, h7, h8, h9, h10⟩ := h
  unfold catWrite
  rw [if_neg (by simp [h1])]
  dsimp only
  rw [h2]
  dsimp only
  simp only [h3, h4]
  rw [if_neg (by simp [h5, h6]), if_neg (by simp [h7]), if_neg (by simpa using h8), if_neg (by simp [h9, h10])]
  unfold Dev.replied
  rw [h4]
  rfl

theorem WriteOp.of {mk : Req → Instr} {index field : Nat} {v : List Byte} {w : Writer} {own : Dev → Bool}
    {P : Dev → Req → Dev → Nat → Prop} (eff : Req → Dev → WriteResult)
    (he : ∀ r s, exec (mk r) s = lift (catWrite r index field v w own (eff r)) s)
    (hl : ∀ r d, (eff r d).long = false) (hp : ∀ (r : Req) (d : Dev), own d = true → P d r (eff r d).dev (eff r d).status) :
    WriteOp mk index field v w own P := by
  intro s r d1 h
  refine ⟨_, he r s, _, _, hp r d1 h.2.2.choose_spec.choose_spec.2.2.2.2.2.2.2, ?_⟩
  rw [catWrite_admits h, hl, if_neg (by simp)]

theorem StartsLong.of {mk : Req → Instr} {index field len : Nat} {v : List Byte} {w : Writer} {own : Dev → Bool}
    {ready : Dev → Req → Prop} {prep : Dev → Req → Dev} {k : LongKind} (eff : Req → Dev → WriteResult)
    (he : ∀ r s, exec (mk r) s = lift (catWrite r index field v w own (eff r)) s)
    (hp : ∀ r d, ready d r → eff r d = (prep d r).startLong r index field v ((catEntry index field).bind (·.jobOf index)) k len) :
    StartsLong mk index field v len w own ready prep k := by
  intro s r d1 h hr
  refine ⟨_, he r s, { kind := k, index := index, field := field, sess := r.sess, reqId := r.reqId, transport := r.transport, typ := r.typ, prot := r.prot.isSome, started := (prep d1 r).now }, rfl, rfl, rfl, rfl, rfl, rfl, rfl, rfl, rfl, ?_⟩
  rw [catWrite_admits h, hp r d1 hr]
  rfl

end Sys2Proof.Machine
end

