-- ==== Sys2Proof/Laws/Crypto.lean ====
section
/-! SUPPORT. AES-256-GCM undoes itself (R330, R413): what one end seals the other opens. -/

namespace Sys2Proof.Laws

open Sys2Proof.Machine

/-- `n` bytes. -/
def IsBytes (n : Nat) (l : List Nat) : Prop := l.length = n ∧ ∀ a ∈ l, a < 256

theorem natsOf_isBytes (l : List Byte) : IsBytes l.length (natsOf l) := by
  refine ⟨List.length_map _, fun a h => ?_⟩
  obtain ⟨b, -, rfl⟩ := List.mem_map.mp h
  exact b.isLt

theorem natsOf_bytesOf {n : Nat} {l : List Nat} (h : IsBytes n l) : natsOf (bytesOf l) = l := by
  rw [natsOf, bytesOf, List.map_map]
  exact (List.map_congr_left fun a ha => Nat.mod_eq_of_lt (h.2 a ha)).trans (List.map_id l)

theorem bytesOf_natsOf (l : List Byte) : bytesOf (natsOf l) = l := by
  rw [natsOf, bytesOf, List.map_map]
  exact (List.map_congr_left fun a _ => by simp).trans (List.map_id l)

theorem xorLists_isBytes {n m : Nat} {a b : List Nat} (ha : IsBytes n a) (hb : IsBytes m b) :
    IsBytes (min n m) (xorLists a b) := by
  refine ⟨by simp [xorLists, ha.1, hb.1], fun x h => ?_⟩
  obtain ⟨p, hp, rfl⟩ := List.mem_map.mp h
  obtain ⟨h1, h2⟩ := List.of_mem_zip hp
  exact Nat.xor_lt_two_pow (n := 8) (ha.2 _ h1) (hb.2 _ h2)

theorem xorLists_cancel : ∀ (a b : List Nat), a.length ≤ b.length → xorLists (xorLists a b) b = a
  | [], _, _ => rfl
  | a :: s, [], h => absurd h (by simp)
  | a :: s, b :: t, h => by
    have := xorLists_cancel s t (by simpa using h)
    simp only [xorLists, List.zip_cons_cons, List.map_cons] at this ⊢
    rw [this, Nat.xor_assoc, Nat.xor_self, Nat.xor_zero]

theorem nth_lt {l : List Nat} {n : Nat} (h : IsBytes n l) (i : Nat) : nth l i < 256 := by
  unfold nth
  cases hi : l[i]? with
  | none => decide
  | some a => exact h.2 a (List.mem_of_getElem? hi)

theorem subBytes_isBytes {n : Nat} {l : List Nat} (box : Nat) (h : l.length = n) : IsBytes n (l.map (subByte box)) := by
  refine ⟨by simpa using h, fun a ha => ?_⟩
  obtain ⟨b, -, rfl⟩ := List.mem_map.mp ha
  exact Nat.mod_lt _ (by decide)

theorem shiftRows_isBytes {n : Nat} {l : List Nat} (h : IsBytes n l) : IsBytes 16 (shiftRows l) := by
  refine ⟨by simp [shiftRows], fun a ha => ?_⟩
  obtain ⟨i, -, rfl⟩ := List.mem_map.mp ha
  exact nth_lt h _

/-- The key schedule makes words of four bytes from words of four bytes. -/
theorem expandKey_words : ∀ (k i : Nat) (ws : List (List Nat)), i + k ≤ 60 → 8 ≤ ws.length → (∀ w ∈ ws, IsBytes 4 w) →
    (expandKey k i ws).length = ws.length + k ∧ ∀ w ∈ expandKey k i ws, IsBytes 4 w
  | 0, _, ws, _, _, h => ⟨rfl, h⟩
  | k + 1, i, ws, hi, hl, h => by
    have get (m : Nat) (hm : m < 8) : IsBytes 4 ((ws[m]?).getD []) := by
      rw [List.getElem?_eq_getElem (by omega)]
      exact h _ (List.getElem_mem _)
    have h0 := get 0 (by decide)
    have step : ∀ w, IsBytes 4 w → (expandKey k (i + 1) (xorLists ((ws[7]?).getD []) w :: ws)).length = ws.length + (k + 1)
        ∧ ∀ v ∈ expandKey k (i + 1) (xorLists ((ws[7]?).getD []) w :: ws), IsBytes 4 v := by
      intro w hw
      have := expandKey_words k (i + 1) (xorLists ((ws[7]?).getD []) w :: ws) (by omega) (by simp; omega) (by
        intro v hv
        rcases List.mem_cons.mp hv with rfl | hv
        · exact xorLists_isBytes (get 7 (by decide)) hw
        · exact h v hv)
      exact ⟨this.1.trans (by simp; omega), this.2⟩
    unfold expandKey
    dsimp only
    split
    · refine step _ (xorLists_isBytes (m := 4) (subBytes_isBytes (n := 4) _ (by simp [h0.1])) ⟨rfl, ?_⟩)
      intro a ha
      have : 2 ^ (i / 8 - 1) ≤ 2 ^ 6 := Nat.pow_le_pow_right (by decide) (by omega)
      simp at ha
      omega
    · split
      · exact step _ (subBytes_isBytes _ h0.1)
      · exact step _ h0

/-- The last round key of a 32-byte key. -/
theorem roundKeys_last {key : List Nat} (h : IsBytes 32 key) : IsBytes 16 (((roundKeys key)[14]?).getD []) := by
  have hw := expandKey_words 52 8 ((List.range 8).map fun i => (key.drop (4 * i)).take 4).reverse (by decide) (by simp) (by
    intro w hw
    obtain ⟨i, hi, rfl⟩ := List.mem_map.mp (List.mem_reverse.mp hw)
    have hi := List.mem_range.mp hi
    exact ⟨by simp [h.1]; omega, fun a ha => h.2 a (List.mem_of_mem_drop (List.mem_of_mem_take ha))⟩)
  have he : ((roundKeys key)[14]?).getD []
      = ((((expandKey 52 8 ((List.range 8).map fun i => (key.drop (4 * i)).take 4).reverse).reverse).drop 56).take 4).flatten := by
    simp [roundKeys]
  rw [he]
  generalize expandKey 52 8 _ = ws at hw
  have hl : ws.length = 60 := by simpa using hw.1
  have hall : ∀ w ∈ (ws.reverse.drop 56).take 4, IsBytes 4 w := fun w hm =>
    hw.2 w (List.mem_reverse.mp (List.mem_of_mem_drop (List.mem_of_mem_take hm)))
  refine ⟨?_, ?_⟩
  · rw [List.length_flatten, List.map_congr_left (g := fun _ => 4) fun w hm => (hall w hm).1]
    simp [hl]
  · intro a ha
    obtain ⟨w, hm, ha⟩ := List.mem_flatten.mp ha
    exact (hall w hm).2 a ha

/-- A block is encrypted to 16 bytes. -/
theorem aesEncrypt_isBytes {rks : List (List Nat)} (h : IsBytes 16 ((rks[14]?).getD [])) (b : List Nat) :
    IsBytes 16 (aesEncrypt rks b) := by
  unfold aesEncrypt
  exact xorLists_isBytes (shiftRows_isBytes (subBytes_isBytes _ rfl)) h

/-- Counter mode gives as many bytes as it takes, and undoes itself. -/
theorem gctr_isBytes {rks : List (List Nat)} (h : IsBytes 16 ((rks[14]?).getD [])) (iv : List Nat) :
    ∀ (k n m : Nat) (l : List Nat), IsBytes m l → m ≤ 16 * k →
      IsBytes m (gctr rks iv k n l) ∧ gctr rks iv k n (gctr rks iv k n l) = l
  | 0, n, m, l, hl, hm => by
    obtain rfl : m = 0 := by omega
    have : l = [] := List.length_eq_zero_iff.mp hl.1
    subst this
    exact ⟨⟨rfl, nofun⟩, rfl⟩
  | k + 1, n, m, l, hl, hm => by
    have hb := aesEncrypt_isBytes h (iv ++ (List.range 4).map fun i => n >>> (8 * (3 - i)) % 256)
    simp only [gctr]
    generalize aesEncrypt rks _ = e at hb
    have ht : IsBytes (min 16 m) (l.take 16) := ⟨by simp [hl.1], fun a ha => hl.2 a (List.mem_of_mem_take ha)⟩
    have hd : IsBytes (m - 16) (l.drop 16) := ⟨by simp [hl.1], fun a ha => hl.2 a (List.mem_of_mem_drop ha)⟩
    obtain ⟨h1, h2⟩ := gctr_isBytes h iv k (n + 1) (m - 16) (l.drop 16) hd (by omega)
    have hx := xorLists_isBytes ht hb
    refine ⟨⟨by rw [List.length_append, hx.1, h1.1]; omega, fun a ha => ?_⟩, ?_⟩
    · rcases List.mem_append.mp ha with ha | ha
      · exact hx.2 a ha
      · exact h1.2 a ha
    · by_cases hs : m ≤ 16
      · have hnil : l.drop 16 = [] := List.drop_eq_nil_of_le (hl.1.trans_le hs)
        have hg : gctr rks iv k (n + 1) ([] : List Nat) = [] :=
          List.length_eq_zero_iff.mp (gctr_isBytes h iv k (n + 1) 0 [] ⟨rfl, nofun⟩ (by omega)).1.1
        rw [hnil, hg, List.append_nil, List.take_of_length_le (by rw [hx.1]; omega),
          List.drop_eq_nil_of_le (by rw [hx.1]; omega), hg, List.append_nil, xorLists_cancel _ _ (by rw [ht.1, hb.1]; omega),
          List.take_of_length_le (hl.1.trans_le hs)]
      · have hx16 : (xorLists (l.take 16) e).length = 16 := by rw [hx.1]; omega
        rw [List.take_left' hx16, List.drop_left' hx16, h2, xorLists_cancel _ _ (by rw [ht.1, hb.1]; omega),
          List.take_append_drop]

/-- R330: what is sealed under a key is opened under it, and its tag of 16 bytes verifies. -/
theorem gcm_opens_what_it_seals (key iv aad plain : List Byte) (hk : key.length = 32) :
    gcmOpen key iv aad (gcmSeal key iv aad plain).1 (gcmSeal key iv aad plain).2 = (plain, true)
      ∧ (gcmSeal key iv aad plain).1.length = plain.length ∧ (gcmSeal key iv aad plain).2.length = 16 := by
  have hr := roundKeys_last (key := natsOf key) (hk ▸ natsOf_isBytes key)
  have hp := natsOf_isBytes plain
  obtain ⟨h1, h2⟩ := gctr_isBytes hr (natsOf iv) (ceilDiv plain.length 16) 2 plain.length (natsOf plain) hp (by
    unfold ceilDiv; omega)
  have hl : (bytesOf (gctr (roundKeys (natsOf key)) (natsOf iv) (ceilDiv plain.length 16) 2 (natsOf plain))).length
      = plain.length := by rw [bytesOf, List.length_map]; exact h1.1
  refine ⟨?_, hl, ?_⟩
  rotate_left
  · have hn (n : Nat) : IsBytes 16 (natBlock n) := by
      refine ⟨by simp [natBlock], fun a ha => ?_⟩
      obtain ⟨i, -, rfl⟩ := List.mem_map.mp ha
      exact Nat.mod_lt _ (by decide)
    simp only [gcmSeal, bytesOf, List.length_map]
    exact (xorLists_isBytes (hn _) (aesEncrypt_isBytes hr _)).1
  simp only [gcmSeal, gcmOpen, hl, natsOf_bytesOf h1, h2, bytesOf_natsOf, decide_true]

end Sys2Proof.Laws
end

