-- ==== Sys2Proof/Laws/Reports.lean ====
section
/-! SUPPORT. What an operation that only counts and reports can change: counters, host error causes, messages that leave,
and the status that a command gathers. And the small steps of thread memory instructions. -/

namespace Sys2Proof.Machine

/-- `e` differs from `d` in Catalogue values, host ports, what left the device, and held commands, at most. -/
def Dev.notesOf (d e : Dev) : Prop := e = { d with out := e.out, cat := e.cat, hosts := e.hosts, cmds := e.cmds }

theorem Dev.notesOf.refl (d : Dev) : d.notesOf d := rfl
theorem Dev.notesOf.trans {a b c : Dev} (h : a.notesOf b) (k : b.notesOf c) : a.notesOf c := by
  unfold Dev.notesOf at *; rw [k, h]
theorem Dev.notesOf.mem {d e : Dev} (h : d.notesOf e) : e.mem = d.mem := by rw [h]
theorem Dev.notesOf.units {d e : Dev} (h : d.notesOf e) : e.units = d.units := by rw [h]
theorem Dev.notesOf.jobs {d e : Dev} (h : d.notesOf e) : e.jobs = d.jobs := by rw [h]
theorem Dev.notesOf.bundle {d e : Dev} (h : d.notesOf e) (u b : Nat) : e.bundle? u b = d.bundle? u b := by
  unfold Dev.bundle? Dev.unit; rw [h.units]
theorem Dev.notesOf.unit {d e : Dev} (h : d.notesOf e) (u : Nat) : e.unit u = d.unit u := by
  unfold Dev.unit; rw [h.units]

theorem Dev.notesOf_bumpBy (d : Dev) (k n : Nat) : d.notesOf (d.bumpBy k n) := by unfold Dev.bumpBy; split <;> rfl
theorem Dev.notesOf_bump (d : Dev) (k : Nat) : d.notesOf (d.bump k) := d.notesOf_bumpBy k 1
theorem Dev.notesOf_cset (d : Dev) (k v : Nat) : d.notesOf (d.cset k v) := rfl
theorem Dev.notesOf_emit (d : Dev) (o : Out) : d.notesOf (d.emit o) := rfl
theorem Dev.notesOf_setCmd (d : Dev) (k : Nat) (c : Cmd) : d.notesOf (d.setCmd k c) := rfl

theorem Dev.notesOf_updCmd (d : Dev) (k : Nat) (f : Cmd → Cmd) : d.notesOf (d.updCmd k f) := by
  unfold Dev.updCmd; split <;> rfl

theorem Dev.notesOf_raiseMsix (d : Dev) (p v : Nat) : d.notesOf (d.raiseMsix p v) := by
  unfold Dev.raiseMsix; dsimp only; split <;> rfl

theorem Dev.notesOf_hostErr (d : Dev) (p b : Nat) : d.notesOf (d.hostErr p b) := by
  unfold Dev.hostErr; dsimp only; split
  · rfl
  · split
    · exact (show d.notesOf (d.setHost p _) from rfl).trans (Dev.notesOf_raiseMsix _ _ _)
    · rfl

theorem Dev.notesOf_countBad (d : Dev) (pa : Nat) : d.notesOf (d.countBad pa) := by
  unfold Dev.countBad; split
  · exact (d.notesOf_bump _).trans (Dev.notesOf_hostErr _ _ _)
  · exact d.notesOf_bump _
  · exact d.notesOf_bump _
  · rfl

theorem Dev.notesOf_foldl {α : Type} (f : Dev → α → Dev) (hf : ∀ (d : Dev) (a : α), d.notesOf (f d a)) (l : List α) (d : Dev) :
    d.notesOf (l.foldl f d) := by
  induction l generalizing d with
  | nil => exact .refl d
  | cons a t ih => exact (hf d a).trans (ih _)

/-- Poison that a command read is counted and noted in its status (R220). -/
theorem Dev.notesOf_cmdPoison (d : Dev) (k : Nat) (lines : List Nat) : d.notesOf (d.cmdPoison k lines) :=
  (Dev.notesOf_foldl _ (fun d a => d.notesOf_countBad a) lines d).trans (Dev.notesOf_updCmd _ _ _)

theorem Dev.notesOf_threadPoison (d : Dev) (t : TCtx) (lines : List Nat) : d.notesOf (d.threadPoison t lines) :=
  (d.notesOf_cmdPoison _ _).trans ((Dev.notesOf_bumpBy _ _ _).trans (Dev.notesOf_bumpBy _ _ _))

theorem Dev.notesOf_countMisaligned (d : Dev) (u n : Nat) : d.notesOf (d.countMisaligned u n) :=
  (d.notesOf_bumpBy _ _).trans (Dev.notesOf_bumpBy _ _ _)

theorem Dev.notesOf_xfault (d : Dev) (j va : Nat) : d.notesOf (d.xfault j va) :=
  (d.notesOf_bump _).trans (Dev.notesOf_cset _ _ _)

/-! ### Read buffers -/

/-- `e` differs from `d` in read buffers and free values taken, at most. -/
def Dev.buffersOf (d e : Dev) : Prop :=
  e = { d with units := e.units, fresh := e.fresh } ∧ ∀ u, e.unit u = { d.unit u with buf := (e.unit u).buf }

theorem Dev.buffersOf.refl (d : Dev) : d.buffersOf d := ⟨rfl, fun _ => rfl⟩
theorem Dev.buffersOf.trans {a b c : Dev} (h : a.buffersOf b) (k : b.buffersOf c) : a.buffersOf c := by
  refine ⟨by rw [k.1, h.1], fun u => ?_⟩
  rw [k.2 u, h.2 u]
theorem Dev.buffersOf.bundle {d e : Dev} (h : d.buffersOf e) (u b : Nat) : e.bundle? u b = d.bundle? u b := by
  unfold Dev.bundle?; rw [h.2 u]
theorem Dev.buffersOf.mem {d e : Dev} (h : d.buffersOf e) : e.mem = d.mem := by rw [h.1]

theorem Dev.buffersOf_setBuf (d : Dev) (u : Nat) (b : Tbl BufLine) :
    d.buffersOf (d.setUnit u { d.unit u with buf := b }) := by
  refine ⟨rfl, fun v => ?_⟩
  rw [Dev.setUnit_unit_of]; split
  · next h => subst h; rfl
  · rfl

theorem Dev.buffersOf_takeN (d : Dev) (n : Nat) : d.buffersOf (d.takeN n) := ⟨rfl, fun _ => rfl⟩

theorem Dev.buffersOf_bufferLine (d : Dev) (u j l : Nat) (data : List Byte) : d.buffersOf (d.bufferLine u j l data) := by
  unfold Dev.bufferLine; split
  · exact d.buffersOf_setBuf _ _
  · exact .refl d

theorem Dev.buffersOf_dropLine (d : Dev) (u l : Nat) : d.buffersOf (d.dropLine u l) := d.buffersOf_setBuf _ _
theorem Dev.buffersOf_invalidate (d : Dev) (u j : Nat) : d.buffersOf (d.invalidate u j) := d.buffersOf_setBuf _ _

theorem Dev.buffersOf_storeToBuffer (d : Dev) (u : Nat) (p : PendStore) : d.buffersOf (d.storeToBuffer u p) := by
  unfold Dev.storeToBuffer; dsimp only; split
  · exact d.buffersOf_setBuf _ _
  · exact .refl d

theorem Dev.buffersOf_foldl {α : Type} (f : Dev → α → Dev) (hf : ∀ (d : Dev) (a : α), d.buffersOf (f d a)) (l : List α)
    (d : Dev) : d.buffersOf (l.foldl f d) := by
  induction l generalizing d with
  | nil => exact .refl d
  | cons a t ih => exact (hf d a).trans (ih _)

end Sys2Proof.Machine
end

