-- ==== Sys2Proof/Laws/Stats.lean ====
section
/-! SUPPORT. What a contribution to a statistics slot can change. -/

namespace Sys2Proof.Machine

/-- `e` differs from `d` in Catalogue values, job slots and free values taken, at most. -/
def Dev.countsOf (d e : Dev) : Prop := e = { d with cat := e.cat, jobs := e.jobs, fresh := e.fresh }

theorem Dev.countsOf.refl (d : Dev) : d.countsOf d := rfl
theorem Dev.countsOf.trans {a b c : Dev} (h : a.countsOf b) (k : b.countsOf c) : a.countsOf c := by
  unfold Dev.countsOf at *; rw [k, h]
theorem Dev.countsOf_bumpBy (d : Dev) (k n : Nat) : d.countsOf (d.bumpBy k n) := by
  unfold Dev.bumpBy; split <;> rfl
theorem Dev.countsOf_bump (d : Dev) (k : Nat) : d.countsOf (d.bump k) := Dev.countsOf_bumpBy d k 1
theorem Dev.countsOf_setJob (d : Dev) (j : Nat) (x : Job) : d.countsOf (d.setJob j x) := rfl
theorem Dev.countsOf_takeN (d : Dev) (n : Nat) : d.countsOf (d.takeN n) := rfl

/-- A contribution counts, and gathers figures in its job's slot. -/
theorem Dev.countsOf_contributeStat (d : Dev) (j k : Nat) (f : StatFig) (n r : Bool) :
    d.countsOf (d.contributeStat j k f n r) := by
  unfold Dev.contributeStat
  split
  · exact .refl d
  · dsimp only
    split
    · exact Dev.countsOf_bump _ _
    · have h1 : d.countsOf (if (n && slotProbeLeft (d.slotRec j k) ≠ 0 && !slotSealed (d.slotRec j k)) = true then
          d.bump Cat.NUM_PROBE_UNSEALED else d) := by
        split
        · exact Dev.countsOf_bump _ _
        · exact .refl d
      revert h1
      generalize (if (n && slotProbeLeft (d.slotRec j k) ≠ 0 && !slotSealed (d.slotRec j k)) = true then
          d.bump Cat.NUM_PROBE_UNSEALED else d) = e
      intro h1
      generalize addToRolls _ _ _ _ = ar
      obtain ⟨rolls, found⟩ := ar
      dsimp only
      refine h1.trans ?_
      (repeat' split) <;> first
        | exact Dev.countsOf_setJob _ _ _
        | exact Dev.countsOf.trans (Dev.countsOf_setJob _ _ _) ((Dev.countsOf_bump _ _).trans (Dev.countsOf_bump _ _))

theorem Dev.countsOf.units {d e : Dev} (h : d.countsOf e) : e.units = d.units := by rw [h]
theorem Dev.countsOf.mem {d e : Dev} (h : d.countsOf e) : e.mem = d.mem := by rw [h]

end Sys2Proof.Machine
end

