-- ==== Sys2Proof/Laws/Thread.lean ====
section
/-! SUPPORT. What the shared ways of a thread instruction can do: issue, results by lane, predicates, uniform results. -/

namespace Sys2Proof.Machine

variable {d : Dev} {u b : Nat} {x : Bundle} {c : Cmd} {w : TWord}

/-! ### Registers -/

theorem Bundle.vreg_setV (x : Bundle) (l r : Nat) (v : Word) (l' r' : Nat) (hr : r < 64) (hr' : r' < 64) :
    (x.setV l r v).vreg l' r' = if l' = l ∧ r' = r then v else x.vreg l' r' := by
  have hk : (64 * l' + r' = 64 * l + r) ↔ (l' = l ∧ r' = r) := by omega
  unfold Bundle.setV Bundle.vreg
  split
  · simp only [Tbl.getD_erase, hk]; split <;> simp_all
  · simp only [Tbl.getD_set, hk]

theorem Bundle.setV_rest (x : Bundle) (l r : Nat) (v : Word) : x.setV l r v = { x with v := (x.setV l r v).v } := rfl

/-- A fold that writes register `r` of distinct-valued lanes: each lane named reads its value. -/
theorem Bundle.vreg_fold (g : Nat → Word) (ls : List Nat) (x : Bundle) (r l' r' : Nat) (hr : r < 64) (hr' : r' < 64) :
    (ls.foldl (fun y l => y.setV l r (g l)) x).vreg l' r' = if l' ∈ ls ∧ r' = r then g l' else x.vreg l' r' := by
  induction ls generalizing x with
  | nil => simp
  | cons a t ih =>
    simp only [List.foldl_cons, ih, Bundle.vreg_setV _ _ _ _ _ _ hr hr', List.mem_cons]
    by_cases h1 : l' ∈ t <;> by_cases h2 : r' = r <;> by_cases h3 : l' = a <;> simp_all

theorem Bundle.fold_rest (g : Nat → Word) (ls : List Nat) (x : Bundle) (r : Nat) :
    ls.foldl (fun y l => y.setV l r (g l)) x = { x with v := (ls.foldl (fun y l => y.setV l r (g l)) x).v } := by
  induction ls generalizing x with
  | nil => rfl
  | cons a t ih => simp only [List.foldl_cons]; rw [ih]; rfl

theorem Bundle.ureg_setU (x : Bundle) (r r' : Nat) (v : DWord) :
    (x.setU r v).ureg r' = if r' = r ∧ r' ≠ 63 then v else x.ureg r' := by
  unfold Bundle.setU Bundle.ureg
  by_cases h : r' = 63
  · simp [h]
  · by_cases h2 : r = 63
    · simp only [h2, if_true, h]; simp [h]
    · simp only [h, h2, if_false]; split
      · simp only [Tbl.getD_erase]; split <;> simp_all
      · simp only [Tbl.getD_set]; split <;> simp_all

theorem Bundle.setU_rest (x : Bundle) (r : Nat) (v : DWord) : x.setU r v = { x with u := (x.setU r v).u } := by
  unfold Bundle.setU; split <;> rfl

theorem Bundle.preg_setP (x : Bundle) (r r' : Nat) (m : DWord) :
    (x.setP r m).preg r' = if r' = r ∧ r' ≠ 0 then m else x.preg r' := by
  unfold Bundle.setP Bundle.preg
  by_cases h : r' = 0
  · simp [h]
  · by_cases h2 : r = 0
    · simp only [h2, if_true, h]; simp [h]
    · simp only [h, h2, if_false]; split
      · simp only [Tbl.getD_erase]; split <;> simp_all
      · simp only [Tbl.getD_set]; split <;> simp_all

theorem Bundle.setP_rest (x : Bundle) (r : Nat) (m : DWord) : x.setP r m = { x with p := (x.setP r m).p } := by
  unfold Bundle.setP; split <;> rfl

theorem fld_lt (n lo len : Nat) : fld n lo len < 2 ^ len := Nat.mod_lt _ (Nat.two_pow_pos _)

theorem fD_lt (n : Nat) : fD n < 64 := fld_lt n 46 6

/-- A mask of lanes has exactly their bits. -/
theorem laneMask_bit (ls : List Nat) (l : Nat) (h : l < 64) : (laneMask ls).getLsbD l = decide (l ∈ ls) := by
  have key : ∀ (ls : List Nat) (m : DWord),
      (ls.foldl (fun m i => m ||| (1#64 <<< i)) m).getLsbD l = (m.getLsbD l || decide (l ∈ ls)) := by
    intro ls
    induction ls with
    | nil => simp
    | cons a t ih =>
      intro m
      simp only [List.foldl_cons, ih, BitVec.getLsbD_or, BitVec.getLsbD_shiftLeft, List.mem_cons]
      by_cases ha : l = a
      · subst ha; simp [h]
      · by_cases hla : l < a
        · simp [ha, hla]
        · have : (1#64).getLsbD (l - a) = false := by
            rw [BitVec.getLsbD_one]; simp; omega
          simp [ha, this]
  unfold laneMask; rw [key]; simp

/-- A predicate written in some lanes: those lanes take the new values, the others keep theirs. -/
theorem Bundle.pred_setPLanes (x : Bundle) (r : Nat) (ls : List Nat) (f : Nat → Bool) (r' l : Nat) (h : l < 64) :
    (x.setPLanes r ls f).pred r' l = if l ∈ ls ∧ r' = r ∧ r' ≠ 0 then f l else x.pred r' l := by
  unfold Bundle.setPLanes Bundle.pred
  rw [Bundle.preg_setP]
  by_cases h1 : r' = r ∧ r' ≠ 0
  · rw [if_pos h1]
    simp only [BitVec.getLsbD_or, BitVec.getLsbD_and, BitVec.getLsbD_not, laneMask_bit _ _ h, List.mem_filter]
    obtain ⟨rfl, h1⟩ := h1
    by_cases h2 : l ∈ ls <;> simp [h2, h1, h]
  · rw [if_neg h1]; rw [if_neg]; tauto

theorem Bundle.setPLanes_rest (x : Bundle) (r : Nat) (ls : List Nat) (f : Nat → Bool) :
    x.setPLanes r ls f = { x with p := (x.setPLanes r ls f).p } := Bundle.setP_rest _ _ _

/-! ### Fetch and issue -/

/-- A bundle that issues and fetches the word acts on the device on which it is fetched. -/
theorem Dev.fetched_runs {op : Nat} {run : Dev → Dev} (h : Issues d u b x c) (hf : Fetches d u x c op w) :
    Dev.fetched op u b w run d = run (d.onceFetched u x c) := by
  obtain ⟨h1, h2, h3, h4, h5, h6⟩ := h
  have hm : Dev.mayIssue c x = true := by simp only [Dev.mayIssue, h3]; rcases h4 with h4 | h4 <;> simp [h4]
  have hx : (d.xlate c.job x.pc false).isNone = false := by rw [← Option.not_isSome, h5]; rfl
  unfold Fetches at hf
  unfold Dev.fetched
  simp only [h1, h2, hm, h6, hf, hx, Bool.not_true, List.isEmpty_nil, Bool.or_self, Bool.false_eq_true, if_false, if_true]
  rfl

@[simp] theorem Dev.onceFetched_bundle (u' b' : Nat) : (d.onceFetched u x c).bundle? u' b' = d.bundle? u' b' := by
  unfold Dev.onceFetched Dev.fillCode Dev.bundle? Dev.unit
  by_cases hu : u' = u <;> simp [Tbl.getD_set, hu]

/-- The fetch changes the unit's instruction cache and the count of free values, and nothing else. -/
theorem Dev.onceFetched_rest :
    d.onceFetched u x c = { d with units := (d.onceFetched u x c).units, fresh := (d.onceFetched u x c).fresh } := rfl

theorem Dev.onceFetched_unit (v : Nat) :
    (d.onceFetched u x c).unit v = { d.unit v with code := ((d.onceFetched u x c).unit v).code } := by
  unfold Dev.onceFetched Dev.fillCode Dev.unit
  by_cases hv : v = u <;> simp [Tbl.getD_set, hv]

theorem Issues.onceFetched (h : Issues d u b x c) : Issues (d.onceFetched u x c) u b x c :=
  ⟨by simpa using h.1, h.2.1, h.2.2.1, h.2.2.2.1, h.2.2.2.2.1, h.2.2.2.2.2⟩

theorem Dev.issue_frame0 (d : Dev) (t : TCtx) : ThreadFrame d (d.issue t) t t.x (fun _ => 0) 0 0 := by
  refine ⟨?_, ?_, ?_, ?_, ?_, ?_, ?_, rfl, ?_⟩
  · simp [Dev.issue]
  · intro b hb; simp [Dev.issue, Dev.bundle?, Dev.setBundle, Dev.unit, Dev.setUnit, Tbl.find?_set, hb]
  · simp [Dev.issue, Dev.setBundle, Dev.unit, Dev.setUnit]
  · intro v hv; simp [Dev.issue, Dev.setBundle, Dev.unit, Dev.setUnit, Tbl.getD_set, hv]
  · intro key
    simp only [Dev.issue, Dev.cget_setBundle, Dev.cget_setJob, Dev.cget_bump, Nat.add_zero]
  · simp [Dev.issue, Dev.job, Dev.setJob]
  · intro k hk; simp [Dev.issue, Dev.job, Dev.setJob, Tbl.getD_set, hk]
  · unfold Dev.issue Dev.bump Dev.bumpBy; rfl

/-- A thread instruction that issues, with its word well formed and its limits met, does what it does on the device in
which it is counted and the PC has moved on. -/
theorem Dev.thread_issues {used : Nat} {bad : Nat → List Nat} {ready : Dev → Cmd → Bundle → Bool} {run : TCtx → Dev → Dev}
    (h : Issues d u b x c) (hw : Only w used) (hb : bad w.toNat = []) (hr : ready d c x = true) :
    Dev.thread u b w used bad ready run d = run (ctx u b x c w) (d.issue (ctx u b x c w)) := by
  obtain ⟨h1, h2, h3, h4, h5, h6⟩ := h
  have hm : Dev.mayIssue c x = true := by simp only [Dev.mayIssue, h3]; rcases h4 with h4 | h4 <;> simp [h4]
  unfold Only at hw
  unfold Dev.thread
  simp only [h1, h2, hm, hr, h6, hw, hb, Option.isNone_iff_eq_none]
  have hx : ¬ (d.xlate c.job x.pc false = none) := by intro he; rw [he] at h5; exact absurd h5 (by decide)
  simp only [hx, Bool.not_true, Bool.or_self, Bool.false_eq_true, if_false, List.isEmpty_nil, List.append_nil]
  rfl

/-- Issue alone: the frame of an instruction whose bundle goes back as it is. -/
theorem Dev.issue_frame (t : TCtx) (y : Bundle) :
    ThreadFrame d ((d.issue t).putBundle t y) t y (fun _ => 0) 0 0 := by
  refine ⟨?_, ?_, ?_, ?_, ?_, ?_, ?_, rfl, ?_⟩
  · simp [Dev.putBundle]
  · intro b hb; simp [Dev.putBundle, Dev.issue, Dev.bundle?, Dev.setBundle, Dev.unit, Dev.setUnit, Tbl.find?_set, hb]
  · simp [Dev.putBundle, Dev.issue, Dev.setBundle, Dev.unit, Dev.setUnit]
  · intro v hv; simp [Dev.putBundle, Dev.issue, Dev.setBundle, Dev.unit, Dev.setUnit, Tbl.getD_set, hv]
  · intro key
    simp only [Dev.putBundle, Dev.issue, Dev.cget_setBundle, Dev.cget_setJob, Dev.cget_bump, Nat.add_zero]
  · simp [Dev.putBundle, Dev.issue, Dev.job, Dev.setJob]
  · intro k hk; simp [Dev.putBundle, Dev.issue, Dev.job, Dev.setJob, Tbl.getD_set, hk]
  · unfold Dev.putBundle Dev.issue Dev.bump Dev.bumpBy; rfl

/-! ### Results by lane, by predicate, by uniform register -/

theorem Dev.free_issue (t : TCtx) (l : Nat) : (d.issue t).free l = d.free l := by
  simp [Dev.free, Dev.issue]

/-- A vector instruction that issues has its effect and no other. -/
theorem Dev.lanes_effect {used : Nat} {bad : Nat → List Nat} {free : Bool} {f : TCtx → Nat → Nat → F32}
    (h : Issues d u b x c) (hw : Only w used) (hb : bad w.toNat = []) :
    LaneEffect d (Dev.lanes u b w used bad free f d) (ctx u b x c w) (if free then 64 else 0)
      (fun l => f (ctx u b x c w) (d.free l) l) := by
  unfold Dev.lanes
  rw [Dev.thread_issues h hw hb rfl]
  generalize ctx u b x c w = t
  have hfree : ∀ l, (d.issue t).free l = d.free l := Dev.free_issue t
  simp only [hfree]
  generalize hg : (fun l => f t (d.free l) l) = g
  have hmap : t.act.map (fun l => (l, f t (d.free l) l)) = t.act.map (fun l => (l, g l)) := by rw [← hg]
  have hsat : ∀ p : F32 → Bool, ((t.act.map (fun l => (l, g l))).filter fun r => p r.2).length = laneCount t g p := by
    intro p; unfold laneCount; rw [List.filter_map, List.length_map]; rfl
  have hfold : ∀ y : Bundle, (t.act.map (fun l => (l, g l))).foldl (fun x r => x.setV r.1 (fD t.n) r.2.bits) y
      = t.act.foldl (fun y l => y.setV l (fD t.n) (g l).bits) y := by
    intro y; rw [List.foldl_map]
  rw [hmap]
  simp only [hsat, hfold]
  refine ⟨_, Bundle.fold_rest (fun l => (g l).bits) t.act t.x (fD t.n), fun l r _ hr => ?_, ?_⟩
  · exact Bundle.vreg_fold (fun l => (g l).bits) t.act t.x (fD t.n) l r (fD_lt _) hr
  · refine ⟨?_, ?_, ?_, ?_, ?_, ?_, ?_, ?_, ?_⟩
    · simp [Dev.putBundle]
    · intro b hb
      cases free <;>
        simp [Dev.putBundle, Dev.issue, Dev.bundle?, Dev.setBundle, Dev.unit, Dev.setUnit, Tbl.find?_set, hb]
    · cases free <;> simp [Dev.putBundle, Dev.issue, Dev.setBundle, Dev.unit, Dev.setUnit]
    · intro v hv
      cases free <;> simp [Dev.putBundle, Dev.issue, Dev.setBundle, Dev.unit, Dev.setUnit, Tbl.getD_set, hv]
    · intro key
      cases free <;>
        simp only [Dev.putBundle, Dev.issue, Dev.cget_bumpBy, Dev.cget_bump, Dev.cget_setBundle, Dev.cget_setJob,
          Dev.cget_takeN, fpAdds, if_true, Bool.false_eq_true, if_false] <;> omega
    · cases free <;> simp [Dev.putBundle, Dev.issue, Dev.job, Dev.setJob]
    · intro k hk
      cases free <;> simp [Dev.putBundle, Dev.issue, Dev.job, Dev.setJob, Tbl.getD_set, hk]
    · cases free <;> simp [Dev.putBundle, Dev.issue]
    · cases free <;> apply Dev.eq_of <;> first | rfl | simp [Dev.putBundle, Dev.issue]

/-- The counts of a reduction or a scan beside its bundle's new value. -/
theorem Dev.countFp_frame (t : TCtx) (y : Bundle) (sat inv : Nat) :
    ThreadFrame d (((d.issue t).countFp t sat inv).putBundle t y) t y (fpAdds t.u sat inv) inv 0 := by
  refine ⟨?_, ?_, ?_, ?_, ?_, ?_, ?_, ?_, ?_⟩
  · simp [Dev.putBundle]
  · intro b hb
    simp [Dev.putBundle, Dev.countFp, Dev.issue, Dev.bundle?, Dev.setBundle, Dev.unit, Dev.setUnit, Tbl.find?_set, hb]
  · simp [Dev.putBundle, Dev.countFp, Dev.issue, Dev.setBundle, Dev.unit, Dev.setUnit]
  · intro v hv; simp [Dev.putBundle, Dev.countFp, Dev.issue, Dev.setBundle, Dev.unit, Dev.setUnit, Tbl.getD_set, hv]
  · intro key
    simp only [Dev.putBundle, Dev.countFp, Dev.issue, Dev.cget_bumpBy, Dev.cget_bump, Dev.cget_setBundle, Dev.cget_setJob,
      fpAdds]
    omega
  · simp [Dev.putBundle, Dev.countFp, Dev.issue, Dev.job, Dev.setJob]
  · intro k hk; simp [Dev.putBundle, Dev.countFp, Dev.issue, Dev.job, Dev.setJob, Tbl.getD_set, hk]
  · simp [Dev.putBundle, Dev.countFp, Dev.issue]
  · apply Dev.eq_of <;> first | rfl | simp [Dev.putBundle, Dev.countFp, Dev.issue]

/-- An instruction on the bundle alone. -/
theorem Dev.bundleOp_eq {used : Nat} {bad : Nat → List Nat} {f : TCtx → Bundle} (h : Issues d u b x c)
    (hw : Only w used) (hb : bad w.toNat = []) :
    Dev.bundleOp u b w used bad f d
      = (d.issue (ctx u b x c w)).putBundle (ctx u b x c w) (f (ctx u b x c w)) := by
  unfold Dev.bundleOp; rw [Dev.thread_issues h hw hb rfl]

/-- A predicate instruction that issues has its effect and no other. -/
theorem Dev.pred_effect {used : Nat} {bad : Nat → List Nat} {f : TCtx → Nat → Bool} (h : Issues d u b x c)
    (hw : Only w used) (hb : bad w.toNat = []) :
    PredEffect d (Dev.bundleOp u b w used bad (fun t => t.x.setPLanes (fPD t.n) t.act (f t)) d) (ctx u b x c w)
      (f (ctx u b x c w)) := by
  rw [Dev.bundleOp_eq h hw hb]
  generalize ctx u b x c w = t
  refine ⟨_, Bundle.setPLanes_rest t.x (fPD t.n) t.act (f t), fun r l hl => ?_, Dev.issue_frame t _⟩
  rw [Bundle.pred_setPLanes _ _ _ _ _ _ hl]

/-- A result to a U register, of an instruction that issues. -/
theorem Dev.uni_effect {used : Nat} {bad : Nat → List Nat} {f : TCtx → DWord} (h : Issues d u b x c)
    (hw : Only w used) (hb : bad w.toNat = []) :
    UniEffect d (Dev.bundleOp u b w used bad (fun t => t.x.setU (fD t.n) (f t)) d) (ctx u b x c w)
      (f (ctx u b x c w)) := by
  rw [Dev.bundleOp_eq h hw hb]
  generalize ctx u b x c w = t
  refine ⟨_, Bundle.setU_rest t.x (fD t.n) (f t), fun r => ?_, Dev.issue_frame t _⟩
  exact Bundle.ureg_setU _ _ _ _

/-- A bundle-level instruction with an active lane (R171). -/
theorem Dev.uniformOp_active {used : Nat} {bad : Nat → List Nat} {f : TCtx → Bundle} (h : Issues d u b x c)
    (hw : Only w used) (hb : bad w.toNat = []) (ha : x.active w.toNat ≠ []) :
    Dev.uniformOp u b w used bad f d
      = (d.issue (ctx u b x c w)).putBundle (ctx u b x c w) (f (ctx u b x c w)) := by
  unfold Dev.uniformOp; rw [Dev.bundleOp_eq h hw hb]
  have hc : (ctx u b x c w).act.isEmpty = false := by
    show (x.active w.toNat).isEmpty = false
    cases hx : x.active w.toNat with
    | nil => exact absurd hx ha
    | cons a t => rfl
  rw [if_neg (by rw [hc]; decide)]

/-- A bundle-level instruction with no active lane only moves the PC on (R171). -/
theorem Dev.uniformOp_idle {used : Nat} {bad : Nat → List Nat} {f : TCtx → Bundle} (h : Issues d u b x c)
    (hw : Only w used) (hb : bad w.toNat = []) (ha : x.active w.toNat = []) :
    Dev.uniformOp u b w used bad f d = (d.issue (ctx u b x c w)).putBundle (ctx u b x c w) (ctx u b x c w).x := by
  unfold Dev.uniformOp; rw [Dev.bundleOp_eq h hw hb]
  have hc : (ctx u b x c w).act.isEmpty = true := by show (x.active w.toNat).isEmpty = true; rw [ha]; rfl
  rw [if_pos hc]

/-! ### The shapes, from the meanings -/

theorem ThreadOp.of {mk : Nat → Nat → TWord → Instr} {used : Nat} {bad : Nat → List Nat} {P : Dev → Dev → TCtx → Prop}
    (g : Nat → Nat → TWord → Dev → Dev)
    (he : ∀ u b w s, exec (mk u b w) s = lift (Dev.fetched (opcOf (mk u b w)) u b w (g u b w)) s)
    (hp : ∀ (d : Dev) (u b : Nat) (w : TWord) (x : Bundle) (c : Cmd),
      Issues d u b x c → Only w used → bad w.toNat = [] → P d (g u b w d) (ctx u b x c w)) :
    ThreadOp mk used bad P :=
  fun s u b w x c h hf hw hb => ⟨g u b w (s.dev.onceFetched u x c), by
    rw [he]; simp only [lift, Dev.fetched_runs h hf, State.after], hp _ u b w x c h.onceFetched hw hb⟩

theorem ThreadWhen.of {mk : Nat → Nat → TWord → Instr} {used : Nat} {bad : Nat → List Nat} {ready : Dev → TCtx → Prop}
    {P : Dev → Dev → TCtx → Prop} {g : Nat → Nat → TWord → Dev → Dev}
    (rdy : Nat → Nat → TWord → Dev → Cmd → Bundle → Bool) (run : Nat → Nat → TWord → TCtx → Dev → Dev)
    (he : ∀ u b w s, exec (mk u b w) s = lift (Dev.fetched (opcOf (mk u b w)) u b w (g u b w)) s)
    (hg : ∀ u b w, g u b w = Dev.thread u b w used bad (rdy u b w) (run u b w))
    (hr : ∀ (d : Dev) (u b : Nat) (w : TWord) (x : Bundle) (c : Cmd), ready d (ctx u b x c w) → rdy u b w d c x = true)
    (hp : ∀ (d : Dev) (u b : Nat) (w : TWord) (x : Bundle) (c : Cmd), Issues d u b x c → Only w used → bad w.toNat = [] →
      ready d (ctx u b x c w) → P d (run u b w (ctx u b x c w) (d.issue (ctx u b x c w))) (ctx u b x c w)) :
    ThreadWhen mk used bad ready P := by
  intro s u b w x c h hf hw hb hd
  refine ⟨g u b w (s.dev.onceFetched u x c), by rw [he]; simp only [lift, Dev.fetched_runs h hf, State.after], ?_⟩
  rw [hg, Dev.thread_issues h.onceFetched hw hb (hr _ _ _ _ _ _ hd)]
  exact hp _ _ _ _ _ _ h.onceFetched hw hb hd

theorem LaneOp.of {mk : Nat → Nat → TWord → Instr} {used : Nat} {free : Bool} {f : TCtx → Nat → Nat → F32}
    (he : ∀ u b w s, exec (mk u b w) s
      = lift (Dev.fetched (opcOf (mk u b w)) u b w (Dev.lanes u b w used noBad free f)) s) :
    LaneOp mk used (if free then 64 else 0) f :=
  ThreadOp.of _ he fun _ _ _ _ _ _ h hw hb => Dev.lanes_effect h hw hb

theorem PredOp.of {mk : Nat → Nat → TWord → Instr} {used : Nat} {bad : Nat → List Nat} {f : TCtx → Nat → Bool}
    (he : ∀ u b w s, exec (mk u b w) s
      = lift (Dev.fetched (opcOf (mk u b w)) u b w
          (Dev.bundleOp u b w used bad fun t => t.x.setPLanes (fPD t.n) t.act (f t))) s) :
    PredOp mk used bad f :=
  ThreadOp.of _ he fun _ _ _ _ _ _ h hw hb => Dev.pred_effect h hw hb

theorem UniOp.of {mk : Nat → Nat → TWord → Instr} {used : Nat} {f : TCtx → DWord}
    (he : ∀ u b w s, exec (mk u b w) s = lift (Dev.fetched (opcOf (mk u b w)) u b w
      (Dev.uniformOp u b w used noBad fun t => t.x.setU (fD t.n) (f t))) s) :
    UniOp mk used f := by
  refine ThreadOp.of _ he fun d u b w x c h hw hb => ⟨fun ha => ?_, fun ha => ?_⟩
  · rw [Dev.uniformOp_active h hw hb ha]
    refine ⟨_, Bundle.setU_rest _ _ _, fun r => Bundle.ureg_setU _ _ _ _, Dev.issue_frame _ _⟩
  · rw [Dev.uniformOp_idle h hw hb ha]; exact Dev.issue_frame _ _

end Sys2Proof.Machine
end

