-- ==== Sys2Proof/Laws/Units.lean ====
section
/-! SUPPORT. What the shared ways of tensor and slip instructions can do. -/

namespace Sys2Proof.Machine

/-- A tensor instruction that may execute does what it does on the device on which it is started. -/
theorem Dev.tensor_executes {d : Dev} {u e op k : Nat} {c : Cmd} {q : TensorEntry} {run : Nat → Cmd → TensorEntry → Dev → Dev}
    {at_ : Nat} (h : Executes (d.advance at_) u e op k c q) :
    Dev.tensor op run at_ u e d = run k c q ((d.advance at_).startTensor u e k q) := by
  obtain ⟨h1, h2, h3, h4, h5⟩ := h
  unfold Dev.tensor
  simp only [h1]
  have hany : (tensorReads u q.word (Tbl.find? ((d.advance at_).engine u e).tiles (tAcc q.word))).any
      (fun r => (d.advance at_).bufHeld u k r.1 r.2) = false := by
    rw [List.any_eq_false]; intro r hr; simpa using List.all_eq_true.1 h5 r hr
  have hramp : (decide (op = 0) && decide (((d.advance at_).engine u e).ramp = .held)) = false := by
    by_cases ho : op = 0
    · simp [h4 ho]
    · simp [ho]
  rw [if_neg (by simp [h2, h3, hany, hramp])]
  rfl

/-- A slip that can issue waits for nothing. -/
theorem Dev.slipReady_wait {d : Dev} {u : Nat} {s : Slip} (h : d.slipReady u s = true) : s.wait = .none ∧ s.halted = false := by
  unfold Dev.slipReady at h
  simp only [Bool.and_eq_true, decide_eq_true_eq, Bool.not_eq_true'] at h
  exact ⟨h.1.1.2, h.1.1.1⟩

/-- A slip instruction that issues, well formed, does what it does on the device on which its context has had its turn and
its PC has moved on. -/
theorem Dev.slipOp_issues {d : Dev} {at_ u x : Nat} {w : SWord} {used : Nat} {bad : Dev → SCtx → List Nat}
    {run : SCtx → Dev → Dev} {s : Slip} {c : Cmd} (h : SlipIssues (d.advance at_) u x s c)
    (hw : setBits 58 (w.toNat - Nat.land w.toNat used) = [])
    (hb : bad (d.advance at_) { slipCtx u x s c w with s := s } = []) :
    Dev.slipOp at_ u x w used bad run d
      = run (slipCtx u x s c w) (((d.advance at_).tookSlipTurn u x).setCtx u x (slipCtx u x s c w).s) := by
  obtain ⟨h1, h2, h3, h4, h5⟩ := h
  have hb' : bad (d.advance at_) { u := u, x := x, s := s, cmd := c, n := w.toNat } = [] := hb
  unfold Dev.slipOp
  simp only [h1, h2]
  rw [if_neg (by rw [h3, h4]; decide), if_neg (by rw [h5]; decide), hw, hb']
  rfl

/-- A slip that issues, where scratch holds the word, acts. -/
theorem Dev.slipFetched_runs {d : Dev} {op at_ u x : Nat} {w : SWord} {run : Dev → Dev} {s : Slip} {c : Cmd}
    (h : SlipIssues (d.advance at_) u x s c) (hf : (d.advance at_).slipWord u s.pc = op * 2 ^ 58 + w.toNat) :
    Dev.slipFetched op at_ u x w run d = run d := by
  obtain ⟨h1, h2, h3, h4, h5⟩ := h
  unfold Dev.slipFetched
  simp only [h1, h2, h3, h4, h5, hf, Bool.not_true, Bool.or_self, Bool.false_eq_true, if_false, if_true]

theorem SlipOp.of {mk : Nat → Nat → Nat → SWord → Instr} {used : Nat} {bad : Dev → SCtx → List Nat}
    {P : Dev → Dev → SCtx → Prop} (run : Nat → Nat → SCtx → Dev → Dev)
    (he : ∀ at_ u x w s, exec (mk at_ u x w) s
      = lift (Dev.slipFetched (opcOf (mk at_ u x w)) at_ u x w (Dev.slipOp at_ u x w used bad (run u x))) s)
    (hp : ∀ (d : Dev) sl u x c w, sl.wait = .none →
      P (d.setCtx u x (slipCtx u x sl c w).s) (run u x (slipCtx u x sl c w) (d.setCtx u x (slipCtx u x sl c w).s)) (slipCtx u x sl c w)) :
    SlipOp mk used bad P := by
  intro s at_ u x w sl c h hf hw hb
  refine ⟨Dev.slipOp at_ u x w used bad (run u x) s.dev, by
    rw [he]; simp only [lift, Dev.slipFetched_runs h hf, State.after], ?_⟩
  rw [Dev.slipOp_issues h hw hb]
  exact hp _ _ _ _ _ _ (Dev.slipReady_wait h.2.2.1).1

end Sys2Proof.Machine
end

