-- ==== Sys2Proof/WellFormed.lean ====
section
/-! DEFINITION. Which commands are well formed: every operand that names a part of the device names one that it has. A
command that is not well formed still has its effect in the machine, most often none. -/

namespace Sys2Proof

/-- Job slot, ring of a job, host port, data port, key slot, die of 8, die with a voltage table. -/
def jobOk (j : Nat) : Bool := j < 16
def ringOk (q : Nat) : Bool := q < 64
def hostPortOk (p : Nat) : Bool := p < 2
def dataPortOk (p : Nat) : Bool := p < 8
def keySlotOk (k : Nat) : Bool := k < 64
def dieOk (d : Nat) : Bool := d < 8
def powerDieOk (k : Nat) : Bool := k < 9

/-- Units: groups 0 to 63, Stacks dies 64 to 71 (R468). -/
def unitOk (u : Nat) : Bool := u < 72

/-- Bundle slots of a unit: 16 of a group, 8 of a Stacks die (R65, R169). -/
def bundleOk (u b : Nat) : Bool := unitOk u && (if u < 64 then b < 16 else b < 8)

/-- Engines and slip contexts of a unit (R17, R235). -/
def engineOk (u e : Nat) : Bool := unitOk u && e < 8
def contextOk (u x : Nat) : Bool := unitOk u && x < 4

/-- The transport exists (R455). -/
def Transport.wf : Transport → Bool
  | .mbox p m => hostPortOk p && m < 8
  | .mgmt c => c < 2 ^ 19
  | .bus => true
  | .service => true

/-- The envelope fits the message header (R444). -/
def Req.wf (r : Req) : Bool :=
  r.transport.wf && r.sess < 2 ^ 32 && r.typ < 256 && r.rsv < 2 ^ 17 && r.reqId < 2 ^ 32

/-- A BAR register is written whole words at a time, aligned (R433). -/
def barWriteOk (off : Nat) (data : List Byte) : Bool := (data.length = 4 || data.length = 8) && off % data.length = 0

/-- A packet comes from a data port, in a frame that the MAC accepts (R313, R316). -/
def Pkt.wf (p : Pkt) : Bool := dataPortOk p.port && 64 ≤ p.data.length && p.data.length ≤ 9216

/-- A received frame comes from a data port (R313). -/
def Frame.wf (f : Frame) : Bool := dataPortOk f.port

/-- A sample gives the 16 rails and a forecast for every duty cap (R384, R386). -/
def PowerSample.wf (p : PowerSample) : Bool :=
  p.rails.length = 16 && p.forecast.length = 7 && p.railForecast.all fun l => l.length = 7

/-- What a completed access belongs to exists. -/
def AccessId.wf : AccessId → Bool
  | .bundleLoad u b => bundleOk u b
  | .bundleStore u b => bundleOk u b
  | .slip u x _ _ => contextOk u x
  | .copy _ => true

/-- The command's operands name parts that the device has. -/
def Instr.wf : Instr → Bool
  | .sync _ port _ _ _ _ => dataPortOk port
  | .announce _ port _ => dataPortOk port
  | .syncTimeout => true
  | .holdoverLimit => true
  | .tbSet r _ => r.wf
  | .ptpSlaveOnly r _ => r.wf
  | .ttTable r _ => r.wf
  | .ttStage r _ => r.wf
  | .ttEpoch r _ => r.wf
  | .ttFirstStep r _ => r.wf
  | .ttAnchorJob r _ => r.wf
  | .ttLastStep r _ => r.wf
  | .ttStop r => r.wf
  | .ttResume r => r.wf
  | .ttUnload r => r.wf
  | .ttRunStart => true
  | .ttRejoin => true
  | .slotStart => true
  | .firmEnd => true
  | .slotPlannedEnd => true
  | .phaseChange _ => true
  | .phaseLead _ => true
  | .jobStart r j => jobOk j && r.wf
  | .jobStop r j => jobOk j && r.wf
  | .jobTeardown r j => jobOk j && r.wf
  | .teardownComplete _ j => jobOk j
  | .secJobCreate r slot job => r.wf && (keySlotOk slot && (jobOk job || job = 0xFF))
  | .ringConfig r j q _ => jobOk j && ringOk q && r.wf
  | .ringRestart r j q => jobOk j && ringOk q && r.wf
  | .ringResume r j q => jobOk j && ringOk q && r.wf
  | .ringReset r j q => jobOk j && ringOk q && r.wf
  | .ringDoorbell _ port j q _ => jobOk j && ringOk q && hostPortOk port
  | .ringPush _ port j q _ _ _ => jobOk j && ringOk q && hostPortOk port
  | .descriptorFetch _ j q => jobOk j && ringOk q
  | .phaseRefetch j q => jobOk j && ringOk q
  | .waitTimeout _ => true
  | .commandStartOnUnit _ _ u => unitOk u
  | .parkedResume _ _ u => unitOk u
  | .commandRetire _ _ => true
  | .launch _ _ => true
  | .waitPosition _ _ => true
  | .stamp _ _ => true
  | .join _ _ => true
  | .markWrite _ _ => true
  | .jobDrain _ _ => true
  | .interrupt _ _ => true
  | .traceMarker _ _ => true
  | .sampleNow _ _ => true
  | .copy _ _ => true
  | .slip _ _ => true
  | .send _ _ => true
  | .contribute _ _ => true
  | .reduce _ _ => true
  | .reduceClose _ => true
  | .sweep _ _ => true
  | .gather _ _ => true
  | .exportRec _ _ => true
  | .importRec _ _ _ => true
  | .fadd u b _ => bundleOk u b
  | .fmul u b _ => bundleOk u b
  | .ffma u b _ => bundleOk u b
  | .fmin u b _ => bundleOk u b
  | .fmax u b _ => bundleOk u b
  | .sel u b _ => bundleOk u b
  | .frcp u b _ => bundleOk u b
  | .frsq u b _ => bundleOk u b
  | .fsqrt u b _ => bundleOk u b
  | .fexp2 u b _ => bundleOk u b
  | .flog2 u b _ => bundleOk u b
  | .ftanh u b _ => bundleOk u b
  | .faddi u b _ => bundleOk u b
  | .fmuli u b _ => bundleOk u b
  | .iadd u b _ => bundleOk u b
  | .isub u b _ => bundleOk u b
  | .imul u b _ => bundleOk u b
  | .imad u b _ => bundleOk u b
  | .imin u b _ => bundleOk u b
  | .imax u b _ => bundleOk u b
  | .umin u b _ => bundleOk u b
  | .umax u b _ => bundleOk u b
  | .and u b _ => bundleOk u b
  | .or u b _ => bundleOk u b
  | .xor u b _ => bundleOk u b
  | .shl u b _ => bundleOk u b
  | .shr u b _ => bundleOk u b
  | .sar u b _ => bundleOk u b
  | .popc u b _ => bundleOk u b
  | .clz u b _ => bundleOk u b
  | .iaddi u b _ => bundleOk u b
  | .andi u b _ => bundleOk u b
  | .ori u b _ => bundleOk u b
  | .shli u b _ => bundleOk u b
  | .shri u b _ => bundleOk u b
  | .movi u b _ => bundleOk u b
  | .mov u b _ => bundleOk u b
  | .movu u b _ => bundleOk u b
  | .movuh u b _ => bundleOk u b
  | .fsetp u b _ => bundleOk u b
  | .isetp u b _ => bundleOk u b
  | .usetp u b _ => bundleOk u b
  | .plop u b _ => bundleOk u b
  | .cvt u b _ => bundleOk u b
  | .offs u b _ => bundleOk u b
  | .shfl u b _ => bundleOk u b
  | .shflx u b _ => bundleOk u b
  | .red u b _ => bundleOk u b
  | .scan u b _ => bundleOk u b
  | .vote u b _ => bundleOk u b
  | .rdlane u b _ => bundleOk u b
  | .uadd u b _ => bundleOk u b
  | .usub u b _ => bundleOk u b
  | .umul u b _ => bundleOk u b
  | .uand u b _ => bundleOk u b
  | .uor u b _ => bundleOk u b
  | .ushl u b _ => bundleOk u b
  | .ushr u b _ => bundleOk u b
  | .umovi u b _ => bundleOk u b
  | .umovhi u b _ => bundleOk u b
  | .uaddi u b _ => bundleOk u b
  | .ucmp u b _ => bundleOk u b
  | .ld u b _ => bundleOk u b
  | .st u b _ => bundleOk u b
  | .atom u b _ => bundleOk u b
  | .pref u b _ => bundleOk u b
  | .fence u b _ => bundleOk u b
  | .fenceComplete u b => bundleOk u b
  | .bar u b _ => bundleOk u b
  | .barrierComplete u _ n => unitOk u && n < 4
  | .nap u b _ => bundleOk u b
  | .napEnd u b => bundleOk u b
  | .tens u b _ => bundleOk u b
  | .twait u b _ => bundleOk u b
  | .strmRun u b _ => bundleOk u b
  | .strmFree u b _ => bundleOk u b
  | .swait u b _ => bundleOk u b
  | .statmx u b _ => bundleOk u b
  | .seal u b _ => bundleOk u b
  | .sreg u b _ => bundleOk u b
  | .bra u b _ => bundleOk u b
  | .call u b _ => bundleOk u b
  | .ret u b _ => bundleOk u b
  | .exit u b _ => bundleOk u b
  | .mma _ u e => engineOk u e
  | .load _ u e => engineOk u e
  | .store _ u e => engineOk u e
  | .release _ u e => engineOk u e
  | .debugRead _ u e => engineOk u e
  | .tensorComplete _ u e => engineOk u e
  | .slipContextStart u => unitOk u
  | .fetch _ u x _ => contextOk u x
  | .put _ u x _ => contextOk u x
  | .mova _ u x _ => contextOk u x
  | .addaa _ u x _ => contextOk u x
  | .setc _ u x _ => contextOk u x
  | .addc _ u x _ => contextOk u x
  | .loop _ u x _ => contextOk u x
  | .open_ _ u x _ => contextOk u x
  | .close _ u x _ => contextOk u x
  | .waitmk _ u x _ => contextOk u x
  | .waitmkTimeout u x => contextOk u x
  | .sig _ u x _ => contextOk u x
  | .fmt _ u x _ => contextOk u x
  | .end_ _ u x _ => contextOk u x
  | .roll j => jobOk j
  | .numStatRoll r j _ => jobOk j && r.wf
  | .nmuTableReload r j _ => jobOk j && r.wf
  | .nmuPlaceThresh r j _ => jobOk j && r.wf
  | .expSeal r j _ => jobOk j && r.wf
  | .voteClose j _ => jobOk j
  | .ballot p => p.wf
  | .voteResult p => p.wf
  | .voteNoResult j _ => jobOk j
  | .pace p => p.wf
  | .contrib p => p.wf
  | .frameReceive f => f.wf
  | .arpRequest _ port _ => (match port with | some p => dataPortOk p | none => true)
  | .txUnderrun _ port _ => dataPortOk port
  | .portLinkChange _ port _ => dataPortOk port
  | .write p => p.wf
  | .sealWrite p => p.wf
  | .sealLand _ _ => true
  | .taintHoldExpiry _ => true
  | .readReq p => p.wf
  | .versionHoldRetry _ => true
  | .readResp p => p.wf
  | .readTimeout _ => true
  | .ack p => p.wf
  | .nack p => p.wf
  | .mgmt p => p.wf
  | .ttsync p => p.wf
  | .ttsyncSend => true
  | .packetTransmit _ _ => true
  | .ackDelay _ => true
  | .rtoExpiry _ _ => true
  | .contextFetchComplete _ _ => true
  | .holdTimeout _ => true
  | .connectionDrainEnd _ _ => true
  | .netConnOpen r j _ => jobOk j && r.wf
  | .netConnClose r j _ => jobOk j && r.wf
  | .netConnQuery r j _ => jobOk j && r.wf
  | .netRegionReg r j _ => jobOk j && r.wf
  | .netRegionRevoke r j _ => jobOk j && r.wf
  | .netRegionQuery r j _ => jobOk j && r.wf
  | .revokeSettle _ => true
  | .revokeComplete _ _ => true
  | .netPortMode r _ => r.wf
  | .hostfrRxTail _ q _ => dataPortOk q
  | .hostfrTxTail _ q _ => dataPortOk q
  | .memAlloc r j _ => jobOk j && r.wf
  | .memFree r j _ => jobOk j && r.wf
  | .memBringIn r j _ => jobOk j && r.wf
  | .memRetire r _ => r.wf
  | .memScrubFull r _ => r.wf
  | .memRetrain r _ => r.wf
  | .memIntegrityEn r _ => r.wf
  | .quotaWrite r j kind _ => jobOk j && r.wf && kind < 7
  | .patrolScrub _ d _ => dieOk d
  | .longOperationEnd _ => true
  | .capSample p => p.wf
  | .capRelax p => p.wf
  | .calibration _ _ => true
  | .entryChange die => powerDieOk die
  | .thermalSample _ _ => true
  | .inletSample _ _ => true
  | .droop _ det _ => det < 12
  | .droopEnd _ det => det < 12
  | .cuffWave => true
  | .cuffRampStep u e => engineOk u e
  | .cuffDisengage => true
  | .secQuoteReq r _ => r.wf
  | .secSessionOpen r _ => r.wf
  | .secKeyDeliver r _ => r.wf
  | .secKeyProve r _ _ => r.wf
  | .secSlotErase r _ => r.wf
  | .secOwnerTransfer r _ _ => r.wf
  | .secFwInstall r _ => r.wf
  | .secFwActivate r _ => r.wf
  | .secFwCommit r _ => r.wf
  | .secIdeKeys r port _ => hostPortOk port && r.wf
  | .secIdeFail _ port stream => hostPortOk port && stream < 2
  | .secEntropyFail _ => true
  | .catOpen r => r.wf
  | .catClose r => r.wf
  | .catNop r => r.wf
  | .catRead r index field => r.wf && index < 2 ^ 16 && field < 256
  | .catWrite r index field _ => r.wf && index < 2 ^ 16 && field < 256
  | .rwIdleBarWrite _ port j q => jobOk j && ringOk q && hostPortOk port
  | .sessLevel r _ => r.wf
  | .sessChallenge r => r.wf
  | .sessOwnerProof r _ _ => r.wf
  | .sessIdleTimeout r _ => r.wf
  | .sessionIdleExpiry _ => true
  | .mboxCtrl _ port m _ _ => hostPortOk port && m < 8
  | .apertureAccess _ port j _ _ => jobOk j && hostPortOk port
  | .mgmtDatagram _ => true
  | .mgmtCollision _ _ => true
  | .backoffExpiry => true
  | .sample j => jobOk j
  | .alertCause r _ => r.wf
  | .powerOn _ => true
  | .inputLoss _ => true
  | .modRstNAssert _ => true
  | .modRstNRelease _ => true
  | .devReset r _ => r.wf
  | .railInRegulation _ => true
  | .gauntletStage1 _ _ _ => true
  | .gauntletStage2 _ _ _ => true
  | .dieReady _ => true
  | .dieReadyTimeout _ => true
  | .recoveryReset => true
  | .perstAssert _ port => hostPortOk port
  | .perstRelease _ port => hostPortOk port
  | .hostLinkDown _ port => hostPortOk port
  | .hostReadTimeout port => hostPortOk port
  | .commandRelease _ => true
  | .memoryAccessComplete _ a => a.wf
  | .poweredHours _ => true
  | .entropyRecovery _ => true
  | .tripCooldown _ => true
  | .catalogueReset => true
  | .syncInterval _ => true
  | .delayRequestResponse _ _ => true
  | .hostLinkUp _ port _ _ => hostPortOk port
  | .configurationRequest _ port => hostPortOk port
  | .hostErrCause _ port off data => hostPortOk port && barWriteOk off data
  | .mboxStatus _ port m off data => hostPortOk port && m < 8 && barWriteOk off data

end Sys2Proof
end

