-- ==== Sys2Proof/Tests/Slice0.lean ====
section
/-! SUPPORT. Tests of the model on small states: the well-formedness check, single steps, and for each statement
with hypotheses a state and operands that meet them. -/

namespace Sys2Proof.Tests

open Sys2Proof.Machine

set_option Elab.async false

/-! ### Well-formedness: an ill-formed command for each check, refused by it -/

theorem test_wf_job : Instr.wf (.roll 15) = true ∧ Instr.wf (.roll 16) = false := by decide
theorem test_wf_ring : Instr.wf (.descriptorFetch 0 0 63) = true ∧ Instr.wf (.descriptorFetch 0 0 64) = false := by decide
theorem test_wf_host_port : Instr.wf (.hostReadTimeout 1) = true ∧ Instr.wf (.hostReadTimeout 2) = false := by decide
theorem test_wf_data_port :
    Instr.wf (.portLinkChange 0 7 0) = true ∧ Instr.wf (.portLinkChange 0 8 0) = false := by decide
theorem test_wf_arp_port :
    Instr.wf (.arpRequest 0 none 0) = true ∧ Instr.wf (.arpRequest 0 (some 8) 0) = false := by decide
theorem test_wf_die : Instr.wf (.patrolScrub 0 7 []) = true ∧ Instr.wf (.patrolScrub 0 8 []) = false := by decide
theorem test_wf_power_die : Instr.wf (.entryChange 8) = true ∧ Instr.wf (.entryChange 9) = false := by decide
theorem test_wf_detector : Instr.wf (.droopEnd 0 11) = true ∧ Instr.wf (.droopEnd 0 12) = false := by decide
theorem test_wf_unit : Instr.wf (.slipContextStart 71) = true ∧ Instr.wf (.slipContextStart 72) = false := by decide
theorem test_wf_bundle :
    Instr.wf (.napEnd 0 15) = true ∧ Instr.wf (.napEnd 0 16) = false ∧ Instr.wf (.napEnd 64 7) = true
      ∧ Instr.wf (.napEnd 64 8) = false := by decide
theorem test_wf_engine : Instr.wf (.mma 0 0 7) = true ∧ Instr.wf (.mma 0 0 8) = false := by decide
theorem test_wf_context : Instr.wf (.waitmkTimeout 0 3) = true ∧ Instr.wf (.waitmkTimeout 0 4) = false := by decide
theorem test_wf_barrier : Instr.wf (.barrierComplete 0 0 3) = true ∧ Instr.wf (.barrierComplete 0 0 4) = false := by decide
theorem test_wf_mailbox :
    Instr.wf (.mboxStatus 0 0 7 0 [0, 0, 0, 0]) = true ∧ Instr.wf (.mboxStatus 0 0 8 0 [0, 0, 0, 0]) = false := by decide
theorem test_wf_stream : Instr.wf (.secIdeFail 0 0 1) = true ∧ Instr.wf (.secIdeFail 0 0 2) = false := by decide
theorem test_wf_access :
    Instr.wf (.memoryAccessComplete 0 (.slip 0 3 0 0)) = true ∧ Instr.wf (.memoryAccessComplete 0 (.slip 0 4 0 0)) = false := by
  decide

/-- A request on the service port. -/
def req : Req := { at_ := 0, sess := 0, transport := .service, typ := 1, rsv := 0, prot := none, reqId := 7 }

theorem test_wf_request :
    Instr.wf (.catNop req) = true ∧ Instr.wf (.catNop { req with rsv := 2 ^ 17 }) = false
      ∧ Instr.wf (.catNop { req with typ := 256 }) = false ∧ Instr.wf (.catNop { req with sess := 2 ^ 32 }) = false
      ∧ Instr.wf (.catNop { req with reqId := 2 ^ 32 }) = false
      ∧ Instr.wf (.catNop { req with transport := .mbox 0 8 }) = false
      ∧ Instr.wf (.catNop { req with transport := .mgmt (2 ^ 19) }) = false := by decide
theorem test_wf_entry :
    Instr.wf (.catRead req 0xFFFF 0xFF) = true ∧ Instr.wf (.catRead req 0x10000 0) = false
      ∧ Instr.wf (.catRead req 0 256) = false := by decide
theorem test_wf_key_slot :
    Instr.wf (.secJobCreate req 63 0xFF) = true ∧ Instr.wf (.secJobCreate req 64 0) = false
      ∧ Instr.wf (.secJobCreate req 0 16) = false := by decide
theorem test_wf_quota : Instr.wf (.quotaWrite req 0 6 []) = true ∧ Instr.wf (.quotaWrite req 0 7 []) = false := by decide

/-- A packet whose bytes are all zero: its version is 0. -/
def pkt : Pkt := { port := 0, at_ := 0, data := List.replicate 128 0, full := false }

theorem test_wf_packet :
    Instr.wf (.write pkt) = true ∧ Instr.wf (.write { pkt with port := 8 }) = false
      ∧ Instr.wf (.write { pkt with data := [] }) = false := by decide +kernel

/-- The bytes of a frame of `n` bytes without its FCS, all zero but its EtherType: no PTP, Maelgo, ARP or pause frame. -/
def plainBytes (n : Nat) : List Byte := List.replicate 12 0 ++ [0x12, 0x34] ++ List.replicate (n - 14) 0

/-- A frame of `n` bytes before its FCS. -/
def frame (n : Nat) : Frame :=
  { port := 0, at_ := 0, data := plainBytes n ++ fcsOf (plainBytes n), full := false, fecCorrected := 0, fecUncorrected := 0,
    fecSymbols := 0, symbolErr := false }

theorem test_wf_frame :
    Instr.wf (.frameReceive (frame 60)) = true ∧ Instr.wf (.frameReceive { frame 60 with port := 8 }) = false := by decide +kernel

/-- The CRC-32 of the nine ASCII digits 1 to 9 is 0xCBF43926, the check value of IEEE 802.3's CRC. -/
theorem test_crc : crc32 [0x31, 0x32, 0x33, 0x34, 0x35, 0x36, 0x37, 0x38, 0x39] = 0xCBF43926 := by decide +kernel

/-- A sample of the Cap. -/
def sample : PowerSample :=
  { at_ := 0, power := 0, rails := List.replicate 16 0, forecast := List.replicate 7 0, railForecast := [] }

theorem test_wf_sample :
    Instr.wf (.capSample sample) = true ∧ Instr.wf (.capSample { sample with rails := [] }) = false
      ∧ Instr.wf (.capSample { sample with forecast := [] }) = false
      ∧ Instr.wf (.capSample { sample with railForecast := [[]] }) = false := by decide

/-- No row of the table gives bits. -/
theorem test_decode_none : decodeTableWord 0 0 = none := rfl

/-! ### A device with a running job, and a command whose bundles run -/

/-- 64 KiB of tier 2 at job address 0. -/
def page : Page :=
  { va := 0, size := 65536, pa := t2Base, writable := true, enc := true, migrate := false, alloc := 0 }

/-- 64 KiB of scratch of group 0. -/
def grant : T1Grant :=
  { groups := 1, dies := 0, engines := 8, bundles := 16, dieBundles := 0, scratchOff := 0, scratchLen := 0x10000,
    sramOff := 0, sramLen := 0 }

def job : Job :=
  { Job.empty with st := .running, tenant := 5, keySlot := 1, t1 := some grant, t1Va := 0x200_0000_0000, pages := [page] }

def ring : Ring := { Ring.empty with st := .active, record := 4 * 2 ^ 52 + 2 * 2 ^ 57 + 0x4000 * 2 ^ 64 }

/-- A command of job 3 and ring 1, in this state, with this descriptor. -/
def cmd (st : CmdState) (desc : Nat) : Cmd := { newCmd 3 1 0 desc with st := st, exec := true }

/-- A LAUNCH of two bundles on group 0. -/
def launchDesc : Nat := 1 * 2 ^ 432 + 2 * 2 ^ 496 + 1 * 2 ^ 508

def running : Cmd := { cmd .running launchDesc with unitsOn := 1 }

def bundle : Bundle :=
  { cmd := 0, index := 0, pc := 0x40, v := [(0, 0x3F800000), (64, 2)], u := [(0, 5)], p := [(1, 1)], live := BitVec.allOnes 64,
    ret := [], wait := .none, loads := 0, tens := [], napEnd := 0 }

/-- The job runs, its ring is ACTIVE, and command 0 runs on group 0. -/
def base : Dev := { Dev.reset with jobs := [(3, job)], rings := [(193, ring)], cmds := [(0, running)], nextCmd := 1 }

/-- Bundle slot 0 of group 0 holds `x` there. -/
def devOf (x : Bundle) : Dev := { base with units := [(0, { ExecUnit.empty with bundles := [(0, x)] })] }

def stateOf (d : Dev) : State := { pending := [], dev := d }

theorem base_fetches : (base.xlate 3 0x40 false).isSome = true ∧ base.jbad 3 0x40 8 = [] := by decide +kernel

/-- `d` with the thread word `n` at 0x40 of the job, where its bundles stand. -/
def withWord (d : Dev) (n : Nat) : Dev := { d with mem := memWrite d.mem (t2Base + 0x40) (leBytes 8 n) }

theorem leNat_leBytes (k n : Nat) (h : n < 256 ^ k) : leNat (leBytes k n) = n := by
  induction k generalizing n with
  | zero => simp at h; simp [leBytes, leNat, h]
  | succ k ih =>
    simp only [leBytes, leNat, BitVec.toNat_ofNat]
    rw [ih _ (by rw [Nat.pow_succ] at h; omega)]; omega

theorem leBytes_length (k n : Nat) : (leBytes k n).length = k := by
  induction k generalizing n with
  | zero => rfl
  | succ k ih => simp [leBytes, ih]

theorem base_reads (m : List Host.Cell) (i : Nat) (h : i < 8) :
    ({ base with mem := m } : Dev).jrdByte 3 (0x40 + i) = memByte m (t2Base + 0x40 + i) := by
  rcases i with _|_|_|_|_|_|_|_|i
  all_goals first | omega | rfl

theorem opcOf_lt (i : Instr) : opcOf i < 256 := by
  unfold opcOf; split <;> decide

/-- `d` with the word of thread instruction `i`, whose low bits are `w`, where its bundle fetches. -/
def holding (d : Dev) (i : Instr) (w : TWord) : Dev := withWord d (opcOf i * 2 ^ 56 + w.toNat)

theorem word_fetched (us : Tbl ExecUnit) (n : Nat) (hn : n < 256 ^ 8) (hc : (Tbl.getD us 0 ExecUnit.empty).code = []) :
    (withWord { base with units := us } n).fetchWord 0 3 0x40 = n := by
  have hs : (withWord { base with units := us } n).codeStale 0 3 0x40 = false := by
    unfold Dev.codeStale Dev.unit withWord; simp only [hc]; rfl
  have hr : ∀ i, i < 8 → (withWord { base with units := us } n).jrdByte 3 (0x40 + i) = (leBytes 8 n)[i]?.getD 0 := by
    intro i hi
    have h1 : (withWord { base with units := us } n).jrdByte 3 (0x40 + i)
        = ({ base with mem := memWrite base.mem (t2Base + 0x40) (leBytes 8 n) } : Dev).jrdByte 3 (0x40 + i) := rfl
    rw [h1, base_reads _ _ hi, memByte_write, leBytes_length, if_pos (by omega)]
    rw [show t2Base + 0x40 + i - (t2Base + 0x40) = i from Nat.add_sub_cancel_left ..]
  unfold Dev.fetchWord Dev.granule
  rw [hs]
  simp only [Bool.false_and, Bool.false_eq_true, if_false]
  have hg : (((withWord { base with units := us } n).jrd 3 (0x40 / 64 * 64) 64).drop (0x40 % 64)).take 8
      = (List.range 8).map fun i => (withWord { base with units := us } n).jrdByte 3 (0x40 + i) := rfl
  rw [hg, List.map_congr_left (g := fun i => (leBytes 8 n)[i]?.getD 0) (fun i hi => hr i (List.mem_range.mp hi))]
  have : (List.range 8).map (fun i => (leBytes 8 n)[i]?.getD 0) = leBytes 8 n := rfl
  rw [this, leNat_leBytes 8 n hn]

theorem withWord_bundle (d : Dev) (n u b : Nat) : (withWord d n).bundle? u b = d.bundle? u b := rfl
theorem withWord_cmd (d : Dev) (n k : Nat) : (withWord d n).cmd? k = d.cmd? k := rfl
theorem withWord_xlate (d : Dev) (n j va : Nat) (wr : Bool) : (withWord d n).xlate j va wr = d.xlate j va wr := rfl
theorem withWord_jbad (d : Dev) (n j va k : Nat) : (withWord d n).jbad j va k = d.jbad j va k := rfl

/-- In `d` bundle `x` issues, and its word is the instruction `i` with low bits `w`. -/
def Ready (d : Dev) (x : Bundle) (i : Instr) (w : TWord) : Prop :=
  Issues (holding d i w) 0 0 x running ∧ Fetches (holding d i w) 0 x running (opcOf i) w

theorem ready {us : Tbl ExecUnit} {x : Bundle} (i : Instr) (w : TWord)
    (hb : ({ base with units := us } : Dev).bundle? 0 0 = some x) (hd : (Tbl.getD us 0 ExecUnit.empty).code = [])
    (hc : x.cmd = 0) (hw : x.wait = .none) (hp : x.pc = 0x40) : Ready { base with units := us } x i w := by
  unfold Ready holding Issues Fetches
  rw [withWord_bundle, withWord_cmd, withWord_xlate, withWord_jbad, hc, hp]
  exact ⟨⟨hb, rfl, hw, .inl rfl, base_fetches.1, base_fetches.2⟩,
    word_fetched us _ (by have := opcOf_lt i; have := w.isLt; omega) hd⟩

theorem readyOf (x : Bundle) (i : Instr) (w : TWord) (hc : x.cmd = 0 := by rfl) (hw : x.wait = .none := by rfl)
    (hp : x.pc = 0x40 := by rfl) : Ready (devOf x) x i w := ready i w rfl rfl hc hw hp

/-- The device on which bundle `x` has fetched it. -/
def once (d : Dev) (x : Bundle) (i : Instr) (w : TWord) : Dev := (holding d i w).onceFetched 0 x running


/-- The low bits of a word with these fields (position, value) set. -/
def tw (l : List (Nat × Nat)) : TWord := BitVec.ofNat 56 (l.map fun f => f.2 * 2 ^ f.1).sum

/-- Guard bits that no lane meets: not P0. -/
def never : Nat × Nat := (55, 1)

def at0 (x : Bundle) (w : TWord) : TCtx := ctx 0 0 x running w

theorem test_active : (at0 bundle (tw [])).act ≠ [] ∧ (at0 bundle (tw [never])).act = [] := by decide +kernel

/-- A word with every field of a mask set meets `Only`, and one more bit breaks it. -/
theorem test_only : Only (BitVec.ofNat 56 mBin) mBin ∧ ¬ Only (BitVec.ofNat 56 (mBin + 1)) mBin := by
  unfold Only; decide +kernel

theorem of_all {α : Type} {p : α → Prop} [DecidablePred p] (l : List α) (h : (l.all fun a => decide (p a)) = true) :
    ∀ a ∈ l, p a := fun a ha => by simpa using List.all_eq_true.mp h a ha

/-- Words that set only bits of `m`. -/
theorem words_only (ws : List TWord) (m : Nat)
    (h : (ws.all fun w => decide (setBits 52 (w.toNat - Nat.land w.toNat m) = [])) = true) : ∀ w ∈ ws, Only w m :=
  fun w hw => by simpa [Only] using List.all_eq_true.mp h w hw

theorem only_all (ms : List Nat)
    (h : (ms.all fun m => setBits 52 ((BitVec.ofNat 56 m).toNat - Nat.land (BitVec.ofNat 56 m).toNat m) = []) = true) :
    ∀ m ∈ ms, Only (BitVec.ofNat 56 m) m := fun m hm => by
  have := List.all_eq_true.mp h m hm; simpa [Only] using this

/-- Where `bundle` stands, the word of `mk` whose low bits are all of `m` is well formed, issues and is fetched. -/
def Meets (mk : Nat → Nat → TWord → Instr) (m : Nat) : Prop :=
  Only (BitVec.ofNat 56 m) m ∧ Ready (devOf bundle) bundle (mk 0 0 (BitVec.ofNat 56 m)) (BitVec.ofNat 56 m)

def MeetAll (m : Nat) (l : List (Nat → Nat → TWord → Instr)) : Prop := ∀ mk ∈ l, Meets mk m

theorem meetAll (m : Nat) (l : List (Nat → Nat → TWord → Instr))
    (h : setBits 52 ((BitVec.ofNat 56 m : TWord).toNat - Nat.land (BitVec.ofNat 56 m : TWord).toNat m) = []) : MeetAll m l :=
  fun _ _ => ⟨h, readyOf _ _ _⟩

theorem witness_FloatingPointByLane :
    MeetAll (mD + mA + mB + mBU + mNA + mAA) [.fadd, .fmul] ∧ MeetAll (mD + mA + mB + mBU + mC + mNA + mNC + mAA) [.ffma]
      ∧ MeetAll (mD + mA + mB + mBU) [.fmin, .fmax] ∧ MeetAll (mD + mA + mB + mBU + mPD) [.sel]
      ∧ MeetAll (mD + mA + mImm) [.faddi, .fmuli] :=
  ⟨meetAll _ _ (by decide +kernel), meetAll _ _ (by decide +kernel), meetAll _ _ (by decide +kernel),
    meetAll _ _ (by decide +kernel), meetAll _ _ (by decide +kernel)⟩

theorem witness_SpecialFunctionsByLane :
    MeetAll (mD + mA + mNA + mAA) [.frcp, .frsq, .fsqrt, .fexp2, .flog2, .ftanh] := meetAll _ _ (by decide +kernel)

theorem witness_IntegerOperationsWrapWithoutCounting :
    MeetAll (mD + mA + mB + mBU) [.iadd, .isub, .imul, .shl, .shr, .sar] ∧ MeetAll (mD + mA + mB + mBU + mC) [.imad]
      ∧ MeetAll (mD + mA + mImm) [.iaddi, .shli, .shri] ∧ MeetAll (mD + mA + mB) [.uadd, .usub, .umul, .ushl, .ushr]
      ∧ (at0 bundle (tw [])).act ≠ [] ∧ (at0 bundle (tw [never])).act = [] :=
  ⟨meetAll _ _ (by decide +kernel), meetAll _ _ (by decide +kernel), meetAll _ _ (by decide +kernel),
    meetAll _ _ (by decide +kernel), test_active⟩

theorem witness_LogicMinimaMovesAndCounts :
    MeetAll (mD + mA + mB + mBU) [.imin, .imax, .umin, .umax, .and, .or, .xor]
      ∧ MeetAll (mD + mA) [.popc, .clz, .mov, .movu, .movuh] ∧ MeetAll (mD + mA + mImm) [.andi, .ori, .uaddi]
      ∧ MeetAll (mD + mImm) [.movi, .umovi, .umovhi] ∧ MeetAll (mD + mA + mB) [.uand, .uor]
      ∧ (∀ w, Ready (devOf bundle) bundle (.uand 0 0 w) w) ∧ (at0 bundle (tw [])).act ≠ [] ∧ (at0 bundle (tw [never])).act = [] :=
  ⟨meetAll _ _ (by decide +kernel), meetAll _ _ (by decide +kernel), meetAll _ _ (by decide +kernel),
    meetAll _ _ (by decide +kernel), meetAll _ _ (by decide +kernel), fun _ => readyOf _ _ _, test_active⟩

theorem witness_PredicateInstructionsByLane :
    (∀ w, Ready (devOf bundle) bundle (.fsetp 0 0 w) w ∧ Ready (devOf bundle) bundle (.isetp 0 0 w) w ∧ Ready (devOf bundle) bundle (.usetp 0 0 w) w ∧ Ready (devOf bundle) bundle (.plop 0 0 w) w ∧ Ready (devOf bundle) bundle (.ucmp 0 0 w) w) ∧ Only (tw [(18, 5), (21, 7)]) (mA + mB + mBU + mPD + mCond)
      ∧ Only (tw [(18, 4), (21, 7)]) (mk 40 3 + mk 34 3 + mPD + mCond) ∧ badCmp (tw [(18, 5), (21, 7)]).toNat = []
      ∧ badCmp (tw [(18, 6), (21, 7)]).toNat ≠ []
      ∧ (fun n => (if 5 ≤ fCond n then [18] else []) ++ (if fCond n = 4 then setBitsAt n 34 3 else []))
          (tw [(18, 4), (21, 7)]).toNat = [] :=
  ⟨fun w => ⟨readyOf _ _ w, readyOf _ _ w, readyOf _ _ w, readyOf _ _ w, readyOf _ _ w⟩, by unfold Only; decide +kernel, by unfold Only; decide +kernel, by decide +kernel, by decide +kernel,
    by decide +kernel⟩

theorem witness_CrossLaneInstructions :
    (∀ w, Ready (devOf bundle) bundle (.shfl 0 0 w) w ∧ Ready (devOf bundle) bundle (.shflx 0 0 w) w ∧ Ready (devOf bundle) bundle (.red 0 0 w) w ∧ Ready (devOf bundle) bundle (.scan 0 0 w) w ∧ Ready (devOf bundle) bundle (.vote 0 0 w) w ∧ Ready (devOf bundle) bundle (.rdlane 0 0 w) w) ∧
      (∀ m ∈ [mD + mA + mB + mBU, mD + mA + mk 0 6, mD + mA + mCond, mD + mPD, mD + mA + mB], Only (BitVec.ofNat 56 m) m)
      ∧ (∀ cond ∈ [0, 3, 4], Only (tw [(18, cond)]) (mD + mA + mCond)) ∧ (at0 bundle (tw [never, (18, 7)])).act = [] :=
  ⟨fun w => ⟨readyOf _ _ w, readyOf _ _ w, readyOf _ _ w, readyOf _ _ w, readyOf _ _ w, readyOf _ _ w⟩, only_all _ (by decide +kernel), by unfold Only; decide +kernel, by decide +kernel⟩

/-- The return stack is full. -/
def deep : Bundle := { bundle with ret := List.replicate 16 0x80 }

theorem witness_ControlFlowOfABundle :
    (∀ w, Ready (devOf bundle) bundle (.bra 0 0 w) w ∧ Ready (devOf bundle) bundle (.call 0 0 w) w ∧ Ready (devOf bundle) bundle (.ret 0 0 w) w ∧ Ready (devOf bundle) bundle (.exit 0 0 w) w)
      ∧ (∀ w, Ready (devOf deep) deep (.call 0 0 w) w)
      ∧ Only (tw [(0, 0xFFFFFFFF)]) mImm ∧ Only (tw []) 0
      ∧ (∀ bc ∈ [0, 5], Only (tw [(48, bc), (0, 1)]) (mk 48 4 + mk 45 3 + mk 39 6 + mImm))
      ∧ bcondHolds (at0 bundle (tw [(48, 0)])) ∧ bcondHolds (at0 bundle (tw [(48, 4)]))
      ∧ (at0 bundle (tw [])).act ≠ [] ∧ (at0 bundle (tw [never])).act = []
      ∧ (at0 bundle (tw [])).x.ret = [] ∧ (at0 deep (tw [])).x.ret.length = 16 :=
  ⟨fun w => ⟨readyOf _ _ w, readyOf _ _ w, readyOf _ _ w, readyOf _ _ w⟩, fun w => readyOf _ _ w, by unfold Only; decide +kernel, by unfold Only; decide +kernel,
    by unfold Only; decide +kernel, trivial, by show bundle.ureg 0 ≠ 0; decide +kernel, by decide +kernel, by decide +kernel, rfl, rfl⟩

theorem witness_ConversionsByLane :
    (∀ w, Ready (devOf bundle) bundle (.cvt 0 0 w) w ∧ Ready (devOf bundle) bundle (.offs 0 0 w) w)
      ∧ Only (tw [(36, 0), (32, 5), (28, 1), (22, 63)]) (mD + mA + mk 36 4 + mk 32 4 + mk 28 4 + mk 22 6 + mk 14 8)
      ∧ cvtBad (tw [(36, 0), (32, 5), (28, 1), (22, 63)]).toNat = [] ∧ Only (tw [(29, 1)]) (mD + mA + mk 29 1) :=
  ⟨fun w => ⟨readyOf _ _ w, readyOf _ _ w⟩, by unfold Only; decide +kernel, by decide +kernel, by unfold Only; decide +kernel⟩

theorem witness_IdentityReads :
    (∀ w, Ready (devOf bundle) bundle (.sreg 0 0 w) w) ∧ (∀ sel ∈ [0, 9, 10], Only (tw [(0, sel)]) (mD + mk 0 5))
      ∧ (∀ sel ∈ [0, 9, 10], sregBad (tw [(0, sel)]).toNat = []) ∧ sregBad (tw [(0, 8 + 16)]).toNat = []
      ∧ bit (at0 bundle (tw [(0, 8 + 16)])).n 4 = true ∧ (at0 bundle (tw [(0, 8 + 16)])).act ≠ [] :=
  ⟨fun w => readyOf _ _ w, by unfold Only; decide +kernel, by decide +kernel, by decide +kernel, by decide +kernel,
    by decide +kernel⟩

/-! ### Memory instructions -/

/-- A load of one byte, at 5 in every lane with A 1, and at an unmapped address in lane 0 with A 0. -/
def ld1 (a : Nat) : TWord := tw [(40, a), (31, 1)]

def ld8 : TWord := tw [(40, 1), (31, 4), (46, 62)]

/-- 15 loads are outstanding. -/
def loads15 : Bundle := { bundle with loads := 15 }

def accs0 (x : Bundle) (w : TWord) : List LaneAcc := (at0 x w).act.map (laneAcc (at0 x w))

/-- The same, on the device on which `x` has fetched `i`. -/
def onceOf (x : Bundle) (i : Instr) (w : TWord) : Dev := once (devOf x) x i w

def stops (x : Bundle) (i : Instr) (w : TWord) (write : Bool) : Bool :=
  ((memIssued (onceOf x i w) (at0 x w)).memStop (at0 x w) (accs0 x w) write).isSome

theorem witness_LoadsAndPrefetches :
    (∀ w, Ready (devOf loads15) loads15 (.ld 0 0 w) w ∧ Ready (devOf loads15) loads15 (.pref 0 0 w) w) ∧ (∀ w ∈ [ld1 0, ld1 1, ld8], Only w (mMem + mD + mk 28 1))
      ∧ (∀ w ∈ [ld1 0, ld1 1, ld8], ldBad w.toNat = []) ∧ loads15.loads < 16
      ∧ (∀ w ∈ [ld1 0, ld1 1, ld8], (at0 loads15 w).act ≠ [])
      ∧ stops loads15 (.ld 0 0 (ld1 0)) (ld1 0) false = true ∧ stops loads15 (.ld 0 0 (ld1 1)) (ld1 1) false = false ∧ stops loads15 (.ld 0 0 ld8) ld8 false = false
      ∧ Only (ld1 1) mMem ∧ prefBad (ld1 1).toNat = [] ∧ mScr (ld1 1).toNat = false :=
  ⟨fun w => ⟨readyOf _ _ w, readyOf _ _ w⟩, words_only _ _ (by decide +kernel), of_all _ (by decide +kernel), by decide, of_all _ (by decide +kernel),
    by decide +kernel, by decide +kernel, by decide +kernel, by unfold Only; decide +kernel, by decide +kernel,
    by decide +kernel⟩

def stScr : TWord := tw [(40, 1), (31, 1), (30, 1)]

theorem witness_StoresWaitInTheirUnit :
    (∀ w, Ready (devOf bundle) bundle (.st 0 0 w) w) ∧ (∀ w ∈ [ld1 0, ld1 1, stScr], Only w (mMem + mD))
      ∧ (∀ w ∈ [ld1 0, ld1 1, stScr], stBad w.toNat = []) ∧ (∀ w ∈ [ld1 0, ld1 1, stScr], (onceOf bundle (.st 0 0 w) w).storeCount 0 0 0 < 64)
      ∧ (∀ w ∈ [ld1 0, ld1 1, stScr], (onceOf bundle (.st 0 0 w) w).releaseMet 0 0 0 w.toNat = true)
      ∧ stops bundle (.st 0 0 (ld1 0)) (ld1 0) true = true ∧ stops bundle (.st 0 0 (ld1 1)) (ld1 1) true = false ∧ stops bundle (.st 0 0 stScr) stScr true = false
      ∧ mScr stScr.toNat = true :=
  ⟨fun w => readyOf _ _ w, words_only _ _ (by decide +kernel), of_all _ (by decide +kernel), of_all _ (by decide +kernel),
    of_all _ (by decide +kernel), by decide +kernel, by decide +kernel, by decide +kernel, by decide +kernel⟩

/-- ADD on 32 bits, and CAS on 64 bits. -/
def atom32 : TWord := tw [(40, 1), (31, 3), (20, 0)]
def atom64 : TWord := tw [(40, 1), (31, 4), (20, 15), (46, 60)]

/-- The job has a host page at 0x100000. -/
def hostPage : Page := { page with va := 0x100000, pa := hostBase }
def hostDev : Dev := { devOf bundle with jobs := [(3, { job with pages := [page, hostPage] })] }

theorem witness_AtomicsReturnTheOldValue :
    (∀ w, Ready (devOf bundle) bundle (.atom 0 0 w) w) ∧ (∀ w ∈ [atom32, atom64], Only w (mMem + mD + mk 20 5))
      ∧ (∀ w ∈ [atom32, atom64], atomBad w.toNat = []) ∧ bundle.loads < 16
      ∧ (∀ w ∈ [atom32, atom64], (onceOf bundle (.atom 0 0 w) w).releaseMet 0 0 0 w.toNat = true)
      ∧ (∀ w ∈ [atom32, atom64], stops bundle (.atom 0 0 w) w true = false) ∧ stops bundle (.atom 0 0 (tw [(31, 3)])) (tw [(31, 3)]) true = true
      ∧ (∀ w ∈ [atom32, atom64], (at0 bundle w).act ≠ [])
      ∧ (devOf bundle).badLine ((devOf bundle).lanePa (at0 bundle atom32) 4) = false
      ∧ mAop (at0 bundle atom32).n < 13 ∧ mAop (at0 bundle atom64).n = 15
      ∧ hostDev.region (hostDev.lanePa (at0 bundle atom32) 0x100000) = .host 0 :=
  ⟨fun w => readyOf _ _ w, words_only _ _ (by decide +kernel), of_all _ (by decide +kernel), by decide, of_all _ (by decide +kernel),
    of_all _ (by decide +kernel), by decide +kernel, of_all _ (by decide +kernel), by decide +kernel, by decide +kernel,
    by decide +kernel, by decide +kernel⟩

def fenced : Bundle := { bundle with wait := .fence true true true }
def barred : Bundle := { bundle with wait := .bar 3 }
def napping : Bundle := { bundle with wait := .nap, napEnd := 9 }
def barDev : Dev := { base with units := [(0, { ExecUnit.empty with bundles := [(0, barred)], bars := [(3, [0])] })] }

theorem witness_FencesBarriersAndNaps :
    (∀ w, Ready (devOf bundle) bundle (.fence 0 0 w) w ∧ Ready (devOf bundle) bundle (.bar 0 0 w) w ∧ Ready (devOf bundle) bundle (.nap 0 0 w) w) ∧ (∀ w ∈ [tw [(0, 1)], tw [(0, 7)]], Only w (mk 0 3))
      ∧ (if fld (tw [(0, 1)]).toNat 0 2 = 0 then [0] else []) = []
      ∧ ((devOf fenced).bundle? 0 0 = some fenced ∧ (devOf fenced).pendingStores 0 0 0 = [] ∧ fenced.loads = 0)
      ∧ barDev.arrived 0 0 3 ≠ [] ∧ (∀ b ∈ barDev.bundlesOf 0 0, b ∈ barDev.arrived 0 0 3)
      ∧ Only (tw [(0, 2 ^ 14 - 1)]) (mk 0 14) ∧ (devOf napping).bundle? 0 0 = some napping ∧ napping.wait = .nap :=
  ⟨fun w => ⟨readyOf _ _ w, readyOf _ _ w, readyOf _ _ w⟩, words_only _ _ (by decide +kernel), by decide +kernel, ⟨rfl, rfl, rfl⟩, by decide +kernel,
    by decide +kernel, by unfold Only; decide +kernel, rfl, rfl⟩

/-! ### Tensor instructions -/

/-- A tensor word: an MMA of one block with ZERO, FP16 by FP16, or what `l` makes of it. -/
def tensor (l : List (Nat × Nat)) : Nat := (l.map fun f => f.2 * 2 ^ f.1).sum
def mmaWord : Nat := tensor [(112, 1), (108, 1), (103, 1), (84, 1)]
def badWord : Nat := mmaWord + tensor [(116, 24)]

/-- The word stands in U0:U1. -/
def issuer (w : Nat) : Bundle := { bundle with u := [(0, BitVec.ofNat 64 (w / 2 ^ 64)), (1, BitVec.ofNat 64 w)] }

def entry (w : Nat) (started : Bool) : TensorEntry := { slot := 0, word := w, started := started }

def tile : Tile :=
  { isInt := false, shape := 0, sa := [0x3F800000], sb := [0x3F800000], za := 0, zb := 0, blocks := 1, acc := [] }

/-- Engine 0 belongs to command 0, with this queue and these tiles. -/
def engineDev (x : Bundle) (queue : List TensorEntry) (tiles : Tbl Tile) (mem : List Host.Cell) : Dev :=
  { base with
    mem := mem,
    units := [(0, { ExecUnit.empty with
      bundles := [(0, x)], engines := [(0, { Engine.empty with owner := some 0, queue := queue, tiles := tiles })] })] }

def tensDev (w : Nat) : Dev := engineDev (issuer w) (List.replicate 15 (entry mmaWord false)) [] []

theorem tensReady (n : Nat) (w : TWord) : Ready (tensDev n) (issuer n) (.tens 0 0 w) w := ready _ w rfl rfl rfl rfl rfl

/-- The device on which the TENS of the word `n` is fetched. -/
def tensOnce (n : Nat) : Dev := once (tensDev n) (issuer n) (.tens 0 0 (tw [(34, 1)])) (tw [(34, 1)])

def tensT (w : Nat) : TCtx := at0 (issuer w) (tw [(34, 1)])

/-- A count of 33 against a TWAIT for 31. -/
def counting : Bundle := { bundle with tens := [(0, 33)] }

/-- A RUN and a FREE in U0; the RUN's program and parameters stand at 0x1000 of scratch. -/
def runWord : Nat := 1 * 2 ^ 60 + 64 * 2 ^ 32 + 64 * 2 ^ 16
def freeWord : Nat := 2 * 2 ^ 60 + 3
def streamer (w : Nat) : Bundle := { bundle with u := [(0, BitVec.ofNat 64 w)] }
def decl (st : BufState) : Decl := { cmd := 0, slip := 4, buf := 3, start := 0, len := 64, st := st }
def streamDev (w : Nat) (decls : List Decl) : Dev :=
  { base with units := [(0, { ExecUnit.empty with bundles := [(0, streamer w)], mover := { Mover.empty with decls := decls } })] }
theorem streamReady (n : Nat) (decls : List Decl) (i : Instr) (w : TWord) :
    Ready (streamDev n decls) (streamer n) i w := ready i w rfl rfl rfl rfl rfl

/-- The device on which the RUN or FREE of the word `n` is fetched. -/
def runOnce (n : Nat) : Dev := once (streamDev n []) (streamer n) (.strmRun 0 0 (tw [])) (tw [])
def freeOnce (n : Nat) (decls : List Decl) : Dev :=
  once (streamDev n decls) (streamer n) (.strmFree 0 0 (tw [])) (tw [])

theorem witness_TensorAndStreamIssue :
    ((∀ n w, Ready (tensDev n) (issuer n) (.tens 0 0 w) w) ∧ Only (tw [(34, 1)]) (mA + mB)
        ∧ tensWord (tensT mmaWord).x (tensT mmaWord).n = mmaWord ∧ (tensT mmaWord).act ≠ []
        ∧ (tensOnce mmaWord).wordEngine 0 0 mmaWord = some 0 ∧ ((tensOnce mmaWord).engine 0 0).queue.length < 16
        ∧ ((tensOnce mmaWord).issue (tensT mmaWord)).wordEngine 0 0 mmaWord = some 0
        ∧ ((tensOnce mmaWord).issue (tensT mmaWord)).tensorBad 0 0 0 running mmaWord = []
        ∧ (((tensOnce badWord).issue (tensT badWord)).tensorBad 0 0 0 running badWord).min? = some 116)
      ∧ ((∀ w, Ready (devOf counting) counting (.twait 0 0 w) w) ∧ Only (tw [(3, 31)]) (mk 0 8)
        ∧ fld (tw [(3, 31)]).toNat 3 5 < Tbl.getD counting.tens 0 0 ∧ Tbl.getD bundle.tens 0 0 ≤ fld (tw []).toNat 3 5)
      ∧ ((∀ n w, Ready (streamDev n []) (streamer n) (.strmRun 0 0 w) w) ∧ Only (tw []) mA
        ∧ (runOnce runWord).runBad 0 running runWord = none
        ∧ (runOnce runWord).runBad 0 running (runWord + 1) = some 0
        ∧ ((runOnce runWord).unit 0).mover.room 0 (paramDecls 0 ((runOnce runWord).runParam 0 runWord)) = true)
      ∧ ((∀ n ds w, Ready (streamDev n ds) (streamer n) (.strmFree 0 0 w) w) ∧ strmBad freeWord = []
        ∧ ((freeOnce freeWord [decl .full]).unit 0).mover.decls.find? (fun y => y.cmd = 0 && y.buf = 3) = some (decl .full)
        ∧ ((freeOnce freeWord []).unit 0).mover.decls.find? (fun y => y.cmd = 0 && y.buf = 3) = none)
      ∧ (∀ n w, Ready (streamDev n []) (streamer n) (.swait 0 0 w) w)
      ∧ (markMeets ((streamDev 5 []).unit 0 |>.mover.countOf 0) (((streamer 5).ureg 0).setWidth 32) = false
        ∧ markMeets ((streamDev 0 []).unit 0 |>.mover.countOf 0) (((streamer 0).ureg 0).setWidth 32) = true)
      ∧ (∀ w, Ready (devOf bundle) bundle (.statmx 0 0 w) w ∧ Ready (devOf bundle) bundle (.seal 0 0 w) w)
      ∧ Only (tw [(14, 255)]) (mA + mk 14 8) ∧ Only (tw [(14, 255)]) (mk 14 8) ∧ badStat (tw [(14, 255)]).toNat = []
      ∧ badStat (tw [(14, 1)]).toNat = [] :=
  ⟨⟨tensReady, by unfold Only; decide +kernel, by decide +kernel, by decide +kernel, by decide +kernel, by decide +kernel,
      by decide +kernel, by decide +kernel, by decide +kernel⟩,
    ⟨fun w => readyOf _ _ w, by unfold Only; decide +kernel, by decide +kernel, by decide +kernel⟩,
    ⟨fun n w => streamReady n [] _ w, by unfold Only; decide +kernel, by decide +kernel, by decide +kernel, by decide +kernel⟩,
    ⟨fun n ds w => streamReady n ds _ w, by decide +kernel, by decide +kernel, by decide +kernel⟩,
    fun n w => streamReady n [] _ w, by decide +kernel, fun w => ⟨readyOf _ _ w, readyOf _ _ w⟩,
    by unfold Only; decide +kernel, by unfold Only; decide +kernel, by decide +kernel, by decide +kernel⟩

/-- Words of the other operations on tile 0: LOAD, STORE as MX8 with its scales at 0, RELEASE, DEBUG_READ. -/
def loadWord : Nat := tensor [(124, 1), (112, 1), (108, 1)]
def storeWord : Nat := tensor [(124, 2), (112, 4)]
def releaseWord : Nat := tensor [(124, 3)]
def debugWord : Nat := tensor [(124, 4)]

def execDev (w : Nat) (mem : List Host.Cell) : Dev := engineDev bundle [entry w false] [(0, tile)] mem

/-- A one in the first scale record of group 0's scratch, outside the fields it may have. -/
def spoiled : List Host.Cell := [(scratchBase + 1, 1)]

theorem executes (w op : Nat) (mem : List Host.Cell) (ho : tOp w = op)
    (h : (execDev w mem).mayStart 0 0 w = true) : Executes (execDev w mem) 0 0 op 0 running (entry w false) :=
  ⟨rfl, ho, h, fun _ => (by decide : ((execDev 0 []).engine 0 0).ramp ≠ .held), List.all_eq_true.mpr fun _ _ => rfl⟩

theorem witness_TensorInstructionsOnTheirEngine :
    (Executes (execDev mmaWord []) 0 0 0 0 running (entry mmaWord false)
        ∧ tZero mmaWord = true ∧ (execDev mmaWord []).openBad 0 0 0 running mmaWord = none
        ∧ (execDev mmaWord spoiled).openBad 0 0 0 running mmaWord = some 48)
      ∧ (Executes (execDev loadWord []) 0 0 1 0 running (entry loadWord false)
        ∧ (execDev loadWord []).openBad 0 0 0 running loadWord = none ∧ (execDev loadWord spoiled).openBad 0 0 0 running loadWord = some 48)
      ∧ (Executes (execDev storeWord []) 0 0 2 0 running (entry storeWord false)
        ∧ Tbl.find? ((execDev storeWord []).engine 0 0).tiles (tAcc storeWord) = some tile
        ∧ 3 ≤ oFmt storeWord ∧ scaleHeadOk (oFmt storeWord) 0 = true ∧ scaleHeadOk (oFmt storeWord) 256 = false)
      ∧ Executes (execDev releaseWord []) 0 0 3 0 running (entry releaseWord false)
      ∧ Executes (execDev debugWord []) 0 0 4 0 running (entry debugWord false) :=
  ⟨⟨executes _ _ _ (by decide +kernel) (by decide +kernel), by decide +kernel, by decide +kernel, by decide +kernel⟩,
    ⟨executes _ _ _ (by decide +kernel) (by decide +kernel), by decide +kernel, by decide +kernel⟩,
    ⟨executes _ _ _ (by decide +kernel) (by decide +kernel), by decide +kernel, by decide +kernel, by decide +kernel,
      by decide +kernel⟩,
    executes _ _ _ (by decide +kernel) (by decide +kernel), executes _ _ _ (by decide +kernel) (by decide +kernel)⟩

def waitingTwo : Bundle := { bundle with tens := [(0, 2)], wait := .twait 0 1 }

theorem witness_TensorCompletion :
    ((engineDev bundle [entry mmaWord true] [] []).engine 0 0).owner = some 0
      ∧ ((engineDev bundle [entry mmaWord true] [] []).engine 0 0).queue.find? (·.started) = some (entry mmaWord true)
      ∧ (engineDev waitingTwo [] [] []).bundle? 0 (entry mmaWord true).slot = some waitingTwo ∧ waitingTwo.cmd = 0
      ∧ waitingTwo.wait = .twait (tEngine mmaWord) 1 := by
  refine ⟨rfl, by decide +kernel, rfl, rfl, by decide +kernel⟩

/-! ### Slips -/

def slip : Slip :=
  { id := 4, cmd := 0, a := List.replicate 8 0, c := [5, 0, 1, 2, 64, 0, 0, 0], pc := 0x100, wait := .none, halted := false,
    saved := none, inflight := [] }

/-- Context 0 of group 0's mover holds `s`, which declares buffer 3. -/
def slipDev (s : Slip) (st : BufState) : Dev :=
  { base with units := [(0, { ExecUnit.empty with mover := { Mover.empty with ctx := [(0, s)], decls := [decl st] } })] }

def slipWord (l : List (Nat × Nat)) : SWord := BitVec.ofNat 58 (l.map fun f => f.2 * 2 ^ f.1).sum
def slipT (w : SWord) : SCtx := slipCtx 0 0 slip running w

/-- `slipDev` with the word `n` at the slip's PC. -/
def slipHolding (st : BufState) (n : Nat) : Dev :=
  { slipDev slip st with mem := memWrite [] (unitScratch 0 + 0x100) (leBytes 8 n) }

theorem slip_reads (st : BufState) (m : List Host.Cell) (i : Nat) (h : i < 8) :
    (({ slipDev slip st with mem := m } : Dev).advance 0).rdByte (unitScratch 0 + 0x100 + i)
      = memByte m (unitScratch 0 + 0x100 + i) := by
  rcases i with _|_|_|_|_|_|_|_|i
  all_goals first | omega | rfl

theorem slip_ready (n : Nat) : ((slipHolding .empty n).advance 0).slipReady 0 slip = true := by
  have hs (pa : Nat) : ((slipHolding .empty n).advance 0).stalledAt pa = false := by
    unfold Dev.stalledAt; split <;> rfl
  have hf : slip.inflight.length < 8 := by decide
  have hn (l : List Nat) : l.any (fun _ => false) = false := by induction l <;> simp_all
  simp only [Dev.slipReady, hs, hf, hn, decide_true, Bool.or_true, Bool.not_false, Bool.and_true]
  rfl

/-- The slip issues, and scratch holds instruction `i` with low bits `w` at its PC. -/
def SlipReady (i : Instr) (w : SWord) : Prop :=
  SlipIssues ((slipHolding .empty (opcOf i * 2 ^ 58 + w.toNat)).advance 0) 0 0 slip running
    ∧ ((slipHolding .empty (opcOf i * 2 ^ 58 + w.toNat)).advance 0).slipWord 0 slip.pc = opcOf i * 2 ^ 58 + w.toNat

theorem slipHolds (i : Instr) (w : SWord) (h : opcOf i < 64) : SlipReady i w := by
  have hn : opcOf i * 2 ^ 58 + w.toNat < 256 ^ 8 := by have := w.isLt; omega
  refine ⟨?_, ?_⟩
  · generalize opcOf i * 2 ^ 58 + w.toNat = n
    exact ⟨rfl, rfl, slip_ready n, rfl, rfl⟩
  · generalize opcOf i * 2 ^ 58 + w.toNat = n at hn ⊢
    have hr : ∀ i, i < 8 → ((slipHolding .empty n).advance 0).rdByte (unitScratch 0 + 0x100 + i) = (leBytes 8 n)[i]?.getD 0 := by
      intro i hi
      unfold slipHolding
      rw [slip_reads _ _ _ hi, memByte_write, leBytes_length, if_pos (by omega),
        show unitScratch 0 + 0x100 + i - (unitScratch 0 + 0x100) = i from Nat.add_sub_cancel_left ..]
    unfold Dev.slipWord Dev.rd
    rw [show slip.pc = 0x100 from rfl,
      List.map_congr_left (g := fun i => (leBytes 8 n)[i]?.getD 0) (fun i hi => hr i (List.mem_range.mp hi))]
    have : (List.range 8).map (fun i => (leBytes 8 n)[i]?.getD 0) = leBytes 8 n := rfl
    rw [this, leNat_leBytes 8 n hn]

def slipOnly (w : SWord) (used : Nat) : Bool := setBits 58 (w.toNat - Nat.land w.toNat used) = []

/-- FETCH of one row of 64 bytes at job address 0 to scratch 0, with C4 as its pitch, and one from beyond the page. -/
def fetchWord : SWord := slipWord [(47, 4), (24, 1), (0, 64), (51, 1)]

theorem witness_SlipInstructions :
    (∀ w, SlipReady (.mova 0 0 0 w) w ∧ SlipReady (.addaa 0 0 0 w) w ∧ SlipReady (.setc 0 0 0 w) w ∧ SlipReady (.addc 0 0 0 w) w
        ∧ SlipReady (.loop 0 0 0 w) w ∧ SlipReady (.open_ 0 0 0 w) w ∧ SlipReady (.close 0 0 0 w) w
        ∧ SlipReady (.sig 0 0 0 w) w ∧ SlipReady (.end_ 0 0 0 w) w ∧ SlipReady (.waitmk 0 0 0 w) w)
      ∧ slipOnly (slipWord [(55, 7), (52, 7), (0, 0xFFFFFFFF)]) mSlipR = true ∧ slipOnly (slipWord [(0, 15)]) (mk 0 4) = true
      ∧ slipOnly (slipWord [(0, 255)]) (mk 0 8) = true ∧ (if fld (slipT (slipWord [(0, 255)])).n 0 8 = 0 then [0] else []) = []
      ∧ (slipT (slipWord [(55, 1)])).cReg 55 = 0 ∧ (slipT (slipWord [(55, 2)])).cReg 55 = 1
      ∧ 1 < ((slipT (slipWord [(55, 3)])).cReg 55).toNat
      ∧ slipOnly (slipWord [(55, 7), (45, 1023), (0, 65535)]) (mk 55 3 + mk 45 10 + mk 0 16) = true
      ∧ markMeets (((slipDev slip .empty).job 3).mark 0).value ((slipT (slipWord [(55, 1)])).cReg 55) = true
      ∧ markMeets (((slipDev slip .empty).job 3).mark 0).value ((slipT (slipWord [(55, 0)])).cReg 55) = false
      ∧ (slipDev { slip with wait := .mark 1 5 (some 99) } .empty).ctx? 0 0 = some { slip with wait := .mark 1 5 (some 99) } :=
  ⟨fun w => by refine ⟨?_, ?_, ?_, ?_, ?_, ?_, ?_, ?_, ?_, ?_⟩ <;> exact slipHolds _ w (by simp [opcOf]), by decide +kernel⟩

theorem witness_SlipWaitsEndWhenTheirConditionHolds :
    (slipDev { slip with wait := .opening 3 } .empty).ctx? 0 0 = some { slip with wait := .opening 3 }
      ∧ ((slipDev slip .empty).unit 0).mover.decl? 4 3 = some (decl .empty)
      ∧ ((slipDev slip .full).unit 0).mover.decl? 4 3 = some (decl .full)
      ∧ (slipDev { slip with wait := .closing 3 } .filling).ctx? 0 0 = some { slip with wait := .closing 3 }
      ∧ slip.writesInto 0 64 = false
      ∧ (slipDev { slip with wait := .signal 255 } .empty).ctx? 0 0 = some { slip with wait := .signal 255 }
      ∧ slip.inflight.any (fun t => !t.toScratch || t.isFmt) = false
      ∧ (slipDev { slip with wait := .ending } .empty).ctx? 0 0 = some { slip with wait := .ending } := by decide +kernel

def landing : Slip := { slip with inflight := [Transfer.plain [(scratchBase, [1])] true 0 64] }

def pendStore : PendStore := { slot := 0, cmd := 0, job := 3, seq := 1, pa := t2Base, data := [7], mask := [255] }
def storeDev : Dev := { base with units := [(0, { ExecUnit.empty with bundles := [(0, loads15)], stores := [pendStore] })] }
def queuedDev : Dev := { base with units := [(0, { ExecUnit.empty with mover := { Mover.empty with queue := [slip] } })] }

theorem witness_SlipTransfersAndTheirLanding :
    (∀ w, SlipReady (.fetch 0 0 0 w) w ∧ SlipReady (.put 0 0 0 w) w)
      ∧ (slipOnly fetchWord mSlipM = true ∧ moveBad (slipDev slip .empty) { slipT fetchWord with s := slip } = []
        ∧ slip.inflight.length < 8
        ∧ ((slipDev slip .empty).issueLines 0 3 false (moveLines 0 64 0 1 64)).1.length = 1
        ∧ ((slipDev slip .empty).issueLines 0 3 false (moveLines 0 64 0 1 64)).2.isNone = true
        ∧ bit (slipT fetchWord).n 51 = true ∧ bit (slipT fetchWord).n 50 = false)
      ∧ ((storeDev.advance 0).bundle? 0 0 = some loads15 ∧ loads15.loads ≠ 0
        ∧ ((storeDev.advance 0).unit 0).stores.find? (fun p => p.slot = 0) = some pendStore
        ∧ (storeDev.advance 0).region pendStore.pa = .tier2 0)
      ∧ ((slipDev landing .empty).advance 0).ctx? 0 0 = some landing ∧ landing.wait = .none
      ∧ (queuedDev.unit 0).mover.queue = [slip]
      ∧ (List.range 4).find? (fun x => (Tbl.find? (queuedDev.unit 0).mover.ctx x).isNone) = some 0 := by
  refine ⟨fun w => by refine ⟨?_, ?_⟩ <;> exact slipHolds _ w (by simp [opcOf]), by decide +kernel⟩

/-- FMT on Stacks die 0: the descriptor at its scratch's start asks for one block of 8 rows of FP16. -/
def fmtSource : Nat := 1 * 2 ^ 460 + 1 * 2 ^ 456 + 8 * 2 ^ 440 + 1 * 2 ^ 428 + 64 * 2 ^ 384

def fmtState : Dev :=
  { base with
    jobs := [(3, { job with t1 := some { grant with dies := 1, sramLen := 0x10000 } })],
    units := [(64, { ExecUnit.empty with mover := { Mover.empty with ctx := [(0, slip)] } })],
    mem := memWrite (memWrite [] sramBase (leBytes 64 fmtSource)) (sramBase + 0x100)
      (leBytes 8 (0x0C * 2 ^ 58 + (slipWord [(48, 1)]).toNat)) }

def fmtT : SCtx := slipCtx 64 0 slip running (slipWord [(48, 1)])

theorem witness_SlipTransfersAndTheirLanding_fmt :
    SlipIssues (fmtState.advance 0) 64 0 slip running
      ∧ (fmtState.advance 0).slipWord 64 slip.pc
        = opcOf (.fmt 0 64 0 (slipWord [(48, 1)])) * 2 ^ 58 + (slipWord [(48, 1)] : SWord).toNat
      ∧ slipOnly (slipWord [(48, 1)]) (mk 48 10) = true ∧ fmtBad fmtState { fmtT with s := slip } = []
      ∧ (∀ a ∈ (fmtDesc fmtSource).lines 0, (fmtState.xlate 3 a false).isSome = true)
      ∧ fmtDesc (leNat (fmtState.engRead 64 0 64)) = fmtDesc fmtSource ∧ bit fmtT.n 48 = true := by
  refine ⟨⟨by decide +kernel, by decide +kernel, by decide +kernel, by decide +kernel, by decide +kernel⟩, by decide +kernel,
    by decide +kernel, by decide +kernel, by decide +kernel, ?_, by decide +kernel⟩
  rw [show leNat (fmtState.engRead 64 0 64) = fmtSource by decide +kernel]

/-- Its last address is beyond every page: a source there, or an output there. -/
def farSlip (reg : Nat) : Slip := { slip with a := listSet slip.a reg (2 ^ 40) }

/-- The page of the job is migrating. -/
def migrating : Dev := { slipDev slip .empty with jobs := [(3, { job with pages := [{ page with migrate := true }] })] }

/-- The clauses of a FETCH and of a FMT that stop: a line beyond the pages, a migrating page, a source and an output that
are not mapped. -/
theorem witness_SlipTransfersAndTheirLanding_stops :
    ((slipDev slip .empty).issueLines 0 3 false (moveLines (2 ^ 40) 64 0 1 64)).2.map (fun p => (p.1.va, p.2))
        = some (2 ^ 40, .fault)
      ∧ (migrating.issueLines 0 3 true (moveLines 0 64 0 1 64)).2.map (fun p => (p.1.va, p.2)) = some (0, .migrate)
      ∧ (fmtDesc fmtSource).lines (2 ^ 40) ≠ []
      ∧ (∀ a ∈ (fmtDesc fmtSource).lines (2 ^ 40), (fmtState.xlate 3 a false).isNone = true)
      ∧ fmtBad fmtState { slipCtx 64 0 (farSlip 1) running (slipWord [(49, 1)]) with s := farSlip 1 } = []
      ∧ bit (slipCtx 64 0 (farSlip 1) running (slipWord [(49, 1)])).n 48 = false
      ∧ (fmtState.xlate 3 (2 ^ 40) true).isNone = true := by decide +kernel

/-! ### Commands of a ring -/

/-- A descriptor of this class and opcode whose argument block of `len` bytes stands at 0x1000. -/
def ringDesc (cls op len : Nat) : Nat := cls * 2 + op * 16 + 0x1000 * 2 ^ 320 + len * 2 ^ 376

def readyDev (desc : Nat) (mem : List Host.Cell) : Dev := { base with cmds := [(0, cmd .ready desc)], mem := mem }

/-- An argument block there that spells `n`. -/
def block (len n : Nat) : List Host.Cell := memWrite [] (t2Base + 0x1000) (leBytes len n)

/-- The device on which the command is RUNNING and noted at a unit. -/
def opened (d : Dev) (u : Nat) : Dev :=
  match d.cmd? 0 with
  | some c => (d.setCmd 0 (d.dispatched c)).atUnit 0 u
  | none => d

theorem dispatches (cls op : Nat) (desc : Nat) (mem : List Host.Cell)
    (h : ((readyDev desc mem).advance 0).slotAllows (cmd .ready desc) = true
      ∧ ((readyDev desc mem).advance 0).drained 0 (cmd .ready desc) = true
      ∧ ((readyDev desc mem).advance 0).slotFree (cmd .ready desc) = true
      ∧ ((readyDev desc mem).advance 0).entryFree (cmd .ready desc) = true
      ∧ ((readyDev desc mem).advance 0).hasCapacity (cmd .ready desc) = true
      ∧ ((readyDev desc mem).advance 0).served (cmd .ready desc) = true ∧ ((readyDev desc mem).advance 0).isTurn (cmd .ready desc) = true
      ∧ (cmd .ready desc).cls = cls ∧ (cmd .ready desc).opcode = op) :
    Dispatches ((readyDev desc mem).advance 0) cls op 0 (cmd .ready desc) :=
  by
  obtain ⟨h1, h2, h3, h4, h5, h6, h7, hc, ho⟩ := h
  exact ⟨rfl, rfl, hc, ho, rfl, rfl, h1, h2, h3, h4, h5, h6, h7⟩

def control : List (Nat × Nat) := [(4, 0), (5, 0), (5, 2), (4, 1), (5, 1), (7, 0), (7, 1), (7, 2)]

theorem witness_BarrierTimetableAndControlCommands :
    (∀ p ∈ control, Dispatches ((readyDev (ringDesc p.1 p.2 0) []).advance 0) p.1 p.2 0 (cmd .ready (ringDesc p.1 p.2 0)))
      ∧ ((opened (readyDev (ringDesc 4 1 0) []) 0x91).xlate 3 0x1000 true).isSome = true
      ∧ (opened (readyDev (4 * 2 + 16 + 0x90000 * 2 ^ 320) []) 0x91).xlate 3 0x90000 true = none
      ∧ (opened (readyDev (ringDesc 7 2 0) []) 0x91).cget (Cat.SMP_RING_BYTES 3) = 0 := by
  refine ⟨fun p hp => dispatches _ _ _ _ ?_, by decide +kernel, by decide +kernel, by decide +kernel⟩
  revert p
  exact of_all (p := fun p => _ ∧ _ ∧ _ ∧ _ ∧ _ ∧ _ ∧ _ ∧ _ ∧ _) control (by decide +kernel)

/-- A device on which job 3 may have one command in flight, and has it. -/
def fullDev (waited : Bool) : Dev :=
  { base with
    cmds := [(0, { cmd .ready (ringDesc 5 0 0) with waited := waited }), (1, running)],
    cat := [(Cat.JOB_INFLIGHT_MAX 3, 1)] }

/-- Four commands of the ring in flight, whose completion ring has four entries. -/
def noEntryDev : Dev :=
  { base with cmds := [(0, cmd .ready (ringDesc 5 0 0)), (1, running), (2, running), (3, running), (4, running)] }

theorem witness_NoInFlightSlotNoDispatch :
    (∀ w, (fullDev w).cmd? 0 = some { cmd .ready (ringDesc 5 0 0) with waited := w }
        ∧ (fullDev w).slotAllows { cmd .ready (ringDesc 5 0 0) with waited := w } = true
        ∧ (fullDev w).drained 0 { cmd .ready (ringDesc 5 0 0) with waited := w } = true
        ∧ (fullDev w).slotFree { cmd .ready (ringDesc 5 0 0) with waited := w } = false)
      ∧ noEntryDev.slotFree (cmd .ready (ringDesc 5 0 0)) = true ∧ noEntryDev.entryFree (cmd .ready (ringDesc 5 0 0)) = false
      ∧ base.cmd? 0 = some running ∧ running.st ≠ .ready ∧ ((fullDev false).job 3).st = .running
      ∧ ((fullDev false).ring 3 1).st = .active := by decide +kernel

/-- A WAITING command whose wait 0 is on mark 7 for the value 5, with a timeout, and its like with TO_SKIP. -/
def waiting (skip : Nat) : Cmd :=
  { cmd .waiting (ringDesc 5 0 0 + 2 ^ 176 + skip * 2 ^ 179 + 7 * 2 ^ 192 + 5 * 2 ^ 256 + 1 * 2 ^ 160) with oldestAt := some 0 }

def markDev : Dev :=
  { base with cmds := [(0, waiting 0), (1, { cmd .waiting (ringDesc 5 0 0) with job := 4 })],
              units := [(0, { ExecUnit.empty with
                mover := { Mover.empty with ctx := [(0, { slip with cmd := 0, wait := .mark 7 5 (some 9) })] } })] }

theorem witness_MarksWakeWhatWaits :
    markDev.cmd? 0 = some (waiting 0) ∧ (waiting 0).job = 3 ∧ (waiting 0).w0En = true ∧ (waiting 0).met0 = none
      ∧ (waiting 0).waitMark0 = 7 ∧ ((5 : Word) - (waiting 0).waitVal0).msb = false
      ∧ ((4 : Word) - (waiting 0).waitVal0).msb = true
      ∧ markDev.cmd? 1 = some { cmd .waiting (ringDesc 5 0 0) with job := 4 }
      ∧ markDev.ctx? 0 0 = some { slip with cmd := 0, wait := .mark 7 5 (some 9) } ∧ markDev.cmdJob 0 = 3 := by decide +kernel

/-- A LAUNCH with two units to come, RUNNING and PARKED. -/
def launching (st : CmdState) : Cmd := { cmd st (launchDesc + 0x40 * 2 ^ 376 + 1 * 2 ^ 501) with unitsLeft := 1 }
def launchDev (st : CmdState) : Dev := { base with cmds := [(0, launching st)] }

theorem witness_LaunchAndPartsOnUnits :
    Dispatches ((readyDev launchDesc []).advance 0) 0 0 0 (cmd .ready launchDesc)
      ∧ 0 ∈ setBits 72 (cmd .ready launchDesc).unitMask ∧ ((readyDev launchDesc []).advance 0).unitFits 0 (cmd .ready launchDesc) = true
      ∧ (∀ st ∈ [CmdState.running, .parked], (launchDev st).cmd? 0 = some (launching st) ∧ (launching st).cls = 0
          ∧ bit (launching st).unitsLeft 0 = true ∧ (launchDev st).slotAllows (launching st) = true
          ∧ (launchDev st).unitFits 0 (launching st) = true
          ∧ (launchDev st).firstFault 3 (launching st).launchArgs ((launching st).argQwords * 8) false = none)
      ∧ (Bundle.start 0 1 0x40 (List.replicate 63 9)).ureg 62 = 9 ∧ ((launchDev .running).freeSlots 0)[1]? = some 1
      ∧ 0 ∈ ((launchDev .running).freeEngines 0).take (launching .running).engines := by
  refine ⟨dispatches _ _ _ _ (by decide +kernel), by decide +kernel, by decide +kernel, ?_, by decide +kernel⟩
  exact of_all (p := fun _ => _ ∧ _ ∧ _ ∧ _ ∧ _ ∧ _) _ (by decide +kernel)

/-- A command whose work has ended: with CREC, a signal of 2 on mark 9 and IRQ, this status, its ring at entry 3. -/
def doneCmd (status : Nat) : Cmd :=
  { cmd .retiring (ringDesc 5 0 0 + 2 ^ 13 + 2 ^ 14 + 2 ^ 178 + 2 * 2 ^ 184 + 9 * 2 ^ 224) with done := true, status := status }
def doneDev (status pos : Nat) : Dev :=
  { base with cmds := [(0, doneCmd status)], rings := [(193, { ring with cPos := pos })] }
def noRing : Dev := { doneDev 0 0 with rings := [(193, { ring with record := 4 * 2 ^ 52 + 2 * 2 ^ 57 + 0x90000 * 2 ^ 64 })] }

theorem witness_RetirementInItsOrder :
    (doneDev 0 0).cmd? 0 = some (doneCmd 0) ∧ (doneCmd 0).done = true ∧ (doneCmd 0).inFlight = true
      ∧ (doneDev 0 0).writesAccepted 0 = true ∧ (doneCmd 0).crec = true
      ∧ (((doneDev 0 3).traceEnds (doneCmd 0)).xlate 3 (((doneDev 0 3).ring 3 1).cBase + 32 * 3) true).isSome = true
      ∧ ((doneDev 0 3).ring 3 1).cPos + 1 = ((doneDev 0 3).ring 3 1).cSize
      ∧ ((doneDev 0 0).ring 3 1).cPos + 1 ≠ ((doneDev 0 0).ring 3 1).cSize
      ∧ (doneCmd 0).sigEn = true ∧ statusSignals 0x05 = true ∧ statusSignals 0x11 = false ∧ (doneCmd 0).irq = true
      ∧ (cmd .retiring (ringDesc 5 0 0)).crec = false ∧ ((doneDev 0x11 0).ring 3 1).st = .active
      ∧ (doneDev 0 0).recordServed (doneCmd 0) = true ∧ bit msixReset 96 = true
      ∧ bit (Tbl.getD ({ HostPort.empty with msix := [(0, 0)] } : HostPort).msix 0 msixReset) 96 = false
      ∧ (noRing.traceEnds (doneCmd 0)).xlate 3 ((noRing.ring 3 1).cBase) true = none := by decide +kernel

def waitDev (skip : Nat) : Dev := { base with cmds := [(0, waiting skip)] }
def metDev : Dev := { base with cmds := [(0, { waiting 0 with met0 := some 8192 })] }

theorem witness_WaitsReleaseAndTimeOut :
    (metDev.cmd? 0 = some { waiting 0 with met0 := some 8192 } ∧ metDev.releaseInstant (waiting 0) = some 0
        ∧ metDev.orderedOk 0 (waiting 0) = true ∧ metDev.drained 0 (waiting 0) = true ∧ metDev.slotAllows (waiting 0) = true
        ∧ waitMet (metDev.waitDeadline { waiting 0 with met0 := some 8192 }) (some 8192) = true
        ∧ waitMet (metDev.waitDeadline { waiting 0 with met0 := some 8193 }) (some 8193) = false)
      ∧ (∀ skip ∈ [0, 1], (waitDev skip).cmd? 0 = some (waiting skip) ∧ (waitDev skip).waitDeadline (waiting skip) = some 8192
          ∧ ((waiting skip).w0En && !(waiting skip).to0 && !waitMet (some 8192) (waiting skip).met0) = true)
      ∧ (waiting 0).toSkip = false ∧ (waiting 1).toSkip = true :=
  ⟨by decide +kernel, of_all (p := fun _ => _ ∧ _ ∧ _) _ (by decide +kernel), by decide +kernel⟩

/-- A ring of 16 entries at 0x2000 with one announced; the entry's first byte is `b`. -/
def fetchDev (base_ tries b : Nat) : Dev :=
  { base with
    rings := [(193, { ring with record := base_ + 4 * 2 ^ 52 + 2 * 2 ^ 57 + 0x4000 * 2 ^ 64, tail := 1, phaseTries := tries })],
    cmds := [], mem := block 0 0 ++ memWrite [] (t2Base + 0x2000) [BitVec.ofNat 8 b] }

theorem witness_RingsFetchTheirDescriptors :
    (∀ b ∈ [0, 1], let d := fetchDev 0x2000 0 b; let r := d.ring 3 1
        r.st = .active ∧ r.head ≠ r.tail ∧ r.phaseTries = 0 ∧ d.roomToFetch 3 1 = true ∧ Tbl.find? r.pushed r.head = none
          ∧ (d.xlate 3 (r.baseVa + 64 * r.head) false).isSome = true ∧ d.jbad 3 (r.baseVa + 64 * r.head) 64 = []
          ∧ bit (d.jnat 3 (r.baseVa + 64 * r.head) 64) 0 = decide (b = 1) ∧ r.phase = true ∧ d.headServed 3 1 = true)
      ∧ (∀ t ∈ [1, 7, 8], ((fetchDev 0x2000 t 0).ring 3 1).phaseTries = t ∧ (fetchDev 0x2000 t 0).roomToFetch 3 1 = true
          ∧ (fetchDev 0x2000 t 0).headServed 3 1 = true)
      ∧ (fetchDev 0x90000 0 0).xlate 3 0x90000 false = none
      ∧ ((fetchDev 0x2000 1 0).advance 8000).cget Cat.CP_PHASE_RETRY = 8 :=
  ⟨of_all (p := fun _ => _ ∧ _ ∧ _ ∧ _ ∧ _ ∧ _ ∧ _ ∧ _ ∧ _ ∧ _) _ (by decide +kernel),
    of_all (p := fun _ => _ ∧ _ ∧ _) _ (by decide +kernel), by decide +kernel⟩

/-- The data plane is released, port 0's link is up, and it may ring job 3's rings. -/
def bellDev (tail : Nat) : Dev :=
  { base with
    boot := { Boot.reset with state := 4 },
    hosts := [(0, { HostPort.empty with linkUp := true, perstLow := false, errEn := true })],
    rings := [(193, { ring with tail := tail })], cat := [(Cat.SEC_RING_SEALED 3, 0), (Cat.SEC_DOORBELL_PORTS 3, 1)] }

theorem witness_DoorbellsAndPushes :
    (bellDev 0).released = true ∧ (bellDev 0).hostLost 0 = false ∧ (bellDev 0).doorbellOpen 0 3 1 = true
      ∧ (bellDev 0).doorbellOpen 0 3 2 = false ∧ ((bellDev 0).ring 3 1).size = 16
      ∧ (15 + 16 - 0) % 16 + ((bellDev 0).ring 3 1).unfetched < 16
      ∧ 16 ≤ (0 + 16 - 1) % 16 + ((bellDev 1).ring 3 1).unfetched
      ∧ ((bellDev 14).ring 3 1).unfetched + 1 < 16 ∧ ((bellDev 14).ring 3 1).head ≠ ((bellDev 14).ring 3 1).tail
      ∧ ((bellDev 0).ring 3 1).head = ((bellDev 0).ring 3 1).tail ∧ (bellDev 0).cget (Cat.SEC_RING_SEALED 3) ≠ 1
      ∧ bit ((bellDev 0).host 0).errCause 4 = false ∧ ((bellDev 0).host 0).errEn = true := by decide +kernel

/-! ### Argument blocks -/

/-- A COPY of one row of 64 bytes from 0 to 0x3000, and one with a reserved bit. -/
def copyArgs : Nat := 0x3000 * 2 ^ 64 + 64 * 2 ^ 128 + 1 * 2 ^ 160
def copyDev (n : Nat) : Dev := opened (readyDev (ringDesc 1 0 64) (block 64 n)) 0x90

/-- A SLIP of one instruction on group 0, its parameters at 0x200 of scratch and its program at 0x100. -/
def slipArgs : Nat := 1 + 0x100 * 2 ^ 80 + 0x200 * 2 ^ 104 + 1 * 2 ^ 128
def slipReady (n : Nat) : Dev := readyDev (ringDesc 1 1 384) (block 384 n)
def slipRunning : Cmd := { cmd .running (ringDesc 1 1 384) with unitsLeft := 1 }
def slipPart : Dev := { base with cmds := [(0, slipRunning)], mem := block 384 slipArgs }
def poisoned : Dev := { base with poison := [(t2Base / 64, ())] }
/-- Die 0's memory retrains, and a COPY waits for it with a line to go. -/
def retraining : LongOp :=
  { kind := .retrain 1, index := 0x3000, field := 7, sess := 0, reqId := 0, transport := .bus, typ := 1, prot := false, started := 0 }
def heldCopy : Cmd := { cmd .running (ringDesc 1 0 64) with copyLeft := [(0, 0x3000)] }
def stallDev : Dev := { base with long := some retraining, cmds := [(0, heldCopy)] }

theorem witness_CopyAndSlipCommands :
    (Dispatches ((readyDev (ringDesc 1 0 64) (block 64 copyArgs)).advance 0) 1 0 0 (cmd .ready (ringDesc 1 0 64))
        ∧ (copyDev copyArgs).firstFault 3 0x1000 64 false = none ∧ copyOk ((copyDev copyArgs).jnat 3 0x1000 64) = true
        ∧ copyOk ((copyDev (copyArgs + 2 ^ 511)).jnat 3 0x1000 64) = false)
      ∧ ((base.xlate 3 0 false).isSome = true ∧ (base.xlate 3 0x3000 true).isSome = true ∧ base.badLine t2Base = false
        ∧ poisoned.badLine t2Base = true ∧ base.xlate 3 0x90000 false = none ∧ base.xlate 3 0x90000 true = none
        ∧ base.stalledAt t2Base = false ∧ stallDev.stalledAt t2Base = true ∧ (stallDev.advance 0).cmd? 0 = some heldCopy
        ∧ heldCopy.copyLeft ≠ [])
      ∧ (Dispatches ((slipReady slipArgs).advance 0) 1 1 0 (cmd .ready (ringDesc 1 1 384))
        ∧ ((slipReady slipArgs).advance 0).slipCanGo (cmd .ready (ringDesc 1 1 384)) = true
        ∧ (slipReady slipArgs).firstFault 3 0x1000 384 false = none
        ∧ 384 = ceilDiv (320 + 8 * fld ((slipReady slipArgs).jnat 3 0x1000 384) 128 16) 64 * 64
        ∧ slipPermitted job slipArgs = true ∧ slipArgsOk job slipArgs = true ∧ slipArgsOk job (slipArgs + 2 ^ 144) = false)
      ∧ slipPart.cmd? 0 = some slipRunning ∧ slipRunning.cls = 1 ∧ slipRunning.st = .running ∧ bit slipRunning.unitsLeft 0 = true
      ∧ slipPart.slotAllows slipRunning = true ∧ slipPart.slipFits 0 0 (fld (slipPart.slipArgs slipRunning) 512 2048) = true :=
  ⟨⟨dispatches _ _ _ _ (by decide +kernel), by decide +kernel, by decide +kernel, by decide +kernel⟩, by decide +kernel,
    ⟨dispatches _ _ _ _ (by decide +kernel), by decide +kernel, by decide +kernel, by decide +kernel, by decide +kernel,
      by decide +kernel, by decide +kernel⟩, by decide +kernel⟩

/-- A SEND of 64 bytes, a CONTRIBUTE of one local piece of 32 elements, a REDUCE by count of one member. -/
def sendArgs : Nat := 64 * 2 ^ 408
def contribArgs : Nat := 1 * 2 ^ 496 + 7 * 2 ^ 464 + (32 * 2 ^ 72 + 2 ^ 184) * 2 ^ 512
def reduceArgs : Nat := 7 * 2 ^ 480 + 2 ^ 431 + 1 * 2 ^ 423 + 1 * 2 ^ 407

/-- Shard 0: 32 FP32 elements at 0x3000 and 0x3080, armed for steps 6 and 7. -/
def shard : Nat := 0x3000 * 2 ^ 204 + 0x3080 * 2 ^ 152 + 32 * 2 ^ 120 + 2 ^ 103 + 6 * 2 ^ 64 + 7 * 2 ^ 32
def redJob : Job := { job with red := { RedJob.empty with shards := [(0, shard)] } }
def redDev (desc : Nat) (mem : List Host.Cell) (cat : Tbl Nat) : Dev :=
  { readyDev desc mem with jobs := [(3, redJob)], cat := cat }

theorem redDispatches (cls op : Nat) (desc : Nat) (mem : List Host.Cell) (cat : Tbl Nat)
    (h : ((redDev desc mem cat).advance 0).slotAllows (cmd .ready desc) = true
      ∧ ((redDev desc mem cat).advance 0).drained 0 (cmd .ready desc) = true
      ∧ ((redDev desc mem cat).advance 0).slotFree (cmd .ready desc) = true
      ∧ ((redDev desc mem cat).advance 0).entryFree (cmd .ready desc) = true
      ∧ ((redDev desc mem cat).advance 0).hasCapacity (cmd .ready desc) = true
      ∧ ((redDev desc mem cat).advance 0).served (cmd .ready desc) = true ∧ ((redDev desc mem cat).advance 0).isTurn (cmd .ready desc) = true
      ∧ (cmd .ready desc).cls = cls ∧ (cmd .ready desc).opcode = op) :
    Dispatches ((redDev desc mem cat).advance 0) cls op 0 (cmd .ready desc) :=
  by
  obtain ⟨h1, h2, h3, h4, h5, h6, h7, hc, ho⟩ := h
  exact ⟨rfl, rfl, hc, ho, rfl, rfl, h1, h2, h3, h4, h5, h6, h7⟩

def normCat : Tbl Nat := [(Cat.UPD_NORM_VA 3, 0x5000)]

theorem witness_CollectiveCommands :
    (Dispatches ((redDev (ringDesc 2 0 64) (block 64 sendArgs) []).advance 0) 2 0 0 (cmd .ready (ringDesc 2 0 64))
        ∧ ((redDev (ringDesc 2 0 64) (block 64 sendArgs) []).advance 0).collectiveFits (cmd .ready (ringDesc 2 0 64)) = true
        ∧ sendOk sendArgs = true ∧ sendOk (sendArgs + 2 ^ 52) = false ∧ sendOk (sendArgs + 0x90000) = true
        ∧ base.firstFault 3 0 64 false = none ∧ base.firstFault 3 0x90000 64 false = some 0x90000)
      ∧ (Dispatches ((redDev (ringDesc 2 1 96) (block 96 contribArgs) []).advance 0) 2 1 0 (cmd .ready (ringDesc 2 1 96))
        ∧ (opened (redDev (ringDesc 2 1 96) (block 96 contribArgs) []) 0x90).jnat 3 0x1000 96 = contribArgs
        ∧ (blockEntries contribArgs 64 32 1).all pieceOk = true ∧ fld contribArgs 0 460 = 0
        ∧ (blockEntries contribArgs 64 32 1).all redJob.localOk = true
        ∧ (blockEntries contribArgs 64 32 1).all job.localOk = false
        ∧ ∀ p ∈ blockEntries contribArgs 64 32 1, base.firstFault 3 (fld p 204 52) (fld p 72 32 * fmtBytes 0) false = none)
      ∧ (Dispatches ((redDev (ringDesc 2 2 64) (block 64 reduceArgs) normCat).advance 0) 2 2 0 (cmd .ready (ringDesc 2 2 64))
        ∧ reduceOk base reduceArgs = true ∧ reduceOk base (reduceArgs + 1) = false ∧ redJob.red.busy 7 = false
        ∧ (redDev (ringDesc 2 2 64) [] normCat).cget (Cat.UPD_NORM_VA 3) ≠ 0 ∧ bit reduceArgs 431 = true
        ∧ base.cget (Cat.UPD_NORM_VA 3) = 0)
      ∧ Tbl.find? redJob.red.shards 0 = some shard ∧ base.absent 3 = false
      ∧ ({ base with tt := { Timetable.reset with st := .held }, cat := [(Cat.TT_ANCHOR_JOB, 3)] } : Dev).absent 3 = true :=
  ⟨⟨redDispatches _ _ _ _ _ (by decide +kernel), by decide +kernel, by decide +kernel, by decide +kernel, by decide +kernel,
      by decide +kernel, by decide +kernel⟩,
    ⟨redDispatches _ _ _ _ _ (by decide +kernel), by decide +kernel, by decide +kernel, by decide +kernel, by decide +kernel,
      by decide +kernel, by decide +kernel⟩,
    ⟨redDispatches _ _ _ _ _ (by decide +kernel), by decide +kernel, by decide +kernel, by decide +kernel, by decide +kernel,
      by decide +kernel, by decide +kernel⟩, rfl, by decide +kernel⟩

/-- Step 6 closed at 100, with the default grace. -/
def closedJob : Job := { redJob with red := { redJob.red with closes := [(6, 100)] } }
def closedDev : Dev := { base with jobs := [(3, closedJob)] }

theorem witness_ContributionsAreDecidedByTheirStamp :
    shardArmed shard (shardBuf shard 6) = 6 ∧ shardArmed shard (shardBuf shard 7) = 7 ∧ shardArmed shard (shardBuf shard 8) ≠ 8
      ∧ Tbl.find? redJob.red.closes 6 = none ∧ Tbl.find? closedJob.red.closes 6 = some 100
      ∧ 101 ≤ 100 + closedDev.cget (Cat.RED_GRACE 3) ∧ Tbl.find? closedJob.red.closes 7 = none ∧ shardBuf1 shard ≠ 0
      ∧ ¬ (100 + closedDev.cget (Cat.RED_GRACE 3) + 1 ≤ 100 + closedDev.cget (Cat.RED_GRACE 3))
      ∧ ¬ (100 + closedDev.cget (Cat.RED_GRACE 3) + closedDev.cget Cat.TT_SETTLE ≤ closedDev.now)
      ∧ (elemsOf (fmtBytes 0) [0, 0, 0x80, 0x3F]).all (finiteElem 0) = true
      ∧ (elemsOf (fmtBytes 0) [0, 0, 0x80, 0x7F]).all (finiteElem 0) = false := by decide +kernel

def redRun : RedStep :=
  { cmd := 0, step := 6, byCount := true, vote := false, expect := 1, slot := 0, off := 0, deadline := 8192, start := 0 }
def vote : VoteSt := { VoteSt.empty with rootClose := some (100, true), fullAt := some 200 }
/-- Its one member is counted at an instant, or not yet. -/
def closingDev (full : Option Nat) : Dev :=
  { base with
    jobs := [(3, { redJob with red := { redJob.red with
      runs := [redRun], votes := [(6, vote)], awaiting := [(6, 300)], counted := full.toList.map fun t => (6, [(0, t)]) } })],
    cmds := [(0, cmd .running (ringDesc 2 2 64))] }
/-- A REDUCE that closes at its position in slot 0 of step 6, under way. -/
def positionRun : RedStep := { redRun with byCount := false, off := 40 }
def positionDev : Dev := { base with tt := { Timetable.reset with st := .running, step := 6, slotStart := 1000 } }

theorem witness_ReductionCloseVoteAndResult :
    (∀ f ∈ [none, some 8192, some 8193], ((closingDev f).cmd? 0 = some (cmd .running (ringDesc 2 2 64))
        ∧ ((closingDev f).job 3).red.runs.find? (fun x => x.cmd = 0) = some redRun
        ∧ (closingDev f).closeOf redRun 3 = some 8192 ∧ ((closingDev f).job 3).red.fullAt redRun = f))
      ∧ positionDev.closeOf positionRun 3 = some 1040
      ∧ Tbl.find? ((closingDev none).job 3).red.votes 6 = some vote ∧ (closingDev none).voteV 3 vote = some 200
      ∧ Tbl.find? ((closingDev none).job 3).red.awaiting 6 = some 300 :=
  ⟨of_all (p := fun _ => _ ∧ _ ∧ _ ∧ _) _ (by decide +kernel), by decide +kernel⟩

/-- A SWEEP of one entry of 64 elements under template 2 for step 7, with BF16 gradients. -/
def swHead : Nat := 7 * 2 ^ 256 + 2 * 2 ^ 200 + 1 * 2 ^ 64
def swEntry : Nat :=
  0x3000 * 2 ^ 460 + 0x4000 * 2 ^ 408 + 0x5000 * 2 ^ 252 + 0x6000 * 2 ^ 148 + 64 * 2 ^ 64 + 64 * 2 ^ 32 + 1 * 2 ^ 16 + 1 * 2 ^ 12
def sweepArgs : Nat := swHead + swEntry * 2 ^ 512
def sweepDev (cat : Tbl Nat) : Dev := redDev (ringDesc 3 0 128) (block 128 sweepArgs) cat
def sweepOpen (cat : Tbl Nat) (mem : List Host.Cell) : Dev :=
  opened { sweepDev cat with mem := (sweepDev cat).mem ++ mem } 0x90
def sweepCat (voteVa : Nat) : Tbl Nat :=
  [(Cat.UPD_NORM_COUNT 3, 1)] ++ if voteVa = 0 then [] else [(Cat.UPD_VOTE_VA 3, voteVa)]

theorem witness_SweepsAndTheirVote :
    Dispatches ((sweepDev (sweepCat 0)).advance 0) 3 0 0 (cmd .ready (ringDesc 3 0 128))
      ∧ (sweepOpen (sweepCat 0) []).jnat 3 0x1000 128 = sweepArgs ∧ swEntries sweepArgs = 1 ∧ swHeadOk sweepArgs = true
      ∧ swHeadOk (sweepArgs + 1) = false
      ∧ (blockEntries sweepArgs 64 64 1).all
          (swEntryOk ((sweepOpen (sweepCat 0) []).cget (Cat.UPD_NORM_COUNT 3)) sweepArgs) = true
      ∧ statesApart sweepArgs (blockEntries sweepArgs 64 64 1) = true ∧ swClipMode sweepArgs = 0 ∧ swTemplate sweepArgs = 2
      ∧ ((sweepOpen (sweepCat 0) []).applyStep 3 sweepArgs).sweepFault 3 sweepArgs (blockEntries sweepArgs 64 64 1) = none
      ∧ (∀ x ∈ blockEntries sweepArgs 64 64 1, enDir x = 0) ∧ (sweepOpen (sweepCat 0) []).cget (Cat.UPD_VOTE_VA 3) = 0
      ∧ (sweepOpen (sweepCat 0x7000) []).cget (Cat.UPD_VOTE_VA 3) = 0x7000 ∧ swDerive sweepArgs = false
      ∧ fld ((sweepOpen (sweepCat 0x7000) []).jnat 3 0x7000 64) 480 32 ≠ swStep sweepArgs
      ∧ fld ((sweepOpen (sweepCat 0x7000) [(t2Base + 0x703B, 0x80), (t2Base + 0x703C, 7)]).jnat 3 0x7000 64) 480 32 = swStep sweepArgs
      ∧ bit ((sweepOpen (sweepCat 0x7000) [(t2Base + 0x703B, 0x80), (t2Base + 0x703C, 7)]).jnat 3 0x7000 64) 479 = true :=
  ⟨redDispatches _ _ _ _ _ (by decide +kernel), by decide +kernel⟩

/-- A local GATHER of 64 bytes of step 7 by the directory at 0x3000 into 0x4000, its stamp to 0x5000; a remote one. -/
def gatherArgs (isLocal : Nat) : Nat :=
  0x4000 * 2 ^ 460 + isLocal * (0x3000 * 2 ^ 408 + 2 ^ 356) + 7 * 2 ^ 324 + 0x5000 * 2 ^ 272 + 64 * 2 ^ 224
def gatherOpen (isLocal : Nat) (mem : List Host.Cell) : Dev :=
  opened (readyDev (ringDesc 3 1 64) (block 64 (gatherArgs isLocal) ++ mem)) 0x90
def version : Version := { va := 0x6000, step := 7, stamp := 50 }

/-- An EXPORT of one row of 64 bytes at 0x3000 into the record at 0x4000, one dimension of 16 FP32 elements. -/
def exportArgs : Nat :=
  0x3000 * 2 ^ 972 + 0x4000 * 2 ^ 908 + 64 * 2 ^ 856 + 64 * 2 ^ 832 + 1 * 2 ^ 800 + 1 * 2 ^ 751 + 16 * 2 ^ 416 + 16 * 2 ^ 288
def exportDev (cls op : Nat) (mem : List Host.Cell) : Dev := readyDev (ringDesc cls op 128) (block 128 exportArgs ++ mem)

/-- A record's header: tenant 5, key generation 0, 64 bytes of ciphertext. -/
def recordHead : Nat := 5 * 2 ^ 992 + 64 * 2 ^ 752 + 16 * 2 ^ 320

theorem witness_GathersExportsAndImports :
    (Dispatches ((readyDev (ringDesc 3 1 64) (block 64 (gatherArgs 1))).advance 0) 3 1 0 (cmd .ready (ringDesc 3 1 64))
        ∧ (gatherOpen 1 []).jnat 3 0x1000 64 = gatherArgs 1 ∧ fld (gatherArgs 1) 0 224 = 0 ∧ fld (gatherArgs 1) 224 48 = 64
        ∧ bit (gatherArgs 1) 356 = true ∧ bit (gatherArgs 0) 356 = false ∧ fld (gatherArgs 0) 408 52 = 0
        ∧ (gatherOpen 1 []).firstFault 3 0x3000 64 false = none ∧ dirBytes ((gatherOpen 1 []).jnat 3 0x3000 64) ≠ 64
        ∧ dirBytes ((gatherOpen 1 [(t2Base + 0x3008, 64)]).jnat 3 0x3000 64) = 64
        ∧ base.firstFault 3 0x4000 64 true = none ∧ base.firstFault 3 0x5000 16 true = none)
      ∧ (base.firstFault 3 version.va 64 false = none ∧ version.step = fld (gatherArgs 1) 324 32)
      ∧ (Dispatches ((exportDev 6 0 []).advance 0) 6 0 0 (cmd .ready (ringDesc 6 0 128))
        ∧ (opened (exportDev 6 0 []) 0x90).jnat 3 0x1000 128 = exportArgs ∧ xpOk false exportArgs = true
        ∧ xpOk false (exportArgs + 1) = false ∧ (∀ r ∈ xpRows exportArgs, base.firstFault 3 r.1 r.2 false = none)
        ∧ base.firstFault 3 (xpRecord exportArgs) (rcBytes 64 (xpSign exportArgs)) true = none)
      ∧ Dispatches ((exportDev 6 1 []).advance 0) 6 1 0 (cmd .ready (ringDesc 6 1 128)) ∧ xpOk true exportArgs = true
      ∧ base.firstFault 3 (xpRecord exportArgs) 128 false = none
      ∧ base.firstFault 3 (xpRecord exportArgs) (rcBytes (rcLen recordHead) (rcSigned recordHead)) false = none
      ∧ rcTenant recordHead = 5 ∧ rcKeyGen recordHead = 0 ∧ dirOk 0 = true ∧ dirOk (2 ^ 512 - 1) = false
      ∧ importReason exportArgs recordHead 5 0 true false true = none
      ∧ importReason exportArgs recordHead 6 0 true false true = some 1
      ∧ importReason exportArgs recordHead 5 0 true false false = some 5
      ∧ ∀ w ∈ importWrites exportArgs recordHead [1], base.firstFault 3 w.1 w.2.length true = none :=
  ⟨⟨dispatches _ _ _ _ (by decide +kernel), by decide +kernel⟩, by decide +kernel,
    ⟨dispatches _ _ _ _ (by decide +kernel), by decide +kernel⟩, dispatches _ _ _ _ (by decide +kernel), by decide +kernel⟩

/-! ### Catalogue requests -/

/-- A channel that holds key slot 1. -/
def channel : Chan :=
  { handle := 9, ctr := 0, ctrOut := 0, slots := 2, conf := [], tr := [], keys := List.replicate 88 1 }

/-- A session on the rack bus: the owner's, with that channel. -/
def session : Session :=
  { transport := .bus, owner := true, chan := some channel, level := 1, lastAct := 0, challenge := none, quote := [], cached := none }

/-- The device is RUNNING, with that session. -/
def adminDev : Dev := { base with boot := { Boot.reset with state := 4, input := true }, sessions := [(0, session)] }

/-- The tag of a request under channel `c`, over its header and the value `v`. -/
def tagOf (c : Chan) (r : Req) (op index field : Nat) (v : List Byte) : List Byte :=
  (gcmSeal (c.key true) (c.iv true (c.ctr + 1)) (leBytes 32 (requestHeader r
    { chan := c.handle, ctr := c.ctr + 1, bulk := false, tag := [] } op index field v.length)) v).2

/-- The request with its protection. -/
def sealRq (c : Chan) (r : Req) (op index field : Nat) (v : List Byte) : Req :=
  { r with prot := some { chan := c.handle, ctr := c.ctr + 1, bulk := false, tag := tagOf c r op index field v } }

/-- What is left once the checks of a request of session `y` (its idle period begun anew) have passed: the channel has taken
its counter. -/
def usedSession (y : Session) (c : Chan) : Session := { y with chan := some { c with ctr := c.ctr + 1 } }
def passed (d : Dev) (r : Req) (y : Session) (c : Chan) : Dev := (d.setSession r.sess y).setSession r.sess (usedSession y c)

/-- The checks of R445 other than the tag's. -/
def headOk (d : Dev) (r : Req) (y : Session) (c : Chan) (write : Bool) (index field : Nat) : Bool :=
  y.chan = some c && d.long.isNone && (r.rsv = 0 && r.typ ≠ 0 && r.typ ≤ 13 && y.transport = r.transport)
    && (!d.boot.recovery || recoveryAllows write index field)
    && match catEntry index field with
      | some e => (match e.jobOf index with
          | none => true
          | some j => y.owner || (passed d r y c).holdsKey y j) && r.typ = e.ty.code
      | none => false

theorem header_sealed (r : Req) (p q : Prot) (t : Option Prot) (op index field n : Nat) (hb : q.bulk = p.bulk)
    (hc : q.chan = p.chan) (hd : q.ctr = p.ctr) :
    requestHeader { r with prot := t } q op index field n = requestHeader r p op index field n := by
  unfold requestHeader; rw [hb, hc, hd]

theorem seal_verifies (c : Chan) (r : Req) (op index field : Nat) (v : List Byte) (t : Option Prot) (x : List Byte)
    (hx : x = tagOf c r op index field v) :
    c.verifies { r with prot := t } { chan := c.handle, ctr := c.ctr + 1, bulk := false, tag := x } op index field v = true := by
  unfold Chan.verifies
  rw [header_sealed r { chan := c.handle, ctr := c.ctr + 1, bulk := false, tag := [] }
    { chan := c.handle, ctr := c.ctr + 1, bulk := false, tag := x } t op index field v.length rfl rfl rfl,
    decide_eq_true_eq, hx, tagOf]

theorem prot_passes (d : Dev) (r : Req) (y : Session) (c : Chan) (op index field : Nat) (v : List Byte)
    (hc : y.chan = some c) :
    d.checkProt (sealRq c r op index field v) y op index field v = (d.setSession r.sess (usedSession y c), true) := by
  have hv := seal_verifies c r op index field v
    (some { chan := c.handle, ctr := c.ctr + 1, bulk := false, tag := tagOf c r op index field v }) _ rfl
  unfold sealRq usedSession
  generalize tagOf c r op index field v = x at hv ⊢
  simp only [Dev.checkProt, hc, hv, decide_true, Bool.and_true, if_true]

theorem checkSession_passes (d : Dev) (r : Req) (y : Session) (c : Chan) (write : Bool) (index field : Nat) (v : List Byte)
    (h : headOk d r y c write index field = true) :
    d.checkSession (sealRq c r (b2n write) index field v) y write index field v = (passed d r y c, none) := by
  simp only [headOk, Bool.and_eq_true, decide_eq_true_eq, Option.isNone_iff_eq_none] at h
  obtain ⟨⟨⟨⟨hc, hl⟩, ⟨⟨hr, h1⟩, h13⟩, ht⟩, hrec⟩, he⟩ := h
  have hp := prot_passes (d.setSession r.sess y) r y c (b2n write) index field v hc
  unfold Dev.checkSession
  generalize hq : sealRq c r (b2n write) index field v = q at hp ⊢
  have e1 : q.sess = r.sess := by rw [← hq]; rfl
  have e3 : q.rsv = r.rsv := by rw [← hq]; rfl
  have e4 : q.typ = r.typ := by rw [← hq]; rfl
  have e5 : q.transport = r.transport := by rw [← hq]; rfl
  have hrec' : (d.boot.recovery && !recoveryAllows write index field) = false := by
    cases hx : d.boot.recovery <;> cases hy : recoveryAllows write index field <;> simp_all
  have hlong : (d.setSession r.sess y).long = none := hl
  have hboot : (d.setSession r.sess y).boot = d.boot := rfl
  simp only [e1, e3, e4, e5, hlong, hr, ht, hboot, hrec', hp]
  cases hent : catEntry index field with
  | none => simp [hent] at he
  | some e =>
    simp only [hent, Bool.and_eq_true, decide_eq_true_eq] at he
    rw [if_neg (by simp), if_neg (by simpa using ⟨h1, h13⟩), if_neg (by simp), if_neg (by simp)]
    exact (if_neg (by rw [Bool.not_eq_true', Bool.not_eq_false]; exact he.1)).trans (if_neg (not_not_intro he.2))

theorem checkHead_passes (d : Dev) (r : Req) (s : Session) (c : Chan) (write : Bool) (index field : Nat) (v : List Byte)
    (hs : d.session? r.sess = some s) (h : headOk d r (d.touch s r.at_) c write index field = true) :
    d.checkHead (sealRq c r (b2n write) index field v) write index field v = (passed d r (d.touch s r.at_) c, none) := by
  have hp := checkSession_passes d r (d.touch s r.at_) c write index field v h
  have hs' : d.session? (sealRq c r (b2n write) index field v).sess = some s := hs
  unfold Dev.checkHead
  rw [hs']
  exact hp

/-- Whether `Admits` holds for the request of session `y` under its channel. -/
def admitted (d : Dev) (r : Req) (y : Session) (c : Chan) (index field : Nat) (v : List Byte) (w : Writer) (own : Dev → Bool) :
    Bool :=
  let e1 := passed d r y c
  d.transportUp r.transport && headOk d r y c true index field &&
    match catEntry index field with
    | some e => e.acc ≠ .read && !e1.onceWritten e && e1.mayWrite (usedSession y c) { r with prot := some default } e index field w
        && (!e.expert || y.level ≠ 0) && e.valueOk v && own e1
    | none => false

theorem admits_in {d : Dev} {r : Req} {y : Session} {c : Chan} {index field : Nat} {v : List Byte} {w : Writer} {own : Dev → Bool}
    (hp : headOk d r y c true index field = true →
      d.checkHead (sealRq c r 1 index field v) true index field v = (passed d r y c, none))
    (h : admitted d r y c index field v w own = true) :
    Admits d (sealRq c r 1 index field v) index field v w own (passed d r y c) := by
  simp only [admitted, Bool.and_eq_true] at h
  obtain ⟨⟨ht, hh⟩, hm⟩ := h
  refine ⟨ht, hp hh, ?_⟩
  have hx : (passed d r y c).session? r.sess = some (usedSession y c) := by
    unfold passed Dev.session? Dev.setSession; exact Tbl.find?_set_self _ _ _
  split at hm
  · rename_i e he
    simp only [Bool.and_eq_true, decide_eq_true_eq, Bool.not_eq_true', Bool.or_eq_true] at hm
    obtain ⟨⟨⟨⟨⟨h1, h2⟩, h3⟩, h4⟩, h5⟩, h6⟩ := hm
    exact ⟨_, e, hx, he, h1, h2, h3, fun hx => h4.resolve_left (by simp [hx]), h5, h6⟩
  · cases hm

theorem admits_of {d : Dev} {r : Req} {s : Session} {c : Chan} {index field : Nat} {v : List Byte} {w : Writer} {own : Dev → Bool}
    (hs : d.session? r.sess = some s) (h : admitted d r (d.touch s r.at_) c index field v w own = true) :
    ∃ d1, Admits d (sealRq c r 1 index field v) index field v w own d1 :=
  ⟨_, admits_in (checkHead_passes d r s c true index field v hs) h⟩

/-- A request on this transport with the type code of the entry. -/
def bareRq (t : Transport) (index field : Nat) : Req :=
  { req with transport := t, typ := ((catEntry index field).map (·.ty.code)).getD 0 }

/-- A protected write and a protected read on the rack bus. -/
def rq (index field : Nat) (v : List Byte) : Req := sealRq channel (bareRq .bus index field) 1 index field v
def rd (index field : Nat) : Req := sealRq channel (bareRq .bus index field) 0 index field []

def admitsAt (d : Dev) (index field : Nat) (v : List Byte) (w : Writer) (own : Dev → Bool) : Prop :=
  ∃ d1, Admits (d.advance 0) (rq index field v) index field v w own d1

/-- Session 0 is `session`, and everything but its tag admits the write. -/
def admittedAt (d : Dev) (index field : Nat) (v : List Byte) (w : Writer) (own : Dev → Bool) : Bool :=
  (d.advance 0).session? 0 = some session
    && admitted (d.advance 0) (bareRq .bus index field) ((d.advance 0).touch session 0) channel index field v w own

theorem admits_at {d : Dev} {index field : Nat} {v : List Byte} {w : Writer} {own : Dev → Bool}
    (h : admittedAt d index field v w own = true) : admitsAt d index field v w own := by
  simp only [admittedAt, Bool.and_eq_true, decide_eq_true_eq] at h
  exact admits_of h.1 h.2

theorem witness_CatalogueChecksInOrder :
    (base.session? 0 = none ∧ adminDev.session? 0 = some session ∧ (req.prot = none ∧ req.rsv = 0 ∧ 1 ≤ req.typ ∧ req.typ ≤ 13)
        ∧ ¬ session.transport = req.transport ∧ recoveryAllows true 0xA010 5 = true ∧ recoveryAllows true 0xA010 0 = false
        ∧ (catEntry 0xFFFF 0).isNone = true ∧ ((catEntry 0x2103 2).bind (·.jobOf 0x2103)) = some 3
        ∧ adminDev.holdsKey { session with owner := false } 3 = true ∧ adminDev.holdsKey { session with owner := false } 4 = false)
      ∧ (adminDev.advance 0).transportUp .bus = true
      ∧ (catEntry 0x5000 0).map (·.acc) = some .read
      ∧ (∀ p ∈ [(0x5000, 0), (0x5011, 1)], headOk (adminDev.advance 0) (bareRq .bus p.1 p.2) ((adminDev.advance 0).touch session 0)
          channel true p.1 p.2 = true)
      ∧ (catEntry 0x5011 1).map (fun e => adminDev.mayWrite session (bareRq .bus 0x5011 1) e 0x5011 1 .byTable) = some true
      ∧ (catEntry 0x5011 1).map (fun e => adminDev.mayWrite { session with owner := false } (bareRq .bus 0x5011 1) e 0x5011 1 .byTable)
          = some false
      ∧ (catEntry 0x5011 1).map (fun e => e.valueOk [0, 0]) = some false := by decide +kernel

def boxDev : Dev :=
  { adminDev with hosts := [(0, { HostPort.empty with mboxes := [(7, { Mailbox.empty with irqEn := true, vector := 3 })] })] }

theorem witness_AnswersAreCountedAndSent :
    (Tbl.getD (boxDev.host 0).mboxes 7 Mailbox.empty).irqEn = true ∧ boxDev.session? 0 = some session ∧ session.chan = some channel
      ∧ bit (Tbl.getD (boxDev.host 0).msix 3 msixReset) 96 = true ∧ (List.replicate 4064 (0 : Byte)).length ≤ 4064
      ∧ (List.replicate 4048 (0 : Byte)).length ≤ 4048 :=
  ⟨by decide +kernel, by decide +kernel, rfl, by decide +kernel, by rw [List.length_replicate], by rw [List.length_replicate]⟩

/-- Job 3 in another state. -/
def jobDev (st : JobState) : Dev := { adminDev with jobs := [(3, { job with st := st })] }

/-- A CREATED job whose quota asks for more scratch than a group has. -/
def noGrant : Dev := { jobDev .created with blob := [(Cat.MEM_QUOTA_T1 3, leBytes 32 (65 * 2 ^ 150))] }

theorem grants_none : noGrant.grantT1 3 = none := by
  have h (want : Nat) (taken : List (Nat × Nat)) :
      commonOffset scratchSpan (q1Scratch (noGrant.t1Quota 3)) want taken = none := by
    rw [show q1Scratch (noGrant.t1Quota 3) = 0x410000 by decide +kernel]
    have hn (o : Nat) : decide (o + 0x410000 ≤ scratchSpan) = false := by
      unfold scratchSpan; exact decide_eq_false (by omega)
    unfold commonOffset
    simp [hn]
  unfold Dev.grantT1
  simp only [h, ite_self]

theorem witness_JobControl :
    (∀ v ∈ [1, 2, 3], admitsAt (jobDev .stopped) 0x2103 2 (leBytes 1 v) .byTable (fun _ => 3 < 16))
      ∧ ((jobDev .stopped).job 3).isStopped = true ∧ ((jobDev .running).job 3).isStopped = false
      ∧ (jobDev .stopped).statTableOk 3 = true ∧ (jobDev .stopped).traceRingsOk 3 = true
      ∧ (jobDev .stopped).updateTablesOk 3 = true ∧ (jobDev .stopped).placementOn 3 = false
      ∧ (jobDev .stopped).shardTableOk 3 = true ∧ ((jobDev .teardown).job 3).st = .teardown ∧ (jobDev .teardown).regionsOf 3 = 0
      ∧ (noGrant.job 3).st = .created ∧ noGrant.grantT1 3 = none := by
  refine ⟨fun v hv => admits_at ?_, by decide +kernel, by decide +kernel, by decide +kernel, by decide +kernel,
    by decide +kernel, by decide +kernel, by decide +kernel, by decide +kernel, by decide +kernel, rfl, grants_none⟩
  revert v
  exact of_all (p := fun v => admittedAt _ _ _ (leBytes 1 v) _ _ = true) _ (by decide +kernel)

/-- Ring 1 of job 3 in another state. -/
def ringDev (st : RingState) (halted : Option Nat) (js : JobState) : Dev :=
  { jobDev js with rings := [(193, { ring with st := st, haltedCmds := halted.toList })] }
def ringRec : List Byte := leBytes 16 (6 * 2 ^ 52 + 6 * 2 ^ 57 + 0x4000 * 2 ^ 64)

theorem witness_RingsAreConfiguredAndControlled :
    admitsAt (jobDev .stopped) 0x22C1 0 ringRec .byTable
        (fun d => 3 < 16 && 1 < 64 && d.ringRecOk 3 ringRec)
      ∧ (∀ v ∈ [1, 2, 3], admitsAt adminDev 0x22C1 2 (leBytes 1 v) .byTable (fun _ => 3 < 16 && 1 < 64))
      ∧ ((ringDev .stopped none .running).ring 3 1).st = .stopped ∧ ((ringDev .halted (some 0) .running).ring 3 1).st = .halted
      ∧ (ringDev .halted (some 0) .running).cmd? 0 = some running ∧ (adminDev.ring 3 1).st = .active
      ∧ (adminDev.ring 3 2).st = .idle ∧ ((ringDev .stopped none .stopped).job 3).isStopped = true
      ∧ (∀ j ∈ [15, 0xFF], admitsAt adminDev 0x7010 4 (leBytes 2 (1 % 256 + 256 * j)) .anyProtected
        (fun _ => 1 < 64 && (j < 16 || j = 0xFF)))
      ∧ adminDev.holdsSlot { bareRq .bus 0x7010 4 with prot := some default } 1 = true
      ∧ adminDev.holdsSlot { bareRq .bus 0x7010 4 with prot := some default } 2 = false
      ∧ adminDev.freeJob 0xFF = some 0 ∧ adminDev.freeJob 3 = none := by
  refine ⟨admits_at (by decide +kernel), fun v hv => admits_at ?_, by decide +kernel, by decide +kernel, by decide +kernel,
    by decide +kernel, by decide +kernel, by decide +kernel, fun j hj => admits_at ?_, by decide +kernel⟩
  · revert v
    exact of_all (p := fun v => admittedAt _ _ _ (leBytes 1 v) _ _ = true) _ (by decide +kernel)
  · revert j
    exact of_all (p := fun j => admittedAt adminDev 0x7010 4 (leBytes 2 (1 % 256 + 256 * j)) .anyProtected (fun _ => 1 < 64 && (j < 16 || j = 0xFF)) = true)
      [15, 0xFF] (by decide +kernel)

/-! ### Time -/

def master : Announce :=
  { domain := 0, prio1 := 0, clockClass := 6, accuracy := 0, variance := 0, prio2 := 0, gm := 5, src := 5, lost := false }

/-- A timebase in a state, at 10^9 units, with a master. -/
def timeDev (st : TbState) : Dev :=
  { adminDev with now := 1000000000, tb := { Timebase.reset with st := st, master := some master, lastSync := 900000000, lockRun := 15 } }

theorem witness_TimebaseFollowsItsMaster :
    (∀ st ∈ [TbState.freeRun, .acquiring, .locked, .holdover],
        (timeDev st).tb.gm = false ∧ (timeDev st).tb.master = some master ∧ (timeDev st).tb.st = st)
      ∧ master.src = 5 ∧ (timeDev .locked).cget Cat.PTP_TIMING_PORT < 8 ∧ (timeDev .locked).cget Cat.PTP_DOMAIN = master.domain
      ∧ (ptpCount 0 0).isNone = true ∧ (ptpCount 2000000000 0).isSome = true
      ∧ ({ timeDev .locked with tb := { (timeDev .locked).tb with asked := true } } : Dev).tb.asked = true
      ∧ (timeDev .locked).cget Cat.PTP_DELAY_MECH = 0
      ∧ (timeDev .locked).cget Cat.TB_LOCK_WINDOW ≤ (timeDev .locked).cget Cat.TB_STEP_THRESH
      ∧ (timeDev .locked).cget Cat.PTP_SLAVE_ONLY = 0 := ⟨by decide +kernel, by decide +kernel⟩

theorem witness_TimebaseTimesOutAndIsSet :
    (timeDev .locked).tb.st = .locked ∧ (timeDev .locked).tb.gm = false ∧ (timeDev .acquiring).tb.st = .acquiring
      ∧ (timeDev .holdover).tb.st = .holdover ∧ (timeDev .freeRun).tt.st ≠ .running
      ∧ admitsAt (timeDev .freeRun) 0x5801 0 (leBytes 8 (2 ^ 64 - 1)) .byTable
          (fun _ => 2 ^ 64 - 1 < 2 ^ 64)
      ∧ admitsAt (timeDev .locked) 0x5001 7 (leBytes 1 1) .byTable (fun _ => 1 < 2) :=
  ⟨rfl, rfl, rfl, rfl, by decide, admits_at (by decide +kernel), admits_at (by decide +kernel)⟩

/-- An image of one stage of one slot, its phase open. -/
def ttImage : TtImage := { stepLen := 1000, stages := [[{ len := 1000, firm := 500, phase := 0, slackOpen := true },
  { len := 1000, firm := 500, phase := 0, slackOpen := true }]], bytes := [] }
def ttDev (st : TtState) (slotSt : SlotState) : Dev :=
  { timeDev .locked with tt := { Timetable.reset with
      st := st, image := some ttImage, wrStage := true, wrEpoch := true, wrFirst := true, wrAnchor := true, slotSt := slotSt } }
/-- The last step lies before the first. -/
def contraDev : Dev := { ttDev .loaded .waiting with cat := [(Cat.TT_FIRST_STEP, 8), (Cat.TT_LAST_STEP, 7)] }

theorem witness_TimetableEntriesArmIt :
    (parseImage []).isNone = true
      ∧ (∀ p ∈ [(1, 1), (3, 8), (4, 4), (5, 1), (6, 4)], admitsAt (ttDev .loaded .waiting) 0x5011 p.1
          (leBytes p.2 0) .byTable (fun _ => true))
      ∧ admitsAt (timeDev .locked) 0x5011 0 [] .byTable (fun _ => true)
      ∧ ((ttDev .loaded .waiting).tt.st = .loaded ∧ (ttDev .loaded .waiting).tt.allWritten = true
        ∧ (ttDev .loaded .waiting).stageOk = true ∧ (ttDev .loaded .waiting).lastOk = true)
      ∧ contraDev.tt.allWritten = true ∧ contraDev.stageOk = true ∧ contraDev.lastOk = false := by
  refine ⟨by decide +kernel, fun p hp => admits_at ?_, admits_at (by decide +kernel), by decide +kernel⟩
  revert p
  exact of_all (p := fun p : Nat × Nat => admittedAt (ttDev .loaded .waiting) 0x5011 p.1 (leBytes p.2 0)
    .byTable (fun _ => true) = true) [(1, 1), (3, 8), (4, 4), (5, 1), (6, 4)] (by decide +kernel)

theorem witness_TimetableControl :
    (∀ v ∈ [1, 2, 3], admitsAt (ttDev .running .firm) 0x5011 7 (leBytes 1 v) .byTable (fun _ => true))
      ∧ (ttDev .running .firm).tt.st = .running ∧ (ttDev .held .waiting).tt.st = .held
      ∧ (ttDev .loaded .waiting).tt.st = .loaded ∧ (ttDev .armed .waiting).tt.st = .armed ∧ (ttDev .held .waiting).tb.st = .locked := by
  refine ⟨fun v hv => admits_at ?_, rfl, rfl, rfl, rfl, rfl⟩
  revert v
  exact of_all (p := fun v => admittedAt _ _ _ (leBytes 1 v) _ _ = true) _ (by decide +kernel)

def rejoinDev (last : Nat) : Dev :=
  let d := ttDev .armed .waiting
  { d with tt := { d.tt with rejoin := true }, cat := [(Cat.TT_LAST_STEP, last)] }
/-- A firm command of the anchor job, job 0, runs. -/
def firmDev (slotSt : SlotState) : Dev :=
  { ttDev .running slotSt with cmds := [(0, { cmd .running (ringDesc 5 0 0) with job := 0, firm := true })] }

theorem witness_SlotsStartEndAndClose :
    ((ttDev .armed .waiting).tt.st = .armed ∧ (ttDev .armed .waiting).tt.rejoin = false ∧ (ttDev .armed .waiting).tb.st = .locked
        ∧ (ttDev .armed .waiting).ttPeersAgree = true)
      ∧ ((rejoinDev 0).tt.rejoin = true ∧ (rejoinDev 0).ttPeersAgree = true ∧ (rejoinDev 0).cget Cat.TT_LAST_STEP = 0
        ∧ 0 < (rejoinDev 0).now ∧ (rejoinDev 0).domainEpoch = 0 ∧ (rejoinDev 0).stepLen = 1000)
      ∧ (ttDev .running .waiting).tt.slotSt = .waiting ∧ (ttDev .running .firm).tt.slotSt = .firm
      ∧ (ttDev .running .firm).firmRunning = false ∧ (firmDev .firm).firmRunning = true
      ∧ (∀ st ∈ [SlotState.slack, .overrun], let d := firmDev st
          ((d.advance (max d.now d.plannedEnd)).parkFiller).firmRunning = true)
      ∧ (((ttDev .running .slack).advance (max (ttDev .running .slack).now (ttDev .running .slack).plannedEnd)).parkFiller).firmRunning
          = false
      ∧ (ttDev .running .slack).tt.slot + 1 < (ttDev .running .slack).slots.length := by
  refine ⟨by decide +kernel, by decide +kernel, by decide +kernel, by decide +kernel, by decide +kernel, by decide +kernel,
    of_all (p := fun st => Dev.firmRunning _ = true) _ (by decide +kernel), by decide +kernel, by decide +kernel⟩

/-! ### Power, heat and the Cuff -/

/-- PWR_GOOD is high and the device RUNNING. -/
def liveDev : Dev := { adminDev with pins := { Pins.reset with pwrGood := true }, boot := { Boot.reset with state := 4, rails := 2 ^ 16 - 1 } }
def withDie (k : Nat) (x : DiePower) : Dev := { liveDev with power := { liveDev.power with dies := Tbl.set liveDev.power.dies k x } }
def dieAt (entry : Nat) : DiePower :=
  { entry := entry, target := none, riseAt := 0, above := 0, lead := false, capD := 8, capEntry := 0, capAt := 0, thermEntry := 0, thermAt := 0 }

/-- A sample with these powers. -/
def cap (power : Nat) (forecast : List Nat) : PowerSample :=
  { at_ := 0, power := power, rails := List.replicate 16 0, forecast := forecast, railForecast := [] }

theorem witness_PhasesEntriesAndCap :
    (liveDev.released = true ∧ base.released = false)
      ∧ ((ttDev .running .firm).tt.st = .running ∧ (ttDev .running .firm).released = true)
      ∧ (((withDie 8 { dieAt 3 with target := some 1 }).die 8).target = some 1 ∧ (dieAt 3).lead = false ∧ (withDie 8 (dieAt 3)).stretched 8 = false
        ∧ liveDev.pins.pwrGood = true ∧ base.pins.pwrGood = false)
      ∧ (liveDev.nv.hours = 0 ∧ (0 : Nat) < 1)
      ∧ (2 < (liveDev.die 0).capD ∧ ((withDie 0 { dieAt 3 with capD := 2 }).die 0).capD ≤ 2
        ∧ (withDie 0 { dieAt 3 with capD := 2 }).wantedEntry 0 < 15)
      ∧ ((liveDev.advance 0).powerOk ((liveDev.advance 0).gained 16 (cap 0 []).power) (some ((liveDev.advance 0).cget Cat.PWR_RAISE_MARGIN * 1000))
          = true
        ∧ (∀ r ∈ List.range 16, (liveDev.advance 0).railOk r ((liveDev.advance 0).gained r 0) = true)
        ∧ (liveDev.advance 0).powerOk ((liveDev.advance 0).gained 16 10000000) (some ((liveDev.advance 0).cget Cat.PWR_RAISE_MARGIN * 1000))
          = false)
      ∧ (0 < ((withDie 8 { dieAt 3 with capEntry := 5 }).die 8).capEntry ∧ ((withDie 8 { dieAt 3 with capD := 7 }).die 8).capD < 8
        ∧ ∀ k ∈ List.range 9, (liveDev.die k).capEntry = 0 ∧ 8 ≤ (liveDev.die k).capD)
      ∧ 16 < liveDev.power.gains.length := by decide +kernel

/-- Temperatures of the 66 sensors, all `t`. -/
def temps (t : Int) : List Int := List.replicate 66 t
def trainedDev : Dev := { ttDev .running .firm with mem3 := { corrected := [], trained := [(0, 30)], due := [], patrolAt := [] } }
def droopDev : Dev := { liveDev with power := { liveDev.power with droops := [(11, (0, 40))] } }
def cuffDev (wave : Nat) : Dev := { liveDev with power := { liveDev.power with cuffOn := true, cuffWave := wave } }
def rampDev (r : EngineRamp) : Dev :=
  { liveDev with units := [(0, { ExecUnit.empty with engines := [(0, { Engine.empty with ramp := r, rampAt := 5 })] })] }

theorem witness_HeatDroopAndCuff :
    (liveDev.boot.rails % 2 ^ 15 ≠ 0 ∧ base.boot.rails % 2 ^ 15 = 0 ∧ tripSensor (temps 115) = some 0
        ∧ tripSensor (temps 104) = none ∧ dieTemps (temps 104) 8 ≠ [] ∧ packageTemps (temps 95) 7 ≠ []
        ∧ (liveDev.cget Cat.THERM_THROTTLE_C : Int) ≤ hottest (dieTemps (temps 104) 0)
        ∧ (liveDev.die 0).thermEntry = 0 ∧ (withDie 0 (dieAt 3)).wantedEntry 0 < 15)
      ∧ (trainedDev.tt.st = .running ∧ Tbl.find? trainedDev.mem3.trained 0 = some 30
        ∧ 20 < (hottest (dieTemps (temps 51) 1) - 30).natAbs ∧ 0 ∉ trainedDev.mem3.due)
      ∧ (liveDev.cget Cat.DROOP_THRESH < 1000 ∧ Tbl.find? liveDev.power.droops 11 = none
        ∧ Tbl.find? droopDev.power.droops 11 = some (0, 40))
      ∧ ((cuffDev 7).power.cuffOn = true ∧ (cuffDev 7).power.cuffWave < 8 ∧ 8 ≤ (cuffDev 8).power.cuffWave
        ∧ liveDev.power.cuffOn = false)
      ∧ ((rampDev .quarter).engine 0 0).ramp = .quarter ∧ ((rampDev .half).engine 0 0).ramp = .half
      ∧ ((rampDev .held).engine 0 0).ramp = .held := by decide +kernel

/-! ### Reset and start-up -/

def bootDev (b : Boot) : Dev := { base with boot := b }
def resetting (cause : Nat) : Dev := bootDev { Boot.reset with pendingReset := some (cause, 80000000) }
def installing : Dev :=
  { base with long := some { kind := .fwInstall [] true, index := 0x7020, field := 0, sess := 0, reqId := 0, transport := .bus,
                             typ := 13, prot := false, started := 0 } }

theorem witness_ResetsAndWhatTheyLeave :
    ((bootDev { Boot.reset with input := true }).boot.input = true ∧ Dev.reset.boot.input = false ∧ base.boot.modRstN = true
        ∧ (bootDev { Boot.reset with modRstN := false }).boot.modRstN = false)
      ∧ ((bootDev { Boot.reset with tripped := true, pulsed := true, input := true }).boot.tripped = true
        ∧ (bootDev { Boot.reset with tripped := true, pulsed := true, input := true }).boot.modRstN = true)
      ∧ admitsAt adminDev 0x1001 4 (leBytes 1 0xA5) .byTable (fun _ => true)
      ∧ (resetting 3).boot.pendingReset = some (3, 80000000) ∧ (resetting 5).boot.pendingReset = some (5, 80000000)
      ∧ base.boot.pendingReset = none ∧ (installing.long.map (·.kind)) = some (.fwInstall [] true) ∧ base.long = none :=
  ⟨by decide +kernel, by decide +kernel, admits_at (by decide +kernel), rfl, rfl, rfl, rfl, rfl⟩

/-- The first 64 bytes of SHAKE256 of the empty message (FIPS 202's published value), the first byte lowest. -/
def emptyDigest : Nat :=
  0xbec4b7b3ac2e294086b49a47491c82fcf692b5679d0105cb00f2c0d8ddc45dd72f76d56e64270cb5821bb862ea52cd3f24eb3e74eb3f3b23138da80b2bddb946

theorem test_shake : leNat (shake256 [] 64) = emptyDigest := by decide +kernel

/-- A signed image of SVN 1 with an empty body, whose digest its header holds. -/
def image (kind : Nat) : FwImage :=
  { header := leBytes 128 (0x43583146 * 2 ^ 992 + kind * 2 ^ 984 + 1 * 2 ^ 960 + emptyDigest * 2 ^ 320),
    body := [], sig := List.replicate 1536 0, sigOk := true }
def images : List FwImage := [image 1, image 2, image 3, image 4]

/-- Each image stands in its place, and is valid while no key is revoked and no SVN is fused. -/
theorem images_banked (nv : NvStore) (hr : nv.revoked = 0) (hf : nv.svnFused = 0) :
    ∀ k ∈ [1, 2, 3, 4], bankImage nv images k = some (image k) := by
  have h : ∀ k ∈ [1, 2, 3, 4], imageWhole (image k) = true ∧ imageMagic (image k) = 0x43583146 ∧ imageKind (image k) = k
      ∧ imageRsv (image k) = false ∧ imageKey (image k) = 0 ∧ imageDigest (image k) = emptyDigest ∧ imageSvn (image k) = 1 :=
    of_all (p := fun k => _ ∧ _ ∧ _ ∧ _ ∧ _ ∧ _ ∧ _) _ (by decide +kernel)
  intro k hk
  obtain ⟨h1, h2, h3, h4, h5, h6, h7⟩ := h k hk
  have hb : (image k).body = [] := rfl
  have hs : (image k).sigOk = true := rfl
  have hp : images[k - 1]? = some (image k) := by
    simp only [List.mem_cons, List.not_mem_nil, or_false] at hk
    rcases hk with rfl | rfl | rfl | rfl <;> rfl
  have hv : imageValid nv k (image k) = true := by
    unfold imageValid
    rw [h1, h2, h3, h4, h5, h6, h7, hb, hs, test_shake, hr, hf, decide_eq_true rfl, decide_eq_true rfl, decide_eq_true rfl]
    rfl
  unfold bankImage
  rw [hp]
  exact if_pos hv

def rising (rails state : Nat) : Dev := bootDev { Boot.reset with input := true, rails := rails, state := state, step := 1 }
def staged (state bank : Nat) (fallback : Bool) : Dev :=
  { bootDev { Boot.reset with input := true, rails := 2 ^ 16 - 1, state := state, bank := bank, fallback := fallback } with
    nv := { NvStore.fresh with bank0 := images, bank1 := [] } }

theorem witness_StartUpRunsTheGauntlet :
    (railOrder.find? (fun r => !bit (rising 0 0).boot.rails r) = some 15
        ∧ railOrder.find? (fun r => !bit (rising (2 ^ 15) 0).boot.rails r) ≠ some 15
        ∧ railOrder.find? (fun r => !bit (rising (2 ^ 16 - 2) 0).boot.rails r) = some 0
        ∧ railOrder.find? (fun r => !bit (rising (2 ^ 16 - 1) 0).boot.rails r) = none
        ∧ (rising (2 ^ 16 - 2) 0).boot.modRstN = true ∧ (rising (2 ^ 16 - 2) 0).boot.tripped = false)
      ∧ ((staged 1 0 false).boot.state = 1 ∧ (staged 1 0 false).boot.pos ≠ 0x7F
        ∧ bankImage (staged 1 1 true).nv ((staged 1 1 true).nv.bank 1) 1 = none
        ∧ (bootDev { Boot.reset with state := 1, pos := 0x7F }).boot.pos = 0x7F)
      ∧ ((staged 2 0 false).boot.state = 2
        ∧ (([2, 3, 4] : List Nat).filterMap fun k => bankImage (staged 2 1 true).nv ((staged 2 1 true).nv.bank 1) k).length = 0)
      ∧ (staged 3 0 false).boot.state = 3 ∧ (staged 3 0 false).boot.ready < 2
      ∧ 2 ≤ (bootDev { Boot.reset with state := 3, ready := 2 }).boot.ready
      ∧ bankImage (staged 1 0 false).nv ((staged 1 0 false).nv.bank 0) 1 = some (image 1)
      ∧ (([2, 3, 4] : List Nat).filterMap fun k => bankImage (staged 2 0 false).nv ((staged 2 0 false).nv.bank 0) k).length = 3 := by
  have h (st : Nat) : ∀ k ∈ [1, 2, 3, 4], bankImage (staged st 0 false).nv ((staged st 0 false).nv.bank 0) k = some (image k) :=
    images_banked _ rfl rfl
  refine ⟨by decide +kernel, by decide +kernel, by decide +kernel, by decide +kernel, by decide +kernel, by decide +kernel,
    h 1 1 (by decide), ?_⟩
  simp only [List.filterMap_cons, List.filterMap_nil, h 2 2 (by decide), h 2 3 (by decide), h 2 4 (by decide)]
  rfl

/-! ### Steps, sessions and host ports -/

theorem witness_PinsShowTheStateAfterEveryStep :
    State.reset.pinsAgree = true ∧ ({ State.reset with pending := [.roll 0] } : State).pending ≠ [] ∧ State.reset.dev.quiet = true := by
  refine ⟨by decide +kernel, nofun, by decide +kernel⟩

/-- A request on the rack bus that names no entry. -/
def bare : Req := { req with transport := .bus, typ := 0 }
/-- The device has no owner key, is not on the rack bus, and its service session is not yet the owner's. -/
def serviceSession : Session := { session with transport := .service, owner := false, challenge := some [] }
def serviceDev : Dev :=
  { adminDev with boot := { adminDev.boot with step := 1 }, cat := [(Cat.MGMT_PORT_SEL, 1)], sessions := [(0, serviceSession)] }

def readableAt (d : Dev) (index field : Nat) : Prop := ∃ d1 x, Readable (d.advance 0) (rd index field) index field d1 x

/-- Session 0 is `session`, and everything but its tag lets the read through. -/
def readableBut (d : Dev) (index field : Nat) : Bool :=
  (d.advance 0).session? 0 = some session && (d.advance 0).transportUp .bus
    && headOk (d.advance 0) (bareRq .bus index field) ((d.advance 0).touch session 0) channel false index field

theorem readable_at {d : Dev} {index field : Nat} (h : readableBut d index field = true) : readableAt d index field := by
  simp only [readableBut, Bool.and_eq_true, decide_eq_true_eq] at h
  refine ⟨_, usedSession ((d.advance 0).touch session 0) channel, h.1.2,
    checkHead_passes _ (bareRq .bus index field) session channel false index field [] h.1.1 h.2, ?_⟩
  exact Tbl.find?_set_self _ _ _

theorem witness_SessionsAnswerReadsAndWrites :
    (∃ d1, Asks (adminDev.advance 0) bare 4 d1)
      ∧ (Dev.reset.transportUp .service = false ∧ adminDev.transportUp .bus = true ∧ adminDev.long = none
        ∧ installing.long.isSome = true ∧ adminDev.sessionFree .bus = true
        ∧ ({ adminDev with sessions := [(0, { session with transport := .mbox 0 0 })] } : Dev).sessionFree (.mbox 0 0) = false
        ∧ (req.rsv = 0 ∧ req.sess = 0 ∧ req.prot = none ∧ ({ req with typ := 0 } : Req).typ = 0))
      ∧ readableAt adminDev 0x5000 0 ∧ readableAt adminDev 0xA010 4
      ∧ ((routeTime req 0x5001 7 [1]).isSome = true ∧ (routeTime req 0x6000 3 (leBytes 4 9)).isNone = true
        ∧ (routeJob req 0x6000 3 (leBytes 4 9)).isNone = true ∧ (routeDevice req 0x6000 3 (leBytes 4 9)).isNone = true)
      ∧ adminDev.cget (Cat.MEM_QUOTA_TRACE 3) < leNat (leBytes 4 0x100) + adminDev.cget (Cat.SMP_RING_BYTES 3)
      ∧ serviceDev.nv.ownerKey = []
      ∧ (∃ d1, Admits (serviceDev.advance 0) (sealRq channel (bareRq .service 0xA010 5) 1 0xA010 5 []) 0xA010 5 [] .anyone
          (fun _ => true) d1)
      ∧ admitsAt adminDev 0xA010 0 (leBytes 1 1) .levelKeeper (fun _ => 1 < 2) :=
  ⟨⟨_, by decide +kernel, rfl, rfl, rfl, session, by decide +kernel, rfl, Prod.ext rfl (by decide +kernel)⟩, by decide +kernel,
    readable_at (by decide +kernel), readable_at (by decide +kernel), by decide +kernel, by decide +kernel, rfl,
    admits_of (s := serviceSession) (by decide +kernel) (by decide +kernel), admits_at (by decide +kernel)⟩

def portDev (h : HostPort) : Dev := { adminDev with hosts := [(0, h)] }
/-- Port 0 is up and the host may access job 3, whose addresses start in its aperture. -/
def apertureDev : Dev := { portDev { HostPort.empty with perstLow := false, linkUp := true } with cat := [(Cat.SEC_HOST_ACCESS 3, 1)] }

/-- A fragment on the rack bus. -/
def frag : MgmtFrag :=
  { at_ := 0, src := 1, onBus := true, kind := 0, more := true, rsv := 0, fragOffset := 0, totalLen := 2000, xid := 3, sess := 0,
    data := [1, 2], otherKind := false }

/-- The device has passed stage 1, on the rack bus. -/
def liveBus : Dev := { adminDev with boot := { adminDev.boot with step := 1 } }

def sampled : Dev := { adminDev with cat := [(Cat.SMP_RING_BYTES 3, 4096)] }

theorem witness_HostPortsAperturesAndManagement :
    ((portDev { HostPort.empty with perstLow := false, linkUp := true }).host 0).linkUp = true
      ∧ ((portDev { HostPort.empty with training := true }).host 0).training = true
      ∧ (bit (regWrite 16 msixReset 12 [0, 0, 0, 0]) 96 = false ∧ bit msixReset 96 = true
        ∧ Tbl.getD ({ HostPort.empty with pba := [(0, true)] } : HostPort).pba 0 false = true)
      ∧ (apertureDev.barOpen 0 = true ∧ bit (1 : Nat) 0 = true ∧ (apertureDev.mbox 0 7).pending = false
        ∧ bit (leNat ((apertureDev.mbox 0 7).req.take 32)) 82 = false
        ∧ (apertureDev.job 3).st ≠ .created ∧ (apertureDev.job 3).st ≠ .stopped
        ∧ ((portDev { HostPort.empty with perstLow := false, linkUp := true, mboxes := [(7, { Mailbox.empty with pending := true })] }).mbox 0 7).pending
            = true)
      ∧ (apertureDev.cget (Cat.SEC_HOST_ACCESS 3) = 1 ∧ adminDev.cget (Cat.SEC_HOST_ACCESS 3) ≠ 1
        ∧ apertureDev.cget (Cat.MEM_HOST_APERTURE 3) = 0 ∧ apertureDev.apertureLines 3 0 8 true ≠ none
        ∧ apertureDev.apertureLines 3 0x10000 8 false = none)
      ∧ (adminDev.hostLost 0 = true ∧ apertureDev.hostLost 0 = false)
      ∧ ((adminDev.advance 0).macListens true = false ∧ liveBus.macListens true = true ∧ frag.totalLen ≤ liveBus.macLimit
        ∧ (∃ x, liveBus.session? 0 = some x ∧ x.cached ≠ some (frag.src, frag.xid)))
      ∧ (liveBus.mgmt.backoff = none
        ∧ ({ liveBus with mgmt := { liveBus.mgmt with backoff := some 9 } } : Dev).mgmt.backoff = some 9)
      ∧ (liveBus.onBus = true ∧ liveBus.boot.step ≠ 0 ∧ ¬ liveBus.cget Cat.MGMT_ATTEMPTS ≤ liveBus.mgmt.collisions + 1)
      ∧ (sampled.job 3).st = .running ∧ sampled.cget (Cat.SMP_RING_BYTES 3) ≠ 0
      ∧ admitsAt adminDev 0x8000 1 (leBytes 4 5) .byTable (fun _ => 5 < 2 ^ 32) :=
  ⟨rfl, rfl, by decide +kernel, by decide +kernel, by decide +kernel, by decide +kernel,
    ⟨by decide +kernel, by decide +kernel, by decide +kernel, session, by decide +kernel, nofun⟩, by decide +kernel, by decide +kernel,
    rfl,
    by decide +kernel, admits_at (by decide +kernel)⟩

/-! ### Keys, quotes and firmware -/

def keySlot (tenant gen : Nat) : KeySlot :=
  { tenant := tenant, gen := gen, memGen := gen, origin := 1, root := 11, memRoot := 11, exported := 0 }
/-- Key slot 1 holds tenant 5; job 3 is stopped. -/
def keyDev : Dev := { jobDev .stopped with keys := [(1, keySlot 5 2)] }
/-- A delivery of a root to a slot. -/
def delivery (tenant slot gen : Nat) (rekey : Bool) : List Byte :=
  leBytes 64 (9 * 2 ^ 256 + tenant * 2 ^ 240 + slot * 2 ^ 232 + gen * 2 ^ 200 + if rekey then 2 ^ 183 else 0)

/-- The proof of tenant 5's root over the channel's open (R416). -/
def proofOf : List Byte := shake256 (label "CX1T-PROVE" ++ (keySlot 5 2).catKey ++ channel.tr) 32

def admitsKey (d : Dev) (field : Nat) (v : List Byte) (w : Writer) (own : Dev → Bool) : Prop := admitsAt d 0x7010 field v w own

def ownedDev : Dev := { adminDev with nv := { NvStore.fresh with ownerKey := [1] } }
def ideDev (a b : IdeState) : Dev := portDev { HostPort.empty with ide0 := a, ide1 := b }

theorem witness_KeysQuotesFirmwareAndIde :
    admitsKey adminDev 0 (leBytes 40 0xFF) .anyone (fun _ => (leBytes 40 0xFF).length = 40 && fld (leNat (leBytes 40 0xFF)) 264 56 = 0)
      ∧ admitsKey adminDev 1 (List.replicate 1632 0) .anyone (fun _ => (List.replicate 1632 (0 : Byte)).length = 1632)
      ∧ admitsKey keyDev 2 (delivery 5 1 3 false) .anyProtected (fun _ => keyDeliverOk (delivery 5 1 3 false))
      ∧ admitsKey keyDev 2 (delivery 5 1 3 true) .anyProtected (fun _ => keyDeliverOk (delivery 5 1 3 true))
      ∧ (keyDev.deliverSlot (leNat (delivery 6 0xFF 3 false)) = some 0 ∧ Tbl.find? keyDev.keys 0 = none
        ∧ keyDev.tenantSlot 6 = none ∧ keyDev.tenantSlot 5 = some 1
        ∧ keyDev.deliverSlot (leNat (delivery 5 1 3 true)) = some 1 ∧ Tbl.find? keyDev.keys 1 = some (keySlot 5 2)
        ∧ kdTenant (leNat (delivery 5 1 3 true)) = 5 ∧ kdGen (leNat (delivery 5 1 3 true)) = 3
        ∧ kdRekey (leNat (delivery 5 1 3 true)) = true ∧ kdRekey (leNat (delivery 5 1 3 false)) = false
        ∧ keyDev.rekeyOk 1 = true)
      ∧ admitsKey keyDev 3 (leBytes 2 5 ++ proofOf) .anyProtected (fun _ => 5 < 2 ^ 16 && proofOf.length = 32)
      ∧ (session.chan = some channel ∧ proofOf ≠ List.replicate 32 0)
      ∧ admitsKey keyDev 5 (leBytes 1 1) (.slotOrOwner 1) (fun _ => 1 < 64) ∧ (keyDev.boundJobs 1 ≠ [] ∧ keyDev.boundJobs 0 = [])
      ∧ admitsKey ownedDev 6 [2] .byTable (fun _ => true) ∧ ownedDev.nv.ownerKey ≠ []
      ∧ (∀ l ∈ [images, []], admitsAt adminDev 0x7020 0 (bundleBytes l) .byTable (fun _ => true))
      ∧ (bundleBad adminDev.nv images = 0 ∧ bundleBad adminDev.nv [] ≠ 0)
      ∧ admitsAt adminDev 0x7020 1 (leBytes 1 1) .byTable (fun _ => true)
      ∧ admitsAt adminDev 0x7020 2 (leBytes 1 1) .byTable (fun _ => 1 < 2)
      ∧ admitsAt adminDev 0x7031 0 (leBytes 64 0) .byTable (fun _ => 1 < 2 && (leBytes 64 0).length % 2 = 0)
      ∧ ((ideDev .secure .secure).host 0).ide0 = .secure ∧ ((ideDev .secure .secure).host 0).ide1 = .secure
      ∧ liveBus.boot.step ≠ 0 ∧ Dev.reset.boot.step = 0 ∧ adminDev.boot.entropyBad = false ∧ adminDev.boot.fallback = false :=
  ⟨admits_at (by decide +kernel), admits_at (by decide +kernel), admits_at (by decide +kernel), admits_at (by decide +kernel),
    by decide +kernel, admits_at (by decide +kernel), by decide +kernel, admits_at (by decide +kernel), by decide +kernel,
    admits_at (by decide +kernel), nofun, fun l hl => admits_at (by
      revert l; exact of_all (p := fun l => admittedAt _ _ _ (bundleBytes l) _ _ = true) _ (by decide +kernel)),
    ⟨by
      have h := images_banked adminDev.nv rfl rfl
      simp only [bundleBad, show List.range (max 4 images.length) = [0, 1, 2, 3] from rfl, List.filter_cons, List.filter_nil,
        h 1 (by decide), h 2 (by decide), h 3 (by decide), h 4 (by decide)]
      rfl, by decide +kernel⟩, admits_at (by decide +kernel), admits_at (by decide +kernel),
    admits_at (by decide +kernel), rfl, rfl, by decide +kernel⟩

/-! ### Rolls, experts, long operations and memory -/

/-- One roll of job 3 is due. -/
def rollDev : Dev := { base with jobs := [(3, { job with rolls := [{ t := 5, step := some 4, figs := [] }] })] }
/-- Record 0 of job 3's slot table has a valid history. -/
def histDev : Dev := { base with mem := memWrite [] t2Base (leBytes 64 (2 ^ 48)) }
def slotCfg : SlotCfg := { fmt := 0, histLen := 4, rowMode := false, histVa := 0x800 }
def fig : StatFig := { rows := [(0, 0x3F800000)], elements := 1, clipped := 0, under := 0, nonfin := 0 }
/-- Expert placement of job 3 with a table of one record in tier 2. -/
def expertDev (va : Nat) : Dev :=
  { adminDev with cat := [(Cat.NMU_PLACE_EN 3, 1), (Cat.NMU_TABLE_VA 3, va), (Cat.NMU_TABLE_LEN 3, 1)] }
/-- A page of tier 3 holds the expert's weights at job address 2^30. -/
def t3Page : Page := { page with va := 0x4000_0000, pa := 0 }
def placedDev : Dev :=
  { expertDev 0 with jobs := [(3, { job with pages := [page, t3Page] })],
                     mem := memWrite [] t2Base (leBytes 32 (0x4000_0000 * 2 ^ 204)) }
def longDev (k : LongKind) : Dev :=
  { keyDev with long := some { kind := k, index := 0x3000, field := 6, sess := 0, reqId := 0, transport := .bus, typ := 1,
                               prot := false, started := 0 } }
theorem witness_RollsExpertsAndLongOperations :
    ((base.job 3).rolls = [] ∧ (rollDev.job 3).rolls = [{ t := 5, step := some 4, figs := [] }])
      ∧ (slotHistValid (base.slotRec 3 0) = false ∧ slotHistValid (histDev.slotRec 3 0) = true ∧ slotCfg.rowMode = false
        ∧ slotProbeLeft (histDev.slotRec 3 0) = 0 ∧ slotAdaptEn (histDev.slotRec 3 0) = false
        ∧ finiteBits (Tbl.getD fig.rows 0 0) = true)
      ∧ (adminDev.job 3).rollPending = false ∧ ({ job with rolls := [{ t := 5, step := none, figs := [] }] } : Job).rollPending = true
      ∧ admitsAt adminDev 0x9103 3 (leBytes 1 1) .byTable (fun _ => 3 < 16)
      ∧ admitsAt adminDev 0x2783 3 (leBytes 1 1) .byTable (fun _ => 3 < 16 && 1 < 256)
      ∧ admitsAt adminDev 0x2783 2 (leBytes 2 7) .byTable (fun _ => 3 < 16 && 7 < 65536)
      ∧ (adminDev.placementOn 3 = false ∧ (expertDev 8).placementOn 3 = true ∧ (expertDev 8).expertTableOk 3 = false
        ∧ placedDev.placementOn 3 = true ∧ placedDev.expertTableOk 3 = true)
      ∧ admitsAt adminDev 0x3000 6 (leBytes 1 1) .byTable (fun _ => 1 < 256)
      ∧ admitsAt adminDev 0x3000 7 (leBytes 1 1) .byTable (fun _ => 1 < 256)
      ∧ admitsAt adminDev 0x3000 2 (leBytes 1 1) .byTable (fun _ => true)
      ∧ (adminDev.t3Held = false ∧ placedDev.t3Held = true)
      ∧ admitsAt adminDev 0x9203 0x16 (leBytes 16 (2 ^ 52)) .byTable
          (fun _ => 3 < 16 && (leBytes 16 (2 ^ 52)).length = 16 && sealCount (leNat (leBytes 16 (2 ^ 52))) ≠ 0)
      ∧ (longDev (.scrub 1)).long.isSome = true ∧ (longDev (.retrain 2)).long.isSome = true
      ∧ (longDev (.integrity 1)).long.isSome = true ∧ (longDev (.rekey 1)).long.isSome = true
      ∧ Tbl.find? (longDev (.rekey 1)).keys 1 = some (keySlot 5 2) ∧ (longDev (.rekey 1)).session? 0 = some session
      ∧ ({ longDev (.rekey 1) with sessions := [] } : Dev).session? 0 = none :=
  ⟨by decide +kernel, by decide +kernel, by decide +kernel, by decide +kernel, admits_at (by decide +kernel),
    admits_at (by decide +kernel), admits_at (by decide +kernel), by decide +kernel, admits_at (by decide +kernel),
    admits_at (by decide +kernel), admits_at (by decide +kernel), by decide +kernel, admits_at (by decide +kernel), rfl, rfl, rfl,
    rfl, rfl, rfl, rfl⟩

/-- An allocation of one 64 KiB page of a tier (0 is tier 2), encrypted, at a job address. -/
def allocRec (tier va mask : Nat) : List Byte :=
  leBytes 32 (0x1_0000 * 2 ^ 128 + va * 2 ^ 76 + mask * 2 ^ 56 + tier * 2 ^ 52 + if tier = 2 then 0 else 2 ^ 49)
/-- Quotas for job 3, and none of its pages on die 1. -/
def roomy : Dev :=
  { adminDev with cat := [(Cat.MEM_QUOTA 3 1, 0x10_0000), (Cat.MEM_QUOTA 3 2, 0x10_0000), (Cat.MEM_QUOTA 3 3, 0x10_0000)] }

/-- Whatever place the device prefers, an empty die of tier 2 holds a page at it. -/
theorem places_one : ∃ pas, roomy.placePages 2 0x1_0000 2 false 1 = some pas := by
  refine ⟨[t2Base + t2Span + roomy.free 0 % t2Span / 0x1_0000 * 0x1_0000], ?_⟩
  have ht : roomy.taken = [(t2Base, 0x1_0000)] := by decide +kernel
  have hd : setBits 8 2 = [1] := by decide
  have hp : roomy.placeOn 2 1 0x1_0000 [(t2Base, 0x1_0000)] 0
      = some (t2Base + t2Span + roomy.free 0 % t2Span / 0x1_0000 * 0x1_0000) := by
    unfold Dev.placeOn placeIn
    generalize roomy.free 0 = f
    have h : f % t2Span < t2Span := Nat.mod_lt _ (by decide)
    refine if_pos ?_
    simp only [t2Base, t2Span, overlaps] at h ⊢
    simp
    omega
  simp [Dev.placePages, ht, hd, List.range_succ, hp]

theorem witness_MemoryIsAllocatedFreedAndScrubbed :
    admitsAt roomy 0x3103 0x20 (allocRec 0 0x10_0000 2) .byTable (fun _ => 3 < 16)
      ∧ ((allocRec 0 0x10_0000 2).length = 32 ∧ (leBytes 31 0).length ≠ 32 ∧ aVa (leNat (allocRec 0 0x10_0000 2)) ≠ 0
        ∧ roomy.allocBad (setFld (setFld (leNat (allocRec 0 0x10_0000 2)) 68 8 0) 64 4 0) = false
        ∧ roomy.allocBad (setFld (setFld (leNat (allocRec 3 0x10_0000 2)) 68 8 0) 64 4 0) = true
        ∧ aTier (leNat (allocRec 0 0x10_0000 2)) = 0 ∧ aPage (leNat (allocRec 0 0x10_0000 2)) = 0x1_0000
        ∧ (∀ t ∈ (roomy.job 3).mapped, overlaps 0x10_0000 0x1_0000 t.1 t.2 = false)
        ∧ (∃ t ∈ (roomy.job 3).mapped, overlaps 0 0x1_0000 t.1 t.2 = true)
        ∧ roomy.used 3 1 + 0x1_0000 ≤ roomy.quota 3 1 ∧ (roomy.job 3).bytesIn roomy 3 = 0
        ∧ tableBytes ((roomy.job 3).pages ++ [{ page with va := 0x10_0000, alloc := 0x10_0000 }]) (roomy.job 3).t1Ranges ≤ roomy.quota 3 2
        ∧ roomy.allocBad (setFld (setFld (leNat (allocRec 2 0x10_0000 0)) 68 8 0) 64 4 0) = false
        ∧ (∀ t ∈ roomy.taken, overlaps hostBase 0x1_0000 t.1 t.2 = false))
      ∧ (∃ pas, roomy.placePages 2 0x1_0000 2 false 1 = some pas)
      ∧ admitsAt adminDev 0x3103 0x21 (leBytes 8 0) .byTable (fun _ => 3 < 16 && 0 < 2 ^ 64)
      ∧ ((adminDev.job 3).pages.filter (fun p => p.alloc = 0) ≠ [] ∧ adminDev.regionOver 3 0 0x1_0000 = false)
      ∧ admitsAt adminDev 0x3103 0x22 (leBytes 8 0) .byTable (fun _ => 3 < 16 && 0 < 2 ^ 64 && fld 0 52 4 = 0)
      ∧ admitsAt adminDev 0x3000 3 (leBytes 8 0x1_0000) .byTable (fun _ => 0x1_0000 % 0x1_0000 = 0 && 0x1_0000 < t2Base)
      ∧ ((adminDev.nv.retired.length ≤ 4095 ∧ 0x1_0000 ∉ adminDev.nv.retired)
        ∧ 0x1_0000 ∈ ({ adminDev with nv := { NvStore.fresh with retired := [0x1_0000] } } : Dev).nv.retired
        ∧ 4095 < (List.replicate 4096 0).length)
      ∧ admitsAt adminDev 0x3103 1 (leBytes 8 0x1_0000) .byTable (fun _ => 3 < 16 && 1 ≤ 6 &&
          (if 1 = 0 then (leBytes 8 0x1_0000).length = 32 && t1QuotaForm (leNat (leBytes 8 0x1_0000))
            else 1 = 4 || 1 = 5 || leNat (leBytes 8 0x1_0000) % 0x1_0000 = 0))
      ∧ (roomy.t1QuotaFits 3 0 = true ∧ ¬ (roomy.capacity 1 < roomy.quotaSum 1 3 + 0x1_0000 ∨ 0x1_0000 < roomy.used 3 1)
        ∧ 0 < roomy.used 3 1)
      ∧ adminDev.released = true ∧ adminDev.region (64 * (t2Base / 64)) = .tier2 0 ∧ adminDev.region (64 * 5) = .tier3 0 :=
  ⟨admits_at (by decide +kernel), by decide +kernel, places_one, admits_at (by decide +kernel), by decide +kernel,
    admits_at (by decide +kernel), admits_at (by decide +kernel),
    ⟨by decide +kernel, by decide +kernel, by rw [List.length_replicate]; decide⟩, admits_at (by decide +kernel), by decide +kernel,
    by decide +kernel⟩

/-- The worked example of chapter 7: the page tables' indices of its job address, and where its line and its tag lie. -/
theorem test_address_walk : (List.range 4).map (fun l => tableIndex l 0x42_1650_0A40) = [0, 264, 178, 16] := by decide

theorem test_line_place :
    t3Place 0x65_4321_0A40 = (8, 2, 1) ∧ tagAddr 0x65_4321_0A40 = 0x7F_2A19_0850 ∧ memDie 0x65_4321_0A40 = some 3 := by decide

/-! ### Packets and connections -/

/-- An OPEN connection of job 3 on port 0, whose peer knows it as 17; its keys are bytes of 7. -/
def conn : Conn :=
  { newConn { base with cat := [(Cat.NET_WIN_INIT, 0x10000)] } 3 (17 * 2 ^ 372) .open_ with link := List.replicate 72 7, lo := true }
/-- Region 2, 4 KiB at job address 0, which may be read and written. -/
def netRegion : NetRegion :=
  { NetRegion.none with st := .valid, gen := 1, job := 3, record := 0x1000 * 2 ^ 416 + 2 ^ 363 + 2 ^ 362 }
/-- Port 0 is up; connection 9 is `x`, and region 2 stands. -/
def netDev (x : Conn) : Dev :=
  { adminDev with cat := [(Cat.NET_PORT_LINK 0, 2)],
                  net := { adminDev.net with conns := [(9, x)], regions := [(2, netRegion)] } }
def handle : Nat := 1 * 2 ^ 16 + 2
/-- A packet of op `op` for connection 9 with this extension and payload, under the peer's first packet number. -/
def opPkt (op ext : Nat) (payload : List Byte) : Pkt :=
  { port := 0, at_ := 0, full := false,
    data := List.replicate 42 0 ++ maelgoBody conn.keyRx (linkIv conn.link false 1)
      (maelgoHeader op 0 5 9 handle 0 0 0 payload.length 1) ext (opExtLen op) payload ++ [0, 0, 0, 0] }

/-- Op, extension and payload length of a packet that is well formed, and its payload of zeros. -/
def shapes : List (Nat × Nat × Nat) :=
  [(1, 0, 64), (2, 0, 0), (3, 64 * 2 ^ 160, 0), (4, 0, 64), (5, 0, 0), (6, 1 * 2 ^ 216, 0), (7, 0, 128), (8, 0, 0), (9, 0, 0),
    (10, 0, 0), (11, 0, 0)]
def shaped (q : Nat × Nat × Nat) : Pkt := opPkt q.1 q.2.1 (List.replicate q.2.2 0)

/-- A packet whose header reads as it was written verifies: its peer sealed it. -/
theorem opPkt_verifies (op ext : Nat) (payload : List Byte)
    (h : (opPkt op ext payload).headAt = 42 ∧ (opPkt op ext payload).op = op ∧ (opPkt op ext payload).len = payload.length
      ∧ (opPkt op ext payload).pn = 1) :
    conn.tagOk (opPkt op ext payload) = true := by
  obtain ⟨hh, ho, hl, hn⟩ := h
  have hk : conn.keyRx.length = 32 := rfl
  have hb (n v : Nat) : (beBytes n v).length = n := by rw [beBytes, List.length_reverse, leBytes_length]
  generalize hx : maelgoHeader op 0 5 9 handle 0 0 0 payload.length 1 = header
  have hd : (opPkt op ext payload).data = List.replicate 42 0 ++ (beBytes 32 header ++ beBytes (opExtLen op) ext
      ++ (gcmSeal conn.keyRx (linkIv conn.link false 1) (beBytes 32 header ++ beBytes (opExtLen op) ext) payload).1
      ++ (gcmSeal conn.keyRx (linkIv conn.link false 1) (beBytes 32 header ++ beBytes (opExtLen op) ext) payload).2)
      ++ [0, 0, 0, 0] := by rw [← hx]; rfl
  have ha : (beBytes 32 header ++ beBytes (opExtLen op) ext).length = 32 + opExtLen op := by
    rw [List.length_append, hb, hb]
  generalize beBytes 32 header ++ beBytes (opExtLen op) ext = aad at hd ha
  obtain ⟨h1, h2, h3⟩ := Laws.gcm_opens_what_it_seals conn.keyRx (linkIv conn.link false 1) aad payload hk
  unfold Conn.tagOk Conn.opened Pkt.aad Pkt.cipher Pkt.tag Pkt.extLen
  rw [hh, ho, hl, hn, hd]
  generalize gcmSeal conn.keyRx (linkIv conn.link false 1) aad payload = g at h1 h2 h3
  have ht : (List.replicate 42 (0 : Byte)).length = 42 := List.length_replicate
  have e1 : (List.replicate 42 0 ++ (aad ++ g.1 ++ g.2) ++ [0, 0, 0, 0] : List Byte).drop 42 = aad ++ g.1 ++ g.2 ++ [0, 0, 0, 0] := by
    rw [List.append_assoc, List.drop_left' ht]
  have e2 : (List.replicate 42 0 ++ (aad ++ g.1 ++ g.2) ++ [0, 0, 0, 0] : List Byte).drop (42 + 32 + opExtLen op)
      = g.1 ++ (g.2 ++ [0, 0, 0, 0]) := by
    rw [Nat.add_assoc, ← List.drop_drop, e1, List.append_assoc, List.append_assoc, List.drop_left' ha]
  have e3 : (List.replicate 42 0 ++ (aad ++ g.1 ++ g.2) ++ [0, 0, 0, 0] : List Byte).drop (42 + 32 + opExtLen op + payload.length)
      = g.2 ++ [0, 0, 0, 0] := by
    rw [← List.drop_drop, e2, List.drop_left' h2]
  rw [e1, e2, e3, List.append_assoc, List.append_assoc, List.take_left' ha, List.take_left' h2, List.take_left' h3]
  exact congrArg Prod.snd h1

theorem shapes_verify : ∀ q ∈ shapes, conn.tagOk (shaped q) = true := by
  have h : (shapes.all fun q => (shaped q).headAt = 42 && (shaped q).op = q.1 && (shaped q).len = (List.replicate q.2.2 (0 : Byte)).length
      && (shaped q).pn = 1) = true := by decide +kernel
  intro q hq
  have hh := List.all_eq_true.mp h q hq
  simp only [Bool.and_eq_true, decide_eq_true_eq] at hh
  exact opPkt_verifies _ _ _ ⟨hh.1.1.1, hh.1.1.2, hh.1.2, hh.2⟩

theorem shapes_arrive : ∀ q ∈ shapes, (shaped q).op = q.1 ∧ Arrives ((netDev conn).advance 0) q.1 (shaped q) conn
    ∧ Fresh ((netDev conn).advance 0) q.1 (shaped q) conn := by
  have h : (shapes.all fun q => (shaped q).op = q.1 && !((netDev conn).advance 0).malformed q.1 (shaped q)
      && (shaped q).conn = 9 && (shaped q).tenant = 5 && (shaped q).pn = 1 && (shaped q).seq = 0) = true := by decide +kernel
  have hc : ((netDev conn).advance 0).netUp 0 = true ∧ ((netDev conn).advance 0).conn? 9 = some conn ∧ conn.st ≠ .pending
      ∧ conn.residence = 0 ∧ conn.st ≠ .error ∧ 5 = (((netDev conn).advance 0).job conn.job).tenant ∧ conn.replayed 1 = false
      ∧ ((0 : Word) - conn.cumRx).msb = false ∧ (0 : Word) ∉ conn.got ∧ ((0 : Word) - conn.cumRx).toNat < 1024 := by
    decide +kernel
  intro q hq
  have hh := List.all_eq_true.mp h q hq
  simp only [Bool.and_eq_true, Bool.not_eq_true', decide_eq_true_eq] at hh
  obtain ⟨⟨⟨⟨⟨ho, hm⟩, hk⟩, ht⟩, hp⟩, hs⟩ := hh
  refine ⟨ho, ⟨hc.1, hm, hk ▸ hc.2.1, hc.2.2.1, hc.2.2.2.1⟩, hc.2.2.2.2.1, ht ▸ hc.2.2.2.2.2.1, hp ▸ hc.2.2.2.2.2.2.1, ?_⟩
  rw [hs]
  exact fun _ => hc.2.2.2.2.2.2.2

/-- A read of connection 9 that SEQ 0 asked for: one line into job address 0x200. -/
def readEntry : ReadEntry :=
  { conn := 9, job := 3, cmd := 0, xfer := 0, seq := some 0, region := handle, offset := 0, want := 0, versioned := false,
    bytes := 64, piece := 0, dst := 0x200, len := 64, room := 64, stampVa := 0, missing := [0], ackedAt := some 3, reissues := 0 }
def readDev : Dev := { netDev conn with net := { (netDev conn).net with reads := [(0, readEntry)] } }
/-- Shard 0 of job 3 is ready, with room for 64 FP32 elements in one buffer at the start of region 2. -/
def shardDev : Dev := { netDev conn with jobs := [(3, { job with red := { Job.empty.red with shards := [(0, 64 * 2 ^ 120)] } })] }
def member : Dev := { netDev conn with blob := [(Cat.RED_MEMBER_CONNS 3, leBytes 4 9)] }
def heldConn : Conn := { conn with residence := 2 }
/-- A front seal waits behind a taint. -/
def waitsForTaint : Conn :=
  { conn with taints := [{ region := handle, offset := 0, len := 64 }],
              seals := [{ seq := 0, at_ := 0, region := handle, offset := 0, payload := [] }] }
/-- Stacks die 0's memory retrains. -/
def stalledDev : Dev := { netDev conn with long := some retraining }

theorem witness_PacketsActOnceVerified :
    (∀ q ∈ shapes, (shaped q).op = q.1 ∧ Arrives ((netDev conn).advance 0) q.1 (shaped q) conn
        ∧ Fresh ((netDev conn).advance 0) q.1 (shaped q) conn)
      ∧ (∀ q ∈ shapes, conn.tagOk (shaped q) = true)
      ∧ (writeRegion ((netDev conn).advance 0) (opPkt 1 0 (List.replicate 64 0)) conn = none
        ∧ writeRegion ((netDev conn).advance 0) (opPkt 2 0 []) conn = none
        ∧ ((netDev conn).advance 0).regionDeny 9 conn handle 0 0 64 false = none
        ∧ ((netDev conn).advance 0).stalledIn 3 0 64 = false ∧ stalledDev.stalledIn 3 0 64 = true
        ∧ readSink (shaped (3, 64 * 2 ^ 160, 0)) ((netDev conn).advance 0) conn = false
        ∧ readRespSink (shaped (4, 0, 64)) (readDev.advance 0) conn = false
        ∧ contribSink (shaped (7, 0, 128)) (shardDev.advance 0) conn = false
        ∧ (netDev conn).sealsWaiting < 1024 ∧ ((netDev conn).netRegion 2).settled = false)
      ∧ (waitsForTaint.taintDeadline 8 = some 8 ∧ conn.taintDeadline 8 = none)
      ∧ (readDev.readOf (shaped (4, 0, 64)) = some (0, readEntry) ∧ (netDev conn).readOf (shaped (4, 0, 64)) = none
        ∧ readEntry.versioned = false)
      ∧ (shardDev.advance 0).contribDeny (shaped (7, 0, 128)) conn = none
      ∧ (member.memberConn 3 0 = some 9 ∧ (netDev conn).memberConn 3 0 ≠ some 9)
      ∧ (¬ fld (shaped (8, 0, 0)).ext 254 2 = 1 ∧ fld (opPkt 8 (1 * 2 ^ 254) []).ext 254 2 = 1)
      ∧ (member.member 3 = member.voteRoot 3 ∧ (voteHead 0).kind = 0 ∧ member.voteFits 3 (voteHead 0) = true)
      ∧ ((netDev conn).netUp 1 = false ∧ (netDev conn).malformed 2 (opPkt 2 1 []) = true
        ∧ (netDev conn).conn? 8 = none ∧ heldConn.residence ≠ 0 ∧ ({ conn with st := .error } : Conn).st = .error
        ∧ ({ conn with pnSeen := [1] } : Conn).replayed 1 = true ∧ (0 : Word) ∈ ({ conn with got := [0] } : Conn).got
        ∧ 1024 ≤ ((2000 : Word) - conn.cumRx).toNat) :=
  ⟨shapes_arrive, shapes_verify, by decide +kernel, by decide +kernel, by decide +kernel, by decide +kernel, by decide +kernel,
    by decide +kernel, by decide +kernel, by decide +kernel⟩

def item : TxItem :=
  { op := 1, region := handle, step := none, ext := 0, extLen := 16, src := none, own := List.replicate 64 0, len := 64, xfer := none }
def sent (resend : Option Nat) (times : Nat) : TxSent :=
  { item := item, sentAt := 0, sentPn := 1, times := times, resend := resend, acked := false,
    byWindow := false, missed := none }
def sealOf : WaitSeal := { seq := 0, at_ := 0, region := handle, offset := 0, payload := [] }
def heldPkt : HeldPkt := { op := 1, pkt := opPkt 1 0 [], at_ := 0 }

theorem witness_ConnectionsSendAndRecover :
    (((netDev conn).conn? 9 = some conn ∧ (netDev conn).conn? 8 = none)
        ∧ (conn.st = .open_ ∧ conn.residence = 0 ∧ ((netDev conn).advance 0).netUp conn.port = true)
        ∧ (({ conn with sent := [(0, sent (some 0) 1)] } : Conn).sent.find? fun p =>
            (match p.2.resend with | some t => decide (t ≤ 0) | none => false)
              && (!p.2.byWindow || decide (conn.outstanding ≤ conn.win))) = some (0, sent (some 0) 1)
        ∧ ({ conn with queue := [item] } : Conn).outstanding + item.len ≤ conn.win ∧ conn.span < 1023
        ∧ ¬ ({ conn with win := 0 } : Conn).outstanding + item.len ≤ 0
        ∧ ({ conn with seals := [sealOf] } : Conn).frontSeal = some sealOf
        ∧ ({ conn with taints := [{ region := handle, offset := 0, len := 64 }] } : Conn).taints ≠ [])
      ∧ (heldConn.residence = 2 ∧ (netDev conn).storeOk heldConn = true
        ∧ (netDev conn).storeOk { heldConn with storeAt := hostBase, stored := [1] } = false
        ∧ (netDev conn).sealServed sealOf = true ∧ (netDev conn).sealServed { sealOf with payload := [1] } = true
        ∧ stalledDev.sealServed { sealOf with payload := [1] } = false ∧ (netDev conn).readEntries < 2048)
      ∧ (({ conn with st := .draining } : Conn).queue = [] ∧ (netDev conn).netHeld 9 conn = false)
      ∧ ({ conn with ackSince := some 3 } : Conn).ackSince = some 3
      ∧ (({ conn with sent := [(0, sent none 1)] } : Conn).sent.find? fun p => p.1 = 0 && !p.2.acked && p.2.resend.isNone)
          = some (0, sent none 1)
      ∧ (¬ (netDev conn).cget Cat.NET_RETRY_MAX < 1 ∧ (netDev conn).cget Cat.NET_RETRY_MAX < 1000)
      ∧ (conn.roundLoss = false ∧ conn.roundCe = 0 ∧ ({ conn with roundLoss := true } : Conn).roundLoss = true
        ∧ 0 < ({ conn with roundCe := 1 } : Conn).roundCe)
      ∧ ([heldPkt][0]? = some heldPkt ∧ ([] : List HeldPkt)[0]? = none)
      ∧ (Tbl.find? readDev.net.reads 0 = some readEntry ∧ readEntry.ackedAt = some 3
        ∧ readEntry.reissues < readDev.cget Cat.NET_READ_RETRIES ∧ readDev.cget Cat.NET_READ_RETRIES ≤ 1000)
      ∧ (ttDev .armed .waiting).tt.st = .armed ∧ (ttDev .running .firm).tt.st ≠ .armed := by decide +kernel

/-- An OPEN connection record, and one that asks for any identifier. -/
def connRec (id : Nat) : List Byte := leBytes 64 (id * 2 ^ 353)
def connQuota : Dev := { adminDev with cat := [(Cat.MEM_QUOTA 3 4, 4), (Cat.MEM_QUOTA 3 5, 4), (Cat.NET_CTX_T3_ENTRIES, 16)] }
/-- A region of one page at job address 0. -/
def regionRec : List Byte := leBytes 64 (0x1000 * 2 ^ 416 + 2 ^ 363)

theorem region_free : connQuota.freeRegion ≠ none := by
  have h (k : Nat) : (connQuota.netRegion k).st = .free := rfl
  simp [Dev.freeRegion, h]

/-- A frame of this EtherType. -/
def typed (t : Nat) (rest : List Byte) : List Byte := List.replicate 12 0 ++ beBytes 2 t ++ rest ++ List.replicate 46 0
/-- An ARP request for port 0's address, from its hardware type on. -/
def arpWords : List Byte :=
  List.replicate 6 0 ++ [0, 1] ++ List.replicate 16 0 ++ beBytes 4 ((netDev conn).cget (Cat.NET_PORT_IPV4 0))
/-- A UDP packet for the Maelgo port at port 0's address, whose payload begins with this byte. -/
def udpTo (b : Byte) : List Byte :=
  withIpCsum (typed 0x0800 ([0x45, 0, 0, 68, 0, 0, 0, 0, 64, 17, 0, 0, 0, 0, 0, 0]
    ++ beBytes 4 ((netDev conn).cget (Cat.NET_PORT_IPV4 0)) ++ [0, 0]
    ++ beBytes 2 ((netDev conn).cget Cat.NET_MAELGO_UDP_PORT) ++ [0, 48, 0, 0, b]))
def lastFrame : LastTx := { pkt := none, data := List.replicate 200 0 }

theorem witness_ConnectionsRegionsPortsAndFrames :
    admitsAt connQuota 0x4303 0 (connRec 0x7FFFF) .byTable (fun d => 3 < 16 && !connOpenBad d (connRec 0x7FFFF))
      ∧ admitsAt connQuota 0x4303 0 (connRec 12) .byTable (fun d => 3 < 16 && !connOpenBad d (connRec 12))
      ∧ (fld (leNat (connRec 0x7FFFF)) 353 19 = 0x7FFFF ∧ connQuota.freeConn = some 0 ∧ connQuota.conn? 12 = none
        ∧ ¬ (connQuota.quota 3 4 ≤ connQuota.connsOf 3) ∧ connQuota.residing 1 < connQuota.cget Cat.NET_CTX_T3_ENTRIES
        ∧ adminDev.quota 3 4 ≤ adminDev.connsOf 3)
      ∧ admitsAt (netDev conn) 0x4303 1 (leBytes 4 9) .byTable (fun _ => 3 < 16 && 9 < 2 ^ 32)
      ∧ admitsAt adminDev 0x4303 2 (leBytes 4 9) .byTable (fun _ => 3 < 16 && (leBytes 4 9).length = 4)
      ∧ admitsAt adminDev 0x4303 5 (leBytes 4 9) .byTable (fun _ => 3 < 16 && (leBytes 4 9).length = 4)
      ∧ admitsAt connQuota 0x4303 3 regionRec .byTable (fun d => 3 < 16 && !d.regionRecBad 3 regionRec)
      ∧ (connQuota.regionsOf 3 < connQuota.quota 3 5 ∧ connQuota.freeRegion ≠ none)
      ∧ admitsAt (netDev conn) 0x4303 4 (leBytes 4 handle) .byTable (fun _ => 3 < 16 && handle < 2 ^ 32)
      ∧ (((netDev conn).netRegion (handle % 2 ^ 16)).st ≠ .free ∧ ((netDev conn).netRegion (handle % 2 ^ 16)).gen = handle / 2 ^ 16
        ∧ ((netDev conn).netRegion (handle % 2 ^ 16)).job = 3)
      ∧ ({ netRegion with st := .revoking } : NetRegion).settled = false ∧ (netDev conn).regionInFlight 2 = 0
      ∧ admitsAt adminDev 0x4000 0 (leBytes 1 1) .byTable (fun _ => 1 < 2)
      ∧ ((∃ kc ∈ (netDev conn).net.conns, kc.2.st = .open_ ∨ kc.2.st = .draining) ∧ adminDev.net.conns = [])
      ∧ ((netDev conn).netUp 0 = true ∧ (netDev conn).netUp 1 = false ∧ (frame 60).data.length = 64 ∧ fcsOk (frame 60).data = true
        ∧ (frame 60).fecUncorrected = 0 ∧ macControl (frame 60).data = none ∧ frameTags (frame 60).data = []
        ∧ (netDev conn).vlanOk 0 [] = true ∧ ipCsum (frame 60).data = none ∧ udpCsum (frame 60).data = none
        ∧ tcpCsum (frame 60).data = none ∧ isPtp (frame 60).data = false ∧ (netDev conn).isMaelgo 0 (frame 60).data = false
        ∧ (netDev conn).isArp 0 (frame 60).data = false ∧ (netDev conn).ipToPort 0 (frame 60).data = false
        ∧ bit (({ netDev conn with cat := [(Cat.NET_HOST_FRAMES, 1)] } : Dev).cget Cat.NET_HOST_FRAMES) 0 = true)
      ∧ (isPtp (plainBytes 60) = false ∧ isPtp (typed 0x88F7 []) = true ∧ macControl (typed 0x8808 [0, 1]) = some 1
        ∧ macControl (typed 0x8808 [1, 1]) = some 0x0101 ∧ (netDev conn).isArp 0 (typed 0x0806 arpWords) = true
        ∧ (frameTags (typed 0x8100 [0, 5, 0x81, 0, 0, 6])).length = 2
        ∧ (netDev conn).vlanOk 0 (frameTags (typed 0x8100 [0, 5])) = false
        ∧ ipCsum (typed 0x0800 [0x45]) = some false
        ∧ ((netDev conn).isMaelgo 0 (udpTo 0) = true ∧ ipCsum (udpTo 0) = some true ∧ udpCsum (udpTo 0) = none
          ∧ opReserved (fld (beAt (udpTo 0) (netAt (udpTo 0) + 28) 32) 248 4) = true)
        ∧ opReserved (fld (beAt (udpTo 0x11) (netAt (udpTo 0x11) + 28) 32) 248 4) = false)
      ∧ adminDev.released = true
      ∧ ((netDev conn).net.lastTx = [] ∧ ¬ lastFrame.data.length ≤ 100
        ∧ ¬ lastFrame.data.length ≤ ({ netDev conn with cat := [(Cat.NET_TX_START 0, 64)] } : Dev).cget (Cat.NET_TX_START 0)
        ∧ ({ conn with sent := [(0, sent none 1)] } : Conn).sent.any (fun y => y.1 = BitVec.ofNat 32 0 &&
            ({ conn with sent := [(0, sent none 1)] } : Conn).unacked y) = true) :=
  ⟨admits_at (by decide +kernel), admits_at (by decide +kernel), by decide +kernel, admits_at (by decide +kernel),
    admits_at (by decide +kernel), admits_at (by decide +kernel), admits_at (by decide +kernel), ⟨by decide +kernel, region_free⟩,
    admits_at (by decide +kernel), by decide +kernel, rfl, by decide +kernel, admits_at (by decide +kernel), by decide +kernel,
    by decide +kernel, by decide +kernel, rfl, by decide +kernel⟩

/-! ### Words that may not issue -/

theorem witness_AWordThatMayNotIssueStopsItsBundle :
    (∀ x : Bundle, x = bundle → x.wait = .none ∧ running.st = .running
        ∧ ((devOf bundle).xlate running.job x.pc false).isSome = true ∧ (devOf bundle).jbad running.job x.pc 8 = [])
      ∧ base.bundle? 0 0 = none
      ∧ ((devOf { bundle with pc := 0x10_0000 }).xlate 3 0x10_0000 false).isSome = false
      ∧ ({ devOf bundle with poison := [(t2Base + 0x40) / 64] } : Dev).jbad 3 0x40 8 ≠ []
      ∧ (∀ w, Ready (devOf bundle) bundle (.movi 0 0 w) w)
      ∧ setBits 52 ((BitVec.ofNat 56 1).toNat - Nat.land (BitVec.ofNat 56 1 : TWord).toNat mD) = [0]
      ∧ (withWord (devOf bundle) (0x3C * 2 ^ 56)).fetchWord 0 3 0x40 / 2 ^ 56 = 0x3C ∧ opcReserved 0x3C = true
      ∧ (withWord (devOf bundle) (0x20 * 2 ^ 56)).fetchWord 0 3 0x40 / 2 ^ 56 = 0x20 ∧ opcReserved 0x20 = false := by
  refine ⟨fun x h => by subst h; exact ⟨rfl, rfl, base_fetches.1, base_fetches.2⟩, by decide +kernel, by decide +kernel,
    by decide +kernel, fun _ => readyOf _ _ _, by decide +kernel⟩

/-! ### Statements without operands, and single steps -/

theorem witness_FrontCommandRunsWithTheRest : State.reset.pending = [] := rfl
theorem witness_SettlingAQuietDeviceOnlySetsPins : Dev.reset.quiet = true := by decide +kernel

/-- The device after command `c` is executed on `d`; the device itself where it does not go on. -/
def after (c : Instr) (d : Dev) : Dev :=
  match exec c (stateOf d) with | .next t => t.dev | _ => d

def lane (d : Dev) (v l : Nat) : Option Nat := (d.bundle? 0 0).map fun x => (x.vreg l v).toNat

/-- The device after bundle `x` issues the word of `i`. -/
def ran (x : Bundle) (i : TWord → Instr) (l : List (Nat × Nat)) : Dev := after (i (tw l)) (holding (devOf x) (i (tw l)) (tw l))

/-- R178: 1.0 + 2.0 is 3.0 in the lane that adds them, by hand. V1 holds 2.0 in lane 0. -/
theorem test_fadd_adds :
    lane (ran { bundle with v := [(0, 0x3F800000), (1, 0x40000000)] } (.fadd 0 0) [(46, 2), (40, 0), (34, 1)]) 2 0
      = some 0x40400000 := by decide +kernel

/-- R180: an integer sum wraps at 2^32. -/
theorem test_iaddi_wraps :
    lane (ran { bundle with v := [(0, 0xFFFFFFFF)] } (.iaddi 0 0) [(46, 2), (40, 0), (0, 1)]) 2 0 = some 0 := by decide +kernel

/-- R180: 2 - 5, the second operand from U0. -/
theorem test_isub_borrows :
    lane (ran { bundle with v := [(1, 2)] } (.isub 0 0) [(46, 2), (40, 1), (27, 1)]) 2 0 = some 0xFFFFFFFD := by decide +kernel

/-- R175: the PC moves past the 8-byte word. -/
theorem test_pc_moves : ((ran bundle (.mov 0 0) [(46, 2), (40, 0)]).bundle? 0 0).map (·.pc) = some 0x48 := by decide +kernel

/-- R175, R177: the word 0x2000810C00000000, spelt by hand, is IADD with D 2, A 1, B 3. -/
theorem test_word_spelt :
    ((after (.iadd 0 0 (tw [(46, 2), (40, 1), (34, 3)])) (withWord (devOf bundle) 0x2000810C00000000)).bundle? 0 0).map (·.pc)
      = some 0x48 := by decide +kernel

/-- Where the bundle fetches another instruction, the command is not its next one. -/
theorem test_other_word_stays :
    after (.isub 0 0 (tw [(46, 2), (40, 1), (34, 3)])) (withWord (devOf bundle) 0x2000810C00000000)
      = (withWord (devOf bundle) 0x2000810C00000000).settle := by decide +kernel

/-- R172: a word with a bit outside its fields stops the bundle, counted. -/
theorem test_bad_word_stops : (ran bundle (.mov 0 0) [(0, 1)]).cget (Cat.THR_FAULT 0) = 1 := by decide +kernel

/-- R176: a reserved OPC stops the bundle, whatever command issues it. -/
theorem test_reserved_stops :
    (after (.mov 0 0 (tw [])) (withWord (devOf bundle) 0)).cget (Cat.THR_FAULT 0) = 1 := by decide +kernel

/-- R346, R329: a packet of version 0 is malformed. -/
theorem test_malformed_counted : (after (.write { pkt with data := List.replicate 42 0 ++ [1] ++ List.replicate 85 0 }) (netDev conn)).cget Cat.NET_RX_MALFORMED = 1 := by decide +kernel

/-- R347, R330: a WRITE that its sender sealed lands in the clear at its offset in the region. -/
theorem test_write_lands :
    memByte (after (.write (opPkt 1 (64 * 2 ^ 64) (List.replicate 64 0xAB))) (netDev conn)).mem (t2Base + 64)
      = 0xAB := by decide +kernel

/-- R319: a frame of 63 bytes, its FCS included, is a runt. -/
theorem test_runt_counted :
    (after (.frameReceive (frame 59)) (netDev conn)).cget (Cat.macCtr 0 Cat.RX_RUNT) = 1 := by decide +kernel

/-- R445: a write of the wrong type code changes no value of the Catalogue; one of the right type does. -/
theorem test_type_checked :
    (after (.netPortMode { bareRq .bus 0x4000 0 with typ := 13 } 1) adminDev).cget Cat.NET_PORT_MODE = 0
      ∧ (after (.netPortMode (bareRq .bus 0x4000 0) 1) adminDev).cget Cat.NET_PORT_MODE = 1 := by decide +kernel

/-- R475: an alert drives ALERT_N low; clearing its bit releases it. -/
theorem test_alert_pin :
    (after (.secEntropyFail 0) liveBus).pins.alertN = false
      ∧ (after (.alertCause (bareRq .bus 0x8000 1) 0x200) { liveBus with cat := [(Cat.ALERT_CAUSE, 0x200)] }).pins.alertN = true := by
  decide +kernel

/-- The queue is first in, first out. -/
theorem test_step_takes_the_front :
    (match step { pending := [.entropyRecovery 0, .backoffExpiry], dev := Dev.reset } with
      | .next t => some t.pending | _ => none) = some [.backoffExpiry] := by decide +kernel

/-- No row of the table has bits, so no word places a command. -/
theorem test_fetch_word : (State.reset.withFetchWord 16 5).pending = [] := rfl

end Sys2Proof.Tests
end

section
/-! SUPPORT. Laws of thread memory instructions: the device on which one acts, what its counts leave alone, and what its
lanes' results make of the bundle (R175, R185, R200). -/

namespace Sys2Proof.Machine

/-! ### Tables and registers filled by a fold -/

/-- A table filled with values computed from keys and choices reads, at a key that was filled, the value of that key with
the choice that the table of choices reads there. -/
theorem Tbl.getD_foldl_set {α β : Type} (g : Nat → β → α) (l : List (Nat × β)) (key : Nat) (x : α) (y : β) (s : Tbl α)
    (s' : Tbl β) (h : key ∈ l.map (·.1) ∨ Tbl.getD s key x = g key (Tbl.getD s' key y)) :
    Tbl.getD (l.foldl (fun s p => Tbl.set s p.1 (g p.1 p.2)) s) key x
      = g key (Tbl.getD (l.foldl (fun s p => Tbl.set s p.1 p.2) s') key y) := by
  induction l generalizing s s' with
  | nil => simpa using h
  | cons p t ih =>
    refine ih _ _ ?_
    by_cases hp : key = p.1
    · exact .inr (by simp [hp])
    · simpa [Tbl.getD_set, hp] using h

/-- Register `r` of every lane of `ls` takes `lo`, and where `wide` register `r + 1` takes `hi`. -/
def Bundle.setWide (x : Bundle) (ls : List Nat) (r : Nat) (wide : Prop) [Decidable wide] (lo hi : Nat → Word) : Bundle :=
  ls.foldl (fun y l => let y := y.setV l r (lo l); if wide then y.setV l (r + 1) (hi l) else y) x

theorem Bundle.setWide_rest (x : Bundle) (ls : List Nat) (r : Nat) (wide : Prop) [Decidable wide] (lo hi : Nat → Word) :
    x.setWide ls r wide lo hi = { x with v := (x.setWide ls r wide lo hi).v } := by
  unfold Bundle.setWide
  induction ls generalizing x with
  | nil => rfl
  | cons a t ih =>
    rw [List.foldl_cons, ih]
    by_cases hw : wide <;> simp only [hw, if_true, if_false] <;> rfl

/-- A register of a lane named reads the lane's result, and every other register what it read. -/
theorem Bundle.vreg_setWide (x : Bundle) (ls : List Nat) (r : Nat) (wide : Prop) [Decidable wide] (lo hi : Nat → Word)
    (hr : r < 64) (hw : wide → r + 1 < 64) (l' r' : Nat) (hr' : r' < 64) :
    (x.setWide ls r wide lo hi).vreg l' r'
      = if l' ∈ ls ∧ r' = r then lo l' else if l' ∈ ls ∧ wide ∧ r' = r + 1 then hi l' else x.vreg l' r' := by
  unfold Bundle.setWide
  induction ls generalizing x with
  | nil => simp
  | cons a t ih =>
    rw [List.foldl_cons, ih]
    have hv : (let y := x.setV a r (lo a); if wide then y.setV a (r + 1) (hi a) else y).vreg l' r'
        = if l' = a ∧ wide ∧ r' = r + 1 then hi a else if l' = a ∧ r' = r then lo a else x.vreg l' r' := by
      by_cases hwide : wide
      · simp only [hwide, if_true, true_and, Bundle.vreg_setV _ _ _ _ _ _ (hw hwide) hr', Bundle.vreg_setV _ _ _ _ _ _ hr hr']
      · simp only [hwide, if_false, false_and, and_false, Bundle.vreg_setV _ _ _ _ _ _ hr hr']
    rw [hv]
    simp only [List.mem_cons]
    grind

/-! ### The counts of a memory instruction -/

section
variable (d : Dev) (t : TCtx) (accs : List LaneAcc) (atom : Bool)

/-- Cycles lost to scratch banks change one counter. -/
theorem Dev.countBanks_rest : d.countBanks t accs atom = { d with cat := (d.countBanks t accs atom).cat } := by
  unfold Dev.countBanks Dev.bumpBy; split <;> rfl

/-- The counter of bank conflicts is field 8 of its index: no other field changes with it. -/
theorem Dev.cget_countBanks (key : Nat) (h : key % 256 ≠ 8) : (d.countBanks t accs atom).cget key = d.cget key := by
  have hk : key ≠ Cat.THR_BANK_CONFLICT t.u := by unfold Cat.THR_BANK_CONFLICT; omega
  unfold Dev.countBanks
  rw [Dev.cget_bumpBy, if_neg hk, Nat.add_zero]

theorem Dev.region_countBanks (pa : Nat) : (d.countBanks t accs atom).region pa = d.region pa := by
  unfold Dev.region Dev.regionAt Dev.integrityOn
  rw [Dev.cget_countBanks _ _ _ _ _ (by decide)]

theorem Dev.xlate_countBanks (j va : Nat) (write : Bool) :
    (d.countBanks t accs atom).xlate j va write = d.xlate j va write := by
  unfold Dev.xlate Dev.keyedFor
  simp only [Dev.region_countBanks]
  rw [Dev.countBanks_rest]
  rfl

theorem Dev.lanePa_countBanks (addr : Nat) : (d.countBanks t accs atom).lanePa t addr = d.lanePa t addr := by
  unfold Dev.lanePa; rw [Dev.xlate_countBanks]

theorem Dev.cell_countBanks (pa : Nat) : (d.countBanks t accs atom).cell pa = d.cell pa := by
  unfold Dev.cell
  rw [Dev.region_countBanks]
  split
  · rw [Dev.cget_countBanks _ _ _ _ _ (by unfold Cat.HOST_WIN_BASE; omega)]
  · rfl

theorem Dev.rd_countBanks (pa n : Nat) : (d.countBanks t accs atom).rd pa n = d.rd pa n := by
  unfold Dev.rd Dev.rdByte Dev.plainByte Dev.plainLine Dev.badLine
  simp only [Dev.region_countBanks, Dev.cell_countBanks]
  rw [Dev.countBanks_rest]
  rfl

theorem Dev.unitLine_countBanks (u j line : Nat) (keep : Bool) :
    (d.countBanks t accs atom).unitLine u j line keep = d.unitLine u j line keep := by
  unfold Dev.unitLine
  simp only [Dev.rd_countBanks]
  rw [Dev.countBanks_rest]
  rfl

end

/-! ### The device on which a memory instruction acts -/

@[simp] theorem memIssued_mem (d : Dev) (t : TCtx) : (memIssued d t).mem = d.mem := by
  unfold memIssued; exact (Dev.notesOf_countMisaligned _ _ _).mem

theorem memIssued_unit (d : Dev) (t : TCtx) (v : Nat) : (memIssued d t).unit v = (d.issue t).unit v := by
  unfold memIssued; exact (Dev.notesOf_countMisaligned _ _ _).unit v

/-- The device with an instruction's misaligned lanes counted (R185). -/
def Dev.misCounted (d : Dev) (t : TCtx) : Dev :=
  d.countMisaligned t.u ((t.act.map (laneAcc t)).filter (·.mis)).length

theorem memIssued_eq (d : Dev) (t : TCtx) : memIssued d t = (d.issue t).misCounted t := rfl

/-- An instruction's own effect, unless one of its lanes stops it (R200). -/
def Dev.unlessStopped (d : Dev) (t : TCtx) (write : Bool) (effect : Dev) : Dev :=
  match d.memStop t (t.act.map (laneAcc t)) write with
  | some s => d.stopMem t s
  | none => effect

theorem Dev.unlessStopped_some {d : Dev} {t : TCtx} {write : Bool} {s : MemStop} (effect : Dev)
    (h : d.memStop t (t.act.map (laneAcc t)) write = some s) : d.unlessStopped t write effect = d.stopMem t s := by
  unfold Dev.unlessStopped; rw [h]

theorem Dev.unlessStopped_none {d : Dev} {t : TCtx} {write : Bool} (effect : Dev)
    (h : d.memStop t (t.act.map (laneAcc t)) write = none) : d.unlessStopped t write effect = effect := by
  unfold Dev.unlessStopped; rw [h]

/-! ### The context of a thread instruction -/

/-- A thread instruction works in a context of its own unit: its effect may name the unit by the context. -/
theorem Dev.thread_congr {u b : Nat} {w : TWord} {used : Nat} {bad : Nat → List Nat} {ready : Dev → Cmd → Bundle → Bool}
    {run run' : TCtx → Dev → Dev} (h : ∀ t d, t.u = u → run t d = run' t d) :
    Dev.thread u b w used bad ready run = Dev.thread u b w used bad ready run' := by
  funext d
  unfold Dev.thread
  simp only [h { u := u, b := b, k := _, cmd := _, x := _, n := _, act := _ } _ rfl]

end Sys2Proof.Machine
end

section
/-! SUPPORT. LD and PREF: what they make of a bundle and leave of the device (R185, R187, R190), and obligation O15. -/

namespace Sys2Proof.Machine

/-! ### The lines that a load sees -/

/-- Lines put into a read buffer change no more than read buffers and the count of free values. -/
theorem Dev.buffersOf_bufferLines (d : Dev) (u j n : Nat) (seen : Tbl (List Byte)) :
    d.buffersOf (seen.foldl (fun d kv => d.bufferLine u j kv.1 kv.2) (d.takeN n)) :=
  (d.buffersOf_takeN n).trans (Dev.buffersOf_foldl _ (fun d kv => d.buffersOf_bufferLine u j kv.1 kv.2) seen _)

/-- Whether the device keeps a buffered copy of a line, by a list of its choices. -/
def keptLine (keeps : List (Nat × Bool)) (line : Nat) : Bool :=
  Tbl.getD (keeps.foldl (fun s p => Tbl.set s p.1 p.2) []) line false

/-- The lines that a load sees: each as the unit sees it by the device's choice for it. -/
def seenLines (d : Dev) (u j : Nat) (keeps : List (Nat × Bool)) : Tbl (List Byte) :=
  keeps.foldl (fun s p => Tbl.set s p.1 (d.unitLine u j p.1 p.2)) []

theorem getD_seenLines (d : Dev) (u j : Nat) (keeps : List (Nat × Bool)) {line : Nat} (h : line ∈ keeps.map (·.1)) :
    Tbl.getD (seenLines d u j keeps) line [] = d.unitLine u j line (keptLine keeps line) :=
  Tbl.getD_foldl_set (d.unitLine u j) keeps line [] false [] [] (.inl h)

/-- Choices made for the lines of a list, by place, are choices for exactly those lines. -/
theorem map_fst_byPlace {β : Type} (lines : List Nat) (f : Nat → β) :
    ((List.range lines.length).map fun i => ((lines[i]?).getD 0, f i)).map (·.1) = lines := by
  rw [List.map_map]
  refine List.ext_getElem (by simp) fun i hi hl => ?_
  simp [hl]

theorem lanePa_mem_accLines (d : Dev) (t : TCtx) {l : Nat} (h : l ∈ t.act) :
    d.lanePa t (laneAcc t l).addr / 64 ∈ d.accLines t (t.act.map (laneAcc t)) := by
  unfold Dev.accLines
  rw [List.mem_dedup, List.map_map]
  exact List.mem_map.mpr ⟨l, h, rfl⟩

@[simp] theorem laneAcc_lane (t : TCtx) (l : Nat) : (laneAcc t l).lane = l := by
  unfold laneAcc; dsimp only; split
  · split <;> rfl
  · split <;> rfl

/-- What a lane finds in the lines that its load sees is what it loads. -/
theorem loadBits_seenLines (d : Dev) (t : TCtx) (keeps : List (Nat × Bool)) {l : Nat}
    (h : d.lanePa t (laneAcc t l).addr / 64 ∈ keeps.map (·.1)) :
    loadBits t.n (laneAcc t l)
        (((Tbl.getD (seenLines d t.u t.cmd.job keeps) (d.lanePa t (laneAcc t l).addr / 64) []).drop
          (d.lanePa t (laneAcc t l).addr % 64)).take (widthBytes t.n))
      = loaded d t (keptLine keeps) l := by
  rw [getD_seenLines _ _ _ _ h]; rfl

/-- The count of bank conflicts changes nothing that a load reads. -/
theorem loaded_countBanks (d : Dev) (t : TCtx) (accs : List LaneAcc) (atom : Bool) (keep : Nat → Bool) (l : Nat) :
    loaded (d.countBanks t accs atom) t keep l = loaded d t keep l := by
  unfold loaded
  simp only [Dev.lanePa_countBanks, Dev.unitLine_countBanks]

/-! ### What it makes of the bundle -/

/-- A load of 64 bits has a second register (R185). -/
theorem wide_of_ldBad {n : Nat} (h : ldBad n = []) (hw : mWidth n = 4) : fD n + 1 < 64 := by
  unfold ldBad ifBad at h
  simp only [List.append_eq_nil_iff] at h
  obtain ⟨-, h⟩ := h
  by_contra hc
  rw [if_pos (by simp [hw]; omega)] at h
  exact absurd h (by simp)

/-- Lane by lane, an instruction's results go to register D, and of 64 bits the high half to D + 1. -/
theorem foldl_lanes_eq_setWide (t : TCtx) (v : LaneAcc → DWord) (x : Bundle) :
    (t.act.map (laneAcc t)).foldl (fun x a =>
        let x := x.setV a.lane (fD t.n) ((v a).setWidth 32)
        if mWidth t.n = 4 then x.setV a.lane (fD t.n + 1) ((v a >>> 32).setWidth 32) else x) x
      = x.setWide t.act (fD t.n) (mWidth t.n = 4) (fun l => (v (laneAcc t l)).setWidth 32)
          (fun l => (v (laneAcc t l) >>> 32).setWidth 32) := by
  unfold Bundle.setWide
  rw [List.foldl_map]
  simp only [laneAcc_lane]

/-- The bundle of a load that has issued: one more load is outstanding, and with ORD 1 it waits as an acquire. -/
def Bundle.afterLoad (x : Bundle) (n : Nat) : Bundle := acquireWait n { x with loads := x.loads + 1 }

theorem Bundle.afterLoad_setWide (x : Bundle) (n : Nat) (ls : List Nat) (r : Nat) (wide : Prop) [Decidable wide]
    (lo hi : Nat → Word) :
    (x.setWide ls r wide lo hi).afterLoad n
      = { x with v := ((x.setWide ls r wide lo hi).afterLoad n).v, loads := x.loads + 1,
                 wait := if bit (mOrd n) 0 then .fence false true (mPackage n) else x.wait } := by
  rw [Bundle.setWide_rest]
  unfold Bundle.afterLoad acquireWait
  split <;> rfl

@[simp] theorem Bundle.vreg_afterLoad (x : Bundle) (n l r : Nat) : (x.afterLoad n).vreg l r = x.vreg l r := by
  unfold Bundle.afterLoad acquireWait
  split <;> rfl

/-! ### LD -/

/-- The device's choice, for each line that a load reads, whether a buffered copy of it is kept. -/
def Dev.loadKeeps (e : Dev) (t : TCtx) : List (Nat × Bool) :=
  let lines := e.accLines t (t.act.map (laneAcc t))
  (List.range lines.length).map fun i => ((lines[i]?).getD 0, decide (e.free i % 2 = 0))

/-- The poisoned lines that a load reads from memory. -/
def Dev.loadPoison (e : Dev) (t : TCtx) : List Nat :=
  ((e.loadKeeps t).filter fun p => !(p.2 && ((e.unit t.u).bufLine? t.cmd.job p.1).isSome) && e.badLine (64 * p.1)).map
    fun p => 64 * p.1

/-- What a lane loads from the lines that are seen. -/
def Dev.loadValue (e : Dev) (t : TCtx) (a : LaneAcc) : DWord :=
  loadBits t.n a (((Tbl.getD (seenLines e t.u t.cmd.job (e.loadKeeps t)) (e.lanePa t a.addr / 64) []).drop
    (e.lanePa t a.addr % 64)).take (widthBytes t.n))

/-- The bundle with each active lane's value in its register or registers. -/
def Dev.loadBundle (e : Dev) (t : TCtx) : Bundle :=
  (t.act.map (laneAcc t)).foldl (fun y a =>
    let y := y.setV a.lane (fD t.n) ((e.loadValue t a).setWidth 32)
    if mWidth t.n = 4 then y.setV a.lane (fD t.n + 1) ((e.loadValue t a >>> 32).setWidth 32) else y) t.x

/-- The device once a load that does not stop has read: its lines lie in the read buffer, its bundle has its results, and
the poison that it read is counted. -/
def Dev.loadLands (e : Dev) (t : TCtx) : Dev :=
  (((seenLines e t.u t.cmd.job (e.loadKeeps t)).foldl (fun d kv => d.bufferLine t.u t.cmd.job kv.1 kv.2)
    (e.takeN (e.accLines t (t.act.map (laneAcc t))).length)).putBundle t ((e.loadBundle t).afterLoad t.n)).threadPoison t
      (e.loadPoison t)

theorem Dev.loadValue_eq_loaded (e : Dev) (t : TCtx) {l : Nat} (h : l ∈ t.act) :
    e.loadValue t (laneAcc t l) = loaded e t (keptLine (e.loadKeeps t)) l := by
  refine loadBits_seenLines e t _ ?_
  unfold Dev.loadKeeps
  rw [map_fst_byPlace]
  exact lanePa_mem_accLines e t h

/-- What LD does once it has issued (R171, R185, R200). -/
def ldRun (t : TCtx) (d : Dev) : Dev :=
  if t.act.isEmpty then d
  else (d.misCounted t).unlessStopped t false (((d.misCounted t).countBanks t (t.act.map (laneAcc t)) false).loadLands t)

theorem ldRun_idle {t : TCtx} (d : Dev) (h : t.act = []) : ldRun t d = d := by simp [ldRun, h]

theorem ldRun_stops {d : Dev} {t : TCtx} {s : MemStop} (h : t.act ≠ [])
    (hs : (memIssued d t).memStop t (t.act.map (laneAcc t)) false = some s) :
    ldRun t (d.issue t) = (memIssued d t).stopMem t s := by
  unfold ldRun
  rw [if_neg (by simpa using h), ← memIssued_eq, Dev.unlessStopped_some _ hs]

theorem ldRun_lands {d : Dev} {t : TCtx} (h : t.act ≠ [])
    (hs : (memIssued d t).memStop t (t.act.map (laneAcc t)) false = none) :
    ldRun t (d.issue t) = ((memIssued d t).countBanks t (t.act.map (laneAcc t)) false).loadLands t := by
  unfold ldRun
  rw [if_neg (by simpa using h), ← memIssued_eq, Dev.unlessStopped_none _ hs]

/-- A load that lands gives the bundle its results, and leaves memory. -/
theorem Dev.loadLands_bundle (e : Dev) (t : TCtx) :
    (e.loadLands t).bundle? t.u t.b = some ((e.loadBundle t).afterLoad t.n) ∧ (e.loadLands t).mem = e.mem := by
  unfold Dev.loadLands
  have hbuf := e.buffersOf_bufferLines t.u t.cmd.job (e.accLines t (t.act.map (laneAcc t))).length
    (seenLines e t.u t.cmd.job (e.loadKeeps t))
  have hnotes := Dev.notesOf_threadPoison
  rw [(hnotes _ t _).bundle, (hnotes _ t _).mem]
  exact ⟨Dev.setBundle_bundle _ _ _ _, hbuf.mem⟩

/-- The registers of a load's bundle: those of active lanes hold what their lanes load, and every other keeps its value. -/
theorem Dev.vreg_loadBundle (e : Dev) (t : TCtx) (hn : ldBad t.n = []) (l r : Nat) (hr : r < 64) :
    (e.loadBundle t).vreg l r =
      if l ∈ t.act ∧ r = fD t.n then (loaded e t (keptLine (e.loadKeeps t)) l).setWidth 32
      else if l ∈ t.act ∧ mWidth t.n = 4 ∧ r = fD t.n + 1 then
        (loaded e t (keptLine (e.loadKeeps t)) l >>> 32).setWidth 32
      else t.x.vreg l r := by
  unfold Dev.loadBundle
  rw [foldl_lanes_eq_setWide, Bundle.vreg_setWide _ _ _ _ _ _ (fD_lt _) (wide_of_ldBad hn) _ _ hr]
  by_cases hl : l ∈ t.act
  · rw [Dev.loadValue_eq_loaded e t hl]
  · simp [hl]

theorem execLdD_eq (u b : Nat) (w : TWord) :
    execLdD u b w = Dev.thread u b w (mMem + mD + mk 28 1) ldBad (loadReady u b w) ldRun :=
  Dev.thread_congr fun t d hu => by subst hu; rfl

theorem exec_ld (u b : Nat) (w : TWord) (s : State) :
    exec (.ld u b w) s = lift (Dev.fetched (opcOf (.ld u b w)) u b w (execLdD u b w)) s := rfl

theorem exec_pref (u b : Nat) (w : TWord) (s : State) :
    exec (.pref u b w) s = lift (Dev.fetched (opcOf (.pref u b w)) u b w (execPrefD u b w)) s := rfl

/-- What the statements ask of a load's issue is what it waits for (R22, R24, R203). -/
theorem loadReady_of {u b : Nat} {w : TWord} {d : Dev} {c : Cmd} {x : Bundle}
    (h : (ctx u b x c w).x.loads < 16 ∧ d.lanesStalled (ctx u b x c w) = false) : loadReady u b w d c x = true := by
  obtain ⟨hl, hs⟩ := h
  have hl' : x.loads < 16 := hl
  have hs' : d.lanesStalled (issuing u b w c x) = false := hs
  simp [loadReady, hl', hs']

/-! ### PREF -/

/-- What PREF does once it has issued (R203). -/
def prefRun (t : TCtx) (d : Dev) : Dev :=
  if mScr t.n || t.act.isEmpty then d
  else
    let accs := (t.act.map (laneAcc t)).filter fun a => (d.xlate t.cmd.job a.addr false).isSome
    let lines := d.accLines t accs
    (lines.foldl (fun d l => d.bufferLine t.u t.cmd.job l (d.unitLine t.u t.cmd.job l true)) d).putBundle t
      { t.x with loads := t.x.loads + 1 }

theorem prefRun_idle {t : TCtx} (d : Dev) (h : t.act = [] ∨ mScr t.n = true) : prefRun t d = d := by
  rcases h with h | h <;> simp [prefRun, h]

theorem prefRun_mem (t : TCtx) (d : Dev) : (prefRun t d).mem = d.mem := by
  unfold prefRun
  split
  · rfl
  · exact (Dev.buffersOf_foldl _ (fun e l => e.buffersOf_bufferLine _ _ l _) _ d).mem

theorem prefRun_bundle {t : TCtx} (d : Dev) (ha : t.act ≠ []) (hs : mScr t.n = false) :
    (prefRun t d).bundle? t.u t.b = some { t.x with loads := t.x.loads + 1 } := by
  unfold prefRun
  rw [if_neg (by simp [ha, hs])]
  exact Dev.setBundle_bundle _ _ _ _

theorem execPrefD_eq (u b : Nat) (w : TWord) :
    execPrefD u b w = Dev.thread u b w mMem prefBad (prefReady u b w) prefRun :=
  Dev.thread_congr fun t d hu => by subst hu; rfl

/-! ### The obligation -/

/-- Settles O15: a load that lands is the fold of its lanes' values over the bundle, each value read from its line by the
device's choice for that line; stops and idle issues are LD's and PREF's other branches. -/
theorem loadsAndPrefetches : Obligations.LoadsAndPrefetches := by
  refine ⟨ThreadWhen.of loadReady (fun _ _ _ => ldRun) exec_ld execLdD_eq
      (fun d u b w x c h => loadReady_of h)
      fun d u b w x c _ _ hb _ => ⟨fun ha => ?_, fun stop ha hs => ldRun_stops ha hs, fun ha hs => ?_⟩,
    ThreadWhen.of prefReady (fun _ _ _ => prefRun) exec_pref execPrefD_eq
      (fun d u b w x c h => ?_)
      fun d u b w x c _ _ _ _ => ⟨prefRun_mem _ _, fun ha => ?_, fun ha hs => prefRun_bundle _ ha hs⟩⟩
  · rw [ldRun_idle _ ha]; exact Dev.issue_frame0 _ _
  · rw [ldRun_lands ha hs]
    have hn : ldBad (ctx u b x c w).n = [] := hb
    generalize ctx u b x c w = t at *
    generalize he : (memIssued d t).countBanks t (t.act.map (laneAcc t)) false = e
    have hv := e.vreg_loadBundle t hn
    have hmem : e.mem = d.mem := by rw [← he, Dev.countBanks_rest]; exact memIssued_mem d t
    have hloaded : ∀ keep l, loaded e t keep l = loaded (memIssued d t) t keep l := by
      rw [← he]; exact loaded_countBanks _ _ _ _
    obtain ⟨hy, hm⟩ := e.loadLands_bundle t
    refine ⟨_, keptLine (e.loadKeeps t), hy, hm.trans hmem, ?_, fun l hl => ?_, fun l hl hw => ?_, fun l r _ hr hlr => ?_⟩
    · unfold Dev.loadBundle
      rw [foldl_lanes_eq_setWide]
      exact Bundle.afterLoad_setWide _ _ _ _ _ _ _
    · rw [Bundle.vreg_afterLoad, hv l _ (fD_lt _), if_pos ⟨hl, rfl⟩, hloaded]
    · rw [Bundle.vreg_afterLoad, hv l _ (wide_of_ldBad hn hw), if_neg (by simp), if_pos ⟨hl, hw, rfl⟩, hloaded]
    · rw [Bundle.vreg_afterLoad, hv l r hr, if_neg fun h => hlr.elim (· h.1) (·.1 h.2),
        if_neg fun h => hlr.elim (· h.1) (·.2 h.2.1 h.2.2)]
  · rcases h with h | h
    · have hs : mScr w.toNat = true := h
      simp [prefReady, hs]
    · simp [prefReady, loadReady_of h]
  · rw [prefRun_idle _ ha]; exact Dev.issue_frame0 _ _

end Sys2Proof.Machine
end

section
/-! SUPPORT. ST: what it makes of memory, of its unit's queue of stores and of its read buffer (R17, R186, R187), and
obligation O16. -/

namespace Sys2Proof.Machine

/-! ### Stores that are accepted -/

/-- A sink that accepts a store changes memory, poison and what a write reports, and no unit. -/
theorem Dev.tracedOf_acceptStore (d : Dev) (p : PendStore) : d.tracedOf (d.acceptStore p) := by
  unfold Dev.acceptStore
  split <;> exact d.tracedOf_wrLine _ _

theorem Dev.tracedOf.units {d e : Dev} (h : d.tracedOf e) : e.units = d.units := by rw [h.1]
theorem Dev.tracedOf.unit {d e : Dev} (h : d.tracedOf e) (u : Nat) : e.unit u = d.unit u := by
  unfold Dev.unit; rw [h.units]

/-- Whether an address lies in a unit's own scratch or SRAM is a fact of the address map alone (R17). -/
theorem Dev.ownScratch_eq (d e : Dev) (u pa : Nat) : d.ownScratch u pa = e.ownScratch u pa := by
  unfold Dev.ownScratch Dev.region Dev.regionAt
  by_cases h : pa % 2 ^ 64 < t2Base
  · simp only [h, if_true]
    split_ifs <;> rfl
  · simp only [h, if_false]

/-! ### Stores that update the read buffer -/

/-- `e` differs from `d` in the read buffer of unit `u`, at most. -/
def Dev.bufferOf (u : Nat) (d e : Dev) : Prop :=
  e = { d with units := e.units } ∧ e.unit u = { d.unit u with buf := (e.unit u).buf } ∧ ∀ v, v ≠ u → e.unit v = d.unit v

theorem Dev.bufferOf.refl (u : Nat) (d : Dev) : Dev.bufferOf u d d := ⟨rfl, rfl, fun _ _ => rfl⟩

theorem Dev.bufferOf.trans {u : Nat} {a b c : Dev} (h : Dev.bufferOf u a b) (k : Dev.bufferOf u b c) : Dev.bufferOf u a c := by
  obtain ⟨h1, h2, h3⟩ := h
  obtain ⟨k1, k2, k3⟩ := k
  exact ⟨by rw [k1, h1], by rw [k2, h2], fun v hv => (k3 v hv).trans (h3 v hv)⟩

theorem Dev.bufferOf_storeToBuffer (d : Dev) (u : Nat) (p : PendStore) : Dev.bufferOf u d (d.storeToBuffer u p) := by
  unfold Dev.storeToBuffer
  dsimp only
  split
  · exact ⟨rfl, by simp, fun v hv => by rw [Dev.setUnit_unit_of, if_neg hv]⟩
  · exact .refl u d

theorem Dev.bufferOf_storesToBuffer (u : Nat) (ps : List PendStore) (d : Dev) :
    Dev.bufferOf u d (ps.foldl (fun d p => d.storeToBuffer u p) d) := by
  induction ps generalizing d with
  | nil => exact .refl u d
  | cons p t ih => exact (d.bufferOf_storeToBuffer u p).trans (ih _)

/-! ### ST -/

/-- The device once the stores of an instruction that go to its unit's own scratch are performed. -/
def Dev.ownStoresLand (d : Dev) (u : Nat) (ps : List PendStore) : Dev :=
  (ps.filter fun p => d.ownScratch u p.pa).foldl (fun d p => d.acceptStore p) d

theorem Dev.tracedOf_ownStoresLand (d : Dev) (u : Nat) (ps : List PendStore) : d.tracedOf (d.ownStoresLand u ps) :=
  Dev.tracedOf_foldl _ _ (fun d p => d.tracedOf_acceptStore p) _

/-- The stores of an instruction: those to the unit's own scratch land, the others enter the unit's queue and its read
buffer, and nothing else changes. -/
theorem Dev.issueStores_effect (d : Dev) (u : Nat) (ps : List PendStore) :
    let e := d.ownStoresLand u ps
    let r := d.issueStores u ps
    r = { e with units := r.units }
      ∧ r.unit u = { e.unit u with
          stores := (e.unit u).stores ++ ps.filter (fun p => !d.ownScratch u p.pa), buf := (r.unit u).buf }
      ∧ ∀ v, v ≠ u → r.unit v = e.unit v := by
  intro e r
  obtain ⟨h1, h2, h3⟩ := Dev.bufferOf_storesToBuffer u (ps.filter fun p => !d.ownScratch u p.pa) e
  generalize hf : (ps.filter fun p => !d.ownScratch u p.pa).foldl (fun d p => d.storeToBuffer u p) e = f at h1 h2 h3
  have hr : r = f.setUnit u { f.unit u with stores := (f.unit u).stores ++ ps.filter fun p => !d.ownScratch u p.pa } := by
    rw [← hf]; rfl
  rw [hr]
  refine ⟨by rw [h1]; rfl, ?_, fun v hv => ?_⟩
  · rw [Dev.setUnit_unit, h2]
  · rw [Dev.setUnit_unit_of, if_neg hv, h3 v hv]

/-- The runs of bytes that a store instruction writes. -/
def storeRuns (d : Dev) (t : TCtx) : List PendStore :=
  runs t.b t.k t.cmd.job (d.nextStore t.u) (gather (storeItems d t))

/-- What ST does once it has issued (R186, R200). -/
def stRun (t : TCtx) (d : Dev) : Dev :=
  let m := d.misCounted t
  m.unlessStopped t true ((m.countBanks t (t.act.map (laneAcc t)) false).issueStores t.u (storeRuns m t))

theorem stRun_stops {d : Dev} {t : TCtx} {s : MemStop}
    (hs : (memIssued d t).memStop t (t.act.map (laneAcc t)) true = some s) :
    stRun t (d.issue t) = (memIssued d t).stopMem t s := Dev.unlessStopped_some _ hs

theorem stRun_lands {d : Dev} {t : TCtx} (hs : (memIssued d t).memStop t (t.act.map (laneAcc t)) true = none) :
    stRun t (d.issue t) = ((memIssued d t).countBanks t (t.act.map (laneAcc t)) false).issueStores t.u
      (storeRuns (memIssued d t) t) := Dev.unlessStopped_none _ hs

theorem execStD_eq (u b : Nat) (w : TWord) :
    execStD u b w = Dev.thread u b w (mMem + mD) stBad (storeReady u b w) stRun :=
  Dev.thread_congr fun t d hu => by subst hu; rfl

theorem exec_st (u b : Nat) (w : TWord) (s : State) :
    exec (.st u b w) s = lift (Dev.fetched (opcOf (.st u b w)) u b w (execStD u b w)) s := rfl

/-- What the statement asks of a store's issue is what it waits for (R191, R203). -/
theorem storeReady_of {u b : Nat} {w : TWord} {d : Dev} {c : Cmd} {x : Bundle}
    (h : d.storeCount (ctx u b x c w).u (ctx u b x c w).k (ctx u b x c w).b < 64
      ∧ d.releaseMet (ctx u b x c w).u (ctx u b x c w).k (ctx u b x c w).b (ctx u b x c w).n = true) :
    storeReady u b w d c x = true := by
  obtain ⟨hc, hr⟩ := h
  have hc' : d.storeCount u x.cmd b < 64 := hc
  have hr' : d.releaseMet u x.cmd b w.toNat = true := hr
  simp [storeReady, hc', hr']

/-! ### The obligation -/

/-- Settles O16: what a store leaves in the unit's own scratch is what its sink makes of each run there in turn, and what it
leaves elsewhere waits in the unit's queue; both follow from what `issueStores` changes. -/
theorem storesWaitInTheirUnit : Obligations.StoresWaitInTheirUnit := by
  refine ThreadWhen.of storeReady (fun _ _ _ => stRun) exec_st execStD_eq (fun d u b w x c h => storeReady_of h)
    fun d u b w x c _ _ _ _ => ⟨fun stop hs => stRun_stops hs, fun hs => ?_⟩
  rw [stRun_lands hs]
  generalize ctx u b x c w = t at hs ⊢
  intro ps own e
  generalize hm : (memIssued d t).countBanks t (t.act.map (laneAcc t)) false = m at *
  have hown : own = fun p => m.ownScratch t.u p.pa := funext fun p => Dev.ownScratch_eq _ _ _ _
  have he : e = m.ownStoresLand t.u ps := by unfold Dev.ownStoresLand; rw [← hown, ← hm]
  obtain ⟨hrest, hunit, hother⟩ := m.issueStores_effect t.u ps
  have hown' : (fun p : PendStore => !m.ownScratch t.u p.pa) = fun p => !own p := by rw [hown]
  rw [hown', ← he] at hunit
  rw [← he] at hrest hother
  have hunits : ∀ v, e.unit v = (d.issue t).unit v := fun v => by
    rw [he, (m.tracedOf_ownStoresLand t.u ps).unit, ← memIssued_unit, ← hm, Dev.countBanks_rest]; rfl
  obtain ⟨-, -, hself, hothers, -⟩ := d.issue_frame0 t
  have hmem : (m.issueStores t.u ps).mem = e.mem := by rw [hrest]
  refine ⟨hmem, ?_, hrest, ?_, fun v hv => ((hother v hv).trans (hunits v)).trans (hothers v hv)⟩
  · have hb : (e.unit t.u).bundles = ((d.issue t).unit t.u).bundles := by rw [hunits]
    show Tbl.find? ((m.issueStores t.u ps).unit t.u).bundles t.b = some t.x
    rw [hunit]
    exact (congrArg (Tbl.find? · t.b) hb).trans (Dev.setBundle_bundle _ _ _ _)
  · have hq : (e.unit t.u).stores = (d.unit t.u).stores := by rw [hunits, hself]
    rw [← hq]
    exact hunit

end Sys2Proof.Machine
end

section
/-! SUPPORT. COPY and SLIP commands (R70, R220, R252): the lines of a copy, a slip's part on a unit, and obligation O33. -/

namespace Sys2Proof.Machine

/-! ### Argument blocks -/

theorem Dev.withArgs_badLen {d : Dev} {k : Nat} {c : Cmd} {lenOk : Bool} (f : Nat → Dev → Dev) (h : lenOk = false) :
    d.withArgs k c lenOk f = d.workRefused k 0x30 376 := by
  unfold Dev.withArgs; rw [h]; rfl

/-- A block that is mapped throughout, and of a right length, is read, and its poisoned lines are counted (R84, R220). -/
theorem Dev.withArgs_reads {d : Dev} {k : Nat} {c : Cmd} {lenOk : Bool} (f : Nat → Dev → Dev) (h : lenOk = true)
    (hf : d.firstFault c.job c.argsVa c.argsLen false = none) :
    d.withArgs k c lenOk f
      = f (d.jnat c.job c.argsVa c.argsLen) (d.cmdPoison k (d.jbad c.job c.argsVa c.argsLen)) := by
  unfold Dev.withArgs; rw [h, hf]; rfl

theorem Dev.job_cmdPoison (d : Dev) (k j : Nat) (lines : List Nat) : (d.cmdPoison k lines).job j = d.job j := by
  unfold Dev.job; rw [(d.notesOf_cmdPoison k lines).jobs]

/-! ### COPY -/

/-- The lines that a COPY's argument block names, each from its source to its destination, row by row (R252). -/
def copyPairs (n : Nat) : List (Nat × Nat) :=
  ((List.range (fld n 160 16)).map fun r => (List.range (fld n 128 24 / 64)).map fun i =>
    ((fld n 0 52 + r * fld n 192 40 + 64 * i) % 2 ^ 52, (fld n 64 52 + r * fld n 256 40 + 64 * i) % 2 ^ 52)).flatten

/-- What COPY does with an argument block that it can read. -/
def copyRun (k : Nat) (c : Cmd) (n : Nat) (p : Dev) : Dev :=
  if !copyOk n then p.workRefused k 0x30 0
  else
    let u := p.copyUnit c.job (fld n 0 52) (fld n 64 52)
    ((p.copyAcquire u c.job).atUnit k u).copyLines k c.job (copyPairs n)

theorem exec_copy (at_ k : Nat) (s : State) :
    exec (.copy at_ k) s
      = lift (Dev.dispatch 1 0 (fun k c d => d.withArgs k c (c.argsLen = 64) (copyRun k c)) at_ k) s := rfl

section
variable {d : Dev} {k j s t : Nat} {rest : List (Nat × Nat)}

theorem Dev.copyLines_sourceFault (h : d.xlate j s false = none) :
    d.copyLines k j ((s, t) :: rest) = (d.cmdFault k j s).workDone k := by
  rw [Dev.copyLines, h]

theorem Dev.copyLines_destinationFault {x : Nat × Page} (hs : d.xlate j s false = some x) (ht : d.xlate j t true = none) :
    d.copyLines k j ((s, t) :: rest) = (d.cmdFault k j t).workDone k := by
  rw [Dev.copyLines, hs, ht]

variable {ps pt : Nat} {p q : Page} (hs : d.xlate j s false = some (ps, p)) (ht : d.xlate j t true = some (pt, q))
include hs ht

/-- A line whose source and destination take requests is written, and the copy goes on. -/
theorem Dev.copyLines_writes (h : ¬ (d.stalledAt ps = true ∨ d.stalledAt pt = true)) :
    d.copyLines k j ((s, t) :: rest)
      = ((if d.badLine ps then d.cmdPoison k [ps] else d).wrLine pt
          ((if d.badLine ps then d.cmdPoison k [ps] else d).rd ps 64)).copyLines k j rest := by
  rw [Dev.copyLines, hs, ht]
  dsimp only
  rw [if_neg (by simpa using h)]

/-- It waits where either of them takes none (R22, R24). -/
theorem Dev.copyLines_waits (h : d.stalledAt ps = true ∨ d.stalledAt pt = true) :
    d.copyLines k j ((s, t) :: rest) = d.updCmd k fun c => { c with copyLeft := (s, t) :: rest } := by
  rw [Dev.copyLines, hs, ht]
  dsimp only
  rw [if_pos (by simpa using h)]

end

theorem exec_memoryAccessComplete (at_ : Nat) (a : AccessId) (s : State) :
    exec (.memoryAccessComplete at_ a) s = lift (execMemoryAccessCompleteD at_ a) s := rfl

/-- A COPY told that accesses complete does nothing where it waits for none, and else goes on where it stopped. -/
theorem Dev.copyOn_eq {d : Dev} {k : Nat} {c : Cmd} (h : d.cmd? k = some c) :
    d.copyOn k = if c.copyLeft = [] then d
      else (d.setCmd k { c with copyLeft := [] }).copyLines k c.job c.copyLeft := by
  unfold Dev.copyOn
  simp only [h, List.isEmpty_iff]

/-! ### SLIP -/

/-- What SLIP does with an argument block that it can read. -/
def slipRun (k : Nat) (c : Cmd) (n : Nat) (p : Dev) : Dev :=
  if c.argsLen ≠ ceilDiv (320 + 8 * fld n 128 16) 64 * 64 then p.workRefused k 0x30 376
  else if fld n 0 64 ≠ 0 && !slipPermitted (p.job c.job) n then p.workRefused k 0x31 0
  else if !slipArgsOk (p.job c.job) n then p.workRefused k 0x30 0
  else (setBits 72 (slipUnits n)).foldl (fun d u => d.startSlipIfFits k u) (p.updCmd k fun c => { c with unitsLeft := slipUnits n })

theorem exec_slip (at_ k : Nat) (s : State) :
    exec (.slip at_ k) s = lift (Dev.dispatch 1 1 (fun k c d => d.withArgs k c true (slipRun k c)) at_ k) s := rfl

/-- A SLIP starts on a unit that is still to come and has room, and on no other. -/
theorem Dev.startSlipIfFits_eq {d : Dev} {k : Nat} {c : Cmd} (u : Nat) (h : d.cmd? k = some c) (hc : c.cls = 1) :
    d.startSlipIfFits k u
      = if bit c.unitsLeft u = true ∧ d.slipFits u k (fld (d.slipArgs c) 512 2048) = true then d.startSlipPart k c u else d := by
  unfold Dev.startSlipIfFits
  simp only [h, hc, decide_true, Bool.true_and, Bool.and_eq_true]

theorem exec_commandStartOnUnit (at_ k u : Nat) (s : State) :
    exec (.commandStartOnUnit at_ k u) s = lift (execCommandStartOnUnitD at_ k u) s := rfl

/-- The start of a running SLIP on a unit that is still to come and has room, when the slot admits it (R91, R252). -/
theorem execCommandStartOnUnitD_slip {d : Dev} {at_ k u : Nat} {c : Cmd} (h : (d.advance at_).cmd? k = some c)
    (hc : c.cls = 1) (hst : c.st = .running) (hb : bit c.unitsLeft u = true) (ha : (d.advance at_).slotAllows c = true)
    (hf : (d.advance at_).slipFits u k (fld ((d.advance at_).slipArgs c) 512 2048) = true) :
    execCommandStartOnUnitD at_ k u d = (d.advance at_).startSlipPart k c u := by
  unfold execCommandStartOnUnitD
  simp only [h]
  rw [if_neg (by simp [hst, hb, ha]), if_neg (by simp [hc]), Dev.startSlipIfFits_eq u h hc, if_pos ⟨hb, hf⟩]

/-! ### The obligation -/

/-- Settles O33: each clause is one branch of a named operation, COPY's and SLIP's effect on a block that is read, one line
of a copy, a waiting copy that goes on, a slip's start on one unit. -/
theorem copyAndSlipCommands : Obligations.CopyAndSlipCommands := by
  refine ⟨RingOp.of _ exec_copy fun d k c _ => ⟨fun h => ?_, fun h hf => ⟨fun ho => ?_, fun ho => ?_⟩⟩, fun _ _ _ => rfl,
    fun d k j s t ps pt p q rest hs ht => ⟨fun hw hb => ?_, fun hw hb => ?_, Dev.copyLines_waits hs ht⟩,
    fun s at_ k c h => ⟨_, exec_memoryAccessComplete _ _ _, ?_⟩,
    fun d k j s t rest => ⟨Dev.copyLines_sourceFault, fun x => Dev.copyLines_destinationFault⟩,
    RingOp.of _ exec_slip fun d k c _ => ?_, fun d k u c h hc => ⟨fun hn => ?_, fun hb hf => ?_⟩, ?_⟩
  · exact Dev.withArgs_badLen _ (by simpa using h)
  · rw [Dev.withArgs_reads _ (by simpa using h) (by rw [h]; exact hf), h]
    simp [copyRun, ho]
  · intro u
    rw [Dev.withArgs_reads _ (by simpa using h) (by rw [h]; exact hf), h]
    unfold copyRun
    rw [ho]
    rfl
  · rw [Dev.copyLines_writes hs ht hw, hb]; rfl
  · rw [Dev.copyLines_writes hs ht hw, hb]; rfl
  · have hon : execMemoryAccessCompleteD at_ (.copy k) s.dev = _ := Dev.copyOn_eq h
    rw [hon]
    exact ⟨fun hl => if_pos hl, fun hl => if_neg hl⟩
  · intro n hf hl hp p
    rw [Dev.withArgs_reads _ rfl hf]
    have hp' : (decide (fld n 0 64 ≠ 0) && !slipPermitted (p.job c.job) n) = false := by
      rw [Dev.job_cmdPoison]
      by_cases h0 : fld n 0 64 = 0
      · simp [h0]
      · simp [hp h0]
    unfold slipRun
    rw [if_neg (not_not.mpr hl), hp']
    exact ⟨fun ho => by rw [ho]; rfl, fun ho => by rw [ho]; rfl⟩
  · rw [Dev.startSlipIfFits_eq u h hc, if_neg]
    rcases hn with hn | hn <;> simp [hn]
  · rw [Dev.startSlipIfFits_eq u h hc, if_pos ⟨hb, hf⟩]
  · intro s at_ k u c d h hc hst hb ha hf
    exact ⟨_, exec_commandStartOnUnit _ _ _ _, execCommandStartOnUnitD_slip h hc hst hb ha hf⟩

end Sys2Proof.Machine
end

section
/-! SUPPORT. FETCH and PUT: the transfer that they put in flight, and where they stop (R241, R242, R253, R254). -/

namespace Sys2Proof.Machine

/-! ### The lines of a transfer -/

theorem Dev.ctx?_setCtx (d : Dev) (u x : Nat) (s : Slip) : (d.setCtx u x s).ctx? u x = some s := by
  simp [Dev.ctx?, Dev.setCtx, Dev.setMover]

/-- The device with what is counted of the lines that are issued: the poison that a FETCH reads (R220), the bytes that a PUT
sends out. -/
def Dev.moveCounted (d : Dev) (put : Bool) (t : SCtx) (ls : List MoveLine) : Dev :=
  let bad := if put then [] else (ls.map fun l => d.linePa t.cmd.job l.va).filter d.badLine
  let d := d.cmdPoison t.s.cmd bad
  if put then d.bumpBy (Cat.STRM_BYTES_OUT t.u) (64 * ls.length) else d

theorem Dev.notesOf_moveCounted (d : Dev) (put : Bool) (t : SCtx) (ls : List MoveLine) :
    d.notesOf (d.moveCounted put t ls) := by
  unfold Dev.moveCounted
  dsimp only
  split
  · exact (d.notesOf_cmdPoison _ _).trans (Dev.notesOf_bumpBy _ _ _)
  · exact d.notesOf_cmdPoison _ _

/-- The lines that a FETCH or a PUT has still to issue: from its saved position on. -/
def SCtx.linesToMove (t : SCtx) : List MoveLine :=
  let lines := moveLines (t.aReg 55) (t.cReg 47).toNat (t.aReg 52) (xRows t.n) (xRowBytes t.n)
  match t.s.saved with
  | some (r, y) => lines.filter fun l => r < l.row || (l.row = r && y ≤ l.byte)
  | none => lines

/-- The slip with the lines that were issued in flight, in one transfer. -/
def Dev.withTransfer (d : Dev) (put : Bool) (t : SCtx) (ls : List MoveLine) : Slip :=
  if ls.isEmpty then t.s
  else { t.s with inflight := t.s.inflight ++ [Transfer.plain (ls.map (d.lineWrite t.u t.cmd.job put)) (!put) (t.aReg 52)
    (xRows t.n * xRowBytes t.n)] }

theorem Dev.withTransfer_eq (d : Dev) (put : Bool) (t : SCtx) (ls : List MoveLine) :
    d.withTransfer put t ls = { t.s with inflight := if ls = [] then t.s.inflight
      else t.s.inflight ++ [Transfer.plain (ls.map (d.lineWrite t.u t.cmd.job put)) (!put) (t.aReg 52)
        (xRows t.n * xRowBytes t.n)] } := by
  unfold Dev.withTransfer
  cases ls <;> rfl

/-- Register `r` of `a`, stepped by `n` bytes in the job's address space. -/
def stepReg (a : List Nat) (r n : Nat) : List Nat := listSet a r (((a[r]?).getD 0 + n) % 2 ^ 52)

/-- Address registers `a` once a transfer is issued whole: stepped as bits 51 and then 50 say (R242). -/
def SCtx.stepRegs (t : SCtx) (a : List Nat) : List Nat :=
  let a := if bit t.n 51 then stepReg a (fld t.n 55 3) (xRows t.n * (t.cReg 47).toNat) else a
  if bit t.n 50 then stepReg a (fld t.n 52 3) (xRows t.n * xRowBytes t.n) else a

/-! ### How it ends -/

/-- How a FETCH or a PUT ends: `s` has its lines in flight, and `stop` is the first line that it may not issue. -/
def Dev.moveEnds (e : Dev) (t : SCtx) (s : Slip) : Option (MoveLine × LineStop) → Dev
  | some (l, .fault) => (e.xfault t.cmd.job l.va).stopSlip t.u t.x s 0x11 l.va
  | some (l, .migrate) =>
    (e.setCtx t.u t.x { s with pc := s.pc - 8, saved := some (l.row, l.byte) }).haltCommand s.cmd t.u t.x (s.pc - 8) l.va
      l.row l.byte
  | none => e.setCtx t.u t.x { s with a := t.stepRegs s.a, saved := none }

/-- FETCH and PUT issue the lines before the first that they may not, and end by it. -/
theorem Dev.move_eq (put : Bool) (t : SCtx) (d : Dev) :
    Dev.move put t d =
      (d.moveCounted put t (d.issueLines t.u t.cmd.job put t.linesToMove).1).moveEnds t
        (d.withTransfer put t (d.issueLines t.u t.cmd.job put t.linesToMove).1)
        (d.issueLines t.u t.cmd.job put t.linesToMove).2 := rfl

section
variable {put : Bool} {t : SCtx} {d : Dev} {l : MoveLine}

/-- What a slip has in flight once a FETCH or a PUT has issued the lines that it may. -/
def Dev.flightAfter (d : Dev) (put : Bool) (t : SCtx) : List Transfer :=
  let ls := (d.issueLines t.u t.cmd.job put t.linesToMove).1
  if ls = [] then t.s.inflight
  else t.s.inflight ++ [Transfer.plain (ls.map (d.lineWrite t.u t.cmd.job put)) (!put) (t.aReg 52)
    (xRows t.n * xRowBytes t.n)]

/-- A transfer whose lines may all be issued goes on behind them, with its registers stepped. -/
theorem Dev.move_issuesAll (h : (d.issueLines t.u t.cmd.job put t.linesToMove).2 = none) :
    (Dev.move put t d).mem = d.mem
      ∧ (Dev.move put t d).ctx? t.u t.x
        = some { t.s with inflight := d.flightAfter put t, saved := none, a := t.stepRegs t.s.a } := by
  rw [Dev.move_eq, h, Dev.withTransfer_eq]
  exact ⟨(d.notesOf_moveCounted put t _).mem, Dev.ctx?_setCtx _ _ _ _⟩

/-- One that meets a line that is not mapped is stopped there. -/
theorem Dev.move_faults (h : (d.issueLines t.u t.cmd.job put t.linesToMove).2 = some (l, .fault)) :
    ∃ e : Dev, e.mem = d.mem ∧ e.units = d.units
      ∧ Dev.move put t d = (e.xfault t.cmd.job l.va).stopSlip t.u t.x { t.s with inflight := d.flightAfter put t } 0x11 l.va := by
  have hnotes := d.notesOf_moveCounted put t (d.issueLines t.u t.cmd.job put t.linesToMove).1
  refine ⟨_, hnotes.mem, hnotes.units, ?_⟩
  rw [Dev.move_eq, h, Dev.withTransfer_eq]
  rfl

/-- One that meets a migrating page keeps its place, and its command halts. -/
theorem Dev.move_migrates (h : (d.issueLines t.u t.cmd.job put t.linesToMove).2 = some (l, .migrate)) :
    ∃ e : Dev, e.mem = d.mem ∧ e.units = d.units
      ∧ Dev.move put t d = (e.setCtx t.u t.x { t.s with
            inflight := d.flightAfter put t, pc := t.s.pc - 8, saved := some (l.row, l.byte) }).haltCommand
          t.s.cmd t.u t.x (t.s.pc - 8) l.va l.row l.byte := by
  have hnotes := d.notesOf_moveCounted put t (d.issueLines t.u t.cmd.job put t.linesToMove).1
  refine ⟨_, hnotes.mem, hnotes.units, ?_⟩
  rw [Dev.move_eq, h, Dev.withTransfer_eq]
  rfl

end

theorem exec_fetch_put (put : Bool) (at_ u x : Nat) (w : SWord) (s : State) :
    exec ((if put then Instr.put else Instr.fetch) at_ u x w) s
      = lift (Dev.slipFetched (opcOf ((if put then Instr.put else Instr.fetch) at_ u x w)) at_ u x w
          (Dev.slipOp at_ u x w mSlipM moveBad (Dev.move put))) s := by
  cases put <;> rfl

end Sys2Proof.Machine
end

section
/-! SUPPORT. FMT: the lines that it reads, the output that it puts in flight, and where it stops (R246, R250, R253). -/

namespace Sys2Proof.Machine

/-! ### The shape of a slip instruction, with its word well formed -/

/-- A slip instruction works in a context of its own unit: its effect may name unit and context by it. -/
theorem Dev.slipOp_congr {at_ u x : Nat} {w : SWord} {used : Nat} {bad : Dev → SCtx → List Nat} {run run' : SCtx → Dev → Dev}
    (h : ∀ t d, t.u = u → t.x = x → run t d = run' t d) :
    Dev.slipOp at_ u x w used bad run = Dev.slipOp at_ u x w used bad run' := by
  funext d
  unfold Dev.slipOp
  simp only [h { u := u, x := x, s := _, cmd := _, n := _ } _ rfl rfl]

/-- A slip instruction whose effect is stated of well-formed words only. -/
theorem SlipOp.of_wellFormed {mk : Nat → Nat → Nat → SWord → Instr} {used : Nat} {bad : Dev → SCtx → List Nat}
    {P : Dev → Dev → SCtx → Prop} (run : SCtx → Dev → Dev)
    (he : ∀ at_ u x w s, exec (mk at_ u x w) s
      = lift (Dev.slipFetched (opcOf (mk at_ u x w)) at_ u x w (Dev.slipOp at_ u x w used bad run)) s)
    (hp : ∀ (d : Dev) sl u x c w, bad d { slipCtx u x sl c w with s := sl } = [] →
      let e := (d.tookSlipTurn u x).setCtx u x (slipCtx u x sl c w).s
      P e (run (slipCtx u x sl c w) e) (slipCtx u x sl c w)) :
    SlipOp mk used bad P := by
  intro s at_ u x w sl c h hf hw hb
  refine ⟨Dev.slipOp at_ u x w used bad run s.dev, by
    rw [he]; simp only [lift, Dev.slipFetched_runs h hf, State.after], ?_⟩
  rw [Dev.slipOp_issues h hw hb]
  exact hp _ _ _ _ _ _ hb

/-! ### What a well-formed format descriptor asks for -/

theorem fmtWidth_pos (f : Nat) : 4 ≤ fmtWidth f := by
  unfold fmtWidth; split <;> decide

/-- A well-formed descriptor asks for at least a slab of output. -/
theorem operandBytes_pos {n : Nat} (h : fmtOk n = true) :
    0 < operandBytes (fmtDesc n).dst (fmtDesc n).x (fmtDesc n).blk (fmtDesc n).blocks := by
  unfold fmtOk at h
  simp only [Bool.and_eq_true, Bool.or_eq_true, decide_eq_true_eq] at h
  obtain ⟨⟨⟨⟨⟨-, hx⟩, hblocks⟩, -⟩, -⟩, -⟩ := h
  have hx8 : 8 ≤ (fmtDesc n).x := by omega
  have hblk : 16 ≤ (fmtDesc n).blk := by unfold fmtDesc; dsimp only; split <;> decide
  have hslab : 1 ≤ slabBytes (fmtDesc n).dst (fmtDesc n).x (fmtDesc n).blk := by
    unfold slabBytes
    have : 8 * 16 * 4 ≤ (fmtDesc n).x * (fmtDesc n).blk * fmtWidth (fmtDesc n).dst :=
      Nat.mul_le_mul (Nat.mul_le_mul hx8 hblk) (fmtWidth_pos _)
    omega
  have := Nat.mul_le_mul (Nat.one_le_iff_ne_zero.mpr hblocks) hslab
  unfold operandBytes
  omega

theorem linesFrom_ne_nil (a : Nat) (b : List Byte) {n : Nat} (h : 0 < n) : linesFrom a b n ≠ [] := by
  cases n with
  | zero => exact absurd h (by decide)
  | succ n => simp [linesFrom]

theorem ceilDiv_pos {n a : Nat} (h : 0 < n) (ha : 0 < a) : 0 < ceilDiv n a := by
  unfold ceilDiv; exact Nat.div_pos (by omega) ha

/-- A FMT that may issue is a formatter's, and its descriptor is well formed. -/
theorem fmtOk_of_fmtBad {d : Dev} {t : SCtx} (h : fmtBad d t = []) : fmtOk (leNat (d.engRead t.u (t.aReg 55) 64)) = true := by
  by_contra hc
  rw [Bool.not_eq_true] at hc
  unfold fmtBad at h
  split at h
  · exact absurd h (by simp)
  · simp [hc] at h

/-! ### Where a list of lines stops -/

/-- The element after those that satisfy `p` is the first that does not. -/
theorem getElem?_length_takeWhile {α : Type} (p : α → Bool) (l : List α) :
    l[(l.takeWhile p).length]? = l.find? fun a => !p a := by
  induction l with
  | nil => rfl
  | cons a t ih => cases h : p a <;> simp [h, ih]

/-! ### FMT's effect -/

/-- What a conversion counts: its draws, the poison of its source, saturated, non-finite and underranged values, and blocks
encoded again (R220, R250). -/
def Dev.fmtCounted (d : Dev) (t : SCtx) (f : FmtDesc) (bs : List FmtBlock) (poison : List Nat) : Dev :=
  let d := if f.sr then d.drawn ((List.range (f.x * f.blocks * f.blk)).map (genFormat t.u)) else d
  let d := d.cmdPoison t.s.cmd poison
  let conv := bs.filter fun b => !b.vals.isEmpty
  let d := d.bumpBy Cat.NUM_CVT_OVERFLOW_SAT (conv.map (·.sat)).sum
  let d := d.bumpBy Cat.NUM_CVT_NONFINITE (conv.map (·.changed)).sum
  let d := if f.stat = 0 then d else d.bumpBy Cat.NUM_UNDERRANGE_BLOCK (conv.filter (·.under)).length
  d.bumpBy (Cat.FMT_REENCODE (t.u - 64)) (bs.filter (·.reenc)).length

/-- What a conversion counts is neither in memory, nor in a unit, nor in a job. -/
theorem Dev.fmtCounted_keeps (d : Dev) (t : SCtx) (f : FmtDesc) (bs : List FmtBlock) (poison : List Nat) :
    (d.fmtCounted t f bs poison).mem = d.mem ∧ (d.fmtCounted t f bs poison).units = d.units
      ∧ (d.fmtCounted t f bs poison).jobs = d.jobs := by
  unfold Dev.fmtCounted
  extract_lets drew poisoned conv sat nonfin under
  have hdrew : drew.mem = d.mem ∧ drew.units = d.units ∧ drew.jobs = d.jobs := by
    unfold drew; split <;> exact ⟨rfl, rfl, rfl⟩
  have hunder : nonfin.notesOf under := by
    unfold under; split
    · exact .refl _
    · exact Dev.notesOf_bumpBy _ _ _
  have hnotes : drew.notesOf (under.bumpBy (Cat.FMT_REENCODE (t.u - 64)) (bs.filter (·.reenc)).length) :=
    (drew.notesOf_cmdPoison _ _).trans ((poisoned.notesOf_bumpBy _ _).trans ((sat.notesOf_bumpBy _ _).trans
      (hunder.trans (under.notesOf_bumpBy _ _))))
  obtain ⟨hmem, hunits, hjobs⟩ := hdrew
  exact ⟨hnotes.mem.trans hmem, hnotes.units.trans hunits, hnotes.jobs.trans hjobs⟩

/-- The figures that a conversion of these blocks gathers for its statistics slot. -/
def fmtFig (f : FmtDesc) (bs : List FmtBlock) : StatFig :=
  let conv := bs.filter fun b => !b.vals.isEmpty
  let vals := (conv.map (·.vals)).flatten
  { rows := [(0, (vals.map magBits).foldl max 0)], elements := vals.length,
    clipped := if isBlock f.dst then (conv.map (·.sat)).sum else 0, under := (conv.filter (·.under)).length,
    nonfin := (conv.map (·.changed)).sum }

/-- The lines that a conversion writes, at job addresses or scratch offsets from register 49 on. -/
def fmtOut (t : SCtx) (f : FmtDesc) (bs : List FmtBlock) : List (Nat × List Byte) :=
  linesFrom (t.aReg 49) (f.bytes bs) (ceilDiv (operandBytes f.dst f.x f.blk f.blocks) 64)

/-- The first of the lines that a conversion may not write (R246). -/
def Dev.fmtStop (e : Dev) (t : SCtx) (out : List (Nat × List Byte)) : Option (Nat × List Byte) :=
  if bit t.n 48 then none else out.find? fun l => (e.xlate t.cmd.job l.1 true).isNone

/-- The transfer that a conversion puts in flight. -/
def Dev.fmtTransfer (e : Dev) (t : SCtx) (f : FmtDesc) (bs : List FmtBlock) (stop : Option (Nat × List Byte))
    (kept : List (Nat × List Byte)) : Transfer :=
  let vals := ((bs.filter fun b => !b.vals.isEmpty).map (·.vals)).flatten
  { writes := kept.map fun l => (if bit t.n 48 then unitScratch t.u + l.1 else e.linePa t.cmd.job l.1, l.2),
    toScratch := bit t.n 48, start := t.aReg 49, len := operandBytes f.dst f.x f.blk f.blocks, isFmt := true,
    stat := if vals.isEmpty || stop.isSome then 0 else f.stat, fig := fmtFig f bs, narrow := 3 ≤ f.dst }

theorem Dev.fmtTransfer_toMemory {e : Dev} {t : SCtx} {f : FmtDesc} {bs : List FmtBlock} {stop : Option (Nat × List Byte)}
    {kept : List (Nat × List Byte)} (h : bit t.n 48 = false) :
    (e.fmtTransfer t f bs stop kept).writes = kept.map fun l => (e.linePa t.cmd.job l.1, l.2) := by
  unfold Dev.fmtTransfer
  simp only [h, Bool.false_eq_true, if_false]

/-- The output of a conversion is put in flight, up to the first line that it may not write. -/
def Dev.fmtIssues (e : Dev) (t : SCtx) (f : FmtDesc) (bs : List FmtBlock) : Dev :=
  let out := fmtOut t f bs
  let stop := e.fmtStop t out
  let kept : List (Nat × List Byte) := match stop with | some l => out.takeWhile (fun y => y.1 ≠ l.1) | none => out
  let s := if kept.isEmpty then t.s else { t.s with inflight := t.s.inflight ++ [e.fmtTransfer t f bs stop kept] }
  match stop with
  | some l => (e.xfault t.cmd.job l.1).stopSlip t.u t.x s 0x11 l.1
  | none => e.putSlip t s

/-- The source lines of a FMT up to the first that is not mapped, and the poisoned ones among them. -/
def Dev.fmtPoison (d : Dev) (t : SCtx) (lines : List Nat) : List Nat :=
  ((lines.takeWhile fun a => (d.xlate t.cmd.job a false).isSome).map fun a => d.linePa t.cmd.job a).filter d.badLine

/-- How the values of a conversion are rounded: by the formatter's generators where its descriptor asks for it. -/
def Dev.fmtRound (d : Dev) (t : SCtx) (f : FmtDesc) (i : Nat) : Rnd :=
  if f.sr then .stochastic (d.draw (genFormat t.u i) i) else .nearest

/-- What FMT does once it has issued. -/
def fmtRun (t : SCtx) (d : Dev) : Dev :=
  let f := fmtDesc (leNat (d.engRead t.u (t.aReg 55) 64))
  let lines := f.lines (t.aReg 52)
  match lines[(lines.takeWhile fun a => (d.xlate t.cmd.job a false).isSome).length]? with
  | some a => ((d.cmdPoison t.s.cmd (d.fmtPoison t lines)).xfault t.cmd.job a).stopSlip t.u t.x t.s 0x11 a
  | none =>
    let bs := f.blocksOf (d.fmtRound t f) (d.jrd t.cmd.job) (t.aReg 52)
    (d.fmtCounted t f bs (d.fmtPoison t lines)).fmtIssues t f bs

/-- A conversion with a source line that is not mapped stops there, the poison before it counted. -/
theorem fmtRun_stops {t : SCtx} {d : Dev} {a : Nat} {lines : List Nat}
    (hl : lines = (fmtDesc (leNat (d.engRead t.u (t.aReg 55) 64))).lines (t.aReg 52))
    (h : lines.find? (fun a => (d.xlate t.cmd.job a false).isNone) = some a) :
    fmtRun t d = ((d.cmdPoison t.s.cmd (d.fmtPoison t lines)).xfault t.cmd.job a).stopSlip t.u t.x t.s 0x11 a := by
  unfold fmtRun
  extract_lets f lines'
  have hlines : lines' = lines := hl.symm
  simp only [← Option.not_isSome] at h
  rw [hlines, getElem?_length_takeWhile, h]

/-- One whose source is mapped converts all of it, and issues its output. -/
theorem fmtRun_converts {t : SCtx} {d : Dev} {f : FmtDesc} (hf : f = fmtDesc (leNat (d.engRead t.u (t.aReg 55) 64)))
    (h : ∀ a ∈ f.lines (t.aReg 52), (d.xlate t.cmd.job a false).isSome = true) :
    fmtRun t d = (d.fmtCounted t f (f.blocksOf (d.fmtRound t f) (d.jrd t.cmd.job) (t.aReg 52))
      (d.fmtPoison t (f.lines (t.aReg 52)))).fmtIssues t f
        (f.blocksOf (d.fmtRound t f) (d.jrd t.cmd.job) (t.aReg 52)) := by
  subst hf
  unfold fmtRun
  extract_lets f lines bs
  have hnone : lines.find? (fun a => !(d.xlate t.cmd.job a false).isSome) = none := by
    rw [List.find?_eq_none]; intro a ha; simp [h a ha]
  rw [getElem?_length_takeWhile, hnone]

/-- A conversion that may write all of its output puts it in flight. -/
theorem Dev.fmtIssues_all {e : Dev} {t : SCtx} {f : FmtDesc} {bs : List FmtBlock} (hout : fmtOut t f bs ≠ [])
    (h : bit t.n 48 = true ∨ ∀ l ∈ fmtOut t f bs, (e.xlate t.cmd.job l.1 true).isSome = true) :
    e.fmtIssues t f bs = e.setCtx t.u t.x
      { t.s with inflight := t.s.inflight ++ [e.fmtTransfer t f bs none (fmtOut t f bs)] } := by
  have hstop : e.fmtStop t (fmtOut t f bs) = none := by
    unfold Dev.fmtStop
    split
    · rfl
    · rw [List.find?_eq_none]
      intro l hl
      rw [← Option.not_isSome, h.resolve_left ‹_› l hl]
      decide
  unfold Dev.fmtIssues
  dsimp only
  rw [hstop]
  dsimp only
  rw [if_neg (by simpa using hout)]
  rfl

/-- One that may not write some line of it puts the lines before that one in flight, and stops the slip. -/
theorem Dev.fmtIssues_stops {e : Dev} {t : SCtx} {f : FmtDesc} {bs : List FmtBlock} {l : Nat × List Byte}
    (hb : bit t.n 48 = false) (h : (fmtOut t f bs).find? (fun l => (e.xlate t.cmd.job l.1 true).isNone) = some l) :
    let tr := e.fmtTransfer t f bs (some l) ((fmtOut t f bs).takeWhile fun y => y.1 ≠ l.1)
    e.fmtIssues t f bs = (e.xfault t.cmd.job l.1).stopSlip t.u t.x
      { t.s with inflight := if tr.writes = [] then t.s.inflight else t.s.inflight ++ [tr] } 0x11 l.1 := by
  intro tr
  have hstop : e.fmtStop t (fmtOut t f bs) = some l := by unfold Dev.fmtStop; rw [hb]; exact h
  unfold Dev.fmtIssues
  dsimp only
  rw [hstop]
  dsimp only
  have hempty : tr.writes = [] ↔ ((fmtOut t f bs).takeWhile fun y => y.1 ≠ l.1).isEmpty = true := by
    rw [List.isEmpty_iff]; exact List.map_eq_nil_iff
  by_cases hk : ((fmtOut t f bs).takeWhile fun y => y.1 ≠ l.1).isEmpty = true
  · rw [if_pos hk, if_pos (hempty.mpr hk)]
  · rw [if_neg hk, if_neg (hk ∘ hempty.mp)]

theorem execFmtD_eq (at_ u x : Nat) (w : SWord) :
    execFmtD at_ u x w = Dev.slipOp at_ u x w (mk 48 10) fmtBad fmtRun :=
  Dev.slipOp_congr fun t d hu hx => by subst hu hx; rfl

theorem exec_fmt (at_ u x : Nat) (w : SWord) (s : State) :
    exec (.fmt at_ u x w) s = lift (Dev.slipFetched (opcOf (.fmt at_ u x w)) at_ u x w
      (Dev.slipOp at_ u x w (mk 48 10) fmtBad fmtRun)) s := by
  rw [← execFmtD_eq]; rfl

end Sys2Proof.Machine
end

section
/-! SUPPORT. The completion of memory accesses, the start of a queued slip (R22, R191, R239, R241), and obligation O24. -/

namespace Sys2Proof.Machine

/-! ### A line of a transfer lands -/

theorem Dev.ctx?_of_units {d e : Dev} (h : e.units = d.units) (u x : Nat) : e.ctx? u x = d.ctx? u x := by
  unfold Dev.ctx? Dev.unit; rw [h]

/-- A slip that waits for nothing is left as it is when its condition is looked at. -/
theorem Dev.settleSlip_of_running {d : Dev} {u x : Nat} {s : Slip} (h : d.ctx? u x = some s) (hw : s.wait = .none) :
    d.settleSlip u x = d := by
  unfold Dev.settleSlip; simp only [h, hw]

/-- The device with a line written where its sink takes requests, and counted by where it came from. -/
def Dev.lineLands (d : Dev) (u : Nat) (tr : Transfer) (w : Nat × List Byte) : Dev :=
  let d := d.wrLine w.1 w.2
  if tr.isFmt then d.bumpBy (Cat.FMT_BYTES_OUT (u - 64)) w.2.length
  else if tr.toScratch then d.bumpBy (Cat.STRM_BYTES_IN u) w.2.length else d

theorem Dev.lineLands_mem (d : Dev) (u : Nat) (tr : Transfer) (w : Nat × List Byte) :
    (d.lineLands u tr w).mem = (d.wrLine w.1 w.2).mem := by
  unfold Dev.lineLands
  dsimp only
  split
  · exact Dev.bumpBy_mem _ _ _
  · split
    · exact Dev.bumpBy_mem _ _ _
    · rfl

section
variable {d : Dev} {u x i n : Nat} {s : Slip} {tr : Transfer} {w : Nat × List Byte}
  (hs : d.ctx? u x = some s) (ht : s.inflight[i]? = some tr) (hw : tr.writes[n]? = some w)
include hs ht hw

/-- What the completion of a line of a transfer does: it waits, or it lands as the transfer's last, or as one of several. -/
theorem Dev.landLine_eq :
    d.landLine u x i n =
      if d.stalledAt w.1 then d
      else if (tr.writes.eraseIdx n).isEmpty then
        (((d.lineLands u tr w).setCtx u x { s with inflight := s.inflight.eraseIdx i }).contributeStat
          (((d.lineLands u tr w).setCtx u x { s with inflight := s.inflight.eraseIdx i }).cmdJob s.cmd)
          tr.stat tr.fig tr.narrow true).settleSlip u x
      else (d.lineLands u tr w).setCtx u x
        { s with inflight := listSet s.inflight i { tr with writes := tr.writes.eraseIdx n } } := by
  unfold Dev.landLine
  simp only [hs, ht, hw]
  rfl

theorem Dev.landLine_waits (h : d.stalledAt w.1 = true) : d.landLine u x i n = d := by
  rw [Dev.landLine_eq hs ht hw, if_pos h]

/-- A line that is not the last of its transfer leaves the others in flight. -/
theorem Dev.landLine_more (h : d.stalledAt w.1 = false) (hl : 1 < tr.writes.length) :
    (d.landLine u x i n).mem = (d.wrLine w.1 w.2).mem
      ∧ (d.landLine u x i n).ctx? u x = some { s with
          inflight := listSet s.inflight i { tr with writes := tr.writes.eraseIdx n } } := by
  obtain ⟨hn, -⟩ := List.getElem?_eq_some_iff.mp hw
  have hrest : (tr.writes.eraseIdx n).isEmpty = false := by
    rw [List.isEmpty_eq_false_iff, ← List.length_pos_iff, List.length_eraseIdx_of_lt hn]; omega
  rw [Dev.landLine_eq hs ht hw, if_neg (by simp [h]), if_neg (by simp [hrest])]
  exact ⟨d.lineLands_mem u tr w, Dev.ctx?_setCtx _ _ _ _⟩

/-- With its last line a transfer is complete. -/
theorem Dev.landLine_last (h : d.stalledAt w.1 = false) (hl : tr.writes.length = 1) (hwait : s.wait = .none) :
    (d.landLine u x i n).mem = (d.wrLine w.1 w.2).mem
      ∧ (d.landLine u x i n).ctx? u x = some { s with inflight := s.inflight.eraseIdx i } := by
  obtain ⟨hn, -⟩ := List.getElem?_eq_some_iff.mp hw
  have hrest : (tr.writes.eraseIdx n).isEmpty = true := by
    rw [List.isEmpty_iff, ← List.length_eq_zero_iff, List.length_eraseIdx_of_lt hn]; omega
  rw [Dev.landLine_eq hs ht hw, if_neg (by simp [h]), if_pos hrest]
  generalize he : (d.lineLands u tr w).setCtx u x { s with inflight := s.inflight.eraseIdx i } = e
  have hstat := e.countsOf_contributeStat (e.cmdJob s.cmd) tr.stat tr.fig tr.narrow true
  have hctx : (e.contributeStat (e.cmdJob s.cmd) tr.stat tr.fig tr.narrow true).ctx? u x
      = some { s with inflight := s.inflight.eraseIdx i } := by
    rw [Dev.ctx?_of_units hstat.units, ← he]; exact Dev.ctx?_setCtx _ _ _ _
  rw [Dev.settleSlip_of_running hctx hwait]
  exact ⟨by rw [hstat.mem, ← he]; exact d.lineLands_mem u tr w, hctx⟩

end

/-! ### Accesses that complete -/

theorem bundleLoad_completes {d : Dev} {at_ u b : Nat} {x : Bundle} (h : (d.advance at_).bundle? u b = some x)
    (hl : x.loads ≠ 0) : execMemoryAccessCompleteD at_ (.bundleLoad u b) d
      = (d.advance at_).setBundle u b { x with loads := x.loads - 1 } := by
  unfold execMemoryAccessCompleteD
  simp only [h]
  rw [if_neg hl]

theorem exec_slipContextStart (u : Nat) (s : State) :
    exec (.slipContextStart u) s = lift (execSlipContextStartD u) s := rfl

/-- The oldest queued RUN takes the first free context, and is counted (R239). -/
theorem execSlipContextStartD_eq {d : Dev} {u x : Nat} {s : Slip} {rest : List Slip} (hq : (d.unit u).mover.queue = s :: rest)
    (hx : (List.range 4).find? (fun x => (Tbl.find? (d.unit u).mover.ctx x).isNone) = some x) :
    execSlipContextStartD u d
      = (d.setMover u { (d.unit u).mover with queue := rest, ctx := Tbl.set (d.unit u).mover.ctx x s }).bump
          (Cat.STRM_SLIPS u) := by
  unfold execSlipContextStartD
  simp only [hq, hx]

/-- Of a bundle's stores the oldest that is not held back is accepted, with the unit's earlier stores to its lines. -/
theorem bundleStore_completes {d : Dev} {at_ u b : Nat} {p : PendStore}
    (h : ((d.advance at_).unit u).stores.find? (fun p => p.slot = b && !(d.advance at_).stalledAt p.pa) = some p) :
    let e := d.advance at_
    let mine (q : PendStore) : Bool := q.slot = b && q.cmd = p.cmd && q.seq = p.seq && !e.stalledAt q.pa
    execMemoryAccessCompleteD at_ (.bundleStore u b) d = e.acceptWhere u fun q => mine q || (q.seq ≤ p.seq
      && (((e.unit u).stores.filter mine).map fun q => q.pa / 64).contains (q.pa / 64)) := by
  unfold execMemoryAccessCompleteD
  simp only [h]

/-! ### The obligation -/

/-- What a FMT reads of its descriptor as it acts is what was checked as it issued. -/
theorem fmtOk_issuing {d : Dev} {u x : Nat} {sl : Slip} {c : Cmd} {w : SWord}
    (h : fmtBad d { slipCtx u x sl c w with s := sl } = []) :
    fmtOk (leNat ((((d.tookSlipTurn u x).setCtx u x (slipCtx u x sl c w).s).engRead (slipCtx u x sl c w).u
      ((slipCtx u x sl c w).aReg 55) 64))) = true := by
  have hread : ∀ off n, ((d.tookSlipTurn u x).setCtx u x (slipCtx u x sl c w).s).engRead u off n = d.engRead u off n :=
    fun _ _ => rfl
  have hreg : SCtx.aReg { slipCtx u x sl c w with s := sl } 55 = (slipCtx u x sl c w).aReg 55 := rfl
  have hok := fmtOk_of_fmtBad h
  rw [hreg] at hok
  rw [show (slipCtx u x sl c w).u = u from rfl, hread]
  exact hok

/-- Settles O24: a transfer issues, stops or halts by the first line that may not be issued, a conversion by the first line
that it may not read or write; each access that completes is one branch of what lands a line. -/
theorem slipTransfersAndTheirLanding : Obligations.SlipTransfersAndTheirLanding := by
  refine ⟨fun put => SlipOp.of (fun _ _ => Dev.move put) (exec_fetch_put put) fun d sl u x c w _ => ?_,
    SlipOp.of_wellFormed fmtRun exec_fmt fun d sl u x c w hb => ?_,
    fun s at_ u b x hx hl => ⟨_, exec_memoryAccessComplete _ _ _, bundleLoad_completes hx hl⟩, ?_, ?_, ?_⟩
  · exact ⟨Dev.move_issuesAll, fun _ => Dev.move_faults, fun _ => Dev.move_migrates⟩
  · intro e0
    have hok : fmtOk (leNat (e0.engRead (slipCtx u x sl c w).u ((slipCtx u x sl c w).aReg 55) 64)) = true :=
      fmtOk_issuing hb
    clear_value e0
    generalize slipCtx u x sl c w = t at hok ⊢
    intro f lines bs out
    have hbytes := operandBytes_pos hok
    have hout : out ≠ [] := linesFrom_ne_nil _ _ (ceilDiv_pos hbytes (by decide))
    refine ⟨fun a ha => fmtRun_stops rfl ha, fun ha => ?_⟩
    obtain ⟨hmem, hunits, hjobs⟩ := e0.fmtCounted_keeps t f bs (e0.fmtPoison t lines)
    refine ⟨e0.fmtCounted t f bs (e0.fmtPoison t lines), hmem, hunits, hjobs, fun hm => ?_, fun l hs hl => ?_⟩
    · exact ⟨_, (fmtRun_converts rfl ha).trans (Dev.fmtIssues_all hout hm), rfl, rfl, rfl⟩
    · exact ⟨_, (fmtRun_converts rfl ha).trans (Dev.fmtIssues_stops hs hl), Dev.fmtTransfer_toMemory hs⟩
  · intro s at_ u b p e h
    exact ⟨_, exec_memoryAccessComplete _ _ _, bundleStore_completes h⟩
  · intro s at_ u x i n sl tr w e hs ht hw
    exact ⟨fun h => ⟨_, exec_memoryAccessComplete _ _ _, Dev.landLine_waits hs ht hw h⟩,
      fun h hl => ⟨_, exec_memoryAccessComplete _ _ _, Dev.landLine_more hs ht hw h hl⟩,
      fun h hl hwait => ⟨_, exec_memoryAccessComplete _ _ _, Dev.landLine_last hs ht hw h hl hwait⟩⟩
  · intro s u x sl rest hq hx
    refine ⟨_, exec_slipContextStart _ _, ?_⟩
    rw [execSlipContextStartD_eq hq hx]
    have hn := Dev.notesOf_bump (s.dev.setMover u
      { (s.dev.unit u).mover with queue := rest, ctx := Tbl.set (s.dev.unit u).mover.ctx x sl }) (Cat.STRM_SLIPS u)
    refine ⟨?_, ?_, hn.mem, ?_⟩
    · rw [Dev.ctx?_of_units hn.units]
      simp [Dev.ctx?, Dev.setMover]
    · rw [hn.unit]
      simp [Dev.setMover]
    · rw [Dev.cget_bump, if_pos rfl]; rfl

end Sys2Proof.Machine
end

section
/-! SUPPORT. What a ring command notes as it begins and ends at unit 0x91, and obligation O25. -/

namespace Sys2Proof.Machine

theorem Noted.now {d t : Dev} {k : Nat} {c : Cmd} {u : Nat} (h : Noted d t k c u) : t.now = d.now := by
  obtain ⟨-, -, ⟨ht, -⟩, -⟩ := h
  rw [ht]

theorem Noted.stamp {d t : Dev} {k : Nat} {c : Cmd} {u : Nat} (h : Noted d t k c u) : t.stamp = d.stamp := by
  unfold Dev.stamp; rw [h.now]

/-- A ring command that begins and ends at unit 0x91, and what it does there (R69). -/
theorem RingOp.of_noted {mk : Nat → Nat → Instr} {cls op : Nat} {P : Dev → Dev → Nat → Cmd → Dev → Prop}
    (act : Nat → Cmd → Dev → Dev)
    (he : ∀ at_ k s, exec (mk at_ k) s = lift (Dev.dispatch cls op (fun k c d => act k c (d.atUnit k 0x91)) at_ k) s)
    (hp : ∀ (d t : Dev) k c, Noted d t k c 0x91 → P d (act k c t) k c t) :
    RingOp mk cls op fun d e k c => ∃ t, Noted d t k c 0x91 ∧ P d e k c t :=
  RingOp.of _ he fun _ _ _ h => ⟨_, Dev.noted_atUnit 0x91 h, hp _ _ _ _ (Dev.noted_atUnit 0x91 h)⟩

/-- STAMP's own action: the stamp goes to STAMP_VA, or that address faults (R84). -/
def stampAct (k : Nat) (c : Cmd) (t : Dev) : Dev :=
  let va := fld c.desc 320 52
  if (t.xlate c.job va true).isNone then (t.cmdFault k c.job va).workDone k
  else (t.jwr c.job va (leBytes 8 t.stamp)).workDone k

theorem stampAct_mapped {k : Nat} {c : Cmd} {t : Dev} (h : (t.xlate c.job (fld c.desc 320 52) true).isSome) :
    stampAct k c t = (t.jwr c.job (fld c.desc 320 52) (leBytes 8 t.stamp)).workDone k :=
  if_neg (by simpa [Option.isSome_iff_ne_none] using h)

theorem stampAct_faults {k : Nat} {c : Cmd} {t : Dev} (h : t.xlate c.job (fld c.desc 320 52) true = none) :
    stampAct k c t = (t.cmdFault k c.job (fld c.desc 320 52)).workDone k :=
  if_pos (by rw [h]; rfl)

/-- SAMPLE_NOW's own action: a forced sample, when the job has a sample ring (R473). -/
def sampleAct (k : Nat) (c : Cmd) (t : Dev) : Dev :=
  (if t.cget (Cat.SMP_RING_BYTES c.job) = 0 then t else t.takeSample c.job t.stamp true).workDone k

/-- Settles O25: each command is noted at unit 0x91, and what it does there is one action on the device that has noted it, whose
stamp is the one of its dispatch. -/
theorem barrierTimetableAndControlCommands : Obligations.BarrierTimetableAndControlCommands := by
  refine ⟨fun d k c h => Dev.workDone_some h,
    RingOp.of_noted (fun k _ t => t.workDone k) (fun _ _ _ => rfl) fun _ _ _ _ _ => rfl,
    RingOp.of_noted (fun k _ t => t.workDone k) (fun _ _ _ => rfl) fun _ _ _ _ _ => rfl,
    RingOp.of_noted (fun k _ t => t.workDone k) (fun _ _ _ => rfl) fun _ _ _ _ _ => rfl,
    RingOp.of_noted stampAct (fun _ _ _ => rfl) fun d t k c h => ⟨fun hm => ?_, stampAct_faults⟩,
    RingOp.of _ (fun _ _ _ => rfl) fun d k c h => ⟨_, Dev.noted_atUnit 0x91 h, rfl⟩,
    RingOp.of_noted (fun k c t => (t.raiseMsix (fld c.desc 331 1) (fld c.desc 320 11)).workDone k) (fun _ _ _ => rfl)
      fun _ _ _ _ _ => rfl,
    RingOp.of_noted (fun k c t => (t.event 0x03 c.job 0x91 0 (fld c.desc 320 64) 0).workDone k) (fun _ _ _ => rfl)
      fun _ _ _ _ _ => rfl,
    RingOp.of_noted sampleAct (fun _ _ _ => rfl) fun d t k c h => ⟨fun h0 => ?_, fun h0 => ?_⟩⟩
  · rw [stampAct_mapped hm, h.stamp]
  · unfold sampleAct; rw [if_pos h0]
  · unfold sampleAct; rw [if_neg h0, h.stamp]

end Sys2Proof.Machine
end

section
/-! SUPPORT. Obligation O27: a WAITING command that still lists waits of its slips. -/

namespace Sys2Proof.Machine

/-- A WAITING command of job 0 that lists a wait of a slip on mark 0 for 0, decided without it at instant 0. -/
def lateWaiter : Cmd := { newCmd 0 0 0 0 with st := .waiting, lateWaits := [(0, 0, 0)] }

/-- The reset device with that command held. -/
def lateWaiterDev : Dev := { Dev.reset with cmds := [(0, lateWaiter)] }

/-- The mark takes the value 0, which that wait was for: the command lists it no more. -/
theorem lateWaiter_forgets : ((lateWaiterDev.setMark 0 0 0 0).cmd? 0).map (·.lateWaits) = some [] := by decide +kernel

/-- Refutes O27: of a WAITING command of the job not only the two stamps change. It also drops, from the waits of its slips that
were decided without their mark, each one that the job's marks meet now; the statement holds the list fast for every device. -/
theorem not_marksWakeWhatWaits : ¬ Obligations.MarksWakeWhatWaits := by
  intro h
  obtain ⟨-, -, -, -, hwait, -⟩ := h lateWaiterDev 0 0 0 0
  obtain ⟨y, hy, hrest, -⟩ := hwait 0 lateWaiter rfl rfl rfl
  have hnone := lateWaiter_forgets
  rw [hy, hrest] at hnone
  cases hnone

end Sys2Proof.Machine
end

section
/-! SUPPORT. COMMAND_RELEASE and WAIT_TIMEOUT (R49, R51, R87 to R89), and obligation O30. -/

namespace Sys2Proof.Machine

/-- `e` differs from `d` in units and Catalogue values, at most. -/
def Dev.unitCountsOf (d e : Dev) : Prop := e = { d with units := e.units, cat := e.cat }

theorem Dev.unitCountsOf.trans {a b c : Dev} (h : a.unitCountsOf b) (k : b.unitCountsOf c) : a.unitCountsOf c := by
  unfold Dev.unitCountsOf at *; rw [k, h]

/-- Counting the engines that filler occupies marks those engines, and no more (R51). -/
theorem Dev.unitCountsOf_countOverhang (d : Dev) (c : Cmd) : d.unitCountsOf (d.countOverhang c) := by
  unfold Dev.countOverhang
  split
  · rfl
  · refine foldl_keeps d.unitCountsOf _ (fun e u he => foldl_keeps d.unitCountsOf _ (fun e i he => ?_) _ _ he) _ _ rfl
    dsimp only
    split
    · split
      · exact he
      · exact he.trans rfl
    · exact he

theorem exec_commandRelease (k : Nat) (s : State) : exec (.commandRelease k) s = lift (execCommandReleaseD k) s := rfl
theorem exec_waitTimeout (k : Nat) (s : State) : exec (.waitTimeout k) s = lift (execWaitTimeoutD k) s := rfl

section
variable {d : Dev} {k t : Nat} {c : Cmd} (hc : d.cmd? k = some c) (hst : c.st = .waiting)
  (hjob : (d.job c.job).st = .running)
include hc hst hjob

/-- A command whose conditions hold is released at its release instant (R49, R89). -/
theorem execCommandReleaseD_releases (ht : d.releaseInstant c = some t) (hring : (d.ring c.job c.ring).st = .active)
    (hord : d.orderedOk k c = true) (hdr : d.drained k c = true) (hslot : d.slotAllows c = true)
    (h0 : c.w0En = true → c.to0 = true ∨ waitMet (d.waitDeadline c) c.met0 = true)
    (h1 : c.w1En = true → c.to1 = true ∨ waitMet (d.waitDeadline c) c.met1 = true) :
    execCommandReleaseD k d
      = ((d.advance t).setCmd k ((d.advance t).markReleased { c with st := .ready })).countOverhang c := by
  have hw0 : (c.w0En && !c.to0 && !waitMet (d.waitDeadline c) c.met0) = false := by
    cases he : c.w0En
    · rfl
    · rcases h0 he with h | h <;> simp [h]
  have hw1 : (c.w1En && !c.to1 && !waitMet (d.waitDeadline c) c.met1) = false := by
    cases he : c.w1En
    · rfl
    · rcases h1 he with h | h <;> simp [h]
  unfold execCommandReleaseD
  simp only [hc, ht]
  rw [if_neg (by simp [hst, hjob, hring, hord, hdr, hslot, hw0, hw1])]

/-- TT_SETTLE after its deadline an unmet wait has timed out (R52, R53, R88). -/
theorem execWaitTimeoutD_timesOut (ht : d.waitDeadline c = some t) {late0 late1 : Bool}
    (h0 : (c.w0En && !c.to0 && !waitMet (some t) c.met0) = late0)
    (h1 : (c.w1En && !c.to1 && !waitMet (some t) c.met1) = late1) (hl : late0 = true ∨ late1 = true) :
    execWaitTimeoutD k d =
      let w := (d.advance (t + d.cget Cat.TT_SETTLE)).bumpBy Cat.CP_WAIT_TIMEOUT (b2n late0 + b2n late1)
      let y := { c with to0 := c.to0 || late0, to1 := c.to1 || late1, toAt := t }.raise 0x03 t
      if y.toSkip then w.retireHeld k y else w.setCmd k y := by
  unfold execWaitTimeoutD
  simp only [hc, ht, h0, h1]
  rw [if_neg (by rcases hl with h | h <;> simp [hst, hjob, h])]

end

theorem Cmd.toSkip_raise (c : Cmd) (status detail : Nat) : (c.raise status detail).toSkip = c.toSkip := by
  unfold Cmd.raise; split <;> rfl

/-- Settles O30: the release is the one branch of COMMAND_RELEASE that acts, and the count of engines under filler leaves
commands, memory, jobs and rings; the timeout is the one branch of WAIT_TIMEOUT that acts, and TO_SKIP chooses how it ends. -/
theorem waitsReleaseAndTimeOut : Obligations.WaitsReleaseAndTimeOut := by
  refine ⟨?_, ?_⟩
  · intro s k t c d hc hst ht hjob hring hord hdr hslot h0 h1
    refine ⟨_, exec_commandRelease _ _, ?_⟩
    rw [execCommandReleaseD_releases hc hst hjob ht hring hord hdr hslot h0 h1]
    have hcmds : ∀ i, (((d.advance t).setCmd k ((d.advance t).markReleased { c with st := .ready })).countOverhang c).cmd? i
        = if i = k then some ((d.advance t).markReleased { c with st := .ready }) else d.cmd? i := by
      intro i
      unfold Dev.cmd?
      rw [Dev.unitCountsOf_countOverhang]
      exact ((d.advance t).cmd?_setCmd _ _ _).trans (by simp [Dev.cmd?])
    refine ⟨(hcmds k).trans (if_pos rfl), ?_, fun i hi => (hcmds i).trans (if_neg hi), ?_, ?_, ?_⟩
    · rw [Dev.unitCountsOf_countOverhang]; exact d.advance_now t
    all_goals rw [Dev.unitCountsOf_countOverhang]; simp
  · intro s k t c d late0 late1 hc hst hjob ht hl
    refine ⟨_, exec_waitTimeout _ _, ?_⟩
    rw [execWaitTimeoutD_timesOut hc hst hjob ht rfl rfl hl]
    dsimp only
    rw [Cmd.toSkip_raise]
    exact ⟨fun hs => if_neg (by simpa [Cmd.toSkip] using hs), fun hs => if_pos hs⟩

end Sys2Proof.Machine
end

section
/-! SUPPORT. Contributions to a reduction (R53, R363), and obligation O35. -/

namespace Sys2Proof.Machine

theorem armedFor_iff {r m : Nat} : armedFor r m = true ↔ m ≠ 0xFFFFFFFF ∧ shardArmed r (shardBuf r m) = m := by
  unfold armedFor armedNone
  rw [Bool.and_eq_true, decide_eq_true_eq, decide_eq_true_eq]

section
variable {x : Job} {grace settle now r n s c : Nat} {finite : Bool}

/-! ### The row of R363 -/

/-- While the close of its step is not decided, a contribution is taken as its buffer is armed. -/
theorem Job.addCase_open (h : Tbl.find? x.red.closes n = none) :
    x.addCase grace settle now r n s finite = if armedFor r n = true then .onTime else .notArmed := by
  unfold Job.addCase; rw [h]

/-- Afterwards it may still reach the next step: within the grace window, before that step's close, in a buffer of its own. -/
theorem Job.addCase_closed (h : Tbl.find? x.red.closes n = some c) :
    x.addCase grace settle now r n s finite
      = if s ≤ c + grace ∧ ¬ c + grace + settle ≤ now ∧ Tbl.find? x.red.closes (n + 1) = none ∧ shardBuf1 r ≠ 0
            ∧ armedFor r (n + 1) = true
          then (if finite then .late else .lateNonfinite) else .lateDrop := by
  unfold Job.addCase
  rw [h]
  simp [graceOver, and_assoc]

theorem Job.addTie_open (h : Tbl.find? x.red.closes n = none) : x.addTie grace settle now n s = false := by
  unfold Job.addTie; rw [h]

theorem Job.addTie_closed (h : Tbl.find? x.red.closes n = some c) :
    (x.addTie grace settle now n s = true) ↔ s ≤ c ∨ (s ≤ c + grace ∧ c + grace + settle ≤ now)
      ∨ (Tbl.find? x.red.closes (n + 1)).any (fun c' => s ≤ c') = true := by
  unfold Job.addTie
  rw [h]
  cases Tbl.find? x.red.closes (n + 1) <;> simp [graceOver, or_assoc]

end

/-! ### What is done with it -/

/-- A contribution that comes after a deadline that was decided without it, though stamped in time, is counted (R53). -/
def Dev.tieCounted (d : Dev) (j n s : Nat) : Dev :=
  if (d.job j).addTie (d.cget (Cat.RED_GRACE j)) (d.cget Cat.TT_SETTLE) d.now n s then d.bump Cat.TIE_LATE_STAMP else d

/-- What each row of R363 does with the elements `els`. -/
def AddCase.act (a : AddCase) (j r n elem fmt : Nat) (els : List Nat) (d : Dev) : Dev :=
  match a with
  | .onTime =>
    ((if els.all (finiteElem fmt) then d else d.bump (Cat.RED_NONFINITE_IN j)).addInto j r n elem fmt els).bump (Cat.RED_ADDS j)
  | .notArmed => d.bump (Cat.RED_NOT_ARMED j)
  | .late => (d.addInto j r (n + 1) elem fmt els).bump (Cat.RED_LATE_ADD j)
  | .lateNonfinite => d.bump (Cat.RED_LATE_NONFINITE j)
  | .lateDrop => d.bump (Cat.RED_LATE_DROP j)

theorem Dev.takeContrib_eq (d : Dev) (j k n s elem fmt : Nat) (data : List Byte) :
    let r := Tbl.getD (d.job j).red.shards k 0
    let els := elemsOf (fmtBytes fmt) data
    d.takeContrib j k n s elem fmt data = (d.addCase j r n s fmt els).act j r n elem fmt els (d.tieCounted j n s) := by
  intro r els
  rfl

/-- Settles O35: the row of R363 is chosen by the closes that are decided, and each row does one thing. -/
theorem contributionsAreDecidedByTheirStamp : Obligations.ContributionsAreDecidedByTheirStamp := by
  intro d j k n s elem fmt data x r els finite armed grace next?
  have hact := d.takeContrib_eq j k n s elem fmt data
  refine ⟨fun ho ha => ?_, fun ho ha => ?_, fun c hc => ?_⟩
  · have hrow : d.addCase j r n s fmt els = .onTime := (Job.addCase_open ho).trans (if_pos (armedFor_iff.mpr ha))
    have htie : d.tieCounted j n s = d := if_neg (by rw [Job.addTie_open ho]; simp)
    rw [hact, hrow, htie]; rfl
  · have hrow : d.addCase j r n s fmt els = .notArmed :=
      (Job.addCase_open ho).trans (if_neg fun h => ha (armedFor_iff.mp h))
    have htie : d.tieCounted j n s = d := if_neg (by rw [Job.addTie_open ho]; simp)
    rw [hact, hrow, htie]; rfl
  · intro ended t next
    have htie : d.tieCounted j n s = t := if_congr (Job.addTie_closed hc) rfl rfl
    have hrow := Job.addCase_closed (grace := grace) (settle := d.cget Cat.TT_SETTLE) (now := d.now) (r := r) (s := s)
      (finite := finite) hc
    simp only [armedFor_iff] at hrow
    refine ⟨fun hn hf => ?_, fun hn hf => ?_, fun hn => ?_⟩
    · rw [hact, show d.addCase j r n s fmt els = .late from hrow.trans ((if_pos hn).trans (if_pos hf)), htie]; rfl
    · rw [hact, show d.addCase j r n s fmt els = .lateNonfinite from hrow.trans ((if_pos hn).trans (if_neg (by simp [hf]))),
        htie]; rfl
    · rw [hact, show d.addCase j r n s fmt els = .lateDrop from hrow.trans (if_neg hn), htie]; rfl

end Sys2Proof.Machine
end

section
/-! SUPPORT. The collective commands SEND, CONTRIBUTE and REDUCE (R58, R365 to R367), and obligation O34. -/

namespace Sys2Proof.Machine

/-! ### Commands with an argument block, read at unit 0x90 -/

/-- A block that is not mapped throughout is the command's fault (R84, R207). -/
theorem Dev.withArgs_faults {d : Dev} {k va : Nat} {c : Cmd} {lenOk : Bool} (f : Nat → Dev → Dev) (h : lenOk = true)
    (hf : d.firstFault c.job c.argsVa c.argsLen false = some va) :
    d.withArgs k c lenOk f = (d.cmdFault k c.job va).workDone k := by
  unfold Dev.withArgs; rw [h, hf]; rfl

/-- What a ring command does with its argument block once it can read it decides all of it (R84, R85). -/
theorem ArgsOp.of {mk : Nat → Nat → Instr} {cls op : Nat} {lenOk : Cmd → Prop} [DecidablePred lenOk]
    {P : Dev → Dev → Nat → Cmd → Nat → Prop} (run : Nat → Cmd → Nat → Dev → Dev)
    (he : ∀ at_ k s, exec (mk at_ k) s
      = lift (Dev.dispatch cls op (fun k c d => (d.atUnit k 0x90).withArgs k c (lenOk c) (run k c)) at_ k) s)
    (hp : ∀ (d : Dev) k c n, P d (run k c n d) k c n) : ArgsOp mk cls op lenOk P :=
  RingOp.of _ he fun _ _ _ h => ⟨_, Dev.noted_atUnit 0x90 h, fun hl => Dev.withArgs_badLen _ (decide_eq_false hl),
    fun _ hl hf => Dev.withArgs_faults _ (decide_eq_true hl) hf,
    fun hl hf => by rw [Dev.withArgs_reads _ (decide_eq_true hl) hf]; exact hp _ _ _ _⟩

/-! ### SEND (R365) -/

/-- What SEND does with an argument block that it can read. -/
def sendRun (k : Nat) (c : Cmd) (n : Nat) (d : Dev) : Dev :=
  if !sendOk n then d.workRefused k 0x30 0
  else
    match d.firstFault c.job (fld n 0 52) (fld n 408 40) false with
    | some va => (d.cmdFault k c.job va).workDone k
    | none =>
      (d.postXfer k c.job (fld n 357 19) (fld n 376 32) (bit n 356) false
        ((List.range (fld n 408 40 / 64)).map fun i => fld n 0 52 + 64 * i)
        (sendItems (d.cget Cat.NET_MAELGO_MAX_PAYLOAD) n)).checkSent k

theorem exec_send (at_ k : Nat) (s : State) :
    exec (.send at_ k) s = lift (Dev.dispatch 2 0
      (fun k c d => (d.atUnit k 0x90).withArgs k c (c.argsLen = 64) (sendRun k c)) at_ k) s := rfl

/-! ### CONTRIBUTE (R365) -/

/-- The pieces that a CONTRIBUTE's block lists. -/
def pieces (n : Nat) : List Nat := blockEntries n 64 32 (fld n 496 16)

/-- The step that it names, or the timetable's. -/
def Dev.contribStep (d : Dev) (n : Nat) : Nat := if fld n 464 32 = 0xFFFFFFFF then d.tt.step else fld n 464 32

/-- Something in a block of this many pieces is malformed. -/
def contribBad (n : Nat) : Bool :=
  fld n 496 16 = 0 || 2044 < fld n 496 16 || 2 < fld n 460 4 || fld n 0 460 ≠ 0 || !(pieces n).all pieceOk

theorem contribBad_iff (n : Nat) : contribBad n = true ↔ ¬ (fld n 496 16 ≠ 0 ∧ fld n 496 16 ≤ 2044 ∧ fld n 460 4 ≤ 2
    ∧ fld n 0 460 = 0 ∧ (pieces n).all pieceOk = true) := by
  unfold contribBad
  cases (pieces n).all pieceOk
  · simp
  · simp; omega

/-- What CONTRIBUTE does with an argument block that it can read. -/
def contributeRun (k : Nat) (c : Cmd) (n : Nat) (d : Dev) : Dev :=
  if c.argsLen ≠ 64 + 32 * fld n 496 16 then d.workRefused k 0x30 376
  else if contribBad n then d.workRefused k 0x30 0
  else if !(pieces n).all (d.job c.job).localOk then d.workRefused k 0x31 0
  else
    match (pieces n).findSome? fun p => d.firstFault c.job (fld p 204 52) (fld p 72 32 * fmtBytes (fld n 460 4)) false with
    | some va => (d.cmdFault k c.job va).workDone k
    | none =>
      let step := d.contribStep n
      (if d.absent c.job then d else (pieces n).foldl (fun d p => d.postPiece k c.job step (fld n 460 4) p) d).checkSent k

theorem exec_contribute (at_ k : Nat) (s : State) :
    exec (.contribute at_ k) s = lift (Dev.dispatch 2 1
      (fun k c d => (d.atUnit k 0x90).withArgs k c True (contributeRun k c)) at_ k) s := rfl

section
variable {k : Nat} {c : Cmd} {n : Nat} {d : Dev} (hlen : c.argsLen = 64 + 32 * fld n 496 16)
include hlen

theorem contributeRun_malformed (hb : contribBad n = true) : contributeRun k c n d = d.workRefused k 0x30 0 :=
  (if_neg (not_not.mpr hlen)).trans (if_pos hb)

theorem contributeRun_notLocal (hb : contribBad n = false) (hl : (pieces n).all (d.job c.job).localOk = false) :
    contributeRun k c n d = d.workRefused k 0x31 0 := by
  unfold contributeRun
  rw [if_neg (not_not.mpr hlen), hb, hl]
  rfl

/-- A block whose pieces are all mapped contributes, unless its job is the anchor's while the module is HELD (R58). -/
theorem contributeRun_sends (hb : contribBad n = false) (hl : (pieces n).all (d.job c.job).localOk = true)
    (hmap : ∀ p ∈ pieces n, d.firstFault c.job (fld p 204 52) (fld p 72 32 * fmtBytes (fld n 460 4)) false = none) :
    contributeRun k c n d = (if d.absent c.job then d
      else (pieces n).foldl (fun e p => e.postPiece k c.job (d.contribStep n) (fld n 460 4) p) d).checkSent k := by
  unfold contributeRun
  rw [if_neg (not_not.mpr hlen), hb, hl, List.findSome?_eq_none_iff.mpr hmap]
  rfl

end

/-! ### REDUCE (R366, R367) -/

/-- A REDUCE with this argument block as it starts to run. -/
def redStep (k n now : Nat) : RedStep :=
  { cmd := k, step := fld n 480 32, byCount := bit n 431, vote := bit n 430, expect := fld n 423 7, slot := fld n 432 16,
    off := fld n 448 32, deadline := now + fld n 407 16 * 8192, start := now }

/-- The job's shards armed for a step. -/
def Dev.armAll (d : Dev) (j step : Nat) : Dev := (d.job j).red.shards.foldl (fun d kr => d.armFor j step kr.1 kr.2) d

/-- A REDUCE runs from now on, its step's close no longer decided. -/
def Dev.startRed (d : Dev) (j k n : Nat) : Dev :=
  let r := (d.job j).red
  d.setRed j { r with runs := r.runs ++ [redStep k n d.now], closes := Tbl.erase r.closes (fld n 480 32) }

/-- What REDUCE does with an argument block that it can read. -/
def reduceRun (k : Nat) (c : Cmd) (n : Nat) (d : Dev) : Dev :=
  if !reduceOk d n then d.workRefused k 0x30 0
  else if (d.job c.job).red.busy (fld n 480 32) || (!bit n 431 && (d.tt.st ≠ .running || c.job ≠ d.anchor))
      || d.cget (Cat.UPD_NORM_VA c.job) = 0 then d.workRefused k 0x31 0
  else (d.armAll c.job (fld n 480 32)).startRed c.job k n

theorem exec_reduce (at_ k : Nat) (s : State) :
    exec (.reduce at_ k) s = lift (Dev.dispatch 2 2
      (fun k c d => (d.atUnit k 0x90).withArgs k c (c.argsLen = 64) (reduceRun k c)) at_ k) s := rfl

/-- The job has no such REDUCE yet, a norms table, and for a close by the timetable the timetable's own job (R366). -/
def Dev.mayReduce (d : Dev) (j n : Nat) : Prop :=
  (d.job j).red.busy (fld n 480 32) = false ∧ d.cget (Cat.UPD_NORM_VA j) ≠ 0
    ∧ (bit n 431 = false → d.tt.st = .running ∧ j = d.anchor)

section
variable {k : Nat} {c : Cmd} {n : Nat} {d : Dev} (ho : reduceOk d n = true)
include ho

theorem reduceRun_refused (h : ¬ d.mayReduce c.job n) : reduceRun k c n d = d.workRefused k 0x31 0 := by
  unfold reduceRun
  rw [ho, if_neg (by simp), if_pos]
  unfold Dev.mayReduce at h
  by_contra hn
  simp at hn
  tauto

theorem reduceRun_starts (h : d.mayReduce c.job n) :
    reduceRun k c n d = (d.armAll c.job (fld n 480 32)).startRed c.job k n := by
  obtain ⟨hb, hv, ha⟩ := h
  unfold reduceRun
  rw [ho, if_neg (by simp), if_neg]
  cases hc : bit n 431
  · obtain ⟨hr, hj⟩ := ha hc; simp [hb, hv, hr, ← hj]
  · simp [hb, hv]

end

/-- The run stands last among the job's, and the step's close is no longer decided. -/
theorem Dev.startRed_effect (a : Dev) (j k n : Nat) : let e := a.startRed j k n
    (∃ run : RedStep, (e.job j).red.runs = (a.job j).red.runs ++ [run] ∧ run.cmd = k ∧ run.step = fld n 480 32
        ∧ run.byCount = bit n 431 ∧ run.vote = bit n 430 ∧ run.expect = fld n 423 7 ∧ run.slot = fld n 432 16
        ∧ run.off = fld n 448 32 ∧ run.deadline = a.now + fld n 407 16 * 8192 ∧ run.start = a.now)
      ∧ (e.job j).red.closes = Tbl.erase (a.job j).red.closes (fld n 480 32) ∧ e.mem = a.mem
      ∧ (e.job j).red.shards = (a.job j).red.shards := by
  intro e
  have he : (e.job j).red = { (a.job j).red with
      runs := (a.job j).red.runs ++ [redStep k n a.now], closes := Tbl.erase (a.job j).red.closes (fld n 480 32) } := by
    show ((a.setJob j _).job j).red = _
    rw [Dev.setJob_job]
  rw [he]
  exact ⟨⟨redStep k n a.now, rfl, rfl, rfl, rfl, rfl, rfl, rfl, rfl, rfl, rfl⟩, rfl, rfl, rfl⟩

/-! ### The record of an armed shard (R358) -/

/-- A field that was set reads its value. -/
theorem fld_setFld (n lo len v : Nat) : fld (setFld n lo len v) lo len = v % 2 ^ len := by
  have hsplit : n = n / 2 ^ lo / 2 ^ len * 2 ^ len * 2 ^ lo + fld n lo len * 2 ^ lo + n % 2 ^ lo := by
    have h1 := Nat.div_add_mod' n (2 ^ lo)
    have h2 := Nat.div_add_mod' (n / 2 ^ lo) (2 ^ len)
    unfold fld
    rw [← Nat.add_mul, h2, h1]
  have hset : setFld n lo len v = n % 2 ^ lo + 2 ^ lo * (v % 2 ^ len + 2 ^ len * (n / 2 ^ lo / 2 ^ len)) := by
    unfold setFld
    rw [show n - fld n lo len * 2 ^ lo = n / 2 ^ lo / 2 ^ len * 2 ^ len * 2 ^ lo + n % 2 ^ lo by omega]
    ring
  rw [hset]
  unfold fld
  rw [Nat.add_mul_div_left _ _ (Nat.two_pow_pos lo), Nat.div_eq_of_lt (Nat.mod_lt _ (Nat.two_pow_pos lo)), Nat.zero_add,
    Nat.add_mul_mod_self_left, Nat.mod_mod]

/-- The record that says that a shard's buffer is armed for a step. -/
def armedRec (r step : Nat) : Nat :=
  if shardBuf r step = 0 then setFld r 64 32 step else setFld r 32 32 step

theorem shardArmed_armedRec {r step : Nat} (h : step < 2 ^ 32) : shardArmed (armedRec r step) (shardBuf r step) = step := by
  unfold shardArmed armedRec
  split <;> rw [fld_setFld, Nat.mod_eq_of_lt h]

theorem Dev.tracedOf.red {d e : Dev} (h : d.tracedOf e) (j : Nat) : (e.job j).red = (d.job j).red := by rw [h.2 j]

/-- Arming a shard changes its record alone among the job's shards. -/
theorem Dev.shards_armFor {d : Dev} {j step k r : Nat} (h : Tbl.find? (d.job j).red.shards k = some r) :
    ((d.armFor j step k r).job j).red.shards = Tbl.set (d.job j).red.shards k (armedRec r step) := by
  have hz := Dev.tracedOf.red (d.tracedOf_jwr j (shardBufVa r step) (List.replicate (shardBytes r) 0)) j
  have hk : Tbl.getD (d.job j).red.shards k 0 = r := by unfold Tbl.getD; rw [h]; rfl
  unfold Dev.armFor Dev.armShard
  dsimp only
  rw [Dev.tracedOf.red (Dev.tracedOf_jwr _ _ _ _)]
  simp only [Dev.setRed, Dev.setJob_job, hz, hk]
  rfl

/-! ### The obligation -/

/-- Settles O34: each command is its effect on a block that it can read, whose checks come in order; a REDUCE that passes them
arms every shard, and then enters its run beside those of the job. -/
theorem collectiveCommands : Obligations.CollectiveCommands := by
  refine ⟨ArgsOp.of sendRun exec_send fun d k c n => ⟨fun ho => ?_, fun ho hf => ?_, fun va ho hf => ?_⟩,
    ArgsOp.of contributeRun exec_contribute fun d k c n => ?_,
    ArgsOp.of reduceRun exec_reduce fun d k c n => ?_, fun d j step k r h hs => ⟨?_, fun i hi => ?_⟩⟩
  · unfold sendRun; rw [ho]; rfl
  · unfold sendRun; rw [ho, hf]; rfl
  · unfold sendRun; rw [ho, hf]; rfl
  · intro count fmt ps ok
    have hgood (ho : ok) : contribBad n = false := by simpa using mt (contribBad_iff n).mp (not_not.mpr ho)
    refine ⟨fun hl => if_pos hl, fun hl ho => contributeRun_malformed hl ((contribBad_iff n).mpr ho),
      fun hl ho hp => contributeRun_notLocal hl (hgood ho) hp, fun hl ho hp hm => ?_⟩
    rw [contributeRun_sends hl (hgood ho) hp hm]
    exact ⟨fun ha => by rw [ha]; rfl, fun ha => by rw [ha]; rfl⟩
  · intro j step ready
    refine ⟨fun ho => ?_, fun ho hr => ?_, fun ho hr => ?_⟩
    · unfold reduceRun; rw [ho]; rfl
    · exact reduceRun_refused ho hr
    · rw [reduceRun_starts ho hr]
      exact Dev.startRed_effect _ _ _ _
  · rw [Dev.shards_armFor h, Tbl.getD_set_self]
    exact shardArmed_armedRec hs
  · rw [Dev.shards_armFor h, Tbl.getD_set, if_neg hi]

end Sys2Proof.Machine
end

section
/-! SUPPORT. The checks of a Catalogue request (R414, R445), and obligation O39. -/

namespace Sys2Proof.Machine

/-! ### Each check in turn -/

/-- An entry of a job is seen by the owner role and by a session that holds the job's tenant key (R416, R445). -/
def Dev.sees (d : Dev) (s : Session) (e : CatEntry) (index : Nat) : Bool :=
  match e.jobOf index with
  | none => true
  | some j => s.owner || d.holdsKey s j

theorem Dev.sees_iff (d : Dev) (s : Session) (e : CatEntry) (index : Nat) :
    d.sees s e index = true ↔ ∀ j, e.jobOf index = some j → s.owner = true ∨ d.holdsKey s j = true := by
  unfold Dev.sees
  cases e.jobOf index <;> simp

/-- A header that R444 allows, on the transport of its session. -/
def Session.takesHead (s : Session) (r : Req) : Prop := r.rsv = 0 ∧ 1 ≤ r.typ ∧ r.typ ≤ 13 ∧ s.transport = r.transport

/-- A protected request that names the channel's handle and next counter, and whose tag verifies (R414). -/
def Chan.accepts (c : Chan) (r : Req) (p : Prot) (write : Bool) (index field : Nat) (v : List Byte) : Prop :=
  p.chan = c.handle ∧ p.ctr = c.ctr + 1 ∧ c.verifies r p (b2n write) index field v = true

section
variable {d : Dev} {r : Req} {s : Session} {write : Bool} {index field : Nat} {v : List Byte}

theorem Dev.checkProt_noChannel (hp : r.prot ≠ none) (hs : s.chan = none) :
    d.checkProt r s (b2n write) index field v = (d, false) := by
  unfold Dev.checkProt
  cases h : r.prot with
  | none => exact absurd h hp
  | some p => rw [hs]

theorem Dev.checkProt_accepts {p : Prot} {c : Chan} (hp : r.prot = some p) (hs : s.chan = some c)
    (h : c.accepts r p write index field v) : d.checkProt r s (b2n write) index field v
      = (d.setSession r.sess { s with chan := some { c with ctr := p.ctr } }, true) := by
  obtain ⟨hh, hc, hv⟩ := h
  unfold Dev.checkProt
  rw [hp, hs]
  exact if_pos (by simp [hh, hc, hv])

theorem Dev.checkProt_refuses {p : Prot} {c : Chan} (hp : r.prot = some p) (hs : s.chan = some c)
    (h : ¬ c.accepts r p write index field v) : d.checkProt r s (b2n write) index field v
      = ((d.setSession r.sess s.dropChan).bump Cat.SEC_SESSION_FAIL, false) := by
  unfold Dev.checkProt
  rw [hp, hs]
  exact if_neg fun hn => h (by simpa [Chan.accepts, and_assoc] using hn)

/-- During a long operation every request that names a session is BUSY (R452). -/
theorem Dev.checkSession_busy (h : d.long.isSome = true) :
    d.checkSession r s write index field v = (d.setSession r.sess s, some stBusy) := if_pos h

variable (hl : d.long = none)
include hl

theorem Dev.checkSession_badHead (h : ¬ s.takesHead r) :
    d.checkSession r s write index field v = (d.setSession r.sess s, some stBadType) := by
  unfold Dev.checkSession
  dsimp only
  rw [if_neg (by simp [Dev.setSession, hl]), if_pos]
  unfold Session.takesHead at h
  by_contra hn
  simp at hn
  exact h ⟨hn.1.1.1, by omega, hn.1.2, hn.2⟩

variable (hh : s.takesHead r)
include hh

theorem Dev.checkSession_recovery (h : ¬ (d.boot.recovery = true → recoveryAllows write index field = true)) :
    d.checkSession r s write index field v = (d.setSession r.sess s, some stDenied) := by
  obtain ⟨h0, h1, h13, ht⟩ := hh
  unfold Dev.checkSession
  dsimp only
  rw [if_neg (by simp [Dev.setSession, hl]), if_neg (by simp [h0, ht]; omega), if_pos]
  simpa [Dev.setSession] using h

variable (ha : d.boot.recovery = true → recoveryAllows write index field = true)
include ha

variable {d2 : Dev}

/-- With the first checks passed, the channel's check decides (R414, R445). -/
theorem Dev.checkSession_channelFails (hp : (d.setSession r.sess s).checkProt r s (b2n write) index field v = (d2, false)) :
    d.checkSession r s write index field v = (d2, some stDenied) := by
  obtain ⟨h0, h1, h13, ht⟩ := hh
  unfold Dev.checkSession
  dsimp only
  rw [if_neg (by simp [Dev.setSession, hl]), if_neg (by simp [h0, ht]; omega), if_neg (by simpa [Dev.setSession] using ha), hp]
  rfl

variable (hp : (d.setSession r.sess s).checkProt r s (b2n write) index field v = (d2, true))
include hp

theorem Dev.checkSession_noEntry (he : catEntry index field = none) :
    d.checkSession r s write index field v = (d2, some stNoEntry) := by
  obtain ⟨h0, h1, h13, ht⟩ := hh
  unfold Dev.checkSession
  dsimp only
  rw [if_neg (by simp [Dev.setSession, hl]), if_neg (by simp [h0, ht]; omega), if_neg (by simpa [Dev.setSession] using ha), hp,
    he]
  rfl

/-- An entry that is there: another job's is DENIED, one of another TYPE is BAD_TYPE (R445). -/
theorem Dev.checkSession_entry {e : CatEntry} (he : catEntry index field = some e) :
    (d2.sees s e index = false → d.checkSession r s write index field v = (d2, some stDenied))
      ∧ (d2.sees s e index = true → r.typ ≠ e.ty.code → d.checkSession r s write index field v = (d2, some stBadType))
      ∧ (d2.sees s e index = true → r.typ = e.ty.code → d.checkSession r s write index field v = (d2, none)) := by
  obtain ⟨h0, h1, h13, ht⟩ := hh
  unfold Dev.checkSession
  dsimp only
  rw [if_neg (by simp [Dev.setSession, hl]), if_neg (by simp [h0, ht]; omega), if_neg (by simpa [Dev.setSession] using ha), hp,
    he]
  dsimp only
  rw [if_neg (by simp)]
  exact ⟨fun hn => if_pos (congrArg (! ·) hn),
    fun hy ht => (if_neg (ne_of_eq_of_ne (congrArg (! ·) hy) Bool.false_ne_true)).trans (if_pos ht),
    fun hy ht => (if_neg (ne_of_eq_of_ne (congrArg (! ·) hy) Bool.false_ne_true)).trans (if_neg (not_not.mpr ht))⟩

end

/-! ### A write whose head passes -/

section
variable {d d1 : Dev} {r : Req} {index field : Nat} {v : List Byte} {w : Writer} {own : Dev → Bool} {s : Session}
  {e : CatEntry} (eff : Dev → WriteResult)
  (hup : (d.advance r.at_).transportUp r.transport = true)
  (hh : (d.advance r.at_).checkHead r true index field v = (d1, none)) (hs : d1.session? r.sess = some s)
  (he : catEntry index field = some e)
include hup hh hs he

/-- The entry's own checks of a write, in their order (R445, R446). -/
theorem catWrite_checks : catWrite r index field v w own eff d =
    if e.acc = .read || d1.onceWritten e then d1.answer r stReadOnly 0 [] index field 1
    else if !d1.mayWrite s r e index field w then d1.answer r stDenied 0 [] index field 1
    else if e.expert && s.level = 0 then d1.answer r stExpert 0 [] index field 1
    else if !(e.valueOk v && own d1) then d1.answer r stBadType 0 [] index field 1
    else if (eff d1).long then (eff d1).dev
    else (if (eff d1).status = stOk then (eff d1).dev.catTrace r (e.jobOf index) index field v else (eff d1).dev).answer r
      (eff d1).status 0 [] index field 1 := by
  unfold catWrite
  dsimp only
  rw [if_neg (by simp [hup]), hh]
  dsimp only
  rw [hs, he]

end

theorem Dev.onceWritten_iff (d : Dev) (e : CatEntry) : d.onceWritten e = true ↔ e.acc = .writeOnce ∧ d.nv.ownerKey ≠ [] := by
  simp [Dev.onceWritten]

/-! ### The obligation -/

/-- The session as the request leaves it: its channel, its owner role and its transport are the same (R456). -/
theorem Dev.touch_keeps (d : Dev) (s : Session) (at_ : Nat) : (d.touch s at_).chan = s.chan
    ∧ (d.touch s at_).owner = s.owner ∧ (d.touch s at_).transport = s.transport := by
  have h : d.touch s at_ = s ∨ d.touch s at_ = { s with lastAct := d.now } := ite_eq_or_eq _ _ _
  rcases h with h | h <;> rw [h] <;> exact ⟨rfl, rfl, rfl⟩

/-- What a session sees depends on its channel, its owner role and the job slots alone. -/
theorem Dev.sees_congr {d d2 : Dev} {s s1 : Session} (e : CatEntry) (index : Nat) (hc : s1.chan = s.chan)
    (ho : s1.owner = s.owner) (hj : d2.jobs = d.jobs) : d2.sees s1 e index = d.sees s e index := by
  unfold Dev.sees Dev.holdsKey Session.slots Dev.job
  rw [hc, ho, hj]

/-- Settles O39: the checks of the head and then the entry's own stand in one chain, and each clause is one link of it. -/
theorem catalogueChecksInOrder : Obligations.CatalogueChecksInOrder := by
  refine ⟨fun d r write index field v => ⟨fun hs => ?_, fun s hs => ?_⟩, ?_⟩
  · unfold Dev.checkHead; rw [hs]; rfl
  · intro s1 d1 head alive good passes
    obtain ⟨hchan, howner, htr⟩ := d.touch_keeps s r.at_
    have h1 : s1 = d.touch s r.at_ := rfl
    rw [← h1] at hchan howner htr
    have hhead : d.checkHead r write index field v = d.checkSession r s1 write index field v := by
      unfold Dev.checkHead; rw [hs]; rfl
    have hto (h : head) : s1.takesHead r := by unfold Session.takesHead; rw [htr]; exact h
    rw [hhead]
    refine ⟨Dev.checkSession_busy, fun hl hh => Dev.checkSession_badHead hl fun h => hh ?_,
      fun hl hh ha => Dev.checkSession_recovery hl (hto hh) ha, fun hl hh ha hp hc => ?_,
      fun p c hl hh ha hp hc hg => ?_, fun d2 hl hh ha hpass => ?_⟩
    · unfold Session.takesHead at h; rwa [htr] at h
    · exact Dev.checkSession_channelFails hl (hto hh) ha (Dev.checkProt_noChannel hp (hchan.trans hc))
    · exact Dev.checkSession_channelFails hl (hto hh) ha (Dev.checkProt_refuses hp (hchan.trans hc) hg)
    · have hprot : (d.setSession r.sess s1).checkProt r s1 (b2n write) index field v = (d2, true) ∧ d2.jobs = d.jobs := by
        rcases hpass with ⟨hp, rfl⟩ | ⟨p, c, hp, hc, hg, rfl⟩
        · exact ⟨by unfold Dev.checkProt; rw [hp], rfl⟩
        · exact ⟨Dev.checkProt_accepts hp (hchan.trans hc) hg, rfl⟩
      obtain ⟨hprot, hjobs⟩ := hprot
      refine ⟨Dev.checkSession_noEntry hl (hto hh) ha hprot, fun e he => ?_⟩
      intro seen
      obtain ⟨hno, hty, hok⟩ := Dev.checkSession_entry hl (hto hh) ha hprot he
      have hsees : d2.sees s1 e index = true ↔ seen := by
        rw [Dev.sees_congr e index hchan howner hjobs]; exact d.sees_iff s e index
      exact ⟨fun h => hno (by simpa using mt hsees.mp h), fun h => hty (hsees.mpr h), fun h => hok (hsees.mpr h)⟩
  · intro d d1 r index field v w own eff s e hup hh hs he once
    rw [catWrite_checks eff hup hh hs he]
    have honce : (decide (e.acc = .read) || d1.onceWritten e) = true ↔ e.acc = .read ∨ once := by
      rw [Bool.or_eq_true, decide_eq_true_eq, d1.onceWritten_iff]
    refine ⟨fun h => if_pos (honce.mpr h), fun hr ho hm => ?_, fun hr ho hm hx hlv => ?_, fun hr ho hm hx hv => ?_⟩
    all_goals rw [if_neg (fun h => (honce.mp h).elim hr ho), hm]
    · rfl
    · rw [hx, hlv]
      rfl
    · have hlv : ¬ ((e.expert && decide (s.level = 0)) = true) := fun h => by
        rw [Bool.and_eq_true, decide_eq_true_eq] at h
        exact hx h.1 h.2
      rw [if_neg hlv, hv]
      rfl

end Sys2Proof.Machine
end

section
/-! SUPPORT. The entries that arm the timetable and TT_CONTROL (R39, R57 to R60, R498, R499), and obligations O45 and O46. -/

namespace Sys2Proof.Machine

/-! ### Entries that arm it -/

/-- What a good image makes of the timetable (R58). -/
def Dev.loaded (d : Dev) (i : TtImage) : Dev :=
  { d with tt := { d.tt with
    st := .loaded, image := some i, pendingResume := false, rejoin := false, heldBy := .none, peers := [] } }

/-- The effect of a write of TT_TABLE (R41, R498). -/
def tableWrite (img : List Byte) (d : Dev) : WriteResult :=
  match parseImage img with
  | none => refuse (d.bump Cat.TT_LOAD_REJECT) stBadType
  | some i =>
    if (d.loaded i).tt.allWritten && (d.loaded i).stageOk && !(d.loaded i).lastOk then
      ⟨(d.loaded i).bump Cat.TT_LOAD_REJECT, stBadType, false⟩
    else ⟨(d.loaded i).tryArm, stOk, false⟩

theorem exec_ttTable (img : List Byte) (r : Req) (s : State) :
    exec (.ttTable r img) s = lift (catWrite r 0x5011 0 img .byTable (fun _ => true) (tableWrite img)) s := rfl

theorem tableWrite_long (img : List Byte) (d : Dev) : (tableWrite img d).long = false := by
  unfold tableWrite
  split
  · rfl
  · split <;> rfl

/-- With an image and all four entries written, the value that `f` takes contradicts the image or the steps (R39, R498). -/
def ttBreaks (f : Dev → Dev) (stage steps : Bool) (d : Dev) : Prop :=
  d.tt.image.isSome = true ∧ (f d).tt.allWritten = true
    ∧ ((stage = true ∧ (f d).stageOk = false) ∨ ((steps = true ∨ (f d).stageOk = true) ∧ (f d).lastOk = false))

theorem ttEntryWrite_eq (f : Dev → Dev) (en : TtEntry) (d : Dev) {stage steps : Bool} (hs : decide (en = .stage) = stage)
    (ht : decide (en = .steps) = steps) :
    (ttBreaks f stage steps d → ttEntryWrite f en d = refuse (d.bump Cat.TT_LOAD_REJECT) stBadType)
      ∧ (¬ ttBreaks f stage steps d → ttEntryWrite f en d = ⟨(f d).tryArm, stOk, false⟩) := by
  have hb : (d.tt.image.isSome && (f d).tt.allWritten
      && ((decide (en = .stage) && !(f d).stageOk) || ((decide (en = .steps) || (f d).stageOk) && !(f d).lastOk))) = true
      ↔ ttBreaks f stage steps d := by
    simp only [hs, ht, Bool.and_eq_true, Bool.or_eq_true, Bool.not_eq_true', and_assoc, ttBreaks]
  exact ⟨fun h => if_pos (hb.mpr h), fun h => if_neg fun hn => h (hb.mp hn)⟩

/-- A Catalogue write whose effect is that of an entry of R498 is refused when it breaks the conditions, and else kept, and the
timetable armed if it can be. -/
theorem WriteOp.of_ttEntry {mk : Req → Instr} {field : Nat} {v : List Byte} {fits : Bool} {f : Dev → Dev}
    {stage steps : Bool} (en : TtEntry) (hs : decide (en = .stage) = stage) (ht : decide (en = .steps) = steps)
    (he : ∀ r s, exec (mk r) s = lift (catWrite r 0x5011 field v .byTable (fun _ => fits) (ttEntryWrite f en)) s) :
    WriteOp mk 0x5011 field v .byTable (fun _ => fits) fun d _ e st =>
      (ttBreaks f stage steps d → st = stBadType ∧ e = d.bump Cat.TT_LOAD_REJECT)
        ∧ (¬ ttBreaks f stage steps d → st = stOk ∧ e = (f d).tryArm) := by
  refine WriteOp.of (fun _ => ttEntryWrite f en) he (fun _ d => ?_) fun _ d _ => ?_
  · unfold ttEntryWrite; dsimp only; split <;> rfl
  · obtain ⟨hb, hn⟩ := ttEntryWrite_eq f en d hs ht
    exact ⟨fun h => by rw [hb h]; exact ⟨rfl, rfl⟩, fun h => by rw [hn h]; exact ⟨rfl, rfl⟩⟩

/-- The timetable is armed exactly when R498's conditions hold. -/
theorem Dev.tryArm_cases (d : Dev) :
    let ok : Prop := d.tt.st = .loaded ∧ d.tt.allWritten = true ∧ d.stageOk = true ∧ d.lastOk = true
    (¬ ok → d.tryArm = d)
      ∧ (ok → d.tryArm = { d with tt := { d.tt with
          st := .armed, rejoin := false, armedAt := d.now, peers := [], epoch := d.cget Cat.TT_EPOCH,
          firstStep := d.cget Cat.TT_FIRST_STEP } }) := by
  intro ok
  have hb : (decide (d.tt.st = .loaded) && d.tt.allWritten && d.stageOk && d.lastOk) = true ↔ ok := by
    simp only [Bool.and_eq_true, decide_eq_true_eq, and_assoc, ok]
  exact ⟨fun h => if_neg fun hn => h (hb.mp hn), fun h => if_pos (hb.mpr h)⟩

/-- Settles O45: a write of the table is its three cases, each other entry is one case of the shared write of R498, and arming
is the two cases of `tryArm`. -/
theorem timetableEntriesArmIt : Obligations.TimetableEntriesArmIt := by
  refine ⟨fun img => ?_, ?_, fun d => d.tryArm_cases⟩
  · refine WriteOp.of (fun _ => tableWrite img) (fun r s => exec_ttTable img r s) (fun _ d => tableWrite_long img d)
      fun _ d _ => ⟨fun hp => ?_, fun i hi => ?_⟩
    · unfold tableWrite; rw [hp]; exact ⟨rfl, rfl⟩
    · intro l
      have hb : (l.tt.allWritten && l.stageOk && !l.lastOk) = true
          ↔ l.tt.allWritten = true ∧ l.stageOk = true ∧ l.lastOk = false := by
        simp only [Bool.and_eq_true, Bool.not_eq_true', and_assoc]
      have hw : tableWrite img d = if (l.tt.allWritten && l.stageOk && !l.lastOk) = true
          then ⟨l.bump Cat.TT_LOAD_REJECT, stBadType, false⟩ else ⟨l.tryArm, stOk, false⟩ := by
        unfold tableWrite; rw [hi]; rfl
      rw [hw]
      refine ⟨fun h1 h2 h3 => ?_, fun h => ?_⟩
      · rw [if_pos (hb.mpr ⟨h1, h2, h3⟩)]; exact ⟨rfl, rfl⟩
      · rw [if_neg fun hn => h (hb.mp hn)]; exact ⟨rfl, rfl⟩
  · intro entry
    exact ⟨fun v => WriteOp.of_ttEntry .stage rfl rfl fun _ _ => rfl,
      fun v => WriteOp.of_ttEntry .plain rfl rfl fun _ _ => rfl,
      fun v => WriteOp.of_ttEntry .steps rfl rfl fun _ _ => rfl,
      fun v => WriteOp.of_ttEntry .plain rfl rfl fun _ _ => rfl,
      fun v => WriteOp.of_ttEntry .steps rfl rfl fun _ _ => rfl⟩

/-! ### TT_CONTROL -/

/-- The effect of a write of command `v` to TT_CONTROL: `f` answers none where R58 lists no transition (R499). -/
def controlWrite (v : Nat) (f : Dev → Option Dev) (d : Dev) : WriteResult :=
  match f d with
  | some e => ⟨{ e with tt := { e.tt with lastControl := v } }, stOk, false⟩
  | none => refuse d stDenied

theorem controlWrite_some {v : Nat} {f : Dev → Option Dev} {d e : Dev} (h : f d = some e) :
    controlWrite v f d = ⟨{ e with tt := { e.tt with lastControl := v } }, stOk, false⟩ := by
  unfold controlWrite; rw [h]

theorem controlWrite_none {v : Nat} {f : Dev → Option Dev} {d : Dev} (h : f d = none) :
    controlWrite v f d = refuse d stDenied := by
  unfold controlWrite; rw [h]

theorem WriteOp.of_control {mk : Req → Instr} {v : Nat} {P : Dev → Req → Dev → Nat → Prop} (f : Dev → Option Dev)
    (he : ∀ r s, exec (mk r) s = lift (ttControl r v f) s)
    (hp : ∀ d r, P d r (controlWrite v f d).dev (controlWrite v f d).status) :
    WriteOp mk 0x5011 7 (leBytes 1 v) .byTable (fun _ => true) P := by
  refine WriteOp.of (fun _ => controlWrite v f) he (fun _ d => ?_) fun r d _ => hp d r
  unfold controlWrite; split <;> rfl

/-- Stop: a RUNNING timetable is held. -/
def stopped? (d : Dev) : Option Dev := if d.tt.st = .running then some (d.ttHold .stop) else none

/-- Resume: a HELD timetable rejoins, or waits for the timebase's lock. -/
def resumed? (d : Dev) : Option Dev :=
  if d.tt.st ≠ .held then none
  else if d.tb.st = .locked then some d.ttArmRejoin
  else some { d with tt := { d.tt with pendingResume := true } }

/-- Unload: a timetable that does not run gives up its image and what was written. -/
def unloaded? (d : Dev) : Option Dev :=
  if d.tt.st = .loaded || d.tt.st = .armed || d.tt.st = .held then
    some { d with tt := { d.tt with
      st := .unloaded, image := none, wrStage := false, wrEpoch := false, wrFirst := false, wrAnchor := false,
      pendingResume := false, rejoin := false, heldBy := .none, peers := [], past := [] } }
  else none

/-- A timetable that rejoins is ARMED, and counted (R59, R60). -/
theorem Dev.ttArmRejoin_effect (d : Dev) : d.ttArmRejoin.tt.st = .armed ∧ d.ttArmRejoin.tt.rejoin = true
    ∧ d.ttArmRejoin.tt.armedAt = d.now ∧ d.ttArmRejoin.tt.pendingResume = false
    ∧ d.ttArmRejoin.cget Cat.TT_REJOIN = d.cget Cat.TT_REJOIN + 1 := by
  have hne : Cat.TT_REJOIN ≠ Cat.TT_SELF_REJOIN := by decide
  have hcount (e : Dev) (t : Timetable) (k : Nat) : ({ e with tt := t } : Dev).cget k = e.cget k := rfl
  unfold Dev.ttArmRejoin
  dsimp only
  split
  · refine ⟨rfl, rfl, by simp, rfl, ?_⟩
    rw [hcount, Dev.cget_bump, if_neg hne, Dev.cget_bump, if_pos rfl]
  · refine ⟨rfl, rfl, by simp, rfl, ?_⟩
    rw [hcount, Dev.cget_bump, if_pos rfl]

/-- Settles O46: each command is granted in the states that R58 lists for it, and in them its transition is one update. -/
theorem timetableControl : Obligations.TimetableControl := by
  refine ⟨WriteOp.of_control stopped? (fun _ _ => rfl) fun d _ => ⟨fun hr => ?_, fun hr => ?_⟩,
    WriteOp.of_control resumed? (fun _ _ => rfl) fun d _ => ⟨fun hh => ?_, fun hh => ?_⟩,
    WriteOp.of_control unloaded? (fun _ _ => rfl) fun d _ => ⟨fun hc => ?_, fun hc => ?_⟩⟩
  · have hold : d.ttHold .stop = { d with tt := { d.tt with st := .held, heldBy := .stop } } := if_pos hr
    rw [controlWrite_some (if_pos hr), hold]
    exact ⟨rfl, rfl⟩
  · rw [controlWrite_none (if_neg hr)]
    exact ⟨rfl, rfl⟩
  · rw [controlWrite_none (if_pos hh)]
    exact ⟨rfl, rfl⟩
  · by_cases hl : d.tb.st = .locked
    · rw [controlWrite_some ((if_neg (not_not.mpr hh)).trans (if_pos hl))]
      exact ⟨rfl, rfl, fun _ => d.ttArmRejoin_effect, fun h => absurd hl h⟩
    · rw [controlWrite_some ((if_neg (not_not.mpr hh)).trans (if_neg hl))]
      exact ⟨rfl, rfl, fun h => absurd h hl, fun _ => rfl⟩
  · rw [controlWrite_none (if_neg (by simpa [or_assoc] using hc))]
    exact ⟨rfl, rfl⟩
  · rw [controlWrite_some (if_pos (by simpa [or_assoc] using hc))]
    exact ⟨rfl, rfl, rfl, rfl, rfl, rfl, rfl, rfl⟩

end Sys2Proof.Machine
end

section
/-! SUPPORT. The start, the end and the close of slots, and how a timetable comes to run (R45, R48, R58, R59, R61), and
obligation O47. -/

namespace Sys2Proof.Machine

/-! ### Slot arithmetic -/

theorem Dev.slots_congr {d e : Dev} (hi : e.tt.image = d.tt.image) (hc : e.cat = d.cat) : e.slots = d.slots := by
  unfold Dev.slots Dev.cget
  rw [hi, hc]

/-- Where a slot lies depends on the image, the epoch and the first step of the timetable, and on the Catalogue. -/
theorem Dev.slotNominal_congr {d e : Dev} (hi : e.tt.image = d.tt.image) (he : e.tt.epoch = d.tt.epoch)
    (hf : e.tt.firstStep = d.tt.firstStep) (hc : e.cat = d.cat) (n j : Nat) : e.slotNominal n j = d.slotNominal n j := by
  unfold Dev.slotNominal Dev.stepStart Dev.stepLen
  rw [Dev.slots_congr hi hc, hi, he, hf]

/-- Whether firm work runs depends on the held commands, the timetable, jobs and rings alone. -/
theorem Dev.firmRunning_advance (d : Dev) (t : Nat) : (d.advance t).firmRunning = d.firmRunning := by
  unfold Dev.firmRunning Dev.job Dev.ring
  simp

/-! ### The start of a slot -/

/-- `e` has the time and the timetable of `d`, but for the request of R54. -/
def Dev.slotKept (d e : Dev) : Prop :=
  e.now = d.now ∧ e.tt = { d.tt with reqM := e.tt.reqM, reqStep := e.tt.reqStep, reqCarried := e.tt.reqCarried }

theorem Dev.slotKept.of_eq {d e : Dev} (hn : e.now = d.now) (ht : e.tt = d.tt) : d.slotKept e := ⟨hn, by rw [ht]⟩

theorem Dev.slotKept.trans {a b c : Dev} (h : a.slotKept b) (k : b.slotKept c) : a.slotKept c := by
  obtain ⟨h1, h2⟩ := h
  obtain ⟨k1, k2⟩ := k
  exact ⟨k1.trans h1, by rw [k2, h2]⟩

theorem Dev.slotKept_raiseResync (d : Dev) (lag : Nat) : d.slotKept (d.raiseResync lag) := by
  unfold Dev.raiseResync
  dsimp only
  (repeat' split) <;> exact ⟨rfl, rfl⟩

theorem Dev.tracedOf.tt {d e : Dev} (h : d.tracedOf e) : e.tt = d.tt := by rw [h.1]
theorem Dev.tracedOf.tb {d e : Dev} (h : d.tracedOf e) : e.tb = d.tb := by rw [h.1]

/-- Parking filler changes held commands and a counter. -/
theorem Dev.parkFiller_rest (d : Dev) : d.parkFiller = { d with cmds := d.parkFiller.cmds, cat := d.parkFiller.cat } := by
  unfold Dev.parkFiller Dev.bumpBy
  dsimp only
  split <;> rfl

theorem Dev.parkFiller_tt (d : Dev) : d.parkFiller.tt = d.tt := by rw [Dev.parkFiller_rest]
theorem Dev.parkFiller_now (d : Dev) : d.parkFiller.now = d.now := by rw [Dev.parkFiller_rest]

/-- The device with slot `j` of step `n` begun at `a`: FIRM, its lag and its slack's cut known, nothing of it traced yet. -/
def Dev.inSlot (d : Dev) (n j a : Nat) : Dev :=
  let lag := a - d.slotNominal n j
  let s := d.slotDef j
  { d with tt := { d.tt with
    ended := if j = 0 && n = d.tt.step + 1 then d.tt.ended ++ [(d.tt.step, a)] else d.tt.ended,
    step := n, slot := j, slotSt := .firm, slotStart := a, lag := lag,
    slackCut := min (d.cget Cat.TT_CATCHUP_FRAC * (s.len - s.firm) / 100) lag, lastFirmEnd := a,
    firmDone := false, paceTook := d.tt.paceLag, paceLag := 0, justStarted := true } }

/-- A slot's start advances the time to it; what it counts, parks and traces leaves time and timetable, and what it asks for is
a request of R54. -/
theorem Dev.startSlot_kept (d : Dev) (n j a : Nat) : ((d.advance a).inSlot n j a).slotKept (d.startSlot n j a) := by
  refine Dev.slotKept.trans ?_ (Dev.slotKept_raiseResync _ _)
  have hpark : ((d.advance a).inSlot n j a).slotKept ((d.advance a).inSlot n j a).parkFiller :=
    .of_eq (Dev.parkFiller_now _) (Dev.parkFiller_tt _)
  have hmax (e : Dev) (lag : Nat) : e.slotKept (if e.cget Cat.TT_LAG_MAX < lag then e.cset Cat.TT_LAG_MAX lag else e) := by
    split <;> exact .of_eq rfl rfl
  have htrace (e : Dev) (lag : Nat) (r : TraceRec) : e.slotKept (if lag = 0 then e else e.trace r) := by
    split
    · exact .of_eq rfl rfl
    · exact .of_eq (e.tracedOf_trace r).now (e.tracedOf_trace r).tt
  exact (hpark.trans (hmax _ _)).trans (htrace _ _ _)

/-- The slot that has begun. -/
theorem Dev.startSlot_effect (d : Dev) (n j a : Nat) : let e := d.startSlot n j a
    e.now = max d.now a ∧ e.tt.st = d.tt.st ∧ e.tt.epoch = d.tt.epoch ∧ e.tt.step = n ∧ e.tt.slot = j ∧ e.tt.slotSt = .firm
      ∧ e.tt.slotStart = a ∧ e.tt.lag = a - d.slotNominal n j ∧ e.tt.runStart = d.tt.runStart ∧ e.tt.past = d.tt.past := by
  intro e
  obtain ⟨hn, ht⟩ := d.startSlot_kept n j a
  have hnow : e.now = max d.now a := hn.trans (d.advance_now a)
  have hlag : a - (d.advance a).slotNominal n j = a - d.slotNominal n j := by
    rw [Dev.slotNominal_congr _ _ _ (d.advance_cat a)] <;> rw [d.advance_tt]
  refine ⟨hnow, ?_⟩
  rw [show e.tt = _ from ht]
  simp only [Dev.inSlot, Dev.advance_tt, hlag, and_self]

/-! ### A timetable that comes to run -/

/-- The timetable RUNNING from slot 0 of step `n` on, which starts at `a`, of a run that keeps the slots `past` (R58, R59). -/
def Dev.ranFrom (d : Dev) (epoch n a : Nat) (rejoin : Bool) (past : List (Nat × Nat × Nat × Nat)) : Dev :=
  { d with tt := { d.tt with
    st := .running, rejoin := rejoin, epoch := epoch, firstStep := d.cget Cat.TT_FIRST_STEP, step := n, slot := 0, paceLag := 0,
    reqM := 0, reqCarried := false, moves := [], prevOverrun := false, prevSlackOpen := false, past := past, runStart := a } }

theorem Dev.slotNominal_ranFrom (d : Dev) (epoch n a : Nat) (rejoin : Bool) (past : List (Nat × Nat × Nat × Nat)) :
    (d.ranFrom epoch n a rejoin past).slotNominal n 0 = epoch + (n - d.cget Cat.TT_FIRST_STEP) * d.stepLen := rfl

/-- ARMED afresh, with lock and agreement, it runs at its epoch, or now if that has passed (R43, R58). -/
theorem execTtRunStartD_starts {d : Dev} (hst : d.tt.st = .armed) (hre : d.tt.rejoin = false) (htb : d.tb.st = .locked)
    (hag : d.ttPeersAgree = true) : let a := max d.now (d.cget Cat.TT_EPOCH)
    execTtRunStartD d = (d.ranFrom (d.cget Cat.TT_EPOCH) (d.cget Cat.TT_FIRST_STEP) a d.tt.rejoin []).startSlot
      (d.cget Cat.TT_FIRST_STEP) 0 a := by
  intro a
  have ha : a = max d.now (d.cget Cat.TT_EPOCH
      + (d.cget Cat.TT_FIRST_STEP - d.cget Cat.TT_FIRST_STEP) * d.stepLen) := by simp [a]
  unfold execTtRunStartD
  rw [if_neg (by simp [hst, hre, htb, hag]), ha]
  rfl

/-- The step that a rejoining module takes: not before the domain's, and far enough ahead (R59). -/
def Dev.rejoinStep (d : Dev) : Nat :=
  max d.domainStep (d.cget Cat.TT_FIRST_STEP
    + ceilDiv (max d.now (d.tt.armedAt + d.cget Cat.TT_RESYNC_NOTICE) - d.domainEpoch) (max 1 d.stepLen))

section
variable {d : Dev} (hst : d.tt.st = .armed) (hre : d.tt.rejoin = true) (htb : d.tb.st = .locked) (hag : d.ttPeersAgree = true)
include hst hre htb hag

theorem execTtRejoinD_holds (hn : d.cget Cat.TT_LAST_STEP < d.rejoinStep) :
    execTtRejoinD d = { d with tt := { d.tt with st := .held, heldBy := .lastStep, rejoin := false } } := by
  unfold execTtRejoinD
  rw [if_neg (by simp [hst, hre, htb, hag])]
  exact if_pos hn

theorem execTtRejoinD_starts (hn : d.rejoinStep ≤ d.cget Cat.TT_LAST_STEP) :
    let a := max d.now (d.domainEpoch + (d.rejoinStep - d.cget Cat.TT_FIRST_STEP) * d.stepLen)
    execTtRejoinD d = (d.ranFrom d.domainEpoch d.rejoinStep a false (d.tt.past.filter fun p => p.1 < d.rejoinStep)).startSlot
      d.rejoinStep 0 a := by
  intro a
  unfold execTtRejoinD
  rw [if_neg (by simp [hst, hre, htb, hag])]
  exact if_neg (Nat.not_lt.mpr hn)

end

/-! ### The slot's transitions (R45, R48, R61) -/

/-- The slot WAITING begins at its start, or now if that has passed. -/
theorem execSlotStartD_starts {d : Dev} (hst : d.tt.st = .running) (hs : d.tt.slotSt = .waiting) :
    execSlotStartD d = d.startSlot d.nextSlot.1 d.nextSlot.2
      (max d.now (max d.tt.lastFirmEnd (d.slotNominal d.nextSlot.1 d.nextSlot.2 + d.tt.paceLag))) := by
  unfold execSlotStartD
  rw [if_neg (by simp [hst, hs])]
  rfl

section
variable {d : Dev} (hst : d.tt.st = .running)
include hst

theorem execFirmEndD_eq (hs : d.tt.slotSt = .firm) : execFirmEndD d = let e := d.advance d.firmPartEnd
    if d.firmRunning then { e with tt := { e.tt with slotSt := .overrun, firmDone := true } }.bump Cat.TT_FIRM_OVERRUN
    else { e with tt := { e.tt with slotSt := .slack } } := by
  unfold execFirmEndD
  rw [if_neg (by simp [hst, hs])]
  dsimp only
  rw [Dev.firmRunning_advance]

theorem execSlotPlannedEndD_eq (hs : d.tt.slotSt = .slack ∨ d.tt.slotSt = .overrun) :
    execSlotPlannedEndD d = let t := max d.now d.plannedEnd; let p := (d.advance t).parkFiller
      if p.firmRunning then { p with tt := { p.tt with slotSt := .late } }.bump Cat.TT_LATE_SLOT else p.closeSlot t := by
  unfold execSlotPlannedEndD
  rw [if_neg (by rcases hs with h | h <;> simp [hst, h])]

/-- The device with its slot CLOSED at `t`, the time being `t`. -/
def Dev.slotClosed (d : Dev) (t : Nat) : Dev :=
  { d with tt := { d.tt with
    slotSt := .closed, prevSlackOpen := (d.slotDef d.tt.slot).slackOpen, prevOverrun := d.firmPartEnd < d.tt.lastFirmEnd,
    past := (d.tt.step, d.tt.slot, d.tt.slotStart, t) :: d.tt.past } }

/-- What follows the close of a slot: the next one at once, or its start is waited for (R45, R61). -/
def Dev.afterClose (d : Dev) (t : Nat) : Dev :=
  if d.tt.st ≠ .running then d
  else if d.nextStart t ≤ t then d.startSlot d.nextSlot.1 d.nextSlot.2 t
  else { d with tt := { d.tt with slotSt := .waiting, lastFirmEnd := t } }

/-- Within a step the closed slot is followed by the next one. -/
theorem Dev.closeSlot_within (t : Nat) (hj : d.tt.slot + 1 < d.slots.length) :
    let a := max t (d.slotNominal d.tt.step (d.tt.slot + 1) + d.tt.paceLag); let e := (d.advance t).slotClosed t
    d.closeSlot t = if a ≤ t then e.startSlot d.tt.step (d.tt.slot + 1) t
      else { e with tt := { e.tt with slotSt := .waiting, lastFirmEnd := t } } := by
  intro a e
  have htt : e.tt = { d.tt with
      slotSt := .closed, prevSlackOpen := e.tt.prevSlackOpen, prevOverrun := e.tt.prevOverrun, past := e.tt.past } := by
    rw [← d.advance_tt t]; rfl
  have hcat : e.cat = d.cat := d.advance_cat t
  have hslots : e.slots = d.slots := Dev.slots_congr (by rw [htt]) hcat
  have hin : e.tt.slot + 1 < e.slots.length := by rw [hslots, htt]; exact hj
  have hnext : e.nextSlot = (d.tt.step, d.tt.slot + 1) := by
    unfold Dev.nextSlot
    rw [if_pos hin, htt]
  have hnominal : e.slotNominal d.tt.step (d.tt.slot + 1) = d.slotNominal d.tt.step (d.tt.slot + 1) :=
    Dev.slotNominal_congr (by rw [htt]) (by rw [htt]) (by rw [htt]) hcat _ _
  have hstart : e.nextStart t = a := by
    unfold Dev.nextStart
    rw [hnext]
    dsimp only
    rw [hnominal, htt]
  have hclose : d.closeSlot t = e.afterClose t := by
    have hall : d.closeSlot t = (if e.tt.slot + 1 < e.slots.length then e
      else
        let d' := e.stepEnds e.tt.step
        if d'.tt.st = .running then d' else { d' with tt := { d'.tt with ended := d'.tt.ended ++ [(e.tt.step, t)] } }).afterClose
          t := rfl
    rw [hall, if_pos hin]
  rw [hclose]
  unfold Dev.afterClose
  rw [if_neg (by rw [htt]; simp [hst]), hstart, hnext]

end

/-! ### The obligation -/

/-- A command acts as its effect on the device does, which may be known in another form. -/
theorem Acts.of_eq {i : Instr} {s : State} {P : Dev → Prop} {f : Dev → Dev} {d : Dev} (he : exec i s = lift f s)
    (hd : f s.dev = d) (hp : P d) : Acts i s P := ⟨f s.dev, he, hd ▸ hp⟩

/-- Settles O47: a run and a slot begin by the start of a slot, of which one lemma says what it makes of time and timetable; the
other transitions are the branches of their commands. -/
theorem slotsStartEndAndClose : Obligations.SlotsStartEndAndClose := by
  refine ⟨?_, ?_, ?_, ?_, ?_, ?_⟩
  · intro s d n0 hst hre htb hag
    refine Acts.of_eq rfl (execTtRunStartD_starts hst hre htb hag) ?_
    intro a
    obtain ⟨hnow, hst', hep, hstep, hslot, hfirm, hstart, hlag, hrun, hpast⟩ :=
      (d.ranFrom (d.cget Cat.TT_EPOCH) n0 a d.tt.rejoin []).startSlot_effect n0 0 a
    refine ⟨hst', hep, hstep, hslot, hfirm, hstart, hnow.trans ?_, hlag.trans ?_, hrun, hpast⟩
    · exact Nat.max_eq_right (Nat.le_max_left d.now _)
    · rw [Dev.slotNominal_ranFrom, Nat.sub_self, Nat.zero_mul, Nat.add_zero]
  · intro s d n0 n hst hre htb hag
    refine ⟨fun hn => Acts.of_eq rfl (execTtRejoinD_holds hst hre htb hag hn) ⟨rfl, rfl, rfl⟩,
      fun hn => Acts.of_eq rfl (execTtRejoinD_starts hst hre htb hag hn) ?_⟩
    intro a
    obtain ⟨hnow, hst', hep, hstep, hslot, hfirm, hstart, -, hrun, -⟩ :=
      (d.ranFrom d.domainEpoch n a false (d.tt.past.filter fun p => p.1 < n)).startSlot_effect n 0 a
    exact ⟨hst', hep, hstep, hslot, hfirm, hstart, hnow.trans (Nat.max_eq_right (Nat.le_max_left d.now _)), hrun⟩
  · intro s d hst hs
    refine Acts.of_eq rfl (execSlotStartD_starts hst hs) ?_
    intro a
    obtain ⟨hnow, hst', -, hstep, hslot, hfirm, hstart, -⟩ := d.startSlot_effect d.nextSlot.1 d.nextSlot.2 a
    exact ⟨hst'.trans hst, Prod.ext hstep hslot, hfirm, hstart, hnow.trans (Nat.max_eq_right (Nat.le_max_left d.now _))⟩
  · intro s d hst hs
    have hend := execFirmEndD_eq hst hs
    refine ⟨fun hf => Acts.of_eq rfl (hend.trans (if_pos hf)) ⟨by simp, ?_, ?_⟩,
      fun hf => Acts.of_eq rfl (hend.trans (if_neg (by simp [hf]))) ⟨by simp, d.advance_cat _, d.advance_now _⟩⟩
    · rw [Dev.cget_bump, if_pos rfl]
      exact congrArg (· + 1) (d.cget_advance _ _)
    · rw [Dev.bump_now]; exact d.advance_now _
  · intro s d t p hst hs
    have hend := execSlotPlannedEndD_eq hst hs
    refine ⟨fun hf => Acts.of_eq rfl (hend.trans (if_pos hf)) ⟨by simp [Dev.parkFiller_tt], ?_, ?_⟩,
      fun hf => Acts.of_eq rfl (hend.trans (if_neg (by simpa using hf))) rfl⟩
    · rw [Dev.cget_bump, if_pos rfl]; rfl
    · rw [Dev.bump_now]
      exact (Dev.parkFiller_now _).trans ((d.advance_now t).trans (Nat.max_eq_right (Nat.le_max_left d.now _)))
  · intro d t ht hst hj a e
    have hnow : (d.advance t).now = t := (d.advance_now t).trans (Nat.max_eq_right ht)
    have hclose : e = _ := d.closeSlot_within hst t hj
    refine ⟨fun hlt => ?_, fun hle => ?_⟩
    · rw [hclose.trans (if_neg (Nat.not_le.mpr hlt))]
      exact ⟨rfl, congrArg (·.slot) (d.advance_tt t), rfl, hnow, d.advance_mem t⟩
    · obtain ⟨hn, -, -, hstep, hslot, hfirm, hstart, -⟩ :=
        ((d.advance t).slotClosed t).startSlot_effect d.tt.step (d.tt.slot + 1) t
      rw [hclose.trans (if_pos hle)]
      exact ⟨hfirm, hslot, hstep, hstart, hn.trans (by rw [show ((d.advance t).slotClosed t).now = t from hnow, Nat.max_self])⟩

end Sys2Proof.Machine
end

section
/-! SUPPORT. The timebase: the states it enters, its steps and slews, and obligation O43 (R31 to R36). -/

namespace Sys2Proof.Machine

/-! ### What a change of the timebase may touch -/

/-- A timetable that is held for any cause does not run (R58), and nothing else of the device changes. -/
theorem Dev.ttHold_effect (d : Dev) (why : HeldCause) :
    (d.ttHold why).tt.st ≠ .running ∧ d.ttHold why = { d with tt := (d.ttHold why).tt } := by
  unfold Dev.ttHold
  split
  · exact ⟨by simp, rfl⟩
  · next h => exact ⟨h, rfl⟩

theorem Dev.ttHold_idle {d : Dev} (why : HeldCause) (h : d.tt.st ≠ .running) : d.ttHold why = d := if_neg h

/-- A timetable that rejoins by itself changes the timetable and two counters (R57, R60). -/
theorem Dev.tryRejoin_rest (d : Dev) : d.tryRejoin = { d with tt := d.tryRejoin.tt, cat := d.tryRejoin.cat } := by
  unfold Dev.tryRejoin
  split
  · unfold Dev.ttArmRejoin
    dsimp only
    split <;> rfl
  · rfl

/-- What the timebase holds of its masters: the offset last measured, its role and the master selected. -/
def Timebase.sameMaster (a b : Timebase) : Prop :=
  b.offset = a.offset ∧ b.gm = a.gm ∧ b.master = a.master ∧ b.foreign = a.foreign

theorem Timebase.sameMaster.trans {a b c : Timebase} (h : a.sameMaster b) (k : b.sameMaster c) : a.sameMaster c := by
  obtain ⟨h1, h2, h3, h4⟩ := h
  obtain ⟨k1, k2, k3, k4⟩ := k
  exact ⟨k1.trans h1, k2.trans h2, k3.trans h3, k4.trans h4⟩

/-- `e` differs from `d` in timebase, timetable and Catalogue values, at most. -/
def Dev.timebaseOf (d e : Dev) : Prop := e = { d with tb := e.tb, tt := e.tt, cat := e.cat }

theorem Dev.timebaseOf.trans {a b c : Dev} (h : a.timebaseOf b) (k : b.timebaseOf c) : a.timebaseOf c := by
  unfold Dev.timebaseOf at *; rw [k, h]
theorem Dev.timebaseOf.of_tb {d e : Dev} {tb : Timebase} (h : Dev.timebaseOf { d with tb := tb } e) : d.timebaseOf e := h
theorem Dev.timebaseOf.now {d e : Dev} (h : d.timebaseOf e) : e.now = d.now := by rw [h]
theorem Dev.timebaseOf.mem {d e : Dev} (h : d.timebaseOf e) : e.mem = d.mem := by rw [h]

/-- Entering a state changes timebase, timetable and counters, and of the timebase, beside the state, what it shows and in
FREE_RUN what it slews (R34). -/
theorem Dev.tbEnter_effect (d : Dev) (st : TbState) : let e := d.tbEnter st
    d.timebaseOf e ∧ d.tb.sameMaster e.tb ∧ e.tb.st = st ∧ e.tb.lockRun = d.tb.lockRun
      ∧ e.tb.lastSync = d.tb.lastSync ∧ (st ≠ .freeRun → e.tb.slew = d.tb.slew ∧ e.tb.freq = d.tb.freq)
      ∧ (st ≠ .locked → e.cat = d.cat) ∧ (st = .freeRun ∨ st = .acquiring → e.tt.st ≠ .running)
      ∧ (st = .holdover → e.tt = d.tt) := by
  cases st with
  | freeRun =>
    intro e
    obtain ⟨hrun, hrest⟩ := Dev.ttHold_effect
      { d with tb := { d.tb with st := .freeRun, slew := 0, freq := 0 } } .timebase
    have he : e = (({ d with tb := { d.tb with st := .freeRun, slew := 0, freq := 0 } } : Dev).ttHold .timebase).showGm := rfl
    rw [hrest] at he
    rw [he]
    exact ⟨rfl, ⟨rfl, rfl, rfl, rfl⟩, rfl, rfl, rfl, fun h => absurd rfl h, fun _ => rfl, fun _ => hrun, fun h => nomatch h⟩
  | acquiring =>
    intro e
    obtain ⟨hrun, hrest⟩ := Dev.ttHold_effect { d with tb := { d.tb with st := .acquiring } } .timebase
    have he : e = (({ d with tb := { d.tb with st := .acquiring } } : Dev).ttHold .timebase).showGm := rfl
    rw [hrest] at he
    rw [he]
    exact ⟨rfl, ⟨rfl, rfl, rfl, rfl⟩, rfl, rfl, rfl, fun _ => ⟨rfl, rfl⟩, fun _ => rfl, fun _ => hrun, fun h => nomatch h⟩
  | locked =>
    intro e
    have he : e = (({ d with tb := { d.tb with st := .locked } } : Dev).showGm).tryRejoin := rfl
    rw [Dev.tryRejoin_rest] at he
    rw [he]
    exact ⟨rfl, ⟨rfl, rfl, rfl, rfl⟩, rfl, rfl, rfl, fun _ => ⟨rfl, rfl⟩, fun h => absurd rfl h, fun h => (by simp at h),
      fun h => nomatch h⟩
  | holdover =>
    exact ⟨rfl, ⟨rfl, rfl, rfl, rfl⟩, rfl, rfl, rfl, fun _ => ⟨rfl, rfl⟩, fun _ => rfl, fun h => (by simp at h), fun _ => rfl⟩

/-- A step reads the new time at once, ends what was being slewed, and holds the timetable first (R36). -/
theorem Dev.tbStep_effect (d : Dev) (v : Nat) : let e := d.tbStep v
    e.now = v ∧ e.tb = { d.tb with lockRun := 0, slew := 0 } ∧ e.tt.st ≠ .running ∧ (d.tt.st ≠ .running → e.tt = d.tt) := by
  intro e
  obtain ⟨hrun, hrest⟩ := d.ttHold_effect .timebase
  have hto : Dev.tracedOf { d.ttHold .timebase with
      now := v, tb := { (d.ttHold .timebase).tb with lockRun := 0, slew := 0 } } e :=
    (Dev.tracedOf_bump _ _).trans (Dev.tracedOf_event _ _ _ _ _ _ _)
  have htt : e.tt = (d.ttHold .timebase).tt := hto.tt
  refine ⟨hto.now, ?_, by rw [htt]; exact hrun, fun h => by rw [htt, Dev.ttHold_idle _ h]⟩
  rw [hto.tb, hrest]

/-- What is to be slewed is the offset, and the frequency stays within TB_SLEW_MAX (R35, R36). -/
theorem Dev.slewBy_effect (d : Dev) (o : Int) : ∃ f : Int, f.natAbs ≤ d.cget Cat.TB_SLEW_MAX * 1000
    ∧ d.slewBy o = { d with fresh := d.fresh + 1, tb := { d.tb with slew := o * 1000000, freq := f } } := by
  refine ⟨((Config.freeNat d.fresh % (2 * (d.cget Cat.TB_SLEW_MAX * 1000) + 1) : Nat) : Int)
    - ((d.cget Cat.TB_SLEW_MAX * 1000 : Nat) : Int), ?_, rfl⟩
  have := Nat.mod_lt (Config.freeNat d.fresh) (show 0 < 2 * (d.cget Cat.TB_SLEW_MAX * 1000) + 1 by omega)
  omega

theorem Dev.cget_congr {d e : Dev} (h : e.cat = d.cat) (k : Nat) : e.cget k = d.cget k := by unfold Dev.cget; rw [h]

/-! ### A Sync of the selected master (R34, R36) -/

/-- The timebase was stepped by the offset. -/
def Dev.stepped (d e : Dev) (o : Int) : Prop :=
  e.now = ((d.now : Int) + o).toNat ∧ e.tb.st = .acquiring ∧ e.tt.st ≠ .running ∧ e.tb.lockRun = 0 ∧ e.tb.slew = 0

/-- The time is as it was, the offset is to be slewed away, and the frequency is corrected within its bound. -/
def Dev.slewed (d e : Dev) (o : Int) : Prop :=
  e.now = d.now ∧ e.tb.slew = o * 1000000 ∧ e.tb.freq.natAbs ≤ d.cget Cat.TB_SLEW_MAX * 1000

/-- A Sync in ACQUIRING: a far one steps; any other slews, counts near ones in a row, and locks at TB_LOCK_COUNT. -/
theorem Dev.acquireSync_effect {d : Dev} (o : Int) (hst : d.tb.st = .acquiring) :
    let e := d.acquireSync o
    let far : Prop := (d.cget Cat.TB_STEP_THRESH : Int) < o.natAbs
    let run := if o.natAbs ≤ d.cget Cat.TB_LOCK_WINDOW then d.tb.lockRun + 1 else 0
    d.tb.sameMaster e.tb ∧ (far → d.stepped e o)
      ∧ (¬ far → d.slewed e o ∧ e.tb.lockRun = run
          ∧ e.tb.st = if d.cget Cat.TB_LOCK_COUNT ≤ run ∧ run ≠ 0 then .locked else .acquiring) := by
  intro e far run
  by_cases hfar : far
  · have he : e = d.tbStep ((d.now : Int) + o).toNat := if_pos hfar
    obtain ⟨hnow, htb, hrun, -⟩ := d.tbStep_effect ((d.now : Int) + o).toNat
    rw [he]
    refine ⟨by rw [htb]; exact ⟨rfl, rfl, rfl, rfl⟩, fun _ => ⟨hnow, by rw [htb]; exact hst, hrun, by rw [htb], by rw [htb]⟩,
      fun h => absurd hfar h⟩
  · obtain ⟨f, hf, hs⟩ := Dev.slewBy_effect { d with tb := { d.tb with lockRun := run } } o
    have he : e = if d.cget Cat.TB_LOCK_COUNT ≤ run ∧ run ≠ 0
        then ({ d with tb := { d.tb with lockRun := run } }.slewBy o).tbEnter .locked
        else { d with tb := { d.tb with lockRun := run } }.slewBy o := by
      refine (if_neg hfar).trans (if_congr ?_ rfl rfl)
      rw [Bool.and_eq_true, decide_eq_true_eq, decide_eq_true_eq]
      exact Iff.rfl
    rw [hs] at he
    by_cases hl : d.cget Cat.TB_LOCK_COUNT ≤ run ∧ run ≠ 0
    · obtain ⟨hrest, hm, hst', hrun, -, hslew, -⟩ := Dev.tbEnter_effect
        { d with fresh := d.fresh + 1, tb := { d.tb with lockRun := run, slew := o * 1000000, freq := f } } .locked
      obtain ⟨hslew, hfreq⟩ := hslew (by simp)
      rw [he.trans (if_pos hl)]
      exact ⟨hm, fun h => absurd h hfar, fun _ => ⟨⟨hrest.now, hslew, hfreq.symm ▸ hf⟩, hrun, hst'.trans (if_pos hl).symm⟩⟩
    · rw [he.trans (if_neg hl)]
      exact ⟨⟨rfl, rfl, rfl, rfl⟩, fun h => absurd h hfar, fun _ => ⟨⟨rfl, rfl, hf⟩, rfl, hst.trans (if_neg hl).symm⟩⟩

/-- The device once the timebase has given its state up for ACQUIRING, with no near Sync counted. -/
def Dev.toAcquiring (d : Dev) : Dev := { d with tb := { d.tb with lockRun := 0 } }.tbEnter .acquiring

/-- A Sync that is first to be in ACQUIRING, from FREE_RUN or HOLDOVER: near ones are counted anew. -/
theorem Dev.toAcquiring_acquireSync (d : Dev) (o : Int) :
    let e := d.toAcquiring.acquireSync o
    let far : Prop := (d.cget Cat.TB_STEP_THRESH : Int) < o.natAbs
    let run := if o.natAbs ≤ d.cget Cat.TB_LOCK_WINDOW then 1 else 0
    d.tb.sameMaster e.tb ∧ (far → d.stepped e o)
      ∧ (¬ far → d.slewed e o ∧ e.tb.lockRun = run
          ∧ e.tb.st = if d.cget Cat.TB_LOCK_COUNT ≤ run ∧ run ≠ 0 then .locked else .acquiring) := by
  obtain ⟨hrest, hm, hst, hrun, -, -, hcat, -⟩ :=
    Dev.tbEnter_effect { d with tb := { d.tb with lockRun := 0 } } .acquiring
  have hc (k : Nat) : d.toAcquiring.cget k = d.cget k := Dev.cget_congr (hcat (by simp)) k
  have hnow : d.toAcquiring.now = d.now := hrest.now
  have h0 : d.toAcquiring.tb.lockRun = 0 := hrun
  have h := d.toAcquiring.acquireSync_effect o hst
  unfold Dev.stepped Dev.slewed at *
  simp only [hc, hnow, h0, Nat.zero_add] at h
  obtain ⟨hm', hfar, hnear⟩ := h
  exact ⟨hm.trans hm', hfar, hnear⟩

/-- What a Sync with this offset makes of the timebase, by its state. -/
def Dev.syncBy (d : Dev) (o : Int) : Dev :=
  match d.tb.st with
  | .freeRun => d.toAcquiring.acquireSync o
  | .acquiring => d.acquireSync o
  | .locked =>
    if (d.cget Cat.TB_STEP_THRESH : Int) < o.natAbs then
      let h := d.ttHold .timebase
      h.toAcquiring.tbStep ((h.now : Int) + o).toNat
    else d.slewBy o
  | .holdover =>
    if o.natAbs ≤ d.cget Cat.TB_LOCK_WINDOW then (d.slewBy o).tbEnter .locked
    else d.toAcquiring.acquireSync o

theorem Dev.takeSync_eq (d : Dev) (o : Int) : d.takeSync o =
    let e := Dev.syncBy { d with tb := { d.tb with offset := o } } o
    { e with tb := { e.tb with lastSync := e.now } } := rfl

/-- A far offset steps a LOCKED timebase, which gives up its lock on the device whose timetable is held. -/
theorem Dev.lockedStep_effect {d h : Dev} (o : Int) (hh : h = { d with tt := h.tt }) :
    let e := h.toAcquiring.tbStep ((h.now : Int) + o).toNat
    d.tb.sameMaster e.tb ∧ d.stepped e o := by
  intro e
  obtain ⟨-, hm, hst, -⟩ := Dev.tbEnter_effect { h with tb := { h.tb with lockRun := 0 } } .acquiring
  obtain ⟨hnow, htb, hrun, -⟩ := h.toAcquiring.tbStep_effect ((h.now : Int) + o).toNat
  have htb0 : h.tb = d.tb := by rw [hh]
  have hnow0 : h.now = d.now := by rw [hh]
  have he : e = h.toAcquiring.tbStep ((h.now : Int) + o).toNat := rfl
  rw [← he] at hnow htb hrun
  clear_value e
  refine ⟨?_, ?_, ?_, hrun, ?_, ?_⟩
  · have hto : h.tb.sameMaster h.toAcquiring.tb := hm
    rw [htb0] at hto
    exact hto.trans (by rw [htb]; exact ⟨rfl, rfl, rfl, rfl⟩)
  · rw [hnow, hnow0]
  · rw [htb]; exact hst
  · rw [htb]
  · rw [htb]

/-- The cases of R34 and R36 for a Sync. -/
theorem Dev.syncBy_effect (d : Dev) (o : Int) :
    let e := d.syncBy o
    let far : Prop := (d.cget Cat.TB_STEP_THRESH : Int) < o.natAbs
    let near : Prop := o.natAbs ≤ d.cget Cat.TB_LOCK_WINDOW
    let steps : Prop := far ∧ (d.tb.st = .holdover → ¬ near)
    let run := if near then (if d.tb.st = .acquiring then d.tb.lockRun else 0) + 1 else 0
    d.tb.sameMaster e.tb ∧ (steps → d.stepped e o) ∧ (¬ steps → d.slewed e o)
      ∧ (¬ steps → d.tb.st = .locked → e.tb.st = .locked ∧ e.tt = d.tt)
      ∧ (¬ steps → d.tb.st = .acquiring ∨ d.tb.st = .freeRun ∨ (d.tb.st = .holdover ∧ ¬ near) → e.tb.lockRun = run
          ∧ e.tb.st = if d.cget Cat.TB_LOCK_COUNT ≤ run ∧ run ≠ 0 then .locked else .acquiring)
      ∧ (near → d.tb.st = .holdover → e.tb.st = .locked) := by
  intro e far near steps run
  cases hst : d.tb.st with
  | freeRun =>
    have he : e = d.toAcquiring.acquireSync o := by simp only [e, Dev.syncBy, hst]
    have hsteps : steps ↔ far := by simp [steps, hst]
    have hrun : run = if near then 1 else 0 := by simp [run, hst]
    obtain ⟨hm, hfar, hnear⟩ := d.toAcquiring_acquireSync o
    rw [← he] at hm hfar hnear
    rw [hsteps, hrun]
    exact ⟨hm, hfar, fun h => (hnear h).1, fun _ h => (by simp at h), fun h _ => (hnear h).2, fun _ h => (by simp at h)⟩
  | acquiring =>
    have he : e = d.acquireSync o := by simp only [e, Dev.syncBy, hst]
    have hsteps : steps ↔ far := by simp [steps, hst]
    have hrun : run = if near then d.tb.lockRun + 1 else 0 := by simp [run, hst]
    obtain ⟨hm, hfar, hnear⟩ := d.acquireSync_effect o hst
    rw [← he] at hm hfar hnear
    rw [hsteps, hrun]
    exact ⟨hm, hfar, fun h => (hnear h).1, fun _ h => (by simp at h), fun h _ => (hnear h).2, fun _ h => (by simp at h)⟩
  | locked =>
    have he : e = if far then (d.ttHold .timebase).toAcquiring.tbStep (((d.ttHold .timebase).now : Int) + o).toNat
        else d.slewBy o := by simp only [e, Dev.syncBy, hst, far]
    have hsteps : steps ↔ far := by simp [steps, hst]
    rw [hsteps]
    by_cases hf : far
    · obtain ⟨hm, hs⟩ := Dev.lockedStep_effect o (d.ttHold_effect .timebase).2
      rw [he.trans (if_pos hf)]
      exact ⟨hm, fun _ => hs, fun h => absurd hf h, fun h => absurd hf h, fun h => absurd hf h, fun _ h => (by simp at h)⟩
    · obtain ⟨f, hfreq, hs⟩ := d.slewBy_effect o
      rw [he.trans (if_neg hf), hs]
      exact ⟨⟨rfl, rfl, rfl, rfl⟩, fun h => absurd h hf, fun _ => ⟨rfl, rfl, hfreq⟩, fun _ _ => ⟨hst, rfl⟩,
        fun _ h => (by simp at h), fun _ h => (by simp at h)⟩
  | holdover =>
    have he : e = if near then (d.slewBy o).tbEnter .locked else d.toAcquiring.acquireSync o := by
      simp only [e, Dev.syncBy, hst, near]
    have hsteps : steps ↔ far ∧ ¬ near := by simp [steps, hst]
    rw [hsteps]
    by_cases hn : near
    · obtain ⟨f, hfreq, hs⟩ := d.slewBy_effect o
      rw [hs] at he
      obtain ⟨hrest, hm, hst', -, -, hslew, -⟩ := Dev.tbEnter_effect
        { d with fresh := d.fresh + 1, tb := { d.tb with slew := o * 1000000, freq := f } } .locked
      obtain ⟨hslew, hfr⟩ := hslew (by simp)
      rw [he.trans (if_pos hn)]
      exact ⟨hm, fun h => absurd hn h.2, fun _ => ⟨hrest.now, hslew, hfr.symm ▸ hfreq⟩, fun _ h => (by simp at h),
        fun _ h => (by simp [hn] at h), fun _ _ => hst'⟩
    · have hrun : run = if near then 1 else 0 := by simp [run, hn]
      obtain ⟨hm, hfar, hnear⟩ := d.toAcquiring_acquireSync o
      rw [← he.trans (if_neg hn)] at hm hfar hnear
      rw [hrun]
      exact ⟨hm, fun h => hfar h.1, fun h => (hnear fun hf => h ⟨hf, hn⟩).1, fun _ h => (by simp at h),
        fun h _ => (hnear fun hf => h ⟨hf, hn⟩).2, fun h => absurd h hn⟩

/-- The Sync is the module's: on its timing port, in its domain, of its selected master, and it is no grandmaster (R31, R33). -/
def Dev.syncMine (d : Dev) (port domain : Nat) (src : DWord) : Prop :=
  port = d.cget Cat.PTP_TIMING_PORT ∧ domain = d.cget Cat.PTP_DOMAIN ∧ d.tb.gm = false ∧ ∃ m, d.tb.master = some m ∧ m.src = src

theorem masterIs_iff (master : Option Announce) (src : DWord) :
    (match master with | some m => decide (m.src = src) | none => false) = true ↔ ∃ m, master = some m ∧ m.src = src := by
  cases master <;> simp

theorem execSyncD_eq (at_ port sec frac domain : Nat) (src : DWord) (d0 : Dev) : let d := d0.advance at_
    (¬ d.syncMine port domain src → execSyncD at_ port sec frac domain src d0 = d)
      ∧ (d.syncMine port domain src → ptpCount sec frac = none →
          execSyncD at_ port sec frac domain src d0 = d.bump Cat.TB_BAD_SYNC)
      ∧ (∀ t, d.syncMine port domain src → ptpCount sec frac = some t →
          execSyncD at_ port sec frac domain src d0 = d.takeSync ((t : Int) + d.tb.pathDelay - d.now)) := by
  intro d
  have hb : (decide (port ≠ d.cget Cat.PTP_TIMING_PORT) || decide (domain ≠ d.cget Cat.PTP_DOMAIN) || d.tb.gm
      || !(match d.tb.master with | some m => decide (m.src = src) | none => false)) = true ↔ ¬ d.syncMine port domain src := by
    have hm := masterIs_iff d.tb.master src
    unfold Dev.syncMine
    rw [← hm]
    simp only [Bool.or_eq_true, decide_eq_true_eq, Bool.not_eq_true', ne_eq, not_and_or, or_assoc, Bool.not_eq_false,
      Bool.not_eq_true]
  refine ⟨fun h => if_pos (hb.mpr h), fun h ht => ?_, fun t h ht => ?_⟩
  · exact (if_neg fun hn => hb.mp hn h).trans (by rw [ht])
  · exact (if_neg fun hn => hb.mp hn h).trans (by rw [ht])

/-! ### The best master (R31, R33) -/

/-- It gives up the grandmaster's role, if it has it, for HOLDOVER. -/
theorem Dev.dropGm_effect (d : Dev) : let x := d.dropGm
    d.timebaseOf x ∧ x.tb.gm = false ∧ x.tb.st = (if d.tb.gm then .holdover else d.tb.st) ∧ x.tb.foreign = d.tb.foreign
      ∧ x.cat = d.cat := by
  unfold Dev.dropGm
  cases h : d.tb.gm
  · exact ⟨rfl, h, rfl, rfl, rfl⟩
  · exact ⟨rfl, rfl, rfl, rfl, rfl⟩

/-- This module's own data set is better than every master's that it hears. -/
def Dev.ownBest (d : Dev) : Prop :=
  ∀ b, bestMaster d.tb.foreign = some b → listLt (announceKey d.ownAnnounce) (announceKey b) = true

theorem Dev.ownBest_iff (d : Dev) : (match bestMaster d.tb.foreign with
    | none => true
    | some b => listLt (announceKey d.ownAnnounce) (announceKey b)) = true ↔ d.ownBest := by
  unfold Dev.ownBest
  cases bestMaster d.tb.foreign <;> simp

/-- The decision: grandmaster and LOCKED, or the slave of the best master. -/
theorem Dev.decideMaster_effect (d : Dev) : let e := d.decideMaster
    d.timebaseOf e ∧ e.tb.foreign = d.tb.foreign
      ∧ (d.ownBest ∧ d.cget Cat.PTP_SLAVE_ONLY = 0 → e.tb.gm = true ∧ e.tb.st = .locked ∧ e.tb.master = none ∧ e.tb.slew = 0)
      ∧ (¬ (d.ownBest ∧ d.cget Cat.PTP_SLAVE_ONLY = 0) → e.tb.gm = false ∧ e.tb.master = bestMaster d.tb.foreign
          ∧ e.tb.st = if d.tb.gm then .holdover else d.tb.st) := by
  intro e
  have hown : ((match bestMaster d.tb.foreign with
      | none => true
      | some b => listLt (announceKey d.ownAnnounce) (announceKey b)) && decide (d.cget Cat.PTP_SLAVE_ONLY = 0)) = true
      ↔ d.ownBest ∧ d.cget Cat.PTP_SLAVE_ONLY = 0 := by
    rw [Bool.and_eq_true, decide_eq_true_eq, d.ownBest_iff]
  by_cases h : d.ownBest ∧ d.cget Cat.PTP_SLAVE_ONLY = 0
  · have he : e = { d with tb := { d.tb with gm := true, master := none, slew := 0, freq := 0, asked := false } }.tbEnter
      .locked := if_pos (hown.mpr h)
    obtain ⟨hrest, ⟨-, hgm, hmaster, hforeign⟩, hst, -, -, hslew, -⟩ := Dev.tbEnter_effect
      { d with tb := { d.tb with gm := true, master := none, slew := 0, freq := 0, asked := false } } .locked
    rw [← he] at hrest hgm hmaster hforeign hst hslew
    clear_value e
    exact ⟨hrest.of_tb, hforeign, fun _ => ⟨hgm, hst, hmaster, (hslew (by simp)).1⟩, fun hn => absurd h hn⟩
  · have he : e = { d.dropGm with tb := { d.dropGm.tb with master := bestMaster d.tb.foreign } }.showGm :=
      if_neg (mt hown.mp h)
    obtain ⟨hrest, hgm, hst, hforeign, -⟩ := d.dropGm_effect
    rw [he]
    refine ⟨?_, hforeign, fun hy => absurd hy h, fun _ => ⟨hgm, rfl, hst⟩⟩
    exact Dev.timebaseOf.trans hrest rfl

/-- The device that has heard this Announce, or lost its master. -/
def Dev.heard (d : Dev) (a : Announce) : Dev :=
  { d with tb := { d.tb with
    foreign := if a.lost then d.tb.foreign.filter fun b => b.src ≠ a.src else a :: d.tb.foreign.filter fun b => b.src ≠ a.src } }

theorem execAnnounceD_eq (at_ port : Nat) (a : Announce) (d0 : Dev) : let d := d0.advance at_
    execAnnounceD at_ port a d0
      = if port ≠ d.cget Cat.PTP_TIMING_PORT || a.domain ≠ d.cget Cat.PTP_DOMAIN then d else (d.heard a).decideMaster := rfl

/-! ### The obligation -/

/-- Settles O43: a Sync of the selected master is one case of R34 and R36, with its instant recorded after; an Announce is recorded,
and then the best master decided. -/
theorem timebaseFollowsItsMaster : Obligations.TimebaseFollowsItsMaster := by
  refine ⟨?_, ?_⟩
  · intro s at_ port sec frac domain src d mine
    obtain ⟨hnot, hbad, htaken⟩ := execSyncD_eq at_ port sec frac domain src s.dev
    refine ⟨fun h => Acts.of_eq rfl (hnot h) rfl, fun h ht => Acts.of_eq rfl (hbad h ht) rfl,
      fun t h ht => Acts.of_eq rfl ((htaken t h ht).trans (Dev.takeSync_eq _ _)) ?_⟩
    intro o far near steps run
    obtain ⟨⟨hoff, hgm, hmaster, -⟩, hstep, hslew, hlocked, hacq, hhold⟩ :=
      Dev.syncBy_effect { d with tb := { d.tb with offset := o } } o
    obtain ⟨-, -, hgm0, -⟩ := h
    exact ⟨hoff, rfl, hgm.trans hgm0, hmaster, hstep, hslew, hlocked, hacq, hhold⟩
  · intro s at_ port a d mine
    have hmine : (decide (port ≠ d.cget Cat.PTP_TIMING_PORT) || decide (a.domain ≠ d.cget Cat.PTP_DOMAIN)) = true ↔ ¬ mine := by
      simp only [Bool.or_eq_true, decide_eq_true_eq, ne_eq, not_and_or, mine]
    have hexec := execAnnounceD_eq at_ port a s.dev
    refine ⟨fun h => Acts.of_eq rfl (hexec.trans (if_pos (hmine.mpr h))) rfl,
      fun h => Acts.of_eq rfl (hexec.trans (if_neg fun hn => hmine.mp hn h)) ?_⟩
    intro rest best own
    obtain ⟨hrest, hforeign, hyes, hno⟩ := (d.heard a).decideMaster_effect
    have hbest : best = bestMaster (d.heard a).tb.foreign := congrArg bestMaster hforeign
    have hown : own ↔ (d.heard a).ownBest := by
      show (∀ b, best = some b → _) ↔ _
      rw [hbest]
      exact Iff.rfl
    refine ⟨hrest.now, hrest.mem, hforeign, fun ho hs => hyes ⟨hown.mp ho, hs⟩, fun hn => ?_⟩
    rw [hbest]
    exact hno fun h => hn ⟨hown.mpr h.1, h.2⟩

end Sys2Proof.Machine
end

section
/-! SUPPORT. The timebase's time-outs, its writes and its messages, and obligation O44 (R31 to R36, R63). -/

namespace Sys2Proof.Machine

/-! ### Time-outs -/

theorem execSyncTimeoutD_locked {d : Dev} (hst : d.tb.st = .locked) (hgm : d.tb.gm = false) :
    execSyncTimeoutD d = (d.advance (d.tb.lastSync + 3 * d.syncInterval)).tbEnter .holdover := by
  unfold execSyncTimeoutD; rw [hst, hgm]; rfl

theorem execSyncTimeoutD_acquiring {d : Dev} (hst : d.tb.st = .acquiring) :
    execSyncTimeoutD d = (d.advance (d.tb.lastSync + 8 * d.syncInterval)).tbEnter .freeRun := by
  unfold execSyncTimeoutD; rw [hst]

/-- The first instant at which the error bound exceeds TB_HOLDOVER_LIMIT (R34, R35). -/
def Dev.holdoverEnd (d : Dev) : Nat :=
  d.tb.lastSync + if d.cget Cat.TB_HOLDOVER_LIMIT < 800 then 0 else (d.cget Cat.TB_HOLDOVER_LIMIT - 800) * 2000000 + 1

theorem execHoldoverLimitD_eq {d : Dev} (hst : d.tb.st = .holdover) :
    execHoldoverLimitD d = ((d.advance d.holdoverEnd).bump Cat.TB_HOLDOVER_EXIT).tbEnter .freeRun :=
  if_neg fun h => h hst

/-! ### Writes -/

/-- The effect of a write of TB_SET (R36). -/
def tbSetWrite (v : Nat) (d : Dev) : WriteResult :=
  if d.tt.st ≠ .running && (d.tb.st = .freeRun || d.tb.gm) then ⟨d.tbStep v, stOk, false⟩ else refuse d stDenied

theorem tbSetWrite_cases (v : Nat) (d : Dev) :
    let free : Prop := d.tt.st ≠ .running ∧ (d.tb.st = .freeRun ∨ d.tb.gm = true)
    (¬ free → tbSetWrite v d = refuse d stDenied) ∧ (free → tbSetWrite v d = ⟨d.tbStep v, stOk, false⟩) := by
  intro free
  have hb : (decide (d.tt.st ≠ .running) && (decide (d.tb.st = .freeRun) || d.tb.gm)) = true ↔ free := by
    simp only [Bool.and_eq_true, Bool.or_eq_true, decide_eq_true_eq, free]
  exact ⟨fun h => if_neg fun hn => h (hb.mp hn), fun h => if_pos (hb.mpr h)⟩

theorem tbSetWrite_long (v : Nat) (d : Dev) : (tbSetWrite v d).long = false := by unfold tbSetWrite; split <;> rfl

/-- The effect of a write of PTP_SLAVE_ONLY (R31). -/
def Dev.slaveOnly (v : Nat) (d : Dev) : Dev :=
  let c := d.cset Cat.PTP_SLAVE_ONLY v
  if v = 1 && c.tb.gm then { c.dropGm with tb := { c.dropGm.tb with master := bestMaster c.dropGm.tb.foreign } } else c

theorem Dev.slaveOnly_effect (v : Nat) (d : Dev) : let e := d.slaveOnly v
    e.cget Cat.PTP_SLAVE_ONLY = v
      ∧ (v = 1 → d.tb.gm = true → e.tb.gm = false ∧ e.tb.st = .holdover ∧ e.tb.master = bestMaster d.tb.foreign)
      ∧ (¬ (v = 1 ∧ d.tb.gm = true) → e.tb = d.tb) := by
  intro e
  have hb : (decide (v = 1) && (d.cset Cat.PTP_SLAVE_ONLY v).tb.gm) = true ↔ v = 1 ∧ d.tb.gm = true := by
    rw [Bool.and_eq_true, decide_eq_true_eq, Dev.cset_tb]
  have hv : (d.cset Cat.PTP_SLAVE_ONLY v).cget Cat.PTP_SLAVE_ONLY = v := by rw [Dev.cget_cset, if_pos rfl]
  by_cases h : v = 1 ∧ d.tb.gm = true
  · obtain ⟨-, hgm, hst, hforeign, hcat⟩ := (d.cset Cat.PTP_SLAVE_ONLY v).dropGm_effect
    have he : e = { (d.cset Cat.PTP_SLAVE_ONLY v).dropGm with tb := { (d.cset Cat.PTP_SLAVE_ONLY v).dropGm.tb with
        master := bestMaster (d.cset Cat.PTP_SLAVE_ONLY v).dropGm.tb.foreign } } := if_pos (hb.mpr h)
    rw [he]
    exact ⟨(Dev.cget_congr hcat _).trans hv, fun _ hg => ⟨hgm, hst.trans (if_pos hg), congrArg bestMaster hforeign⟩,
      fun hn => absurd h hn⟩
  · have he : e = d.cset Cat.PTP_SLAVE_ONLY v := if_neg (mt hb.mp h)
    rw [he]
    exact ⟨hv, fun h1 h2 => absurd ⟨h1, h2⟩ h, fun _ => rfl⟩

/-! ### Messages -/

theorem Dev.peerDelay_iff (d : Dev) (peer : Bool) : peer = d.peerDelay ↔ (peer = true ↔ d.cget Cat.PTP_DELAY_MECH = 1) := by
  unfold Dev.peerDelay
  cases peer <;> simp

theorem execSyncIntervalD_eq (at_ : Nat) (d0 : Dev) : let d := d0.advance at_; let p := d.cget Cat.PTP_TIMING_PORT
    (d.tb.gm = true → execSyncIntervalD at_ d0 = ((d.sendPtp p 1).sendPtp p 0).sendPtp p 6)
      ∧ (d.tb.gm = false → d.tb.master = none → execSyncIntervalD at_ d0 = d)
      ∧ (∀ m, d.tb.gm = false → d.tb.master = some m → execSyncIntervalD at_ d0
          = { d.sendPtp p (if d.cget Cat.PTP_DELAY_MECH = 1 then 4 else 2) with
              tb := { d.tb with asked := d.tb.asked || d.netUp p } }) := by
  intro d p
  refine ⟨fun h => if_pos h, fun h hm => ?_, fun m h hm => ?_⟩
  · exact (if_neg (by rw [h]; simp)).trans (if_pos (by rw [hm]; rfl))
  · have hk : (if d.peerDelay then 4 else 2) = if d.cget Cat.PTP_DELAY_MECH = 1 then 4 else 2 := by simp [Dev.peerDelay]
    rw [← hk]
    exact (if_neg (by rw [h]; simp)).trans (if_neg (by rw [hm]; simp))

/-- A delay message is the module's: in its domain and of its delay mechanism (R31, R62). -/
def Dev.delayMine (d : Dev) (peer : Bool) (domain : Nat) : Prop :=
  domain = d.cget Cat.PTP_DOMAIN ∧ (peer = true ↔ d.cget Cat.PTP_DELAY_MECH = 1)

theorem Dev.delayMine_iff (d : Dev) (peer : Bool) (domain : Nat) :
    (decide (domain ≠ d.cget Cat.PTP_DOMAIN) || decide (peer ≠ d.peerDelay)) = false ↔ d.delayMine peer domain := by
  unfold Dev.delayMine
  rw [← d.peerDelay_iff, Bool.or_eq_false_iff, decide_eq_false_iff_not, decide_eq_false_iff_not, not_not, not_not]

theorem execDelayRequest_eq (at_ : Nat) (peer : Bool) (domain : Nat) (src : DWord) (d0 : Dev) : let d := d0.advance at_
    let answers : Prop := d.delayMine peer domain ∧ (peer = true ∨ d.tb.gm = true)
    (answers → execDelayRequestResponseD at_ (.request peer domain src) d0
        = d.sendPtp (d.cget Cat.PTP_TIMING_PORT) (if peer then 5 else 3))
      ∧ (¬ answers → execDelayRequestResponseD at_ (.request peer domain src) d0 = d) := by
  intro d answers
  have hb : (decide (domain ≠ d.cget Cat.PTP_DOMAIN) || decide (peer ≠ d.peerDelay) || !(peer || d.tb.gm)) = false ↔ answers := by
    rw [Bool.or_eq_false_iff, d.delayMine_iff, Bool.not_eq_false', Bool.or_eq_true]
  exact ⟨fun h => if_neg (by rw [hb.mpr h]; simp), fun h => if_pos (Bool.eq_true_of_not_eq_false (mt hb.mp h))⟩

theorem execDelayResponse_eq (at_ : Nat) (peer : Bool) (domain : Nat) (src : DWord) (x : Int) (d0 : Dev) :
    let d := d0.advance at_
    let takes : Prop := d.delayMine peer domain ∧ d.tb.asked = true ∧ (peer = true ∨ ∃ m, d.tb.master = some m ∧ m.src = src)
    (takes → execDelayRequestResponseD at_ (.response peer domain src x) d0
        = { d with tb := { d.tb with pathDelay := x, asked := false } })
      ∧ (¬ takes → execDelayRequestResponseD at_ (.response peer domain src x) d0 = d) := by
  intro d takes
  have hb : (decide (domain ≠ d.cget Cat.PTP_DOMAIN) || decide (peer ≠ d.peerDelay) || !d.tb.asked
      || !(peer || match d.tb.master with | some m => decide (m.src = src) | none => false)) = false ↔ takes := by
    rw [Bool.or_eq_false_iff, Bool.or_eq_false_iff, d.delayMine_iff, Bool.not_eq_false', Bool.not_eq_false', Bool.or_eq_true,
      and_assoc]
    exact and_congr_right fun _ => and_congr_right fun _ => or_congr_right (masterIs_iff _ _)
  exact ⟨fun h => if_neg fun hn => absurd (hb.mpr h) (by rw [Bool.not_eq_false]; exact hn),
    fun h => if_pos (Bool.eq_true_of_not_eq_false (mt hb.mp h))⟩

/-- `e` differs from `d` in what the counting of a frame may touch, at most. -/
def Dev.macOf (d e : Dev) : Prop := e = { d with out := e.out, cat := e.cat, blob := e.blob, hosts := e.hosts }

theorem Dev.macOf.trans {a b c : Dev} (h : a.macOf b) (k : b.macOf c) : a.macOf c := by
  unfold Dev.macOf at *; rw [k, h]

theorem Dev.macOf_raiseMsix (d : Dev) (p v : Nat) : d.macOf (d.raiseMsix p v) := by
  unfold Dev.raiseMsix; dsimp only; split <;> rfl

theorem Dev.macOf_macBy (d : Dev) (p n k : Nat) : d.macOf (d.macBy p n k) := by
  unfold Dev.macBy
  dsimp only
  split
  · rfl
  · split
    · exact Dev.macOf.trans (b := (d.cset _ _).bset _ _) rfl (Dev.macOf_raiseMsix _ _ _)
    · rfl

theorem Dev.macOf_mac (d : Dev) (p n : Nat) : d.macOf (d.mac p n) := d.macOf_macBy p n 1

theorem Dev.macOf_macSent (d : Dev) (p len cast : Nat) : d.macOf (d.macSent p len cast) := by
  have h := (((d.macOf_mac p Cat.TX_FRAMES_OK).trans (Dev.macOf_macBy _ p Cat.TX_BYTES_OK len)).trans
    (Dev.macOf_mac _ p (Cat.TX_SIZE0 + sizeClass len))).trans (Dev.macOf_mac _ p (castCtr Cat.TX_UNICAST cast))
  unfold Dev.macSent
  dsimp only
  split
  · exact h.trans (Dev.macOf_mac _ _ _)
  · exact h

theorem Dev.sendPtp_down {d : Dev} {p : Nat} (k : Nat) (h : d.netUp p = false) : d.sendPtp p k = d :=
  if_pos (by rw [h]; rfl)

/-- A message leaves a port that is up in the transport chosen, at the time it is sent; memory and timebase are as they were. -/
theorem Dev.sendPtp_up {d : Dev} {p : Nat} (k : Nat) (h : d.netUp p = true) :
    Out.ptp p k (d.cget Cat.PTP_TRANSPORT) d.now ∈ (d.sendPtp p k).out
      ∧ (d.sendPtp p k).mem = d.mem ∧ (d.sendPtp p k).tb = d.tb := by
  obtain ⟨e, hsent, he⟩ : ∃ e, (d.take.2.noLastTx p).macOf e
      ∧ d.sendPtp p k = e.emit (.ptp p k ((d.take.2.noLastTx p).cget Cat.PTP_TRANSPORT) (d.take.2.noLastTx p).now) :=
    ⟨_, (Dev.macOf_macSent _ p (64 + d.take.1 % 64) 1).trans (Dev.macOf_mac _ p Cat.TX_PTP), if_neg (by rw [h]; simp)⟩
  rw [he, hsent]
  exact ⟨List.mem_cons_self, rfl, rfl⟩

/-! ### The obligation -/

/-- Settles O44: a time-out enters the state named at its instant; the writes are their cases; and each message is sent, or taken,
under its own condition. -/
theorem timebaseTimesOutAndIsSet : Obligations.TimebaseTimesOutAndIsSet := by
  refine ⟨fun s hst hgm => ?_, fun s hst => ?_, fun s hst => ?_, fun v => ?_, fun v => ?_, fun s at_ => ?_,
    fun d p k => ⟨Dev.sendPtp_down k, Dev.sendPtp_up k⟩⟩
  · obtain ⟨hrest, -, hst', -, -, -, -, -, htt⟩ :=
      (s.dev.advance (s.dev.tb.lastSync + 3 * s.dev.syncInterval)).tbEnter_effect .holdover
    exact Acts.of_eq rfl (execSyncTimeoutD_locked hst hgm)
      ⟨hst', hrest.now.trans (Dev.advance_now _ _), (htt rfl).trans (Dev.advance_tt _ _)⟩
  · obtain ⟨hrest, -, hst', -, -, -, -, hrun, -⟩ :=
      (s.dev.advance (s.dev.tb.lastSync + 8 * s.dev.syncInterval)).tbEnter_effect .freeRun
    exact Acts.of_eq rfl (execSyncTimeoutD_acquiring hst)
      ⟨hst', hrest.now.trans (Dev.advance_now _ _), hrun (.inl rfl)⟩
  · obtain ⟨hrest, -, hst', -, -, -, hcat, hrun, -⟩ :=
      ((s.dev.advance s.dev.holdoverEnd).bump Cat.TB_HOLDOVER_EXIT).tbEnter_effect .freeRun
    refine Acts.of_eq rfl (execHoldoverLimitD_eq hst) ⟨hst', hrun (.inl rfl), ?_, fun hlim => ?_⟩
    · rw [Dev.cget_congr (hcat (by simp)), Dev.cget_bump, if_pos rfl, Dev.cget_advance]
    · have hend : s.dev.holdoverEnd
          = s.dev.tb.lastSync + ((s.dev.cget Cat.TB_HOLDOVER_LIMIT - 800) * 2000000 + 1) := by
        unfold Dev.holdoverEnd; rw [if_neg (by omega)]
      rw [hrest.now, (Dev.tracedOf_bump _ _).now, Dev.advance_now, hend]
      omega
  · refine WriteOp.of (fun _ => tbSetWrite v) (fun _ _ => rfl) (fun _ d => tbSetWrite_long v d) fun _ d _ => ?_
    obtain ⟨hno, hyes⟩ := tbSetWrite_cases v d
    refine ⟨fun h => by rw [hno h]; exact ⟨rfl, rfl⟩, fun h => ?_⟩
    obtain ⟨hnow, htb, -, htt⟩ := d.tbStep_effect v
    rw [hyes h]
    exact ⟨rfl, hnow, by rw [htb], htt h.1, by rw [htb]⟩
  · exact WriteOp.of (fun _ => okWith (Dev.slaveOnly v)) (fun _ _ => rfl) (fun _ _ => rfl)
      fun _ d _ => ⟨rfl, d.slaveOnly_effect v⟩
  · intro d p
    obtain ⟨hgm, hnone, hslave⟩ := execSyncIntervalD_eq at_ s.dev
    refine ⟨fun h => Acts.of_eq rfl (hgm h) rfl, fun h hm => Acts.of_eq rfl (hnone h hm) rfl,
      fun m h hm => Acts.of_eq rfl (hslave m h hm) rfl, fun peer domain src => ?_⟩
    obtain ⟨hanswer, hignore⟩ := execDelayRequest_eq at_ peer domain src s.dev
    exact ⟨fun h => Acts.of_eq rfl (hanswer h) rfl, fun h => Acts.of_eq rfl (hignore h) rfl,
      fun x h => Acts.of_eq rfl ((execDelayResponse_eq at_ peer domain src x s.dev).1 h) rfl,
      fun x h => Acts.of_eq rfl ((execDelayResponse_eq at_ peer domain src x s.dev).2 h) rfl⟩

end Sys2Proof.Machine
end

section
/-! SUPPORT. More laws of tables and of the device's parts: tables whose values are mapped or whose entries are kept by a
condition, and what a part reads after another, or the same, was set. -/

namespace Sys2Proof.Machine

/-! ### Tables -/

/-- A table whose values are mapped reads the mapped value. -/
theorem Tbl.find?_mapVals {α : Type} (f : Nat → α → α) (t : Tbl α) (key : Nat) :
    Tbl.find? (Tbl.mapVals f t) key = (Tbl.find? t key).map (f key) := by
  induction t with
  | nil => rfl
  | cons kw t ih =>
    obtain ⟨k, w⟩ := kw
    by_cases h : k = key
    · subst h; simp [Tbl.mapVals, Tbl.find?]
    · simpa [Tbl.mapVals, Tbl.find?, h] using ih

/-- Entries kept by their keys alone: a key that is kept reads what it read, any other nothing. -/
theorem Tbl.find?_keep_key {α : Type} (p : Nat → Bool) (t : Tbl α) (key : Nat) :
    Tbl.find? (Tbl.keep (fun k _ => p k) t) key = if p key then Tbl.find? t key else none := by
  induction t with
  | nil => simp [Tbl.keep]
  | cons kw t ih =>
    obtain ⟨k, w⟩ := kw
    have ih' : Tbl.find? (t.filter fun kv => p kv.1) key = if p key then Tbl.find? t key else none := ih
    show Tbl.find? (((k, w) :: t).filter fun kv => p kv.1) key = _
    rw [List.filter_cons]
    by_cases h : k = key
    · subst h
      cases hp : p k <;> simp [Tbl.find?, ih', hp]
    · cases p k <;> simp [Tbl.find?, ih', h]

theorem Tbl.mem_of_find? {α : Type} {t : Tbl α} {key : Nat} {v : α} (h : Tbl.find? t key = some v) : (key, v) ∈ t := by
  induction t with
  | nil => simp at h
  | cons kw t ih =>
    obtain ⟨k, w⟩ := kw
    by_cases hk : k = key
    · simp_all [Tbl.find?]
    · exact List.mem_cons_of_mem _ (ih (by simpa [Tbl.find?, hk] using h))

theorem Tbl.find?_isSome_of_mem {α : Type} {t : Tbl α} {kv : Nat × α} (h : kv ∈ t) : (Tbl.find? t kv.1).isSome = true := by
  induction t with
  | nil => simp at h
  | cons kw t ih =>
    obtain ⟨k, w⟩ := kw
    by_cases hk : k = kv.1
    · simp [Tbl.find?, hk]
    · simpa [Tbl.find?, hk] using ih ((List.mem_cons.mp h).resolve_left fun he => hk (by rw [he]))

/-! ### Bundles, engines and rings -/

theorem Dev.bundle?_setUnit (d : Dev) (u v b : Nat) (x : ExecUnit) :
    (d.setUnit u x).bundle? v b = if v = u then Tbl.find? x.bundles b else d.bundle? v b := by
  unfold Dev.bundle?
  rw [Dev.setUnit_unit_of]
  split <;> rfl

theorem Dev.bundle?_setBundle (d : Dev) (u b v c : Nat) (x : Bundle) :
    (d.setBundle u b x).bundle? v c = if v = u ∧ c = b then some x else d.bundle? v c := by
  unfold Dev.setBundle
  rw [Dev.bundle?_setUnit, Tbl.find?_set]
  by_cases hv : v = u <;> by_cases hc : c = b <;> simp [hv, hc, Dev.bundle?]

theorem Dev.unit_setBundle (d : Dev) (u b v : Nat) (x : Bundle) :
    (d.setBundle u b x).unit v
      = if v = u then { d.unit u with bundles := Tbl.set (d.unit u).bundles b x } else d.unit v :=
  d.setUnit_unit_of _ _ _

theorem Dev.unit_setEngine (d : Dev) (u e v : Nat) (x : Engine) :
    (d.setEngine u e x).unit v
      = if v = u then { d.unit u with engines := Tbl.set (d.unit u).engines e x } else d.unit v :=
  d.setUnit_unit_of _ _ _

theorem Dev.engine_setEngine (d : Dev) (u e v i : Nat) (x : Engine) :
    (d.setEngine u e x).engine v i = if v = u ∧ i = e then x else d.engine v i := by
  unfold Dev.engine
  rw [Dev.unit_setEngine]
  by_cases hv : v = u <;> by_cases hi : i = e <;> simp [hv, hi, Tbl.getD_set]

end Sys2Proof.Machine
end

section
/-! SUPPORT. SREG: the values that it selects and what it makes of its bundle (R66, R199), and obligation O14. -/

namespace Sys2Proof.Machine

/-- What SREG draws from the lanes' generators, by what it selects (R141, R199). -/
def Dev.sregDrawn (d : Dev) (t : TCtx) : Dev :=
  if fld t.n 0 4 = 9 then d.drawn ((List.range 64).map (genThread t.u t.b)) else d

/-- What SREG does once it has issued (R199). -/
def sregRun (t : TCtx) (d : Dev) : Dev :=
  let laneToU := fld t.n 0 4 = 0 && bit t.n 4
  let e := if laneToU then d.takeN 64 else d.sregDrawn t
  if bit t.n 4 then
    match t.act with
    | [] => e
    | l :: _ => e.putBundle t (t.x.setU (fD t.n) (BitVec.ofNat 64 (if laneToU then d.free 0 % 64 else sregValue d t l)))
  else e.putBundle t (t.x.setVLanes (fD t.n) t.act fun l => BitVec.ofNat 32 (sregValue d t l))

/-- Issuing touches neither the generators nor the free values: it may come before or after the draws. -/
theorem Dev.drawn_issue (d : Dev) (t : TCtx) (gs : List Nat) : (d.issue t).drawn gs = (d.drawn gs).issue t := rfl

theorem Dev.sregDrawn_issue (d : Dev) (t : TCtx) : (d.issue t).sregDrawn t = (d.sregDrawn t).issue t := by
  unfold Dev.sregDrawn
  split
  · exact Dev.drawn_issue _ _ _
  · rfl

theorem sregValue_issue (d : Dev) (t : TCtx) (l : Nat) : sregValue (d.issue t) t l = sregValue d t l := rfl

/-- With UD 0 each active lane gets its value. -/
theorem sregRun_lanes {t : TCtx} (d : Dev) (h : bit t.n 4 = false) :
    sregRun t (d.issue t) = ((d.sregDrawn t).issue t).putBundle t
      (t.x.setVLanes (fD t.n) t.act fun l => BitVec.ofNat 32 (sregValue d t l)) := by
  unfold sregRun
  simp only [h, Bool.and_false, Bool.false_eq_true, if_false, Dev.sregDrawn_issue, sregValue_issue]

/-- With UD 1 the U register gets the value of the first active lane, which is every lane's but for LANE. -/
theorem sregRun_uniform {t : TCtx} {l : Nat} {rest : List Nat} (d : Dev) (h : bit t.n 4 = true) (h0 : fld t.n 0 4 ≠ 0)
    (ha : t.act = l :: rest) :
    sregRun t (d.issue t) = ((d.sregDrawn t).issue t).putBundle t
      (t.x.setU (fD t.n) (BitVec.ofNat 64 (sregValue d t l))) := by
  unfold sregRun
  simp only [h, h0, ha, decide_false, Bool.false_and, Bool.false_eq_true, if_false, if_true, Dev.sregDrawn_issue,
    sregValue_issue]

/-- An instruction that issues and gives each active lane a plain value has that effect and no other. -/
theorem Dev.issue_laneEffect (d : Dev) (t : TCtx) (v : Nat → Word) :
    LaneEffect d ((d.issue t).putBundle t (t.x.setVLanes (fD t.n) t.act v)) t 0 fun l => { bits := v l } := by
  refine ⟨_, Bundle.fold_rest v t.act t.x (fD t.n), fun l r _ hr => Bundle.vreg_fold v t.act t.x (fD t.n) l r (fD_lt _) hr, ?_⟩
  have hcounts : fpAdds t.u 0 0 = fun _ => 0 := by funext key; simp [fpAdds]
  have hsat : laneCount t (fun l => { bits := v l }) F32.sat = 0 := by simp [laneCount]
  have hinv : laneCount t (fun l => { bits := v l }) F32.invalid = 0 := by simp [laneCount]
  rw [hsat, hinv, hcounts]
  exact d.issue_frame t _

/-- Number of a unit within its kind, groups or Stacks dies (R468). -/
theorem unitNumber_eq_mod {u : Nat} (h : u < 128) : (if u < 64 then u else u - 64) = u % 64 := by
  split <;> omega

/-- Settles O14: SREG draws, issues and writes its bundle, which one lemma says for each value of UD; and the values are the
branches of the selection. -/
theorem identityReads : Obligations.IdentityReads := by
  refine ⟨ThreadOp.of execSregD (fun _ _ _ _ => rfl) fun d u b w x c h hw hb => ?_, fun d t l => ?_⟩
  · have hrun : execSregD u b w d = sregRun (ctx u b x c w) (d.issue (ctx u b x c w)) := Dev.thread_issues h hw hb rfl
    rw [hrun]
    refine ⟨fun hud => ?_, fun l rest hud h0 ha => ?_⟩
    · rw [sregRun_lanes d hud]
      exact Dev.issue_laneEffect _ _ _
    · rw [sregRun_uniform d hud h0 ha]
      exact ⟨_, Bundle.setU_rest _ _ _, fun r => Bundle.ureg_setU _ _ _ _, Dev.issue_frame _ _⟩
  · refine ⟨?_, ?_, ?_, ?_, ?_, ?_, ?_, ?_, ?_, ?_, ?_⟩ <;> intro h <;> unfold sregValue <;> simp only [h]
    · intro hu; unfold Cmd.rank; rw [unitNumber_eq_mod hu]
    · intro hu; exact unitNumber_eq_mod hu
    · simp only [decide_eq_true_eq]
    · simp only [decide_eq_true_eq]
    · rfl

end Sys2Proof.Machine
end

section
/-! SUPPORT. FENCE, BAR and NAP, and what ends their waits (R67, R191, R194), and obligation O18. -/

namespace Sys2Proof.Machine

/-! ### Fences -/

theorem bit_eq_testBit (n i : Nat) : bit n i = n.testBit i := Nat.testBit_eq_decide_div_mod_eq.symm

/-- Bit `i` of a field that is long enough is bit `lo + i` of the number. -/
theorem bit_fld (n lo : Nat) {len i : Nat} (h : i < len) : bit (fld n lo len) i = bit n (lo + i) := by
  unfold fld
  simp only [bit_eq_testBit, Nat.testBit_mod_two_pow, Nat.testBit_div_two_pow, h, decide_true, Bool.true_and, Nat.add_comm]

/-- The lines of the job are gone from a read buffer that is invalidated for it (R191). -/
theorem Dev.buf_invalidate (d : Dev) (u j : Nat) : ∀ p ∈ ((d.invalidate u j).unit u).buf, p.2.job ≠ j := by
  intro p hp
  have hp' : p ∈ (d.unit u).buf ∧ ¬p.2.job = j := by simpa [Dev.invalidate, Tbl.keep] using hp
  exact hp'.2

/-- A fence whose condition holds ends, and then invalidates where it acquires at package scope (R191). -/
theorem execFenceCompleteD_ends {d : Dev} {u b : Nat} {x : Bundle} {stores loads inv : Bool} (hx : d.bundle? u b = some x)
    (hw : x.wait = .fence stores loads inv) (hs : stores = true → d.pendingStores u x.cmd b = [])
    (hl : loads = true → x.loads = 0) :
    execFenceCompleteD u b d = if inv then (d.setBundle u b { x with wait := .none }).invalidate u (d.cmdJob x.cmd)
      else d.setBundle u b { x with wait := .none } := by
  have hs' : (stores && !(d.pendingStores u x.cmd b).isEmpty) = false := by
    cases h : stores <;> simp [hs, h]
  have hl' : (loads && decide (x.loads ≠ 0)) = false := by
    cases h : loads <;> simp [hl, h]
  unfold execFenceCompleteD
  simp only [hx, hw]
  rw [if_neg (by rw [hs', hl']; decide)]
  rfl

/-! ### Barriers -/

/-- What BAR does once it has issued (R194). -/
def barRun (t : TCtx) (d : Dev) : Dev :=
  let n := fld t.n 0 2
  let arr := d.arrived t.u t.k n
  (d.setUnit t.u { d.unit t.u with
      bars := Tbl.set (d.unit t.u).bars (4 * t.k + n) (if arr.contains t.b then arr else t.b :: arr) }).putBundle t
    (if bit t.n 2 then { t.x with wait := .bar n } else t.x)

theorem Dev.arrived_setBundle (d : Dev) (u b v k n : Nat) (x : Bundle) :
    (d.setBundle u b x).arrived v k n = d.arrived v k n := by
  unfold Dev.arrived
  rw [Dev.unit_setBundle]
  split
  · next h => subst h; rfl
  · rfl

theorem Dev.arrived_issue (d : Dev) (t : TCtx) (v k n : Nat) : (d.issue t).arrived v k n = d.arrived v k n := by
  unfold Dev.issue
  rw [Dev.arrived_setBundle]
  rfl

/-- BAR adds its bundle to the barrier's arrivals, once. -/
theorem mem_arrived_barRun (t : TCtx) (d : Dev) (v : Nat) :
    v ∈ (barRun t d).arrived t.u t.k (fld t.n 0 2) ↔ v = t.b ∨ v ∈ d.arrived t.u t.k (fld t.n 0 2) := by
  have hnow : (barRun t d).arrived t.u t.k (fld t.n 0 2)
      = if (d.arrived t.u t.k (fld t.n 0 2)).contains t.b then d.arrived t.u t.k (fld t.n 0 2)
        else t.b :: d.arrived t.u t.k (fld t.n 0 2) := by
    unfold barRun Dev.putBundle
    rw [Dev.arrived_setBundle]
    unfold Dev.arrived
    simp
  rw [hnow]
  split
  · next h => exact ⟨.inr, fun hv => hv.elim (fun he => he ▸ by simpa using h) id⟩
  · exact List.mem_cons

/-- The device once a barrier's round has ended: its arrivals are gone, and the bundles that wait in it go on. -/
def Dev.roundEnded (d : Dev) (u k n : Nat) : Dev :=
  d.setUnit u { d.unit u with
    bars := Tbl.erase (d.unit u).bars (4 * k + n),
    bundles := Tbl.mapVals (fun _ y => if y.cmd = k && y.wait = .bar n then { y with wait := .none } else y) (d.unit u).bundles }

theorem execBarrierCompleteD_ends {d : Dev} {u k n : Nat} (h0 : d.arrived u k n ≠ [])
    (h : ∀ b ∈ d.bundlesOf u k, b ∈ d.arrived u k n) :
    execBarrierCompleteD u k n d = (d.roundEnded u k n).engineDue u ((d.roundEnded u k n).ownedEngines u k) := by
  unfold execBarrierCompleteD
  exact if_neg (by simpa [h0] using h)

theorem Dev.bundle?_roundEnded {d : Dev} {u b : Nat} {x : Bundle} (k n : Nat) (hx : d.bundle? u b = some x) :
    (d.roundEnded u k n).bundle? u b = some (if x.cmd = k ∧ x.wait = .bar n then { x with wait := .none } else x) := by
  unfold Dev.roundEnded
  rw [Dev.bundle?_setUnit, if_pos rfl]
  dsimp only
  rw [Tbl.find?_mapVals]
  unfold Dev.bundle? at hx
  simp [hx]

/-! ### NAP -/

/-- What NAP does once it has issued (R194). -/
def napRun (t : TCtx) (d : Dev) : Dev :=
  if t.act.isEmpty then d
  else d.putBundle t { t.x with wait := .nap, napEnd := d.now + d.cyclesToUnits (dieOfUnit t.u) (fImm14 t.n) }

theorem napRun_idle {t : TCtx} (d : Dev) (h : t.act = []) : napRun t d = d := by simp [napRun, h]

theorem napRun_naps {t : TCtx} (d : Dev) (h : t.act ≠ []) : napRun t d = d.putBundle t
    { t.x with wait := .nap, napEnd := d.now + d.cyclesToUnits (dieOfUnit t.u) (fImm14 t.n) } :=
  if_neg (by simpa using h)

theorem execNapEndD_ends {d : Dev} {u b : Nat} {x : Bundle} (hx : d.bundle? u b = some x) (hw : x.wait = .nap) :
    execNapEndD u b d = (d.advance x.napEnd).setBundle u b { x with wait := .none, napEnd := 0 } := by
  unfold execNapEndD
  simp only [hx, hw, if_true]

/-! ### The obligation -/

/-- Settles O18: FENCE, BAR and NAP change their bundle's wait, and BAR its unit's arrivals; each completion is the one branch
that acts of its command. -/
theorem fencesBarriersAndNaps : Obligations.FencesBarriersAndNaps := by
  refine ⟨ThreadOp.of execFenceD (fun _ _ _ _ => rfl) fun d u b w x c h hw hb => ?_, ?_,
    ThreadOp.of execBarD (fun _ _ _ _ => rfl) fun d u b w x c h hw hb => ?_, ?_,
    ThreadOp.of execNapD (fun _ _ _ _ => rfl) fun d u b w x c h hw hb => ?_, ?_⟩
  · have hb' : ifBad (fenceKind w.toNat = 0) 0 = [] := by simp_all [ifBad, fenceKind]
    refine ⟨fun ha => ?_, fun ha => ?_⟩
    · have hrun : execFenceD u b w d = _ := Dev.uniformOp_idle h hw hb' ha
      rw [hrun]
      exact Dev.issue_frame _ _
    · have hrun : execFenceD u b w d = _ := Dev.uniformOp_active h hw hb' ha
      have h0 : bit (fenceKind w.toNat) 0 = bit w.toNat 0 := bit_fld _ 0 (by decide)
      have h1 : bit (fenceKind w.toNat) 1 = bit w.toNat 1 := bit_fld _ 0 (by decide)
      rw [hrun]
      dsimp only [ctx]
      rw [h0, h1]
      exact Dev.issue_frame _ _
  · intro s u b x stores loads inv hx hw hs hl
    refine Acts.of_eq rfl (execFenceCompleteD_ends hx hw hs hl) ?_
    cases inv
    · exact ⟨Dev.setBundle_bundle _ _ _ _, rfl, fun h => absurd h (by decide), fun _ => rfl⟩
    · refine ⟨?_, rfl, fun _ => Dev.buf_invalidate _ _ _, fun h => absurd h (by decide)⟩
      exact ((Dev.buffersOf_invalidate _ _ _).bundle _ _).trans (Dev.setBundle_bundle _ _ _ _)
  · have hrun : execBarD u b w d = barRun (ctx u b x c w) (d.issue (ctx u b x c w)) := Dev.thread_issues h hw hb rfl
    rw [hrun]
    generalize ctx u b x c w = t
    refine ⟨Dev.setBundle_bundle _ _ _ _, fun v => ?_, by simp [barRun, Dev.putBundle, Dev.issue], fun v hv => ?_⟩
    · rw [mem_arrived_barRun, Dev.arrived_issue]
    · unfold barRun Dev.putBundle Dev.issue
      rw [Dev.unit_setBundle, if_neg hv, Dev.setUnit_unit_of, if_neg hv, Dev.unit_setBundle, if_neg hv]
      rfl
  · intro s u k n h0 h
    refine Acts.of_eq rfl (execBarrierCompleteD_ends h0 h) ⟨_, rfl, rfl, ?_, fun b x hx => Dev.bundle?_roundEnded k n hx,
      fun v hv => (Dev.setUnit_unit_of _ _ _ _).trans (if_neg hv)⟩
    simp [Dev.arrived, Dev.roundEnded, Tbl.getD_erase]
  · have hrun : execNapD u b w d = napRun (ctx u b x c w) (d.issue (ctx u b x c w)) := Dev.thread_issues h hw hb rfl
    rw [hrun]
    generalize ctx u b x c w = t
    refine ⟨fun ha => ?_, fun ha => ?_⟩
    · rw [napRun_idle _ ha]; exact Dev.issue_frame0 _ _
    · rw [napRun_naps _ ha]
      exact ⟨by simp [Dev.putBundle, Dev.issue], Dev.setBundle_bundle _ _ _ _⟩
  · intro s u b x hx hw
    exact Acts.of_eq rfl (execNapEndD_ends hx hw)
      ⟨Dev.setBundle_bundle _ _ _ _, Dev.advance_now _ _, Dev.advance_mem _ _⟩

end Sys2Proof.Machine
end

section
/-! SUPPORT. The completion of tensor instructions (R131, R196), and obligation O21. -/

namespace Sys2Proof.Machine

/-- The oldest started instruction of an owned engine leaves its queue, and what waited on it follows (R95, R196). -/
theorem Dev.completeTensor_started {d : Dev} {u e k : Nat} {q : TensorEntry} (ho : (d.engine u e).owner = some k)
    (hq : (d.engine u e).queue.find? (·.started) = some q) :
    d.completeTensor u e =
      ((d.setEngine u e { d.engine u e with
        queue := eraseFirst (·.started) (d.engine u e).queue,
        lastMac := if tOp q.word = 0 then some d.now else (d.engine u e).lastMac }).tensDone u k q).checkPart u k := by
  unfold Dev.completeTensor
  simp only [ho, hq]

/-- The bundle with one instruction fewer incomplete on engine `e`, a TWAIT on it met when no more than its N are left
(R196). -/
def Bundle.tensLess (x : Bundle) (e : Nat) : Bundle :=
  let left := Tbl.getD x.tens e 0 - 1
  let met : Bool := match x.wait with | .twait i n => i = e && left ≤ n | _ => false
  { x with tens := if left = 0 then Tbl.erase x.tens e else Tbl.set x.tens e left, wait := if met then .none else x.wait }

theorem Dev.tensDone_other {d : Dev} {u k : Nat} {q : TensorEntry} {x : Bundle} (hx : d.bundle? u q.slot = some x)
    (h : x.cmd ≠ k) : d.tensDone u k q = d := by
  unfold Dev.tensDone
  simp only [hx]
  exact if_pos h

theorem Dev.tensDone_own {d : Dev} {u k : Nat} {q : TensorEntry} {x : Bundle} (hx : d.bundle? u q.slot = some x)
    (h : x.cmd = k) : d.tensDone u k q = d.setBundle u q.slot (x.tensLess (tEngine q.word)) := by
  unfold Dev.tensDone
  simp only [hx]
  exact if_neg (not_not_intro h)

theorem Bundle.tens_tensLess (x : Bundle) (e i : Nat) :
    Tbl.getD (x.tensLess e).tens i 0 = if i = e then Tbl.getD x.tens e 0 - 1 else Tbl.getD x.tens i 0 := by
  unfold Bundle.tensLess
  dsimp only
  split
  · next h => rw [Tbl.getD_erase, h]
  · rw [Tbl.getD_set]

theorem Bundle.wait_tensLess_twait {x : Bundle} {e n : Nat} (h : x.wait = .twait e n) :
    (x.tensLess e).wait = if Tbl.getD x.tens e 0 - 1 ≤ n then .none else x.wait := by
  unfold Bundle.tensLess
  simp [h]

theorem Bundle.wait_tensLess_other {x : Bundle} {e : Nat} (h : ∀ n, x.wait ≠ .twait e n) : (x.tensLess e).wait = x.wait := by
  unfold Bundle.tensLess
  dsimp only
  cases hw : x.wait with
  | twait i n =>
    have hi : i ≠ e := fun hi => h n (hi ▸ hw)
    simp [hi]
  | _ => rfl

/-- Settles O21: the completion is the one branch of TENSOR_COMPLETE that acts, and what the bundle's count and wait become is
said field by field. -/
theorem tensorCompletion : Obligations.TensorCompletion := by
  refine ⟨fun s at_ u e k q ho hq => Acts.of_eq rfl (Dev.completeTensor_started ho hq) rfl, fun d u k q x hx => ?_⟩
  refine ⟨Dev.tensDone_other hx, fun h => ⟨x.tensLess (tEngine q.word), ?_, rfl, fun e => ?_, fun n => ?_, ?_⟩⟩
  · rw [Dev.tensDone_own hx h]; exact Dev.setBundle_bundle _ _ _ _
  · rw [Bundle.tens_tensLess]; split <;> simp_all
  · exact Bundle.wait_tensLess_twait
  · exact Bundle.wait_tensLess_other

end Sys2Proof.Machine
end

section
/-! SUPPORT. Commands that are not dispatched (R89 to R91, R94), and obligation O26. -/

namespace Sys2Proof.Machine

section
variable {d : Dev} {cls op at_ k : Nat} {c : Cmd} {run : Nat → Cmd → Dev → Dev} (hc : (d.advance at_).cmd? k = some c)
include hc

/-- A command that waits only for an in-flight slot stays READY, and its first want is counted (R90). -/
theorem Dev.dispatch_wantsSlot (hcls : c.cls = cls) (hop : c.opcode = op) (hst : c.st = .ready)
    (hjob : ((d.advance at_).job c.job).st = .running) (hring : ((d.advance at_).ring c.job c.ring).st = .active)
    (hslot : (d.advance at_).slotAllows c = true) (hdr : (d.advance at_).drained k c = true)
    (hfree : (d.advance at_).slotFree c = false) :
    Dev.dispatch cls op run at_ k d
      = if c.waited then d.advance at_
        else ((d.advance at_).setCmd k { c with waited := true }).bump Cat.CP_INFLIGHT_FULL := by
  unfold Dev.dispatch
  simp only [hc]
  rw [if_neg (by simp [hcls, hop, hst, hjob, hring, hslot, hdr]), if_pos (by rw [hfree]; rfl)]

/-- A command that one of its other conditions holds back changes nothing (R89, R91, R94). -/
theorem Dev.dispatch_idle (h : c.st ≠ .ready ∨ ((d.advance at_).job c.job).st ≠ .running
      ∨ ((d.advance at_).ring c.job c.ring).st ≠ .active ∨ (d.advance at_).slotAllows c = false
      ∨ ((d.advance at_).slotFree c = true ∧ ((d.advance at_).entryFree c = false ∨ (d.advance at_).hasCapacity c = false
        ∨ (d.advance at_).served c = false ∨ (d.advance at_).isTurn c = false))) :
    Dev.dispatch cls op run at_ k d = d.advance at_ := by
  unfold Dev.dispatch
  simp only [hc]
  split
  · rfl
  · next hgo =>
    obtain ⟨hfree, hwant⟩ : (d.advance at_).slotFree c = true ∧ _ := by
      rcases h with h | h | h | h | h
      · exact absurd (by simp [h]) hgo
      · exact absurd (by simp [h]) hgo
      · exact absurd (by simp [h]) hgo
      · exact absurd (by simp [h]) hgo
      · exact h
    rw [if_neg (by rw [hfree]; decide), if_pos (by rcases hwant with h | h | h | h <;> simp [h])]

end

/-- Each command of the list is dispatched as one of its class and opcode, with an effect of its own (R84). -/
def DispatchedAs (p : (Nat → Nat → Instr) × Nat × Nat) : Prop :=
  ∃ run : Nat → Cmd → Dev → Dev, ∀ at_ k s, exec (p.1 at_ k) s = lift (Dev.dispatch p.2.1 p.2.2 run at_ k) s

/-- Settles O26: each of the 17 commands is dispatched as its class and opcode, and of a dispatch two lemmas say what a want of
an in-flight slot, and any other condition that fails, leave of the device. -/
theorem noInFlightSlotNoDispatch : Obligations.NoInFlightSlotNoDispatch := by
  intro p hp s at_ k c d hc hcls hop
  obtain ⟨run, hrun⟩ : DispatchedAs p := by
    simp only [List.mem_cons, List.not_mem_nil, or_false] at hp
    rcases hp with rfl | rfl | rfl | rfl | rfl | rfl | rfl | rfl | rfl | rfl | rfl | rfl | rfl | rfl | rfl | rfl | rfl <;>
      exact ⟨_, fun _ _ _ => rfl⟩
  refine ⟨fun hst hjob hring hslot hdr hfree => ?_, fun h => Acts.of_eq (hrun _ _ _) (Dev.dispatch_idle hc h) rfl⟩
  have hwant := Dev.dispatch_wantsSlot (run := run) hc hcls hop hst hjob hring hslot hdr hfree
  exact ⟨fun hw => Acts.of_eq (hrun _ _ _) (hwant.trans (if_pos hw)) rfl,
    fun hw => Acts.of_eq (hrun _ _ _) (hwant.trans (if_neg (by simp [hw]))) rfl⟩

end Sys2Proof.Machine
end

section
/-! SUPPORT. The start of a compute command's part on a unit (R70, R91, R169), and obligation O28. -/

namespace Sys2Proof.Machine

/-! ### Folds -/

/-- What each element's step establishes, and every other step keeps, holds of every element after the fold. -/
theorem foldl_each {α β : Type} (P : β → α → Prop) (f : β → α → β) (hself : ∀ b a, P (f b a) a)
    (hkeep : ∀ b a a', P b a' → P (f b a) a') (l : List α) (b : β) : ∀ a ∈ l, P (l.foldl f b) a := by
  induction l generalizing b with
  | nil => simp
  | cons x t ih =>
    intro a ha
    rcases List.mem_cons.mp ha with rfl | ha
    · exact foldl_keeps (P · a) f (fun b y h => hkeep b y a h) t _ (hself b a)
    · exact ih _ a ha

/-! ### What the steps of a start leave alone -/

/-- `e` has the commands of `d`, and its units the bundles and read buffers that they have in `d`. -/
def Dev.partOf (d e : Dev) : Prop :=
  e.cmds = d.cmds ∧ ∀ v, (e.unit v).bundles = (d.unit v).bundles ∧ (e.unit v).buf = (d.unit v).buf

theorem Dev.partOf.refl (d : Dev) : d.partOf d := ⟨rfl, fun _ => ⟨rfl, rfl⟩⟩

theorem Dev.partOf.trans {a b c : Dev} (h : a.partOf b) (k : b.partOf c) : a.partOf c :=
  ⟨k.1.trans h.1, fun v => ⟨(k.2 v).1.trans (h.2 v).1, (k.2 v).2.trans (h.2 v).2⟩⟩

theorem Dev.partOf.bundle? {d e : Dev} (h : d.partOf e) (u b : Nat) : e.bundle? u b = d.bundle? u b := by
  unfold Dev.bundle?; rw [(h.2 u).1]

theorem Dev.partOf.cmd? {d e : Dev} (h : d.partOf e) (k : Nat) : e.cmd? k = d.cmd? k := by
  unfold Dev.cmd?; rw [h.1]

theorem Dev.partOf.of_units {d e : Dev} (hc : e.cmds = d.cmds) (hu : e.units = d.units) : d.partOf e :=
  ⟨hc, fun v => by unfold Dev.unit; rw [hu]; exact ⟨rfl, rfl⟩⟩

theorem Dev.partOf_foldl {α : Type} (f : Dev → α → Dev) (hf : ∀ (d : Dev) (a : α), d.partOf (f d a)) (l : List α) (d : Dev) :
    d.partOf (l.foldl f d) := foldl_keeps d.partOf f (fun e a h => h.trans (hf e a)) l d (.refl d)

theorem Dev.partOf_setEngine (d : Dev) (u e : Nat) (x : Engine) : d.partOf (d.setEngine u e x) := by
  refine ⟨rfl, fun v => ?_⟩
  rw [Dev.unit_setEngine]
  split
  · next h => subst h; exact ⟨rfl, rfl⟩
  · exact ⟨rfl, rfl⟩

theorem Dev.partOf_setMover (d : Dev) (u : Nat) (m : Mover) : d.partOf (d.setUnit u { d.unit u with mover := m }) := by
  refine ⟨rfl, fun v => ?_⟩
  rw [Dev.setUnit_unit_of]
  split
  · next h => subst h; exact ⟨rfl, rfl⟩
  · exact ⟨rfl, rfl⟩

theorem Dev.tracedOf.partOf {d e : Dev} (h : d.tracedOf e) : d.partOf e := .of_units h.cmds h.units


/-! ### Engines -/

/-- Engine `x` belongs to command `k` of job `j`, with no tile and nothing queued. -/
def Engine.fresh (x : Engine) (k j : Nat) : Prop :=
  x.owner = some k ∧ x.lastJob = some j ∧ x.tiles = [] ∧ x.queue = []

/-- The engines of `e` are those of `d`, but for their ramps. -/
def Dev.rampsOf (d e : Dev) : Prop :=
  ∀ v i, e.engine v i = { d.engine v i with ramp := (e.engine v i).ramp, rampAt := (e.engine v i).rampAt }

theorem Dev.rampsOf.refl (d : Dev) : d.rampsOf d := fun _ _ => rfl

theorem Dev.rampsOf.trans {a b c : Dev} (h : a.rampsOf b) (k : b.rampsOf c) : a.rampsOf c := by
  intro v i
  rw [k v i, h v i]

theorem Dev.rampsOf.of_units {d e : Dev} (h : e.units = d.units) : d.rampsOf e := by
  have he : ∀ v i, e.engine v i = d.engine v i := fun v i => by unfold Dev.engine Dev.unit; rw [h]
  intro v i
  rw [he]

theorem Dev.rampsOf.fresh {d e : Dev} {u i k j : Nat} (h : d.rampsOf e) (hf : (d.engine u i).fresh k j) :
    (e.engine u i).fresh k j := by
  rw [h u i]; exact hf

/-- What the Cuff does with engines that are due: it sets ramps, and keeps what a start leaves alone (R390, R391). -/
def Dev.dueOf (d e : Dev) : Prop := d.partOf e ∧ d.rampsOf e

theorem Dev.dueOf.trans {a b c : Dev} (h : a.dueOf b) (k : b.dueOf c) : a.dueOf c := ⟨h.1.trans k.1, h.2.trans k.2⟩

theorem Dev.dueOf.of_units {d e : Dev} (hc : e.cmds = d.cmds) (hu : e.units = d.units) : d.dueOf e :=
  ⟨.of_units hc hu, .of_units hu⟩

theorem Dev.tracedOf.dueOf {d e : Dev} (h : d.tracedOf e) : d.dueOf e := .of_units h.cmds h.units

theorem Dev.dueOf_setRamp (d : Dev) (u e : Nat) (r : EngineRamp) : d.dueOf (d.setRamp u e r) := by
  refine ⟨d.partOf_setEngine _ _ _, fun v i => ?_⟩
  unfold Dev.setRamp
  rw [Dev.engine_setEngine]
  split
  · next h => obtain ⟨rfl, rfl⟩ := h; rfl
  · rfl

theorem Dev.dueOf_foldl {α : Type} (f : Dev → α → Dev) (hf : ∀ (d : Dev) (a : α), d.dueOf (f d a)) (l : List α) (d : Dev) :
    d.dueOf (l.foldl f d) := foldl_keeps d.dueOf f (fun e a h => h.trans (hf e a)) l d ⟨.refl d, .refl d⟩

theorem Dev.dueOf_engineDue (d : Dev) (u : Nat) (es : List Nat) : d.dueOf (d.engineDue u es) := by
  unfold Dev.engineDue
  dsimp only
  split
  · exact Dev.dueOf_foldl _ (fun d e => d.dueOf_setRamp _ _ _) _ _
  · split
    · exact .of_units rfl rfl
    · refine Dev.dueOf.trans ?_ (Dev.dueOf_foldl _ (fun d p => d.dueOf_setRamp _ _ _) _ _)
      refine Dev.dueOf.trans ?_ (Dev.tracedOf_event _ _ _ _ _ _ _).dueOf
      refine Dev.dueOf.trans ?_ (Dev.tracedOf_bump _ _).dueOf
      exact .of_units rfl rfl

/-- Engine `e` of a unit as command `k` of job `j` takes it (R75, R106). -/
def Dev.handEngine (d : Dev) (k j u e : Nat) : Dev :=
  d.setEngine u e { d.engine u e with owner := some k, lastJob := some j, tiles := [], queue := [], overhang := false }

/-- An engine that is taken is handed over, and a switch of jobs is counted. -/
theorem Dev.tracedOf_takeEngine (d : Dev) (k : Nat) (c : Cmd) (u e : Nat) :
    (d.handEngine k c.job u e).tracedOf (d.takeEngine k c u e) := by
  unfold Dev.takeEngine
  dsimp only
  split
  · split
    · refine (Dev.tracedOf_bump _ (Cat.JOB_SWITCH_IN c.job)).trans ?_
      split
      · exact Dev.tracedOf_bump _ _
      · exact .refl _
    · exact .refl _
  · exact .refl _

theorem Dev.partOf_takeEngine (d : Dev) (k : Nat) (c : Cmd) (u e : Nat) : d.partOf (d.takeEngine k c u e) :=
  (d.partOf_setEngine _ _ _).trans (d.tracedOf_takeEngine k c u e).partOf

/-- An engine that a command takes is fresh, and every other is as it was (R75, R106). -/
theorem Dev.engine_takeEngine (d : Dev) (k : Nat) (c : Cmd) (u e v i : Nat) :
    (d.takeEngine k c u e).engine v i = if v = u ∧ i = e then
      { d.engine u e with owner := some k, lastJob := some c.job, tiles := [], queue := [], overhang := false }
      else d.engine v i := by
  rw [← Dev.engine_setEngine]
  unfold Dev.engine
  rw [(d.tracedOf_takeEngine k c u e).unit]
  rfl

/-- Every engine of the list that a command takes is fresh. -/
theorem Dev.takeEngines_fresh (d : Dev) (k : Nat) (c : Cmd) (u : Nat) (es : List Nat) :
    ∀ e ∈ es, ((es.foldl (fun d e => d.takeEngine k c u e) d).engine u e).fresh k c.job := by
  refine foldl_each (fun d e => (d.engine u e).fresh k c.job) _ (fun d e => ?_) (fun d e i h => ?_) es d
  · rw [Dev.engine_takeEngine, if_pos ⟨rfl, rfl⟩]; exact ⟨rfl, rfl, rfl, rfl⟩
  · rw [Dev.engine_takeEngine]
    split
    · exact ⟨rfl, rfl, rfl, rfl⟩
    · exact h

/-! ### Bundles -/

/-- Slot `slots[i]` of a unit gets bundle `f i`, for every slot of the list. -/
def Dev.fillSlots (d : Dev) (u : Nat) (slots : List Nat) (f : Nat → Bundle) : Dev :=
  (List.range slots.length).foldl (fun d i => d.setBundle u ((slots[i]?).getD 0) (f i)) d

theorem Dev.fillSlots_rest (d : Dev) (u : Nat) (slots : List Nat) (f : Nat → Bundle) :
    (d.fillSlots u slots f).cmds = d.cmds ∧ ∀ v, ((d.fillSlots u slots f).unit v).buf = (d.unit v).buf := by
  unfold Dev.fillSlots
  refine foldl_keeps (fun e : Dev => e.cmds = d.cmds ∧ ∀ v, (e.unit v).buf = (d.unit v).buf) _ (fun e i h => ?_) _ d
    ⟨rfl, fun _ => rfl⟩
  refine ⟨h.1, fun v => ?_⟩
  rw [Dev.unit_setBundle, ← h.2 v]
  split
  · next hv => subst hv; rfl
  · rfl

/-- A slot that is not in the list keeps its bundle. -/
theorem Dev.bundle?_fillSlots_other (d : Dev) (u : Nat) {slots : List Nat} (f : Nat → Bundle) {b : Nat} (hb : b ∉ slots) :
    (d.fillSlots u slots f).bundle? u b = d.bundle? u b := by
  unfold Dev.fillSlots
  have hmem : ∀ i ∈ List.range slots.length, (slots[i]?).getD 0 ≠ b := by
    intro i hi he
    rw [List.getElem?_eq_getElem (List.mem_range.mp hi)] at he
    exact hb (he ▸ List.getElem_mem _)
  revert hmem
  generalize List.range slots.length = is
  induction is generalizing d with
  | nil => exact fun _ => rfl
  | cons i t ih =>
    intro h
    rw [List.foldl_cons, ih _ fun j hj => h j (List.mem_cons_of_mem _ hj), Dev.bundle?_setBundle,
      if_neg fun hc => h i List.mem_cons_self hc.2.symm]

/-- Slot `i` of a list without repeats holds its own bundle. -/
theorem Dev.bundle?_fillSlots (d : Dev) (u : Nat) {slots : List Nat} (f : Nat → Bundle) (hn : slots.Nodup) {i b : Nat}
    (hi : slots[i]? = some b) : (d.fillSlots u slots f).bundle? u b = some (f i) := by
  obtain ⟨hlt, hb⟩ := List.getElem?_eq_some_iff.mp hi
  have key := foldl_each (fun (e : Dev) j => j = i → e.bundle? u b = some (f i))
    (fun d j => if j < slots.length then d.setBundle u ((slots[j]?).getD 0) (f j) else d.setBundle u b (f i)) ?_ ?_
    (List.range slots.length) d i (List.mem_range.mpr hlt) rfl
  · rw [← key]
    unfold Dev.fillSlots
    congr 1
    refine List.foldl_ext _ _ _ fun e j hj => ?_
    rw [if_pos (List.mem_range.mp hj)]
  · rintro e j rfl
    rw [if_pos hlt, hi, Dev.bundle?_setBundle, if_pos ⟨rfl, rfl⟩]
  · intro e j j' h hj'
    subst hj'
    split
    · next hj =>
      rw [Dev.bundle?_setBundle]
      split
      · next hc =>
        have : j = j' := by
          have := hc.2
          rw [List.getElem?_eq_getElem hj, Option.getD_some, ← hb] at this
          exact ((hn.getElem_inj_iff).mp this).symm
        rw [this]
      · exact h rfl
    · rw [Dev.bundle?_setBundle, if_pos ⟨rfl, rfl⟩]

/-! ### The part -/

/-- The device on which command `k` = `c` runs on unit `u`: it has acquired for its job there, and what it reads of its
arguments is counted where it is poisoned (R70, R220). -/
def Dev.partBegun (d : Dev) (k : Nat) (c : Cmd) (u : Nat) : Dev :=
  let bad := d.jbad c.job c.launchArgs (c.argQwords * 8)
  ((((d.acquire u c.job).setCmd k { c with
      unitsLeft := c.unitsLeft - 2 ^ u, st := .running, unitsOn := c.unitsOn + 2 ^ u }).cmdPoison k bad).bumpBy
    (Cat.THR_POISON_ZERO u) bad.length).bumpBy Cat.THR_POISON_ZERO_TOTAL bad.length

/-- Bundle `i` of the part: at the program's start, with the arguments that the job's memory holds (R65, R169). -/
def Dev.partBundle (d : Dev) (k : Nat) (c : Cmd) (i : Nat) : Bundle :=
  Bundle.start k i c.programVa ((List.range c.argQwords).map fun n => d.jnat c.job (c.launchArgs + 8 * n) 8)

/-- The unit's count of completed slips of the command begins anew. -/
def Dev.countAnew (d : Dev) (k u : Nat) : Dev :=
  d.setUnit u { d.unit u with mover := { (d.unit u).mover with count := Tbl.erase (d.unit u).mover.count k } }

/-- BEGIN records of a part: of the unit, or of each engine (R469). -/
def Dev.partTraced (d : Dev) (c : Cmd) (u : Nat) (engines : List Nat) : Dev :=
  if engines.isEmpty || d.cget (Cat.TRC_UNIT_ONLY c.job) = 1 then d.traceBegin c u 0xF
  else engines.foldl (fun d e => d.traceBegin c u e) d

theorem Dev.tracedOf_partTraced (d : Dev) (c : Cmd) (u : Nat) (engines : List Nat) :
    d.tracedOf (d.partTraced c u engines) := by
  unfold Dev.partTraced
  split
  · exact d.tracedOf_trace _
  · exact d.tracedOf_foldl _ _ fun d e => d.tracedOf_trace _

/-- The command once it has taken up its part on a unit. -/
def Cmd.begun (c : Cmd) (u : Nat) : Cmd := { c with unitsLeft := c.unitsLeft - 2 ^ u, st := .running }


/-- The part once its arguments are read: its bundles take the lowest free slots, its engines are the lowest free ones, and
the Cuff sees those that are due (R70, R169, R390). -/
def Dev.partPlaced (d : Dev) (k : Nat) (c : Cmd) (u : Nat) : Dev :=
  let e := d.partBegun k c u
  let engines := (e.freeEngines u).take c.engines
  ((engines.foldl (fun d i => d.takeEngine k (c.begun u) u i)
    ((e.fillSlots u ((e.freeSlots u).take c.bundles) (d.partBundle k c)).countAnew k u)).partTraced (c.begun u) u
      engines).engineDue u engines

theorem Dev.startPart_eq (d : Dev) (k : Nat) (c : Cmd) (u : Nat) :
    d.startPart k c u =
      match (d.acquire u c.job).firstFault (c.begun u).job (c.begun u).launchArgs ((c.begun u).argQwords * 8) false with
      | some va => (((d.acquire u c.job).setCmd k (c.begun u)).cmdFault k c.job va).checkUnits k
      | none => d.partPlaced k c u := rfl

theorem Dev.startPart_mapped {d : Dev} {k u : Nat} {c : Cmd}
    (h : d.firstFault c.job c.launchArgs (c.argQwords * 8) false = none) : d.startPart k c u = d.partPlaced k c u := by
  have h' : (d.acquire u c.job).firstFault (c.begun u).job (c.begun u).launchArgs ((c.begun u).argQwords * 8) false = none := by
    unfold Cmd.launchArgs Cmd.argQwords at h ⊢
    exact h
  rw [Dev.startPart_eq, h']

/-! ### What a part has begun with -/


theorem Cmd.drop_rest (c : Cmd) (lines : List Nat) :
    c.drop lines = { c with status := (c.drop lines).status, detail := (c.drop lines).detail, drops := (c.drop lines).drops } := by
  unfold Cmd.drop
  cases lines with
  | nil => rfl
  | cons a t => dsimp only; unfold Cmd.raise; split <;> rfl

/-- Poison that a command read changes that command alone (R220). -/
theorem Dev.cmd?_cmdPoison {d : Dev} {k : Nat} {c : Cmd} (h : d.cmd? k = some c) (lines : List Nat) :
    (d.cmdPoison k lines).cmd? k = some (c.drop lines) := by
  have hcount : ∀ (d : Dev) (pa : Nat), d.tracedOf (d.countBad pa) := by
    intro d pa
    unfold Dev.countBad
    split
    · exact (d.tracedOf_bump _).trans (Dev.tracedOf_hostErr _ _ _)
    · exact d.tracedOf_bump _
    · exact d.tracedOf_bump _
    · exact .refl d
  unfold Dev.cmdPoison
  rw [Dev.updCmd_some (((d.tracedOf_foldl _ lines hcount).cmd? k).trans h), Dev.cmd?_setCmd, if_pos rfl]

theorem Dev.cmd?_partBegun (d : Dev) (k : Nat) (c : Cmd) (u : Nat) : ∃ y : Cmd, (d.partBegun k c u).cmd? k = some y
    ∧ y.st = .running ∧ y.unitsLeft = c.unitsLeft - 2 ^ u ∧ y.unitsOn = c.unitsOn + 2 ^ u ∧ y.ends = c.ends := by
  unfold Dev.partBegun
  dsimp only
  rw [(Dev.tracedOf_bumpBy _ _ _).cmd?, (Dev.tracedOf_bumpBy _ _ _).cmd?,
    Dev.cmd?_cmdPoison (Dev.setCmd_cmd (d.acquire u c.job) k _), Cmd.drop_rest]
  exact ⟨_, rfl, rfl, rfl, rfl, rfl⟩

/-- Beside commands and reports, a part's beginning changes what its unit has buffered, and no more (R70, R174). -/
theorem Dev.unit_partBegun (d : Dev) (k : Nat) (c : Cmd) (u v : Nat) :
    (d.partBegun k c u).unit v = (d.acquire u c.job).unit v :=
  ((((Dev.notesOf_setCmd (d.acquire u c.job) k _).trans (Dev.notesOf_cmdPoison _ _ _)).trans
    (Dev.notesOf_bumpBy _ _ _)).trans (Dev.notesOf_bumpBy _ _ _)).unit v

theorem Dev.unit_acquire (d : Dev) (u j v : Nat) :
    (d.acquire u j).unit v = { d.unit v with buf := ((d.acquire u j).unit v).buf, code := ((d.acquire u j).unit v).code } := by
  unfold Dev.acquire Dev.invalidate
  dsimp only
  rw [Dev.setUnit_unit_of]
  split
  · next h => subst h; simp
  · next h => rw [Dev.setUnit_unit_of, if_neg h]

theorem Dev.bundle?_partBegun (d : Dev) (k : Nat) (c : Cmd) (u v b : Nat) :
    (d.partBegun k c u).bundle? v b = d.bundle? v b := by
  unfold Dev.bundle?; rw [Dev.unit_partBegun, Dev.unit_acquire]

theorem Dev.engine_partBegun (d : Dev) (k : Nat) (c : Cmd) (u v e : Nat) :
    (d.partBegun k c u).engine v e = d.engine v e := by
  unfold Dev.engine; rw [Dev.unit_partBegun, Dev.unit_acquire]

theorem Dev.freeSlots_partBegun (d : Dev) (k : Nat) (c : Cmd) (u : Nat) :
    (d.partBegun k c u).freeSlots u = d.freeSlots u := by
  unfold Dev.freeSlots; simp only [Dev.bundle?_partBegun]

theorem Dev.freeEngines_partBegun (d : Dev) (k : Nat) (c : Cmd) (u : Nat) :
    (d.partBegun k c u).freeEngines u = d.freeEngines u := by
  unfold Dev.freeEngines; simp only [Dev.engine_partBegun]

/-- The job's lines are gone from the unit's read buffer once its part has begun (R70, R191). -/
theorem Dev.buf_partBegun (d : Dev) (k : Nat) (c : Cmd) (u : Nat) :
    ∀ p ∈ ((d.partBegun k c u).unit u).buf, p.2.job ≠ c.job := by
  have hbuf : ((d.acquire u c.job).unit u).buf = ((d.invalidate u c.job).unit u).buf := by simp [Dev.acquire]
  rw [Dev.unit_partBegun, hbuf]
  exact d.buf_invalidate u c.job

/-! ### The start as a whole -/

/-- A compute command's part starts where its arguments are mapped (R70, R91, R169). -/
theorem Dev.startPart_starts {d : Dev} {k u : Nat} {c : Cmd}
    (h : d.firstFault c.job c.launchArgs (c.argQwords * 8) false = none) : PartStarts d (d.startPart k c u) k u c := by
  rw [Dev.startPart_mapped h]
  unfold Dev.partPlaced
  dsimp only
  rw [Dev.freeSlots_partBegun, Dev.freeEngines_partBegun]
  generalize hs : (d.freeSlots u).take c.bundles = slots
  generalize hg : (d.freeEngines u).take c.engines = engines
  generalize hf : (d.partBegun k c u).fillSlots u slots (d.partBundle k c) = f
  generalize ht : engines.foldl (fun d i => d.takeEngine k (c.begun u) u i) (f.countAnew k u) = t
  have hlast : t.dueOf ((t.partTraced (c.begun u) u engines).engineDue u engines) :=
    (t.tracedOf_partTraced _ _ _).dueOf.trans (Dev.dueOf_engineDue _ _ _)
  have hpart : f.partOf ((t.partTraced (c.begun u) u engines).engineDue u engines) := by
    refine Dev.partOf.trans ?_ hlast.1
    rw [← ht]
    exact (f.partOf_setMover _ _).trans (Dev.partOf_foldl _ (fun d i => d.partOf_takeEngine _ _ _ _) _ _)
  obtain ⟨hcmds, hbuf⟩ := (d.partBegun k c u).fillSlots_rest u slots (d.partBundle k c)
  rw [hf] at hcmds hbuf
  refine ⟨?_, fun i b hb hi => ?_, fun b hb => ?_, fun e he => ?_, fun l y hy => ?_⟩
  · obtain ⟨y, hy, hrest⟩ := d.cmd?_partBegun k c u
    refine ⟨y, ?_, hrest⟩
    rw [hpart.cmd?, ← hy]
    unfold Dev.cmd?
    rw [hcmds]
  · rw [hpart.bundle?, ← hf]
    refine Dev.bundle?_fillSlots _ _ _ ?_ ?_
    · rw [← hs]; exact (List.nodup_range.filter _).sublist (List.take_sublist _ _)
    · rw [← hs, List.getElem?_take_of_lt hi]; exact hb
  · rw [hpart.bundle?, ← hf, Dev.bundle?_fillSlots_other _ _ _ (hs ▸ hb), Dev.bundle?_partBegun]
  · refine hlast.2.fresh ?_
    rw [← ht]
    exact Dev.takeEngines_fresh _ _ _ _ _ e (hg ▸ he)
  · rw [(hpart.2 u).2, hbuf] at hy
    exact d.buf_partBegun k c u _ (Tbl.mem_of_find? hy)

/-! ### A bundle at its start -/

/-- Registers filled from a list, zeros left out, read the list's values. -/
theorem getD_startRegs (f : Nat → DWord) (n r : Nat) :
    Tbl.getD ((List.range n).foldl (fun t i => if f i = 0 then t else Tbl.set t i (f i)) []) r 0 = if r < n then f r else 0 := by
  induction n with
  | zero => rfl
  | succ n ih =>
    rw [List.range_succ, List.foldl_append, List.foldl_cons, List.foldl_nil]
    by_cases hr : r = n
    · subst hr
      split
      · next h0 => rw [ih, if_neg (Nat.lt_irrefl r), if_pos (Nat.lt_succ_self r), h0]
      · rw [Tbl.getD_set, if_pos rfl, if_pos (Nat.lt_succ_self r)]
    · have hlt : r < n + 1 ↔ r < n := by omega
      simp only [hlt]
      split
      · exact ih
      · rw [Tbl.getD_set, if_neg hr, ih]

theorem Bundle.ureg_start (k i pc : Nat) (args : List Nat) {r : Nat} (hr : r < 63) :
    (Bundle.start k i pc args).ureg r = BitVec.ofNat 64 (args[r]?.getD 0) := by
  unfold Bundle.ureg
  rw [if_neg (by omega)]
  refine (getD_startRegs (fun i => BitVec.ofNat 64 ((args[i]?).getD 0)) args.length r).trans ?_
  split
  · rfl
  · next h => rw [List.getElem?_eq_none (by omega)]; rfl

/-! ### The obligation -/

/-- Settles O28: LAUNCH is the fold of its starts; each start is the one of a part, which takes the lowest free slots and
engines; and a bundle's registers are read off its start. -/
theorem launchAndPartsOnUnits : Obligations.LaunchAndPartsOnUnits := by
  refine ⟨RingOp.of _ (fun _ _ _ => rfl) fun d k c _ => rfl, fun d k u c hc hcls => ⟨fun h => ?_, fun hl hu hf => ?_⟩,
    fun s at_ k u c => ?_, fun k i pc args r l => ?_⟩
  · unfold Dev.startIfFits
    simp only [hc]
    exact if_neg (by rcases h with h | h <;> simp [h])
  · have hstart : d.startIfFits k u = d.startPart k c u := by
      unfold Dev.startIfFits
      simp only [hc]
      exact if_pos (by simp [hcls, hl, hu])
    rw [hstart]
    exact Dev.startPart_starts hf
  · intro d hc hcls hl hslot hu hf
    have hc' : (s.dev.advance at_).cmd? k = some c := hc
    have hslot' : (s.dev.advance at_).slotAllows c = true := hslot
    have hu' : (s.dev.advance at_).unitFits u c = true := hu
    refine ⟨fun hst => Acts.of_eq (f := execCommandStartOnUnitD at_ k u) rfl ?_ (Dev.startPart_starts hf),
      fun hst hjob => Acts.of_eq (f := execParkedResumeD at_ k u) rfl ?_ (Dev.startPart_starts hf)⟩
    · unfold execCommandStartOnUnitD Dev.startIfFits
      simp only [hc']
      rw [if_neg (by simp [hst, hl, hslot']), if_pos hcls, if_pos (by simp [hcls, hl, hu'])]
    · have hjob' : ((s.dev.advance at_).job c.job).st = .running := hjob
      unfold execParkedResumeD
      simp only [hc']
      exact if_neg (by simp [hst, hl, hcls, hjob', hslot', hu'])
  · exact ⟨rfl, rfl, rfl, rfl, rfl, rfl, rfl, rfl, fun hr _ => Bundle.ureg_start _ _ _ _ hr, by
      unfold Bundle.preg; split <;> rfl⟩

end Sys2Proof.Machine
end

section
/-! SUPPORT. The retirement of a command: its END records, its completion record, its mark, its interrupt, its ring (R69, R81,
R86, R94 to R96, R500), and obligation O29. -/

namespace Sys2Proof.Machine

/-! ### Vector tables stay -/

/-- The MSI-X tables of `e` are those of `d`. -/
def Dev.msixOf (d e : Dev) : Prop := ∀ p, (e.host p).msix = (d.host p).msix

theorem Dev.msixOf.trans {a b c : Dev} (h : a.msixOf b) (k : b.msixOf c) : a.msixOf c := fun p => (k p).trans (h p)

theorem Dev.msixOf.of_hosts {d e : Dev} (h : e.hosts = d.hosts) : d.msixOf e := fun p => by unfold Dev.host; rw [h]

theorem Dev.msixOf_bumpBy (d : Dev) (k n : Nat) : d.msixOf (d.bumpBy k n) := .of_hosts (d.bumpBy_hosts k n)
theorem Dev.msixOf_bump (d : Dev) (k : Nat) : d.msixOf (d.bump k) := d.msixOf_bumpBy k 1

theorem Dev.host_setHost (d : Dev) (p q : Nat) (x : HostPort) : (d.setHost p x).host q = if q = p then x else d.host q :=
  Tbl.getD_set _ _ _ _ _

theorem Dev.msixOf_setHost (d : Dev) (p : Nat) (x : HostPort) (h : x.msix = (d.host p).msix) : d.msixOf (d.setHost p x) := by
  intro q
  rw [Dev.host_setHost]
  split
  · next hq => rw [hq, h]
  · rfl

theorem Dev.msixOf_raiseMsix (d : Dev) (p v : Nat) : d.msixOf (d.raiseMsix p v) := by
  unfold Dev.raiseMsix
  dsimp only
  split
  · exact d.msixOf_setHost _ _ rfl
  · exact .of_hosts rfl

theorem Dev.msixOf_hostErr (d : Dev) (p b : Nat) : d.msixOf (d.hostErr p b) := by
  unfold Dev.hostErr
  dsimp only
  split
  · exact fun _ => rfl
  · have h : d.msixOf (d.setHost p { d.host p with errCause := (d.host p).errCause + 2 ^ b }) := d.msixOf_setHost _ _ rfl
    split
    · exact h.trans (Dev.msixOf_raiseMsix _ _ _)
    · exact h

theorem Dev.msixOf_tier4Write (d : Dev) (pa : Nat) (data : List Byte) : d.msixOf (d.tier4Write pa data) := by
  unfold Dev.tier4Write
  cases paRoot pa <;> exact .of_hosts rfl

theorem Dev.msixOf_wrRaw (d : Dev) (pa : Nat) (data : List Byte) : d.msixOf (d.wrRaw pa data) := by
  unfold Dev.wrRaw
  split
  · exact fun _ => rfl
  · split
    · exact (d.msixOf_bump _).trans (Dev.msixOf_hostErr _ _ _)
    · exact d.msixOf_tier4Write _ _
  · split
    · exact .of_hosts rfl
    · split
      · exact d.msixOf_bump _
      · exact .of_hosts rfl
  · split
    · exact .of_hosts rfl
    · split
      · exact d.msixOf_bump _
      · exact .of_hosts rfl
  · exact .of_hosts rfl

theorem Dev.hosts_placeRecord (b d : Dev) (j hint rec_ pa : Nat) : (Dev.placeRecord b d j hint rec_ pa).hosts = d.hosts := by
  unfold Dev.placeRecord
  dsimp only
  split
  · rfl
  · split
    · rfl
    · exact Dev.bump_hosts _ _

theorem Dev.hosts_placeLine (b d : Dev) (pa n : Nat) : (Dev.placeLine b d pa n).hosts = d.hosts := by
  unfold Dev.placeLine
  split
  · refine foldl_keeps (fun e : Dev => e.hosts = d.hosts) _ (fun e kj he => ?_) _ d rfl
    split
    · exact he
    · refine foldl_keeps (fun e : Dev => e.hosts = d.hosts) _ (fun e r he => ?_) _ e he
      split
      · split
        · exact (Dev.hosts_placeRecord _ _ _ _ _ _).trans he
        · exact he
      · exact he
  · rfl

theorem Dev.msixOf_wrLine (d : Dev) (pa : Nat) (data : List Byte) : d.msixOf (d.wrLine pa data) := by
  unfold Dev.wrLine
  dsimp only
  split
  · exact d.msixOf_wrRaw _ _
  · exact (d.msixOf_wrRaw _ _).trans (.of_hosts (Dev.hosts_placeLine _ _ _ _))

theorem Dev.msixOf_xfault (d : Dev) (j va : Nat) : d.msixOf (d.xfault j va) := .of_hosts rfl

theorem Dev.msixOf_jwrLines (fuel : Nat) (d : Dev) (j va : Nat) (data : List Byte) :
    d.msixOf (d.jwrLines j va data fuel) := by
  induction fuel generalizing d va data with
  | zero => exact fun _ => rfl
  | succ n ih =>
    unfold Dev.jwrLines
    split
    · exact fun _ => rfl
    · dsimp only
      split
      · exact (d.msixOf_wrLine _ _).trans (ih _ _ _)
      · exact (d.msixOf_xfault _ _).trans (ih _ _ _)

/-- A write at a job address leaves the vector tables. -/
theorem Dev.msixOf_jwr (d : Dev) (j va : Nat) (data : List Byte) : d.msixOf (d.jwr j va data) :=
  Dev.msixOf_jwrLines _ _ _ _ _

theorem Dev.msixOf_trcPut1 (d : Dev) (j : Nat) (r : TraceRec) : d.msixOf (d.trcPut1 j r).1 := by
  unfold Dev.trcPut1
  dsimp only
  split
  · exact fun _ => rfl
  · split
    · exact d.msixOf_xfault _ _
    · exact (d.msixOf_jwr _ _ _).trans (Dev.msixOf_bump _ _)

/-- A LOST record before a record, when records were lost: the device, and whether there was room (R472). -/
def Dev.trcLostPut (d : Dev) (j : Nat) : Dev × Bool :=
  if (d.job j).trcLost = 0 then (d, true)
  else
    let p := d.trcPut1 j { kind := 0x50, stamp := d.stamp, job := j, unit := 0x90, engine := 0xF, ring := 0, data0 := 0,
                           data1 := (d.job j).trcLost, data2 := 0 }
    if p.2 then (p.1.setJob j { p.1.job j with trcLost := 0 }, true) else (p.1, false)

theorem Dev.trcPut_eq (d : Dev) (j : Nat) (r : TraceRec) : d.trcPut j r =
    if d.cget (Cat.TRC_RING_BYTES j) = 0 then d
    else
      let p := d.trcLostPut j
      let q := if p.2 then p.1.trcPut1 j r else (p.1, false)
      if q.2 then q.1 else (q.1.bump (Cat.TRC_LOST j)).setJob j { q.1.job j with trcLost := (q.1.job j).trcLost + 1 } := by
  rfl

theorem Dev.msixOf_trcLostPut (d : Dev) (j : Nat) : d.msixOf (d.trcLostPut j).1 := by
  unfold Dev.trcLostPut
  split
  · exact fun _ => rfl
  · dsimp only
    split
    · exact (d.msixOf_trcPut1 _ _).trans (.of_hosts rfl)
    · exact d.msixOf_trcPut1 _ _

theorem Dev.msixOf_trcPut (d : Dev) (j : Nat) (r : TraceRec) : d.msixOf (d.trcPut j r) := by
  rw [Dev.trcPut_eq]
  split
  · exact fun _ => rfl
  · dsimp only
    have hq : d.msixOf (if (d.trcLostPut j).2 then (d.trcLostPut j).1.trcPut1 j r else ((d.trcLostPut j).1, false)).1 := by
      split
      · exact (d.msixOf_trcLostPut j).trans (Dev.msixOf_trcPut1 _ _ _)
      · exact d.msixOf_trcLostPut j
    generalize (if (d.trcLostPut j).2 then (d.trcLostPut j).1.trcPut1 j r else ((d.trcLostPut j).1, false)) = q at hq ⊢
    split
    · exact hq
    · exact hq.trans (.of_hosts rfl)

theorem Dev.hosts_trcDev (d : Dev) (r : TraceRec) : (d.trcDev r).hosts = d.hosts := by
  unfold Dev.trcDev
  dsimp only
  split
  · rfl
  · split
    · exact d.bump_hosts Cat.TRC_DEV_LOST
    · refine (Dev.bump_hosts _ _).trans ?_
      split
      · rfl
      · exact Dev.bump_hosts _ Cat.TRC_DEV_HEAD

/-- A trace record leaves the vector tables. -/
theorem Dev.msixOf_trace (d : Dev) (r : TraceRec) : d.msixOf (d.trace r) := by
  have hdev : d.msixOf ((d.emit (.trace r)).trcDev r) := .of_hosts (Dev.hosts_trcDev _ _)
  unfold Dev.trace
  dsimp only
  split
  · exact hdev.trans (Dev.msixOf_trcPut _ _ _)
  · refine hdev.trans (foldl_keeps (Dev.msixOf _) _ (fun e j he => ?_) _ _ fun _ => rfl)
    split
    · exact he.trans (Dev.msixOf_trcPut _ _ _)
    · exact he

/-! ### END records -/

/-- `e` differs from `d` in what a trace record may touch, and in free values taken, at most. -/
def Dev.endsOf (d e : Dev) : Prop := Dev.tracedOf { d with fresh := e.fresh } e

theorem Dev.tracedOf.endsOf {d e : Dev} (h : d.tracedOf e) : d.endsOf e := by
  have hf : e.fresh = d.fresh := by rw [h.1]
  unfold Dev.endsOf
  rw [hf]
  exact h

theorem Dev.endsOf.trans {a b c : Dev} (h : a.endsOf b) (k : b.endsOf c) : a.endsOf c := by
  obtain ⟨h1, h2⟩ := h
  obtain ⟨k1, k2⟩ := k
  refine ⟨?_, fun j => ?_⟩
  · rw [k1, h1]
  · have hj : c.job j = { b.job j with trcLost := (c.job j).trcLost } := k2 j
    have hb : b.job j = { a.job j with trcLost := (b.job j).trcLost } := h2 j
    rw [hj, hb]
    rfl

theorem Dev.endsOf_take (d : Dev) : d.endsOf d.take.2 := Dev.tracedOf.refl _

theorem Dev.endsOf.rings {d e : Dev} (h : d.endsOf e) : e.rings = d.rings := Eq.trans (by rw [h.1]) rfl
theorem Dev.endsOf.job {d e : Dev} (h : d.endsOf e) (j : Nat) : e.job j = { d.job j with trcLost := (e.job j).trcLost } :=
  h.2 j
theorem Dev.endsOf.ring {d e : Dev} (h : d.endsOf e) (j q : Nat) : e.ring j q = d.ring j q := by
  unfold Dev.ring; rw [h.rings]

/-- One END record (R469). -/
def Dev.traceEnd (d : Dev) (c : Cmd) (x : Nat × Nat × Nat) : Dev :=
  d.take.2.trace { kind := 0x02, stamp := x.2.2, job := c.job, unit := x.1, engine := x.2.1, ring := c.ring,
                   data0 := c.status % 2 ^ 8 * 2 ^ 48 + b2n c.exec * 2 ^ 47 + (if x.2.1 = 0xF then 0 else d.take.1 % 2 ^ 32),
                   data1 := fld c.desc 32 16 * 2 ^ 48 + fld c.desc 48 16 * 2 ^ 32 + fld c.desc 64 16 * 2 ^ 16 + c.tag,
                   data2 := c.seq }

theorem Dev.traceEnds_eq (d : Dev) (c : Cmd) : d.traceEnds c = c.ends.foldl (fun d x => d.traceEnd c x) d := by
  rfl

theorem Dev.traceEnd_keeps (d : Dev) (c : Cmd) (x : Nat × Nat × Nat) : d.endsOf (d.traceEnd c x) ∧ d.msixOf (d.traceEnd c x) := by
  have hm : d.msixOf d.take.2 := .of_hosts rfl
  exact ⟨d.endsOf_take.trans (Dev.tracedOf_trace _ _).endsOf, hm.trans (Dev.msixOf_trace _ _)⟩

/-- The END records of a command leave what every record leaves, and the vector tables (R469). -/
theorem Dev.traceEnds_keeps (d : Dev) (c : Cmd) : d.endsOf (d.traceEnds c) ∧ d.msixOf (d.traceEnds c) := by
  rw [Dev.traceEnds_eq]
  refine foldl_keeps (fun e : Dev => d.endsOf e ∧ d.msixOf e) _ (fun e x he => ?_) _ d
    ⟨(Dev.tracedOf.refl d).endsOf, fun _ => rfl⟩
  obtain ⟨k1, k2⟩ := e.traceEnd_keeps c x
  exact ⟨he.1.trans k1, he.2.trans k2⟩

/-! ### The record, the mark, the vector and the ring of a command that finishes -/

/-- The record of a command that finishes: the device after it, and whether it was lost (R94, R500). -/
def Dev.recorded (d : Dev) (c : Cmd) : Dev × Bool :=
  if c.crec || c.status ≠ 0 then (d.traceEnds c).putRecord c d.stamp else (d.traceEnds c, false)

/-- The mark of a command that finishes rises, when its status signals (R95). -/
def Dev.markRaised (d : Dev) (c : Cmd) (stamp : Nat) : Dev :=
  if c.sigEn && statusSignals c.status then d.incMark c.job c.signalMark c.signalInc stamp else d

/-- The vector of a finishing command's ring is raised, when the command asks (R96). -/
def Dev.vectorRaised (d : Dev) (c : Cmd) (r : Ring) : Dev := if c.irq then d.raiseMsix r.port r.vector else d

/-- A finishing command is counted. -/
def Dev.retiredCounted (d : Dev) (c : Cmd) : Dev :=
  let d := (d.bump (Cat.JOB_RETIRED c.job)).countStatus c.job c.status
  d.setJob c.job { d.job c.job with dropLines := (d.job c.job).dropLines + c.drops }

/-- What follows the record of a finishing command, up to its ring. -/
def Dev.signalled (d : Dev) (c : Cmd) (r : Ring) (stamp : Nat) : Dev :=
  ((d.markRaised c stamp).vectorRaised c r).retiredCounted c

theorem Dev.finish_eq (d : Dev) (c : Cmd) : d.finish c =
    if (d.recorded c).2 || 0x11 ≤ c.status then
      ((d.recorded c).1.signalled c (d.ring c.job c.ring) d.stamp).stopRing c.job c.ring c.seq .stopped none
    else (d.recorded c).1.signalled c (d.ring c.job c.ring) d.stamp := by
  rfl

theorem Dev.incMark_rest (d : Dev) (j m n stamp : Nat) : ∃ cat cmds units, d.incMark j m n stamp =
    { d with cat := cat, cmds := cmds, units := units,
             jobs := Tbl.set d.jobs j { d.job j with
               marks := Tbl.set (d.job j).marks m { value := ((d.job j).mark m).value + BitVec.ofNat 32 n, stamp := stamp } } } := by
  unfold Dev.incMark Dev.setMark Dev.bumpBy
  dsimp only
  split <;> exact ⟨_, _, _, rfl⟩

theorem Dev.markRaised_rest (d : Dev) (c : Cmd) (stamp : Nat) : ∃ cat cmds units jobs,
    d.markRaised c stamp = { d with cat := cat, cmds := cmds, units := units, jobs := jobs } := by
  unfold Dev.markRaised
  split
  · obtain ⟨cat, cmds, units, h⟩ := d.incMark_rest c.job c.signalMark c.signalInc stamp
    exact ⟨cat, cmds, units, _, h⟩
  · exact ⟨_, _, _, _, rfl⟩

theorem Dev.markRaised_marks (d : Dev) (c : Cmd) (stamp : Nat) : ((d.markRaised c stamp).job c.job).marks =
    if c.sigEn && statusSignals c.status then
      Tbl.set (d.job c.job).marks c.signalMark
        { value := ((d.job c.job).mark c.signalMark).value + BitVec.ofNat 32 c.signalInc, stamp := stamp }
    else (d.job c.job).marks := by
  unfold Dev.markRaised
  split
  · obtain ⟨cat, cmds, units, h⟩ := d.incMark_rest c.job c.signalMark c.signalInc stamp
    rw [h]
    unfold Dev.job
    rw [Tbl.getD_set_self]
  · rfl

theorem Dev.countStatus_rest (d : Dev) (j status : Nat) : ∃ cat, d.countStatus j status = { d with cat := cat } := by
  unfold Dev.countStatus Dev.bump Dev.bumpBy
  split
  · exact ⟨_, rfl⟩
  · split <;> split <;> exact ⟨_, rfl⟩

theorem Dev.retiredCounted_rest (d : Dev) (c : Cmd) : ∃ cat, d.retiredCounted c =
    { d with cat := cat,
             jobs := Tbl.set d.jobs c.job { d.job c.job with dropLines := (d.job c.job).dropLines + c.drops } } := by
  have hb : ∃ cat, d.bump (Cat.JOB_RETIRED c.job) = { d with cat := cat } := by
    unfold Dev.bump Dev.bumpBy
    split <;> exact ⟨_, rfl⟩
  obtain ⟨m, hm⟩ := hb
  obtain ⟨n, hn⟩ := Dev.countStatus_rest { d with cat := m } c.job c.status
  refine ⟨n, ?_⟩
  unfold Dev.retiredCounted
  rw [hm, hn]
  rfl

theorem Dev.signalled_rest (d : Dev) (c : Cmd) (r : Ring) (stamp : Nat) :
    (d.signalled c r stamp).mem = d.mem ∧ (d.signalled c r stamp).rings = d.rings := by
  obtain ⟨cat, cmds, units, jobs, h⟩ := d.markRaised_rest c stamp
  have hv : (d.markRaised c stamp).notesOf ((d.markRaised c stamp).vectorRaised c r) := by
    unfold Dev.vectorRaised
    split
    · exact Dev.notesOf_raiseMsix _ _ _
    · exact .refl _
  obtain ⟨m, hm⟩ := ((d.markRaised c stamp).vectorRaised c r).retiredCounted_rest c
  unfold Dev.signalled
  rw [hm, hv, h]
  exact ⟨rfl, rfl⟩

theorem Dev.signalled_marks (d : Dev) (c : Cmd) (r : Ring) (stamp : Nat) :
    ((d.signalled c r stamp).job c.job).marks = ((d.markRaised c stamp).job c.job).marks := by
  have hv : ((d.markRaised c stamp).vectorRaised c r).jobs = (d.markRaised c stamp).jobs := by
    unfold Dev.vectorRaised
    split
    · exact (Dev.notesOf_raiseMsix _ _ _).jobs
    · rfl
  obtain ⟨m, hm⟩ := ((d.markRaised c stamp).vectorRaised c r).retiredCounted_rest c
  unfold Dev.signalled
  rw [hm]
  unfold Dev.job
  rw [hv, Tbl.getD_set_self]

/-- A vector that is not masked sends its message; one that is masked has its pending bit set. -/
theorem Dev.raiseMsix_raises (d : Dev) (p v : Nat) :
    (bit (Tbl.getD (d.host p).msix v msixReset) 96 = false → Out.msix p v ∈ (d.raiseMsix p v).out)
      ∧ (bit (Tbl.getD (d.host p).msix v msixReset) 96 = true → Tbl.getD ((d.raiseMsix p v).host p).pba v false = true) := by
  unfold Dev.raiseMsix
  constructor <;> intro h
  · dsimp only
    rw [h]
    exact List.mem_cons_self
  · dsimp only
    rw [if_pos h, Dev.host_setHost, if_pos rfl, Tbl.getD_set_self]

theorem Dev.signalled_raises (d : Dev) (c : Cmd) (r : Ring) (stamp : Nat) (hi : c.irq = true) :
    (bit (Tbl.getD (d.host r.port).msix r.vector msixReset) 96 = false → Out.msix r.port r.vector ∈ (d.signalled c r stamp).out)
      ∧ (bit (Tbl.getD (d.host r.port).msix r.vector msixReset) 96 = true →
          Tbl.getD ((d.signalled c r stamp).host r.port).pba r.vector false = true) := by
  obtain ⟨cat, cmds, units, jobs, h⟩ := d.markRaised_rest c stamp
  have hv : (d.markRaised c stamp).vectorRaised c r = (d.markRaised c stamp).raiseMsix r.port r.vector := if_pos hi
  have hr := (d.markRaised c stamp).raiseMsix_raises r.port r.vector
  obtain ⟨m, hm⟩ := ((d.markRaised c stamp).raiseMsix r.port r.vector).retiredCounted_rest c
  unfold Dev.signalled
  rw [hv, hm]
  rw [h] at hr ⊢
  exact hr

/-- A ring after a record in its next completion entry (R94). -/
def Ring.recordPut (r : Ring) : Ring :=
  { r with cPos := if r.cPos + 1 = r.cSize then 0 else r.cPos + 1,
           cPhase := if r.cPos + 1 = r.cSize then !r.cPhase else r.cPhase }

theorem Dev.tracedOf.rings {d e : Dev} (h : d.tracedOf e) : e.rings = d.rings := by rw [h.1]

theorem Dev.tracedOf.ring {d e : Dev} (h : d.tracedOf e) (j q : Nat) : e.ring j q = d.ring j q := by
  unfold Dev.ring; rw [h.rings]

/-- A command that fails stops its ring when that is ACTIVE (R81). -/
theorem Dev.stopRing_ring (d : Dev) (j q seq : Nat) : (d.stopRing j q seq .stopped none).ring j q =
    if (d.ring j q).st = .active then { d.ring j q with st := .stopped, stopSeq := seq } else d.ring j q := by
  unfold Dev.stopRing
  dsimp only
  rw [Dev.setRing_ring, Option.toList_none, List.append_nil]

section
variable (d : Dev) (c : Cmd)

theorem Dev.recorded_none (h : ¬ (c.crec = true ∨ c.status ≠ 0)) : d.recorded c = (d.traceEnds c, false) := by
  unfold Dev.recorded
  rw [if_neg]
  simpa using h

/-- A record whose entry is mapped is written, and the position moves on. -/
theorem Dev.recorded_mapped (h : c.crec = true ∨ c.status ≠ 0)
    (hx : ((d.traceEnds c).xlate c.job ((d.ring c.job c.ring).cBase + 32 * (d.ring c.job c.ring).cPos) true).isSome) :
    d.recorded c = (((d.traceEnds c).jwr c.job ((d.ring c.job c.ring).cBase + 32 * (d.ring c.job c.ring).cPos)
        (leBytes 32 (c.recordNat d.stamp (d.ring c.job c.ring).cPhase))).setRing c.job c.ring (d.ring c.job c.ring).recordPut,
      false) := by
  have hr : (d.traceEnds c).ring c.job c.ring = d.ring c.job c.ring := (d.traceEnds_keeps c).1.ring _ _
  have hw (l : List Byte) (va : Nat) : ((d.traceEnds c).jwr c.job va l).ring c.job c.ring = d.ring c.job c.ring :=
    ((Dev.tracedOf_jwr _ _ _ _).ring _ _).trans hr
  have hn : ¬ ((d.traceEnds c).xlate c.job ((d.ring c.job c.ring).cBase + 32 * (d.ring c.job c.ring).cPos) true).isNone = true := by
    simpa [Option.isSome_iff_ne_none] using hx
  unfold Dev.recorded
  rw [if_pos (by simpa using h)]
  unfold Dev.putRecord
  dsimp only
  rw [hr, if_neg hn, hw]
  rfl

/-- A record whose entry is not mapped is lost, and counted. -/
theorem Dev.recorded_lost (h : c.crec = true ∨ c.status ≠ 0)
    (hx : (d.traceEnds c).xlate c.job ((d.ring c.job c.ring).cBase + 32 * (d.ring c.job c.ring).cPos) true = none) :
    (d.recorded c).2 = true ∧ (d.recorded c).1.rings = d.rings := by
  have hr : (d.traceEnds c).ring c.job c.ring = d.ring c.job c.ring := (d.traceEnds_keeps c).1.ring _ _
  unfold Dev.recorded
  rw [if_pos (by simpa using h)]
  unfold Dev.putRecord
  dsimp only
  rw [hr, if_pos (by rw [hx]; rfl)]
  exact ⟨rfl, (Dev.tracedOf_bump _ _).rings.trans (d.traceEnds_keeps c).1.rings⟩

/-- A record is lost when one is due and its entry is not mapped (R500). -/
theorem Dev.recorded_lost_iff : (d.recorded c).2 = true ↔ (c.crec = true ∨ c.status ≠ 0)
    ∧ (d.traceEnds c).xlate c.job ((d.ring c.job c.ring).cBase + 32 * (d.ring c.job c.ring).cPos) true = none := by
  by_cases h : c.crec = true ∨ c.status ≠ 0
  · by_cases hx : (d.traceEnds c).xlate c.job ((d.ring c.job c.ring).cBase + 32 * (d.ring c.job c.ring).cPos) true = none
    · simp [h, hx, (d.recorded_lost c h hx).1]
    · simp [h, hx, d.recorded_mapped c h (Option.isSome_iff_ne_none.mpr hx)]
  · simp [h, d.recorded_none c h]

/-- A record leaves the state of its ring. -/
theorem Dev.recorded_ring_st : ((d.recorded c).1.ring c.job c.ring).st = (d.ring c.job c.ring).st := by
  by_cases h : c.crec = true ∨ c.status ≠ 0
  · by_cases hx : (d.traceEnds c).xlate c.job ((d.ring c.job c.ring).cBase + 32 * (d.ring c.job c.ring).cPos) true = none
    · unfold Dev.ring
      rw [(d.recorded_lost c h hx).2]
    · rw [d.recorded_mapped c h (Option.isSome_iff_ne_none.mpr hx)]
      dsimp only
      rw [Dev.setRing_ring]
      rfl
  · rw [d.recorded_none c h]
    dsimp only
    rw [(d.traceEnds_keeps c).1.ring]

/-- The record of a command leaves marks and vector tables. -/
theorem Dev.recorded_keeps : ((d.recorded c).1.job c.job).marks = (d.job c.job).marks ∧ d.msixOf (d.recorded c).1 := by
  obtain ⟨ht, hm⟩ := d.traceEnds_keeps c
  have hmarks : ((d.traceEnds c).job c.job).marks = (d.job c.job).marks := by rw [ht.job]
  unfold Dev.recorded
  split
  · unfold Dev.putRecord
    dsimp only
    split
    · exact ⟨by rw [(Dev.tracedOf_bump _ _).2]; exact hmarks, (hm.trans (Dev.msixOf_xfault _ _ _)).trans (Dev.msixOf_bump _ _)⟩
    · have hw (va : Nat) (l : List Byte) : (((d.traceEnds c).jwr c.job va l).job c.job).marks = (d.job c.job).marks := by
        rw [(Dev.tracedOf_jwr _ _ _ _).2]
        exact hmarks
      exact ⟨hw _ _, (hm.trans (Dev.msixOf_jwr _ _ _ _)).trans (.of_hosts rfl)⟩
  · exact ⟨hmarks, hm⟩

/-- What a finishing command leaves behind, apart from its ring. -/
theorem Dev.finish_rest : (d.finish c).mem = (d.recorded c).1.mem
    ∧ ((d.finish c).job c.job).marks
        = (((d.recorded c).1.signalled c (d.ring c.job c.ring) d.stamp).job c.job).marks
    ∧ (d.finish c).hosts = ((d.recorded c).1.signalled c (d.ring c.job c.ring) d.stamp).hosts
    ∧ (d.finish c).out = ((d.recorded c).1.signalled c (d.ring c.job c.ring) d.stamp).out := by
  obtain ⟨hm, -⟩ := (d.recorded c).1.signalled_rest c (d.ring c.job c.ring) d.stamp
  rw [Dev.finish_eq]
  split <;> exact ⟨hm, rfl, rfl, rfl⟩

/-- The ring of a finishing command: as its record left it, and STOPPED by a failed status or a lost record (R81). -/
theorem Dev.finish_ring : (d.finish c).ring c.job c.ring =
    if ((d.recorded c).2 || 0x11 ≤ c.status) && ((d.recorded c).1.ring c.job c.ring).st = .active then
      { (d.recorded c).1.ring c.job c.ring with st := .stopped, stopSeq := c.seq }
    else (d.recorded c).1.ring c.job c.ring := by
  have hr : ((d.recorded c).1.signalled c (d.ring c.job c.ring) d.stamp).ring c.job c.ring
      = (d.recorded c).1.ring c.job c.ring := by
    generalize d.ring c.job c.ring = r
    unfold Dev.ring
    rw [((d.recorded c).1.signalled_rest c r d.stamp).2]
  rw [Dev.finish_eq]
  by_cases hs : ((d.recorded c).2 || 0x11 ≤ c.status) = true
  · rw [if_pos hs, Dev.stopRing_ring, hr]
    simp only [hs, Bool.true_and, decide_eq_true_eq]
  · rw [if_neg hs, hr, if_neg]
    simp only [Bool.not_eq_true] at hs
    simp [hs]
end

/-- Settles O29. A command retires through `Dev.retireHeld`; what finishing it does is read off its four stages: the record,
the mark, the vector, the ring. -/
theorem retirementInItsOrder : Obligations.RetirementInItsOrder := by
  unfold Obligations.RetirementInItsOrder
  refine ⟨fun s at_ k c hk hdone hin hw hr => ?_, fun d c => ?_⟩
  · refine Acts.of_eq rfl ?_ rfl
    unfold execCommandRetireD
    dsimp only
    rw [hk]
    exact if_pos (by simp [hdone, hin, hw, hr])
  · obtain ⟨hmem, hmarks, hhosts, hout⟩ := d.finish_rest c
    obtain ⟨rmarks, rmsix⟩ := d.recorded_keeps c
    have hring := d.finish_ring c
    have smarks := ((d.recorded c).1.signalled_marks c (d.ring c.job c.ring) d.stamp).trans
      ((d.recorded c).1.markRaised_marks c d.stamp)
    have hraise := (d.recorded c).1.signalled_raises c (d.ring c.job c.ring) d.stamp
    rw [rmsix] at hraise
    dsimp only
    refine ⟨fun hwants hx => ?_, fun hno => ?_, fun hs1 hs2 => ?_, fun hs => ?_, fun hi hm => ?_, fun hi hm => ?_,
      fun hst hbad => ?_, fun hst hlt hgood => ?_⟩
    · rw [d.recorded_mapped c hwants hx] at hmem hring
      dsimp only at hring
      rw [Dev.setRing_ring] at hring
      refine ⟨hmem, ?_, ?_⟩ <;> rw [hring] <;> split <;> rfl
    · rw [d.recorded_none c hno] at hmem hring
      dsimp only at hring
      rw [(d.traceEnds_keeps c).1.ring] at hring
      refine ⟨hmem, ?_⟩
      rw [hring]
      split <;> rfl
    · unfold Job.mark
      rw [hmarks, smarks, if_pos (by rw [hs1, hs2]; rfl), Tbl.getD_set_self]
      unfold Job.mark
      rw [rmarks]
    · rw [hmarks, smarks, if_neg (by simpa using hs), rmarks]
    · rw [hout]
      exact (hraise hi).1 hm
    · unfold Dev.host
      rw [hhosts]
      exact (hraise hi).2 hm
    · rw [hring, if_pos]
      · exact ⟨rfl, rfl⟩
      · rw [d.recorded_ring_st, hst]
        simpa [d.recorded_lost_iff c, or_comm] using hbad
    · rw [hring, if_neg]
      · exact (d.recorded_ring_st c).trans hst
      · have hl : (d.recorded c).2 = false := by
          rw [← Bool.not_eq_true, d.recorded_lost_iff c]
          rintro ⟨hwants, hx⟩
          simpa [hx] using hgood hwants
        simp [hl, Nat.not_le.mpr hlt]

end Sys2Proof.Machine
end

section
/-! SUPPORT. The fetch of a ring's head entry, branch by branch (R76, R78 to R82, R501), and obligation O31. -/

namespace Sys2Proof.Machine

theorem Dev.advance_ring (d : Dev) (t j q : Nat) : (d.advance t).ring j q = d.ring j q := by
  unfold Dev.ring
  rw [Dev.advance_rings]

theorem Dev.advance_job (d : Dev) (t j : Nat) : (d.advance t).job j = d.job j := by
  unfold Dev.job
  rw [Dev.advance_jobs]

theorem Dev.advance_cget (d : Dev) (t k : Nat) : (d.advance t).cget k = d.cget k := by
  unfold Dev.cget
  rw [Dev.advance_cat]

/-! ### One read of the head's entry -/

section
variable {d : Dev} {j q : Nat} {last : Bool} {r : Ring} (hr : d.ring j q = r)
include hr

/-- A fetch that faults retires the descriptor with 0x11. -/
theorem Dev.fetchHead_faults (hx : d.xlate j (r.baseVa + 64 * r.head) false = none) :
    d.fetchHead j q last = ((d.xfault j (r.baseVa + 64 * r.head)).advanceHead j q).finish
      { newCmd j q r.seq 0 with status := 0x11, detail := r.baseVa + 64 * r.head } := by
  unfold Dev.fetchHead
  dsimp only
  rw [hr, hx]
  rfl

variable (hx : (d.xlate j (r.baseVa + 64 * r.head) false).isSome) (hb : d.jbad j (r.baseVa + 64 * r.head) 64 = [])
include hx hb

/-- A fetch of a mapped entry without poison turns on its PHASE bit. -/
theorem Dev.fetchHead_reads : d.fetchHead j q last =
    if bit (d.jnat j (r.baseVa + 64 * r.head) 64) 0 = r.phase then
      (d.holdDesc j q (d.jnat j (r.baseVa + 64 * r.head) 64)).takePushed j q r.pushed.length
    else if last then d.phaseFail j q (d.jnat j (r.baseVa + 64 * r.head) 64)
    else d.setRing j q { r with phaseTries := r.phaseTries + 1, fetchedAt := d.now } := by
  have hn : ¬ (d.xlate j (r.baseVa + 64 * r.head) false).isNone = true := by
    simpa [Option.isSome_iff_ne_none] using hx
  unfold Dev.fetchHead
  dsimp only
  rw [hr, if_neg hn, hb]
  rfl

theorem Dev.fetchHead_held (hp : bit (d.jnat j (r.baseVa + 64 * r.head) 64) 0 = r.phase) : d.fetchHead j q last =
    (d.holdDesc j q (d.jnat j (r.baseVa + 64 * r.head) 64)).takePushed j q r.pushed.length :=
  (fetchHead_reads hr hx hb).trans (if_pos hp)

theorem Dev.fetchHead_retries (hp : bit (d.jnat j (r.baseVa + 64 * r.head) 64) 0 ≠ r.phase) (hl : last = false) :
    d.fetchHead j q last = d.setRing j q { r with phaseTries := r.phaseTries + 1, fetchedAt := d.now } :=
  (fetchHead_reads hr hx hb).trans ((if_neg hp).trans (if_neg (by simp [hl])))

theorem Dev.fetchHead_fails (hp : bit (d.jnat j (r.baseVa + 64 * r.head) 64) 0 ≠ r.phase) (hl : last = true) :
    d.fetchHead j q last = ((d.advanceHead j q).bump (Cat.RING_PHASE_ERR j q)).finish
      { newCmd j q r.seq (d.jnat j (r.baseVa + 64 * r.head) 64) with status := 0x30, detail := 0 } := by
  refine (fetchHead_reads hr hx hb).trans ((if_neg hp).trans ((if_pos hl).trans ?_))
  unfold Dev.phaseFail
  rw [hr]
end

/-- The device in which a descriptor just read is held, before anything looks at it. -/
def Dev.withDesc (d : Dev) (j q desc : Nat) : Dev :=
  ({ d with cmds := Tbl.set d.cmds d.nextCmd (newCmd j q (d.ring j q).seq desc), nextCmd := d.nextCmd + 1 } : Dev).advanceHead j q

theorem Dev.holdDesc_eq (d : Dev) (j q desc : Nat) : d.holdDesc j q desc = (d.withDesc j q desc).promote j q := rfl

/-- The head's move changes the ring and a counter. -/
theorem Dev.advanceHead_rest (d : Dev) (j q : Nat) : ∃ cat, d.advanceHead j q =
    { d.setRing j q { d.ring j q with
        head := if (d.ring j q).head + 1 = (d.ring j q).size then 0 else (d.ring j q).head + 1,
        phase := if (d.ring j q).head + 1 = (d.ring j q).size then !(d.ring j q).phase else (d.ring j q).phase,
        seq := ((d.ring j q).seq + 1) % 2 ^ 32, phaseTries := 0,
        pushed := Tbl.erase (d.ring j q).pushed (d.ring j q).head } with cat := cat } := by
  unfold Dev.advanceHead Dev.bump Dev.bumpBy
  dsimp only
  split <;> exact ⟨_, rfl⟩

/-- A ring that may be read fetches its head's entry. -/
theorem execDescriptorFetchD_fetches {at_ j q : Nat} {d : Dev} (hj : ((d.advance at_).job j).st = .running)
    (hr : ((d.advance at_).ring j q).st = .active) (hne : ((d.advance at_).ring j q).head ≠ ((d.advance at_).ring j q).tail)
    (ht : ((d.advance at_).ring j q).phaseTries = 0) (hroom : (d.advance at_).roomToFetch j q = true)
    (hs : (d.advance at_).headServed j q = true)
    (hp : Tbl.find? ((d.advance at_).ring j q).pushed ((d.advance at_).ring j q).head = none) :
    execDescriptorFetchD at_ j q d = (d.advance at_).fetchHead j q false := by
  unfold execDescriptorFetchD
  dsimp only
  rw [if_neg (by simp [hj, hr, hne, ht, hroom]), hp, if_neg nofun, hs]
  rfl

/-- A refetch that may be made reads the head's entry 1 us after the last fetch. -/
theorem execPhaseRefetchD_fetches {j q : Nat} {d : Dev} (hj : (d.job j).st = .running) (hr : (d.ring j q).st = .active)
    (ht : (d.ring j q).phaseTries ≠ 0) (hroom : d.roomToFetch j q = true) (hs : d.headServed j q = true) :
    execPhaseRefetchD j q d = (d.advance ((d.ring j q).fetchedAt + 8000)).fetchHead j q
      (d.cget Cat.CP_PHASE_RETRY ≤ (d.ring j q).phaseTries) := by
  unfold execPhaseRefetchD
  exact if_neg (by simp [hj, hr, ht, hroom, hs])

/-- Settles O31: each clause is a branch of `Dev.fetchHead`, and a held descriptor stands behind the others. -/
theorem ringsFetchTheirDescriptors : Obligations.RingsFetchTheirDescriptors := by
  unfold Obligations.RingsFetchTheirDescriptors
  refine ⟨?_, ?_, ?_⟩
  · intro s at_ j q d r va hj hr hne ht hroom hs hp
    have hf := execDescriptorFetchD_fetches hj hr hne ht hroom hs hp
    refine ⟨fun hx hb hph => ?_, fun hx hb hph => ?_, fun hx => ?_⟩
    · exact Acts.of_eq rfl (hf.trans (Dev.fetchHead_held rfl hx hb hph)) rfl
    · refine Acts.of_eq rfl (hf.trans (Dev.fetchHead_retries rfl hx hb hph rfl)) ?_
      rw [ht]
    · exact Acts.of_eq rfl (hf.trans (Dev.fetchHead_faults rfl hx)) rfl
  · intro s j q r d va hj hr ht hroom hs hx hb
    have hring : d.ring j q = r := s.dev.advance_ring _ j q
    have hlast : s.dev.cget Cat.CP_PHASE_RETRY = d.cget Cat.CP_PHASE_RETRY := (s.dev.advance_cget _ _).symm
    have hf := execPhaseRefetchD_fetches ((congrArg Job.st (s.dev.advance_job _ j)).symm.trans hj) hr ht hroom hs
    refine ⟨fun hph => ?_, fun hph hlt => ?_, fun hph hle => ?_⟩
    · exact Acts.of_eq rfl (hf.trans (Dev.fetchHead_held hring hx hb hph)) rfl
    · exact Acts.of_eq rfl (hf.trans (Dev.fetchHead_retries hring hx hb hph
        (decide_eq_false (by rw [hlast]; exact Nat.not_le.mpr hlt)))) rfl
    · exact Acts.of_eq rfl (hf.trans (Dev.fetchHead_fails hring hx hb hph (decide_eq_true (by rw [hlast]; exact hle)))) rfl
  · intro d j q desc r
    refine ⟨d.withDesc j q desc, d.holdDesc_eq j q desc, ?_⟩
    unfold Dev.withDesc
    obtain ⟨cat, h⟩ := Dev.advanceHead_rest
      { d with cmds := Tbl.set d.cmds d.nextCmd (newCmd j q (d.ring j q).seq desc), nextCmd := d.nextCmd + 1 } j q
    rw [h]
    exact ⟨Tbl.find?_set_self _ _ _, fun k hk => (Tbl.find?_set _ _ _ _).trans (if_neg hk), rfl,
      Dev.setRing_ring _ _ _ _, rfl, rfl⟩

end Sys2Proof.Machine
end

section
/-! SUPPORT. Doorbells, pushed entries and host error causes (R78, R433, R435, R436), and obligation O32. -/

namespace Sys2Proof.Machine

/-! ### Host error causes -/

/-- A cause that is set already changes nothing (R433). -/
theorem Dev.hostErr_again {d : Dev} {p b : Nat} (h : bit (d.host p).errCause b = true) : d.hostErr p b = d := by
  unfold Dev.hostErr
  exact if_pos h

/-- A cause that was 0 is set, and raises the port's vector when that is enabled (R433). -/
theorem Dev.hostErr_new {d : Dev} {p b : Nat} (h : bit (d.host p).errCause b = false) : d.hostErr p b =
    if (d.host p).errEn then
      (d.setHost p { d.host p with errCause := (d.host p).errCause + 2 ^ b }).raiseMsix p (d.host p).errVector
    else d.setHost p { d.host p with errCause := (d.host p).errCause + 2 ^ b } := by
  unfold Dev.hostErr
  exact if_neg (by rw [h]; nofun)

theorem Dev.raiseMsix_errCause (d : Dev) (p v : Nat) : ((d.raiseMsix p v).host p).errCause = (d.host p).errCause := by
  unfold Dev.raiseMsix
  dsimp only
  split
  · rw [Dev.setHost_host]
  · rfl

/-- What a new error cause does. -/
theorem Dev.hostErr_sets {d : Dev} {p b : Nat} (h : bit (d.host p).errCause b = false) :
    ((d.hostErr p b).host p).errCause = (d.host p).errCause + 2 ^ b
      ∧ ((d.host p).errEn = true → bit (Tbl.getD (d.host p).msix (d.host p).errVector msixReset) 96 = false →
          Out.msix p (d.host p).errVector ∈ (d.hostErr p b).out)
      ∧ ((d.host p).errEn = true → bit (Tbl.getD (d.host p).msix (d.host p).errVector msixReset) 96 = true →
          Tbl.getD ((d.hostErr p b).host p).pba (d.host p).errVector false = true) := by
  have hset := d.setHost_host p { d.host p with errCause := (d.host p).errCause + 2 ^ b }
  have hraise := (d.setHost p { d.host p with errCause := (d.host p).errCause + 2 ^ b }).raiseMsix_raises p (d.host p).errVector
  rw [hset] at hraise
  rw [Dev.hostErr_new h]
  refine ⟨?_, fun he hm => ?_, fun he hm => ?_⟩
  · split
    · rw [Dev.raiseMsix_errCause, hset]
    · rw [hset]
  · rw [if_pos he]
    exact hraise.1 hm
  · rw [if_pos he]
    exact hraise.2 hm

/-! ### Doorbells and pushes while the data plane is released and the port's link up -/

section
variable {at_ port j q : Nat} {d : Dev} (hrel : (d.advance at_).released = true) (hup : (d.advance at_).hostLost port = false)
include hrel hup

theorem execRingDoorbellD_open (v : Word) : execRingDoorbellD at_ port j q v d =
    if !(d.advance at_).doorbellOpen port j q then ((d.advance at_).bump (Cat.HOST_DB_DROP port)).hostErr port 0
    else if ((d.advance at_).ring j q).size ≤ v.toNat % 2 ^ 16
        || ((d.advance at_).ring j q).size ≤
          (v.toNat % 2 ^ 16 + ((d.advance at_).ring j q).size - ((d.advance at_).ring j q).tail) % ((d.advance at_).ring j q).size
            + ((d.advance at_).ring j q).unfetched then
      ((d.advance at_).bump (Cat.HOST_DB_BAD port)).hostErr port 1
    else (d.advance at_).setRing j q { (d.advance at_).ring j q with tail := v.toNat % 2 ^ 16 } := by
  unfold execRingDoorbellD
  exact if_neg (by simp [hrel, hup])

/-- A push of another form than one packet of 64 bytes at 0x40 is counted. -/
theorem execRingPushD_bad {off tlps : Nat} {data : List Byte} (h : off ≠ 0x40 ∨ tlps ≠ 1 ∨ data.length ≠ 64) :
    execRingPushD at_ port j q off tlps data d = ((d.advance at_).bump (Cat.HOST_PUSH_BAD port)).hostErr port 2 := by
  unfold execRingPushD
  dsimp only
  rw [if_neg (by simp [hrel, hup]), if_pos (by simpa [or_assoc] using h)]

/-- A push that its ring takes stands behind the tail, and is fetched at once when it stands at the head. -/
theorem execRingPushD_taken {data : List Byte} (hlen : data.length = 64) (ho : (d.advance at_).doorbellOpen port j q = true)
    (hs : (d.advance at_).cget (Cat.SEC_RING_SEALED j) ≠ 1)
    (hroom : ((d.advance at_).ring j q).unfetched + 1 < ((d.advance at_).ring j q).size) :
    execRingPushD at_ port j q 0x40 1 data d =
      if ((d.advance at_).ring j q).head = ((d.advance at_).ring j q).tail then
        ((d.advance at_).setRing j q { (d.advance at_).ring j q with
          pushed := Tbl.set ((d.advance at_).ring j q).pushed ((d.advance at_).ring j q).tail (leNat data),
          tail := (((d.advance at_).ring j q).tail + 1) % ((d.advance at_).ring j q).size }).takePushed1 j q
      else
        (d.advance at_).setRing j q { (d.advance at_).ring j q with
          pushed := Tbl.set ((d.advance at_).ring j q).pushed ((d.advance at_).ring j q).tail (leNat data),
          tail := (((d.advance at_).ring j q).tail + 1) % ((d.advance at_).ring j q).size } := by
  unfold execRingPushD
  dsimp only
  rw [if_neg (by simp [hrel, hup]), if_neg (by simp [hlen]), if_neg (by simp [ho]), if_neg hs, if_neg (Nat.not_le.mpr hroom)]
end

/-- Settles O32: the branches of a doorbell and of a push, and what a host error cause does. -/
theorem doorbellsAndPushes : Obligations.DoorbellsAndPushes := by
  unfold Obligations.DoorbellsAndPushes
  intro s at_ port j q d r hrel hup
  refine ⟨fun v => ?_, fun off tlps data h => ?_, fun data hlen ho hs hroom => ?_, fun b => ?_⟩
  · have hv := execRingDoorbellD_open (j := j) (q := q) hrel hup v
    refine ⟨fun hc => ?_, fun ho hbad => ?_, fun ho hlt hfit => ?_⟩
    · exact Acts.of_eq rfl (hv.trans (if_pos (by rw [hc]; rfl))) rfl
    · exact Acts.of_eq rfl (hv.trans ((if_neg (by rw [ho]; nofun)).trans (if_pos (by simpa using hbad)))) rfl
    · refine Acts.of_eq rfl (hv.trans ((if_neg (by rw [ho]; nofun)).trans (if_neg ?_))) ?_
      · simpa using ⟨hlt, hfit⟩
      · exact ⟨Dev.setRing_ring _ _ _ _, rfl, rfl, rfl⟩
  · exact Acts.of_eq rfl (execRingPushD_bad hrel hup h) rfl
  · have hp := execRingPushD_taken hrel hup hlen ho hs hroom
    refine Acts.of_eq rfl rfl ⟨fun hne => ?_, fun he => ?_⟩
    · exact hp.trans (if_neg hne)
    · exact hp.trans (if_pos he)
  · exact ⟨Dev.hostErr_again, Dev.hostErr_sets⟩

end Sys2Proof.Machine
end

section
/-! SUPPORT. Start, stop and teardown of a job (R73, R74, R215, R296, R359, R471), and obligation O41. -/

namespace Sys2Proof.Machine

/-! ### States of jobs stay while rings are looked at -/

/-- Every job of `e` is in the state that it has in `d`. -/
def Dev.jobStOf (d e : Dev) : Prop := ∀ j, (e.job j).st = (d.job j).st

theorem Dev.jobStOf.trans {a b c : Dev} (h : a.jobStOf b) (k : b.jobStOf c) : a.jobStOf c := fun j => (k j).trans (h j)

theorem Dev.jobStOf.of_jobs {d e : Dev} (h : e.jobs = d.jobs) : d.jobStOf e := fun j => by unfold Dev.job; rw [h]

theorem Dev.jobStOf.refl (d : Dev) : d.jobStOf d := .of_jobs rfl

theorem Dev.tracedOf.jobStOf {d e : Dev} (h : d.tracedOf e) : d.jobStOf e := fun j => by rw [h.2 j]

theorem Dev.endsOf.jobStOf {d e : Dev} (h : d.endsOf e) : d.jobStOf e := fun j => by rw [h.job j]

theorem Dev.jobStOf_setRing (d : Dev) (j q : Nat) (r : Ring) : d.jobStOf (d.setRing j q r) := .of_jobs rfl

theorem Dev.job_cset (d : Dev) (k v j : Nat) : (d.cset k v).job j = d.job j := rfl
theorem Dev.ring_cset (d : Dev) (k v j q : Nat) : (d.cset k v).ring j q = d.ring j q := rfl

/-- A job that is set anew in its own state. -/
theorem Dev.jobStOf.of_set {d e : Dev} {j : Nat} {x : Job} (h : e.jobs = Tbl.set d.jobs j x) (hx : x.st = (d.job j).st) :
    d.jobStOf e := by
  intro i
  have hi : e.job i = (d.setJob j x).job i := by unfold Dev.job; rw [h]; rfl
  rw [hi, Dev.job_setJob]
  split
  · next hij => rw [hij, hx]
  · rfl

theorem Dev.jobStOf_recorded (d : Dev) (c : Cmd) : d.jobStOf (d.recorded c).1 := by
  have ht := (d.traceEnds_keeps c).1.jobStOf
  unfold Dev.recorded
  split
  · unfold Dev.putRecord
    dsimp only
    split
    · exact (ht.trans (Dev.tracedOf_xfault _ _ _).jobStOf).trans (Dev.tracedOf_bump _ _).jobStOf
    · exact (ht.trans (Dev.tracedOf_jwr _ _ _ _).jobStOf).trans (Dev.jobStOf_setRing _ _ _ _)
  · exact ht

theorem Dev.jobStOf_signalled (d : Dev) (c : Cmd) (r : Ring) (stamp : Nat) : d.jobStOf (d.signalled c r stamp) := by
  have hmark : d.jobStOf (d.markRaised c stamp) := by
    unfold Dev.markRaised
    split
    · obtain ⟨cat, cmds, units, h⟩ := d.incMark_rest c.job c.signalMark c.signalInc stamp
      rw [h]
      exact .of_set rfl rfl
    · exact .refl d
  have hvec : (d.markRaised c stamp).jobStOf ((d.markRaised c stamp).vectorRaised c r) := by
    unfold Dev.vectorRaised
    split
    · exact (Dev.tracedOf_raiseMsix _ _ _).jobStOf
    · exact .refl _
  obtain ⟨cat, h⟩ := ((d.markRaised c stamp).vectorRaised c r).retiredCounted_rest c
  refine (hmark.trans hvec).trans ?_
  unfold Dev.signalled
  rw [h]
  exact .of_set rfl rfl

/-- A command that finishes leaves the states of jobs. -/
theorem Dev.jobStOf_finish (d : Dev) (c : Cmd) : d.jobStOf (d.finish c) := by
  have h := (d.jobStOf_recorded c).trans (Dev.jobStOf_signalled _ c (d.ring c.job c.ring) d.stamp)
  rw [Dev.finish_eq]
  split
  · exact h.trans (.of_jobs rfl)
  · exact h

theorem Dev.jobStOf_promote (d : Dev) (j q : Nat) : d.jobStOf (d.promote j q) := by
  have hfin (e : Dev) (c : Cmd) (h : e.jobs = d.jobs) : d.jobStOf (e.finish c) :=
    (jobStOf.of_jobs h).trans (e.jobStOf_finish c)
  unfold Dev.promote
  split
  · exact .refl d
  · split
    · exact .refl d
    · split
      · exact .refl d
      · split
        · exact hfin _ _ rfl
        · split
          · exact hfin _ _ rfl
          · exact .of_jobs rfl

theorem Dev.jobStOf_advanceHead (d : Dev) (j q : Nat) : d.jobStOf (d.advanceHead j q) := by
  obtain ⟨cat, h⟩ := d.advanceHead_rest j q
  exact .of_jobs (by rw [h]; rfl)

theorem Dev.jobStOf_holdDesc (d : Dev) (j q desc : Nat) : d.jobStOf (d.holdDesc j q desc) := by
  have h : d.jobStOf { d with cmds := Tbl.set d.cmds d.nextCmd (newCmd j q (d.ring j q).seq desc), nextCmd := d.nextCmd + 1 } :=
    .of_jobs rfl
  exact (h.trans (Dev.jobStOf_advanceHead _ _ _)).trans (Dev.jobStOf_promote _ _ _)

theorem Dev.jobStOf_phaseFail (d : Dev) (j q desc : Nat) : d.jobStOf (d.phaseFail j q desc) :=
  ((d.jobStOf_advanceHead j q).trans (Dev.tracedOf_bump _ _).jobStOf).trans (Dev.jobStOf_finish _ _)

theorem Dev.jobStOf_takePushed1 (d : Dev) (j q : Nat) : d.jobStOf (d.takePushed1 j q) := by
  unfold Dev.takePushed1
  dsimp only
  split
  · exact .refl d
  · split
    · exact .refl d
    · split
      · exact d.jobStOf_holdDesc _ _ _
      · exact d.jobStOf_phaseFail _ _ _

theorem Dev.jobStOf_takePushed (d : Dev) (j q fuel : Nat) : d.jobStOf (d.takePushed j q fuel) := by
  induction fuel generalizing d with
  | zero => exact .refl d
  | succ n ih => exact (d.jobStOf_takePushed1 j q).trans (ih _)

/-- The rings of a job that look at their entries again leave the states of jobs. -/
theorem Dev.jobStOf_wakeRings (d : Dev) (j : Nat) : d.jobStOf (d.wakeRings j) := by
  unfold Dev.wakeRings
  refine foldl_keeps (Dev.jobStOf d) _ (fun e q he => ?_) _ d (.refl d)
  dsimp only
  split
  · exact (he.trans (Dev.jobStOf_takePushed _ _ _ _)).trans (Dev.jobStOf_promote _ _ _)
  · exact he

/-! ### Start -/

/-- The device on which a start is checked: that of a fresh grant, where one is needed (R215). -/
def Dev.startGrant (d : Dev) (j : Nat) : Option Dev :=
  if (d.job j).st = .created || (d.job j).t1Stale then d.grantT1 j else some d

/-- The device after a start that passes its checks. -/
def Dev.started (g : Dev) (j : Nat) : Dev :=
  let d := ((g.statStart j).expertStart j).reductionStart j
  let d := d.setJob j { d.job j with
    st := .running, smpSeq := 0, smpGap := false, smpAt := d.now, smpBase := d.sampleCounts j, issued := [] }
  (d.cset (Cat.JOB_CONTROL j) 1).wakeRings j

theorem Dev.startJob_refused {d : Dev} {j : Nat} (h : d.startGrant j = none) :
    d.startJob j = refuse (d.lastStatus j 0x21 0) stDenied := by
  unfold Dev.startGrant at h
  unfold Dev.startJob
  dsimp only
  rw [h]

theorem Dev.startJob_granted {d g : Dev} {j : Nat} (h : d.startGrant j = some g) : d.startJob j =
    if !g.statTableOk j || !g.traceRingsOk j || !g.updateTablesOk j then refuse d stBadType
    else if g.placementOn j && !g.expertTableOk j then refuse (d.bump Cat.NMU_TABLE_REJECT) stBadType
    else if !g.shardTableOk j then refuse (d.bump Cat.RED_TABLE_REJECT) stBadType
    else ⟨g.started j, stOk, false⟩ := by
  unfold Dev.startGrant at h
  unfold Dev.startJob
  dsimp only
  rw [h]
  rfl

theorem Dev.startJob_long (d : Dev) (j : Nat) : (d.startJob j).long = false := by
  cases h : d.startGrant j with
  | none => rw [Dev.startJob_refused h]; rfl
  | some g =>
    rw [Dev.startJob_granted h]
    split
    · rfl
    · split
      · rfl
      · split <;> rfl

theorem Dev.started_running (g : Dev) (j : Nat) : ((g.started j).job j).st = .running := by
  unfold Dev.started
  dsimp only
  rw [Dev.jobStOf_wakeRings, Dev.job_cset, Dev.setJob_job]

/-! ### Stop -/

/-- A command parked when its job stops (R74). -/
def Cmd.stopsWith (j : Nat) (c : Cmd) : Cmd := if c.job = j && c.st = CmdState.parked then c.preempted else c

/-- The device after JOB_STOP, before it is looked whether the job is drained. -/
def Dev.stopping (d : Dev) (j : Nat) : Dev :=
  { d.setJob j { d.job j with st := .stopping } with
    cmds := Tbl.mapVals (fun _ c => c.stopsWith j) d.cmds }.cset (Cat.JOB_CONTROL j) 2

/-- The effect of JOB_STOP. -/
def Dev.stopWrite (j : Nat) (d : Dev) : WriteResult :=
  if (d.job j).st ≠ .running then refuse d stDenied else ⟨(d.stopping j).jobDrained j, stOk, false⟩

theorem Cmd.raise_rest (c : Cmd) (status detail : Nat) :
    (c.raise status detail).job = c.job ∧ (c.raise status detail).ring = c.ring := by
  unfold Cmd.raise
  split <;> exact ⟨rfl, rfl⟩

theorem Cmd.preempted_rest (c : Cmd) : c.preempted.job = c.job ∧ c.preempted.ring = c.ring := c.raise_rest _ _

/-- A parked command that is preempted is in flight as before, of the same job. -/
theorem Cmd.stopsWith_rest (j : Nat) (c : Cmd) : (c.stopsWith j).job = c.job ∧ (c.stopsWith j).inFlight = c.inFlight := by
  unfold Cmd.stopsWith
  split
  · next h =>
    have hp : c.st = .parked := by simp at h; exact h.2
    refine ⟨c.preempted_rest.1, ?_⟩
    unfold Cmd.preempted Cmd.inFlight
    dsimp only
    rw [hp]
    split <;> rfl
  · exact ⟨rfl, rfl⟩

/-- As many commands of a job are in flight when it stops as before. -/
theorem Dev.stopping_inFlight (d : Dev) (j : Nat) : (d.stopping j).cmds.any (fun kc => kc.2.job = j && kc.2.inFlight)
    = d.cmds.any fun kc => kc.2.job = j && kc.2.inFlight := by
  unfold Dev.stopping Dev.cset Tbl.mapVals
  dsimp only
  rw [List.any_map]
  congr 1
  funext kc
  obtain ⟨h1, h2⟩ := kc.2.stopsWith_rest j
  simp only [Function.comp, h1, h2]

theorem Dev.stopping_job (d : Dev) (j : Nat) : (d.stopping j).job j = { d.job j with st := .stopping } := d.setJob_job j _

/-- A job that stops is STOPPED when none of its commands is in flight, else STOPPING. -/
theorem Dev.stopping_drained (d : Dev) (j : Nat) : (((d.stopping j).jobDrained j).job j).st =
    if d.cmds.any (fun kc => kc.2.job = j && kc.2.inFlight) then .stopping else .stopped := by
  unfold Dev.jobDrained
  rw [d.stopping_inFlight, d.stopping_job]
  by_cases h : d.cmds.any (fun kc => kc.2.job = j && kc.2.inFlight) = true
  · rw [if_neg (by simp [h]), if_pos h, d.stopping_job]
  · rw [if_pos (by simp [h]), if_neg h, Dev.setJob_job]

/-! ### Teardown -/

/-- `e` holds the commands, rings and connections of `d`. -/
def Dev.holdsOf (d e : Dev) : Prop := e.cmds = d.cmds ∧ e.rings = d.rings ∧ e.net.conns = d.net.conns

theorem Dev.holdsOf.trans {a b c : Dev} (h : a.holdsOf b) (k : b.holdsOf c) : a.holdsOf c :=
  ⟨k.1.trans h.1, k.2.1.trans h.2.1, k.2.2.trans h.2.2⟩

theorem Dev.tracedOf.holdsOf {d e : Dev} (h : d.tracedOf e) : d.holdsOf e := ⟨h.cmds, h.rings, by rw [h.1]⟩

theorem Dev.holdsOf_revoke (d : Dev) (k tr : Nat) : d.holdsOf (d.revoke k tr) := by
  unfold Dev.revoke
  dsimp only
  split
  · exact ⟨rfl, rfl, rfl⟩
  · exact Dev.holdsOf.trans (b := d.setRegion k _) ⟨rfl, rfl, rfl⟩ (Dev.tracedOf_event _ _ _ _ _ _ _).holdsOf

/-- The device of a teardown without the job's commands and rings. -/
def Dev.bare (d : Dev) (j : Nat) : Dev :=
  { d with
    cmds := Tbl.keep (fun _ c => c.job ≠ j) d.cmds, rings := Tbl.keep (fun key _ => key / 64 ≠ j) d.rings,
    units := Tbl.mapVals (fun _ u => u.forget j) d.units }

/-- Tier 1 of a job is zeroed. -/
def Dev.zeroT1 (d : Dev) (t1 : Option T1Grant) : Dev :=
  match t1 with
  | some g => g.stretches.foldl (fun (d : Dev) (s : Nat × Nat) => { d with mem := memZero d.mem s.1 s.2 }) d
  | none => d

/-- The VALID regions of a job are revoked. -/
def Dev.revokeAll (d : Dev) (j : Nat) : Dev :=
  (d.net.regions.filter fun kr => kr.2.job = j && kr.2.st = .valid).foldl (fun d kr => d.revoke kr.1 d.now) d

/-- The quotas of a job are zero. -/
def Dev.zeroQuotas (d : Dev) (j : Nat) : Dev :=
  (List.range 6).foldl (fun d i => d.cset (Cat.MEM_QUOTA j (i + 1)) 0) (d.bset (Cat.MEM_QUOTA_T1 j) (leBytes 32 0))

theorem Dev.clearJob_eq (d : Dev) (j : Nat) : d.clearJob j =
    (((((d.bare j).zeroT1 (d.job j).t1).freeConns j).revokeAll j).zeroQuotas j).setJob j
      { Job.empty with st := .teardown, tenant := (d.job j).tenant, keySlot := (d.job j).keySlot } := by
  rfl

theorem Dev.zeroT1_holds (d : Dev) (t1 : Option T1Grant) : d.holdsOf (d.zeroT1 t1) := by
  unfold Dev.zeroT1
  split
  · refine foldl_keeps (Dev.holdsOf d) _ (fun e s he => ?_) _ d ⟨rfl, rfl, rfl⟩
    exact he
  · exact ⟨rfl, rfl, rfl⟩

theorem Dev.revokeAll_holds (d : Dev) (j : Nat) : d.holdsOf (d.revokeAll j) :=
  foldl_keeps (Dev.holdsOf d) _ (fun e _ he => he.trans (e.holdsOf_revoke _ _)) _ d ⟨rfl, rfl, rfl⟩

theorem Dev.zeroQuotas_holds (d : Dev) (j : Nat) : d.holdsOf (d.zeroQuotas j) := by
  unfold Dev.zeroQuotas
  refine foldl_keeps (Dev.holdsOf d) _ (fun e i he => ?_) _ _ ⟨rfl, rfl, rfl⟩
  exact he

/-- What is held once a job is cleared: the commands, rings and connections of the others (R73). -/
theorem Dev.clearJob_holds (d : Dev) (j : Nat) : (d.clearJob j).cmds = Tbl.keep (fun _ c => c.job ≠ j) d.cmds
    ∧ (d.clearJob j).rings = Tbl.keep (fun key _ => key / 64 ≠ j) d.rings
    ∧ (d.clearJob j).net.conns = Tbl.keep (fun _ x => x.job ≠ j) d.net.conns := by
  obtain ⟨z1, z2, z3⟩ := (d.bare j).zeroT1_holds (d.job j).t1
  have hf : (((d.bare j).zeroT1 (d.job j).t1).freeConns j).net.conns
      = Tbl.keep (fun _ x => x.job ≠ j) ((d.bare j).zeroT1 (d.job j).t1).net.conns := rfl
  obtain ⟨r1, r2, r3⟩ := ((((d.bare j).zeroT1 (d.job j).t1).freeConns j).revokeAll_holds j).trans (Dev.zeroQuotas_holds _ j)
  rw [Dev.clearJob_eq]
  exact ⟨r1.trans z1, r2.trans z2, r3.trans (hf.trans (congrArg _ z3))⟩

theorem Dev.clearJob_job (d : Dev) (j : Nat) : (d.clearJob j).job j =
    { Job.empty with st := .teardown, tenant := (d.job j).tenant, keySlot := (d.job j).keySlot } := by
  rw [Dev.clearJob_eq]
  exact Dev.setJob_job _ j _

/-- The rings of a cleared job are IDLE; those of others stay. -/
theorem Dev.clearJob_ring (d : Dev) (i j q : Nat) (hq : q < 64) :
    (d.clearJob j).ring i q = if i = j then Ring.empty else d.ring i q := by
  have hk : (64 * i + q) / 64 = i := by omega
  unfold Dev.ring Tbl.getD
  rw [(d.clearJob_holds j).2.1, Tbl.find?_keep_key (fun key => key / 64 ≠ j), hk]
  by_cases h : i = j <;> simp [h]

/-- The effect of JOB_TEARDOWN. -/
def Dev.teardownWrite (j : Nat) (d : Dev) : WriteResult :=
  if (d.job j).isStopped then ⟨(d.clearJob j).cset (Cat.JOB_CONTROL j) 3, stOk, false⟩ else refuse d stDenied

/-- The effect of JOB_START. -/
def Dev.startWrite (j : Nat) (d : Dev) : WriteResult := if (d.job j).isStopped then d.startJob j else refuse d stDenied

/-- The table of jobs without one of them. -/
theorem Dev.job_erase (d : Dev) (i j : Nat) :
    ({ d with jobs := Tbl.erase d.jobs j } : Dev).job i = if i = j then Job.empty else d.job i :=
  Tbl.getD_erase _ _ _ _

/-- Settles O41: each command is a branch on the job's state; that a start ends RUNNING needs that rings which wake leave the
states of jobs, and a stop that a preempted command is in flight as before. -/
theorem jobControl : Obligations.JobControl := by
  unfold Obligations.JobControl
  refine ⟨fun j => ?_, fun j => ?_, fun j => ?_, fun s at_ j => ?_⟩
  · refine WriteOp.of (fun _ => Dev.startWrite j) (fun _ _ => rfl) (fun _ d => ?_) fun _ d _ => ⟨fun h => ?_, fun h => ?_⟩
    · unfold Dev.startWrite
      split
      · exact d.startJob_long j
      · rfl
    · have hw : d.startWrite j = refuse d stDenied := if_neg (by rw [h]; nofun)
      rw [hw]
      exact ⟨rfl, rfl⟩
    · have hw : d.startWrite j = d.startJob j := if_pos h
      rw [hw]
      refine ⟨fun hf hn => ?_, fun g hg => ?_⟩
      · rw [Dev.startJob_refused ((if_pos hf).trans hn)]
        exact ⟨rfl, rfl⟩
      · have hs := Dev.startJob_granted (d := d) (j := j) hg
        refine ⟨fun ht => ?_, fun ht he => ?_, fun ht he hsh => ?_, fun ht he hsh => ?_⟩
        · rw [hs, if_pos (by simp only [Bool.or_eq_true, Bool.not_eq_true', ← Bool.not_eq_true]; tauto)]
          exact ⟨rfl, rfl⟩
        · rw [hs, if_neg (by simp [ht]), if_pos (by simpa using he)]
          exact ⟨rfl, rfl⟩
        · rw [hs, if_neg (by simp [ht]), if_neg (by simpa using he), if_pos (by rw [hsh]; rfl)]
          exact ⟨rfl, rfl⟩
        · rw [hs, if_neg (by simp [ht]), if_neg (by simpa using he), if_neg (by rw [hsh]; nofun)]
          refine ⟨rfl, ?_⟩
          dsimp only
          exact g.started_running j
  · refine WriteOp.of (fun _ => Dev.stopWrite j) (fun _ _ => rfl) (fun _ d => ?_) fun _ d _ => ⟨fun h => ?_, fun h => ?_⟩
    · unfold Dev.stopWrite
      split <;> rfl
    · have hw : d.stopWrite j = refuse d stDenied := if_pos h
      rw [hw]
      exact ⟨rfl, rfl⟩
    · have hw : d.stopWrite j = ⟨(d.stopping j).jobDrained j, stOk, false⟩ := if_neg (not_not_intro h)
      rw [hw]
      exact ⟨rfl, d.stopping_drained j⟩
  · refine WriteOp.of (fun _ => Dev.teardownWrite j) (fun _ _ => rfl) (fun _ d => ?_) fun _ d _ => ⟨fun h => ?_, fun h => ?_⟩
    · unfold Dev.teardownWrite
      split <;> rfl
    · have hw : d.teardownWrite j = refuse d stDenied := if_neg (by rw [h]; nofun)
      rw [hw]
      exact ⟨rfl, rfl⟩
    · have hw : d.teardownWrite j = ⟨(d.clearJob j).cset (Cat.JOB_CONTROL j) 3, stOk, false⟩ := if_pos h
      obtain ⟨hcmds, -, hconns⟩ := d.clearJob_holds j
      rw [hw]
      refine ⟨rfl, ?_, fun kc hk => ?_, fun kc hk => ?_, fun q hq => ?_, fun i q hi hq => ?_⟩
      · rw [Dev.job_cset, d.clearJob_job j]
      · rw [Dev.cset_cmds, hcmds] at hk
        simpa using (List.mem_filter.mp hk).2
      · rw [Dev.cset_net, hconns] at hk
        simpa using (List.mem_filter.mp hk).2
      · rw [Dev.ring_cset, d.clearJob_ring j j q hq, if_pos rfl]
      · rw [Dev.ring_cset, d.clearJob_ring i j q hq, if_neg hi]
  · intro d hst hreg
    refine Acts.of_eq (d := { d with jobs := Tbl.erase d.jobs j }) rfl ?_ ⟨?_, fun i hi => ?_, rfl⟩
    · exact if_pos (by rw [hst, hreg]; rfl)
    · rw [d.job_erase, if_pos rfl]
    · rw [d.job_erase, if_neg hi]

end Sys2Proof.Machine
end

section
/-! SUPPORT. Rings as RING_CONFIG and RING_CONTROL make them, and SEC_JOB_CREATE (R76 to R78, R81, R93, R157, R254, R417), and
obligation O42. -/

namespace Sys2Proof.Machine

/-! ### Commands that stay held -/

/-- Every command that `e` holds is one that `d` holds, of the same job and ring. -/
def Dev.heldOf (d e : Dev) : Prop := ∀ kc ∈ e.cmds, ∃ c, (kc.1, c) ∈ d.cmds ∧ c.job = kc.2.job ∧ c.ring = kc.2.ring

theorem Dev.heldOf.of_cmds {d e : Dev} (h : e.cmds = d.cmds) : d.heldOf e := fun kc hk => ⟨kc.2, h ▸ hk, rfl, rfl⟩

theorem Dev.heldOf.refl (d : Dev) : d.heldOf d := .of_cmds rfl

theorem Dev.heldOf.trans {a b c : Dev} (h : a.heldOf b) (k : b.heldOf c) : a.heldOf c := by
  intro kc hk
  obtain ⟨x, hx, hxj, hxr⟩ := k kc hk
  obtain ⟨y, hy, hyj, hyr⟩ := h _ hx
  exact ⟨y, hy, hyj.trans hxj, hyr.trans hxr⟩

theorem Dev.tracedOf.heldOf {d e : Dev} (h : d.tracedOf e) : d.heldOf e := .of_cmds h.cmds

/-- Commands that change, of the same job and ring. -/
theorem Dev.heldOf.of_map {d e : Dev} {f : Nat → Cmd → Cmd} (h : e.cmds = Tbl.mapVals f d.cmds)
    (hf : ∀ k c, (f k c).job = c.job ∧ (f k c).ring = c.ring) : d.heldOf e := by
  intro kc hk
  rw [h] at hk
  obtain ⟨x, hx, rfl⟩ := List.mem_map.mp hk
  exact ⟨x.2, hx, (hf _ _).1.symm, (hf _ _).2.symm⟩

/-- A held command that is replaced by one of the same job and ring. -/
theorem Dev.heldOf_setCmd {d : Dev} {k : Nat} {c x : Cmd} (h : d.cmd? k = some c) (hj : c.job = x.job) (hr : c.ring = x.ring) :
    d.heldOf (d.setCmd k x) := by
  intro kc hk
  rcases Tbl.mem_set hk with rfl | hk
  · exact ⟨c, Tbl.mem_of_find? h, hj, hr⟩
  · exact ⟨kc.2, hk, rfl, rfl⟩

theorem Dev.mem_cmds_erase {d : Dev} {k : Nat} {kc : Nat × Cmd} (h : kc ∈ Tbl.erase d.cmds k) : kc ∈ d.cmds ∧ kc.1 ≠ k := by
  rw [Tbl.erase_eq_filter] at h
  obtain ⟨h1, h2⟩ := List.mem_filter.mp h
  exact ⟨h1, by simpa using h2⟩

/-! ### Slots hold no command that was not held -/

theorem Dev.cmds_bumpBy (d : Dev) (k n : Nat) : (d.bumpBy k n).cmds = d.cmds := (d.tracedOf_bumpBy k n).cmds
theorem Dev.cmds_bump (d : Dev) (k : Nat) : (d.bump k).cmds = d.cmds := d.cmds_bumpBy k 1

/-- A held command once filler is parked (R51, R74, R93). -/
def Dev.parkedAs (d : Dev) (c : Cmd) : Cmd :=
  if d.isFiller c && c.st = .running && c.cls = 0 && c.unitsLeft ≠ 0 then
    if (d.job c.job).st = JobState.stopping then c.preempted else { c with st := .parked }
  else c

theorem Dev.heldOf_parkFiller (d : Dev) : d.heldOf d.parkFiller := by
  have h : d.parkFiller.cmds = Tbl.mapVals (fun _ c => d.parkedAs c) d.cmds := Dev.cmds_bumpBy _ _ _
  refine .of_map h fun k c => ?_
  unfold Dev.parkedAs
  split
  · split
    · exact c.preempted_rest
    · exact ⟨rfl, rfl⟩
  · exact ⟨rfl, rfl⟩

theorem Dev.cmds_raiseResync (d : Dev) (lag : Nat) : (d.raiseResync lag).cmds = d.cmds := by
  unfold Dev.raiseResync
  dsimp only
  (repeat' split) <;> rfl

theorem Dev.heldOf_startSlot (d : Dev) (n j a : Nat) : d.heldOf (d.startSlot n j a) := by
  have hin : d.heldOf ((d.advance a).inSlot n j a) := .of_cmds (d.advance_cmds a)
  have hmax (e : Dev) (lag : Nat) : e.heldOf (if e.cget Cat.TT_LAG_MAX < lag then e.cset Cat.TT_LAG_MAX lag else e) := by
    split <;> exact .of_cmds rfl
  have htrace (e : Dev) (lag : Nat) (r : TraceRec) : e.heldOf (if lag = 0 then e else e.trace r) := by
    split
    · exact .refl e
    · exact (e.tracedOf_trace r).heldOf
  refine Dev.heldOf.trans ?_ (.of_cmds (Dev.cmds_raiseResync _ _))
  exact ((hin.trans (Dev.heldOf_parkFiller _)).trans (hmax _ _)).trans (htrace _ _ _)

theorem Dev.moveEpoch_eq (d : Dev) (n m : Nat) : d.moveEpoch n m =
    if m = 0 then d
    else
      ((({ d with tt := { d.tt with epoch := d.tt.epoch + m * d.stepLen } }.bumpBy Cat.TT_LOST_STEPS m).bump
        Cat.TT_RESYNC).event 0x12 0x1F 0x91 (m % 2 ^ 16) (d.tt.epoch + m * d.stepLen) n).event 0x13 0x1F 0x91 0 d.tt.epoch 0 := by
  rfl

theorem Dev.cmds_moveEpoch (d : Dev) (n m : Nat) : (d.moveEpoch n m).cmds = d.cmds := by
  rw [Dev.moveEpoch_eq]
  split
  · rfl
  · rw [(Dev.tracedOf_event _ _ _ _ _ _ _).cmds, (Dev.tracedOf_event _ _ _ _ _ _ _).cmds, Dev.cmds_bump, Dev.cmds_bumpBy]

theorem Dev.cmds_ttHold (d : Dev) (why : HeldCause) : (d.ttHold why).cmds = d.cmds := by
  unfold Dev.ttHold
  split <;> rfl

theorem Dev.cmds_tryRejoin (d : Dev) : d.tryRejoin.cmds = d.cmds := by
  unfold Dev.tryRejoin Dev.ttArmRejoin
  split
  · dsimp only
    split
    · rw [Dev.cmds_bump, Dev.cmds_bump]
    · rw [Dev.cmds_bump]
  · rfl

/-- The end of a step up to what it asks of the timetable: the epoch has moved, and a carried request is spent (R55, R56). -/
def Dev.epochMoved (d : Dev) (n : Nat) : Dev :=
  let d := d.moveEpoch n ((d.tt.moves.filter fun p => p.1 = n).map (·.2)).sum
  let d := { d with tt := { d.tt with moves := d.tt.moves.filter fun p => n < p.1 } }
  if d.tt.reqCarried && d.tt.reqM ≠ 0 && d.tt.reqStep ≤ n then
    { d with tt := { d.tt with reqM := 0, reqCarried := false } } else d

theorem Dev.stepEnds_eq (d : Dev) (n : Nat) : d.stepEnds n =
    if n = (d.epochMoved n).cget Cat.TT_LAST_STEP then (d.epochMoved n).ttHold .lastStep
    else if (d.epochMoved n).tt.reqM ≠ 0 && !(d.epochMoved n).tt.reqCarried && (d.epochMoved n).tt.reqStep + 1 ≤ n then
      ({ d.epochMoved n with tt := { (d.epochMoved n).tt with reqM := 0 } }.ttHold .selfRejoin).tryRejoin
    else d.epochMoved n := rfl

theorem Dev.cmds_stepEnds (d : Dev) (n : Nat) : (d.stepEnds n).cmds = d.cmds := by
  have hm : (d.epochMoved n).cmds = d.cmds := by
    unfold Dev.epochMoved
    dsimp only
    split <;> exact d.cmds_moveEpoch _ _
  rw [Dev.stepEnds_eq]
  split
  · rw [Dev.cmds_ttHold, hm]
  · split
    · rw [Dev.cmds_tryRejoin, Dev.cmds_ttHold]
      exact hm
    · exact hm

/-- A CLOSED slot, and the step that ends with it, where it is the last (R39, R45, R57). -/
def Dev.slotLeft (d : Dev) (t : Nat) : Dev :=
  if d.tt.slot + 1 < d.slots.length then d
  else
    let e := d.stepEnds d.tt.step
    if e.tt.st = .running then e else { e with tt := { e.tt with ended := e.tt.ended ++ [(d.tt.step, t)] } }

theorem Dev.closeSlot_eq (d : Dev) (t : Nat) : d.closeSlot t = (((d.advance t).slotClosed t).slotLeft t).afterClose t := by
  rfl

theorem Dev.cmds_slotLeft (d : Dev) (t : Nat) : (d.slotLeft t).cmds = d.cmds := by
  unfold Dev.slotLeft
  dsimp only
  split
  · rfl
  · split <;> exact d.cmds_stepEnds _

theorem Dev.heldOf_afterClose (d : Dev) (t : Nat) : d.heldOf (d.afterClose t) := by
  unfold Dev.afterClose
  split
  · exact .refl d
  · split
    · exact d.heldOf_startSlot _ _ _
    · exact .of_cmds rfl

theorem Dev.heldOf_closeSlot (d : Dev) (t : Nat) : d.heldOf (d.closeSlot t) := by
  have hc : d.heldOf ((d.advance t).slotClosed t) := .of_cmds (d.advance_cmds t)
  rw [Dev.closeSlot_eq]
  exact (hc.trans (.of_cmds (Dev.cmds_slotLeft _ t))).trans (Dev.heldOf_afterClose _ t)

/-- The instant at which firm work ended is noted, and its overrun counted once (R45, R48). -/
def Dev.firmEnded (d : Dev) (t : Nat) : Dev :=
  let d := { d with tt := { d.tt with lastFirmEnd := max d.tt.lastFirmEnd t } }
  if d.firmPartEnd < t && !d.tt.firmDone then { d with tt := { d.tt with firmDone := true } }.bump Cat.TT_FIRM_OVERRUN else d

/-- The slot after a firm command that has ended (R61). -/
def Dev.afterFirm (d : Dev) (t : Nat) : Dev :=
  if d.firmRunning then d
  else
    match d.tt.slotSt with
    | .overrun => if t < d.plannedEnd then { d with tt := { d.tt with slotSt := .slack } } else d
    | .late => d.closeSlot t
    | _ => d

theorem Dev.slotOnRetire_eq (d : Dev) (c : Cmd) (t : Nat) : d.slotOnRetire c t =
    if d.tt.st ≠ .running || !c.firm || c.step ≠ d.tt.step || c.slot ≠ d.tt.slot then d else (d.firmEnded t).afterFirm t := by
  rfl

/-- A firm command that goes may close its slot, and holds no command anew. -/
theorem Dev.heldOf_slotOnRetire (d : Dev) (c : Cmd) (t : Nat) : d.heldOf (d.slotOnRetire c t) := by
  have hend : d.heldOf (d.firmEnded t) := by
    unfold Dev.firmEnded
    dsimp only
    split
    · exact .of_cmds (Dev.cmds_bump _ _)
    · exact .of_cmds rfl
  rw [Dev.slotOnRetire_eq]
  split
  · exact .refl d
  · refine hend.trans ?_
    unfold Dev.afterFirm
    split
    · exact .refl _
    · split
      · split
        · exact .of_cmds rfl
        · exact .refl _
      · exact Dev.heldOf_closeSlot _ _
      · exact .refl _

theorem Dev.heldOf_jobDrained (d : Dev) (j : Nat) : d.heldOf (d.jobDrained j) := by
  unfold Dev.jobDrained
  split <;> exact .of_cmds rfl

/-! ### A command that is abandoned -/

theorem Dev.cmds_freeEngines (d : Dev) (u : Nat) (es : List Nat) : (es.foldl (fun (d : Dev) e =>
    let x := d.engine u e
    let n := x.tiles.length
    let d := d.setEngine u e { x with owner := none, tiles := [], queue := [], ramp := .full, overhang := false }
    (d.bumpBy (Cat.ENG_TILE_DISCARD u e) n).bumpBy Cat.ENG_TILE_DISCARD_TOTAL n) d).cmds = d.cmds := by
  refine foldl_keeps (fun e : Dev => e.cmds = d.cmds) _ (fun e i he => ?_) es d rfl
  dsimp only
  rw [Dev.cmds_bumpBy, Dev.cmds_bumpBy]
  exact he

theorem Dev.heldOf_freePart (d : Dev) (u k : Nat) : d.heldOf (d.freePart u k) := by
  have he := d.cmds_freeEngines u (d.ownedEngines u k)
  unfold Dev.freePart
  dsimp only at he ⊢
  generalize (d.ownedEngines u k).foldl _ d = e at he ⊢
  refine Dev.heldOf.trans (.of_cmds he) ?_
  split
  · exact .of_cmds rfl
  · next c hc =>
    exact Dev.heldOf.trans (b := e.setUnit u _) (.of_cmds rfl) (Dev.heldOf_setCmd hc rfl rfl)

/-- The unit of an abandoned command without its bundles and slips, and its part there freed. -/
def Dev.clearUnit (d : Dev) (k u : Nat) : Dev :=
  (d.setUnit u { d.unit u with
    bundles := Tbl.keep (fun _ b => b.cmd ≠ k) (d.unit u).bundles,
    mover := { (d.unit u).mover with queue := (d.unit u).mover.queue.filter (fun s => s.cmd ≠ k),
                                     ctx := Tbl.keep (fun _ s => s.cmd ≠ k) (d.unit u).mover.ctx } }).freePart u k

/-- A command's units cleared, and the command gone. -/
def Dev.dropCmd (d : Dev) (k : Nat) (c : Cmd) : Dev :=
  let d := (setBits 72 c.unitsOn).foldl (fun d u => d.clearUnit k u) d
  { d with cmds := Tbl.erase d.cmds k, gathers := d.gathers.filter fun g => g.1 ≠ k }

theorem Dev.abandon_eq {d : Dev} {k : Nat} {c : Cmd} (h : d.cmd? k = some c) : d.abandon k =
    if c.inFlight then ((d.dropCmd k c).slotOnRetire c (d.dropCmd k c).now).jobDrained c.job else d.dropCmd k c := by
  unfold Dev.abandon
  rw [h]
  rfl

/-- What is held after a command was dropped was held before, and is another command. -/
theorem Dev.dropCmd_held (d : Dev) (k : Nat) (c : Cmd) :
    d.heldOf (d.dropCmd k c) ∧ ∀ kc ∈ (d.dropCmd k c).cmds, kc.1 ≠ k := by
  have hf : d.heldOf ((setBits 72 c.unitsOn).foldl (fun d u => d.clearUnit k u) d) := by
    refine foldl_keeps (Dev.heldOf d) _ (fun e u he => he.trans ?_) _ d (.refl d)
    exact Dev.heldOf.trans (b := e.setUnit u _) (.of_cmds rfl) (Dev.heldOf_freePart _ u k)
  exact ⟨fun kc hk => hf kc (Dev.mem_cmds_erase hk).1, fun kc hk => (Dev.mem_cmds_erase hk).2⟩

/-- What is held after a command was abandoned was held before, and is another command. -/
theorem Dev.abandon_held (d : Dev) (k : Nat) : d.heldOf (d.abandon k) ∧ ∀ kc ∈ (d.abandon k).cmds, kc.1 ≠ k := by
  cases hc : d.cmd? k with
  | none =>
    have ha : d.abandon k = d := by unfold Dev.abandon; rw [hc]
    rw [ha]
    refine ⟨.refl d, fun kc hk he => ?_⟩
    have hs := Tbl.find?_isSome_of_mem hk
    rw [he] at hs
    unfold Dev.cmd? at hc
    rw [hc] at hs
    nomatch hs
  | some c =>
    obtain ⟨h1, h2⟩ := d.dropCmd_held k c
    rw [Dev.abandon_eq hc]
    split
    · have hr := (Dev.heldOf_slotOnRetire (d.dropCmd k c) c (d.dropCmd k c).now).trans (Dev.heldOf_jobDrained _ c.job)
      refine ⟨h1.trans hr, fun kc hk => ?_⟩
      obtain ⟨x, hx, -, -⟩ := hr kc hk
      exact h2 (kc.1, x) hx
    · exact ⟨h1, h2⟩

/-- No command of a list is held once all of it was abandoned. -/
theorem Dev.abandonAll_held (l : List (Nat × Cmd)) (d : Dev) : d.heldOf (l.foldl (fun d kc => d.abandon kc.1) d)
    ∧ ∀ kc ∈ (l.foldl (fun d kc => d.abandon kc.1) d).cmds, ∀ x ∈ l, kc.1 ≠ x.1 := by
  induction l generalizing d with
  | nil => exact ⟨.refl d, fun _ _ _ hx => nomatch hx⟩
  | cons y t ih =>
    obtain ⟨a1, a2⟩ := d.abandon_held y.1
    obtain ⟨i1, i2⟩ := ih (d.abandon y.1)
    refine ⟨a1.trans i1, fun kc hk x hx => ?_⟩
    rcases List.mem_cons.mp hx with rfl | hx
    · obtain ⟨z, hz, -, -⟩ := i1 kc hk
      exact a2 (kc.1, z) hz
    · exact i2 kc hk x hx

/-- A ring that is discarded holds no command. -/
theorem Dev.discardRing_held (d : Dev) (j q : Nat) : ∀ kc ∈ (d.discardRing j q).cmds, ¬ (kc.2.job = j ∧ kc.2.ring = q) := by
  rintro kc hk ⟨hj, hq⟩
  obtain ⟨h1, h2⟩ := Dev.abandonAll_held (d.cmds.filter fun kc => kc.2.job = j && kc.2.ring = q) d
  obtain ⟨c, hc, hcj, hcr⟩ := h1 kc hk
  exact h2 kc hk (kc.1, c) (List.mem_filter.mpr ⟨hc, by simp [hcj, hcr, hj, hq]⟩) rfl

/-! ### RING_CONTROL -/

/-- The effect of a RING_CONTROL command that takes the ring on by `f`, which answers none where R81 lists no transition. -/
def Dev.ringWrite (j q v : Nat) (f : Dev → Option Dev) (d : Dev) : WriteResult :=
  match f d with
  | some d => ⟨d.cset (Cat.RING_CONTROL j q) v, stOk, false⟩
  | none => refuse d stDenied

theorem Dev.ringWrite_some {d e : Dev} {j q v : Nat} {f : Dev → Option Dev} (h : f d = some e) :
    d.ringWrite j q v f = ⟨e.cset (Cat.RING_CONTROL j q) v, stOk, false⟩ := by
  unfold Dev.ringWrite
  rw [h]

theorem Dev.ringWrite_none {d : Dev} {j q v : Nat} {f : Dev → Option Dev} (h : f d = none) :
    d.ringWrite j q v f = refuse d stDenied := by
  unfold Dev.ringWrite
  rw [h]

/-- A RING_CONTROL command, once admitted, acts by its transition. -/
theorem WriteOp.of_ringControl {mk : Req → Instr} {j q v : Nat} {P : Dev → Req → Dev → Nat → Prop} (f : Dev → Option Dev)
    (he : ∀ r s, exec (mk r) s = lift (ringControl r j q v f) s)
    (hp : ∀ d r, P d r (d.ringWrite j q v f).dev (d.ringWrite j q v f).status) :
    WriteOp mk (0x2200 + 64 * j + q) 2 (leBytes 1 v) .byTable (fun _ => j < 16 && q < 64) P := by
  refine WriteOp.of (fun _ => Dev.ringWrite j q v f) he (fun _ d => ?_) fun r d _ => hp d r
  unfold Dev.ringWrite
  split <;> rfl

/-- A ring that is set ACTIVE takes its pushed entries and looks at its oldest command. -/
def Dev.wakeRing (d : Dev) (j q : Nat) : Dev := (d.takePushed j q (d.ring j q).pushed.length).promote j q

/-- Restart: a STOPPED ring goes on, a HALTED one without its halted commands (R81). -/
def restarted? (j q : Nat) (d : Dev) : Option Dev :=
  if (d.ring j q).st = .stopped || (d.ring j q).st = .halted then
    let halted : Bool := (d.ring j q).st = RingState.halted
    let e : Dev := if halted then (d.ring j q).haltedCmds.foldl (fun d k => d.abandon k) d else d
    some ((e.setRing j q { e.ring j q with st := .active, haltedCmds := if halted then [] else (d.ring j q).haltedCmds }).wakeRing
      j q)
  else none

theorem restarted?_of_stopped {d : Dev} {j q : Nat} (h : (d.ring j q).st = .stopped) :
    restarted? j q d = some ((d.setRing j q { d.ring j q with st := .active }).wakeRing j q) := by
  unfold restarted?
  rw [if_pos (by rw [h]; rfl)]
  dsimp only
  rw [h]
  rfl

theorem restarted?_of_halted {d : Dev} {j q : Nat} (h : (d.ring j q).st = .halted) :
    restarted? j q d = some ((((d.ring j q).haltedCmds.foldl Dev.abandon d).setRing j q
      { ((d.ring j q).haltedCmds.foldl Dev.abandon d).ring j q with st := .active, haltedCmds := [] }).wakeRing j q) := by
  unfold restarted?
  rw [if_pos (by rw [h]; rfl)]
  dsimp only
  rw [h]
  rfl

/-- Resume: a HALTED ring goes on with its halted commands (R81, R93). -/
def resumedRing? (j q : Nat) (d : Dev) : Option Dev :=
  if (d.ring j q).st ≠ .halted then none
  else some (((d.ring j q).haltedCmds.foldl Dev.resumeCommand
    (d.setRing j q { d.ring j q with st := .active, haltedCmds := [] })).wakeRing j q)

/-- Reset: a ring of a stopped job is empty (R81). -/
def reset? (j q : Nat) (d : Dev) : Option Dev :=
  if !(d.job j).isStopped || (d.ring j q).st = .idle then none
  else some ((d.discardRing j q).setRing j q { Ring.empty with st := .active, record := (d.ring j q).record })

/-! ### SEC_JOB_CREATE -/

theorem Dev.zeroQuotas_keeps (d : Dev) (j : Nat) : (d.zeroQuotas j).jobs = d.jobs ∧ (d.zeroQuotas j).mem = d.mem := by
  unfold Dev.zeroQuotas
  refine foldl_keeps (fun e : Dev => e.jobs = d.jobs ∧ e.mem = d.mem) _ (fun e i he => ?_) _ _ ⟨rfl, rfl⟩
  exact he

/-- The device with job `j` CREATED for a key slot and its tenant (R417). -/
def Dev.createdJob (d : Dev) (slot j : Nat) : Dev :=
  ((((d.setJob j { Job.empty with
      st := .created, tenant := ((Tbl.find? d.keys slot).map (·.tenant)).getD 0, keySlot := slot }).zeroQuotas j).cset
    (Cat.NUM_LAST_ROLL_STEP j) 0xFFFFFFFF).bset Cat.SEC_JOB_CREATE (leBytes 2 (slot + 256 * j)))

/-- The effect of SEC_JOB_CREATE. -/
def Dev.createWrite (r : Req) (slot job : Nat) (d : Dev) : WriteResult :=
  if !d.holdsSlot r slot then refuse d stDenied
  else
    match d.freeJob job with
    | none => refuse d stDenied
    | some j => ⟨((d.createdJob slot j).catTrace r none 0x7010 4 (leBytes 2 (slot % 256 + 256 * job))).answer r stOk 0
        (leBytes 1 j) 0x7010 4 1, stOk, true⟩

theorem execSecJobCreateD_eq (r : Req) (slot job : Nat) : execSecJobCreateD r slot job =
    catWrite r 0x7010 4 (leBytes 2 (slot % 256 + 256 * job)) .anyProtected (fun _ => slot < 64 && (job < 16 || job = 0xFF))
      (Dev.createWrite r slot job) := by
  unfold execSecJobCreateD
  refine congrArg (catWrite r 0x7010 4 (leBytes 2 (slot % 256 + 256 * job)) .anyProtected
    (fun _ => slot < 64 && (job < 16 || job = 0xFF))) (funext fun d => ?_)
  unfold Dev.createWrite
  split
  · rfl
  · cases d.freeJob job with
    | none => rfl
    | some j =>
      unfold Dev.createdJob
      cases Tbl.find? d.keys slot <;> rfl

theorem Dev.createdJob_effect (d : Dev) (slot j : Nat) :
    (d.createdJob slot j).job j = { Job.empty with
        st := .created, tenant := ((Tbl.find? d.keys slot).map (·.tenant)).getD 0, keySlot := slot }
      ∧ (∀ i, i ≠ j → (d.createdJob slot j).job i = d.job i) ∧ (d.createdJob slot j).mem = d.mem
      ∧ (d.createdJob slot j).cget (Cat.NUM_LAST_ROLL_STEP j) = 0xFFFFFFFF := by
  obtain ⟨hjobs, hmem⟩ := (d.setJob j { Job.empty with
    st := .created, tenant := ((Tbl.find? d.keys slot).map (·.tenant)).getD 0, keySlot := slot }).zeroQuotas_keeps j
  have hj (i : Nat) : (d.createdJob slot j).job i = (d.setJob j { Job.empty with
      st := .created, tenant := ((Tbl.find? d.keys slot).map (·.tenant)).getD 0, keySlot := slot }).job i := by
    unfold Dev.createdJob Dev.job
    rw [Dev.bset_jobs, Dev.cset_jobs, hjobs]
  refine ⟨?_, fun i hi => ?_, ?_, ?_⟩
  · rw [hj j, Dev.setJob_job]
  · rw [hj i, Dev.job_setJob, if_neg hi]
  · unfold Dev.createdJob
    rw [Dev.bset_mem, Dev.cset_mem, hmem]
    rfl
  · unfold Dev.createdJob
    rw [Dev.cget_bset, Dev.cget_cset, if_pos rfl]

/-- The effect of RING_CONFIG. -/
def Dev.configWrite (j q : Nat) (rec_ : List Byte) : Dev → WriteResult :=
  okWith fun d => ((d.discardRing j q).bset (Cat.RING_CONFIG j q) rec_).setRing j q
    { Ring.empty with st := .active, record := leNat rec_ }

/-- Settles O42: each RING_CONTROL command is a branch on the ring's state; that a discarded ring holds no command needs that
abandoning one holds none anew. -/
theorem ringsAreConfiguredAndControlled : Obligations.RingsAreConfiguredAndControlled := by
  unfold Obligations.RingsAreConfiguredAndControlled
  refine ⟨fun j q rec_ => ?_, fun j q => ?_, fun j q => ?_, fun j q => ?_, fun s r slot job j d1 hadm => ?_⟩
  · refine WriteOp.of (fun _ => Dev.configWrite j q rec_) (fun _ _ => rfl) (fun _ _ => rfl) fun _ d _ => ⟨rfl, ?_⟩
    unfold Dev.configWrite okWith
    dsimp only
    rw [Dev.setRing_ring]
    exact ⟨rfl, d.discardRing_held j q⟩
  · refine WriteOp.of_ringControl (restarted? j q) (fun _ _ => rfl) fun d _ => ⟨fun h1 h2 => ?_, fun h => ?_, fun h => ?_⟩
    · have hn : restarted? j q d = none := if_neg (by simp [h1, h2])
      rw [Dev.ringWrite_none hn]
      exact ⟨rfl, rfl⟩
    · rw [Dev.ringWrite_some (restarted?_of_stopped h)]
      unfold Dev.wakeRing
      rw [Dev.setRing_ring]
      exact ⟨rfl, rfl⟩
    · rw [Dev.ringWrite_some (restarted?_of_halted h)]
      unfold Dev.wakeRing
      rw [Dev.setRing_ring]
      exact ⟨rfl, rfl⟩
  · refine WriteOp.of_ringControl (resumedRing? j q) (fun _ _ => rfl) fun d _ => ⟨fun h => ?_, fun h => ?_⟩
    · rw [Dev.ringWrite_none (if_pos h)]
      exact ⟨rfl, rfl⟩
    · rw [Dev.ringWrite_some (if_neg (not_not_intro h))]
      exact ⟨rfl, rfl⟩
  · refine WriteOp.of_ringControl (reset? j q) (fun _ _ => rfl) fun d _ => ⟨fun h => ?_, fun h1 h2 => ?_⟩
    · rw [Dev.ringWrite_none (if_pos (by simpa using h))]
      exact ⟨rfl, rfl⟩
    · rw [Dev.ringWrite_some (if_neg (by simp [h1, h2]))]
      dsimp only
      rw [Dev.ring_cset, Dev.setRing_ring]
      exact ⟨rfl, rfl, d.discardRing_held j q⟩
  · have he : exec (.secJobCreate r slot job) s = lift (catWrite r 0x7010 4 (leBytes 2 (slot % 256 + 256 * job)) .anyProtected
        (fun _ => slot < 64 && (job < 16 || job = 0xFF)) (Dev.createWrite r slot job)) s :=
      congrArg (lift · s) (execSecJobCreateD_eq r slot job)
    refine ⟨fun hh => ?_, fun hh hf => ?_, fun hh hf => ?_⟩
    · have hw : d1.createWrite r slot job = refuse d1 stDenied := if_pos (by rw [hh]; rfl)
      refine Acts.of_eq he ((catWrite_admits hadm _).trans (by rw [hw])) ?_
      rfl
    · have hw : d1.createWrite r slot job = refuse d1 stDenied := by
        unfold Dev.createWrite
        rw [if_neg (by rw [hh]; nofun), hf]
      refine Acts.of_eq he ((catWrite_admits hadm _).trans (by rw [hw])) ?_
      rfl
    · have hw : d1.createWrite r slot job = ⟨((d1.createdJob slot j).catTrace r none 0x7010 4
          (leBytes 2 (slot % 256 + 256 * job))).answer r stOk 0 (leBytes 1 j) 0x7010 4 1, stOk, true⟩ := by
        unfold Dev.createWrite
        rw [if_neg (by rw [hh]; nofun), hf]
      obtain ⟨h1, h2, h3, h4⟩ := d1.createdJob_effect slot j
      refine Acts.of_eq he ((catWrite_admits hadm _).trans (by rw [hw])) ?_
      exact ⟨d1.createdJob slot j, h1, h2, h3, h4, rfl⟩

end Sys2Proof.Machine
end

section
/-! SUPPORT. TENS, TWAIT, STRM, SWAIT, STATMX and SEAL once they have issued (R195 to R198), and obligation O19. -/

namespace Sys2Proof.Machine

/-! ### Issue -/

/-- A thread instruction works in a context of its own unit and slot: its effect may name both by the context. -/
theorem Dev.thread_congr_slot {u b : Nat} {w : TWord} {used : Nat} {bad : Nat → List Nat}
    {ready : Dev → Cmd → Bundle → Bool} {run run' : TCtx → Dev → Dev}
    (h : ∀ t d, t.u = u → t.b = b → run t d = run' t d) :
    Dev.thread u b w used bad ready run = Dev.thread u b w used bad ready run' := by
  funext d
  unfold Dev.thread
  simp only [h { u := u, b := b, k := _, cmd := _, x := _, n := _, act := _ } _ rfl rfl]

/-- Issuing leaves a unit as it is, but for its bundles. -/
theorem Dev.unit_issue (d : Dev) (t : TCtx) (v : Nat) :
    (d.issue t).unit v = { d.unit v with bundles := ((d.issue t).unit v).bundles } := by
  unfold Dev.issue
  rw [Dev.unit_setBundle]
  split
  · next h => subst h; rfl
  · rfl

theorem Dev.engine_issue (d : Dev) (t : TCtx) (v i : Nat) : (d.issue t).engine v i = d.engine v i := by
  unfold Dev.engine
  rw [Dev.unit_issue]

theorem Dev.mover_issue (d : Dev) (t : TCtx) (v : Nat) : ((d.issue t).unit v).mover = (d.unit v).mover := by
  rw [Dev.unit_issue]

theorem Dev.engine_setBundle (d : Dev) (u b v i : Nat) (x : Bundle) :
    (d.setBundle u b x).engine v i = d.engine v i := by
  unfold Dev.engine
  rw [Dev.unit_setBundle]
  split
  · next h => subst h; rfl
  · rfl

@[simp] theorem Dev.issue_mem (d : Dev) (t : TCtx) : (d.issue t).mem = d.mem := by simp [Dev.issue]

/-! ### TENS (R115, R195) -/

/-- The device once a word is queued on engine `e`, and its bundle has counted it. -/
def Dev.tensQueued (d : Dev) (t : TCtx) (e : Nat) : Dev :=
  let n := tensWord t.x t.n
  (d.setEngine t.u e { d.engine t.u e with
    queue := (d.engine t.u e).queue ++ [{ slot := t.b, word := n, started := false }] }).putBundle t
      { t.x with tens := Tbl.set t.x.tens (tEngine n) (Tbl.getD t.x.tens (tEngine n) 0 + 1) }

/-- What TENS does once it has issued, by the checks `bad` of a word: they stay a variable in the lemmas about its branches,
since a comparison that unfolds them would compute with words of 128 bits. -/
def tensRunBy (bad : (u k e : Nat) → Cmd → Nat → List Nat) (t : TCtx) (d : Dev) : Dev :=
  if t.act.isEmpty then d
  else
    let n := tensWord t.x t.n
    let named := d.wordEngine t.u t.k n
    if tOp n = 4 && d.cget (Cat.ENG_ACC_DEBUG t.cmd.job) = 0 then
      d.rejectWord t.u t.b t.k (named.getD (tEngine n)) 0x31 0
    else
      match named with
      | none => d.rejectWord t.u t.b t.k (tEngine n) 0x30 ((d.wordBad t.u t.k t.cmd n none).min?.getD 121)
      | some e =>
        match (bad t.u t.k e t.cmd n).min? with
        | some o => d.rejectWord t.u t.b t.k e 0x30 o
        | none =>
          let x := d.engine t.u e
          let d := d.setEngine t.u e { x with queue := x.queue ++ [{ slot := t.b, word := n, started := false }] }
          d.putBundle t { t.x with tens := Tbl.set t.x.tens (tEngine n) (Tbl.getD t.x.tens (tEngine n) 0 + 1) }

/-- What TENS does once it has issued (R114, R115, R195). -/
def tensRun (t : TCtx) (d : Dev) : Dev := tensRunBy d.tensorBad t d

/-- What TENS waits for: a free place in the queue of the engine that its word names (R195). -/
def tensRoom (u _ : Nat) (w : TWord) (d : Dev) (_ : Cmd) (x : Bundle) : Bool :=
  (x.active w.toNat).isEmpty ||
    match d.wordEngine u x.cmd (tensWord x w.toNat) with
    | none => true
    | some e => (d.engine u e).queue.length < 16

theorem execTensD_eq (u b : Nat) (w : TWord) :
    execTensD u b w = Dev.thread u b w (mA + mB) noBad (tensRoom u b w) tensRun :=
  Dev.thread_congr_slot fun t d hu hb => by subst hu hb; rfl

theorem exec_tens (u b : Nat) (w : TWord) (s : State) :
    exec (.tens u b w) s = lift (Dev.fetched (opcOf (.tens u b w)) u b w (execTensD u b w)) s := rfl

theorem tensRoom_of {u b : Nat} {w : TWord} {d : Dev} {c : Cmd} {x : Bundle}
    (h : x.active w.toNat = [] ∨ ∀ e, d.wordEngine u x.cmd (tensWord x w.toNat) = some e → (d.engine u e).queue.length < 16) :
    tensRoom u b w d c x = true := by
  unfold tensRoom
  rcases h with h | h
  · simp [h]
  · cases he : d.wordEngine u x.cmd (tensWord x w.toNat) with
    | none => simp
    | some e => simp [h e he]

section
variable {bad : (u k e : Nat) → Cmd → Nat → List Nat} {t : TCtx} {d : Dev}

theorem tensRunBy_idle (h : t.act = []) : tensRunBy bad t d = d := by simp [tensRunBy, h]

variable (ha : t.act ≠ [])
include ha

/-- A DEBUG_READ that its job may not issue is refused as such (R115). -/
theorem tensRunBy_debugDenied (ho : tOp (tensWord t.x t.n) = 4) (hd : d.cget (Cat.ENG_ACC_DEBUG t.cmd.job) = 0) :
    tensRunBy bad t d = d.rejectWord t.u t.b t.k
      ((d.wordEngine t.u t.k (tensWord t.x t.n)).getD (tEngine (tensWord t.x t.n))) 0x31 0 := by
  unfold tensRunBy
  rw [if_neg (by simpa using ha)]
  exact if_pos (by simp [ho, hd])

variable (hd : tOp (tensWord t.x t.n) = 4 → d.cget (Cat.ENG_ACC_DEBUG t.cmd.job) ≠ 0)
include hd

/-- A word for an engine that the command does not have is rejected (R106, R114). -/
theorem tensRunBy_noEngine {o : Nat} (he : d.wordEngine t.u t.k (tensWord t.x t.n) = none)
    (ho : (d.wordBad t.u t.k t.cmd (tensWord t.x t.n) none).min? = some o) :
    tensRunBy bad t d = d.rejectWord t.u t.b t.k (tEngine (tensWord t.x t.n)) 0x30 o := by
  unfold tensRunBy
  rw [if_neg (by simpa using ha)]
  refine (if_neg (by simpa using hd)).trans ?_
  rw [he, ho]
  rfl

theorem tensRunBy_malformed {e o : Nat} (he : d.wordEngine t.u t.k (tensWord t.x t.n) = some e)
    (ho : (bad t.u t.k e t.cmd (tensWord t.x t.n)).min? = some o) :
    tensRunBy bad t d = d.rejectWord t.u t.b t.k e 0x30 o := by
  unfold tensRunBy
  rw [if_neg (by simpa using ha)]
  refine (if_neg (by simpa using hd)).trans ?_
  simp only [he, ho]

theorem tensRunBy_queues {e : Nat} (he : d.wordEngine t.u t.k (tensWord t.x t.n) = some e)
    (ho : bad t.u t.k e t.cmd (tensWord t.x t.n) = []) : tensRunBy bad t d = d.tensQueued t e := by
  unfold tensRunBy
  rw [if_neg (by simpa using ha)]
  refine (if_neg (by simpa using hd)).trans ?_
  simp only [he, ho, List.min?_nil]
  rfl

end

/-- What is queued by an instruction that issues: the word, behind what the engine held. -/
theorem Dev.queue_tensQueued_issue (d : Dev) (t : TCtx) (e : Nat) :
    (((d.issue t).tensQueued t e).engine t.u e).queue
      = (d.engine t.u e).queue ++ [{ slot := t.b, word := tensWord t.x t.n, started := false }] := by
  unfold Dev.tensQueued Dev.putBundle
  rw [Dev.engine_setBundle, Dev.engine_setEngine, if_pos ⟨rfl, rfl⟩, Dev.engine_issue]

/-! ### TWAIT (R196) -/

section
variable {d : Dev} {u b : Nat} {x : Bundle} {c : Cmd} {w : TWord} (h : Issues d u b x c) (hw : Only w (mk 0 8))
include h hw

/-- Where TWAIT waits for nothing, its bundle goes on as it is. -/
theorem execTwaitD_goesOn
    (hd : x.active w.toNat = [] ∨ Tbl.getD x.tens (fld w.toNat 0 3) 0 ≤ fld w.toNat 3 5) :
    execTwaitD u b w d = (d.issue (ctx u b x c w)).putBundle (ctx u b x c w) (ctx u b x c w).x := by
  by_cases ha : x.active w.toNat = []
  · exact Dev.uniformOp_idle h hw rfl ha
  · exact (Dev.uniformOp_active h hw rfl ha).trans (congrArg _ (if_pos (hd.resolve_left ha)))

theorem execTwaitD_waits (ha : x.active w.toNat ≠ [])
    (hd : fld w.toNat 3 5 < Tbl.getD x.tens (fld w.toNat 0 3) 0) :
    execTwaitD u b w d = (d.issue (ctx u b x c w)).putBundle (ctx u b x c w)
      { (ctx u b x c w).x with wait := .twait (fld w.toNat 0 3) (fld w.toNat 3 5) } :=
  (Dev.uniformOp_active h hw rfl ha).trans (congrArg _ (if_neg (Nat.not_le.mpr hd)))

end

/-! ### STRM, SWAIT (R197, R236 to R239, R253) -/

/-- What STRM.RUN does once it has issued. -/
def strmRunRun (t : TCtx) (d : Dev) : Dev :=
  if t.act.isEmpty then d
  else
    match d.runBad t.u t.cmd (strmWord t.x t.n) with
    | some o => d.stopBundle t.u t.b t.k 0x30 o
    | none => d.postRun t.u t.k (d.runParam t.u (strmWord t.x t.n)) (fld (strmWord t.x t.n) 16 16 * unitGranule t.u)

/-- What STRM.RUN waits for: room for its run in the unit's queue and among its declarations (R238). -/
def strmRoom (u _ : Nat) (w : TWord) (d : Dev) (c : Cmd) (x : Bundle) : Bool :=
  let v := strmWord x w.toNat
  fld v 60 4 ≠ 2 && ((x.active w.toNat).isEmpty || (d.runBad u c v).isSome
    || (d.unit u).mover.room x.cmd (paramDecls u (d.runParam u v)))

theorem execStrmRunD_eq (u b : Nat) (w : TWord) :
    execStrmRunD u b w = Dev.thread u b w mA noBad (strmRoom u b w) strmRunRun :=
  Dev.thread_congr_slot fun t d hu hb => by subst hu hb; rfl

theorem exec_strmRun (u b : Nat) (w : TWord) (s : State) :
    exec (.strmRun u b w) s = lift (Dev.fetched (opcOf (.strmRun u b w)) u b w (execStrmRunD u b w)) s := rfl

theorem strmRoom_of {u b : Nat} {w : TWord} {d : Dev} {c : Cmd} {x : Bundle}
    (h : fld (strmWord x w.toNat) 60 4 ≠ 2 ∧ (x.active w.toNat = [] ∨ (d.runBad u c (strmWord x w.toNat)).isSome
      ∨ (d.unit u).mover.room x.cmd (paramDecls u (d.runParam u (strmWord x w.toNat))))) : strmRoom u b w d c x = true := by
  obtain ⟨hop, hroom⟩ := h
  unfold strmRoom
  rcases hroom with h | h | h <;> simp [hop, h]

theorem strmRunRun_idle {t : TCtx} (d : Dev) (h : t.act = []) : strmRunRun t d = d := by simp [strmRunRun, h]

theorem strmRunRun_posts {t : TCtx} {d : Dev} (ha : t.act ≠ []) (h : d.runBad t.u t.cmd (strmWord t.x t.n) = none) :
    strmRunRun t d
      = d.postRun t.u t.k (d.runParam t.u (strmWord t.x t.n)) (fld (strmWord t.x t.n) 16 16 * unitGranule t.u) := by
  simp [strmRunRun, ha, h]

theorem strmRunRun_stops {t : TCtx} {d : Dev} {o : Nat} (ha : t.act ≠ [])
    (h : d.runBad t.u t.cmd (strmWord t.x t.n) = some o) : strmRunRun t d = d.stopBundle t.u t.b t.k 0x30 o := by
  simp [strmRunRun, ha, h]

/-- The buffer that STRM.FREE names among the declarations of its command (R237). -/
def Dev.freedDecl (d : Dev) (t : TCtx) : Option Decl :=
  (d.unit t.u).mover.decls.find? fun y => y.cmd = t.k && y.buf = fld (strmWord t.x t.n) 0 4

/-- What STRM.FREE does once it has issued. -/
def strmFreeRun (t : TCtx) (d : Dev) : Dev :=
  if t.act.isEmpty then d
  else
    match (strmBad (strmWord t.x t.n)).min? with
    | some o => d.stopBundle t.u t.b t.k 0x30 o
    | none =>
      match d.freedDecl t with
      | some y =>
        if y.st = .full then (d.setMover t.u ((d.unit t.u).mover.setBuf y.slip y.buf .empty)).settleMover t.u
        else d.bump Cat.STRM_FREE_EXTRA
      | none => d.bump Cat.STRM_FREE_EXTRA

/-- The word in the bundle's register is a FREE's. -/
def strmIsFree (_ _ : Nat) (w : TWord) (_ : Dev) (_ : Cmd) (x : Bundle) : Bool := fld (strmWord x w.toNat) 60 4 = 2

theorem execStrmFreeD_eq (u b : Nat) (w : TWord) :
    execStrmFreeD u b w = Dev.thread u b w mA noBad (strmIsFree u b w) strmFreeRun :=
  Dev.thread_congr_slot fun t d hu hb => by subst hu hb; rfl

theorem exec_strmFree (u b : Nat) (w : TWord) (s : State) :
    exec (.strmFree u b w) s = lift (Dev.fetched (opcOf (.strmFree u b w)) u b w (execStrmFreeD u b w)) s := rfl

theorem strmFreeRun_idle {t : TCtx} (d : Dev) (h : t.act = []) : strmFreeRun t d = d := by simp [strmFreeRun, h]

theorem Dev.freedDecl_issue (d : Dev) (t : TCtx) : (d.issue t).freedDecl t = d.freedDecl t := by
  unfold Dev.freedDecl
  rw [Dev.mover_issue]

theorem strmFreeRun_frees {t : TCtx} {d : Dev} {y : Decl} (ha : t.act ≠ []) (hb : strmBad (strmWord t.x t.n) = [])
    (hy : d.freedDecl t = some y) (hf : y.st = .full) :
    strmFreeRun t d = (d.setMover t.u ((d.unit t.u).mover.setBuf y.slip y.buf .empty)).settleMover t.u := by
  simp [strmFreeRun, ha, hb, hy, hf]

theorem strmFreeRun_extra {t : TCtx} {d : Dev} (ha : t.act ≠ []) (hb : strmBad (strmWord t.x t.n) = [])
    (hy : d.freedDecl t = none) : strmFreeRun t d = d.bump Cat.STRM_FREE_EXTRA := by
  simp [strmFreeRun, ha, hb, hy]

/-- What SWAIT does once it has issued. -/
def swaitRun (t : TCtx) (d : Dev) : Dev :=
  let v : Word := (t.x.ureg (fA t.n)).setWidth 32
  if t.act.isEmpty then d
  else if markMeets ((d.unit t.u).mover.countOf t.k) v then d
  else (d.putBundle t { t.x with wait := .swait v }).stopSwaits t.u t.k

theorem swaitRun_goesOn {t : TCtx} {d : Dev}
    (h : t.act = [] ∨ markMeets ((d.unit t.u).mover.countOf t.k) ((t.x.ureg (fA t.n)).setWidth 32) = true) :
    swaitRun t d = d := by
  rcases h with h | h <;> simp [swaitRun, h]

theorem swaitRun_waits {t : TCtx} {d : Dev} (ha : t.act ≠ [])
    (h : markMeets ((d.unit t.u).mover.countOf t.k) ((t.x.ureg (fA t.n)).setWidth 32) = false) :
    swaitRun t d
      = (d.putBundle t { t.x with wait := .swait ((t.x.ureg (fA t.n)).setWidth 32) }).stopSwaits t.u t.k := by
  simp [swaitRun, ha, h]

/-! ### STATMX, SEAL (R198) -/

/-- What STATMX does once it has issued. -/
def statmxRun (t : TCtx) (d : Dev) : Dev :=
  if t.act.isEmpty then d
  else
    d.contributeStat t.cmd.job (fStat t.n)
      { rows := t.act.map fun l => (l, magBits (f32 (t.opA l))), elements := t.act.length, clipped := 0, under := 0,
        nonfin := (t.act.filter fun l => !(f32 (t.opA l)).isFinite).length } false false

/-- What SEAL does once it has issued. -/
def sealRun (t : TCtx) (d : Dev) : Dev := if t.act.isEmpty then d else d.sealSlot t.cmd.job (fStat t.n)

/-! ### The obligation -/

/-- An instruction that does nothing where no lane is active only moves the PC on there (R171). -/
theorem Dev.idle_frame {d e : Dev} {t : TCtx} (h : e = d.issue t) : ThreadFrame d e t t.x (fun _ => 0) 0 0 :=
  h ▸ Dev.issue_frame0 d t

/-- Settles O19: each instruction, once it has issued, is one operation with a lemma for each of its branches, and issuing
leaves engines and movers as they are. -/
theorem tensorAndStreamIssue : Obligations.TensorAndStreamIssue := by
  refine ⟨ThreadWhen.of tensRoom (fun _ _ _ => tensRun) exec_tens execTensD_eq (fun d u b w x c h => tensRoom_of h)
      fun d u b w x c _ _ _ _ => ⟨fun ha => Dev.idle_frame (t := ctx u b x c w) (tensRunBy_idle ha), fun e ha he hbad hdbg => ?_,
        tensRunBy_debugDenied, fun o ha hdbg he ho => tensRunBy_noEngine ha hdbg he ho,
        fun e o ha hdbg he ho => tensRunBy_malformed ha hdbg he ho⟩,
    ThreadOp.of execTwaitD (fun _ _ _ _ => rfl) fun d u b w x c h hw hb => ?_,
    ThreadWhen.of strmRoom (fun _ _ _ => strmRunRun) exec_strmRun execStrmRunD_eq (fun d u b w x c h => ?_)
      fun d u b w x c _ _ _ _ => ⟨fun ha => Dev.idle_frame (strmRunRun_idle _ ha), strmRunRun_posts,
        fun o ha ho => strmRunRun_stops ha ho⟩,
    ThreadWhen.of strmIsFree (fun _ _ _ => strmFreeRun) exec_strmFree execStrmFreeD_eq
      (fun d u b w x c h => decide_eq_true h)
      fun d u b w x c _ _ _ _ => ⟨fun ha => Dev.idle_frame (strmFreeRun_idle _ ha), fun y ha hbad hy hf => ?_,
        fun ha hbad hy => strmFreeRun_extra ha hbad ((Dev.freedDecl_issue _ _).trans hy)⟩,
    ThreadOp.of execSwaitD (fun _ _ _ _ => rfl) fun d u b w x c h hw hb => ?_,
    ThreadOp.of execStatmxD (fun _ _ _ _ => rfl) fun d u b w x c h hw hb => ?_,
    ThreadOp.of execSealD (fun _ _ _ _ => rfl) fun d u b w x c h hw hb => ?_⟩
  · unfold tensRun
    rw [tensRunBy_queues ha hdbg he hbad]
    exact ⟨Dev.queue_tensQueued_issue d _ e, Dev.setBundle_bundle _ _ _ _, Dev.issue_mem d (ctx u b x c w)⟩
  · refine ⟨fun hd => ?_, fun ha hd => ?_⟩
    · rw [execTwaitD_goesOn h hw hd]
      exact Dev.issue_frame _ _
    · rw [execTwaitD_waits h hw ha hd]
      exact Dev.issue_frame _ _
  · exact strmRoom_of h
  · rw [strmFreeRun_frees ha hbad ((Dev.freedDecl_issue _ _).trans hy) hf, Dev.mover_issue]
  · have hrun : execSwaitD u b w d = swaitRun (ctx u b x c w) (d.issue (ctx u b x c w)) := Dev.thread_issues h hw hb rfl
    rw [hrun]
    exact ⟨fun hm => Dev.idle_frame (swaitRun_goesOn (by rwa [Dev.mover_issue])),
      fun ha hm => swaitRun_waits ha (by rwa [Dev.mover_issue])⟩
  · have hrun : execStatmxD u b w d = statmxRun (ctx u b x c w) (d.issue (ctx u b x c w)) := Dev.thread_issues h hw hb rfl
    rw [hrun]
    exact ⟨fun ha => Dev.idle_frame (if_pos (by simpa using ha)), fun ha => if_neg (by simpa using ha)⟩
  · have hrun : execSealD u b w d = sealRun (ctx u b x c w) (d.issue (ctx u b x c w)) := Dev.thread_issues h hw hb rfl
    rw [hrun]
    exact ⟨fun ha => Dev.idle_frame (if_pos (by simpa using ha)), fun ha => if_neg (by simpa using ha)⟩

end Sys2Proof.Machine
end

section
/-! SUPPORT. What tensor instructions do on their engine: tiles, rows and counts (R107 to R131), and obligation O20. -/

namespace Sys2Proof.Machine

/-! ### The shape, from the meanings -/

/-- A tensor instruction that may execute has the operation of its command, and does what that does on the device on which
it is started. -/
theorem TensorOp.of {mk : Nat → Nat → Nat → Instr} {op : Nat} {P : Dev → Dev → (u e k : Nat) → Cmd → TensorEntry → Prop}
    (run : (u e k : Nat) → Cmd → TensorEntry → Dev → Dev)
    (he : ∀ at_ u e s, exec (mk at_ u e) s = lift (Dev.tensor op (run u e) at_ u e) s)
    (hp : ∀ (d : Dev) u e k c q, tOp q.word = op → P d (run u e k c q d) u e k c q) : TensorOp mk op P :=
  fun s at_ u e k c q h => ⟨Dev.tensor op (run u e) at_ u e s.dev, he at_ u e s, by
    rw [Dev.tensor_executes h]
    exact hp _ u e k c q h.2.1⟩

/-! ### Tables -/

theorem Tbl.set_set {α : Type} (t : Tbl α) (k : Nat) (v w : α) : Tbl.set (Tbl.set t k v) k w = Tbl.set t k w := by
  induction t with
  | nil => simp [Tbl.set]
  | cons kv t ih =>
    obtain ⟨k', v'⟩ := kv
    rcases lt_trichotomy k k' with h | h | h
    · simp [Tbl.set, h]
    · simp [Tbl.set, h]
    · simp [Tbl.set, not_lt_of_gt h, ne_of_gt h, ih]

theorem Dev.setEngine_setEngine (d : Dev) (u e : Nat) (x y : Engine) :
    (d.setEngine u e x).setEngine u e y = d.setEngine u e y := by
  unfold Dev.setEngine
  rw [Dev.setUnit_unit]
  unfold Dev.setUnit
  dsimp only
  rw [Tbl.set_set, Tbl.set_set]

/-! ### Counts and rows -/

/-- `e` holds the units and the memory of `d`: between them lie counts, reports, draws and statistics, at most. -/
def Dev.heldBy (d e : Dev) : Prop := e.units = d.units ∧ e.mem = d.mem

theorem Dev.heldBy.refl (d : Dev) : d.heldBy d := ⟨rfl, rfl⟩
theorem Dev.heldBy.trans {a b c : Dev} (h : a.heldBy b) (k : b.heldBy c) : a.heldBy c :=
  ⟨k.1.trans h.1, k.2.trans h.2⟩
theorem Dev.notesOf.heldBy {d e : Dev} (h : d.notesOf e) : d.heldBy e := ⟨h.units, h.mem⟩
theorem Dev.countsOf.heldBy {d e : Dev} (h : d.countsOf e) : d.heldBy e := ⟨h.units, h.mem⟩

theorem Dev.engine_of_units {d e : Dev} (h : e.units = d.units) (u i : Nat) : e.engine u i = d.engine u i := by
  unfold Dev.engine Dev.unit
  rw [h]

theorem Dev.heldBy_engBump (d : Dev) (key total n : Nat) : d.heldBy (d.engBump key total n) :=
  ((d.notesOf_bumpBy key n).trans (Dev.notesOf_bumpBy _ total n)).heldBy

theorem Dev.heldBy_engInvalid (d : Dev) (k : Nat) (c : Cmd) (u e acc count num : Nat) :
    d.heldBy (d.engInvalid k c u e acc count num) := by
  unfold Dev.engInvalid
  split
  · exact .refl d
  · exact (d.heldBy_engBump _ _ _).trans
      ((Dev.countsOf_setJob _ _ _).heldBy.trans (Dev.notesOf_updCmd _ _ _).heldBy)

/-- Draws from generators, where rounding is stochastic. -/
def Dev.drawnIf (d : Dev) (stochastic : Bool) (gs : List Nat) : Dev := if stochastic then d.drawn gs else d

theorem Dev.heldBy_drawnIf (d : Dev) (stochastic : Bool) (gs : List Nat) : d.heldBy (d.drawnIf stochastic gs) := by
  unfold Dev.drawnIf
  split <;> exact ⟨rfl, rfl⟩

theorem Dev.tracedOf_wrLines (fuel : Nat) (d : Dev) (pa : Nat) (data : List Byte) : d.tracedOf (d.wrLines pa data fuel) := by
  induction fuel generalizing d pa data with
  | zero => exact .refl d
  | succ n ih =>
    unfold Dev.wrLines
    split
    · exact .refl d
    · exact (d.tracedOf_wrLine _ _).trans (ih _ _ _)

theorem Dev.tracedOf_wr (d : Dev) (pa : Nat) (data : List Byte) : d.tracedOf (d.wr pa data) := Dev.tracedOf_wrLines _ _ _ _

theorem Dev.tracedOf_putRows (d : Dev) (base w rows cols : Nat) (elems : List Nat) :
    d.tracedOf (d.putRows base w rows cols elems) := Dev.tracedOf_foldl _ _ (fun d _ => d.tracedOf_wr _ _) d

/-! ### Tiles -/

theorem Dev.engine_setTile (d : Dev) (u e acc : Nat) (t : Tile) :
    (d.setTile u e acc t).engine u e = { d.engine u e with tiles := Tbl.set (d.engine u e).tiles acc t } := by
  unfold Dev.setTile
  rw [Dev.engine_setEngine, if_pos ⟨rfl, rfl⟩]

theorem Dev.engine_freeTile (d : Dev) (u e acc : Nat) :
    (d.freeTile u e acc).engine u e = { d.engine u e with tiles := Tbl.erase (d.engine u e).tiles acc } := by
  unfold Dev.freeTile
  rw [Dev.engine_setEngine, if_pos ⟨rfl, rfl⟩]

theorem getD_setAcc (acc : Tbl Word) (key : Nat) (v : Word) (i : Nat) :
    Tbl.getD (setAcc acc key v) i 0 = if i = key then v else Tbl.getD acc i 0 := by
  unfold setAcc
  split
  · next h => rw [Tbl.getD_erase, h]
  · rw [Tbl.getD_set]

/-- Accumulators filled one by one hold what each was given. -/
theorem getD_foldl_setAcc (f : Nat → Word) (l : List Nat) (acc : Tbl Word) (i : Nat) :
    Tbl.getD (l.foldl (fun a i => setAcc a i (f i)) acc) i 0 = if i ∈ l then f i else Tbl.getD acc i 0 := by
  induction l generalizing acc with
  | nil => simp
  | cons j l ih =>
    rw [List.foldl_cons, ih, getD_setAcc]
    by_cases hl : i ∈ l <;> by_cases hj : i = j <;> simp [hl, hj]

/-! ### A word at its turn (R107, R114) -/

/-- An instruction's own effect, unless a bit of its word offends when its turn comes. -/
def Dev.unlessBad (d : Dev) (u k e : Nat) (c : Cmd) (q : TensorEntry) (effect : Dev) : Dev :=
  (d.openBad u k e c q.word).elim effect (d.lateReject u k e q)

section
variable {d : Dev} {u k e : Nat} {c : Cmd} {q : TensorEntry} (effect : Dev)

theorem Dev.unlessBad_some {o : Nat} (h : d.openBad u k e c q.word = some o) :
    d.unlessBad u k e c q effect = d.lateReject u k e q o := by
  unfold Dev.unlessBad
  rw [h, Option.elim_some]

theorem Dev.unlessBad_none (h : d.openBad u k e c q.word = none) : d.unlessBad u k e c q effect = effect := by
  unfold Dev.unlessBad
  rw [h, Option.elim_none]

end

theorem stateBad_store_free {n : Nat} (h : tOp n = 2) : stateBad n none = [116] := by
  unfold stateBad
  rw [h]
  rfl

/-- What the state of its tile forbids a word that names an operation is among its offending bits. -/
theorem Dev.mem_wordBad_of_stateBad {d : Dev} {u k : Nat} {c : Cmd} {n b : Nat} {tile : Option (Bool × Nat)} (ho : tOp n < 5)
    (hb : b ∈ stateBad n tile) : b ∈ d.wordBad u k c n (some tile) := by
  unfold Dev.wordBad
  rw [if_neg (Nat.not_le.mpr ho)]
  simp only [List.mem_append]
  exact .inr (.inl (.inr hb))

theorem exists_min?_le {l : List Nat} {b : Nat} (h : b ∈ l) : ∃ o, l.min? = some o ∧ o ≤ b := by
  obtain ⟨o, ho⟩ := Option.isSome_iff_exists.mp (List.isSome_min?_of_mem h)
  exact ⟨o, ho, (List.le_min?_iff ho).mp le_rfl b h⟩

/-- A STORE on a FREE tile is refused at its turn (R107). -/
theorem Dev.openBad_store_free {d : Dev} {u k e : Nat} {c : Cmd} {n : Nat} (ho : tOp n = 2)
    (hfree : Tbl.find? (d.engine u e).tiles (tAcc n) = none) : ∃ o, d.openBad u k e c n = some o ∧ o ≤ 116 := by
  refine exists_min?_le (Dev.mem_wordBad_of_stateBad (by rw [ho]; decide) ?_)
  have htile : d.tileNow u e (tAcc n) = none := by
    unfold Dev.tileNow
    rw [hfree, Option.map_none]
  rw [htile, stateBad_store_free ho]
  exact List.mem_singleton.mpr rfl

/-! ### MMA (R116, R123 to R126) -/

/-- The chains of tile `t` after the blocks of MMA word `n`, with what they report. -/
def Dev.mmaResult (d : Dev) (u e n : Nat) (t : Tile) : MmaRes :=
  let operand (lo fmt x : Nat) : Operand :=
    { bytes := d.engRead u (tAddr u n lo) (operandBytes fmt x (tBlk n) (tBlocks n)), fmt := fmt, x := x, blk := tBlk n,
      blocks := tBlocks n }
  mmaRun t n (operand 16 (tFmtA n) (shapeDims t.shape).1) (operand 32 (tFmtB n) (shapeDims t.shape).2.1)
    fun i => if tSr n then .stochastic (d.draw (genBlock u e i) i) else .nearest

/-- What an MMA reports is counted. -/
def Dev.mmaCounted (d : Dev) (u e k : Nat) (c : Cmd) (n : Nat) (r : MmaRes) : Dev :=
  let d := d.engBump (Cat.ENG_NAN_IN u e) Cat.ENG_NAN_IN_TOTAL r.nan
  let d := d.engBump (Cat.ENG_OVERFLOW_SAT u e) Cat.ENG_OVERFLOW_SAT_TOTAL r.sat
  let d := d.engBump (Cat.ENG_INT_LIMIT u e) Cat.ENG_INT_LIMIT_TOTAL r.limit
  let d := if u < 64 then d
    else (d.bumpBy (Cat.NMU_BLOCKS (u - 64)) (tBlocks n)).bumpBy (Cat.NMU_BUSY_CYCLES (u - 64)) (macCycles u n (tBlocks n))
  d.engInvalid k c u e (tAcc n) r.invalid (r.first.getD 0)

theorem Dev.heldBy_mmaCounted (d : Dev) (u e k : Nat) (c : Cmd) (n : Nat) (r : MmaRes) : d.heldBy (d.mmaCounted u e k c n r) := by
  have hnmu (d : Dev) : d.heldBy (if u < 64 then d else
      (d.bumpBy (Cat.NMU_BLOCKS (u - 64)) (tBlocks n)).bumpBy (Cat.NMU_BUSY_CYCLES (u - 64)) (macCycles u n (tBlocks n))) := by
    split
    · exact .refl d
    · exact ((d.notesOf_bumpBy _ _).trans (Dev.notesOf_bumpBy _ _ _)).heldBy
  exact (d.heldBy_engBump _ _ _).trans ((Dev.heldBy_engBump _ _ _ _).trans ((Dev.heldBy_engBump _ _ _ _).trans
    ((hnmu _).trans (Dev.heldBy_engInvalid _ _ _ _ _ _ _ _))))

/-- MMA word `n` accumulates into tile `t`. -/
def Dev.accumulates (d : Dev) (u e k : Nat) (c : Cmd) (n : Nat) (t : Tile) : Dev :=
  let (m, nn, _) := shapeDims t.shape
  let blocks := tBlocks n
  let operand (lo fmt x : Nat) : Operand :=
    { bytes := d.engRead u (tAddr u n lo) (operandBytes fmt x (tBlk n) blocks), fmt := fmt, x := x, blk := tBlk n,
      blocks := blocks }
  let draws := blocks * m * nn
  let rnd (i : Nat) : Rnd := if tSr n then .stochastic (d.draw (genBlock u e i) i) else .nearest
  let r := mmaRun t n (operand 16 (tFmtA n) m) (operand 32 (tFmtB n) nn) rnd
  let d := if tSr n then d.drawn ((List.range draws).map (genBlock u e)) else d
  let d := d.setTile u e (tAcc n) { t with acc := r.acc, blocks := t.blocks + blocks }
  let d := d.engBump (Cat.ENG_NAN_IN u e) Cat.ENG_NAN_IN_TOTAL r.nan
  let d := d.engBump (Cat.ENG_OVERFLOW_SAT u e) Cat.ENG_OVERFLOW_SAT_TOTAL r.sat
  let d := d.engBump (Cat.ENG_INT_LIMIT u e) Cat.ENG_INT_LIMIT_TOTAL r.limit
  let d := if u < 64 then d
    else (d.bumpBy (Cat.NMU_BLOCKS (u - 64)) blocks).bumpBy (Cat.NMU_BUSY_CYCLES (u - 64)) (macCycles u n blocks)
  d.engInvalid k c u e (tAcc n) r.invalid (r.first.getD 0)

theorem Dev.accumulates_eq (d : Dev) (u e k : Nat) (c : Cmd) (n : Nat) (t : Tile) :
    ∃ gs, d.accumulates u e k c n t = ((d.drawnIf (tSr n) gs).setTile u e (tAcc n)
      { t with acc := (d.mmaResult u e n t).acc, blocks := t.blocks + tBlocks n }).mmaCounted u e k c n (d.mmaResult u e n t) := by
  unfold Dev.accumulates Dev.mmaResult
  rcases shapeDims t.shape with ⟨m, nn, s⟩
  exact ⟨(List.range (tBlocks n * m * nn)).map (genBlock u e), rfl⟩

/-- An MMA changes its tile, and leaves the queue, the other tiles and memory. -/
theorem Dev.accumulates_effect (d : Dev) (u e k : Nat) (c : Cmd) (n : Nat) (t : Tile) :
    ((d.accumulates u e k c n t).engine u e).tiles = Tbl.set (d.engine u e).tiles (tAcc n)
        { t with acc := (d.mmaResult u e n t).acc, blocks := t.blocks + tBlocks n }
      ∧ ((d.accumulates u e k c n t).engine u e).queue = (d.engine u e).queue
      ∧ (d.accumulates u e k c n t).mem = d.mem := by
  obtain ⟨gs, h⟩ := d.accumulates_eq u e k c n t
  have hdrawn := d.heldBy_drawnIf (tSr n) gs
  rw [h]
  generalize d.drawnIf (tSr n) gs = d1 at *
  generalize d.mmaResult u e n t = r at *
  have hcounted := (d1.setTile u e (tAcc n) { t with acc := r.acc, blocks := t.blocks + tBlocks n }).heldBy_mmaCounted u e k c n r
  rw [Dev.engine_of_units hcounted.1, Dev.engine_setTile, Dev.engine_of_units hdrawn.1]
  exact ⟨rfl, rfl, hcounted.2.trans hdrawn.2⟩

/-- The tile that an MMA accumulates into: opened anew with ZERO (R108). -/
def Dev.mmaTile (d : Dev) (u e n : Nat) : Tile :=
  if tZero n then d.openTile u n else (Tbl.find? (d.engine u e).tiles (tAcc n)).getD (d.openTile u n)

theorem execMmaD_eq (at_ u e : Nat) (d : Dev) : execMmaD at_ u e d =
    Dev.tensor 0 (fun k c q d => d.unlessBad u k e c q (d.accumulates u e k c q.word (d.mmaTile u e q.word))) at_ u e d := by
  unfold execMmaD
  congr 1
  funext k c q d
  unfold Dev.unlessBad
  change (match d.openBad u k e c q.word with | some o => _ | none => _) = _
  cases d.openBad u k e c q.word <;> rfl

theorem exec_mma (at_ u e : Nat) (s : State) : exec (.mma at_ u e) s = lift (Dev.tensor 0
    (fun k c q d => d.unlessBad u k e c q (d.accumulates u e k c q.word (d.mmaTile u e q.word))) at_ u e) s :=
  congrArg (lift · s) (funext (execMmaD_eq at_ u e))

/-! ### LOAD (R111) -/

/-- LOAD word `n` opens tile `t` with accumulators read from scratch. -/
def Dev.loadsTile (d : Dev) (u e n : Nat) (t : Tile) : Dev :=
  let (m, nn, _) := shapeDims t.shape
  let bytes := d.engRead u (tAddr u n 16) (m * nn * 4)
  let acc := (List.range (m * nn)).foldl (fun a i => setAcc a i (BitVec.ofNat 32 (packedAt bytes 32 i))) []
  d.setTile u e (tAcc n) { t with acc := acc }

theorem execLoadD_eq (at_ u e : Nat) (d : Dev) : execLoadD at_ u e d =
    Dev.tensor 1 (fun k c q d => d.unlessBad u k e c q (d.loadsTile u e q.word (d.openTile u q.word))) at_ u e d := by
  unfold execLoadD
  congr 1
  funext k c q d
  unfold Dev.unlessBad
  change (match d.openBad u k e c q.word with | some o => _ | none => _) = _
  cases d.openBad u k e c q.word <;> rfl

theorem exec_load (at_ u e : Nat) (s : State) : exec (.load at_ u e) s = lift (Dev.tensor 1
    (fun k c q d => d.unlessBad u k e c q (d.loadsTile u e q.word (d.openTile u q.word))) at_ u e) s :=
  congrArg (lift · s) (funext (execLoadD_eq at_ u e))

theorem Dev.loadsTile_effect (d : Dev) (u e n : Nat) (t : Tile) :
    (d.loadsTile u e n t).mem = d.mem ∧ ∃ a : Tile,
      ((d.loadsTile u e n t).engine u e).tiles = Tbl.set (d.engine u e).tiles (tAcc n) a ∧ a = { t with acc := a.acc }
        ∧ ∀ i, i < (shapeDims t.shape).1 * (shapeDims t.shape).2.1 → Tbl.getD a.acc i 0 = BitVec.ofNat 32 (packedAt
            (d.engRead u (tAddr u n 16) ((shapeDims t.shape).1 * (shapeDims t.shape).2.1 * 4)) 32 i) := by
  unfold Dev.loadsTile
  rcases shapeDims t.shape with ⟨m, nn, s⟩
  refine ⟨rfl, _, congrArg Engine.tiles (Dev.engine_setTile _ _ _ _ _), rfl, fun i hi => ?_⟩
  dsimp only
  rw [getD_foldl_setAcc, if_pos (List.mem_range.mpr hi)]

/-! ### STORE (R118 to R122) -/

/-- The epilogue's values of a STORE, row by row, from the tile and its fused operand. -/
def Dev.storeEpis (d : Dev) (u n : Nat) (t : Tile) : List Epi :=
  let nn := (shapeDims t.shape).2.1
  let fw := fmtWidth (oFuseFmt n)
  (List.range ((shapeDims t.shape).1 * nn)).map fun i => epilogue t n (i / nn) (i % nn)
    (if oFuse n = 0 then .nan
      else decodeF (oFuseFmt n) (packedAt (d.engRead u (tAddr u n 48 + i / nn * rowPitch nn fw) (rowPitch nn fw)) fw (i % nn)))

/-- The scale of a STORE's output: that of its record, for formats that have one. -/
def Dev.storeScale (d : Dev) (u n : Nat) : Scale :=
  let head := leNat (d.engRead u (tAddr u n 64) 64)
  if oFmt n ≤ 2 then Scale.one else { s2 := decodeF 0 (fld head 64 32), zp := zeroPoint (oFmt n) (fld head 0 8) }

/-- The converted tile. -/
def Dev.storeResult (d : Dev) (u e n : Nat) (t : Tile) : Converted :=
  convertTensor (oFmt n) (fun i => if oSr n then .stochastic (d.draw (genOut u e i) i) else .nearest) (tSat n)
    (d.storeScale u n) (shapeDims t.shape).1 (shapeDims t.shape).2.1 (oBlk n) (oDimM n) ((d.storeEpis u n t).map (·.v))

/-- The device once a STORE has drawn for its rounding and written its rows and, of a block-scaled format, its offsets. -/
def Dev.storeWrites (d : Dev) (u e n : Nat) (t : Tile) : Dev :=
  let m := (shapeDims t.shape).1
  let nn := (shapeDims t.shape).2.1
  let r := d.storeResult u e n t
  let out := unitScratch u + tAddr u n 32
  let rows := (d.drawnIf (oSr n) ((List.range (m * nn)).map (genOut u e))).putRows out (fmtWidth (oFmt n)) m nn (r.encs.map (·.bits))
  if isBlock (oFmt n) then rows.wr (out + m * rowPitch nn (fmtWidth (oFmt n))) (packElems 4 r.offs) else rows

/-- What a STORE reports is counted, and contributed to its statistics slot. -/
def Dev.storeCounted (d : Dev) (u e k : Nat) (c : Cmd) (n cols : Nat) (es : List Epi) (r : Converted) : Dev :=
  let d := d.engBump (Cat.ENG_OVERFLOW_SAT u e) Cat.ENG_OVERFLOW_SAT_TOTAL
    ((es.map (·.sat)).sum + (r.encs.filter (·.sat)).length)
  let d := d.engBump (Cat.ENG_INT_LIMIT u e) Cat.ENG_INT_LIMIT_TOTAL (es.map (·.limit)).sum
  let d := d.bumpBy Cat.NUM_CVT_NONFINITE (r.encs.filter (·.changed)).length
  let d := if oStat n = 0 then d else d.bumpBy Cat.NUM_UNDERRANGE_BLOCK r.under
  let d := d.contributeStat c.job (oStat n) (figuresOf (oFmt n) cols (es.map (·.v)) r) (3 ≤ oFmt n) false
  d.engInvalid k c u e (tAcc n) (es.filter (·.invalid)).length 0xFFFFFFFF

theorem Dev.heldBy_storeCounted (d : Dev) (u e k : Nat) (c : Cmd) (n cols : Nat) (es : List Epi) (r : Converted) :
    d.heldBy (d.storeCounted u e k c n cols es r) := by
  have hunder (d : Dev) : d.heldBy (if oStat n = 0 then d else d.bumpBy Cat.NUM_UNDERRANGE_BLOCK r.under) := by
    split
    · exact .refl d
    · exact (d.notesOf_bumpBy _ _).heldBy
  exact (d.heldBy_engBump _ _ _).trans ((Dev.heldBy_engBump _ _ _ _).trans ((Dev.notesOf_bumpBy _ _ _).heldBy.trans
    ((hunder _).trans ((Dev.countsOf_contributeStat _ _ _ _ _ _).heldBy.trans (Dev.heldBy_engInvalid _ _ _ _ _ _ _ _)))))

/-- The device once a STORE has freed its tile, unless it keeps it (R118). -/
def Dev.freeUnless (d : Dev) (keep : Bool) (u e acc : Nat) : Dev := if keep then d else d.freeTile u e acc

/-- STORE word `n` writes tile `t`. -/
def Dev.storesTile (d : Dev) (u e k : Nat) (c : Cmd) (n : Nat) (t : Tile) : Dev :=
  ((d.storeWrites u e n t).freeUnless (oKeep n) u e (tAcc n)).storeCounted u e k c n (shapeDims t.shape).2.1
    (d.storeEpis u n t) (d.storeResult u e n t)

theorem execStoreD_eq (at_ u e : Nat) (d : Dev) : execStoreD at_ u e d =
    Dev.tensor 2 (fun k c q d => d.unlessBad u k e c q
      ((Tbl.find? (d.engine u e).tiles (tAcc q.word)).elim d (d.storesTile u e k c q.word))) at_ u e d := by
  unfold execStoreD
  congr 1
  funext k c q d
  unfold Dev.unlessBad
  change (match d.openBad u k e c q.word, Tbl.find? (d.engine u e).tiles (tAcc q.word) with
    | some o, _ => _ | none, none => _ | none, some t => _) = _
  cases d.openBad u k e c q.word with
  | some o => rfl
  | none =>
    cases Tbl.find? (d.engine u e).tiles (tAcc q.word) with
    | none => rfl
    | some t =>
      dsimp only [Option.elim_some, Option.elim_none]
      unfold Dev.storesTile Dev.storeWrites Dev.storeResult Dev.storeEpis
      rcases shapeDims t.shape with ⟨m, nn, s⟩
      rfl

theorem exec_store (at_ u e : Nat) (s : State) : exec (.store at_ u e) s = lift (Dev.tensor 2
    (fun k c q d => d.unlessBad u k e c q
      ((Tbl.find? (d.engine u e).tiles (tAcc q.word)).elim d (d.storesTile u e k c q.word))) at_ u e) s :=
  congrArg (lift · s) (funext (execStoreD_eq at_ u e))

theorem Dev.units_storeWrites (d : Dev) (u e n : Nat) (t : Tile) : (d.storeWrites u e n t).units = d.units := by
  unfold Dev.storeWrites
  dsimp only
  split
  · exact (Dev.tracedOf_wr _ _ _).units.trans ((Dev.tracedOf_putRows _ _ _ _ _ _).units.trans (Dev.heldBy_drawnIf _ _ _).1)
  · exact (Dev.tracedOf_putRows _ _ _ _ _ _).units.trans (Dev.heldBy_drawnIf _ _ _).1

theorem Dev.freeUnless_effect (d : Dev) (keep : Bool) (u e acc : Nat) :
    (d.freeUnless keep u e acc).mem = d.mem
      ∧ ((d.freeUnless keep u e acc).engine u e).tiles
        = if keep then (d.engine u e).tiles else Tbl.erase (d.engine u e).tiles acc := by
  unfold Dev.freeUnless
  cases keep
  · exact ⟨rfl, congrArg Engine.tiles (Dev.engine_freeTile _ _ _ _)⟩
  · exact ⟨rfl, rfl⟩

/-- A STORE leaves the memory that it writes, and its tile only where it keeps it. -/
theorem Dev.storesTile_effect (d : Dev) (u e k : Nat) (c : Cmd) (n : Nat) (t : Tile) :
    (d.storesTile u e k c n t).mem = (d.storeWrites u e n t).mem
      ∧ ((d.storesTile u e k c n t).engine u e).tiles
        = if oKeep n then (d.engine u e).tiles else Tbl.erase (d.engine u e).tiles (tAcc n) := by
  unfold Dev.storesTile
  have hunits := d.units_storeWrites u e n t
  generalize d.storeWrites u e n t = d1 at *
  obtain ⟨hmem, htiles⟩ := d1.freeUnless_effect (oKeep n) u e (tAcc n)
  generalize d1.freeUnless (oKeep n) u e (tAcc n) = d2 at *
  have hcounted := d2.heldBy_storeCounted u e k c n (shapeDims t.shape).2.1 (d.storeEpis u n t) (d.storeResult u e n t)
  rw [Dev.engine_of_units hcounted.1, htiles, Dev.engine_of_units hunits]
  exact ⟨hcounted.2.trans hmem, rfl⟩

/-! ### RELEASE and DEBUG_READ (R107, R128) -/

/-- RELEASE frees its tile, and is complete as it is carried out. -/
def Dev.releasesTile (d : Dev) (u e k : Nat) (q : TensorEntry) : Dev :=
  ((d.setEngine u e { d.engine u e with
    tiles := Tbl.erase (d.engine u e).tiles (tAcc q.word),
    queue := eraseFirst (· = { q with started := true }) (d.engine u e).queue }).tensDone u k q).checkPart u k

theorem execReleaseD_eq (at_ u e : Nat) (d : Dev) :
    execReleaseD at_ u e d = Dev.tensor 3 (fun k _ q d => d.releasesTile u e k q) at_ u e d := by
  unfold execReleaseD
  congr 1
  funext k c q d
  unfold Dev.releasesTile
  dsimp only
  rw [Dev.engine_freeTile]
  unfold Dev.freeTile
  dsimp only
  rw [Dev.setEngine_setEngine]

theorem exec_release (at_ u e : Nat) (s : State) :
    exec (.release at_ u e) s = lift (Dev.tensor 3 (fun k _ q d => d.releasesTile u e k q) at_ u e) s :=
  congrArg (lift · s) (funext (execReleaseD_eq at_ u e))

theorem exec_debugRead (at_ u e : Nat) (s : State) : exec (.debugRead at_ u e) s = lift (Dev.tensor 4
    (fun _ _ q d => d.wr (unitScratch u + tAddr u q.word 32) (debugBytes (Tbl.find? (d.engine u e).tiles (tAcc q.word))))
    at_ u e) s := rfl

/-! ### The obligation -/

/-- Settles O20: each instruction is refused at its turn or has its own effect, of which one lemma says what it makes of tiles
and memory. -/
theorem tensorInstructionsOnTheirEngine : Obligations.TensorInstructionsOnTheirEngine := by
  refine ⟨TensorOp.of _ exec_mma fun d u e k c q _ => ⟨fun o => Dev.unlessBad_some _, fun hbad => ?_⟩,
    TensorOp.of _ exec_load fun d u e k c q _ => ⟨fun o => Dev.unlessBad_some _, fun hbad => ?_⟩,
    TensorOp.of _ exec_store fun d u e k c q ho =>
      ⟨fun o => Dev.unlessBad_some _, Dev.openBad_store_free ho, fun t ht hbad => ?_⟩,
    TensorOp.of _ exec_release fun d u e k c q _ => rfl,
    TensorOp.of _ exec_debugRead fun d u e k c q _ => rfl⟩
  · rw [Dev.unlessBad_none _ hbad]
    exact d.accumulates_effect u e k c q.word (d.mmaTile u e q.word)
  · rw [Dev.unlessBad_none _ hbad]
    exact d.loadsTile_effect u e q.word (d.openTile u q.word)
  · rw [Dev.unlessBad_none _ hbad, ht, Option.elim_some]
    obtain ⟨hmem, htiles⟩ := d.storesTile_effect u e k c q.word t
    refine ⟨hmem.trans ?_, htiles⟩
    unfold Dev.storeWrites Dev.storeResult Dev.storeEpis
    rw [List.map_map]
    rfl

end Sys2Proof.Machine
end

section
/-! SUPPORT. CVT and OFFS: what a conversion gives each lane, what it counts, the offsets that are packed (R181, R182), and
obligation O13. -/

namespace Sys2Proof.Machine

/-! ### A V register written in some lanes -/

theorem Bundle.setVLanes_rest (x : Bundle) (r : Nat) (ls : List Nat) (f : Nat → Word) :
    x.setVLanes r ls f = { x with v := (x.setVLanes r ls f).v } := Bundle.fold_rest f ls x r

theorem Bundle.vreg_setVLanes (x : Bundle) {r r' : Nat} (hr : r < 64) (hr' : r' < 64) (ls : List Nat) (f : Nat → Word) (l : Nat) :
    (x.setVLanes r ls f).vreg l r' = if l ∈ ls ∧ r' = r then f l else x.vreg l r' := Bundle.vreg_fold f ls x r l r' hr hr'

/-! ### The lanes of a conversion (R181) -/

/-- Lane and word of each result of a conversion. -/
def CvtRes.words (r : CvtRes) : List (Nat × Word) := r.lanes.map fun e => (e.1, BitVec.ofNat 32 e.2.bits)

/-- A group whose offset is each of its lanes' gives each of them its converted value. -/
theorem words_cvtGroup {t : TCtx} (draw : Nat → Nat) {block : Bool} {ls : List Nat}
    (h : ∀ l ∈ ls, cvtOffset t l = if block
      then (blockOffset (cvtTo t.n) ((ls.map (cvtValue t)).map fun v => v.div (cvtScale t (cvtTo t.n)).s2)).1 else 0) :
    (cvtGroup t draw block ls).words = ls.map fun l => (l, cvtLane t (draw l) l) := by
  unfold CvtRes.words cvtGroup
  cases block
  · simp only [Bool.false_eq_true, if_false, List.map_map] at h ⊢
    refine List.map_congr_left fun l hl => ?_
    simp [cvtLane, h l hl]
  · simp only [if_true, List.map_map] at h ⊢
    refine List.map_congr_left fun l hl => ?_
    simp [cvtLane, h l hl, Function.comp_def]

/-- The active lanes in the order in which a conversion treats them: block by block, or as they stand. -/
def cvtOrder (t : TCtx) : List Nat :=
  if cvtBlk t.n && isBlock (cvtTo t.n) then
    (List.range (64 / if cvtBlk16 t.n then 16 else 32)).flatMap fun i =>
      t.act.filter fun l => l / (if cvtBlk16 t.n then 16 else 32) = i
  else t.act

theorem mem_cvtOrder {t : TCtx} (h : ∀ l ∈ t.act, l < 64) (l : Nat) : l ∈ cvtOrder t ↔ l ∈ t.act := by
  unfold cvtOrder
  split
  · simp only [List.mem_flatMap, List.mem_range, List.mem_filter, decide_eq_true_eq]
    refine ⟨fun ⟨_, _, hl, _⟩ => hl, fun hl => ⟨_, ?_, hl, rfl⟩⟩
    have := h l hl
    split <;> omega
  · rfl

/-- Each active lane gets its converted value, once. -/
theorem words_cvtAll (t : TCtx) (draw : Nat → Nat) :
    (cvtAll t draw).words = (cvtOrder t).map fun l => (l, cvtLane t (draw l) l) := by
  unfold cvtAll cvtOrder
  split
  · next hblk =>
    generalize hs : (if cvtBlk16 t.n then 16 else 32) = size
    have hgroup (i : Nat) : (cvtGroup t draw true (t.act.filter fun l => l / size = i)).words
        = (t.act.filter fun l => l / size = i).map fun l => (l, cvtLane t (draw l) l) := by
      refine words_cvtGroup draw fun l hl => ?_
      obtain ⟨-, hi⟩ := List.mem_filter.mp hl
      simp only [decide_eq_true_eq] at hi
      simp only [cvtOffset, hblk, hs, hi, if_true]
    unfold CvtRes.words at hgroup ⊢
    simp only [List.map_map, List.map_flatten, Function.comp_def, hgroup, List.flatMap_def]
  · next hblk => exact words_cvtGroup draw fun l _ => if_neg hblk

/-! ### What a conversion counts (R151, R181) -/

/-- The conversion's counts. -/
def Dev.cvtCounts (d : Dev) (t : TCtx) (res : CvtRes) : Dev :=
  let d := (d.bumpBy Cat.NUM_CVT_OVERFLOW_SAT (res.lanes.filter fun e => e.2.sat).length).bumpBy Cat.NUM_CVT_NONFINITE
    (res.lanes.filter fun e => e.2.changed).length
  if fStat t.n = 0 then d else d.bumpBy Cat.NUM_UNDERRANGE_BLOCK res.under

/-- The conversion's contribution to the statistics slot that it names, with an active lane. -/
def Dev.cvtContributed (d : Dev) (t : TCtx) (res : CvtRes) : Dev :=
  if t.act.isEmpty then d
  else
    d.contributeStat t.cmd.job (fStat t.n)
      { rows := t.act.map fun l => (l, magBits (cvtValue t l)), elements := t.act.length,
        clipped := if isBlock (cvtTo t.n) then (res.lanes.filter fun e => e.2.sat).length else 0, under := res.under,
        nonfin := (res.lanes.filter fun e => e.2.changed).length }
      (3 ≤ cvtTo t.n) false

/-- `e` differs from `d` in Catalogue values and job slots, at most. -/
def Dev.talliesOf (d e : Dev) : Prop := d.countsOf e ∧ e.fresh = d.fresh

theorem Dev.talliesOf.refl (d : Dev) : d.talliesOf d := ⟨.refl d, rfl⟩
theorem Dev.talliesOf.trans {a b c : Dev} (h : a.talliesOf b) (k : b.talliesOf c) : a.talliesOf c :=
  ⟨h.1.trans k.1, k.2.trans h.2⟩
theorem Dev.talliesOf_bumpBy (d : Dev) (k n : Nat) : d.talliesOf (d.bumpBy k n) :=
  ⟨d.countsOf_bumpBy k n, d.bumpBy_fresh k n⟩

theorem Dev.fresh_contributeStat (d : Dev) (j k : Nat) (f : StatFig) (narrow noRows : Bool) :
    (d.contributeStat j k f narrow noRows).fresh = d.fresh := by
  unfold Dev.contributeStat
  split
  · rfl
  · dsimp only
    split
    · exact Dev.bump_fresh _ _
    · generalize addToRolls _ _ _ _ = ar
      obtain ⟨rolls, found⟩ := ar
      simp only [apply_ite Dev.fresh, Dev.bump_fresh, Dev.setJob_fresh, ite_self]

theorem Dev.talliesOf_cvtCounts (d : Dev) (t : TCtx) (res : CvtRes) : d.talliesOf (d.cvtCounts t res) := by
  unfold Dev.cvtCounts
  dsimp only
  split
  · exact (d.talliesOf_bumpBy _ _).trans (Dev.talliesOf_bumpBy _ _ _)
  · exact (d.talliesOf_bumpBy _ _).trans ((Dev.talliesOf_bumpBy _ _ _).trans (Dev.talliesOf_bumpBy _ _ _))

theorem Dev.talliesOf_cvtContributed (d : Dev) (t : TCtx) (res : CvtRes) : d.talliesOf (d.cvtContributed t res) := by
  unfold Dev.cvtContributed
  split
  · exact .refl d
  · exact ⟨d.countsOf_contributeStat _ _ _ _ _, d.fresh_contributeStat _ _ _ _ _⟩

/-! ### CVT (R141, R181) -/

/-- `e` differs from `d` in Catalogue values, job slots, free values taken and generators at most, and where no generator is
drawn from in the first two. -/
def Dev.cvtChanged (d e : Dev) (sr : Bool) : Prop :=
  e = { d with cat := e.cat, jobs := e.jobs, fresh := e.fresh, gens := e.gens }
    ∧ (sr = false → e.gens = d.gens ∧ e.fresh = d.fresh)

theorem Dev.cvtChanged_of_tallies {d e : Dev} (sr : Bool) (gs : List Nat) (h : (d.drawnIf sr gs).talliesOf e) :
    d.cvtChanged e sr := by
  obtain ⟨hcounts, hfresh⟩ := h
  unfold Dev.countsOf at hcounts
  cases sr
  · exact ⟨by rw [hcounts]; rfl, fun _ => ⟨by rw [hcounts]; rfl, hfresh⟩⟩
  · exact ⟨by rw [hcounts]; rfl, fun h => absurd h (by decide)⟩

/-- What CVT does once it has issued. -/
def cvtRun (t : TCtx) (d : Dev) : Dev :=
  let res := cvtAll t fun l => d.draw (genThread t.u t.b l) l
  (((d.drawnIf (cvtSr t.n) ((List.range 64).map (genThread t.u t.b))).cvtCounts t res).cvtContributed t res).putBundle t
    (res.lanes.foldl (fun x e => x.setV e.1 (fD t.n) (BitVec.ofNat 32 e.2.bits)) t.x)

/-- The bundle as a conversion leaves it: each active lane's register has its converted value. -/
def cvtBundle (t : TCtx) (draw : Nat → Nat) : Bundle := t.x.setVLanes (fD t.n) (cvtOrder t) fun l => cvtLane t (draw l) l

theorem foldl_cvtAll (t : TCtx) (draw : Nat → Nat) :
    (cvtAll t draw).lanes.foldl (fun x e => x.setV e.1 (fD t.n) (BitVec.ofNat 32 e.2.bits)) t.x = cvtBundle t draw := by
  have h := congrArg (List.foldl (fun x (e : Nat × Word) => x.setV e.1 (fD t.n) e.2) t.x) (words_cvtAll t draw)
  simpa only [CvtRes.words, List.foldl_map, cvtBundle, Bundle.setVLanes] using h

theorem vreg_cvtBundle {t : TCtx} (draw : Nat → Nat) (h : ∀ l ∈ t.act, l < 64) (l : Nat) {r : Nat} (hr : r < 64) :
    (cvtBundle t draw).vreg l r = if l ∈ t.act ∧ r = fD t.n then cvtLane t (draw l) l else t.x.vreg l r := by
  unfold cvtBundle
  simp only [Bundle.vreg_setVLanes _ (fD_lt _) hr, mem_cvtOrder h]

/-- CVT changes its bundle, and beside it what it counts and draws. -/
theorem cvtRun_eq (t : TCtx) (d : Dev) : ∃ e, d.cvtChanged e (cvtSr t.n)
    ∧ cvtRun t d = e.putBundle t (cvtBundle t fun l => d.draw (genThread t.u t.b l) l) := by
  unfold cvtRun
  dsimp only
  rw [foldl_cvtAll]
  exact ⟨_, Dev.cvtChanged_of_tallies _ _ ((Dev.talliesOf_cvtCounts _ _ _).trans (Dev.talliesOf_cvtContributed _ _ _)), rfl⟩

theorem Bundle.active_lt {x : Bundle} {n l : Nat} (h : l ∈ x.active n) : l < 64 :=
  List.mem_range.mp (List.mem_filter.mp h).1

theorem Dev.draw_issue (d : Dev) (t : TCtx) (g k : Nat) : (d.issue t).draw g k = d.draw g k := rfl

/-- A bundle put back with the units as issue left them: every unit is as after issue alone. -/
theorem Dev.unit_putBundle_of {d e : Dev} {t : TCtx} (h : e.units = (d.issue t).units) (y : Bundle) (v : Nat) :
    (e.putBundle t y).unit v = ((d.issue t).putBundle t y).unit v := by
  unfold Dev.putBundle Dev.setBundle Dev.setUnit Dev.unit
  rw [h]

/-! ### OFFS (R182) -/

/-- The offsets that OFFS packs, low nibble first. -/
theorem sum_offsets (g : Nat → Nat) (block16 : Bool) :
    ((List.range (64 / if block16 then 16 else 32)).map fun i => g (i * if block16 then 16 else 32) * 16 ^ i).sum
      = if block16 then g 0 + g 16 * 16 + g 32 * 16 ^ 2 + g 48 * 16 ^ 3 else g 0 + g 32 * 16 := by
  cases block16 <;> simp [List.range_succ, Nat.add_assoc]

/-! ### The obligation -/

/-- Settles O13: CVT issues, draws where it rounds stochastically, counts, and writes its bundle; OFFS is its bundle alone. -/
theorem conversionsByLane : Obligations.ConversionsByLane := by
  refine ⟨ThreadOp.of execCvtD (fun _ _ _ _ => rfl) fun d u b w x c h hw hb => ?_,
    ThreadOp.of execOffsD (fun _ _ _ _ => rfl) fun d u b w x c h hw hb => ?_⟩
  · have hrun : execCvtD u b w d = cvtRun (ctx u b x c w) (d.issue (ctx u b x c w)) := Dev.thread_issues h hw hb rfl
    have hact : ∀ l ∈ (ctx u b x c w).act, l < 64 := fun l hl => Bundle.active_lt hl
    rw [hrun]
    generalize ctx u b x c w = t at *
    obtain ⟨e, ⟨hchanged, hdrawn⟩, he⟩ := cvtRun_eq t (d.issue t)
    rw [he]
    simp only [Dev.draw_issue]
    generalize hy : cvtBundle t _ = y
    have hunit := Dev.unit_putBundle_of (d := d) (e := e) (t := t) (by rw [hchanged]) y
    obtain ⟨hown, hslots, hbundles, hothers, -⟩ := d.issue_frame t y
    unfold Dev.bundle? at hown hslots ⊢
    simp only [hunit]
    refine ⟨y, ?_, hown, fun l r _ hr => ?_, ?_, fun hsr => ⟨(hdrawn hsr).1, (hdrawn hsr).2⟩, hbundles, fun v i hv => ?_⟩
    · rw [← hy]; exact Bundle.setVLanes_rest _ _ _ _
    · rw [← hy]; exact vreg_cvtBundle _ hact l hr
    · rw [hchanged]; rfl
    · by_cases hu : v = t.u
      · subst hu; exact hslots i fun hi => hv (by rw [hi])
      · rw [hothers v hu]
  · have hrun : execOffsD u b w d = _ := Dev.bundleOp_eq h hw hb
    rw [hrun]
    generalize ctx u b x c w = t
    refine ⟨_, Bundle.setVLanes_rest _ _ _ _, fun l r hl hr => ?_, d.issue_frame t _⟩
    rw [Bundle.vreg_setVLanes _ (fD_lt _) hr, sum_offsets fun l => fld (t.opA l).toNat 8 4]
    by_cases hD : r = fD t.n
    · simp only [hD, List.mem_range, hl, and_self, if_true, true_and]
      split
      · exact apply_ite _ _ _ _
      · rfl
    · simp only [hD, false_and, and_false, if_false]

end Sys2Proof.Machine
end

section
/-! SUPPORT. Fields of a record, where one of them is set (R148, R257). -/

namespace Sys2Proof.Machine

/-- A record with a field set: what lies below the field, the value, what lies above it. -/
theorem setFld_eq (n lo len v : Nat) :
    setFld n lo len v = 2 ^ lo * (2 ^ len * (n / 2 ^ lo / 2 ^ len) + v % 2 ^ len) + n % 2 ^ lo := by
  have hlow := Nat.div_add_mod n (2 ^ lo)
  have hfield := Nat.div_add_mod (n / 2 ^ lo) (2 ^ len)
  unfold setFld fld
  rw [Nat.mul_add, ← Nat.mul_comm (v % 2 ^ len)]
  rw [← hfield, Nat.mul_add, Nat.mul_comm (2 ^ lo) (n / 2 ^ lo % 2 ^ len)] at hlow
  omega

theorem testBit_setFld (n lo len v i : Nat) :
    (setFld n lo len v).testBit i = if lo ≤ i ∧ i < lo + len then v.testBit (i - lo) else n.testBit i := by
  rw [setFld_eq, Nat.testBit_two_pow_mul_add _ (Nat.mod_lt _ (Nat.two_pow_pos lo)),
    Nat.testBit_two_pow_mul_add _ (Nat.mod_lt _ (Nat.two_pow_pos len))]
  simp only [Nat.testBit_mod_two_pow, Nat.testBit_div_two_pow]
  by_cases hlow : i < lo
  · simp [hlow, Nat.not_le.mpr hlow]
  · by_cases hhigh : i - lo < len
    · simp [hlow, hhigh, Nat.not_lt.mp hlow, show i < lo + len by omega]
    · have h : i - lo - len + len + lo = i := by omega
      simp [hlow, hhigh, h, show ¬ i < lo + len by omega]

/-- A field apart from the one that was set reads as before. -/
theorem fld_setFld_of_disjoint (n v : Nat) {lo len lo' len' : Nat} (h : lo' + len' ≤ lo ∨ lo + len ≤ lo') :
    fld (setFld n lo len v) lo' len' = fld n lo' len' := by
  refine Nat.eq_of_testBit_eq fun i => ?_
  unfold fld
  simp only [Nat.testBit_mod_two_pow, Nat.testBit_div_two_pow, testBit_setFld]
  by_cases hi : i < len'
  · rw [if_neg (by omega)]
  · simp [hi]

/-- A bit that was set reads so. -/
theorem bit_setFld (n i : Nat) (b : Bool) : bit (setFld n i 1 (b2n b)) i = b := by
  rw [bit_eq_testBit, testBit_setFld, if_pos ⟨le_rfl, by omega⟩, Nat.sub_self]
  cases b <;> rfl

end Sys2Proof.Machine
end

section
/-! SUPPORT. Rolls of statistics slots, expert tables and long operations (R152 to R158, R221, R222, R257 to R260, R311, R452),
and obligation O55. -/

namespace Sys2Proof.Machine

/-! ### Rolls of statistics slots (R152 to R158) -/

theorem execRollD_none {d : Dev} {j : Nat} (h : (d.job j).rolls = []) : execRollD j d = d := by
  unfold execRollD; rw [h]

/-- The step that a roll closes: its own, or for a manual roll the one after the last that was closed (R157). -/
def Dev.stepClosed (d : Dev) (j : Nat) (x : RollDue) : Nat :=
  match x.step with
  | some n => n
  | none => (d.cget (Cat.NUM_LAST_ROLL_STEP j) + 1) % 2 ^ 32

/-- The device once the roll `x` of job `j`, with `rest` due after it, has closed its step in each slot (R153, R157). -/
def Dev.rolled (d : Dev) (j : Nat) (x : RollDue) (rest : List RollDue) : Dev :=
  let a := d.advance (x.t + d.cget Cat.TT_SETTLE)
  let last := d.cget (Cat.NUM_LAST_ROLL_STEP j)
  ((d.job j).slots.foldl (fun d' kc =>
    (if x.step = none then d' else d'.fillGap j kc.2 last (d.stepClosed j x)).rollSlot j kc.1 kc.2 (d.stepClosed j x)
      (Tbl.getD x.figs kc.1 StatFig.empty))
    (a.setJob j { a.job j with rolls := rest, lastRollT := some x.t })).cset (Cat.NUM_LAST_ROLL_STEP j) (d.stepClosed j x)

theorem execRollD_due {d : Dev} {j : Nat} {x : RollDue} {rest : List RollDue} (h : (d.job j).rolls = x :: rest) :
    execRollD j d = (d.rolled j x rest).incMarkOpt j ((d.rolled j x rest).cget (Cat.NUM_ROLL_MARK j))
      (d.rolled j x rest).stamp := by
  unfold execRollD Dev.rolled Dev.stepClosed
  rw [h]
  simp only [Dev.cget_setJob, Dev.cget_advance, Dev.advance_job]
  cases x.step
  · simp only [Option.isSome_none, Bool.false_eq_true, if_false, if_true]
  · simp only [Option.isSome_some, if_true, reduceCtorEq, if_false]

/-- The effect of a write that asks for a manual roll (R157). -/
def Dev.rollWrite (j : Nat) (d : Dev) : WriteResult :=
  if (d.tt.st = .running && d.cget (Cat.NUM_ROLL_AUTO j) = 1) || (d.job j).rollPending then refuse d stDenied
  else ⟨d.rollDue j d.now none, stOk, false⟩

theorem Dev.rollWrite_cases (j : Nat) (d : Dev) :
    let no : Prop := (d.tt.st = .running ∧ d.cget (Cat.NUM_ROLL_AUTO j) = 1) ∨ (d.job j).rollPending = true
    (no → d.rollWrite j = refuse d stDenied) ∧ (¬ no → d.rollWrite j = ⟨d.rollDue j d.now none, stOk, false⟩) := by
  intro no
  have hb : (decide (d.tt.st = .running) && decide (d.cget (Cat.NUM_ROLL_AUTO j) = 1) || (d.job j).rollPending) = true ↔ no := by
    simp only [Bool.or_eq_true, Bool.and_eq_true, decide_eq_true_eq, no]
  exact ⟨fun h => if_pos (hb.mpr h), fun h => if_neg (mt hb.mp h)⟩

/-! ### Expert tables (R257 to R260) -/

theorem effThresh_eq (t n : Nat) : effThresh t n = if exHint n = 1 then 0xFFFFFFFF else if exHint n = 2 then 0
    else if fld n 160 16 = 0 then t else fld n 160 16 := by
  unfold effThresh
  split
  · next h => rw [if_pos h]
  · next h => rw [if_neg (by rw [h]; decide), if_pos h]
  · next h1 h2 => rw [if_neg h1, if_neg h2]

/-- A record that is rewritten: EFF_THRESH and PLACE are set, COUNT stays. -/
theorem fields_placed (t n : Nat) :
    fld (placed t n) 96 32 = effThresh t n % 2 ^ 32 ∧ fld (placed t n) 0 32 = fld n 0 32 ∧ fld (placed t n) 33 31 = 0
      ∧ bit (placed t n) 32 = decide (exHint n = 2 ∨ (exHint n = 0 ∧ effThresh t n ≤ fld n 0 32)) := by
  unfold placed placeOf
  refine ⟨?_, ?_, ?_, ?_⟩
  · rw [fld_setFld_of_disjoint _ _ (by decide), fld_setFld_of_disjoint _ _ (by decide), fld_setFld]
  · rw [fld_setFld_of_disjoint _ _ (by decide), fld_setFld_of_disjoint _ _ (by decide),
      fld_setFld_of_disjoint _ _ (by decide)]
  · rw [fld_setFld_of_disjoint _ _ (by decide), fld_setFld, Nat.zero_mod]
  · rw [bit_setFld, Bool.decide_or, Bool.decide_and]

/-- A reload's three cases: no placement, a bad table, a table that is rewritten. -/
theorem Dev.reload_effect (j : Nat) (keep : Dev → Dev) (d : Dev) : let res := Dev.reload j keep d
    (d.placementOn j = false → res.status = stOk ∧ res.dev = keep d)
      ∧ (d.placementOn j = true → d.expertTableOk j = false →
          res.status = stBadType ∧ res.dev = d.bump Cat.NMU_TABLE_REJECT)
      ∧ (d.placementOn j = true → d.expertTableOk j = true → res.status = stOk ∧ res.dev = (keep d).rewriteExperts j) := by
  unfold Dev.reload
  refine ⟨fun h => ?_, fun h ht => ?_, fun h ht => ?_⟩
  · rw [h]; exact ⟨rfl, rfl⟩
  · rw [h, ht]; exact ⟨rfl, rfl⟩
  · rw [h, ht]; exact ⟨rfl, rfl⟩

theorem Dev.reload_long (j : Nat) (keep : Dev → Dev) (d : Dev) : (Dev.reload j keep d).long = false := by
  unfold Dev.reload
  split
  · rfl
  · split <;> rfl

/-- The effect of a write of NMU_TABLE_RELOAD: 1 asks for a reload. -/
def Dev.reloadWrite (j v : Nat) (d : Dev) : WriteResult := if v = 1 then Dev.reload j id d else ⟨d, stOk, false⟩

theorem Dev.reloadWrite_long (j v : Nat) (d : Dev) : (d.reloadWrite j v).long = false := by
  unfold Dev.reloadWrite
  split
  · exact Dev.reload_long _ _ _
  · rfl

/-! ### Long operations (R221, R222, R311, R451, R452) -/

/-- The memory controllers' entries carry no job slot. -/
theorem jobOf_memory : ∀ f ∈ [2, 6, 7], (catEntry 0x3000 f).bind (·.jobOf 0x3000) = none := by decide

/-- EXP_SEAL carries its job slot. -/
theorem jobOf_expSeal : ∀ j < 16, (catEntry (0x9200 + j) 0x16).bind (·.jobOf (0x9200 + j)) = some j := by decide

/-- A write to the memory controllers that starts a long operation (R451). -/
theorem StartsLong.of_memory {mk : Req → Instr} {field v : Nat} {own : Dev → Bool} {k : LongKind} (hf : field ∈ [2, 6, 7])
    (he : ∀ r s, exec (mk r) s = lift (longWrite r 0x3000 field (leBytes 1 v) own k) s) :
    StartsLong mk 0x3000 field (leBytes 1 v) 1 .byTable own (fun _ _ => True) (fun d _ => d) k := by
  refine StartsLong.of (fun r d => d.startLong r 0x3000 field (leBytes 1 v) none k) he fun _ _ _ => ?_
  rw [jobOf_memory field hf]
  rfl

/-- A write that is never admitted starts no long operation. -/
theorem StartsLong.of_never {mk : Req → Instr} {index field len : Nat} {v : List Byte} {w : Writer} {own : Dev → Bool}
    {ready : Dev → Req → Prop} {prep : Dev → Req → Dev} {k : LongKind} (h : ∀ d, own d = false) :
    StartsLong mk index field v len w own ready prep k := by
  intro s r d1 hadmits
  obtain ⟨-, -, x, e, -, -, -, -, -, -, -, hown⟩ := hadmits
  rw [h d1] at hown
  exact absurd hown (by decide)

/-- The effect of a write of MEM_INTEGRITY_EN (R222). -/
def Dev.integrityWrite (r : Req) (v : Nat) (d : Dev) : WriteResult :=
  if d.t3Held then refuse d stDenied
  else if v = 0 then ⟨d.cset Cat.MEM_INTEGRITY_EN 0, stOk, false⟩
  else d.startLong r 0x3000 2 (leBytes 1 v) none (.integrity v)

/-- With a tier 3 page held the switch is refused. -/
theorem Dev.integrityWrite_held (r : Req) (v : Nat) {d : Dev} (h : d.t3Held = true) :
    d.integrityWrite r v = refuse d stDenied := if_pos h

theorem Dev.integrityWrite_free (r : Req) (v : Nat) {d : Dev} (h : d.t3Held = false) :
    d.integrityWrite r v = if v = 0 then ⟨d.cset Cat.MEM_INTEGRITY_EN 0, stOk, false⟩
      else d.startLong r 0x3000 2 (leBytes 1 v) none (.integrity v) := if_neg (by rw [h]; decide)

/-- The device on which a long operation has ended, before its answer: its work is done, a delivery that re-keyed holds its
slot, and CAT_LAST_LONG is set. -/
def LongOp.ended (l : LongOp) (hits : List ScrubHit) (d : Dev) : Dev :=
  let fin := l.finish hits { d with long := none }
  let h := match l.kind, fin.1.session? l.sess with
    | .rekey k, some x => fin.1.setSession l.sess (x.hold k)
    | _, _ => fin.1
  h.bset Cat.CAT_LAST_LONG (leBytes 2 l.index ++ leBytes 1 l.field ++ leBytes 1 fin.2 ++ leBytes 8 l.started ++ leBytes 8 h.now)

theorem execLongOperationEndD_none {d : Dev} (hits : List ScrubHit) (h : d.long = none) : execLongOperationEndD hits d = d := by
  unfold execLongOperationEndD; rw [h]

/-- An operation that ends is answered where its session is open. -/
theorem execLongOperationEndD_some {d : Dev} {l : LongOp} (hits : List ScrubHit) (h : d.long = some l) :
    ((l.ended hits d).session? l.sess = none → execLongOperationEndD hits d = l.ended hits d)
      ∧ ((l.ended hits d).session? l.sess ≠ none → ∃ r : Req, r.sess = l.sess ∧ r.reqId = l.reqId ∧ r.transport = l.transport
          ∧ r.typ = l.typ ∧ r.prot.isSome = l.prot ∧ execLongOperationEndD hits d
            = (l.ended hits d).answer r (l.finish hits { d with long := none }).2 0 [] l.index l.field 1) := by
  unfold execLongOperationEndD
  simp only [h]
  refine ⟨fun hs => if_pos (by rw [Option.isNone_iff_eq_none]; exact hs), fun hs => ⟨_, ?_, ?_, ?_, ?_, ?_,
    if_neg (by rw [Option.isNone_iff_eq_none]; exact hs)⟩⟩
  · rfl
  · rfl
  · rfl
  · rfl
  · cases l.prot <;> rfl

/-- A retraining is counted, and takes its die from those that are due (R221). -/
theorem Dev.retrain_effect (d : Dev) (i : Nat) : (d.retrain i).cget (Cat.MEM_RETRAIN_COUNT i) = d.cget (Cat.MEM_RETRAIN_COUNT i) + 1
    ∧ i ∉ (d.retrain i).mem3.due ∧ (d.retrain i).mem = d.mem ∧ (d.retrain i).jobs = d.jobs := by
  refine ⟨?_, by simp [Dev.retrain], d.bump_mem (Cat.MEM_RETRAIN_COUNT i), d.bump_jobs (Cat.MEM_RETRAIN_COUNT i)⟩
  exact (d.cget_bump _ _).trans (by rw [if_pos rfl])

/-! ### The obligation -/

/-- Settles O55: a roll is the one branch of ROLL that acts, and a slot's roll one of three; each write is its cases; the end of
a long operation is its work and then its answer. -/
theorem rollsExpertsAndLongOperations : Obligations.RollsExpertsAndLongOperations := by
  refine ⟨fun s j => ⟨fun h => Acts.of_eq rfl (execRollD_none h) rfl, fun x rest h => Acts.of_eq rfl (execRollD_due h) rfl⟩,
    fun d j k c n f => ⟨fun h => if_pos (by rw [h]; rfl), fun h hp => ?_, fun h hp => ?_⟩, fun _ _ _ _ _ _ => rfl, fun j v => ?_,
    ⟨fun j v => ?_, fun j v => ?_⟩, fun t n => ?_, fun _ => StartsLong.of_memory (by decide) fun _ _ => rfl,
    fun _ => StartsLong.of_memory (by decide) fun _ _ => rfl, ?_, ?_, ?_, fun j v => ?_,
    fun s hits => ⟨fun h => Acts.of_eq rfl (execLongOperationEndD_none hits h) rfl,
      fun l h => Acts.of_eq rfl rfl (execLongOperationEndD_some hits h)⟩,
    fun l hits d => ?_, Dev.retrain_effect⟩
  · unfold Dev.rollSlot
    dsimp only
    rw [if_neg (by rw [h]; decide), if_pos hp, ite_not]
    rfl
  · unfold Dev.rollSlot
    dsimp only
    rw [if_neg (by rw [h]; decide), if_neg (Nat.not_lt.mpr hp), ite_not]
    rfl
  · refine WriteOp.of (fun _ => Dev.rollWrite j) (fun _ _ => rfl) (fun _ d => ?_) fun _ d _ => ⟨fun h => ?_, fun h => ?_⟩
    · unfold Dev.rollWrite; split <;> rfl
    · rw [(d.rollWrite_cases j).1 h]; exact ⟨rfl, rfl⟩
    · rw [(d.rollWrite_cases j).2 h]; exact ⟨rfl, rfl⟩
  · refine WriteOp.of (fun _ => Dev.reloadWrite j v) (fun _ _ => rfl) (fun _ d => d.reloadWrite_long j v)
      fun _ d _ => ⟨fun hv => ?_, fun hv => ?_⟩
    · unfold Dev.reloadWrite; rw [if_pos hv]; exact d.reload_effect j id
    · unfold Dev.reloadWrite; rw [if_neg hv]; exact ⟨rfl, rfl⟩
  · exact WriteOp.of (fun _ => Dev.reload j fun d => d.cset (Cat.NMU_PLACE_THRESH j) v) (fun _ _ => rfl)
      (fun _ d => d.reload_long j _) fun _ d _ => d.reload_effect j _
  · have h := fields_placed t n
    rwa [effThresh_eq] at h
  · refine StartsLong.of (fun r => Dev.integrityWrite r 1) (fun _ _ => rfl) fun r d h => ?_
    rw [d.integrityWrite_free r 1 h, jobOf_memory 2 (by decide)]; rfl
  · intro s r d1 v hadmits h
    refine Acts.of_eq rfl (catWrite_admits hadmits (Dev.integrityWrite r v)) ?_
    rw [d1.integrityWrite_held r v h]; rfl
  · refine WriteOp.of (fun r => Dev.integrityWrite r 0) (fun _ _ => rfl) (fun r d => ?_) fun r d _ => ⟨fun h => ?_, fun h => ?_⟩
    · unfold Dev.integrityWrite; split <;> rfl
    · rw [d.integrityWrite_held r 0 h]; exact ⟨rfl, rfl⟩
    · rw [d.integrityWrite_free r 0 h]; exact ⟨rfl, rfl⟩
  · by_cases hj : j < 16
    · refine StartsLong.of (fun r d => (d.bset (Cat.EXP_SEAL j) v).startLong r (0x9200 + j) 0x16 v (some j) (.expSeal j v))
        (fun _ _ => rfl) fun _ _ _ => ?_
      rw [jobOf_expSeal j hj]
    · exact StartsLong.of_never fun _ => by simp [hj]
  · refine ⟨fun mask h => ?_, fun mask h => ?_, fun v h => ?_, fun k h => ?_, fun j v h => ?_, fun images ok h => ?_⟩ <;>
      (unfold LongOp.finish; rw [h])

end Sys2Proof.Machine
end

section
/-! SUPPORT. Vector and uniform instructions on registers: their results by lane and by U register (R175 to R180), and
obligations O6 to O9. -/

namespace Sys2Proof.Machine

/-! ### The forms of an instruction with a result by lane or a uniform one -/

section
variable {mk : Nat → Nat → TWord → Instr}

/-- A vector instruction with one result for each lane. -/
theorem LaneOp.of_exact {used : Nat} {f : TCtx → Nat → Nat → F32}
    (he : ∀ u b w s, exec (mk u b w) s
      = lift (Dev.fetched (opcOf (mk u b w)) u b w (Dev.lanes u b w used noBad false f)) s) : LaneOp mk used 0 f :=
  LaneOp.of (free := false) he

/-- A vector instruction whose results a free value of each lane chooses. -/
theorem LaneOp.of_chosen {used : Nat} {f : TCtx → Nat → Nat → F32}
    (he : ∀ u b w s, exec (mk u b w) s
      = lift (Dev.fetched (opcOf (mk u b w)) u b w (Dev.lanes u b w used noBad true f)) s) : LaneOp mk used 64 f :=
  LaneOp.of (free := true) he

theorem IntOp.of {f : Word → Word → Word}
    (he : ∀ u b w s, exec (mk u b w) s = lift (Dev.fetched (opcOf (mk u b w)) u b w (Dev.intOp u b w f)) s) : IntOp mk f :=
  LaneOp.of_exact he

theorem ImmOp.of {f : Word → Word → Word}
    (he : ∀ u b w s, exec (mk u b w) s = lift (Dev.fetched (opcOf (mk u b w)) u b w (Dev.immOp u b w f)) s) : ImmOp mk f :=
  LaneOp.of_exact he

theorem UniBin.of {f : DWord → DWord → DWord}
    (he : ∀ u b w s, exec (mk u b w) s = lift (Dev.fetched (opcOf (mk u b w)) u b w (Dev.uOp u b w f)) s) : UniBin mk f :=
  UniOp.of he

end

/-! ### FP32 and special functions -/

/-- Settles O6: each is the vector instruction of its result. -/
theorem floatingPointByLane : Obligations.FloatingPointByLane :=
  ⟨LaneOp.of_exact fun _ _ _ _ => rfl, LaneOp.of_exact fun _ _ _ _ => rfl, LaneOp.of_exact fun _ _ _ _ => rfl,
    LaneOp.of_exact fun _ _ _ _ => rfl, LaneOp.of_exact fun _ _ _ _ => rfl, LaneOp.of_exact fun _ _ _ _ => rfl,
    LaneOp.of_exact fun _ _ _ _ => rfl, LaneOp.of_exact fun _ _ _ _ => rfl⟩

/-- Settles O7: each is the vector instruction of its result, which all but FSQRT choose by the lane's free value. -/
theorem specialFunctionsByLane : Obligations.SpecialFunctionsByLane :=
  ⟨LaneOp.of_chosen fun _ _ _ _ => rfl, LaneOp.of_chosen fun _ _ _ _ => rfl, LaneOp.of_exact fun _ _ _ _ => rfl,
    LaneOp.of_chosen fun _ _ _ _ => rfl, LaneOp.of_chosen fun _ _ _ _ => rfl, LaneOp.of_chosen fun _ _ _ _ => rfl⟩

/-! ### Integer operations that wrap (R180) -/

theorem ofNat_toNat_mul {n : Nat} (x y : BitVec n) : BitVec.ofNat n (x.toNat * y.toNat) = x * y := by
  simp [BitVec.ofNat_mul]

theorem ofNat_toNat_mul_add {n : Nat} (x y z : BitVec n) : BitVec.ofNat n (x.toNat * y.toNat + z.toNat) = x * y + z := by
  simp [BitVec.ofNat_add, BitVec.ofNat_mul]

/-- Settles O8: each is a vector or uniform instruction of an operation on 32 or 64 bits; a product keeps its low bits. -/
theorem integerOperationsWrapWithoutCounting : Obligations.IntegerOperationsWrapWithoutCounting := by
  unfold Obligations.IntegerOperationsWrapWithoutCounting
  simp only [ofNat_toNat_mul, ofNat_toNat_mul_add]
  exact ⟨IntOp.of fun _ _ _ _ => rfl, IntOp.of fun _ _ _ _ => rfl, IntOp.of fun _ _ _ _ => rfl,
    LaneOp.of_exact fun _ _ _ _ => rfl, IntOp.of fun _ _ _ _ => rfl, IntOp.of fun _ _ _ _ => rfl,
    IntOp.of fun _ _ _ _ => rfl, ImmOp.of fun _ _ _ _ => rfl, ImmOp.of fun _ _ _ _ => rfl, ImmOp.of fun _ _ _ _ => rfl,
    UniBin.of fun _ _ _ _ => rfl, UniBin.of fun _ _ _ _ => rfl, UniBin.of fun _ _ _ _ => rfl,
    UniBin.of fun _ _ _ _ => rfl, UniBin.of fun _ _ _ _ => rfl⟩

/-! ### Minima, maxima, counts and halves (R177) -/

theorem ite_slt {n : Nat} (x y : BitVec n) {α : Type} (a b : α) :
    (if x.toInt < y.toInt then a else b) = if x.slt y then a else b := by
  simp only [BitVec.slt_iff_toInt_lt]

theorem ite_ult {n : Nat} (x y : BitVec n) {α : Type} (a b : α) :
    (if x.toNat < y.toNat then a else b) = if x.ult y then a else b := by
  simp only [BitVec.ult_iff_toNat_lt]

/-- The number of set bits, counted bit by bit. -/
theorem popWord_eq (x : Word) : popWord x = BitVec.ofNat 32 ((List.range 32).filter fun i => x.getLsbD i).length := by
  unfold popWord popCount setBits
  simp only [bit_eq_testBit, BitVec.getLsbD]

/-- A word with a new high half: the low half stays. -/
theorem replaceHigh_eq (x : DWord) (i : Word) :
    BitVec.ofNat 64 (x.toNat % 2 ^ 32 + i.toNat * 2 ^ 32) = (x &&& 0xFFFFFFFF#64) ||| (i.setWidth 64 <<< 32) := by
  have hlow : x.toNat % 2 ^ 32 < 2 ^ 32 := Nat.mod_lt _ (by decide)
  have hhigh := i.isLt
  refine BitVec.eq_of_toNat_eq ?_
  have hmask : x.toNat &&& 0xFFFFFFFF = x.toNat % 2 ^ 32 := Nat.and_two_pow_sub_one_eq_mod x.toNat 32
  rw [BitVec.toNat_or, BitVec.toNat_and, BitVec.toNat_shiftLeft, BitVec.toNat_setWidth, BitVec.toNat_ofNat, BitVec.toNat_ofNat,
    Nat.mod_eq_of_lt (show 0xFFFFFFFF < 2 ^ 64 by decide), hmask, Nat.mod_eq_of_lt (show i.toNat < 2 ^ 64 by omega),
    Nat.shiftLeft_eq, Nat.mod_eq_of_lt (show i.toNat * 2 ^ 32 < 2 ^ 64 by omega), Nat.mod_eq_of_lt (by omega), Nat.lor_comm,
    ← Nat.shiftLeft_eq, ← Nat.shiftLeft_add_eq_or_of_lt hlow, Nat.add_comm]

/-- Settles O9: each is a vector or uniform instruction of its operation; comparisons, counts and the high half read as the
words' numbers and bits. -/
theorem logicMinimaMovesAndCounts : Obligations.LogicMinimaMovesAndCounts := by
  unfold Obligations.LogicMinimaMovesAndCounts
  simp only [ite_slt, ite_ult, ← popWord_eq, replaceHigh_eq]
  exact ⟨IntOp.of fun _ _ _ _ => rfl, IntOp.of fun _ _ _ _ => rfl, IntOp.of fun _ _ _ _ => rfl, IntOp.of fun _ _ _ _ => rfl,
    IntOp.of fun _ _ _ _ => rfl, IntOp.of fun _ _ _ _ => rfl, IntOp.of fun _ _ _ _ => rfl,
    LaneOp.of_exact fun _ _ _ _ => rfl, LaneOp.of_exact fun _ _ _ _ => rfl, ImmOp.of fun _ _ _ _ => rfl,
    ImmOp.of fun _ _ _ _ => rfl, LaneOp.of_exact fun _ _ _ _ => rfl, LaneOp.of_exact fun _ _ _ _ => rfl,
    LaneOp.of_exact fun _ _ _ _ => rfl, LaneOp.of_exact fun _ _ _ _ => rfl, UniBin.of fun _ _ _ _ => rfl,
    UniBin.of fun _ _ _ _ => rfl, UniOp.of fun _ _ _ _ => rfl, UniOp.of fun _ _ _ _ => rfl, UniOp.of fun _ _ _ _ => rfl⟩

end Sys2Proof.Machine
end

section
/-! SUPPORT. Predicate instructions (R168, R170, R177), and obligation O10. -/

namespace Sys2Proof.Machine

theorem ifBad_decide (p : Prop) [Decidable p] (i : Nat) : ifBad (decide p) i = if p then [i] else [] := by
  unfold ifBad
  simp only [decide_eq_true_eq]

theorem ifBad_eq_nil {b : Bool} {i : Nat} : ifBad b i = [] ↔ b = false := by
  unfold ifBad
  cases b <;> simp

/-- A predicate instruction at bundle level: with no active lane no lane's predicate changes either (R171). -/
theorem Dev.uniformPred_effect {d : Dev} {u b : Nat} {x : Bundle} {c : Cmd} {w : TWord} {used : Nat} {bad : Nat → List Nat}
    {f : TCtx → Nat → Bool} (h : Issues d u b x c) (hw : Only w used) (hb : bad w.toNat = []) :
    PredEffect d (Dev.uniformOp u b w used bad (fun t => t.x.setPLanes (fPD t.n) t.act (f t)) d) (ctx u b x c w)
      (f (ctx u b x c w)) := by
  by_cases ha : x.active w.toNat = []
  · have hact : (ctx u b x c w).act = [] := ha
    rw [Dev.uniformOp_idle h hw hb ha]
    exact ⟨_, rfl, fun r l _ => by rw [hact, if_neg (by simp)], Dev.issue_frame _ _⟩
  · have heffect := Dev.pred_effect (f := f) h hw hb
    rw [Dev.bundleOp_eq h hw hb] at heffect
    rwa [Dev.uniformOp_active h hw hb ha]

/-- Settles O10: each is the predicate instruction of its comparison or operation; UCMP is one at bundle level. -/
theorem predicateInstructionsByLane : Obligations.PredicateInstructionsByLane := by
  unfold Obligations.PredicateInstructionsByLane
  simp only [← ifBad_decide]
  exact ⟨PredOp.of fun _ _ _ _ => rfl, PredOp.of fun _ _ _ _ => rfl, PredOp.of fun _ _ _ _ => rfl,
    PredOp.of fun _ _ _ _ => rfl, ThreadOp.of execUcmpD (fun _ _ _ _ => rfl) fun _ _ _ _ _ _ h hw hb =>
      Dev.uniformPred_effect h hw hb⟩

end Sys2Proof.Machine
end

section
/-! SUPPORT. Cross-lane instructions (R183), and obligation O11. -/

namespace Sys2Proof.Machine

/-! ### The tree of a reduction -/

/-- A level of the tree combines nothing where no element is present. -/
theorem treeLevel_none (cond : Nat) (vs : List (Option Word)) (h : ∀ v ∈ vs, v = none) :
    ∀ v ∈ (treeLevel cond vs).vals, v = none := by
  fun_induction treeLevel cond vs with
  | case1 x y t r rest ih => simp at h
  | case2 x t rest ih => simp at h
  | case3 y t rest ih =>
    simp only [List.forall_mem_cons] at h ⊢
    exact ⟨h.2.1, ih h.2.2⟩
  | case4 l => exact h

/-- A reduction of no element has none. -/
theorem treeReduce_none (cond k : Nat) (r : TreeRes) (h : ∀ v ∈ r.vals, v = none) :
    ∀ v ∈ (treeReduce cond k r).vals, v = none := by
  induction k generalizing r with
  | zero => exact h
  | succ k ih => exact ih _ (treeLevel_none cond r.vals h)

/-- With no active lane RED gives the table's value. -/
theorem redValue_idle {t : TCtx} (h : t.act = []) : redValue t = redEmpty (fCond t.n) := by
  have hnone : ∀ v ∈ (redResult t).vals, v = none := treeReduce_none _ _ _ (by simp [h])
  unfold redValue
  split
  · next x _ hv => exact absurd (hnone (some x) (by simp [hv])) (by simp)
  · rfl

/-! ### Results to a U register, whether or not a lane is active -/

theorem fpAdds_zero (u : Nat) : fpAdds u 0 0 = fun _ => 0 := by
  funext key
  simp [fpAdds]

theorem Dev.toUniform_countFp (d : Dev) (t : TCtx) (v : DWord) (sat inv : Nat) :
    ToUniform d (((d.issue t).countFp t sat inv).putBundle t (t.x.setU (fD t.n) v)) t v sat inv :=
  ⟨_, Bundle.setU_rest _ _ _, fun _ => Bundle.ureg_setU _ _ _ _, Dev.countFp_frame _ _ _ _⟩

/-- A bundle's result to U[D] with nothing counted. -/
theorem Dev.toUniform_bundleOp {d : Dev} {u b : Nat} {x : Bundle} {c : Cmd} {w : TWord} {used : Nat} {bad : Nat → List Nat}
    {f : TCtx → DWord} (h : Issues d u b x c) (hw : Only w used) (hb : bad w.toNat = []) :
    ToUniform d (Dev.bundleOp u b w used bad (fun t => t.x.setU (fD t.n) (f t)) d) (ctx u b x c w) (f (ctx u b x c w)) 0 0 := by
  obtain ⟨y, hy, hreg, hframe⟩ := Dev.uni_effect (f := f) h hw hb
  exact ⟨y, hy, hreg, by rwa [fpAdds_zero]⟩

/-! ### RED and SCAN once they have issued -/

/-- RED's value in 64 bits: sign-extended for the signed operations. -/
def redWide (t : TCtx) : DWord :=
  if 3 ≤ fCond t.n ∧ fCond t.n ≤ 5 then (redValue t).signExtend 64 else (redValue t).setWidth 64

theorem execRedD_issues {d : Dev} {u b : Nat} {x : Bundle} {c : Cmd} {w : TWord} (h : Issues d u b x c)
    (hw : Only w (mD + mA + mCond)) (hb : noBad w.toNat = []) (t : TCtx) (ht : ctx u b x c w = t) :
    execRedD u b w d = ((d.issue t).countFp t (redResult t).sat (redResult t).inv).putBundle t
      (t.x.setU (fD t.n) (redWide t)) := by
  subst ht
  have hrun : execRedD u b w d = _ := Dev.thread_issues h hw hb rfl
  rw [hrun]
  unfold redWide
  simp only [Bool.and_eq_true, decide_eq_true_eq]
  rfl

theorem execScanD_issues {d : Dev} {u b : Nat} {x : Bundle} {c : Cmd} {w : TWord} (h : Issues d u b x c)
    (hw : Only w (mD + mA + mCond)) (hb : fCond w.toNat = 0 ∨ fCond w.toNat = 3 ∨ fCond w.toNat = 4) (t : TCtx)
    (ht : ctx u b x c w = t) :
    execScanD u b w d = ((d.issue t).countFp t (scanResult t).sat (scanResult t).inv).putBundle t
      (t.x.setVLanes (fD t.n) t.act fun l => (((scanResult t).vals[l]?).getD none).getD 0) := by
  subst ht
  refine Dev.thread_issues h hw (ifBad_eq_nil.mpr ?_) rfl
  rcases hb with hb | hb | hb <;> simp [hb]

/-- Settles O11: SHFL and SHFLX are vector instructions; RED and SCAN count and write what their trees give; VOTE and RDLANE
write a U register. -/
theorem crossLaneInstructions : Obligations.CrossLaneInstructions := by
  refine ⟨LaneOp.of_exact fun _ _ _ _ => rfl, LaneOp.of_exact fun _ _ _ _ => rfl,
    ThreadOp.of execRedD (fun _ _ _ _ => rfl) fun d u b w x c h hw hb => ⟨?_, redValue_idle⟩,
    ThreadOp.of execScanD (fun _ _ _ _ => rfl) fun d u b w x c h hw hb => ?_,
    ThreadOp.of execVoteD (fun _ _ _ _ => rfl) fun d u b w x c h hw hb => Dev.toUniform_bundleOp h hw hb,
    ThreadOp.of execRdlaneD (fun _ _ _ _ => rfl) fun d u b w x c h hw hb => Dev.toUniform_bundleOp h hw hb⟩
  · rw [execRedD_issues h hw hb _ rfl]
    exact d.toUniform_countFp _ _ _ _
  · have hcond : fCond w.toNat = 0 ∨ fCond w.toNat = 3 ∨ fCond w.toNat = 4 := by
      by_contra hc
      simp only [hc, if_false] at hb
      exact absurd hb (by simp)
    rw [execScanD_issues h hw hcond _ rfl]
    exact ⟨_, Bundle.setVLanes_rest _ _ _ _, fun l r _ hr => Bundle.vreg_setVLanes _ (fD_lt _) hr _ _ _,
      Dev.countFp_frame _ _ _ _⟩

end Sys2Proof.Machine
end

section
/-! SUPPORT. Control flow of a bundle (R171, R173, R200), and obligation O12. -/

namespace Sys2Proof.Machine

/-! ### Branches -/

/-- The model's target counts from the PC that has moved past the instruction, eight bytes back. -/
theorem TCtx.target_eq (t : TCtx) : t.target = jumpTarget t := by
  unfold TCtx.target jumpTarget TCtx.pc
  generalize toSigned 32 (fImm t.n) = k
  omega

/-- Condition by condition, the model's test of a branch is the statement's. -/
theorem branchTaken_iff (t : TCtx) : branchTaken t = true ↔ bcondHolds t := by
  unfold branchTaken bcondHolds
  generalize fld t.n 48 4 = cond
  match cond with
  | 0 => exact iff_of_true rfl trivial
  | 1 => exact List.any_eq_true
  | 2 => exact List.all_eq_true
  | 3 => exact (iff_of_eq (Bool.not_eq_true' _)).trans (Bool.eq_false_iff.trans (not_congr List.any_eq_true))
  | 4 => exact decide_eq_true_iff
  | _ + 5 => exact decide_eq_true_iff

/-- A bundle-level instruction that issues: its bundle with an active lane, the bundle as it is with none (R171). -/
theorem Dev.uniformOp_frame {d : Dev} {u b : Nat} {x : Bundle} {c : Cmd} {w : TWord} {used : Nat} {bad : Nat → List Nat}
    {f : TCtx → Bundle} (h : Issues d u b x c) (hw : Only w used) (hb : bad w.toNat = []) {y : Bundle}
    (hy : (if (ctx u b x c w).act = [] then (ctx u b x c w).x else f (ctx u b x c w)) = y) :
    ThreadFrame d (Dev.uniformOp u b w used bad f d) (ctx u b x c w) y (fun _ => 0) 0 0 := by
  unfold Dev.uniformOp
  rw [Dev.bundleOp_eq h hw hb]
  simp only [List.isEmpty_iff, hy]
  exact Dev.issue_frame _ _

/-! ### Calls, returns, exits -/

/-- What CALL does once it has issued. -/
def callRun (t : TCtx) (d : Dev) : Dev :=
  if t.act.isEmpty then d
  else if 16 ≤ t.x.ret.length then d.stopBundle t.u t.b t.k 0x30 56
  else d.putBundle t { t.x with ret := t.x.pc :: t.x.ret, pc := t.target }

section
variable {t : TCtx} {d : Dev}

theorem callRun_idle (h : t.act = []) : callRun t d = d := by simp [callRun, h]

theorem callRun_jumps (ha : t.act ≠ []) (h : t.x.ret.length < 16) :
    callRun t d = d.putBundle t { t.x with ret := t.x.pc :: t.x.ret, pc := jumpTarget t } := by
  unfold callRun
  rw [if_neg (by simpa using ha), if_neg (by omega), TCtx.target_eq]

theorem callRun_stops (ha : t.act ≠ []) (h : 16 ≤ t.x.ret.length) : callRun t d = d.stopBundle t.u t.b t.k 0x30 56 := by
  unfold callRun
  rw [if_neg (by simpa using ha), if_pos h]

end

/-- What RET does once it has issued. -/
def retRun (t : TCtx) (d : Dev) : Dev :=
  if t.act.isEmpty then d
  else
    match t.x.ret with
    | [] => d.stopBundle t.u t.b t.k 0x30 56
    | a :: rest => d.putBundle t { t.x with ret := rest, pc := a }

section
variable {t : TCtx} {d : Dev}

theorem retRun_idle (h : t.act = []) : retRun t d = d := by simp [retRun, h]

theorem retRun_pops {a : Nat} {rest : List Nat} (ha : t.act ≠ []) (h : t.x.ret = a :: rest) :
    retRun t d = d.putBundle t { t.x with ret := rest, pc := a } := by
  unfold retRun
  rw [if_neg (by simpa using ha), h]

theorem retRun_stops (ha : t.act ≠ []) (h : t.x.ret = []) : retRun t d = d.stopBundle t.u t.b t.k 0x30 56 := by
  unfold retRun
  rw [if_neg (by simpa using ha), h]

end

/-- LIVE once the active lanes have left. -/
def TCtx.liveLeft (t : TCtx) : DWord := t.x.live &&& ~~~ laneMask t.act

theorem TCtx.getLsbD_liveLeft (t : TCtx) {l : Nat} (h : l < 64) :
    t.liveLeft.getLsbD l = (t.x.live.getLsbD l && !decide (l ∈ t.act)) := by
  unfold TCtx.liveLeft
  rw [BitVec.getLsbD_and, BitVec.getLsbD_not, laneMask_bit _ _ h, decide_eq_true h, Bool.true_and]

/-- What EXIT does once it has issued. -/
def exitRun (t : TCtx) (d : Dev) : Dev :=
  if t.liveLeft = 0 then d.endBundle t.u t.b t.k else d.putBundle t { t.x with live := t.liveLeft }

/-! ### The obligation -/

/-- Settles O12: BRA is a bundle-level instruction, and CALL, RET and EXIT are their branches once they have issued. -/
theorem controlFlowOfABundle : Obligations.ControlFlowOfABundle := by
  refine ⟨ThreadOp.of execBraD (fun _ _ _ _ => rfl) fun d u b w x c h hw hb => ?_,
    ThreadOp.of execCallD (fun _ _ _ _ => rfl) fun d u b w x c h hw hb => ?_,
    ThreadOp.of execRetD (fun _ _ _ _ => rfl) fun d u b w x c h hw hb => ?_,
    ThreadOp.of execExitD (fun _ _ _ _ => rfl) fun d u b w x c h hw hb => ?_⟩
  · rw [← ifBad_decide] at hb
    refine ⟨fun ha htaken => Dev.uniformOp_frame h hw hb ?_, fun hidle => Dev.uniformOp_frame h hw hb ?_⟩
    · rw [if_neg ha, if_pos ((branchTaken_iff _).mpr htaken), TCtx.target_eq]
    · rw [ite_eq_left_iff]
      exact fun ha => if_neg fun htaken => hidle.elim ha (· ((branchTaken_iff _).mp htaken))
  · have hrun : execCallD u b w d = callRun (ctx u b x c w) (d.issue (ctx u b x c w)) := Dev.thread_issues h hw hb rfl
    rw [hrun]
    refine ⟨fun ha => Dev.idle_frame (callRun_idle ha), fun ha hroom => ?_, callRun_stops⟩
    rw [callRun_jumps ha hroom]
    exact Dev.issue_frame _ _
  · have hrun : execRetD u b w d = retRun (ctx u b x c w) (d.issue (ctx u b x c w)) := Dev.thread_issues h hw hb rfl
    rw [hrun]
    refine ⟨fun ha => Dev.idle_frame (retRun_idle ha), fun a rest ha hret => ?_, retRun_stops⟩
    rw [retRun_pops ha hret]
    exact Dev.issue_frame _ _
  · have hrun : execExitD u b w d = exitRun (ctx u b x c w) (d.issue (ctx u b x c w)) := Dev.thread_issues h hw hb rfl
    rw [hrun]
    refine ⟨(ctx u b x c w).liveLeft, fun l hl => TCtx.getLsbD_liveLeft _ hl, fun hlive => ?_, fun hlive => if_pos hlive⟩
    unfold exitRun
    rw [if_neg hlive]
    exact Dev.issue_frame _ _

end Sys2Proof.Machine
end

section
/-! SUPPORT. ATOM: what it waits for, how its lanes are performed and where it stops (R186, R189 to R191, R200, R203), and
obligation O17. -/

namespace Sys2Proof.Machine

/-! ### What the count of bank conflicts leaves alone -/

theorem Dev.badLine_countBanks (d : Dev) (t : TCtx) (accs : List LaneAcc) (atom : Bool) (pa : Nat) :
    (d.countBanks t accs atom).badLine pa = d.badLine pa := by
  unfold Dev.badLine
  rw [Dev.region_countBanks, Dev.countBanks_rest]
  rfl

theorem Dev.accLines_countBanks (d : Dev) (t : TCtx) (accs accs' : List LaneAcc) (atom : Bool) :
    (d.countBanks t accs atom).accLines t accs' = d.accLines t accs' := by
  unfold Dev.accLines
  simp only [Dev.lanePa_countBanks]

/-! ### ATOM once it has issued -/

/-- A lane's access lies in tier 4. -/
def Dev.laneInHost (d : Dev) (t : TCtx) (a : LaneAcc) : Bool :=
  match d.region (d.lanePa t a.addr) with
  | .host _ => true
  | _ => false

theorem Dev.laneInHost_iff (d : Dev) (t : TCtx) (a : LaneAcc) :
    d.laneInHost t a = true ↔ ∃ p, d.region (d.lanePa t a.addr) = .host p := by
  unfold Dev.laneInHost
  split <;> simp_all

/-- The device before the first lane: the unit's stores to the lines are accepted, and the lines have left its read buffer. -/
def Dev.atomStart (c : Dev) (t : TCtx) (lines : List Nat) : Dev :=
  lines.foldl (fun d l => d.dropLine t.u l) (c.acceptWhere t.u fun p => lines.contains (p.pa / 64))

/-- The device once each active lane has been performed in turn, one more load is outstanding, and the poison that was met is
counted. -/
def Dev.atomPerformed (c : Dev) (t : TCtx) : Dev :=
  let accs := t.act.map (laneAcc t)
  let lines := c.accLines t accs
  let r := accs.foldl (Dev.atomLane t) (c.atomStart t lines, t.x)
  (r.1.putBundle t (acquireWait t.n { r.2 with loads := r.2.loads + 1 })).threadPoison t
    ((lines.filter fun l => c.badLine (64 * l)).map (64 * ·))

/-- What ATOM does once it has issued. -/
def atomRun (t : TCtx) (d : Dev) : Dev :=
  if t.act.isEmpty then d
  else
    let m := d.misCounted t
    m.unlessStopped t true
      (if (t.act.map (laneAcc t)).any (m.laneInHost t) then m.stopBundle t.u t.b t.k 0x31 0
        else (m.countBanks t (t.act.map (laneAcc t)) true).atomPerformed t)

theorem execAtomD_eq (u b : Nat) (w : TWord) :
    execAtomD u b w = Dev.thread u b w (mMem + mD + mk 20 5) atomBad (atomReady u b w) atomRun :=
  Dev.thread_congr fun t d hu => by subst hu; rfl

theorem exec_atom (u b : Nat) (w : TWord) (s : State) :
    exec (.atom u b w) s = lift (Dev.fetched (opcOf (.atom u b w)) u b w (execAtomD u b w)) s := rfl

/-- What the statement asks of an atomic's issue is what it waits for (R22, R24, R191, R203). -/
theorem atomReady_of {u b : Nat} {w : TWord} {d : Dev} {c : Cmd} {x : Bundle}
    (h : (ctx u b x c w).x.loads < 16 ∧ d.lanesStalled (ctx u b x c w) = false
      ∧ d.releaseMet (ctx u b x c w).u (ctx u b x c w).k (ctx u b x c w).b (ctx u b x c w).n = true) :
    atomReady u b w d c x = true := by
  obtain ⟨hloads, hstalled, hrelease⟩ := h
  have hrelease' : d.releaseMet u x.cmd b w.toNat = true := hrelease
  simp [atomReady, loadReady_of ⟨hloads, hstalled⟩, hrelease']

section
variable {t : TCtx} {d : Dev}

theorem atomRun_idle (h : t.act = []) : atomRun t d = d := by simp [atomRun, h]

theorem atomRun_stops {s : MemStop} (ha : t.act ≠ [])
    (hs : (memIssued d t).memStop t (t.act.map (laneAcc t)) true = some s) :
    atomRun t (d.issue t) = (memIssued d t).stopMem t s := by
  unfold atomRun
  rw [if_neg (by simpa using ha)]
  exact Dev.unlessStopped_some _ hs

theorem atomRun_inHost (ha : t.act ≠ []) (hs : (memIssued d t).memStop t (t.act.map (laneAcc t)) true = none)
    (hh : ∃ a ∈ t.act.map (laneAcc t), (memIssued d t).laneInHost t a = true) :
    atomRun t (d.issue t) = (memIssued d t).stopBundle t.u t.b t.k 0x31 0 := by
  unfold atomRun
  rw [if_neg (by simpa using ha)]
  exact (Dev.unlessStopped_none _ hs).trans (if_pos (List.any_eq_true.mpr hh))

theorem atomRun_performs (ha : t.act ≠ []) (hs : (memIssued d t).memStop t (t.act.map (laneAcc t)) true = none)
    (hh : ¬ ∃ a ∈ t.act.map (laneAcc t), (memIssued d t).laneInHost t a = true) :
    atomRun t (d.issue t) = ((memIssued d t).countBanks t (t.act.map (laneAcc t)) true).atomPerformed t := by
  unfold atomRun
  rw [if_neg (by simpa using ha)]
  exact (Dev.unlessStopped_none _ hs).trans (if_neg (mt List.any_eq_true.mp hh))

end

/-! ### One lane (R189) -/

theorem aop64_of_lt {o : Nat} (h : o < 13) : aop64 o = false := by
  unfold aop64
  simp only [Bool.or_eq_false_iff, decide_eq_false_iff_not]
  omega

theorem aop64_of_mem {o : Nat} (h : 13 ≤ o ∧ o ≤ 15) : aop64 o = true := by
  unfold aop64
  simp only [Bool.or_eq_true, decide_eq_true_eq]
  omega

/-- The larger of two by an order on their numbers. -/
theorem apply_ite_lt_eq_max {α β : Type} [LinearOrder β] (f : α → β) (x y : α) :
    f (if f x < f y then y else x) = max (f x) (f y) := by
  split
  · next h => exact (max_eq_right h.le).symm
  · next h => exact (max_eq_left (not_lt.mp h)).symm

theorem apply_ite_lt_eq_min {α β : Type} [LinearOrder β] (f : α → β) (x y : α) :
    f (if f y < f x then y else x) = min (f x) (f y) := by
  split
  · next h => exact (min_eq_right h.le).symm
  · next h => exact (min_eq_left (not_lt.mp h)).symm

/-- The operations of 32 bits. -/
theorem atomOp32_values (old v cmp : Word) :
    (atomOp32 0 old v cmp).bits = old + v ∧ atomOp32 1 old v cmp = f32Add old v
      ∧ (atomOp32 2 old v cmp).bits.toInt = max old.toInt v.toInt ∧ (atomOp32 3 old v cmp).bits.toInt = min old.toInt v.toInt
      ∧ (atomOp32 4 old v cmp).bits.toNat = max old.toNat v.toNat ∧ (atomOp32 5 old v cmp).bits.toNat = min old.toNat v.toNat
      ∧ atomOp32 6 old v cmp = f32Max old v ∧ atomOp32 7 old v cmp = f32Min old v
      ∧ (atomOp32 8 old v cmp).bits = old &&& v ∧ (atomOp32 9 old v cmp).bits = old ||| v
      ∧ (atomOp32 10 old v cmp).bits = old ^^^ v ∧ (atomOp32 11 old v cmp).bits = v
      ∧ (atomOp32 12 old v cmp).bits = if old = cmp then v else old := by
  refine ⟨rfl, rfl, ?_, ?_, ?_, ?_, rfl, rfl, rfl, rfl, rfl, rfl, rfl⟩ <;> simp only [atomOp32, intRes, ← ite_slt, ← ite_ult]
  · exact apply_ite_lt_eq_max BitVec.toInt old v
  · exact apply_ite_lt_eq_min BitVec.toInt old v
  · exact apply_ite_lt_eq_max BitVec.toNat old v
  · exact apply_ite_lt_eq_min BitVec.toNat old v

/-! ### The obligation -/

/-- Settles O17: ATOM, once it has issued, stops or is performed by one branch each, and the count of bank conflicts changes
nothing that it reads; a lane is performed on 32 or 64 bits by its operation. -/
theorem atomicsReturnTheOldValue : Obligations.AtomicsReturnTheOldValue := by
  refine ⟨ThreadWhen.of atomReady (fun _ _ _ => atomRun) exec_atom execAtomD_eq (fun d u b w x c h => atomReady_of h)
      fun d u b w x c _ _ _ _ => ?_,
    fun t d x a hbad hop => ?_, fun t d x a hbad hlo hhi => ?_, atomOp32_values⟩
  · generalize ctx u b x c w = t
    dsimp only
    simp only [← Dev.laneInHost_iff]
    refine ⟨fun ha => Dev.idle_frame (atomRun_idle ha), fun stop ha hs => atomRun_stops ha hs, atomRun_inHost,
      fun ha hs hh => ?_⟩
    rw [atomRun_performs ha hs hh]
    unfold Dev.atomPerformed
    simp only [Dev.accLines_countBanks, Dev.badLine_countBanks]
    rfl
  · unfold Dev.atomLane
    simp only [hbad, aop64_of_lt hop, Bool.false_eq_true, if_false]
  · unfold Dev.atomLane
    simp only [hbad, aop64_of_mem ⟨hlo, hhi⟩, Bool.false_eq_true, if_false, if_true]

end Sys2Proof.Machine
end

section
/-! SUPPORT. Where a thread instruction does not issue, and what stops its bundle (R169, R172, R175, R176, R200), and
obligation O60. -/

namespace Sys2Proof.Machine

/-! ### What the end of a bundle leaves alone (R65, R105, R246) -/

/-- `e` has `d`'s memory, bundles and values of the Catalogue's fields 0 and 1, which bundles' stops are counted in. -/
def Dev.bundlesOutlast (d e : Dev) : Prop :=
  e.mem = d.mem ∧ (∀ u, (e.unit u).bundles = (d.unit u).bundles) ∧ ∀ key, key % 256 < 2 → e.cget key = d.cget key

theorem Dev.bundlesOutlast.refl (d : Dev) : d.bundlesOutlast d := ⟨rfl, fun _ => rfl, fun _ _ => rfl⟩

theorem Dev.bundlesOutlast.trans {a b c : Dev} (h : a.bundlesOutlast b) (k : b.bundlesOutlast c) : a.bundlesOutlast c := by
  obtain ⟨hmem, hbundles, hcat⟩ := h
  obtain ⟨kmem, kbundles, kcat⟩ := k
  exact ⟨kmem.trans hmem, fun u => (kbundles u).trans (hbundles u), fun key hk => (kcat key hk).trans (hcat key hk)⟩

theorem Dev.bundlesOutlast_bumpBy (d : Dev) (k n : Nat) (h : 2 ≤ k % 256) : d.bundlesOutlast (d.bumpBy k n) := by
  refine ⟨d.bumpBy_mem k n, fun u => by unfold Dev.unit; rw [Dev.bumpBy_units], fun key hk => ?_⟩
  have hne : key ≠ k := by rintro rfl; omega
  rw [Dev.cget_bumpBy, if_neg hne, Nat.add_zero]

theorem Dev.bundlesOutlast_setUnit (d : Dev) (u : Nat) {x : ExecUnit} (h : x.bundles = (d.unit u).bundles) :
    d.bundlesOutlast (d.setUnit u x) := by
  refine ⟨rfl, fun v => ?_, fun _ _ => rfl⟩
  rw [Dev.setUnit_unit_of]
  split
  · next hv => rw [hv, h]
  · rfl

theorem Dev.bundlesOutlast_setCmd (d : Dev) (k : Nat) (c : Cmd) : d.bundlesOutlast (d.setCmd k c) :=
  ⟨rfl, fun _ => rfl, fun _ _ => rfl⟩

theorem Dev.bundlesOutlast_updCmd (d : Dev) (k : Nat) (f : Cmd → Cmd) : d.bundlesOutlast (d.updCmd k f) := by
  unfold Dev.updCmd
  split
  · exact d.bundlesOutlast_setCmd _ _
  · exact .refl d

theorem Dev.bundlesOutlast_foldl {α : Type} {f : Dev → α → Dev} {l : List α}
    (hf : ∀ a ∈ l, ∀ d : Dev, d.bundlesOutlast (f d a)) (d : Dev) : d.bundlesOutlast (l.foldl f d) := by
  induction l generalizing d with
  | nil => exact .refl d
  | cons a t ih =>
    rw [List.forall_mem_cons] at hf
    exact (hf.1 d).trans (ih hf.2 _)

theorem Dev.bundlesOutlast_orphans (d : Dev) (u k : Nat) : d.bundlesOutlast (d.orphans u k) := by
  unfold Dev.orphans
  dsimp only
  split
  · exact .refl d
  · split
    · exact .refl d
    · refine .trans (d.bundlesOutlast_setUnit u ?_) (Dev.bundlesOutlast_bumpBy _ _ _ (by decide))
      rfl

/-- An engine that changes, with its discarded tiles counted. -/
theorem Dev.bundlesOutlast_discardTiles (d : Dev) (u : Nat) {e : Nat} (h : e < 8) (x : Engine) (n : Nat) :
    d.bundlesOutlast (((d.setEngine u e x).bumpBy (Cat.ENG_TILE_DISCARD u e) n).bumpBy Cat.ENG_TILE_DISCARD_TOTAL n) := by
  have hfield : 2 ≤ Cat.ENG_TILE_DISCARD u e % 256 := by unfold Cat.ENG_TILE_DISCARD; omega
  have hengine : d.bundlesOutlast (d.setEngine u e x) := d.bundlesOutlast_setUnit u rfl
  exact (hengine.trans (Dev.bundlesOutlast_bumpBy _ _ n hfield)).trans (Dev.bundlesOutlast_bumpBy _ _ n (by decide))

theorem Dev.bundlesOutlast_freePart (d : Dev) (u k : Nat) : d.bundlesOutlast (d.freePart u k) := by
  have hengines : ∀ e ∈ d.ownedEngines u k, e < 8 := fun e he => List.mem_range.mp (List.mem_filter.mp he).1
  unfold Dev.freePart
  dsimp only
  generalize hf : (d.ownedEngines u k).foldl _ d = f
  have hfold : d.bundlesOutlast f := by
    rw [← hf]
    exact Dev.bundlesOutlast_foldl (fun e he d => d.bundlesOutlast_discardTiles u (hengines e he) _ _) d
  split
  · refine hfold.trans (f.bundlesOutlast_setUnit u ?_)
    rfl
  · refine (hfold.trans (f.bundlesOutlast_setUnit u ?_)).trans (Dev.bundlesOutlast_setCmd _ _ _)
    rfl

theorem Dev.bundlesOutlast_checkUnits (d : Dev) (k : Nat) : d.bundlesOutlast (d.checkUnits k) := by
  unfold Dev.checkUnits
  split
  · split
    · exact d.bundlesOutlast_updCmd _ _
    · exact .refl d
  · exact .refl d

/-- What follows from a bundle's end reaches no memory and no other bundle. -/
theorem Dev.bundlesOutlast_checkPart (d : Dev) (u k : Nat) : d.bundlesOutlast (d.checkPart u k) := by
  unfold Dev.checkPart
  dsimp only
  refine (d.bundlesOutlast_orphans u k).trans ?_
  generalize d.orphans u k = e
  split
  · exact .refl e
  · split
    · exact (e.bundlesOutlast_freePart u k).trans (Dev.bundlesOutlast_checkUnits _ _)
    · exact .refl e

theorem Dev.endBundle_frame (d : Dev) (u b k : Nat) : (d.endBundle u b k).mem = d.mem
    ∧ (∀ i, i ≠ b → (d.endBundle u b k).bundle? u i = d.bundle? u i)
    ∧ ∀ key, key % 256 < 2 → (d.endBundle u b k).cget key = d.cget key := by
  obtain ⟨hmem, hbundles, hcat⟩ :=
    (d.setUnit u { d.unit u with bundles := Tbl.erase (d.unit u).bundles b }).bundlesOutlast_checkPart u k
  refine ⟨hmem, fun i hi => ?_, hcat⟩
  have herased := congrArg (Tbl.find? · i) (hbundles u)
  simp only [Dev.setUnit_unit, Tbl.find?_erase, if_neg hi] at herased
  exact herased

/-- A stop is counted for the unit and in total, and reaches no memory and no other bundle (R200). -/
theorem Dev.stopBundle_frame (d : Dev) (u b k st dt : Nat) : let e := d.stopBundle u b k st dt
    e.cget (Cat.THR_FAULT u) = d.cget (Cat.THR_FAULT u) + 1
      ∧ e.cget Cat.THR_FAULT_TOTAL = d.cget Cat.THR_FAULT_TOTAL + 1 ∧ e.mem = d.mem
      ∧ ∀ i, i ≠ b → e.bundle? u i = d.bundle? u i := by
  have hfield : Cat.THR_FAULT u % 256 = 1 := by unfold Cat.THR_FAULT; omega
  have htotal : Cat.THR_FAULT_TOTAL % 256 = 0 := by decide
  have hne : Cat.THR_FAULT u ≠ Cat.THR_FAULT_TOTAL := fun h => by rw [h, htotal] at hfield; exact absurd hfield (by decide)
  intro e
  obtain ⟨emem, ebundles, ecat⟩ :=
    (((d.bump (Cat.THR_FAULT u)).bump Cat.THR_FAULT_TOTAL).updCmd k fun c => c.raise st dt).endBundle_frame u b k
  obtain ⟨rmem, rbundles, rcat⟩ :=
    ((d.bump (Cat.THR_FAULT u)).bump Cat.THR_FAULT_TOTAL).bundlesOutlast_updCmd k fun c => c.raise st dt
  refine ⟨?_, ?_, ?_, fun i hi => (ebundles i hi).trans ?_⟩
  · rw [show e.cget _ = _ from ecat _ (by omega), rcat _ (by omega), Dev.cget_bump, Dev.cget_bump, if_pos rfl, if_neg hne]
  · rw [show e.cget _ = _ from ecat _ (by omega), rcat _ (by omega), Dev.cget_bump, Dev.cget_bump, if_pos rfl,
      if_neg (Ne.symm hne)]
  · rw [show e.mem = _ from emem, rmem, Dev.bump_mem, Dev.bump_mem]
  · unfold Dev.bundle?
    rw [rbundles]
    unfold Dev.unit
    rw [Dev.bump_units, Dev.bump_units]

/-! ### Instructions with no limit of their own -/

/-- Thread instruction `mk` acts, where it is fetched, as one that uses the bits `used`, finds `bad` ones, and waits for
nothing of its own. -/
def Unlimited (mk : Nat → Nat → TWord → Instr) (used : Nat) (bad : Nat → List Nat) : Prop :=
  ∀ u b w, ∃ run : TCtx → Dev → Dev, ∀ s,
    exec (mk u b w) s = lift (Dev.fetched (opcOf (mk u b w)) u b w (Dev.thread u b w used bad anyTime run)) s

/-- An instruction is unlimited when its effect is, unfolded, one of `Dev.thread` that waits for nothing. -/
theorem Unlimited.of {mk : Nat → Nat → TWord → Instr} {used : Nat} {bad : Nat → List Nat} {g : Nat → Nat → TWord → Dev → Dev}
    (he : ∀ u b w s, exec (mk u b w) s = lift (Dev.fetched (opcOf (mk u b w)) u b w (g u b w)) s)
    (hg : ∀ u b w, ∃ run, g u b w = Dev.thread u b w used bad anyTime run) : Unlimited mk used bad := by
  intro u b w
  obtain ⟨run, hrun⟩ := hg u b w
  exact ⟨run, fun s => by rw [he, hrun]⟩

section
variable {d : Dev} {u b op used : Nat} {x : Bundle} {c : Cmd} {w : TWord} {bad : Nat → List Nat} {run : TCtx → Dev → Dev}

theorem Dev.mayIssue_iff : Dev.mayIssue c x = true ↔ x.wait = .none ∧ (c.st = .running ∨ c.st = .parked) := by
  simp [Dev.mayIssue]

theorem Dev.mayIssue_eq_false (h : ¬ (x.wait = .none ∧ (c.st = .running ∨ c.st = .parked))) : Dev.mayIssue c x = false := by
  rwa [← Dev.mayIssue_iff, Bool.not_eq_true] at h

/-- In a free slot nothing issues. -/
theorem Dev.fetched_thread_free (hx : d.bundle? u b = none) :
    Dev.fetched op u b w (Dev.thread u b w used bad anyTime run) d = d := by
  simp only [Dev.fetched, Dev.thread, hx]

section
variable (hx : d.bundle? u b = some x) (hc : d.cmd? x.cmd = some c)
include hx hc

/-- A bundle that waits, or whose command holds, is left as it is (R172, R254). -/
theorem Dev.fetched_thread_held (hmay : Dev.mayIssue c x = false) :
    Dev.fetched op u b w (Dev.thread u b w used bad anyTime run) d = d := by
  simp [Dev.fetched, Dev.thread, hx, hc, hmay]

/-- A PC that is not mapped is a translation fault (R169, R200). -/
theorem Dev.fetched_thread_unmapped (hmay : Dev.mayIssue c x = true) (hmap : ¬ (d.xlate c.job x.pc false).isSome = true) :
    Dev.fetched op u b w (Dev.thread u b w used bad anyTime run) d
      = (d.xfault c.job x.pc).stopBundle u b x.cmd 0x11 x.pc := by
  have hnone : (d.xlate c.job x.pc false).isNone = true := by simpa using hmap
  simp [Dev.fetched, Dev.thread, anyTime, hx, hc, hmay, hnone]

/-- A poisoned word stops its bundle (R200). -/
theorem Dev.fetched_thread_poisoned (hmay : Dev.mayIssue c x = true) (hmap : (d.xlate c.job x.pc false).isSome = true)
    (hp : d.jbad c.job x.pc 8 ≠ []) :
    Dev.fetched op u b w (Dev.thread u b w used bad anyTime run) d
      = d.poisonedFetch u b x.cmd (d.jbad c.job x.pc 8) := by
  have hnone : (d.xlate c.job x.pc false).isNone = false := by simpa using hmap
  have hbad : (d.jbad c.job x.pc 8).isEmpty = false := by simpa using hp
  simp [Dev.fetched, Dev.thread, anyTime, hx, hc, hmay, hnone, hbad]

end

section
variable (h : Issues d u b x c)
include h

theorem Issues.mayIssue : Dev.mayIssue c x = true := by
  obtain ⟨-, -, hwait, hst, -⟩ := h
  exact Dev.mayIssue_iff.mpr ⟨hwait, hst⟩

/-- A fetch of another word than the command's: a reserved one stops the bundle, and any other changes nothing (R176). -/
theorem Dev.fetched_other (hf : ¬ Fetches d u x c op w) (run : Dev → Dev) :
    Dev.fetched op u b w run d = if opcReserved (d.fetchWord u c.job x.pc / 2 ^ 56) then
      (d.onceFetched u x c).stopBundle u b x.cmd 0x30 56 else d := by
  have hmay := h.mayIssue
  obtain ⟨hx, hc, -, -, hmap, hbad⟩ := h
  have hnone : (d.xlate c.job x.pc false).isNone = false := by simpa using hmap
  unfold Fetches at hf
  unfold Dev.fetched
  simp only [hx, hc, hmay, hnone, hbad, hf, Bool.not_true, List.isEmpty_nil, Bool.or_self, Bool.false_eq_true, if_false]
  rfl

/-- A malformed word stops its bundle with its lowest offending bit (R175, R200). -/
theorem Dev.thread_offends {o : Nat} (ho : (setBits 52 (w.toNat - Nat.land w.toNat used) ++ bad w.toNat).min? = some o) :
    Dev.thread u b w used bad anyTime run d = d.stopBundle u b x.cmd 0x30 o := by
  have hmay := h.mayIssue
  obtain ⟨hx, hc, -, -, hmap, hbad⟩ := h
  have hnone : (d.xlate c.job x.pc false).isNone = false := by simpa using hmap
  unfold Dev.thread anyTime
  simp only [hx, hc, hmay, hnone, hbad, ho, Bool.not_true, List.isEmpty_nil, Bool.or_self, Bool.false_eq_true, if_false]

end

end

/-! ### The obligation -/

/-- Settles O60: each of the instructions is fetched and has no limit of its own, and each clause is one branch of the fetch or
of the issue; a stop ends its bundle alone. -/
theorem aWordThatMayNotIssueStopsItsBundle : Obligations.AWordThatMayNotIssueStopsItsBundle := by
  unfold Obligations.AWordThatMayNotIssueStopsItsBundle
  intro kinds
  -- each entry's effect, unfolded, is one of `Dev.thread` with the entry's masks and `anyTime`
  have hkinds : ∀ k ∈ kinds, Unlimited k.1 k.2.1 k.2.2 := by
    simp only [kinds, List.forall_mem_append, List.forall_mem_map, List.forall_mem_cons, List.not_mem_nil, false_implies,
      implies_true, and_true]
    and_intros <;> refine Unlimited.of (fun _ _ _ _ => rfl) fun u b w => ?_
    all_goals
      simp only [execFaddD, execFmulD, execFfmaD, execFminD, execFmaxD, execIaddD, execIsubD, execImulD, execIminD, execImaxD,
        execUminD, execUmaxD, execAndD, execOrD, execXorD, execShlD, execShrD, execSarD, execShflD, execSelD, execImadD,
        execFrcpD, execFrsqD, execFsqrtD, execFexp2D, execFlog2D, execFtanhD, execFaddiD, execFmuliD, execIaddiD, execAndiD,
        execOriD, execShliD, execShriD, execUaddiD, execPopcD, execClzD, execMovD, execMovuD, execMovuhD, execMoviD,
        execUmoviD, execUmovhiD, execUaddD, execUsubD, execUmulD, execUandD, execUorD, execUshlD, execUshrD, execRdlaneD,
        execFsetpD, execIsetpD, execUsetpD, execUcmpD, execVoteD, execRedD, execBraD, execCallD, execRetD, execExitD,
        execStatmxD, execSealD, Dev.intOp, Dev.immOp, Dev.uOp, Dev.uniformOp, Dev.bundleOp, Dev.lanes]
      exact ⟨_, rfl⟩
  refine ⟨fun k hk s u b w => ?_, fun d u b k st dt _ => d.stopBundle_frame u b k st dt⟩
  obtain ⟨run, he⟩ := hkinds k hk u b w
  refine ⟨fun hx => Acts.of_eq (he s) (Dev.fetched_thread_free hx) rfl, fun x c hx hc => ⟨fun hmay => ?_, fun hmay hmap => ?_,
    fun hmay hmap hp => ?_, fun hmay hmap hp => ?_⟩⟩
  · exact Acts.of_eq (he s) (Dev.fetched_thread_held hx hc (Dev.mayIssue_eq_false hmay)) rfl
  · exact Acts.of_eq (he s) (Dev.fetched_thread_unmapped hx hc (Dev.mayIssue_iff.mpr hmay) hmap) rfl
  · exact Acts.of_eq (he s) (Dev.fetched_thread_poisoned hx hc (Dev.mayIssue_iff.mpr hmay) hmap hp) rfl
  · obtain ⟨hwait, hst⟩ := hmay
    have h : Issues s.dev u b x c := ⟨hx, hc, hwait, hst, hmap, hp⟩
    refine ⟨fun o hf ho hle => ?_, fun hf hres => ?_, fun hf hres => ?_⟩
    · have hmin := List.min?_eq_some_iff.mpr ⟨ho, hle⟩
      exact Acts.of_eq (he s) ((Dev.fetched_runs h hf).trans (Dev.thread_offends h.onceFetched hmin)) rfl
    · exact Acts.of_eq (he s) ((Dev.fetched_other h hf _).trans (if_pos hres)) rfl
    · exact Acts.of_eq (he s) ((Dev.fetched_other h hf _).trans (if_neg (by rw [hres]; decide))) rfl

end Sys2Proof.Machine
end

section
/-! SUPPORT. Bits that are set and cleared, alert causes (R475), the values in which no trace record counts (R207, R220, R259,
R432, R471, R472), and folds that deal with each element once. -/

namespace Sys2Proof.Machine

/-! ### Bits -/

theorem fld_one_eq_b2n (n i : Nat) : fld n i 1 = b2n (bit n i) := by
  unfold fld bit b2n
  by_cases h : n / 2 ^ i % 2 = 1 <;> simp [h]
  omega

/-- A clear bit that is set leaves every other bit. -/
theorem bit_add_two_pow {n i : Nat} (h : bit n i = false) (j : Nat) :
    bit (n + 2 ^ i) j = if j = i then true else bit n j := by
  have hset : n + 2 ^ i = setFld n i 1 1 := by simp [setFld, fld_one_eq_b2n, h, b2n]
  rw [hset, bit_eq_testBit, bit_eq_testBit, testBit_setFld]
  by_cases hj : j = i
  · rw [if_pos (by omega), if_pos hj, hj, Nat.sub_self]; rfl
  · rw [if_neg (by omega), if_neg hj]

/-- A set bit that is cleared leaves every other bit. -/
theorem bit_sub_two_pow {n i : Nat} (h : bit n i = true) (j : Nat) :
    bit (n - 2 ^ i) j = if j = i then false else bit n j := by
  have hset : n - 2 ^ i = setFld n i 1 0 := by simp [setFld, fld_one_eq_b2n, h, b2n]
  rw [hset, bit_eq_testBit, bit_eq_testBit, testBit_setFld]
  by_cases hj : j = i
  · rw [if_pos (by omega), if_pos hj, hj, Nat.sub_self]; rfl
  · rw [if_neg (by omega), if_neg hj]

/-! ### Alert causes (R475) -/

theorem Dev.alert_rest (d : Dev) (b : Nat) : d.alert b = { d with cat := (d.alert b).cat } := by
  unfold Dev.alert; dsimp only; split <;> rfl

theorem Dev.cget_alert (d : Dev) (b : Nat) {key : Nat} (h : key ≠ Cat.ALERT_CAUSE) : (d.alert b).cget key = d.cget key := by
  unfold Dev.alert
  dsimp only
  split
  · rfl
  · rw [Dev.cget_cset, if_neg h]

/-- An alert sets its own bit and leaves the others. -/
theorem Dev.bit_alert (d : Dev) (b i : Nat) : bit ((d.alert b).cget Cat.ALERT_CAUSE) i
    = (decide (i = b) || bit (d.cget Cat.ALERT_CAUSE) i) := by
  unfold Dev.alert
  dsimp only
  split
  · next h =>
    by_cases hi : i = b
    · simp [hi, h]
    · simp [hi]
  · next h =>
    rw [Dev.cget_cset, if_pos rfl, bit_add_two_pow (by simpa using h)]
    by_cases hi : i = b <;> simp [hi]

/-! ### Values in which no trace record counts -/

/-- None of TRC_HEAD, TRC_LOST, TRC_DEV_HEAD and TRC_DEV_LOST, nor of the values in which a write by a job counts: these
stand at fields 2, 3, 4, 0x24 and 0x25 of their indices. -/
def untracedKey (key : Nat) : Prop := key % 256 ∉ [2, 3, 4, 0x24, 0x25] ∧ key ≠ Cat.TRC_DEV_HEAD

/-- `e` has those values of `d`. -/
def Dev.valuesOf (d e : Dev) : Prop := ∀ key, untracedKey key → e.cget key = d.cget key

theorem Dev.valuesOf.refl (d : Dev) : d.valuesOf d := fun _ _ => rfl

theorem Dev.valuesOf.trans {a b c : Dev} (h : a.valuesOf b) (k : b.valuesOf c) : a.valuesOf c :=
  fun key hk => (k key hk).trans (h key hk)

theorem Dev.valuesOf.of_cat {d e : Dev} (h : e.cat = d.cat) : d.valuesOf e := fun key _ => Dev.cget_congr h key

theorem Dev.valuesOf_cset (d : Dev) {k : Nat} (v : Nat) (h : ¬ untracedKey k) : d.valuesOf (d.cset k v) := by
  intro key hk
  have hne : key ≠ k := fun he => h (he ▸ hk)
  rw [Dev.cget_cset, if_neg hne]

theorem Dev.valuesOf_bump (d : Dev) {k : Nat} (h : ¬ untracedKey k) : d.valuesOf (d.bump k) := by
  intro key hk
  have hne : key ≠ k := fun he => h (he ▸ hk)
  rw [Dev.cget_bump, if_neg hne, Nat.add_zero]

/-- The fields of the counters. -/
theorem not_untracedKey {k : Nat} (h : k % 256 ∈ [2, 3, 4, 0x24, 0x25]) : ¬ untracedKey k := fun hk => hk.1 h

theorem not_untracedKey_hostLinkDrop (p : Nat) : ¬ untracedKey (Cat.HOST_LINK_DROP p) :=
  not_untracedKey (by simp [Cat.HOST_LINK_DROP, Nat.add_mul_mod_self_left])

theorem not_untracedKey_poisonWriteDrop (i : Nat) : ¬ untracedKey (Cat.MEM_POISON_WRITE_DROP i) :=
  not_untracedKey (by simp [Cat.MEM_POISON_WRITE_DROP, Nat.add_mul_mod_self_left])

theorem not_untracedKey_placeFlip (j : Nat) : ¬ untracedKey (Cat.NMU_PLACE_FLIP j) :=
  not_untracedKey (by simp [Cat.NMU_PLACE_FLIP, Nat.add_mul_mod_self_left])

theorem not_untracedKey_xlateFault (j : Nat) : ¬ untracedKey (Cat.MEM_XLATE_FAULT j) :=
  not_untracedKey (by simp [Cat.MEM_XLATE_FAULT, Nat.add_mul_mod_self_left])

theorem not_untracedKey_faultVa (j : Nat) : ¬ untracedKey (Cat.MEM_FAULT_VA j) :=
  not_untracedKey (by simp [Cat.MEM_FAULT_VA, Nat.add_mul_mod_self_left])

theorem not_untracedKey_trcHead (j : Nat) : ¬ untracedKey (Cat.TRC_HEAD j) :=
  not_untracedKey (by simp [Cat.TRC_HEAD, Nat.add_mul_mod_self_left])

theorem not_untracedKey_trcLost (j : Nat) : ¬ untracedKey (Cat.TRC_LOST j) :=
  not_untracedKey (by simp [Cat.TRC_LOST, Nat.add_mul_mod_self_left])

theorem Dev.cat_hostErr (d : Dev) (p b : Nat) : (d.hostErr p b).cat = d.cat := by
  unfold Dev.hostErr Dev.raiseMsix
  dsimp only
  (repeat' split) <;> rfl

theorem Dev.valuesOf_wrRaw (d : Dev) (pa : Nat) (data : List Byte) : d.valuesOf (d.wrRaw pa data) := by
  unfold Dev.wrRaw
  split
  · exact .refl d
  · next p _ =>
    split
    · exact (d.valuesOf_bump (not_untracedKey_hostLinkDrop p)).trans (.of_cat (Dev.cat_hostErr _ _ _))
    · refine .of_cat ?_
      unfold Dev.tier4Write
      cases paRoot pa <;> rfl
  · next i _ =>
    split
    · exact .of_cat rfl
    · split
      · exact d.valuesOf_bump (not_untracedKey_poisonWriteDrop i)
      · exact .of_cat rfl
  · next i _ =>
    split
    · exact .of_cat rfl
    · split
      · exact d.valuesOf_bump (not_untracedKey_poisonWriteDrop i)
      · exact .of_cat rfl
  · exact .of_cat rfl

theorem Dev.valuesOf_placeRecord (b d : Dev) (j hint rec_ pa : Nat) : d.valuesOf (Dev.placeRecord b d j hint rec_ pa) := by
  unfold Dev.placeRecord
  dsimp only
  split
  · exact .of_cat rfl
  · split
    · exact .of_cat rfl
    · exact Dev.valuesOf.trans (.of_cat rfl) (Dev.valuesOf_bump _ (not_untracedKey_placeFlip j))

theorem Dev.valuesOf_placeLine (b d : Dev) (pa n : Nat) : d.valuesOf (Dev.placeLine b d pa n) := by
  unfold Dev.placeLine
  split
  · refine foldl_keeps d.valuesOf _ (fun e kj he => ?_) _ d (.refl d)
    split
    · exact he
    · refine foldl_keeps d.valuesOf _ (fun e r he => ?_) _ e he
      split
      · split
        · exact he.trans (Dev.valuesOf_placeRecord _ _ _ _ _ _)
        · exact he
      · exact he
  · exact .refl d

theorem Dev.valuesOf_wrLine (d : Dev) (pa : Nat) (data : List Byte) : d.valuesOf (d.wrLine pa data) := by
  unfold Dev.wrLine
  dsimp only
  split
  · exact d.valuesOf_wrRaw _ _
  · exact (d.valuesOf_wrRaw _ _).trans (Dev.valuesOf_placeLine _ _ _ _)

theorem Dev.valuesOf_xfault (d : Dev) (j va : Nat) : d.valuesOf (d.xfault j va) :=
  (d.valuesOf_bump (not_untracedKey_xlateFault j)).trans (Dev.valuesOf_cset _ _ (not_untracedKey_faultVa j))

theorem Dev.valuesOf_jwrLines (fuel : Nat) (d : Dev) (j va : Nat) (data : List Byte) :
    d.valuesOf (d.jwrLines j va data fuel) := by
  induction fuel generalizing d va data with
  | zero => exact .refl d
  | succ n ih =>
    unfold Dev.jwrLines
    split
    · exact .refl d
    · dsimp only
      split
      · exact (d.valuesOf_wrLine _ _).trans (ih _ _ _)
      · exact (d.valuesOf_xfault _ _).trans (ih _ _ _)

theorem Dev.valuesOf_trcPut1 (d : Dev) (j : Nat) (r : TraceRec) : d.valuesOf (d.trcPut1 j r).1 := by
  unfold Dev.trcPut1
  dsimp only
  split
  · exact .refl d
  · split
    · exact d.valuesOf_xfault _ _
    · exact (Dev.valuesOf_jwrLines _ _ _ _ _).trans (Dev.valuesOf_bump _ (not_untracedKey_trcHead j))

theorem Dev.valuesOf_trcPut (d : Dev) (j : Nat) (r : TraceRec) : d.valuesOf (d.trcPut j r) := by
  have hlost : d.valuesOf (d.trcLostPut j).1 := by
    unfold Dev.trcLostPut
    split
    · exact .refl d
    · dsimp only
      split
      · exact (d.valuesOf_trcPut1 _ _).trans (.of_cat rfl)
      · exact d.valuesOf_trcPut1 _ _
  rw [Dev.trcPut_eq]
  split
  · exact .refl d
  · dsimp only
    have hput : d.valuesOf (if (d.trcLostPut j).2 then (d.trcLostPut j).1.trcPut1 j r else ((d.trcLostPut j).1, false)).1 := by
      split
      · exact hlost.trans (Dev.valuesOf_trcPut1 _ _ _)
      · exact hlost
    generalize (if (d.trcLostPut j).2 then (d.trcLostPut j).1.trcPut1 j r else ((d.trcLostPut j).1, false)) = q at hput ⊢
    split
    · exact hput
    · exact hput.trans ((q.1.valuesOf_bump (not_untracedKey_trcLost j)).trans (.of_cat rfl))

theorem Dev.valuesOf_trcDev (d : Dev) (r : TraceRec) : d.valuesOf (d.trcDev r) := by
  have hput : ∀ (e : Dev) (m : List Host.Cell), e.valuesOf ({ e with mem := m }.bump Cat.TRC_DEV_HEAD) := fun e m =>
    Dev.valuesOf.trans (b := { e with mem := m }) (.of_cat rfl) (Dev.valuesOf_bump _ fun h => h.2 rfl)
  unfold Dev.trcDev
  dsimp only
  split
  · exact .refl d
  · split
    · exact (d.valuesOf_bump (k := Cat.TRC_DEV_LOST) (not_untracedKey (by decide))).trans (.of_cat rfl)
    · split
      · exact hput _ _
      · exact Dev.valuesOf.trans (b := { d with devTrcLost := 0 }) (.of_cat rfl) ((hput _ _).trans (hput _ _))

/-- A trace record counts in no other values. -/
theorem Dev.valuesOf_trace (d : Dev) (r : TraceRec) : d.valuesOf (d.trace r) := by
  have hdev : d.valuesOf ((d.emit (.trace r)).trcDev r) :=
    Dev.valuesOf.trans (b := d.emit (.trace r)) (.of_cat rfl) (Dev.valuesOf_trcDev _ _)
  unfold Dev.trace
  dsimp only
  split
  · exact hdev.trans (Dev.valuesOf_trcPut _ _ _)
  · refine foldl_keeps d.valuesOf _ (fun e j he => ?_) _ _ hdev
    split
    · exact he.trans (Dev.valuesOf_trcPut _ _ _)
    · exact he

theorem Dev.valuesOf_event (d : Dev) (kind job unit a b c : Nat) : d.valuesOf (d.event kind job unit a b c) :=
  Dev.valuesOf_trace _ _

/-! ### Folds that deal with each element once -/

section
variable {σ : Type} {f : σ → Nat → σ} {same : σ → σ → Nat → Prop} (hrefl : ∀ s k, same s s k)
  (htrans : ∀ {s s' s'' k}, same s s' k → same s' s'' k → same s s'' k) (hother : ∀ s a k, k ≠ a → same s (f s a) k)
include hrefl htrans hother

/-- What steps on other elements keep of an element is kept by a fold without it. -/
theorem foldl_same_of_not_mem {l : List Nat} {k : Nat} (h : k ∉ l) (s : σ) : same s (l.foldl f s) k := by
  induction l generalizing s with
  | nil => exact hrefl s k
  | cons a t ih =>
    rw [List.mem_cons, not_or] at h
    exact htrans (hother s a k h.1) (ih h.2 _)

/-- What an element's own step makes of it stands after a fold over different elements, said of the state before the fold. -/
theorem foldl_once {P : σ → Nat → σ → Prop} (hself : ∀ s k, P s k (f s k))
    (hbefore : ∀ {s s' k e}, same s s' k → P s' k e → P s k e) (hafter : ∀ {s k e e'}, P s k e → same e e' k → P s k e')
    {l : List Nat} (hl : l.Nodup) {k : Nat} (hk : k ∈ l) (s : σ) : P s k (l.foldl f s) := by
  induction l generalizing s with
  | nil => exact absurd hk List.not_mem_nil
  | cons a t ih =>
    obtain ⟨ha, ht⟩ := List.nodup_cons.mp hl
    rcases List.mem_cons.mp hk with rfl | hk
    · exact hafter (hself s k) (foldl_same_of_not_mem hrefl htrans hother ha _)
    · exact hbefore (hother s a k fun he => ha (he ▸ hk)) (ih ht hk _)

end

end Sys2Proof.Machine
end

section
/-! SUPPORT. Thermal steps, hot packages, trips, droops and the waves of the Cuff (R222, R390 to R396), and obligation O49. -/

namespace Sys2Proof.Machine

/-! ### Dies -/

theorem Dev.die_setDie (d : Dev) (k m : Nat) (x : DiePower) : (d.setDie k x).die m = if m = k then x else d.die m :=
  Tbl.getD_set _ _ _ _ _

/-- A die that is asked for an entry keeps all but where it is going. -/
theorem Dev.aim_rest (d : Dev) (k e : Nat) (lead : Bool) : ∃ target riseAt above lead', d.aim k e lead
    = d.setDie k { d.die k with target := target, riseAt := riseAt, above := above, lead := lead' } := by
  unfold Dev.aim
  dsimp only
  split
  · exact ⟨(d.die k).target, (d.die k).riseAt, (d.die k).above, _, rfl⟩
  · split
    · exact ⟨_, _, _, _, rfl⟩
    · exact ⟨_, _, _, _, rfl⟩

/-- What the thermal step of a die may touch: dies, the note for PACE, what a trace record touches, and the counters of
throttle events. -/
structure Dev.HeatOf (d e : Dev) : Prop where
  now : e.now = d.now
  boot : e.boot = d.boot
  tt : e.tt = d.tt
  mem3 : e.mem3 = d.mem3
  power : e.power = { d.power with dies := e.power.dies, throttled := e.power.throttled }
  values : ∀ key, untracedKey key → key ≠ Cat.PWR_THROTTLE_EVENT → e.cget key = d.cget key

theorem Dev.HeatOf.refl (d : Dev) : d.HeatOf d := ⟨rfl, rfl, rfl, rfl, rfl, fun _ _ _ => rfl⟩

theorem Dev.HeatOf.trans {a b c : Dev} (h : a.HeatOf b) (k : b.HeatOf c) : a.HeatOf c :=
  ⟨k.now.trans h.now, k.boot.trans h.boot, k.tt.trans h.tt, k.mem3.trans h.mem3, by rw [k.power, h.power],
    fun key hu hk => (k.values key hu hk).trans (h.values key hu hk)⟩

theorem Dev.HeatOf.of_setDie (d : Dev) (k : Nat) (x : DiePower) : d.HeatOf (d.setDie k x) :=
  ⟨rfl, rfl, rfl, rfl, rfl, fun _ _ _ => rfl⟩

theorem Dev.tracedOf.power {d e : Dev} (h : d.tracedOf e) : e.power = d.power := by rw [h.1]

theorem Dev.HeatOf.of_event (d : Dev) (kind job unit a b c : Nat) : d.HeatOf (d.event kind job unit a b c) := by
  have h := d.tracedOf_event kind job unit a b c
  refine ⟨h.now, by rw [h.1], h.tt, by rw [h.1], by rw [h.power], fun key hu _ => d.valuesOf_event kind job unit a b c key hu⟩

theorem Dev.HeatOf.of_bump (d : Dev) {k : Nat} (h : ¬ untracedKey k ∨ k = Cat.PWR_THROTTLE_EVENT) : d.HeatOf (d.bump k) := by
  refine ⟨by simp, by simp, by simp, by simp, by simp, fun key hu hk => ?_⟩
  rw [Dev.cget_bump, if_neg, Nat.add_zero]
  rintro rfl
  exact h.elim (fun hn => hn hu) hk

theorem Dev.HeatOf.of_throttle (d : Dev) (k w rail cause : Nat) : d.HeatOf (d.throttle k w rail cause) := by
  unfold Dev.throttle
  refine Dev.HeatOf.trans (b := { d with power := { d.power with throttled := true } })
    ⟨rfl, rfl, rfl, rfl, rfl, fun _ _ _ => rfl⟩ ?_
  exact (Dev.HeatOf.of_bump _ (.inr rfl)).trans (.of_event _ _ _ _ _ _ _)

theorem Dev.die_throttle (d : Dev) (k w rail cause m : Nat) : (d.throttle k w rail cause).die m = d.die m := by
  have hpower : (d.throttle k w rail cause).power = { d.power with throttled := true } :=
    (Dev.tracedOf_event _ _ _ _ _ _ _).power.trans (Dev.bump_power _ _)
  unfold Dev.die
  rw [hpower]

/-- The slowest entry asked of a die depends on its own ceilings and on the values of the phase. -/
theorem Dev.HeatOf.prefEntry {d e : Dev} (h : d.HeatOf e) (k : Nat) : e.prefEntry k = d.prefEntry k := by
  have hphase : e.power.phase = d.power.phase := by rw [h.power]
  have hpref : e.cget (Cat.PWR_PREF d.power.phase) = d.cget (Cat.PWR_PREF d.power.phase) := by
    refine h.values _ ⟨?_, ?_⟩ ?_
    · simp [Cat.PWR_PREF, Nat.add_mul_mod_self_left]
    · unfold Cat.PWR_PREF Cat.TRC_DEV_HEAD; omega
    · unfold Cat.PWR_PREF Cat.PWR_THROTTLE_EVENT; omega
  unfold Dev.prefEntry
  rw [hphase, hpref]

/-! ### The thermal step of a die (R394) -/

/-- The die is at its limit, has an entry to go down to, and 200 µs have passed since its last step. -/
def Dev.stepsDown (d : Dev) (k : Nat) (t : Int) : Prop :=
  (d.cget Cat.THERM_THROTTLE_C : Int) ≤ t ∧ d.wantedEntry k < 15
    ∧ ((d.die k).thermEntry = 0 ∨ (d.die k).thermAt + 1600000 ≤ d.now)

/-- The die is 3 °C below its limit, has a ceiling to lift, and 10 ms have passed since its last step. -/
def Dev.stepsUp (d : Dev) (k : Nat) (t : Int) : Prop :=
  t < (d.cget Cat.THERM_THROTTLE_C : Int) - 3 ∧ 0 < (d.die k).thermEntry ∧ (d.die k).thermAt + 80000000 ≤ d.now

/-- What a sample with the hottest junction at `t` makes of die `k`. -/
def Dev.Heated (d : Dev) (k : Nat) (t : Int) (y : DiePower) : Prop :=
  (d.stepsDown k t → y.thermEntry = d.wantedEntry k + 1 ∧ y.thermAt = d.now)
    ∧ (d.stepsUp k t → y.thermEntry = (if (d.die k).thermEntry - 1 ≤ d.prefEntry k then 0 else (d.die k).thermEntry - 1)
        ∧ y.thermAt = d.now)
    ∧ (¬ d.stepsDown k t → ¬ d.stepsUp k t → y = d.die k)
    ∧ y.entry = (d.die k).entry ∧ y.capD = (d.die k).capD ∧ y.capEntry = (d.die k).capEntry

/-- A new ceiling for heat, from now on. -/
def Dev.thermSet (d : Dev) (k ceiling : Nat) : Dev :=
  (d.setDie k { d.die k with thermEntry := ceiling, thermAt := d.now }).retarget k

theorem Dev.thermSet_rest (d : Dev) (k ceiling : Nat) : d.HeatOf (d.thermSet k ceiling)
    ∧ ∀ m, m ≠ k → (d.thermSet k ceiling).die m = d.die m := by
  unfold Dev.thermSet Dev.retarget
  generalize hd : d.setDie k _ = d1
  have hheat : d.HeatOf d1 := hd ▸ .of_setDie d k _
  have hdie : ∀ m, m ≠ k → d1.die m = d.die m := fun m hm => by rw [← hd, Dev.die_setDie, if_neg hm]
  obtain ⟨_, _, _, _, he⟩ := d1.aim_rest k (d1.wantedEntry k) false
  rw [he]
  exact ⟨hheat.trans (.of_setDie _ _ _), fun m hm => by rw [Dev.die_setDie, if_neg hm, hdie m hm]⟩

theorem Dev.die_thermSet (d : Dev) (k ceiling : Nat) : let y := (d.thermSet k ceiling).die k
    y.thermEntry = ceiling ∧ y.thermAt = d.now ∧ y.entry = (d.die k).entry ∧ y.capD = (d.die k).capD
      ∧ y.capEntry = (d.die k).capEntry := by
  unfold Dev.thermSet Dev.retarget
  generalize hd : d.setDie k _ = d1
  have hdie : d1.die k = { d.die k with thermEntry := ceiling, thermAt := d.now } := by rw [← hd, Dev.die_setDie, if_pos rfl]
  obtain ⟨_, _, _, _, he⟩ := d1.aim_rest k (d1.wantedEntry k) false
  rw [he, Dev.die_setDie, if_pos rfl, hdie]
  exact ⟨rfl, rfl, rfl, rfl, rfl⟩

section
variable {d : Dev} {k : Nat} {t : Int}

/-- A step down is a throttle event. -/
theorem Dev.thermStep_down (h : d.stepsDown k t) : ∃ f, d.thermStep k t
    = (((d.thermSet k (d.wantedEntry k + 1)).takeN 1).throttle k f 0 2).bump Cat.THERM_THROTTLE_EVENT := by
  obtain ⟨hlim, hroom, hat⟩ := h
  refine ⟨(d.thermSet k (d.wantedEntry k + 1)).take.1 % 2 ^ 32, ?_⟩
  unfold Dev.thermStep
  dsimp only
  rw [if_pos hlim, if_pos (by simp [hroom, hat])]
  rfl

theorem Dev.thermStep_up (h : d.stepsUp k t) : d.thermStep k t
    = d.thermSet k (if (d.die k).thermEntry - 1 ≤ d.prefEntry k then 0 else (d.die k).thermEntry - 1) := by
  obtain ⟨hlim, hceiling, hat⟩ := h
  unfold Dev.thermStep
  dsimp only
  rw [if_neg (by omega), if_pos (by simp [hlim, hceiling, hat])]
  rfl

theorem Dev.thermStep_stays (hdown : ¬ d.stepsDown k t) (hup : ¬ d.stepsUp k t) : d.thermStep k t = d := by
  unfold Dev.stepsDown at hdown
  unfold Dev.stepsUp at hup
  unfold Dev.thermStep
  dsimp only
  split
  · next hlim => exact if_neg fun h => hdown ⟨hlim, by simpa using h⟩
  · exact if_neg fun h => hup (by simpa [and_assoc] using h)

theorem Dev.not_stepsUp_of_stepsDown (h : d.stepsDown k t) : ¬ d.stepsUp k t := fun hup => by
  have := h.1
  have := hup.1
  omega

theorem Dev.thermStep_down_die (h : d.stepsDown k t) (m : Nat) :
    (d.thermStep k t).die m = (d.thermSet k (d.wantedEntry k + 1)).die m := by
  obtain ⟨f, he⟩ := Dev.thermStep_down h
  rw [he]
  unfold Dev.die
  rw [Dev.bump_power]
  exact Dev.die_throttle _ _ _ _ _ _

end

theorem Dev.thermStep_rest (d : Dev) (k : Nat) (t : Int) : d.HeatOf (d.thermStep k t)
    ∧ ∀ m, m ≠ k → (d.thermStep k t).die m = d.die m := by
  by_cases hdown : d.stepsDown k t
  · refine ⟨?_, fun m hm => (Dev.thermStep_down_die hdown m).trans ((d.thermSet_rest k _).2 m hm)⟩
    obtain ⟨f, he⟩ := Dev.thermStep_down hdown
    have htake : (d.thermSet k (d.wantedEntry k + 1)).HeatOf ((d.thermSet k (d.wantedEntry k + 1)).takeN 1) :=
      ⟨rfl, rfl, rfl, rfl, rfl, fun _ _ _ => rfl⟩
    rw [he]
    exact ((d.thermSet_rest k _).1.trans htake).trans ((Dev.HeatOf.of_throttle _ _ _ _ _).trans
      (.of_bump _ (.inl (not_untracedKey (by decide)))))
  · by_cases hup : d.stepsUp k t
    · rw [Dev.thermStep_up hup]
      exact d.thermSet_rest k _
    · rw [Dev.thermStep_stays hdown hup]
      exact ⟨.refl d, fun _ _ => rfl⟩

theorem Dev.thermStep_heated (d : Dev) (k : Nat) (t : Int) : d.Heated k t ((d.thermStep k t).die k) := by
  by_cases hdown : d.stepsDown k t
  · obtain ⟨hceiling, hat, hrest⟩ := d.die_thermSet k (d.wantedEntry k + 1)
    rw [Dev.thermStep_down_die hdown k]
    exact ⟨fun _ => ⟨hceiling, hat⟩, fun hup => absurd hup (Dev.not_stepsUp_of_stepsDown hdown), fun h => absurd hdown h, hrest⟩
  · by_cases hup : d.stepsUp k t
    · obtain ⟨hceiling, hat, hrest⟩ := d.die_thermSet k
        (if (d.die k).thermEntry - 1 ≤ d.prefEntry k then 0 else (d.die k).thermEntry - 1)
      rw [Dev.thermStep_up hup]
      exact ⟨fun h => absurd h hdown, fun _ => ⟨hceiling, hat⟩, fun _ h => absurd hup h, hrest⟩
    · rw [Dev.thermStep_stays hdown hup]
      exact ⟨fun h => absurd h hdown, fun h => absurd h hup, fun _ _ => rfl, rfl, rfl, rfl⟩

/-- What a die's own step sees is as it was after the steps of other dies. -/
theorem Dev.Heated.of_heatOf {d e : Dev} {k : Nat} {t : Int} {y : DiePower} (h : d.HeatOf e) (hdie : e.die k = d.die k)
    (hy : e.Heated k t y) : d.Heated k t y := by
  have hlim : e.cget Cat.THERM_THROTTLE_C = d.cget Cat.THERM_THROTTLE_C :=
    h.values _ ⟨by decide, by decide⟩ (by decide)
  unfold Dev.Heated Dev.stepsDown Dev.stepsUp Dev.wantedEntry at *
  rwa [hlim, h.now, hdie, h.prefEntry k] at hy

/-- A die's part of a sample: those that it holds no junctions of stay. -/
def Dev.dieHeat (temps : List Int) (d : Dev) (k : Nat) : Dev :=
  if (dieTemps temps k).isEmpty then d else d.thermStep k (hottest (dieTemps temps k))

theorem Dev.dieHeat_rest (temps : List Int) (d : Dev) (k : Nat) : d.HeatOf (d.dieHeat temps k)
    ∧ ∀ m, m ≠ k → (d.dieHeat temps k).die m = d.die m := by
  unfold Dev.dieHeat
  split
  · exact ⟨.refl d, fun _ _ => rfl⟩
  · exact d.thermStep_rest k _

/-- What a die's own step sees is the same in `e` as in `d`. -/
def Dev.DieAs (d e : Dev) (k : Nat) : Prop := d.HeatOf e ∧ e.die k = d.die k

theorem Dev.DieAs.trans {a b c : Dev} {k : Nat} (h : a.DieAs b k) (h' : b.DieAs c k) : a.DieAs c k :=
  ⟨h.1.trans h'.1, h'.2.trans h.2⟩

/-- After the steps of all dies each has taken its own. -/
theorem Dev.diesHeated (d : Dev) (temps : List Int) : let e := powerDies.foldl (Dev.dieHeat temps) d
    d.HeatOf e ∧ ∀ k, k < 9 → dieTemps temps k ≠ [] → d.Heated k (hottest (dieTemps temps k)) (e.die k) := by
  refine ⟨foldl_keeps d.HeatOf _ (fun e k he => he.trans (e.dieHeat_rest temps k).1) _ d (.refl d), fun k hk => ?_⟩
  refine foldl_once (same := Dev.DieAs)
    (P := fun s k e => dieTemps temps k ≠ [] → s.Heated k (hottest (dieTemps temps k)) (e.die k))
    (fun s k => ⟨.refl s, rfl⟩) Dev.DieAs.trans
    (fun s a k hka => ⟨(s.dieHeat_rest temps a).1, (s.dieHeat_rest temps a).2 k hka⟩) (fun s k hne => ?_)
    (fun h hp hne => (hp hne).of_heatOf h.1 h.2) (fun hp h hne => h.2 ▸ hp hne) List.nodup_range (List.mem_range.mpr hk) d
  unfold Dev.dieHeat
  rw [if_neg (by simpa using hne)]
  exact s.thermStep_heated k _

/-! ### Hot LPDDR6 packages and trainings that are due (R222, R394) -/

theorem Dev.lpStep_rest (d : Dev) (i : Nat) (l : List Int) :
    d.lpStep i l = { d with power := { d.power with lpHot := (d.lpStep i l).power.lpHot } } := by
  unfold Dev.lpStep
  dsimp only
  (repeat' split) <;> rfl

/-- A die's packages become hot at 95 °C and are so until all are below 92 °C. -/
theorem Dev.bit_lpStep (d : Dev) (i m : Nat) (l : List Int) : bit (d.lpStep i l).power.lpHot m = if m = i then
    (if bit d.power.lpHot i then !(l.all (· < 92)) else l.any (95 ≤ ·)) else bit d.power.lpHot m := by
  unfold Dev.lpStep
  dsimp only
  cases hhot : bit d.power.lpHot i
  · cases hany : l.any (95 ≤ ·)
    · by_cases hm : m = i <;> simp [hm, hhot]
    · simpa using bit_add_two_pow hhot m
  · cases hall : l.all (· < 92)
    · by_cases hm : m = i <;> simp [hm, hhot]
    · simpa using bit_sub_two_pow hhot m

/-- A die's temperature asks for a training: a timetable runs, it moved more than 20 °C, and none is due. -/
def Dev.asksTraining (d : Dev) (i : Nat) (t t0 : Int) : Prop :=
  d.tt.st = .running ∧ Tbl.find? d.mem3.trained i = some t0 ∧ 20 < (t - t0).natAbs ∧ i ∉ d.mem3.due

/-- A die that asks for a training. -/
def Dev.trainingDue (d : Dev) (i : Nat) : Dev :=
  ({ d with mem3 := { d.mem3 with due := i :: d.mem3.due } }.bump (Cat.MEM_RETRAIN_DUE i)).alert 2

theorem Dev.noteTraining_asks {d : Dev} {i : Nat} {t t0 : Int} (h : d.asksTraining i t t0) :
    d.noteTraining i t = d.trainingDue i := by
  obtain ⟨hst, htrained, hfar, hdue⟩ := h
  unfold Dev.noteTraining
  rw [htrained]
  exact if_pos (by simp [hst, hfar, hdue])

/-- A die's temperature is noted where it has none, or asks for a training, or changes nothing. -/
theorem Dev.noteTraining_cases (d : Dev) (i : Nat) (t : Int) :
    d.noteTraining i t = { d with mem3 := { d.mem3 with trained := Tbl.set d.mem3.trained i t } }
      ∨ d.noteTraining i t = d.trainingDue i ∨ d.noteTraining i t = d := by
  unfold Dev.noteTraining
  split
  · exact .inl rfl
  · split
    · exact .inr (.inl rfl)
    · exact .inr (.inr rfl)

theorem Dev.trainingDue_rest (d : Dev) (i : Nat) : d.trainingDue i
    = { d with mem3 := { d.mem3 with due := i :: d.mem3.due }, cat := (d.trainingDue i).cat } := by
  unfold Dev.trainingDue
  rw [Dev.alert_rest]
  rfl

theorem Dev.cget_trainingDue (d : Dev) (i m : Nat) : (d.trainingDue i).cget (Cat.MEM_RETRAIN_DUE m)
    = d.cget (Cat.MEM_RETRAIN_DUE m) + if m = i then 1 else 0 := by
  unfold Dev.trainingDue
  rw [Dev.cget_alert _ _ (by unfold Cat.MEM_RETRAIN_DUE Cat.ALERT_CAUSE; omega), Dev.cget_bump]
  refine congrArg (d.cget (Cat.MEM_RETRAIN_DUE m) + ·) (if_congr ?_ rfl rfl)
  unfold Cat.MEM_RETRAIN_DUE
  omega

theorem Dev.bit_alert_trainingDue (d : Dev) (i : Nat) : bit ((d.trainingDue i).cget Cat.ALERT_CAUSE) 2 = true := by
  unfold Dev.trainingDue
  rw [Dev.bit_alert]
  rfl

/-- What the packages and the training of die `i` see and show: the same in `e` as in `d`, and an alert stays. -/
structure Dev.PackagesAs (d e : Dev) (i : Nat) : Prop where
  tt : e.tt = d.tt
  hot : bit e.power.lpHot i = bit d.power.lpHot i
  trained : Tbl.find? e.mem3.trained i = Tbl.find? d.mem3.trained i
  due : i ∈ e.mem3.due ↔ i ∈ d.mem3.due
  count : e.cget (Cat.MEM_RETRAIN_DUE i) = d.cget (Cat.MEM_RETRAIN_DUE i)
  alert : bit (d.cget Cat.ALERT_CAUSE) 2 = true → bit (e.cget Cat.ALERT_CAUSE) 2 = true

theorem Dev.PackagesAs.refl (d : Dev) (i : Nat) : d.PackagesAs d i := ⟨rfl, rfl, rfl, .rfl, rfl, id⟩

theorem Dev.PackagesAs.trans {a b c : Dev} {i : Nat} (h : a.PackagesAs b i) (k : b.PackagesAs c i) : a.PackagesAs c i :=
  ⟨k.tt.trans h.tt, k.hot.trans h.hot, k.trained.trans h.trained, k.due.trans h.due, k.count.trans h.count,
    fun ha => k.alert (h.alert ha)⟩

theorem Dev.PackagesAs.of_lpStep (d : Dev) {i m : Nat} (h : m ≠ i) (l : List Int) : d.PackagesAs (d.lpStep i l) m := by
  have hhot := d.bit_lpStep i m l
  rw [if_neg h] at hhot
  have hrest := d.lpStep_rest i l
  refine ⟨by rw [hrest], hhot, by rw [hrest], by rw [hrest], Dev.cget_congr (by rw [hrest]) _, fun ha => ?_⟩
  rw [Dev.cget_congr (d := d) (by rw [hrest])]
  exact ha

theorem Dev.PackagesAs.of_noteTraining (d : Dev) {i m : Nat} (h : m ≠ i) (t : Int) : d.PackagesAs (d.noteTraining i t) m := by
  rcases d.noteTraining_cases i t with he | he | he
  · rw [he]
    exact ⟨rfl, rfl, by rw [Tbl.find?_set, if_neg h], .rfl, rfl, id⟩
  · rw [he]
    have hrest := d.trainingDue_rest i
    exact ⟨by rw [hrest], by rw [hrest], by rw [hrest], by rw [hrest]; simp [h],
      by rw [Dev.cget_trainingDue, if_neg h, Nat.add_zero], fun _ => d.bit_alert_trainingDue i⟩
  · rw [he]
    exact .refl d m

/-- A die's packages in a sample: one that holds none of them changes nothing. -/
def Dev.packageHeat (temps : List Int) (d : Dev) (i : Nat) : Dev :=
  if (packageTemps temps i).isEmpty then d
  else (d.lpStep i (packageTemps temps i)).noteTraining i (hottest (dieTemps temps (1 + i)))

theorem Dev.packageHeat_other (temps : List Int) (d : Dev) {i m : Nat} (h : m ≠ i) :
    d.PackagesAs (d.packageHeat temps i) m := by
  unfold Dev.packageHeat
  split
  · exact .refl d m
  · exact (Dev.PackagesAs.of_lpStep d h _).trans (.of_noteTraining _ h _)

/-- `e` differs from `d` in hot packages, in trainings and in Catalogue values alone. -/
def Dev.packagesOf (d e : Dev) : Prop :=
  e = { d with power := { d.power with lpHot := e.power.lpHot }, mem3 := e.mem3, cat := e.cat }

theorem Dev.packagesOf_packageHeat (temps : List Int) (d : Dev) (i : Nat) : d.packagesOf (d.packageHeat temps i) := by
  unfold Dev.packagesOf Dev.packageHeat
  split
  · rfl
  · have hlp := d.lpStep_rest i (packageTemps temps i)
    generalize d.lpStep i (packageTemps temps i) = e at hlp ⊢
    rcases e.noteTraining_cases i (hottest (dieTemps temps (1 + i))) with he | he | he
    · rw [he, hlp]
    · rw [he, Dev.trainingDue_rest, hlp]
    · rw [he, hlp]

/-- What a sample makes of the packages and the training of die `i`. -/
def Dev.PackagesHeated (temps : List Int) (d : Dev) (i : Nat) (e : Dev) : Prop :=
  packageTemps temps i ≠ [] →
    bit e.power.lpHot i = (if bit d.power.lpHot i then !((packageTemps temps i).all (· < 92))
      else (packageTemps temps i).any (95 ≤ ·))
    ∧ ∀ t0, d.asksTraining i (hottest (dieTemps temps (1 + i))) t0 → i ∈ e.mem3.due
      ∧ e.cget (Cat.MEM_RETRAIN_DUE i) = d.cget (Cat.MEM_RETRAIN_DUE i) + 1 ∧ bit (e.cget Cat.ALERT_CAUSE) 2 = true

theorem Dev.packageHeat_heated (temps : List Int) (d : Dev) (i : Nat) : d.PackagesHeated temps i (d.packageHeat temps i) := by
  intro hne
  unfold Dev.packageHeat
  rw [if_neg (by simpa using hne)]
  have hlp := d.lpStep_rest i (packageTemps temps i)
  have hhot := d.bit_lpStep i i (packageTemps temps i)
  rw [if_pos rfl] at hhot
  generalize d.lpStep i (packageTemps temps i) = e at hlp hhot ⊢
  refine ⟨?_, fun t0 hasks => ?_⟩
  · rw [← hhot]
    rcases e.noteTraining_cases i (hottest (dieTemps temps (1 + i))) with he | he | he
    · rw [he]
    · rw [he, Dev.trainingDue_rest]
    · rw [he]
  · have hasks' : e.asksTraining i (hottest (dieTemps temps (1 + i))) t0 := by rw [hlp]; exact hasks
    have hcat : e.cat = d.cat := by rw [hlp]
    rw [Dev.noteTraining_asks hasks', Dev.cget_trainingDue, if_pos rfl, Dev.cget_congr hcat]
    exact ⟨by rw [Dev.trainingDue_rest]; simp, rfl, e.bit_alert_trainingDue i⟩

theorem Dev.PackagesHeated.of_before {temps : List Int} {d d' e : Dev} {i : Nat} (htt : d'.tt = d.tt)
    (hhot : bit d'.power.lpHot i = bit d.power.lpHot i) (htrained : Tbl.find? d'.mem3.trained i = Tbl.find? d.mem3.trained i)
    (hdue : i ∈ d'.mem3.due ↔ i ∈ d.mem3.due) (hcount : d'.cget (Cat.MEM_RETRAIN_DUE i) = d.cget (Cat.MEM_RETRAIN_DUE i))
    (h : d'.PackagesHeated temps i e) : d.PackagesHeated temps i e := by
  unfold Dev.PackagesHeated Dev.asksTraining at *
  rwa [htt, hhot, htrained, hdue, hcount] at h

theorem Dev.PackagesHeated.of_after {temps : List Int} {d e e' : Dev} {i : Nat} (h : d.PackagesHeated temps i e)
    (hs : e.PackagesAs e' i) : d.PackagesHeated temps i e' := by
  intro hne
  obtain ⟨hhot, htraining⟩ := h hne
  refine ⟨hs.hot.trans hhot, fun t0 hasks => ?_⟩
  obtain ⟨hdue, hcount, halert⟩ := htraining t0 hasks
  exact ⟨hs.due.mpr hdue, hs.count.trans hcount, hs.alert halert⟩

theorem Dev.packagesHeated (d : Dev) (temps : List Int) : let e := (List.range 8).foldl (Dev.packageHeat temps) d
    d.packagesOf e ∧ ∀ i, i < 8 → d.PackagesHeated temps i e := by
  refine ⟨foldl_keeps d.packagesOf _ (fun e i he => ?_) _ d rfl, fun i hi => ?_⟩
  · have hi := e.packagesOf_packageHeat temps i
    unfold Dev.packagesOf at *
    rw [hi, he]
  · exact foldl_once (same := Dev.PackagesAs) (P := Dev.PackagesHeated temps) Dev.PackagesAs.refl (fun h h' => h.trans h')
      (fun s a k hka => s.packageHeat_other temps hka) (Dev.packageHeat_heated temps)
      (fun h hp => hp.of_before h.tt h.hot h.trained h.due h.count) (fun hp h => hp.of_after h) List.nodup_range
      (List.mem_range.mpr hi) d

/-! ### A sample (R394, R395) -/

/-- The device that holds the readings of a sample. -/
def Dev.holdTemps (d : Dev) (temps : List Int) : Dev :=
  { d with power := { d.power with temps := temps ++ d.power.temps.drop temps.length } }

/-- What a sample does where nothing trips. -/
theorem Dev.heatSample_effect (d : Dev) (temps : List Int) : let e := d.heatSample temps
    e.power.temps = temps ++ d.power.temps.drop temps.length ∧ e.boot = d.boot
      ∧ (∀ k, k < 9 → dieTemps temps k ≠ [] → d.Heated k (hottest (dieTemps temps k)) (e.die k))
      ∧ ∀ i, i < 8 → d.PackagesHeated temps i e := by
  obtain ⟨hdies, hheated⟩ := (d.holdTemps temps).diesHeated temps
  generalize hf : powerDies.foldl (Dev.dieHeat temps) (d.holdTemps temps) = f at hdies hheated
  obtain ⟨hrest, hpackages⟩ := f.packagesHeated temps
  have he : d.heatSample temps = (List.range 8).foldl (Dev.packageHeat temps) f := by rw [← hf]; rfl
  intro e
  rw [show e = (List.range 8).foldl (Dev.packageHeat temps) f from he]
  generalize (List.range 8).foldl (Dev.packageHeat temps) f = g at hrest hpackages ⊢
  have hpower : f.power = { (d.holdTemps temps).power with dies := f.power.dies, throttled := f.power.throttled } := hdies.power
  refine ⟨?_, ?_, fun k hk hne => ?_, fun i hi => (hpackages i hi).of_before ?_ ?_ ?_ ?_ ?_⟩
  · rw [hrest]; dsimp only; rw [hpower]; rfl
  · rw [hrest]; exact hdies.boot
  · have hdie : g.die k = f.die k := by rw [hrest]; rfl
    rw [hdie]
    exact hheated k hk hne
  · exact hdies.tt
  · rw [hpower]; rfl
  · rw [hdies.mem3]; rfl
  · rw [hdies.mem3]; rfl
  · refine hdies.values _ ⟨?_, ?_⟩ ?_
    · simp [Cat.MEM_RETRAIN_DUE, Nat.add_mul_mod_self_left]
    · unfold Cat.MEM_RETRAIN_DUE Cat.TRC_DEV_HEAD; omega
    · unfold Cat.MEM_RETRAIN_DUE Cat.PWR_THROTTLE_EVENT; omega

section
variable {d : Dev} {at_ : Nat} {temps : List Int}

theorem execThermalSampleD_off (h : (d.advance at_).boot.rails % 2 ^ 15 = 0) :
    execThermalSampleD at_ temps d = d.advance at_ := if_pos h

theorem execThermalSampleD_trips {i : Nat} (h : (d.advance at_).boot.rails % 2 ^ 15 ≠ 0) (hs : tripSensor temps = some i) :
    execThermalSampleD at_ temps d = (d.advance at_).trip i := by
  unfold execThermalSampleD
  dsimp only
  rw [if_neg h, hs]

theorem execThermalSampleD_heats (h : (d.advance at_).boot.rails % 2 ^ 15 ≠ 0) (hs : tripSensor temps = none) :
    execThermalSampleD at_ temps d = (d.advance at_).heatSample temps := by
  unfold execThermalSampleD
  dsimp only
  rw [if_neg h, hs]

end

theorem Dev.noteHours_rest (d : Dev) (before : List (Nat × Nat)) (hours : Nat) :
    d.noteHours before hours = { d with cat := (d.noteHours before hours).cat } := by
  unfold Dev.noteHours Dev.bumpBy
  dsimp only
  split
  · rw [Dev.alert_rest]
    split <;> rfl
  · split <;> rfl

theorem NvStore.setBank_tripRecord (n : NvStore) (b : Nat) (images : List FwImage) :
    (n.setBank b images).tripRecord = n.tripRecord := by
  unfold NvStore.setBank; split <;> rfl

/-- A reset keeps the record of the last trip. -/
theorem Dev.nvAfterReset_tripRecord (d : Dev) : d.nvAfterReset.tripRecord = d.nv.tripRecord := by
  unfold Dev.nvAfterReset
  (repeat' split) <;> first | rfl | exact NvStore.setBank_tripRecord _ _ _

theorem Dev.noteHours_keeps (d : Dev) (before : List (Nat × Nat)) (hours : Nat) {e : Dev} (he : e = d.noteHours before hours) :
    e.boot = d.boot ∧ e.pins = d.pins ∧ e.nv = d.nv ∧ e.jobs = d.jobs ∧ e.cmds = d.cmds := by
  rw [he, d.noteHours_rest before hours]
  exact ⟨rfl, rfl, rfl, rfl, rfl⟩

/-- What a reset that keeps VDD_AUX makes of the device, before the powered hours disable entries anew (R486). -/
def Dev.cleared (d : Dev) (cause : Nat) : Dev :=
  { Dev.reset with
    fresh := d.fresh, out := d.out, mem := d.mem.filter (fun c => 2 ^ 64 ≤ c.1), nv := d.nvAfterReset, hosts := d.perstLevels,
    cat := Tbl.set [] Cat.MGMT_IPV4 (defaultIpv4 d.boot.pos), pins := { Pins.reset with thermTripN := !d.boot.tripped },
    boot := { Boot.reset with
      input := d.boot.input, modRstN := d.boot.modRstN, cause := cause, pos := d.boot.pos, tripped := d.boot.tripped,
      pulsed := d.boot.pulsed, tripSeen := d.boot.tripSeen, step := 1, rails := 2 ^ 15, times := d.boot.times.take 1,
      ssc := d.nv.sscEn } }

theorem Dev.resetTo_aux (d : Dev) (cause : Nat) :
    d.resetTo cause true = (d.cleared cause).noteHours [] (d.cleared cause).nv.hours := by
  unfold Dev.resetTo
  exact if_pos rfl

/-- A trip leaves VDD_AUX alone on, its cause, and its record (R395). -/
theorem Dev.trip_effect (d : Dev) (i : Nat) : let e := d.trip i
    e.boot.tripped = true ∧ e.boot.tripSeen = true ∧ e.boot.rails = 2 ^ 15 ∧ e.boot.cause = 4 ∧ e.boot.state = 0
      ∧ e.pins.thermTripN = false ∧ e.pins.pwrGood = false ∧ e.nv.tripRecord = leBytes 8 d.now ++ leBytes 1 i
      ∧ e.jobs = [] ∧ e.cmds = [] := by
  intro e
  obtain ⟨hboot, hpins, hnv, hjobs, hcmds⟩ := Dev.noteHours_keeps (e := e) _ _ _ (Dev.resetTo_aux _ _)
  clear_value e
  rw [hboot, hpins, hnv, hjobs, hcmds]
  exact ⟨rfl, rfl, rfl, rfl, rfl, rfl, rfl, Dev.nvAfterReset_tripRecord _, rfl, rfl⟩

/-- No sensor trips while every junction is below 115 °C and every package below 105 °C (R395). -/
theorem tripSensor_eq_none (temps : List Int) : tripSensor temps = none
    ↔ ∀ i t, temps[i]? = some t → (i < 34 → t < 115) ∧ (34 ≤ i → i < 66 → t < 105) := by
  unfold tripSensor
  rw [List.find?_eq_none]
  refine ⟨fun h i t hi => ?_, fun h i hi => ?_⟩
  · have hlt : i < temps.length := by
      by_contra hge
      rw [List.getElem?_eq_none (by omega)] at hi
      exact absurd hi (by simp)
    have := h i (List.mem_range.mpr hlt)
    simp [hi] at this
    omega
  · have hlt := List.mem_range.mp hi
    have := h i temps[i] (List.getElem?_eq_getElem hlt)
    simp [hlt]
    omega

/-! ### The inlet and droops (R393, R396) -/

section
variable {d : Dev} {at_ : Nat} {temp : Int}

theorem execInletSampleD_off (h : (d.advance at_).pins.pwrGood = false) : execInletSampleD at_ temp d = d.advance at_ := by
  unfold execInletSampleD
  dsimp only
  rw [h]; rfl

/-- The device that has read the inlet air. -/
def Dev.inletRead (d : Dev) (temp : Int) : Dev := { d with power := { d.power with inlet := temp } }

theorem execInletSampleD_reads (h : (d.advance at_).pins.pwrGood = true) : execInletSampleD at_ temp d
    = if 35 < temp then (((d.advance at_).inletRead temp).bump Cat.THERM_INLET_OVER).alert 6
      else (d.advance at_).inletRead temp := by
  unfold execInletSampleD
  dsimp only
  rw [h]; rfl

/-- Inlet air above 35 °C is counted (R396). -/
theorem Dev.inletOver_effect (d : Dev) (temp : Int) : let e := ((d.inletRead temp).bump Cat.THERM_INLET_OVER).alert 6
    e.power = { d.power with inlet := temp } ∧ e.cget Cat.THERM_INLET_OVER = d.cget Cat.THERM_INLET_OVER + 1
      ∧ bit (e.cget Cat.ALERT_CAUSE) 6 = true := by
  refine ⟨?_, ?_, ?_⟩
  · rw [Dev.alert_rest]
    exact (d.inletRead temp).bump_power Cat.THERM_INLET_OVER
  · rw [Dev.cget_alert _ _ (by decide), Dev.cget_bump, if_pos rfl]
    rfl
  · rw [Dev.bit_alert]
    rfl

end

section
variable {d : Dev} {at_ det mv : Nat}

/-- A droop that a detector's threshold notes while the supply is good. -/
def Dev.isDroop (d : Dev) (det mv : Nat) : Prop := det < 12 ∧ d.cget Cat.DROOP_THRESH < mv ∧ d.pins.pwrGood = true

theorem execDroopD_none (h : ¬ (d.advance at_).isDroop det mv) : execDroopD at_ det mv d = d.advance at_ := by
  refine if_pos ?_
  unfold Dev.isDroop at h
  by_contra hn
  simp only [Bool.or_eq_true, decide_eq_true_eq, Bool.not_eq_true', not_or, Bool.not_eq_false] at hn
  exact h ⟨by omega, by omega, hn.2⟩

theorem execDroopD_notes (h : (d.advance at_).isDroop det mv) : execDroopD at_ det mv d
    = match Tbl.find? (d.advance at_).power.droops det with
      | some (s, m) => let a := d.advance at_
        { a with power := { a.power with droops := Tbl.set a.power.droops det (s, max m mv) } }
      | none => let a := d.advance at_
        { a with power := { a.power with droops := Tbl.set a.power.droops det (a.now, mv) } }.bump Cat.DROOP_EVENTS := by
  obtain ⟨hdet, hmv, hgood⟩ := h
  have hnotes : (decide (12 ≤ det) || decide (mv ≤ (d.advance at_).cget Cat.DROOP_THRESH)
      || !(d.advance at_).pins.pwrGood) = false := by
    rw [decide_eq_false (by omega), decide_eq_false (by omega), hgood]; rfl
  exact if_neg (by rw [hnotes]; decide)

theorem execDroopEndD_none (h : Tbl.find? (d.advance at_).power.droops det = none) :
    execDroopEndD at_ det d = d.advance at_ := by
  unfold execDroopEndD
  dsimp only
  rw [h]

/-- The length that a stretch's record gives lies between that at the entry's frequency and that at 12 % less (R393). -/
theorem execDroopEndD_ends {t m : Nat} (h : Tbl.find? (d.advance at_).power.droops det = some (t, m)) :
    let a := d.advance at_
    let full := (a.now - t) * entryMhz (a.die (if det < 4 then 0 else det - 3)).entry / 8000
    ∃ n, full * 100 / 112 ≤ n ∧ n ≤ full
      ∧ execDroopEndD at_ det d = ({ a.takeN 1 with power := { a.power with droops := Tbl.erase a.power.droops det } } : Dev).event
          0x33 0x1F (droopUnit det) (n % 2 ^ 16 * 2 ^ 16 + m % 2 ^ 16) 0 0 := by
  intro a full
  have hle : full * 100 / 112 ≤ full := Nat.div_le_of_le_mul (by omega)
  have hmod := Nat.mod_lt a.take.1 (Nat.succ_pos (full - full * 100 / 112))
  refine ⟨full * 100 / 112 + a.take.1 % (full - full * 100 / 112 + 1), Nat.le_add_right _ _, ?_, ?_⟩
  · have : a.take.1 % (full - full * 100 / 112 + 1) < full - full * 100 / 112 + 1 := hmod
    omega
  · unfold execDroopEndD
    dsimp only
    rw [h]
    rfl

end

/-! ### The Cuff (R391, R392) -/

theorem Dev.engine_setRamp (d : Dev) (u e v i : Nat) (r : EngineRamp) : (d.setRamp u e r).engine v i
    = if v = u ∧ i = e then { d.engine u e with ramp := r, rampAt := d.now } else d.engine v i :=
  d.engine_setEngine u e v i _

/-- `e` differs from `d` in units alone. -/
def Dev.unitsOf (d e : Dev) : Prop := e = { d with units := e.units }

theorem Dev.unitsOf.refl (d : Dev) : d.unitsOf d := rfl
theorem Dev.unitsOf.trans {a b c : Dev} (h : a.unitsOf b) (k : b.unitsOf c) : a.unitsOf c := by
  unfold Dev.unitsOf at *; rw [k, h]
theorem Dev.unitsOf.now {d e : Dev} (h : d.unitsOf e) : e.now = d.now := by rw [h]
theorem Dev.unitsOf.mem {d e : Dev} (h : d.unitsOf e) : e.mem = d.mem := by rw [h]
theorem Dev.unitsOf.power {d e : Dev} (h : d.unitsOf e) : e.power = d.power := by rw [h]
theorem Dev.unitsOf.firstRamp {d e : Dev} (h : d.unitsOf e) (u : Nat) : e.firstRamp u = d.firstRamp u := by rw [h]; rfl
theorem Dev.unitsOf.waveOf {d e : Dev} (h : d.unitsOf e) (u : Nat) : e.waveOf u = d.waveOf u := by rw [h]; rfl

/-- An engine that holds starts its ramp. -/
def Dev.letGo (u : Nat) (d : Dev) (x : Nat) : Dev :=
  if (d.engine u x).ramp = .held then d.setRamp u x (d.firstRamp u) else d

/-- The engine as it is once it may go on. -/
def Dev.going (d : Dev) (u x : Nat) : Engine :=
  if (d.engine u x).ramp = .held then { d.engine u x with ramp := d.firstRamp u, rampAt := d.now } else d.engine u x

theorem Dev.going_congr {d e : Dev} (h : d.unitsOf e) {u x : Nat} (he : e.engine u x = d.engine u x) :
    e.going u x = d.going u x := by
  unfold Dev.going; rw [he, h.now, h.firstRamp]

theorem Dev.unitsOf_letGo (u : Nat) (d : Dev) (x : Nat) : d.unitsOf (d.letGo u x) := by
  unfold Dev.letGo; split <;> rfl

theorem Dev.engine_letGo (u : Nat) (d : Dev) (x v i : Nat) : (d.letGo u x).engine v i
    = if v = u ∧ i = x then d.going u x else d.engine v i := by
  unfold Dev.letGo Dev.going
  split
  · exact d.engine_setRamp u x v i _
  · split
    · next h => rw [h.1, h.2]
    · rfl

/-- `e` differs from `d` in units alone, and not in engine `x` of unit `u`. -/
def Dev.engineKept (u x : Nat) (d e : Dev) : Prop := d.unitsOf e ∧ e.engine u x = d.engine u x

theorem Dev.engineKept.refl (u x : Nat) (d : Dev) : Dev.engineKept u x d d := ⟨rfl, rfl⟩

theorem Dev.engineKept.trans {u x : Nat} {a b c : Dev} (h : Dev.engineKept u x a b) (k : Dev.engineKept u x b c) :
    Dev.engineKept u x a c := ⟨h.1.trans k.1, k.2.trans h.2⟩

theorem Dev.engineKept_letGo {u x v i : Nat} (d : Dev) (h : ¬ (v = u ∧ i = x)) : Dev.engineKept v i d (d.letGo u x) :=
  ⟨d.unitsOf_letGo u x, by rw [Dev.engine_letGo, if_neg h]⟩

/-- The held engines of a unit start their ramp. -/
def Dev.unitGoes (d : Dev) (u : Nat) : Dev := (List.range 8).foldl (Dev.letGo u) d

theorem Dev.unitsOf_unitGoes (d : Dev) (u : Nat) : d.unitsOf (d.unitGoes u) :=
  foldl_keeps d.unitsOf _ (fun e x he => he.trans (e.unitsOf_letGo u x)) _ d (.refl d)

theorem Dev.engine_foldl_letGo (d : Dev) (u v i : Nat) {l : List Nat} (hl : l.Nodup) :
    (l.foldl (Dev.letGo u) d).engine v i = if v = u ∧ i ∈ l then d.going u i else d.engine v i := by
  by_cases hv : v = u
  · subst hv
    by_cases hi : i ∈ l
    · rw [if_pos ⟨rfl, hi⟩]
      exact foldl_once (same := fun s s' k => Dev.engineKept v k s s') (P := fun s k e => e.engine v k = s.going v k)
        (fun s k => .refl v k s) Dev.engineKept.trans (fun s a k h => s.engineKept_letGo fun h' => h h'.2)
        (fun s k => by rw [Dev.engine_letGo, if_pos ⟨rfl, rfl⟩]) (fun h hp => hp.trans (Dev.going_congr h.1 h.2))
        (fun hp h => h.2.trans hp) hl hi d
    · rw [if_neg fun h => hi h.2]
      have hkept := foldl_same_of_not_mem (same := fun s s' k => Dev.engineKept v k s s') (f := Dev.letGo v)
        (fun s k => .refl v k s) Dev.engineKept.trans (fun s a k h => s.engineKept_letGo fun h' => h h'.2) hi d
      exact hkept.2
  · rw [if_neg fun h => hv h.1]
    have hkept := foldl_keeps (Dev.engineKept v i d) (Dev.letGo u)
      (fun e x he => he.trans (e.engineKept_letGo fun h => hv h.1)) l d (.refl v i d)
    exact hkept.2

/-- A unit of the wave. -/
def Dev.waveGoes (w : Nat) (d : Dev) (u : Nat) : Dev := if d.waveOf u ≠ w then d else d.unitGoes u

theorem Dev.unitsOf_waveGoes (w : Nat) (d : Dev) (u : Nat) : d.unitsOf (d.waveGoes w u) := by
  unfold Dev.waveGoes
  split
  · exact .refl d
  · exact d.unitsOf_unitGoes u

theorem Dev.engine_waveGoes (w : Nat) (d : Dev) (u v i : Nat) : (d.waveGoes w u).engine v i
    = if v = u ∧ i < 8 ∧ d.waveOf u = w then d.going u i else d.engine v i := by
  unfold Dev.waveGoes Dev.unitGoes
  by_cases hw : d.waveOf u = w
  · rw [if_neg (not_not.mpr hw), Dev.engine_foldl_letGo d u v i List.nodup_range]
    simp [hw]
  · rw [if_pos hw, if_neg fun h => hw h.2.2]

theorem Dev.engineKept_waveGoes {w u v i : Nat} (d : Dev) (h : v ≠ u) : Dev.engineKept v i d (d.waveGoes w u) :=
  ⟨d.unitsOf_waveGoes w u, by rw [Dev.engine_waveGoes, if_neg fun h' => h h'.1]⟩

/-- After a wave is released over different units, the held engines of those that are in it have started their ramp, and no
other engine has changed. -/
theorem Dev.engine_foldl_waveGoes (w : Nat) (d : Dev) (u i : Nat) {l : List Nat} (hl : l.Nodup) :
    (l.foldl (Dev.waveGoes w) d).engine u i
      = if u ∈ l ∧ i < 8 ∧ d.waveOf u = w then d.going u i else d.engine u i := by
  by_cases hu : u ∈ l
  · have hpart := foldl_once (same := fun s s' k => Dev.engineKept k i s s') (f := Dev.waveGoes w)
      (P := fun s k e => e.engine k i = if i < 8 ∧ s.waveOf k = w then s.going k i else s.engine k i)
      (fun s k => .refl k i s) Dev.engineKept.trans (fun s a k h => s.engineKept_waveGoes h)
      (fun s k => by rw [Dev.engine_waveGoes]; simp)
      (fun {s s' k e} h hp => by rw [hp, h.1.waveOf, Dev.going_congr h.1 h.2, h.2]) (fun hp h => h.2.trans hp) hl hu d
    rw [hpart]
    simp [hu]
  · rw [if_neg fun h => hu h.1]
    have hkept := foldl_same_of_not_mem (same := fun s s' k => Dev.engineKept k i s s') (f := Dev.waveGoes w)
      (fun s k => .refl k i s) Dev.engineKept.trans (fun s a k h => s.engineKept_waveGoes h) hu d
    exact hkept.2

/-- The duty in force does not depend on the time. -/
theorem Dev.duty_advance (d : Dev) (t k : Nat) : (d.advance t).duty k = d.duty k := by
  unfold Dev.duty Dev.prefDuty Dev.die; simp

/-- The device at the instant of its next wave. -/
def Dev.waveNow (d : Dev) : Dev :=
  let a := d.advance (d.power.cuffAt + 1024 * d.power.cuffWave)
  { a with power := { a.power with cuffWave := d.power.cuffWave + 1 } }

theorem execCuffWaveD_idle {d : Dev} (h : d.power.cuffOn = false ∨ 8 ≤ d.power.cuffWave) : execCuffWaveD d = d :=
  if_pos (by simpa using h)

theorem execCuffWaveD_releases {d : Dev} (hon : d.power.cuffOn = true) (hw : d.power.cuffWave < 8) :
    execCuffWaveD d = (List.range 72).foldl (Dev.waveGoes d.power.cuffWave) d.waveNow :=
  if_neg (by simp [hon, hw])

/-- A wave: the next one is due, and its held engines go. -/
theorem Dev.wave_effect (d : Dev) : let w := d.power.cuffWave; let e := (List.range 72).foldl (Dev.waveGoes w) d.waveNow
    e.power = { d.power with cuffWave := w + 1 } ∧ e.now = max d.now (d.power.cuffAt + 1024 * w) ∧ e.mem = d.mem
      ∧ ∀ u x, e.engine u x = if u < 72 ∧ x < 8 ∧ d.waveOf u = w ∧ (d.engine u x).ramp = .held
          then { d.engine u x with ramp := d.firstRamp u, rampAt := e.now } else d.engine u x := by
  intro w e
  have hunits : d.waveNow.unitsOf e :=
    foldl_keeps d.waveNow.unitsOf _ (fun e u he => he.trans (e.unitsOf_waveGoes w u)) _ d.waveNow (.refl _)
  have hgoes : ∀ u x, e.engine u x = if u ∈ List.range 72 ∧ x < 8 ∧ d.waveNow.waveOf u = w then d.waveNow.going u x
      else d.waveNow.engine u x := fun u x => d.waveNow.engine_foldl_waveGoes w u x List.nodup_range
  clear_value e
  have hpower : d.waveNow.power = { d.power with cuffWave := w + 1 } := by unfold Dev.waveNow; simp [w]
  refine ⟨hunits.power.trans hpower, hunits.now.trans (d.advance_now _), hunits.mem.trans (d.advance_mem _), fun u x => ?_⟩
  have hengine : d.waveNow.engine u x = d.engine u x := Dev.engine_of_units (d.advance_units _) u x
  have hwave : d.waveNow.waveOf u = d.waveOf u := by unfold Dev.waveOf; rw [hpower]
  have hfirst : d.waveNow.firstRamp u = d.firstRamp u := by
    unfold Dev.firstRamp
    rw [← d.duty_advance (d.power.cuffAt + 1024 * d.power.cuffWave)]
    rfl
  rw [hgoes, hunits.now, hwave, hengine]
  unfold Dev.going
  rw [hengine, hfirst]
  by_cases hcond : u < 72 ∧ x < 8 ∧ d.waveOf u = w
  · by_cases hheld : (d.engine u x).ramp = .held <;> simp [hcond, hheld]
  · rw [if_neg (by simpa using hcond), if_neg fun h => hcond ⟨h.1, h.2.1, h.2.2.1⟩]

theorem execCuffDisengageD_idle {d : Dev} (h : d.power.cuffOn = false ∨ d.power.cuffWave < 8) : execCuffDisengageD d = d :=
  if_pos (by simpa using h)

theorem execCuffDisengageD_ends {d : Dev} (hon : d.power.cuffOn = true) (hw : 8 ≤ d.power.cuffWave) :
    execCuffDisengageD d = let a := d.advance (d.power.cuffAt + 7 * 1024 + d.cyclesToUnits 0 128)
      { a with power := { a.power with cuffOn := false, due := [] } } :=
  if_neg (by simp [hon, hw])

section
variable {d : Dev} {u x : Nat}

theorem execCuffRampStepD_quarter (h : (d.engine u x).ramp = .quarter) : execCuffRampStepD u x d
    = (d.advance ((d.engine u x).rampAt + d.cyclesToUnits (dieOfUnit u) 64)).setRamp u x
        (if d.duty (dieOfUnit u) ≤ 4 then .full else .half) := by
  unfold execCuffRampStepD
  rw [h]
  dsimp only
  rw [Dev.duty_advance]

theorem execCuffRampStepD_half (h : (d.engine u x).ramp = .half) : execCuffRampStepD u x d
    = (d.advance ((d.engine u x).rampAt + d.cyclesToUnits (dieOfUnit u) 64)).setRamp u x .full := by
  unfold execCuffRampStepD
  rw [h]

theorem execCuffRampStepD_stays (h : (d.engine u x).ramp = .held ∨ (d.engine u x).ramp = .full) :
    execCuffRampStepD u x d = d := by
  unfold execCuffRampStepD
  rcases h with h | h <;> rw [h]

end

/-! ### The obligation -/

/-- Settles O49: a sample trips, or heats the dies and the packages one by one, of each of which its own step is known; a wave
lets the engines of its units go one by one; and the other commands are their branches. -/
theorem heatDroopAndCuff : Obligations.HeatDroopAndCuff := by
  refine ⟨fun s at_ temps => ⟨fun h => Acts.of_eq rfl (execThermalSampleD_off h) rfl,
      fun i h hs => Acts.of_eq rfl (execThermalSampleD_trips h hs) (Dev.trip_effect _ i),
      fun h hs => Acts.of_eq rfl (execThermalSampleD_heats h hs) ?_⟩,
    tripSensor_eq_none, fun s at_ temp => ⟨fun h => Acts.of_eq rfl (execInletSampleD_off h) rfl, fun h => ?_⟩,
    fun s at_ det mv => ⟨fun h => Acts.of_eq rfl (execDroopD_none h) rfl, fun h hf => ?_, fun t m h hf => ?_,
      fun hf => Acts.of_eq rfl (execDroopEndD_none hf) rfl, fun t m hf => Acts.of_eq rfl rfl (execDroopEndD_ends hf)⟩,
    fun s => ⟨fun h => Acts.of_eq rfl (execCuffWaveD_idle h) rfl,
      fun hon hw => Acts.of_eq rfl (execCuffWaveD_releases hon hw) (Dev.wave_effect _),
      fun h => Acts.of_eq rfl (execCuffDisengageD_idle h) rfl,
      fun hon hw => Acts.of_eq rfl (execCuffDisengageD_ends hon hw) ?_⟩,
    fun s u x => ⟨fun h => Acts.of_eq rfl (execCuffRampStepD_quarter h) rfl,
      fun h => Acts.of_eq rfl (execCuffRampStepD_half h) rfl, fun h => Acts.of_eq rfl (execCuffRampStepD_stays h) rfl⟩⟩
  · obtain ⟨htemps, hboot, hdies, hpackages⟩ := (s.dev.advance at_).heatSample_effect temps
    exact ⟨htemps, hboot, hdies, fun i hi hne => (hpackages i hi hne).1,
      fun i t hi hne hst ht hfar hdue => (hpackages i hi hne).2 t ⟨hst, ht, hfar, hdue⟩⟩
  · refine Acts.of_eq rfl (execInletSampleD_reads h) ?_
    by_cases ht : 35 < temp
    · obtain ⟨hpower, hcount, halert⟩ := (s.dev.advance at_).inletOver_effect temp
      rw [if_pos ht]
      exact ⟨hpower, fun hle => absurd hle (not_le.mpr ht), fun _ => ⟨hcount, halert⟩⟩
    · rw [if_neg ht]
      exact ⟨rfl, fun _ => rfl, fun h => absurd h ht⟩
  · refine Acts.of_eq rfl (execDroopD_notes h) ?_
    rw [hf]
    dsimp only
    rw [Dev.bump_power, Dev.cget_bump, if_pos rfl]
    exact ⟨Tbl.find?_set_self _ _ _, rfl⟩
  · refine Acts.of_eq rfl (execDroopD_notes h) ?_
    rw [hf]
    exact ⟨Tbl.find?_set_self _ _ _, rfl⟩
  · exact ⟨by simp, s.dev.advance_mem _, s.dev.advance_now _⟩

end Sys2Proof.Machine
end

section
/-! SUPPORT. Stretches of addresses, places of pages and of allocations (R205, R210, R211), and pages that are zeroed (R213). -/

namespace Sys2Proof.Machine

/-! ### Stretches -/

theorem overlaps_iff {a n b m : Nat} : overlaps a n b m = true ↔ a < b + m ∧ b < a + n := by simp [overlaps]

theorem overlaps_eq_false_iff {a n b m : Nat} : overlaps a n b m = false ↔ b + m ≤ a ∨ a + n ≤ b := by
  rw [← Bool.not_eq_true, overlaps_iff]
  omega

theorem overlaps_comm (a n b m : Nat) : overlaps a n b m = overlaps b m a n := by
  unfold overlaps
  rw [Bool.and_comm]

theorem le_ceilDiv_mul (x : Nat) {a : Nat} (ha : 0 < a) : x ≤ ceilDiv x a * a := by
  have h := Nat.lt_mul_div_succ (x + a - 1) ha
  unfold ceilDiv
  rw [Nat.mul_add, Nat.mul_comm] at h
  omega

/-- A multiple that lies at `x` or above lies at the next multiple or above. -/
theorem ceilDiv_mul_le {x a b : Nat} (ha : 0 < a) (hx : x ≤ b) (hb : b % a = 0) : ceilDiv x a * a ≤ b := by
  obtain ⟨c, rfl⟩ := Nat.dvd_of_mod_eq_zero hb
  have h : (x + a - 1) / a < c + 1 := by
    rw [Nat.div_lt_iff_lt_mul ha, Nat.add_mul, Nat.mul_comm c]
    omega
  unfold ceilDiv
  rw [Nat.mul_comm a]
  exact Nat.mul_le_mul_right a (by omega)

theorem pageSize_pos (k : Nat) : 0 < pageSize k := by
  unfold pageSize
  split <;> decide

/-! ### A place for a page (R210) -/

/-- A multiple of `size` in the range, apart from every stretch. -/
def Fits (taken : List (Nat × Nat)) (base limit size a : Nat) : Prop :=
  base ≤ a ∧ a + size ≤ limit ∧ a % size = 0 ∧ ∀ t ∈ taken, overlaps a size t.1 t.2 = false

theorem placeIn_fits {taken : List (Nat × Nat)} {base limit size want a : Nat} (h : placeIn taken base limit size want = some a) :
    Fits taken base limit size a := by
  have hok : ∀ a, (decide (base ≤ a) && decide (a + size ≤ limit) && decide (a % size = 0)
      && !(taken.any fun t => overlaps a size t.1 t.2)) = true → Fits taken base limit size a := fun a ha => by
    simp only [Bool.and_eq_true, decide_eq_true_eq, Bool.not_eq_true', List.any_eq_false, Bool.not_eq_true] at ha
    obtain ⟨⟨⟨hbase, hlimit⟩, hsize⟩, hapart⟩ := ha
    exact ⟨hbase, hlimit, hsize, hapart⟩
  unfold placeIn at h
  dsimp only at h
  split at h
  · next hwant =>
    obtain rfl := Option.some.inj h
    exact hok _ hwant
  · exact hok a (List.mem_filter.mp (List.min?_eq_some_iff.mp h).1).2

/-- Where the part of a die's memory begins from which pages of a tier are taken. -/
def placeBase (tier die : Nat) : Nat := if tier = 2 then t2Base + die * t2Span else die * dieSpan

/-- A place on a die that the mask of an allocation names, apart from all pages. -/
def Dev.PlaceOk (d : Dev) (tier size mask pa : Nat) : Prop :=
  pa % size = 0 ∧ (∀ t ∈ d.taken, overlaps pa size t.1 t.2 = false)
    ∧ ∃ die, die < 8 ∧ (mask = 0 ∨ bit mask die = true) ∧ placeBase tier die ≤ pa
      ∧ pa + size ≤ placeBase tier die + if tier = 2 then t2Span else d.t3Limit

theorem placeOn_fits {d : Dev} {tier die size k pa : Nat} {taken : List (Nat × Nat)}
    (h : d.placeOn tier die size taken k = some pa) :
    Fits taken (placeBase tier die) (placeBase tier die + if tier = 2 then t2Span else d.t3Limit) size pa := placeIn_fits h

/-- The dies that a mask names; 0 names all (R210). -/
def maskDies (mask : Nat) : List Nat := setBits 8 (if mask = 0 then 0xFF else mask)

theorem mem_maskDies {mask die : Nat} (h : die ∈ maskDies mask) : die < 8 ∧ (mask = 0 ∨ bit mask die = true) := by
  unfold maskDies setBits at h
  obtain ⟨hlt, hbit⟩ := List.mem_filter.mp h
  refine ⟨List.mem_range.mp hlt, ?_⟩
  by_cases hm : mask = 0
  · exact .inl hm
  · rw [if_neg hm] at hbit
    exact .inr hbit

/-- The dies in the order in which page `i` tries them. -/
def dieOrder (mask : Nat) (spread : Bool) (i : Nat) : List Nat :=
  let dies := maskDies mask
  let t := i % dies.length
  if spread then dies.drop t ++ dies.take t else dies

theorem mem_dieOrder {mask i die : Nat} {spread : Bool} (h : die ∈ dieOrder mask spread i) : die ∈ maskDies mask := by
  unfold dieOrder at h
  dsimp only at h
  split at h
  · exact (List.mem_append.mp h).elim List.mem_of_mem_drop List.mem_of_mem_take
  · exact h

/-- Page `i` of an allocation is placed: the pages placed so far, newest first, and the stretches in use. -/
def Dev.placeNext (d : Dev) (tier size mask : Nat) (spread : Bool) (s : Option (List Nat × List (Nat × Nat))) (i : Nat) :
    Option (List Nat × List (Nat × Nat)) :=
  match s with
  | none => none
  | some (got, taken) =>
    match (dieOrder mask spread i).findSome? fun die => d.placeOn tier die size taken i with
    | none => none
    | some pa => some (pa :: got, (pa, size) :: taken)

theorem Dev.placePages_eq (d : Dev) (tier size mask : Nat) (spread : Bool) (n : Nat) : d.placePages tier size mask spread n
    = ((List.range n).foldl (d.placeNext tier size mask spread) (some ([], d.taken))).map fun s => s.1.reverse := rfl

/-- The first `n` pages are placed, apart from each other and from all pages before them. -/
structure Dev.Placed (d : Dev) (tier size mask n : Nat) (got : List Nat) (taken : List (Nat × Nat)) : Prop where
  length : got.length = n
  taken : taken = got.map (·, size) ++ d.taken
  apart : got.Pairwise fun a b => overlaps a size b size = false
  ok : ∀ pa ∈ got, d.PlaceOk tier size mask pa

theorem Dev.Placed.next {d : Dev} {tier size mask n i pa : Nat} {got : List Nat} {taken : List (Nat × Nat)} {spread : Bool}
    (h : d.Placed tier size mask n got taken)
    (hpa : ((dieOrder mask spread i).findSome? fun die => d.placeOn tier die size taken i) = some pa) :
    d.Placed tier size mask (n + 1) (pa :: got) ((pa, size) :: taken) := by
  obtain ⟨die, hdie, hplace⟩ := List.exists_of_findSome?_eq_some hpa
  obtain ⟨hlt, hmask⟩ := mem_maskDies (mem_dieOrder hdie)
  obtain ⟨hbase, hlimit, hsize, hapart⟩ := placeOn_fits hplace
  rw [h.taken] at hapart
  refine ⟨by rw [List.length_cons, h.length], by rw [h.taken]; rfl, List.pairwise_cons.mpr ⟨fun b hb => ?_, h.apart⟩, ?_⟩
  · exact hapart (b, size) (List.mem_append_left _ (List.mem_map_of_mem hb))
  · intro b hb
    rcases List.mem_cons.mp hb with rfl | hb
    · exact ⟨hsize, fun t ht => hapart t (List.mem_append_right _ ht), die, hlt, hmask, hbase, hlimit⟩
    · exact h.ok b hb

theorem Dev.foldl_placeNext {d : Dev} {tier size mask n : Nat} {spread : Bool} {got : List Nat} {taken : List (Nat × Nat)}
    (h : (List.range n).foldl (d.placeNext tier size mask spread) (some ([], d.taken)) = some (got, taken)) :
    d.Placed tier size mask n got taken := by
  induction n generalizing got taken with
  | zero =>
    obtain ⟨rfl, rfl⟩ := Prod.mk.inj (Option.some.inj h)
    exact ⟨rfl, rfl, .nil, fun _ hpa => absurd hpa List.not_mem_nil⟩
  | succ n ih =>
    rw [List.range_succ, List.foldl_append, List.foldl_cons, List.foldl_nil] at h
    generalize hs : (List.range n).foldl (d.placeNext tier size mask spread) (some ([], d.taken)) = s at h
    cases s with
    | none => exact absurd h (by simp [Dev.placeNext])
    | some s =>
      unfold Dev.placeNext at h
      dsimp only at h
      split at h
      · exact absurd h (by simp)
      · next pa hpa =>
        obtain ⟨rfl, rfl⟩ := Prod.mk.inj (Option.some.inj h)
        exact (ih hs).next hpa

/-- Pages that are placed are as many as asked for, apart from each other, and each is at a place that is good. -/
theorem Dev.placePages_placed {d : Dev} {tier size mask n : Nat} {spread : Bool} {pas : List Nat}
    (h : d.placePages tier size mask spread n = some pas) : pas.length = n
      ∧ (∀ pa ∈ pas, d.PlaceOk tier size mask pa)
      ∧ ∀ i j a b : Nat, i < j → pas[i]? = some a → pas[j]? = some b → overlaps a size b size = false := by
  rw [Dev.placePages_eq] at h
  obtain ⟨⟨got, taken⟩, hs, rfl⟩ := Option.map_eq_some_iff.mp h
  have hp := Dev.foldl_placeNext hs
  refine ⟨by rw [List.length_reverse, hp.length], fun pa hpa => hp.ok pa (List.mem_reverse.mp hpa),
    fun i j a b hij ha hb => ?_⟩
  obtain ⟨hi, rfl⟩ := List.getElem?_eq_some_iff.mp ha
  obtain ⟨hj, rfl⟩ := List.getElem?_eq_some_iff.mp hb
  rw [overlaps_comm]
  exact List.pairwise_iff_getElem.mp (List.pairwise_reverse.mpr hp.apart) i j hi hj hij

/-! ### The address of an allocation (R211) -/

/-- An allocation of `n` at `va` would run past the end of the address space, or over a mapping. -/
def Job.Clash (x : Job) (n va : Nat) : Prop :=
  2 ^ 52 < va + aSize n ∨ ∃ t ∈ x.mapped, overlaps va (aSize n) t.1 t.2 = true

/-- A stretch of `size` bytes at `a` ends in the address space and is apart from the others. -/
def ApartFrom (taken : List (Nat × Nat)) (size a : Nat) : Prop :=
  a + size ≤ 2 ^ 52 ∧ ∀ t ∈ taken, overlaps a size t.1 t.2 = false

theorem apartFrom_cons {t : Nat × Nat} {taken : List (Nat × Nat)} {size a : Nat} :
    ApartFrom (t :: taken) size a ↔ overlaps a size t.1 t.2 = false ∧ ApartFrom taken size a := by
  unfold ApartFrom
  rw [List.forall_mem_cons]
  exact and_left_comm

theorem Job.not_clash_iff {x : Job} {n va : Nat} : ¬ x.Clash n va ↔ ApartFrom x.mapped (aSize n) va := by
  simp only [Job.Clash, ApartFrom, not_or, not_lt, not_exists, not_and, Bool.not_eq_true]

/-- Below an address that is apart from the stretches, the last of their ends, rounded up, is apart from them too. -/
theorem exists_end_apartFrom {taken : List (Nat × Nat)} {size step a : Nat} (hstep : 0 < step) (ha : a % step = 0)
    (hapart : ApartFrom taken size a) (hbelow : ∃ t ∈ taken, t.1 + t.2 ≤ a) :
    ∃ t ∈ taken, ApartFrom taken size (ceilDiv (t.1 + t.2) step * step) := by
  obtain ⟨hroom, hclear⟩ := hapart
  have hmem : ∀ t, t ∈ (taken.filter fun t => t.1 + t.2 ≤ a).toFinset ↔ t ∈ taken ∧ t.1 + t.2 ≤ a := by simp
  obtain ⟨t, ht, hmax⟩ := Finset.exists_max_image (taken.filter fun t => t.1 + t.2 ≤ a).toFinset (fun t => t.1 + t.2)
    (hbelow.imp fun t h => (hmem t).mpr h)
  obtain ⟨htaken, hle⟩ := (hmem t).mp ht
  have hend := ceilDiv_mul_le hstep hle ha
  refine ⟨t, htaken, by omega, fun s hs => overlaps_eq_false_iff.mpr ?_⟩
  by_cases hsa : s.1 + s.2 ≤ a
  · have hst := hmax s ((hmem s).mpr ⟨hs, hsa⟩)
    exact .inl (hst.trans (le_ceilDiv_mul _ hstep))
  · have hafter := overlaps_eq_false_iff.mp (hclear s hs)
    omega

/-- The stretches that a chosen address is apart from: page 0 and the mappings. -/
def Dev.vaTaken (d : Dev) (j n : Nat) : List (Nat × Nat) := (0, aPage n) :: (d.job j).mapped

theorem mem_filter_apartFrom {taken : List (Nat × Nat)} {size a : Nat} {l : List Nat} :
    a ∈ l.filter (fun a => decide (a + size ≤ 2 ^ 52) && !(taken.any fun t => overlaps a size t.1 t.2))
      ↔ a ∈ l ∧ ApartFrom taken size a := by
  simp [ApartFrom]

/-- An address that the device chooses. -/
theorem Dev.allocVa_chosen {d : Dev} {j n : Nat} (h : aVa n = 0) : (∀ va, d.allocVa j n = some va →
      ApartFrom (d.vaTaken j n) (aSize n) va ∧ va % aPage n = 0)
    ∧ (d.allocVa j n = none → ∀ t ∈ d.vaTaken j n,
      ¬ ApartFrom (d.vaTaken j n) (aSize n) (ceilDiv (t.1 + t.2) (aPage n) * aPage n)) := by
  unfold Dev.allocVa
  dsimp only
  rw [if_pos h]
  split
  · next hwant =>
    refine ⟨fun va hva => ?_, fun hnone => absurd hnone (by simp)⟩
    obtain rfl := Option.some.inj hva
    exact ⟨by simpa [ApartFrom, Dev.vaTaken] using hwant, Nat.mul_mod_left _ _⟩
  · refine ⟨fun va hva => ?_, fun hnone t ht hapart => ?_⟩
    · obtain ⟨hva, hapart⟩ := mem_filter_apartFrom.mp (List.min?_eq_some_iff.mp hva).1
      obtain ⟨t, -, rfl⟩ := List.mem_map.mp hva
      exact ⟨hapart, Nat.mul_mod_left _ _⟩
    · have hcand := mem_filter_apartFrom.mpr
        ⟨List.mem_map_of_mem (f := fun t : Nat × Nat => ceilDiv (t.1 + t.2) (aPage n) * aPage n) ht, hapart⟩
      rw [List.min?_eq_none_iff] at hnone
      exact List.not_mem_nil (hnone ▸ hcand)

theorem Dev.allocVa_asked {d : Dev} {j n : Nat} (h : aVa n ≠ 0) : ((d.job j).Clash n (aVa n) → d.allocVa j n = none)
    ∧ (¬ (d.job j).Clash n (aVa n) → d.allocVa j n = some (aVa n)) := by
  have hclash : (decide (2 ^ 52 < aVa n + aSize n) || (d.job j).mapped.any fun t => overlaps (aVa n) (aSize n) t.1 t.2) = true
      ↔ (d.job j).Clash n (aVa n) := by
    simp only [Bool.or_eq_true, decide_eq_true_eq, List.any_eq_true, Job.Clash]
  unfold Dev.allocVa
  dsimp only
  rw [if_neg h]
  exact ⟨fun hc => if_pos (hclash.mpr hc), fun hc => if_neg (mt hclash.mp hc)⟩

/-- An allocation goes to the address asked for, or to a multiple of its page size past page 0, where it is free; and there is
no address for it only where no such address is free. -/
theorem Dev.allocVa_spec (d : Dev) (j n : Nat) (hn : aSize n ≠ 0) :
    (∀ va, d.allocVa j n = some va → ¬ (d.job j).Clash n va ∧ (aVa n ≠ 0 → va = aVa n)
        ∧ (aVa n = 0 → va % aPage n = 0 ∧ va ≠ 0))
      ∧ (d.allocVa j n = none → aVa n ≠ 0 → (d.job j).Clash n (aVa n))
      ∧ (d.allocVa j n = none → aVa n = 0 → ∀ a, a % aPage n = 0 → a ≠ 0 → (d.job j).Clash n a) := by
  have hpage : 0 < aPage n := pageSize_pos _
  refine ⟨fun va hva => ?_, fun hnone h => ?_, fun hnone h a ha ha0 => ?_⟩
  · by_cases h : aVa n = 0
    · obtain ⟨hapart, hmod⟩ := (Dev.allocVa_chosen h).1 va hva
      obtain ⟨hzero, hapart⟩ := apartFrom_cons.mp hapart
      have hpast := overlaps_eq_false_iff.mp hzero
      exact ⟨Job.not_clash_iff.mpr hapart, fun hne => absurd h hne, fun _ => ⟨hmod, by omega⟩⟩
    · by_cases hc : (d.job j).Clash n (aVa n)
      · rw [(Dev.allocVa_asked h).1 hc] at hva
        exact absurd hva (by simp)
      · obtain rfl := Option.some.inj (((Dev.allocVa_asked h).2 hc).symm.trans hva)
        exact ⟨hc, fun _ => rfl, fun h0 => absurd h0 h⟩
  · by_contra hc
    rw [(Dev.allocVa_asked h).2 hc] at hnone
    exact absurd hnone (by simp)
  · by_contra hc
    have hle : aPage n ≤ a := Nat.le_of_dvd (Nat.pos_of_ne_zero ha0) (Nat.dvd_of_mod_eq_zero ha)
    have hapart : ApartFrom (d.vaTaken j n) (aSize n) a := apartFrom_cons.mpr
      ⟨overlaps_eq_false_iff.mpr (.inl (by simpa using hle)), Job.not_clash_iff.mp hc⟩
    obtain ⟨t, ht, hend⟩ := exists_end_apartFrom hpage ha hapart ⟨(0, aPage n), List.mem_cons_self, by simpa using hle⟩
    exact (Dev.allocVa_chosen h).2 hnone t ht hend

/-! ### Quotas and host memory (R210, R216, R217) -/

/-- The kind that a request would exceed: its own first, then that of the page tables. -/
theorem Dev.overQuota_spec (d : Dev) (j n va : Nat) : let x := d.job j; let t3 := x.bytesIn d 3
    let tables := tableBytes (x.pages ++ newPages n va []) x.t1Ranges
    let more := if aTier n = 1 then aSize n else 0
    let beyond (kind : Nat) : Prop := d.quota j kind < (if aTier n = 1 then t3 else d.used j kind) + aSize n
    (beyond (aTier n + 1) → d.overQuota j n va = some (aTier n + 1))
      ∧ (¬ beyond (aTier n + 1) → d.quota j 2 < t3 + more + tables → d.overQuota j n va = some 2)
      ∧ (¬ beyond (aTier n + 1) → t3 + more + tables ≤ d.quota j 2 → d.overQuota j n va = none) := by
  have hkind : (allocKind n = 2) = (aTier n = 1) := propext (by unfold allocKind; omega)
  unfold Dev.overQuota
  simp only [hkind]
  exact ⟨fun h => if_pos h, fun h h2 => (if_neg h).trans (if_pos h2), fun h h2 => (if_neg h).trans (if_neg (not_lt.mpr h2))⟩

theorem Dev.allocPlaces_spec (d : Dev) (n : Nat) : let count := aSize n / aPage n; let host := d.hostPlace n
    let used : Prop := ∃ t ∈ d.taken, overlaps host (aSize n) t.1 t.2 = true
    (aTier n = 2 → used → d.allocPlaces n = none)
      ∧ (aTier n = 2 → ¬ used → d.allocPlaces n = some ((List.range count).map fun i => host + i * aPage n))
      ∧ (aTier n ≠ 2 → d.allocPlaces n = d.placePages (aTier n + 2) (aPage n) (fld n 56 8) (bit n 51) count) := by
  have hused : (d.taken.any fun t => overlaps (d.hostPlace n) (aSize n) t.1 t.2) = true
      ↔ ∃ t ∈ d.taken, overlaps (d.hostPlace n) (aSize n) t.1 t.2 = true := List.any_eq_true
  unfold Dev.allocPlaces
  exact ⟨fun h hu => (if_pos h).trans (if_pos (hused.mpr hu)), fun h hu => (if_pos h).trans (if_neg (mt hused.mp hu)),
    fun h => if_neg h⟩

/-! ### Pages that are zeroed (R213) -/

theorem memByte_memZero (m : List Host.Cell) (a n x : Nat) :
    memByte (memZero m a n) x = if a ≤ x ∧ x < a + n then 0 else memByte m x := by
  have hkeep := Tbl.find?_keep_key (fun k => !(decide (a ≤ k) && decide (k < a + n))) m x
  have hzero : Tbl.find? (memZero m a n) x = if (!(decide (a ≤ x) && decide (x < a + n))) = true then Tbl.find? m x else none :=
    hkeep
  unfold memByte
  rw [hzero]
  by_cases hx : a ≤ x ∧ x < a + n
  · simp [hx]
  · rw [if_pos (by simp only [← Bool.decide_and, decide_eq_false hx, Bool.not_false]), if_neg hx]

/-- The pages are zeroed one after the other. -/
def Dev.zeroPages (d : Dev) (pas : List Nat) (n : Nat) : Dev := pas.foldl (fun d pa => d.zeroPage pa n) d

theorem Dev.zeroPages_jobs (d : Dev) (pas : List Nat) (n : Nat) : (d.zeroPages pas n).jobs = d.jobs :=
  foldl_keeps (fun e : Dev => e.jobs = d.jobs) (fun d pa => d.zeroPage pa n) (fun _ _ he => he) pas d rfl

theorem Dev.zeroPages_mem_congr {d e : Dev} (h : e.mem = d.mem) (pas : List Nat) (n : Nat) :
    (e.zeroPages pas n).mem = (d.zeroPages pas n).mem := by
  induction pas generalizing d e with
  | nil => exact h
  | cons pa t ih => exact ih (congrArg (memZero · pa n) h)

/-- Zeroed pages read zeros, and every other byte reads as before. -/
theorem Dev.memByte_zeroPages (d : Dev) (pas : List Nat) (n : Nat) :
    (∀ pa ∈ pas, ∀ i, i < n → memByte (d.zeroPages pas n).mem (pa + i) = 0)
      ∧ ∀ a, (∀ pa ∈ pas, ¬ (pa ≤ a ∧ a < pa + n)) → memByte (d.zeroPages pas n).mem a = memByte d.mem a := by
  refine ⟨fun pa hpa i hi => ?_, fun a ha => ?_⟩
  · refine foldl_each (fun (e : Dev) pa => ∀ i, i < n → memByte e.mem (pa + i) = 0) (fun d pa => d.zeroPage pa n)
      (fun b a i hi => ?_) (fun b a a' h i hi => ?_) pas d pa hpa i hi
    · exact (memByte_memZero _ _ _ _).trans (if_pos (by omega))
    · refine (memByte_memZero _ _ _ _).trans ?_
      rw [h i hi, ite_self]
  · induction pas generalizing d with
    | nil => rfl
    | cons pa t ih =>
      rw [List.forall_mem_cons] at ha
      exact (ih (d.zeroPage pa n) ha.2).trans ((memByte_memZero _ _ _ _).trans (if_neg ha.1))

end Sys2Proof.Machine
end

section
/-! SUPPORT. MEM_ALLOC: the branches of a request, and what a granted one does (R210, R211, R213). -/

namespace Sys2Proof.Machine

/-- The record with RESULT and QKIND. -/
def allocResult (n code kind : Nat) : Nat := setFld (setFld n 68 8 code) 64 4 kind

/-- The record is kept as it reads back. -/
def Dev.allocKept (d : Dev) (j n : Nat) : Dev := d.setJob j { d.job j with allocRec := n }

/-- A request whose record is bad. -/
def Dev.allocRefused (d : Dev) (j n : Nat) : WriteResult := refuse ((d.allocKept j n).lastStatus j 0x30 0) stBadType

/-- A request that is denied for want of a kind. -/
def Dev.allocDenied (d : Dev) (j n kind : Nat) : WriteResult := (d.allocKept j (allocResult n 0x21 kind)).refuseQuota j kind

/-- The pages of a request that is granted are zeroed, unless they are host memory. -/
def Dev.allocZeroed (d : Dev) (n : Nat) (pas : List Nat) : Dev :=
  if aTier n = 2 then d.takeN (pas.length + 1) else (d.takeN (pas.length + 1)).zeroPages pas (aPage n)

/-- A request that is granted at `va`, on these pages. -/
def Dev.allocGranted (d : Dev) (j n va : Nat) (pas : List Nat) : Dev :=
  ((d.allocZeroed n pas).setJob j { (d.allocZeroed n pas).job j with pages := (d.job j).pages ++ newPages n va pas }).allocKept j
    (setFld n 76 52 va)

/-! ### The branches -/

/-- The branches of a request of good form: its address, the quota that it exceeds at that address, its places. -/
def allocChoose (va? : Option Nat) (quota? : Nat → Option Nat) (places? : Option (List Nat)) (kind : Nat)
    (deny : Nat → WriteResult) (grant : Nat → List Nat → WriteResult) : WriteResult :=
  match va? with
  | none => deny kind
  | some va =>
    match quota? va, places? with
    | some kind, _ => deny kind
    | none, none => deny kind
    | none, some pas => grant va pas

section
variable {va kind k : Nat} {quota? : Nat → Option Nat} {places? : Option (List Nat)} {deny : Nat → WriteResult}
  {grant : Nat → List Nat → WriteResult} {pas : List Nat}

theorem allocChoose_noAddress : allocChoose none quota? places? kind deny grant = deny kind := rfl

theorem allocChoose_beyond (h : quota? va = some k) : allocChoose (some va) quota? places? kind deny grant = deny k := by
  simp only [allocChoose, h]

theorem allocChoose_noRoom (h : quota? va = none) : allocChoose (some va) quota? none kind deny grant = deny kind := by
  simp only [allocChoose, h]

theorem allocChoose_grants (h : quota? va = none) :
    allocChoose (some va) quota? (some pas) kind deny grant = grant va pas := by
  simp only [allocChoose, h]

end

/-- A request of good form whose record reads back as `n`. -/
def Dev.allocChosen (d : Dev) (j n : Nat) : WriteResult :=
  allocChoose (d.allocVa j n) (d.overQuota j n) (d.allocPlaces n) (aTier n + 1) (d.allocDenied j n)
    fun va pas => ⟨d.allocGranted j n va pas, stOk, false⟩

theorem Dev.allocate_bad {d : Dev} {j n : Nat} (h : d.allocBad (allocResult n 0 0) = true) :
    d.allocate j n = d.allocRefused j (setFld (allocResult n 0 0) 68 8 0x30) := if_pos h

/-- What the branches turn on is kept apart from them, so that comparing them does not unfold it. -/
theorem Dev.allocate_chosen {d : Dev} {j n : Nat} (h : ¬ d.allocBad (allocResult n 0 0) = true) :
    d.allocate j n = d.allocChosen j (allocResult n 0 0) := by
  refine (if_neg h).trans ?_
  unfold Dev.allocChosen
  rw [show setFld (setFld n 68 8 0) 64 4 0 = allocResult n 0 0 from rfl]
  obtain ⟨m, hm⟩ : ∃ m, allocResult n 0 0 = m := ⟨_, rfl⟩
  obtain ⟨va?, hva⟩ : ∃ va?, d.allocVa j m = va? := ⟨_, rfl⟩
  obtain ⟨quota?, hquota⟩ : ∃ quota?, d.overQuota j m = quota? := ⟨_, rfl⟩
  obtain ⟨places?, hplaces⟩ : ∃ places?, d.allocPlaces m = places? := ⟨_, rfl⟩
  rw [hm, hva, hquota, hplaces]
  rfl

section
variable {d : Dev} {j n : Nat}

theorem Dev.allocChosen_noAddress (hva : d.allocVa j n = none) : d.allocChosen j n = d.allocDenied j n (aTier n + 1) := by
  rw [Dev.allocChosen, hva, allocChoose_noAddress]

theorem Dev.allocChosen_beyond {va kind : Nat} (hva : d.allocVa j n = some va) (hq : d.overQuota j n va = some kind) :
    d.allocChosen j n = d.allocDenied j n kind := by
  rw [Dev.allocChosen, hva, allocChoose_beyond hq]

theorem Dev.allocChosen_noRoom {va : Nat} (hva : d.allocVa j n = some va) (hq : d.overQuota j n va = none)
    (hp : d.allocPlaces n = none) : d.allocChosen j n = d.allocDenied j n (aTier n + 1) := by
  rw [Dev.allocChosen, hva, hp, allocChoose_noRoom hq]

theorem Dev.allocChosen_grants {va : Nat} {pas : List Nat} (hva : d.allocVa j n = some va) (hq : d.overQuota j n va = none)
    (hp : d.allocPlaces n = some pas) : d.allocChosen j n = ⟨d.allocGranted j n va pas, stOk, false⟩ := by
  rw [Dev.allocChosen, hva, hp, allocChoose_grants hq]

end

/-! ### What a granted request does -/

theorem Dev.job_congr {d e : Dev} (h : e.jobs = d.jobs) (j : Nat) : e.job j = d.job j := by
  unfold Dev.job
  rw [h]

theorem Dev.allocZeroed_jobs (d : Dev) (n : Nat) (pas : List Nat) : (d.allocZeroed n pas).jobs = d.jobs := by
  unfold Dev.allocZeroed
  split
  · rfl
  · exact Dev.zeroPages_jobs _ _ _

theorem Dev.allocZeroed_mem_host {d : Dev} {n : Nat} (pas : List Nat) (h : aTier n = 2) : (d.allocZeroed n pas).mem = d.mem := by
  unfold Dev.allocZeroed
  rw [if_pos h]
  rfl

theorem Dev.allocZeroed_mem {d : Dev} {n : Nat} (pas : List Nat) (h : aTier n ≠ 2) :
    (d.allocZeroed n pas).mem = (d.zeroPages pas (aPage n)).mem := by
  unfold Dev.allocZeroed
  rw [if_neg h]
  exact Dev.zeroPages_mem_congr (d := d) (e := d.takeN (pas.length + 1)) rfl pas (aPage n)

theorem Dev.allocGranted_job (d : Dev) (j n va : Nat) (pas : List Nat) : (d.allocGranted j n va pas).job j
    = { d.job j with pages := (d.job j).pages ++ newPages n va pas, allocRec := setFld n 76 52 va } := by
  unfold Dev.allocGranted Dev.allocKept
  rw [Dev.setJob_job, Dev.setJob_job, Dev.job_congr (d.allocZeroed_jobs n pas)]

theorem Dev.allocGranted_job_of {d : Dev} {j n va i : Nat} {pas : List Nat} (h : i ≠ j) :
    (d.allocGranted j n va pas).job i = d.job i := by
  unfold Dev.allocGranted Dev.allocKept
  rw [Dev.setJob_job_of, if_neg h, Dev.setJob_job_of, if_neg h, Dev.job_congr (d.allocZeroed_jobs n pas)]

theorem Dev.allocGranted_mem (d : Dev) (j n va : Nat) (pas : List Nat) :
    (d.allocGranted j n va pas).mem = (d.allocZeroed n pas).mem := rfl

end Sys2Proof.Machine
end

section
/-! SUPPORT. What the writes of MEM_ALLOC, MEM_FREE, MEM_BRING_IN, MEM_RETIRE and a quota do (R210 to R217, R223). -/

namespace Sys2Proof.Machine

/-! ### MEM_ALLOC (R210) -/

def Dev.allocWrite (j : Nat) (rec : List Byte) (d : Dev) : WriteResult :=
  if rec.length ≠ 32 then d.allocRefused j (allocResult (leNat (rec.take 32)) 0x30 0) else d.allocate j (leNat rec)

theorem allocChoose_long {va? : Option Nat} {quota? : Nat → Option Nat} {places? : Option (List Nat)} {kind : Nat}
    {deny : Nat → WriteResult} {grant : Nat → List Nat → WriteResult} (hdeny : ∀ k, (deny k).long = false)
    (hgrant : ∀ va pas, (grant va pas).long = false) : (allocChoose va? quota? places? kind deny grant).long = false := by
  unfold allocChoose
  split
  · exact hdeny _
  · split
    · exact hdeny _
    · exact hdeny _
    · exact hgrant _ _

theorem Dev.allocWrite_long (j : Nat) (rec : List Byte) (d : Dev) : (d.allocWrite j rec).long = false := by
  unfold Dev.allocWrite
  split
  · rfl
  · by_cases h : d.allocBad (allocResult (leNat rec) 0 0) = true
    · rw [Dev.allocate_bad h]
      rfl
    · rw [Dev.allocate_chosen h]
      exact allocChoose_long (fun _ => rfl) fun _ _ => rfl

/-! ### MEM_FREE (R213) -/

/-- The allocation at `v` is gone, and what was on its way to it has been accepted before. -/
def Dev.freed (d : Dev) (j v : Nat) : Dev :=
  ((d.drainWrites ((d.job j).allocPages v)).setJob j
    { (d.drainWrites ((d.job j).allocPages v)).job j with pages := (d.job j).pages.filter fun p => p.alloc ≠ v }).cset (Cat.MEM_FREE j) v

def Dev.freeWrite (j v : Nat) (d : Dev) : WriteResult :=
  if ((d.job j).allocPages v).isEmpty then refuse d stNoEntry
  else if d.regionOver j v (((d.job j).allocPages v).map (·.size)).sum then refuse d stDenied
  else ⟨d.freed j v, stOk, false⟩

theorem Dev.freeWrite_long (j v : Nat) (d : Dev) : (d.freeWrite j v).long = false := by
  unfold Dev.freeWrite
  split
  · rfl
  · split <;> rfl

section
variable {d : Dev} {j v : Nat}

theorem Dev.freeWrite_none (h : (d.job j).allocPages v = []) : d.freeWrite j v = refuse d stNoEntry :=
  if_pos (List.isEmpty_iff.mpr h)

theorem Dev.freeWrite_region (h : (d.job j).allocPages v ≠ [])
    (hr : d.regionOver j v (((d.job j).allocPages v).map (·.size)).sum = true) : d.freeWrite j v = refuse d stDenied :=
  (if_neg (mt List.isEmpty_iff.mp h)).trans (if_pos hr)

theorem Dev.freeWrite_frees (h : (d.job j).allocPages v ≠ [])
    (hr : ¬ d.regionOver j v (((d.job j).allocPages v).map (·.size)).sum = true) :
    d.freeWrite j v = ⟨d.freed j v, stOk, false⟩ :=
  (if_neg (mt List.isEmpty_iff.mp h)).trans (if_neg hr)

end

/-! ### MEM_BRING_IN (R214) -/

section
variable {d e : Dev}

theorem Dev.integrityOn_congr (h : e.cget Cat.MEM_INTEGRITY_EN = d.cget Cat.MEM_INTEGRITY_EN) : e.integrityOn = d.integrityOn := by
  unfold Dev.integrityOn
  rw [h]

/-- Where an address lies depends on the integrity tags alone (R205, R226). -/
theorem Dev.region_congr (h : e.integrityOn = d.integrityOn) (pa : Nat) : e.region pa = d.region pa := by
  unfold Dev.region Dev.regionAt
  rw [h]

theorem Dev.tierOf_congr (h : e.integrityOn = d.integrityOn) : e.tierOf = d.tierOf := by
  funext pa
  unfold Dev.tierOf
  rw [Dev.region_congr h]

theorem Dev.keyedFor_congr (hcat : e.cat = d.cat) (hkeys : e.keys = d.keys) (hjobs : e.jobs = d.jobs) (j pa : Nat) (p : Page) :
    e.keyedFor j pa p = d.keyedFor j pa p := by
  unfold Dev.keyedFor Dev.jobKey
  rw [Dev.region_congr (Dev.integrityOn_congr (Dev.cget_congr hcat _)), hkeys, Dev.job_congr hjobs]

end

/-- The page of the job that MEM_BRING_IN names: with MIGRATE, in tier 4. -/
def Dev.movable (d : Dev) (x : Job) (v : Nat) : Option Page :=
  x.pages.find? fun p => p.va = fld v 0 52 && p.migrate && d.tierOf p.pa = 4

/-- The leaf of the page leads to tier 3 at `pa`. -/
def Dev.leafMoved (d : Dev) (x : Job) (j : Nat) (p : Page) (pa : Nat) : Dev :=
  (d.setJob j { d.job j with pages := x.pages.map fun q =>
    if q.va = p.va then { q with pa := pa, migrate := false, enc := true } else q }).bump (Cat.MEM_BRING_INS j)

/-- The page lies in tier 3 at `pa`. -/
def Dev.broughtIn (d : Dev) (x : Job) (j : Nat) (p : Page) (pa : Nat) : Dev :=
  (((d.takeN 1).zeroPage pa p.size).copyFromHost (((d.takeN 1).zeroPage pa p.size).keyedFor j p.pa p) pa p.size).leafMoved x j p pa

/-- The page goes where there is room for it. -/
def Dev.bringInTo (d : Dev) (x : Job) (j : Nat) (p : Page) (places? : Option (List Nat)) : WriteResult :=
  match places? with
  | some [pa] => ⟨d.broughtIn x j p pa, stOk, false⟩
  | _ => d.refuseQuota j 2

def Dev.bringIn (d : Dev) (x : Job) (j v : Nat) (page? : Option Page) : WriteResult :=
  match page? with
  | none => refuse d stNoEntry
  | some p =>
    if d.quota j 2 < d.used j 2 + p.size then d.refuseQuota j 2
    else d.bringInTo x j p (d.placePages 3 p.size (fld v 56 8) false 1)

def Dev.bringInWrite (j v : Nat) (d0 : Dev) : WriteResult :=
  (d0.cset (Cat.MEM_BRING_IN j) v).bringIn (d0.job j) j v ((d0.cset (Cat.MEM_BRING_IN j) v).movable (d0.job j) v)

theorem exec_memBringIn (r : Req) (j v : Nat) (s : State) : exec (.memBringIn r j v) s
    = lift (catWrite r (0x3100 + j) 0x22 (leBytes 8 v) .byTable (fun _ => j < 16 && v < 2 ^ 64 && fld v 52 4 = 0)
      (Dev.bringInWrite j v)) s := rfl

theorem Dev.bringInWrite_long (j v : Nat) (d : Dev) : (d.bringInWrite j v).long = false := by
  unfold Dev.bringInWrite Dev.bringIn
  split
  · rfl
  · split
    · rfl
    · unfold Dev.bringInTo
      split <;> rfl

/-! ### MEM_RETIRE (R223) -/

/-- The page is recorded, and moved where a stopped job holds it. -/
def Dev.retired (d : Dev) (v : Nat) : Dev := ({ d with nv := { d.nv with retired := d.nv.retired ++ [v] } } : Dev).evacuate v

/-- ALERT_N where the quotas are now beyond the device. -/
def Dev.retireChecked (d : Dev) : Dev := if d.capacity 2 < d.quotaSum 2 16 then d.alert 3 else d

theorem Dev.retireChecked_eq (d : Dev) : d.retireChecked = if d.capacity 2 < d.quotaSum 2 16 then d.alert 3 else d := rfl

def Dev.retireWrite (v : Nat) (d : Dev) : WriteResult :=
  if 4095 < d.nv.retired.length then refuse ((d.bump Cat.MEM_RETIRE_FULL).alert 10) stDenied
  else if d.nv.retired.contains v then ⟨d, stOk, false⟩
  else ⟨(d.retired v).retireChecked, stOk, false⟩

theorem Dev.retireWrite_long (v : Nat) (d : Dev) : (d.retireWrite v).long = false := by
  unfold Dev.retireWrite
  split
  · rfl
  · split <;> rfl

section
variable {d : Dev} {v : Nat}

theorem Dev.retireWrite_full (h : 4095 < d.nv.retired.length) :
    d.retireWrite v = refuse ((d.bump Cat.MEM_RETIRE_FULL).alert 10) stDenied := if_pos h

theorem Dev.retireWrite_again (h : d.nv.retired.length ≤ 4095) (hv : v ∈ d.nv.retired) : d.retireWrite v = ⟨d, stOk, false⟩ :=
  (if_neg (not_lt.mpr h)).trans (if_pos (List.contains_iff_mem.mpr hv))

theorem Dev.retireWrite_retires (h : d.nv.retired.length ≤ 4095) (hv : v ∉ d.nv.retired) :
    d.retireWrite v = ⟨(d.retired v).retireChecked, stOk, false⟩ :=
  (if_neg (not_lt.mpr h)).trans (if_neg (mt List.contains_iff_mem.mp hv))

end

/-! ### Quotas (R216, R217) -/

def Dev.tier1Write (j : Nat) (v : List Byte) (d : Dev) : WriteResult :=
  if !d.t1QuotaFits j (leNat v) then refuse d stDenied
  else ⟨(d.bset (Cat.MEM_QUOTA_T1 j) v).setJob j { d.job j with t1Stale := true }, stOk, false⟩

def Dev.kindWrite (j kind n : Nat) (d : Dev) : WriteResult :=
  if d.capacity kind < d.quotaSum kind j + n || n < d.used j kind then refuse d stDenied
  else ⟨d.cset (Cat.MEM_QUOTA j kind) n, stOk, false⟩

def Dev.quotaWrite (j kind : Nat) (v : List Byte) (d : Dev) : WriteResult :=
  if kind = 0 then d.tier1Write j v else d.kindWrite j kind (leNat v)

theorem Dev.quotaWrite_long (j kind : Nat) (v : List Byte) (d : Dev) : (d.quotaWrite j kind v).long = false := by
  unfold Dev.quotaWrite
  split
  · unfold Dev.tier1Write
    split <;> rfl
  · unfold Dev.kindWrite
    split <;> rfl

section
variable {d : Dev} {j kind n : Nat} {v : List Byte}

theorem Dev.tier1Write_refuses (h : d.t1QuotaFits j (leNat v) = false) : d.tier1Write j v = refuse d stDenied :=
  if_pos (by rw [h]; rfl)

theorem Dev.tier1Write_sets (h : d.t1QuotaFits j (leNat v) = true) : d.tier1Write j v
    = ⟨(d.bset (Cat.MEM_QUOTA_T1 j) v).setJob j { d.job j with t1Stale := true }, stOk, false⟩ :=
  if_neg (by rw [h]; decide)

theorem Dev.kindWrite_refuses (h : d.capacity kind < d.quotaSum kind j + n ∨ n < d.used j kind) :
    d.kindWrite j kind n = refuse d stDenied :=
  if_pos (by simpa only [Bool.or_eq_true, decide_eq_true_eq] using h)

theorem Dev.kindWrite_sets (h : ¬ (d.capacity kind < d.quotaSum kind j + n ∨ n < d.used j kind)) :
    d.kindWrite j kind n = ⟨d.cset (Cat.MEM_QUOTA j kind) n, stOk, false⟩ :=
  if_neg (by simpa only [Bool.or_eq_true, decide_eq_true_eq] using h)

end

end Sys2Proof.Machine
end

section
/-! SUPPORT. What a scrub finds (R219, R220, R221, R226). -/

namespace Sys2Proof.Machine

/-- `e` is `d` but for counters, notes of corrected reads, and poison on the lines of `F`. -/
structure Dev.Found (d e : Dev) (F : Nat → Prop) : Prop where
  mem : e.mem = d.mem
  jobs : e.jobs = d.jobs
  integrity : e.integrityOn = d.integrityOn
  poison : ∀ l, e.isPoisoned l = true ↔ d.isPoisoned l = true ∨ F l

section
variable {d e f : Dev} {F G : Nat → Prop}

theorem Dev.Found.trans (h : d.Found e F) (h' : e.Found f G) : d.Found f fun l => F l ∨ G l :=
  ⟨h'.mem.trans h.mem, h'.jobs.trans h.jobs, h'.integrity.trans h.integrity,
    fun l => by rw [h'.poison, h.poison, or_assoc]⟩

theorem Dev.Found.congr (h : d.Found e F) (hFG : ∀ l, d.isPoisoned l = true ∨ F l ↔ d.isPoisoned l = true ∨ G l) : d.Found e G :=
  ⟨h.mem, h.jobs, h.integrity, fun l => (h.poison l).trans (hFG l)⟩

theorem Dev.isPoisoned_congr (h : e.poison = d.poison) (l : Nat) : e.isPoisoned l = d.isPoisoned l := by
  unfold Dev.isPoisoned
  rw [h]

/-- Nothing is found where memory, jobs, poison and the integrity tags are as they were. -/
theorem Dev.Found.nothing (hmem : e.mem = d.mem) (hjobs : e.jobs = d.jobs) (hpoison : e.poison = d.poison)
    (hint : e.cget Cat.MEM_INTEGRITY_EN = d.cget Cat.MEM_INTEGRITY_EN) : d.Found e fun _ => False :=
  ⟨hmem, hjobs, Dev.integrityOn_congr hint, fun l => by rw [Dev.isPoisoned_congr hpoison, or_false]⟩

end

theorem Dev.found_self (d : Dev) : d.Found d fun _ => False := .nothing rfl rfl rfl rfl

theorem Dev.found_bump (d : Dev) {key : Nat} (h : Cat.MEM_INTEGRITY_EN ≠ key) : d.Found (d.bump key) fun _ => False :=
  .nothing (by simp) (by simp) (by simp) (by rw [Dev.cget_bump, if_neg h]; rfl)

theorem Dev.found_alert (d : Dev) (b : Nat) : d.Found (d.alert b) fun _ => False :=
  .nothing (by rw [Dev.alert_rest]) (by rw [Dev.alert_rest]) (by rw [Dev.alert_rest]) (Dev.cget_alert d b (by decide))

theorem Dev.found_mem3 (d : Dev) (m : MemWatch) : d.Found { d with mem3 := m } fun _ => False := .nothing rfl rfl rfl rfl

theorem Dev.isPoisoned_setPoison (d : Dev) (k l : Nat) :
    (d.setPoison k).isPoisoned l = true ↔ d.isPoisoned l = true ∨ l = k := by
  unfold Dev.isPoisoned Dev.setPoison
  rw [Tbl.find?_set]
  split <;> simp [*]

theorem Dev.found_setPoison (d : Dev) (k : Nat) : d.Found (d.setPoison k) fun l => l = k :=
  ⟨rfl, rfl, rfl, d.isPoisoned_setPoison k⟩

/-! ### Folds -/

/-- Steps that each find the same things on devices with the same integrity tags find them together. -/
theorem Dev.Found.foldl {α : Type} {step : Dev → α → Dev} {F : Dev → α → Nat → Prop}
    (hF : ∀ (d e : Dev) (a : α), e.integrityOn = d.integrityOn → F e a = F d a)
    (hstep : ∀ (d : Dev) (a : α), d.Found (step d a) (F d a)) (as : List α) (d : Dev) :
    d.Found (as.foldl step d) fun l => ∃ a ∈ as, F d a l := by
  induction as generalizing d with
  | nil => exact d.found_self.congr fun l => by simp
  | cons a t ih =>
    have hrest := ih (step d a)
    simp only [hF _ _ _ (hstep d a).integrity] at hrest
    exact ((hstep d a).trans hrest).congr fun l => by simp

/-! ### One line -/

/-- The lines of the granule that a hit names, where its tags are kept. -/
def Dev.Granule (d : Dev) (h : ScrubHit) (l : Nat) : Prop :=
  h.tag = true ∧ d.integrityOn = true ∧ (∃ i, d.region (64 * h.line) = .tier3 i) ∧ l / 4 = h.line / 4

/-- The lines that a hit has poisoned. -/
def Dev.Finds (d : Dev) (h : ScrubHit) (l : Nat) : Prop :=
  (h.tag = false ∧ h.corrected = false ∧ h.line = l) ∨ d.Granule h l

theorem Dev.finds_congr (d e : Dev) (h : ScrubHit) (hi : e.integrityOn = d.integrityOn) : e.Finds h = d.Finds h := by
  unfold Dev.Finds Dev.Granule
  rw [hi, Dev.region_congr hi]

theorem Dev.found_poisonGranule (d : Dev) (line : Nat) :
    d.Found ((List.range 4).foldl (fun d m => d.setPoison (line / 4 * 4 + m)) d) fun l => l / 4 = line / 4 := by
  refine (Dev.Found.foldl (F := fun _ m l => l = line / 4 * 4 + m) (fun _ _ _ _ => rfl) (fun d m => d.found_setPoison _)
    (List.range 4) d).congr
    fun l => or_congr_right ⟨?_, fun hl => ⟨l % 4, ?_⟩⟩
  · rintro ⟨m, hm, rfl⟩
    have hlt := List.mem_range.mp hm
    omega
  · exact ⟨List.mem_range.mpr (by omega), by omega⟩

theorem Dev.found_tagFails (d : Dev) (line : Nat) : d.Found (d.tagFails line)
    fun l => d.integrityOn = true ∧ (∃ i, d.region (64 * line) = .tier3 i) ∧ l / 4 = line / 4 := by
  unfold Dev.tagFails
  split
  · next i hregion =>
    split
    · next hoff => exact d.found_self.congr fun l => by simp [show d.integrityOn = false by simpa using hoff]
    · next hon =>
      have hkey : Cat.MEM_INTEGRITY_EN ≠ Cat.MEM_INTEGRITY_FAIL i := by unfold Cat.MEM_INTEGRITY_EN Cat.MEM_INTEGRITY_FAIL; omega
      exact (((d.found_poisonGranule line).trans (Dev.found_bump _ hkey)).trans (Dev.found_alert _ 1)).congr fun l => by
        simp [show d.integrityOn = true by simpa using hon, hregion]
  · next hnone =>
    exact d.found_self.congr fun l => or_congr_right ⟨False.elim, fun ⟨_, ⟨i, hi⟩, _⟩ => hnone i hi⟩

theorem Dev.found_lineError (d : Dev) (die : Nat) (h : ScrubHit) : d.Found (d.lineError die h) (d.Finds h) := by
  unfold Dev.lineError
  split
  · next htag => exact (d.found_tagFails h.line).congr fun l => by simp [Dev.Finds, Dev.Granule, htag]
  · next htag =>
    have hlines : ∀ l, d.Finds h l ↔ h.corrected = false ∧ h.line = l := fun l => by simp [Dev.Finds, Dev.Granule, htag]
    split
    · next hpoison =>
      refine d.found_self.congr fun l => ⟨fun hl => .inl (hl.resolve_right id), fun hl => .inl (hl.elim id fun hf => ?_)⟩
      obtain ⟨-, rfl⟩ := (hlines l).mp hf
      exact hpoison
    · split
      · next hcorr =>
        have hkey : Cat.MEM_INTEGRITY_EN ≠ Cat.MEM_ECC_CORR die := by unfold Cat.MEM_INTEGRITY_EN Cat.MEM_ECC_CORR; omega
        exact ((d.found_bump hkey).trans (Dev.found_mem3 _ _)).congr fun l => by simp [hlines, hcorr]
      · next hcorr =>
        have hkey : Cat.MEM_INTEGRITY_EN ≠ Cat.MEM_ECC_UNCORR die := by unfold Cat.MEM_INTEGRITY_EN Cat.MEM_ECC_UNCORR; omega
        exact ((d.found_setPoison h.line).trans (Dev.found_bump _ hkey)).congr fun l => by simp [hlines, hcorr, @eq_comm _ l]

/-! ### A scrub -/

/-- The notes of corrected reads of the last hour. -/
def Dev.recentOnly (d : Dev) : MemWatch :=
  { d.mem3 with corrected := d.mem3.corrected.filter fun c => d.now < c.2 + 3600 * 8000000000 }

/-- A scrub poisons what its hits on the die's lines find, and nothing else. -/
theorem Dev.found_scrubHits (d : Dev) (die : Nat) (hits : List ScrubHit) : d.Found (d.scrubHits die hits)
    fun l => ∃ h, (h ∈ hits ∧ memDie (64 * h.line) = some die) ∧ d.Finds h l := by
  have hfold := Dev.Found.foldl Dev.finds_congr (fun d h => d.found_lineError die h)
    (hits.filter fun h => memDie (64 * h.line) = some die) d
  have hnotes := hfold.trans (Dev.found_mem3 _
    (Dev.recentOnly ((hits.filter fun h => memDie (64 * h.line) = some die).foldl (fun d h => d.lineError die h) d)))
  unfold Dev.scrubHits
  dsimp only
  split
  · exact (hnotes.trans (Dev.found_alert _ 0)).congr fun l => by simp
  · exact hnotes.congr fun l => by simp

end Sys2Proof.Machine
end

section
/-! SUPPORT. The patrol scrub (R221), and obligation O56: memory is allocated, freed, moved, retired and scrubbed. -/

namespace Sys2Proof.Machine

/-! ### The patrol scrub (R221) -/

/-- The patrol's pass over a die is complete. -/
def Dev.PatrolDue (d : Dev) (die : Nat) : Prop :=
  Tbl.getD d.mem3.patrolAt die 0 + d.cget Cat.MEM_SCRUB_PERIOD * 8000000000 ≤ d.now

theorem execPatrolScrubD_not {d : Dev} {at_ die : Nat} (hits : List ScrubHit) (h : 8 ≤ die ∨ (d.advance at_).released = false) :
    execPatrolScrubD at_ die hits d = d.advance at_ := if_pos (by simpa using h)

section
variable {d : Dev} {at_ die : Nat} (hits : List ScrubHit) (hdie : die < 8) (hrel : (d.advance at_).released = true)
include hdie hrel

theorem execPatrolScrubD_early (h : ¬ (d.advance at_).PatrolDue die) :
    execPatrolScrubD at_ die hits d = (d.advance at_).scrubHits die hits :=
  (if_neg (by simp [hrel, hdie])).trans (if_pos (not_le.mp h))

theorem execPatrolScrubD_due (h : (d.advance at_).PatrolDue die) : execPatrolScrubD at_ die hits d
    = { ((d.advance at_).scrubHits die hits).bump (Cat.MEM_SCRUB_PASSES die) with
        mem3 := { ((d.advance at_).scrubHits die hits).mem3 with
          patrolAt := Tbl.set (d.advance at_).mem3.patrolAt die (d.advance at_).now } } :=
  (if_neg (by simp [hrel, hdie])).trans (if_neg (not_lt.mpr h))

end

/-! ### The writes as the statement says them -/

/-- What a write of MEM_ALLOC does (R210, R211, R213). -/
theorem Dev.allocWrite_effect (d : Dev) (j : Nat) (rec : List Byte) :
    let x := d.job j
    let n := allocResult (leNat rec) 0 0
    let e := (d.allocWrite j rec).dev
    let st := (d.allocWrite j rec).status
    let denied (kind : Nat) : Prop :=
      st = stDenied ∧ e = (d.setJob j { x with allocRec := allocResult n 0x21 kind }).lastStatus j 0x21 kind
    (rec.length ≠ 32 → st = stBadType
        ∧ e = (d.setJob j { x with allocRec := allocResult (leNat (rec.take 32)) 0x30 0 }).lastStatus j 0x30 0)
      ∧ (rec.length = 32 → d.allocBad n = true → st = stBadType
          ∧ e = (d.setJob j { x with allocRec := setFld n 68 8 0x30 }).lastStatus j 0x30 0)
      ∧ (rec.length = 32 → d.allocBad n = false → d.allocVa j n = none → denied (aTier n + 1))
      ∧ (∀ va, rec.length = 32 → d.allocBad n = false → d.allocVa j n = some va →
          (∀ kind, d.overQuota j n va = some kind → denied kind)
            ∧ (d.overQuota j n va = none → d.allocPlaces n = none → denied (aTier n + 1))
            ∧ (∀ pas, d.overQuota j n va = none → d.allocPlaces n = some pas → st = stOk
                ∧ e.job j = { x with pages := x.pages ++ newPages n va pas, allocRec := setFld n 76 52 va }
                ∧ (∀ i, i ≠ j → e.job i = d.job i)
                ∧ (aTier n = 2 → e.mem = d.mem)
                ∧ (aTier n ≠ 2 → (∀ pa ∈ pas, ∀ i, i < aPage n → memByte e.mem (pa + i) = 0)
                  ∧ ∀ a, (∀ pa ∈ pas, ¬ (pa ≤ a ∧ a < pa + aPage n)) → memByte e.mem a = memByte d.mem a))) := by
  intro x n e st denied
  have hgood : rec.length = 32 → d.allocBad n = false → d.allocWrite j rec = d.allocChosen j n := fun hlen hbad =>
    (if_neg (not_not.mpr hlen)).trans (Dev.allocate_chosen (by rw [Bool.not_eq_true]; exact hbad))
  have hdenied : ∀ kind, d.allocWrite j rec = d.allocDenied j n kind → denied kind := fun kind h =>
    ⟨congrArg WriteResult.status h, congrArg WriteResult.dev h⟩
  refine ⟨fun hlen => ?_, fun hlen hbad => ?_, fun hlen hbad hva => ?_, fun va hlen hbad hva =>
    ⟨fun kind hq => ?_, fun hq hp => ?_, fun pas hq hp => ?_⟩⟩
  · have h : d.allocWrite j rec = d.allocRefused j (allocResult (leNat (rec.take 32)) 0x30 0) := if_pos hlen
    exact ⟨congrArg WriteResult.status h, congrArg WriteResult.dev h⟩
  · have h : d.allocWrite j rec = d.allocRefused j (setFld n 68 8 0x30) :=
      (if_neg (not_not.mpr hlen)).trans (Dev.allocate_bad hbad)
    exact ⟨congrArg WriteResult.status h, congrArg WriteResult.dev h⟩
  · exact hdenied _ ((hgood hlen hbad).trans (Dev.allocChosen_noAddress hva))
  · exact hdenied _ ((hgood hlen hbad).trans (Dev.allocChosen_beyond hva hq))
  · exact hdenied _ ((hgood hlen hbad).trans (Dev.allocChosen_noRoom hva hq hp))
  · have h := (hgood hlen hbad).trans (Dev.allocChosen_grants hva hq hp)
    have he : e = d.allocGranted j n va pas := congrArg WriteResult.dev h
    clear_value e
    subst he
    refine ⟨congrArg WriteResult.status h, d.allocGranted_job j n va pas, fun i hi => Dev.allocGranted_job_of hi,
      fun hhost => ?_, fun hown => ?_⟩
    · rw [Dev.allocGranted_mem, Dev.allocZeroed_mem_host pas hhost]
    · rw [Dev.allocGranted_mem, Dev.allocZeroed_mem pas hown]
      exact d.memByte_zeroPages pas (aPage n)

theorem Dev.integrityOn_bringIn (d : Dev) (j v : Nat) : (d.cset (Cat.MEM_BRING_IN j) v).integrityOn = d.integrityOn := by
  refine Dev.integrityOn_congr ?_
  rw [Dev.cget_cset, if_neg (by unfold Cat.MEM_INTEGRITY_EN Cat.MEM_BRING_IN; omega)]

theorem Dev.movable_bringIn (d : Dev) (j v : Nat) (x : Job) : (d.cset (Cat.MEM_BRING_IN j) v).movable x v = d.movable x v := by
  unfold Dev.movable
  rw [Dev.tierOf_congr (d.integrityOn_bringIn j v)]

/-- The page is read through the key that it had before. -/
theorem Dev.broughtIn_eq (d : Dev) (x : Job) (j : Nat) (p : Page) (pa : Nat) : d.broughtIn x j p pa
    = (((d.takeN 1).zeroPage pa p.size).copyFromHost (d.keyedFor j p.pa p) pa p.size).leafMoved x j p pa := by
  unfold Dev.broughtIn
  rw [Dev.keyedFor_congr (d := d) (e := (d.takeN 1).zeroPage pa p.size) rfl rfl rfl]

section
variable {d : Dev} {x : Job} {j v : Nat} {page? : Option Page} {p : Page}

theorem Dev.bringIn_none (h : page? = none) : d.bringIn x j v page? = refuse d stNoEntry := by
  subst h
  rfl

theorem Dev.bringIn_beyond (h : page? = some p) (hq : d.quota j 2 < d.used j 2 + p.size) :
    d.bringIn x j v page? = d.refuseQuota j 2 := by
  subst h
  exact if_pos hq

theorem Dev.bringIn_fits (h : page? = some p) (hq : d.used j 2 + p.size ≤ d.quota j 2) :
    d.bringIn x j v page? = d.bringInTo x j p (d.placePages 3 p.size (fld v 56 8) false 1) := by
  subst h
  exact if_neg (not_lt.mpr hq)

end

/-! ### The obligation -/

/-- The places of an allocation, tier by tier. -/
theorem Dev.placePages_spec {d : Dev} {tier k mask n : Nat} {spread : Bool} {pas : List Nat}
    (h : d.placePages tier (pageSize k) mask spread n = some pas) : pas.length = n
      ∧ (∀ pa ∈ pas, pa % pageSize k = 0 ∧ ∀ t ∈ d.taken, overlaps pa (pageSize k) t.1 t.2 = false)
      ∧ (∀ i j a b : Nat, i < j → pas[i]? = some a → pas[j]? = some b → overlaps a (pageSize k) b (pageSize k) = false)
      ∧ (tier = 2 → ∀ pa ∈ pas, ∃ die, die < 8 ∧ (mask = 0 ∨ bit mask die = true) ∧ t2Base + die * t2Span ≤ pa
          ∧ pa + pageSize k ≤ t2Base + (die + 1) * t2Span)
      ∧ (tier = 3 → ∀ pa ∈ pas, ∃ die, die < 8 ∧ (mask = 0 ∨ bit mask die = true) ∧ die * dieSpan ≤ pa
          ∧ pa + pageSize k ≤ die * dieSpan + d.t3Limit) := by
  obtain ⟨hlen, hok, hpair⟩ := Dev.placePages_placed h
  refine ⟨hlen, fun pa hpa => ?_, hpair, fun ht pa hpa => ?_, fun ht pa hpa => ?_⟩
  · obtain ⟨hmod, hapart, -⟩ := hok pa hpa
    exact ⟨hmod, hapart⟩
  · obtain ⟨-, -, die, hlt, hmask, hbase, hlimit⟩ := hok pa hpa
    rw [placeBase, if_pos ht] at hbase hlimit
    rw [if_pos ht] at hlimit
    exact ⟨die, hlt, hmask, hbase, by rwa [Nat.succ_mul, ← Nat.add_assoc]⟩
  · obtain ⟨-, -, die, hlt, hmask, hbase, hlimit⟩ := hok pa hpa
    have hne : tier ≠ 2 := by omega
    rw [placeBase, if_neg hne] at hbase hlimit
    rw [if_neg hne] at hlimit
    exact ⟨die, hlt, hmask, hbase, hlimit⟩

/-- Settles O56: each write's effect is taken by its branches; the places by the fold that makes them, of which each step keeps
what was placed apart; a scrub by what each of its steps adds to the poisoned lines. -/
theorem memoryIsAllocatedFreedAndScrubbed : Obligations.MemoryIsAllocatedFreedAndScrubbed := by
  refine ⟨fun j rec => ?_, Dev.allocVa_spec, Dev.overQuota_spec, Dev.allocPlaces_spec,
    fun d tier k mask spread n pas => Dev.placePages_spec, fun j v => ?_, fun j v => ?_, fun v => ?_, fun j kind v => ?_,
    fun s at_ die hits => ?_, fun d die hits => ?_⟩
  · exact WriteOp.of (fun _ => Dev.allocWrite j rec) (fun _ _ => rfl) (fun _ d => d.allocWrite_long j rec)
      fun _ d _ => d.allocWrite_effect j rec
  · refine WriteOp.of (fun _ => Dev.freeWrite j v) (fun _ _ => rfl) (fun _ d => d.freeWrite_long j v)
      fun _ d _ => ⟨fun hnone => ?_, fun hsome hregion => ?_, fun hsome hregion => ?_⟩
    · rw [Dev.freeWrite_none hnone]
      exact ⟨rfl, rfl⟩
    · rw [Dev.freeWrite_region hsome hregion]
      exact ⟨rfl, rfl⟩
    · rw [Dev.freeWrite_frees hsome hregion]
      exact ⟨rfl, rfl⟩
  · refine WriteOp.of (fun _ => Dev.bringInWrite j v) (exec_memBringIn · j v) (fun _ d => d.bringInWrite_long j v)
      fun _ d0 _ => ?_
    have hpage := d0.movable_bringIn j v (d0.job j)
    unfold Dev.bringInWrite
    refine ⟨fun hnone => ?_, fun p hsome hq => ?_, fun p hsome hq hplace => ?_, fun p pa hsome hq hplace => ?_⟩
    · rw [Dev.bringIn_none (hpage.trans hnone)]
      exact ⟨rfl, rfl⟩
    · rw [Dev.bringIn_beyond (hpage.trans hsome) hq]
      exact ⟨rfl, rfl⟩
    · rw [Dev.bringIn_fits (hpage.trans hsome) hq, hplace]
      exact ⟨rfl, rfl⟩
    · rw [Dev.bringIn_fits (hpage.trans hsome) hq, hplace]
      exact ⟨rfl, Dev.broughtIn_eq _ _ _ _ _⟩
  · refine WriteOp.of (fun _ => Dev.retireWrite v) (fun _ _ => rfl) (fun _ d => d.retireWrite_long v)
      fun _ d _ => ⟨fun hfull => ?_, fun hroom hv => ?_, fun hroom hv => ?_⟩
    · rw [Dev.retireWrite_full hfull]
      exact ⟨rfl, rfl⟩
    · rw [Dev.retireWrite_again hroom hv]
      exact ⟨rfl, rfl⟩
    · rw [Dev.retireWrite_retires hroom hv]
      refine ⟨rfl, ?_⟩
      intro a
      have ha : a = d.retired v := rfl
      clear_value a
      subst ha
      rw [Dev.retireChecked_eq]
  · refine WriteOp.of (fun _ => Dev.quotaWrite j kind v) (fun _ _ => rfl) (fun _ d => d.quotaWrite_long j kind v)
      fun _ d _ => ⟨fun hkind => ?_, fun hkind => ?_⟩
    · rw [Dev.quotaWrite, if_pos hkind]
      refine ⟨fun hno => ?_, fun hfits => ?_⟩
      · rw [Dev.tier1Write_refuses hno]
        exact ⟨rfl, rfl⟩
      · rw [Dev.tier1Write_sets hfits]
        exact ⟨rfl, rfl⟩
    · rw [Dev.quotaWrite, if_neg hkind]
      refine ⟨fun hno => ?_, fun hfits => ?_⟩
      · rw [Dev.kindWrite_refuses hno]
        exact ⟨rfl, rfl⟩
      · rw [Dev.kindWrite_sets hfits]
        exact ⟨rfl, rfl⟩
  · exact ⟨fun h => Acts.of_eq rfl (execPatrolScrubD_not hits h) rfl,
      fun hdie hrel h => Acts.of_eq rfl (execPatrolScrubD_early hits hdie hrel h) rfl,
      fun hdie hrel h => Acts.of_eq rfl (execPatrolScrubD_due hits hdie hrel h) rfl⟩
  · obtain ⟨hmem, hjobs, -, hpoison⟩ := d.found_scrubHits die hits
    exact ⟨hmem, hjobs, fun h hmine htag hcorr => (hpoison h.line).mpr (.inr ⟨h, hmine, .inl ⟨htag, hcorr, rfl⟩⟩),
      fun h l hmine hgranule => (hpoison l).mpr (.inr ⟨h, hmine, .inr hgranule⟩), fun l hl => (hpoison l).mpr (.inl hl),
      fun l hl => (hpoison l).mp hl⟩

end Sys2Proof.Machine
end

section
/-! SUPPORT. The mover of a unit as it reads after an update, what a waiting slip does when its condition is looked at again
(R241, R242, R244, R246), and obligation O23. -/

namespace Sys2Proof.Machine

/-! ### The mover after an update -/

@[simp] theorem Dev.mover_setMover (d : Dev) (u : Nat) (m : Mover) : ((d.setMover u m).unit u).mover = m := by
  simp [Dev.setMover]

@[simp] theorem Dev.mover_setCtx (d : Dev) (u x : Nat) (s : Slip) : ((d.setCtx u x s).unit u).mover
    = { (d.unit u).mover with ctx := Tbl.set (d.unit u).mover.ctx x s } :=
  d.mover_setMover u _

@[simp] theorem Dev.mover_bumpCount (d : Dev) (u k inc : Nat) : ((d.bumpCount u k inc).unit u).mover
    = { (d.unit u).mover with
        count := Tbl.set (d.unit u).mover.count k ((d.unit u).mover.countOf k + BitVec.ofNat 32 inc) } := by
  simp [Dev.bumpCount]

theorem Dev.ctx?_bumpCount (d : Dev) (u k inc x : Nat) : (d.bumpCount u k inc).ctx? u x = d.ctx? u x := by
  simp [Dev.ctx?]

theorem Dev.countOf_bumpCount (d : Dev) (u k inc : Nat) : ((d.bumpCount u k inc).unit u).mover.countOf k
    = (d.unit u).mover.countOf k + BitVec.ofNat 32 inc := by
  simp [Mover.countOf]

/-- Every declaration of the buffer has the state that it was given. -/
theorem Mover.st_of_mem_setBuf {m : Mover} {slip b : Nat} {st : BufState} {z : Decl} (hz : z ∈ (m.setBuf slip b st).decls)
    (hs : z.slip = slip) (hb : z.buf = b) : z.st = st := by
  obtain ⟨y, -, rfl⟩ := List.mem_map.mp hz
  split at hs
  · next hy => rw [if_pos hy]
  · next hy =>
    rw [if_neg hy] at hb
    exact absurd (by simp [hs, hb]) hy

/-! ### Each wait, where its condition holds -/

/-- The state of a buffer that a slip of command `k` has closed: a SLIP command's buffers are free again at once (R246). -/
def Dev.closedState (d : Dev) (k : Nat) : BufState :=
  match d.cmd? k with
  | some c => if c.cls = 0 then .full else .empty
  | none => .full

theorem Dev.closedState_of {d : Dev} {k : Nat} {c : Cmd} (h : d.cmd? k = some c) :
    d.closedState k = if c.cls = 0 then .full else .empty := by
  unfold Dev.closedState
  rw [h]

section
variable {d : Dev} {u x b inc : Nat} {s : Slip} {y : Decl} (hs : d.ctx? u x = some s)
include hs

theorem Dev.settleSlip_opening_notEmpty (hw : s.wait = .opening b) (hy : (d.unit u).mover.decl? s.id b = some y)
    (hst : y.st ≠ .empty) : d.settleSlip u x = d.checkPart u s.cmd := by
  unfold Dev.settleSlip
  simp only [hs, hw, hy]
  exact if_neg hst

theorem Dev.settleSlip_opening_empty (hw : s.wait = .opening b) (hy : (d.unit u).mover.decl? s.id b = some y)
    (hst : y.st = .empty) : d.settleSlip u x
      = (d.setMover u ((d.unit u).mover.setBuf s.id b .filling)).setCtx u x { s with wait := .none } := by
  unfold Dev.settleSlip
  simp only [hs, hw, hy]
  exact if_pos hst

theorem Dev.settleSlip_closing (hw : s.wait = .closing b) (hy : (d.unit u).mover.decl? s.id b = some y)
    (hland : s.writesInto y.start y.len = false) : d.settleSlip u x
      = ((d.setMover u ((d.unit u).mover.setBuf s.id b (d.closedState s.cmd))).setCtx u x
          { s with wait := .none }).bumpCount u s.cmd 1 := by
  unfold Dev.settleSlip Dev.closedState
  simp only [hs, hw, hy, hland, Bool.false_eq_true, if_false]
  cases d.cmd? s.cmd with
  | none => rfl
  | some c => by_cases hc : c.cls = 0 <;> simp [hc]

theorem Dev.settleSlip_signal (hw : s.wait = .signal inc)
    (hland : s.inflight.any (fun t => !t.toScratch || t.isFmt) = false) :
    d.settleSlip u x = (d.setCtx u x { s with wait := .none }).bumpCount u s.cmd inc := by
  unfold Dev.settleSlip
  simp only [hs, hw, hland]
  rfl

theorem Dev.settleSlip_ending (hw : s.wait = .ending) (hland : s.inflight = []) : d.settleSlip u x = d.endSlip u x s := by
  unfold Dev.settleSlip
  simp only [hs, hw, hland]
  rfl

end

/-! ### The obligation -/

/-- Settles O23: each clause is what the slip's wait does where its condition holds, read field by field. -/
theorem slipWaitsEndWhenTheirConditionHolds : Obligations.SlipWaitsEndWhenTheirConditionHolds := by
  refine ⟨fun d u x b s y hs hw hy => ⟨Dev.settleSlip_opening_notEmpty hs hw hy, fun hst => ?_⟩,
    fun d u x b s y hs hw hy hland => ?_, fun d u x inc s hs hw hland => ?_,
    fun d u x s hs hw hland => Dev.settleSlip_ending hs hw hland⟩
  · rw [Dev.settleSlip_opening_empty hs hw hy hst]
    refine ⟨Dev.ctx?_setCtx _ _ _ _, rfl, fun z hz hslip hbuf => ?_⟩
    rw [Dev.mover_setCtx, Dev.mover_setMover] at hz
    exact Mover.st_of_mem_setBuf hz hslip hbuf
  · rw [Dev.settleSlip_closing hs hw hy hland]
    refine ⟨?_, rfl, ?_, fun c hc z hz hslip hbuf => ?_⟩
    · rw [Dev.ctx?_bumpCount]
      exact Dev.ctx?_setCtx _ _ _ _
    · rw [Dev.countOf_bumpCount, Dev.mover_setCtx, Dev.mover_setMover]
      rfl
    · rw [Dev.mover_bumpCount, Dev.mover_setCtx, Dev.mover_setMover, Dev.closedState_of hc] at hz
      exact Mover.st_of_mem_setBuf hz hslip hbuf
  · rw [Dev.settleSlip_signal hs hw hland]
    refine ⟨?_, rfl, ?_⟩
    · rw [Dev.ctx?_bumpCount]
      exact Dev.ctx?_setCtx _ _ _ _
    · rw [Dev.countOf_bumpCount, Dev.mover_setCtx]
      rfl

end Sys2Proof.Machine
end

section
/-! SUPPORT. Slip instructions on registers, those that wait, WAITMK and its deadline (R240, R241, R244, R247), and
obligation O22. -/

namespace Sys2Proof.Machine

/-! ### The shapes of a slip instruction -/

section
variable {mk : Nat → Nat → Nat → SWord → Instr} {used : Nat} {bad : Dev → SCtx → List Nat}

/-- A slip instruction whose whole effect is one change of its slip. -/
theorem SlipOp.of_slip (f : SCtx → Slip)
    (he : ∀ at_ u x w s, exec (mk at_ u x w) s
      = lift (Dev.slipFetched (opcOf (mk at_ u x w)) at_ u x w
          (Dev.slipOp at_ u x w used bad fun t d => d.setCtx t.u t.x (f t))) s) :
    SlipOp mk used bad fun d d' t => d' = d.setCtx t.u t.x (f t) :=
  SlipOp.of (fun _ _ t d => d.setCtx t.u t.x (f t)) he fun _ _ _ _ _ _ _ => rfl

/-- One that waits: its condition is looked at at once. -/
theorem SlipOp.of_wait (f : SCtx → SlipWait)
    (he : ∀ at_ u x w s, exec (mk at_ u x w) s
      = lift (Dev.slipFetched (opcOf (mk at_ u x w)) at_ u x w (Dev.slipWaits at_ u x w used bad f)) s) :
    SlipOp mk used bad fun d d' t => d' = (d.setCtx t.u t.x { t.s with wait := f t }).settleSlip t.u t.x :=
  SlipOp.of (fun u x t d => (d.putSlip t { t.s with wait := f t }).settleSlip u x) he fun _ _ _ _ _ _ _ => rfl

end

/-! ### LOOP (R241) -/

/-- What LOOP does. -/
def loopRun (t : SCtx) (d : Dev) : Dev :=
  if t.cReg 55 = 0 then d
  else d.putSlip t { t.s with
    c := listSet t.s.c (sR t.n 55) (t.cReg 55 - 1),
    pc := if t.cReg 55 = 1 then t.s.pc else ((t.s.pc : Int) - 8 + 8 * t.imm).toNat }

theorem exec_loop (at_ u x : Nat) (w : SWord) (s : State) : exec (.loop at_ u x w) s
    = lift (Dev.slipFetched (opcOf (.loop at_ u x w)) at_ u x w (Dev.slipOp at_ u x w mSlipR noSlipBad loopRun)) s := rfl

theorem loopRun_zero {t : SCtx} (d : Dev) (h : t.cReg 55 = 0) : loopRun t d = d := if_pos h

/-- With its counter at 1 LOOP falls through. -/
theorem loopRun_one {t : SCtx} (d : Dev) (h : t.cReg 55 = 1) :
    loopRun t d = d.setCtx t.u t.x { t.s with c := listSet t.s.c (fld t.n 55 3) 0 } := by
  unfold loopRun
  rw [h]
  rfl

theorem loopRun_many {t : SCtx} (d : Dev) (h : 1 < (t.cReg 55).toNat) : loopRun t d
    = d.setCtx t.u t.x { t.s with
        c := listSet t.s.c (fld t.n 55 3) (t.cReg 55 - 1),
        pc := ((t.s.pc : Int) - 8 + 8 * toSigned 32 (fld t.n 0 32)).toNat } := by
  have hzero : t.cReg 55 ≠ 0 := fun h0 => by simp [h0] at h
  have hone : t.cReg 55 ≠ 1 := fun h1 => by simp [h1] at h
  unfold loopRun
  rw [if_neg hzero, if_neg hone]
  rfl

/-! ### WAITMK and its deadline (R247, R53) -/

/-- The mark meets the value that WAITMK names. -/
def Dev.markMet (d : Dev) (t : SCtx) : Bool := markMeets ((d.job t.cmd.job).mark (fld t.n 45 10)).value (t.cReg 55)

/-- What WAITMK does. -/
def waitmkRun (t : SCtx) (d : Dev) : Dev :=
  if d.markMet t then d
  else d.setCtx t.u t.x { t.s with
    wait := .mark (fld t.n 45 10) (t.cReg 55) (if fld t.n 0 16 = 0 then none else some (d.now + fld t.n 0 16 * 8192)) }

theorem exec_waitmk (at_ u x : Nat) (w : SWord) (s : State) : exec (.waitmk at_ u x w) s
    = lift (Dev.slipFetched (opcOf (.waitmk at_ u x w)) at_ u x w
        (Dev.slipOp at_ u x w (mk 55 3 + mk 45 10 + mk 0 16) noSlipBad waitmkRun)) s := rfl

theorem exec_waitmkTimeout (u x : Nat) (s : State) : exec (.waitmkTimeout u x) s = lift (execWaitmkTimeoutD u x) s := rfl

/-- The device as a deadline of WAITMK has passed: TT_SETTLE after it, and counted. -/
def Dev.markDeadline (d : Dev) (dl : Nat) : Dev := (d.advance (dl + d.cget Cat.TT_SETTLE)).bump Cat.STRM_MARK_TIMEOUT

/-- The command as a slip of it goes on past its deadline. -/
def Cmd.lateWait (c : Cmd) (m : Nat) (v : Word) (dl : Nat) : Cmd :=
  { c.raise 0x03 dl with lateWaits := (m, v, dl) :: c.lateWaits }

section
variable {d : Dev} {u x m dl : Nat} {v : Word} {s : Slip}

theorem execWaitmkTimeoutD_ends (hs : d.ctx? u x = some s) (hw : s.wait = .mark m v (some dl)) : execWaitmkTimeoutD u x d
    = ((d.markDeadline dl).updCmd s.cmd fun c => c.lateWait m v dl).setCtx u x { s with wait := .none } := by
  unfold execWaitmkTimeoutD
  simp only [hs, hw]
  rfl

theorem Dev.markDeadline_now (d : Dev) (dl : Nat) : (d.markDeadline dl).now = max d.now (dl + d.cget Cat.TT_SETTLE) := by
  unfold Dev.markDeadline
  rw [Dev.bump_now, Dev.advance_now]

theorem Dev.markDeadline_mem (d : Dev) (dl : Nat) : (d.markDeadline dl).mem = d.mem := by
  unfold Dev.markDeadline
  rw [Dev.bump_mem, Dev.advance_mem]

theorem Dev.cmd?_markDeadline (d : Dev) (dl k : Nat) : (d.markDeadline dl).cmd? k = d.cmd? k := by
  unfold Dev.cmd? Dev.markDeadline
  rw [Dev.bump_cmds, Dev.advance_cmds]

/-- A slip goes on past its deadline, and its command notes it. -/
theorem waitmkTimeout_acts {s : State} {sl : Slip} (hs : s.dev.ctx? u x = some sl) (hw : sl.wait = .mark m v (some dl)) :
    Acts (.waitmkTimeout u x) s fun d => d.ctx? u x = some { sl with wait := .none }
      ∧ d.now = max s.dev.now (dl + s.dev.cget Cat.TT_SETTLE) ∧ d.mem = s.dev.mem
      ∧ ∀ c, s.dev.cmd? sl.cmd = some c → d.cmd? sl.cmd = some (c.lateWait m v dl) := by
  have hnotes := (s.dev.markDeadline dl).notesOf_updCmd sl.cmd fun c => c.lateWait m v dl
  have hnow : ((s.dev.markDeadline dl).updCmd sl.cmd fun c => c.lateWait m v dl).now = (s.dev.markDeadline dl).now := by
    rw [hnotes]
  refine Acts.of_eq (exec_waitmkTimeout u x s) (execWaitmkTimeoutD_ends hs hw) ⟨Dev.ctx?_setCtx _ _ _ _,
    hnow.trans (s.dev.markDeadline_now dl), hnotes.mem.trans (s.dev.markDeadline_mem dl), fun c hc => ?_⟩
  rw [Dev.updCmd_some ((s.dev.cmd?_markDeadline dl sl.cmd).trans hc)]
  exact Dev.setCmd_cmd _ _ _

end

/-! ### The obligation -/

theorem exec_sig (at_ u x : Nat) (w : SWord) (s : State) : exec (.sig at_ u x w) s
    = lift (Dev.slipFetched (opcOf (.sig at_ u x w)) at_ u x w
        (Dev.slipWaits at_ u x w (mk 0 8) (fun _ t => if fld t.n 0 8 = 0 then [0] else [])
          fun t => .signal (fld t.n 0 8))) s := by
  simp only [← ifBad_decide]
  rfl

/-- Settles O22: an instruction on registers changes its slip alone, one that waits sets its wait and looks at it, LOOP and
WAITMK are the branches of their conditions. -/
theorem slipInstructions : Obligations.SlipInstructions := by
  refine ⟨SlipOp.of_slip _ fun _ _ _ _ _ => rfl, SlipOp.of_slip _ fun _ _ _ _ _ => rfl,
    SlipOp.of_slip _ fun _ _ _ _ _ => rfl, SlipOp.of_slip _ fun _ _ _ _ _ => rfl,
    SlipOp.of (fun _ _ => loopRun) exec_loop fun d sl u x c w _ => ⟨loopRun_zero _, loopRun_one _, loopRun_many _⟩,
    SlipOp.of_wait _ fun _ _ _ _ _ => rfl, SlipOp.of_wait _ fun _ _ _ _ _ => rfl, SlipOp.of_wait _ exec_sig,
    SlipOp.of_wait _ fun _ _ _ _ _ => rfl,
    SlipOp.of (fun _ _ => waitmkRun) exec_waitmk fun d sl u x c w _ => ⟨fun hmet => if_pos hmet, fun hnot => ?_⟩,
    fun s u x sl m v dl => waitmkTimeout_acts⟩
  exact if_neg (Bool.eq_false_iff.mp hnot)

end Sys2Proof.Machine
end

section
/-! SUPPORT. SWEEP: its checks, the vote that may skip it, its clip factors, one element's step (R278 to R292), and obligation
O37. -/

namespace Sys2Proof.Machine

/-! ### The checks of a SWEEP's block -/

/-- The entries that a SWEEP's block lists. -/
def sweepEntries (n : Nat) : List Nat := blockEntries n 64 64 (swEntries n)

/-- Something in the block is malformed (R278 to R280). -/
def Dev.sweepBad (d : Dev) (j n : Nat) : Bool :=
  !swHeadOk n || !(sweepEntries n).all (swEntryOk (d.cget (Cat.UPD_NORM_COUNT j)) n) || !statesApart n (sweepEntries n)
    || (swClipMode n ≠ 0 && d.cget (Cat.UPD_VOTE_VA j) = 0)

theorem Dev.sweepBad_iff (d : Dev) (j n : Nat) : d.sweepBad j n = true ↔ ¬ (swHeadOk n = true
    ∧ (sweepEntries n).all (swEntryOk (d.cget (Cat.UPD_NORM_COUNT j)) n) = true
    ∧ statesApart n (sweepEntries n) = true ∧ (swClipMode n = 0 ∨ d.cget (Cat.UPD_VOTE_VA j) ≠ 0)) := by
  unfold Dev.sweepBad
  simp only [Bool.or_eq_true, Bool.not_eq_true', Bool.and_eq_true, decide_eq_true_eq, not_and_or, not_or, not_not,
    Bool.not_eq_true, or_assoc, ne_eq]

/-- An update program is asked for that the job may not run, or that needs a die that its grant does not give (R290). -/
def Dev.programMissing (d : Dev) (j n : Nat) : Bool :=
  swTemplate n = 15 && (d.cget (Cat.UPD_PROGRAM_EN j) = 0 || !d.programDies j (sweepEntries n))

theorem Dev.programMissing_iff (d : Dev) (j n : Nat) : d.programMissing j n = true ↔ ¬ (swTemplate n = 15 →
    d.cget (Cat.UPD_PROGRAM_EN j) ≠ 0 ∧ d.programDies j (sweepEntries n) = true) := by
  unfold Dev.programMissing
  simp only [Bool.or_eq_true, Bool.not_eq_true', Bool.and_eq_true, decide_eq_true_eq, Classical.not_imp, not_and_or, not_not,
    Bool.not_eq_true, ne_eq]

/-- The directory of entry `e`, where it has one, is one that the device may not use or does not name its working copy. -/
def Dev.dirBad (d : Dev) (j e : Nat) : Bool :=
  enDir e ≠ 0 && (!dirOk (d.jnat j (enDir e) 64) || dirCurVa (d.jnat j (enDir e) 64) ≠ enWork e)

theorem Dev.any_dirBad_iff (d : Dev) (j : Nat) (es : List Nat) : es.any (d.dirBad j) = true ↔ ¬ ∀ x ∈ es, enDir x ≠ 0 →
    dirOk (d.jnat j (enDir x) 64) = true ∧ dirCurVa (d.jnat j (enDir x) 64) = enWork x := by
  rw [List.any_eq_true]
  push Not
  refine exists_congr fun x => and_congr_right fun _ => ?_
  unfold Dev.dirBad
  cases dirOk (d.jnat j (enDir x) 64) <;> simp

/-! ### What a SWEEP does whose checks hold -/

/-- A SWEEP whose clip factors are to be found: what it counts on the way, and its sweep (R288, R290, R292). -/
def Dev.sweepClipped (d : Dev) (k j n vote : Nat) : Dev :=
  let es := sweepEntries n
  let idx := (es.map enNorm).dedup
  let p := if vote ≠ 0 && !swDerive n && idx.any (fun i => fld (d.normRec j i) 224 32 = swStep n && bit (d.normRec j i) 0)
    then d.bump (Cat.UPD_ABSENT_NONFINITE j) else d
  let found := idx.map fun i => (i, p.clipFor j n i)
  let clips : Tbl Nat := found.foldl (fun t ic => Tbl.set t ic.1 ic.2.v.toNat) []
  let q := p.countCalcs (64 + (p.entryDie j ((es[0]?).getD 0)).1) (found.map (·.2))
  let w := if !swDerive n && clips.any (fun kv => (decodeF 0 kv.2).lt (f32 f32One)) then q.bump (Cat.UPD_CLIPPED_STEPS j) else q
  if swTemplate n = 15 && !swDerive n then w.startRun k j (w.cget (Cat.UPD_APPLIED j)) clips es
  else (w.sweepAll k j n (w.cget (Cat.UPD_APPLIED j)) (fun i => BitVec.ofNat 32 (Tbl.getD clips i f32One.toNat)) es).workDone k

/-- A SWEEP under the vote record at `vote`, if there is one: refused, skipped, or swept (R282). -/
def Dev.sweepVoted (d : Dev) (k j n vote : Nat) : Dev :=
  if vote ≠ 0 && !swDerive n && fld (d.jnat j vote 64) 480 32 ≠ swStep n then
    (d.bump (Cat.UPD_VOTE_MISMATCH j)).workRefused k 0x31 0
  else if vote ≠ 0 && !swDerive n && bit (d.jnat j vote 64) 479 then
    (((d.bump (Cat.UPD_STEP_SKIPPED j)).earlyMark j n).updCmd k fun c => { c with exec := false }).workDone k
  else d.sweepClipped k j n vote

/-- A SWEEP whose block is well formed, on the device that has counted its step. -/
def Dev.sweepMapped (d : Dev) (k j n vote : Nat) : Dev :=
  match d.sweepFault j n (sweepEntries n) with
  | some va => (d.cmdFault k j va).workDone k
  | none => if (sweepEntries n).any (d.dirBad j) then d.workRefused k 0x30 0 else d.sweepVoted k j n vote

/-- What SWEEP does with an argument block that it can read. -/
def sweepRun (k : Nat) (c : Cmd) (n : Nat) (d : Dev) : Dev :=
  if c.argsLen ≠ 64 + 64 * swEntries n then d.workRefused k 0x30 376
  else if d.sweepBad c.job n then d.workRefused k 0x30 0
  else if d.programMissing c.job n then d.workRefused k 0x31 0
  else (d.applyStep c.job n).sweepMapped k c.job n (d.cget (Cat.UPD_VOTE_VA c.job))

theorem exec_sweep (at_ k : Nat) (s : State) :
    exec (.sweep at_ k) s = lift (Dev.dispatch 3 0
      (fun k c d => (d.atUnit k 0x90).withArgs k c True (sweepRun k c)) at_ k) s := rfl

section
variable {d : Dev} {k j n vote : Nat}

theorem Dev.sweepMapped_faults {va : Nat} (hf : d.sweepFault j n (sweepEntries n) = some va) :
    d.sweepMapped k j n vote = (d.cmdFault k j va).workDone k := by
  unfold Dev.sweepMapped
  rw [hf]

theorem Dev.sweepMapped_badDir (hf : d.sweepFault j n (sweepEntries n) = none)
    (hdir : (sweepEntries n).any (d.dirBad j) = true) : d.sweepMapped k j n vote = d.workRefused k 0x30 0 := by
  unfold Dev.sweepMapped
  rw [hf, hdir]
  rfl

theorem Dev.sweepMapped_clear (hf : d.sweepFault j n (sweepEntries n) = none)
    (hdir : (sweepEntries n).any (d.dirBad j) = false) : d.sweepMapped k j n vote = d.sweepVoted k j n vote := by
  unfold Dev.sweepMapped
  rw [hf, hdir]
  rfl

theorem Dev.sweepVoted_otherStep (hv : vote ≠ 0) (hd : swDerive n = false) (h : fld (d.jnat j vote 64) 480 32 ≠ swStep n) :
    d.sweepVoted k j n vote = (d.bump (Cat.UPD_VOTE_MISMATCH j)).workRefused k 0x31 0 := by
  unfold Dev.sweepVoted
  rw [if_pos (by simp [hv, hd, h])]

theorem Dev.sweepVoted_skipped (hv : vote ≠ 0) (hd : swDerive n = false) (h : fld (d.jnat j vote 64) 480 32 = swStep n)
    (hs : bit (d.jnat j vote 64) 479 = true) : d.sweepVoted k j n vote =
      (((d.bump (Cat.UPD_STEP_SKIPPED j)).earlyMark j n).updCmd k fun c => { c with exec := false }).workDone k := by
  unfold Dev.sweepVoted
  rw [if_neg (by simp [h]), if_pos (by simp [hv, hd, hs])]

theorem Dev.sweepVoted_sweeps (h : vote ≠ 0 ∧ swDerive n = false →
      fld (d.jnat j vote 64) 480 32 = swStep n ∧ bit (d.jnat j vote 64) 479 = false) :
    d.sweepVoted k j n vote = d.sweepClipped k j n vote := by
  unfold Dev.sweepVoted
  by_cases hv : vote ≠ 0 ∧ swDerive n = false
  · obtain ⟨hstep, hskip⟩ := h hv
    rw [if_neg (by simp [hstep]), if_neg (by simp [hskip])]
  · have hnone : (decide (vote ≠ 0) && !swDerive n) = false := by simpa using hv
    rw [hnone]
    rfl

/-- Where it sweeps, its factors are those of the entries' norm indices, each once. -/
theorem Dev.sweepClipped_eq : d.sweepClipped k j n vote =
    let idx := ((sweepEntries n).map enNorm).dedup
    let p := if vote ≠ 0 ∧ swDerive n = false
        ∧ (idx.any fun i => fld (d.normRec j i) 224 32 = swStep n && bit (d.normRec j i) 0) = true
      then d.bump (Cat.UPD_ABSENT_NONFINITE j) else d
    let clips : Tbl Nat := idx.foldl (fun t i => Tbl.set t i (p.clipFor j n i).v.toNat) []
    let q := p.countCalcs (64 + (p.entryDie j (((sweepEntries n)[0]?).getD 0)).1) (idx.map (p.clipFor j n))
    let w := if swDerive n = false ∧ (clips.any fun kv => (decodeF 0 kv.2).lt (f32 f32One)) = true
      then q.bump (Cat.UPD_CLIPPED_STEPS j) else q
    if swTemplate n = 15 ∧ swDerive n = false then w.startRun k j (w.cget (Cat.UPD_APPLIED j)) clips (sweepEntries n)
    else (w.sweepAll k j n (w.cget (Cat.UPD_APPLIED j))
      (fun i => BitVec.ofNat 32 (Tbl.getD clips i f32One.toNat)) (sweepEntries n)).workDone k := by
  unfold Dev.sweepClipped
  simp only [List.foldl_map, List.map_map, Function.comp_def, Bool.and_eq_true, Bool.not_eq_true', decide_eq_true_eq, and_assoc]

end

section
variable {d : Dev} {k : Nat} {c : Cmd} {n : Nat} (hlen : c.argsLen = 64 + 64 * swEntries n)
include hlen

theorem sweepRun_malformed (h : d.sweepBad c.job n = true) : sweepRun k c n d = d.workRefused k 0x30 0 := by
  unfold sweepRun
  rw [if_neg (not_not.mpr hlen), if_pos h]

theorem sweepRun_noProgram (h : d.sweepBad c.job n = false) (hp : d.programMissing c.job n = true) :
    sweepRun k c n d = d.workRefused k 0x31 0 := by
  unfold sweepRun
  rw [if_neg (not_not.mpr hlen), if_neg (Bool.eq_false_iff.mp h), if_pos hp]

theorem sweepRun_wellFormed (h : d.sweepBad c.job n = false) (hp : d.programMissing c.job n = false) :
    sweepRun k c n d = (d.applyStep c.job n).sweepMapped k c.job n (d.cget (Cat.UPD_VOTE_VA c.job)) := by
  unfold sweepRun
  rw [if_neg (not_not.mpr hlen), if_neg (Bool.eq_false_iff.mp h), if_neg (Bool.eq_false_iff.mp hp)]

end

/-! ### The obligation -/

/-- Settles O37: a SWEEP's checks come in order, then the vote's; what is left finds the clip factors and sweeps. One element's
step is read off its template (R286). -/
theorem sweepsAndTheirVote : Obligations.SweepsAndTheirVote := by
  refine ⟨ArgsOp.of sweepRun exec_sweep fun d0 k c n => ?_, fun s w g m r rf cf => ?_⟩
  · intro j es vote ok given votes d rec_ agree clear
    have hgood (ho : ok) : d0.sweepBad j n = false := Bool.eq_false_iff.mpr fun hb => (d0.sweepBad_iff j n).mp hb ho
    have hprog (hg : given) : d0.programMissing j n = false :=
      Bool.eq_false_iff.mpr fun hb => (d0.programMissing_iff j n).mp hb hg
    have hdirs (ha : agree) : (sweepEntries n).any (d.dirBad j) = false :=
      Bool.eq_false_iff.mpr fun hb => (d.any_dirBad_iff j es).mp hb ha
    have hmapped (hl : c.argsLen = 64 + 64 * swEntries n) (ho : ok) (hg : given) :
        sweepRun k c n d0 = d.sweepMapped k j n vote := sweepRun_wellFormed hl (hgood ho) (hprog hg)
    have hvoted (h : clear) : sweepRun k c n d0 = d.sweepVoted k j n vote := by
      obtain ⟨hl, ho, hg, hf, ha⟩ := h
      exact (hmapped hl ho hg).trans (Dev.sweepMapped_clear hf (hdirs ha))
    refine ⟨fun hl => if_pos hl, fun hl ho => sweepRun_malformed hl ((d0.sweepBad_iff j n).mpr ho),
      fun hl ho hg => sweepRun_noProgram hl (hgood ho) ((d0.programMissing_iff j n).mpr hg),
      fun va hl ho hg hf => (hmapped hl ho hg).trans (Dev.sweepMapped_faults hf),
      fun hl ho hg hf ha => (hmapped hl ho hg).trans (Dev.sweepMapped_badDir hf ((d.any_dirBad_iff j es).mpr ha)),
      fun h hv hs => (hvoted h).trans (Dev.sweepVoted_otherStep hv.1 hv.2 hs),
      fun h hv hs hb => (hvoted h).trans (Dev.sweepVoted_skipped hv.1 hv.2 hs hb), fun h hv => ?_⟩
    rw [hvoted h, Dev.sweepVoted_sweeps hv, Dev.sweepClipped_eq]
    exact ⟨fun ht hd => if_pos ⟨ht, hd⟩, fun ht => if_neg fun hp => ht.elim (· hp.1) (by simp [hp.2])⟩
  · intro lr b1 b2 mul add mix x
    have hx : x = s.step w g m r rf cf := rfl
    refine ⟨fun h => ?_, fun h => ?_, fun h => ?_, fun h => ?_⟩ <;> rw [hx] <;> unfold SwEntry.step <;> simp only [h]
    · exact ⟨rfl, rfl, rfl⟩
    · exact ⟨rfl, fun ht => by rw [if_pos ht]; rfl, fun ht => by rw [if_neg ht]; rfl⟩
    · exact ⟨rfl, rfl⟩
    · exact ⟨rfl, rfl⟩

end Sys2Proof.Machine
end

section
/-! SUPPORT. GATHER, EXPORT and IMPORT: the checks of their blocks, the version that a local GATHER is served, the record that
an EXPORT writes and the checks that an IMPORT makes of one (R299 to R309), and obligation O38. -/

namespace Sys2Proof.Machine

/-! ### GATHER (R299 to R301) -/

/-- A GATHER's block sets a reserved field, or names a destination that is no line or a directory that it has no use for. -/
def gatherBad (n : Nat) : Bool := fld n 0 224 ≠ 0 || gaDst n % 64 ≠ 0 || (!gaLocal n && gaDir n ≠ 0)

theorem gatherBad_iff (n : Nat) : gatherBad n = true ↔
    ¬ (fld n 0 224 = 0 ∧ fld n 460 52 % 64 = 0 ∧ (bit n 356 = true ∨ fld n 408 52 = 0)) := by
  unfold gatherBad gaDst gaLocal gaDir
  cases bit n 356 <;> simp [Classical.or_iff_not_imp_left]

/-- A local GATHER whose directory `dir` is mapped (R300). -/
def Dev.gatherDir (d : Dev) (k j n dir : Nat) : Dev :=
  if !dirOk dir then d.workRefused k 0x30 0
  else if dirBytes dir ≠ gaBytes n then d.workEnds k 0x31 0
  else
    let d := if d.versionLate dir (gaWant n) d.stamp then d.bump Cat.TIE_LATE_STAMP else d
    d.gatherLocal k j n d.stamp

/-- What GATHER does with an argument block that it can read. -/
def gatherRun (k : Nat) (c : Cmd) (n : Nat) (d : Dev) : Dev :=
  if gatherBad n then d.workRefused k 0x30 0
  else if gaLocal n then
    match d.firstFault c.job (gaDir n) 64 false with
    | some va => (d.cmdFault k c.job va).workDone k
    | none => d.gatherDir k c.job n (d.jnat c.job (gaDir n) 64)
  else
    match (d.firstFault c.job (gaDst n) (gaBytes n) true).orElse fun _ => d.firstFault c.job (gaStampVa n) 16 true with
    | some va => (d.cmdFault k c.job va).workDone k
    | none => (d.gatherRemote k c.job n).checkSent k

theorem exec_gather (at_ k : Nat) (s : State) :
    exec (.gather at_ k) s = lift (Dev.dispatch 3 1
      (fun k c d => (d.atUnit k 0x90).withArgs k c (c.argsLen = 64) (gatherRun k c)) at_ k) s := rfl

section
variable {d : Dev} {k j n dir : Nat}

theorem Dev.gatherDir_unusable (hd : dirOk dir = false) : d.gatherDir k j n dir = d.workRefused k 0x30 0 := by
  unfold Dev.gatherDir
  rw [hd]
  rfl

theorem Dev.gatherDir_otherSize (hd : dirOk dir = true) (hb : dirBytes dir ≠ fld n 224 48) :
    d.gatherDir k j n dir = d.workEnds k 0x31 0 := by
  unfold Dev.gatherDir
  rw [hd]
  exact if_pos hb

/-- The count of a request that comes too late takes no time. -/
theorem Dev.gatherDir_fits (hd : dirOk dir = true) (hb : dirBytes dir = fld n 224 48) : d.gatherDir k j n dir =
    (if d.versionLate dir (fld n 324 32) d.stamp = true then d.bump Cat.TIE_LATE_STAMP else d).gatherLocal k j n d.stamp := by
  unfold Dev.gatherDir gaWant
  rw [hd]
  refine (if_neg (not_not.mpr hb)).trans ?_
  split
  · rw [(d.tracedOf_bump _).stamp]
  · rfl

end

section
variable {d : Dev} {k n : Nat} {c : Cmd} (hb : gatherBad n = false)
include hb

theorem gatherRun_local (hl : bit n 356 = true) (hf : d.firstFault c.job (fld n 408 52) 64 false = none) :
    gatherRun k c n d = d.gatherDir k c.job n (d.jnat c.job (fld n 408 52) 64) := by
  unfold gatherRun gaLocal gaDir
  rw [hb, hl, hf]
  rfl

theorem gatherRun_local_faults {va : Nat} (hl : bit n 356 = true)
    (hf : d.firstFault c.job (fld n 408 52) 64 false = some va) :
    gatherRun k c n d = (d.cmdFault k c.job va).workDone k := by
  unfold gatherRun gaLocal gaDir
  rw [hb, hl, hf]
  rfl

theorem gatherRun_remote (hl : bit n 356 = false) (hd : d.firstFault c.job (fld n 460 52) (fld n 224 48) true = none)
    (hs : d.firstFault c.job (fld n 272 52) 16 true = none) :
    gatherRun k c n d = (d.gatherRemote k c.job n).checkSent k := by
  unfold gatherRun gaLocal gaDst gaBytes gaStampVa
  rw [hb, hl, hd, hs]
  rfl

theorem gatherRun_remote_faults {va : Nat} (hl : bit n 356 = false)
    (hf : d.firstFault c.job (fld n 460 52) (fld n 224 48) true = some va
      ∨ (d.firstFault c.job (fld n 460 52) (fld n 224 48) true = none ∧ d.firstFault c.job (fld n 272 52) 16 true = some va)) :
    gatherRun k c n d = (d.cmdFault k c.job va).workDone k := by
  unfold gatherRun gaLocal gaDst gaBytes gaStampVa
  rw [hb, hl]
  rcases hf with h | ⟨h, hs⟩
  · rw [h]; rfl
  · rw [h, hs]; rfl

end

/-- The close of the directory's retained version, if its instant is known, is not before `s`. -/
def Dev.closesFrom (d : Dev) (dir s : Nat) : Bool :=
  match d.dirClose dir with
  | some x => s ≤ x
  | none => true

theorem Dev.closesFrom_iff {d : Dev} {dir s : Nat} : d.closesFrom dir s = true ↔ ∀ x, d.dirClose dir = some x → s ≤ x := by
  unfold Dev.closesFrom
  cases d.dirClose dir <;> simp

/-- A request stamped `s` for step `want` is served the retained version (R300). -/
def Dev.servesKept (d : Dev) (dir want s : Nat) : Bool :=
  dirPrevValid dir && want = dirPrevStep dir && d.closesFrom dir s && !d.versionLate dir want s

theorem Dev.servesKept_iff {d : Dev} {dir want s : Nat} : d.servesKept dir want s = true ↔ dirPrevValid dir = true
    ∧ want = dirPrevStep dir ∧ d.versionLate dir want s = false ∧ ∀ x, d.dirClose dir = some x → s ≤ x := by
  simp only [Dev.servesKept, Bool.and_eq_true, decide_eq_true_eq, Bool.not_eq_true', Dev.closesFrom_iff, and_assoc]
  rw [and_comm (b := d.versionLate dir want s = false)]

theorem Dev.chooseVersion_eq (d : Dev) (dir want s : Nat) : d.chooseVersion dir want s =
    if d.servesKept dir want s then some { va := dirPrevVa dir, step := dirPrevStep dir, stamp := dirPrevStamp dir }
    else if dirUpdating dir then none
    else some { va := dirCurVa dir, step := dirCurStep dir, stamp := dirCurStamp dir } := rfl

/-- A local GATHER that is served version `v` waits no more. -/
def Dev.gatherServed (d : Dev) (k j n : Nat) (v : Version) : Dev :=
  { d.serveLocal k j n v with gathers := d.gathers.filter fun g => g.1 ≠ k }

section
variable {d : Dev} {k j n s : Nat}

theorem Dev.gatherLocal_serves {v : Version} (h : d.chooseVersion (d.jnat j (gaDir n) 64) (gaWant n) s = some v) :
    d.gatherLocal k j n s = d.gatherServed k j n v := by
  unfold Dev.gatherLocal
  simp only [h]
  rfl

theorem Dev.gatherLocal_waits (h : d.chooseVersion (d.jnat j (gaDir n) 64) (gaWant n) s = none)
    (hnew : ∀ g ∈ d.gathers, g.1 ≠ k) : d.gatherLocal k j n s = { d with gathers := d.gathers ++ [(k, s)] } := by
  unfold Dev.gatherLocal
  simp only [h]
  rw [if_neg fun hany => ?_]
  obtain ⟨g, hg, hk⟩ := List.any_eq_true.mp hany
  exact hnew g hg (of_decide_eq_true hk)

theorem Dev.serveLocal_mapped {v : Version} (hsrc : d.firstFault j v.va (fld n 224 48) false = none)
    (hdst : d.firstFault j (fld n 460 52) (fld n 224 48) true = none)
    (hst : d.firstFault j (fld n 272 52) 16 true = none) : d.serveLocal k j n v =
      let p := d.cmdPoison k (d.jbad j v.va (fld n 224 48))
      let w := (p.jwr j (fld n 460 52) (p.jrd j v.va (fld n 224 48))).jwr j (fld n 272 52)
        (leBytes 16 (v.step % 2 ^ 32 * 2 ^ 64 + v.stamp))
      if v.step = fld n 324 32 then w.workDone k else (w.bump (Cat.UPD_VERSION_SKEW j)).workEnds k 0x05 v.step := by
  unfold Dev.serveLocal gaBytes gaDst gaStampVa
  simp only [hsrc, hdst, hst]
  rfl

end

/-! ### EXPORT (R304, R305) -/

/-- The first address that faults of the rows that an EXPORT reads, then of the record that it writes. -/
def Dev.exportFault (d : Dev) (j n : Nat) : Option Nat :=
  ((xpRows n).findSome? fun r => d.firstFault j r.1 r.2 false).orElse
    fun _ => d.firstFault j (xpRecord n) (rcBytes (xpRowCount n * xpRowBytes n) (xpSign n)) true

/-- The record is written, and counted for the key slot and the job (R305, R420). -/
def Dev.writeRecord (d : Dev) (k j n : Nat) : Dev :=
  let ks := d.jobKey j
  let p := d.cmdPoison k (((xpRows n).map fun r => d.jbad j r.1 r.2).flatten)
  let h := recordHeader n (p.job j).tenant (p.cget (Cat.UPD_APPLIED j)) d.stamp (xpRowCount n * xpRowBytes n) ks.gen (d.expIv ks)
    (if xpSign n then (p.attest []).length else 0)
  let w := p.jwr j (xpRecord n) (recordBytes h ks.expKey (d.expIv ks)
    (((xpRows n).map fun r => d.jrd j r.1 r.2).flatten) (if xpSign n then some p.attest else none))
  let slot := (w.job j).keySlot
  let keys := Tbl.mapVals (fun i x => if i = slot then { x with exported := x.exported + 1 } else x) w.keys
  (({ w with keys := keys } : Dev).bump (Cat.EXP_RECORDS j)).workDone k

/-- What EXPORT does with an argument block that it can read. -/
def exportRun (k : Nat) (c : Cmd) (n : Nat) (d : Dev) : Dev :=
  if !xpOk false n then d.workRefused k 0x30 0
  else
    match d.exportFault c.job n with
    | some va => (d.cmdFault k c.job va).workDone k
    | none => d.writeRecord k c.job n

theorem exec_exportRec (at_ k : Nat) (s : State) :
    exec (.exportRec at_ k) s = lift (Dev.dispatch 6 0
      (fun k c d => (d.atUnit k 0x90).withArgs k c (c.argsLen = 128) (exportRun k c)) at_ k) s := rfl

section
variable {d : Dev} {j n : Nat}

theorem Dev.exportFault_row {va : Nat} (h : (xpRows n).findSome? (fun r => d.firstFault j r.1 r.2 false) = some va) :
    d.exportFault j n = some va := by
  unfold Dev.exportFault
  rw [h]
  rfl

theorem Dev.exportFault_record (h : ∀ r ∈ xpRows n, d.firstFault j r.1 r.2 false = none) : d.exportFault j n =
    d.firstFault j (xpRecord n) (rcBytes (xpRowCount n * xpRowBytes n) (xpSign n)) true := by
  unfold Dev.exportFault
  rw [List.findSome?_eq_none_iff.mpr h]
  rfl

variable {k : Nat} {c : Cmd} (ho : xpOk false n = true)
include ho

theorem exportRun_faults {va : Nat} (hf : d.exportFault c.job n = some va) :
    exportRun k c n d = (d.cmdFault k c.job va).workDone k := by
  unfold exportRun
  rw [ho, hf]
  rfl

theorem exportRun_writes (hf : d.exportFault c.job n = none) : exportRun k c n d = d.writeRecord k c.job n := by
  unfold exportRun
  rw [ho, hf]
  rfl

end

/-! ### IMPORT (R308, R309) -/

/-- A record that fails a check of R308 is refused with that check's number, and nothing of it is written. -/
def Dev.importRefused (d : Dev) (k j why : Nat) : Dev :=
  ((d.bump (Cat.EXP_IMPORT_REJECT j)).cset (Cat.EXP_LAST_REJECT j) why).workEnds k 0x31 0

/-- The imported rows are written where all of them are mapped. -/
def Dev.writeRows (d : Dev) (k j : Nat) (ws : List (Nat × List Byte)) : Dev :=
  match ws.findSome? fun w => d.firstFault j w.1 w.2.length true with
  | some va => (d.cmdFault k j va).workDone k
  | none => (ws.foldl (fun d w => d.jwr j w.1 w.2) d).workDone k

/-- A record whose `size` bytes are mapped is read, checked under the key of slot `ks`, and imported. -/
def Dev.importRead (d : Dev) (k j n h tenant size : Nat) (ks : KeySlot) (sig : Bool) : Dev :=
  let p := d.cmdPoison k (d.jbad j (xpRecord n) size)
  let r := readRecord ks.expKey (p.jrd j (xpRecord n) size)
  match importReason n h tenant ks.gen r.digestOk sig r.tagOk with
  | some why => p.importRefused k j why
  | none => p.writeRows k j (importWrites n h r.plain)

/-- A record whose header `h` is read: its tenant and its key's generation, and then its bytes. -/
def Dev.importHead (d : Dev) (k j n h : Nat) (sig : Bool) : Dev :=
  if rcTenant h ≠ (d.job j).tenant then d.importRefused k j 1
  else if rcKeyGen h ≠ (d.jobKey j).gen then d.importRefused k j 2
  else
    match d.firstFault j (xpRecord n) (rcBytes (rcLen h) (rcSigned h)) false with
    | some va => (d.cmdFault k j va).workDone k
    | none => d.importRead k j n h (d.job j).tenant (rcBytes (rcLen h) (rcSigned h)) (d.jobKey j) sig

/-- What IMPORT does with an argument block that it can read. -/
def importRun (sig : Bool) (k : Nat) (c : Cmd) (n : Nat) (d : Dev) : Dev :=
  if !xpOk true n then d.workRefused k 0x30 0
  else
    match d.firstFault c.job (xpRecord n) 128 false with
    | some va => (d.cmdFault k c.job va).workDone k
    | none => d.importHead k c.job n (d.jnat c.job (xpRecord n) 128) sig

theorem exec_importRec (sig : Bool) (at_ k : Nat) (s : State) :
    exec (.importRec at_ k sig) s = lift (Dev.dispatch 6 1
      (fun k c d => (d.atUnit k 0x90).withArgs k c (c.argsLen = 128) (importRun sig k c)) at_ k) s := rfl

theorem Dev.writeRows_faults {d : Dev} {k j va : Nat} {ws : List (Nat × List Byte)}
    (h : ws.findSome? (fun w => d.firstFault j w.1 w.2.length true) = some va) :
    d.writeRows k j ws = (d.cmdFault k j va).workDone k := by
  unfold Dev.writeRows
  rw [h]

theorem Dev.writeRows_mapped {d : Dev} {k j : Nat} {ws : List (Nat × List Byte)}
    (h : ∀ w ∈ ws, d.firstFault j w.1 w.2.length true = none) :
    d.writeRows k j ws = (ws.foldl (fun d w => d.jwr j w.1 w.2) d).workDone k := by
  unfold Dev.writeRows
  rw [List.findSome?_eq_none_iff.mpr h]

section
variable {d : Dev} {k j n h tenant size : Nat} {ks : KeySlot} {sig : Bool}

/-- What a record says that is read once its poison is counted. -/
def Dev.recordAt (d : Dev) (k j n size : Nat) (ks : KeySlot) : RecordRead :=
  readRecord ks.expKey ((d.cmdPoison k (d.jbad j (xpRecord n) size)).jrd j (xpRecord n) size)

theorem Dev.importRead_refused {why : Nat} (hr : importReason n h tenant ks.gen (d.recordAt k j n size ks).digestOk sig
      (d.recordAt k j n size ks).tagOk = some why) :
    d.importRead k j n h tenant size ks sig = (d.cmdPoison k (d.jbad j (xpRecord n) size)).importRefused k j why := by
  unfold Dev.importRead
  unfold Dev.recordAt at hr
  simp only [hr]

theorem Dev.importRead_imports (hr : importReason n h tenant ks.gen (d.recordAt k j n size ks).digestOk sig
      (d.recordAt k j n size ks).tagOk = none) : d.importRead k j n h tenant size ks sig =
      (d.cmdPoison k (d.jbad j (xpRecord n) size)).writeRows k j (importWrites n h (d.recordAt k j n size ks).plain) := by
  unfold Dev.importRead
  unfold Dev.recordAt at hr ⊢
  simp only [hr]

theorem Dev.importHead_otherTenant (ht : rcTenant h ≠ (d.job j).tenant) :
    d.importHead k j n h sig = d.importRefused k j 1 := if_pos ht

theorem Dev.importHead_otherKey (ht : rcTenant h = (d.job j).tenant) (hg : rcKeyGen h ≠ (d.jobKey j).gen) :
    d.importHead k j n h sig = d.importRefused k j 2 := (if_neg (not_not.mpr ht)).trans (if_pos hg)

theorem Dev.importHead_faults {va : Nat} (hm : rcTenant h = (d.job j).tenant ∧ rcKeyGen h = (d.jobKey j).gen)
    (hf : d.firstFault j (xpRecord n) (rcBytes (rcLen h) (rcSigned h)) false = some va) :
    d.importHead k j n h sig = (d.cmdFault k j va).workDone k := by
  unfold Dev.importHead
  rw [if_neg (not_not.mpr hm.1), if_neg (not_not.mpr hm.2), hf]

theorem Dev.importHead_reads (hm : rcTenant h = (d.job j).tenant ∧ rcKeyGen h = (d.jobKey j).gen)
    (hf : d.firstFault j (xpRecord n) (rcBytes (rcLen h) (rcSigned h)) false = none) : d.importHead k j n h sig =
      d.importRead k j n h (d.job j).tenant (rcBytes (rcLen h) (rcSigned h)) (d.jobKey j) sig := by
  unfold Dev.importHead
  rw [if_neg (not_not.mpr hm.1), if_neg (not_not.mpr hm.2), hf]

end

section
variable {d : Dev} {k n : Nat} {c : Cmd} {sig : Bool} (ho : xpOk true n = true)
include ho

theorem importRun_faults {va : Nat} (hf : d.firstFault c.job (xpRecord n) 128 false = some va) :
    importRun sig k c n d = (d.cmdFault k c.job va).workDone k := by
  unfold importRun
  rw [ho, hf]
  rfl

theorem importRun_head (hf : d.firstFault c.job (xpRecord n) 128 false = none) :
    importRun sig k c n d = d.importHead k c.job n (d.jnat c.job (xpRecord n) 128) sig := by
  unfold importRun
  rw [ho, hf]
  rfl

end

/-! ### The obligation -/

/-- Settles O38: each command is its effect on a block that it can read, whose checks come in order; the version that a local
GATHER is served is chosen by R300, and an IMPORT's rows are written where no check of R308 fails. -/
theorem gathersExportsAndImports : Obligations.GathersExportsAndImports := by
  refine ⟨ArgsOp.of gatherRun exec_gather fun d k c n => ?_, fun d k j n s => ?_, fun d k j n v hsrc hdst hst => ?_,
    ArgsOp.of exportRun exec_exportRec fun d k c n => ?_,
    fun sig => ArgsOp.of (importRun sig) (exec_importRec sig) fun d k c n => ?_⟩
  · intro j ok dir
    have hgood (ho : ok) : gatherBad n = false := Bool.eq_false_iff.mpr fun hb => (gatherBad_iff n).mp hb ho
    refine ⟨fun ho => if_pos ((gatherBad_iff n).mpr ho), fun va ho hl hf => gatherRun_local_faults (hgood ho) hl hf,
      fun ho hl hf => ?_, fun ho hl hd hs => gatherRun_remote (hgood ho) hl hd hs,
      fun va ho hl hf => gatherRun_remote_faults (hgood ho) hl hf⟩
    rw [gatherRun_local (hgood ho) hl hf]
    exact ⟨Dev.gatherDir_unusable, Dev.gatherDir_otherSize, Dev.gatherDir_fits⟩
  · intro dir want kept serve
    have hnot (h : ¬ kept) : ¬ d.servesKept dir want s = true := fun hk => h (Dev.servesKept_iff.mp hk)
    have hidle {b : Bool} (hu : dirUpdating dir = b) : d.chooseVersion dir want s = if d.servesKept dir want s then
        some { va := dirPrevVa dir, step := dirPrevStep dir, stamp := dirPrevStamp dir } else if b then none
        else some { va := dirCurVa dir, step := dirCurStep dir, stamp := dirCurStamp dir } := by
      rw [← hu, Dev.chooseVersion_eq]
    exact ⟨fun h => Dev.gatherLocal_serves ((hidle rfl).trans (if_pos (Dev.servesKept_iff.mpr h))),
      fun h hu => Dev.gatherLocal_serves ((hidle hu).trans (if_neg (hnot h))),
      fun h hu hnew => Dev.gatherLocal_waits ((hidle hu).trans (if_neg (hnot h))) hnew⟩
  · intro len p w
    rw [Dev.serveLocal_mapped hsrc hdst hst]
    exact ⟨fun h => if_pos h, fun h => if_neg h⟩
  · intro j rows len
    refine ⟨fun ho => ?_, fun va ho hf => exportRun_faults ho (Dev.exportFault_row hf),
      fun va ho hr hf => exportRun_faults ho ((Dev.exportFault_record hr).trans hf),
      fun ho hr hf => exportRun_writes ho ((Dev.exportFault_record hr).trans hf)⟩
    unfold exportRun; rw [ho]; rfl
  · intro j h ks tenant size refused mine
    refine ⟨fun ho => ?_, fun va ho hf => importRun_faults ho hf,
      fun ho hf ht => (importRun_head ho hf).trans (Dev.importHead_otherTenant ht),
      fun ho hf ht hg => (importRun_head ho hf).trans (Dev.importHead_otherKey ht hg),
      fun va ho hf hm hs => (importRun_head ho hf).trans (Dev.importHead_faults hm hs), fun ho hf hm hs => ?_⟩
    · unfold importRun; rw [ho]; rfl
    · intro p r
      have hread : importRun sig k c n d = d.importRead k j n h tenant size ks sig :=
        (importRun_head ho hf).trans (Dev.importHead_reads hm hs)
      refine ⟨fun why hw => hread.trans (Dev.importRead_refused hw), fun hw => ?_⟩
      have himp := hread.trans (Dev.importRead_imports hw)
      exact ⟨fun va hv => himp.trans (Dev.writeRows_faults hv), fun hv => himp.trans (Dev.writeRows_mapped hv)⟩

end Sys2Proof.Machine
end

section
/-! SUPPORT. What follows from a command leaves the ballots that a job holds as they are (R370): slots that end and start, pace
notices, reductions, results, sweeps and gathers that go on. -/

namespace Sys2Proof.Machine

/-! ### Devices on which the jobs hold the same ballots -/

/-- Every job holds on `e` the ballots that it holds on `d`. -/
def Dev.ballotsOf (d e : Dev) : Prop := ∀ j, (e.job j).red.votes = (d.job j).red.votes

theorem Dev.ballotsOf.refl (d : Dev) : d.ballotsOf d := fun _ => rfl

theorem Dev.ballotsOf.trans {a b c : Dev} (h : a.ballotsOf b) (k : b.ballotsOf c) : a.ballotsOf c :=
  fun j => (k j).trans (h j)

theorem Dev.ballotsOf.of_jobs {d e : Dev} (h : e.jobs = d.jobs) : d.ballotsOf e := fun j => by unfold Dev.job; rw [h]

theorem Dev.tracedOf.ballotsOf {d e : Dev} (h : d.tracedOf e) : d.ballotsOf e := fun j => by rw [h.red]

theorem Dev.notesOf.ballotsOf {d e : Dev} (h : d.notesOf e) : d.ballotsOf e := .of_jobs h.jobs

theorem Dev.ballotsOf.ite {d a b : Dev} {p : Prop} [Decidable p] (ha : d.ballotsOf a) (hb : d.ballotsOf b) :
    d.ballotsOf (if p then a else b) := by
  split
  · exact ha
  · exact hb

theorem Dev.ballotsOf_foldl {α : Type} {f : Dev → α → Dev} (hf : ∀ (d : Dev) (a : α), d.ballotsOf (f d a)) (l : List α)
    (d : Dev) : d.ballotsOf (l.foldl f d) :=
  foldl_keeps d.ballotsOf f (fun _ _ he => he.trans (hf _ _)) l d (.refl d)

theorem Dev.ballotsOf_setJob {d : Dev} {j : Nat} {x : Job} (h : x.red.votes = (d.job j).red.votes) :
    d.ballotsOf (d.setJob j x) := by
  intro k
  rw [Dev.setJob_job_of]
  split
  · next hk => rw [hk, h]
  · rfl

theorem Dev.ballotsOf_setRed {d : Dev} {j : Nat} {r : RedJob} (h : r.votes = (d.job j).red.votes) :
    d.ballotsOf (d.setRed j r) := Dev.ballotsOf_setJob h

theorem Dev.ballotsOf_bump (d : Dev) (k : Nat) : d.ballotsOf (d.bump k) := (d.tracedOf_bump k).ballotsOf
theorem Dev.ballotsOf_bumpBy (d : Dev) (k n : Nat) : d.ballotsOf (d.bumpBy k n) := (d.tracedOf_bumpBy k n).ballotsOf
theorem Dev.ballotsOf_jwr (d : Dev) (j va : Nat) (l : List Byte) : d.ballotsOf (d.jwr j va l) := (d.tracedOf_jwr j va l).ballotsOf
theorem Dev.ballotsOf_updCmd (d : Dev) (k : Nat) (f : Cmd → Cmd) : d.ballotsOf (d.updCmd k f) := (d.notesOf_updCmd k f).ballotsOf
theorem Dev.ballotsOf_cmdPoison (d : Dev) (k : Nat) (l : List Nat) : d.ballotsOf (d.cmdPoison k l) :=
  (d.notesOf_cmdPoison k l).ballotsOf
theorem Dev.ballotsOf_event (d : Dev) (kind job unit a b c : Nat) : d.ballotsOf (d.event kind job unit a b c) :=
  (d.tracedOf_event kind job unit a b c).ballotsOf

theorem Dev.ballotsOf_cmdFault (d : Dev) (k j va : Nat) : d.ballotsOf (d.cmdFault k j va) :=
  (d.tracedOf_xfault j va).ballotsOf.trans (Dev.ballotsOf_updCmd _ _ _)

theorem Dev.ballotsOf_workEnds (d : Dev) (k st v : Nat) : d.ballotsOf (d.workEnds k st v) :=
  (d.ballotsOf_updCmd k _).trans (Dev.ballotsOf_updCmd _ _ _)

/-- A mark that rises changes the marks of its job alone. -/
theorem Dev.ballotsOf_incMark (d : Dev) (j m n stamp : Nat) : d.ballotsOf (d.incMark j m n stamp) := by
  obtain ⟨cat, cmds, units, h⟩ := d.incMark_rest j m n stamp
  rw [h]
  intro k
  show (Tbl.getD (Tbl.set d.jobs j _) k Job.empty).red.votes = _
  rw [Tbl.getD_set]
  split
  · next hk => rw [hk]
  · rfl

/-! ### The timetable (R39, R45, R55) -/

theorem Dev.ballotsOf_moveEpoch (d : Dev) (n m : Nat) : d.ballotsOf (d.moveEpoch n m) := by
  rw [Dev.moveEpoch_eq]
  refine .ite (.refl d) ?_
  refine Dev.ballotsOf.trans (b := { d with tt := { d.tt with epoch := d.tt.epoch + m * d.stepLen } }) (.of_jobs rfl) ?_
  exact (((Dev.ballotsOf_bumpBy _ _ _).trans (Dev.ballotsOf_bump _ _)).trans (Dev.ballotsOf_event _ _ _ _ _ _ _)).trans
    (Dev.ballotsOf_event _ _ _ _ _ _ _)

theorem Dev.ballotsOf_ttHold (d : Dev) (why : HeldCause) : d.ballotsOf (d.ttHold why) := .ite (.of_jobs rfl) (.refl d)

theorem Dev.ballotsOf_tryRejoin (d : Dev) : d.ballotsOf d.tryRejoin :=
  .ite (((d.ballotsOf_bump _).trans (.ite (Dev.ballotsOf_bump _ _) (.refl _))).trans (.of_jobs rfl)) (.refl d)

theorem Dev.ballotsOf_stepEnds (d : Dev) (n : Nat) : d.ballotsOf (d.stepEnds n) := by
  have hm : d.ballotsOf (d.epochMoved n) := by
    unfold Dev.epochMoved
    dsimp only
    split <;> exact (d.ballotsOf_moveEpoch _ _).trans (.of_jobs rfl)
  rw [Dev.stepEnds_eq]
  refine hm.trans ?_
  generalize d.epochMoved n = e
  refine .ite (e.ballotsOf_ttHold _) (.ite ?_ (.refl e))
  refine Dev.ballotsOf.trans ?_ (Dev.ballotsOf_tryRejoin _)
  refine Dev.ballotsOf.trans ?_ (Dev.ballotsOf_ttHold _ _)
  exact .of_jobs rfl

theorem Dev.ballotsOf_parkFiller (d : Dev) : d.ballotsOf d.parkFiller :=
  Dev.ballotsOf.trans (b := { d with cmds := _ }) (.of_jobs rfl) (Dev.ballotsOf_bumpBy _ _ _)

theorem Dev.ballotsOf_raiseResync (d : Dev) (lag : Nat) : d.ballotsOf (d.raiseResync lag) :=
  .ite (.refl d) (.ite (.of_jobs rfl) (.ite (.of_jobs rfl) (.refl d)))

theorem Dev.ballotsOf_startSlot (d : Dev) (n j a : Nat) : d.ballotsOf (d.startSlot n j a) := by
  have hin : d.ballotsOf ((d.advance a).inSlot n j a) := .of_jobs (d.advance_jobs a)
  refine Dev.ballotsOf.trans ?_ (Dev.ballotsOf_raiseResync _ _)
  refine Dev.ballotsOf.trans ?_ (.ite (.refl _) (Dev.tracedOf_trace _ _).ballotsOf)
  exact (hin.trans (Dev.ballotsOf_parkFiller _)).trans (.ite (.of_jobs rfl) (.refl _))

theorem Dev.ballotsOf_closeSlot (d : Dev) (t : Nat) : d.ballotsOf (d.closeSlot t) := by
  have hc : d.ballotsOf ((d.advance t).slotClosed t) := .of_jobs (d.advance_jobs t)
  rw [Dev.closeSlot_eq]
  refine (hc.trans ?_).trans (.ite (.refl _) (.ite (Dev.ballotsOf_startSlot _ _ _ _) (.of_jobs rfl)))
  exact .ite (.refl _) (.ite (Dev.ballotsOf_stepEnds _ _) ((Dev.ballotsOf_stepEnds _ _).trans (.of_jobs rfl)))

theorem Dev.ballotsOf_settleFirm (d : Dev) : d.ballotsOf d.settleFirm :=
  .ite (.refl d) (.ite (d.ballotsOf_closeSlot _) (.of_jobs rfl))

/-! ### Rolls and pace notices (R151, R374) -/

theorem Dev.ballotsOf_rollDue (d : Dev) (j t : Nat) (step : Option Nat) : d.ballotsOf (d.rollDue j t step) := by
  unfold Dev.rollDue
  exact Dev.ballotsOf_setJob rfl

theorem Dev.ballotsOf_autoRolls (d : Dev) (n t : Nat) : d.ballotsOf (d.autoRolls n t) :=
  Dev.ballotsOf_foldl (fun e _ => .ite (e.ballotsOf_rollDue _ _ _) (.refl e)) _ d

theorem Dev.ballotsOf_updConn (d : Dev) (c : Nat) (f : Conn → Conn) : d.ballotsOf (d.updConn c f) := by
  unfold Dev.updConn
  split <;> exact .of_jobs rfl

theorem Dev.ballotsOf_failNote (d : Dev) (c : Nat) (x : Conn) (t : Xfer) (reason : Nat) :
    d.ballotsOf (d.failNote c x t reason) := by
  have h := ((d.ballotsOf_updConn c fun y => { y with
    sealsFailed := if t.isSeal then y.sealsFailed + 1 else y.sealsFailed, lastFail := reason }).trans
    (Dev.ballotsOf_bump _ Cat.NET_SEND_FAIL)).trans (Dev.ballotsOf_event _ 0x41 x.job 0x90 reason t.region c)
  exact .ite (h.trans (Dev.ballotsOf_incMark _ _ _ _ _)) h

theorem Dev.ballotsOf_failCmd (d : Dev) (j k reason region : Nat) (l : List Nat) : d.ballotsOf (d.failCmd j k reason region l) :=
  .ite (d.ballotsOf_updCmd _ _) (.ite (d.ballotsOf_updCmd _ _) (d.ballotsOf_updCmd _ _))

theorem Dev.ballotsOf_checkSent (d : Dev) (k : Nat) : d.ballotsOf (d.checkSent k) := by
  unfold Dev.checkSent
  split
  · exact .ite (d.ballotsOf_updCmd _ _) (.refl d)
  · exact .refl d

theorem Dev.ballotsOf_failXfer (d : Dev) (c t reason : Nat) : d.ballotsOf (d.failXfer c t reason) := by
  unfold Dev.failXfer
  split
  · exact .refl d
  · split
    · exact .refl d
    · refine Dev.ballotsOf.trans ?_ (Dev.ballotsOf_checkSent _ _)
      refine Dev.ballotsOf.trans ?_ (Dev.ballotsOf_failCmd _ _ _ _ _ _)
      refine Dev.ballotsOf.trans ?_ (Dev.ballotsOf_failNote _ _ _ _ _)
      exact .of_jobs rfl

theorem Dev.ballotsOf_connError (d : Dev) (c cause : Nat) : d.ballotsOf (d.connError c cause) := by
  unfold Dev.connError
  split
  · exact .refl d
  · refine .ite (.refl d) (Dev.ballotsOf.trans ?_ (Dev.ballotsOf_updConn _ _ _))
    exact ((d.ballotsOf_bump _).trans (Dev.ballotsOf_event _ _ _ _ _ _ _)).trans
      (Dev.ballotsOf_foldl (fun _ _ => Dev.ballotsOf_failXfer _ _ _ _) _ _)

theorem Dev.macOf.ballotsOf {d e : Dev} (h : d.macOf e) : d.ballotsOf e := by
  unfold Dev.macOf at h
  rw [h]
  exact .of_jobs rfl

theorem Dev.ballotsOf_sendPkt (d : Dev) (c op flags region : Nat) (seq : Word) (step ext extLen : Nat) (payload : List Byte) :
    d.ballotsOf (d.sendPkt c op flags region seq step ext extLen payload) := by
  unfold Dev.sendPkt
  split
  · exact .refl d
  · next x _ =>
    refine .ite (.refl d) ?_
    dsimp only
    have hmac (e : Dev) (len : Nat) : e.ballotsOf (((e.macSent x.port len 0).mac x.port Cat.TX_MAELGO).bumpBy
        (Cat.NET_JOB_TX_BYTES x.job) payload.length) :=
      ((e.macOf_macSent _ _ _).ballotsOf.trans (Dev.macOf_macBy _ _ _ _).ballotsOf).trans (Dev.ballotsOf_bumpBy _ _ _)
    split
    · refine Dev.ballotsOf.trans ?_ (Dev.ballotsOf_connError _ _ _)
      refine Dev.ballotsOf.trans ?_ (hmac _ _)
      exact .of_jobs rfl
    · refine Dev.ballotsOf.trans ?_ (hmac _ _)
      exact .of_jobs rfl

theorem Dev.ballotsOf_sendPace (d : Dev) : d.ballotsOf d.sendPace := by
  refine Dev.ballotsOf.trans (.ite (Dev.ballotsOf_foldl (fun e c => ?_) _ d) (.refl d)) (.of_jobs rfl)
  split
  · exact .ite ((Dev.ballotsOf_sendPkt _ _ _ _ _ _ _ _ _ _).trans (Dev.ballotsOf_bump _ _)) (.refl e)
  · exact .refl e

theorem Dev.ballotsOf_settleSlots (d : Dev) : d.ballotsOf d.settleSlots := by
  have h : d.ballotsOf (d.tt.ended.foldl (fun d nt => d.autoRolls nt.1 nt.2)
      { d with tt := { d.tt with justStarted := false, ended := [] } }) :=
    Dev.ballotsOf.trans (.of_jobs rfl) (Dev.ballotsOf_foldl (fun _ _ => Dev.ballotsOf_autoRolls _ _ _) _ _)
  exact .ite (h.trans (Dev.ballotsOf_sendPace _)) h

/-! ### Reductions and results (R367, R372) -/

theorem RedJob.votes_count (r : RedJob) (step member t : Nat) : (r.count step member t).votes = r.votes := by
  unfold RedJob.count
  dsimp only
  split <;> rfl

theorem Dev.ballotsOf_countFinals (d : Dev) (j : Nat) : d.ballotsOf (d.countFinals j) := by
  refine .ite (.refl d) (Dev.ballotsOf_setRed ?_)
  exact foldl_keeps (fun r : RedJob => r.votes = (d.job j).red.votes) _ (fun r _ h => (r.votes_count _ _ _).trans h) _ _ rfl

theorem Dev.ballotsOf_normWrite (d : Dev) (j i step : Nat) (f : Nat → Nat) : d.ballotsOf (d.normWrite j i step f) :=
  d.ballotsOf_jwr _ _ _

theorem Dev.ballotsOf_noteMove (d : Dev) (j n m : Nat) : d.ballotsOf (d.noteMove j n m) := by
  refine .ite (.refl d) ?_
  have hlate : d.ballotsOf (if decide (n < d.tt.step) = true then d.bump (Cat.RED_RESYNC_LATE j) else d) :=
    .ite (d.ballotsOf_bump _) (.refl d)
  exact .ite (hlate.trans (Dev.ballotsOf_moveEpoch _ _ _)) (hlate.trans (.of_jobs rfl))

theorem Dev.ballotsOf_incMarkOpt (d : Dev) (j m stamp : Nat) : d.ballotsOf (d.incMarkOpt j m stamp) :=
  .ite (.refl d) (d.ballotsOf_incMark _ _ _ _)

theorem Dev.ballotsOf_recordResult (d : Dev) (j step : Nat) (v : VoteRes) : d.ballotsOf (d.recordResult j step v) := by
  refine Dev.ballotsOf.trans ?_ (Dev.ballotsOf_setRed rfl)
  refine Dev.ballotsOf.trans (.ite (.refl d) ?_) (Dev.ballotsOf_noteMove _ _ _ _)
  refine Dev.ballotsOf.trans ?_ (Dev.ballotsOf_incMarkOpt _ _ _ _)
  refine Dev.ballotsOf.trans ?_ (.ite (.refl _) (.of_jobs rfl))
  exact (d.ballotsOf_jwr _ _ _).trans (Dev.ballotsOf_foldl (fun _ _ => Dev.ballotsOf_normWrite _ _ _ _ _) _ _)

theorem Dev.ballotsOf_tryRecord (d : Dev) (j step : Nat) : d.ballotsOf (d.tryRecord j step) := by
  unfold Dev.tryRecord
  split
  · exact .ite (d.ballotsOf_recordResult _ _ _) (.refl d)
  · exact .refl d

theorem Dev.ballotsOf_settleRed (d : Dev) : d.ballotsOf d.settleRed := by
  refine Dev.ballotsOf_foldl (fun e kj => ?_) _ d
  refine (e.ballotsOf_countFinals kj.1).trans (.ite (.refl _) ?_)
  refine Dev.ballotsOf.trans ?_ (Dev.ballotsOf_foldl (fun _ _ => Dev.ballotsOf_tryRecord _ _ _) _ _)
  exact Dev.ballotsOf_setRed rfl

/-! ### Sweeps and gathers (R290, R298, R300) -/

theorem Dev.ballotsOf_countCalcs (d : Dev) (u : Nat) (cs : List Calc) : d.ballotsOf (d.countCalcs u cs) :=
  ((((d.ballotsOf_bumpBy _ _).trans (Dev.ballotsOf_bumpBy _ _ _)).trans (Dev.ballotsOf_bumpBy _ _ _)).trans
    (Dev.ballotsOf_bumpBy _ _ _)).trans (Dev.ballotsOf_bumpBy _ _ _)

theorem Dev.ballotsOf_normEntry (d : Dev) (j n e u : Nat) (w v : Calc) : d.ballotsOf (d.normEntry j n e u w v) :=
  .ite (d.ballotsOf_countCalcs _ _) ((d.ballotsOf_normWrite _ _ _ _).trans (Dev.ballotsOf_countCalcs _ _ _))

theorem Dev.ballotsOf_normClip (d : Dev) (j n e : Nat) (c : Word) : d.ballotsOf (d.normClip j n e c) :=
  .ite (.refl d) (d.ballotsOf_normWrite _ _ _ _)

theorem Dev.ballotsOf_freePool (d : Dev) (j dir : Nat) : d.ballotsOf (d.freePool j dir) := Dev.ballotsOf_setJob rfl

theorem Dev.ballotsOf_retain (d : Dev) (k j n e : Nat) : d.ballotsOf (d.retain k j n e) := by
  unfold Dev.retain
  dsimp only
  split
  · exact ((d.ballotsOf_freePool _ _).trans (Dev.ballotsOf_jwr _ _ _ _)).trans (Dev.ballotsOf_bump _ _)
  · refine Dev.ballotsOf.trans ?_ (Dev.ballotsOf_jwr _ _ _ _)
    refine Dev.ballotsOf.trans ?_ (Dev.ballotsOf_setJob rfl)
    exact ((d.ballotsOf_freePool _ _).trans (Dev.ballotsOf_cmdPoison _ _ _)).trans (Dev.ballotsOf_jwr _ _ _ _)

theorem Dev.ballotsOf_entryBegins (d : Dev) (k j n e : Nat) : d.ballotsOf (d.entryBegins k j n e) :=
  .ite (.refl d) (.ite (d.ballotsOf_jwr _ _ _) (d.ballotsOf_retain _ _ _ _))

theorem Dev.ballotsOf_entryEnds (d : Dev) (j n e : Nat) : d.ballotsOf (d.entryEnds j n e) :=
  .ite (.refl d) (d.ballotsOf_jwr _ _ _)

theorem Dev.ballotsOf_acquire (d : Dev) (u j : Nat) : d.ballotsOf (d.acquire u j) := .of_jobs rfl

theorem Dev.ballotsOf_startProgram (d : Dev) (run : SweepRun) (c : Cmd) (die i : Nat) :
    d.ballotsOf (d.startProgram run c die i) := by
  refine Dev.ballotsOf.trans ?_ (Dev.ballotsOf_updCmd _ _ _)
  refine Dev.ballotsOf.trans ?_ (Dev.tracedOf_trace _ _).ballotsOf
  refine Dev.ballotsOf.trans ?_ (Dev.ballotsOf_foldl (fun e _ => .of_jobs (e.setBundle_jobs _ _ _)) _ _)
  refine Dev.ballotsOf.trans ?_ (.ite (.refl _) (Dev.ballotsOf_acquire _ _ _))
  exact (d.ballotsOf_entryBegins _ _ _ _).trans (Dev.ballotsOf_normClip _ _ _ _ _)

theorem Dev.ballotsOf_endProgram (d : Dev) (c : Cmd) (i : Nat) : d.ballotsOf (d.endProgram c i) := by
  refine Dev.ballotsOf.trans ?_ (Dev.ballotsOf_entryEnds _ _ _ _)
  exact ((d.ballotsOf_normEntry _ _ _ _ _ _).trans (Dev.ballotsOf_bumpBy _ _ _)).trans
    (.ite (Dev.ballotsOf_bump _ _) (.refl _))

theorem Dev.ballotsOf_stopRun (d : Dev) (run : SweepRun) (c : Cmd) (i : Nat) : d.ballotsOf (d.stopRun run c i).1 := by
  unfold Dev.stopRun
  dsimp only
  split
  · exact d.ballotsOf_cmdFault _ _ _
  · exact .refl d

/-- A die of a run before it is looked at: a page of its next entry that is gone stops the run (R281). -/
def Dev.dieStopped (d : Dev) (run : SweepRun) (c : Cmd) (die : Nat) : Dev × SweepRun :=
  match Tbl.find? run.cur die, Tbl.getD run.todo die [] with
  | none, i :: _ => d.stopRun run c i
  | some _, _ => (d, if c.status = 0x11 then { run with todo := [] } else run)
  | none, [] => (d, run)

/-- An entry of a die that has ended. -/
def Dev.dieEnded (d : Dev) (run : SweepRun) (c : Cmd) (die : Nat) : Dev × SweepRun :=
  match Tbl.find? run.cur die with
  | some i => if bit c.unitsOn (64 + die) then (d, run) else (d.endProgram c i, { run with cur := Tbl.erase run.cur die })
  | none => (d, run)

/-- An entry of a die that may start. -/
def Dev.dieStarted (d : Dev) (run : SweepRun) (c : Cmd) (die : Nat) : Dev × SweepRun :=
  match Tbl.find? run.cur die, Tbl.getD run.todo die [] with
  | none, i :: rest =>
    if ((d.entryDie c.job (d.jnat c.job (c.argsVa + 64 + 64 * i) 64)).2 && !run.early)
        || (d.freeSlots (64 + die)).length < (match (d.job c.job).t1 with | some g => g.dieBundles | none => 0) then (d, run)
    else
      (d.startProgram run c die i,
        { run with cur := Tbl.set run.cur die i, todo := Tbl.set run.todo die rest,
                   acquired := if bit run.acquired die then run.acquired else run.acquired + 2 ^ die })
  | _, _ => (d, run)

theorem Dev.advanceDie_eq (d : Dev) (run : SweepRun) (c : Cmd) (die : Nat) :
    let p := d.dieStopped run c die; let q := p.1.dieEnded p.2 c die
    d.advanceDie run c die = q.1.dieStarted q.2 c die := rfl

theorem Dev.ballotsOf_dieStopped (d : Dev) (run : SweepRun) (c : Cmd) (die : Nat) :
    d.ballotsOf (d.dieStopped run c die).1 := by
  unfold Dev.dieStopped
  split
  · exact d.ballotsOf_stopRun _ _ _
  · exact .refl d
  · exact .refl d

theorem Dev.ballotsOf_dieEnded (d : Dev) (run : SweepRun) (c : Cmd) (die : Nat) : d.ballotsOf (d.dieEnded run c die).1 := by
  unfold Dev.dieEnded
  split
  · split
    · exact .refl d
    · exact d.ballotsOf_endProgram _ _
  · exact .refl d

theorem Dev.ballotsOf_dieStarted (d : Dev) (run : SweepRun) (c : Cmd) (die : Nat) :
    d.ballotsOf (d.dieStarted run c die).1 := by
  unfold Dev.dieStarted
  split
  · rw [apply_ite Prod.fst]
    exact .ite (.refl d) (d.ballotsOf_startProgram _ _ _ _)
  · exact .refl d

theorem Dev.ballotsOf_advanceDie (d : Dev) (run : SweepRun) (c : Cmd) (die : Nat) : d.ballotsOf (d.advanceDie run c die).1 :=
  ((d.ballotsOf_dieStopped run c die).trans (Dev.ballotsOf_dieEnded _ _ _ _)).trans (Dev.ballotsOf_dieStarted _ _ _ _)

theorem Dev.ballotsOf_earlyMark (d : Dev) (j n : Nat) : d.ballotsOf (d.earlyMark j n) :=
  .ite (d.ballotsOf_incMark _ _ _ _) (.refl d)

/-- One look at a die, while the run's command `k` is held. -/
def Dev.passDie (k : Nat) (p : Dev × SweepRun) (die : Nat) : Dev × SweepRun :=
  match p.1.cmd? k with
  | some c => p.1.advanceDie p.2 c die
  | none => p

/-- One look at each die. -/
def Dev.passDies (k : Nat) (p : Dev × SweepRun) : Dev × SweepRun := (List.range 8).foldl (Dev.passDie k) p

/-- EARLY_MARK, once no entry in place is left, and a second look at the dies (R292). -/
def Dev.marksEarly (k : Nat) (c : Cmd) (p : Dev × SweepRun) : Dev × SweepRun :=
  if p.2.early || ((p.2.todo.map (·.2)).flatten.any fun i =>
        !(p.1.entryDie c.job (p.1.jnat c.job (c.argsVa + 64 + 64 * i) 64)).2)
      || p.2.cur.any (fun kv => !(p.1.entryDie c.job (p.1.jnat c.job (c.argsVa + 64 + 64 * kv.2) 64)).2) then p
  else Dev.passDies k (p.1.earlyMark c.job (p.1.jnat c.job c.argsVa 64), { p.2 with early := true })

/-- A run that is over ends its command; another is kept as it stands. -/
def Dev.runSettled (p : Dev × SweepRun) : Dev :=
  if p.2.cur.isEmpty && (p.2.todo.all fun kv => kv.2.isEmpty) then
    { p.1.workDone p.2.cmd with sweeps := p.1.sweeps.filter fun s => s.cmd ≠ p.2.cmd }
  else { p.1 with sweeps := p.1.sweeps.map fun s => if s.cmd = p.2.cmd then p.2 else s }

theorem Dev.ballotsOf_passDies (k : Nat) (p : Dev × SweepRun) : p.1.ballotsOf (Dev.passDies k p).1 := by
  refine foldl_keeps (fun q : Dev × SweepRun => p.1.ballotsOf q.1) _ (fun q die hq => hq.trans ?_) _ p (.refl _)
  unfold Dev.passDie
  split
  · exact Dev.ballotsOf_advanceDie _ _ _ _
  · exact .refl _

theorem Dev.ballotsOf_marksEarly (k : Nat) (c : Cmd) (p : Dev × SweepRun) : p.1.ballotsOf (Dev.marksEarly k c p).1 := by
  unfold Dev.marksEarly
  split
  · exact .refl _
  · exact (Dev.ballotsOf_earlyMark _ _ _).trans (Dev.ballotsOf_passDies _ (_, _))

theorem Dev.ballotsOf_runSettled (p : Dev × SweepRun) : p.1.ballotsOf (Dev.runSettled p) := by
  unfold Dev.runSettled
  split
  · exact Dev.ballotsOf.trans (b := p.1.workDone p.2.cmd) (Dev.ballotsOf_updCmd _ _ _) (.of_jobs rfl)
  · exact .of_jobs rfl

theorem Dev.ballotsOf_advanceRun (d : Dev) (run : SweepRun) : d.ballotsOf (d.advanceRun run) := by
  unfold Dev.advanceRun
  split
  · exact .of_jobs rfl
  · next c _ =>
    have hp := Dev.ballotsOf_passDies run.cmd (d, run)
    unfold Dev.passDies Dev.passDie at hp
    dsimp only at hp ⊢
    generalize (List.range 8).foldl _ (d, run) = p at hp ⊢
    refine hp.trans ((Dev.ballotsOf_marksEarly run.cmd c p).trans ?_)
    exact Dev.ballotsOf_runSettled (Dev.marksEarly run.cmd c p)

theorem Dev.ballotsOf_settleSweeps (d : Dev) : d.ballotsOf d.settleSweeps :=
  Dev.ballotsOf_foldl (fun e _ => e.ballotsOf_advanceRun _) _ d

theorem Dev.ballotsOf_serveLocal (d : Dev) (k j n : Nat) (v : Version) : d.ballotsOf (d.serveLocal k j n v) := by
  unfold Dev.serveLocal
  dsimp only
  split
  · exact (d.ballotsOf_cmdFault _ _ _).trans (Dev.ballotsOf_updCmd _ _ _)
  · have h : d.ballotsOf (((d.cmdPoison k (d.jbad j v.va (gaBytes n))).jwr j (gaDst n)
        ((d.cmdPoison k (d.jbad j v.va (gaBytes n))).jrd j v.va (gaBytes n))).jwr j (gaStampVa n)
        (leBytes 16 (v.step % 2 ^ 32 * 2 ^ 64 + v.stamp))) :=
      ((d.ballotsOf_cmdPoison _ _).trans (Dev.ballotsOf_jwr _ _ _ _)).trans (Dev.ballotsOf_jwr _ _ _ _)
    exact h.trans (.ite (Dev.ballotsOf_updCmd _ _ _) ((Dev.ballotsOf_bump _ _).trans (Dev.ballotsOf_workEnds _ _ _ _)))

theorem Dev.ballotsOf_gatherLocal (d : Dev) (k j n s : Nat) : d.ballotsOf (d.gatherLocal k j n s) := by
  unfold Dev.gatherLocal
  dsimp only
  split
  · exact (d.ballotsOf_serveLocal _ _ _ _).trans (.of_jobs rfl)
  · exact .ite (.refl d) (.of_jobs rfl)

theorem Dev.ballotsOf_settleGathers (d : Dev) : d.ballotsOf d.settleGathers := by
  refine Dev.ballotsOf_foldl (fun e g => ?_) _ d
  split
  · exact e.ballotsOf_gatherLocal _ _ _ _
  · exact .of_jobs rfl

/-- What follows from a command leaves the jobs' ballots. -/
theorem Dev.ballotsOf_settle (d : Dev) : d.ballotsOf d.settle := by
  have hall : d.ballotsOf d.settleFirm.settleSlots.settleRed.settleSweeps.settleGathers :=
    (((d.ballotsOf_settleFirm.trans (Dev.ballotsOf_settleSlots _)).trans (Dev.ballotsOf_settleRed _)).trans
      (Dev.ballotsOf_settleSweeps _)).trans (Dev.ballotsOf_settleGathers _)
  unfold Dev.settle
  split
  · exact .of_jobs d.pinsNow_jobs
  · dsimp only
    generalize d.settleFirm.settleSlots.settleRed.settleSweeps.settleGathers = e at hall ⊢
    exact hall.trans (.of_jobs rfl)

end Sys2Proof.Machine
end

section
/-! SUPPORT. Obligation O36: a count of a job beyond the sixteenth that stands in RED_VOTE_ROOT of another. -/

namespace Sys2Proof.Machine

/-- A page of 64 KiB at job address 0, at the start of tier 2. -/
def normsPage : Page := { va := 0, size := 0x10000, pa := t2Base, writable := true, enc := false, migrate := false, alloc := 0 }

/-- A REDUCE with a vote for step 6, of command 0, whose close by count comes at its deadline 0. -/
def votingRun : RedStep :=
  { cmd := 0, step := 6, byCount := true, vote := true, expect := 1, slot := 0, off := 0, deadline := 0, start := 0 }

/-- Job 3 reduces one shard, with its norms table at job address 0. -/
def reducingJob : Job :=
  { Job.empty with st := .running, pages := [normsPage], red := { RedJob.empty with shards := [(0, 0)], runs := [votingRun] } }

/-- A job whose expert table of one record lies on the same page. -/
def placingJob : Job := { Job.empty with st := .running, pages := [normsPage], nmu := some (0, 1) }

def reducingCmd : Cmd := { newCmd 3 0 0 0 with st := .running }

/-- The device holds both, the second as job 7,299, of which NMU_PLACE_FLIP has the number of job 3's RED_VOTE_ROOT. -/
def sharedTableDev : Dev :=
  { Dev.reset with jobs := [(3, reducingJob), (7299, placingJob)], cmds := [(0, reducingCmd)] }

/-- Job 3 is its own root, and its REDUCE has a close. -/
theorem sharedTable_root : sharedTableDev.closeOf votingRun 3 = some 0
    ∧ sharedTableDev.member 3 = sharedTableDev.voteRoot 3 := by decide +kernel

/-- Its norms record gives the other job's expert record a new PLACE: once that is counted job 3 is not the root any more, and
sends its ballot elsewhere. -/
theorem sharedTable_noVote :
    Tbl.find? ((execReduceCloseD 0 sharedTableDev).job 3).red.votes 6 = none := by decide +kernel

theorem exec_reduceClose (k : Nat) (s : State) : exec (.reduceClose k) s = lift (execReduceCloseD k) s := rfl

/-- A command's own effect shows only once what follows from it is done, but the ballots show as the effect left them. -/
theorem Acts.ballots {i : Instr} {d : Dev} {P : Dev → Prop} {f : Dev → Dev} (h : Acts i { pending := [], dev := d } P)
    (hi : ∀ s, exec i s = lift f s) : ∃ e, P e ∧ (f d).ballotsOf e := by
  obtain ⟨e, he, hp⟩ := h
  have hdev : (f d).settle = e.settle := by
    rw [hi] at he
    exact congrArg State.dev (Host.Outcome.next.inj he)
  refine ⟨e, hp, fun j => ?_⟩
  rw [← e.ballotsOf_settle j, ← hdev, (f d).ballotsOf_settle j]

/-- Refutes O36: the root that a REDUCE finds as it begins to close need not be the root when its vote is entered. The statement
speaks of every device, also of one that holds a job of number 7,299, though no well-formed instruction names a job beyond the
sixteenth; and NMU_PLACE_FLIP of that job (R259) is the same Catalogue value as RED_VOTE_ROOT of job 3. Where job 3's norms table
shares memory with the other job's expert table, the norms record that the close writes is counted there, and job 3, which is the
root no more, holds no vote for its step. -/
theorem not_reductionCloseVoteAndResult : ¬ Obligations.ReductionCloseVoteAndResult := by
  rintro ⟨hclose, -, -⟩
  have hacts := hclose { pending := [], dev := sharedTableDev } 0 0 reducingCmd votingRun rfl rfl rfl sharedTable_root.1
  obtain ⟨e, ⟨-, -, -, -, hroot, -⟩, hballots⟩ := hacts.ballots (exec_reduceClose 0)
  obtain ⟨v, hv, -⟩ := hroot rfl sharedTable_root.2
  have hsome : Tbl.find? (e.job 3).red.votes 6 = some v := hv
  rw [hballots 3, sharedTable_noVote] at hsome
  cases hsome

end Sys2Proof.Machine
end

section
/-! SUPPORT. The checks of a Maelgo packet in their order (R329, R331, R338, R346), one lemma for each way that they end. -/

namespace Sys2Proof.Machine

/-! ### Steps 1 to 3: the port, the form, the connection and its context -/

section
variable {op : Nat} {p : Pkt} {act : Dev → Dev} {d : Dev} {x : Conn}

theorem Dev.rx_down (h : (d.advance p.at_).netUp p.port = false) : Dev.rx op p act d = d.advance p.at_ :=
  if_pos (by rw [h]; rfl)

theorem Dev.rx_malformed (hup : (d.advance p.at_).netUp p.port = true) (h : (d.advance p.at_).malformed op p = true) :
    Dev.rx op p act d = (d.advance p.at_).bump Cat.NET_RX_MALFORMED :=
  (if_neg (by rw [hup]; decide)).trans (if_pos h)

/-- A well-formed packet on a port that is up looks for its connection. -/
theorem Dev.rx_formed (hup : (d.advance p.at_).netUp p.port = true) (hform : (d.advance p.at_).malformed op p = false) :
    Dev.rx op p act d = match (d.advance p.at_).conn? p.conn with
      | none => (d.advance p.at_).bump Cat.NET_RX_NO_CONN
      | some x =>
        if x.st = .pending then (d.advance p.at_).bump Cat.NET_RX_NO_CONN
        else if x.residence ≠ 0 then (d.advance p.at_).holdPkt op p
        else act (d.advance p.at_) :=
  (if_neg (by rw [hup]; decide)).trans ((if_neg (by rw [hform]; decide)).trans rfl)

theorem Dev.rx_noConn (hup : (d.advance p.at_).netUp p.port = true) (hform : (d.advance p.at_).malformed op p = false)
    (h : ∀ x, (d.advance p.at_).conn? p.conn = some x → x.st = .pending) :
    Dev.rx op p act d = (d.advance p.at_).bump Cat.NET_RX_NO_CONN := by
  rw [Dev.rx_formed hup hform]
  cases hx : (d.advance p.at_).conn? p.conn with
  | none => rfl
  | some x => exact if_pos (h x hx)

theorem Dev.rx_held (hup : (d.advance p.at_).netUp p.port = true) (hform : (d.advance p.at_).malformed op p = false)
    (hx : (d.advance p.at_).conn? p.conn = some x) (hst : x.st ≠ .pending) (h : x.residence ≠ 0) :
    Dev.rx op p act d = (d.advance p.at_).holdPkt op p := by
  rw [Dev.rx_formed hup hform, hx]
  exact (if_neg hst).trans (if_pos h)

theorem Dev.rx_arrives (h : Arrives (d.advance p.at_) op p x) : Dev.rx op p act d = act (d.advance p.at_) := by
  obtain ⟨hup, hform, hx, hst, hres⟩ := h
  rw [Dev.rx_formed hup hform, hx]
  exact (if_neg hst).trans (if_neg (not_not.mpr hres))

end

/-! ### Steps 4 to 10: the connection's state, the tenant, the numbers, the region, the sink, the tag -/

section
variable {op : Nat} {p : Pkt} {region : Dev → Conn → Option Deny} {sink : Dev → Conn → Bool}
  {bad act : Dev → Conn → Dev} {d : Dev} {x : Conn} (hx : d.conn? p.conn = some x)
include hx

theorem Dev.rxAct_error (h : x.st = .error) : Dev.rxAct op p region sink bad act d
    = (if x.taintTie op p then d.bump Cat.TIE_LATE_STAMP else d).denyPkt op p x ⟨5, none⟩ false true := by
  rw [Dev.rxAct, hx]
  exact if_pos h

theorem Dev.rxAct_tenant (hst : x.st ≠ .error) (h : p.tenant ≠ (d.job x.job).tenant) :
    Dev.rxAct op p region sink bad act d = d.denyPkt op p x ⟨4, some Cat.NET_RX_TENANT_MISMATCH⟩ false false := by
  rw [Dev.rxAct, hx]
  exact (if_neg hst).trans (if_pos h)

section
variable (hst : x.st ≠ .error) (hten : p.tenant = (d.job x.job).tenant)
include hst hten

/-- A packet of a connection that works and of its tenant comes to the checks of its numbers. -/
theorem Dev.rxAct_numbered : Dev.rxAct op p region sink bad act d =
    if x.replayed p.pn then d.bump Cat.NET_RX_REPLAY
    else if opSequenced op && ((p.seq - x.cumRx).msb || x.got.contains p.seq) then d.duplicate p x
    else if opSequenced op && 1024 ≤ (p.seq - x.cumRx).toNat then d.denyPkt op p x ⟨6, none⟩ false false
    else
      match region d x with
      | some r => d.denyPkt op p x r true false
      | none =>
        if sink d x then d.mac p.port Cat.RX_FULL_DROP
        else if x.tagOk p then act (d.verified p) x
        else bad (d.bump Cat.NET_TAG_FAIL) x := by
  rw [Dev.rxAct, hx]
  exact (if_neg hst).trans ((if_neg (not_not.mpr hten)).trans rfl)

theorem Dev.rxAct_replay (h : x.replayed p.pn = true) :
    Dev.rxAct op p region sink bad act d = d.bump Cat.NET_RX_REPLAY :=
  (Dev.rxAct_numbered hx hst hten).trans (if_pos h)

theorem Dev.rxAct_duplicate (hnew : x.replayed p.pn = false) (hop : opSequenced op = true)
    (h : (p.seq - x.cumRx).msb = true ∨ p.seq ∈ x.got) : Dev.rxAct op p region sink bad act d = d.duplicate p x := by
  rw [Dev.rxAct_numbered hx hst hten, if_neg (by rw [hnew]; decide), if_pos (by simpa [hop] using h)]

theorem Dev.rxAct_beyond (hnew : x.replayed p.pn = false) (hop : opSequenced op = true)
    (hmsb : (p.seq - x.cumRx).msb = false) (hgot : p.seq ∉ x.got) (h : 1024 ≤ (p.seq - x.cumRx).toNat) :
    Dev.rxAct op p region sink bad act d = d.denyPkt op p x ⟨6, none⟩ false false := by
  rw [Dev.rxAct_numbered hx hst hten, if_neg (by rw [hnew]; decide), if_neg (by simp [hmsb, hgot]),
    if_pos (by rw [hop, decide_eq_true h]; rfl)]

end

/-- A fresh packet whose region check finds nothing comes to its sink and its tag. -/
theorem Dev.rxAct_fresh (hf : Fresh d op p x) (hr : region d x = none) : Dev.rxAct op p region sink bad act d =
    if sink d x then d.mac p.port Cat.RX_FULL_DROP
    else if x.tagOk p then act (d.verified p) x
    else bad (d.bump Cat.NET_TAG_FAIL) x := by
  obtain ⟨hst, hten, hnew, hseq⟩ := hf
  have hdup : ¬ (opSequenced op && ((p.seq - x.cumRx).msb || x.got.contains p.seq)) = true := by
    intro hn
    obtain ⟨hop, h⟩ := Bool.and_eq_true_iff.mp hn
    obtain ⟨hmsb, hgot, -⟩ := hseq hop
    simp [hmsb, hgot] at h
  have hin : ¬ (opSequenced op && 1024 ≤ (p.seq - x.cumRx).toNat) = true := by
    intro hn
    obtain ⟨hop, h⟩ := Bool.and_eq_true_iff.mp hn
    obtain ⟨-, -, hlt⟩ := hseq hop
    exact absurd (of_decide_eq_true h) (by omega)
  rw [Dev.rxAct_numbered hx hst hten, if_neg (by rw [hnew]; decide), if_neg hdup, if_neg hin, hr]

theorem Dev.rxAct_full (hf : Fresh d op p x) (hr : region d x = none) (hs : sink d x = true) :
    Dev.rxAct op p region sink bad act d = d.mac p.port Cat.RX_FULL_DROP :=
  (Dev.rxAct_fresh hx hf hr).trans (if_pos hs)

theorem Dev.rxAct_acts (hf : Fresh d op p x) (hr : region d x = none) (hs : sink d x = false) (ht : x.tagOk p = true) :
    Dev.rxAct op p region sink bad act d = act (d.verified p) x :=
  (Dev.rxAct_fresh hx hf hr).trans ((if_neg (by rw [hs]; decide)).trans (if_pos ht))

end

/-! ### Packet commands -/

theorem Dev.packet_other {op : Nat} {p : Pkt} (d : Dev) (h : p.op ≠ op) : Dev.packet op p d = d.advance p.at_ := if_neg h

theorem Dev.packet_same {op : Nat} {p : Pkt} (d : Dev) (h : p.op = op) : Dev.packet op p d = Dev.rx op p (Dev.netAct op p) d :=
  if_pos h

theorem Dev.packet_arrives {op : Nat} {p : Pkt} {d : Dev} {x : Conn} (h : p.op = op) (ha : Arrives (d.advance p.at_) op p x) :
    Dev.packet op p d = Dev.netAct op p (d.advance p.at_) := (d.packet_same h).trans (Dev.rx_arrives ha)

/-- A packet of op `op` is checked so: its region, its sink, what a failed tag leaves, and its action. -/
def ChecksBy (op : Nat) (region : Dev → Pkt → Conn → Option Deny) (sink : Dev → Pkt → Conn → Bool)
    (bad act : Pkt → Dev → Conn → Dev) : Prop :=
  ∀ p, Dev.netAct op p = Dev.rxAct op p (fun d x => region d p x) (fun d x => sink d p x) (bad p) (act p)

/-- A packet command whose op is checked in this way does what the statement says of its action on the device on which the
packet is verified. -/
theorem PacketOp.of {mk : Pkt → Instr} {op : Nat} {region : Dev → Pkt → Conn → Option Deny}
    {sink : Dev → Pkt → Conn → Bool} {bad act : Pkt → Dev → Conn → Dev} {P : Dev → Dev → Pkt → Conn → Prop}
    (he : ∀ p s, exec (mk p) s = lift (Dev.packet op p) s) (hc : ChecksBy op region sink bad act)
    (hp : ∀ d p x, sink d p x = false → P (d.verified p) (act p (d.verified p) x) p x) : PacketOp mk op region sink P := by
  intro s p x d hop ha hf hr
  have hx : d.conn? p.conn = some x := ha.2.2.1
  have hn : Dev.packet op p s.dev = _ := (Dev.packet_arrives hop ha).trans (congrFun (hc p) d)
  exact ⟨fun hs => Acts.of_eq (he p s) (hn.trans (Dev.rxAct_full hx hf hr hs)) rfl,
    fun hs ht => Acts.of_eq (he p s) (hn.trans (Dev.rxAct_acts hx hf hr hs ht)) (hp d p x hs)⟩

/-- The same of a command that takes only some packets of the op, which are never short of room. -/
theorem PacketOp.of_kind {mk : Pkt → Instr} {op : Nat} {region : Dev → Pkt → Conn → Option Deny} {f : Pkt → Dev → Dev}
    {bad act : Pkt → Dev → Conn → Dev} {kind : Pkt → Prop} {P : Dev → Dev → Pkt → Conn → Prop}
    (he : ∀ p s, exec (mk p) s = lift (f p) s) (hf : ∀ p d, kind p → f p d = Dev.packet op p d)
    (hc : ChecksBy op region (fun _ _ _ => false) bad act)
    (hp : ∀ (d : Dev) p x, kind p → P (d.verified p) (act p (d.verified p) x) p x) :
    PacketOp mk op region (fun _ _ _ => false) (fun d e p x => kind p → P d e p x) := by
  intro s p x d hop ha hfresh hr
  refine ⟨fun hs => absurd hs Bool.false_ne_true, fun hs ht => ?_⟩
  by_cases hk : kind p
  · have hn : f p s.dev = _ := ((hf p s.dev hk).trans (Dev.packet_arrives hop ha)).trans (congrFun (hc p) d)
    exact Acts.of_eq (he p s) (hn.trans (Dev.rxAct_acts ha.2.2.1 hfresh hr hs ht)) fun _ => hp d p x hk
  · exact Acts.of_eq (he p s) rfl fun h => absurd h hk

/-- What comes of a packet that does not come to its region check. -/
def Refuses (mk : Pkt → Instr) (op : Nat) : Prop :=
  ∀ (s : State) (p : Pkt), let d := s.dev.advance p.at_
    let ok : Prop := p.op = op ∧ d.netUp p.port = true ∧ d.malformed op p = false
    (p.op ≠ op ∨ d.netUp p.port = false → Acts (mk p) s fun e => e = d)
      ∧ (p.op = op → d.netUp p.port = true → d.malformed op p = true →
          Acts (mk p) s fun e => e = d.bump Cat.NET_RX_MALFORMED)
      ∧ (ok → (∀ x, d.conn? p.conn = some x → x.st = .pending) → Acts (mk p) s fun e => e = d.bump Cat.NET_RX_NO_CONN)
      ∧ (∀ x, ok → d.conn? p.conn = some x → x.st ≠ .pending → x.residence ≠ 0 →
          Acts (mk p) s fun e => e = d.holdPkt op p)
      ∧ ∀ x, p.op = op → Arrives d op p x →
          (x.st = .error → Acts (mk p) s fun e =>
              e = (if x.taintTie op p = true then d.bump Cat.TIE_LATE_STAMP else d).denyPkt op p x ⟨5, none⟩ false true)
            ∧ (x.st ≠ .error → p.tenant ≠ (d.job x.job).tenant → Acts (mk p) s fun e =>
                e = d.denyPkt op p x ⟨4, some Cat.NET_RX_TENANT_MISMATCH⟩ false false)
            ∧ (x.st ≠ .error → p.tenant = (d.job x.job).tenant →
                (x.replayed p.pn = true → Acts (mk p) s fun e => e = d.bump Cat.NET_RX_REPLAY)
                  ∧ (x.replayed p.pn = false → opSequenced op = true →
                      ((p.seq - x.cumRx).msb = true ∨ p.seq ∈ x.got → Acts (mk p) s fun e => e = d.duplicate p x)
                        ∧ ((p.seq - x.cumRx).msb = false → p.seq ∉ x.got → 1024 ≤ (p.seq - x.cumRx).toNat →
                            Acts (mk p) s fun e => e = d.denyPkt op p x ⟨6, none⟩ false false)))

theorem Refuses.of {mk : Pkt → Instr} {op : Nat} {region : Dev → Pkt → Conn → Option Deny}
    {sink : Dev → Pkt → Conn → Bool} {bad act : Pkt → Dev → Conn → Dev} (he : ∀ p s, exec (mk p) s = lift (Dev.packet op p) s)
    (hc : ChecksBy op region sink bad act) : Refuses mk op := by
  intro s p d ok
  have hend {e : Dev} (h : Dev.packet op p s.dev = e) : Acts (mk p) s (· = e) := Acts.of_eq (he p s) h rfl
  refine ⟨fun h => ?_, fun hop hup hbad => ?_, fun ⟨hop, hup, hform⟩ h => ?_, fun x ⟨hop, hup, hform⟩ hx hst hres => ?_,
    fun x hop ha => ?_⟩
  · by_cases hop : p.op = op
    · exact hend ((Dev.packet_same _ hop).trans (Dev.rx_down (h.resolve_left (not_not.mpr hop))))
    · exact hend (Dev.packet_other _ hop)
  · exact hend ((Dev.packet_same _ hop).trans (Dev.rx_malformed hup hbad))
  · exact hend ((Dev.packet_same _ hop).trans (Dev.rx_noConn hup hform h))
  · exact hend ((Dev.packet_same _ hop).trans (Dev.rx_held hup hform hx hst hres))
  · have hx : d.conn? p.conn = some x := ha.2.2.1
    have hchecks {e : Dev} (h : Dev.rxAct op p (fun d x => region d p x) (fun d x => sink d p x) (bad p) (act p) d = e) :
        Acts (mk p) s (· = e) := hend (((Dev.packet_arrives hop ha).trans (congrFun (hc p) d)).trans h)
    exact ⟨fun hst => hchecks (Dev.rxAct_error hx hst), fun hst hten => hchecks (Dev.rxAct_tenant hx hst hten),
      fun hst hten => ⟨fun h => hchecks (Dev.rxAct_replay hx hst hten h), fun hnew hseq =>
        ⟨fun h => hchecks (Dev.rxAct_duplicate hx hst hten hnew hseq h),
          fun hmsb hgot h => hchecks (Dev.rxAct_beyond hx hst hten hnew hseq hmsb hgot h)⟩⟩⟩

end Sys2Proof.Machine
end

section
/-! SUPPORT. What a verified packet does, op by op (R347 to R352, R355, R360, R369, R373), and obligation O57. -/

namespace Sys2Proof.Machine

/-! ### Taints and seals (R348, R350) -/

@[simp] theorem Conn.clearTaints_seals (x : Conn) (hold region off len stamp : Nat) :
    (x.clearTaints hold region off len stamp).seals = x.seals := by
  rw [Conn.clearTaints]
  exact (apply_ite Conn.seals _ _ _).trans (ite_self _)

/-- A range received after the deadline of a seal that waits for the taints clears none, any other those that it covers. -/
theorem Conn.clearTaints_spec (x : Conn) (hold region off len stamp : Nat) :
    let after (p : Nat → Prop) : Prop := ∃ t, x.taintDeadline hold = some t ∧ p t
    let covers (t : Taint) : Bool := t.region = region && off ≤ t.offset && t.offset + t.len ≤ off + len
    (after (· < stamp) → x.clearTaints hold region off len stamp = x)
      ∧ (¬ after (· < stamp) →
          x.clearTaints hold region off len stamp = { x with taints := x.taints.filter (!covers ·) }) := by
  intro after covers
  cases ht : x.taintDeadline hold with
  | none =>
    refine ⟨fun ⟨t, h, _⟩ => ?_, fun _ => ?_⟩
    · rw [ht] at h; cases h
    · rw [Conn.clearTaints, ht]; rfl
  | some t =>
    refine ⟨fun ⟨t', h, hlt⟩ => ?_, fun hn => ?_⟩
    · obtain rfl : t = t' := Option.some.inj (ht.symm.trans h)
      rw [Conn.clearTaints, ht]
      exact if_pos (decide_eq_true hlt)
    · have hge : ¬ t < stamp := fun h => hn ⟨t, ht, h⟩
      rw [Conn.clearTaints, ht]
      exact if_neg (by simpa using hge)

/-- The seal that a packet brings. -/
def Conn.sealOf (x : Conn) (p : Pkt) : WaitSeal :=
  { seq := p.seq, at_ := p.at_, region := p.region, offset := fld p.ext 64 64, payload := x.plain p }

/-- The device on which that seal waits: its range has cleared its taints, and the packet is received. -/
def Dev.sealTaken (d : Dev) (p : Pkt) (x : Conn) : Dev :=
  (d.updConn p.conn fun y => { d.clearBy p y with seals := y.seals ++ [x.sealOf p] }).received p

theorem Dev.sealTaken_eq (d : Dev) (p : Pkt) (x : Conn) : d.sealTaken p x = (d.updConn p.conn fun y =>
    { y.clearTaints (d.cget Cat.NET_TAINT_HOLD) p.region (fld p.ext 64 64) p.len p.at_ with
      seals := (y.clearTaints (d.cget Cat.NET_TAINT_HOLD) p.region (fld p.ext 64 64) p.len p.at_).seals
        ++ [x.sealOf p] }).received p := by
  simp only [Conn.clearTaints_seals]
  rfl

/-- A seal that waits in a region whose revocation has settled lands or is stranded at once (R353). -/
def Dev.sealWaits (t : Dev) (p : Pkt) (w : WaitSeal) : Dev :=
  match t.conn? p.conn with
  | some y =>
    if (t.netRegion (p.region % 2 ^ 16)).settled then
      if y.frontSeal = some w && y.taints.isEmpty then t.landSeal p.conn w else t.strandSeal p.conn w
    else t
  | none => t

theorem Dev.sealWaits_unsettled {t : Dev} {p : Pkt} (w : WaitSeal) (h : (t.netRegion (p.region % 2 ^ 16)).settled = false) :
    t.sealWaits p w = t := by
  unfold Dev.sealWaits
  rw [h]
  split <;> rfl

theorem Dev.sealWaits_settled {t : Dev} {p : Pkt} (w : WaitSeal) {y : Conn}
    (h : (t.netRegion (p.region % 2 ^ 16)).settled = true) (hy : t.conn? p.conn = some y) :
    t.sealWaits p w = if y.frontSeal = some w ∧ y.taints = [] then t.landSeal p.conn w else t.strandSeal p.conn w := by
  unfold Dev.sealWaits
  rw [hy, h]
  simp only [if_true, Bool.and_eq_true, decide_eq_true_eq, List.isEmpty_iff]

/-- What a verified seal does. -/
def sealAct (p : Pkt) (d : Dev) (x : Conn) : Dev :=
  if 1024 ≤ d.sealsWaiting then d.bump Cat.NET_SEAL_WAIT_FULL else (d.sealTaken p x).sealWaits p (x.sealOf p)

theorem sealAct_waits {p : Pkt} {d : Dev} {x : Conn} (h : d.sealsWaiting < 1024) :
    sealAct p d x = (d.sealTaken p x).sealWaits p (x.sealOf p) := if_neg (not_le.mpr h)

theorem checksBy_seal : ChecksBy 2 writeRegion (fun _ _ _ => false) (tagNack 2) sealAct :=
  fun p => show Dev.actSeal p = _ from rfl

/-! ### Writes, reads, acknowledgements, contributions, messages -/

theorem checksBy_write : ChecksBy 1 writeRegion
    (fun d p x => d.stalledIn x.job ((d.netRegion (p.region % 2 ^ 16)).va + fld p.ext 64 64) p.len) writeBad
    fun p d x =>
      ((d.land x.job (d.writeVa p) (x.plain p)).updConn p.conn ((d.land x.job (d.writeVa p) (x.plain p)).clearBy p)).received p :=
  fun p => show Dev.actWrite p = _ from rfl

/-- A verified READ_REQ. -/
def readReqAct (p : Pkt) (d : Dev) (x : Conn) : Dev :=
  if bit p.ext 127 then
    match d.decideVersion p x true with
    | some d => d
    | none =>
      if 64 ≤ d.net.versions.length then d.nackBusy p 100
      else
        { d.received p with net := { (d.received p).net with
          versions := (d.received p).net.versions ++ [{ op := 3, pkt := p, at_ := (d.received p).now }] } }
  else
    (d.received p).sendReads p.conn x.job ((d.netRegion (p.region % 2 ^ 16)).va + fld p.ext 192 64) (fld p.ext 160 32)
      (fld p.ext 160 32) p.seq none

theorem checksBy_readReq : ChecksBy 3 (fun d p x => d.regionDeny p.conn x p.region p.at_ (readOffset p) (readSpan p) false)
    (fun d p x => readSink p d x) (tagNack 3) readReqAct :=
  fun p => show Dev.actReadReq p = _ from rfl

section
variable {p : Pkt} {d : Dev} {x : Conn}

theorem readReqAct_plain (h : bit p.ext 127 = false) : readReqAct p d x = (d.received p).sendReads p.conn x.job
    ((d.netRegion (p.region % 2 ^ 16)).va + fld p.ext 192 64) (fld p.ext 160 32) (fld p.ext 160 32) p.seq none :=
  if_neg (by rw [h]; decide)

theorem readReqAct_decided {f : Dev} (h : bit p.ext 127 = true) (hf : d.decideVersion p x true = some f) :
    readReqAct p d x = f := by
  rw [readReqAct, if_pos h, hf]

/-- A versioned read that is not decided is held, or with no place to hold it refused for now. -/
theorem readReqAct_undecided (h : bit p.ext 127 = true) (hn : d.decideVersion p x true = none) : readReqAct p d x =
    if 64 ≤ d.net.versions.length then d.nackBusy p 100
    else
      { d.received p with net := { (d.received p).net with
        versions := (d.received p).net.versions ++ [{ op := 3, pkt := p, at_ := (d.received p).now }] } } := by
  rw [readReqAct, if_pos h, hn]

end

theorem Dev.nackBusy_room {p : Pkt} (d : Dev) (retry : Nat) (h : p.full = false) :
    d.nackBusy p retry = d.sendNack p.conn p.seq 1 retry 0 0 false := if_neg (by rw [h]; decide)

/-- A verified READ_RESP that names an entry. -/
def Dev.readLanded (d : Dev) (p : Pkt) (x : Conn) (k : Nat) (r : ReadEntry) : Dev :=
  let d := d.land r.job (r.dst + fld p.ext 320 64) ((x.plain p).take (r.room - fld p.ext 320 64))
  let bad := (setBits 128 (fld p.ext 0 128)).map fun i =>
    match d.xlate r.job (r.dst + fld p.ext 320 64 + 64 * i) false with
    | some (pa, _) => pa / 64 * 64
    | none => 0
  let d := d.updCmd r.cmd fun c => c.drop bad
  let d := if r.versioned then d.noteVersion r (fld p.ext 224 32) (fld p.ext 256 64) else d
  let d := { d with net := { d.net with reads := Tbl.set d.net.reads k { r with
    missing := r.missing.filter fun n => !(respLines p).contains n } } }
  d.checkRead k

/-- A verified READ_RESP. -/
def readRespAct (p : Pkt) (d : Dev) (x : Conn) : Dev :=
  match d.readOf p with
  | none => d.bump Cat.NET_RX_STALE_RESP
  | some (k, r) => d.readLanded p x k r

theorem checksBy_readResp : ChecksBy 4 (fun _ _ _ => none) (fun d p x => readRespSink p d x) readRespBad readRespAct :=
  fun p => show Dev.actReadResp p = _ from rfl

theorem readRespAct_stale {p : Pkt} {d : Dev} {x : Conn} (h : d.readOf p = none) :
    readRespAct p d x = d.bump Cat.NET_RX_STALE_RESP := by
  rw [readRespAct, h]

theorem readRespAct_lands {p : Pkt} {d : Dev} {x : Conn} {k : Nat} {r : ReadEntry} (h : d.readOf p = some (k, r)) :
    readRespAct p d x = d.readLanded p x k r := by
  rw [readRespAct, h]

theorem checksBy_ack : ChecksBy 5 (fun _ _ _ => none) (fun _ _ _ => false) (fun _ d _ => d)
    fun p d _ => d.takeAck p.conn p.ext p.at_ :=
  fun p => show Dev.actAck p = _ from rfl

theorem checksBy_nack : ChecksBy 6 (fun _ _ _ => none) (fun _ _ _ => false) (fun _ d _ => d)
    fun p d _ => d.takeNack p.conn p.ext (bit p.flags.toNat 6) :=
  fun p => show Dev.actNack p = _ from rfl

/-- A verified CONTRIB of its member's connection. -/
def Dev.contribTaken (d : Dev) (p : Pkt) (x : Conn) : Dev :=
  let t := (d.takeContrib x.job (fld p.ext 240 16) p.step p.at_ (fld p.ext 208 32) (fld p.ext 196 4) (x.plain p)).bumpBy
    (Cat.NET_JOB_RX_BYTES x.job)
    (if (d.contribCase p x (Tbl.getD (d.job x.job).red.shards (fld p.ext 240 16) 0)).adds then p.len else 0)
  let r := (t.job x.job).red
  (if bit p.ext 200 then t.setRed x.job { r with finals := r.finals ++ [(p.step, fld p.ext 201 7, p.conn, p.seq)] }
    else t).received p

theorem checksBy_contrib : ChecksBy 7 (fun d p x => d.contribDeny p x) (fun d p x => contribSink p d x) (tagNack 7)
    fun p d x => if d.memberConn x.job (fld p.ext 201 7) ≠ some p.conn then
      (d.bump (Cat.RED_MEMBER_MISMATCH x.job)).received p else d.contribTaken p x :=
  fun p => show Dev.actContrib p = _ from rfl

/-- A verified MGMT packet, once it is received as `d`. -/
def Dev.mgmtTaken (d : Dev) (p : Pkt) (x : Conn) : Dev :=
  if x.st ≠ .open_ then d
  else if 1048576 < fld p.ext 32 32 then
    if fld p.ext 64 32 = 0 then
      (d.updConn p.conn fun x => { x with mgmtPart := some (fld p.ext 0 32, []) }).answerTooLong (.mgmt p.conn) p.at_ (x.plain p)
    else d
  else
    d.updConn p.conn fun y => { y with mgmtPart :=
      (joinFragment x.mgmtPart (fld p.ext 0 32) (fld p.ext 64 32) (fld p.ext 32 32) (bit p.ext 125) (x.plain p)).1 }

theorem checksBy_mgmt : ChecksBy 10 (fun _ _ _ => none) (fun _ _ _ => false) (tagNack 10)
    fun p d x => (d.received p).mgmtTaken p x :=
  fun p => show Dev.actMgmt p = _ from rfl

/-! ### Ballots, results, pace notices (R369, R373) -/

theorem Dev.onBallot_spec (p : Pkt) (d : Dev) (x : Conn) : let h := voteHead p.ext; let j := x.job
    let counts : Prop := d.member j = d.voteRoot j ∧ h.kind = 0 ∧ d.memberConn j h.member = some p.conn
      ∧ d.voteFits j h = true
    (counts → d.onBallot p x = (d.takeBallot j p.step h ((elemsOf 4 (x.plain p)).take h.norms) p.at_).received p)
      ∧ (¬ counts → d.onBallot p x = d.received p) := by
  intro h j counts
  have hb : (d.member j = d.voteRoot j && h.kind = 0 && d.memberConn j h.member = some p.conn && d.voteFits j h) = true
      ↔ counts := by
    simp only [Bool.and_eq_true, decide_eq_true_eq, and_assoc, counts]
  exact ⟨fun hc => if_pos (hb.mpr hc), fun hc => if_neg (mt hb.mp hc)⟩

theorem Dev.onResult_spec (p : Pkt) (d : Dev) (x : Conn) : let h := voteHead p.ext; let j := x.job
    let counts : Prop := (h.member = d.voteRoot j ∨ h.member = d.voteDeputy j) ∧ d.memberConn j h.member = some p.conn
      ∧ d.voteFits j h = true
    let vals := (elemsOf 4 (x.plain p)).take h.norms
    (counts → d.onResult p x = ((d.forwardResult j p.step h vals).takeResult j p.step h vals).received p)
      ∧ (¬ counts → d.onResult p x = d.received p) := by
  intro h j counts vals
  have hb : ((h.member = d.voteRoot j || h.member = d.voteDeputy j) && d.memberConn j h.member = some p.conn
      && d.voteFits j h) = true
      ↔ counts := by
    simp only [Bool.and_eq_true, Bool.or_eq_true, decide_eq_true_eq, and_assoc, counts]
  exact ⟨fun hc => if_pos (hb.mpr hc), fun hc => if_neg (mt hb.mp hc)⟩

theorem checksBy_vote : ChecksBy 8 (fun _ _ _ => none) (fun _ _ _ => false) (tagNack 8)
    fun p d x => if fld p.ext 254 2 = 1 then d.onResult p x else d.onBallot p x :=
  fun p => show Dev.actVote p = _ from rfl

/-- A verified pace notice. -/
def paceAct (p : Pkt) (d : Dev) (x : Conn) : Dev :=
  if (d.paceConns x.job).contains p.conn && x.job = d.anchor && d.tt.st = .running && fld p.ext 166 3 ≤ 1
      && (p.step = d.tt.step || p.step + 1 = d.tt.step) then
    ({ d with tt := { d.tt with paceLag := max d.tt.paceLag (fld p.ext 192 64) } }).bump (Cat.PACE_APPLIED x.job)
  else d.bump (Cat.PACE_IGNORED x.job)

theorem paceAct_spec (p : Pkt) (d : Dev) (x : Conn) :
    let applies : Prop := p.conn ∈ d.paceConns x.job ∧ x.job = d.anchor ∧ d.tt.st = .running ∧ fld p.ext 166 3 ≤ 1
      ∧ (p.step = d.tt.step ∨ p.step + 1 = d.tt.step)
    (applies → paceAct p d x = ({ d with tt := { d.tt with paceLag := max d.tt.paceLag (fld p.ext 192 64) } } : Dev).bump
        (Cat.PACE_APPLIED x.job))
      ∧ (¬ applies → paceAct p d x = d.bump (Cat.PACE_IGNORED x.job)) := by
  intro applies
  have hb : ((d.paceConns x.job).contains p.conn && x.job = d.anchor && d.tt.st = .running && fld p.ext 166 3 ≤ 1
      && (p.step = d.tt.step || p.step + 1 = d.tt.step)) = true ↔ applies := by
    simp only [Bool.and_eq_true, Bool.or_eq_true, decide_eq_true_eq, List.contains_iff_mem, and_assoc, applies]
  exact ⟨fun h => if_pos (hb.mpr h), fun h => if_neg (mt hb.mp h)⟩

theorem checksBy_pace : ChecksBy 9 (fun _ _ _ => none) (fun _ _ _ => false) (fun _ d _ => d) paceAct :=
  fun p => show Dev.actPace p = _ from rfl

/-! ### TTSYNC (R355) -/

/-- What a TTSYNC says of its sender. -/
def Dev.ttPeerOf (d : Dev) (p : Pkt) : TtPeer :=
  { digest := fld p.ext 256 256, epoch := fld p.ext 192 64, firstStep := fld p.ext 96 32, curEpoch := fld p.ext 128 64,
    curStep := p.step, state := fld p.ext 80 8, stamp := (expandStamp d.now p.stamp).toNat }

/-- No TTSYNC with a later stamp has been heard on the packet's connection. -/
def Dev.ttNewer (d : Dev) (p : Pkt) (peer : TtPeer) : Bool :=
  match Tbl.find? d.tt.peers p.conn with | some y => decide (y.stamp ≤ peer.stamp) | none => true

theorem Dev.ttNewer_iff (d : Dev) (p : Pkt) (peer : TtPeer) :
    d.ttNewer p peer = true ↔ ¬ ∃ y, Tbl.find? d.tt.peers p.conn = some y ∧ peer.stamp < y.stamp := by
  unfold Dev.ttNewer
  cases Tbl.find? d.tt.peers p.conn <;> simp

/-- The peer's word, unless an older one had a later stamp. -/
def Dev.ttHeard (d : Dev) (p : Pkt) (peer : TtPeer) : Dev :=
  if d.ttNewer p peer then { d with tt := { d.tt with peers := Tbl.set d.tt.peers p.conn peer } } else d

/-- The answer that a TTSYNC may ask for. -/
def Dev.ttAnswered (d : Dev) (p : Pkt) : Dev := if bit p.ext 72 then d.sendTtsync p.conn false else d

/-- A verified TTSYNC, once it is counted. -/
def Dev.ttTaken (d : Dev) (p : Pkt) : Dev :=
  (if d.tt.st = .armed && d.ttConns.contains p.conn then
    (d.ttHeard p (d.ttPeerOf p)).bumpBy Cat.TT_DIGEST_MISMATCH (b2n !d.ttSame (d.ttPeerOf p))
  else d).ttAnswered p

theorem checksBy_ttsync : ChecksBy 11 (fun _ _ _ => none) (fun _ _ _ => false) (fun _ d _ => d)
    fun p d _ => (d.bump Cat.NET_TTSYNC_RX).ttTaken p :=
  fun p => show Dev.actTtsync p = _ from rfl

theorem Dev.ttTaken_heard {d : Dev} {p : Pkt} (hst : d.tt.st = .armed) (hc : p.conn ∈ d.ttConns) :
    d.ttTaken p = ((d.ttHeard p (d.ttPeerOf p)).bumpBy Cat.TT_DIGEST_MISMATCH
      (if d.ttSame (d.ttPeerOf p) = true then 0 else 1)).ttAnswered p := by
  have hb : b2n (!d.ttSame (d.ttPeerOf p)) = if d.ttSame (d.ttPeerOf p) = true then 0 else 1 := by
    cases d.ttSame (d.ttPeerOf p) <;> rfl
  rw [← hb]
  exact congrArg (Dev.ttAnswered · p) (if_pos (by simp [hst, hc]))

theorem Dev.ttTaken_other {d : Dev} {p : Pkt} (h : ¬ (d.tt.st = .armed ∧ p.conn ∈ d.ttConns)) : d.ttTaken p = d.ttAnswered p :=
  congrArg (Dev.ttAnswered · p) (if_neg (by simpa using h))

/-! ### The obligation -/

/-- Settles O57: the checks of R346 end in one of eight ways, each of which is one lemma for every op; what is left is what each
op's action does on the device on which its packet is verified. -/
theorem packetsActOnceVerified : Obligations.PacketsActOnceVerified := by
  refine ⟨PacketOp.of (fun _ _ => rfl) checksBy_write fun d p x _ => rfl, Conn.clearTaints_spec, ?sealWrite, ?readReq, ?readResp,
    PacketOp.of (fun _ _ => rfl) checksBy_ack fun d p x _ => rfl,
    PacketOp.of (fun _ _ => rfl) checksBy_nack fun d p x _ => rfl,
    PacketOp.of (fun _ _ => rfl) checksBy_contrib fun d p x _ => ⟨fun h => if_pos h, fun h => if_neg (not_not.mpr h)⟩,
    ⟨fun s p h => Acts.of_eq rfl (if_neg h) rfl, fun s p h => Acts.of_eq rfl (if_pos (not_not.mp h)) rfl, ?ballot, ?result⟩,
    PacketOp.of (fun _ _ => rfl) checksBy_pace fun d p x _ => paceAct_spec p _ x, ?mgmt, ?ttsync, ?refuses⟩
  case sealWrite =>
    refine PacketOp.of (fun _ _ => rfl) checksBy_seal fun d0 p x _ => ?_
    intro w t
    have ht : t = (d0.verified p).sealTaken p x := (Dev.sealTaken_eq _ p x).symm
    clear_value t
    subst ht
    exact ⟨fun hfull => if_pos hfull, fun hroom hset => (sealAct_waits hroom).trans (Dev.sealWaits_unsettled w hset),
      fun y hroom hset hy => (sealAct_waits hroom).trans (Dev.sealWaits_settled w hset hy)⟩
  case readReq =>
    refine PacketOp.of (fun _ _ => rfl) checksBy_readReq fun d p x hs => ?_
    have hfull : p.full = false := (Bool.or_eq_false_iff.mp hs).1
    exact ⟨readReqAct_plain, fun hver => ⟨fun f => readReqAct_decided hver, fun hn =>
      ⟨fun hmany => (readReqAct_undecided hver hn).trans ((if_pos hmany).trans (Dev.nackBusy_room _ 100 hfull)),
        fun hroom => (readReqAct_undecided hver hn).trans (if_neg (not_le.mpr hroom))⟩⟩⟩
  case readResp =>
    exact PacketOp.of (fun _ _ => rfl) checksBy_readResp fun d p x _ => ⟨readRespAct_stale, fun k r => readRespAct_lands⟩
  case ballot =>
    refine PacketOp.of_kind (f := execBallotD) (fun _ _ => rfl) (fun p d h => if_neg h) checksBy_vote fun d p x hk => ?_
    rw [if_neg hk]
    exact Dev.onBallot_spec p _ x
  case result =>
    refine PacketOp.of_kind (f := execVoteResultD) (fun _ _ => rfl) (fun p d h => if_pos (not_not.mp h)) checksBy_vote
      fun d p x hk => ?_
    rw [if_pos (not_not.mp hk)]
    exact Dev.onResult_spec p _ x
  case mgmt =>
    refine PacketOp.of (fun _ _ => rfl) checksBy_mgmt fun d p x _ => ?_
    exact ⟨fun h => if_pos h,
      fun h hlong hoff => (if_neg (not_not.mpr h)).trans ((if_pos hlong).trans (if_neg hoff)),
      fun h hlong hoff => (if_neg (not_not.mpr h)).trans ((if_pos hlong).trans (if_pos hoff)),
      fun h hfits => (if_neg (not_not.mpr h)).trans (if_neg (not_lt.mpr hfits))⟩
  case ttsync =>
    refine PacketOp.of (fun _ _ => rfl) checksBy_ttsync fun d0 p x _ => ?_
    generalize d0.verified p = d
    exact ⟨fun h => Dev.ttTaken_other h, fun ⟨hst, hc⟩ => ⟨(d.bump Cat.NET_TTSYNC_RX).ttHeard p (d.ttPeerOf p),
      fun h => if_neg fun hn => ((Dev.ttNewer_iff _ _ _).mp hn) h, fun h => if_pos ((Dev.ttNewer_iff _ _ _).mpr h),
      Dev.ttTaken_heard (d := d.bump Cat.NET_TTSYNC_RX) hst hc⟩⟩
  case refuses =>
    intro kinds
    have hall : ∀ k ∈ kinds, Refuses k.1 k.2 := by
      simp only [kinds, List.forall_mem_cons, List.not_mem_nil, false_imp_iff, implies_true, and_true]
      exact ⟨.of (fun _ _ => rfl) checksBy_write, .of (fun _ _ => rfl) checksBy_seal, .of (fun _ _ => rfl) checksBy_readReq,
        .of (fun _ _ => rfl) checksBy_readResp, .of (fun _ _ => rfl) checksBy_ack, .of (fun _ _ => rfl) checksBy_nack,
        .of (fun _ _ => rfl) checksBy_contrib, .of (fun _ _ => rfl) checksBy_pace, .of (fun _ _ => rfl) checksBy_mgmt,
        .of (fun _ _ => rfl) checksBy_ttsync⟩
    exact hall

end Sys2Proof.Machine
end

section
/-! SUPPORT. What a failed transfer, a connection that enters ERROR, and a packet that leaves, leave alone (R325, R335, R343):
regions, held packets, the connection's context, most counters, and what has left the device. -/

namespace Sys2Proof.Machine

/-! ### What has left the device stays recorded -/

/-- Whatever had left `d` has left `e`. -/
def Dev.saidOf (d e : Dev) : Prop := d.out ⊆ e.out

theorem Dev.saidOf.refl (d : Dev) : d.saidOf d := List.Subset.refl _
theorem Dev.saidOf.trans {a b c : Dev} (h : a.saidOf b) (k : b.saidOf c) : a.saidOf c := List.Subset.trans h k
theorem Dev.saidOf.of_out {d e : Dev} (h : e.out = d.out) : d.saidOf e := fun _ ho => h ▸ ho

theorem Dev.saidOf_emit (d : Dev) (o : Out) : d.saidOf (d.emit o) := List.subset_cons_self _ _
theorem Dev.saidOf_bump (d : Dev) (k : Nat) : d.saidOf (d.bump k) := .of_out (d.bump_out k)
theorem Dev.saidOf_bumpBy (d : Dev) (k n : Nat) : d.saidOf (d.bumpBy k n) := .of_out (d.bumpBy_out k n)

theorem Dev.saidOf_raiseMsix (d : Dev) (p v : Nat) : d.saidOf (d.raiseMsix p v) := by
  unfold Dev.raiseMsix
  dsimp only
  split
  · exact .of_out rfl
  · exact d.saidOf_emit _

theorem Dev.saidOf_hostErr (d : Dev) (p b : Nat) : d.saidOf (d.hostErr p b) := by
  unfold Dev.hostErr
  dsimp only
  split
  · exact .refl d
  · split
    · exact Dev.saidOf.trans (b := d.setHost p _) (.of_out rfl) (Dev.saidOf_raiseMsix _ _ _)
    · exact .of_out rfl

theorem Dev.saidOf_macBy (d : Dev) (p n k : Nat) : d.saidOf (d.macBy p n k) := by
  unfold Dev.macBy
  dsimp only
  split
  · exact .of_out rfl
  · split
    · exact Dev.saidOf.trans (b := (d.cset _ _).bset _ _) (.of_out rfl) (Dev.saidOf_raiseMsix _ _ _)
    · exact .of_out rfl

theorem Dev.saidOf_mac (d : Dev) (p n : Nat) : d.saidOf (d.mac p n) := d.saidOf_macBy p n 1

theorem Dev.saidOf_macSent (d : Dev) (p len cast : Nat) : d.saidOf (d.macSent p len cast) := by
  have h := (((d.saidOf_mac p Cat.TX_FRAMES_OK).trans (Dev.saidOf_macBy _ p Cat.TX_BYTES_OK len)).trans
    (Dev.saidOf_mac _ p (Cat.TX_SIZE0 + sizeClass len))).trans (Dev.saidOf_mac _ p (castCtr Cat.TX_UNICAST cast))
  unfold Dev.macSent
  dsimp only
  split
  · exact h.trans (Dev.saidOf_mac _ _ _)
  · exact h

theorem Dev.saidOf_wrRaw (d : Dev) (pa : Nat) (data : List Byte) : d.saidOf (d.wrRaw pa data) := by
  have hfour : d.saidOf (d.tier4Write pa data) := by
    unfold Dev.tier4Write
    cases paRoot pa <;> exact .of_out rfl
  have hown (i : Nat) : d.saidOf (if data.length = 64 then { (d.clearPoison (pa / 64)) with mem := memWrite d.mem pa data }
      else if d.isPoisoned (pa / 64) then d.bump (Cat.MEM_POISON_WRITE_DROP i)
      else { d with mem := memWrite d.mem pa data }) := by
    split
    · exact .of_out rfl
    · split
      · exact d.saidOf_bump _
      · exact .of_out rfl
  unfold Dev.wrRaw
  split
  · exact .refl d
  · split
    · exact (d.saidOf_bump _).trans (Dev.saidOf_hostErr _ _ _)
    · exact hfour
  · exact hown _
  · exact hown _
  · exact .of_out rfl

theorem Dev.saidOf_placeRecord (b d : Dev) (j hint rec_ pa : Nat) : d.saidOf (Dev.placeRecord b d j hint rec_ pa) := by
  unfold Dev.placeRecord
  dsimp only
  split
  · exact .of_out rfl
  · split
    · exact .of_out rfl
    · exact .of_out (Dev.bump_out _ _)

theorem Dev.saidOf_placeLine (b d : Dev) (pa n : Nat) : d.saidOf (Dev.placeLine b d pa n) := by
  unfold Dev.placeLine
  split
  · refine foldl_keeps d.saidOf _ (fun e kj he => ?_) _ d (.refl d)
    split
    · exact he
    · refine foldl_keeps d.saidOf _ (fun e r he => ?_) _ e he
      split
      · split
        · exact he.trans (Dev.saidOf_placeRecord _ _ _ _ _ _)
        · exact he
      · exact he
  · exact .refl d

theorem Dev.saidOf_wrLine (d : Dev) (pa : Nat) (data : List Byte) : d.saidOf (d.wrLine pa data) := by
  unfold Dev.wrLine
  dsimp only
  split
  · exact d.saidOf_wrRaw _ _
  · exact (d.saidOf_wrRaw _ _).trans (Dev.saidOf_placeLine _ _ _ _)

theorem Dev.saidOf_xfault (d : Dev) (j va : Nat) : d.saidOf (d.xfault j va) :=
  .of_out (d.bump_out (Cat.MEM_XLATE_FAULT j))

theorem Dev.saidOf_jwrLines (fuel : Nat) (d : Dev) (j va : Nat) (data : List Byte) : d.saidOf (d.jwrLines j va data fuel) := by
  induction fuel generalizing d va data with
  | zero => exact .refl d
  | succ n ih =>
    unfold Dev.jwrLines
    split
    · exact .refl d
    · dsimp only
      split
      · exact (d.saidOf_wrLine _ _).trans (ih _ _ _)
      · exact (d.saidOf_xfault _ _).trans (ih _ _ _)

theorem Dev.saidOf_trcPut1 (d : Dev) (j : Nat) (r : TraceRec) : d.saidOf (d.trcPut1 j r).1 := by
  unfold Dev.trcPut1
  dsimp only
  split
  · exact .refl d
  · split
    · exact d.saidOf_xfault _ _
    · exact (Dev.saidOf_jwrLines _ _ _ _ _).trans (Dev.saidOf_bump _ _)

theorem Dev.saidOf_trcLostPut (d : Dev) (j : Nat) : d.saidOf (d.trcLostPut j).1 := by
  unfold Dev.trcLostPut
  split
  · exact .refl d
  · dsimp only
    split
    · exact (d.saidOf_trcPut1 _ _).trans (.of_out rfl)
    · exact d.saidOf_trcPut1 _ _

theorem Dev.saidOf_trcPut (d : Dev) (j : Nat) (r : TraceRec) : d.saidOf (d.trcPut j r) := by
  rw [Dev.trcPut_eq]
  split
  · exact .refl d
  · dsimp only
    have hput : d.saidOf (if (d.trcLostPut j).2 then (d.trcLostPut j).1.trcPut1 j r else ((d.trcLostPut j).1, false)).1 := by
      split
      · exact (d.saidOf_trcLostPut j).trans (Dev.saidOf_trcPut1 _ _ _)
      · exact d.saidOf_trcLostPut j
    generalize (if (d.trcLostPut j).2 then (d.trcLostPut j).1.trcPut1 j r else ((d.trcLostPut j).1, false)) = q at hput ⊢
    split
    · exact hput
    · exact hput.trans (.of_out (q.1.bump_out (Cat.TRC_LOST j)))

theorem Dev.saidOf_trcDev (d : Dev) (r : TraceRec) : d.saidOf (d.trcDev r) := by
  have hput : ∀ (e : Dev) (m : List Host.Cell), e.saidOf ({ e with mem := m }.bump Cat.TRC_DEV_HEAD) := fun e m =>
    .of_out (Dev.bump_out _ _)
  unfold Dev.trcDev
  dsimp only
  split
  · exact .refl d
  · split
    · exact .of_out (d.bump_out Cat.TRC_DEV_LOST)
    · split
      · exact hput _ _
      · exact Dev.saidOf.trans (b := { d with devTrcLost := 0 }) (.of_out rfl) ((hput _ _).trans (hput _ _))

theorem Dev.saidOf_trace (d : Dev) (r : TraceRec) : d.saidOf (d.trace r) := by
  unfold Dev.trace
  dsimp only
  have hdev : d.saidOf ((d.emit (.trace r)).trcDev r) := (d.saidOf_emit _).trans (Dev.saidOf_trcDev _ _)
  split
  · exact hdev.trans (Dev.saidOf_trcPut _ _ _)
  · refine foldl_keeps d.saidOf _ (fun e j he => ?_) _ _ hdev
    split
    · exact he.trans (Dev.saidOf_trcPut _ _ _)
    · exact he

theorem Dev.saidOf_event (d : Dev) (kind job unit a b c : Nat) : d.saidOf (d.event kind job unit a b c) :=
  d.saidOf_trace _

/-! ### The network die's tables and one connection -/

/-- A connection of which at most transfers, taints, and counts have changed, and its seals may be gone. -/
structure Conn.KeptAs (x y : Conn) : Prop where
  pn : y.pn = x.pn
  residence : y.residence = x.residence
  seals : y.seals ⊆ x.seals

theorem Conn.KeptAs.refl (x : Conn) : x.KeptAs x := ⟨rfl, rfl, List.Subset.refl _⟩
theorem Conn.KeptAs.trans {x y z : Conn} (h : x.KeptAs y) (k : y.KeptAs z) : x.KeptAs z :=
  ⟨k.pn.trans h.pn, k.residence.trans h.residence, List.Subset.trans k.seals h.seals⟩

/-- Regions and held packets of `e` are those of `d`, connection `c` is kept if it was there, and what had left is recorded. -/
structure Dev.NetKept (c : Nat) (d e : Dev) : Prop where
  regions : e.net.regions = d.net.regions
  hold : e.net.hold = d.net.hold
  conn : ∀ x, d.conn? c = some x → ∃ y, e.conn? c = some y ∧ x.KeptAs y
  said : d.saidOf e

variable {c : Nat}

theorem Dev.NetKept.refl (d : Dev) : Dev.NetKept c d d := ⟨rfl, rfl, fun x h => ⟨x, h, .refl x⟩, .refl d⟩

theorem Dev.NetKept.trans {a b e : Dev} (h : Dev.NetKept c a b) (k : Dev.NetKept c b e) : Dev.NetKept c a e := by
  refine ⟨k.regions.trans h.regions, k.hold.trans h.hold, fun x hx => ?_, h.said.trans k.said⟩
  obtain ⟨y, hy, hxy⟩ := h.conn x hx
  obtain ⟨z, hz, hyz⟩ := k.conn y hy
  exact ⟨z, hz, hxy.trans hyz⟩

/-- A step that leaves regions, held packets and connections alone. -/
theorem Dev.NetKept.of_tables {d e : Dev} (hr : e.net.regions = d.net.regions) (hh : e.net.hold = d.net.hold)
    (hc : e.net.conns = d.net.conns) (hs : d.saidOf e) : Dev.NetKept c d e :=
  ⟨hr, hh, fun x hx => ⟨x, by unfold Dev.conn? at hx ⊢; rw [hc, hx], .refl x⟩, hs⟩

theorem Dev.NetKept.of_net {d e : Dev} (h : e.net = d.net) (hs : d.saidOf e) : Dev.NetKept c d e :=
  .of_tables (by rw [h]) (by rw [h]) (by rw [h]) hs

theorem Dev.NetKept.ite {d a b : Dev} {p : Prop} [Decidable p] (ha : Dev.NetKept c d a) (hb : Dev.NetKept c d b) :
    Dev.NetKept c d (if p then a else b) := by
  split
  · exact ha
  · exact hb

theorem Dev.conn?_setConn (d : Dev) (c : Nat) (x : Conn) : (d.setConn c x).conn? c = some x := Tbl.find?_set_self _ _ _

theorem Dev.updConn_some {d : Dev} {x : Conn} (h : d.conn? c = some x) (f : Conn → Conn) : d.updConn c f = d.setConn c (f x) := by
  unfold Dev.updConn
  rw [h]

theorem Dev.updConn_none {d : Dev} (h : d.conn? c = none) (f : Conn → Conn) : d.updConn c f = d := by
  unfold Dev.updConn
  rw [h]

theorem Dev.regions_updConn (d : Dev) (f : Conn → Conn) : (d.updConn c f).net.regions = d.net.regions := by
  unfold Dev.updConn
  split <;> rfl

theorem Dev.NetKept.setConn {d : Dev} {x y : Conn} (hx : d.conn? c = some x) (h : x.KeptAs y) :
    Dev.NetKept c d (d.setConn c y) := by
  refine ⟨rfl, rfl, fun z hz => ⟨y, Dev.conn?_setConn _ _ _, ?_⟩, .of_out rfl⟩
  obtain rfl : x = z := Option.some.inj (hx.symm.trans hz)
  exact h

theorem Dev.NetKept.updConn (d : Dev) {f : Conn → Conn} (h : ∀ x : Conn, x.KeptAs (f x)) : Dev.NetKept c d (d.updConn c f) := by
  cases hx : d.conn? c with
  | none => rw [Dev.updConn_none hx]; exact .refl d
  | some x => rw [Dev.updConn_some hx]; exact .setConn hx (h x)

theorem Dev.NetKept.updCmd (d : Dev) (k : Nat) (f : Cmd → Cmd) : Dev.NetKept c d (d.updCmd k f) := by
  unfold Dev.updCmd
  split <;> exact .of_net rfl (.of_out rfl)

theorem Dev.net_event (d : Dev) (kind job unit a b z : Nat) : (d.event kind job unit a b z).net = d.net :=
  (congrArg Dev.net (d.tracedOf_event kind job unit a b z).1).trans rfl

theorem Dev.net_incMark (d : Dev) (j m n stamp : Nat) : (d.incMark j m n stamp).net = d.net := by
  obtain ⟨cat, cmds, units, h⟩ := d.incMark_rest j m n stamp
  rw [h]

theorem Dev.out_incMark (d : Dev) (j m n stamp : Nat) : (d.incMark j m n stamp).out = d.out := by
  obtain ⟨cat, cmds, units, h⟩ := d.incMark_rest j m n stamp
  rw [h]

/-! ### A transfer that fails (R343) -/

theorem Dev.NetKept.failNote (d : Dev) (x : Conn) (t : Xfer) (reason : Nat) : Dev.NetKept c d (d.failNote c x t reason) := by
  have hupd : Dev.NetKept c d (d.updConn c fun y => { y with
      sealsFailed := if t.isSeal then y.sealsFailed + 1 else y.sealsFailed, lastFail := reason }) :=
    .updConn d fun y => ⟨rfl, rfl, List.Subset.refl _⟩
  have hnote := (hupd.trans (.of_net (Dev.bump_net _ Cat.NET_SEND_FAIL) (Dev.saidOf_bump _ _))).trans
    (.of_net (Dev.net_event _ 0x41 x.job 0x90 reason t.region c) (Dev.saidOf_event _ _ _ _ _ _ _))
  exact .ite (hnote.trans (.of_net (Dev.net_incMark _ _ _ _ _) (.of_out (Dev.out_incMark _ _ _ _ _)))) hnote

theorem Dev.NetKept.failCmd (d : Dev) (j k reason region : Nat) (l : List Nat) :
    Dev.NetKept c d (d.failCmd j k reason region l) :=
  .ite (.updCmd d _ _) (.ite (.updCmd d _ _) (.updCmd d _ _))

theorem Dev.NetKept.checkSent (d : Dev) (k : Nat) : Dev.NetKept c d (d.checkSent k) := by
  unfold Dev.checkSent
  split
  · exact .ite (.updCmd d _ _) (.refl d)
  · exact .refl d

theorem Dev.NetKept.failXfer (d : Dev) (t reason : Nat) : Dev.NetKept c d (d.failXfer c t reason) := by
  unfold Dev.failXfer
  split
  · exact .refl d
  · next x hx =>
    split
    · exact .refl d
    · refine Dev.NetKept.trans ?_ (.checkSent _ _)
      refine Dev.NetKept.trans ?_ (.failCmd _ _ _ _ _ _)
      refine Dev.NetKept.trans ?_ (.failNote _ _ _ _)
      refine ⟨rfl, rfl, fun y hy => ⟨_, Tbl.find?_set_self _ _ _, ?_⟩, .of_out rfl⟩
      obtain rfl : x = y := Option.some.inj (hx.symm.trans hy)
      exact ⟨rfl, rfl, List.Subset.refl _⟩

theorem Dev.NetKept.failXfers (d : Dev) (l : Tbl Xfer) (reason : Nat) :
    Dev.NetKept c d (l.foldl (fun d kt => d.failXfer c kt.1 reason) d) :=
  foldl_keeps (Dev.NetKept c d) _ (fun _ _ he => he.trans (.failXfer _ _ _)) l d (.refl d)

/-- What a failed transfer counts in: none but the values of trace records, NET_SEND_FAIL and TIE_LATE_STAMP. -/
def Dev.failCounts (d e : Dev) : Prop :=
  ∀ key, untracedKey key → key ≠ Cat.NET_SEND_FAIL → key ≠ Cat.TIE_LATE_STAMP → e.cget key = d.cget key

theorem Dev.failCounts.trans {a b e : Dev} (h : a.failCounts b) (k : b.failCounts e) : a.failCounts e :=
  fun key hu hs ht => (k key hu hs ht).trans (h key hu hs ht)

theorem Dev.failCounts.of_cat {d e : Dev} (h : e.cat = d.cat) : d.failCounts e := fun key _ _ _ => Dev.cget_congr h key

theorem Dev.valuesOf.failCounts {d e : Dev} (h : d.valuesOf e) : d.failCounts e := fun key hu _ _ => h key hu

theorem Dev.failCounts.ite {d a b : Dev} {p : Prop} [Decidable p] (ha : d.failCounts a) (hb : d.failCounts b) :
    d.failCounts (if p then a else b) := by
  split
  · exact ha
  · exact hb

theorem Dev.cat_updConn (d : Dev) (f : Conn → Conn) : (d.updConn c f).cat = d.cat := by
  unfold Dev.updConn
  split <;> rfl

theorem Dev.cat_updCmd (d : Dev) (k : Nat) (f : Cmd → Cmd) : (d.updCmd k f).cat = d.cat := by
  unfold Dev.updCmd
  split <;> rfl

theorem Dev.failCounts_incMark (d : Dev) (j m n stamp : Nat) : d.failCounts (d.incMark j m n stamp) := by
  intro key _ _ ht
  have h : (d.incMark j m n stamp).cget key = (d.bumpBy Cat.TIE_LATE_STAMP
      ((d.cmds.filter fun kc => kc.2.job = j).map fun kc =>
        kc.2.tieLate m (((d.job j).mark m).value + BitVec.ofNat 32 n) stamp).sum).cget key := rfl
  rw [h, Dev.cget_bumpBy, if_neg ht, Nat.add_zero]

theorem Dev.failCounts_failNote (d : Dev) (x : Conn) (t : Xfer) (reason : Nat) : d.failCounts (d.failNote c x t reason) := by
  have hupd : d.failCounts (d.updConn c fun y => { y with
      sealsFailed := if t.isSeal then y.sealsFailed + 1 else y.sealsFailed, lastFail := reason }) := .of_cat (d.cat_updConn _)
  have hbump (e : Dev) : e.failCounts (e.bump Cat.NET_SEND_FAIL) := fun key _ hs _ => by
    rw [Dev.cget_bump, if_neg hs, Nat.add_zero]
  have hnote := (hupd.trans (hbump _)).trans (Dev.valuesOf_event _ 0x41 x.job 0x90 reason t.region c).failCounts
  exact .ite (hnote.trans (Dev.failCounts_incMark _ _ _ _ _)) hnote

theorem Dev.failCounts_updCmd (d : Dev) (k : Nat) (f : Cmd → Cmd) : d.failCounts (d.updCmd k f) := .of_cat (d.cat_updCmd k f)

theorem Dev.failCounts_failCmd (d : Dev) (j k reason region : Nat) (l : List Nat) :
    d.failCounts (d.failCmd j k reason region l) :=
  .ite (d.failCounts_updCmd _ _) (.ite (d.failCounts_updCmd _ _) (d.failCounts_updCmd _ _))

theorem Dev.failCounts_checkSent (d : Dev) (k : Nat) : d.failCounts (d.checkSent k) := by
  unfold Dev.checkSent
  split
  · exact .ite (d.failCounts_updCmd _ _) (.of_cat rfl)
  · exact .of_cat rfl

theorem Dev.failCounts_failXfer (d : Dev) (t reason : Nat) : d.failCounts (d.failXfer c t reason) := by
  unfold Dev.failXfer
  split
  · exact .of_cat rfl
  · split
    · exact .of_cat rfl
    · refine Dev.failCounts.trans ?_ (Dev.failCounts_checkSent _ _)
      refine Dev.failCounts.trans ?_ (Dev.failCounts_failCmd _ _ _ _ _ _)
      refine Dev.failCounts.trans ?_ (Dev.failCounts_failNote _ _ _ _)
      exact .of_cat rfl

theorem Dev.failCounts_failXfers (d : Dev) (l : Tbl Xfer) (reason : Nat) :
    d.failCounts (l.foldl (fun d kt => d.failXfer c kt.1 reason) d) :=
  foldl_keeps d.failCounts _ (fun _ _ he => he.trans (Dev.failCounts_failXfer _ _ _)) l d (.of_cat rfl)

/-! ### A connection that enters ERROR (R335) -/

/-- What ERROR leaves of a connection. -/
def Conn.failed (y : Conn) : Conn :=
  { y with st := .error, queue := [], sent := [], seals := [], taints := [], ackSince := none }

/-- The device once the error is counted and traced and the transfers have failed. -/
def Dev.errorNoted (d : Dev) (c : Nat) (x : Conn) (cause : Nat) : Dev :=
  x.xfers.foldl (fun d kt => d.failXfer c kt.1 0xFF) ((d.bump Cat.NET_CONN_ERROR).event 0x40 x.job 0x90 cause 0 c)

theorem Dev.errorNoted_kept (d : Dev) (x : Conn) (cause : Nat) : Dev.NetKept c d (d.errorNoted c x cause) :=
  (Dev.NetKept.of_net (d.bump_net _) (d.saidOf_bump _)).trans
    ((Dev.NetKept.of_net (Dev.net_event _ _ _ _ _ _ _) (Dev.saidOf_event _ _ _ _ _ _ _)).trans (.failXfers _ _ _))

/-- The error's own counter aside, it counts in no other values than its failed transfers. -/
theorem Dev.errorNoted_counts (d : Dev) (x : Conn) (cause : Nat) :
    (d.bump Cat.NET_CONN_ERROR).failCounts (d.errorNoted c x cause) :=
  (Dev.valuesOf_event _ _ _ _ _ _ _).failCounts.trans (Dev.failCounts_failXfers _ _ _)

theorem Dev.connError_none {d : Dev} (h : d.conn? c = none) (cause : Nat) : d.connError c cause = d := by
  unfold Dev.connError
  rw [h]

section
variable {d : Dev} {x : Conn} (hx : d.conn? c = some x)
include hx

theorem Dev.connError_again (h : x.st = .error) (cause : Nat) : d.connError c cause = d := by
  unfold Dev.connError
  rw [hx]
  exact if_pos h

theorem Dev.connError_enters (h : x.st ≠ .error) (cause : Nat) : ∃ y, (d.errorNoted c x cause).conn? c = some y
    ∧ x.KeptAs y ∧ d.connError c cause = (d.errorNoted c x cause).setConn c y.failed := by
  obtain ⟨y, hy, hxy⟩ := (d.errorNoted_kept x cause).conn x hx
  refine ⟨y, hy, hxy, ?_⟩
  unfold Dev.connError
  rw [hx]
  exact (if_neg h).trans (Dev.updConn_some hy _)

end

theorem Dev.NetKept.connError (d : Dev) (cause : Nat) : Dev.NetKept c d (d.connError c cause) := by
  cases hx : d.conn? c with
  | none =>
    rw [Dev.connError_none hx]
    exact .refl d
  | some x =>
    by_cases hst : x.st = .error
    · rw [Dev.connError_again hx hst]
      exact .refl d
    · obtain ⟨y, hy, -, h⟩ := Dev.connError_enters hx hst cause
      rw [h]
      exact (d.errorNoted_kept x cause).trans (.setConn hy ⟨rfl, rfl, List.nil_subset _⟩)

/-! ### A packet that leaves (R325) -/

theorem Dev.sendPkt_noConn {d : Dev} (h : d.conn? c = none) (op flags region : Nat) (seq : Word) (step ext extLen : Nat)
    (payload : List Byte) : d.sendPkt c op flags region seq step ext extLen payload = d := by
  unfold Dev.sendPkt
  rw [h]

theorem Dev.sendPkt_down {d : Dev} {x : Conn} (h : d.conn? c = some x) (hdown : d.netUp x.port = false) (op flags region : Nat)
    (seq : Word) (step ext extLen : Nat) (payload : List Byte) :
    d.sendPkt c op flags region seq step ext extLen payload = d := by
  unfold Dev.sendPkt
  rw [h]
  exact if_pos (by rw [hdown]; rfl)

/-- The packet that connection `x` sends next. -/
def Dev.nextPkt (d : Dev) (x : Conn) (op flags region : Nat) (seq : Word) (step ext : Nat) (payload : List Byte) : TxPkt :=
  { port := x.port, op := op, flags := flags, tenant := (d.job x.job).tenant, conn := x.peer, region := region,
    seq := seq.toNat, stamp := d.now % 2 ^ 40, step := step, pn := x.pn + 1, ext := ext, payload := payload }

/-- The device once packet `q` is built, in the frame that carries it, and its number is taken. -/
def Dev.pktLeaves (d : Dev) (c : Nat) (x : Conn) (extLen : Nat) (q : TxPkt) : Dev :=
  ((d.take.2.setConn c { x with pn := x.pn + 1, used := d.now }).emit
    (.packet q (d.pktFrame c x d.take.1 extLen q))).setLastTx x.port
    { pkt := some (c, q), data := d.pktFrame c x d.take.1 extLen q }

/-- The device once a packet that has left is counted. -/
def Dev.pktCounted (d : Dev) (x : Conn) (extLen len : Nat) : Dev :=
  ((d.macSent x.port (maelgoBytes (d.taggedPort x.port) extLen len) 0).mac x.port Cat.TX_MAELGO).bumpBy
    (Cat.NET_JOB_TX_BYTES x.job) len

theorem Dev.macOf.net {d e : Dev} (h : d.macOf e) : e.net = d.net := by
  unfold Dev.macOf at h
  rw [h]

theorem Dev.NetKept.pktCounted (d : Dev) (x : Conn) (extLen len : Nat) : Dev.NetKept c d (d.pktCounted x extLen len) :=
  ((Dev.NetKept.of_net (d.macOf_macSent _ _ _).net (d.saidOf_macSent _ _ _)).trans
    (.of_net (Dev.macOf_mac _ _ _).net (Dev.saidOf_mac _ _ _))).trans (.of_net (Dev.bumpBy_net _ _ _) (Dev.saidOf_bumpBy _ _ _))

theorem Dev.sendPkt_up {d : Dev} {x : Conn} (h : d.conn? c = some x) (hup : d.netUp x.port = true) (op flags region : Nat)
    (seq : Word) (step ext extLen : Nat) (payload : List Byte) :
    d.sendPkt c op flags region seq step ext extLen payload =
      let f := (d.pktLeaves c x extLen (d.nextPkt x op flags region seq step ext payload)).pktCounted x extLen payload.length
      if x.pn + 1 = 2 ^ 48 - 1 then f.connError c 2 else f := by
  unfold Dev.sendPkt
  rw [h]
  exact if_neg (by rw [hup]; decide)

/-- What follows a packet that has left keeps the network die. -/
theorem Dev.sendPkt_kept {d : Dev} {x : Conn} (h : d.conn? c = some x) (hup : d.netUp x.port = true) (op flags region : Nat)
    (seq : Word) (step ext extLen : Nat) (payload : List Byte) :
    Dev.NetKept c (d.pktLeaves c x extLen (d.nextPkt x op flags region seq step ext payload))
      (d.sendPkt c op flags region seq step ext extLen payload) := by
  rw [Dev.sendPkt_up h hup]
  exact .ite ((Dev.NetKept.pktCounted _ _ _ _).trans (.connError _ _)) (.pktCounted _ _ _ _)

/-- No packet changes a region. -/
theorem Dev.regions_sendPkt (d : Dev) (c op flags region : Nat) (seq : Word) (step ext extLen : Nat) (payload : List Byte) :
    (d.sendPkt c op flags region seq step ext extLen payload).net.regions = d.net.regions := by
  cases hx : d.conn? c with
  | none => rw [Dev.sendPkt_noConn hx]
  | some x =>
    cases hup : d.netUp x.port with
    | false => rw [Dev.sendPkt_down hx hup]
    | true => exact (Dev.sendPkt_kept hx hup op flags region seq step ext extLen payload).regions

theorem Dev.netRegion_congr {d e : Dev} (h : e.net.regions = d.net.regions) (k : Nat) : e.netRegion k = d.netRegion k := by
  unfold Dev.netRegion
  rw [h]

theorem Dev.netRegion_setRegion (d : Dev) (k i : Nat) (r : NetRegion) :
    (d.setRegion k r).netRegion i = if i = k then r else d.netRegion i := Tbl.getD_set _ _ _ _ _

end Sys2Proof.Machine
end

section
/-! SUPPORT. The Catalogue entries of connections, regions and ports (R313, R314, R333 to R335, R344, R345, R353). -/

namespace Sys2Proof.Machine

/-! ### NET_CONN_OPEN (R333, R334) -/

/-- A job has no room for another connection: its quota is used up, or contexts have nowhere to go. -/
def Dev.connsFull (d : Dev) (j : Nat) : Prop :=
  d.quota j 4 ≤ d.connsOf j ∨ (d.cget Cat.NET_CTX_T3_ENTRIES ≤ d.residing 1 ∧ d.cget Cat.NET_CTX_HOST_BASE = 0)

theorem Dev.connsFull_iff (d : Dev) (j : Nat) : (d.quota j 4 ≤ d.connsOf j
    || (d.cget Cat.NET_CTX_T3_ENTRIES ≤ d.residing 1 && d.cget Cat.NET_CTX_HOST_BASE = 0)) = true ↔ d.connsFull j := by
  simp only [Bool.or_eq_true, Bool.and_eq_true, decide_eq_true_eq, Dev.connsFull]

/-- A record that leaves its identifier to the device. -/
def Dev.openAny (d : Dev) (j n : Nat) (full : Bool) (free? : Option Nat) : WriteResult :=
  match free? with
  | none => d.refuseQuota j 4
  | some c => if full then d.refuseQuota j 4 else d.openConn j c (setFld n 353 19 c) .pending

/-- A record that names its identifier. -/
def Dev.openNamed (d : Dev) (j n id : Nat) (full : Bool) (conn? : Option Conn) : WriteResult :=
  match conn? with
  | some x => if x.st = .pending && x.job = j then d.openConn j id n .open_ else d.refuseQuota j 4
  | none => if full then d.refuseQuota j 4 else d.openConn j id n .open_

def Dev.openWrite (j : Nat) (rec : List Byte) (d : Dev) : WriteResult :=
  let n := leNat rec
  let id := fld n 353 19
  let full := d.quota j 4 ≤ d.connsOf j || (d.cget Cat.NET_CTX_T3_ENTRIES ≤ d.residing 1 && d.cget Cat.NET_CTX_HOST_BASE = 0)
  if id = 0x7FFFF then d.openAny j n full d.freeConn else d.openNamed j n id full (d.conn? id)

theorem Dev.openAny_long (d : Dev) (j n : Nat) (full : Bool) (free? : Option Nat) : (d.openAny j n full free?).long = false := by
  unfold Dev.openAny
  (repeat' split) <;> rfl

theorem Dev.openNamed_long (d : Dev) (j n id : Nat) (full : Bool) (conn? : Option Conn) :
    (d.openNamed j n id full conn?).long = false := by
  unfold Dev.openNamed
  (repeat' split) <;> rfl

theorem Dev.openWrite_long (j : Nat) (rec : List Byte) (d : Dev) : (d.openWrite j rec).long = false := by
  unfold Dev.openWrite
  dsimp only
  split
  · exact d.openAny_long _ _ _ _
  · exact d.openNamed_long _ _ _ _ _

theorem exec_netConnOpen (r : Req) (j : Nat) (rec : List Byte) (s : State) : exec (.netConnOpen r j rec) s
    = lift (catWrite r (0x4300 + j) 0 rec .byTable (fun d => j < 16 && !connOpenBad d rec) (Dev.openWrite j rec)) s := rfl

theorem Dev.openWrite_any {d : Dev} {j : Nat} {rec : List Byte} (h : fld (leNat rec) 353 19 = 0x7FFFF) :
    (d.freeConn = none ∨ d.connsFull j → d.openWrite j rec = d.refuseQuota j 4)
      ∧ ∀ k, d.freeConn = some k → ¬ d.connsFull j →
          d.openWrite j rec = d.openConn j k (setFld (leNat rec) 353 19 k) .pending := by
  have hany : d.openWrite j rec = d.openAny j (leNat rec) _ d.freeConn := if_pos h
  rw [hany]
  refine ⟨fun hno => ?_, fun k hk hroom => ?_⟩
  · cases hk : d.freeConn with
    | none => rfl
    | some k => exact if_pos ((d.connsFull_iff j).mpr (hno.resolve_left (by rw [hk]; simp)))
  · rw [hk]
    exact if_neg (mt (d.connsFull_iff j).mp hroom)

section
variable {d : Dev} {j : Nat} {rec : List Byte} (h : fld (leNat rec) 353 19 ≠ 0x7FFFF)
include h

theorem Dev.openWrite_free (hfree : d.conn? (fld (leNat rec) 353 19) = none) :
    (d.connsFull j → d.openWrite j rec = d.refuseQuota j 4)
      ∧ (¬ d.connsFull j → d.openWrite j rec = d.openConn j (fld (leNat rec) 353 19) (leNat rec) .open_) := by
  have hnamed : d.openWrite j rec = d.openNamed j (leNat rec) _ _ (d.conn? (fld (leNat rec) 353 19)) := if_neg h
  rw [hnamed, hfree]
  exact ⟨fun hfull => if_pos ((d.connsFull_iff j).mpr hfull), fun hroom => if_neg (mt (d.connsFull_iff j).mp hroom)⟩

theorem Dev.openWrite_taken {x : Conn} (hx : d.conn? (fld (leNat rec) 353 19) = some x) :
    (x.st = .pending ∧ x.job = j → d.openWrite j rec = d.openConn j (fld (leNat rec) 353 19) (leNat rec) .open_)
      ∧ (¬ (x.st = .pending ∧ x.job = j) → d.openWrite j rec = d.refuseQuota j 4) := by
  have hnamed : d.openWrite j rec = d.openNamed j (leNat rec) _ _ (d.conn? (fld (leNat rec) 353 19)) := if_neg h
  rw [hnamed, hx]
  exact ⟨fun hp => if_pos (by simpa using hp), fun hp => if_neg (by simpa using hp)⟩

end

/-! ### NET_CONN_CLOSE (R335) -/

/-- A close of a connection of the job. -/
def Dev.closeConn (d : Dev) (v : Nat) (x : Conn) : WriteResult :=
  match x.st with
  | .open_ => ⟨d.setConn v { x with st := .draining, drainAt := d.now }, stOk, false⟩
  | .draining => ⟨d, stOk, false⟩
  | _ => ⟨d.dropConn v, stOk, false⟩

def Dev.closeWrite (j v : Nat) (d : Dev) : WriteResult :=
  match d.conn? v with
  | none => refuse d stNoEntry
  | some x => if x.job ≠ j then refuse d stNoEntry else (d.cset (Cat.NET_CONN_CLOSE j) v).closeConn v x

theorem Dev.closeConn_long (d : Dev) (v : Nat) (x : Conn) : (d.closeConn v x).long = false := by
  unfold Dev.closeConn
  split <;> rfl

theorem Dev.closeWrite_long (j v : Nat) (d : Dev) : (d.closeWrite j v).long = false := by
  unfold Dev.closeWrite
  split
  · rfl
  · split
    · rfl
    · exact Dev.closeConn_long _ _ _

theorem exec_netConnClose (r : Req) (j v : Nat) (s : State) : exec (.netConnClose r j v) s
    = lift (catWrite r (0x4300 + j) 1 (leBytes 4 v) .byTable (fun _ => j < 16 && v < 2 ^ 32) (Dev.closeWrite j v)) s := rfl

theorem Dev.closeWrite_none {d : Dev} {j v : Nat} (h : ∀ x, d.conn? v = some x → x.job ≠ j) :
    d.closeWrite j v = refuse d stNoEntry := by
  unfold Dev.closeWrite
  cases hx : d.conn? v with
  | none => rfl
  | some x => exact if_pos (h x hx)

theorem Dev.closeWrite_mine {d : Dev} {j v : Nat} {x : Conn} (hx : d.conn? v = some x) (hj : x.job = j) :
    d.closeWrite j v = (d.cset (Cat.NET_CONN_CLOSE j) v).closeConn v x := by
  unfold Dev.closeWrite
  rw [hx]
  exact if_neg (not_not.mpr hj)

theorem Dev.closeConn_status (d : Dev) (v : Nat) (x : Conn) : (d.closeConn v x).status = stOk := by
  unfold Dev.closeConn
  split <;> rfl

theorem Dev.closeConn_dev (d : Dev) (v : Nat) (x : Conn) :
    (x.st = .open_ → (d.closeConn v x).dev = d.setConn v { x with st := .draining, drainAt := d.now })
      ∧ (x.st = .draining → (d.closeConn v x).dev = d)
      ∧ (x.st = .pending ∨ x.st = .error → (d.closeConn v x).dev = d.dropConn v) := by
  unfold Dev.closeConn
  cases x.st <;> simp

theorem Dev.conn?_dropConn (d : Dev) (c : Nat) : (d.dropConn c).conn? c = none :=
  (Tbl.find?_erase d.net.conns c c).trans (if_pos rfl)

/-! ### NET_REGION_REG (R344, R345) -/

theorem Dev.freeRegion_spec {d : Dev} {k : Nat} (h : d.freeRegion = some k) : k < 65536 ∧ (d.netRegion k).st = .free := by
  unfold Dev.freeRegion at h
  dsimp only at h
  split at h
  · next hfree =>
    obtain rfl := Option.some.inj h
    exact ⟨Nat.mod_lt _ (by decide), hfree⟩
  · have hfree := List.find?_some h
    exact ⟨List.mem_range.mp (List.mem_of_find?_eq_some h), of_decide_eq_true hfree⟩

/-- The record of a region just registered at index `k`. -/
def Dev.regionRecord (d : Dev) (k : Nat) (rec : List Byte) : Nat := setFld (leNat rec) 384 32 ((d.netRegion k).gen * 2 ^ 16 + k)

/-- A region is registered at index `k`. -/
def Dev.register (d : Dev) (j k : Nat) (rec : List Byte) : Dev :=
  ((d.takeN 1).setRegion k { NetRegion.none with
    st := .valid, gen := (d.netRegion k).gen, job := j, record := d.regionRecord k rec }).bset
    (Cat.NET_REGION_REG j) (leBytes 64 (d.regionRecord k rec))

def Dev.regWrite (j : Nat) (rec : List Byte) (d : Dev) : WriteResult :=
  if d.quota j 5 ≤ d.regionsOf j then d.refuseQuota j 5
  else
    match d.freeRegion with
    | none => d.refuseQuota j 5
    | some k => ⟨d.register j k rec, stOk, false⟩

theorem Dev.regWrite_long (j : Nat) (rec : List Byte) (d : Dev) : (d.regWrite j rec).long = false := by
  unfold Dev.regWrite
  (repeat' split) <;> rfl

theorem exec_netRegionReg (r : Req) (j : Nat) (rec : List Byte) (s : State) : exec (.netRegionReg r j rec) s
    = lift (catWrite r (0x4300 + j) 3 rec .byTable (fun d => j < 16 && !d.regionRecBad j rec) (Dev.regWrite j rec)) s := rfl

theorem Dev.regWrite_denied {d : Dev} {j : Nat} {rec : List Byte} (h : d.quota j 5 ≤ d.regionsOf j ∨ d.freeRegion = none) :
    d.regWrite j rec = d.refuseQuota j 5 := by
  unfold Dev.regWrite
  by_cases hq : d.quota j 5 ≤ d.regionsOf j
  · exact if_pos hq
  · rw [if_neg hq, h.resolve_left hq]

theorem Dev.regWrite_registers {d : Dev} {j k : Nat} {rec : List Byte} (hq : d.regionsOf j < d.quota j 5)
    (hk : d.freeRegion = some k) : d.regWrite j rec = ⟨d.register j k rec, stOk, false⟩ := by
  unfold Dev.regWrite
  rw [if_neg (not_le.mpr hq), hk]

theorem Dev.register_effect (d : Dev) (j k : Nat) (rec : List Byte) :
    (d.register j k rec).netRegion k
        = { NetRegion.none with st := .valid, gen := (d.netRegion k).gen, job := j, record := d.regionRecord k rec }
      ∧ (∀ i, i ≠ k → (d.register j k rec).netRegion i = d.netRegion i)
      ∧ (d.register j k rec).bget (Cat.NET_REGION_REG j) = leBytes 64 (d.regionRecord k rec) :=
  ⟨(Dev.netRegion_setRegion _ _ _ _).trans (if_pos rfl), fun _ hi => (Dev.netRegion_setRegion _ _ _ _).trans (if_neg hi),
    Tbl.getD_set_self _ _ _ _⟩

/-! ### Revocation (R353) -/

def Dev.revokeWrite (j v : Nat) (d : Dev) : WriteResult :=
  let g := d.netRegion (v % 2 ^ 16)
  if g.st = .free || g.gen ≠ v / 2 ^ 16 || g.job ≠ j then refuse d stNoEntry
  else ⟨(d.cset (Cat.NET_REGION_REVOKE j) v).revoke (v % 2 ^ 16) d.now, stOk, false⟩

theorem Dev.revokeWrite_long (j v : Nat) (d : Dev) : (d.revokeWrite j v).long = false := by
  unfold Dev.revokeWrite
  dsimp only
  split <;> rfl

/-- A handle names a region of the job. -/
def Dev.ownsRegion (d : Dev) (j v : Nat) : Prop :=
  (d.netRegion (v % 2 ^ 16)).st ≠ .free ∧ (d.netRegion (v % 2 ^ 16)).gen = v / 2 ^ 16 ∧ (d.netRegion (v % 2 ^ 16)).job = j

theorem Dev.ownsRegion_iff (d : Dev) (j v : Nat) : ((d.netRegion (v % 2 ^ 16)).st = .free
    || (d.netRegion (v % 2 ^ 16)).gen ≠ v / 2 ^ 16 || (d.netRegion (v % 2 ^ 16)).job ≠ j) = true ↔ ¬ d.ownsRegion j v := by
  unfold Dev.ownsRegion
  simp only [Bool.or_eq_true, decide_eq_true_eq]
  tauto

theorem Dev.revokeWrite_none {d : Dev} {j v : Nat} (h : ¬ d.ownsRegion j v) : d.revokeWrite j v = refuse d stNoEntry :=
  if_pos ((d.ownsRegion_iff j v).mpr h)

theorem Dev.revokeWrite_mine {d : Dev} {j v : Nat} (h : d.ownsRegion j v) :
    d.revokeWrite j v = ⟨(d.cset (Cat.NET_REGION_REVOKE j) v).revoke (v % 2 ^ 16) d.now, stOk, false⟩ :=
  if_neg fun hn => (d.ownsRegion_iff j v).mp hn h

theorem Dev.revoke_valid {d : Dev} {k : Nat} (h : (d.netRegion k).st = .valid) (tr : Nat) :
    (d.revoke k tr).netRegion k = { d.netRegion k with st := .revoking, tr := tr, settled := false } := by
  have he : d.revoke k tr = (d.setRegion k { d.netRegion k with st := .revoking, tr := tr, settled := false }).event 0x42
      (d.netRegion k).job 0x90 0 tr (regionHandle k (d.netRegion k).gen) := if_neg (not_not.mpr h)
  rw [he, Dev.netRegion_congr (congrArg Net.regions (Dev.net_event _ _ _ _ _ _ _)), Dev.netRegion_setRegion, if_pos rfl]

theorem Dev.revoke_other {d : Dev} {k : Nat} (h : (d.netRegion k).st ≠ .valid) (tr : Nat) : d.revoke k tr = d := if_pos h

/-- A seal that is discarded changes no region. -/
theorem Dev.regions_strandSeal (d : Dev) (c : Nat) (w : WaitSeal) : (d.strandSeal c w).net.regions = d.net.regions := by
  refine (Dev.regions_sendPkt _ _ _ _ _ _ _ _ _ _).trans ((Dev.regions_updConn _ _).trans ?_)
  rw [Dev.bump_net]

/-- The region's seals that wait are discarded one by one. -/
def Dev.strandSeals (d : Dev) (h : Nat) : Dev :=
  d.net.conns.foldl (fun d kc => (kc.2.seals.filter fun s => s.region = h).foldl (fun d s => d.strandSeal kc.1 s) d) d

theorem Dev.regions_strandSeals (d : Dev) (h : Nat) : (d.strandSeals h).net.regions = d.net.regions :=
  foldl_keeps (fun e : Dev => e.net.regions = d.net.regions) _
    (fun _ _ he => foldl_keeps (fun e : Dev => e.net.regions = d.net.regions) _
      (fun _ _ he => (Dev.regions_strandSeal _ _ _).trans he) _ _ he) _ d rfl

theorem Dev.settleRegion_effect (d : Dev) (k : Nat) :
    (d.settleRegion k).netRegion k = { d.netRegion k with settled := true } := by
  have he : d.settleRegion k = (d.strandSeals (regionHandle k (d.netRegion k).gen)).setRegion k
      { (d.strandSeals (regionHandle k (d.netRegion k).gen)).netRegion k with settled := true } := rfl
  rw [he, Dev.netRegion_setRegion, if_pos rfl, Dev.netRegion_congr (d.regions_strandSeals _)]

theorem execRevokeSettleD_not {d : Dev} {k : Nat} (h : (d.netRegion k).st ≠ .revoking ∨ (d.netRegion k).settled = true) :
    execRevokeSettleD k d = d := if_pos (by simpa using h)

theorem execRevokeSettleD_settles {d : Dev} {k : Nat} (hst : (d.netRegion k).st = .revoking)
    (hset : (d.netRegion k).settled = false) :
    execRevokeSettleD k d = (d.advance ((d.netRegion k).tr + d.cget Cat.TT_SETTLE)).settleRegion k :=
  if_neg (by simp [hst, hset])

/-- A revocation may complete. -/
def Dev.mayFree (d : Dev) (k : Nat) : Prop :=
  (d.netRegion k).st = .revoking ∧ (d.netRegion k).settled = true ∧ d.regionInFlight k = 0

theorem Dev.mayFree_iff (d : Dev) (k : Nat) : ((d.netRegion k).st ≠ .revoking || !(d.netRegion k).settled
    || d.regionInFlight k ≠ 0) = true ↔ ¬ d.mayFree k := by
  unfold Dev.mayFree
  simp only [Bool.or_eq_true, decide_eq_true_eq, Bool.not_eq_true', ← Bool.not_eq_true]
  tauto

theorem execRevokeCompleteD_not {d : Dev} {at_ k : Nat} (h : ¬ (d.advance at_).mayFree k) :
    execRevokeCompleteD at_ k d = d.advance at_ := if_pos (((d.advance at_).mayFree_iff k).mpr h)

theorem execRevokeCompleteD_frees {d : Dev} {at_ k : Nat} (h : (d.advance at_).mayFree k) :
    execRevokeCompleteD at_ k d = ((d.advance at_).setRegion k { NetRegion.none with
      gen := if ((d.advance at_).netRegion k).gen = 0xFFFF then 1 else ((d.advance at_).netRegion k).gen + 1 }).bump
        Cat.NET_REVOKE_DONE := if_neg fun hn => ((d.advance at_).mayFree_iff k).mp hn h

/-! ### Ports (R313, R314) -/

/-- The port mode decides how many ports there are. -/
theorem Dev.portCount_congr {d e : Dev} (h : e.cget Cat.NET_PORT_MODE = d.cget Cat.NET_PORT_MODE) : e.portCount = d.portCount := by
  unfold Dev.portCount
  rw [h]

/-- One link trains, or goes down where the mode in force has no such port. -/
def Dev.retrainPort (d : Dev) (p : Nat) : Dev := d.cset (Cat.NET_PORT_LINK p) (if p < d.portCount then 1 else 0)

theorem Dev.retrainPort_mode (d : Dev) (p : Nat) : (d.retrainPort p).cget Cat.NET_PORT_MODE = d.cget Cat.NET_PORT_MODE := by
  unfold Dev.retrainPort
  rw [Dev.cget_cset, if_neg (by unfold Cat.NET_PORT_MODE Cat.NET_PORT_LINK; omega)]

/-- Port `p` has the same link on both, in the same mode. -/
def Dev.sameLink (d e : Dev) (p : Nat) : Prop :=
  e.cget (Cat.NET_PORT_LINK p) = d.cget (Cat.NET_PORT_LINK p) ∧ e.cget Cat.NET_PORT_MODE = d.cget Cat.NET_PORT_MODE

theorem Dev.retrainPort_other (d : Dev) (p q : Nat) (h : q ≠ p) : d.sameLink (d.retrainPort p) q := by
  refine ⟨?_, d.retrainPort_mode p⟩
  unfold Dev.retrainPort
  rw [Dev.cget_cset, if_neg (by unfold Cat.NET_PORT_LINK; omega)]

theorem Dev.retrainPorts_mode (d : Dev) : d.retrainPorts.cget Cat.NET_PORT_MODE = d.cget Cat.NET_PORT_MODE :=
  foldl_keeps (fun f : Dev => f.cget Cat.NET_PORT_MODE = d.cget Cat.NET_PORT_MODE) Dev.retrainPort
    (fun f p h => (f.retrainPort_mode p).trans h) (List.range 8) d rfl

theorem Dev.retrainPorts_link (d : Dev) {p : Nat} (hp : p < 8) :
    d.retrainPorts.cget (Cat.NET_PORT_LINK p) = if p < d.retrainPorts.portCount then 1 else 0 := by
  rw [Dev.portCount_congr d.retrainPorts_mode]
  refine foldl_once (same := Dev.sameLink) (f := Dev.retrainPort)
    (P := fun s k e => e.cget (Cat.NET_PORT_LINK k) = if k < s.portCount then 1 else 0)
    (fun _ _ => ⟨rfl, rfl⟩) (fun h k => ⟨k.1.trans h.1, k.2.trans h.2⟩) Dev.retrainPort_other (fun s k => ?_)
    (fun h hp => ?_) (fun hp h => h.1.trans hp) List.nodup_range (List.mem_range.mpr hp) d
  · rw [Dev.retrainPort, Dev.cget_cset, if_pos rfl]
  · rw [hp, Dev.portCount_congr h.2]

def Dev.modeWrite (v : Nat) (d : Dev) : WriteResult :=
  if d.net.conns.any fun kc => kc.2.st = .open_ || kc.2.st = .draining then refuse d stDenied
  else ⟨(d.cset Cat.NET_PORT_MODE v).retrainPorts, stOk, false⟩

theorem Dev.modeWrite_long (v : Nat) (d : Dev) : (d.modeWrite v).long = false := by
  unfold Dev.modeWrite
  split <;> rfl

theorem exec_netPortMode (r : Req) (v : Nat) (s : State) : exec (.netPortMode r v) s
    = lift (catWrite r 0x4000 0 (leBytes 1 v) .byTable (fun _ => v < 2) (Dev.modeWrite v)) s := rfl

theorem Dev.connsBusy_iff (d : Dev) : (d.net.conns.any fun kc => kc.2.st = .open_ || kc.2.st = .draining) = true
    ↔ ∃ kc ∈ d.net.conns, kc.2.st = .open_ ∨ kc.2.st = .draining := by
  simp only [List.any_eq_true, Bool.or_eq_true, decide_eq_true_eq]

theorem Dev.modeWrite_busy {d : Dev} (v : Nat) (h : ∃ kc ∈ d.net.conns, kc.2.st = .open_ ∨ kc.2.st = .draining) :
    d.modeWrite v = refuse d stDenied := if_pos (d.connsBusy_iff.mpr h)

theorem Dev.modeWrite_retrains {d : Dev} (v : Nat) (h : ¬ ∃ kc ∈ d.net.conns, kc.2.st = .open_ ∨ kc.2.st = .draining) :
    d.modeWrite v = ⟨(d.cset Cat.NET_PORT_MODE v).retrainPorts, stOk, false⟩ := if_neg (mt d.connsBusy_iff.mp h)

theorem execPortLinkChangeD_eq (at_ p link : Nat) (d0 : Dev) : let d := d0.advance at_
    execPortLinkChangeD at_ p link d0
      = if d.released = true ∧ p < d.portCount ∧ link ≤ 2 then d.cset (Cat.NET_PORT_LINK p) link else d := by
  intro d
  have hb : (!d.released || d.portCount ≤ p || 2 < link) = true ↔ ¬ (d.released = true ∧ p < d.portCount ∧ link ≤ 2) := by
    simp only [Bool.or_eq_true, Bool.not_eq_true', decide_eq_true_eq, ← Bool.not_eq_true, ← not_lt]
    tauto
  by_cases h : d.released = true ∧ p < d.portCount ∧ link ≤ 2
  · rw [if_pos h]
    exact if_neg fun hn => hb.mp hn h
  · rw [if_neg h]
    exact if_pos (hb.mpr h)

end Sys2Proof.Machine
end

section
/-! SUPPORT. Frames, host frame rings, ARP and underruns (R315 to R322, R439, R441), and obligation O59. -/

namespace Sys2Proof.Machine

/-! ### A frame that arrives (R315, R316, R318, R320) -/

theorem Dev.countGood_eq (d : Dev) (p : Nat) (l : List Byte) : d.countGood p l =
    let g := (((d.mac p Cat.RX_FRAMES_OK).macBy p Cat.RX_BYTES_OK l.length).mac p (Cat.RX_SIZE0 + sizeClass l.length)).mac p
      (castCtr Cat.RX_UNICAST (castOf l))
    if frameTags l = [] then g else g.mac p Cat.RX_VLAN := by
  unfold Dev.countGood
  simp only [List.isEmpty_iff]

/-- A frame without error that is MAC control is counted as such; any other is judged further. -/
def Dev.wholeFrame (d : Dev) (f : Frame) : Dev :=
  match macControl f.data with
  | some 1 => d.mac f.port Cat.RX_PAUSE
  | some 0x0101 => d.mac f.port Cat.RX_PFC
  | _ => d.goodFrame f

section
variable {d : Dev} {f : Frame}

theorem Dev.wholeFrame_pause (h : macControl f.data = some 1) : d.wholeFrame f = d.mac f.port Cat.RX_PAUSE := by
  unfold Dev.wholeFrame
  rw [h]
  rfl

theorem Dev.wholeFrame_pfc (h : macControl f.data = some 0x0101) : d.wholeFrame f = d.mac f.port Cat.RX_PFC := by
  unfold Dev.wholeFrame
  rw [h]
  rfl

theorem Dev.wholeFrame_data (hpause : macControl f.data ≠ some 1) (hpfc : macControl f.data ≠ some 0x0101) :
    d.wholeFrame f = d.goodFrame f := by
  unfold Dev.wholeFrame
  split
  · next h => exact absurd h hpause
  · next h => exact absurd h hpfc
  · rfl

theorem execFrameReceiveD_down (h : ¬ (d.advance f.at_).netUp f.port = true) : execFrameReceiveD f d = d.advance f.at_ :=
  if_pos (by simpa using h)

section
variable (hup : (d.advance f.at_).netUp f.port = true)
include hup

/-- On a port that is up a frame is judged by its length and its check sequence. -/
theorem execFrameReceiveD_up : execFrameReceiveD f d =
    let c := (d.advance f.at_).countPcs f
    if f.data.length < 64 then c.mac f.port Cat.RX_RUNT
    else if 9216 < f.data.length then c.mac f.port Cat.RX_OVERSIZE
    else if !fcsOk f.data || 0 < f.fecUncorrected then c.mac f.port Cat.RX_FCS_ERR
    else
      (c.countGood f.port f.data).wholeFrame f :=
  (if_neg (by rw [hup]; decide)).trans rfl

theorem execFrameReceiveD_runt (h : f.data.length < 64) :
    execFrameReceiveD f d = ((d.advance f.at_).countPcs f).mac f.port Cat.RX_RUNT :=
  (execFrameReceiveD_up hup).trans (if_pos h)

theorem execFrameReceiveD_oversize (h : 9216 < f.data.length) :
    execFrameReceiveD f d = ((d.advance f.at_).countPcs f).mac f.port Cat.RX_OVERSIZE :=
  (execFrameReceiveD_up hup).trans ((if_neg (by omega)).trans (if_pos h))

section
variable (hmin : 64 ≤ f.data.length) (hmax : f.data.length ≤ 9216)
include hmin hmax

theorem execFrameReceiveD_bad (h : fcsOk f.data = false ∨ 0 < f.fecUncorrected) :
    execFrameReceiveD f d = ((d.advance f.at_).countPcs f).mac f.port Cat.RX_FCS_ERR :=
  (execFrameReceiveD_up hup).trans
    ((if_neg (by omega)).trans ((if_neg (by omega)).trans (if_pos (by simpa using h))))

variable (hfcs : fcsOk f.data = true) (hfec : f.fecUncorrected = 0)
include hfcs hfec

/-- A whole frame is counted as good, and then is MAC control or carries data. -/
theorem execFrameReceiveD_whole :
    execFrameReceiveD f d = (((d.advance f.at_).countPcs f).countGood f.port f.data).wholeFrame f :=
  (execFrameReceiveD_up hup).trans
    ((if_neg (by omega)).trans ((if_neg (by omega)).trans ((if_neg (by simp [hfcs, hfec])).trans rfl)))

end

end

/-! ### Tags and checksums of a good frame (R317, R318) -/

theorem Dev.goodFrame_tags (h : 2 ≤ (frameTags f.data).length) : d.goodFrame f = d.mac f.port Cat.RX_OTHER_DROP := if_pos h

section
variable (htags : (frameTags f.data).length < 2)
include htags

theorem Dev.goodFrame_vlan (h : d.vlanOk f.port (frameTags f.data) = false) :
    d.goodFrame f = d.mac f.port Cat.RX_VLAN_MISMATCH :=
  (if_neg (not_le.mpr htags)).trans (if_pos (by rw [h]; rfl))

variable (hvlan : d.vlanOk f.port (frameTags f.data) = true)
include hvlan

/-- A frame whose tags fit is judged by its checksums. -/
theorem Dev.goodFrame_fits : d.goodFrame f =
    if ipCsum f.data = some false then d.mac f.port Cat.RX_IPV4_CSUM_ERR
    else if udpCsum f.data = some false then d.mac f.port Cat.RX_UDP_CSUM_ERR
    else if tcpCsum f.data = some false then d.mac f.port Cat.RX_TCP_CSUM_ERR
    else if f.full then d.mac f.port Cat.RX_FULL_DROP
    else d.classify f :=
  (if_neg (not_le.mpr htags)).trans (if_neg (by rw [hvlan]; decide))

section
variable (hip : ipCsum f.data ≠ some false) (hudp : udpCsum f.data ≠ some false) (htcp : tcpCsum f.data ≠ some false)
include hip hudp htcp

theorem Dev.goodFrame_full (h : f.full = true) : d.goodFrame f = d.mac f.port Cat.RX_FULL_DROP :=
  (Dev.goodFrame_fits htags hvlan).trans ((if_neg hip).trans ((if_neg hudp).trans ((if_neg htcp).trans (if_pos h))))

theorem Dev.goodFrame_served (h : f.full = false) : d.goodFrame f = d.classify f :=
  (Dev.goodFrame_fits htags hvlan).trans ((if_neg hip).trans ((if_neg hudp).trans ((if_neg htcp).trans
    (if_neg (by rw [h]; decide)))))

end

end

/-! ### The classes of a frame (R318) -/

theorem Dev.classify_ptp (h : isPtp f.data = true ∧ f.port = d.cget Cat.PTP_TIMING_PORT) :
    d.classify f = d.mac f.port Cat.RX_PTP := if_pos (by simpa using h)

section
variable (hptp : ¬ (isPtp f.data = true ∧ f.port = d.cget Cat.PTP_TIMING_PORT))
include hptp

theorem Dev.classify_maelgo (h : d.isMaelgo f.port f.data = true) : d.classify f =
    if opReserved (fld (beAt f.data (netAt f.data + 28) 32) 248 4) then
      (d.mac f.port Cat.RX_MAELGO).bump Cat.NET_RX_MALFORMED
    else d.mac f.port Cat.RX_MAELGO :=
  (if_neg (by simpa using hptp)).trans ((if_pos h).trans rfl)

variable (hmaelgo : d.isMaelgo f.port f.data = false)
include hmaelgo

theorem Dev.classify_arp (h : d.isArp f.port f.data = true) : d.classify f = d :=
  (if_neg (by simpa using hptp)).trans ((if_neg (by rw [hmaelgo]; decide)).trans (if_pos h))

variable (harp : d.isArp f.port f.data = false)
include harp

theorem Dev.classify_host (h : bit (d.cget Cat.NET_HOST_FRAMES) f.port = true) : d.classify f = d.toHostRing f :=
  (if_neg (by simpa using hptp)).trans ((if_neg (by rw [hmaelgo]; decide)).trans ((if_neg (by rw [harp]; decide)).trans
    (if_pos h)))

/-- A frame that nothing takes is dropped, and counted as IP where it is that. -/
theorem Dev.classify_drop (h : ¬ bit (d.cget Cat.NET_HOST_FRAMES) f.port = true) : d.classify f =
    if d.ipToPort f.port f.data = true ∧ (ipOptions f.data = true ∨ ipFragment f.data = true) then d.mac f.port Cat.RX_IP_DROP
    else d.mac f.port Cat.RX_OTHER_DROP := by
  simp only [← Bool.or_eq_true, ← Bool.and_eq_true]
  exact (if_neg (by simpa using hptp)).trans ((if_neg (by rw [hmaelgo]; decide)).trans ((if_neg (by rw [harp]; decide)).trans
    (if_neg h)))

end

end

/-! ### Host frame rings (R439, R441) -/

theorem hostfrOff_iff (d : Dev) (q : Nat) : (!d.released || 8 ≤ q) = true ↔ ¬ (d.released = true ∧ q < 8) := by
  simp only [Bool.or_eq_true, Bool.not_eq_true', decide_eq_true_eq, ← Bool.not_eq_true, ← not_lt]
  tauto

/-! ### ARP (R318, R462) -/

theorem execArpRequestD_port (at_ p ip : Nat) (d0 : Dev) : let d := d0.advance at_
    execArpRequestD at_ (some p) ip d0 = if d.netUp p = true ∧ ip = d.cget (Cat.NET_PORT_IPV4 p) then
      ((d.noLastTx p).macSent p 64 0).emit (.arp (some p) ip) else d := by
  intro d
  have h : execArpRequestD at_ (some p) ip d0 = if d.netUp p && ip = d.cget (Cat.NET_PORT_IPV4 p) then
      ((d.noLastTx p).macSent p 64 0).emit (.arp (some p) ip) else d := rfl
  rw [h]
  simp only [Bool.and_eq_true, decide_eq_true_eq]

/-! ### Underruns (R321) -/

/-- An underrun is counted, and the port buffers more of a frame before it starts to send. -/
def Dev.underran (d : Dev) (p : Nat) : Dev :=
  (d.mac p Cat.TX_UNDERRUN).cset (Cat.NET_TX_START p) (min 9216 (d.cget (Cat.NET_TX_START p) + 512))

/-- A frame of which `n` bytes had come left whole. -/
def Dev.leftWhole (d : Dev) (p n : Nat) (t : LastTx) : Prop :=
  t.data.length ≤ n ∨ t.data.length ≤ d.cget (Cat.NET_TX_START p) ∨ (t.pkt.isSome = true ∧ d.cget Cat.NET_MAELGO_UDPCSUM = 1)

theorem Dev.leftWhole_iff (d : Dev) (p n : Nat) (t : LastTx) : (!d.netUp p || t.data.length ≤ n
    || t.data.length ≤ d.cget (Cat.NET_TX_START p) || (t.pkt.isSome && d.cget Cat.NET_MAELGO_UDPCSUM = 1)) = true
    ↔ d.netUp p = false ∨ d.leftWhole p n t := by
  simp only [Bool.or_eq_true, Bool.and_eq_true, Bool.not_eq_true', decide_eq_true_eq, or_assoc, Dev.leftWhole]

/-- The device once a frame was cut after `n` bytes. -/
def Dev.frameCut (d : Dev) (p n : Nat) (t : LastTx) : Dev :=
  (((d.macUnsent p t.data.length (castOf t.data) t.pkt.isSome).emit
    (.cutFrame p (t.data.take n ++ (fcsOf (t.data.take n)).map (~~~ ·)))).underran p).noLastTx p

/-- A packet of the frame that was cut goes again. -/
def Dev.requeueLast (d : Dev) (t : LastTx) : Dev :=
  match t.pkt with
  | none => d
  | some (c, q) => d.requeue c q

section
variable {d : Dev} {at_ p n : Nat}

theorem execTxUnderrunD_none (h : Tbl.find? (d.advance at_).net.lastTx p = none) :
    execTxUnderrunD at_ p n d = if (d.advance at_).netUp p then (d.advance at_).underran p else d.advance at_ := by
  unfold execTxUnderrunD
  dsimp only
  rw [h]
  rfl

variable {t : LastTx} (h : Tbl.find? (d.advance at_).net.lastTx p = some t)
include h

theorem execTxUnderrunD_whole (hw : (d.advance at_).netUp p = false ∨ (d.advance at_).leftWhole p n t) :
    execTxUnderrunD at_ p n d = d.advance at_ := by
  unfold execTxUnderrunD
  dsimp only
  rw [h]
  exact if_pos (((d.advance at_).leftWhole_iff p n t).mpr hw)

theorem execTxUnderrunD_cut (hup : (d.advance at_).netUp p = true) (hw : ¬ (d.advance at_).leftWhole p n t) :
    execTxUnderrunD at_ p n d = ((d.advance at_).frameCut p n t).requeueLast t := by
  unfold execTxUnderrunD
  dsimp only
  rw [h]
  exact (if_neg fun hn => ((((d.advance at_).leftWhole_iff p n t).mp hn).elim (by simp [hup]) hw)).trans rfl

end

theorem execTxUnderrunD_down {d : Dev} {at_ p : Nat} (hup : (d.advance at_).netUp p = false) (n : Nat) :
    execTxUnderrunD at_ p n d = d.advance at_ := by
  cases h : Tbl.find? (d.advance at_).net.lastTx p with
  | none => exact (execTxUnderrunD_none h).trans (if_neg (by rw [hup]; decide))
  | some t => exact execTxUnderrunD_whole h (.inl hup)

theorem Dev.requeueLast_none {t : LastTx} (h : t.pkt = none) (d : Dev) : d.requeueLast t = d := by
  unfold Dev.requeueLast
  rw [h]

theorem Dev.requeueLast_some {t : LastTx} {c : Nat} {q : TxPkt} (h : t.pkt = some (c, q)) (d : Dev) :
    d.requeueLast t = d.requeue c q := by
  unfold Dev.requeueLast
  rw [h]

/-- The record of what connection `x` sent, once the unacknowledged packet `q` of it is due to go again at `now`. -/
def Conn.sentAgain (x : Conn) (q : TxPkt) (now : Nat) : List (Word × TxSent) :=
  x.sent.map fun s => if s.1 = BitVec.ofNat 32 q.seq then (s.1, { s.2 with resend := some now }) else s

section
variable {d : Dev} {c : Nat} {q : TxPkt}

theorem Dev.requeue_noConn (h : d.conn? c = none) : d.requeue c q = d := by
  unfold Dev.requeue
  rw [h]

variable {x : Conn} (h : d.conn? c = some x)
include h

theorem Dev.requeue_unsequenced (hop : opSequenced q.op = false) : d.requeue c q =
    (d.bump Cat.NET_TX_UNDERRUN_RETX).sendPkt c q.op (q.flags ||| 0x90) q.region (BitVec.ofNat 32 q.seq) q.step q.ext
      (opExtLen q.op) q.payload := by
  unfold Dev.requeue
  rw [h]
  exact if_pos (by rw [hop]; rfl)

variable (hop : opSequenced q.op = true)
include hop

theorem Dev.requeue_acked (hany : (x.sent.any fun s => s.1 = BitVec.ofNat 32 q.seq && x.unacked s) = false) :
    d.requeue c q = d := by
  unfold Dev.requeue
  rw [h]
  exact (if_neg (by rw [hop]; decide)).trans (if_neg (by rw [hany]; decide))

theorem Dev.requeue_unacked (hany : (x.sent.any fun s => s.1 = BitVec.ofNat 32 q.seq && x.unacked s) = true) :
    d.requeue c q = (d.setConn c { x with sent := x.sentAgain q d.now }).bump Cat.NET_TX_UNDERRUN_RETX := by
  unfold Dev.requeue
  rw [h]
  exact (if_neg (by rw [hop]; decide)).trans ((if_pos hany).trans rfl)

end

/-! ### The obligation -/

/-- Settles O59: the entries, the commands and the frame's checks are each the branches of one function, and each branch is a
lemma above; here the statement's conditions are matched to them. -/
theorem connectionsRegionsPortsAndFrames : Obligations.ConnectionsRegionsPortsAndFrames := by
  refine ⟨?opens, ?closes, ?connQuery, ?regionQuery, ?registers, ?revokes, ?settles, ?completes, ?mode, ?link, ?frames, ?rings,
    ?arp, ?underrun⟩
  case opens =>
    intro j rec
    refine WriteOp.of (fun _ => Dev.openWrite j rec) (fun r s => exec_netConnOpen r j rec s) (fun _ d => d.openWrite_long j rec)
      fun _ d _ => ⟨fun hid hno => ?_, fun k hid hk hroom => ?_, fun hid hfree => ⟨fun hfull => ?_, fun hroom => ?_⟩,
        fun x hid hx => ⟨fun hp => ?_, fun hp => ?_⟩⟩
    · rw [(Dev.openWrite_any hid).1 hno]; exact ⟨rfl, rfl⟩
    · rw [(Dev.openWrite_any hid).2 k hk hroom]; exact ⟨rfl, rfl⟩
    · rw [(Dev.openWrite_free hid hfree).1 hfull]; exact ⟨rfl, rfl⟩
    · rw [(Dev.openWrite_free hid hfree).2 hroom]; exact ⟨rfl, rfl⟩
    · rw [(Dev.openWrite_taken hid hx).1 hp]; exact ⟨rfl, rfl⟩
    · rw [(Dev.openWrite_taken hid hx).2 hp]; exact ⟨rfl, rfl⟩
  case closes =>
    intro j v
    refine WriteOp.of (fun _ => Dev.closeWrite j v) (fun r s => exec_netConnClose r j v s) (fun _ d => d.closeWrite_long j v)
      fun _ d _ => ⟨fun hno => ?_, fun x hx hj => ?_⟩
    · rw [Dev.closeWrite_none hno]; exact ⟨rfl, rfl⟩
    · rw [Dev.closeWrite_mine hx hj]
      obtain ⟨hopen, hdrain, helse⟩ := (d.cset (Cat.NET_CONN_CLOSE j) v).closeConn_dev v x
      exact ⟨Dev.closeConn_status _ _ _, hopen, hdrain, fun hst => ⟨helse hst, by rw [helse hst]; exact Dev.conn?_dropConn _ _⟩⟩
  case connQuery =>
    exact fun j v => WriteOp.of (fun _ => okWith fun d => d.bset (Cat.NET_CONN_QUERY j) v) (fun _ _ => rfl) (fun _ _ => rfl)
      fun _ _ _ => ⟨rfl, rfl⟩
  case regionQuery =>
    exact fun j v => WriteOp.of (fun _ => okWith fun d => d.bset (Cat.NET_REGION_QUERY j) v) (fun _ _ => rfl) (fun _ _ => rfl)
      fun _ _ _ => ⟨rfl, rfl⟩
  case registers =>
    intro j rec
    refine WriteOp.of (fun _ => Dev.regWrite j rec) (fun r s => exec_netRegionReg r j rec s) (fun _ d => d.regWrite_long j rec)
      fun _ d _ => ⟨fun hno => ?_, fun hq hfree => ?_⟩
    · rw [Dev.regWrite_denied hno]; exact ⟨rfl, rfl⟩
    · obtain ⟨k, hk⟩ := Option.ne_none_iff_exists'.mp hfree
      obtain ⟨hlt, hst⟩ := Dev.freeRegion_spec hk
      rw [Dev.regWrite_registers hq hk]
      exact ⟨rfl, k, hlt, hst, d.register_effect j k rec⟩
  case revokes =>
    intro j v
    refine WriteOp.of (fun _ => Dev.revokeWrite j v) (fun r s => rfl) (fun _ d => d.revokeWrite_long j v)
      fun _ d _ => ⟨fun hno => ?_, fun hmine => ?_⟩
    · rw [Dev.revokeWrite_none hno]; exact ⟨rfl, rfl⟩
    · rw [Dev.revokeWrite_mine hmine]
      exact ⟨rfl, fun hst => Dev.revoke_valid (d := d.cset (Cat.NET_REGION_REVOKE j) v) hst _, fun hst =>
        Dev.revoke_other (d := d.cset (Cat.NET_REGION_REVOKE j) v) hst _⟩
  case settles =>
    intro s k
    refine ⟨fun h => Acts.of_eq rfl (execRevokeSettleD_not h) rfl, fun hst hset =>
      Acts.of_eq rfl (execRevokeSettleD_settles hst hset) ⟨rfl, ?_⟩⟩
    rw [Dev.settleRegion_effect, Dev.netRegion_congr (congrArg Net.regions (Dev.advance_net _ _))]
    exact ⟨rfl, hst⟩
  case completes =>
    intro s at_ k
    refine ⟨fun h => Acts.of_eq rfl (execRevokeCompleteD_not h) rfl, fun h =>
      Acts.of_eq rfl (execRevokeCompleteD_frees h) ⟨?_, ?_⟩⟩
    · rw [Dev.netRegion_congr (congrArg Net.regions (Dev.bump_net _ _)), Dev.netRegion_setRegion, if_pos rfl]
    · rw [Dev.cget_bump, if_pos rfl]
      rfl
  case mode =>
    intro v
    refine WriteOp.of (fun _ => Dev.modeWrite v) (fun r s => exec_netPortMode r v s) (fun _ d => d.modeWrite_long v)
      fun _ d _ => ⟨fun hbusy => ?_, fun hfree => ?_⟩
    · rw [Dev.modeWrite_busy v hbusy]; exact ⟨rfl, rfl⟩
    · rw [Dev.modeWrite_retrains v hfree]
      exact ⟨rfl, (Dev.retrainPorts_mode _).trans (by rw [Dev.cget_cset, if_pos rfl]), fun p hp => Dev.retrainPorts_link _ hp⟩
  case link => exact fun s at_ p link => Acts.of_eq rfl (execPortLinkChangeD_eq at_ p link s.dev) rfl
  case frames =>
    intro s f d p l n c0 c g0 g up whole data fits good served gives ptp maelgo reserved arp other host odd
    have hg : g = c.countGood p l := (c.countGood_eq p l).symm
    have hwhole : whole → execFrameReceiveD f s.dev = g.wholeFrame f := fun ⟨hup, hmin, hmax, hfcs, hfec⟩ => by
      rw [hg]
      exact execFrameReceiveD_whole hup hmin hmax hfcs hfec
    have hdata : data → execFrameReceiveD f s.dev = g.goodFrame f := fun ⟨hw, hpause, hpfc⟩ =>
      (hwhole hw).trans (Dev.wholeFrame_data hpause hpfc)
    have hserved : served → execFrameReceiveD f s.dev = g.classify f := fun ⟨⟨⟨hd, htags, hvlan⟩, hip, hudp, htcp⟩, hroom⟩ =>
      (hdata hd).trans (Dev.goodFrame_served htags hvlan hip hudp htcp hroom)
    have hgives : ∀ {P : Prop} {t : Dev}, (P → execFrameReceiveD f s.dev = t) → gives P t := fun h hp => Acts.of_eq rfl (h hp) rfl
    refine ⟨hgives execFrameReceiveD_down, hgives fun ⟨hup, hn⟩ => execFrameReceiveD_runt hup hn,
      hgives fun ⟨hup, hn⟩ => execFrameReceiveD_oversize hup hn,
      hgives fun ⟨hup, hmin, hmax, hbad⟩ => execFrameReceiveD_bad hup hmin hmax hbad,
      hgives fun ⟨hw, h⟩ => (hwhole hw).trans (Dev.wholeFrame_pause h),
      hgives fun ⟨hw, h⟩ => (hwhole hw).trans (Dev.wholeFrame_pfc h),
      hgives fun ⟨hd, h⟩ => (hdata hd).trans (Dev.goodFrame_tags h),
      hgives fun ⟨hd, htags, h⟩ => (hdata hd).trans (Dev.goodFrame_vlan htags h),
      hgives fun ⟨⟨hd, htags, hvlan⟩, h⟩ => (hdata hd).trans ((Dev.goodFrame_fits htags hvlan).trans (if_pos h)),
      hgives fun ⟨⟨hd, htags, hvlan⟩, hip, h⟩ =>
        (hdata hd).trans ((Dev.goodFrame_fits htags hvlan).trans ((if_neg hip).trans (if_pos h))),
      hgives fun ⟨⟨hd, htags, hvlan⟩, hip, hudp, h⟩ =>
        (hdata hd).trans ((Dev.goodFrame_fits htags hvlan).trans ((if_neg hip).trans ((if_neg hudp).trans (if_pos h)))),
      hgives fun ⟨⟨⟨hd, htags, hvlan⟩, hip, hudp, htcp⟩, hfull⟩ =>
        (hdata hd).trans (Dev.goodFrame_full htags hvlan hip hudp htcp hfull),
      hgives fun ⟨hs, h⟩ => (hserved hs).trans (Dev.classify_ptp h),
      hgives fun ⟨hs, ⟨hptp, hm⟩, hres⟩ => (hserved hs).trans ((Dev.classify_maelgo hptp hm).trans (if_neg hres)),
      hgives fun ⟨hs, ⟨hptp, hm⟩, hres⟩ => (hserved hs).trans ((Dev.classify_maelgo hptp hm).trans (if_pos hres)),
      hgives fun ⟨hs, hptp, hm, ha⟩ => (hserved hs).trans (Dev.classify_arp hptp hm ha),
      hgives fun ⟨hs, ⟨hptp, hm, ha⟩, hh⟩ => (hserved hs).trans (Dev.classify_host hptp hm ha hh),
      hgives fun ⟨hs, ⟨hptp, hm, ha⟩, hh, hodd⟩ => (hserved hs).trans ((Dev.classify_drop hptp hm ha hh).trans (if_pos hodd)),
      hgives fun ⟨hs, ⟨hptp, hm, ha⟩, hh, hodd⟩ => (hserved hs).trans ((Dev.classify_drop hptp hm ha hh).trans (if_neg hodd))⟩
  case rings =>
    intro s at_ q v
    exact ⟨fun h => ⟨Acts.of_eq rfl (if_pos ((hostfrOff_iff _ q).mpr h)) rfl,
        Acts.of_eq rfl (if_pos ((hostfrOff_iff _ q).mpr h)) rfl⟩,
      fun h => Acts.of_eq rfl (if_neg fun hn => (hostfrOff_iff _ q).mp hn h) rfl,
      fun h => Acts.of_eq rfl (if_neg fun hn => (hostfrOff_iff _ q).mp hn h) rfl⟩
  case arp =>
    intro s at_ ip
    exact ⟨fun p => Acts.of_eq rfl (execArpRequestD_port at_ p ip s.dev) rfl, fun h => Acts.of_eq rfl (if_pos h) rfl,
      fun h hip => Acts.of_eq rfl ((if_neg h).trans (if_neg hip)) rfl,
      fun h hip => Acts.of_eq rfl ((if_neg h).trans (if_pos hip)) rfl⟩
  case underrun =>
    intro s at_ p n
    refine ⟨fun hup => Acts.of_eq rfl (execTxUnderrunD_down hup n) rfl,
      fun hup h => Acts.of_eq rfl ((execTxUnderrunD_none h).trans (if_pos hup)) rfl, fun t hup h =>
      ⟨fun hw => Acts.of_eq rfl (execTxUnderrunD_whole h (.inr hw)) rfl, fun hw hpkt =>
        Acts.of_eq rfl ((execTxUnderrunD_cut h hup hw).trans (Dev.requeueLast_none hpkt _)) rfl, fun k q hw hpkt => ?_⟩⟩
    have hcut := (execTxUnderrunD_cut h hup hw).trans (Dev.requeueLast_some hpkt _)
    exact ⟨fun hk => Acts.of_eq rfl (hcut.trans (Dev.requeue_noConn hk)) rfl, fun x hx =>
      ⟨fun hop => Acts.of_eq rfl (hcut.trans (Dev.requeue_unsequenced hx hop)) rfl,
        fun hop hany => Acts.of_eq rfl (hcut.trans (Dev.requeue_acked hx hop hany)) rfl,
        fun hop hany => Acts.of_eq rfl (hcut.trans (Dev.requeue_unacked hx hop hany)) rfl⟩⟩

end Sys2Proof.Machine
end

section
/-! SUPPORT. Connections that send, land seals, acknowledge and lose (R331, R336, R337, R339 to R341, R348). -/

namespace Sys2Proof.Machine

/-! ### Sending (R331, R336) -/

/-- A connection may send. -/
def Dev.maySend (d : Dev) (x : Conn) : Prop := (x.st = .open_ ∨ x.st = .draining) ∧ x.residence = 0 ∧ d.netUp x.port = true

theorem Dev.maySend_iff (d : Dev) (x : Conn) :
    (!(x.st = .open_ || x.st = .draining) || x.residence ≠ 0 || !d.netUp x.port) = true ↔ ¬ d.maySend x := by
  unfold Dev.maySend
  simp only [Bool.or_eq_true, Bool.not_eq_true', decide_eq_true_eq, ← Bool.not_eq_true]
  tauto

/-- The packet that is to go again first. -/
def Dev.dueAgain (d : Dev) (x : Conn) : Option (Word × TxSent) :=
  x.sent.find? fun p => (match p.2.resend with | some t => decide (t ≤ d.now) | none => false)
    && (!p.2.byWindow || decide (x.outstanding ≤ x.win))

/-- The window, the span of numbers and the read table have room for a packet. -/
def Dev.roomFor (d : Dev) (x : Conn) (i : TxItem) : Prop :=
  x.outstanding + i.len ≤ x.win ∧ x.span < 1023 ∧ (i.op = 3 → d.readEntries < 2048)

theorem Dev.roomFor_iff (d : Dev) (x : Conn) (i : TxItem) :
    (x.win < x.outstanding + i.len || 1023 ≤ x.span || (i.op = opReadReq && 2048 ≤ d.readEntries)) = true ↔ ¬ d.roomFor x i := by
  have hop : opReadReq = 3 := rfl
  simp only [Bool.or_eq_true, Bool.and_eq_true, decide_eq_true_eq, Dev.roomFor, hop, ← not_lt (b := x.outstanding + i.len),
    ← not_lt (b := 2048), ← not_lt (b := 1023)]
  tauto

/-- The next packet of the queue leaves if there is room. -/
def Dev.sendQueued (d : Dev) (c : Nat) (x : Conn) : Dev :=
  match x.queue with
  | [] => d
  | i :: rest =>
    if x.win < x.outstanding + i.len || 1023 ≤ x.span || (i.op = opReadReq && 2048 ≤ d.readEntries) then d
    else d.sendNext c x i rest

/-- What a connection that may send does. -/
def Dev.sendDue (d : Dev) (c : Nat) (x : Conn) : Dev :=
  match d.dueAgain x with
  | some (seq, s) => d.sendAgain c x seq s
  | none => d.sendQueued c x

section
variable {d : Dev} {at_ c : Nat}

theorem execPacketTransmitD_noConn (h : (d.advance at_).conn? c = none) : execPacketTransmitD at_ c d = d.advance at_ := by
  unfold execPacketTransmitD
  dsimp only
  rw [h]

section
variable {x : Conn} (hx : (d.advance at_).conn? c = some x)
include hx

theorem execPacketTransmitD_not (h : ¬ (d.advance at_).maySend x) : execPacketTransmitD at_ c d = d.advance at_ := by
  unfold execPacketTransmitD
  dsimp only
  rw [hx]
  exact if_pos ((Dev.maySend_iff _ x).mpr h)

theorem execPacketTransmitD_may (h : (d.advance at_).maySend x) : execPacketTransmitD at_ c d = (d.advance at_).sendDue c x := by
  unfold execPacketTransmitD
  dsimp only
  rw [hx]
  exact (if_neg fun hn => (Dev.maySend_iff _ x).mp hn h).trans rfl

end

variable {x : Conn}

theorem Dev.sendDue_again {q : Word} {y : TxSent} (h : d.dueAgain x = some (q, y)) : d.sendDue c x = d.sendAgain c x q y := by
  unfold Dev.sendDue
  rw [h]

theorem Dev.sendDue_queued (h : d.dueAgain x = none) : d.sendDue c x = d.sendQueued c x := by
  unfold Dev.sendDue
  rw [h]

theorem Dev.sendQueued_nil (h : x.queue = []) : d.sendQueued c x = d := by
  unfold Dev.sendQueued
  rw [h]

theorem Dev.sendQueued_cons {i : TxItem} {rest : List TxItem} (h : x.queue = i :: rest) :
    (d.roomFor x i → d.sendQueued c x = d.sendNext c x i rest) ∧ (¬ d.roomFor x i → d.sendQueued c x = d) := by
  unfold Dev.sendQueued
  rw [h]
  exact ⟨fun hr => if_neg fun hn => (d.roomFor_iff x i).mp hn hr, fun hr => if_pos ((d.roomFor_iff x i).mpr hr)⟩

end

/-! ### Seals that land (R348) -/

/-- Passing numbers keeps the seals that wait. -/
theorem Conn.passCum_seals (fuel stamp : Nat) (x : Conn) : (x.passCum stamp fuel).seals = x.seals := by
  induction fuel generalizing x with
  | zero => rfl
  | succ n ih =>
    unfold Conn.passCum
    split
    · exact ih _
    · rfl

/-- A packet leaves no seal where there was none. -/
theorem Dev.sendPkt_seals {d : Dev} {c : Nat} {x : Conn} (hx : d.conn? c = some x) (op flags region : Nat) (seq : Word)
    (step ext extLen : Nat) (payload : List Byte) :
    ∃ y, (d.sendPkt c op flags region seq step ext extLen payload).conn? c = some y ∧ y.seals ⊆ x.seals := by
  cases hup : d.netUp x.port with
  | false =>
    rw [Dev.sendPkt_down hx hup]
    exact ⟨x, hx, List.Subset.refl _⟩
  | true =>
    obtain ⟨y, hy, hkept⟩ := (Dev.sendPkt_kept hx hup op flags region seq step ext extLen payload).conn _ (Dev.conn?_setConn _ _ _)
    exact ⟨y, hy, hkept.seals⟩

section
variable {d : Dev} {c : Nat}

theorem Dev.sendAck_noConn (h : d.conn? c = none) : d.sendAck c = d := by
  unfold Dev.sendAck
  rw [h]

theorem Dev.sendAck_seals {x : Conn} (hx : d.conn? c = some x) : ∃ y, (d.sendAck c).conn? c = some y ∧ y.seals ⊆ x.seals := by
  unfold Dev.sendAck
  rw [hx]
  exact Dev.sendPkt_seals (Dev.conn?_setConn _ _ _) _ _ _ _ _ _ _ _

theorem Dev.regions_sendAck (d : Dev) (c : Nat) : (d.sendAck c).net.regions = d.net.regions := by
  cases hx : d.conn? c with
  | none => rw [Dev.sendAck_noConn hx]
  | some x =>
    unfold Dev.sendAck
    rw [hx]
    exact Dev.regions_sendPkt _ _ _ _ _ _ _ _ _ _

end

/-- A connection whose seal has landed. -/
def Conn.sealPassed (x : Conn) (w : WaitSeal) (now : Nat) : Conn :=
  Conn.passCum { x with seals := x.seals.filter fun t => t.seq ≠ w.seq } now (x.got.length + 1)

theorem Conn.sealPassed_seals (x : Conn) (w : WaitSeal) (now : Nat) : ∀ t ∈ (x.sealPassed w now).seals, t.seq ≠ w.seq := by
  intro t ht
  rw [Conn.sealPassed, Conn.passCum_seals] at ht
  exact of_decide_eq_true (List.mem_filter.mp ht).2

/-- The device once the seal's payload is in place and its mark is raised. -/
def Dev.sealPut (d : Dev) (w : WaitSeal) (r : NetRegion) : Dev :=
  let e := d.land r.job (r.va + w.offset) w.payload
  if bit r.record 361 then e.incMark r.job (fld r.record 351 10) 1 w.at_ else e

/-- The device once the seal stands in its region's ring, where that has one. -/
def Dev.sealRung (d : Dev) (c : Nat) (w : WaitSeal) (r : NetRegion) : Dev :=
  if bit r.record 350 then
    let e := d.jwr r.job (fld r.record 204 52 + 32 * r.pos) (sealRecord c w r.phase)
    let wrap := r.pos + 1 = 2 ^ fld r.record 345 5
    e.setRegion (w.region % 2 ^ 16) { e.netRegion (w.region % 2 ^ 16) with
      pos := if wrap then 0 else r.pos + 1, phase := if wrap then !r.phase else r.phase }
  else d

/-- The device once a landed seal is counted in its region. -/
def Dev.countLanded (d : Dev) (k : Nat) : Dev := d.setRegion k { d.netRegion k with landed := (d.netRegion k).landed + 1 }

/-- The device on which a seal has landed, before it is acknowledged. -/
def Dev.sealLanded (d : Dev) (c : Nat) (w : WaitSeal) : Dev :=
  let r := d.netRegion (w.region % 2 ^ 16)
  ((d.sealPut w r).sealRung c w r).countLanded (w.region % 2 ^ 16)

theorem Dev.landSeal_eq (d : Dev) (c : Nat) (w : WaitSeal) : d.landSeal c w =
    ((d.sealLanded c w).updConn c fun x => x.sealPassed w (d.sealLanded c w).now).sendAck c := rfl

theorem Dev.net_jwr (d : Dev) (j va : Nat) (l : List Byte) : (d.jwr j va l).net = d.net :=
  (congrArg Dev.net (d.tracedOf_jwr j va l).1).trans rfl

theorem Dev.net_sealPut (d : Dev) (w : WaitSeal) (r : NetRegion) : (d.sealPut w r).net = d.net := by
  have hland (j va : Nat) (l : List Byte) : (d.land j va l).net = d.net := (Dev.bumpBy_net _ _ _).trans (d.net_jwr _ _ _)
  unfold Dev.sealPut
  dsimp only
  split
  · exact (Dev.net_incMark _ _ _ _ _).trans (hland _ _ _)
  · exact hland _ _ _

theorem Dev.sealRung_landed (d : Dev) (c : Nat) (w : WaitSeal) (r : NetRegion) :
    ((d.sealRung c w r).netRegion (w.region % 2 ^ 16)).landed = (d.netRegion (w.region % 2 ^ 16)).landed := by
  unfold Dev.sealRung
  split
  · dsimp only
    rw [Dev.netRegion_setRegion, if_pos rfl]
    rw [Dev.netRegion_congr (congrArg Net.regions (d.net_jwr _ _ _))]
  · rfl

theorem Dev.landSeal_landed (d : Dev) (c : Nat) (w : WaitSeal) :
    ((d.landSeal c w).netRegion (w.region % 2 ^ 16)).landed = (d.netRegion (w.region % 2 ^ 16)).landed + 1 := by
  have hkept : (d.landSeal c w).net.regions = (d.sealLanded c w).net.regions :=
    (Dev.regions_sendAck _ _).trans (Dev.regions_updConn _ _)
  rw [Dev.netRegion_congr hkept, Dev.sealLanded, Dev.countLanded, Dev.netRegion_setRegion, if_pos rfl]
  dsimp only
  rw [Dev.sealRung_landed, Dev.netRegion_congr (congrArg Net.regions (d.net_sealPut w _))]

theorem Dev.landSeal_seals (d : Dev) (c : Nat) (w : WaitSeal) {y : Conn} (hy : (d.landSeal c w).conn? c = some y) :
    ∀ t ∈ y.seals, t.seq ≠ w.seq := by
  rw [Dev.landSeal_eq] at hy
  cases hx : (d.sealLanded c w).conn? c with
  | none =>
    rw [Dev.updConn_none hx, Dev.sendAck_noConn hx, hx] at hy
    cases hy
  | some x =>
    rw [Dev.updConn_some hx] at hy
    obtain ⟨z, hz, hsub⟩ := Dev.sendAck_seals (Dev.conn?_setConn (d.sealLanded c w) c (x.sealPassed w (d.sealLanded c w).now))
    obtain rfl : z = y := Option.some.inj (hz.symm.trans hy)
    exact fun t ht => x.sealPassed_seals w _ t (hsub ht)

section
variable {d : Dev} {at_ c : Nat}

theorem execSealLandD_noConn (h : (d.advance at_).conn? c = none) : execSealLandD at_ c d = d.advance at_ := by
  unfold execSealLandD
  dsimp only
  rw [h]

variable {x : Conn} (hx : (d.advance at_).conn? c = some x)
include hx

theorem execSealLandD_front {w : WaitSeal} (hw : x.frontSeal = some w) : execSealLandD at_ c d =
    if x.taints.isEmpty && (d.advance at_).sealServed w then (d.advance at_).landSeal c w else d.advance at_ := by
  unfold execSealLandD
  dsimp only
  rw [hx]
  dsimp only
  rw [hw]

theorem execSealLandD_waits (h : x.frontSeal = none ∨ x.taints ≠ []) : execSealLandD at_ c d = d.advance at_ := by
  cases hw : x.frontSeal with
  | none =>
    unfold execSealLandD
    dsimp only
    rw [hx]
    dsimp only
    rw [hw]
  | some w =>
    have htaints : x.taints ≠ [] := h.resolve_left (by rw [hw]; simp)
    exact (execSealLandD_front hx hw).trans (if_neg (by simp [htaints]))

end

/-! ### Acknowledgements, losses and rounds (R337, R339 to R341) -/

theorem Conn.taintDeadline_some {x : Conn} {w : WaitSeal} (hw : x.frontSeal = some w) (ht : x.taints ≠ []) (hold : Nat) :
    x.taintDeadline hold = some (max x.cumAt w.at_ + hold) := by
  unfold Conn.taintDeadline
  rw [hw]
  exact if_neg (by simpa using ht)

section
variable {d : Dev} {c : Nat}

theorem execAckDelayD_noConn (h : d.conn? c = none) : execAckDelayD c d = d := by
  unfold execAckDelayD
  rw [h]

theorem execTaintHoldExpiryD_noConn (h : d.conn? c = none) : execTaintHoldExpiryD c d = d := by
  unfold execTaintHoldExpiryD
  rw [h]

theorem execRtoExpiryD_noConn (h : d.conn? c = none) (q : Word) : execRtoExpiryD c q d = d := by
  unfold execRtoExpiryD
  rw [h]

variable {x : Conn} (hx : d.conn? c = some x)
include hx

theorem execAckDelayD_none (h : x.ackSince = none) : execAckDelayD c d = d := by
  unfold execAckDelayD
  rw [hx]
  dsimp only
  rw [h]

theorem execAckDelayD_some {t : Nat} (h : x.ackSince = some t) :
    execAckDelayD c d = (d.advance (t + d.cget Cat.NET_ACK_DELAY)).sendAck c := by
  unfold execAckDelayD
  rw [hx]
  dsimp only
  rw [h]

theorem execTaintHoldExpiryD_none (h : x.frontSeal = none ∨ x.taints = []) : execTaintHoldExpiryD c d = d := by
  unfold execTaintHoldExpiryD
  rw [hx]
  dsimp only
  split
  · next w t hw ht =>
    rcases h with h | h
    · rw [h] at hw
      cases hw
    · rw [Conn.taintDeadline, h] at ht
      cases ht
  · rfl

theorem execTaintHoldExpiryD_some {w : WaitSeal} (hw : x.frontSeal = some w) (ht : x.taints ≠ []) :
    let t := max x.cumAt w.at_ + d.cget Cat.NET_TAINT_HOLD
    execTaintHoldExpiryD c d = (((d.advance (t + d.cget Cat.TT_SETTLE)).connError c 1).updConn c fun y =>
      { y with taintMiss := some (t, x.taints) }).sendNack c w.seq 5 0 0 0 true := by
  intro t
  unfold execTaintHoldExpiryD
  rw [hx]
  dsimp only
  rw [hw, Conn.taintDeadline_some hw ht]

theorem execRtoExpiryD_none {q : Word} (h : (x.sent.find? fun p => p.1 = q && !p.2.acked && p.2.resend.isNone) = none) :
    execRtoExpiryD c q d = d := by
  unfold execRtoExpiryD
  rw [hx]
  dsimp only
  rw [h]

/-- A connection that has noted when an acknowledgement was missed. -/
def Conn.noteMissed (x : Conn) (q : Word) (t : Nat) : Conn :=
  { x with sent := x.sent.map fun p => if p.1 = q then (q, { p.2 with missed := some t }) else p }

theorem execRtoExpiryD_some {q r : Word} {y : TxSent}
    (h : (x.sent.find? fun p => p.1 = q && !p.2.acked && p.2.resend.isNone) = some (r, y)) : execRtoExpiryD c q d =
      ((d.advance (d.rtoAt y + d.cget Cat.TT_SETTLE)).setConn c (x.noteMissed q (d.rtoAt y))).loseSeq c q := by
  unfold execRtoExpiryD
  rw [hx]
  dsimp only
  rw [h]
  rfl

/-- A connection that sends packet `q` again from time `t` on. -/
def Conn.sendsAgain (x : Conn) (q : Word) (t : Nat) (byWindow : Bool) : Conn :=
  { x with sent := x.sent.map fun p => if p.1 = q then (q, { p.2 with resend := some t, byWindow := byWindow }) else p }

theorem Dev.resendSeq_found {q r : Word} {y : TxSent} (h : (x.sent.find? fun p => p.1 = q) = some (r, y)) (t : Nat)
    (byWindow : Bool) : d.resendSeq c q t byWindow = if d.cget Cat.NET_RETRY_MAX + 1 ≤ y.times then d.connError c 0
      else d.setConn c (x.sendsAgain q t byWindow) := by
  unfold Dev.resendSeq
  rw [hx]
  dsimp only
  rw [h]
  rfl

/-- A connection that has lost a packet in this round. -/
def Conn.hasLost (x : Conn) : Conn := { x with roundLoss := true }

/-- A packet that is lost has its connection in ERROR at the retry limit, and else goes again at once. -/
theorem Dev.loseSeq_found {q r : Word} {y : TxSent} (h : (x.sent.find? fun p => p.1 = q) = some (r, y)) : d.loseSeq c q =
    if d.cget Cat.NET_RETRY_MAX + 1 ≤ y.times then (d.setConn c x.hasLost).connError c 0
    else (d.setConn c x.hasLost).setConn c (x.hasLost.sendsAgain q d.now false) := by
  have hlost : d.loseSeq c q = (d.setConn c x.hasLost).resendSeq c q d.now false :=
    congrArg (fun e : Dev => e.resendSeq c q d.now false) (Dev.updConn_some hx Conn.hasLost)
  rw [hlost]
  exact Dev.resendSeq_found (d := d.setConn c x.hasLost) (Dev.conn?_setConn _ _ _) h _ _

end

theorem Conn.sendsAgain_sent (x : Conn) (q : Word) (t : Nat) (byWindow : Bool) :
    ∀ p ∈ (x.sendsAgain q t byWindow).sent, p.1 = q → p.2.resend = some t := by
  intro p hp hq
  obtain ⟨p', -, rfl⟩ := List.mem_map.mp hp
  by_cases h : p'.1 = q
  · rw [if_pos h]
  · rw [if_neg h] at hq
    exact absurd hq h

theorem Dev.endRound_loss (d : Dev) {x : Conn} (h : x.roundLoss = true) :
    (d.endRound x).win = max (d.cget Cat.NET_WIN_MIN) (x.win / 2) := if_pos h

theorem Dev.endRound_clean (d : Dev) {x : Conn} (h : x.roundLoss = false) (hce : x.roundCe = 0) :
    (d.endRound x).win = min (d.cget Cat.NET_WIN_MAX) (x.win + d.cget Cat.NET_MAELGO_MAX_PAYLOAD) :=
  (if_neg (by simp [h])).trans (if_neg (by omega))

/-- A round with congestion marks lowers the window by a part of it. -/
theorem Dev.endRound_marked (d : Dev) {x : Conn} (h : x.roundLoss = false) (hce : 0 < x.roundCe) :
    (d.endRound x).win ≤ max (d.cget Cat.NET_WIN_MIN) x.win := by
  have hw : (d.endRound x).win = max (d.cget Cat.NET_WIN_MIN)
      (x.win * (2 * max 1 x.roundAcked - min x.roundCe (2 * max 1 x.roundAcked)) / (2 * max 1 x.roundAcked)) :=
    (if_neg (by simp [h])).trans (if_pos hce)
  rw [hw]
  refine max_le_max_left _ (Nat.div_le_of_le_mul ?_)
  rw [Nat.mul_comm]
  exact Nat.mul_le_mul_right _ (Nat.sub_le _ _)

end Sys2Proof.Machine
end

section
/-! SUPPORT. Contexts fetched, connections drained, what is held and what times out (R325, R335, R350 to R352, R355), and
obligation O58. -/

namespace Sys2Proof.Machine

/-! ### ERROR, and packets that leave -/

section
variable {d : Dev} {c : Nat} {x : Conn} (hx : d.conn? c = some x)
include hx

/-- However it entered, a connection of which an error is noted is in ERROR. -/
theorem Dev.connError_leaves (cause : Nat) : ∃ y, (d.connError c cause).conn? c = some y ∧ y.st = .error ∧ x.KeptAs y := by
  by_cases hst : x.st = .error
  · rw [Dev.connError_again hx hst]
    exact ⟨x, hx, hst, .refl x⟩
  · obtain ⟨y, -, hkept, he⟩ := Dev.connError_enters hx hst cause
    rw [he]
    exact ⟨y.failed, Dev.conn?_setConn _ _ _, rfl, hkept.pn, hkept.residence, List.nil_subset _⟩

theorem Dev.connError_empties (h : x.st ≠ .error) (cause : Nat) : ∃ y, (d.connError c cause).conn? c = some y
    ∧ y.st = .error ∧ y.queue = [] ∧ y.sent = [] ∧ y.seals = [] ∧ y.taints = [] := by
  obtain ⟨y, -, -, he⟩ := Dev.connError_enters hx h cause
  rw [he]
  exact ⟨y.failed, Dev.conn?_setConn _ _ _, rfl, rfl, rfl, rfl, rfl⟩

theorem Dev.connError_counted (h : x.st ≠ .error) (cause : Nat) :
    (d.connError c cause).cget Cat.NET_CONN_ERROR = d.cget Cat.NET_CONN_ERROR + 1 := by
  obtain ⟨y, -, -, he⟩ := Dev.connError_enters hx h cause
  have hcount : (d.connError c cause).cget Cat.NET_CONN_ERROR = (d.errorNoted c x cause).cget Cat.NET_CONN_ERROR := by
    rw [he]
    rfl
  rw [hcount, d.errorNoted_counts x cause _ (by unfold untracedKey; decide) (by decide) (by decide), Dev.cget_bump, if_pos rfl]

/-- Other counters than its own, and those of failed transfers, keep their values. -/
theorem Dev.connError_cget (cause : Nat) {key : Nat} (hu : untracedKey key) (hs : key ≠ Cat.NET_SEND_FAIL)
    (ht : key ≠ Cat.TIE_LATE_STAMP) (hc : key ≠ Cat.NET_CONN_ERROR) : (d.connError c cause).cget key = d.cget key := by
  by_cases hst : x.st = .error
  · rw [Dev.connError_again hx hst]
  · obtain ⟨y, -, -, he⟩ := Dev.connError_enters hx hst cause
    have hcount : (d.connError c cause).cget key = (d.errorNoted c x cause).cget key := by
      rw [he]
      rfl
    rw [hcount, d.errorNoted_counts x cause key hu hs ht, Dev.cget_bump, if_neg hc, Nat.add_zero]

section
variable (hup : d.netUp x.port = true) (op flags region : Nat) (seq : Word) (step ext extLen : Nat) (payload : List Byte)
include hup

/-- A packet takes the next packet number. -/
theorem Dev.sendPkt_pn : ∃ y, (d.sendPkt c op flags region seq step ext extLen payload).conn? c = some y ∧ y.pn = x.pn + 1 := by
  obtain ⟨y, hy, hkept⟩ := (Dev.sendPkt_kept hx hup op flags region seq step ext extLen payload).conn _ (Dev.conn?_setConn _ _ _)
  exact ⟨y, hy, hkept.pn⟩

/-- The packet leaves the device in its frame. -/
theorem Dev.sendPkt_out :
    Out.packet (d.nextPkt x op flags region seq step ext payload)
        (d.pktFrame c x d.take.1 extLen (d.nextPkt x op flags region seq step ext payload))
      ∈ (d.sendPkt c op flags region seq step ext extLen payload).out :=
  (Dev.sendPkt_kept hx hup op flags region seq step ext extLen payload).said (List.mem_cons_self ..)

end

end

/-! ### A context that is fetched (R350) -/

section
variable {d : Dev} {at_ c : Nat}

theorem execContextFetchCompleteD_noConn (h : (d.advance at_).conn? c = none) :
    execContextFetchCompleteD at_ c d = d.advance at_ := by
  unfold execContextFetchCompleteD
  dsimp only
  rw [h]

/-- The device once a context's authentication has failed, before its held packets go. -/
def Dev.authFailed (d : Dev) (c : Nat) : Dev :=
  ((d.updConn c fun x => { x with residence := 0 }).bump Cat.NET_CTX_AUTH_FAIL).connError c 3

/-- The device once held packets of the connection are gone. -/
def Dev.unheld (d : Dev) (c : Nat) : Dev := { d with net := { d.net with hold := d.net.hold.filter fun h => h.pkt.conn ≠ c } }

/-- What a fetch makes of a context that was away. -/
def Dev.contextFetched (d : Dev) (c : Nat) (x : Conn) (at_ : Nat) : Dev :=
  if x.residence = 2 && !d.storeOk x then (d.authFailed c).unheld c
  else (((d.holdTies c at_).updConn c fun x => { x with residence := 0, used := d.now }).evictContexts).resumeHeld c at_

section
variable {x : Conn} (hx : (d.advance at_).conn? c = some x)
include hx

theorem execContextFetchCompleteD_here (h : x.residence = 0) : execContextFetchCompleteD at_ c d = d.advance at_ := by
  unfold execContextFetchCompleteD
  dsimp only
  rw [hx]
  exact if_pos h

theorem execContextFetchCompleteD_away (h : x.residence ≠ 0) :
    execContextFetchCompleteD at_ c d = (d.advance at_).contextFetched c x at_ := by
  unfold execContextFetchCompleteD
  dsimp only
  rw [hx]
  exact (if_neg h).trans rfl

end

variable {x : Conn}

theorem Dev.contextFetched_fails (hres : x.residence = 2) (hbad : d.storeOk x = false) :
    d.contextFetched c x at_ = (d.authFailed c).unheld c := if_pos (by simp [hres, hbad])

theorem Dev.contextFetched_resumes (h : x.residence = 2 → d.storeOk x = true) : d.contextFetched c x at_ =
    (((d.holdTies c at_).updConn c fun x => { x with residence := 0, used := d.now }).evictContexts).resumeHeld c at_ :=
  if_neg (by simpa using h)

theorem Dev.mem_unheld (d : Dev) (c : Nat) : ∀ h ∈ (d.unheld c).net.hold, h.pkt.conn ≠ c :=
  fun _ hh => of_decide_eq_true (List.mem_filter.mp hh).2

theorem Dev.conn?_awayFailed (d : Dev) (c : Nat) (x : Conn) :
    ((d.setConn c { x with residence := 0 }).bump Cat.NET_CTX_AUTH_FAIL).conn? c = some { x with residence := 0 } := by
  unfold Dev.conn?
  rw [Dev.bump_net]
  exact Dev.conn?_setConn _ _ _

section
variable (hx : d.conn? c = some x)
include hx

theorem Dev.authFailed_eq : d.authFailed c = ((d.setConn c { x with residence := 0 }).bump Cat.NET_CTX_AUTH_FAIL).connError c 3 :=
  congrArg (fun e : Dev => (e.bump Cat.NET_CTX_AUTH_FAIL).connError c 3) (Dev.updConn_some hx fun x => { x with residence := 0 })

theorem Dev.authFailed_conn : ∃ y, (d.authFailed c).conn? c = some y ∧ y.st = .error ∧ y.residence = 0 := by
  obtain ⟨y, hy, hst, hkept⟩ := Dev.connError_leaves (d.conn?_awayFailed c x) 3
  rw [Dev.authFailed_eq hx]
  exact ⟨y, hy, hst, hkept.residence⟩

theorem Dev.authFailed_counted : (d.authFailed c).cget Cat.NET_CTX_AUTH_FAIL = d.cget Cat.NET_CTX_AUTH_FAIL + 1 := by
  rw [Dev.authFailed_eq hx, Dev.connError_cget (d.conn?_awayFailed c x) 3 (by unfold untracedKey; decide) (by decide) (by decide)
    (by decide), Dev.cget_bump, if_pos rfl]
  rfl

end

end

/-! ### A connection that drains (R335) -/

/-- A draining connection has nothing left, or has drained for long enough. -/
def Dev.drainedOut (d : Dev) (c : Nat) (x : Conn) : Prop :=
  (x.queue = [] ∧ x.sent = [] ∧ d.netHeld c x = false) ∨ x.drainAt + d.cget Cat.NET_RTO_MAX * d.cget Cat.NET_RETRY_MAX ≤ d.now

theorem Dev.drainedOut_iff (d : Dev) (c : Nat) (x : Conn) : (x.st ≠ .draining
    || !((x.queue.isEmpty && x.sent.isEmpty && !d.netHeld c x)
      || x.drainAt + d.cget Cat.NET_RTO_MAX * d.cget Cat.NET_RETRY_MAX ≤ d.now)) = true
    ↔ x.st ≠ .draining ∨ ¬ d.drainedOut c x := by
  unfold Dev.drainedOut
  rw [Bool.or_eq_true, Bool.not_eq_true', ← Bool.not_eq_true]
  simp only [Bool.or_eq_true, Bool.and_eq_true, Bool.not_eq_true', decide_eq_true_eq, List.isEmpty_iff, and_assoc]

/-- The device once a drained connection's transfers have failed and it and all that it held are gone. -/
def Dev.drainEnded (d : Dev) (c : Nat) (x : Conn) : Dev :=
  let e := x.xfers.foldl (fun d kt => d.failXfer c kt.1 0xFF) d
  { e.dropConn c with net := { (e.dropConn c).net with
    hold := e.net.hold.filter (fun h => h.pkt.conn ≠ c), versions := e.net.versions.filter (fun h => h.pkt.conn ≠ c) } }

theorem Dev.drainEnded_effect (d : Dev) (c : Nat) (x : Conn) : (d.drainEnded c x).conn? c = none
    ∧ (∀ h ∈ (d.drainEnded c x).net.hold, h.pkt.conn ≠ c) ∧ ∀ h ∈ (d.drainEnded c x).net.versions, h.pkt.conn ≠ c :=
  ⟨Dev.conn?_dropConn _ _, fun _ hh => of_decide_eq_true (List.mem_filter.mp hh).2,
    fun _ hh => of_decide_eq_true (List.mem_filter.mp hh).2⟩

section
variable {d : Dev} {at_ c : Nat}

theorem execConnectionDrainEndD_noConn (h : (d.advance at_).conn? c = none) :
    execConnectionDrainEndD at_ c d = d.advance at_ := by
  unfold execConnectionDrainEndD
  dsimp only
  rw [h]

variable {x : Conn} (hx : (d.advance at_).conn? c = some x)
include hx

theorem execConnectionDrainEndD_not (h : x.st ≠ .draining ∨ ¬ (d.advance at_).drainedOut c x) :
    execConnectionDrainEndD at_ c d = d.advance at_ := by
  unfold execConnectionDrainEndD
  dsimp only
  rw [hx]
  exact if_pos ((Dev.drainedOut_iff _ c x).mpr h)

theorem execConnectionDrainEndD_ends (hst : x.st = .draining) (h : (d.advance at_).drainedOut c x) :
    execConnectionDrainEndD at_ c d = (d.advance at_).drainEnded c x := by
  unfold execConnectionDrainEndD
  dsimp only
  rw [hx]
  exact (if_neg fun hn => ((Dev.drainedOut_iff _ c x).mp hn).elim (absurd hst) (absurd h)).trans rfl

end

/-! ### Versions, packets and reads that wait (R350 to R352) -/

theorem getElem?_listSet {α : Type} (v : α) : ∀ (l : List α) {k : Nat} {w : α}, l[k]? = some w → (listSet l k v)[k]? = some v
  | [], _, _, h => by simp at h
  | _ :: _, 0, _, _ => rfl
  | _ :: t, k + 1, _, h => getElem?_listSet v t (k := k) h

/-- The device without the held read at place `k`. -/
def Dev.unversioned (d : Dev) (k : Nat) : Dev := { d with net := { d.net with versions := d.net.versions.eraseIdx k } }

/-- The held read at place `k` is put off. -/
def Dev.versionKept (d : Dev) (k : Nat) (h : HeldPkt) : Dev :=
  { d with net := { d.net with versions := listSet d.net.versions k { h with at_ := d.now } } }

section
variable {d : Dev} {k : Nat}

theorem execVersionHoldRetryD_none (h : d.net.versions[k]? = none) : execVersionHoldRetryD k d = d := by
  unfold execVersionHoldRetryD
  rw [h]

section
variable {h : HeldPkt} (hh : d.net.versions[k]? = some h)
include hh

theorem execVersionHoldRetryD_noConn (hc : (d.advance (h.at_ + 8000)).conn? h.pkt.conn = none) :
    execVersionHoldRetryD k d = (d.advance (h.at_ + 8000)).unversioned k := by
  unfold execVersionHoldRetryD
  rw [hh]
  dsimp only
  rw [hc]
  rfl

variable {x : Conn} (hx : (d.advance (h.at_ + 8000)).conn? h.pkt.conn = some x)
include hx

theorem execVersionHoldRetryD_decided {f : Dev}
    (hf : ((d.advance (h.at_ + 8000)).unversioned k).decideVersion h.pkt x false = some f) : execVersionHoldRetryD k d = f := by
  unfold Dev.unversioned at hf
  unfold execVersionHoldRetryD
  rw [hh]
  dsimp only
  rw [hx]
  dsimp only
  rw [hf]

theorem execVersionHoldRetryD_kept (hf : ((d.advance (h.at_ + 8000)).unversioned k).decideVersion h.pkt x false = none) :
    execVersionHoldRetryD k d = (d.advance (h.at_ + 8000)).versionKept k h := by
  unfold Dev.unversioned at hf
  unfold execVersionHoldRetryD
  rw [hh]
  dsimp only
  rw [hx]
  dsimp only
  rw [hf]
  rfl

end

theorem execHoldTimeoutD_none (h : d.net.hold[k]? = none) : execHoldTimeoutD k d = d := by
  unfold execHoldTimeoutD
  rw [h]

/-- The packet at place `k` of those held is dropped, and the deadline that it missed is noted. -/
def Dev.unholdAt (d : Dev) (k : Nat) (h : HeldPkt) (t : Nat) : Dev :=
  { d with net := { d.net with hold := d.net.hold.eraseIdx k, holdMiss := (h.pkt.conn, t) :: d.net.holdMiss } }

theorem execHoldTimeoutD_some {h : HeldPkt} (hh : d.net.hold[k]? = some h) :
    execHoldTimeoutD k d = ((d.advance (h.at_ + d.cget Cat.NET_HOLD_TIMEOUT + d.cget Cat.TT_SETTLE)).unholdAt k h
      (h.at_ + d.cget Cat.NET_HOLD_TIMEOUT)).bump Cat.NET_HOLD_TIMEOUT_DROP := by
  unfold execHoldTimeoutD
  rw [hh]
  rfl

theorem execReadTimeoutD_none (h : Tbl.find? d.net.reads k = none) : execReadTimeoutD k d = d := by
  unfold execReadTimeoutD
  rw [h]

/-- The parts of a read that are missing are asked for again. -/
def Dev.readAgain (d : Dev) (k : Nat) (r : ReadEntry) : Dev :=
  (runsOf r.missing).foldl (fun d q =>
    d.addRead (ReadEntry.part { r with reissues := r.reissues + 1 } q.1 q.2 ((List.range q.2).map (q.1 + ·))) false)
    ((d.bump Cat.NET_READ_RETRY).dropRead k)

/-- The line that one missing part of a read was to fill. -/
def Dev.missingLine (d : Dev) (r : ReadEntry) (n : Nat) : Nat :=
  match d.xlate r.job (r.dst + 64 * n) false with
  | some (pa, _) => pa / 64 * 64
  | none => 0

/-- A read is given up: what is missing of it becomes zeros. -/
def Dev.readAbandoned (d : Dev) (k : Nat) (r : ReadEntry) : Dev :=
  let zeros := r.missing.foldl (fun d n => d.jwr r.job (r.dst + 64 * n) (List.replicate (min 64 (r.room - 64 * n)) 0)) d
  let f := (zeros.bumpBy Cat.NET_READ_ABANDON (runsOf r.missing).length).updCmd r.cmd fun c =>
    c.drop (r.missing.map (d.missingLine r))
  ((f.dropRead k).settleXfer r.conn r.xfer).checkSent r.cmd

variable {r : ReadEntry} (hr : Tbl.find? d.net.reads k = some r)
include hr

theorem execReadTimeoutD_unacked (h : r.ackedAt = none) : execReadTimeoutD k d = d := by
  unfold execReadTimeoutD
  rw [hr]
  dsimp only
  rw [h]

theorem execReadTimeoutD_acked {t : Nat} (h : r.ackedAt = some t) : execReadTimeoutD k d =
    let w := d.advance (t + d.cget Cat.NET_READ_TIMEOUT)
    if r.reissues < w.cget Cat.NET_READ_RETRIES then w.readAgain k r else w.readAbandoned k r := by
  unfold execReadTimeoutD
  rw [hr]
  dsimp only
  rw [h]
  rfl

end

/-! ### TTSYNC (R355) -/

/-- The time of the next TTSYNC. -/
def Dev.ttsyncDue (d : Dev) : Nat :=
  match d.net.ttSent with
  | some t => if d.tt.armedAt ≤ t then t + 8000000 else d.tt.armedAt
  | none => d.tt.armedAt

/-- A TTSYNC is noted as sent. -/
def Dev.ttsyncNoted (d : Dev) (t : Nat) : Dev := { d with net := { d.net with ttSent := some t } }

/-- TTSYNC goes out on every listed connection. -/
def Dev.ttsyncAll (d : Dev) (l : List Nat) : Dev := l.foldl (fun d c => d.sendTtsync c true) d

theorem Dev.ttConns_noted (d : Dev) (at_ t : Nat) : ((d.advance at_).ttsyncNoted t).ttConns = d.ttConns := by
  have hget : ((d.advance at_).ttsyncNoted t).bget Cat.NET_TTSYNC_CONNS = d.bget Cat.NET_TTSYNC_CONNS :=
    congrArg (Tbl.getD · Cat.NET_TTSYNC_CONNS []) (d.advance_blob at_)
  unfold Dev.ttConns
  rw [hget]

theorem execTtsyncSendD_armed {d : Dev} (h : d.tt.st = .armed) : execTtsyncSendD d =
    ((d.advance d.ttsyncDue).ttsyncNoted (max d.ttsyncDue d.tt.armedAt)).ttsyncAll d.ttConns := by
  have hsend : execTtsyncSendD d =
      let e := (d.advance d.ttsyncDue).ttsyncNoted (max d.ttsyncDue (d.advance d.ttsyncDue).tt.armedAt)
      e.ttsyncAll e.ttConns := (if_neg (not_not.mpr h)).trans rfl
  rw [hsend]
  dsimp only
  rw [Dev.advance_tt, Dev.ttConns_noted]

/-! ### The obligation -/

/-- Settles O58: each command is the branches of its function; a connection in ERROR, a packet that leaves and a seal that lands
are followed by what keeps connections, counters and regions. -/
theorem connectionsSendAndRecover : Obligations.ConnectionsSendAndRecover := by
  refine ⟨fun s at_ c => ⟨fun hc => ?_, fun x hx => ?_⟩, fun s c => ⟨fun hc => ?_, fun x hx => ?_⟩, fun d c x hx => ?_,
    fun s k => ?_, fun s => ?_⟩
  · exact ⟨Acts.of_eq rfl (execPacketTransmitD_noConn hc) rfl, Acts.of_eq rfl (execSealLandD_noConn hc) rfl,
      Acts.of_eq rfl (execConnectionDrainEndD_noConn hc) rfl, Acts.of_eq rfl (execContextFetchCompleteD_noConn hc) rfl⟩
  · intro may due room
    have hdue (h : may) (hnone : due = none) :
        execPacketTransmitD at_ c s.dev = (s.dev.advance at_).sendQueued c x :=
      (execPacketTransmitD_may hx h).trans (Dev.sendDue_queued hnone)
    refine ⟨fun h => Acts.of_eq rfl (execPacketTransmitD_not hx h) rfl,
      fun q y h hdue => Acts.of_eq rfl ((execPacketTransmitD_may hx h).trans (Dev.sendDue_again hdue)) rfl,
      fun h hnone hq => Acts.of_eq rfl ((hdue h hnone).trans (Dev.sendQueued_nil hq)) rfl,
      fun i rest h hnone hq => ⟨fun hr => Acts.of_eq rfl ((hdue h hnone).trans ((Dev.sendQueued_cons hq).1 hr)) rfl,
        fun hr => Acts.of_eq rfl ((hdue h hnone).trans ((Dev.sendQueued_cons hq).2 hr)) rfl⟩,
      fun h => Acts.of_eq rfl (execSealLandD_waits hx h) rfl, fun w hw hserved => ?_, fun w hw ht hserved => ?_,
      fun h => Acts.of_eq rfl (execContextFetchCompleteD_here hx h) rfl, fun hres hbad => ?_, fun hres hok => ?_,
      fun h => Acts.of_eq rfl (execConnectionDrainEndD_not hx h) rfl,
      fun hst h => Acts.of_eq rfl (execConnectionDrainEndD_ends hx hst h) (Dev.drainEnded_effect _ c x)⟩
    · exact Acts.of_eq rfl ((execSealLandD_front hx hw).trans (if_neg (by simp [hserved]))) rfl
    · exact Acts.of_eq rfl ((execSealLandD_front hx hw).trans (if_pos (by simp [ht, hserved])))
        ⟨rfl, fun y hy => Dev.landSeal_seals _ c w hy, Dev.landSeal_landed _ c w⟩
    · exact Acts.of_eq rfl ((execContextFetchCompleteD_away hx (by omega)).trans (Dev.contextFetched_fails hres hbad))
        ⟨Dev.authFailed_conn hx, Dev.mem_unheld _ c, Dev.authFailed_counted hx⟩
    · exact Acts.of_eq rfl ((execContextFetchCompleteD_away hx hres).trans (Dev.contextFetched_resumes hok)) rfl
  · exact ⟨Acts.of_eq rfl (execAckDelayD_noConn hc) rfl, Acts.of_eq rfl (execTaintHoldExpiryD_noConn hc) rfl,
      fun q => Acts.of_eq rfl (execRtoExpiryD_noConn hc q) rfl⟩
  · exact ⟨fun h => Acts.of_eq rfl (execAckDelayD_none hx h) rfl, fun t h => Acts.of_eq rfl (execAckDelayD_some hx h) rfl,
      fun h => Acts.of_eq rfl (execTaintHoldExpiryD_none hx h) rfl,
      fun w hw ht => Acts.of_eq rfl (execTaintHoldExpiryD_some hx hw ht) rfl,
      fun q => ⟨fun h => Acts.of_eq rfl (execRtoExpiryD_none hx h) rfl,
        fun r y h => Acts.of_eq rfl (execRtoExpiryD_some hx h) rfl⟩⟩
  · refine ⟨fun q r y h => ⟨fun hmany => ?_, fun hfew => ?_⟩,
      fun cause hst => ⟨Dev.connError_empties hx hst cause, Dev.connError_counted hx hst cause⟩,
      fun op flags region q step ext extLen payload hup => ⟨Dev.sendPkt_pn hx hup op flags region q step ext extLen payload,
        d.nextPkt x op flags region q step ext payload, d.take.1,
        Dev.sendPkt_out hx hup op flags region q step ext extLen payload,
        rfl, rfl, rfl, rfl, rfl, rfl, rfl, rfl, rfl, rfl, rfl, rfl⟩,
      d.endRound_loss, d.endRound_clean, d.endRound_marked⟩
    · rw [Dev.updConn_some hx]
      exact (Dev.loseSeq_found hx h).trans (if_pos hmany)
    · rw [(Dev.loseSeq_found hx h).trans (if_neg (by omega))]
      exact ⟨_, Dev.conn?_setConn _ _ _, rfl, Conn.sendsAgain_sent _ q _ _⟩
  · refine ⟨fun h => Acts.of_eq rfl (execVersionHoldRetryD_none h) rfl,
      fun h hh => ⟨_, rfl, fun hc => ?_, fun x hx => ⟨fun f hf => ?_, fun hf => ?_⟩⟩,
      fun h => Acts.of_eq rfl (execHoldTimeoutD_none h) rfl, fun h hh => Acts.of_eq rfl (execHoldTimeoutD_some hh) ?_,
      fun h => Acts.of_eq rfl (execReadTimeoutD_none h) rfl, fun r hr h => Acts.of_eq rfl (execReadTimeoutD_unacked hr h) rfl,
      fun r t hr h => Acts.of_eq rfl (execReadTimeoutD_acked hr h) ?_⟩
    · exact execVersionHoldRetryD_noConn hh hc
    · exact execVersionHoldRetryD_decided hh hx hf
    · rw [execVersionHoldRetryD_kept hh hx hf]
      exact ⟨getElem?_listSet _ _ (by rw [Dev.advance_net]; exact hh), Dev.advance_now _ _⟩
    · refine ⟨?_, ?_, ?_, ?_⟩
      · rw [Dev.bump_net, Dev.unholdAt, Dev.advance_net]
      · rw [Dev.bump_now]
        exact Dev.advance_now _ _
      · rw [Dev.bump_net, Dev.unholdAt, Dev.advance_net]
      · rw [Dev.cget_bump, if_pos rfl]
        exact congrArg (· + 1) (Dev.cget_advance _ _ _)
    · dsimp only
      rw [Dev.cget_advance]
      exact ⟨fun h => if_pos h, fun h => if_neg (not_lt.mpr h)⟩
  · exact ⟨fun h => Acts.of_eq rfl (if_pos h) rfl, fun h => Acts.of_eq rfl (execTtsyncSendD_armed h) rfl⟩

end Sys2Proof.Machine
end
